-- ==== Sys2Proof/Word.lean ====
section
/-! DEFINITION. Bit-field arithmetic on natural numbers: the words, records and descriptors of the manual are
read little-endian (R5) into one number, whose bits are named [hi:lo] as the manual names them. -/
namespace Sys2Proof

/-- One byte of memory. -/
abbrev Byte := BitVec 8

/-- Bits [hi:lo] of n, as the manual writes a field. -/
def bits (n hi lo : Nat) : Nat := (n >>> lo) % 2 ^ (hi + 1 - lo)

/-- Bit i of n. -/
def bit (n i : Nat) : Bool := (n >>> i) % 2 == 1

/-- The one-bit number of a Bool. -/
def b2n (b : Bool) : Nat := if b then 1 else 0

/-- n with bits [hi:lo] replaced by v (its excess bits dropped). -/
def setBits (n hi lo v : Nat) : Nat :=
  n - (bits n hi lo) * 2 ^ lo + (v % 2 ^ (hi + 1 - lo)) * 2 ^ lo

/-- n rounded up to a multiple of k. -/
def alignUp (n k : Nat) : Nat := (n + k - 1) / k * k

/-- n rounded down to a multiple of k. -/
def alignDown (n k : Nat) : Nat := n / k * k

/-- The quotient of n by k, rounded up. -/
def ceilDiv (n k : Nat) : Nat := (n + k - 1) / k

/-- The signed reading of the low w bits of n. -/
def toSigned (w n : Nat) : Int :=
  let v := n % 2 ^ w
  if v < 2 ^ (w - 1) then (v : Int) else (v : Int) - (2 ^ w : Nat)

/-- The low w bits of the two's complement form of z. -/
def ofSigned (w : Nat) (z : Int) : Nat := (z % (2 ^ w : Nat)).toNat

/-- The bytes of n, least significant first (R5). -/
def toBytes (n : Nat) : Nat → List Nat
  | 0 => []
  | k + 1 => n % 256 :: toBytes (n / 256) k

/-- The number a list of bytes spells, least significant first (R5). -/
def ofBytes : List Nat → Nat
  | [] => 0
  | b :: bs => b % 256 + 256 * ofBytes bs

/-- Element i of a list of numbers, 0 beyond its end. -/
def nth (l : List Nat) (i : Nat) : Nat := l.getD i 0

/-- The list with element i replaced. -/
def setNth {α : Type} (l : List α) (i : Nat) (v : α) : List α := l.set i v

/-- Addition of 64-bit counters, which the manual never lets wrap in service. -/
def add64 (a b : Nat) : Nat := (a + b) % 2 ^ 64

/-- v bounded to [lo, hi] (R9). -/
def clampTo (lo hi v : Nat) : Nat := if v < lo then lo else if hi < v then hi else v

end Sys2Proof
end

