-- ==== Sys2Proof/Syntax.lean ====
section
/-! DEFINITION. The commands. -/
namespace Sys2Proof

/-- What makes a block lend a cell (R94, R512): the ns since it last started a pass, its cycles of background compute in the present 1
s window, and its cycles of that window in all. DESIGN CHOICE (notes/assumptions/8): safe. -/
structure IdleSpan where
  ns     : Nat
  used   : Nat
  cycles : Nat
deriving DecidableEq, Repr

/-- Why a Director core is taken for failed (R25, R413): the ms since its last heartbeat, or an error in its local memory by its
ErrorKind, 0 for none. DESIGN CHOICE (notes/assumptions/8): safe. -/
structure CoreMiss where
  ms  : Nat
  err : Nat
deriving DecidableEq, Repr

/-- A read of BAR0 (R7, R8): its offset and its width in bytes. -/
structure RegRead where
  off : Nat
  n   : Nat
deriving DecidableEq, Repr

/-- The mark the Director gives a watched command and its producer (R293): its layer, the slate of each output row, the address that the
copies of its producer name (none for decode rows, whose producer is the layer's ATTN_MERGE), the copies it issues, for the re-run of a
fallback the address that the watched command's copies name (R299), and whether it is the producer of prefill rows. DESIGN CHOICE
(notes/assumptions/8): safe. DESIGN CHOICE (notes/assumptions/62): unsafe. -/
structure Watch where
  layer    : Nat
  slates   : List Nat
  producer : Option Nat
  copies   : Nat
  rerun    : Option Nat
  makes    : Bool
deriving DecidableEq, Repr

/-- Where an engine command comes from: the head of a stream, a descriptor that the Director issues for the serving context of a
partition (R198), or a command of layer l of the running step that the Director forms itself (R159, R285, R299): part says which of
the layer's commands of its opcode it is, and rest holds the bits of the operand area that name the Director's own memory. DESIGN
CHOICE (notes/assumptions/8): safe. -/
inductive CmdSource where
  | stream (p ctx : Nat)
  | director (p desc : Nat) (watch : Option Watch)
  | layer (p part l rest : Nat)
deriving DecidableEq, Repr

/-- An Eloaphor PDU (R443). -/
structure Pdu where
  version : Nat
  op      : Nat
  flags   : Nat
  result  : Nat
  session : Nat
  txid    : Nat
  seq     : Nat
  body    : List Nat
  tag     : List Nat
deriving DecidableEq, Repr

/-- A call sheet (R219, R220): the header and the entries of each list as the manual lays them out. -/
structure CallSheet where
  header  : Nat
  run     : List Nat
  prefill : List Nat
  admits   : List Nat
  join    : List Nat
  leave   : List Nat
  held    : List Nat
  take    : List Nat
  tokens  : List Nat
deriving DecidableEq, Repr

/-- A commit notice (R225): the fields of its header, its outcomes as the manual lays them out, for each outcome's slate its
home, its committed length before the step and its context, by which a home writes the record of a sequence that has no home-table
entry and a holder keeps the frames of a fenced context (R174), and whether the instance stops. DESIGN CHOICE
(notes/assumptions/36): what R225 does not list goes with the notice. -/
structure Notice where
  inst      : Nat
  step      : Nat
  time      : Nat
  abandoned : Bool
  nextEpoch : Nat
  outcomes  : List Nat
  dests     : List (Nat × Nat × Nat × Nat)
  /-- the instance stops with this step (R199) -/
  ends      : Bool
deriving DecidableEq, Repr

/-- What a follower, a standby or the lead itself states when it acknowledges START (R260, R278, R366). -/
structure StartAck where
  rank    : Nat
  node    : Nat
  inst    : Nat
  size    : Nat
  lead    : Nat
  mapCrc  : Nat
  gen     : Nat
  standby : Bool
  pools   : List Nat
  exportUnits : Nat
  bound   : Nat
  avail   : List Nat
  space   : Nat
  gate    : Bool
deriving DecidableEq, Repr

/-- A RUN report (R222): this module's own, with the address of the drawn token of each planned sequence that runs no take,
or one that reaches the lead. -/
inductive Report where
  | own (draws : List (Nat × Nat))
  | fromRank (rank : Nat) (entries : List Nat)
deriving DecidableEq, Repr

/-- A norm word (R303): this holder's own for a slate, or one that reaches the home. -/
inductive NormMsg where
  | own (slate : Nat)
  | word (w : Nat)
deriving DecidableEq, Repr

/-- An acknowledgement of a notice (R227, R260, R400): available frames per stack, the home's free completion space, the
BE gate, and the size of each segment written: slate, stack and bytes. -/
structure Ack where
  rank  : Nat
  avail : List Nat
  space : Nat
  gate  : Bool
  segs  : List (Nat × Nat × Nat)
deriving DecidableEq, Repr

/-- What COMMIT_APPLY takes: the lead's own notice, a notice that reaches a follower, or an acknowledgement that reaches the
lead. -/
inductive CommitMsg where
  | own
  | notice (n : Notice)
  | ack (a : Ack)
deriving DecidableEq, Repr

/-- A row of an attention batch: the stack of a feed row (0 for a merge record), its offset in the feed or merge area, and
its bytes. -/
structure AttnRow where
  stack : Nat
  off   : Nat
  bytes : List Nat
deriving DecidableEq, Repr

/-- An attention batch (R190): the sender's partition, context and generation, its kind (feed or return), and its rows. -/
structure AttnBatch where
  p    : Nat
  ctx  : Nat
  gen  : Nat
  feed : Bool
  rows : List AttnRow
deriving DecidableEq, Repr

/-- An expert batch (R281): its header, and its rows as row header and data bytes. -/
structure ExpBatch where
  p      : Nat
  header : Nat
  rows   : List (Nat × List Nat)
deriving DecidableEq, Repr

/-- An identity record (R349): of a module, or of a switch port. -/
structure IdRec where
  switch  : Bool
  serial  : Nat
  node    : Nat
  group   : Nat
  profile : Nat
  crc     : Nat
  plane   : Nat
  port    : Nat
deriving DecidableEq, Repr

/-- An engine whose reset does not end: engine e, and whether its reset controller fails or only its time is over (R422). -/
structure Overrun where
  e     : Nat
  fails : Bool
deriving DecidableEq, Repr

/-- The IEEE 1588 messages a slave of the delay request-response mechanism takes (R373): Sync of a one-step or two-step master, Follow_Up
and Delay_Resp. -/
inductive PtpKind where
  | sync (twoStep : Bool)
  | followUp
  | delayResp
deriving DecidableEq, Repr

/-- An IEEE 1588 message: its transport (0 UDP/IPv4, 1 UDP/IPv6, 2 IEEE 802.3), kind, sequence number, and time stamp with its
correction in 1/16 ns. -/
structure PtpMsg where
  transport : Nat
  kind      : PtpKind
  seq       : Nat
  stamp     : Int
deriving DecidableEq, Repr

/-- A sign of a failing regulator phase (an overcurrent trip; its output off its set point by mV for ns; its temperature) or converter stage
(an output fault; its temperature; an input fault) (R416). -/
inductive PowerSign where
  | trip
  | output (mv ns : Nat)
  | heat (celsius : Nat)
  | stageOutput
  | stageHeat (celsius : Nat)
  | stageInput
deriving DecidableEq, Repr

/-- A window report of a trade member (R398): its window, its blame by node in ns, its Grant and TradeOffset. -/
structure TradeReport where
  node   : Nat
  window : Nat
  blame  : List (Nat × Nat)
  grant  : Nat
  offset : Int
deriving DecidableEq, Repr

/-- A RoCE request that arrives (R487): its port, addresses, PSN, key, remote address, data or read length, immediate value,
and whether it is marked congested. -/
structure RoceReq where
  port   : Nat
  srcIp  : Nat
  srcQpn : Nat
  dstQpn : Nat
  psn    : Nat
  rkey   : Nat
  addr   : Nat
  len    : Nat
  data   : List Nat
  imm    : Option Nat
  marked : Bool
deriving DecidableEq, Repr

/-- A received Ethernet frame (R483): address resolution or an echo request for an address, or any other traffic. -/
inductive EthFrame where
  | arp (ip : Nat)
  | ndp (ip : Nat)
  | echo (ip from_ : Nat) (payload : List Nat)
  | other
deriving DecidableEq, Repr

/-- A write of configuration space that the manual gives an effect (R470, R475, R476). -/
inductive ConfigWrite where
  | busMaster (on : Bool)
  | powerState (d3hot : Bool)
  | msix (enable mask : Bool)
  | hdmCommit (on : Bool)
deriving DecidableEq, Repr

/-- The part of a 64-bit register that a write covers (R7). -/
inductive RegPart where
  | whole | low | high
deriving DecidableEq, Repr

/-- The AtomicOps of R474. -/
inductive HostAtomic where
  | fetchAdd | swap | cas
deriving DecidableEq, Repr

/-- The commands, one constructor for each row of the opcode table. DESIGN CHOICE (notes/assumptions/8): safe. -/
inductive Instr where
  /-- NOP: on engine e -/
  | nop (e : Nat) (src : CmdSource)
  /-- DESCRIPTOR_FETCH: the stream of a context on engine e -/
  | descriptorFetch (p : Nat) (ctx : Nat) (e : Nat)
  /-- CUE_WRITE_SEEN: engine e, and the cue word written -/
  | cueWriteSeen (e : Nat) (addr : Nat)
  /-- UNIT_COMPLETE: engine e, on the encoder path of a codec unit; cell, kind of error (plus 4 where the re-issued tile
  takes a free slot of a next pass of its band) and tile of each failed tile -/
  | unitComplete (e : Nat) (encoder : Bool) (fails : List (Nat × Nat × Nat))
  /-- MATMUL: on block e -/
  | matmul (e : Nat) (src : CmdSource)
  /-- MATMUL_LIST: on block e -/
  | matmulList (e : Nat) (src : CmdSource)
  /-- MATMUL_PADDED: on block e -/
  | matmulPadded (e : Nat) (src : CmdSource)
  /-- VEC_RMSNORM: on block e -/
  | vecRmsnorm (e : Nat) (src : CmdSource)
  /-- VEC_SILU: on block e -/
  | vecSilu (e : Nat) (src : CmdSource)
  /-- VEC_GELU: on block e -/
  | vecGelu (e : Nat) (src : CmdSource)
  /-- VEC_GLU_SILU: on block e -/
  | vecGluSilu (e : Nat) (src : CmdSource)
  /-- VEC_ADD: on block e -/
  | vecAdd (e : Nat) (src : CmdSource)
  /-- VEC_SCALE: on block e -/
  | vecScale (e : Nat) (src : CmdSource)
  /-- SAMPLE: on Draw block e -/
  | sample (e : Nat) (src : CmdSource)
  /-- LOFT_FETCH_TIMEOUT: block e -/
  | loftFetchTimeout (e : Nat)
  /-- SPARE_CELL_JOIN: block e -/
  | spareCellJoin (e : Nat)
  /-- BLOCK_FAILURE: block e, with the passes it holds claimed -/
  | blockFailure (e : Nat) (claimed : List Nat)
  /-- CELL_LOAN: cell of block e -/
  | cellLoan (e : Nat) (cell : Nat) (idle : IdleSpan)
  /-- IST_SLICE_COMPLETE: a cell (kind 0) or attention core (kind 2) of engine e, sub-unit 31 the spare, or cell sub of
  the spare block of e = 192 + 2 r (Press) or 193 + 2 r (Draw) of region r; the signature found; whether the slice was cut short -/
  | istSliceComplete (kind : Nat) (e : Nat) (sub : Nat) (slice : Nat) (signature : Nat) (cut : Bool)
  /-- IST_ROTATION: a cell or attention core of engine e -/
  | istRotation (kind : Nat) (e : Nat) (sub : Nat)
  /-- LOFT_REFETCH: the codeword at an address, for partition p's storyboard -/
  | loftRefetch (p : Nat) (addr : Nat)
  /-- SCRUB_READ: the codeword at an address, with the symbols found in error -/
  | scrubRead (addr : Nat) (errs : List (Nat × Nat))
  /-- DIE_SPARE_START: die of a stack -/
  | dieSpareStart (stack : Nat) (die : Nat)
  /-- DIE_SPARE_SWITCH: a stack -/
  | dieSpareSwitch (stack : Nat)
  /-- DIE_FAILURE: die of a stack -/
  | dieFailure (stack : Nat) (die : Nat)
  /-- WEIGHT_RESTORE: the range restored -/
  | weightRestore (addr : Nat) (bytes : Nat)
  /-- VAULT_LOAD: the value written to VaultLoad -/
  | vaultLoad (value : Nat)
  /-- VAULT_LOAD_RUN -/
  | vaultLoadRun
  /-- VAULT_LOAD_ENTRY: whether the read-back returns what was written -/
  | vaultLoadEntry (good : Bool)
  /-- PLACEMENT_RELOAD: partition p -/
  | placementReload (p : Nat)
  /-- STORYBOARD_ENTRY_START: an entry of partition p's storyboard -/
  | storyboardEntryStart (p : Nat) (entry : Nat)
  /-- STORYBOARD_ENTRY_END: an entry of partition p's storyboard -/
  | storyboardEntryEnd (p : Nat) (entry : Nat)
  /-- DECODE: on codec unit e -/
  | decode (e : Nat) (src : CmdSource)
  /-- ENCODE: on codec unit e -/
  | encode (e : Nat) (src : CmdSource)
  /-- TABLE_LOAD: on codec unit e -/
  | tableLoad (e : Nat) (src : CmdSource)
  /-- TABLE_LOAD_COMPLETE: table slot -/
  | tableLoadComplete (slot : Nat)
  /-- TABLE_RETIRE: on codec unit e -/
  | tableRetire (e : Nat) (src : CmdSource)
  /-- TABLE_SLOT_EMPTY: table slot -/
  | tableSlotEmpty (slot : Nat)
  /-- TABLE_SAVE: on codec unit e -/
  | tableSave (e : Nat) (src : CmdSource)
  /-- ATTEND: on stack engine e -/
  | attend (e : Nat) (src : CmdSource)
  /-- ATTN_FEED: on relay engine e -/
  | attnFeed (e : Nat) (src : CmdSource)
  /-- ATTN_RETURN: on relay engine e -/
  | attnReturn (e : Nat) (src : CmdSource)
  /-- ATTN_MERGE: on relay engine e -/
  | attnMerge (e : Nat) (src : CmdSource)
  /-- ATTN_BATCH_RECEIVED: a feed or return batch -/
  | attnBatchReceived (b : AttnBatch)
  /-- PLAN: partition p, and the storyboard the Director names -/
  | plan (p : Nat) (story : Nat)
  /-- CALL_SHEET_RECEIVED: partition p -/
  | callSheetReceived (p : Nat) (sheet : CallSheet)
  /-- RUN_START: partition p -/
  | runStart (p : Nat)
  /-- RUN_REPORT: partition p -/
  | runReport (p : Nat) (report : Report)
  /-- NORM_WORD: partition p -/
  | normWord (p : Nat) (msg : NormMsg)
  /-- COMMIT: partition p -/
  | commit (p : Nat)
  /-- STEP_ABANDON: partition p -/
  | stepAbandon (p : Nat)
  /-- COMMIT_APPLY: partition p -/
  | commitApply (p : Nat) (msg : CommitMsg)
  /-- SUBMIT: the next request entry of partition p -/
  | submit (p : Nat)
  /-- CANCEL: the next cancel entry of partition p -/
  | cancel (p : Nat)
  /-- PARK: the next request entry of partition p -/
  | park (p : Nat)
  /-- UNPARK: the next request entry of partition p -/
  | unpark (p : Nat)
  /-- TAKE: a slate's take, and where its drawn tokens lie -/
  | take (p : Nat) (slate : Nat) (tokenAddr : Nat)
  /-- ATTACH: the next take-list entry of partition p -/
  | attach (p : Nat)
  /-- COPY_ON_WRITE: the next take-list entry of partition p -/
  | copyOnWrite (p : Nat)
  /-- INSERT: the next take-list entry of partition p -/
  | insert (p : Nat)
  /-- EVICT: the next take-list entry of partition p -/
  | evict (p : Nat)
  /-- PARK_ENTRY: the next park entry of partition p -/
  | parkEntry (p : Nat)
  /-- UNPARK_ENTRY: the next take-list entry of partition p -/
  | unparkEntry (p : Nat)
  /-- ROUTE: on router unit e -/
  | route (e : Nat) (src : CmdSource)
  /-- BUILD_LISTS: on router unit e, with the job-record templates of the layer's lists -/
  | buildLists (e : Nat) (src : CmdSource) (templates : List Nat)
  /-- EXP_DISPATCH: on relay engine e, with the first row of each region -/
  | expDispatch (e : Nat) (src : CmdSource) (rowBases : List Nat)
  /-- EXPERT_BATCH_RECEIVED: a dispatch or return batch -/
  | expertBatchReceived (b : ExpBatch)
  /-- EXP_GATHER: on relay engine e -/
  | expGather (e : Nat) (src : CmdSource)
  /-- EXP_RETURN: on relay engine e -/
  | expReturn (e : Nat) (src : CmdSource)
  /-- EXP_COMBINE: on relay engine e -/
  | expCombine (e : Nat) (src : CmdSource)
  /-- NORM_DECISION: partition p -/
  | normDecision (p : Nat)
  /-- FALLBACK_VERDICT: partition p -/
  | fallbackVerdict (p : Nat)
  /-- NORM_PROFILE_SAVE: partition p -/
  | normProfileSave (p : Nat)
  /-- PARTITION_START: partition p -/
  | partitionStart (p : Nat)
  /-- PARTITION_RUNNING: partition p -/
  | partitionRunning (p : Nat)
  /-- PARTITION_STOP: partition p -/
  | partitionStop (p : Nat)
  /-- CTX_OPEN: the next control entry of partition p -/
  | ctxOpen (p : Nat)
  /-- CTX_TEARDOWN: the next control entry of partition p -/
  | ctxTeardown (p : Nat)
  /-- CONTEXT_DRAINED: a context -/
  | contextDrained (p : Nat) (ctx : Nat)
  /-- CONTEXT_FREE: a context -/
  | contextFree (p : Nat) (ctx : Nat)
  /-- STREAM_BIND: the next control entry of partition p -/
  | streamBind (p : Nat)
  /-- STREAM_UNBIND: the next control entry of partition p -/
  | streamUnbind (p : Nat)
  /-- CTX_PREEMPT: the next control entry of partition p -/
  | ctxPreempt (p : Nat)
  /-- CTX_RESUME: the next control entry of partition p -/
  | ctxResume (p : Nat)
  /-- INSTANCE_START: partition p -/
  | instanceStart (p : Nat)
  /-- INSTANCE_START_ACK: what a member states -/
  | instanceStartAck (p : Nat) (ack : StartAck)
  /-- INSTANCE_DRAIN: partition p -/
  | instanceDrain (p : Nat)
  /-- INSTANCE_STOP: partition p -/
  | instanceStop (p : Nat)
  /-- DATA_FLIT: a flit of group g: what lane errors add to it, and its bytes -/
  | dataFlit (g : Nat) (errs : List Nat) (bytes : List Nat)
  /-- CONTROL_FLIT: a flit of group g -/
  | controlFlit (g : Nat) (errs : List Nat) (bytes : List Nat)
  /-- ACK_PROGRESS_TIMEOUT: group g -/
  | ackProgressTimeout (g : Nat)
  /-- RETRAIN_DONE: group g; whether it trained -/
  | retrainDone (g : Nat) (ok : Bool)
  /-- GROUP_TRAINED: group g; whether it trained -/
  | groupTrained (g : Nat) (ok : Bool)
  /-- LANE_ERROR_DETECT: a logical lane of group g, and its bit error rate as FP32 -/
  | laneErrorDetect (g : Nat) (lane : Nat) (ber : Nat) (lockLost : Bool)
  /-- LANE_SPARE_START: the value written to LaneSpareStart -/
  | laneSpareStart (v : Nat)
  /-- LINK_RESTORE: group g -/
  | linkRestore (g : Nat)
  /-- LINK_PLAN_APPLY -/
  | linkPlanApply
  /-- IDENTITY_SEND: group g -/
  | identitySend (g : Nat)
  /-- IDENTITY_RECORD: a record received on group g -/
  | identityRecord (g : Nat) (r : IdRec)
  /-- WRITE_PACKET: a packet on a channel -/
  | writePacket (chan : Nat) (header : Nat) (data : List Nat)
  /-- COLLECTIVE_PACKET: a packet on a channel -/
  | collectivePacket (chan : Nat) (header : Nat) (data : List Nat)
  /-- ACK_PACKET: a packet on a channel -/
  | ackPacket (chan : Nat) (header : Nat)
  /-- ABORT_PACKET: a packet on a channel -/
  | abortPacket (chan : Nat) (header : Nat)
  /-- TRANSFER_ACK_TIMEOUT: a transfer to a node -/
  | transferAckTimeout (node : Nat) (tag : Nat)
  /-- PLANES: the sender and its planes -/
  | planes (node : Nat) (mask : Nat)
  /-- LINK: the sender and the groups mapped out -/
  | link (node : Nat) (mask : Nat)
  /-- FENCED: the node -/
  | fenced (node : Nat)
  /-- RESET: the node -/
  | reset (node : Nat)
  /-- REMOVED: the node -/
  | removed (node : Nat)
  /-- PEER_LOST: the node found unreachable -/
  | peerLost (node : Nat)
  /-- SHAPE: AbsentMask, ShapeEpoch, and the rank assigned to a node -/
  | shape (p : Nat) (mask : Nat) (epoch : Nat) (assign : Option (Nat × Nat))
  /-- CAPACITY: the sender and its active counts -/
  | capacity (node : Nat) (mask : Nat)
  /-- PATH_LOSS: the node -/
  | pathLoss (node : Nat)
  /-- SUBSTITUTE_TIMEOUT: partition p -/
  | substituteTimeout (p : Nat)
  /-- RANK_READY: a rank of partition p's instance -/
  | rankReady (p : Nat) (r : Nat)
  /-- TIME_HOLDOVER -/
  | timeHoldover
  /-- PTP_MESSAGE: an IEEE 1588 message on an Ethernet port, of a domain -/
  | ptpMessage (port : Nat) (domain : Nat) (m : PtpMsg)
  /-- COPY: on relay engine e -/
  | copy (e : Nat) (src : CmdSource)
  /-- ALL_REDUCE: on relay engine e -/
  | allReduce (e : Nat) (src : CmdSource)
  /-- REDUCE_SCATTER: on relay engine e -/
  | reduceScatter (e : Nat) (src : CmdSource)
  /-- ALL_GATHER: on relay engine e -/
  | allGather (e : Nat) (src : CmdSource)
  /-- BROADCAST: on relay engine e -/
  | broadcast (e : Nat) (src : CmdSource)
  /-- ALL_TO_ALL: on relay engine e -/
  | allToAll (e : Nat) (src : CmdSource)
  /-- RDMA_WRITE: on relay engine e -/
  | rdmaWrite (e : Nat) (src : CmdSource)
  /-- RDMA_READ: on relay engine e -/
  | rdmaRead (e : Nat) (src : CmdSource)
  /-- INCOMING_RDMA_WRITE: a WRITE request -/
  | incomingRdmaWrite (r : RoceReq)
  /-- INCOMING_RDMA_READ: a READ request -/
  | incomingRdmaRead (r : RoceReq)
  /-- ROCE_ACK: a queue pair by its number on the wire; the reason of a NAK -/
  | roceAck (port : Nat) (qpn : Nat) (psn : Nat) (nak : Option Nat)
  /-- ROCE_TIMEOUT: a queue pair -/
  | roceTimeout (port : Nat) (qp : Nat)
  /-- CNP: a queue pair by its number on the wire -/
  | cnp (port : Nat) (qpn : Nat)
  /-- ROCE_RATE_RAISE: a queue pair -/
  | roceRateRaise (port : Nat) (qp : Nat)
  /-- ROCE_QP_RELOAD: port × 1,024 + index -/
  | roceQpReload (v : Nat)
  /-- ROCE_KEY_RELOAD: a key table entry -/
  | roceKeyReload (key : Nat)
  /-- NETWORK_FRAME: a received frame -/
  | networkFrame (port : Nat) (f : EthFrame)
  /-- ETH_LINK_CHANGE: an Ethernet port -/
  | ethLinkChange (port : Nat) (up : Bool)
  /-- PRECHARGE_ENTRY: the TRAY_POS straps -/
  | prechargeEntry (straps : Nat)
  /-- PRECHARGE_COMPLETE: voltages in mV -/
  | prechargeComplete (bulk : Nat) (input : Nat)
  /-- PRECHARGE_FAIL: voltages in mV -/
  | prechargeFail (bulk : Nat) (input : Nat)
  /-- PRECHARGE_RETRY -/
  | prechargeRetry
  /-- PRES_N_RELEASE: ns from the break of PRES_N to that of the main contacts -/
  | presNRelease (gap : Nat)
  /-- INPUT_UNDERVOLTAGE: input voltage in mV -/
  | inputUndervoltage (mv : Nat)
  /-- INPUT_OVERVOLTAGE: input voltage in mV -/
  | inputOvervoltage (mv : Nat)
  /-- INPUT_RESTART: input voltage in mV -/
  | inputRestart (mv : Nat)
  /-- SUPPLY_SAG: input voltage in mV -/
  | supplySag (mv : Nat)
  /-- DERATE_N -/
  | derateN
  /-- SUPPLY_LIMIT_CLEAR -/
  | supplyLimitClear
  /-- HOLD_UP_EXHAUSTED -/
  | holdUpExhausted
  /-- POWER_UNIT_FAILURE: what a converter stage, or a regulator phase of a region, shows -/
  | powerUnitFailure (sign : PowerSign) (region : Nat) (unit : Nat)
  /-- GOVERNOR_PERIOD: average input power in W, input voltage in mV, and the predicted draw in W of each operating point -/
  | governorPeriod (avg : Nat) (mv : Nat) (draw : List Nat)
  /-- FAST_PATH -/
  | fastPath
  /-- FAST_PATH_STEP: the 10 us average in W, and the depths applied -/
  | fastPathStep (avg : Nat) (stretch : Nat) (duty : Nat)
  /-- OP_STEP -/
  | opStep
  /-- LEASE_COMMIT: the value written to LeaseCommit -/
  | leaseCommit (v : Nat)
  /-- LEASE_EXPIRY -/
  | leaseExpiry
  /-- THERMAL_COMPARE: the hottest estimate in °C, its sensor, and average input power in W -/
  | thermalCompare (hottest : Int) (avg : Nat) (sensor : Nat)
  /-- THERMAL_TRIP: a junction sensor and its raw reading in °C -/
  | thermalTrip (sensor : Nat) (raw : Int)
  /-- COOLANT_SAMPLE: raw flow and temperatures -/
  | coolantSample (flow : Nat) (inlet : Int) (outlet : Int)
  /-- DROOP: a region -/
  | droop (region : Nat)
  /-- DROOP_RELEASE: a region -/
  | droopRelease (region : Nat)
  /-- RAMP_SLOT: the format class of each engine that restarts -/
  | rampSlot (region : Nat) (classes : List (Nat × Nat))
  /-- ENERGY_WINDOW: average input power in W -/
  | energyWindow (avg : Nat)
  /-- TRADE_WINDOW_END: the number of the window that ends -/
  | tradeWindowEnd (window : Nat)
  /-- TRADE_REPORT: a member's report -/
  | tradeReport (r : TradeReport)
  /-- TRADE_TOKEN: GIVE or RETURN of watts from a node -/
  | tradeToken (node : Nat) (give : Bool) (watts : Nat)
  /-- WATCHDOG_EXPIRY: engine e; the attention core blamed; the Director's command whose unit runs -/
  | watchdogExpiry (e : Nat) (core : Option Nat) (lost : Option (Nat × Nat))
  /-- HEARTBEAT_MISS: a Director core -/
  | heartbeatMiss (core : Nat) (miss : CoreMiss)
  /-- REMOTE_WAIT_EXPIRY: a context's waits on engine e -/
  | remoteWaitExpiry (e : Nat) (p : Nat) (ctx : Nat)
  /-- MESH_TIMEOUT: engine e, and the target as UnitKind × 256 + logical number -/
  | meshTimeout (e : Nat) (target : Nat) (lost : Option (Nat × Nat))
  /-- ENGINE_RESET: engine e -/
  | engineReset (e : Nat) (lost : Option (Nat × Nat))
  /-- ENGINE_RESET_END: engine e -/
  | engineResetEnd (e : Nat)
  /-- RESET_OVERRUN: how an engine's reset failed to end -/
  | resetOverrun (r : Overrun)
  /-- ENTER_FENCED -/
  | enterFenced
  /-- DUMP_START -/
  | dumpStart
  /-- DUMP_COMPLETE: the units that did not answer -/
  | dumpComplete (late : List Nat)
  /-- FAULT_LOG_COMMIT -/
  | faultLogCommit
  /-- UNIT_RESTORE: the value written to UnitRestore, and whether the unit passes its test -/
  | unitRestore (v : Nat) (pass : Bool)
  /-- REFCLK_LOSS -/
  | refclkLoss
  /-- READ: a PDU from a source of a path -/
  | read (path : Nat) (src : Nat) (p : Pdu)
  /-- WRITE: a PDU from a source of a path -/
  | write (path : Nat) (src : Nat) (p : Pdu)
  /-- DESCRIBE: a PDU from a source of a path -/
  | describe (path : Nat) (src : Nat) (p : Pdu)
  /-- LIST: a PDU from a source of a path -/
  | list (path : Nat) (src : Nat) (p : Pdu)
  /-- BLOB_READ: a PDU from a source of a path -/
  | blobRead (path : Nat) (src : Nat) (p : Pdu)
  /-- BLOB_WRITE: a PDU from a source of a path -/
  | blobWrite (path : Nat) (src : Nat) (p : Pdu)
  /-- BLOB_TRANSFER_TIMEOUT: a session -/
  | blobTransferTimeout (id : Nat)
  /-- CHALLENGE: a PDU from a source of a path -/
  | challenge (path : Nat) (src : Nat) (p : Pdu)
  /-- LOGIN: a PDU from a source of a path -/
  | login (path : Nat) (src : Nat) (p : Pdu)
  /-- LOGIN_TIMEOUT: a session -/
  | loginTimeout (id : Nat)
  /-- LOGOUT: a PDU from a source of a path -/
  | logout (path : Nat) (src : Nat) (p : Pdu)
  /-- SESSION_IDLE_TIMEOUT: a session -/
  | sessionIdleTimeout (id : Nat)
  /-- SESSION_CLOSE: a session -/
  | sessionClose (id : Nat)
  /-- SUBSCRIBE: a PDU from a source of a path -/
  | subscribe (path : Nat) (src : Nat) (p : Pdu)
  /-- UNSUBSCRIBE: a PDU from a source of a path -/
  | unsubscribe (path : Nat) (src : Nat) (p : Pdu)
  /-- EVENT_ACK: a PDU from a source of a path -/
  | eventAck (path : Nat) (src : Nat) (p : Pdu)
  /-- EVENT_RESEND: a subscriber slot -/
  | eventResend (slot : Nat)
  /-- DISCOVER: a PDU from a source of a path -/
  | discover (path : Nat) (src : Nat) (p : Pdu)
  /-- PERSIST_COMMIT -/
  | persistCommit
  /-- RESTORE_DEFAULTS -/
  | restoreDefaults
  /-- USER_CAL_RESET -/
  | userCalReset
  /-- HP_MBX_DOORBELL: a write through host port h -/
  | hpMbxDoorbell (h : Nat) (part : RegPart) (v : Nat)
  /-- HP_MBX_EVT_ACK: a write through host port h -/
  | hpMbxEvtAck (h : Nat) (part : RegPart) (v : Nat)
  /-- REGISTER_WRITE: bytes at a BAR0 offset -/
  | registerWrite (h : Nat) (off : Nat) (data : List Nat)
  /-- LOW_HALF_READ: through host port h -/
  | lowHalfRead (h : Nat) (r : RegRead)
  /-- HIGH_HALF_READ: a register by its BAR0 offset -/
  | highHalfRead (h : Nat) (off : Nat)
  /-- DIR_REQ_DOORBELL: a write to partition p's page -/
  | dirReqDoorbell (h : Nat) (p : Nat) (part : RegPart) (v : Nat)
  /-- DIR_CANCEL_DOORBELL: a write to partition p's page -/
  | dirCancelDoorbell (h : Nat) (p : Nat) (part : RegPart) (v : Nat)
  /-- DIR_CPL_DOORBELL: a write to partition p's page -/
  | dirCplDoorbell (h : Nat) (p : Nat) (part : RegPart) (v : Nat)
  /-- DIR_CMD_DOORBELL: a write to partition p's page -/
  | dirCmdDoorbell (h : Nat) (p : Nat) (part : RegPart) (v : Nat)
  /-- DIR_CTL_DOORBELL: a write to partition p's page -/
  | dirCtlDoorbell (h : Nat) (p : Nat) (part : RegPart) (v : Nat)
  /-- PWR_CAP_REQ: a write through host port h -/
  | pwrCapReq (h : Nat) (part : RegPart) (v : Nat)
  /-- FLT_PENDING: a write through host port h -/
  | fltPending (h : Nat) (part : RegPart) (v : Nat)
  /-- BAR2_READ: n bytes at a BAR2 offset -/
  | bar2Read (h : Nat) (off : Nat) (n : Nat)
  /-- BAR2_WRITE: bytes at a BAR2 offset -/
  | bar2Write (h : Nat) (off : Nat) (data : List Nat) (poisoned : Bool)
  /-- ATOMIC_OP: an AtomicOp of size bytes; b is what CAS writes -/
  | atomicOp (h : Nat) (off : Nat) (size : Nat) (op : HostAtomic) (a : Nat) (b : Nat)
  /-- HOST_READ_COMPLETION: data for the read at a window address -/
  | hostReadCompletion (h : Nat) (addr : Nat) (data : List Nat) (poisoned : Bool)
  /-- COMPLETION_TIMEOUT: the read at a window address -/
  | completionTimeout (h : Nat) (addr : Nat)
  /-- SURPRISE_DOWN: host port h -/
  | surpriseDown (h : Nat)
  /-- HOST_LINK_UP: what the link trains to; whether the port is enumerated again -/
  | hostLinkUp (h : Nat) (width : Nat) (rate : Nat) (flit : Bool) (cxl : Bool) (again : Bool)
  /-- FUNCTION_LEVEL_RESET: host port h -/
  | functionLevelReset (h : Nat)
  /-- PERST_N: host port h; whether the signal falls -/
  | perstN (h : Nat) (low : Bool)
  /-- BOOT_DONE: whether the seal of each copy of the factory area verifies -/
  | bootDone (sealA : Bool) (sealB : Bool)
  /-- SELFTEST_DONE: UnitKind, engine and sub-unit of each failed unit -/
  | selftestDone (failed : List (Nat × Nat × Nat))
  /-- TRAINING_END -/
  | trainingEnd
  /-- MODULE_DRAIN -/
  | moduleDrain
  /-- DRAIN_TIMEOUT -/
  | drainTimeout
  /-- DRAIN_COMPLETE -/
  | drainComplete
  /-- RESTART -/
  | restart
  /-- RESTART_KEEP -/
  | restartKeep
  /-- SAFE_RELEASE: the hottest junction in °C -/
  | safeRelease (hottest : Int)
  /-- STANDBY -/
  | standby
  /-- WAKE -/
  | wake
  /-- FW_STAGE: where the image lies, and whether its signature verifies -/
  | fwStage (addr : Nat) (sigOk : Bool)
  /-- FW_STAGE_DONE: whether the read-back returns what was written -/
  | fwStageDone (ok : Bool)
  /-- FW_ACTIVATE: the value written to FwActivate -/
  | fwActivate (v : Nat)
  /-- FW_HEALTH_CHECK: an instance as kind × 256 + number; whether its unit has reported healthy -/
  | fwHealthCheck (key : Nat) (healthy : Bool)
  /-- FW_TRIAL_END: an instance as kind × 256 + number -/
  | fwTrialEnd (key : Nat)
  /-- FW_CONFIRM: a firmware kind -/
  | fwConfirm (kind : Nat)
  /-- FW_REVERT: the value written to FwRevert -/
  | fwRevert (v : Nat)
  /-- CLAPPER_ARM: the value written -/
  | clapperArm (v : Nat)
  /-- CLAPPER_FIRE -/
  | clapperFire
  /-- DAILY_RECORD -/
  | dailyRecord
  /-- REGULATOR_CALIBRATION: a core-rail phase -/
  | regulatorCalibration (region : Nat) (phase : Nat)
  /-- EYE_SCAN: a direction of group g; the eye in mV and mUI -/
  | eyeScan (g : Nat) (tx : Bool) (height : Nat) (width : Nat)
  /-- REFCLK_RETURN -/
  | refclkReturn
  /-- DERATE_N_DEASSERT -/
  | derateNDeassert
  /-- GROUP_LOSS_OF_LOCK: group g -/
  | groupLossOfLock (g : Nat)
  /-- ROCE_READ_RESPONSE: a queue pair by its number on the wire -/
  | roceReadResponse (port : Nat) (qpn : Nat) (psn : Nat) (data : List Nat)
  /-- CONFIGURATION_WRITE: host port h -/
  | configurationWrite (h : Nat) (w : ConfigWrite)
  /-- BRIDGE_FLIT_ERROR: a die-to-die bridge and the flit -/
  | bridgeFlitError (bridge : Nat) (flit : Nat)
  /-- PFC_FRAME: a priority and its pause -/
  | pfcFrame (port : Nat) (priority : Nat) (quanta : Nat)
deriving DecidableEq, Repr

end Sys2Proof
end

