-- ==== Sys2Proof/Decode.lean ====
section
/-! DEFINITION. The opcode table gives no row any bits: its rows are commands to the module, not encoded words. -/
namespace Sys2Proof

/-- The command that a word of the table spells: none, since no row has bits. DESIGN CHOICE (notes/assumptions/1): safe. -/
def decodeTableWord (_nbits _w : Nat) : Option Instr := none

end Sys2Proof
end

