-- ==== Sys2Proof/Machine/Crc.lean ====
section
/-! DEFINITION. Check codes of published standards that the manual names: CRC-32C, CRC-16 and CRC-24 forms, SHA-256 and
HMAC-SHA-256. -/
namespace Sys2Proof.Machine

/-- One byte step of a reflected CRC: `k` bits from register r. -/
def crcBits (poly : Nat) : Nat → Nat → Nat
  | 0, r => r
  | k + 1, r => crcBits poly k (if r % 2 == 1 then (r / 2) ^^^ poly else r / 2)

/-- CRC-32C (Castagnoli) of a list of bytes. -/
def crc32c (bs : List Nat) : Nat :=
  (bs.foldl (fun r b => crcBits 0x82F63B78 8 (r ^^^ (b % 256))) 0xFFFFFFFF) ^^^ 0xFFFFFFFF

def rotr32 (x n : Nat) : Nat := (x >>> n) ||| ((x <<< (32 - n)) % 2 ^ 32)
def not32 (x : Nat) : Nat := 0xFFFFFFFF - x % 2 ^ 32
def add32 (a b : Nat) : Nat := (a + b) % 2 ^ 32

/-- The largest r below 2^b plus the r found so far whose k-th power is at most n, bit by bit from the top. -/
def rootFrom (k n : Nat) : Nat → Nat → Nat
  | 0, r => r
  | b + 1, r => rootFrom k n b (if (r + 2 ^ b) ^ k ≤ n then r + 2 ^ b else r)

/-- The first 32 fraction bits of the k-th root of n, for n below 512: the constants of SHA-256 are such bits. -/
def rootFraction (k n : Nat) : Nat := rootFrom k (n * 2 ^ (32 * k)) 37 0 % 2 ^ 32

/-- The prime numbers below n. -/
def primesBelow (n : Nat) : List Nat :=
  (List.range n).filter fun p => decide (2 ≤ p) && (List.range p).all fun d => decide (d < 2) || p % d != 0

/-- The constants added in the 64 rounds: cube roots of the first 64 primes. -/
def sha256K : List Nat := (primesBelow 312).map (rootFraction 3)

/-- The start value: square roots of the first 8 primes. -/
def sha256Init : List Nat := (primesBelow 20).map (rootFraction 2)

/-- The next message word from the last sixteen, newest first. -/
def shaNext (w : List Nat) : Nat :=
  let x := nth w 14
  let y := nth w 1
  let s0 := (rotr32 x 7) ^^^ (rotr32 x 18) ^^^ (x >>> 3)
  let s1 := (rotr32 y 17) ^^^ (rotr32 y 19) ^^^ (y >>> 10)
  add32 (add32 (nth w 15) s0) (add32 (nth w 6) s1)

/-- The message schedule: fuel more words on the list, newest first. -/
def shaExtend : Nat → List Nat → List Nat
  | 0, w => w
  | k + 1, w => shaExtend k (shaNext w :: w)

/-- One round. -/
def shaRound (h : List Nat) (kw : Nat) : List Nat :=
  let a := nth h 0
  let b := nth h 1
  let c := nth h 2
  let e := nth h 4
  let f := nth h 5
  let g := nth h 6
  let s1 := (rotr32 e 6) ^^^ (rotr32 e 11) ^^^ (rotr32 e 25)
  let ch := (e &&& f) ^^^ (not32 e &&& g)
  let t1 := add32 (add32 (nth h 7) s1) (add32 ch kw)
  let s0 := (rotr32 a 2) ^^^ (rotr32 a 13) ^^^ (rotr32 a 22)
  let mj := (a &&& b) ^^^ (a &&& c) ^^^ (b &&& c)
  [add32 t1 (add32 s0 mj), a, b, c, add32 (nth h 3) t1, e, f, g]

/-- Big-endian 32-bit words of a block of bytes; fuel counts the words. -/
def beWords : Nat → List Nat → List Nat
  | 0, _ => []
  | k + 1, l => (nth l 0 * 2 ^ 24 + nth l 1 * 2 ^ 16 + nth l 2 * 2 ^ 8 + nth l 3) :: beWords k (l.drop 4)

/-- The compression of one 64 B block. -/
def shaBlock (h : List Nat) (block : List Nat) : List Nat :=
  let ws := (shaExtend 48 (beWords 16 block).reverse).reverse
  let r := ((sha256K.zip ws).map fun x => add32 x.1 x.2).foldl shaRound h
  (h.zip r).map fun x => add32 x.1 x.2

def shaBlocks : Nat → List Nat → List Nat → List Nat
  | 0, h, _ => h
  | k + 1, h, l => shaBlocks k (shaBlock h (l.take 64)) (l.drop 64)

/-- Big-endian bytes of n. -/
def beBytes (n k : Nat) : List Nat := (toBytes n k).reverse

/-- SHA-256 of a list of bytes: 32 bytes. -/
def sha256 (msg : List Nat) : List Nat :=
  let n := msg.length
  let pad := (119 - n % 64) % 64
  let full := msg ++ [0x80] ++ List.replicate pad 0 ++ beBytes (8 * n) 8
  (shaBlocks (full.length / 64) sha256Init full).flatMap fun w => beBytes w 4

/-- HMAC-SHA-256 under a key of at most 64 bytes. -/
def hmac (key msg : List Nat) : List Nat :=
  let k := key ++ List.replicate (64 - key.length) 0
  sha256 (k.map (· ^^^ 0x5c) ++ sha256 (k.map (· ^^^ 0x36) ++ msg))

end Sys2Proof.Machine
end

