-- ==== Sys2Proof/Machine/Numbers.lean ====
section
/-! DEFINITION. Number formats and arithmetic (R39 to R65): exact values, rounding, FP32 operations, the format codes
of R40, the group sums of R51, and output conversion R58 to R62 with the conversions it counts (R63).

FP32 numbers are their 32 bits as a natural number. Every operation is exact and rounds once. -/
namespace Sys2Proof.Machine

/-- An exact value: NaN, an infinity, or (-1)^neg * n * 2^e, a zero keeping its sign. -/
inductive Val where
  | nan
  | inf (neg : Bool)
  | fin (neg : Bool) (n : Nat) (e : Int)
deriving DecidableEq, Repr

/-- Positive zero. -/
def Val.zero : Val := .fin false 0 0

/-- An integer as an exact value. -/
def Val.ofInt (z : Int) : Val := .fin (decide (z < 0)) z.natAbs 0

def Val.isNan : Val → Bool
  | .nan => true
  | .inf _ => false
  | .fin _ _ _ => false

def Val.isFinite : Val → Bool
  | .nan => false
  | .inf _ => false
  | .fin _ _ _ => true

def Val.isZero : Val → Bool
  | .nan => false
  | .inf _ => false
  | .fin _ n _ => n == 0

/-- The value with its sign reversed. -/
def Val.negate : Val → Val
  | .nan => .nan
  | .inf s => .inf (!s)
  | .fin s n e => .fin (!s) n e

def Val.absolute : Val → Val
  | .nan => .nan
  | .inf _ => .inf false
  | .fin _ n e => .fin false n e

/-- The signed mantissa of a finite value. -/
def signedMant (neg : Bool) (n : Nat) : Int := if neg then -(n : Int) else (n : Int)

/-- The exact sum of m1*2^e1 and m2*2^e2, over the lesser exponent. -/
def addExact (m1 : Int) (e1 : Int) (m2 : Int) (e2 : Int) : Int × Int :=
  if e1 ≤ e2 then (m1 + m2 * (2 ^ (e2 - e1).toNat : Nat), e1)
  else (m1 * (2 ^ (e1 - e2).toNat : Nat) + m2, e2)

/-- Compares two finite exact values: m1*2^e1 < m2*2^e2. -/
def ltExact (m1 : Int) (e1 : Int) (m2 : Int) (e2 : Int) : Bool :=
  decide ((addExact m1 e1 (-m2) e2).1 < 0)

/-- a < b, false where either is NaN. -/
def Val.lt : Val → Val → Bool
  | .nan, _ => false
  | .inf _, .nan => false
  | .inf s, .inf t => s && !t
  | .inf s, .fin _ _ _ => s
  | .fin _ _ _, .nan => false
  | .fin _ _ _, .inf t => !t
  | .fin s n e, .fin t m f => ltExact (signedMant s n) e (signedMant t m) f

/-- a = b as numbers (the two zeros are equal), false where either is NaN. -/
def Val.eqv (a b : Val) : Bool := !a.isNan && !b.isNan && !a.lt b && !b.lt a

/-- The exact product (IEEE 754 for the special values, R56). -/
def Val.mul : Val → Val → Val
  | .nan, _ => .nan
  | .inf _, .nan => .nan
  | .fin _ _ _, .nan => .nan
  | .inf s, .inf t => .inf (s != t)
  | .inf s, .fin t m _ => if m == 0 then .nan else .inf (s != t)
  | .fin s n _, .inf t => if n == 0 then .nan else .inf (s != t)
  | .fin s n e, .fin t m f => .fin (s != t) (n * m) (e + f)

/-- The exact sum (IEEE 754 for the special values; an exact zero sum of unlike zeros is +0). -/
def Val.add : Val → Val → Val
  | .nan, _ => .nan
  | .inf _, .nan => .nan
  | .fin _ _ _, .nan => .nan
  | .inf s, .inf t => if s == t then .inf s else .nan
  | .inf s, .fin _ _ _ => .inf s
  | .fin _ _ _, .inf t => .inf t
  | .fin s n e, .fin t m f =>
    if n == 0 && m == 0 then .fin (s && t) 0 0
    else
      let r := addExact (signedMant s n) e (signedMant t m) f
      .fin (decide (r.1 < 0)) r.1.natAbs r.2

/-- The value times a power of two. -/
def Val.scale2 (k : Int) : Val → Val
  | .nan => .nan
  | .inf s => .inf s
  | .fin s n e => .fin s n (e + k)

/-- The greatest l with 2^l ≤ n/d, for n and d not zero. -/
def floorLog2Q (n d : Nat) : Int :=
  let a := n.log2
  let b := d.log2
  if n * 2 ^ b < d * 2 ^ a then (a : Int) - b - 1 else (a : Int) - b

/-- n/d rounded to an integer, ties to even. -/
def rneQuot (n d : Nat) : Nat :=
  let q := n / d
  let r := n % d
  if 2 * r < d then q else if d < 2 * r then q + 1 else if q % 2 == 0 then q else q + 1

/-- The magnitude code of (n/d)*2^e rounded to nearest even in a format with mb fraction bits and least
exponent emin (that of its smallest subnormal), with no upper bound on the exponent (R58). -/
def encMag (mb : Nat) (emin : Int) (n d : Nat) (e : Int) : Nat :=
  if n == 0 then 0
  else
    let k := max (floorLog2Q n d + e - mb) emin
    let q := if k ≤ e then rneQuot (n * 2 ^ (e - k).toNat) d else rneQuot n (d * 2 ^ (k - e).toNat)
    (k - emin).toNat * 2 ^ mb + q

/-- A floating-point layout of R42 with its special codes of R43. -/
structure Flt where
  eb     : Nat
  mb     : Nat
  bias   : Nat
  /-- code of the largest finite magnitude -/
  maxMag : Nat
  /-- code of infinity, where the format has one -/
  infMag : Option Nat
  /-- the canonical NaN, where the format has NaN -/
  nanMag : Option Nat
deriving DecidableEq, Repr

def fFp32 : Flt := ⟨8, 23, 127, 0x7F7FFFFF, some 0x7F800000, some 0x7FC00000⟩
def fBf16 : Flt := ⟨8, 7, 127, 0x7F7F, some 0x7F80, some 0x7FC0⟩
def fFp16 : Flt := ⟨5, 10, 15, 0x7BFF, some 0x7C00, some 0x7E00⟩
def fE4m3 : Flt := ⟨4, 3, 7, 0x7E, none, some 0x7F⟩
def fE5m2 : Flt := ⟨5, 2, 15, 0x7B, some 0x7C, some 0x7E⟩
def fE3m2 : Flt := ⟨3, 2, 3, 0x1F, none, none⟩
def fE2m3 : Flt := ⟨2, 3, 1, 0x1F, none, none⟩
def fE2m1 : Flt := ⟨2, 1, 1, 0x7, none, none⟩

/-- The exponent of the smallest subnormal of a layout. -/
def Flt.emin (f : Flt) : Int := 1 - (f.bias : Int) - f.mb

/-- The weight of the sign bit. -/
def Flt.sign (f : Flt) : Nat := 2 ^ (f.eb + f.mb)

/-- The value a code denotes (R42, R43): any NaN encoding reads as NaN. -/
def Flt.dec (f : Flt) (code : Nat) : Val :=
  let neg := bit code (f.eb + f.mb)
  let mag := code % f.sign
  if mag ≤ f.maxMag then
    let ex := mag / 2 ^ f.mb
    let fr := mag % 2 ^ f.mb
    if ex == 0 then .fin neg fr f.emin else .fin neg (fr + 2 ^ f.mb) (f.emin + ex - 1)
  else if f.infMag == some mag then .inf neg
  else .nan

/-- A quotient rounded to FP32 by IEEE 754 round-to-nearest-even, with overflow to infinity. -/
def f32Quot (neg : Bool) (n d : Nat) (e : Int) : Nat :=
  let m := encMag 23 (-149) n d e
  (if neg then 2 ^ 31 else 0) + (if 0x7F7FFFFF < m then 0x7F800000 else m)

/-- The canonical FP32 NaN. -/
def f32Nan : Nat := 0x7FC00000
def f32PosInf : Nat := 0x7F800000
def f32NegInf : Nat := 0xFF800000
def f32One : Nat := 0x3F800000

/-- An exact value rounded to FP32 (R51). -/
def f32Round : Val → Nat
  | .nan => f32Nan
  | .inf s => if s then f32NegInf else f32PosInf
  | .fin s n e => f32Quot s n 1 e

/-- The value of an FP32 number. -/
def f32Val (x : Nat) : Val := fFp32.dec x

def f32IsNan (x : Nat) : Bool := (f32Val x).isNan
def f32IsFinite (x : Nat) : Bool := (f32Val x).isFinite
def f32Lt (a b : Nat) : Bool := (f32Val a).lt (f32Val b)
def f32Eq (a b : Nat) : Bool := (f32Val a).eqv (f32Val b)
def f32Le (a b : Nat) : Bool := f32Lt a b || f32Eq a b

/-- Addition, multiplication and subtraction of FP32 numbers, each rounded once. -/
def f32Add (a b : Nat) : Nat := f32Round ((f32Val a).add (f32Val b))
def f32Mul (a b : Nat) : Nat := f32Round ((f32Val a).mul (f32Val b))
def f32Neg (a : Nat) : Nat := f32Round (f32Val a).negate
def f32Sub (a b : Nat) : Nat := f32Round ((f32Val a).add (f32Val b).negate)

/-- Division of FP32 numbers (IEEE 754). -/
def f32Div (a b : Nat) : Nat :=
  match f32Val a, f32Val b with
  | .nan, _ => f32Nan
  | .inf _, .nan => f32Nan
  | .fin _ _ _, .nan => f32Nan
  | .inf _, .inf _ => f32Nan
  | .inf s, .fin t _ _ => f32Round (.inf (s != t))
  | .fin s _ _, .inf t => f32Round (.fin (s != t) 0 0)
  | .fin s n e, .fin t m f =>
    if m == 0 then (if n == 0 then f32Nan else f32Round (.inf (s != t)))
    else f32Quot (s != t) n m (e - f)

/-- The larger of two FP32 numbers that are not NaN. -/
def f32Max (a b : Nat) : Nat := if f32Lt a b then b else a

/-- The integer square root of n, from its top bit pair down; fuel counts the bit pairs. -/
def isqrtFrom (n : Nat) : Nat → Nat → Nat
  | 0, r => r
  | k + 1, r =>
    let c := r + 2 ^ k
    if c * c ≤ n then isqrtFrom n k c else isqrtFrom n k r

def isqrt (n : Nat) : Nat := isqrtFrom n (n.log2 / 2 + 1) 0

/-- The correctly rounded FP32 square root. A sticky bit below 64 quotient bits keeps the rounding exact. -/
def f32Sqrt (a : Nat) : Nat :=
  match f32Val a with
  | .nan => f32Nan
  | .inf s => if s then f32Nan else f32PosInf
  | .fin s n e =>
    if n == 0 then (if s then 0x80000000 else 0)
    else if s then f32Nan
    else
      let odd : Nat := if e % 2 == 0 then 0 else 1
      let big := n * 2 ^ (odd + 128)
      let r := isqrt big
      let st := if r * r == big then 2 * r else 2 * r + 1
      f32Quot false st 1 ((e - (odd : Int) - 128) / 2 - 1)

/-- floor(ln 2 * 2^256). -/
def ln2Fixed : Nat := 80260960185991308862233904206310070533990667611589946606122867505419956976171

/-- The sum of r^i/i! for i from k+1 on, in fixed point with 256 fraction bits; term is r^k/k!. -/
def expSeries (r : Nat) : Nat → Nat → Nat → Nat
  | 0, _, _ => 0
  | fuel + 1, k, term =>
    let t := term * r / 2 ^ 256 / (k + 1)
    t + expSeries r fuel (k + 1) t

/-- exp(m*2^e) as (f, k): f*2^(k-256) with f in [2^256, 2^257), to about 240 correct bits; for |m*2^e| below 2^16. -/
def expFixed (m : Int) (e : Int) : Nat × Int :=
  let x : Int := if 0 ≤ e + 256 then m * (2 ^ (e + 256).toNat : Nat) else m / (2 ^ (-(e + 256)).toNat : Nat)
  let k := x / (ln2Fixed : Int)
  let r := (x - k * ln2Fixed).toNat
  (2 ^ 256 + expSeries r 80 0 (2 ^ 256), k)

/-- The FP32 exponential, correctly rounded (R87, R185). DESIGN CHOICE (notes/assumptions/45): unsafe. -/
def f32Exp (a : Nat) : Nat :=
  match f32Val a with
  | .nan => f32Nan
  | .inf s => if s then 0 else f32PosInf
  | .fin s n e =>
    if n == 0 then f32One
    else if ltExact 128 0 (signedMant s n) e then f32PosInf
    else if ltExact (signedMant s n) e (-128) 0 then 0
    else
      let p := expFixed (signedMant s n) e
      f32Quot false p.1 1 (p.2 - 256)

/-- The FP32 hyperbolic tangent, correctly rounded (R87). Below 2^-13 in magnitude the nearest FP32 number is the argument itself.
DESIGN CHOICE (notes/assumptions/45): unsafe. -/
def f32Tanh (a : Nat) : Nat :=
  match f32Val a with
  | .nan => f32Nan
  | .inf s => if s then 0xBF800000 else f32One
  | .fin s n e =>
    if ltExact (n : Int) e 1 (-13) then a
    else if ltExact 16 0 (n : Int) e then (if s then 0xBF800000 else f32One)
    else
      let p := expFixed (n : Int) (e + 1)
      let ex := p.1 * 2 ^ p.2.toNat
      f32Quot s (ex - 2 ^ 256) (ex + 2 ^ 256) 0

/-- Bits of log2 of x/2^256 for x in [2^256, 2^257), by repeated squaring: fuel bits, most significant first. -/
def log2Bits : Nat → Nat → Nat
  | 0, _ => 0
  | k + 1, x =>
    let y := x * x / 2 ^ 256
    if 2 ^ 257 ≤ y then 2 ^ k + log2Bits k (y / 2) else log2Bits k y

/-- floor(log2(n*2^e) * 2^w), for n not zero. -/
def log2Fixed (w : Nat) (n : Nat) (e : Int) : Int :=
  let l := n.log2
  let x := if l ≤ 256 then n * 2 ^ (256 - l) else n / 2 ^ (l - 256)
  ((l : Int) + e) * (2 ^ w : Nat) + log2Bits w x

/-- An integer rounded to FP32. -/
def f32OfInt (z : Int) : Nat := f32Round (.ofInt z)
def f32OfNat (n : Nat) : Nat := f32Quot false n 1 0

/-- log2, correctly rounded (R87): an irrational value is known to 120 bits and lies above its truncation. DESIGN CHOICE
(notes/assumptions/45): unsafe. -/
def f32Log2 (a : Nat) : Nat :=
  match f32Val a with
  | .nan => f32Nan
  | .inf s => if s then f32Nan else f32PosInf
  | .fin s n e =>
    if n == 0 then f32NegInf
    else if s then f32Nan
    else if 2 ^ n.log2 == n then f32OfInt ((n.log2 : Int) + e)
    else
      let m := 2 * log2Fixed 120 n e + 1
      f32Round (.fin (decide (m < 0)) m.natAbs (-121))

/-- A finite value times 2^k, rounded to the nearest integer with ties to even. -/
def Val.roundInt (k : Int) : Val → Option Int
  | .nan => none
  | .inf _ => none
  | .fin s n e =>
    let m := if 0 ≤ e + k then n * 2 ^ (e + k).toNat else rneQuot n (2 ^ (-(e + k)).toNat)
    some (signedMant s m)

/-- The format codes of R40. -/
inductive Fmt where
  | fp32 | bf16 | fp16 | e4m3 | e5m2 | int8 | mxE4m3 | mxE5m2 | e3m2 | e2m3 | mxE3m2 | mxE2m3
  | e2m1 | mxE2m1 | kf4 | kf6 | kt2 | ki2
deriving DecidableEq, Repr

/-- The format a code names (R40); none for the undefined codes. -/
def Fmt.ofCode (c : Nat) : Option Fmt :=
  [Fmt.fp32, .bf16, .fp16, .e4m3, .e5m2, .int8, .mxE4m3, .mxE5m2, .e3m2, .e2m3, .mxE3m2, .mxE2m3,
   .e2m1, .mxE2m1, .kf4, .kf6, .kt2, .ki2][c]?

/-- The code that names a format (R40). -/
def Fmt.code : Fmt → Nat
  | .fp32 => 0
  | .bf16 => 1
  | .fp16 => 2
  | .e4m3 => 3
  | .e5m2 => 4
  | .int8 => 5
  | .mxE4m3 => 6
  | .mxE5m2 => 7
  | .e3m2 => 8
  | .e2m3 => 9
  | .mxE3m2 => 0xA
  | .mxE2m3 => 0xB
  | .e2m1 => 0xC
  | .mxE2m1 => 0xD
  | .kf4 => 0xE
  | .kf6 => 0xF
  | .kt2 => 0x10
  | .ki2 => 0x11

/-- Bits of one element (R40). -/
def Fmt.elemBits : Fmt → Nat
  | .fp32 => 32
  | .bf16 | .fp16 => 16
  | .e4m3 | .e5m2 | .int8 | .mxE4m3 | .mxE5m2 => 8
  | .e3m2 | .e2m3 | .mxE3m2 | .mxE2m3 | .kf6 => 6
  | .e2m1 | .mxE2m1 | .kf4 => 4
  | .kt2 | .ki2 => 2

/-- Elements under one block scale (R40); 0 for formats without block scales. -/
def Fmt.block : Fmt → Nat
  | .mxE4m3 | .mxE5m2 | .mxE3m2 | .mxE2m3 | .mxE2m1 => 32
  | .kf4 | .kf6 | .kt2 | .ki2 => 16
  | .fp32 | .bf16 | .fp16 | .e4m3 | .e5m2 | .int8 | .e3m2 | .e2m3 | .e2m1 => 0

/-- A K-format, the formats with a tensor scale (R40). -/
def Fmt.isK : Fmt → Bool
  | .kf4 | .kf6 | .kt2 | .ki2 => true
  | .fp32 | .bf16 | .fp16 | .e4m3 | .e5m2 | .int8 | .mxE4m3 | .mxE5m2 | .e3m2 | .e2m3 | .mxE3m2 | .mxE2m3
  | .e2m1 | .mxE2m1 => false

/-- The element layout of a floating-point format (R42); none for INT8, KT2 and KI2. -/
def Fmt.flt : Fmt → Option Flt
  | .fp32 => some fFp32
  | .bf16 => some fBf16
  | .fp16 => some fFp16
  | .e4m3 | .mxE4m3 => some fE4m3
  | .e5m2 | .mxE5m2 => some fE5m2
  | .e3m2 | .mxE3m2 => some fE3m2
  | .e2m3 | .mxE2m3 | .kf6 => some fE2m3
  | .e2m1 | .mxE2m1 | .kf4 => some fE2m1
  | .int8 | .kt2 | .ki2 => none

/-- The value of an element code before its block scale (R42, R45). -/
def Fmt.dec (f : Fmt) (code : Nat) : Val :=
  match f.flt with
  | some l => l.dec (code % 2 ^ f.elemBits)
  | none =>
    match f with
    | .kt2 => Val.ofInt (nth [0, 1, 0, 0] (code % 4) - (if code % 4 == 3 then 1 else 0))
    | .ki2 => Val.ofInt (toSigned 2 code)
    | _ => Val.ofInt (toSigned 8 code)

/-- The value of a block scale byte (R44, R46). -/
def Fmt.scaleVal (f : Fmt) (byte : Nat) : Val :=
  if f.isK then fE4m3.dec (byte % 128)
  else if f.block == 0 then .fin false 1 0
  else if byte % 256 == 255 then .nan
  else .fin false 1 ((byte % 256 : Nat) - 127)

/-- An element as its block scale leaves it (R46): a NaN scale makes it NaN, a zero scale makes it zero. -/
def underScale (scale elem : Val) : Val :=
  if scale.isNan then .nan else if scale.isZero then .zero else elem

/-- The full value of an element, but for the tensor scale (R44). -/
def blockValue (scale elem : Val) : Val := (underScale scale elem).mul scale

/-- The exact sum of a list of exact values, in order (R51, R56). -/
def sumExact (l : List Val) : Val := l.foldl Val.add .zero

/-- The group result of R51: the exact sum of the products, times the exact product of the two block scales, rounded
once to FP32. ws and as list the elements of the group; sw and sa are its block scales. -/
def groupResult (ws as : List Val) (sw sa : Val) : Nat :=
  let ps := (ws.zip as).map fun p => (underScale sw p.1).mul (underScale sa p.2)
  let s := sumExact ps
  match s with
  | .nan => f32Nan
  | .inf b => f32Round (.inf b)
  | .fin b n e =>
    if n == 0 then 0
    else
      match sw, sa with
      | .fin _ n1 e1, .fin _ n2 e2 => f32Quot b (n * n1 * n2) 1 (e + e1 + e2)
      | _, _ => f32Nan

/-- One K group of a dot product: the elements and the block scale of each side. -/
structure Group where
  ws : List Val
  as : List Val
  sw : Val
  sa : Val
deriving DecidableEq, Repr

/-- The accumulator after the groups, from its start value (R52). -/
def accumulate (start : Nat) (gs : List Group) : Nat :=
  gs.foldl (fun acc g => f32Add acc (groupResult g.ws g.as g.sw g.sa)) start

/-- The step R53: the accumulator times t = Tw*Ta. -/
def applyTensorScale (acc tw ta : Nat) : Nat := f32Mul acc (f32Mul tw ta)

/-- Conversions counted under R63. -/
structure Conv where
  sat   : Nat := 0
  nanW  : Nat := 0
  nanS  : Nat := 0
  scl   : Nat := 0
deriving DecidableEq, Repr

def Conv.add (a b : Conv) : Conv := ⟨a.sat + b.sat, a.nanW + b.nanW, a.nanS + b.nanS, a.scl + b.scl⟩

/-- A signed code in layout f; a zero is written +0 (R57). -/
def Flt.withSign (f : Flt) (neg : Bool) (mag : Nat) : Nat := if neg && mag != 0 then f.sign + mag else mag

/-- Conversion of one value to a floating-point layout (R58). satur says that the format saturates finite values
beyond its largest (every format but FP32, BF16 and FP16, which take infinity). -/
def convFlt (f : Flt) (satur : Bool) (v : Val) : Nat × Conv :=
  let nanOut : Nat × Conv := match f.nanMag with
    | some c => (c, ⟨0, 1, 0, 0⟩)
    | none => (0, ⟨0, 0, 1, 0⟩)
  match v with
  | .nan => nanOut
  | .inf s =>
    match f.infMag with
    | some c => (f.withSign s c, ⟨0, 0, 0, 0⟩)
    | none =>
      match f.nanMag with
      | some c => (c, ⟨0, 1, 0, 0⟩)
      | none => (f.withSign s f.maxMag, ⟨1, 0, 0, 0⟩)
  | .fin s n e =>
    let m := encMag f.mb f.emin n 1 e
    if m ≤ f.maxMag then (f.withSign s m, ⟨0, 0, 0, 0⟩)
    else if satur then (f.withSign s f.maxMag, ⟨1, 0, 0, 0⟩)
    else (f.withSign s (f.infMag.getD f.maxMag), ⟨0, 0, 0, 0⟩)

/-- Conversion of one value to INT8 (R42, R58): one that rounds to -128 is written as -128 and does not count as saturated (R63). DESIGN CHOICE
(notes/assumptions/45): unsafe. -/
def convInt8 (v : Val) : Nat × Conv :=
  match v with
  | .nan => (0, ⟨0, 0, 1, 0⟩)
  | .inf s => (if s then 0x80 else 0x7F, ⟨1, 0, 0, 0⟩)
  | .fin s n e =>
    let q := if 0 ≤ e then n * 2 ^ e.toNat else rneQuot n (2 ^ (-e).toNat)
    let z := signedMant s q
    if z < -128 then (0x80, ⟨1, 0, 0, 0⟩)
    else if 127 < z then (0x7F, ⟨1, 0, 0, 0⟩)
    else (ofSigned 8 z, ⟨0, 0, 0, 0⟩)

/-- Conversion of one element to a format without block scales (R58). -/
def Fmt.conv (f : Fmt) (v : Val) : Nat × Conv :=
  match f.flt with
  | none => convInt8 v
  | some l =>
    match f with
    | .fp32 | .bf16 | .fp16 => convFlt l false v
    | _ => convFlt l true v

/-- Emax of R59. -/
def Fmt.emax : Fmt → Int
  | .mxE4m3 => 8
  | .mxE5m2 => 15
  | .mxE3m2 => 4
  | _ => 2

/-- The saturating element conversion inside a block (R58, the MX and K rows). -/
def convElem (f : Fmt) (v : Val) : Nat × Conv :=
  match f.flt with
  | some l =>
    match v with
    | .fin s n e =>
      let m := encMag l.mb l.emin n 1 e
      if m ≤ l.maxMag then (l.withSign s m, ⟨0, 0, 0, 0⟩) else (l.withSign s l.maxMag, ⟨1, 0, 0, 0⟩)
    | .nan => (0, ⟨0, 0, 0, 0⟩)
    | .inf s => (l.withSign s l.maxMag, ⟨1, 0, 0, 0⟩)
  | none => (0, ⟨0, 0, 0, 0⟩)

/-- A converted block: the element codes, the scale byte and what is counted. -/
structure BlockOut where
  codes : List Nat
  scale : Nat
  conv  : Conv
deriving DecidableEq, Repr

/-- The largest magnitude of a list of finite values. -/
def maxAbs (ys : List Val) : Val :=
  ys.foldl (fun a y => if a.lt y.absolute then y.absolute else a) .zero

/-- Elements converted one by one, with their counts. -/
def convAll {α : Type} (conv : α → Nat × Conv) (ys : List α) : List Nat × Conv :=
  let rs := ys.map conv
  (rs.map Prod.fst, rs.foldl (fun c r => c.add r.2) ⟨0, 0, 0, 0⟩)

/-- The MX block of R59 for a block of finite values. -/
def mxBlock (f : Fmt) (ys : List Val) : BlockOut :=
  match maxAbs ys with
  | .fin _ n e =>
    if n == 0 then ⟨ys.map fun _ => 0, 0, ⟨0, 0, 0, 0⟩⟩
    else
      let x := (n.log2 : Int) + e - f.emax
      let xc := if x < -127 then -127 else if 127 < x then 127 else x
      let r := convAll (fun y => convElem f (y.scale2 (-xc))) ys
      ⟨r.1, (xc + 127).toNat, r.2.add ⟨0, 0, 0, if x == xc then 0 else 1⟩⟩
  | _ => ⟨ys.map fun _ => 0, 0xFF, ⟨0, 1, 0, 0⟩⟩

/-- The smallest positive E4M3 code whose value is at or above q (R60 step 3), searched upward. -/
def e4m3AtOrAbove (q : Val) : Nat → Nat → Nat
  | 0, c => c
  | fuel + 1, c => if (fE4m3.dec c).lt q then e4m3AtOrAbove q fuel (c + 1) else c

/-- The K-format block of R60 for a block of finite FP32 values; t is the output's tensor scale. -/
def kBlock (f : Fmt) (t : Nat) (ys : List Nat) : BlockOut :=
  match maxAbs (ys.map f32Val) with
  | .fin _ n e =>
    if n == 0 then ⟨ys.map fun _ => 0, 0, ⟨0, 0, 0, 0⟩⟩
    else
      let a := f32Quot false n 1 e
      let vmax := if f == Fmt.kf4 then f32OfNat 6 else f32Quot false 15 2 0
      let q := f32Val (f32Div a (f32Mul t vmax))
      let high := (fE4m3.dec 0x7E).lt q
      let low := q.lt (fE4m3.dec 1)
      let code := if high then 0x7E else e4m3AtOrAbove q 0x7D 1
      let d := f32Mul t (f32Round (fE4m3.dec code))
      let r := convAll (fun y => convElem f (f32Val y)) (ys.map fun y => f32Div y d)
      ⟨r.1, code, r.2.add ⟨0, 0, 0, if high || low then 1 else 0⟩⟩
  | _ => ⟨ys.map fun _ => 0, 0x7F, ⟨0, 1, 0, 0⟩⟩

/-- One output block of a block format (R59 to R62): NaN or infinity in it makes the whole block NaN (R61). -/
def convBlock (f : Fmt) (t : Nat) (ys : List Nat) : BlockOut :=
  if ys.all f32IsFinite then
    (if f.isK then kBlock f t ys else mxBlock f (ys.map f32Val))
  else ⟨ys.map fun _ => 0, if f.isK then 0x7F else 0xFF, ⟨0, 1, 0, 0⟩⟩

/-- A list cut into consecutive pieces of k (the last may be shorter); fuel bounds the pieces. -/
def chunksOf {α : Type} (k : Nat) : Nat → List α → List (List α)
  | 0, _ => []
  | fuel + 1, l => if l.isEmpty then [] else l.take k :: chunksOf k fuel (l.drop k)

/-- A converted row: element codes, scale bytes (none for formats without them) and counts. -/
structure RowOut where
  codes  : List Nat
  scales : List Nat
  conv   : Conv
deriving DecidableEq, Repr

/-- Output conversion of one row of FP32 results (R58 to R62). In a partial last block of a block format the missing
positions are written as 0. -/
def convRow (f : Fmt) (t : Nat) (ys : List Nat) : RowOut :=
  if f.block == 0 then
    let r := convAll (fun y => f.conv y) (ys.map f32Val)
    ⟨r.1, [], r.2⟩
  else
    let bs := (chunksOf f.block (ys.length + 1) ys).map fun b =>
      let o := convBlock f t b
      ({ o with codes := o.codes ++ List.replicate (f.block - o.codes.length) 0 } : BlockOut)
    ⟨bs.flatMap BlockOut.codes, bs.map BlockOut.scale, bs.foldl (fun c b => c.add b.conv) ⟨0, 0, 0, 0⟩⟩

/-- The bytes of a row of element codes packed under R47: codes of w bits laid end to end from bit 0 up. -/
def packCodes (w : Nat) (codes : List Nat) : List Nat :=
  let n := codes.foldr (fun c acc => c % 2 ^ w + acc * 2 ^ w) 0
  toBytes n ((codes.length * w + 7) / 8)

/-- Element i of a row whose packed bytes spell n (R47). -/
def unpackCode (w n i : Nat) : Nat := (n >>> (w * i)) % 2 ^ w

/-- Bytes of one packed row of `extent` elements: the extent rounded up to whole blocks (R48). -/
def Fmt.packedBytes (f : Fmt) (extent : Nat) : Nat :=
  let e := if f.block == 0 then extent else alignUp extent f.block
  (e * f.elemBits + 7) / 8

/-- Scale bytes of one row of `extent` elements. -/
def Fmt.scaleBytes (f : Fmt) (extent : Nat) : Nat :=
  if f.block == 0 then 0 else ceilDiv extent f.block

/-- The tensor scale of an operand format record as the module clamps it (R48): the clamped bits, and whether a clamp
is counted. -/
def clampTensorScale (x : Nat) : Nat × Bool :=
  match f32Val x with
  | .nan => (f32One, true)
  | .inf s => (if s then 0x00800000 else 0x7F000000, true)
  | .fin s n e =>
    if ltExact (signedMant s n) e 1 (-126) then (0x00800000, true)
    else if ltExact 1 127 (signedMant s n) e then (0x7F000000, true)
    else (x, false)

end Sys2Proof.Machine
end

