-- ==== Sys2Proof/Config.lean ====
section
/-! DEFINITION. What an implementation fixes and what the manual leaves open. Each opaque constant is a free value:
nothing is known of it. -/
namespace Sys2Proof.Config

/-- The random numbers of R448 (SessionId and the module's nonce), by the count of random numbers drawn so far. -/
opaque random : Nat → Nat

/-- The factory value of an in-service test slice's signature (R418), by unit key and slice; sealed calibration whose
content the manual does not give. -/
opaque istSignature : Nat → Nat → Nat

/-- The factory table of the ramp limiter (R396): the current step in mA of a restart, by engine kind (0 Press, 1 Draw,
2 codec), format class and operating point. -/
opaque rampStep : Nat → Nat → Nat → Nat

/-- The logic voltage in mV of an operating point of this part, within 30 mV of the nominal one (R380). -/
opaque opVoltage : Nat → Nat

/-- What the destinations of a command dropped at an engine reset hold (R423: unspecified data), by the count of free
values drawn so far. -/
opaque freeWord : Nat → Nat

/-- The reduction extent K of a partition's watched commands, as the Director knows it at START (R305 states no parameter for it). -/
opaque normExtent : Nat → Nat

/-- The d of a NormJump event for a sequence with a non-finite row (R297 states none), by the count of free values drawn
so far. -/
opaque normExcess : Nat → Nat

/-- Olumukel service state in dump records (R432: reserved under R4), by unit index and byte. -/
opaque dumpService : Nat → Nat → Nat

/-- ErrorKind and Action of the fault record of a firmware slot that fails its trial (R505 states neither), by firmware
kind. -/
opaque fwFailKind : Nat → Nat
opaque fwFailAction : Nat → Nat

/-- LaneStats: corrected bytes (0), uncorrectable (1) and spare state (2) of a physical lane, and the reserved bytes (3), and
the state word of a die in DieStats (4): what the manual does not fix, by lane or die. -/
opaque statWord : Nat → Nat → Nat

/-- The tensor scale that the Director gives rows of a K-format in an exchange area (R278 states none): hidden rows (0), Mid rows (1)
and Act rows (2). -/
opaque exchangeScale : Nat → Nat

/-- The symbols of a codeword of memory that go wrong at a fabric time (R104 to R107): the codeword, by address / 32, and its symbols with
their 4-bit errors. -/
opaque upset : Nat → Option (Nat × List (Nat × Nat))

/-- Olumukel's PCI-SIG vendor ID (R469), which the manual does not give. -/
opaque vendorId : Nat

end Sys2Proof.Config
end

