-- ==== Sys2Proof/Machine/Dictionary.lean ====
section
/-! DEFINITION. The parameter dictionary as the chapters' tables give it (R465): for every index and range of
sub-indices its type, access, write role, default, limits and length in bytes. -/
namespace Sys2Proof.Machine

/-- Parameter types (R445). -/
inductive PTy where
  | u8 | u16 | u32 | u64 | s32 | f32 | bool | enum | time | str | blob
deriving DecidableEq, Repr

/-- Access kinds of the dictionary tables. -/
inductive PAcc where
  | ro | rw | rwp | wo | cmd
deriving DecidableEq, Repr

/-- Roles (R447), in rising order. -/
inductive Role where
  | observer | oper | service | factory
deriving DecidableEq, Repr

/-- One row of the dictionary: sub-indices lo to hi of an index. -/
structure PRow where
  index : Nat
  lo    : Nat
  hi    : Nat
  ty    : PTy
  acc   : PAcc
  role  : Role
  dflt  : Nat
  min   : Nat
  max   : Nat
  len   : Nat
deriving DecidableEq, Repr

/-- The key of a parameter: index:sub-index. -/
def pk (index sub : Nat) : Nat := index * 256 + sub

/-- Indices 0x1000 to 0x10FF. -/
def dictArea10 : List PRow :=
  [ ⟨0x1000, 0, 0, .u16, .ro, .oper, 0x100, 0x100, 0xffff, 2⟩,
    ⟨0x1001, 0, 0, .str, .ro, .oper, 0, 0, 0, 16⟩,
    ⟨0x1002, 0, 0, .enum, .ro, .oper, 0, 1, 2, 1⟩,
    ⟨0x1003, 0, 0, .str, .ro, .oper, 0, 0, 0, 16⟩,
    ⟨0x1004, 0, 0, .u8, .ro, .oper, 0, 0, 0xff, 1⟩,
    ⟨0x1005, 0, 0, .time, .ro, .oper, 0, 0, 0xffffffffffffffff, 8⟩,
    ⟨0x1006, 0, 0, .u64, .ro, .oper, 0, 0, 0xffffffffffff, 8⟩,
    ⟨0x1007, 0, 0, .u8, .ro, .oper, 0, 0, 3, 1⟩,
    ⟨0x1008, 0, 0, .enum, .ro, .oper, 0, 0, 0xa, 1⟩,
    ⟨0x1020, 0, 0, .blob, .wo, .service, 0, 0, 0, 32⟩,
    ⟨0x1021, 0, 0, .blob, .wo, .service, 0, 0, 0, 32⟩,
    ⟨0x1022, 0, 0, .blob, .wo, .factory, 0, 0, 0, 32⟩,
    ⟨0x1030, 0, 0, .blob, .ro, .oper, 0, 0, 0, 256⟩,
    ⟨0x1031, 0, 0, .u16, .cmd, .service, 0, 0, 0xffff, 2⟩,
    ⟨0x1040, 0, 0, .u8, .ro, .oper, 0, 1, 4, 1⟩,
    ⟨0x1041, 0, 0, .u8, .rwp, .oper, 0x20, 2, 0xff, 1⟩,
    ⟨0x1042, 0, 0, .u8, .rwp, .oper, 0, 0, 0xf, 1⟩,
    ⟨0x10F0, 0, 0, .bool, .ro, .oper, 0, 0, 1, 1⟩,
    ⟨0x10F1, 0, 0, .bool, .cmd, .service, 0, 0, 1, 1⟩ ]

/-- Indices 0x1F00 to 0x1FFF. -/
def dictArea1F : List PRow :=
  [ ⟨0x1F00, 0, 0, .u8, .ro, .oper, 5, 5, 5, 1⟩,
    ⟨0x1F00, 1, 1, .u64, .ro, .oper, 0, 0, 0xffffffffffffffff, 8⟩,
    ⟨0x1F00, 2, 2, .u64, .ro, .oper, 0, 0, 0xffffffffffffffff, 8⟩,
    ⟨0x1F00, 3, 3, .u64, .ro, .oper, 0, 0, 0xffffffffffffffff, 8⟩,
    ⟨0x1F00, 4, 4, .u64, .ro, .oper, 0, 0, 0xffffffffffffffff, 8⟩,
    ⟨0x1F00, 5, 5, .u64, .ro, .oper, 0, 0, 0xffffffffffffffff, 8⟩ ]

/-- Indices 0x2000 to 0x20FF. -/
def dictArea20 : List PRow :=
  [ ⟨0x2000, 0, 0, .u8, .ro, .factory, 4, 4, 4, 1⟩,
    ⟨0x2000, 1, 1, .u32, .ro, .factory, 0, 0, 0xffffffff, 4⟩,
    ⟨0x2000, 2, 2, .time, .ro, .factory, 0, 0, 0xffffffffffffffff, 8⟩,
    ⟨0x2000, 3, 3, .blob, .ro, .factory, 0, 0, 0, 32⟩,
    ⟨0x2000, 4, 4, .enum, .ro, .factory, 0, 0, 2, 1⟩,
    ⟨0x2010, 0, 0, .u8, .ro, .factory, 3, 3, 3, 1⟩,
    ⟨0x2010, 1, 1, .f32, .rw, .factory, 0, 0xff7fffff, 0x7f7fffff, 4⟩,
    ⟨0x2010, 2, 2, .f32, .rw, .factory, 0, 0xff7fffff, 0x7f7fffff, 4⟩,
    ⟨0x2010, 3, 3, .f32, .rw, .factory, 0, 0xff7fffff, 0x7f7fffff, 4⟩,
    ⟨0x2011, 0, 0, .u8, .ro, .factory, 3, 3, 3, 1⟩,
    ⟨0x2011, 1, 1, .f32, .rw, .factory, 0, 0xff7fffff, 0x7f7fffff, 4⟩,
    ⟨0x2011, 2, 2, .f32, .rw, .factory, 0, 0xff7fffff, 0x7f7fffff, 4⟩,
    ⟨0x2011, 3, 3, .f32, .rw, .factory, 0, 0xff7fffff, 0x7f7fffff, 4⟩,
    ⟨0x2012, 0, 0, .u8, .ro, .factory, 3, 3, 3, 1⟩,
    ⟨0x2012, 1, 1, .f32, .rw, .factory, 0, 0xff7fffff, 0x7f7fffff, 4⟩,
    ⟨0x2012, 2, 2, .f32, .rw, .factory, 0, 0xff7fffff, 0x7f7fffff, 4⟩,
    ⟨0x2012, 3, 3, .f32, .rw, .factory, 0, 0xff7fffff, 0x7f7fffff, 4⟩,
    ⟨0x2013, 0, 0, .u8, .ro, .factory, 3, 3, 3, 1⟩,
    ⟨0x2013, 1, 1, .f32, .rw, .factory, 0, 0xff7fffff, 0x7f7fffff, 4⟩,
    ⟨0x2013, 2, 2, .f32, .rw, .factory, 0, 0xff7fffff, 0x7f7fffff, 4⟩,
    ⟨0x2013, 3, 3, .f32, .rw, .factory, 0, 0xff7fffff, 0x7f7fffff, 4⟩,
    ⟨0x2014, 0, 0, .u8, .ro, .factory, 3, 3, 3, 1⟩,
    ⟨0x2014, 1, 1, .f32, .rw, .factory, 0, 0xff7fffff, 0x7f7fffff, 4⟩,
    ⟨0x2014, 2, 2, .f32, .rw, .factory, 0, 0xff7fffff, 0x7f7fffff, 4⟩,
    ⟨0x2014, 3, 3, .f32, .rw, .factory, 0, 0xff7fffff, 0x7f7fffff, 4⟩,
    ⟨0x2020, 0, 0, .u8, .ro, .factory, 3, 3, 3, 1⟩,
    ⟨0x2020, 1, 1, .f32, .rw, .factory, 0, 0xff7fffff, 0x7f7fffff, 4⟩,
    ⟨0x2020, 2, 2, .f32, .rw, .factory, 0, 0xff7fffff, 0x7f7fffff, 4⟩,
    ⟨0x2020, 3, 3, .f32, .rw, .factory, 0, 0xff7fffff, 0x7f7fffff, 4⟩,
    ⟨0x2021, 0, 0, .u8, .ro, .factory, 3, 3, 3, 1⟩,
    ⟨0x2021, 1, 1, .f32, .rw, .factory, 0, 0xff7fffff, 0x7f7fffff, 4⟩,
    ⟨0x2021, 2, 2, .f32, .rw, .factory, 0, 0xff7fffff, 0x7f7fffff, 4⟩,
    ⟨0x2021, 3, 3, .f32, .rw, .factory, 0, 0xff7fffff, 0x7f7fffff, 4⟩ ]

/-- Indices 0x2100 to 0x21FF. -/
def dictArea21 : List PRow :=
  [ ⟨0x2100, 0, 0, .u8, .ro, .factory, 3, 3, 3, 1⟩,
    ⟨0x2100, 1, 1, .f32, .rw, .factory, 0, 0xff7fffff, 0x7f7fffff, 4⟩,
    ⟨0x2100, 2, 2, .f32, .rw, .factory, 0, 0xff7fffff, 0x7f7fffff, 4⟩,
    ⟨0x2100, 3, 3, .f32, .rw, .factory, 0, 0xff7fffff, 0x7f7fffff, 4⟩,
    ⟨0x2101, 0, 0, .u8, .ro, .factory, 3, 3, 3, 1⟩,
    ⟨0x2101, 1, 1, .f32, .rw, .factory, 0, 0xff7fffff, 0x7f7fffff, 4⟩,
    ⟨0x2101, 2, 2, .f32, .rw, .factory, 0, 0xff7fffff, 0x7f7fffff, 4⟩,
    ⟨0x2101, 3, 3, .f32, .rw, .factory, 0, 0xff7fffff, 0x7f7fffff, 4⟩,
    ⟨0x2102, 0, 0, .u8, .ro, .factory, 3, 3, 3, 1⟩,
    ⟨0x2102, 1, 1, .f32, .rw, .factory, 0, 0xff7fffff, 0x7f7fffff, 4⟩,
    ⟨0x2102, 2, 2, .f32, .rw, .factory, 0, 0xff7fffff, 0x7f7fffff, 4⟩,
    ⟨0x2102, 3, 3, .f32, .rw, .factory, 0, 0xff7fffff, 0x7f7fffff, 4⟩,
    ⟨0x2103, 0, 0, .u8, .ro, .factory, 3, 3, 3, 1⟩,
    ⟨0x2103, 1, 1, .f32, .rw, .factory, 0, 0xff7fffff, 0x7f7fffff, 4⟩,
    ⟨0x2103, 2, 2, .f32, .rw, .factory, 0, 0xff7fffff, 0x7f7fffff, 4⟩,
    ⟨0x2103, 3, 3, .f32, .rw, .factory, 0, 0xff7fffff, 0x7f7fffff, 4⟩,
    ⟨0x2104, 0, 0, .u8, .ro, .factory, 3, 3, 3, 1⟩,
    ⟨0x2104, 1, 1, .f32, .rw, .factory, 0, 0xff7fffff, 0x7f7fffff, 4⟩,
    ⟨0x2104, 2, 2, .f32, .rw, .factory, 0, 0xff7fffff, 0x7f7fffff, 4⟩,
    ⟨0x2104, 3, 3, .f32, .rw, .factory, 0, 0xff7fffff, 0x7f7fffff, 4⟩,
    ⟨0x2105, 0, 0, .u8, .ro, .factory, 3, 3, 3, 1⟩,
    ⟨0x2105, 1, 1, .f32, .rw, .factory, 0, 0xff7fffff, 0x7f7fffff, 4⟩,
    ⟨0x2105, 2, 2, .f32, .rw, .factory, 0, 0xff7fffff, 0x7f7fffff, 4⟩,
    ⟨0x2105, 3, 3, .f32, .rw, .factory, 0, 0xff7fffff, 0x7f7fffff, 4⟩,
    ⟨0x2106, 0, 0, .u8, .ro, .factory, 3, 3, 3, 1⟩,
    ⟨0x2106, 1, 1, .f32, .rw, .factory, 0, 0xff7fffff, 0x7f7fffff, 4⟩,
    ⟨0x2106, 2, 2, .f32, .rw, .factory, 0, 0xff7fffff, 0x7f7fffff, 4⟩,
    ⟨0x2106, 3, 3, .f32, .rw, .factory, 0, 0xff7fffff, 0x7f7fffff, 4⟩,
    ⟨0x2107, 0, 0, .u8, .ro, .factory, 3, 3, 3, 1⟩,
    ⟨0x2107, 1, 1, .f32, .rw, .factory, 0, 0xff7fffff, 0x7f7fffff, 4⟩,
    ⟨0x2107, 2, 2, .f32, .rw, .factory, 0, 0xff7fffff, 0x7f7fffff, 4⟩,
    ⟨0x2107, 3, 3, .f32, .rw, .factory, 0, 0xff7fffff, 0x7f7fffff, 4⟩,
    ⟨0x2108, 0, 0, .u8, .ro, .factory, 3, 3, 3, 1⟩,
    ⟨0x2108, 1, 1, .f32, .rw, .factory, 0, 0xff7fffff, 0x7f7fffff, 4⟩,
    ⟨0x2108, 2, 2, .f32, .rw, .factory, 0, 0xff7fffff, 0x7f7fffff, 4⟩,
    ⟨0x2108, 3, 3, .f32, .rw, .factory, 0, 0xff7fffff, 0x7f7fffff, 4⟩,
    ⟨0x2109, 0, 0, .u8, .ro, .factory, 3, 3, 3, 1⟩,
    ⟨0x2109, 1, 1, .f32, .rw, .factory, 0, 0xff7fffff, 0x7f7fffff, 4⟩,
    ⟨0x2109, 2, 2, .f32, .rw, .factory, 0, 0xff7fffff, 0x7f7fffff, 4⟩,
    ⟨0x2109, 3, 3, .f32, .rw, .factory, 0, 0xff7fffff, 0x7f7fffff, 4⟩,
    ⟨0x210A, 0, 0, .u8, .ro, .factory, 3, 3, 3, 1⟩,
    ⟨0x210A, 1, 1, .f32, .rw, .factory, 0, 0xff7fffff, 0x7f7fffff, 4⟩,
    ⟨0x210A, 2, 2, .f32, .rw, .factory, 0, 0xff7fffff, 0x7f7fffff, 4⟩,
    ⟨0x210A, 3, 3, .f32, .rw, .factory, 0, 0xff7fffff, 0x7f7fffff, 4⟩,
    ⟨0x210B, 0, 0, .u8, .ro, .factory, 3, 3, 3, 1⟩,
    ⟨0x210B, 1, 1, .f32, .rw, .factory, 0, 0xff7fffff, 0x7f7fffff, 4⟩,
    ⟨0x210B, 2, 2, .f32, .rw, .factory, 0, 0xff7fffff, 0x7f7fffff, 4⟩,
    ⟨0x210B, 3, 3, .f32, .rw, .factory, 0, 0xff7fffff, 0x7f7fffff, 4⟩,
    ⟨0x210C, 0, 0, .u8, .ro, .factory, 3, 3, 3, 1⟩,
    ⟨0x210C, 1, 1, .f32, .rw, .factory, 0, 0xff7fffff, 0x7f7fffff, 4⟩,
    ⟨0x210C, 2, 2, .f32, .rw, .factory, 0, 0xff7fffff, 0x7f7fffff, 4⟩,
    ⟨0x210C, 3, 3, .f32, .rw, .factory, 0, 0xff7fffff, 0x7f7fffff, 4⟩,
    ⟨0x210D, 0, 0, .u8, .ro, .factory, 3, 3, 3, 1⟩,
    ⟨0x210D, 1, 1, .f32, .rw, .factory, 0, 0xff7fffff, 0x7f7fffff, 4⟩,
    ⟨0x210D, 2, 2, .f32, .rw, .factory, 0, 0xff7fffff, 0x7f7fffff, 4⟩,
    ⟨0x210D, 3, 3, .f32, .rw, .factory, 0, 0xff7fffff, 0x7f7fffff, 4⟩,
    ⟨0x210E, 0, 0, .u8, .ro, .factory, 3, 3, 3, 1⟩,
    ⟨0x210E, 1, 1, .f32, .rw, .factory, 0, 0xff7fffff, 0x7f7fffff, 4⟩,
    ⟨0x210E, 2, 2, .f32, .rw, .factory, 0, 0xff7fffff, 0x7f7fffff, 4⟩,
    ⟨0x210E, 3, 3, .f32, .rw, .factory, 0, 0xff7fffff, 0x7f7fffff, 4⟩ ]

/-- Indices 0x2100 to 0x21FF. -/
def dictArea21_1 : List PRow :=
  [ ⟨0x210F, 0, 0, .u8, .ro, .factory, 3, 3, 3, 1⟩,
    ⟨0x210F, 1, 1, .f32, .rw, .factory, 0, 0xff7fffff, 0x7f7fffff, 4⟩,
    ⟨0x210F, 2, 2, .f32, .rw, .factory, 0, 0xff7fffff, 0x7f7fffff, 4⟩,
    ⟨0x210F, 3, 3, .f32, .rw, .factory, 0, 0xff7fffff, 0x7f7fffff, 4⟩,
    ⟨0x2110, 0, 0, .u8, .ro, .factory, 3, 3, 3, 1⟩,
    ⟨0x2110, 1, 1, .f32, .rw, .factory, 0, 0xff7fffff, 0x7f7fffff, 4⟩,
    ⟨0x2110, 2, 2, .f32, .rw, .factory, 0, 0xff7fffff, 0x7f7fffff, 4⟩,
    ⟨0x2110, 3, 3, .f32, .rw, .factory, 0, 0xff7fffff, 0x7f7fffff, 4⟩,
    ⟨0x2111, 0, 0, .u8, .ro, .factory, 3, 3, 3, 1⟩,
    ⟨0x2111, 1, 1, .f32, .rw, .factory, 0, 0xff7fffff, 0x7f7fffff, 4⟩,
    ⟨0x2111, 2, 2, .f32, .rw, .factory, 0, 0xff7fffff, 0x7f7fffff, 4⟩,
    ⟨0x2111, 3, 3, .f32, .rw, .factory, 0, 0xff7fffff, 0x7f7fffff, 4⟩,
    ⟨0x2112, 0, 0, .u8, .ro, .factory, 3, 3, 3, 1⟩,
    ⟨0x2112, 1, 1, .f32, .rw, .factory, 0, 0xff7fffff, 0x7f7fffff, 4⟩,
    ⟨0x2112, 2, 2, .f32, .rw, .factory, 0, 0xff7fffff, 0x7f7fffff, 4⟩,
    ⟨0x2112, 3, 3, .f32, .rw, .factory, 0, 0xff7fffff, 0x7f7fffff, 4⟩,
    ⟨0x2113, 0, 0, .u8, .ro, .factory, 3, 3, 3, 1⟩,
    ⟨0x2113, 1, 1, .f32, .rw, .factory, 0, 0xff7fffff, 0x7f7fffff, 4⟩,
    ⟨0x2113, 2, 2, .f32, .rw, .factory, 0, 0xff7fffff, 0x7f7fffff, 4⟩,
    ⟨0x2113, 3, 3, .f32, .rw, .factory, 0, 0xff7fffff, 0x7f7fffff, 4⟩,
    ⟨0x2114, 0, 0, .u8, .ro, .factory, 3, 3, 3, 1⟩,
    ⟨0x2114, 1, 1, .f32, .rw, .factory, 0, 0xff7fffff, 0x7f7fffff, 4⟩,
    ⟨0x2114, 2, 2, .f32, .rw, .factory, 0, 0xff7fffff, 0x7f7fffff, 4⟩,
    ⟨0x2114, 3, 3, .f32, .rw, .factory, 0, 0xff7fffff, 0x7f7fffff, 4⟩,
    ⟨0x2115, 0, 0, .u8, .ro, .factory, 3, 3, 3, 1⟩,
    ⟨0x2115, 1, 1, .f32, .rw, .factory, 0, 0xff7fffff, 0x7f7fffff, 4⟩,
    ⟨0x2115, 2, 2, .f32, .rw, .factory, 0, 0xff7fffff, 0x7f7fffff, 4⟩,
    ⟨0x2115, 3, 3, .f32, .rw, .factory, 0, 0xff7fffff, 0x7f7fffff, 4⟩,
    ⟨0x2116, 0, 0, .u8, .ro, .factory, 3, 3, 3, 1⟩,
    ⟨0x2116, 1, 1, .f32, .rw, .factory, 0, 0xff7fffff, 0x7f7fffff, 4⟩,
    ⟨0x2116, 2, 2, .f32, .rw, .factory, 0, 0xff7fffff, 0x7f7fffff, 4⟩,
    ⟨0x2116, 3, 3, .f32, .rw, .factory, 0, 0xff7fffff, 0x7f7fffff, 4⟩,
    ⟨0x2117, 0, 0, .u8, .ro, .factory, 3, 3, 3, 1⟩,
    ⟨0x2117, 1, 1, .f32, .rw, .factory, 0, 0xff7fffff, 0x7f7fffff, 4⟩,
    ⟨0x2117, 2, 2, .f32, .rw, .factory, 0, 0xff7fffff, 0x7f7fffff, 4⟩,
    ⟨0x2117, 3, 3, .f32, .rw, .factory, 0, 0xff7fffff, 0x7f7fffff, 4⟩,
    ⟨0x2118, 0, 0, .u8, .ro, .factory, 3, 3, 3, 1⟩,
    ⟨0x2118, 1, 1, .f32, .rw, .factory, 0, 0xff7fffff, 0x7f7fffff, 4⟩,
    ⟨0x2118, 2, 2, .f32, .rw, .factory, 0, 0xff7fffff, 0x7f7fffff, 4⟩,
    ⟨0x2118, 3, 3, .f32, .rw, .factory, 0, 0xff7fffff, 0x7f7fffff, 4⟩,
    ⟨0x2119, 0, 0, .u8, .ro, .factory, 3, 3, 3, 1⟩,
    ⟨0x2119, 1, 1, .f32, .rw, .factory, 0, 0xff7fffff, 0x7f7fffff, 4⟩,
    ⟨0x2119, 2, 2, .f32, .rw, .factory, 0, 0xff7fffff, 0x7f7fffff, 4⟩,
    ⟨0x2119, 3, 3, .f32, .rw, .factory, 0, 0xff7fffff, 0x7f7fffff, 4⟩,
    ⟨0x211A, 0, 0, .u8, .ro, .factory, 3, 3, 3, 1⟩,
    ⟨0x211A, 1, 1, .f32, .rw, .factory, 0, 0xff7fffff, 0x7f7fffff, 4⟩,
    ⟨0x211A, 2, 2, .f32, .rw, .factory, 0, 0xff7fffff, 0x7f7fffff, 4⟩,
    ⟨0x211A, 3, 3, .f32, .rw, .factory, 0, 0xff7fffff, 0x7f7fffff, 4⟩,
    ⟨0x211B, 0, 0, .u8, .ro, .factory, 3, 3, 3, 1⟩,
    ⟨0x211B, 1, 1, .f32, .rw, .factory, 0, 0xff7fffff, 0x7f7fffff, 4⟩,
    ⟨0x211B, 2, 2, .f32, .rw, .factory, 0, 0xff7fffff, 0x7f7fffff, 4⟩,
    ⟨0x211B, 3, 3, .f32, .rw, .factory, 0, 0xff7fffff, 0x7f7fffff, 4⟩,
    ⟨0x211C, 0, 0, .u8, .ro, .factory, 3, 3, 3, 1⟩,
    ⟨0x211C, 1, 1, .f32, .rw, .factory, 0, 0xff7fffff, 0x7f7fffff, 4⟩,
    ⟨0x211C, 2, 2, .f32, .rw, .factory, 0, 0xff7fffff, 0x7f7fffff, 4⟩,
    ⟨0x211C, 3, 3, .f32, .rw, .factory, 0, 0xff7fffff, 0x7f7fffff, 4⟩,
    ⟨0x211D, 0, 0, .u8, .ro, .factory, 3, 3, 3, 1⟩,
    ⟨0x211D, 1, 1, .f32, .rw, .factory, 0, 0xff7fffff, 0x7f7fffff, 4⟩,
    ⟨0x211D, 2, 2, .f32, .rw, .factory, 0, 0xff7fffff, 0x7f7fffff, 4⟩,
    ⟨0x211D, 3, 3, .f32, .rw, .factory, 0, 0xff7fffff, 0x7f7fffff, 4⟩ ]

/-- Indices 0x2100 to 0x21FF. -/
def dictArea21_2 : List PRow :=
  [ ⟨0x211E, 0, 0, .u8, .ro, .factory, 3, 3, 3, 1⟩,
    ⟨0x211E, 1, 1, .f32, .rw, .factory, 0, 0xff7fffff, 0x7f7fffff, 4⟩,
    ⟨0x211E, 2, 2, .f32, .rw, .factory, 0, 0xff7fffff, 0x7f7fffff, 4⟩,
    ⟨0x211E, 3, 3, .f32, .rw, .factory, 0, 0xff7fffff, 0x7f7fffff, 4⟩,
    ⟨0x211F, 0, 0, .u8, .ro, .factory, 3, 3, 3, 1⟩,
    ⟨0x211F, 1, 1, .f32, .rw, .factory, 0, 0xff7fffff, 0x7f7fffff, 4⟩,
    ⟨0x211F, 2, 2, .f32, .rw, .factory, 0, 0xff7fffff, 0x7f7fffff, 4⟩,
    ⟨0x211F, 3, 3, .f32, .rw, .factory, 0, 0xff7fffff, 0x7f7fffff, 4⟩,
    ⟨0x2120, 0, 0, .u8, .ro, .factory, 3, 3, 3, 1⟩,
    ⟨0x2120, 1, 1, .f32, .rw, .factory, 0, 0xff7fffff, 0x7f7fffff, 4⟩,
    ⟨0x2120, 2, 2, .f32, .rw, .factory, 0, 0xff7fffff, 0x7f7fffff, 4⟩,
    ⟨0x2120, 3, 3, .f32, .rw, .factory, 0, 0xff7fffff, 0x7f7fffff, 4⟩,
    ⟨0x2121, 0, 0, .u8, .ro, .factory, 3, 3, 3, 1⟩,
    ⟨0x2121, 1, 1, .f32, .rw, .factory, 0, 0xff7fffff, 0x7f7fffff, 4⟩,
    ⟨0x2121, 2, 2, .f32, .rw, .factory, 0, 0xff7fffff, 0x7f7fffff, 4⟩,
    ⟨0x2121, 3, 3, .f32, .rw, .factory, 0, 0xff7fffff, 0x7f7fffff, 4⟩,
    ⟨0x2122, 0, 0, .u8, .ro, .factory, 3, 3, 3, 1⟩,
    ⟨0x2122, 1, 1, .f32, .rw, .factory, 0, 0xff7fffff, 0x7f7fffff, 4⟩,
    ⟨0x2122, 2, 2, .f32, .rw, .factory, 0, 0xff7fffff, 0x7f7fffff, 4⟩,
    ⟨0x2122, 3, 3, .f32, .rw, .factory, 0, 0xff7fffff, 0x7f7fffff, 4⟩,
    ⟨0x2123, 0, 0, .u8, .ro, .factory, 3, 3, 3, 1⟩,
    ⟨0x2123, 1, 1, .f32, .rw, .factory, 0, 0xff7fffff, 0x7f7fffff, 4⟩,
    ⟨0x2123, 2, 2, .f32, .rw, .factory, 0, 0xff7fffff, 0x7f7fffff, 4⟩,
    ⟨0x2123, 3, 3, .f32, .rw, .factory, 0, 0xff7fffff, 0x7f7fffff, 4⟩,
    ⟨0x2124, 0, 0, .u8, .ro, .factory, 3, 3, 3, 1⟩,
    ⟨0x2124, 1, 1, .f32, .rw, .factory, 0, 0xff7fffff, 0x7f7fffff, 4⟩,
    ⟨0x2124, 2, 2, .f32, .rw, .factory, 0, 0xff7fffff, 0x7f7fffff, 4⟩,
    ⟨0x2124, 3, 3, .f32, .rw, .factory, 0, 0xff7fffff, 0x7f7fffff, 4⟩,
    ⟨0x2125, 0, 0, .u8, .ro, .factory, 3, 3, 3, 1⟩,
    ⟨0x2125, 1, 1, .f32, .rw, .factory, 0, 0xff7fffff, 0x7f7fffff, 4⟩,
    ⟨0x2125, 2, 2, .f32, .rw, .factory, 0, 0xff7fffff, 0x7f7fffff, 4⟩,
    ⟨0x2125, 3, 3, .f32, .rw, .factory, 0, 0xff7fffff, 0x7f7fffff, 4⟩,
    ⟨0x2126, 0, 0, .u8, .ro, .factory, 3, 3, 3, 1⟩,
    ⟨0x2126, 1, 1, .f32, .rw, .factory, 0, 0xff7fffff, 0x7f7fffff, 4⟩,
    ⟨0x2126, 2, 2, .f32, .rw, .factory, 0, 0xff7fffff, 0x7f7fffff, 4⟩,
    ⟨0x2126, 3, 3, .f32, .rw, .factory, 0, 0xff7fffff, 0x7f7fffff, 4⟩,
    ⟨0x2127, 0, 0, .u8, .ro, .factory, 3, 3, 3, 1⟩,
    ⟨0x2127, 1, 1, .f32, .rw, .factory, 0, 0xff7fffff, 0x7f7fffff, 4⟩,
    ⟨0x2127, 2, 2, .f32, .rw, .factory, 0, 0xff7fffff, 0x7f7fffff, 4⟩,
    ⟨0x2127, 3, 3, .f32, .rw, .factory, 0, 0xff7fffff, 0x7f7fffff, 4⟩,
    ⟨0x2128, 0, 0, .u8, .ro, .factory, 3, 3, 3, 1⟩,
    ⟨0x2128, 1, 1, .f32, .rw, .factory, 0, 0xff7fffff, 0x7f7fffff, 4⟩,
    ⟨0x2128, 2, 2, .f32, .rw, .factory, 0, 0xff7fffff, 0x7f7fffff, 4⟩,
    ⟨0x2128, 3, 3, .f32, .rw, .factory, 0, 0xff7fffff, 0x7f7fffff, 4⟩,
    ⟨0x2129, 0, 0, .u8, .ro, .factory, 3, 3, 3, 1⟩,
    ⟨0x2129, 1, 1, .f32, .rw, .factory, 0, 0xff7fffff, 0x7f7fffff, 4⟩,
    ⟨0x2129, 2, 2, .f32, .rw, .factory, 0, 0xff7fffff, 0x7f7fffff, 4⟩,
    ⟨0x2129, 3, 3, .f32, .rw, .factory, 0, 0xff7fffff, 0x7f7fffff, 4⟩,
    ⟨0x212A, 0, 0, .u8, .ro, .factory, 3, 3, 3, 1⟩,
    ⟨0x212A, 1, 1, .f32, .rw, .factory, 0, 0xff7fffff, 0x7f7fffff, 4⟩,
    ⟨0x212A, 2, 2, .f32, .rw, .factory, 0, 0xff7fffff, 0x7f7fffff, 4⟩,
    ⟨0x212A, 3, 3, .f32, .rw, .factory, 0, 0xff7fffff, 0x7f7fffff, 4⟩,
    ⟨0x212B, 0, 0, .u8, .ro, .factory, 3, 3, 3, 1⟩,
    ⟨0x212B, 1, 1, .f32, .rw, .factory, 0, 0xff7fffff, 0x7f7fffff, 4⟩,
    ⟨0x212B, 2, 2, .f32, .rw, .factory, 0, 0xff7fffff, 0x7f7fffff, 4⟩,
    ⟨0x212B, 3, 3, .f32, .rw, .factory, 0, 0xff7fffff, 0x7f7fffff, 4⟩,
    ⟨0x212C, 0, 0, .u8, .ro, .factory, 3, 3, 3, 1⟩,
    ⟨0x212C, 1, 1, .f32, .rw, .factory, 0, 0xff7fffff, 0x7f7fffff, 4⟩,
    ⟨0x212C, 2, 2, .f32, .rw, .factory, 0, 0xff7fffff, 0x7f7fffff, 4⟩,
    ⟨0x212C, 3, 3, .f32, .rw, .factory, 0, 0xff7fffff, 0x7f7fffff, 4⟩ ]

/-- Indices 0x2100 to 0x21FF. -/
def dictArea21_3 : List PRow :=
  [ ⟨0x212D, 0, 0, .u8, .ro, .factory, 3, 3, 3, 1⟩,
    ⟨0x212D, 1, 1, .f32, .rw, .factory, 0, 0xff7fffff, 0x7f7fffff, 4⟩,
    ⟨0x212D, 2, 2, .f32, .rw, .factory, 0, 0xff7fffff, 0x7f7fffff, 4⟩,
    ⟨0x212D, 3, 3, .f32, .rw, .factory, 0, 0xff7fffff, 0x7f7fffff, 4⟩,
    ⟨0x212E, 0, 0, .u8, .ro, .factory, 3, 3, 3, 1⟩,
    ⟨0x212E, 1, 1, .f32, .rw, .factory, 0, 0xff7fffff, 0x7f7fffff, 4⟩,
    ⟨0x212E, 2, 2, .f32, .rw, .factory, 0, 0xff7fffff, 0x7f7fffff, 4⟩,
    ⟨0x212E, 3, 3, .f32, .rw, .factory, 0, 0xff7fffff, 0x7f7fffff, 4⟩,
    ⟨0x212F, 0, 0, .u8, .ro, .factory, 3, 3, 3, 1⟩,
    ⟨0x212F, 1, 1, .f32, .rw, .factory, 0, 0xff7fffff, 0x7f7fffff, 4⟩,
    ⟨0x212F, 2, 2, .f32, .rw, .factory, 0, 0xff7fffff, 0x7f7fffff, 4⟩,
    ⟨0x212F, 3, 3, .f32, .rw, .factory, 0, 0xff7fffff, 0x7f7fffff, 4⟩,
    ⟨0x2130, 0, 0, .u8, .ro, .factory, 3, 3, 3, 1⟩,
    ⟨0x2130, 1, 1, .f32, .rw, .factory, 0, 0xff7fffff, 0x7f7fffff, 4⟩,
    ⟨0x2130, 2, 2, .f32, .rw, .factory, 0, 0xff7fffff, 0x7f7fffff, 4⟩,
    ⟨0x2130, 3, 3, .f32, .rw, .factory, 0, 0xff7fffff, 0x7f7fffff, 4⟩,
    ⟨0x2131, 0, 0, .u8, .ro, .factory, 3, 3, 3, 1⟩,
    ⟨0x2131, 1, 1, .f32, .rw, .factory, 0, 0xff7fffff, 0x7f7fffff, 4⟩,
    ⟨0x2131, 2, 2, .f32, .rw, .factory, 0, 0xff7fffff, 0x7f7fffff, 4⟩,
    ⟨0x2131, 3, 3, .f32, .rw, .factory, 0, 0xff7fffff, 0x7f7fffff, 4⟩,
    ⟨0x2132, 0, 0, .u8, .ro, .factory, 3, 3, 3, 1⟩,
    ⟨0x2132, 1, 1, .f32, .rw, .factory, 0, 0xff7fffff, 0x7f7fffff, 4⟩,
    ⟨0x2132, 2, 2, .f32, .rw, .factory, 0, 0xff7fffff, 0x7f7fffff, 4⟩,
    ⟨0x2132, 3, 3, .f32, .rw, .factory, 0, 0xff7fffff, 0x7f7fffff, 4⟩,
    ⟨0x2133, 0, 0, .u8, .ro, .factory, 3, 3, 3, 1⟩,
    ⟨0x2133, 1, 1, .f32, .rw, .factory, 0, 0xff7fffff, 0x7f7fffff, 4⟩,
    ⟨0x2133, 2, 2, .f32, .rw, .factory, 0, 0xff7fffff, 0x7f7fffff, 4⟩,
    ⟨0x2133, 3, 3, .f32, .rw, .factory, 0, 0xff7fffff, 0x7f7fffff, 4⟩,
    ⟨0x2134, 0, 0, .u8, .ro, .factory, 3, 3, 3, 1⟩,
    ⟨0x2134, 1, 1, .f32, .rw, .factory, 0, 0xff7fffff, 0x7f7fffff, 4⟩,
    ⟨0x2134, 2, 2, .f32, .rw, .factory, 0, 0xff7fffff, 0x7f7fffff, 4⟩,
    ⟨0x2134, 3, 3, .f32, .rw, .factory, 0, 0xff7fffff, 0x7f7fffff, 4⟩,
    ⟨0x2135, 0, 0, .u8, .ro, .factory, 3, 3, 3, 1⟩,
    ⟨0x2135, 1, 1, .f32, .rw, .factory, 0, 0xff7fffff, 0x7f7fffff, 4⟩,
    ⟨0x2135, 2, 2, .f32, .rw, .factory, 0, 0xff7fffff, 0x7f7fffff, 4⟩,
    ⟨0x2135, 3, 3, .f32, .rw, .factory, 0, 0xff7fffff, 0x7f7fffff, 4⟩,
    ⟨0x2136, 0, 0, .u8, .ro, .factory, 3, 3, 3, 1⟩,
    ⟨0x2136, 1, 1, .f32, .rw, .factory, 0, 0xff7fffff, 0x7f7fffff, 4⟩,
    ⟨0x2136, 2, 2, .f32, .rw, .factory, 0, 0xff7fffff, 0x7f7fffff, 4⟩,
    ⟨0x2136, 3, 3, .f32, .rw, .factory, 0, 0xff7fffff, 0x7f7fffff, 4⟩,
    ⟨0x2137, 0, 0, .u8, .ro, .factory, 3, 3, 3, 1⟩,
    ⟨0x2137, 1, 1, .f32, .rw, .factory, 0, 0xff7fffff, 0x7f7fffff, 4⟩,
    ⟨0x2137, 2, 2, .f32, .rw, .factory, 0, 0xff7fffff, 0x7f7fffff, 4⟩,
    ⟨0x2137, 3, 3, .f32, .rw, .factory, 0, 0xff7fffff, 0x7f7fffff, 4⟩,
    ⟨0x2138, 0, 0, .u8, .ro, .factory, 3, 3, 3, 1⟩,
    ⟨0x2138, 1, 1, .f32, .rw, .factory, 0, 0xff7fffff, 0x7f7fffff, 4⟩,
    ⟨0x2138, 2, 2, .f32, .rw, .factory, 0, 0xff7fffff, 0x7f7fffff, 4⟩,
    ⟨0x2138, 3, 3, .f32, .rw, .factory, 0, 0xff7fffff, 0x7f7fffff, 4⟩,
    ⟨0x2139, 0, 0, .u8, .ro, .factory, 3, 3, 3, 1⟩,
    ⟨0x2139, 1, 1, .f32, .rw, .factory, 0, 0xff7fffff, 0x7f7fffff, 4⟩,
    ⟨0x2139, 2, 2, .f32, .rw, .factory, 0, 0xff7fffff, 0x7f7fffff, 4⟩,
    ⟨0x2139, 3, 3, .f32, .rw, .factory, 0, 0xff7fffff, 0x7f7fffff, 4⟩,
    ⟨0x213A, 0, 0, .u8, .ro, .factory, 3, 3, 3, 1⟩,
    ⟨0x213A, 1, 1, .f32, .rw, .factory, 0, 0xff7fffff, 0x7f7fffff, 4⟩,
    ⟨0x213A, 2, 2, .f32, .rw, .factory, 0, 0xff7fffff, 0x7f7fffff, 4⟩,
    ⟨0x213A, 3, 3, .f32, .rw, .factory, 0, 0xff7fffff, 0x7f7fffff, 4⟩,
    ⟨0x213B, 0, 0, .u8, .ro, .factory, 3, 3, 3, 1⟩,
    ⟨0x213B, 1, 1, .f32, .rw, .factory, 0, 0xff7fffff, 0x7f7fffff, 4⟩,
    ⟨0x213B, 2, 2, .f32, .rw, .factory, 0, 0xff7fffff, 0x7f7fffff, 4⟩,
    ⟨0x213B, 3, 3, .f32, .rw, .factory, 0, 0xff7fffff, 0x7f7fffff, 4⟩ ]

/-- Indices 0x2100 to 0x21FF. -/
def dictArea21_4 : List PRow :=
  [ ⟨0x213C, 0, 0, .u8, .ro, .factory, 3, 3, 3, 1⟩,
    ⟨0x213C, 1, 1, .f32, .rw, .factory, 0, 0xff7fffff, 0x7f7fffff, 4⟩,
    ⟨0x213C, 2, 2, .f32, .rw, .factory, 0, 0xff7fffff, 0x7f7fffff, 4⟩,
    ⟨0x213C, 3, 3, .f32, .rw, .factory, 0, 0xff7fffff, 0x7f7fffff, 4⟩,
    ⟨0x213D, 0, 0, .u8, .ro, .factory, 3, 3, 3, 1⟩,
    ⟨0x213D, 1, 1, .f32, .rw, .factory, 0, 0xff7fffff, 0x7f7fffff, 4⟩,
    ⟨0x213D, 2, 2, .f32, .rw, .factory, 0, 0xff7fffff, 0x7f7fffff, 4⟩,
    ⟨0x213D, 3, 3, .f32, .rw, .factory, 0, 0xff7fffff, 0x7f7fffff, 4⟩,
    ⟨0x213E, 0, 0, .u8, .ro, .factory, 3, 3, 3, 1⟩,
    ⟨0x213E, 1, 1, .f32, .rw, .factory, 0, 0xff7fffff, 0x7f7fffff, 4⟩,
    ⟨0x213E, 2, 2, .f32, .rw, .factory, 0, 0xff7fffff, 0x7f7fffff, 4⟩,
    ⟨0x213E, 3, 3, .f32, .rw, .factory, 0, 0xff7fffff, 0x7f7fffff, 4⟩,
    ⟨0x213F, 0, 0, .u8, .ro, .factory, 3, 3, 3, 1⟩,
    ⟨0x213F, 1, 1, .f32, .rw, .factory, 0, 0xff7fffff, 0x7f7fffff, 4⟩,
    ⟨0x213F, 2, 2, .f32, .rw, .factory, 0, 0xff7fffff, 0x7f7fffff, 4⟩,
    ⟨0x213F, 3, 3, .f32, .rw, .factory, 0, 0xff7fffff, 0x7f7fffff, 4⟩,
    ⟨0x2140, 0, 0, .u8, .ro, .factory, 3, 3, 3, 1⟩,
    ⟨0x2140, 1, 1, .f32, .rw, .factory, 0, 0xff7fffff, 0x7f7fffff, 4⟩,
    ⟨0x2140, 2, 2, .f32, .rw, .factory, 0, 0xff7fffff, 0x7f7fffff, 4⟩,
    ⟨0x2140, 3, 3, .f32, .rw, .factory, 0, 0xff7fffff, 0x7f7fffff, 4⟩,
    ⟨0x2141, 0, 0, .u8, .ro, .factory, 3, 3, 3, 1⟩,
    ⟨0x2141, 1, 1, .f32, .rw, .factory, 0, 0xff7fffff, 0x7f7fffff, 4⟩,
    ⟨0x2141, 2, 2, .f32, .rw, .factory, 0, 0xff7fffff, 0x7f7fffff, 4⟩,
    ⟨0x2141, 3, 3, .f32, .rw, .factory, 0, 0xff7fffff, 0x7f7fffff, 4⟩,
    ⟨0x2142, 0, 0, .u8, .ro, .factory, 3, 3, 3, 1⟩,
    ⟨0x2142, 1, 1, .f32, .rw, .factory, 0, 0xff7fffff, 0x7f7fffff, 4⟩,
    ⟨0x2142, 2, 2, .f32, .rw, .factory, 0, 0xff7fffff, 0x7f7fffff, 4⟩,
    ⟨0x2142, 3, 3, .f32, .rw, .factory, 0, 0xff7fffff, 0x7f7fffff, 4⟩,
    ⟨0x2143, 0, 0, .u8, .ro, .factory, 3, 3, 3, 1⟩,
    ⟨0x2143, 1, 1, .f32, .rw, .factory, 0, 0xff7fffff, 0x7f7fffff, 4⟩,
    ⟨0x2143, 2, 2, .f32, .rw, .factory, 0, 0xff7fffff, 0x7f7fffff, 4⟩,
    ⟨0x2143, 3, 3, .f32, .rw, .factory, 0, 0xff7fffff, 0x7f7fffff, 4⟩,
    ⟨0x2144, 0, 0, .u8, .ro, .factory, 3, 3, 3, 1⟩,
    ⟨0x2144, 1, 1, .f32, .rw, .factory, 0, 0xff7fffff, 0x7f7fffff, 4⟩,
    ⟨0x2144, 2, 2, .f32, .rw, .factory, 0, 0xff7fffff, 0x7f7fffff, 4⟩,
    ⟨0x2144, 3, 3, .f32, .rw, .factory, 0, 0xff7fffff, 0x7f7fffff, 4⟩,
    ⟨0x2145, 0, 0, .u8, .ro, .factory, 3, 3, 3, 1⟩,
    ⟨0x2145, 1, 1, .f32, .rw, .factory, 0, 0xff7fffff, 0x7f7fffff, 4⟩,
    ⟨0x2145, 2, 2, .f32, .rw, .factory, 0, 0xff7fffff, 0x7f7fffff, 4⟩,
    ⟨0x2145, 3, 3, .f32, .rw, .factory, 0, 0xff7fffff, 0x7f7fffff, 4⟩,
    ⟨0x2146, 0, 0, .u8, .ro, .factory, 3, 3, 3, 1⟩,
    ⟨0x2146, 1, 1, .f32, .rw, .factory, 0, 0xff7fffff, 0x7f7fffff, 4⟩,
    ⟨0x2146, 2, 2, .f32, .rw, .factory, 0, 0xff7fffff, 0x7f7fffff, 4⟩,
    ⟨0x2146, 3, 3, .f32, .rw, .factory, 0, 0xff7fffff, 0x7f7fffff, 4⟩,
    ⟨0x2147, 0, 0, .u8, .ro, .factory, 3, 3, 3, 1⟩,
    ⟨0x2147, 1, 1, .f32, .rw, .factory, 0, 0xff7fffff, 0x7f7fffff, 4⟩,
    ⟨0x2147, 2, 2, .f32, .rw, .factory, 0, 0xff7fffff, 0x7f7fffff, 4⟩,
    ⟨0x2147, 3, 3, .f32, .rw, .factory, 0, 0xff7fffff, 0x7f7fffff, 4⟩,
    ⟨0x2148, 0, 0, .u8, .ro, .factory, 3, 3, 3, 1⟩,
    ⟨0x2148, 1, 1, .f32, .rw, .factory, 0, 0xff7fffff, 0x7f7fffff, 4⟩,
    ⟨0x2148, 2, 2, .f32, .rw, .factory, 0, 0xff7fffff, 0x7f7fffff, 4⟩,
    ⟨0x2148, 3, 3, .f32, .rw, .factory, 0, 0xff7fffff, 0x7f7fffff, 4⟩,
    ⟨0x2149, 0, 0, .u8, .ro, .factory, 3, 3, 3, 1⟩,
    ⟨0x2149, 1, 1, .f32, .rw, .factory, 0, 0xff7fffff, 0x7f7fffff, 4⟩,
    ⟨0x2149, 2, 2, .f32, .rw, .factory, 0, 0xff7fffff, 0x7f7fffff, 4⟩,
    ⟨0x2149, 3, 3, .f32, .rw, .factory, 0, 0xff7fffff, 0x7f7fffff, 4⟩,
    ⟨0x214A, 0, 0, .u8, .ro, .factory, 3, 3, 3, 1⟩,
    ⟨0x214A, 1, 1, .f32, .rw, .factory, 0, 0xff7fffff, 0x7f7fffff, 4⟩,
    ⟨0x214A, 2, 2, .f32, .rw, .factory, 0, 0xff7fffff, 0x7f7fffff, 4⟩,
    ⟨0x214A, 3, 3, .f32, .rw, .factory, 0, 0xff7fffff, 0x7f7fffff, 4⟩ ]

/-- Indices 0x2100 to 0x21FF. -/
def dictArea21_5 : List PRow :=
  [ ⟨0x214B, 0, 0, .u8, .ro, .factory, 3, 3, 3, 1⟩,
    ⟨0x214B, 1, 1, .f32, .rw, .factory, 0, 0xff7fffff, 0x7f7fffff, 4⟩,
    ⟨0x214B, 2, 2, .f32, .rw, .factory, 0, 0xff7fffff, 0x7f7fffff, 4⟩,
    ⟨0x214B, 3, 3, .f32, .rw, .factory, 0, 0xff7fffff, 0x7f7fffff, 4⟩,
    ⟨0x214C, 0, 0, .u8, .ro, .factory, 3, 3, 3, 1⟩,
    ⟨0x214C, 1, 1, .f32, .rw, .factory, 0, 0xff7fffff, 0x7f7fffff, 4⟩,
    ⟨0x214C, 2, 2, .f32, .rw, .factory, 0, 0xff7fffff, 0x7f7fffff, 4⟩,
    ⟨0x214C, 3, 3, .f32, .rw, .factory, 0, 0xff7fffff, 0x7f7fffff, 4⟩,
    ⟨0x214D, 0, 0, .u8, .ro, .factory, 3, 3, 3, 1⟩,
    ⟨0x214D, 1, 1, .f32, .rw, .factory, 0, 0xff7fffff, 0x7f7fffff, 4⟩,
    ⟨0x214D, 2, 2, .f32, .rw, .factory, 0, 0xff7fffff, 0x7f7fffff, 4⟩,
    ⟨0x214D, 3, 3, .f32, .rw, .factory, 0, 0xff7fffff, 0x7f7fffff, 4⟩,
    ⟨0x214E, 0, 0, .u8, .ro, .factory, 3, 3, 3, 1⟩,
    ⟨0x214E, 1, 1, .f32, .rw, .factory, 0, 0xff7fffff, 0x7f7fffff, 4⟩,
    ⟨0x214E, 2, 2, .f32, .rw, .factory, 0, 0xff7fffff, 0x7f7fffff, 4⟩,
    ⟨0x214E, 3, 3, .f32, .rw, .factory, 0, 0xff7fffff, 0x7f7fffff, 4⟩,
    ⟨0x214F, 0, 0, .u8, .ro, .factory, 3, 3, 3, 1⟩,
    ⟨0x214F, 1, 1, .f32, .rw, .factory, 0, 0xff7fffff, 0x7f7fffff, 4⟩,
    ⟨0x214F, 2, 2, .f32, .rw, .factory, 0, 0xff7fffff, 0x7f7fffff, 4⟩,
    ⟨0x214F, 3, 3, .f32, .rw, .factory, 0, 0xff7fffff, 0x7f7fffff, 4⟩,
    ⟨0x2150, 0, 0, .u8, .ro, .factory, 3, 3, 3, 1⟩,
    ⟨0x2150, 1, 1, .f32, .rw, .factory, 0, 0xff7fffff, 0x7f7fffff, 4⟩,
    ⟨0x2150, 2, 2, .f32, .rw, .factory, 0, 0xff7fffff, 0x7f7fffff, 4⟩,
    ⟨0x2150, 3, 3, .f32, .rw, .factory, 0, 0xff7fffff, 0x7f7fffff, 4⟩,
    ⟨0x2151, 0, 0, .u8, .ro, .factory, 3, 3, 3, 1⟩,
    ⟨0x2151, 1, 1, .f32, .rw, .factory, 0, 0xff7fffff, 0x7f7fffff, 4⟩,
    ⟨0x2151, 2, 2, .f32, .rw, .factory, 0, 0xff7fffff, 0x7f7fffff, 4⟩,
    ⟨0x2151, 3, 3, .f32, .rw, .factory, 0, 0xff7fffff, 0x7f7fffff, 4⟩,
    ⟨0x2152, 0, 0, .u8, .ro, .factory, 3, 3, 3, 1⟩,
    ⟨0x2152, 1, 1, .f32, .rw, .factory, 0, 0xff7fffff, 0x7f7fffff, 4⟩,
    ⟨0x2152, 2, 2, .f32, .rw, .factory, 0, 0xff7fffff, 0x7f7fffff, 4⟩,
    ⟨0x2152, 3, 3, .f32, .rw, .factory, 0, 0xff7fffff, 0x7f7fffff, 4⟩,
    ⟨0x2153, 0, 0, .u8, .ro, .factory, 3, 3, 3, 1⟩,
    ⟨0x2153, 1, 1, .f32, .rw, .factory, 0, 0xff7fffff, 0x7f7fffff, 4⟩,
    ⟨0x2153, 2, 2, .f32, .rw, .factory, 0, 0xff7fffff, 0x7f7fffff, 4⟩,
    ⟨0x2153, 3, 3, .f32, .rw, .factory, 0, 0xff7fffff, 0x7f7fffff, 4⟩,
    ⟨0x2154, 0, 0, .u8, .ro, .factory, 3, 3, 3, 1⟩,
    ⟨0x2154, 1, 1, .f32, .rw, .factory, 0, 0xff7fffff, 0x7f7fffff, 4⟩,
    ⟨0x2154, 2, 2, .f32, .rw, .factory, 0, 0xff7fffff, 0x7f7fffff, 4⟩,
    ⟨0x2154, 3, 3, .f32, .rw, .factory, 0, 0xff7fffff, 0x7f7fffff, 4⟩,
    ⟨0x2155, 0, 0, .u8, .ro, .factory, 3, 3, 3, 1⟩,
    ⟨0x2155, 1, 1, .f32, .rw, .factory, 0, 0xff7fffff, 0x7f7fffff, 4⟩,
    ⟨0x2155, 2, 2, .f32, .rw, .factory, 0, 0xff7fffff, 0x7f7fffff, 4⟩,
    ⟨0x2155, 3, 3, .f32, .rw, .factory, 0, 0xff7fffff, 0x7f7fffff, 4⟩,
    ⟨0x2156, 0, 0, .u8, .ro, .factory, 3, 3, 3, 1⟩,
    ⟨0x2156, 1, 1, .f32, .rw, .factory, 0, 0xff7fffff, 0x7f7fffff, 4⟩,
    ⟨0x2156, 2, 2, .f32, .rw, .factory, 0, 0xff7fffff, 0x7f7fffff, 4⟩,
    ⟨0x2156, 3, 3, .f32, .rw, .factory, 0, 0xff7fffff, 0x7f7fffff, 4⟩,
    ⟨0x2157, 0, 0, .u8, .ro, .factory, 3, 3, 3, 1⟩,
    ⟨0x2157, 1, 1, .f32, .rw, .factory, 0, 0xff7fffff, 0x7f7fffff, 4⟩,
    ⟨0x2157, 2, 2, .f32, .rw, .factory, 0, 0xff7fffff, 0x7f7fffff, 4⟩,
    ⟨0x2157, 3, 3, .f32, .rw, .factory, 0, 0xff7fffff, 0x7f7fffff, 4⟩,
    ⟨0x2158, 0, 0, .u8, .ro, .factory, 3, 3, 3, 1⟩,
    ⟨0x2158, 1, 1, .f32, .rw, .factory, 0, 0xff7fffff, 0x7f7fffff, 4⟩,
    ⟨0x2158, 2, 2, .f32, .rw, .factory, 0, 0xff7fffff, 0x7f7fffff, 4⟩,
    ⟨0x2158, 3, 3, .f32, .rw, .factory, 0, 0xff7fffff, 0x7f7fffff, 4⟩,
    ⟨0x2159, 0, 0, .u8, .ro, .factory, 3, 3, 3, 1⟩,
    ⟨0x2159, 1, 1, .f32, .rw, .factory, 0, 0xff7fffff, 0x7f7fffff, 4⟩,
    ⟨0x2159, 2, 2, .f32, .rw, .factory, 0, 0xff7fffff, 0x7f7fffff, 4⟩,
    ⟨0x2159, 3, 3, .f32, .rw, .factory, 0, 0xff7fffff, 0x7f7fffff, 4⟩ ]

/-- Indices 0x2100 to 0x21FF. -/
def dictArea21_6 : List PRow :=
  [ ⟨0x215A, 0, 0, .u8, .ro, .factory, 3, 3, 3, 1⟩,
    ⟨0x215A, 1, 1, .f32, .rw, .factory, 0, 0xff7fffff, 0x7f7fffff, 4⟩,
    ⟨0x215A, 2, 2, .f32, .rw, .factory, 0, 0xff7fffff, 0x7f7fffff, 4⟩,
    ⟨0x215A, 3, 3, .f32, .rw, .factory, 0, 0xff7fffff, 0x7f7fffff, 4⟩,
    ⟨0x215B, 0, 0, .u8, .ro, .factory, 3, 3, 3, 1⟩,
    ⟨0x215B, 1, 1, .f32, .rw, .factory, 0, 0xff7fffff, 0x7f7fffff, 4⟩,
    ⟨0x215B, 2, 2, .f32, .rw, .factory, 0, 0xff7fffff, 0x7f7fffff, 4⟩,
    ⟨0x215B, 3, 3, .f32, .rw, .factory, 0, 0xff7fffff, 0x7f7fffff, 4⟩ ]

/-- Indices 0x2200 to 0x22FF. -/
def dictArea22 : List PRow :=
  [ ⟨0x2200, 0, 0, .blob, .rw, .factory, 0, 0, 0, 0⟩,
    ⟨0x2210, 0, 0, .blob, .rw, .factory, 0, 0, 0, 0⟩,
    ⟨0x2220, 0, 0, .blob, .rw, .factory, 0, 0, 0, 0⟩ ]

/-- Indices 0x2800 to 0x28FF. -/
def dictArea28 : List PRow :=
  [ ⟨0x2810, 0, 0, .u8, .ro, .service, 3, 3, 3, 1⟩,
    ⟨0x2810, 1, 1, .enum, .rwp, .service, 0, 0, 2, 1⟩,
    ⟨0x2810, 2, 2, .f32, .rwp, .service, 0, 0xff7fffff, 0x7f7fffff, 4⟩,
    ⟨0x2810, 3, 3, .f32, .ro, .service, 0, 0xff7fffff, 0x7f7fffff, 4⟩,
    ⟨0x2811, 0, 0, .u8, .ro, .service, 3, 3, 3, 1⟩,
    ⟨0x2811, 1, 1, .enum, .rwp, .service, 0, 0, 2, 1⟩,
    ⟨0x2811, 2, 2, .f32, .rwp, .service, 0, 0xff7fffff, 0x7f7fffff, 4⟩,
    ⟨0x2811, 3, 3, .f32, .ro, .service, 0, 0xff7fffff, 0x7f7fffff, 4⟩,
    ⟨0x2812, 0, 0, .u8, .ro, .service, 3, 3, 3, 1⟩,
    ⟨0x2812, 1, 1, .enum, .rwp, .service, 0, 0, 2, 1⟩,
    ⟨0x2812, 2, 2, .f32, .rwp, .service, 0, 0xff7fffff, 0x7f7fffff, 4⟩,
    ⟨0x2812, 3, 3, .f32, .ro, .service, 0, 0xff7fffff, 0x7f7fffff, 4⟩,
    ⟨0x2813, 0, 0, .u8, .ro, .service, 3, 3, 3, 1⟩,
    ⟨0x2813, 1, 1, .enum, .rwp, .service, 0, 0, 2, 1⟩,
    ⟨0x2813, 2, 2, .f32, .rwp, .service, 0, 0xff7fffff, 0x7f7fffff, 4⟩,
    ⟨0x2813, 3, 3, .f32, .ro, .service, 0, 0xff7fffff, 0x7f7fffff, 4⟩,
    ⟨0x2814, 0, 0, .u8, .ro, .service, 3, 3, 3, 1⟩,
    ⟨0x2814, 1, 1, .enum, .rwp, .service, 0, 0, 2, 1⟩,
    ⟨0x2814, 2, 2, .f32, .rwp, .service, 0, 0xff7fffff, 0x7f7fffff, 4⟩,
    ⟨0x2814, 3, 3, .f32, .ro, .service, 0, 0xff7fffff, 0x7f7fffff, 4⟩,
    ⟨0x2820, 0, 0, .u8, .ro, .service, 3, 3, 3, 1⟩,
    ⟨0x2820, 1, 1, .enum, .rwp, .service, 0, 0, 2, 1⟩,
    ⟨0x2820, 2, 2, .f32, .rwp, .service, 0, 0xff7fffff, 0x7f7fffff, 4⟩,
    ⟨0x2820, 3, 3, .f32, .ro, .service, 0, 0xff7fffff, 0x7f7fffff, 4⟩,
    ⟨0x2821, 0, 0, .u8, .ro, .service, 3, 3, 3, 1⟩,
    ⟨0x2821, 1, 1, .enum, .rwp, .service, 0, 0, 2, 1⟩,
    ⟨0x2821, 2, 2, .f32, .rwp, .service, 0, 0xff7fffff, 0x7f7fffff, 4⟩,
    ⟨0x2821, 3, 3, .f32, .ro, .service, 0, 0xff7fffff, 0x7f7fffff, 4⟩ ]

/-- Indices 0x2900 to 0x29FF. -/
def dictArea29 : List PRow :=
  [ ⟨0x2900, 0, 0, .u8, .ro, .service, 3, 3, 3, 1⟩,
    ⟨0x2900, 1, 1, .enum, .rwp, .service, 0, 0, 2, 1⟩,
    ⟨0x2900, 2, 2, .f32, .rwp, .service, 0, 0xff7fffff, 0x7f7fffff, 4⟩,
    ⟨0x2900, 3, 3, .f32, .ro, .service, 0, 0xff7fffff, 0x7f7fffff, 4⟩,
    ⟨0x2901, 0, 0, .u8, .ro, .service, 3, 3, 3, 1⟩,
    ⟨0x2901, 1, 1, .enum, .rwp, .service, 0, 0, 2, 1⟩,
    ⟨0x2901, 2, 2, .f32, .rwp, .service, 0, 0xff7fffff, 0x7f7fffff, 4⟩,
    ⟨0x2901, 3, 3, .f32, .ro, .service, 0, 0xff7fffff, 0x7f7fffff, 4⟩,
    ⟨0x2902, 0, 0, .u8, .ro, .service, 3, 3, 3, 1⟩,
    ⟨0x2902, 1, 1, .enum, .rwp, .service, 0, 0, 2, 1⟩,
    ⟨0x2902, 2, 2, .f32, .rwp, .service, 0, 0xff7fffff, 0x7f7fffff, 4⟩,
    ⟨0x2902, 3, 3, .f32, .ro, .service, 0, 0xff7fffff, 0x7f7fffff, 4⟩,
    ⟨0x2903, 0, 0, .u8, .ro, .service, 3, 3, 3, 1⟩,
    ⟨0x2903, 1, 1, .enum, .rwp, .service, 0, 0, 2, 1⟩,
    ⟨0x2903, 2, 2, .f32, .rwp, .service, 0, 0xff7fffff, 0x7f7fffff, 4⟩,
    ⟨0x2903, 3, 3, .f32, .ro, .service, 0, 0xff7fffff, 0x7f7fffff, 4⟩,
    ⟨0x2904, 0, 0, .u8, .ro, .service, 3, 3, 3, 1⟩,
    ⟨0x2904, 1, 1, .enum, .rwp, .service, 0, 0, 2, 1⟩,
    ⟨0x2904, 2, 2, .f32, .rwp, .service, 0, 0xff7fffff, 0x7f7fffff, 4⟩,
    ⟨0x2904, 3, 3, .f32, .ro, .service, 0, 0xff7fffff, 0x7f7fffff, 4⟩,
    ⟨0x2905, 0, 0, .u8, .ro, .service, 3, 3, 3, 1⟩,
    ⟨0x2905, 1, 1, .enum, .rwp, .service, 0, 0, 2, 1⟩,
    ⟨0x2905, 2, 2, .f32, .rwp, .service, 0, 0xff7fffff, 0x7f7fffff, 4⟩,
    ⟨0x2905, 3, 3, .f32, .ro, .service, 0, 0xff7fffff, 0x7f7fffff, 4⟩,
    ⟨0x2906, 0, 0, .u8, .ro, .service, 3, 3, 3, 1⟩,
    ⟨0x2906, 1, 1, .enum, .rwp, .service, 0, 0, 2, 1⟩,
    ⟨0x2906, 2, 2, .f32, .rwp, .service, 0, 0xff7fffff, 0x7f7fffff, 4⟩,
    ⟨0x2906, 3, 3, .f32, .ro, .service, 0, 0xff7fffff, 0x7f7fffff, 4⟩,
    ⟨0x2907, 0, 0, .u8, .ro, .service, 3, 3, 3, 1⟩,
    ⟨0x2907, 1, 1, .enum, .rwp, .service, 0, 0, 2, 1⟩,
    ⟨0x2907, 2, 2, .f32, .rwp, .service, 0, 0xff7fffff, 0x7f7fffff, 4⟩,
    ⟨0x2907, 3, 3, .f32, .ro, .service, 0, 0xff7fffff, 0x7f7fffff, 4⟩,
    ⟨0x2908, 0, 0, .u8, .ro, .service, 3, 3, 3, 1⟩,
    ⟨0x2908, 1, 1, .enum, .rwp, .service, 0, 0, 2, 1⟩,
    ⟨0x2908, 2, 2, .f32, .rwp, .service, 0, 0xff7fffff, 0x7f7fffff, 4⟩,
    ⟨0x2908, 3, 3, .f32, .ro, .service, 0, 0xff7fffff, 0x7f7fffff, 4⟩,
    ⟨0x2909, 0, 0, .u8, .ro, .service, 3, 3, 3, 1⟩,
    ⟨0x2909, 1, 1, .enum, .rwp, .service, 0, 0, 2, 1⟩,
    ⟨0x2909, 2, 2, .f32, .rwp, .service, 0, 0xff7fffff, 0x7f7fffff, 4⟩,
    ⟨0x2909, 3, 3, .f32, .ro, .service, 0, 0xff7fffff, 0x7f7fffff, 4⟩,
    ⟨0x290A, 0, 0, .u8, .ro, .service, 3, 3, 3, 1⟩,
    ⟨0x290A, 1, 1, .enum, .rwp, .service, 0, 0, 2, 1⟩,
    ⟨0x290A, 2, 2, .f32, .rwp, .service, 0, 0xff7fffff, 0x7f7fffff, 4⟩,
    ⟨0x290A, 3, 3, .f32, .ro, .service, 0, 0xff7fffff, 0x7f7fffff, 4⟩,
    ⟨0x290B, 0, 0, .u8, .ro, .service, 3, 3, 3, 1⟩,
    ⟨0x290B, 1, 1, .enum, .rwp, .service, 0, 0, 2, 1⟩,
    ⟨0x290B, 2, 2, .f32, .rwp, .service, 0, 0xff7fffff, 0x7f7fffff, 4⟩,
    ⟨0x290B, 3, 3, .f32, .ro, .service, 0, 0xff7fffff, 0x7f7fffff, 4⟩,
    ⟨0x290C, 0, 0, .u8, .ro, .service, 3, 3, 3, 1⟩,
    ⟨0x290C, 1, 1, .enum, .rwp, .service, 0, 0, 2, 1⟩,
    ⟨0x290C, 2, 2, .f32, .rwp, .service, 0, 0xff7fffff, 0x7f7fffff, 4⟩,
    ⟨0x290C, 3, 3, .f32, .ro, .service, 0, 0xff7fffff, 0x7f7fffff, 4⟩,
    ⟨0x290D, 0, 0, .u8, .ro, .service, 3, 3, 3, 1⟩,
    ⟨0x290D, 1, 1, .enum, .rwp, .service, 0, 0, 2, 1⟩,
    ⟨0x290D, 2, 2, .f32, .rwp, .service, 0, 0xff7fffff, 0x7f7fffff, 4⟩,
    ⟨0x290D, 3, 3, .f32, .ro, .service, 0, 0xff7fffff, 0x7f7fffff, 4⟩,
    ⟨0x290E, 0, 0, .u8, .ro, .service, 3, 3, 3, 1⟩,
    ⟨0x290E, 1, 1, .enum, .rwp, .service, 0, 0, 2, 1⟩,
    ⟨0x290E, 2, 2, .f32, .rwp, .service, 0, 0xff7fffff, 0x7f7fffff, 4⟩,
    ⟨0x290E, 3, 3, .f32, .ro, .service, 0, 0xff7fffff, 0x7f7fffff, 4⟩ ]

/-- Indices 0x2900 to 0x29FF. -/
def dictArea29_1 : List PRow :=
  [ ⟨0x290F, 0, 0, .u8, .ro, .service, 3, 3, 3, 1⟩,
    ⟨0x290F, 1, 1, .enum, .rwp, .service, 0, 0, 2, 1⟩,
    ⟨0x290F, 2, 2, .f32, .rwp, .service, 0, 0xff7fffff, 0x7f7fffff, 4⟩,
    ⟨0x290F, 3, 3, .f32, .ro, .service, 0, 0xff7fffff, 0x7f7fffff, 4⟩,
    ⟨0x2910, 0, 0, .u8, .ro, .service, 3, 3, 3, 1⟩,
    ⟨0x2910, 1, 1, .enum, .rwp, .service, 0, 0, 2, 1⟩,
    ⟨0x2910, 2, 2, .f32, .rwp, .service, 0, 0xff7fffff, 0x7f7fffff, 4⟩,
    ⟨0x2910, 3, 3, .f32, .ro, .service, 0, 0xff7fffff, 0x7f7fffff, 4⟩,
    ⟨0x2911, 0, 0, .u8, .ro, .service, 3, 3, 3, 1⟩,
    ⟨0x2911, 1, 1, .enum, .rwp, .service, 0, 0, 2, 1⟩,
    ⟨0x2911, 2, 2, .f32, .rwp, .service, 0, 0xff7fffff, 0x7f7fffff, 4⟩,
    ⟨0x2911, 3, 3, .f32, .ro, .service, 0, 0xff7fffff, 0x7f7fffff, 4⟩,
    ⟨0x2912, 0, 0, .u8, .ro, .service, 3, 3, 3, 1⟩,
    ⟨0x2912, 1, 1, .enum, .rwp, .service, 0, 0, 2, 1⟩,
    ⟨0x2912, 2, 2, .f32, .rwp, .service, 0, 0xff7fffff, 0x7f7fffff, 4⟩,
    ⟨0x2912, 3, 3, .f32, .ro, .service, 0, 0xff7fffff, 0x7f7fffff, 4⟩,
    ⟨0x2913, 0, 0, .u8, .ro, .service, 3, 3, 3, 1⟩,
    ⟨0x2913, 1, 1, .enum, .rwp, .service, 0, 0, 2, 1⟩,
    ⟨0x2913, 2, 2, .f32, .rwp, .service, 0, 0xff7fffff, 0x7f7fffff, 4⟩,
    ⟨0x2913, 3, 3, .f32, .ro, .service, 0, 0xff7fffff, 0x7f7fffff, 4⟩,
    ⟨0x2914, 0, 0, .u8, .ro, .service, 3, 3, 3, 1⟩,
    ⟨0x2914, 1, 1, .enum, .rwp, .service, 0, 0, 2, 1⟩,
    ⟨0x2914, 2, 2, .f32, .rwp, .service, 0, 0xff7fffff, 0x7f7fffff, 4⟩,
    ⟨0x2914, 3, 3, .f32, .ro, .service, 0, 0xff7fffff, 0x7f7fffff, 4⟩,
    ⟨0x2915, 0, 0, .u8, .ro, .service, 3, 3, 3, 1⟩,
    ⟨0x2915, 1, 1, .enum, .rwp, .service, 0, 0, 2, 1⟩,
    ⟨0x2915, 2, 2, .f32, .rwp, .service, 0, 0xff7fffff, 0x7f7fffff, 4⟩,
    ⟨0x2915, 3, 3, .f32, .ro, .service, 0, 0xff7fffff, 0x7f7fffff, 4⟩,
    ⟨0x2916, 0, 0, .u8, .ro, .service, 3, 3, 3, 1⟩,
    ⟨0x2916, 1, 1, .enum, .rwp, .service, 0, 0, 2, 1⟩,
    ⟨0x2916, 2, 2, .f32, .rwp, .service, 0, 0xff7fffff, 0x7f7fffff, 4⟩,
    ⟨0x2916, 3, 3, .f32, .ro, .service, 0, 0xff7fffff, 0x7f7fffff, 4⟩,
    ⟨0x2917, 0, 0, .u8, .ro, .service, 3, 3, 3, 1⟩,
    ⟨0x2917, 1, 1, .enum, .rwp, .service, 0, 0, 2, 1⟩,
    ⟨0x2917, 2, 2, .f32, .rwp, .service, 0, 0xff7fffff, 0x7f7fffff, 4⟩,
    ⟨0x2917, 3, 3, .f32, .ro, .service, 0, 0xff7fffff, 0x7f7fffff, 4⟩,
    ⟨0x2918, 0, 0, .u8, .ro, .service, 3, 3, 3, 1⟩,
    ⟨0x2918, 1, 1, .enum, .rwp, .service, 0, 0, 2, 1⟩,
    ⟨0x2918, 2, 2, .f32, .rwp, .service, 0, 0xff7fffff, 0x7f7fffff, 4⟩,
    ⟨0x2918, 3, 3, .f32, .ro, .service, 0, 0xff7fffff, 0x7f7fffff, 4⟩,
    ⟨0x2919, 0, 0, .u8, .ro, .service, 3, 3, 3, 1⟩,
    ⟨0x2919, 1, 1, .enum, .rwp, .service, 0, 0, 2, 1⟩,
    ⟨0x2919, 2, 2, .f32, .rwp, .service, 0, 0xff7fffff, 0x7f7fffff, 4⟩,
    ⟨0x2919, 3, 3, .f32, .ro, .service, 0, 0xff7fffff, 0x7f7fffff, 4⟩,
    ⟨0x291A, 0, 0, .u8, .ro, .service, 3, 3, 3, 1⟩,
    ⟨0x291A, 1, 1, .enum, .rwp, .service, 0, 0, 2, 1⟩,
    ⟨0x291A, 2, 2, .f32, .rwp, .service, 0, 0xff7fffff, 0x7f7fffff, 4⟩,
    ⟨0x291A, 3, 3, .f32, .ro, .service, 0, 0xff7fffff, 0x7f7fffff, 4⟩,
    ⟨0x291B, 0, 0, .u8, .ro, .service, 3, 3, 3, 1⟩,
    ⟨0x291B, 1, 1, .enum, .rwp, .service, 0, 0, 2, 1⟩,
    ⟨0x291B, 2, 2, .f32, .rwp, .service, 0, 0xff7fffff, 0x7f7fffff, 4⟩,
    ⟨0x291B, 3, 3, .f32, .ro, .service, 0, 0xff7fffff, 0x7f7fffff, 4⟩,
    ⟨0x291C, 0, 0, .u8, .ro, .service, 3, 3, 3, 1⟩,
    ⟨0x291C, 1, 1, .enum, .rwp, .service, 0, 0, 2, 1⟩,
    ⟨0x291C, 2, 2, .f32, .rwp, .service, 0, 0xff7fffff, 0x7f7fffff, 4⟩,
    ⟨0x291C, 3, 3, .f32, .ro, .service, 0, 0xff7fffff, 0x7f7fffff, 4⟩,
    ⟨0x291D, 0, 0, .u8, .ro, .service, 3, 3, 3, 1⟩,
    ⟨0x291D, 1, 1, .enum, .rwp, .service, 0, 0, 2, 1⟩,
    ⟨0x291D, 2, 2, .f32, .rwp, .service, 0, 0xff7fffff, 0x7f7fffff, 4⟩,
    ⟨0x291D, 3, 3, .f32, .ro, .service, 0, 0xff7fffff, 0x7f7fffff, 4⟩ ]

/-- Indices 0x2900 to 0x29FF. -/
def dictArea29_2 : List PRow :=
  [ ⟨0x291E, 0, 0, .u8, .ro, .service, 3, 3, 3, 1⟩,
    ⟨0x291E, 1, 1, .enum, .rwp, .service, 0, 0, 2, 1⟩,
    ⟨0x291E, 2, 2, .f32, .rwp, .service, 0, 0xff7fffff, 0x7f7fffff, 4⟩,
    ⟨0x291E, 3, 3, .f32, .ro, .service, 0, 0xff7fffff, 0x7f7fffff, 4⟩,
    ⟨0x291F, 0, 0, .u8, .ro, .service, 3, 3, 3, 1⟩,
    ⟨0x291F, 1, 1, .enum, .rwp, .service, 0, 0, 2, 1⟩,
    ⟨0x291F, 2, 2, .f32, .rwp, .service, 0, 0xff7fffff, 0x7f7fffff, 4⟩,
    ⟨0x291F, 3, 3, .f32, .ro, .service, 0, 0xff7fffff, 0x7f7fffff, 4⟩,
    ⟨0x2920, 0, 0, .u8, .ro, .service, 3, 3, 3, 1⟩,
    ⟨0x2920, 1, 1, .enum, .rwp, .service, 0, 0, 2, 1⟩,
    ⟨0x2920, 2, 2, .f32, .rwp, .service, 0, 0xff7fffff, 0x7f7fffff, 4⟩,
    ⟨0x2920, 3, 3, .f32, .ro, .service, 0, 0xff7fffff, 0x7f7fffff, 4⟩,
    ⟨0x2921, 0, 0, .u8, .ro, .service, 3, 3, 3, 1⟩,
    ⟨0x2921, 1, 1, .enum, .rwp, .service, 0, 0, 2, 1⟩,
    ⟨0x2921, 2, 2, .f32, .rwp, .service, 0, 0xff7fffff, 0x7f7fffff, 4⟩,
    ⟨0x2921, 3, 3, .f32, .ro, .service, 0, 0xff7fffff, 0x7f7fffff, 4⟩,
    ⟨0x2922, 0, 0, .u8, .ro, .service, 3, 3, 3, 1⟩,
    ⟨0x2922, 1, 1, .enum, .rwp, .service, 0, 0, 2, 1⟩,
    ⟨0x2922, 2, 2, .f32, .rwp, .service, 0, 0xff7fffff, 0x7f7fffff, 4⟩,
    ⟨0x2922, 3, 3, .f32, .ro, .service, 0, 0xff7fffff, 0x7f7fffff, 4⟩,
    ⟨0x2923, 0, 0, .u8, .ro, .service, 3, 3, 3, 1⟩,
    ⟨0x2923, 1, 1, .enum, .rwp, .service, 0, 0, 2, 1⟩,
    ⟨0x2923, 2, 2, .f32, .rwp, .service, 0, 0xff7fffff, 0x7f7fffff, 4⟩,
    ⟨0x2923, 3, 3, .f32, .ro, .service, 0, 0xff7fffff, 0x7f7fffff, 4⟩,
    ⟨0x2924, 0, 0, .u8, .ro, .service, 3, 3, 3, 1⟩,
    ⟨0x2924, 1, 1, .enum, .rwp, .service, 0, 0, 2, 1⟩,
    ⟨0x2924, 2, 2, .f32, .rwp, .service, 0, 0xff7fffff, 0x7f7fffff, 4⟩,
    ⟨0x2924, 3, 3, .f32, .ro, .service, 0, 0xff7fffff, 0x7f7fffff, 4⟩,
    ⟨0x2925, 0, 0, .u8, .ro, .service, 3, 3, 3, 1⟩,
    ⟨0x2925, 1, 1, .enum, .rwp, .service, 0, 0, 2, 1⟩,
    ⟨0x2925, 2, 2, .f32, .rwp, .service, 0, 0xff7fffff, 0x7f7fffff, 4⟩,
    ⟨0x2925, 3, 3, .f32, .ro, .service, 0, 0xff7fffff, 0x7f7fffff, 4⟩,
    ⟨0x2926, 0, 0, .u8, .ro, .service, 3, 3, 3, 1⟩,
    ⟨0x2926, 1, 1, .enum, .rwp, .service, 0, 0, 2, 1⟩,
    ⟨0x2926, 2, 2, .f32, .rwp, .service, 0, 0xff7fffff, 0x7f7fffff, 4⟩,
    ⟨0x2926, 3, 3, .f32, .ro, .service, 0, 0xff7fffff, 0x7f7fffff, 4⟩,
    ⟨0x2927, 0, 0, .u8, .ro, .service, 3, 3, 3, 1⟩,
    ⟨0x2927, 1, 1, .enum, .rwp, .service, 0, 0, 2, 1⟩,
    ⟨0x2927, 2, 2, .f32, .rwp, .service, 0, 0xff7fffff, 0x7f7fffff, 4⟩,
    ⟨0x2927, 3, 3, .f32, .ro, .service, 0, 0xff7fffff, 0x7f7fffff, 4⟩,
    ⟨0x2928, 0, 0, .u8, .ro, .service, 3, 3, 3, 1⟩,
    ⟨0x2928, 1, 1, .enum, .rwp, .service, 0, 0, 2, 1⟩,
    ⟨0x2928, 2, 2, .f32, .rwp, .service, 0, 0xff7fffff, 0x7f7fffff, 4⟩,
    ⟨0x2928, 3, 3, .f32, .ro, .service, 0, 0xff7fffff, 0x7f7fffff, 4⟩,
    ⟨0x2929, 0, 0, .u8, .ro, .service, 3, 3, 3, 1⟩,
    ⟨0x2929, 1, 1, .enum, .rwp, .service, 0, 0, 2, 1⟩,
    ⟨0x2929, 2, 2, .f32, .rwp, .service, 0, 0xff7fffff, 0x7f7fffff, 4⟩,
    ⟨0x2929, 3, 3, .f32, .ro, .service, 0, 0xff7fffff, 0x7f7fffff, 4⟩,
    ⟨0x292A, 0, 0, .u8, .ro, .service, 3, 3, 3, 1⟩,
    ⟨0x292A, 1, 1, .enum, .rwp, .service, 0, 0, 2, 1⟩,
    ⟨0x292A, 2, 2, .f32, .rwp, .service, 0, 0xff7fffff, 0x7f7fffff, 4⟩,
    ⟨0x292A, 3, 3, .f32, .ro, .service, 0, 0xff7fffff, 0x7f7fffff, 4⟩,
    ⟨0x292B, 0, 0, .u8, .ro, .service, 3, 3, 3, 1⟩,
    ⟨0x292B, 1, 1, .enum, .rwp, .service, 0, 0, 2, 1⟩,
    ⟨0x292B, 2, 2, .f32, .rwp, .service, 0, 0xff7fffff, 0x7f7fffff, 4⟩,
    ⟨0x292B, 3, 3, .f32, .ro, .service, 0, 0xff7fffff, 0x7f7fffff, 4⟩,
    ⟨0x292C, 0, 0, .u8, .ro, .service, 3, 3, 3, 1⟩,
    ⟨0x292C, 1, 1, .enum, .rwp, .service, 0, 0, 2, 1⟩,
    ⟨0x292C, 2, 2, .f32, .rwp, .service, 0, 0xff7fffff, 0x7f7fffff, 4⟩,
    ⟨0x292C, 3, 3, .f32, .ro, .service, 0, 0xff7fffff, 0x7f7fffff, 4⟩ ]

/-- Indices 0x2900 to 0x29FF. -/
def dictArea29_3 : List PRow :=
  [ ⟨0x292D, 0, 0, .u8, .ro, .service, 3, 3, 3, 1⟩,
    ⟨0x292D, 1, 1, .enum, .rwp, .service, 0, 0, 2, 1⟩,
    ⟨0x292D, 2, 2, .f32, .rwp, .service, 0, 0xff7fffff, 0x7f7fffff, 4⟩,
    ⟨0x292D, 3, 3, .f32, .ro, .service, 0, 0xff7fffff, 0x7f7fffff, 4⟩,
    ⟨0x292E, 0, 0, .u8, .ro, .service, 3, 3, 3, 1⟩,
    ⟨0x292E, 1, 1, .enum, .rwp, .service, 0, 0, 2, 1⟩,
    ⟨0x292E, 2, 2, .f32, .rwp, .service, 0, 0xff7fffff, 0x7f7fffff, 4⟩,
    ⟨0x292E, 3, 3, .f32, .ro, .service, 0, 0xff7fffff, 0x7f7fffff, 4⟩,
    ⟨0x292F, 0, 0, .u8, .ro, .service, 3, 3, 3, 1⟩,
    ⟨0x292F, 1, 1, .enum, .rwp, .service, 0, 0, 2, 1⟩,
    ⟨0x292F, 2, 2, .f32, .rwp, .service, 0, 0xff7fffff, 0x7f7fffff, 4⟩,
    ⟨0x292F, 3, 3, .f32, .ro, .service, 0, 0xff7fffff, 0x7f7fffff, 4⟩,
    ⟨0x2930, 0, 0, .u8, .ro, .service, 3, 3, 3, 1⟩,
    ⟨0x2930, 1, 1, .enum, .rwp, .service, 0, 0, 2, 1⟩,
    ⟨0x2930, 2, 2, .f32, .rwp, .service, 0, 0xff7fffff, 0x7f7fffff, 4⟩,
    ⟨0x2930, 3, 3, .f32, .ro, .service, 0, 0xff7fffff, 0x7f7fffff, 4⟩,
    ⟨0x2931, 0, 0, .u8, .ro, .service, 3, 3, 3, 1⟩,
    ⟨0x2931, 1, 1, .enum, .rwp, .service, 0, 0, 2, 1⟩,
    ⟨0x2931, 2, 2, .f32, .rwp, .service, 0, 0xff7fffff, 0x7f7fffff, 4⟩,
    ⟨0x2931, 3, 3, .f32, .ro, .service, 0, 0xff7fffff, 0x7f7fffff, 4⟩,
    ⟨0x2932, 0, 0, .u8, .ro, .service, 3, 3, 3, 1⟩,
    ⟨0x2932, 1, 1, .enum, .rwp, .service, 0, 0, 2, 1⟩,
    ⟨0x2932, 2, 2, .f32, .rwp, .service, 0, 0xff7fffff, 0x7f7fffff, 4⟩,
    ⟨0x2932, 3, 3, .f32, .ro, .service, 0, 0xff7fffff, 0x7f7fffff, 4⟩,
    ⟨0x2933, 0, 0, .u8, .ro, .service, 3, 3, 3, 1⟩,
    ⟨0x2933, 1, 1, .enum, .rwp, .service, 0, 0, 2, 1⟩,
    ⟨0x2933, 2, 2, .f32, .rwp, .service, 0, 0xff7fffff, 0x7f7fffff, 4⟩,
    ⟨0x2933, 3, 3, .f32, .ro, .service, 0, 0xff7fffff, 0x7f7fffff, 4⟩,
    ⟨0x2934, 0, 0, .u8, .ro, .service, 3, 3, 3, 1⟩,
    ⟨0x2934, 1, 1, .enum, .rwp, .service, 0, 0, 2, 1⟩,
    ⟨0x2934, 2, 2, .f32, .rwp, .service, 0, 0xff7fffff, 0x7f7fffff, 4⟩,
    ⟨0x2934, 3, 3, .f32, .ro, .service, 0, 0xff7fffff, 0x7f7fffff, 4⟩,
    ⟨0x2935, 0, 0, .u8, .ro, .service, 3, 3, 3, 1⟩,
    ⟨0x2935, 1, 1, .enum, .rwp, .service, 0, 0, 2, 1⟩,
    ⟨0x2935, 2, 2, .f32, .rwp, .service, 0, 0xff7fffff, 0x7f7fffff, 4⟩,
    ⟨0x2935, 3, 3, .f32, .ro, .service, 0, 0xff7fffff, 0x7f7fffff, 4⟩,
    ⟨0x2936, 0, 0, .u8, .ro, .service, 3, 3, 3, 1⟩,
    ⟨0x2936, 1, 1, .enum, .rwp, .service, 0, 0, 2, 1⟩,
    ⟨0x2936, 2, 2, .f32, .rwp, .service, 0, 0xff7fffff, 0x7f7fffff, 4⟩,
    ⟨0x2936, 3, 3, .f32, .ro, .service, 0, 0xff7fffff, 0x7f7fffff, 4⟩,
    ⟨0x2937, 0, 0, .u8, .ro, .service, 3, 3, 3, 1⟩,
    ⟨0x2937, 1, 1, .enum, .rwp, .service, 0, 0, 2, 1⟩,
    ⟨0x2937, 2, 2, .f32, .rwp, .service, 0, 0xff7fffff, 0x7f7fffff, 4⟩,
    ⟨0x2937, 3, 3, .f32, .ro, .service, 0, 0xff7fffff, 0x7f7fffff, 4⟩,
    ⟨0x2938, 0, 0, .u8, .ro, .service, 3, 3, 3, 1⟩,
    ⟨0x2938, 1, 1, .enum, .rwp, .service, 0, 0, 2, 1⟩,
    ⟨0x2938, 2, 2, .f32, .rwp, .service, 0, 0xff7fffff, 0x7f7fffff, 4⟩,
    ⟨0x2938, 3, 3, .f32, .ro, .service, 0, 0xff7fffff, 0x7f7fffff, 4⟩,
    ⟨0x2939, 0, 0, .u8, .ro, .service, 3, 3, 3, 1⟩,
    ⟨0x2939, 1, 1, .enum, .rwp, .service, 0, 0, 2, 1⟩,
    ⟨0x2939, 2, 2, .f32, .rwp, .service, 0, 0xff7fffff, 0x7f7fffff, 4⟩,
    ⟨0x2939, 3, 3, .f32, .ro, .service, 0, 0xff7fffff, 0x7f7fffff, 4⟩,
    ⟨0x293A, 0, 0, .u8, .ro, .service, 3, 3, 3, 1⟩,
    ⟨0x293A, 1, 1, .enum, .rwp, .service, 0, 0, 2, 1⟩,
    ⟨0x293A, 2, 2, .f32, .rwp, .service, 0, 0xff7fffff, 0x7f7fffff, 4⟩,
    ⟨0x293A, 3, 3, .f32, .ro, .service, 0, 0xff7fffff, 0x7f7fffff, 4⟩,
    ⟨0x293B, 0, 0, .u8, .ro, .service, 3, 3, 3, 1⟩,
    ⟨0x293B, 1, 1, .enum, .rwp, .service, 0, 0, 2, 1⟩,
    ⟨0x293B, 2, 2, .f32, .rwp, .service, 0, 0xff7fffff, 0x7f7fffff, 4⟩,
    ⟨0x293B, 3, 3, .f32, .ro, .service, 0, 0xff7fffff, 0x7f7fffff, 4⟩ ]

/-- Indices 0x2900 to 0x29FF. -/
def dictArea29_4 : List PRow :=
  [ ⟨0x293C, 0, 0, .u8, .ro, .service, 3, 3, 3, 1⟩,
    ⟨0x293C, 1, 1, .enum, .rwp, .service, 0, 0, 2, 1⟩,
    ⟨0x293C, 2, 2, .f32, .rwp, .service, 0, 0xff7fffff, 0x7f7fffff, 4⟩,
    ⟨0x293C, 3, 3, .f32, .ro, .service, 0, 0xff7fffff, 0x7f7fffff, 4⟩,
    ⟨0x293D, 0, 0, .u8, .ro, .service, 3, 3, 3, 1⟩,
    ⟨0x293D, 1, 1, .enum, .rwp, .service, 0, 0, 2, 1⟩,
    ⟨0x293D, 2, 2, .f32, .rwp, .service, 0, 0xff7fffff, 0x7f7fffff, 4⟩,
    ⟨0x293D, 3, 3, .f32, .ro, .service, 0, 0xff7fffff, 0x7f7fffff, 4⟩,
    ⟨0x293E, 0, 0, .u8, .ro, .service, 3, 3, 3, 1⟩,
    ⟨0x293E, 1, 1, .enum, .rwp, .service, 0, 0, 2, 1⟩,
    ⟨0x293E, 2, 2, .f32, .rwp, .service, 0, 0xff7fffff, 0x7f7fffff, 4⟩,
    ⟨0x293E, 3, 3, .f32, .ro, .service, 0, 0xff7fffff, 0x7f7fffff, 4⟩,
    ⟨0x293F, 0, 0, .u8, .ro, .service, 3, 3, 3, 1⟩,
    ⟨0x293F, 1, 1, .enum, .rwp, .service, 0, 0, 2, 1⟩,
    ⟨0x293F, 2, 2, .f32, .rwp, .service, 0, 0xff7fffff, 0x7f7fffff, 4⟩,
    ⟨0x293F, 3, 3, .f32, .ro, .service, 0, 0xff7fffff, 0x7f7fffff, 4⟩,
    ⟨0x2940, 0, 0, .u8, .ro, .service, 3, 3, 3, 1⟩,
    ⟨0x2940, 1, 1, .enum, .rwp, .service, 0, 0, 2, 1⟩,
    ⟨0x2940, 2, 2, .f32, .rwp, .service, 0, 0xff7fffff, 0x7f7fffff, 4⟩,
    ⟨0x2940, 3, 3, .f32, .ro, .service, 0, 0xff7fffff, 0x7f7fffff, 4⟩,
    ⟨0x2941, 0, 0, .u8, .ro, .service, 3, 3, 3, 1⟩,
    ⟨0x2941, 1, 1, .enum, .rwp, .service, 0, 0, 2, 1⟩,
    ⟨0x2941, 2, 2, .f32, .rwp, .service, 0, 0xff7fffff, 0x7f7fffff, 4⟩,
    ⟨0x2941, 3, 3, .f32, .ro, .service, 0, 0xff7fffff, 0x7f7fffff, 4⟩,
    ⟨0x2942, 0, 0, .u8, .ro, .service, 3, 3, 3, 1⟩,
    ⟨0x2942, 1, 1, .enum, .rwp, .service, 0, 0, 2, 1⟩,
    ⟨0x2942, 2, 2, .f32, .rwp, .service, 0, 0xff7fffff, 0x7f7fffff, 4⟩,
    ⟨0x2942, 3, 3, .f32, .ro, .service, 0, 0xff7fffff, 0x7f7fffff, 4⟩,
    ⟨0x2943, 0, 0, .u8, .ro, .service, 3, 3, 3, 1⟩,
    ⟨0x2943, 1, 1, .enum, .rwp, .service, 0, 0, 2, 1⟩,
    ⟨0x2943, 2, 2, .f32, .rwp, .service, 0, 0xff7fffff, 0x7f7fffff, 4⟩,
    ⟨0x2943, 3, 3, .f32, .ro, .service, 0, 0xff7fffff, 0x7f7fffff, 4⟩,
    ⟨0x2944, 0, 0, .u8, .ro, .service, 3, 3, 3, 1⟩,
    ⟨0x2944, 1, 1, .enum, .rwp, .service, 0, 0, 2, 1⟩,
    ⟨0x2944, 2, 2, .f32, .rwp, .service, 0, 0xff7fffff, 0x7f7fffff, 4⟩,
    ⟨0x2944, 3, 3, .f32, .ro, .service, 0, 0xff7fffff, 0x7f7fffff, 4⟩,
    ⟨0x2945, 0, 0, .u8, .ro, .service, 3, 3, 3, 1⟩,
    ⟨0x2945, 1, 1, .enum, .rwp, .service, 0, 0, 2, 1⟩,
    ⟨0x2945, 2, 2, .f32, .rwp, .service, 0, 0xff7fffff, 0x7f7fffff, 4⟩,
    ⟨0x2945, 3, 3, .f32, .ro, .service, 0, 0xff7fffff, 0x7f7fffff, 4⟩,
    ⟨0x2946, 0, 0, .u8, .ro, .service, 3, 3, 3, 1⟩,
    ⟨0x2946, 1, 1, .enum, .rwp, .service, 0, 0, 2, 1⟩,
    ⟨0x2946, 2, 2, .f32, .rwp, .service, 0, 0xff7fffff, 0x7f7fffff, 4⟩,
    ⟨0x2946, 3, 3, .f32, .ro, .service, 0, 0xff7fffff, 0x7f7fffff, 4⟩,
    ⟨0x2947, 0, 0, .u8, .ro, .service, 3, 3, 3, 1⟩,
    ⟨0x2947, 1, 1, .enum, .rwp, .service, 0, 0, 2, 1⟩,
    ⟨0x2947, 2, 2, .f32, .rwp, .service, 0, 0xff7fffff, 0x7f7fffff, 4⟩,
    ⟨0x2947, 3, 3, .f32, .ro, .service, 0, 0xff7fffff, 0x7f7fffff, 4⟩,
    ⟨0x2948, 0, 0, .u8, .ro, .service, 3, 3, 3, 1⟩,
    ⟨0x2948, 1, 1, .enum, .rwp, .service, 0, 0, 2, 1⟩,
    ⟨0x2948, 2, 2, .f32, .rwp, .service, 0, 0xff7fffff, 0x7f7fffff, 4⟩,
    ⟨0x2948, 3, 3, .f32, .ro, .service, 0, 0xff7fffff, 0x7f7fffff, 4⟩,
    ⟨0x2949, 0, 0, .u8, .ro, .service, 3, 3, 3, 1⟩,
    ⟨0x2949, 1, 1, .enum, .rwp, .service, 0, 0, 2, 1⟩,
    ⟨0x2949, 2, 2, .f32, .rwp, .service, 0, 0xff7fffff, 0x7f7fffff, 4⟩,
    ⟨0x2949, 3, 3, .f32, .ro, .service, 0, 0xff7fffff, 0x7f7fffff, 4⟩,
    ⟨0x294A, 0, 0, .u8, .ro, .service, 3, 3, 3, 1⟩,
    ⟨0x294A, 1, 1, .enum, .rwp, .service, 0, 0, 2, 1⟩,
    ⟨0x294A, 2, 2, .f32, .rwp, .service, 0, 0xff7fffff, 0x7f7fffff, 4⟩,
    ⟨0x294A, 3, 3, .f32, .ro, .service, 0, 0xff7fffff, 0x7f7fffff, 4⟩ ]

/-- Indices 0x2900 to 0x29FF. -/
def dictArea29_5 : List PRow :=
  [ ⟨0x294B, 0, 0, .u8, .ro, .service, 3, 3, 3, 1⟩,
    ⟨0x294B, 1, 1, .enum, .rwp, .service, 0, 0, 2, 1⟩,
    ⟨0x294B, 2, 2, .f32, .rwp, .service, 0, 0xff7fffff, 0x7f7fffff, 4⟩,
    ⟨0x294B, 3, 3, .f32, .ro, .service, 0, 0xff7fffff, 0x7f7fffff, 4⟩,
    ⟨0x294C, 0, 0, .u8, .ro, .service, 3, 3, 3, 1⟩,
    ⟨0x294C, 1, 1, .enum, .rwp, .service, 0, 0, 2, 1⟩,
    ⟨0x294C, 2, 2, .f32, .rwp, .service, 0, 0xff7fffff, 0x7f7fffff, 4⟩,
    ⟨0x294C, 3, 3, .f32, .ro, .service, 0, 0xff7fffff, 0x7f7fffff, 4⟩,
    ⟨0x294D, 0, 0, .u8, .ro, .service, 3, 3, 3, 1⟩,
    ⟨0x294D, 1, 1, .enum, .rwp, .service, 0, 0, 2, 1⟩,
    ⟨0x294D, 2, 2, .f32, .rwp, .service, 0, 0xff7fffff, 0x7f7fffff, 4⟩,
    ⟨0x294D, 3, 3, .f32, .ro, .service, 0, 0xff7fffff, 0x7f7fffff, 4⟩,
    ⟨0x294E, 0, 0, .u8, .ro, .service, 3, 3, 3, 1⟩,
    ⟨0x294E, 1, 1, .enum, .rwp, .service, 0, 0, 2, 1⟩,
    ⟨0x294E, 2, 2, .f32, .rwp, .service, 0, 0xff7fffff, 0x7f7fffff, 4⟩,
    ⟨0x294E, 3, 3, .f32, .ro, .service, 0, 0xff7fffff, 0x7f7fffff, 4⟩,
    ⟨0x294F, 0, 0, .u8, .ro, .service, 3, 3, 3, 1⟩,
    ⟨0x294F, 1, 1, .enum, .rwp, .service, 0, 0, 2, 1⟩,
    ⟨0x294F, 2, 2, .f32, .rwp, .service, 0, 0xff7fffff, 0x7f7fffff, 4⟩,
    ⟨0x294F, 3, 3, .f32, .ro, .service, 0, 0xff7fffff, 0x7f7fffff, 4⟩,
    ⟨0x2950, 0, 0, .u8, .ro, .service, 3, 3, 3, 1⟩,
    ⟨0x2950, 1, 1, .enum, .rwp, .service, 0, 0, 2, 1⟩,
    ⟨0x2950, 2, 2, .f32, .rwp, .service, 0, 0xff7fffff, 0x7f7fffff, 4⟩,
    ⟨0x2950, 3, 3, .f32, .ro, .service, 0, 0xff7fffff, 0x7f7fffff, 4⟩,
    ⟨0x2951, 0, 0, .u8, .ro, .service, 3, 3, 3, 1⟩,
    ⟨0x2951, 1, 1, .enum, .rwp, .service, 0, 0, 2, 1⟩,
    ⟨0x2951, 2, 2, .f32, .rwp, .service, 0, 0xff7fffff, 0x7f7fffff, 4⟩,
    ⟨0x2951, 3, 3, .f32, .ro, .service, 0, 0xff7fffff, 0x7f7fffff, 4⟩,
    ⟨0x2952, 0, 0, .u8, .ro, .service, 3, 3, 3, 1⟩,
    ⟨0x2952, 1, 1, .enum, .rwp, .service, 0, 0, 2, 1⟩,
    ⟨0x2952, 2, 2, .f32, .rwp, .service, 0, 0xff7fffff, 0x7f7fffff, 4⟩,
    ⟨0x2952, 3, 3, .f32, .ro, .service, 0, 0xff7fffff, 0x7f7fffff, 4⟩,
    ⟨0x2953, 0, 0, .u8, .ro, .service, 3, 3, 3, 1⟩,
    ⟨0x2953, 1, 1, .enum, .rwp, .service, 0, 0, 2, 1⟩,
    ⟨0x2953, 2, 2, .f32, .rwp, .service, 0, 0xff7fffff, 0x7f7fffff, 4⟩,
    ⟨0x2953, 3, 3, .f32, .ro, .service, 0, 0xff7fffff, 0x7f7fffff, 4⟩,
    ⟨0x2954, 0, 0, .u8, .ro, .service, 3, 3, 3, 1⟩,
    ⟨0x2954, 1, 1, .enum, .rwp, .service, 0, 0, 2, 1⟩,
    ⟨0x2954, 2, 2, .f32, .rwp, .service, 0, 0xff7fffff, 0x7f7fffff, 4⟩,
    ⟨0x2954, 3, 3, .f32, .ro, .service, 0, 0xff7fffff, 0x7f7fffff, 4⟩,
    ⟨0x2955, 0, 0, .u8, .ro, .service, 3, 3, 3, 1⟩,
    ⟨0x2955, 1, 1, .enum, .rwp, .service, 0, 0, 2, 1⟩,
    ⟨0x2955, 2, 2, .f32, .rwp, .service, 0, 0xff7fffff, 0x7f7fffff, 4⟩,
    ⟨0x2955, 3, 3, .f32, .ro, .service, 0, 0xff7fffff, 0x7f7fffff, 4⟩,
    ⟨0x2956, 0, 0, .u8, .ro, .service, 3, 3, 3, 1⟩,
    ⟨0x2956, 1, 1, .enum, .rwp, .service, 0, 0, 2, 1⟩,
    ⟨0x2956, 2, 2, .f32, .rwp, .service, 0, 0xff7fffff, 0x7f7fffff, 4⟩,
    ⟨0x2956, 3, 3, .f32, .ro, .service, 0, 0xff7fffff, 0x7f7fffff, 4⟩,
    ⟨0x2957, 0, 0, .u8, .ro, .service, 3, 3, 3, 1⟩,
    ⟨0x2957, 1, 1, .enum, .rwp, .service, 0, 0, 2, 1⟩,
    ⟨0x2957, 2, 2, .f32, .rwp, .service, 0, 0xff7fffff, 0x7f7fffff, 4⟩,
    ⟨0x2957, 3, 3, .f32, .ro, .service, 0, 0xff7fffff, 0x7f7fffff, 4⟩,
    ⟨0x2958, 0, 0, .u8, .ro, .service, 3, 3, 3, 1⟩,
    ⟨0x2958, 1, 1, .enum, .rwp, .service, 0, 0, 2, 1⟩,
    ⟨0x2958, 2, 2, .f32, .rwp, .service, 0, 0xff7fffff, 0x7f7fffff, 4⟩,
    ⟨0x2958, 3, 3, .f32, .ro, .service, 0, 0xff7fffff, 0x7f7fffff, 4⟩,
    ⟨0x2959, 0, 0, .u8, .ro, .service, 3, 3, 3, 1⟩,
    ⟨0x2959, 1, 1, .enum, .rwp, .service, 0, 0, 2, 1⟩,
    ⟨0x2959, 2, 2, .f32, .rwp, .service, 0, 0xff7fffff, 0x7f7fffff, 4⟩,
    ⟨0x2959, 3, 3, .f32, .ro, .service, 0, 0xff7fffff, 0x7f7fffff, 4⟩ ]

/-- Indices 0x2900 to 0x29FF. -/
def dictArea29_6 : List PRow :=
  [ ⟨0x295A, 0, 0, .u8, .ro, .service, 3, 3, 3, 1⟩,
    ⟨0x295A, 1, 1, .enum, .rwp, .service, 0, 0, 2, 1⟩,
    ⟨0x295A, 2, 2, .f32, .rwp, .service, 0, 0xff7fffff, 0x7f7fffff, 4⟩,
    ⟨0x295A, 3, 3, .f32, .ro, .service, 0, 0xff7fffff, 0x7f7fffff, 4⟩,
    ⟨0x295B, 0, 0, .u8, .ro, .service, 3, 3, 3, 1⟩,
    ⟨0x295B, 1, 1, .enum, .rwp, .service, 0, 0, 2, 1⟩,
    ⟨0x295B, 2, 2, .f32, .rwp, .service, 0, 0xff7fffff, 0x7f7fffff, 4⟩,
    ⟨0x295B, 3, 3, .f32, .ro, .service, 0, 0xff7fffff, 0x7f7fffff, 4⟩ ]

/-- Indices 0x2F00 to 0x2FFF. -/
def dictArea2F : List PRow :=
  [ ⟨0x2FFF, 0, 0, .bool, .cmd, .service, 0, 0, 1, 1⟩ ]

/-- Indices 0x3000 to 0x30FF. -/
def dictArea30 : List PRow :=
  [ ⟨0x3000, 0, 0, .u32, .ro, .oper, 0x960, 0x2bc, 0x1130, 4⟩,
    ⟨0x3001, 0, 0, .u32, .ro, .oper, 0, 0, 0x1770, 4⟩,
    ⟨0x3002, 0, 0, .u32, .ro, .oper, 0, 0, 0x7a120, 4⟩,
    ⟨0x3010, 0, 0, .u32, .rw, .oper, 0x1130, 0x2bc, 0x1130, 4⟩,
    ⟨0x3011, 0, 0, .u32, .rwp, .service, 0x960, 0x2bc, 0x1130, 4⟩,
    ⟨0x3012, 0, 0, .u32, .rwp, .service, 0x578, 0x2bc, 0x1130, 4⟩ ]

/-- Indices 0x3100 to 0x31FF. -/
def dictArea31 : List PRow :=
  [ ⟨0x3100, 0, 0, .u8, .ro, .oper, 4, 4, 4, 1⟩,
    ⟨0x3100, 1, 1, .u32, .rw, .oper, 0x960, 0x2bc, 0x1130, 4⟩,
    ⟨0x3100, 2, 2, .u32, .rw, .oper, 0x578, 0x2bc, 0x1130, 4⟩,
    ⟨0x3100, 3, 3, .u32, .rw, .oper, 0, 0, 0xffffffff, 4⟩,
    ⟨0x3100, 4, 4, .u16, .rw, .oper, 0, 0, 0xffff, 2⟩,
    ⟨0x3101, 0, 0, .u8, .cmd, .oper, 0, 0, 1, 1⟩,
    ⟨0x3102, 0, 0, .enum, .ro, .oper, 0, 0, 2, 1⟩,
    ⟨0x3103, 0, 0, .time, .ro, .oper, 0, 0, 0xffffffffffffffff, 8⟩,
    ⟨0x3110, 0, 0, .blob, .rw, .oper, 0xffffffffffffffffffffffffffffffffffffffffffffffffffffffffffffffffffffffffffffffffffffffffffffffffffffffffffffffffffffffffffffffffffffffffffffffffffffffffffffffffffffffffffffffffffffffffffffffffffffffffffffffffffffffffffffffffffffffffffffffffffffffffffffffff, 0, 0, 128⟩,
    ⟨0x3111, 0, 0, .u8, .ro, .oper, 8, 8, 8, 1⟩,
    ⟨0x3111, 1, 8, .bool, .rwp, .oper, 1, 0, 1, 1⟩,
    ⟨0x3112, 0, 0, .u16, .rwp, .oper, 0xa, 1, 0x64, 2⟩,
    ⟨0x3113, 0, 0, .u32, .rwp, .oper, 0x4e20, 0x3e8, 0xf4240, 4⟩,
    ⟨0x3114, 0, 0, .s32, .ro, .oper, 0, 0xfffffbb4, 0x44c, 4⟩ ]

/-- Indices 0x3200 to 0x32FF. -/
def dictArea32 : List PRow :=
  [ ⟨0x3200, 0, 0, .u8, .rwp, .oper, 0x61, 0x32, 0x64, 1⟩,
    ⟨0x3201, 0, 0, .u8, .rwp, .oper, 0x5a, 0x32, 0x64, 1⟩,
    ⟨0x3202, 0, 0, .u32, .rwp, .oper, 0x64, 1, 0x2710, 4⟩,
    ⟨0x3203, 0, 0, .bool, .ro, .oper, 0, 0, 1, 1⟩ ]

/-- Indices 0x3300 to 0x33FF. -/
def dictArea33 : List PRow :=
  [ ⟨0x3300, 0, 0, .u8, .rwp, .service, 0x5f, 0x46, 0x5f, 1⟩,
    ⟨0x3301, 0, 0, .s32, .ro, .oper, 0, 0xffffffd8, 0x96, 4⟩,
    ⟨0x3302, 0, 0, .f32, .ro, .oper, 0, 0xc2200000, 0x43160000, 4⟩,
    ⟨0x3303, 0, 0, .f32, .ro, .oper, 0, 0xc2200000, 0x43160000, 4⟩,
    ⟨0x3304, 0, 0, .f32, .ro, .oper, 0, 0, 0x41200000, 4⟩,
    ⟨0x3305, 0, 0, .enum, .ro, .oper, 0, 0, 2, 1⟩ ]

/-- Indices 0x3400 to 0x34FF. -/
def dictArea34 : List PRow :=
  [ ⟨0x3400, 0, 0, .u8, .ro, .oper, 3, 3, 3, 1⟩,
    ⟨0x3400, 1, 1, .u64, .ro, .oper, 0, 0, 0xffffffffffffffff, 8⟩,
    ⟨0x3400, 2, 2, .time, .ro, .oper, 0, 0, 0xffffffffffffffff, 8⟩,
    ⟨0x3400, 3, 3, .blob, .ro, .oper, 0, 0, 0, 512⟩,
    ⟨0x3401, 0, 0, .u8, .ro, .oper, 3, 3, 3, 1⟩,
    ⟨0x3401, 1, 1, .u64, .ro, .oper, 0, 0, 0xffffffffffffffff, 8⟩,
    ⟨0x3401, 2, 2, .time, .ro, .oper, 0, 0, 0xffffffffffffffff, 8⟩,
    ⟨0x3401, 3, 3, .blob, .ro, .oper, 0, 0, 0, 512⟩,
    ⟨0x3402, 0, 0, .u8, .ro, .oper, 3, 3, 3, 1⟩,
    ⟨0x3402, 1, 1, .u64, .ro, .oper, 0, 0, 0xffffffffffffffff, 8⟩,
    ⟨0x3402, 2, 2, .time, .ro, .oper, 0, 0, 0xffffffffffffffff, 8⟩,
    ⟨0x3402, 3, 3, .blob, .ro, .oper, 0, 0, 0, 512⟩,
    ⟨0x3403, 0, 0, .u8, .ro, .oper, 3, 3, 3, 1⟩,
    ⟨0x3403, 1, 1, .u64, .ro, .oper, 0, 0, 0xffffffffffffffff, 8⟩,
    ⟨0x3403, 2, 2, .time, .ro, .oper, 0, 0, 0xffffffffffffffff, 8⟩,
    ⟨0x3403, 3, 3, .blob, .ro, .oper, 0, 0, 0, 512⟩,
    ⟨0x3404, 0, 0, .u8, .ro, .oper, 3, 3, 3, 1⟩,
    ⟨0x3404, 1, 1, .u64, .ro, .oper, 0, 0, 0xffffffffffffffff, 8⟩,
    ⟨0x3404, 2, 2, .time, .ro, .oper, 0, 0, 0xffffffffffffffff, 8⟩,
    ⟨0x3404, 3, 3, .blob, .ro, .oper, 0, 0, 0, 512⟩,
    ⟨0x3405, 0, 0, .u8, .ro, .oper, 3, 3, 3, 1⟩,
    ⟨0x3405, 1, 1, .u64, .ro, .oper, 0, 0, 0xffffffffffffffff, 8⟩,
    ⟨0x3405, 2, 2, .time, .ro, .oper, 0, 0, 0xffffffffffffffff, 8⟩,
    ⟨0x3405, 3, 3, .blob, .ro, .oper, 0, 0, 0, 512⟩,
    ⟨0x3406, 0, 0, .u8, .ro, .oper, 3, 3, 3, 1⟩,
    ⟨0x3406, 1, 1, .u64, .ro, .oper, 0, 0, 0xffffffffffffffff, 8⟩,
    ⟨0x3406, 2, 2, .time, .ro, .oper, 0, 0, 0xffffffffffffffff, 8⟩,
    ⟨0x3406, 3, 3, .blob, .ro, .oper, 0, 0, 0, 512⟩,
    ⟨0x3407, 0, 0, .u8, .ro, .oper, 3, 3, 3, 1⟩,
    ⟨0x3407, 1, 1, .u64, .ro, .oper, 0, 0, 0xffffffffffffffff, 8⟩,
    ⟨0x3407, 2, 2, .time, .ro, .oper, 0, 0, 0xffffffffffffffff, 8⟩,
    ⟨0x3407, 3, 3, .blob, .ro, .oper, 0, 0, 0, 512⟩,
    ⟨0x3408, 0, 0, .u8, .ro, .oper, 3, 3, 3, 1⟩,
    ⟨0x3408, 1, 1, .u64, .ro, .oper, 0, 0, 0xffffffffffffffff, 8⟩,
    ⟨0x3408, 2, 2, .time, .ro, .oper, 0, 0, 0xffffffffffffffff, 8⟩,
    ⟨0x3408, 3, 3, .blob, .ro, .oper, 0, 0, 0, 512⟩ ]

/-- Indices 0x3500 to 0x35FF. -/
def dictArea35 : List PRow :=
  [ ⟨0x3500, 0, 0, .u8, .rwp, .service, 5, 2, 0xa, 1⟩ ]

/-- Indices 0x3600 to 0x36FF. -/
def dictArea36 : List PRow :=
  [ ⟨0x3600, 0, 0, .u8, .ro, .oper, 0, 0, 0xf, 1⟩,
    ⟨0x3601, 0, 0, .enum, .rwp, .oper, 0x10, 0, 0x10, 1⟩,
    ⟨0x3602, 0, 0, .u8, .rwp, .oper, 0xf, 0, 0xf, 1⟩,
    ⟨0x3603, 0, 0, .u8, .ro, .oper, 0, 0, 8, 1⟩,
    ⟨0x3604, 0, 0, .u8, .ro, .oper, 0, 0, 0xf, 1⟩,
    ⟨0x3605, 0, 0, .blob, .ro, .oper, 0, 0, 0, 32⟩ ]

/-- Indices 0x4000 to 0x40FF. -/
def dictArea40 : List PRow :=
  [ ⟨0x4000, 0, 0, .enum, .rwp, .service, 0, 0, 4, 1⟩,
    ⟨0x4001, 0, 0, .u16, .rwp, .service, 0xffff, 0, 0xffff, 2⟩,
    ⟨0x4002, 0, 0, .u32, .rwp, .service, 0x10101, 0x10101, 0x404040, 4⟩,
    ⟨0x4003, 0, 0, .u8, .ro, .oper, 0x18, 0x18, 0x18, 1⟩,
    ⟨0x4003, 1, 24, .u64, .rwp, .oper, 0, 0, 0xffffff0000000000, 8⟩,
    ⟨0x4004, 0, 0, .bool, .rwp, .oper, 0, 0, 1, 1⟩,
    ⟨0x4005, 0, 0, .u8, .cmd, .oper, 0, 0, 1, 1⟩,
    ⟨0x4006, 0, 0, .u8, .ro, .oper, 0x18, 0x18, 0x18, 1⟩,
    ⟨0x4006, 1, 24, .enum, .ro, .oper, 0, 0, 5, 1⟩,
    ⟨0x4007, 0, 0, .u8, .ro, .oper, 0x18, 0x18, 0x18, 1⟩,
    ⟨0x4007, 1, 24, .blob, .ro, .oper, 0, 0, 0, 64⟩,
    ⟨0x4008, 0, 0, .u32, .ro, .oper, 0, 0, 0xffffff, 4⟩,
    ⟨0x4009, 0, 0, .u8, .ro, .oper, 0x18, 0x18, 0x18, 1⟩,
    ⟨0x4009, 1, 24, .enum, .ro, .oper, 0, 0, 4, 1⟩,
    ⟨0x400A, 0, 0, .u8, .cmd, .service, 0, 0, 0x17, 1⟩,
    ⟨0x400B, 0, 0, .u8, .cmd, .service, 0, 0, 0xbf, 1⟩,
    ⟨0x400C, 0, 0, .u64, .ro, .oper, 0, 0, 0xffffffffffff, 8⟩,
    ⟨0x400D, 0, 0, .f32, .rwp, .oper, 0x3727c5ac, 0x3089705f, 0x3a83126f, 4⟩,
    ⟨0x400E, 0, 0, .u32, .rwp, .oper, 0x3e8, 0x64, 0x186a0, 4⟩,
    ⟨0x400F, 0, 0, .u16, .rwp, .oper, 0xffff, 0, 0xffff, 2⟩,
    ⟨0x4010, 0, 0, .u8, .ro, .oper, 8, 8, 8, 1⟩,
    ⟨0x4010, 1, 8, .blob, .rwp, .oper, 0xffffffffffffffffffffffffffffffffffffffffffffffffffffffffffffffffffffffffffffffffffffffffffffffffffffffffffffffffffffffffffffffffffffffffffffffffffffffffffffffffffffffffffffffffffffffffffffffffffffffffffffffffffffffffffffffffffffffffffffffffffffffffffffffff, 0, 0, 128⟩,
    ⟨0x4011, 0, 0, .u8, .ro, .oper, 8, 8, 8, 1⟩,
    ⟨0x4011, 1, 8, .u64, .ro, .oper, 0, 0, 0xffffffffffffffff, 8⟩,
    ⟨0x4012, 0, 0, .u8, .ro, .oper, 8, 8, 8, 1⟩,
    ⟨0x4012, 1, 8, .u32, .ro, .oper, 0, 0, 0xffffffff, 4⟩,
    ⟨0x4013, 0, 0, .u8, .ro, .oper, 8, 8, 8, 1⟩,
    ⟨0x4013, 1, 8, .bool, .rwp, .oper, 0, 0, 1, 1⟩,
    ⟨0x4014, 0, 0, .u8, .ro, .oper, 8, 8, 8, 1⟩,
    ⟨0x4014, 1, 8, .u32, .rwp, .oper, 0xea60, 0x3e8, 0x927c0, 4⟩,
    ⟨0x4015, 0, 0, .u8, .ro, .oper, 8, 8, 8, 1⟩,
    ⟨0x4015, 1, 8, .u8, .cmd, .oper, 0, 0, 0x3f, 1⟩,
    ⟨0x4016, 0, 0, .u8, .ro, .oper, 8, 8, 8, 1⟩,
    ⟨0x4016, 1, 8, .u64, .rwp, .oper, 0, 0, 0xffffffffffffffc0, 8⟩,
    ⟨0x4020, 0, 0, .enum, .rwp, .oper, 0, 0, 2, 1⟩,
    ⟨0x4021, 0, 0, .bool, .rwp, .oper, 0, 0, 1, 1⟩,
    ⟨0x4022, 0, 0, .enum, .ro, .oper, 0, 0, 3, 1⟩,
    ⟨0x4023, 0, 0, .s32, .ro, .oper, 0, 0x80000000, 0x7fffffff, 4⟩,
    ⟨0x4024, 0, 0, .u8, .rwp, .oper, 0, 0, 0x7f, 1⟩,
    ⟨0x4025, 0, 0, .enum, .rwp, .oper, 0, 0, 1, 1⟩ ]

/-- Indices 0x4800 to 0x48FF. -/
def dictArea48 : List PRow :=
  [ ⟨0x4800, 0, 0, .u8, .ro, .oper, 4, 4, 4, 1⟩,
    ⟨0x4800, 1, 4, .enum, .rwp, .oper, 0, 0, 1, 1⟩,
    ⟨0x4801, 0, 0, .u8, .rwp, .service, 0xf, 0, 0xf, 1⟩,
    ⟨0x4802, 0, 0, .u8, .ro, .oper, 4, 4, 4, 1⟩,
    ⟨0x4802, 1, 4, .u16, .rwp, .oper, 2, 0, 0x7ff, 2⟩,
    ⟨0x4803, 0, 0, .u8, .ro, .oper, 4, 4, 4, 1⟩,
    ⟨0x4803, 1, 4, .u16, .rwp, .oper, 3, 0, 0x7ff, 2⟩,
    ⟨0x4810, 0, 0, .u8, .ro, .oper, 2, 2, 2, 1⟩,
    ⟨0x4810, 1, 2, .enum, .ro, .oper, 0, 0, 1, 1⟩,
    ⟨0x4811, 0, 0, .u8, .ro, .oper, 2, 2, 2, 1⟩,
    ⟨0x4811, 1, 2, .u32, .rwp, .oper, 0, 0, 0xffffffff, 4⟩,
    ⟨0x4812, 0, 0, .u8, .ro, .oper, 2, 2, 2, 1⟩,
    ⟨0x4812, 1, 2, .u8, .rwp, .oper, 0x18, 0, 0x20, 1⟩,
    ⟨0x4813, 0, 0, .u8, .ro, .oper, 2, 2, 2, 1⟩,
    ⟨0x4813, 1, 2, .blob, .rwp, .oper, 0, 0, 0, 16⟩,
    ⟨0x4814, 0, 0, .u8, .ro, .oper, 2, 2, 2, 1⟩,
    ⟨0x4814, 1, 2, .u8, .rwp, .oper, 0x40, 0, 0x80, 1⟩,
    ⟨0x4815, 0, 0, .u8, .ro, .oper, 2, 2, 2, 1⟩,
    ⟨0x4815, 1, 2, .blob, .rwp, .oper, 0, 0, 0, 16⟩,
    ⟨0x4816, 0, 0, .u8, .ro, .oper, 2, 2, 2, 1⟩,
    ⟨0x4816, 1, 2, .u16, .rwp, .oper, 0, 0, 0xffe, 2⟩,
    ⟨0x4817, 0, 0, .u8, .ro, .oper, 2, 2, 2, 1⟩,
    ⟨0x4817, 1, 2, .u16, .rwp, .oper, 0x2400, 0x5dc, 0x2400, 2⟩,
    ⟨0x4818, 0, 0, .u8, .ro, .oper, 2, 2, 2, 1⟩,
    ⟨0x4818, 1, 2, .u8, .rwp, .oper, 0, 0, 0xff, 1⟩,
    ⟨0x4820, 0, 0, .u8, .ro, .oper, 2, 2, 2, 1⟩,
    ⟨0x4820, 1, 2, .u64, .rwp, .oper, 0, 0, 0xffffffffffffffc0, 8⟩,
    ⟨0x4821, 0, 0, .u8, .ro, .oper, 2, 2, 2, 1⟩,
    ⟨0x4821, 1, 2, .u16, .rwp, .oper, 0, 0, 0x400, 2⟩,
    ⟨0x4822, 0, 0, .u64, .rwp, .oper, 0, 0, 0xffffffffffffffe0, 8⟩,
    ⟨0x4823, 0, 0, .u16, .rwp, .oper, 0, 0, 0x1000, 2⟩,
    ⟨0x4824, 0, 0, .u16, .cmd, .oper, 0, 0, 0x7ff, 2⟩,
    ⟨0x4825, 0, 0, .u16, .cmd, .oper, 0, 0, 0xfff, 2⟩,
    ⟨0x48E0, 0, 0, .u8, .ro, .oper, 6, 6, 6, 1⟩,
    ⟨0x48E0, 1, 1, .u64, .ro, .oper, 0, 0, 0xffffffffffffffff, 8⟩,
    ⟨0x48E0, 2, 2, .u64, .ro, .oper, 0, 0, 0xffffffffffffffff, 8⟩,
    ⟨0x48E0, 3, 3, .u64, .ro, .oper, 0, 0, 0xffffffffffffffff, 8⟩,
    ⟨0x48E0, 4, 4, .u64, .ro, .oper, 0, 0, 0xffffffffffffffff, 8⟩,
    ⟨0x48E0, 5, 5, .u64, .ro, .oper, 0, 0, 0xffffffffffffffff, 8⟩,
    ⟨0x48E0, 6, 6, .u64, .ro, .oper, 0, 0, 0xffffffffffffffff, 8⟩,
    ⟨0x48E1, 0, 0, .u8, .ro, .oper, 6, 6, 6, 1⟩,
    ⟨0x48E1, 1, 1, .u64, .ro, .oper, 0, 0, 0xffffffffffffffff, 8⟩,
    ⟨0x48E1, 2, 2, .u64, .ro, .oper, 0, 0, 0xffffffffffffffff, 8⟩,
    ⟨0x48E1, 3, 3, .u64, .ro, .oper, 0, 0, 0xffffffffffffffff, 8⟩,
    ⟨0x48E1, 4, 4, .u64, .ro, .oper, 0, 0, 0xffffffffffffffff, 8⟩,
    ⟨0x48E1, 5, 5, .u64, .ro, .oper, 0, 0, 0xffffffffffffffff, 8⟩,
    ⟨0x48E1, 6, 6, .u64, .ro, .oper, 0, 0, 0xffffffffffffffff, 8⟩,
    ⟨0x48F0, 0, 0, .enum, .rwp, .oper, 1, 0, 2, 1⟩,
    ⟨0x48F1, 0, 0, .u16, .rwp, .oper, 0x1e3c, 0x400, 0xffff, 2⟩,
    ⟨0x48F2, 0, 0, .blob, .rwp, .oper, 0, 0, 0, 136⟩ ]

/-- Indices 0x5000 to 0x50FF. -/
def dictArea50 : List PRow :=
  [ ⟨0x5000, 0, 0, .u8, .ro, .oper, 8, 8, 8, 1⟩,
    ⟨0x5000, 1, 8, .enum, .cmd, .oper, 0, 0, 2, 1⟩,
    ⟨0x5001, 0, 0, .u8, .ro, .oper, 8, 8, 8, 1⟩,
    ⟨0x5001, 1, 8, .enum, .ro, .oper, 0, 0, 3, 1⟩,
    ⟨0x5002, 0, 0, .u8, .ro, .oper, 8, 8, 8, 1⟩,
    ⟨0x5002, 1, 8, .u8, .rwp, .oper, 0xf, 0, 0xf, 1⟩,
    ⟨0x5003, 0, 0, .u8, .ro, .oper, 8, 8, 8, 1⟩,
    ⟨0x5003, 1, 8, .u8, .rwp, .oper, 0x10, 1, 0xff, 1⟩,
    ⟨0x5004, 0, 0, .u8, .ro, .oper, 8, 8, 8, 1⟩,
    ⟨0x5004, 1, 8, .u64, .rwp, .oper, 0, 0, 0xffffffffffffffc0, 8⟩,
    ⟨0x5005, 0, 0, .u8, .ro, .oper, 8, 8, 8, 1⟩,
    ⟨0x5005, 1, 8, .u32, .rwp, .oper, 0x100, 0x10, 0x1000, 4⟩,
    ⟨0x5008, 0, 0, .u32, .rwp, .oper, 0x7d0, 0x64, 0x186a0, 4⟩,
    ⟨0x5010, 0, 0, .u8, .ro, .oper, 8, 8, 8, 1⟩,
    ⟨0x5010, 1, 8, .blob, .ro, .oper, 0, 0, 0, 512⟩ ]

/-- Indices 0x5100 to 0x51FF. -/
def dictArea51 : List PRow :=
  [ ⟨0x5100, 0, 0, .u32, .rwp, .oper, 0x400, 0x200, 0x1000, 4⟩,
    ⟨0x5101, 0, 0, .u8, .ro, .oper, 8, 8, 8, 1⟩,
    ⟨0x5101, 1, 8, .u64, .rw, .oper, 0, 0, 0xffffffffffffffe0, 8⟩,
    ⟨0x5102, 0, 0, .u8, .ro, .oper, 8, 8, 8, 1⟩,
    ⟨0x5102, 1, 8, .u16, .rw, .oper, 0, 0, 0x400, 2⟩,
    ⟨0x5103, 0, 0, .u8, .cmd, .oper, 0, 0, 7, 1⟩ ]

/-- Indices 0x5800 to 0x58FF. -/
def dictArea58 : List PRow :=
  [ ⟨0x5800, 0, 0, .u8, .ro, .oper, 8, 8, 8, 1⟩,
    ⟨0x5800, 1, 8, .u32, .rwp, .oper, 0x4800, 0x400, 0x40000, 4⟩,
    ⟨0x5801, 0, 0, .u8, .ro, .oper, 8, 8, 8, 1⟩,
    ⟨0x5801, 1, 8, .u16, .rwp, .oper, 1, 1, 0xfff, 2⟩,
    ⟨0x5802, 0, 0, .u8, .ro, .oper, 8, 8, 8, 1⟩,
    ⟨0x5802, 1, 8, .u8, .rwp, .oper, 8, 1, 0x20, 1⟩,
    ⟨0x5803, 0, 0, .u8, .ro, .oper, 8, 8, 8, 1⟩,
    ⟨0x5803, 1, 8, .u8, .rwp, .oper, 1, 1, 0x10, 1⟩,
    ⟨0x5804, 0, 0, .u8, .ro, .oper, 8, 8, 8, 1⟩,
    ⟨0x5804, 1, 8, .u16, .rwp, .oper, 0x80, 0x10, 0x200, 2⟩,
    ⟨0x5805, 0, 0, .u8, .ro, .oper, 8, 8, 8, 1⟩,
    ⟨0x5805, 1, 8, .enum, .rwp, .oper, 1, 1, 0xf, 1⟩,
    ⟨0x5806, 0, 0, .u8, .ro, .oper, 8, 8, 8, 1⟩,
    ⟨0x5806, 1, 8, .enum, .rwp, .oper, 1, 1, 3, 1⟩,
    ⟨0x5807, 0, 0, .u8, .ro, .oper, 8, 8, 8, 1⟩,
    ⟨0x5807, 1, 8, .f32, .rwp, .oper, 0x3db504c5, 0x800000, 0x7f000000, 4⟩,
    ⟨0x5808, 0, 0, .u8, .ro, .oper, 8, 8, 8, 1⟩,
    ⟨0x5808, 1, 8, .u64, .rwp, .oper, 0, 0, 0xfffffffffffffff8, 8⟩,
    ⟨0x5809, 0, 0, .u8, .ro, .oper, 8, 8, 8, 1⟩,
    ⟨0x5809, 1, 8, .u8, .rwp, .oper, 1, 1, 0x40, 1⟩,
    ⟨0x580A, 0, 0, .u8, .ro, .oper, 8, 8, 8, 1⟩,
    ⟨0x580A, 1, 8, .u32, .rwp, .oper, 0x100, 1, 0x10000, 4⟩,
    ⟨0x580B, 0, 0, .u8, .ro, .oper, 8, 8, 8, 1⟩,
    ⟨0x580B, 1, 8, .u32, .rwp, .oper, 0x400, 1, 0x10000, 4⟩,
    ⟨0x580C, 0, 0, .u8, .ro, .oper, 8, 8, 8, 1⟩,
    ⟨0x580C, 1, 8, .u32, .rwp, .oper, 0x1000, 1, 0x100000, 4⟩,
    ⟨0x580D, 0, 0, .u8, .ro, .oper, 8, 8, 8, 1⟩,
    ⟨0x580D, 1, 8, .u64, .rwp, .oper, 0, 0, 0xffffffffffffffc0, 8⟩,
    ⟨0x580E, 0, 0, .u8, .ro, .oper, 0x10, 0x10, 0x10, 1⟩,
    ⟨0x580E, 1, 16, .u64, .rwp, .oper, 0, 0, 0xfffffffffffffff8, 8⟩,
    ⟨0x5820, 0, 0, .u8, .ro, .oper, 0x60, 0x60, 0x60, 1⟩,
    ⟨0x5820, 1, 96, .u32, .ro, .oper, 0, 0, 0xffffff, 4⟩,
    ⟨0x5830, 0, 0, .u8, .ro, .oper, 8, 8, 8, 1⟩,
    ⟨0x5830, 1, 8, .u16, .rwp, .oper, 0, 0, 0xffff, 2⟩,
    ⟨0x5831, 0, 0, .u8, .ro, .oper, 8, 8, 8, 1⟩,
    ⟨0x5831, 1, 8, .u8, .rwp, .oper, 1, 1, 0x40, 1⟩,
    ⟨0x5832, 0, 0, .u8, .ro, .oper, 8, 8, 8, 1⟩,
    ⟨0x5832, 1, 8, .u8, .rwp, .oper, 0, 0, 0x3f, 1⟩,
    ⟨0x5833, 0, 0, .u8, .ro, .oper, 8, 8, 8, 1⟩,
    ⟨0x5833, 1, 8, .u8, .rwp, .oper, 0, 0, 0x3f, 1⟩,
    ⟨0x5834, 0, 0, .u8, .ro, .oper, 8, 8, 8, 1⟩,
    ⟨0x5834, 1, 8, .u8, .rwp, .oper, 0, 0, 0xff, 1⟩,
    ⟨0x5835, 0, 0, .u8, .ro, .oper, 8, 8, 8, 1⟩,
    ⟨0x5835, 1, 8, .enum, .cmd, .oper, 0, 0, 3, 1⟩,
    ⟨0x5836, 0, 0, .u8, .ro, .oper, 8, 8, 8, 1⟩,
    ⟨0x5836, 1, 8, .u16, .rwp, .oper, 0x40, 1, 0x400, 2⟩,
    ⟨0x5837, 0, 0, .u8, .ro, .oper, 8, 8, 8, 1⟩,
    ⟨0x5837, 1, 8, .u16, .rwp, .oper, 0x20, 0, 0x1000, 2⟩,
    ⟨0x5838, 0, 0, .u8, .ro, .oper, 8, 8, 8, 1⟩,
    ⟨0x5838, 1, 8, .u32, .rwp, .oper, 0x800, 0x10, 0x10000, 4⟩,
    ⟨0x5839, 0, 0, .u8, .ro, .oper, 8, 8, 8, 1⟩,
    ⟨0x5839, 1, 8, .u32, .rwp, .oper, 0x400, 1, 0x10000, 4⟩,
    ⟨0x583A, 0, 0, .u8, .ro, .oper, 8, 8, 8, 1⟩,
    ⟨0x583A, 1, 8, .bool, .rwp, .oper, 1, 0, 1, 1⟩,
    ⟨0x583B, 0, 0, .u8, .ro, .oper, 8, 8, 8, 1⟩,
    ⟨0x583B, 1, 8, .u64, .rwp, .oper, 0, 0, 0xffffffffffffffc0, 8⟩,
    ⟨0x583C, 0, 0, .u8, .ro, .oper, 8, 8, 8, 1⟩,
    ⟨0x583C, 1, 8, .u32, .rwp, .oper, 0x400, 0x10, 0x10000, 4⟩,
    ⟨0x583D, 0, 0, .u8, .ro, .oper, 8, 8, 8, 1⟩,
    ⟨0x583D, 1, 8, .u64, .rwp, .oper, 0, 0, 0xffffffffffffffc0, 8⟩ ]

/-- Indices 0x5800 to 0x58FF. -/
def dictArea58_1 : List PRow :=
  [ ⟨0x583E, 0, 0, .u8, .ro, .oper, 8, 8, 8, 1⟩,
    ⟨0x583E, 1, 8, .u32, .rwp, .oper, 0x400, 0x10, 0x10000, 4⟩,
    ⟨0x583F, 0, 0, .u8, .ro, .oper, 8, 8, 8, 1⟩,
    ⟨0x583F, 1, 8, .u64, .rwp, .oper, 0, 0, 0xffffffffffffffc0, 8⟩,
    ⟨0x5840, 0, 0, .u8, .ro, .oper, 8, 8, 8, 1⟩,
    ⟨0x5840, 1, 8, .u32, .rwp, .oper, 0x1000, 0x10, 0x100000, 4⟩,
    ⟨0x5841, 0, 0, .u8, .ro, .oper, 8, 8, 8, 1⟩,
    ⟨0x5841, 1, 8, .u16, .rwp, .oper, 0, 0, 0x7ff, 2⟩,
    ⟨0x5842, 0, 0, .u8, .ro, .oper, 8, 8, 8, 1⟩,
    ⟨0x5842, 1, 8, .u64, .ro, .oper, 0, 0, 0xffffffffffff, 8⟩,
    ⟨0x5850, 0, 0, .u8, .ro, .oper, 8, 8, 8, 1⟩,
    ⟨0x5850, 1, 8, .enum, .rwp, .oper, 1, 0, 1, 1⟩,
    ⟨0x5851, 0, 0, .u8, .ro, .oper, 8, 8, 8, 1⟩,
    ⟨0x5851, 1, 8, .u32, .rwp, .oper, 0x40000, 0, 0x200000, 4⟩,
    ⟨0x5852, 0, 0, .u8, .ro, .oper, 8, 8, 8, 1⟩,
    ⟨0x5852, 1, 8, .u64, .rwp, .oper, 0, 0, 0xffffffffffffffff, 8⟩,
    ⟨0x5853, 0, 0, .u8, .ro, .oper, 8, 8, 8, 1⟩,
    ⟨0x5853, 1, 8, .u32, .rwp, .oper, 0x1000, 0, 0xffffff, 4⟩,
    ⟨0x5854, 0, 0, .u8, .ro, .oper, 8, 8, 8, 1⟩,
    ⟨0x5854, 1, 8, .u8, .rwp, .oper, 0, 0, 0x20, 1⟩,
    ⟨0x5855, 0, 0, .u8, .ro, .oper, 8, 8, 8, 1⟩,
    ⟨0x5855, 1, 8, .u64, .rwp, .oper, 0, 0, 0xffffffffffffff00, 8⟩,
    ⟨0x5856, 0, 0, .u8, .ro, .oper, 8, 8, 8, 1⟩,
    ⟨0x5856, 1, 8, .u8, .rwp, .oper, 0, 0, 0xf, 1⟩,
    ⟨0x5860, 0, 0, .u8, .ro, .oper, 8, 8, 8, 1⟩,
    ⟨0x5860, 1, 8, .u16, .rwp, .oper, 0, 0, 0x1000, 2⟩,
    ⟨0x5861, 0, 0, .u8, .ro, .oper, 8, 8, 8, 1⟩,
    ⟨0x5861, 1, 8, .u8, .rwp, .oper, 8, 1, 0x20, 1⟩,
    ⟨0x5862, 0, 0, .u8, .ro, .oper, 8, 8, 8, 1⟩,
    ⟨0x5862, 1, 8, .enum, .rwp, .oper, 0, 0, 1, 1⟩,
    ⟨0x5863, 0, 0, .u8, .ro, .oper, 8, 8, 8, 1⟩,
    ⟨0x5863, 1, 8, .f32, .rwp, .oper, 0, 0xbf800000, 0x40000000, 4⟩,
    ⟨0x5864, 0, 0, .u8, .ro, .oper, 8, 8, 8, 1⟩,
    ⟨0x5864, 1, 8, .bool, .rwp, .oper, 1, 0, 1, 1⟩,
    ⟨0x5865, 0, 0, .u8, .ro, .oper, 8, 8, 8, 1⟩,
    ⟨0x5865, 1, 8, .f32, .rwp, .oper, 0x3f800000, 0x800000, 0x7f000000, 4⟩,
    ⟨0x5866, 0, 0, .u8, .ro, .oper, 8, 8, 8, 1⟩,
    ⟨0x5866, 1, 8, .u64, .rwp, .oper, 0, 0, 0xfffffffffffffffc, 8⟩,
    ⟨0x5867, 0, 0, .u8, .ro, .oper, 8, 8, 8, 1⟩,
    ⟨0x5867, 1, 8, .u32, .rwp, .oper, 0x1000, 0x20, 0x10000, 4⟩,
    ⟨0x5868, 0, 0, .u8, .ro, .oper, 8, 8, 8, 1⟩,
    ⟨0x5868, 1, 8, .u32, .rwp, .oper, 0x400, 0x20, 0x10000, 4⟩,
    ⟨0x5869, 0, 0, .u8, .ro, .oper, 8, 8, 8, 1⟩,
    ⟨0x5869, 1, 8, .enum, .rwp, .oper, 1, 1, 0xf, 1⟩,
    ⟨0x586A, 0, 0, .u8, .ro, .oper, 8, 8, 8, 1⟩,
    ⟨0x586A, 1, 8, .enum, .rwp, .oper, 1, 1, 0xf, 1⟩,
    ⟨0x586B, 0, 0, .u8, .ro, .oper, 8, 8, 8, 1⟩,
    ⟨0x586B, 1, 8, .enum, .rwp, .oper, 1, 0, 1, 1⟩,
    ⟨0x586C, 0, 0, .u8, .ro, .oper, 8, 8, 8, 1⟩,
    ⟨0x586C, 1, 8, .enum, .rwp, .oper, 0, 0, 1, 1⟩,
    ⟨0x586D, 0, 0, .u8, .ro, .oper, 8, 8, 8, 1⟩,
    ⟨0x586D, 1, 8, .u32, .rwp, .oper, 0x100, 1, 0xffffff, 4⟩,
    ⟨0x586E, 0, 0, .u8, .ro, .oper, 8, 8, 8, 1⟩,
    ⟨0x586E, 1, 8, .u32, .rwp, .oper, 0, 0, 0x10000, 4⟩,
    ⟨0x586F, 0, 0, .u8, .ro, .oper, 8, 8, 8, 1⟩,
    ⟨0x586F, 1, 8, .u32, .rwp, .oper, 0x400, 1, 0xffffff, 4⟩,
    ⟨0x5870, 0, 0, .u8, .ro, .oper, 8, 8, 8, 1⟩,
    ⟨0x5870, 1, 8, .u64, .rwp, .oper, 0, 0, 0xffffffffffffffc0, 8⟩,
    ⟨0x5871, 0, 0, .u8, .ro, .oper, 8, 8, 8, 1⟩,
    ⟨0x5871, 1, 8, .u64, .rw, .oper, 0, 0, 0xffffffffffffffc0, 8⟩ ]

/-- Indices 0x5800 to 0x58FF. -/
def dictArea58_2 : List PRow :=
  [ ⟨0x5872, 0, 0, .u8, .ro, .oper, 8, 8, 8, 1⟩,
    ⟨0x5872, 1, 8, .u64, .rw, .oper, 0xffffffffffff, 0, 0xffffffffffff, 8⟩,
    ⟨0x5873, 0, 0, .u8, .ro, .oper, 8, 8, 8, 1⟩,
    ⟨0x5873, 1, 8, .u64, .rwp, .oper, 0, 0, 0xffffffffffffffe0, 8⟩,
    ⟨0x5874, 0, 0, .u8, .ro, .oper, 8, 8, 8, 1⟩,
    ⟨0x5874, 1, 8, .u64, .rwp, .oper, 0x10000000000, 0x10000000000, 0x1002ffff000, 8⟩,
    ⟨0x5875, 0, 0, .u8, .ro, .oper, 8, 8, 8, 1⟩,
    ⟨0x5875, 1, 8, .u32, .rwp, .oper, 0, 0, 0x30000000, 4⟩,
    ⟨0x5876, 0, 0, .u8, .ro, .oper, 0x20, 0x20, 0x20, 1⟩,
    ⟨0x5876, 1, 32, .u64, .rwp, .oper, 0, 0, 0xfffffffffffffff8, 8⟩,
    ⟨0x5877, 0, 0, .u8, .ro, .oper, 8, 8, 8, 1⟩,
    ⟨0x5877, 1, 8, .u32, .ro, .oper, 0, 0, 0xffffff, 4⟩,
    ⟨0x5880, 0, 0, .u8, .ro, .oper, 8, 8, 8, 1⟩,
    ⟨0x5880, 1, 8, .enum, .rwp, .oper, 2, 0, 2, 1⟩,
    ⟨0x5881, 0, 0, .u8, .ro, .oper, 8, 8, 8, 1⟩,
    ⟨0x5881, 1, 8, .u16, .rwp, .oper, 0x200, 0x40, 0x2000, 2⟩,
    ⟨0x5882, 0, 0, .u8, .ro, .oper, 8, 8, 8, 1⟩,
    ⟨0x5882, 1, 8, .u16, .rwp, .oper, 0x300, 0x40, 0x2000, 2⟩,
    ⟨0x5883, 0, 0, .u8, .ro, .oper, 8, 8, 8, 1⟩,
    ⟨0x5883, 1, 8, .u16, .rwp, .oper, 0x1000, 0x40, 0x4000, 2⟩,
    ⟨0x5884, 0, 0, .u8, .ro, .oper, 8, 8, 8, 1⟩,
    ⟨0x5884, 1, 8, .u32, .rwp, .oper, 0x800, 0, 0x10000, 4⟩,
    ⟨0x5885, 0, 0, .u8, .ro, .oper, 8, 8, 8, 1⟩,
    ⟨0x5885, 1, 8, .u64, .rwp, .oper, 0x10000000000, 0x10000000000, 0x1002ffff000, 8⟩,
    ⟨0x5886, 0, 0, .u8, .ro, .oper, 8, 8, 8, 1⟩,
    ⟨0x5886, 1, 8, .u64, .rwp, .oper, 0, 0, 0xfffffffffffffffc, 8⟩,
    ⟨0x5887, 0, 0, .u8, .cmd, .oper, 0, 0, 7, 1⟩,
    ⟨0x5888, 0, 0, .u8, .ro, .oper, 8, 8, 8, 1⟩,
    ⟨0x5888, 1, 8, .bool, .ro, .oper, 0, 0, 1, 1⟩,
    ⟨0x5889, 0, 0, .u8, .ro, .oper, 8, 8, 8, 1⟩,
    ⟨0x5889, 1, 8, .u16, .ro, .oper, 0, 0, 0xfff, 2⟩ ]

/-- Indices 0x6000 to 0x60FF. -/
def dictArea60 : List PRow :=
  [ ⟨0x6001, 0, 0, .u8, .ro, .oper, 0x10, 0x10, 0x10, 1⟩,
    ⟨0x6001, 1, 16, .u8, .rwp, .oper, 0, 0, 7, 1⟩,
    ⟨0x6002, 0, 0, .u8, .ro, .oper, 0x10, 0x10, 0x10, 1⟩,
    ⟨0x6002, 1, 16, .enum, .ro, .oper, 0, 0, 3, 1⟩,
    ⟨0x6003, 0, 0, .u8, .ro, .oper, 0x10, 0x10, 0x10, 1⟩,
    ⟨0x6003, 1, 16, .u8, .ro, .oper, 0, 0, 0xff, 1⟩,
    ⟨0x6004, 0, 0, .u8, .ro, .oper, 0x10, 0x10, 0x10, 1⟩,
    ⟨0x6004, 1, 16, .u32, .ro, .oper, 0, 0, 0xffffffff, 4⟩,
    ⟨0x6005, 0, 0, .u8, .ro, .oper, 0x10, 0x10, 0x10, 1⟩,
    ⟨0x6005, 1, 16, .enum, .ro, .oper, 0, 0, 2, 1⟩ ]

/-- Indices 0x7000 to 0x70FF. -/
def dictArea70 : List PRow :=
  [ ⟨0x7000, 0, 0, .blob, .ro, .service, 0, 0, 0, 0⟩,
    ⟨0x7001, 0, 0, .u32, .cmd, .service, 0, 0, 0xfffff, 4⟩,
    ⟨0x7002, 0, 0, .u8, .cmd, .service, 0, 0, 0xbf, 1⟩,
    ⟨0x7003, 0, 0, .bool, .cmd, .service, 0, 0, 1, 1⟩,
    ⟨0x7010, 0, 0, .u8, .ro, .oper, 0xc, 0xc, 0xc, 1⟩,
    ⟨0x7010, 1, 12, .enum, .ro, .oper, 0, 0, 2, 1⟩,
    ⟨0x7011, 0, 0, .u16, .cmd, .service, 0, 0, 0xbf, 2⟩,
    ⟨0x7020, 0, 0, .u32, .rwp, .service, 0x100, 1, 0xffff, 4⟩,
    ⟨0x7021, 0, 0, .u16, .rwp, .service, 3, 1, 0x64, 2⟩,
    ⟨0x7022, 0, 0, .u16, .rwp, .service, 3, 1, 0x64, 2⟩,
    ⟨0x7023, 0, 0, .u32, .rwp, .service, 0x2710, 0x64, 0xf4240, 4⟩,
    ⟨0x7024, 0, 0, .u16, .rwp, .service, 4, 1, 0x3e8, 2⟩,
    ⟨0x7025, 0, 0, .u32, .rwp, .service, 0x200, 0x10, 0xffff, 4⟩,
    ⟨0x7026, 0, 0, .u32, .rwp, .service, 0x3e8, 0xa, 0xf4240, 4⟩,
    ⟨0x7040, 0, 0, .u16, .rwp, .service, 0x18, 1, 0x18, 2⟩,
    ⟨0x7041, 0, 0, .u16, .rwp, .service, 0x3c, 0xa, 0x3c, 2⟩,
    ⟨0x7042, 0, 0, .u16, .rwp, .service, 6, 1, 6, 2⟩,
    ⟨0x7043, 0, 0, .u16, .rwp, .service, 1, 0, 0x7ff, 2⟩,
    ⟨0x7050, 0, 0, .u8, .ro, .service, 0x59, 0x59, 0x59, 1⟩,
    ⟨0x7050, 1, 64, .enum, .ro, .service, 0, 0, 2, 1⟩,
    ⟨0x7050, 65, 68, .enum, .ro, .service, 0, 0, 2, 1⟩,
    ⟨0x7050, 69, 72, .enum, .ro, .service, 0, 0, 2, 1⟩,
    ⟨0x7050, 73, 84, .enum, .ro, .service, 0, 0, 2, 1⟩,
    ⟨0x7050, 85, 85, .enum, .ro, .service, 0, 0, 2, 1⟩,
    ⟨0x7050, 86, 89, .enum, .ro, .service, 0, 0, 2, 1⟩,
    ⟨0x7051, 0, 0, .u8, .ro, .service, 6, 6, 6, 1⟩,
    ⟨0x7051, 1, 6, .u16, .ro, .service, 0, 0, 0x60, 2⟩ ]

/-- Indices 0x7100 to 0x71FF. -/
def dictArea71 : List PRow :=
  [ ⟨0x7100, 0, 0, .u8, .ro, .service, 3, 3, 3, 1⟩,
    ⟨0x7100, 1, 1, .u64, .ro, .service, 0, 0, 0xffffffffffffffff, 8⟩,
    ⟨0x7100, 2, 2, .u32, .rw, .service, 0, 0, 0xfff, 4⟩,
    ⟨0x7100, 3, 3, .blob, .ro, .service, 0, 0, 0, 32⟩ ]

/-- Indices 0x7200 to 0x72FF. -/
def dictArea72 : List PRow :=
  [ ⟨0x7200, 0, 0, .u8, .ro, .service, 8, 8, 8, 1⟩,
    ⟨0x7200, 1, 1, .bool, .cmd, .service, 0, 0, 1, 1⟩,
    ⟨0x7200, 2, 2, .enum, .ro, .service, 0, 0, 2, 1⟩,
    ⟨0x7200, 3, 3, .u8, .rw, .service, 0, 0, 1, 1⟩,
    ⟨0x7200, 4, 4, .u32, .rw, .service, 0, 0, 0xfff000, 4⟩,
    ⟨0x7200, 5, 5, .blob, .ro, .service, 0, 0, 0, 4096⟩,
    ⟨0x7200, 6, 6, .blob, .ro, .service, 0, 0, 0, 4096⟩,
    ⟨0x7200, 7, 7, .u8, .rw, .service, 0, 0, 0xf, 1⟩,
    ⟨0x7200, 8, 8, .blob, .ro, .service, 0, 0, 0, 4096⟩ ]

/-- Indices 0x7300 to 0x73FF. -/
def dictArea73 : List PRow :=
  [ ⟨0x7300, 0, 0, .u8, .ro, .service, 0x78, 0x78, 0x78, 1⟩,
    ⟨0x7300, 1, 120, .blob, .ro, .service, 0, 0, 0, 32⟩,
    ⟨0x7310, 0, 0, .u8, .ro, .service, 0x48, 0x48, 0x48, 1⟩,
    ⟨0x7310, 1, 72, .blob, .ro, .service, 0, 0, 0, 272⟩,
    ⟨0x7320, 0, 0, .u8, .ro, .service, 0xc, 0xc, 0xc, 1⟩,
    ⟨0x7320, 1, 12, .blob, .ro, .service, 0, 0, 0, 272⟩,
    ⟨0x7330, 0, 0, .u8, .ro, .service, 0xc, 0xc, 0xc, 1⟩,
    ⟨0x7330, 1, 12, .blob, .ro, .service, 0, 0, 0, 1024⟩ ]

/-- Indices 0x7800 to 0x78FF. -/
def dictArea78 : List PRow :=
  [ ⟨0x7800, 0, 0, .enum, .cmd, .service, 0, 0, 5, 1⟩,
    ⟨0x7801, 0, 0, .enum, .rwp, .service, 0, 0, 1, 1⟩,
    ⟨0x7802, 0, 0, .u32, .rwp, .service, 0x258, 0, 0x15180, 4⟩,
    ⟨0x7803, 0, 0, .enum, .ro, .service, 0, 0, 1, 1⟩,
    ⟨0x7804, 0, 0, .u8, .ro, .service, 4, 4, 4, 1⟩,
    ⟨0x7804, 1, 4, .u32, .ro, .service, 0, 0, 0x15f90, 4⟩,
    ⟨0x7805, 0, 0, .enum, .ro, .service, 0, 0, 3, 1⟩,
    ⟨0x7810, 0, 0, .u64, .cmd, .oper, 0, 0, 0xffffffffffffffe0, 8⟩,
    ⟨0x7811, 0, 0, .u8, .ro, .oper, 4, 4, 4, 1⟩,
    ⟨0x7811, 1, 1, .enum, .ro, .oper, 0, 0, 4, 1⟩,
    ⟨0x7811, 2, 2, .u32, .ro, .oper, 0, 0, 0xffffff, 4⟩,
    ⟨0x7811, 3, 3, .u32, .ro, .oper, 0, 0, 0xffffff, 4⟩,
    ⟨0x7811, 4, 4, .u64, .ro, .oper, 0, 0, 0xffffffffffffffff, 8⟩,
    ⟨0x7812, 0, 0, .u8, .ro, .oper, 8, 8, 8, 1⟩,
    ⟨0x7812, 1, 8, .u32, .rwp, .oper, 0, 0, 0x3fff, 4⟩,
    ⟨0x7813, 0, 0, .u8, .ro, .oper, 8, 8, 8, 1⟩,
    ⟨0x7813, 1, 8, .u32, .rwp, .oper, 0x800, 0, 0x4000, 4⟩,
    ⟨0x7814, 0, 0, .u8, .ro, .oper, 8, 8, 8, 1⟩,
    ⟨0x7814, 1, 8, .bool, .ro, .oper, 0, 0, 1, 1⟩,
    ⟨0x7820, 0, 0, .u64, .cmd, .service, 0, 0, 0xffffffffffffffc0, 8⟩,
    ⟨0x7821, 0, 0, .u8, .ro, .service, 4, 4, 4, 1⟩,
    ⟨0x7821, 1, 1, .enum, .ro, .service, 0, 0, 3, 1⟩,
    ⟨0x7821, 2, 2, .enum, .ro, .service, 0, 0, 7, 1⟩,
    ⟨0x7821, 3, 3, .u8, .ro, .service, 0, 0, 7, 1⟩,
    ⟨0x7821, 4, 4, .u32, .ro, .service, 0, 0, 0xffffffff, 4⟩,
    ⟨0x7822, 0, 0, .u16, .cmd, .service, 0, 0, 0x7ff, 2⟩,
    ⟨0x7823, 0, 0, .u8, .cmd, .service, 0, 0, 7, 1⟩,
    ⟨0x7824, 0, 0, .u16, .cmd, .service, 0, 0, 0x7ff, 2⟩,
    ⟨0x7825, 0, 0, .u32, .rwp, .service, 0x258, 0x3c, 0x15180, 4⟩,
    ⟨0x7826, 0, 0, .bool, .rwp, .service, 1, 0, 1, 1⟩,
    ⟨0x7827, 0, 0, .u64, .ro, .service, 0, 0, 0xffffffffffffffff, 8⟩,
    ⟨0x7828, 0, 0, .u64, .ro, .service, 0, 0, 0xffffffffffffffff, 8⟩,
    ⟨0x7830, 0, 0, .blob, .ro, .service, 0, 0, 0, 0⟩,
    ⟨0x7831, 0, 0, .blob, .ro, .service, 0, 0, 0, 0⟩,
    ⟨0x7832, 0, 0, .blob, .ro, .service, 0, 0, 0, 0⟩,
    ⟨0x7833, 0, 0, .blob, .ro, .service, 0, 0, 0, 0⟩,
    ⟨0x7834, 0, 0, .blob, .ro, .service, 0, 0, 0, 0⟩,
    ⟨0x7835, 0, 0, .blob, .ro, .service, 0, 0, 0, 0⟩,
    ⟨0x7836, 0, 0, .blob, .ro, .service, 0, 0, 0, 0⟩,
    ⟨0x7837, 0, 0, .blob, .ro, .service, 0, 0, 0, 0⟩ ]

/-- Indices 0x8000 to 0x80FF. -/
def dictArea80 : List PRow :=
  [ ⟨0x8001, 0, 0, .time, .rw, .oper, 0, 0, 0xffffffffffffffff, 8⟩,
    ⟨0x8002, 0, 0, .u8, .ro, .oper, 2, 2, 2, 1⟩,
    ⟨0x8002, 1, 2, .blob, .ro, .oper, 0, 0, 0, 4128⟩,
    ⟨0x8003, 0, 0, .u64, .ro, .oper, 0, 0, 0xffffffffffffffff, 8⟩,
    ⟨0x8010, 0, 0, .u32, .rwp, .oper, 0x2710, 0x3e8, 0x36ee80, 4⟩,
    ⟨0x8011, 0, 0, .blob, .rwp, .oper, 0, 0, 0, 64⟩,
    ⟨0x8012, 0, 0, .u64, .rwp, .oper, 0, 0, 0xffffffffffffffc0, 8⟩,
    ⟨0x8013, 0, 0, .u32, .rwp, .oper, 0x400, 0x10, 0x10000, 4⟩,
    ⟨0x8014, 0, 0, .u16, .rw, .oper, 0, 0, 0x3ff, 2⟩,
    ⟨0x8015, 0, 0, .blob, .ro, .oper, 0, 0, 0, 4160⟩,
    ⟨0x8016, 0, 0, .u64, .ro, .oper, 0, 0, 0xffffffffffffffff, 8⟩,
    ⟨0x8020, 0, 0, .u8, .ro, .oper, 5, 5, 5, 1⟩,
    ⟨0x8020, 1, 1, .u64, .ro, .oper, 0, 0, 0xffffffffffffffff, 8⟩,
    ⟨0x8020, 2, 2, .u64, .ro, .oper, 0, 0, 0xffffffffffffffff, 8⟩,
    ⟨0x8020, 3, 3, .u64, .ro, .oper, 0, 0, 0xffffffffffffffff, 8⟩,
    ⟨0x8020, 4, 4, .u64, .ro, .oper, 0, 0, 0xffffffffffffffff, 8⟩,
    ⟨0x8020, 5, 5, .u64, .ro, .oper, 0, 0, 0xffffffffffffffff, 8⟩,
    ⟨0x8040, 0, 0, .u8, .ro, .oper, 4, 4, 4, 1⟩,
    ⟨0x8040, 1, 1, .u64, .ro, .oper, 0, 0, 0xffffffffffffffff, 8⟩,
    ⟨0x8040, 2, 2, .u64, .ro, .oper, 0, 0, 0xffffffffffffffff, 8⟩,
    ⟨0x8040, 3, 3, .u64, .ro, .oper, 0, 0, 0xffffffffffffffff, 8⟩,
    ⟨0x8040, 4, 4, .u64, .ro, .oper, 0, 0, 0xffffffffffffffff, 8⟩,
    ⟨0x8041, 0, 0, .u8, .ro, .oper, 5, 5, 5, 1⟩,
    ⟨0x8041, 1, 1, .u64, .ro, .oper, 0, 0, 0xffffffffffffffff, 8⟩,
    ⟨0x8041, 2, 2, .u64, .ro, .oper, 0, 0, 0xffffffffffffffff, 8⟩,
    ⟨0x8041, 3, 3, .u64, .ro, .oper, 0, 0, 0xffffffffffffffff, 8⟩,
    ⟨0x8041, 4, 4, .u64, .ro, .oper, 0, 0, 0xffffffffffffffff, 8⟩,
    ⟨0x8041, 5, 5, .u64, .ro, .oper, 0, 0, 0xffffffffffffffff, 8⟩,
    ⟨0x8042, 0, 0, .u8, .ro, .oper, 7, 7, 7, 1⟩,
    ⟨0x8042, 1, 1, .u64, .ro, .oper, 0, 0, 0xffffffffffffffff, 8⟩,
    ⟨0x8042, 2, 2, .u64, .ro, .oper, 0, 0, 0xffffffffffffffff, 8⟩,
    ⟨0x8042, 3, 3, .u64, .ro, .oper, 0, 0, 0xffffffffffffffff, 8⟩,
    ⟨0x8042, 4, 4, .u64, .ro, .oper, 0, 0, 0xffffffffffffffff, 8⟩,
    ⟨0x8042, 5, 5, .u64, .ro, .oper, 0, 0, 0xffffffffffffffff, 8⟩,
    ⟨0x8042, 6, 6, .u64, .ro, .oper, 0, 0, 0xffffffffffffffff, 8⟩,
    ⟨0x8042, 7, 7, .u64, .ro, .oper, 0, 0, 0xffffffffffffffff, 8⟩,
    ⟨0x8043, 0, 0, .u8, .ro, .oper, 9, 9, 9, 1⟩,
    ⟨0x8043, 1, 1, .u64, .ro, .oper, 0, 0, 0xffffffffffffffff, 8⟩,
    ⟨0x8043, 2, 2, .u64, .ro, .oper, 0, 0, 0xffffffffffffffff, 8⟩,
    ⟨0x8043, 3, 3, .u64, .ro, .oper, 0, 0, 0xffffffffffffffff, 8⟩,
    ⟨0x8043, 4, 4, .u64, .ro, .oper, 0, 0, 0xffffffffffffffff, 8⟩,
    ⟨0x8043, 5, 5, .u64, .ro, .oper, 0, 0, 0xffffffffffffffff, 8⟩,
    ⟨0x8043, 6, 6, .u64, .ro, .oper, 0, 0, 0xffffffffffffffff, 8⟩,
    ⟨0x8043, 7, 7, .u64, .ro, .oper, 0, 0, 0xffffffffffffffff, 8⟩,
    ⟨0x8043, 8, 8, .u64, .ro, .oper, 0, 0, 0xffffffffffffffff, 8⟩,
    ⟨0x8043, 9, 9, .u64, .ro, .oper, 0, 0, 0xffffffffffffffff, 8⟩,
    ⟨0x8044, 0, 0, .u8, .ro, .oper, 5, 5, 5, 1⟩,
    ⟨0x8044, 1, 1, .u64, .ro, .oper, 0, 0, 0xffffffffffffffff, 8⟩,
    ⟨0x8044, 2, 2, .u64, .ro, .oper, 0, 0, 0xffffffffffffffff, 8⟩,
    ⟨0x8044, 3, 3, .u64, .ro, .oper, 0, 0, 0xffffffffffffffff, 8⟩,
    ⟨0x8044, 4, 4, .u64, .ro, .oper, 0, 0, 0xffffffffffffffff, 8⟩,
    ⟨0x8044, 5, 5, .u64, .ro, .oper, 0, 0, 0xffffffffffffffff, 8⟩,
    ⟨0x8045, 0, 0, .u8, .ro, .oper, 9, 9, 9, 1⟩,
    ⟨0x8045, 1, 1, .u64, .ro, .oper, 0, 0, 0xffffffffffffffff, 8⟩,
    ⟨0x8045, 2, 2, .u64, .ro, .oper, 0, 0, 0xffffffffffffffff, 8⟩,
    ⟨0x8045, 3, 3, .u64, .ro, .oper, 0, 0, 0xffffffffffffffff, 8⟩,
    ⟨0x8045, 4, 4, .u64, .ro, .oper, 0, 0, 0xffffffffffffffff, 8⟩,
    ⟨0x8045, 5, 5, .u64, .ro, .oper, 0, 0, 0xffffffffffffffff, 8⟩,
    ⟨0x8045, 6, 6, .u64, .ro, .oper, 0, 0, 0xffffffffffffffff, 8⟩,
    ⟨0x8045, 7, 7, .u64, .ro, .oper, 0, 0, 0xffffffffffffffff, 8⟩ ]

/-- Indices 0x8000 to 0x80FF. -/
def dictArea80_1 : List PRow :=
  [ ⟨0x8045, 8, 8, .u64, .ro, .oper, 0, 0, 0xffffffffffffffff, 8⟩,
    ⟨0x8045, 9, 9, .u64, .ro, .oper, 0, 0, 0xffffffffffffffff, 8⟩,
    ⟨0x8046, 0, 0, .u8, .ro, .oper, 0xd, 0xd, 0xd, 1⟩,
    ⟨0x8046, 1, 1, .u64, .ro, .oper, 0, 0, 0xffffffffffffffff, 8⟩,
    ⟨0x8046, 2, 2, .u64, .ro, .oper, 0, 0, 0xffffffffffffffff, 8⟩,
    ⟨0x8046, 3, 3, .u64, .ro, .oper, 0, 0, 0xffffffffffffffff, 8⟩,
    ⟨0x8046, 4, 4, .u64, .ro, .oper, 0, 0, 0xffffffffffffffff, 8⟩,
    ⟨0x8046, 5, 5, .u64, .ro, .oper, 0, 0, 0xffffffffffffffff, 8⟩,
    ⟨0x8046, 6, 6, .u64, .ro, .oper, 0, 0, 0xffffffffffffffff, 8⟩,
    ⟨0x8046, 7, 7, .u64, .ro, .oper, 0, 0, 0xffffffffffffffff, 8⟩,
    ⟨0x8046, 8, 8, .u64, .ro, .oper, 0, 0, 0xffffffffffffffff, 8⟩,
    ⟨0x8046, 9, 9, .u64, .ro, .oper, 0, 0, 0xffffffffffffffff, 8⟩,
    ⟨0x8046, 10, 10, .u64, .ro, .oper, 0, 0, 0xffffffffffffffff, 8⟩,
    ⟨0x8046, 11, 11, .u64, .ro, .oper, 0, 0, 0xffffffffffffffff, 8⟩,
    ⟨0x8046, 12, 12, .u64, .ro, .oper, 0, 0, 0xffffffffffffffff, 8⟩,
    ⟨0x8046, 13, 13, .u64, .ro, .oper, 0, 0, 0xffffffffffffffff, 8⟩,
    ⟨0x8047, 0, 0, .u8, .ro, .oper, 9, 9, 9, 1⟩,
    ⟨0x8047, 1, 1, .u64, .ro, .oper, 0, 0, 0xffffffffffffffff, 8⟩,
    ⟨0x8047, 2, 2, .u64, .ro, .oper, 0, 0, 0xffffffffffffffff, 8⟩,
    ⟨0x8047, 3, 3, .u64, .ro, .oper, 0, 0, 0xffffffffffffffff, 8⟩,
    ⟨0x8047, 4, 4, .u64, .ro, .oper, 0, 0, 0xffffffffffffffff, 8⟩,
    ⟨0x8047, 5, 5, .u64, .ro, .oper, 0, 0, 0xffffffffffffffff, 8⟩,
    ⟨0x8047, 6, 6, .u64, .ro, .oper, 0, 0, 0xffffffffffffffff, 8⟩,
    ⟨0x8047, 7, 7, .u64, .ro, .oper, 0, 0, 0xffffffffffffffff, 8⟩,
    ⟨0x8047, 8, 8, .u64, .ro, .oper, 0, 0, 0xffffffffffffffff, 8⟩,
    ⟨0x8047, 9, 9, .u64, .ro, .oper, 0, 0, 0xffffffffffffffff, 8⟩,
    ⟨0x8048, 0, 0, .u8, .ro, .oper, 8, 8, 8, 1⟩,
    ⟨0x8048, 1, 1, .u64, .ro, .oper, 0, 0, 0xffffffffffffffff, 8⟩,
    ⟨0x8048, 2, 2, .u64, .ro, .oper, 0, 0, 0xffffffffffffffff, 8⟩,
    ⟨0x8048, 3, 3, .u64, .ro, .oper, 0, 0, 0xffffffffffffffff, 8⟩,
    ⟨0x8048, 4, 4, .u64, .ro, .oper, 0, 0, 0xffffffffffffffff, 8⟩,
    ⟨0x8048, 5, 5, .u64, .ro, .oper, 0, 0, 0xffffffffffffffff, 8⟩,
    ⟨0x8048, 6, 6, .u64, .ro, .oper, 0, 0, 0xffffffffffffffff, 8⟩,
    ⟨0x8048, 7, 7, .u64, .ro, .oper, 0, 0, 0xffffffffffffffff, 8⟩,
    ⟨0x8048, 8, 8, .u64, .ro, .oper, 0, 0, 0xffffffffffffffff, 8⟩,
    ⟨0x8049, 0, 0, .u8, .ro, .oper, 0xc, 0xc, 0xc, 1⟩,
    ⟨0x8049, 1, 1, .u64, .ro, .oper, 0, 0, 0xffffffffffffffff, 8⟩,
    ⟨0x8049, 2, 2, .u64, .ro, .oper, 0, 0, 0xffffffffffffffff, 8⟩,
    ⟨0x8049, 3, 3, .u64, .ro, .oper, 0, 0, 0xffffffffffffffff, 8⟩,
    ⟨0x8049, 4, 4, .u64, .ro, .oper, 0, 0, 0xffffffffffffffff, 8⟩,
    ⟨0x8049, 5, 5, .u64, .ro, .oper, 0, 0, 0xffffffffffffffff, 8⟩,
    ⟨0x8049, 6, 6, .u64, .ro, .oper, 0, 0, 0xffffffffffffffff, 8⟩,
    ⟨0x8049, 7, 7, .u64, .ro, .oper, 0, 0, 0xffffffffffffffff, 8⟩,
    ⟨0x8049, 8, 8, .u64, .ro, .oper, 0, 0, 0xffffffffffffffff, 8⟩,
    ⟨0x8049, 9, 9, .u64, .ro, .oper, 0, 0, 0xffffffffffffffff, 8⟩,
    ⟨0x8049, 10, 10, .u64, .ro, .oper, 0, 0, 0xffffffffffffffff, 8⟩,
    ⟨0x8049, 11, 11, .u64, .ro, .oper, 0, 0, 0xffffffffffffffff, 8⟩,
    ⟨0x8049, 12, 12, .u64, .ro, .oper, 0, 0, 0xffffffffffffffff, 8⟩,
    ⟨0x8050, 0, 0, .u8, .ro, .oper, 0xa, 0xa, 0xa, 1⟩,
    ⟨0x8050, 1, 1, .u64, .ro, .oper, 0, 0, 0xffffffffffffffff, 8⟩,
    ⟨0x8050, 2, 2, .u64, .ro, .oper, 0, 0, 0xffffffffffffffff, 8⟩,
    ⟨0x8050, 3, 3, .u64, .ro, .oper, 0, 0, 0xffffffffffffffff, 8⟩,
    ⟨0x8050, 4, 4, .u64, .ro, .oper, 0, 0, 0xffffffffffffffff, 8⟩,
    ⟨0x8050, 5, 5, .u64, .ro, .oper, 0, 0, 0xffffffffffffffff, 8⟩,
    ⟨0x8050, 6, 6, .u64, .ro, .oper, 0, 0, 0xffffffffffffffff, 8⟩,
    ⟨0x8050, 7, 7, .u64, .ro, .oper, 0, 0, 0xffffffffffffffff, 8⟩,
    ⟨0x8050, 8, 8, .u64, .ro, .oper, 0, 0, 0xffffffffffffffff, 8⟩,
    ⟨0x8050, 9, 9, .u64, .ro, .oper, 0, 0, 0xffffffffffffffff, 8⟩,
    ⟨0x8050, 10, 10, .u64, .ro, .oper, 0, 0, 0xffffffffffffffff, 8⟩,
    ⟨0x8051, 0, 0, .u8, .ro, .oper, 9, 9, 9, 1⟩ ]

/-- Indices 0x8000 to 0x80FF. -/
def dictArea80_2 : List PRow :=
  [ ⟨0x8051, 1, 1, .u64, .ro, .oper, 0, 0, 0xffffffffffffffff, 8⟩,
    ⟨0x8051, 2, 2, .u64, .ro, .oper, 0, 0, 0xffffffffffffffff, 8⟩,
    ⟨0x8051, 3, 3, .u64, .ro, .oper, 0, 0, 0xffffffffffffffff, 8⟩,
    ⟨0x8051, 4, 4, .u64, .ro, .oper, 0, 0, 0xffffffffffffffff, 8⟩,
    ⟨0x8051, 5, 5, .u64, .ro, .oper, 0, 0, 0xffffffffffffffff, 8⟩,
    ⟨0x8051, 6, 6, .u64, .ro, .oper, 0, 0, 0xffffffffffffffff, 8⟩,
    ⟨0x8051, 7, 7, .u64, .ro, .oper, 0, 0, 0xffffffffffffffff, 8⟩,
    ⟨0x8051, 8, 8, .u64, .ro, .oper, 0, 0, 0xffffffffffffffff, 8⟩,
    ⟨0x8051, 9, 9, .u64, .ro, .oper, 0, 0, 0xffffffffffffffff, 8⟩,
    ⟨0x8052, 0, 0, .u8, .ro, .oper, 0xd, 0xd, 0xd, 1⟩,
    ⟨0x8052, 1, 1, .u64, .ro, .oper, 0, 0, 0xffffffffffffffff, 8⟩,
    ⟨0x8052, 2, 2, .u64, .ro, .oper, 0, 0, 0xffffffffffffffff, 8⟩,
    ⟨0x8052, 3, 3, .u64, .ro, .oper, 0, 0, 0xffffffffffffffff, 8⟩,
    ⟨0x8052, 4, 4, .u64, .ro, .oper, 0, 0, 0xffffffffffffffff, 8⟩,
    ⟨0x8052, 5, 5, .u64, .ro, .oper, 0, 0, 0xffffffffffffffff, 8⟩,
    ⟨0x8052, 6, 6, .u64, .ro, .oper, 0, 0, 0xffffffffffffffff, 8⟩,
    ⟨0x8052, 7, 7, .u64, .ro, .oper, 0, 0, 0xffffffffffffffff, 8⟩,
    ⟨0x8052, 8, 8, .u64, .ro, .oper, 0, 0, 0xffffffffffffffff, 8⟩,
    ⟨0x8052, 9, 9, .u64, .ro, .oper, 0, 0, 0xffffffffffffffff, 8⟩,
    ⟨0x8052, 10, 10, .u64, .ro, .oper, 0, 0, 0xffffffffffffffff, 8⟩,
    ⟨0x8052, 11, 11, .u64, .ro, .oper, 0, 0, 0xffffffffffffffff, 8⟩,
    ⟨0x8052, 12, 12, .u64, .ro, .oper, 0, 0, 0xffffffffffffffff, 8⟩,
    ⟨0x8052, 13, 13, .u64, .ro, .oper, 0, 0, 0xffffffffffffffff, 8⟩,
    ⟨0x8053, 0, 0, .u8, .ro, .oper, 6, 6, 6, 1⟩,
    ⟨0x8053, 1, 1, .u64, .ro, .oper, 0, 0, 0xffffffffffffffff, 8⟩,
    ⟨0x8053, 2, 2, .u64, .ro, .oper, 0, 0, 0xffffffffffffffff, 8⟩,
    ⟨0x8053, 3, 3, .u64, .ro, .oper, 0, 0, 0xffffffffffffffff, 8⟩,
    ⟨0x8053, 4, 4, .u64, .ro, .oper, 0, 0, 0xffffffffffffffff, 8⟩,
    ⟨0x8053, 5, 5, .u64, .ro, .oper, 0, 0, 0xffffffffffffffff, 8⟩,
    ⟨0x8053, 6, 6, .u64, .ro, .oper, 0, 0, 0xffffffffffffffff, 8⟩ ]

/-- Indices 0x9000 to 0x90FF. -/
def dictArea90 : List PRow :=
  [ ⟨0x9000, 0, 0, .u8, .ro, .oper, 0, 0, 0x10, 1⟩,
    ⟨0x9001, 0, 0, .u8, .ro, .oper, 6, 6, 6, 1⟩,
    ⟨0x9001, 1, 1, .enum, .rw, .oper, 0, 0, 3, 1⟩,
    ⟨0x9001, 2, 2, .blob, .rw, .oper, 0, 0, 0, 18⟩,
    ⟨0x9001, 3, 3, .blob, .rw, .oper, 0, 0, 0, 32⟩,
    ⟨0x9001, 4, 4, .u16, .ro, .oper, 0, 0, 0xffff, 2⟩,
    ⟨0x9001, 5, 5, .u64, .ro, .oper, 0, 0, 0xffffffffffffffff, 8⟩,
    ⟨0x9001, 6, 6, .u64, .ro, .oper, 0, 0, 0xffffffffffffffff, 8⟩,
    ⟨0x9002, 0, 0, .u8, .ro, .oper, 6, 6, 6, 1⟩,
    ⟨0x9002, 1, 1, .enum, .rw, .oper, 0, 0, 3, 1⟩,
    ⟨0x9002, 2, 2, .blob, .rw, .oper, 0, 0, 0, 18⟩,
    ⟨0x9002, 3, 3, .blob, .rw, .oper, 0, 0, 0, 32⟩,
    ⟨0x9002, 4, 4, .u16, .ro, .oper, 0, 0, 0xffff, 2⟩,
    ⟨0x9002, 5, 5, .u64, .ro, .oper, 0, 0, 0xffffffffffffffff, 8⟩,
    ⟨0x9002, 6, 6, .u64, .ro, .oper, 0, 0, 0xffffffffffffffff, 8⟩,
    ⟨0x9003, 0, 0, .u8, .ro, .oper, 6, 6, 6, 1⟩,
    ⟨0x9003, 1, 1, .enum, .rw, .oper, 0, 0, 3, 1⟩,
    ⟨0x9003, 2, 2, .blob, .rw, .oper, 0, 0, 0, 18⟩,
    ⟨0x9003, 3, 3, .blob, .rw, .oper, 0, 0, 0, 32⟩,
    ⟨0x9003, 4, 4, .u16, .ro, .oper, 0, 0, 0xffff, 2⟩,
    ⟨0x9003, 5, 5, .u64, .ro, .oper, 0, 0, 0xffffffffffffffff, 8⟩,
    ⟨0x9003, 6, 6, .u64, .ro, .oper, 0, 0, 0xffffffffffffffff, 8⟩,
    ⟨0x9004, 0, 0, .u8, .ro, .oper, 6, 6, 6, 1⟩,
    ⟨0x9004, 1, 1, .enum, .rw, .oper, 0, 0, 3, 1⟩,
    ⟨0x9004, 2, 2, .blob, .rw, .oper, 0, 0, 0, 18⟩,
    ⟨0x9004, 3, 3, .blob, .rw, .oper, 0, 0, 0, 32⟩,
    ⟨0x9004, 4, 4, .u16, .ro, .oper, 0, 0, 0xffff, 2⟩,
    ⟨0x9004, 5, 5, .u64, .ro, .oper, 0, 0, 0xffffffffffffffff, 8⟩,
    ⟨0x9004, 6, 6, .u64, .ro, .oper, 0, 0, 0xffffffffffffffff, 8⟩,
    ⟨0x9005, 0, 0, .u8, .ro, .oper, 6, 6, 6, 1⟩,
    ⟨0x9005, 1, 1, .enum, .rw, .oper, 0, 0, 3, 1⟩,
    ⟨0x9005, 2, 2, .blob, .rw, .oper, 0, 0, 0, 18⟩,
    ⟨0x9005, 3, 3, .blob, .rw, .oper, 0, 0, 0, 32⟩,
    ⟨0x9005, 4, 4, .u16, .ro, .oper, 0, 0, 0xffff, 2⟩,
    ⟨0x9005, 5, 5, .u64, .ro, .oper, 0, 0, 0xffffffffffffffff, 8⟩,
    ⟨0x9005, 6, 6, .u64, .ro, .oper, 0, 0, 0xffffffffffffffff, 8⟩,
    ⟨0x9006, 0, 0, .u8, .ro, .oper, 6, 6, 6, 1⟩,
    ⟨0x9006, 1, 1, .enum, .rw, .oper, 0, 0, 3, 1⟩,
    ⟨0x9006, 2, 2, .blob, .rw, .oper, 0, 0, 0, 18⟩,
    ⟨0x9006, 3, 3, .blob, .rw, .oper, 0, 0, 0, 32⟩,
    ⟨0x9006, 4, 4, .u16, .ro, .oper, 0, 0, 0xffff, 2⟩,
    ⟨0x9006, 5, 5, .u64, .ro, .oper, 0, 0, 0xffffffffffffffff, 8⟩,
    ⟨0x9006, 6, 6, .u64, .ro, .oper, 0, 0, 0xffffffffffffffff, 8⟩,
    ⟨0x9007, 0, 0, .u8, .ro, .oper, 6, 6, 6, 1⟩,
    ⟨0x9007, 1, 1, .enum, .rw, .oper, 0, 0, 3, 1⟩,
    ⟨0x9007, 2, 2, .blob, .rw, .oper, 0, 0, 0, 18⟩,
    ⟨0x9007, 3, 3, .blob, .rw, .oper, 0, 0, 0, 32⟩,
    ⟨0x9007, 4, 4, .u16, .ro, .oper, 0, 0, 0xffff, 2⟩,
    ⟨0x9007, 5, 5, .u64, .ro, .oper, 0, 0, 0xffffffffffffffff, 8⟩,
    ⟨0x9007, 6, 6, .u64, .ro, .oper, 0, 0, 0xffffffffffffffff, 8⟩,
    ⟨0x9008, 0, 0, .u8, .ro, .oper, 6, 6, 6, 1⟩,
    ⟨0x9008, 1, 1, .enum, .rw, .oper, 0, 0, 3, 1⟩,
    ⟨0x9008, 2, 2, .blob, .rw, .oper, 0, 0, 0, 18⟩,
    ⟨0x9008, 3, 3, .blob, .rw, .oper, 0, 0, 0, 32⟩,
    ⟨0x9008, 4, 4, .u16, .ro, .oper, 0, 0, 0xffff, 2⟩,
    ⟨0x9008, 5, 5, .u64, .ro, .oper, 0, 0, 0xffffffffffffffff, 8⟩,
    ⟨0x9008, 6, 6, .u64, .ro, .oper, 0, 0, 0xffffffffffffffff, 8⟩,
    ⟨0x9009, 0, 0, .u8, .ro, .oper, 6, 6, 6, 1⟩,
    ⟨0x9009, 1, 1, .enum, .rw, .oper, 0, 0, 3, 1⟩,
    ⟨0x9009, 2, 2, .blob, .rw, .oper, 0, 0, 0, 18⟩ ]

/-- Indices 0x9000 to 0x90FF. -/
def dictArea90_1 : List PRow :=
  [ ⟨0x9009, 3, 3, .blob, .rw, .oper, 0, 0, 0, 32⟩,
    ⟨0x9009, 4, 4, .u16, .ro, .oper, 0, 0, 0xffff, 2⟩,
    ⟨0x9009, 5, 5, .u64, .ro, .oper, 0, 0, 0xffffffffffffffff, 8⟩,
    ⟨0x9009, 6, 6, .u64, .ro, .oper, 0, 0, 0xffffffffffffffff, 8⟩,
    ⟨0x900A, 0, 0, .u8, .ro, .oper, 6, 6, 6, 1⟩,
    ⟨0x900A, 1, 1, .enum, .rw, .oper, 0, 0, 3, 1⟩,
    ⟨0x900A, 2, 2, .blob, .rw, .oper, 0, 0, 0, 18⟩,
    ⟨0x900A, 3, 3, .blob, .rw, .oper, 0, 0, 0, 32⟩,
    ⟨0x900A, 4, 4, .u16, .ro, .oper, 0, 0, 0xffff, 2⟩,
    ⟨0x900A, 5, 5, .u64, .ro, .oper, 0, 0, 0xffffffffffffffff, 8⟩,
    ⟨0x900A, 6, 6, .u64, .ro, .oper, 0, 0, 0xffffffffffffffff, 8⟩,
    ⟨0x900B, 0, 0, .u8, .ro, .oper, 6, 6, 6, 1⟩,
    ⟨0x900B, 1, 1, .enum, .rw, .oper, 0, 0, 3, 1⟩,
    ⟨0x900B, 2, 2, .blob, .rw, .oper, 0, 0, 0, 18⟩,
    ⟨0x900B, 3, 3, .blob, .rw, .oper, 0, 0, 0, 32⟩,
    ⟨0x900B, 4, 4, .u16, .ro, .oper, 0, 0, 0xffff, 2⟩,
    ⟨0x900B, 5, 5, .u64, .ro, .oper, 0, 0, 0xffffffffffffffff, 8⟩,
    ⟨0x900B, 6, 6, .u64, .ro, .oper, 0, 0, 0xffffffffffffffff, 8⟩,
    ⟨0x900C, 0, 0, .u8, .ro, .oper, 6, 6, 6, 1⟩,
    ⟨0x900C, 1, 1, .enum, .rw, .oper, 0, 0, 3, 1⟩,
    ⟨0x900C, 2, 2, .blob, .rw, .oper, 0, 0, 0, 18⟩,
    ⟨0x900C, 3, 3, .blob, .rw, .oper, 0, 0, 0, 32⟩,
    ⟨0x900C, 4, 4, .u16, .ro, .oper, 0, 0, 0xffff, 2⟩,
    ⟨0x900C, 5, 5, .u64, .ro, .oper, 0, 0, 0xffffffffffffffff, 8⟩,
    ⟨0x900C, 6, 6, .u64, .ro, .oper, 0, 0, 0xffffffffffffffff, 8⟩,
    ⟨0x900D, 0, 0, .u8, .ro, .oper, 6, 6, 6, 1⟩,
    ⟨0x900D, 1, 1, .enum, .rw, .oper, 0, 0, 3, 1⟩,
    ⟨0x900D, 2, 2, .blob, .rw, .oper, 0, 0, 0, 18⟩,
    ⟨0x900D, 3, 3, .blob, .rw, .oper, 0, 0, 0, 32⟩,
    ⟨0x900D, 4, 4, .u16, .ro, .oper, 0, 0, 0xffff, 2⟩,
    ⟨0x900D, 5, 5, .u64, .ro, .oper, 0, 0, 0xffffffffffffffff, 8⟩,
    ⟨0x900D, 6, 6, .u64, .ro, .oper, 0, 0, 0xffffffffffffffff, 8⟩,
    ⟨0x900E, 0, 0, .u8, .ro, .oper, 6, 6, 6, 1⟩,
    ⟨0x900E, 1, 1, .enum, .rw, .oper, 0, 0, 3, 1⟩,
    ⟨0x900E, 2, 2, .blob, .rw, .oper, 0, 0, 0, 18⟩,
    ⟨0x900E, 3, 3, .blob, .rw, .oper, 0, 0, 0, 32⟩,
    ⟨0x900E, 4, 4, .u16, .ro, .oper, 0, 0, 0xffff, 2⟩,
    ⟨0x900E, 5, 5, .u64, .ro, .oper, 0, 0, 0xffffffffffffffff, 8⟩,
    ⟨0x900E, 6, 6, .u64, .ro, .oper, 0, 0, 0xffffffffffffffff, 8⟩,
    ⟨0x900F, 0, 0, .u8, .ro, .oper, 6, 6, 6, 1⟩,
    ⟨0x900F, 1, 1, .enum, .rw, .oper, 0, 0, 3, 1⟩,
    ⟨0x900F, 2, 2, .blob, .rw, .oper, 0, 0, 0, 18⟩,
    ⟨0x900F, 3, 3, .blob, .rw, .oper, 0, 0, 0, 32⟩,
    ⟨0x900F, 4, 4, .u16, .ro, .oper, 0, 0, 0xffff, 2⟩,
    ⟨0x900F, 5, 5, .u64, .ro, .oper, 0, 0, 0xffffffffffffffff, 8⟩,
    ⟨0x900F, 6, 6, .u64, .ro, .oper, 0, 0, 0xffffffffffffffff, 8⟩,
    ⟨0x9010, 0, 0, .u8, .ro, .oper, 6, 6, 6, 1⟩,
    ⟨0x9010, 1, 1, .enum, .rw, .oper, 0, 0, 3, 1⟩,
    ⟨0x9010, 2, 2, .blob, .rw, .oper, 0, 0, 0, 18⟩,
    ⟨0x9010, 3, 3, .blob, .rw, .oper, 0, 0, 0, 32⟩,
    ⟨0x9010, 4, 4, .u16, .ro, .oper, 0, 0, 0xffff, 2⟩,
    ⟨0x9010, 5, 5, .u64, .ro, .oper, 0, 0, 0xffffffffffffffff, 8⟩,
    ⟨0x9010, 6, 6, .u64, .ro, .oper, 0, 0, 0xffffffffffffffff, 8⟩ ]

/-- The rows of one index, found through its area. -/
def dictArea (area : Nat) : List PRow :=
  match area with
  | 0x10 => dictArea10
  | 0x1F => dictArea1F
  | 0x20 => dictArea20
  | 0x21 => dictArea21 ++ dictArea21_1 ++ dictArea21_2 ++ dictArea21_3 ++ dictArea21_4 ++ dictArea21_5 ++ dictArea21_6
  | 0x22 => dictArea22
  | 0x28 => dictArea28
  | 0x29 => dictArea29 ++ dictArea29_1 ++ dictArea29_2 ++ dictArea29_3 ++ dictArea29_4 ++ dictArea29_5 ++ dictArea29_6
  | 0x2F => dictArea2F
  | 0x30 => dictArea30
  | 0x31 => dictArea31
  | 0x32 => dictArea32
  | 0x33 => dictArea33
  | 0x34 => dictArea34
  | 0x35 => dictArea35
  | 0x36 => dictArea36
  | 0x40 => dictArea40
  | 0x48 => dictArea48
  | 0x50 => dictArea50
  | 0x51 => dictArea51
  | 0x58 => dictArea58 ++ dictArea58_1 ++ dictArea58_2
  | 0x60 => dictArea60
  | 0x70 => dictArea70
  | 0x71 => dictArea71
  | 0x72 => dictArea72
  | 0x73 => dictArea73
  | 0x78 => dictArea78
  | 0x80 => dictArea80 ++ dictArea80_1 ++ dictArea80_2
  | 0x90 => dictArea90 ++ dictArea90_1
  | _ => []

/-- The whole dictionary. -/
def dictRows : List PRow := dictArea10 ++ dictArea1F ++ dictArea20 ++ dictArea21 ++ dictArea21_1 ++ dictArea21_2 ++ dictArea21_3 ++ dictArea21_4 ++ dictArea21_5 ++ dictArea21_6 ++ dictArea22 ++ dictArea28 ++ dictArea29 ++ dictArea29_1 ++ dictArea29_2 ++ dictArea29_3 ++ dictArea29_4 ++ dictArea29_5 ++ dictArea29_6 ++ dictArea2F ++ dictArea30 ++ dictArea31 ++ dictArea32 ++ dictArea33 ++ dictArea34 ++ dictArea35 ++ dictArea36 ++ dictArea40 ++ dictArea48 ++ dictArea50 ++ dictArea51 ++ dictArea58 ++ dictArea58_1 ++ dictArea58_2 ++ dictArea60 ++ dictArea70 ++ dictArea71 ++ dictArea72 ++ dictArea73 ++ dictArea78 ++ dictArea80 ++ dictArea80_1 ++ dictArea80_2 ++ dictArea90 ++ dictArea90_1

/-- The row of a parameter, where the dictionary has it. -/
def dictFind (index sub : Nat) : Option PRow :=
  (dictArea (index / 256)).find? fun r => r.index == index && decide (r.lo ≤ sub) && decide (sub ≤ r.hi)

/-- The default of a parameter. Three defaults depend on the sub-index (0x7812, 0x6001, 0x5856). The active counts start at
the counts of R16, and DailiesSelect at the selection of R516. Where the table gives no value the default is 0, but for the grade (LCA) and the node ID. -/
def paramDefault (key : Nat) : Nat :=
  let index := key / 256
  let sub := key % 256
  match dictFind index sub with
  | none => 0
  | some r =>
    if index == 0x7812 && sub != 0 then 2048 * (sub - 1)
    else if index == 0x6001 && sub != 0 then (sub - 1) / 2
    else if index == 0x5856 && sub != 0 then 2 * (sub - 1) + 1
    else if index == 0x7051 then nth [6, 48, 16, 16, 64, 4, 96] sub
    else if key == 0x100200 then 1
    else if key == 0x104000 then 1
    else if key == 0x801100 then 0x1f00360033013001805280518045
    else r.dflt

end Sys2Proof.Machine
end

