-- ==== Sys2Proof/Machine/Store.lean ====
section
/-! DEFINITION. Sparse tables: lists of (key, value) pairs with rising keys. A table with a default holds no entry
equal to what an unlisted key reads as, so equal contents are equal lists. -/
namespace Sys2Proof.Machine

/-- The value listed under a key. -/
def lookup {α : Type} : List (Nat × α) → Nat → Option α
  | [], _ => none
  | (k, v) :: t, j => if k = j then some v else lookup t j

/-- The table with v listed under j, before the first greater key. -/
def insertAt {α : Type} : List (Nat × α) → Nat → α → List (Nat × α)
  | [], j, v => [(j, v)]
  | (k, w) :: t, j, v =>
    if j < k then (j, v) :: (k, w) :: t
    else if k = j then (j, v) :: t
    else (k, w) :: insertAt t j v

/-- The table without key j. -/
def eraseKey {α : Type} (l : List (Nat × α)) (j : Nat) : List (Nat × α) := l.filter fun x => decide (x.1 ≠ j)

/-- What key j reads as in a table with default d. -/
def getC {α : Type} (d : Nat → α) (l : List (Nat × α)) (j : Nat) : α := (lookup l j).getD (d j)

/-- The table with default d in which key j reads as v. -/
def setC {α : Type} [DecidableEq α] (d : Nat → α) (l : List (Nat × α)) (j : Nat) (v : α) : List (Nat × α) :=
  if v = d j then eraseKey l j else insertAt (eraseKey l j) j v

/-- The keys of a table rise strictly. -/
def keysRise {α : Type} : List (Nat × α) → Bool
  | [] => true
  | [_] => true
  | (j, _) :: (k, w) :: t => decide (j < k) && keysRise ((k, w) :: t)

/-- The canonical form of a table with default d. -/
def canonC {α : Type} [DecidableEq α] (d : Nat → α) (l : List (Nat × α)) : Bool :=
  keysRise l && l.all fun x => decide (x.2 ≠ d x.1)

/-- The table with the value under j, where there is one, replaced by f of it. -/
def adjust {α : Type} (l : List (Nat × α)) (j : Nat) (f : α → α) : List (Nat × α) :=
  l.map fun x => if x.1 = j then (x.1, f x.2) else x

end Sys2Proof.Machine
end

