-- ==== Sys2Proof/Machine/State.lean ====
section
/-! DEFINITION. The state of the module. -/
namespace Sys2Proof.Machine

/-- Module states (R492), with the codes of 0x1008. -/
inductive ModuleState where
  | off | precharge | boot | selftest | training | ready | serving | draining | fenced | safe | removable
deriving DecidableEq, Repr

/-- Kinds of engine (R310). -/
inductive Kind where
  | press | draw | stack | relay | router | codec
deriving DecidableEq, Repr

/-- States of a context (R324). -/
inductive CtxState where
  | free | opened | fencing | quarantine
deriving DecidableEq, Repr

/-- A context (R324). -/
structure Ctx where
  st        : CtxState
  gen       : Nat
  /-- the cue of the teardown entry (R328) -/
  cue       : Nat
  /-- MaxClass is BE -/
  beOnly    : Bool
  /-- engines on which the context is preempted -/
  preempted : List Nat
  /-- fabric time at which quarantine ends -/
  quarEnd   : Nat
deriving DecidableEq, Repr

/-- A context that nothing has opened (R324). -/
def Ctx.reset : Ctx := ⟨.free, 0, 0, false, [], 0⟩

/-- A fetched descriptor at the head of a stream (R318). -/
structure Head where
  desc    : Nat
  addr    : Nat
  be      : Bool
  /-- the time at which it was found eligible; none while it is not -/
  eligAt  : Option Nat
  fetched : Nat
deriving DecidableEq, Repr

/-- A stream: the ring that joins a context to an engine (R312). -/
structure Stream where
  ring    : Nat
  log2    : Nat
  written : Nat
  fetched : Nat
  head    : Option Head
  /-- cue addresses of STREAM_UNBIND entries that wait for the running command (R327) -/
  unbind  : List Nat
deriving DecidableEq, Repr

/-- A control entry that waits (R325): CTX_OPEN, STREAM_BIND or CTX_TEARDOWN, with the address of its entry. -/
structure HeldCtl where
  p     : Nat
  addr  : Nat
  entry : Nat
deriving DecidableEq, Repr

/-- An accepted placement (R122). -/
structure Placement where
  addr  : Nat
  size  : Nat
  kind  : Nat
  vault : Nat
  obj   : Nat
  fmt   : Nat
deriving DecidableEq, Repr

/-- A unit that runs on an engine: the command it belongs to (R319). -/
structure Run where
  /-- the engine whose stream it came from: this one, or one it took over (R311) -/
  e     : Nat
  p     : Nat
  ctx   : Nat
  desc  : Nat
  be    : Bool
  start : Nat
deriving DecidableEq, Repr

/-- What a part-way or saved command waits for. DESIGN CHOICE (notes/assumptions/3): unsafe. -/
inductive Wait where
  /-- split-K combines of MATMUL_PADDED: the (band, N group) pairs left (R85) -/
  | combine (left : List (Nat × Nat))
  /-- pass 2 of an ENCODE, until a load into its table slot has completed: the loads completed as it began to wait (R148, R149) -/
  | encode (slot done : Nat)
  /-- a remote COPY: its open transfer, and the 64 B units handed over so far (R354, R358, R362) -/
  | acks (node tag sent : Nat)
  /-- a collective: its member mask and the step it waits in (R362) -/
  | coll (mask step : Nat)
  /-- a read of bytes of a host port's window, until its data returns (R481) -/
  | host (port addr n : Nat)
  /-- a vault read held back by a load into its area (R119) -/
  | vault
  /-- an RDMA command on a queue pair: its last PSN (R488) -/
  | rdma (port qp psn : Nat)
  /-- the share of a MATMUL_PADDED of logical engine e, retired while its copy ran (R86) -/
  | share (e : Nat)
  /-- a command of the Director that has not started: its cue, or its turn (R198, R318, R320) -/
  | issue
  /-- a command between its units: the units left of it (R319, R320) -/
  | units (left : Nat)
deriving DecidableEq, Repr

/-- A command part-way through, or saved at a wait point (R320, R322). DESIGN CHOICE (notes/assumptions/3): unsafe. -/
structure Part where
  /-- the logical engine that the command names -/
  e     : Nat
  p     : Nat
  ctx   : Nat
  desc  : Nat
  be    : Bool
  /-- its eligibility time: when its first unit started, or for one that has not started when it became eligible (R320) -/
  start : Nat
  /-- when it reached its wait point -/
  since : Nat
  saved : Bool
  /-- what it waits for has arrived -/
  ready : Bool
  wait  : Wait
  /-- the Director's mark (R293) -/
  watch : Option Watch
  /-- the part and layer of a command that the Director formed -/
  mark  : Option (Nat × Nat)
  /-- issued by the Director for the serving context (R198) -/
  serving : Bool
  /-- the operands of the Director's command that its descriptor does not hold: templates, or row bases -/
  args  : List Nat
deriving DecidableEq, Repr

/-- A reset of an engine in progress (R422). -/
structure EngReset where
  start : Nat
  /-- its ErrorKind (R406) -/
  cause : Nat
  /-- partition and descriptor of the Director's command whose unit ran (R424) -/
  lost  : Option (Nat × Nat)
  /-- resets of the engine in the window of R413, this one included -/
  count : Nat
deriving DecidableEq, Repr

/-- What the symbol code holds (R104 to R107). -/
structure EccSt where
  /-- codewords stored with a correctable error, by address / 32, and their symbols in error with the 4-bit errors (R105) -/
  flaws   : List (Nat × List (Nat × Nat))
  /-- errors that a write of part of a codeword corrected, not yet counted (R103, R105) -/
  due     : List (Nat × List (Nat × Nat))
  /-- the counts of R413, by Reliability key, that stand at or above their threshold -/
  reached : List Nat
  /-- uncorrectable codewords counted while the list of their place was full (R405) -/
  beyond  : List Nat
  /-- loft codewords of a running storyboard fetched again, once (R107) -/
  tried   : List Nat
  /-- those of them whose fetch gave good data that the loft does not yet hold -/
  fetched : List Nat
  /-- loft banks that reached LoftBankCeLimit, by the event's detail, whose event is not yet raised (R413) -/
  weak    : List Nat
deriving DecidableEq, Repr

/-- Nothing in error. -/
def EccSt.reset : EccSt := ⟨[], [], [], [], [], [], []⟩

/-- One engine (R310): its running unit, its part-way commands and what its arbiter, watchdogs and error counts hold. -/
structure EngineSt where
  running   : Option Run
  /-- what is left of the running command once its unit ends (R319) -/
  going     : Option Part
  parts     : List Part
  /-- since when LC commands have held the engine without a pause (R321) -/
  lcSince   : Option Nat
  /-- weighted round robin: the partition served last and the units left of its turn (R320) -/
  lastP     : Nat
  beLeft    : Nat
  /-- the context served last, per partition -/
  lastCtx   : List (Nat × Nat)
  units     : Nat
  progress  : Nat
  /-- mesh timeouts in a row (R408) -/
  meshRun   : Nat
  /-- loft fetch timeouts in a row (R91) -/
  fetchRun  : Nat
  /-- the cell lent to the in-service test (R94) -/
  loan      : Option Nat
  /-- the 1 s window in which lending was last asked for, the background cycles counted in it, and whether it lends no more (R512) -/
  lent      : Nat × Nat × Bool
  /-- logical cells reported failed that the spare has not replaced, and the ErrorKind that failed each (R92) -/
  cellsDown : List (Nat × Nat)
  /-- failed tiles of the running command and the cells each failed on (R90) -/
  tiles     : List (Nat × List Nat)
  /-- failed tiles that wait for their re-issue: until the next unit ends, the command does not (R90) -/
  waiting   : List Nat
  /-- passes of its running work list that a failed block held claimed; the spare runs them (R84) -/
  claims    : List Nat
  /-- reported to its region as failed, with the ErrorKind that failed it and how often it occurred (R19, R21) -/
  reported  : Option (Nat × Nat)
  retired   : Bool
  resetting : Option EngReset
deriving DecidableEq, Repr

/-- An engine that has run nothing: no counts, and partition 0 is next in its round robin (R320). DESIGN CHOICE (notes/assumptions/4):
unsafe. -/
def EngineSt.idle : EngineSt := ⟨none, none, [], none, 7, 0, [], 0, 0, 0, 0, none, (0, 0, false), [], [], [], [], none, false, none⟩

/-- A die copy of R111: the logical die, and whether self-refresh pauses it (R114). -/
structure DieCopy where
  die    : Nat
  paused : Bool
deriving DecidableEq, Repr

/-- A vault load in progress (R118). -/
structure VaultLoad where
  list    : Nat
  part    : Nat
  count   : Nat
  next    : Nat
  retried : Bool
deriving DecidableEq, Repr

/-- A table load that is running or held pending (R155): the record's address, or a built table's lengths. -/
structure PendLoad where
  addr    : Nat
  built   : Option (List Nat)
  kind    : Nat
  gen     : Nat
  e       : Nat
  p       : Nat
  ctx     : Nat
  desc    : Nat
  /-- a BuildTable load: no cue of its own (R148) -/
  encoder : Bool
deriving DecidableEq, Repr

/-- A codec table slot (R152): its table's lengths, the load being copied and the load held pending. Its state,
generation and kind are the parameters 0x6002, 0x6003 and 0x6005. -/
structure CodecSlot where
  lens    : List Nat
  loading : Option PendLoad
  pending : Option PendLoad
  /-- loads completed since reset -/
  done    : Nat
deriving DecidableEq, Repr

def CodecSlot.empty : CodecSlot := ⟨[], none, none, 0⟩

/-- A reference on a slot (R153): the unit and the command or entry that holds it. -/
structure CodecRef where
  slot : Nat
  e    : Nat
  p    : Nat
  ctx  : Nat
  desc : Nat
deriving DecidableEq, Repr

/-- A storyboard run of one step (R125 to R128). Entries are named by their index. -/
structure StoryRun where
  addr    : Nat
  base    : Nat
  started : List Nat
  /-- the entries that copied, in the order in which they started (R107) -/
  wrote   : List Nat
  ended   : List Nat
deriving DecidableEq, Repr

/-- A frame number of a stack (R170): its reference count, and the slate it is reserved for. FREE: 0 and none;
RESERVED: 0 and some; IN_USE: at least 1. -/
structure Frame where
  refs : Nat
  res  : Option Nat
deriving DecidableEq, Repr

def Frame.free : Frame := ⟨0, none⟩

/-- A stack word of a local reel record (R176). -/
inductive StackWord where
  | none
  /-- a contiguous reel: its reel slot and the frames in use -/
  | contig (slot used : Nat)
  /-- a scattered reel: the frame numbers of its scatter record, those in use -/
  | scatter (frames : List Nat)
deriving DecidableEq, Repr

/-- Phases of an instance of a partition (R197, R199). -/
inductive InstPhase where
  /-- none started -/
  | idle
  /-- START written, not yet admitted by the lead -/
  | starting
  | running
  | draining
  /-- STOP taken: every live sequence retires at the next COMMIT -/
  | stopping
  | stopped
deriving DecidableEq, Repr

/-- A sequence at its home (R221): its admits entry, its committed length, and the norm marks of chunks that are not its
last (R303). -/
structure HomeSeq where
  admits     : Nat
  committed : Nat
  fallback  : Bool
  fault     : Bool
deriving DecidableEq, Repr

/-- A segment of a can (R258, R260). -/
structure Can where
  holder : Nat
  stack  : Nat
  target : Nat
  off    : Nat
  units  : Nat
  frames : Nat
deriving DecidableEq, Repr

/-- What the lead keeps for a live sequence beside its slate: the shadow of R411, its reel map (R175), the prompt positions
written, the deepest prefix node (R251), the poison mark (R426) and its can (R260). -/
structure LeadSeq where
  slate     : Nat
  home      : Nat
  state     : Nat
  committed : Nat
  /-- order of acceptance -/
  order     : Nat
  reels     : List Nat
  written   : Nat
  /-- frames given so far -/
  frames    : Nat
  node      : Option Nat
  /-- no further INSERT is planned (R248) -/
  noInsert  : Bool
  poison    : Bool
  cans      : List Can
  /-- where its reel map lies and how long it may grow, in 64 B units of the partition's part of the system area (R175, R207) -/
  map       : Nat
  mapUnits  : Nat
  /-- the bytes of the map as last written -/
  mapImage  : List Nat
deriving DecidableEq, Repr

/-- A segment that this holder wrote (R258, R263): its stack, the committed length, and the frames it holds as TokenBase / 16 and
valid tokens. DEDUCED (notes/assumptions/56): unsafe. -/
structure Canned where
  slate     : Nat
  stack     : Nat
  committed : Nat
  frames    : List (Nat × Nat)
deriving DecidableEq, Repr

/-- A run of a prefill chunk's tokens that one output format record writes on a stack (R166): its first position and its tokens,
and the frame number of the first. -/
structure KvRun where
  slate : Nat
  stack : Nat
  pos   : Nat
  count : Nat
  frame : Nat
deriving DecidableEq, Repr

/-- A queued PARK or UNPARK (R257). -/
structure ParkReq where
  unpark   : Bool
  slate    : Nat
  target   : Nat
  deadline : Nat
deriving DecidableEq, Repr

/-- What a member reported with its start acknowledgement (R260, R278): per stack its park pool in 4 KiB units, its export
area, and its routed token bound. -/
structure Member where
  rank    : Nat
  pools   : List Nat
  exportSize : Nat
  bound   : Nat
deriving DecidableEq, Repr

/-- What the lead notes of the step it has planned, for its COMMIT. -/
structure PlanNote where
  sheet    : CallSheet
  /-- published at -/
  time     : Nat
  /-- sequences held that count toward HoldLimit (R216) -/
  held     : List Nat
  /-- sequences held for merge slots or completion space (R217) -/
  heldOther : List Nat
  /-- sequences parked by this step, and whether the can is new -/
  parks    : List Nat
  unparks  : List ParkReq
  /-- BUDGET_DEFERRED records to write (R212) -/
  budget   : List Nat
  /-- sequences whose slate or prompt reads as poisoned (R205, R411) -/
  lost     : List Nat
  /-- sequences for which this plan ended the insertions (R248) -/
  barred   : List Nat
  /-- queued PARK requests that this plan grants (R257) -/
  asked    : List ParkReq
deriving DecidableEq, Repr

/-- An observation of a watched command (R294): its layer, slate and output row; none where it is not finite. -/
structure Obs where
  layer : Nat
  slate : Nat
  o     : Option Int
deriving DecidableEq, Repr

/-- Values of one output row of a watched command that were drained (R294): the row, the first column, the row's columns in
all, the values, and whether the row met poison. -/
structure Drained where
  row   : Nat
  col   : Nat
  total : Nat
  ys    : List Nat
  bad   : Bool
deriving DecidableEq, Repr

/-- How far a watched command is (R298 to R300). -/
inductive WatchStage where
  /-- a copy of it has not ended -/
  | runs
  /-- it has ended, and the Director decides its sequences; the fallback cue is held -/
  | held
  /-- the Director has admitted sequences, and awaits their re-run -/
  | admitted
  /-- its fallback cue is signalled -/
  | closed
deriving DecidableEq, Repr

/-- A watched command of the running step (R293 to R300): the address its copies name, the block and the opcode of its first copy, the
Director's mark, the copies that have ended, the values drained of rows that are not whole, its observations, its stage and the
admitted sequences. DESIGN CHOICE (notes/assumptions/62): unsafe. -/
structure WatchRun where
  key      : Nat
  e        : Nat
  op       : Nat
  watch    : Watch
  ended    : Nat
  pieces   : List Drained
  obs      : List Obs
  stage    : WatchStage
  admitted : List Nat
  /-- its reduction extent, and its first row of the fallback area, once it has admitted sequences (R299) -/
  k        : Nat
  base     : Nat
deriving DecidableEq, Repr

/-- A producer of prefill rows that the running step has run (R293): the address its copies name, its opcode, its layer and the format
code it wrote. -/
structure Producer where
  key   : Nat
  op    : Nat
  layer : Nat
  code  : Nat
deriving DecidableEq, Repr

/-- The exchange area of a region (R278, R284, R285): rows landed, rows to forward in each direction, rows sorted, and the
token counts of the layer gathered last, by expert and phase. -/
structure Exchange where
  landed  : Nat
  forward : Nat
  retForward : Nat
  sorted  : Nat
  layer   : Nat
  counts  : List (Nat × Nat)
  /-- the layers whose counts are final in the running step (R126, R285), and the experts with a token in each -/
  final   : List (Nat × List Nat)
  /-- the rows that the region routed last, and the first prefill row among them (R272) -/
  rows    : Nat
  prefill : Nat
  /-- their layer -/
  rowsLayer : Nat
deriving DecidableEq, Repr

def Exchange.reset : Exchange := ⟨0, 0, 0, 0, 0, [], [], 0, 0, 0⟩

/-- The instance of a partition on this module (R197 to R237): its part as follower and home, and as lead. -/
structure Inst where
  phase     : InstPhase
  /-- call sheets held, by step (R36, R219) -/
  sheets    : List (Nat × CallSheet)
  /-- steps whose allocation has ended -/
  allocated : List Nat
  /-- the step in RUN -/
  run       : Option Nat
  /-- the running step was broken off: nothing more is issued and no RUN report is sent (R424, R543) -/
  broken    : Bool
  /-- the RUN report of the running step was sent -/
  reported  : Bool
  /-- a command of the step was dropped at an engine reset once (R424) -/
  rerun     : Bool
  /-- transfers of a command dropped at a reset whose ABORT reported completion, which its rerun does not send (R424): engine, node,
  descriptor and first address -/
  sent      : List (Nat × Nat × Nat × Nat)
  /-- the next notice to apply is of this step -/
  nextApply : Nat
  homes     : List (Nat × HomeSeq)
  /-- draft tokens fed per slate of a take (R254) -/
  feeds     : List (Nat × List Nat)
  /-- tokens the home proposes, per slate -/
  props     : List (Nat × List Nat)
  /-- the leading drafts that each take of the step found drawn (R254), per slate -/
  drafts    : List (Nat × Nat)
  /-- slates to report Poisoned, with FallbackUsed, and with NormFault in the step -/
  poisoned  : List Nat
  fellBack  : List Nat
  normFault : List Nat
  /-- prefill entries whose norm word the home still waits for (R303) -/
  words     : List Nat
  /-- prefill entries whose norm word this holder still sends -/
  wordsDue  : List Nat
  /-- take-list entries still to be applied in the present stage of the step (R239): allocation, RUN or apply -/
  todo      : List Nat
  /-- the notice being applied, while take-list entries of its apply are left -/
  applying  : Option Notice
  /-- committed lengths of the sequences of the steps so far, by slate -/
  lens      : List (Nat × Nat)
  /-- segments written or decoded in the step (R260): slate, stack and bytes -/
  segs      : List (Nat × Nat × Nat)
  /-- completion records written since START, and the records that wait in the spill queue (R234) -/
  cplCount  : Nat
  spill     : List Nat
  /-- the watched commands of the running step in issue order (R295), and how often fallback cues were signalled (R298) -/
  watches   : List WatchRun
  fbCues    : Nat
  /-- the layer of the running step whose ATTN_MERGE ran last, and the format code it wrote (R293) -/
  merged    : Option (Nat × Nat)
  /-- the marked producers that the running step has run (R293) -/
  producers : List Producer
  /-- this module's own rows of the running step, which the watched command of every layer covers (R272, R293) -/
  rows      : Nat
  /-- rows re-run so far in a layer (R299) -/
  fbRows    : Nat × Nat
  /-- events raised in the step (R304): layer and slate -/
  normEvents : List (Nat × Nat)
  /-- baselines in force at RUN (R295), by layer: b and n -/
  base      : List (Nat × (Int × Nat))
  runBase   : List (Nat × (Int × Nat))
  /-- expert cues advanced in the running step: dispatch rack, dispatch module, return rack, return module (R283) -/
  expCues   : List Nat
  exch      : List (Nat × Exchange)
  /-- the largest number of experts that any layer hosts, by region (R278), as of START -/
  hostMax   : List Nat
  /-- the location table of the present step (R276) -/
  location  : Nat
  /-- rack groups read at START (R276), by rank -/
  racks     : List Nat
  /-- expert batches of later steps (R284) -/
  heldBatches : List ExpBatch
  /-- segments of parked sequences that this holder wrote -/
  canned    : List Canned
  /-- frames of sequences whose context is fenced here, held until its drain completes (R174): the context, and each frame's stack
  and number -/
  late      : List (Nat × List (Nat × Nat))
  /-- the contexts of the sequences of the steps so far, as the notices name them, by slate (R174) -/
  seqCtx    : List (Nat × Nat)
  /-- the runs of the step's prefill chunks whose keys and values this holder takes (R166) -/
  kvOut     : List KvRun
  /-- commands of the running step that the Director formed and that have completed: engine, opcode, part and layer (R159, R191) -/
  issued    : List (Nat × Nat × Nat × Nat)
  /-- blocks that were retired when RUN began, which the sets of the step leave out (R86) -/
  gone      : List Nat
  /-- FeedCue and MergeCue as they stood before the next step's first advance (R190) -/
  cueBase   : Nat × Nat
  /-- lead: request entries read for the coming PLAN (R201) -/
  readAhead : Nat
  /-- lead: cancel entries read for the coming COMMIT (R201) -/
  cancelAhead : Nat
  /-- lead: the step planned next, the batch epoch, and the members admitted -/
  step      : Nat
  epoch     : Nat
  members   : List Member
  seqs      : List LeadSeq
  nextOrder : Nat
  parkQueue : List ParkReq
  plan      : Option PlanNote
  /-- RUN reports received: rank and entries -/
  reports   : List (Nat × List Nat)
  acks      : List Ack
  /-- the notice written and its copies not yet applied here (R225) -/
  notice    : Option Notice
  /-- the step in which each node was last touched is LastUse; nodes touched in the running PLAN (R250) -/
  touched   : List Nat
  /-- admitted standbys (R366), until their rank is ready -/
  standbys  : List StartAck
  /-- since when a rank is absent and a substitute is awaited (R369) -/
  waitSince : Option Nat
deriving DecidableEq, Repr

/-- No instance. DESIGN CHOICE (notes/assumptions/4): unsafe. -/
def Inst.reset : Inst :=
  { phase := .idle, sheets := [], allocated := [], run := none, broken := false, reported := false, rerun := false, sent := [],
    nextApply := 0, homes := [], feeds := [], props := [], drafts := [], poisoned := [], fellBack := [], normFault := [], words := [], wordsDue := [],
    todo := [], applying := none, lens := [], segs := [], cplCount := 0, spill := [], watches := [], fbCues := 0, merged := none,
    producers := [], rows := 0, fbRows := (0, 0), normEvents := [],
    canned := [], late := [], seqCtx := [], kvOut := [], issued := [], gone := [], cueBase := (0, 0), readAhead := 0, cancelAhead := 0,
    base := [], runBase := [], expCues := [0, 0, 0, 0], exch := [], hostMax := [0, 0, 0, 0], location := 0, racks := [], heldBatches := [], step := 0, epoch := 0,
    members := [], seqs := [], nextOrder := 0, parkQueue := [], plan := none, reports := [], acks := [], notice := none,
    touched := [], standbys := [], waitSince := none }

/-- A prefix-index node (R241); st is 0 FREE, 1 PENDING, 2 VALID. -/
structure PNode where
  hash     : Nat
  check    : Nat
  parent   : Nat
  holder   : Nat
  p        : Nat
  st       : Nat
  valid    : Nat
  children : Nat
  users    : Nat
  lastUse  : Nat
  frames   : List Nat
deriving DecidableEq, Repr

def PNode.free : PNode := ⟨0, 0, 0x1FFFFFF, 0, 0, 0, 0, 0, 0, 0, []⟩

/-- A subscriber slot (R461, R462). -/
structure Sub where
  path      : Nat
  dest      : Nat
  mask      : Nat
  session   : Nat
  seq       : Nat
  delivered : Nat
  dropped   : Nat
  /-- records dropped since the last EventsLost record -/
  lost      : Nat
  /-- queued records, oldest first: the EventSeq, 0 until it is sent, and the 32 B record -/
  queue     : List (Nat × Nat)
  resends   : Nat
  lastSend  : Nat
deriving DecidableEq, Repr

/-- A host port (R468 to R481). -/
structure HostPort where
  up       : Bool
  width    : Nat
  rate     : Nat
  flit     : Bool
  cxl      : Bool
  /-- the HDM decoder is committed (R470) -/
  hdm      : Bool
  /-- PERST_N holds the port in reset (R532) -/
  perst    : Bool
  /-- Bus Master Enable and D3hot of the port's function -/
  bme      : Bool
  d3       : Bool
  msixOn   : Bool
  /-- the MSI-X function mask of PCI Express -/
  fmask    : Bool
  /-- MSI-X entries that differ from a masked zero entry -/
  msix     : List (Nat × Nat)
  /-- vectors whose pending bit is set -/
  pba      : List Nat
  segs     : List (Nat × Nat)
  window   : Nat
  mbxDoor  : Nat
  /-- 0 IDLE, 1 BUSY, 2 DONE -/
  mbxState : Nat
  rspLen   : Nat
  evtAck   : Nat
  evtHead  : Nat
  req      : List Host.Cell
  rsp      : List Host.Cell
  evt      : List Host.Cell
  /-- the latched high half: register offset and value (R8) -/
  latch    : Option (Nat × Nat)
deriving DecidableEq, Repr

/-- A port after power-on: its link is down, and its registers are 0 (R468, R471). DESIGN CHOICE (notes/assumptions/4): unsafe.
PRESUMED (notes/assumptions/27): unsafe. -/
def HostPort.reset : HostPort :=
  ⟨false, 0, 0, false, false, false, false, false, false, false, false, [], [], [], 0, 0, 0, 0, 0, 0, [], [], [], none⟩

/-- The handover of a lane to the spare in one direction (R343): 0 idle, 1 requested or being copied, 2 at the receiver while codewords are
compared, 3 to switch at a codeword count; the logical lane; that count; whether the lane has lost lock. -/
structure LaneSwap where
  phase : Nat
  lane  : Nat
  at'   : Nat
  lost  : Bool
deriving DecidableEq, Repr

/-- A Kwanex group's link layer (R337 to R343). Its LinkState, identity record and map-out reason are the parameters
0x4006, 0x4007 and 0x4009. -/
structure LinkGroup where
  /-- Seq of the next DATA flit, and the flits sent and not acknowledged: Seq and bytes -/
  txSeq    : Nat
  replay   : List (Nat × List Nat)
  /-- payloads that wait for credit: channel, FirstPacket and bytes -/
  queue    : List (Nat × Nat × List Nat)
  credits  : List Nat
  /-- last advance of AckSeq, and the Seq NAKed last with how often in a row -/
  ackTime  : Nat
  nakSeq   : Nat
  nakCount : Nat
  /-- times at which it went to RETRAIN -/
  retrains : List Nat
  /-- since when LC flits have held the group (R356) -/
  lcSince  : Option Nat
  /-- flit slots since the last CONTROL flit (R338) -/
  slots    : Nat
  /-- since when it has been trained, its state before RETRAIN (R342), and when its last CONTROL flit left -/
  upSince  : Option Nat
  before   : Nat
  ctlAt    : Nat
  /-- flits of the codeword being filled with the number after the last codeword, markers sent, and the number of the codeword received
  last (R335, R336) -/
  txWord   : List (List Nat) × Nat
  marks    : Nat
  rxWord   : Option Nat
  rxSeq    : Nat
  /-- flits are being discarded until rxSeq arrives -/
  rxHold   : Bool
  /-- bytes of the packet being received, by channel -/
  rxBytes  : List (List Nat)
  /-- receive-buffer flits freed since the last CONTROL flit -/
  freed    : List Nat
  /-- TxStamp and arrival of the peer's last CONTROL flit, and its stratum (R371) -/
  echoTx   : Nat
  echoRx   : Nat
  stratum  : Nat
  txSwap   : LaneSwap
  rxSwap   : LaneSwap
  /-- physical lanes that carry a failed logical lane: the lane the spare stands for, transmit and receive -/
  txSpare  : Option Nat
  rxSpare  : Option Nat
deriving DecidableEq, Repr

/-- A group that carries nothing: every receive buffer free (R341), no lane spared. DESIGN CHOICE (notes/assumptions/4): unsafe. -/
def LinkGroup.reset : LinkGroup :=
  ⟨0, [], [], [512, 512, 64], 0, 0, 0, [], none, 0, none, 0, 0, ([], 0), 0, none, 0, false, [[], [], []], [0, 0, 0], 0, 0, 15,
    ⟨0, 0, 0, false⟩, ⟨0, 0, 0, false⟩, none, none⟩

/-- An open transfer at its sender (R354, R355): its packets as header and data, the engine command it belongs to, and when
its Final packet was sent. -/
structure Xfer where
  node    : Nat
  tag     : Nat
  chan    : Nat
  e       : Nat
  p       : Nat
  ctx     : Nat
  desc    : Nat
  packets : List (Nat × List Nat)
  sentAt  : Nat
  aborted : Bool
  /-- the group that its Final packet took (R355) -/
  path    : Option Nat
  /-- its command was dropped at an engine reset (R423) -/
  dropped : Bool
deriving DecidableEq, Repr

/-- An open transfer at its receiver (R354). -/
structure RxXfer where
  node  : Nat
  tag   : Nat
  count : Nat
  base  : Nat
  final : Option Nat
  coll  : Bool
deriving DecidableEq, Repr

/-- A contribution to a collective that has landed (R362): context, source and its first address. -/
structure Arrival where
  p    : Nat
  ctx  : Nat
  node : Nat
  addr : Nat
deriving DecidableEq, Repr

/-- An exchange with an IEEE 1588 master (R373): the Sync taken last, its times of departure and arrival, and the module's Delay_Req: when
it left, and the number of the next one. Times are in 1/16 ns. -/
structure PtpRun where
  sync : Nat
  t1   : Option Int
  t2   : Int
  t3   : Option Int
  seq  : Nat
deriving DecidableEq, Repr

def PtpRun.reset : PtpRun := ⟨0, none, 0, none, 0⟩

/-- Fabric time (R371, R372): the group time comes from, the offsets in 1/16 ns that are being filtered, whether time was
stepped once, since when the offset has stayed small, the trim in ppm and the fraction of a ns gathered by it. -/
structure TimeSt where
  parent  : Option Nat
  offsets : List Int
  stepped : Bool
  small   : Option Nat
  trim    : Int
  frac    : Int
  ptp     : PtpRun
deriving DecidableEq, Repr

def TimeSt.reset : TimeSt := ⟨none, [], false, none, 0, 0, PtpRun.reset⟩

/-- A crash dump being written (R431). -/
structure DumpRun where
  reason : Nat
  mode   : Nat
  start  : Nat
  fault  : Nat
  slot   : Nat
deriving DecidableEq, Repr

/-- A pennant (R401): the onset of its running episode, the time up to which its CumulativeUs counts, and its last 32 episode
records, oldest first. -/
structure Pennant where
  since   : Option Nat
  counted : Nat
  ring    : List Nat
deriving DecidableEq, Repr

def Pennant.reset : Pennant := ⟨none, 0, []⟩

/-- Stretch that a region holds for droop (R395): its depth, and since when that depth holds. -/
structure DroopSt where
  s     : Nat
  /-- when the voltage was last low, and when the fall set in; whether it has been low since (R395) -/
  since : Nat
  start : Nat
  low   : Bool
deriving DecidableEq, Repr

/-- The power governor and its loops (R375 to R403). L, the averages, the lease's state and the depths in force are
parameters. -/
structure PowerSt where
  /-- the L that the governor enforces, the operating point and duty it moves to, and whether the fast path acts -/
  enforced : Nat
  target   : Nat
  dutyTo   : Nat
  fast     : Bool
  /-- stretch of the fast path; droop and ramp stretch by region; engines whose clock the ramp limiter has gated -/
  stretch  : Nat
  droop    : List (Nat × DroopSt)
  ramp     : List (Nat × Nat)
  gated    : List Nat
  /-- start of the running 1 s window and the ns in it with DROOP running; end of a lowering for droop -/
  droopWin : Nat × Nat
  droopAt  : Nat
  lowered  : Option Nat
  /-- the sequence of the last lease commit since BOOT, and what it committed -/
  leaseSeq : Option Nat
  grant    : Nat
  derate   : Nat
  group    : Nat
  /-- DERATE_N is asserted; the input sags; the supply limit is in force, and when both causes cleared -/
  derateN  : Bool
  sag      : Bool
  supply   : Bool
  clearAt  : Option Nat
  /-- the converter has stopped and the module runs on hold-up; the last 64 input-voltage samples -/
  holdUp   : Bool
  /-- it stopped for an overvoltage (R375) -/
  overVolt : Bool
  volts    : List Nat
  /-- the power-loss record in management flash (R391, R525): its cause (0 hold-up, 1 extraction), time, ns from the break of
  PRES_N to that of the main contacts, and samples -/
  lossRec  : Option (Nat × Nat × Nat × List Nat)
  /-- the thermal limit Lt and the number of the hottest sensor -/
  thermal  : Nat
  hotSensor : Nat
  /-- samples in a row with low flow, since when flow is good, outlet samples of 250 ms, and what R394 makes of them -/
  flowLow  : Nat
  flowOk   : Option Nat
  outlets  : List Int
  pumpLoss : Bool
  coolant  : Option Nat
  row      : Nat
  cold     : Bool
  /-- since when the BE gate is closed; L and measured power of the last windows (R400), newest first -/
  gateSince : Nat
  windows  : List (Nat × Nat)
  pennants : List (Nat × Pennant)
  /-- blame by node in the running window, reports held, what is owed to and by each node, and windows without a report -/
  blame    : List (Nat × Nat)
  /-- the node whose packet advanced each cue last -/
  closers  : List (Nat × Nat)
  reports  : List TradeReport
  owes     : List (Nat × Nat)
  owed     : List (Nat × Nat)
  /-- what is owed from before a commit that ended trades: the node, the watts, and the windows since (R399) -/
  ending   : List (Nat × Nat × Nat)
  /-- the own report of the window whose plan is due, and when it ended; the last window that ended (R398) -/
  planAt   : Option (TradeReport × Nat)
  lastWindow : Option Nat
  /-- signs of failing phases and stages: the unit and the time (R416) -/
  signs    : List (Nat × Nat)
  silent   : List (Nat × Nat)
  /-- when the precharge path closed, and when it was opened for a failure (R377) -/
  preSince : Nat
  preFail  : Option Nat
  /-- since when REFCLK is lost (R534) -/
  refLost  : Option Nat
deriving DecidableEq, Repr

/-- The governor before anything is measured: Grant, DerateGrant and Lt at their defaults. DESIGN CHOICE (notes/assumptions/4):
unsafe. -/
def PowerSt.reset : PowerSt :=
  { enforced := 2400, target := 0, dutyTo := 0, fast := false, stretch := 0, droop := [], ramp := [], gated := [],
    droopWin := (0, 0), droopAt := 0, lowered := none, leaseSeq := none, grant := 2400, derate := 1400, group := 0,
    derateN := false, sag := false, supply := false, clearAt := none, holdUp := false, overVolt := false, volts := [], lossRec := none,
    thermal := 4400, hotSensor := 0, flowLow := 0, flowOk := none, outlets := [], pumpLoss := false, coolant := none, row := 5, cold := false,
    gateSince := 0, windows := [], pennants := [], blame := [], closers := [], reports := [], owes := [], owed := [],
    ending := [], planAt := none, lastWindow := none, signs := [], silent := [],
    preSince := 0, preFail := none, refLost := none }

/-- A firmware slot (R501 to R505): its state (0 EMPTY, 1 VALID, 2 TRIAL, 3 CONFIRMED, 4 BAD) and what its image states. -/
structure FwSlot where
  st     : Nat
  ver    : Nat
  level  : Nat
  minDir : Nat
deriving DecidableEq, Repr

/-- A firmware instance: its active slot, its slots, the time of its last switch, and whether it passed its 1 s check. -/
structure FwInst where
  active : Nat
  a      : FwSlot
  b      : FwSlot
  since  : Nat
  passed : Bool
deriving DecidableEq, Repr

/-- A firmware instance as it leaves the factory: slot A is CONFIRMED and runs. DESIGN CHOICE (notes/assumptions/4): unsafe. -/
def FwInst.reset : FwInst := ⟨0, ⟨3, 0, 0, 0⟩, ⟨0, 0, 0, 0⟩, 0, true⟩

/-- A daily record (R517): its header without the entry fields, and its entries. -/
structure Daily where
  time    : Nat
  seq     : Nat
  node    : Nat
  mode    : Nat
  op      : Nat
  power   : Nat
  peak    : Int
  entries : List Nat
deriving DecidableEq, Repr

/-- Start-up, firmware and telemetry (R492 to R520). -/
structure LifeSt where
  /-- when the present state was entered -/
  since    : Nat
  /-- PRES_N is held low -/
  present  : Bool
  /-- a ModuleControl RESTART or RESTART_KEEP that is held (R498), and the partitions whose START, and whose instance START,
  is held (R494, R499) -/
  restart  : Option Nat
  starts   : List Nat
  instStarts : List Nat
  /-- the stacks have stayed in self-refresh since the module left READY, SERVING or DRAINING (R497) -/
  kept     : Bool
  /-- when SELFTEST ended: the in-service test periods count from here (R496) -/
  tested   : Nat
  /-- when the first group came UP in TRAINING (R495) -/
  firstUp  : Option Nat
  /-- when DRAINING began -/
  drainAt  : Option Nat
  fw       : List (Nat × FwInst)
  /-- image being staged: kind and slot contents -/
  staging  : Option (Nat × FwSlot)
  /-- instances of an activation or revert that are still to switch, first next, and the one under its 1 s check -/
  fwQueue  : List Nat
  fwCheck  : Option Nat
  /-- shadow banks (R514): time, n and entries -/
  banks    : List (Nat × (Nat × Nat × List Nat))
  dailies  : List Daily
  /-- period of the last daily, and since then the sum and number of 1 ms powers, and the hottest estimate -/
  dailyDone : Nat
  powerSum : Nat × Nat
  peak     : Option Int
  /-- the TRAY_POS straps -/
  straps   : Nat
  /-- last calibration of each core-rail phase, by 16 region + phase (R511) -/
  cals     : List (Nat × Nat)
deriving DecidableEq, Repr

/-- Nothing held, staged or armed. DESIGN CHOICE (notes/assumptions/4): unsafe. -/
def LifeSt.reset : LifeSt :=
  { since := 0, present := false, restart := none, starts := [], instStarts := [], kept := false, tested := 0, firstUp := none, drainAt := none,
    fw := [], staging := none, fwQueue := [], fwCheck := none, banks := [], dailies := [], dailyDone := 0, powerSum := (0, 0),
    peak := none, straps := 0, cals := [] }

/-- A BLOB being written (R455): its parameter, the bytes so far, and the time of the last segment. -/
structure BlobXfer where
  key   : Nat
  bytes : List Nat
  last  : Nat
deriving DecidableEq, Repr

/-- A session (R448 to R451), challenged or open: its nonces, its key, and the last request accepted with its response. -/
structure Session where
  id    : Nat
  role  : Nat
  path  : Nat
  src   : Nat
  isOpen : Bool
  nc    : List Nat
  nm    : List Nat
  key   : List Nat
  seq   : Nat
  tx    : Nat
  resp  : Option Pdu
  born  : Nat
  last  : Nat
  blob  : Option BlobXfer
deriving DecidableEq, Repr

/-- The dictionary's own state (R439 to R467). -/
structure EloSt where
  sessions : List Session
  /-- closed SessionIds and when (R451) -/
  closed   : List (Nat × Nat)
  /-- failed LOGINs by source: path, address and time; sources locked out until a time -/
  fails    : List (Nat × Nat × Nat)
  locked   : List (Nat × Nat × Nat)
  /-- values committed to management flash (R458) -/
  flash    : List (Nat × Nat)
  /-- path that wrote each persisted value last -/
  paths    : List (Nat × Nat)
  /-- when the oldest write that is not committed was made -/
  due      : Option Nat
  /-- RestoreDefaults was written -/
  restore  : Bool
deriving DecidableEq, Repr

def EloSt.reset : EloSt := ⟨[], [], [], [], [], [], none, false⟩

/-- A packet a queue pair has sent and not seen acknowledged (R489): its PSN, and its request as operation (0 WRITE, 1 READ),
key, remote address, length, data and immediate value. -/
structure RocePkt where
  psn  : Nat
  op   : Nat
  rkey : Nat
  addr : Nat
  len  : Nat
  data : List Nat
  imm  : Option Nat
deriving DecidableEq, Repr

/-- A queue pair (R485, R489). -/
structure Qp where
  entry   : Nat
  sendPsn : Nat
  recvPsn : Nat
  error   : Bool
  unacked : List RocePkt
  sentAt  : Nat
  /-- retries of the oldest packet -/
  retries : Nat
  /-- rate in thousandths of line rate; last CNP received, last raise, last CNP sent -/
  rate    : Nat
  cnpAt   : Nat
  cnpSent : Option Nat
deriving DecidableEq, Repr

/-- The Ethernet ports (R482 to R490): queue pairs by 1,024 port + index, key table entries as read, and paused priorities
as port, priority and the end of the pause. -/
structure EthSt where
  qps   : List (Nat × Qp)
  keys  : List (Nat × Nat)
  pause : List (Nat × Nat × Nat)
deriving DecidableEq, Repr

def EthSt.reset : EthSt := ⟨[], [], []⟩

/-- What the module sends. DESIGN CHOICE (notes/assumptions/37): unsafe. DESIGN CHOICE (notes/assumptions/51): safe. -/
inductive Out where
  /-- MSI-X message: host port and vector (R476) -/
  | msix (port vector : Nat)
  /-- a response PDU to a path and address -/
  | pdu (path addr : Nat) (p : Pdu)
  /-- an EVENT PDU to the source of a subscriber slot -/
  | event (slot : Nat) (tagged : Bool) (records : List Nat)
  /-- an attention batch to a rank (R190) -/
  | attn (rank : Nat) (b : AttnBatch)
  /-- an expert batch to a rank (R282) -/
  | experts (rank : Nat) (b : ExpBatch)
  /-- a call sheet to a rank (R211), a RUN report to the lead (R222), a norm word to a home (R303), a commit notice to a
  rank (R225), and an acknowledgement to the lead (R227) -/
  | sheet (rank p : Nat) (c : CallSheet)
  | report (rank p : Nat) (entries : List Nat)
  | normWord (rank p word : Nat)
  | commit (rank p : Nat) (n : Notice)
  | ack (rank p : Nat) (a : Ack)
  /-- the acknowledgement of START to the lead (R197, R366) -/
  | startAck (rank p : Nat) (a : StartAck)
  /-- a SHAPE notice to a rank: AbsentMask, ShapeEpoch and the standby assigned to a rank (R368, R369) -/
  | shape (rank p mask epoch : Nat) (assign : Option (Nat × Nat))
  /-- RankReady of a standby to the lead (R369) -/
  | rankReady (rank p r : Nat)
  /-- a read of host memory through a port: bus address and bytes (R475) -/
  | hostRead (port addr n : Nat)
  /-- a flit of a group (R337) -/
  | flit (group : Nat) (bytes : List Nat)
  /-- a Delay_Req of IEEE 1588 on an Ethernet port (R373): transport and sequence number -/
  | delayReq (port transport seq : Nat)
  /-- the codewords of a group's four lanes with their number (R335, R336) -/
  | codewords (group number : Nat) (lanes : List (List Nat))
  /-- a trade report or token to a node (R398): GIVE or RETURN of watts -/
  | tradeReport (node : Nat) (r : TradeReport)
  | tradeToken (node : Nat) (give : Bool) (watts : Nat)
  /-- a RoCE request packet of a queue pair; an acknowledgement, or a NAK with its reason (0 sequence, 1 remote access, 2 invalid
  request); read response data; a CNP -/
  | roce (port qp : Nat) (pkt : RocePkt)
  | roceAck (port qpn psn : Nat) (nak : Option Nat)
  | roceData (port qpn psn : Nat) (data : List Nat)
  | cnp (port qpn : Nat)
  /-- an answer to ARP, NDP or echo (R483) -/
  | ethAnswer (port : Nat) (f : EthFrame)
  /-- a completion of a host access (R473, R474): port, data, poisoned, completer abort -/
  | completion (port : Nat) (data : List Nat) (poisoned abort : Bool)
deriving DecidableEq, Repr

/-- The state of the module. -/
structure State where
  /-- commands that wait, first in, first out -/
  pending   : List Instr
  /-- fabric time in ns (R32) -/
  now       : Nat
  mode      : ModuleState
  /-- module memory (R96): a byte that nothing has written reads as 0 -/
  mem       : List Host.Cell
  /-- uncorrectable 32 B codewords by address / 32, and whether a reader has found each (R405, R106) -/
  poison    : List (Nat × Bool)
  /-- stacks (0-11), lofts (12-15) and vault (16) whose list of uncorrectable codewords was found full (R405) -/
  ueFull    : List Nat
  /-- what the symbol code holds (R104 to R107) -/
  ecc       : EccSt
  /-- dictionary values that differ from their defaults (R465), counters included -/
  params    : List (Nat × Nat)
  /-- values in force of parameters that take effect at a later moment (R454) -/
  eff       : List (Nat × Nat)
  ctxs      : List (Nat × Ctx)
  streams   : List (Nat × Stream)
  heldCtl   : List HeldCtl
  places    : List (Nat × List Placement)
  /-- reloads that take effect at the next PLAN (R124) -/
  placesNext : List (Nat × List Placement)
  engines   : List (Nat × EngineSt)
  /-- physical positions of logical units that are not the ones of reset (R17) -/
  phys      : List (Nat × Nat)
  /-- Reliability counts per physical unit (R438) -/
  rel       : List (Nat × Nat)
  /-- threshold windows in hourly buckets (R413) -/
  win       : List (Nat × List (Nat × Nat))
  /-- failed units (R414): UnitKind * 65536 + Physical -/
  retired   : List Nat
  dieCopies : List (Nat × DieCopy)
  /-- vault-backed ranges being restored: address and bytes (R112) -/
  restores  : List (Nat × Nat)
  vaultLoad : Option VaultLoad
  slots     : List (Nat × CodecSlot)
  codecRefs : List CodecRef
  /-- per region, the unit that received its previous CodecPath block (R147) -/
  codecUnit : List (Nat × Nat)
  stories   : List (Nat × StoryRun)
  /-- the fault-log ring, oldest first (R405), and the newest 256 records in management flash -/
  faultLog  : List Nat
  flashLog  : List Nat
  /-- time of the first record since the last commit of the flash copy -/
  flashDue  : Option Nat
  subs      : List (Nat × Sub)
  hostPorts : List (Nat × HostPort)
  /-- tensor scales for keys and values per layer, by partition (R162) -/
  kvScales  : List (Nat × List (Nat × Nat))
  /-- partitions whose key and value geometry or scale table is unusable (R162, R165) -/
  kvBad     : List Nat
  /-- frame numbers that are not FREE, by partition, stack and number (R170) -/
  frames    : List (Nat × Frame)
  /-- local reel records, by partition, slate and reel (R176): a stack word per stack -/
  reels     : List (Nat × List StackWord)
  /-- the place of each reel's record and scatter records in the system areas, and the words they hold (R176) -/
  reelImage : List (Nat × (Nat × List StackWord))
  /-- doorbell and consumed counts by partition (R201, R234, R325), as 16 p + i: 0 request doorbell, 1 requests consumed,
  2 cancel doorbell, 3 cancels consumed, 4 completions consumed, 5 control doorbell, 6 control entries consumed,
  7 the last DIR_CMD_DOORBELL value -/
  doors     : List (Nat × Nat)
  /-- instances, by partition -/
  insts     : List (Nat × Inst)
  /-- prefix-index nodes that are not FREE (R241) -/
  nodes     : List (Nat × PNode)
  /-- values of the watched command being drained (R294); some only inside one command -/
  drain     : Option (List Drained)
  /-- FLT_PENDING (R471) -/
  fltPending : Nat
  /-- stack dies that failed without warning, by 16 stack + die, and the codewords written whole since (R112) -/
  dead      : List (Nat × List Nat)
  /-- in-service tests by physical unit (R418): slices passed of the running test, and the end of the last full one -/
  tests     : List (Nat × (Nat × Nat))
  /-- units counted as overdue (R419) -/
  overdue   : List Nat
  /-- mesh timeouts of the last 1 ms (R408): target, engine and time -/
  meshHits  : List (Nat × Nat × Nat)
  /-- engine dumps, oldest first (R434); dump slots; the dump being written; the summary in management flash (R431) -/
  engineDumps : List (List Nat)
  dumps     : List (Nat × List Nat)
  dumpRun   : Option DumpRun
  dumpSummary : List Nat
  links     : List (Nat × LinkGroup)
  /-- transfers open at their sender, those that wait for a tag, and tags in quarantine: node, tag and time (R354) -/
  xfers     : List Xfer
  xferWait  : List Xfer
  oldTags   : List (Nat × Nat × Nat)
  rxXfers   : List RxXfer
  rxDone    : List (Nat × Nat × Nat)
  arrivals  : List Arrival
  /-- switch planes that a node has reported usable (R348), nodes that sending has stopped to (R436), and when each node was
  heard last (R367) -/
  planes    : List (Nat × Nat)
  gone      : List Nat
  heard     : List (Nat × Nat)
  /-- the round-robin place of the port routers (R348) -/
  spray     : Nat
  /-- last identity record of each group (R349) -/
  peers     : List (Nat × IdRec)
  clock     : TimeSt
  power     : PowerSt
  life      : LifeSt
  elo       : EloSt
  eth       : EthSt
  /-- reads of host memory outstanding (R475): port, module address, bytes and time -/
  hostReads : List (Nat × Nat × Nat × Nat)
  /-- bridge flits being retried (R407): flit and retries, by bridge -/
  bridges   : List (Nat × (Nat × Nat))
  out       : List Out
  /-- free values drawn so far: the model's own field -/
  freeIx    : Nat
deriving DecidableEq, Repr

/-- The module right after reset: without power, in OFF, with nothing stored (R492, R500). DESIGN CHOICE (notes/assumptions/4):
unsafe. -/
def State.reset : State :=
  { pending := [], now := 0, mode := .off, mem := [], poison := [], ueFull := [], ecc := EccSt.reset, params := [], eff := [], ctxs := [],
    streams := [], heldCtl := [], places := [], placesNext := [], engines := [], phys := [], rel := [], win := [], retired := [],
    dieCopies := [], restores := [], vaultLoad := none, slots := [], codecRefs := [], codecUnit := [], stories := [],
    faultLog := [], flashLog := [], flashDue := none, subs := [], hostPorts := [], kvScales := [], kvBad := [], frames := [],
    reels := [], reelImage := [], doors := [], insts := [], nodes := [], drain := none, fltPending := 0, dead := [], tests := [], overdue := [],
    meshHits := [], engineDumps := [], dumps := [], dumpRun := none, dumpSummary := [], links := [], xfers := [], xferWait := [],
    oldTags := [], rxXfers := [], rxDone := [], arrivals := [], planes := [], gone := [], heard := [], spray := 0, peers := [],
    clock := TimeSt.reset, power := PowerSt.reset, life := LifeSt.reset, elo := EloSt.reset, eth := EthSt.reset,
    hostReads := [], bridges := [], out := [], freeIx := 0 }

/-- Why a command faults: for no reason. The manual gives every command an effect, so no meaning faults. -/
inductive Fault where
deriving DecidableEq, Repr

/-- Why a command is refused. -/
inductive Refusal where
  /-- the command has no meaning yet; raised by exec only. Safe. -/
  | notModelled (mnemonic : String)
deriving DecidableEq, Repr

end Sys2Proof.Machine
end

