-- ==== Sys2Proof/Machine/Ops.lean ====
section
/-! DEFINITION. The shared operations: parameters and counters, memory with its checks and poison, fault records,
events and clamps. -/
namespace Sys2Proof.Machine

/-- A computation over the state. -/
abbrev M := StateM State

/-! ## Parameters and counters -/

/-- A stored parameter value (R454). -/
def State.par (s : State) (key : Nat) : Nat := getC paramDefault s.params key

/-- A parameter value in force, for parameters that take effect at a later moment (R454). -/
def State.eff' (s : State) (key : Nat) : Nat := getC paramDefault s.eff key

/-- The state with a stored parameter value replaced. -/
def State.setPar (s : State) (key v : Nat) : State := { s with params := setC paramDefault s.params key v }

/-- The state with a value put in force. -/
def State.setEff (s : State) (key v : Nat) : State := { s with eff := setC paramDefault s.eff key v }

/-- A counter raised by n (R63). -/
def State.bump (s : State) (key n : Nat) : State := s.setPar key (add64 (s.par key) n)

def par (key : Nat) : M Nat := fun s => (s.par key, s)
def eff (key : Nat) : M Nat := fun s => (s.eff' key, s)
/-- Stores a parameter value. -/
def setPar (key v : Nat) : M Unit := modify fun s => s.setPar key v
def setEff (key v : Nat) : M Unit := modify fun s => s.setEff key v
/-- Raises a counter. -/
def bump (key n : Nat) : M Unit := modify fun s => if n == 0 then s else s.bump key n

/-- DescriptorClamps, R10: n clamped fields of descriptors, records and tables. -/
def clampDesc (n : Nat) : M Unit := bump (pk 0x1F00 5) n

/-- Does nothing. DESIGN CHOICE (notes/assumptions/9): safe. -/
def skip : M Unit := pure ()

/-- Runs m when c holds. DESIGN CHOICE (notes/assumptions/9): safe. -/
def onlyIf (c : Bool) (m : M Unit) : M Unit := if c then m else skip

/-- Runs f on each element, in order. -/
def each {α : Type} : List α → (α → M Unit) → M Unit
  | [], _ => pure ()
  | x :: xs, f => do f x; each xs f

/-- Runs f on each element, in order, collecting the results. -/
def collect {α β : Type} : List α → (α → M β) → M (List β)
  | [], _ => pure []
  | x :: xs, f => do
    let y ← f x
    let ys ← collect xs f
    pure (y :: ys)

/-- Runs f over the elements with a running value. -/
def foldState {α β : Type} : List α → β → (β → α → M β) → M β
  | [], b, _ => pure b
  | x :: xs, b, f => do
    let c ← f b x
    foldState xs c f

/-- The instance of a partition. -/
def State.inst (s : State) (p : Nat) : Inst := (lookup s.insts p).getD Inst.reset

def State.setInst (s : State) (p : Nat) (v : Inst) : State :=
  { s with insts := setC (fun _ => Inst.reset) s.insts p v }

def setInst (p : Nat) (f : Inst → Inst) : M Unit := modify fun s => s.setInst p (f (s.inst p))

/-- An instance of the partition serves (R197 to R199). -/
def State.serving (s : State) (p : Nat) : Bool :=
  match (s.inst p).phase with
  | .starting | .running | .draining | .stopping => true
  | .idle | .stopped => false

def State.door (s : State) (p i : Nat) : Nat := getC (fun _ => 0) s.doors (16 * p + i)

def setDoor (p i v : Nat) : M Unit := modify fun s => { s with doors := setC (fun _ => 0) s.doors (16 * p + i) v }

/-- Entries between a consumed count and a doorbell value, as counts that wrap at 32 bits (R201). -/
def ahead (door done : Nat) : Nat := (door + 2 ^ 32 - done) % 2 ^ 32

/-- This module's rank, the instance size, the lead's rank and the serving context, as of START (R237). -/
def State.rank (s : State) (p : Nat) : Nat := s.eff' (pk 0x5832 (p + 1))
/-- The instance size (R237). -/
def State.instSize (s : State) (p : Nat) : Nat := s.eff' (pk 0x5831 (p + 1))
/-- The lead's rank (R237). -/
def State.leadRank (s : State) (p : Nat) : Nat := s.eff' (pk 0x5833 (p + 1))
/-- The serving context (R237). -/
def State.servCtx (s : State) (p : Nat) : Nat := s.eff' (pk 0x5834 (p + 1))
/-- This module is the lead of a partition's instance. -/
def State.isLead (s : State) (p : Nat) : Bool := s.rank p == s.leadRank p

/-! ## Engines and units -/

/-- The kind of an engine number; none for the undefined numbers of R310. -/
def engineKind (e : Nat) : Option Kind :=
  if e < 48 then some .press
  else if e < 64 then some .draw
  else if e < 76 then some .stack
  else if e < 80 then none
  else if e < 96 then some .relay
  else if e < 100 then some .router
  else if e < 128 then none
  else if e < 192 then some .codec
  else none

/-- The region of an engine (R15, R66, R310). -/
def engineRegion (e : Nat) : Nat :=
  if e < 48 then e / 12
  else if e < 64 then (e - 48) / 4
  else if e < 76 then (e - 64) / 3
  else if e < 96 then (e - 80) / 4
  else if e < 100 then e - 96
  else (e - 128) / 16

/-- The engine numbers of R310. -/
def allEngines : List Nat :=
  List.range 76 ++ (List.range 20).map (· + 80) ++ (List.range 64).map (· + 128)

/-- The state of an engine. -/
def State.engine (s : State) (e : Nat) : EngineSt := (lookup s.engines e).getD EngineSt.idle

def State.setEngine (s : State) (e : Nat) (v : EngineSt) : State :=
  { s with engines := setC (fun _ => EngineSt.idle) s.engines e v }

def setEngine (e : Nat) (f : EngineSt → EngineSt) : M Unit :=
  modify fun s => s.setEngine e (f (s.engine e))

/-- UnitKind codes (R406). -/
def ukCell : Nat := 0x0
def ukBlock : Nat := 0x1
def ukAttnCore : Nat := 0x2
def ukStackEngine : Nat := 0x3
def ukRelay : Nat := 0x4
def ukRouter : Nat := 0x5
def ukCodec : Nat := 0x6
def ukDirector : Nat := 0x7
def ukLoftBank : Nat := 0x8
def ukDie : Nat := 0x9
def ukLane : Nat := 0xA
def ukPhase : Nat := 0xB
def ukStage : Nat := 0xC
def ukMesh : Nat := 0xD
def ukIo : Nat := 0xE
def ukVault : Nat := 0xF

/-- The UnitKind of an engine (R406). -/
def engineUnitKind (e : Nat) : Nat :=
  match engineKind e with
  | some .press => ukBlock
  | some .draw => ukBlock
  | some .stack => ukStackEngine
  | some .relay => ukRelay
  | some .router => ukRouter
  | some .codec => ukCodec
  | none => ukMesh

/-- The fault level of an engine's own records (R542): 1 for a block, 3 for a stack engine, 2 otherwise. -/
def engineLevel (e : Nat) : Nat :=
  if e < 64 then 1 else if e < 76 then 3 else 2

/-- The number within its region of the physical unit that holds an engine number at reset (R406). -/
def engineUnit (e : Nat) : Nat :=
  if e < 48 then e % 12
  else if e < 64 then 13 + (e - 48) % 4
  else if e < 76 then 18 + (e - 64) % 3
  else if e < 96 then 21 + (e - 80) % 4
  else if e < 100 then 25
  else (e - 128) % 16

/-- The Physical field of R406. -/
def physical (region unit sub : Nat) : Nat := region % 4 * 2 ^ 14 + unit % 32 * 2 ^ 9 + sub % 32 * 2 ^ 4

/-- The key of a logical unit in the map of physical positions. -/
def unitKey (kind logical sub : Nat) : Nat := (kind * 256 + logical) * 32 + sub

/-- The physical unit of an engine within its region: its own number unless a spare block took it over. -/
def State.engPhys (s : State) (e : Nat) : Nat :=
  match lookup s.phys (unitKey ukBlock e 31) with
  | some u => u
  | none => engineUnit e

/-- The Physical field of an engine. -/
def State.engPhysical (s : State) (e sub : Nat) : Nat := physical (engineRegion e) (s.engPhys e) sub

/-- The physical cell or attention core that holds a logical one; sub-unit 31 is the spare, at reset the highest number. -/
def State.subPhys (s : State) (kind logical sub : Nat) : Nat :=
  (lookup s.phys (unitKey kind logical sub)).getD (if sub == 31 then (if kind == ukAttnCore || kind == ukDirector then 8 else 16) else sub)

def State.setPhys (s : State) (kind logical sub v : Nat) : State :=
  { s with phys := insertAt s.phys (unitKey kind logical sub) v }

/-! ## Faults -/

/-- The fields of a fault record (R406) that its writer supplies. -/
structure FaultRec where
  kind     : Nat
  level    : Nat
  unit     : Nat
  logical  : Nat
  physical : Nat
  action   : Nat
  p        : Nat := 0
  ctx      : Nat := 0
  addr     : Nat := 0
  occ      : Nat := 1
  sub      : Nat := 0
  detail   : Nat := 0
deriving DecidableEq, Repr

/-- The 32 B fault record (R406), bit 0 least significant. -/
def FaultRec.word (r : FaultRec) (time : Nat) : Nat :=
  time % 2 ^ 64 * 2 ^ 192 + r.kind % 256 * 2 ^ 184 + r.level % 4 * 2 ^ 182 + r.unit % 16 * 2 ^ 178
    + r.logical % 256 * 2 ^ 170 + r.physical % 2 ^ 16 * 2 ^ 154 + r.action % 16 * 2 ^ 150 + r.p % 8 * 2 ^ 147
    + r.ctx % 256 * 2 ^ 139 + r.addr % 2 ^ 64 * 2 ^ 64 + r.occ % 2 ^ 24 * 2 ^ 40 + r.sub % 32 * 2 ^ 35
    + r.detail % 2 ^ 35

/-- Actions of R406. -/
def actCounted : Nat := 0x0
def actCorrected : Nat := 0x1
def actReissued : Nat := 0x2
def actSpared : Nat := 0x3
def actRetired : Nat := 0x4
def actReset : Nat := 0x5
def actPoisoned : Nat := 0x6
def actRestored : Nat := 0x7
def actRefetched : Nat := 0x8
def actEscalated : Nat := 0x9
def actFatal : Nat := 0xA

/-- Sets bits of FLT_PENDING (R471). -/
def State.pend (s : State) (i : Nat) : State := if bit s.fltPending i then s else { s with fltPending := s.fltPending + 2 ^ i }

/-- Writes a fault record (R405): into the ring of 4,096, counted, and due for the flash copy. -/
def State.recordFault (s : State) (r : FaultRec) : State :=
  let full := decide (4096 ≤ s.faultLog.length)
  let s1 := { s with
    faultLog := (if full then s.faultLog.drop 1 else s.faultLog) ++ [r.word s.now]
    flashDue := some (s.flashDue.getD s.now) }
  let s2 := s1.bump (pk 0x7100 1) 1
  (if full then s2.bump (pk 0x8052 13) 1 else s2).pend 0

/-- Writes a fault record. -/
def recordFault (r : FaultRec) : M Unit := modify fun s => s.recordFault r

/-- The key of a Reliability count: unit kind, physical position and which count. -/
def relKey (kind phys what : Nat) : Nat := (kind * 2 ^ 16 + phys) * 2 ^ 8 + what

/-- A Reliability count raised (R438). UNVERIFIED (notes/assumptions/49): unsafe. -/
def State.tally (s : State) (key n : Nat) : State :=
  { s with rel := setC (fun _ => 0) s.rel key (getC (fun _ => 0) s.rel key + n) }

/-- One hour of fabric time. -/
def hourNs : Nat := 3600000000000

/-- The buckets of a window of `hours` hours that still count at time t (R413). -/
def liveBuckets (hours t : Nat) (bs : List (Nat × Nat)) : List (Nat × Nat) :=
  bs.filter fun b => decide (t / hourNs < b.1 + hours)

/-- Adds n to a threshold window and answers its new sum (R413: hourly buckets). -/
def windowAdd (key hours n : Nat) : M Nat := fun s =>
  let old := liveBuckets hours s.now ((lookup s.win key).getD [])
  let h := s.now / hourNs
  let bs := match lookup old h with
    | some v => insertAt old h (v + n)
    | none => insertAt old h n
  (bs.foldl (fun a b => a + b.2) 0, { s with win := insertAt s.win key bs })

/-! ## Events -/

/-- The event record of R463. -/
def eventRecord (code p flags seq time detail : Nat) : Nat :=
  code % 2 ^ 16 + p % 256 * 2 ^ 16 + flags % 256 * 2 ^ 24 + seq % 2 ^ 32 * 2 ^ 32 + time % 2 ^ 64 * 2 ^ 64
    + detail % 2 ^ 128 * 2 ^ 128

/-- Queues a record in one slot, not yet sent (R462): up to 256 records, the oldest dropped. DESIGN CHOICE (notes/assumptions/18):
unsafe. -/
def Sub.push (u : Sub) (code p flags time detail : Nat) : Sub :=
  let n := u.queue.length - 255
  { u with
    queue := u.queue.drop n ++ [(0, eventRecord code p flags 0 time detail)], dropped := u.dropped + n, lost := u.lost + n }

/-- Sends what waits in a slot (R462): the waiting records in order, an EventsLost record before them where records were dropped, each
with the next EventSeq up to a limit. Answers the numbered records. DESIGN CHOICE (notes/assumptions/18): unsafe. -/
def Sub.number (u : Sub) (limit time : Nat) : Sub × List (Nat × Nat) :=
  let waiting := (u.queue.filter fun x => x.1 == 0).map Prod.snd
  let new := if waiting.isEmpty || u.lost == 0 then waiting else eventRecord 0xF0 0xFF 0 0 time u.lost :: waiting
  let k := min new.length (limit - u.seq)
  if k == 0 then (u, [])
  else
    let out := ((new.take k).zipIdx).map fun x => (u.seq + 1 + x.2, x.1 + (u.seq + 1 + x.2) % 2 ^ 32 * 2 ^ 32)
    ({ u with
       seq := u.seq + k, lost := 0,
       queue := (u.queue.filter fun x => x.1 != 0) ++ out ++ (new.drop k).map fun r => (0, r) }, out)

def State.hostPort (s : State) (h : Nat) : HostPort := (lookup s.hostPorts h).getD HostPort.reset

def State.setHostPort (s : State) (h : Nat) (v : HostPort) : State :=
  { s with hostPorts := setC (fun _ => HostPort.reset) s.hostPorts h v }

def setHostPort (h : Nat) (f : HostPort → HostPort) : M Unit :=
  modify fun s => s.setHostPort h (f (s.hostPort h))

/-- Sends a message. DESIGN CHOICE (notes/assumptions/51): safe. -/
def emit (o : Out) : M Unit := modify fun s => { s with out := s.out ++ [o] }

/-- Sends an MSI-X message (R476): nothing while MSI-X is disabled; a masked vector (mask bit 96 of its entry, set in an
entry never written) sets its pending bit. -/
def sendMsix (h vector : Nat) : M Unit := do
  let s ← get
  let hp := s.hostPort h
  if hp.up && hp.msixOn then
    match lookup hp.msix vector with
    | some e =>
      if hp.fmask || bit e 96 then setHostPort h fun q => { q with pba := if q.pba.contains vector then q.pba else q.pba ++ [vector] }
      else emit (.msix h vector)
    | none => setHostPort h fun q => { q with pba := if q.pba.contains vector then q.pba else q.pba ++ [vector] }
  else skip

/-- Bytes written into a byte buffer. -/
def putBytes (buf : List Host.Cell) (at' : Nat) : List Nat → List Host.Cell
  | [] => buf
  | b :: bs => putBytes (setC (fun _ => 0) buf at' (BitVec.ofNat 8 b)) (at' + 1) bs

/-- The first n bytes of a buffer from an offset. -/
def getBytes (buf : List Host.Cell) (at' n : Nat) : List Nat :=
  (List.range n).map fun i => (getC (fun _ => 0) buf (at' + i)).toNat

/-- Whether the module's state delivers an event to a subscriber (R464): the island delivers only
ModuleStateChanged, ModuleFatal and DumpReady, to halyard subscribers. -/
def State.delivers (s : State) (code path : Nat) : Bool :=
  match s.mode with
  | .selftest | .training | .ready | .serving | .draining => true
  | .fenced | .safe | .removable | .boot => path == 1 && (code == 0x50 || code == 0x48 || code == 0x47)
  | .off | .precharge => false

/-- EVENT PDUs of a slot, of up to 32 records each, tagged while the subscribing session is open (R462). DESIGN CHOICE
(notes/assumptions/18): unsafe. -/
def sendRecords (slot : Nat) (u : Sub) (rs : List Nat) : M Unit := do
  let s ← get
  each (List.range (ceilDiv rs.length 32)) fun i =>
    emit (.event slot (s.elo.sessions.any fun x => x.id == u.session) ((rs.drop (32 * i)).take 32))

/-- Delivers what waits in a slot (R462): EVENT PDUs on the halyard and UDP while the slot has not stopped, or records into the ring
of the host mailbox, up to 128 not acknowledged. DESIGN CHOICE (notes/assumptions/18): unsafe. -/
def deliverSlot (slot : Nat) : M Unit := do
  let s ← get
  match lookup s.subs slot with
  | none => skip
  | some u =>
    let v := u.number (if u.path == 2 then u.delivered + 128 else u.seq + 512) s.now
    if v.2.isEmpty || (u.path != 2 && decide (10 ≤ u.resends)) then skip
    else do
      modify fun t => { t with subs := insertAt t.subs slot { v.1 with lastSend := t.now } }
      bump (pk 0x8053 5) v.2.length
      if u.path == 2 then do
        each v.2 fun x => setHostPort u.dest fun q =>
          { q with evt := putBytes q.evt ((x.1 - 1) % 128 * 32) (toBytes x.2 32), evtHead := x.1 }
        sendMsix u.dest (s.par (pk 0x4803 (u.dest + 1)))
      else sendRecords slot v.1 (v.2.map Prod.snd)

/-- The bit of FLT_PENDING that an event also sets (R471). DEDUCED (notes/assumptions/12): unsafe. -/
def eventBit (code : Nat) : Option Nat :=
  match code with
  | 0x40 => some 1
  | 0x41 => some 2
  | 0x47 => some 4
  | 0x48 => some 5
  | _ => none

/-- Raises an event (R461 to R463): queued in, and delivered from, every slot whose mask has the code. DEDUCED (notes/assumptions/12):
unsafe. -/
def raiseEvent (code p flags detail : Nat) : M Unit := do
  match eventBit code with
  | some i => modify fun s => s.pend i
  | none => skip
  let s ← get
  each (s.subs.filter fun u => u.2.path != 0 && bit u.2.mask code && s.delivers code u.2.path) fun u => do
    let v := u.2.push code p flags s.now detail
    modify fun s => { s with subs := insertAt s.subs u.1 v }
    bump (pk 0x8053 6) (v.dropped - u.2.dropped)
    deliverSlot u.1

/-! ## The address map -/

/-- The target of a module address (R96). -/
inductive Tier where
  | stack (s : Nat)
  | loft (r : Nat)
  | vault
  | host (h : Nat)
  | reserved
deriving DecidableEq, Repr

/-- The address map of R96: the unmapped rest of a loft aperture is reserved. -/
def tierOf (a : Nat) : Tier :=
  if a < 0xC000000000 then .stack (a / 0x1000000000)
  else if a < 0x10000000000 then .reserved
  else if a < 0x10100000000 then
    if (a - 0x10000000000) % 0x40000000 < 0x30000000 then .loft ((a - 0x10000000000) / 0x40000000) else .reserved
  else if a < 0x100000000000 then .reserved
  else if a < 0x200000000000 then .vault
  else if a < 0x400000000000 then .reserved
  else if a < 0x800000000000 then .host ((a - 0x400000000000) / 0x100000000000)
  else .reserved

def Tier.isT0T1 : Tier → Bool
  | .stack _ => true
  | .loft _ => true
  | .vault => false
  | .host _ => false
  | .reserved => false

def Tier.isT1 : Tier → Bool
  | .stack _ => true
  | .loft _ => false
  | .vault => false
  | .host _ => false
  | .reserved => false

def Tier.isHost : Tier → Bool
  | .stack _ => false
  | .loft _ => false
  | .vault => false
  | .host _ => true
  | .reserved => false

/-- The system area of a stack is its top SystemAreaSize (R110), at the size in force since BOOT. -/
def State.inSystem (s : State) (a : Nat) : Bool :=
  match tierOf a with
  | .stack _ => decide (0x1000000000 - s.eff' 0x510000 * 0x100000 ≤ a % 0x1000000000)
  | _ => false

/-- The address of the first byte of a stack's system area. -/
def State.sysBase (s : State) (stack : Nat) : Nat := (stack + 1) * 0x1000000000 - s.eff' 0x510000 * 0x100000

/-- A host window is down (R475). -/
def State.windowDown (s : State) (h : Nat) : Bool :=
  let q := s.hostPort h
  !(q.window % 2 == 1 && q.bme && !q.d3 && q.up)

/-- A ring's address is not in a window that is down (R478). -/
def State.ringUp (s : State) (a : Nat) : Bool :=
  match tierOf a with
  | .host h => !s.windowDown h
  | _ => true

/-- Where a byte is kept: its module address, or for a host window the host bus address (R475) of its port. DESIGN CHOICE
(notes/assumptions/28): unsafe. -/
def State.cellKey (s : State) (a : Nat) : Nat :=
  match tierOf a with
  | .host h =>
    2 ^ 64 * (h + 1) + ((s.hostPort h).window / 4096 * 4096 + (a - 0x400000000000) % 0x100000000000) % 2 ^ 64
  | _ => a

/-- One stored byte of memory. What nothing has written reads as 0. DESIGN CHOICE (notes/assumptions/5): unsafe. -/
def State.byte (s : State) (a : Nat) : Byte := getC (fun _ => 0) s.mem (s.cellKey a)

/-- The state with one byte of memory replaced; a byte of 0 is listed no more. DESIGN CHOICE (notes/assumptions/5): unsafe. -/
def State.setByte (s : State) (a : Nat) (b : Byte) : State :=
  { s with mem := setC (fun _ => 0) s.mem (s.cellKey a) b }

/-- Who makes an access (R34): an engine of a kind for a partition, or the Director. -/
inductive Who where
  | engine (k : Kind) (e p : Nat)
  | director
  /-- an engine on the module's own structures in the system area (R110), one among several -/
  | structures
  /-- engine e on structures in the system area, in the tiers that it reaches (R34, R110) -/
  | system (k : Kind) (e : Nat)
  /-- the Director on a request, cancel or completion ring (R200) -/
  | rings
  /-- a cue of a partition's command, which any engine kind waits on and signals (R99, R317) -/
  | cue (p : Nat)
deriving DecidableEq, Repr

/-- The access a command's cue is made with (R317). DEDUCED (notes/assumptions/15): unsafe. -/
def Who.cueOf : Who → Who
  | .engine _ _ p => .cue p
  | .director => .director
  | .structures => .structures
  | .system k e => .system k e
  | .rings => .rings
  | .cue p => .cue p

/-- An engine kind reaches a tier (R34). -/
def reaches (k : Kind) (e : Nat) (write : Bool) : Tier → Bool
  | .stack st =>
    match k with
    | .press | .draw | .relay | .codec => true
    | .stack => st == e - 64
    | .router => !write
  | .loft _ =>
    match k with
    | .press | .draw | .relay | .codec | .router => true
    | .stack => false
  | .vault =>
    match k with
    | .relay => !write
    | .press | .draw | .stack | .router | .codec => false
  | .host _ =>
    match k with
    | .relay => true
    | .press | .draw | .stack | .router | .codec => false
  | .reserved => false

/-- An accepted placement of partition p holds the address (R123). -/
def State.placed (s : State) (p a : Nat) : Bool :=
  ((lookup s.places p).getD []).any fun q => decide (q.addr ≤ a) && decide (a < q.addr + q.size)

/-- The vault area of partition p holds the address (R116), at the base and size in force since BOOT. -/
def State.inVaultArea (s : State) (p a : Nat) : Bool :=
  let base := 0x100000000000 + s.eff' (pk 0x7812 (p + 1)) * 2 ^ 30
  decide (base ≤ a) && decide (a < base + s.eff' (pk 0x7813 (p + 1)) * 2 ^ 30)

/-- A load is RUNNING into the vault area of partition p (R119). -/
def State.vaultBusy (s : State) (p : Nat) : Bool :=
  match s.vaultLoad with
  | some v => v.part == p && s.par (pk 0x7811 1) == 2
  | none => false

/-- An access to a byte is allowed (R34, R97, R116, R123). -/
def State.mayAccess (s : State) (w : Who) (write : Bool) (a : Nat) : Bool :=
  let t := tierOf a
  match w with
  | .engine k e p =>
    reaches k e write t &&
      (match t with
       | .vault => s.inVaultArea p a
       | .stack _ | .loft _ | .host _ => s.placed p a
       | .reserved => false)
  | .director =>
    match t with
    | .stack _ | .host _ => true
    | .loft _ => !write
    | .vault | .reserved => false
  | .structures => t.isT0T1
  | .system k e => t.isT0T1 && reaches k e write t
  | .rings => t.isT1 || t.isHost
  | .cue p => t.isT0T1 && s.placed p a

/-- A byte as an access reads it: 0 where the access is not allowed (R97), all ones in a window that is down (R98). -/
def State.readByte (s : State) (w : Who) (a : Nat) : Nat :=
  if s.mayAccess w false a then
    match tierOf a with
    | .host h => if s.windowDown h then 255 else (s.byte a).toNat
    | _ => (s.byte a).toNat
  else 0

/-- The n bytes at a. -/
def State.readVal (s : State) (w : Who) (a n : Nat) : Nat :=
  ofBytes ((List.range n).map fun i => s.readByte w (a + i))

/-- The codewords that an extent covers, from its first to its last. -/
def codewords (a n : Nat) : List Nat :=
  if n == 0 then [] else (List.range ((a + n - 1) / 32 - a / 32 + 1)).map (· + a / 32)

/-- The logical die that holds a stack address, as 16 stack + die (R108). -/
def dieOf (a : Nat) : Nat := a / 0x1000000000 * 16 + a % 0x1000000000 / 512 % 16

/-- A codeword of a die that failed without warning is uncorrectable until it is written whole, and in any case until the
spare has taken over (R112). -/
def State.dieDead (s : State) (c : Nat) : Bool :=
  match tierOf (c * 32) with
  | .stack st =>
    match lookup s.dead (dieOf (c * 32)) with
    | some healed => (match lookup s.dieCopies st with | some q => 16 * st + q.die == dieOf (c * 32) | none => false)
        || !healed.contains c
    | none => false
  | .loft _ => false
  | .vault => false
  | .host _ => false
  | .reserved => false

/-- A codeword is uncorrectable. DESIGN CHOICE (notes/assumptions/6): safe. -/
def State.badAt (s : State) (c : Nat) : Bool := (lookup s.poison c).isSome || s.dieDead c

/-- The poisoned codewords of an allowed extent (R106). -/
def State.badCodewords (s : State) (w : Who) (a n : Nat) : List Nat :=
  let listed := (s.poison.map Prod.fst).filter fun c =>
    decide (a < c * 32 + 32) && decide (c * 32 < a + n) && s.mayAccess w false (max a (c * 32))
  if s.dead.isEmpty then listed
  else listed ++ (codewords a n).filter fun c =>
    s.dieDead c && (lookup s.poison c).isNone && s.mayAccess w false (max a (c * 32))

/-- The place of R405 whose list of uncorrectable codewords an address belongs to: a stack, a loft or the vault. -/
def uePlace (a : Nat) : Nat :=
  match tierOf a with
  | .stack s => s
  | .loft r => 12 + r
  | .vault => 16
  | .host _ => 17
  | .reserved => 17

/-- The place of a loft address (R101): its die, its bank, and the line within the bank. -/
structure LoftPlace where
  die  : Nat
  bank : Nat
  line : Nat
deriving DecidableEq, Repr

/-- Where a loft address lies (R101). -/
def loftBank (a : Nat) : LoftPlace :=
  let l := (a - 0x10000000000) % 0x40000000 / 64
  ⟨l % 3, l / 3 % 128, l / 384⟩

/-! ## Stack dies and loft banks -/

def dieStateKey (stack : Nat) : Nat := pk 0x7010 (stack + 1)

/-- The Physical field of a stack die. -/
def State.diePhysical (s : State) (stack die : Nat) : Nat :=
  physical (stack / 3) (18 + stack % 3) (s.subPhys ukDie (64 + stack) die)

/-- The fault record of an uncorrectable codeword (R405, R406). -/
def State.ueRecord (s : State) (a action : Nat) : FaultRec :=
  match tierOf a with
  | .stack st => ⟨0x0B, 3, ukDie, 64 + st, s.diePhysical st (dieOf a % 16), action, 0, 0, a, 1, dieOf a % 16, 0⟩
  | .loft r => ⟨0x09, 2, ukLoftBank, 0xFF, physical r (loftBank a).die 0, action, 0, 0, a, 1, 0, 0⟩
  | _ => ⟨0x12, 3, ukVault, 0xFF, physical 3 0 0, action, 0, 0, a, 1, 0, 0⟩

/-- A record that names a codeword of a partition's context (R405). -/
def recordUe (a action p ctx : Nat) : M Unit := modify fun s => s.recordFault { s.ueRecord a action with p := p, ctx := ctx }

/-- Die sparing starts (R111): no effect for a stack whose spare is in use. -/
def dieSpareStart (stack die : Nat) : M Unit := do
  let s ← get
  if s.par (dieStateKey stack) == 0 && stack < 12 && die < 16 then do
    setPar (dieStateKey stack) 1
    modify fun t => { t with dieCopies := insertAt t.dieCopies stack ⟨die, false⟩ }
  else skip

/-- The record of a die (R542). -/
def State.dieRecord (s : State) (stack die action : Nat) : FaultRec :=
  ⟨0x0B, 3, ukDie, 64 + stack, s.diePhysical stack die, action, 0, 0, 0, 1, die, 0⟩

/-- A die is at or past a threshold of R413: sparing starts, or with the spare in use a record is written as it reaches the threshold,
and the stack goes on (R113). -/
def dieThreshold (stack die : Nat) (reached : Bool) : M Unit := do
  let s ← get
  if s.par (dieStateKey stack) == 0 then dieSpareStart stack die
  else if (match lookup s.dieCopies stack with | some q => q.die == die | none => false) then skip
  else onlyIf reached (recordFault (s.dieRecord stack die actCounted))

/-- Whether a count of R413 comes to stand at or above its threshold, where it stood below it before. -/
def noteReached (key : Nat) (on : Bool) : M Bool := fun s =>
  let had := s.ecc.reached.contains key
  (on && !had, if on = had then s else { s with ecc := { s.ecc with
    reached := if on then key :: s.ecc.reached else s.ecc.reached.filter (· != key) } })

/-- A newly found uncorrectable codeword counts in the Reliability area (R405, R438). -/
def tallyUe (a : Nat) : M Unit := do
  let s ← get
  match tierOf a with
  | .stack st => modify fun t => t.tally (relKey ukDie (s.diePhysical st (dieOf a % 16)) 1) 1
  | .loft r =>
    let b := loftBank a
    modify fun t => t.tally (relKey ukLoftBank (r * 2 ^ 9 + b.die * 2 ^ 7 + b.bank) 1) 1
  | .vault => skip
  | .host _ => skip
  | .reserved => skip

/-- A codeword that enters the list of uncorrectable codewords counts against its die (R405, R413): its record, and a die that reaches
its threshold. -/
def listUe (a : Nat) : M Unit := do
  let s ← get
  match tierOf a with
  | .stack st => do
    let key := relKey ukDie (s.diePhysical st (dieOf a % 16)) 1
    let n ← windowAdd key 24 1
    modify fun t => t.recordFault { t.ueRecord a actPoisoned with occ := n }
    let on := decide (s.par (pk 0x7024 0) ≤ n)
    let new ← noteReached key on
    onlyIf on (dieThreshold st (dieOf a % 16) new)
  | .loft _ => recordUe a actPoisoned 0 0
  | .vault => recordUe a actPoisoned 0 0
  | .host _ => skip
  | .reserved => skip

/-- A reader finds an uncorrectable codeword (R405): its record is written once; a full list of 65,536 writes one record with Action
COUNTED and then none, and what is found further counts in the Reliability area. DEDUCED (notes/assumptions/21): unsafe. -/
def findCodeword (c : Nat) : M Unit := do
  let s ← get
  match (lookup s.poison c).getD (!s.dieDead c) with
  | false =>
    let pl := uePlace (c * 32)
    if pl == 17 then modify fun t => { t with poison := insertAt t.poison c true }
    else
    let known := (s.poison.filter fun x => x.2 && uePlace (x.1 * 32) == pl).length
    if known < 65536 then do
      modify fun t => { t with poison := insertAt t.poison c true, ueFull := t.ueFull.filter (· != pl),
                               ecc := { t.ecc with beyond := t.ecc.beyond.filter (· != c) } }
      onlyIf (!s.ecc.beyond.contains c) (tallyUe (c * 32))
      listUe (c * 32)
    else do
      onlyIf (!s.ecc.beyond.contains c) (do
        modify fun t => { t with ecc := { t.ecc with beyond := c :: t.ecc.beyond } }
        tallyUe (c * 32))
      if s.ueFull.contains pl then skip
      else do
        modify fun t => { t with ueFull := t.ueFull ++ [pl] }
        recordUe (c * 32) actCounted 0 0
  | true => skip

/-! ## The symbol code (R104, R105) -/

/-- Multiplication by α in GF(2^8) with the polynomial of R104. -/
def gfDouble (x : Nat) : Nat := if x < 128 then 2 * x else (2 * x) ^^^ 0x11D

/-- Multiplication by α^n. -/
def gfPow : Nat → Nat → Nat
  | 0, x => x
  | n + 1, x => gfPow n (gfDouble x)

/-- The byte position of symbol i in the codeword polynomial, and the value of a 4-bit error there (R104). -/
def symbolAt (i e : Nat) : Nat × Nat :=
  if i < 64 then (i + 4, e % 16) else ((i - 64) / 2, if i % 2 == 0 then e % 16 else e % 16 * 16)

/-- Syndrome j of an error pattern: symbols and their 4-bit errors. -/
def syndrome (errs : List (Nat × Nat)) (j : Nat) : Nat :=
  errs.foldl (fun a x => let y := symbolAt x.1 x.2; a ^^^ gfPow (j * y.1) y.2) 0

/-- What a read makes of an error pattern. -/
inductive Verdict where
  | clean
  /-- a single byte error at a position, with its value -/
  | corrected (pos val : Nat)
  | uncorrectable
deriving DecidableEq, Repr

/-- The decoder of R105: a single byte error among the 68 positions, not with a data symbol whose corrected byte would have a
non-zero upper half. -/
def decodeErrors (errs : List (Nat × Nat)) : Verdict :=
  let s0 := syndrome errs 0
  let s1 := syndrome errs 1
  let s2 := syndrome errs 2
  let s3 := syndrome errs 3
  if s0 == 0 && s1 == 0 && s2 == 0 && s3 == 0 then .clean
  else
    match (List.range 68).find? fun p => s0 != 0 && s1 == gfPow p s0 && s2 == gfPow p s1 && s3 == gfPow p s2 with
    | none => .uncorrectable
    | some p => if 4 ≤ p && 16 ≤ s0 then .uncorrectable else .corrected p s0

/-- The 4-bit errors of the data symbols as one 256-bit number. -/
def dataErrors (errs : List (Nat × Nat)) : Nat :=
  (errs.filter fun x => decide (x.1 < 64)).foldl (fun a x => a ^^^ (x.2 % 16 * 16 ^ x.1)) 0

/-- Detail of a stack or loft record (R406): the failing symbol positions. -/
def symbolDetail (errs : List (Nat × Nat)) : Nat :=
  match errs with
  | [] => 0
  | [x] => x.1
  | x :: y :: _ => x.1 + y.1 * 128

/-- A corrected codeword counts against its die and DQ, or its loft bank, whose event the next tick raises (R413, R438). DESIGN CHOICE
(notes/assumptions/6): safe. -/
def countCorrected (a : Nat) (errs : List (Nat × Nat)) : M Unit := do
  let s ← get
  match tierOf a with
  | .stack st => do
    let die := dieOf a % 16
    let ph := s.diePhysical st die
    bump (pk 0x8042 2) 1
    modify fun t => t.tally (relKey ukDie ph 0) 1
    let n ← windowAdd (relKey ukDie ph 0) 24 1
    let dq ← match errs with
      | [x] => windowAdd (relKey ukDie ph (0x80 + x.1)) 24 1
      | _ => pure 0
    modify fun t => { t with rel := setC (fun _ => 0) t.rel (relKey ukDie ph 2) (max dq (getC (fun _ => 0) t.rel (relKey ukDie ph 2))) }
    recordFault ⟨0x0A, 3, ukDie, 64 + st, ph, actCorrected, 0, 0, a, n, die, symbolDetail errs⟩
    let ce := decide (s.par (pk 0x7023 0) ≤ n)
    let new1 ← noteReached (relKey ukDie ph 0) ce
    let new2 ← noteReached (relKey ukDie ph 2) (decide (s.par (pk 0x7025 0) ≤ dq))
    onlyIf (ce || decide (s.par (pk 0x7025 0) ≤ dq)) (dieThreshold st die (new1 || new2))
  | .loft r => do
    let b := loftBank a
    let key := relKey ukLoftBank (r * 2 ^ 9 + b.die * 2 ^ 7 + b.bank) 0
    bump (pk 0x8042 1) 1
    modify fun t => t.tally key 1
    let n ← windowAdd key 24 1
    recordFault ⟨0x08, 2, ukLoftBank, 0xFF, physical r b.die 0, actCorrected, 0, 0, a, n, 0, symbolDetail errs⟩
    let new ← noteReached key (decide (s.par (pk 0x7026 0) ≤ n))
    onlyIf new (do
      recordFault ⟨0x08, 2, ukLoftBank, 0xFF, physical r b.die 0, actCounted, 0, 0, a, n, 0, 0⟩
      modify fun t => { t with ecc := { t.ecc with weak := t.ecc.weak ++ [r + b.die * 256 + b.bank * 65536] } })
  | .vault => skip
  | .host _ => skip
  | .reserved => skip


/-- What a decoder adds to the data of a codeword whose errors it takes for `errs`. -/
def fixOf (errs : List (Nat × Nat)) : Nat :=
  match decodeErrors errs with
  | .corrected pos val => if 4 ≤ pos then val * 16 ^ (pos - 4) else 0
  | .clean => 0
  | .uncorrectable => 0

/-- The errors with which a codeword is stored. -/
def State.flawsOf (s : State) (c : Nat) : List (Nat × Nat) := (lookup s.ecc.flaws c).getD []

/-- Symbols of a codeword of a stack, the loft or the vault go wrong (R104, R105): it is stored with a correctable error, with errors
that the code does not see or that it corrects at the wrong symbols, or it is uncorrectable. Memory holds what a read would deliver.
DESIGN CHOICE (notes/assumptions/6): safe. -/
def State.strike (s : State) (c : Nat) (errs : List (Nat × Nat)) : State :=
  if s.badAt c || errs.isEmpty || uePlace (c * 32) == 17 then s
  else
    let old := s.flawsOf c
    let all := old ++ errs
    let d := ofBytes ((List.range 32).map fun i => (s.byte (c * 32 + i)).toNat) ^^^ fixOf old ^^^ dataErrors errs ^^^ fixOf all
    let t := ((toBytes d 32).zipIdx).foldl (fun t b => t.setByte (c * 32 + b.2) (BitVec.ofNat 8 b.1)) s
    match decodeErrors all with
    | .clean => { t with ecc := { t.ecc with flaws := eraseKey t.ecc.flaws c } }
    | .corrected _ _ => { t with ecc := { t.ecc with flaws := insertAt t.ecc.flaws c all } }
    | .uncorrectable => { s with ecc := { s.ecc with flaws := eraseKey s.ecc.flaws c }, poison := insertAt s.poison c false }

/-- The codewords of an allowed extent that a read corrects: those of stacks and the loft (R105). -/
def State.flawed (s : State) (w : Who) (a n : Nat) : List (Nat × List (Nat × Nat)) :=
  s.ecc.flaws.filter fun x =>
    decide (a < x.1 * 32 + 32) && decide (x.1 * 32 < a + n) && (tierOf (x.1 * 32)).isT0T1 && !s.badAt x.1
      && s.mayAccess w false (max a (x.1 * 32))

/-- A corrected codeword is written back and counted (R105). -/
def correct (x : Nat × List (Nat × Nat)) : M Unit := do
  modify fun s => { s with ecc := { s.ecc with flaws := eraseKey s.ecc.flaws x.1 } }
  countCorrected (x.1 * 32) x.2

/-! ## Storyboards and the second fetch (R107, R125) -/

/-- Fields of a storyboard header and of its entries (R125). -/
def hdrLayerCue (h : Nat) : Nat := bits h 511 451 * 8
def hdrCueBase (h : Nat) : Nat := bits h 450 390 * 8
def hdrCount (h : Nat) : Nat := bits h 389 366
def hdrLayers (h : Nat) : Nat := clampTo 1 4095 (bits h 365 354)

def enSrc (e : Nat) : Nat := bits e 255 198 * 64
def enDst (e : Nat) : Nat := bits e 197 140 * 64
def enLength (e : Nat) : Nat := max 1 (bits e 139 116) * 64
def enLayer (h e : Nat) : Nat := min (bits e 115 104) (hdrLayers h - 1)
def enLead (e : Nat) : Nat := bits e 103 102
def enExpert (e : Nat) : Nat := bits e 101 90
def enGated (e : Nat) : Bool := bit e 89
def enCodec (e : Nat) : Bool := bit e 88
def enCue (e : Nat) : Nat := bits e 87 76

/-- The region whose relay engines run an entry: its destination's; region 0 for an entry whose destination is no loft. DESIGN CHOICE
(notes/assumptions/53): unsafe. -/
def enRegion (e : Nat) : Nat :=
  match tierOf (enDst e) with
  | .loft r => r
  | _ => 0

/-- The relay engine of a region that runs storyboard entries, and its accesses. -/
def storyWho (p region : Nat) : Who := .engine .relay (80 + 4 * region) p

/-- The header and entry i of a partition's storyboard as its relay engines read them (R123). -/
def State.storyHeader (s : State) (p : Nat) (r : StoryRun) : Nat := s.readVal (storyWho p 0) r.addr 64
/-- An entry of a storyboard (R125). -/
def State.storyEntry (s : State) (p : Nat) (r : StoryRun) (i : Nat) : Nat := s.readVal (storyWho p 0) (r.addr + 64 + 32 * i) 32


/-- Changes what a partition's storyboard run holds. -/
def setStory (p : Nat) (f : StoryRun → StoryRun) : M Unit := modify fun s => { s with stories := adjust s.stories p f }

/-- A storyboard header or entry is poisoned (R543): a record, and the step is broken off. -/
def storyBad (p a : Nat) : M Unit := do
  recordUe a actPoisoned p 0
  setInst p fun i => { i with broken := true }

/-- The entry of a storyboard run that wrote a loft codeword last. -/
def State.storyWrote (s : State) (p : Nat) (r : StoryRun) (c : Nat) : Option Nat :=
  r.wrote.reverse.find? fun i =>
    let e := s.storyEntry p r i
    decide (enDst e ≤ c * 32) && decide (c * 32 < enDst e + enLength e)

/-- The partition and the entry of the running storyboards that wrote a codeword. -/
def State.wroteBy (s : State) (c : Nat) : Option (Nat × Nat) :=
  s.stories.findSome? fun x => (s.storyWrote x.1 x.2 c).map fun i => (x.1, s.storyEntry x.1 x.2 i)

/-- Where a loft codeword is fetched again from (R107): the partition, the entry, and whether the fetch gives good data, as it does where
the source has no uncorrectable codeword; none for a codeword that no storyboard wrote, or whose one fetch failed. -/
def State.refetch (s : State) (c : Nat) : Option (Nat × Nat × Bool) :=
  if s.ecc.tried.contains c && !s.ecc.fetched.contains c then none
  else
    match s.wroteBy c with
    | none => none
    | some (p, e) =>
      let w := storyWho p (enRegion e)
      let bad := if enCodec e then s.badCodewords w (enSrc e) (enLength e) else s.badCodewords w (enSrc e + (c * 32 - enDst e)) 32
      some (p, e, bad.isEmpty)

/-- A byte of a codeword as its second fetch gives it: the source's, or of an expanded entry what the expansion gives again. -/
def State.refetchByte (s : State) (p e a : Nat) : Nat :=
  if enCodec e then (s.byte a).toNat else s.readByte (storyWho p (enRegion e)) (enSrc e + (a - enDst e))

/-- The uncorrectable codewords of an extent that a second fetch makes good (R107). -/
def State.healed (s : State) (l : List Nat) : List (Nat × Nat × Nat) :=
  l.filterMap fun c => match s.refetch c with | some (p, e, true) => some (c, p, e) | _ => none

/-- What a read delivers: the bytes, least significant first, as one number, and the codewords that were poisoned. -/
structure Read where
  val : Nat
  bad : List Nat
deriving DecidableEq, Repr

def Read.poisoned (r : Read) : Bool := !r.bad.isEmpty

/-- Every byte of the extent may be accessed. -/
def State.mayAll (s : State) (w : Who) (write : Bool) (a n : Nat) : Bool :=
  (List.range n).all fun i => s.mayAccess w write (a + i)

/-- The n bytes at a, with the data of the codewords that a second fetch makes good (R107). -/
def State.readHealed (s : State) (w : Who) (a n : Nat) (heal : List (Nat × Nat × Nat)) : Nat :=
  if heal.isEmpty then s.readVal w a n
  else ofBytes ((List.range n).map fun i =>
    match heal.find? fun h => h.1 == (a + i) / 32 with
    | some h => if s.mayAccess w false (a + i) then s.refetchByte h.2.1 h.2.2 (a + i) else 0
    | none => s.readByte w (a + i))

/-- One read access of codewords without correctable errors (R97, R106, R107): an access any part of which is not allowed counts once in
OutOfPlacement, a read that delivers poisoned data counts once in Uncorrectable, and vault bytes count in VaultBytesRead. DESIGN CHOICE
(notes/assumptions/6): safe. DESIGN CHOICE (notes/assumptions/20): safe. -/
def readAccess (w : Who) (a n : Nat) : M Read := do
  let s ← get
  let all := s.badCodewords w a n
  let heal := s.healed all
  let bad := all.filter fun c => !heal.any fun h => h.1 == c
  let r : Read := ⟨s.readHealed w a n heal, bad⟩
  onlyIf (!s.mayAll w false a n) (bump (pk 0x8042 4) 1)
  onlyIf (all.any fun c => (s.refetch c).isSome) (modify fun t => { t with ecc := { t.ecc with
    tried := ((all.filter fun c => (s.refetch c).isSome) ++ t.ecc.tried).eraseDups
    fetched := (heal.map Prod.fst ++ t.ecc.fetched.filter fun c => !bad.contains c).eraseDups } })
  onlyIf (!bad.isEmpty) (do bump (pk 0x8042 3) 1; each bad findCodeword)
  onlyIf (decide (tierOf a = .vault))
    (bump (pk 0x8042 7) ((List.range n).filter fun i => decide (tierOf (a + i) = .vault) && s.mayAccess w false (a + i)).length)
  pure r

/-- One read access: the correctable errors of its codewords are corrected first (R105). -/
def load (w : Who) (a n : Nat) : M Read := do
  let s ← get
  each (s.flawed w a n) correct
  readAccess w a n

/-- A write of a whole codeword leaves no error in it (R103, R105). -/
def EccSt.rewritten (q : EccSt) (c : Nat) : EccSt :=
  { q with flaws := eraseKey q.flaws c, beyond := q.beyond.filter (· != c), fetched := q.fetched.filter (· != c) }

/-- A write of part of a codeword reads, merges and writes it, and corrects it (R103, R105); the correction is yet to be counted. -/
def EccSt.merged (q : EccSt) (c : Nat) : EccSt :=
  match lookup q.flaws c with
  | none => q
  | some errs => { q with flaws := eraseKey q.flaws c, due := q.due ++ [(c, errs)] }

/-- The bytes of one codeword's part of a write put in place: a whole aligned codeword replaces an uncorrectable one,
a part of it does not (R103, R106). -/
def State.storeChunk (s : State) (w : Who) (a : Nat) (bs : List Nat) : State :=
  let c := a / 32
  let whole := a % 32 == 0 && bs.length == 32 && s.mayAll w true a 32
  let s1 := if whole then
      { s with poison := eraseKey s.poison c
               ecc := s.ecc.rewritten c
               dead := if s.dieDead c then adjust s.dead (dieOf a) fun l => c :: l else s.dead }
    else { s with ecc := s.ecc.merged c }
  if (lookup s1.poison c).isSome || (!whole && s1.dieDead c) then s1
  else
    (bs.zipIdx).foldl (fun t b =>
      if s.mayAccess w true (a + b.2) &&
          (match tierOf (a + b.2) with | .host h => !s.windowDown h | _ => true)
      then t.setByte (a + b.2) (BitVec.ofNat 8 b.1) else t) s1

/-- A write cut at codeword boundaries; fuel bounds the codewords. -/
def State.storeBytes (w : Who) : Nat → State → Nat → List Nat → State
  | 0, s, _, _ => s
  | fuel + 1, s, a, bs =>
    if bs.isEmpty then s
    else
      let n := 32 - a % 32
      storeBytes w fuel (s.storeChunk w a (bs.take n)) (a + n) (bs.drop n)

/-- One write access (R97): an access any part of which is not allowed counts once. -/
def store (w : Who) (a : Nat) (bs : List Nat) : M Unit := do
  let s ← get
  onlyIf (!s.mayAll w true a bs.length) (bump (pk 0x8042 4) 1)
  modify fun s => State.storeBytes w (bs.length + 1) s a bs

/-- A number written as n bytes (R5). -/
def storeVal (w : Who) (a n v : Nat) : M Unit := store w a (toBytes v n)

/-- Marks codewords as uncorrectable (R106): a write of poisoned data. -/
def State.poisonCodeword (s : State) (w : Who) (c : Nat) : State :=
  if s.mayAccess w true (c * 32) && s.ringUp (c * 32) then { s with poison := insertAt s.poison c false } else s

/-- Poisoned data written; into a host window it goes with the poison indication, which PoisonedSent counts (R481). DESIGN CHOICE
(notes/assumptions/6): safe. -/
def storePoison (w : Who) (a n : Nat) : M Unit := do
  let s ← get
  onlyIf ((codewords a n).any fun c => (tierOf (c * 32)).isHost && s.ringUp (c * 32) && s.mayAccess w true (c * 32)) (bump (pk 0x48E0 4) 1)
  onlyIf (!s.mayAll w true a n) (bump (pk 0x8042 4) 1)
  modify fun s => (codewords a n).foldl (fun t c => t.poisonCodeword w c) s

/-! ## Atomics and cues -/

/-- A word an atomic may change (R99): 8 B aligned, in T0 or T1, allowed, and not in an uncorrectable codeword. -/
def State.atomicOk (s : State) (w : Who) (a : Nat) : Bool :=
  a % 8 == 0 && (tierOf a).isT0T1 && s.mayAccess w true a && s.mayAccess w false a

/-- An atomic on an 8 B word (R99): answers the word as read; f gives the new word. -/
def atomic (w : Who) (a : Nat) (f : Nat → Nat) : M Read := do
  let s ← get
  let r ← load w a 8
  if s.atomicOk w a && r.bad.isEmpty then do
    modify fun t => State.storeBytes w 9 t a (toBytes (f r.val % 2 ^ 64) 8)
    pure r
  else pure r

/-- Advances a cue by fetch-and-add (R317). Address 0 means no signal; an address outside T0 and T1 or outside the placements discards
it and counts in OutOfPlacement. DEDUCED (notes/assumptions/15): unsafe. -/
def signalCue (w : Who) (a add : Nat) : M Unit := do
  let s ← get
  if a == 0 then skip
  else if s.atomicOk w.cueOf a then do
    let _ ← atomic w.cueOf a (· + add)
    skip
  else bump (pk 0x8042 4) 1

/-- A cue wait holds (R317, R318): no wait at address 0 or outside T0, T1 and the placements; a poisoned word never holds. DEDUCED
(notes/assumptions/15): unsafe. -/
def State.cueHolds (s : State) (w : Who) (a v : Nat) : Bool :=
  if a == 0 || !s.atomicOk w.cueOf a then true
  else !s.badAt (a / 32) && decide (v ≤ s.readVal w.cueOf a 8)

end Sys2Proof.Machine
end

