-- ==== Sys2Proof/Machine/Operands.lean ====
section
/-! DEFINITION. Operands in memory (R47 to R49): format records, rows read as exact values, rows of results written, and
the treatment of poisoned data in them (R409, R543). -/
namespace Sys2Proof.Machine

/-- Which codes a format field accepts (R41). -/
inductive FmtRole where
  | weight | act | out | acc
deriving DecidableEq, Repr

def FmtRole.accepts (r : FmtRole) (code : Nat) : Bool :=
  match r with
  | .weight => decide (1 ≤ code) && decide (code ≤ 0x11)
  | .act => decide (1 ≤ code) && decide (code ≤ 0xF)
  | .out => decide (code ≤ 0xF)
  | .acc => decide (code ≤ 2)

/-- A format code as the field takes it (R41): an undefined code is BF16, a clamp. -/
def FmtRole.fmt (r : FmtRole) (code : Nat) : Fmt × Nat :=
  if r.accepts code then ((Fmt.ofCode code).getD .bf16, 0) else (.bf16, 1)

/-- An operand as its format record describes it (R48), clamped; addresses and pitches in bytes. bad: the record itself
read as poisoned. -/
structure Operand where
  elem       : Nat
  scale      : Nat
  tscale     : Nat
  rowPitch   : Nat
  scalePitch : Nat
  fmt        : Fmt
  bad        : Bool
deriving DecidableEq, Repr

/-- The operand of a format record (R48) with row extent `extent`, and its clamped fields: 0 the format code, 1 RowPitch, 2 ScalePitch
and 3 TensorScale. -/
def operandOf (role : FmtRole) (extent : Nat) (r : Read) : Operand × List Nat :=
  let v := r.val
  let f := role.fmt (bits v 4 0)
  let minRow := ceilDiv (f.1.packedBytes extent) 64
  let minScale := ceilDiv (f.1.scaleBytes extent) 64
  let rp := bits v 95 72
  let sp := bits v 71 48
  let ts := if f.1.isK then clampTensorScale (bits v 127 96) else (f32One, false)
  let hasScale := f.1.block != 0
  (⟨bits v 255 198 * 64, bits v 191 134 * 64, ts.1, max rp minRow * 64, (if hasScale then max sp minScale else 0) * 64, f.1,
    r.poisoned⟩,
   ([f.2 != 0, decide (rp < minRow), hasScale && decide (sp < minScale), ts.2].zipIdx.filter Prod.fst).map Prod.snd)

/-- Fields of format records whose clamps a command has counted: address and field (R10). -/
abbrev Clamped := List (Nat × Nat)

/-- Reads an operand format record. A clamped field counts once in a command (R10), whichever of its operands name the record: not where
it is in `seen`, which is returned with what was counted here. -/
def readOperandOnce (w : Who) (role : FmtRole) (extent addr : Nat) (seen : Clamped) : M (Operand × Clamped) := do
  let r ← load w addr 32
  let o := operandOf role extent r
  let fresh := (o.2.map fun k => (addr, k)).filter fun x => !seen.contains x
  clampDesc fresh.length
  pure (o.1, seen ++ fresh)

/-- Reads an operand format record that its command reads once. -/
def readOperand (w : Who) (role : FmtRole) (extent addr : Nat) : M Operand := do
  let o ← readOperandOnce w role extent addr []
  pure o.1

/-- Reads a format record whose field accepts only some codes; any other is BF16, a clamp. -/
def readCoded (w : Who) (role : FmtRole) (addr extent : Nat) (codes : List Nat) : M Operand := do
  let r ← load w addr 32
  let code := bits r.val 4 0
  let v := if codes.contains code then r.val else setBits r.val 4 0 1
  let o := operandOf role extent { r with val := v }
  clampDesc (o.2.length + b2n (!codes.contains code))
  pure o.1

/-- One group of a row: its element values and its block scale. -/
abbrev RowGroup := List Val × Val

/-- The groups of elements k0 to k0+len-1 of a row, from the row's bytes and scale bytes read from k0 on. k0 is a
multiple of 16 (and of the block size where the format has blocks, or the scale bytes start at k0's block). -/
def groupsOf (f : Fmt) (data scales k0 len : Nat) : List RowGroup :=
  (List.range (ceilDiv len 16)).map fun g =>
    let els := (List.range (min 16 (len - 16 * g))).map fun i => f.dec (unpackCode f.elemBits data (16 * g + i))
    let sc := if f.block == 0 then Val.fin false 1 0
      else f.scaleVal (scales / 256 ^ ((k0 + 16 * g) / f.block - k0 / f.block) % 256)
    (els, sc)

/-- What reading part of a row gives. -/
structure RowRead where
  groups : List RowGroup
  bad    : Bool
deriving DecidableEq, Repr

/-- Reads elements k0 to k0+len-1 of a row, with the block scales that cover them (R49). -/
def readRow (w : Who) (o : Operand) (row k0 len : Nat) : M RowRead := do
  let b0 := k0 * o.fmt.elemBits / 8
  let b1 := ((k0 + len) * o.fmt.elemBits + 7) / 8
  let d ← load w (o.elem + row * o.rowPitch + b0) (b1 - b0)
  let s ← if o.fmt.block == 0 then pure (⟨0, []⟩ : Read)
    else
      load w (o.scale + row * o.scalePitch + k0 / o.fmt.block) ((k0 + len - 1) / o.fmt.block - k0 / o.fmt.block + 1)
  pure ⟨groupsOf o.fmt d.val s.val k0 len, o.bad || d.poisoned || s.poisoned⟩

/-- A row's elements with their block and tensor scales applied: the exact values of a vector command's inputs, each widened to FP32
(R87). FP32 does not hold every product of a K format's element, block scale and tensor scale: the first two are rounded to FP32, and
that value times the tensor scale once more. DESIGN CHOICE (notes/assumptions/45): unsafe. -/
def RowRead.values (r : RowRead) (tscale : Nat) (isK : Bool) : List Nat :=
  r.groups.flatMap fun g => g.1.map fun e =>
    let v := f32Round (blockValue g.2 e)
    if isK then f32Mul v tscale else v

/-- Where the packed codes of columns n0 on of a row start, in bits. -/
def storeCodes (w : Who) (a width : Nat) (codes : List Nat) : M Unit := do
  let s ← get
  let nb := codes.length * width
  let n := (nb + 7) / 8
  let new := ofBytes (packCodes width codes)
  let old := s.readVal w a n
  let merged := if nb % 8 == 0 then new else new % 2 ^ nb + old / 2 ^ nb * 2 ^ nb
  if n == 0 then skip else storeVal w a n merged

/-- Counts conversions (R63). -/
def countConv (c : Conv) : M Unit := do
  bump (pk 0x8040 1) c.sat
  bump (pk 0x8040 2) c.nanW
  bump (pk 0x8040 3) c.nanS
  bump (pk 0x8040 4) c.scl

/-- Marks the codewords that hold the affected outputs as poisoned (R409): those of the affected columns, and of the
scale bytes of their blocks. -/
def poisonOutputs (w : Who) (o : Operand) (row n0 : Nat) (affected : List Bool) : M Unit :=
  each ((affected.zipIdx).filter fun x => x.1) fun x => do
    let col := n0 + x.2
    let b0 := col * o.fmt.elemBits / 8
    let b1 := ((col + 1) * o.fmt.elemBits + 7) / 8
    storePoison w (o.elem + row * o.rowPitch + b0) (b1 - b0)
    if o.fmt.block == 0 then skip
    else storePoison w (o.scale + row * o.scalePitch + col / o.fmt.block) 1

/-- Converts results to the output format and writes them at columns n0 on of a row (R58 to R62, R78). n0 is a multiple of the
format's block size. DEDUCED (notes/assumptions/21): unsafe. -/
def writeOutputs (w : Who) (o : Operand) (row n0 : Nat) (ys : List Nat) (affected : List Bool) : M Unit := do
  let r := convRow o.fmt o.tscale ys
  countConv r.conv
  storeCodes w (o.elem + row * o.rowPitch + n0 * o.fmt.elemBits / 8) o.fmt.elemBits r.codes
  if r.scales.isEmpty then skip else store w (o.scale + row * o.scalePitch + n0 / o.fmt.block) r.scales
  poisonOutputs w o row n0 affected

/-- How a command's work ends: complete, dropped for a poisoned record (R543), or part-way. -/
inductive End where
  | done
  | dropped (record : Nat)
  | wait (w : Wait)
  /-- dropped with a status but no record of its own: the cue is not signalled -/
  | ended
deriving DecidableEq, Repr

/-- A command as an engine runs it. -/
structure Cmd where
  e    : Nat
  /-- the engine that runs it: e, or the one that took over e's streams -/
  host : Nat
  kind : Kind
  p    : Nat
  ctx  : Nat
  gen  : Nat
  desc : Nat
  be   : Bool
  /-- issued by the Director for the serving context -/
  serving : Bool
  /-- the Director's mark of a watched command (R293) -/
  watch : Option Watch
  /-- the part and layer of a command that the Director formed itself (R159, R285) -/
  mark  : Option (Nat × Nat)
  /-- its eligibility time: for a part-way command the moment its first unit started (R320) -/
  start : Nat
  /-- the operands that its descriptor does not hold -/
  args  : List Nat
deriving DecidableEq, Repr

/-- The operand area, bytes 32 to 63 of the descriptor (R314). -/
def Cmd.area (c : Cmd) : Nat := c.desc / 2 ^ 256

def Cmd.who (c : Cmd) : Who := .engine c.kind c.e c.p

end Sys2Proof.Machine
end

