-- ==== Sys2Proof/Machine/Queues.lean ====
section
/-! DEFINITION. Streams, eligibility and arbitration (R311 to R322), and how an engine runs one command. -/
namespace Sys2Proof.Machine

/-! ## Descriptors (R314) -/

def hOpcode (d : Nat) : Nat := bits d 255 248
def hCtx (d : Nat) : Nat := bits d 247 240
def hGen (d : Nat) : Nat := bits d 239 232
def hBe (d : Nat) : Bool := bit d 231
def hRemote (d : Nat) : Bool := bit d 230
def hWaitAddr (d : Nat) : Nat := bits d 228 168 * 8
def hWaitValue (d : Nat) : Nat := bits d 167 104
def hSignalAddr (d : Nat) : Nat := bits d 103 43 * 8
/-- SignalAdd, 0 clamped to 1. -/
def hSignalAdd (d : Nat) : Nat := max 1 (bits d 42 27)

/-- The opcodes an engine kind accepts (R75, R143, R181, R189, R229, R272, R280, R358, R360, R488). -/
def kindOps : Kind → List Nat
  | .press => [0x00, 0x01, 0x02, 0x03, 0x10, 0x11, 0x12, 0x13, 0x14, 0x15, 0x20]
  | .draw => [0x00, 0x01, 0x02, 0x03, 0x10, 0x11, 0x12, 0x13, 0x14, 0x15, 0x20]
  | .stack => [0x00, 0x01]
  | .relay => [0x00, 0x01, 0x40, 0x41, 0x42, 0x50, 0x51, 0x52, 0x53, 0x60, 0x61, 0x62, 0x63, 0x64, 0x70, 0x71]
  | .router => [0x00, 0x01, 0x02]
  | .codec => [0x00, 0x01, 0x02, 0x03, 0x04, 0x05]

/-- Opcodes that an engine executes from a ServingContext only (R159, R266). -/
def servingOps : Kind → List Nat
  | .stack => [0x01]
  | .relay => [0x40, 0x41, 0x42, 0x50, 0x51, 0x52, 0x53]
  | .router => [0x02]
  | .press => []
  | .draw => []
  | .codec => []

/-- The opcode as the engine takes it from a context: an opcode of another kind is the no-operation (R23), and so is a
serving opcode from another context than the ServingContext (R159, R266). -/
def State.opTaken (s : State) (k : Kind) (p ctx d : Nat) : Nat :=
  let op := hOpcode d
  if (kindOps k).contains op && (!(servingOps k).contains op || ctx == s.servCtx p) then op else 0

/-! ## Contexts and streams -/

def ctxKey (p c : Nat) : Nat := p * 256 + c
def streamKey (p c e : Nat) : Nat := ctxKey p c * 256 + e
def keyEngine (k : Nat) : Nat := k % 256
def keyCtx (k : Nat) : Nat := k / 256 % 256
def keyPart (k : Nat) : Nat := k / 65536

def State.ctx (s : State) (p c : Nat) : Ctx := (lookup s.ctxs (ctxKey p c)).getD Ctx.reset

def State.setCtx (s : State) (p c : Nat) (v : Ctx) : State :=
  { s with ctxs := setC (fun _ => Ctx.reset) s.ctxs (ctxKey p c) v }

def State.stream (s : State) (p c e : Nat) : Option Stream := lookup s.streams (streamKey p c e)

def State.setStream (s : State) (p c e : Nat) (v : Stream) : State :=
  { s with streams := insertAt s.streams (streamKey p c e) v }

/-- Engines run in these module states (R430, R492). -/
def State.enginesRun (s : State) : Bool :=
  match s.mode with
  | .ready | .serving | .draining => true
  | .off | .precharge | .boot | .selftest | .training | .fenced | .safe | .removable => false

/-- The other engines of a kind, counting upward from e and wrapping: in its region, and for a router unit in the module. -/
def nextEngines (e : Nat) : List Nat :=
  let ks := allEngines.filter fun x => engineKind x == engineKind e && (engineKind e == some .router || engineRegion x == engineRegion e)
  ks.filter (fun x => decide (e < x)) ++ ks.filter (fun x => decide (x < e))

/-- The engine that holds the streams of a retired one (R311, R415): the next active one. DESIGN CHOICE (notes/assumptions/50):
unsafe. -/
def State.heir (s : State) (e : Nat) : Option Nat := (nextEngines e).find? fun x => !(s.engine x).retired

/-- The engine that runs the commands of a logical engine number: itself, or the one that took over its streams. The number
that the commands name does not change (R17). -/
def State.host (s : State) (e : Nat) : Nat := if (s.engine e).retired then (s.heir e).getD e else e

/-- An engine takes commands: it exists, is active or has an heir, and is not being reset. -/
def State.engineLive (s : State) (e : Nat) : Bool :=
  s.enginesRun && (engineKind e).isSome && !(s.engine (s.host e)).retired && (s.engine (s.host e)).resetting.isNone

/-- The generation check of R315: the context is the stream's, OPEN, and of the descriptor's generation. -/
def State.genOk (s : State) (p c d : Nat) : Bool :=
  hCtx d == c && decide ((s.ctx p c).st = .opened) && (s.ctx p c).gen == hGen d

/-- An engine's accesses for a partition. -/
def whoOf (e p : Nat) : Who := .engine ((engineKind e).getD .relay) e p

/-- The CueWait of a descriptor holds (R317, R318). -/
def State.waitHolds (s : State) (e p d : Nat) : Bool := s.cueHolds (whoOf e p) (hWaitAddr d) (hWaitValue d)

/-! ## Eligibility (R318) -/

/-- A stream's head is eligible: found so when its cue was last evaluated, its context OPEN and not preempted there. -/
def State.headEligible (s : State) (k : Nat) (h : Head) : Bool :=
  let c := s.ctx (keyPart k) (keyCtx k)
  h.eligAt.isSome && decide (c.st = .opened) && !c.preempted.contains (keyEngine k)

/-- The streams of an engine, with their keys. -/
def State.streamsOf (s : State) (e : Nat) : List (Nat × Stream) := s.streams.filter fun x => keyEngine x.1 == e

/-- The streams that an engine holds, those it took over included (R311). -/
def State.streamsAt (s : State) (h : Nat) : List (Nat × Stream) := s.streams.filter fun x => s.host (keyEngine x.1) == h

/-- The address is an entry cue of the partition's running storyboard (R125). -/
def State.isEntryCue (s : State) (p a : Nat) : Bool :=
  match lookup s.stories p with
  | none => false
  | some r =>
    let w := whoOf 80 p
    let h := s.readVal w r.addr 64
    let base := bits h 450 390 * 8
    a != 0 && decide (base ≤ a) && (List.range (bits h 389 366)).any fun i =>
      a == base + 8 * bits (s.readVal w (r.addr + 64 + 32 * i) 32) 87 76

/-- The arbiter that grants a command: the engine's own, or for the encoder path of a codec unit the one kept under the
engine number + 256 (R131). -/
def armOf (e op : Nat) : Nat := if 128 ≤ e && e < 192 && op == 2 then e + 256 else e

/-- The engine of an arbiter. -/
def armEngine (arm : Nat) : Nat := arm % 256

/-- Table commands of a codec unit run on neither path: they take effect at the head of their stream (R131). -/
def offPath (e op : Nat) : Bool := decide (128 ≤ e) && op != 1 && op != 2

/-- A stream's head is the command whose unit an arbiter has granted (R320). -/
def State.granted (s : State) (arm k : Nat) (h : Head) : Bool :=
  match (s.engine arm).running with
  | some r => (s.engine arm).going.isNone && r.e == keyEngine k && r.p == keyPart k && r.ctx == keyCtx k && r.desc == h.desc
  | none => false

/-- A stream's head has been granted on either arbiter of its engine. -/
def State.headRuns (s : State) (k : Nat) (h : Head) : Bool :=
  let e := s.host (keyEngine k)
  s.granted e k h || (decide (128 ≤ e) && s.granted (e + 256) k h)

/-- A command of the Director waits at an arbiter, and is eligible there. -/
def Part.issued (q : Part) : Bool := q.wait == .issue && q.ready

/-- An LC command is eligible on an arbiter and has not started: a head other than that of stream k, or a command of the Director
(R323). -/
def State.lcWaits (s : State) (arm : Nat) (k : Option Nat) : Bool :=
  ((s.streamsAt (armEngine arm)).any fun x => some x.1 != k &&
    (match x.2.head with | some g => !g.be && s.headEligible x.1 g && !s.headRuns x.1 g | none => false))
    || (s.engine arm).parts.any Part.issued

/-- The wait of a context of a partition with TradeEnable has closed: its duration is blame of the node whose packet closed it (R397).
DESIGN CHOICE (notes/assumptions/43): unsafe. -/
def noteBlame (p node ns : Nat) : M Unit := modify fun s =>
  if s.par (pk 0x3111 (p + 1)) == 1 then
    let b := s.power.blame
    { s with power := { s.power with blame := insertAt (eraseKey b node) node ((lookup b node).getD 0 + ns) } }
  else s

/-- A command that has waited since a time becomes eligible on an engine: a lent cell returns (R94), an LC command beside an eligible
one that has not started counts in LcOverlap (R323), a storyboard stall's time is counted (R129), and a remote wait is blamed on the node
whose packet closed it (R397). -/
def noteEligible (e p desc : Nat) (overlap : Bool) (since : Nat) : M Unit := do
  let s ← get
  setEngine (s.host e) fun q => { q with loan := none }
  onlyIf overlap (bump (pk 0x8049 9) 1)
  onlyIf (s.isEntryCue p (hWaitAddr desc)) (bump (pk 0x8042 5) (s.now - since))
  match lookup s.power.closers (hWaitAddr desc) with
  | some n => onlyIf (hRemote desc) (noteBlame p n (s.now - since))
  | none => skip

/-- Evaluates the cue of one head (R318). A head that has been granted has started: its cue is of no effect on it any more. -/
def evalHead (k : Nat) (st : Stream) (h : Head) : M Unit := do
  let s ← get
  let e := keyEngine k
  if s.headRuns k h then skip
  else if s.waitHolds e (keyPart k) h.desc then do
    onlyIf h.eligAt.isNone (noteEligible e (keyPart k) h.desc (!h.be && s.lcWaits (s.host e) (some k)) h.fetched)
    modify fun t => { t with streams := insertAt t.streams k { st with head := some { h with eligAt := some (h.eligAt.getD s.now) } } }
  else
    modify fun t => { t with streams := insertAt t.streams k { st with head := some { h with eligAt := none } } }

/-! ## Arbitration (R320, R321) -/

/-- What may take the engine at a unit boundary: a stream's head, or a part-way command by its place in the list. -/
structure Cand where
  e    : Nat
  p    : Nat
  ctx  : Nat
  be   : Bool
  elig : Nat
  part : Option Nat
deriving DecidableEq, Repr

/-- A load is the one that an encode built. -/
def Part.built (q : Part) (l : PendLoad) : Bool := l.encoder && l.e == q.e && l.p == q.p && l.ctx == q.ctx && l.desc == q.desc

/-- An encode's pass 2 may start (R148, R149): its own load is not pending or under way, a load into the slot has completed since it
waits, and the slot is not LOADING again. -/
def State.encodeReady (s : State) (q : Part) (slot k : Nat) : Bool :=
  let t := (lookup s.slots slot).getD CodecSlot.empty
  !(t.loading.any q.built) && !(t.pending.any q.built) && decide (k < t.done) && s.par (pk 0x6002 (slot + 1)) != 3

/-- A part-way command may go on at a unit boundary: an encode's pass 2 as R148 and R149 say; the others once what they wait for has
been seen to be there. -/
def State.partReady (s : State) (q : Part) : Bool :=
  match q.wait with
  | .combine _ => q.ready
  | .encode slot k => s.encodeReady q slot k
  | .vault => !s.vaultBusy q.p
  | .acks _ _ _ => q.ready
  | .coll _ _ => q.ready
  | .host _ _ _ => q.ready
  | .rdma _ _ _ => q.ready
  | .share _ => true
  | .issue => q.ready
  | .units _ => true

/-- The candidates of R320 at an arbiter: eligible heads, then part-way commands whose eligibility time is their first
unit's start. -/
def State.cands (s : State) (arm : Nat) : List Cand :=
  let e := armEngine arm
  (s.streamsAt e).filterMap (fun x =>
    match x.2.head with
    | none => none
    | some h =>
      let op := s.opTaken ((engineKind e).getD .relay) (keyPart x.1) (keyCtx x.1) h.desc
      if s.headEligible x.1 h && armOf e op == arm && !offPath e op then some ⟨keyEngine x.1, keyPart x.1, keyCtx x.1, h.be, h.eligAt.getD 0, none⟩ else none)
  ++ ((s.engine arm).parts.zipIdx).filterMap (fun x =>
    if s.partReady x.1 && !(s.ctx x.1.p x.1.ctx).preempted.contains x.1.e
    then some ⟨x.1.e, x.1.p, x.1.ctx, x.1.be, x.1.start, some x.2⟩ else none)

/-- The first of two LC candidates: earlier eligible, then lower partition, then lower context. -/
def Cand.before (a b : Cand) : Bool :=
  a.elig < b.elig || (a.elig == b.elig && (a.p < b.p || (a.p == b.p && a.ctx < b.ctx)))

def firstLc : List Cand → Option Cand
  | [] => none
  | a :: l =>
    match firstLc l with
    | none => some a
    | some b => if b.before a then some b else some a

/-- The candidate next in turn after `last` in increasing order of f, wrapping. -/
def nextTurn (f : Cand → Nat) (last : Nat) (l : List Cand) : Option Cand :=
  let after := l.filter fun c => decide (last < f c)
  let pool := if after.isEmpty then l else after
  pool.foldl (fun (b : Option Cand) c =>
    match b with
    | none => some c
    | some d => if f c < f d then some c else some d) none

/-- The BE candidate of R320: weighted round robin over partitions, then contexts in turn. -/
def chooseBe (st : EngineSt) (l : List Cand) : Option Cand :=
  let stay := l.any fun c => c.p == st.lastP && decide (0 < st.beLeft)
  let p := if stay then some st.lastP else (nextTurn (fun c => c.p) st.lastP l).map (fun c => c.p)
  match p with
  | none => none
  | some p => nextTurn (fun c => c.ctx) ((lookup st.lastCtx p).getD 255) (l.filter fun c => c.p == p)

/-- The BE gate is open (R320, R400): BeGateState. -/
def State.beGateOpen (s : State) : Bool := s.par (pk 0x3203 0) == 1

/-- A starvation grant is due (R321). DEDUCED (notes/assumptions/61): unsafe. -/
def State.starveDue (s : State) (e : Nat) (l : List Cand) : Bool :=
  s.beGateOpen && l.any (fun c => c.be) &&
    (match (s.engine e).lcSince with
     | none => false
     | some t => decide (t + s.par (pk 0x5008 0) * 1000 ≤ s.now))

/-- The choice among candidates at a unit boundary (R320, R321). -/
def State.pick (s : State) (e : Nat) (l : List Cand) : Option Cand :=
  let be := l.filter fun c => c.be
  if s.starveDue e l then chooseBe (s.engine e) be
  else
    match firstLc (l.filter fun c => !c.be) with
    | some c => some c
    | none => if s.beGateOpen then chooseBe (s.engine e) be else none

/-- The engine's choice at a unit boundary (R320, R321). -/
def State.choose (s : State) (e : Nat) : Option Cand := s.pick e (s.cands e)

/-- The arbiter's books after a grant (R320, R321, R323). The delay of a command counts to its first unit. DEDUCED
(notes/assumptions/61): unsafe. -/
def noteGrant (e : Nat) (c : Cand) : M Unit := do
  let s ← get
  let st := s.engine e
  if c.be then do
    onlyIf (s.starveDue e (s.cands e)) (bump (pk 0x8049 8) 1)
    let w := s.par (pk 0x5003 (c.p + 1))
    let left := if c.p == st.lastP && 0 < st.beLeft then st.beLeft - 1 else w - 1
    setEngine e fun q => { q with lcSince := none, lastP := c.p, beLeft := left, lastCtx := insertAt q.lastCtx c.p c.ctx }
  else do
    let d := s.now - c.elig
    onlyIf (c.part.isNone && decide (s.par (pk 0x8049 10) < d)) (setPar (pk 0x8049 10) d)
    setEngine e fun q => { q with lcSince := some (q.lcSince.getD s.now) }

/-! ## One command on an engine -/

/-- A collective or an RDMA_WRITE whose source lies in the vault waits for a load into its partition's area (R119). -/
def State.sourceHeld (s : State) (op p d : Nat) : Bool :=
  ((decide (0x60 ≤ op) && decide (op ≤ 0x64)) || op == 0x70) && decide (tierOf (bits (d / 2 ^ 256) 255 198 * 64) = .vault) && s.vaultBusy p

/-- The fallback cue of layer l is signalled (R298): its watched commands cover this module's rows, and each has closed. DESIGN CHOICE
(notes/assumptions/62): unsafe. -/
def Inst.layerClosed (i : Inst) (l : Nat) : Bool :=
  let ws := i.watches.filter fun r => r.watch.layer == l && r.watch.rerun.isNone
  decide (i.rows ≤ (ws.map fun r => r.watch.slates.length).foldl (· + ·) 0) && ws.all fun r => r.stage == .closed

/-- The fallback cues of the layers below l are signalled. -/
def Inst.normClosed (i : Inst) (l : Nat) : Bool := (List.range l).all i.layerClosed

/-- A serving command of the Director waits on fallback cues: the router of a layer on that layer's, and ATTN_FEED on those of the
layers before (R298, R301). The residual addition of any other layer waits as State.formBlock says. -/
def State.fallbackHolds (s : State) (k : Kind) (op p d : Nat) : Bool :=
  match k with
  | .router => op != 1 || (s.inst p).normClosed (bits (d / 2 ^ 256) 85 74 + 1)
  | .relay => op != 0x40 || (s.inst p).normClosed (bits (d / 2 ^ 256) 173 162)
  | .press | .draw | .stack | .codec => true

/-- The engine's clock is gated: it starts no unit before a slot of the ramp limiter restarts it (R396). -/
def State.isGated (s : State) (e : Nat) : Bool := s.power.gated.contains e

/-- The Director may issue a descriptor to an engine: of the serving context of an instance in RUN (R198). -/
def State.issues (s : State) (e op p d : Nat) : Bool :=
  match engineKind e with
  | none => false
  | some k =>
    let c := s.servCtx p
    s.engineLive e && s.opTaken k p c d == op && (s.inst p).run.isSome && !(s.inst p).broken && s.genOk p c d

/-- A command of the Director may start: its cue holds, the fallback cues that it waits on are signalled, and no vault load holds its
source (R119, R298, R318). -/
def State.issueOk (s : State) (e p d : Nat) : Bool :=
  s.waitHolds e p d && s.fallbackHolds ((engineKind e).getD .relay) (hOpcode d) p d && !s.sourceHeld (hOpcode d) p d

/-- A held command of the Director is the one named: by its part and layer, or by its descriptor. -/
def Part.holds (q : Part) (op p d : Nat) (mark : Option (Nat × Nat)) : Bool :=
  q.wait == .issue && q.p == p && hOpcode q.desc == op && q.mark == mark && (mark.isSome || q.desc == d)

/-- The named command, held at an arbiter. -/
def State.heldIssue (s : State) (arm op p d : Nat) (mark : Option (Nat × Nat)) : Option Part :=
  (s.engine arm).parts.find? fun q => q.holds op p d mark

/-- A command of the Director that an engine takes now: it may start, and it is the engine's choice (R198, R320). -/
def State.takenIssued (s : State) (e op p d : Nat) (watch : Option Watch) (mark : Option (Nat × Nat)) : Option Cmd :=
  match engineKind e with
  | none => none
  | some k =>
    let arm := armOf (s.host e) op
    let c := s.servCtx p
    let q := (s.heldIssue arm op p d mark).getD ⟨e, p, c, d, false, s.now, s.now, false, false, .issue, watch, mark, true, []⟩
    let at' := ((s.engine arm).parts.findIdx? fun x => x.holds op p d mark)
    let me : Cand := ⟨e, p, c, false, if q.ready then q.start else s.now, none⟩
    let free := offPath e op || (!s.isGated (s.host e) && (s.engine arm).waiting.isEmpty && (s.engine arm).running.isNone
      && s.pick arm (me :: (s.cands arm).filter fun x => x.part.isNone || x.part != at') == some me)
    if s.issues e op p d && s.issueOk e p q.desc && !(s.ctx p c).preempted.contains e && free then
      some ⟨e, s.host e, k, p, c, hGen q.desc, q.desc, false, true, q.watch, mark, me.elig, q.args⟩
    else none

/-- The command a source names, where the engine takes it now with the given opcode: the chosen head of its stream
(R320), or a descriptor the Director issues for the serving context of an instance in RUN (R198). What the Director forms itself
becomes such a descriptor first (State.formed). -/
def State.taken (s : State) (e op : Nat) (src : CmdSource) : Option Cmd :=
  match src with
  | .stream p c =>
    match engineKind e, s.stream p c e with
    | some k, some st =>
      match st.head with
      | none => none
      | some h =>
        let arm := armOf (s.host e) op
        let key := streamKey p c e
        let turn := offPath e op || (!s.isGated (s.host e) && (s.engine arm).running.isNone
          && s.choose arm == some ⟨e, p, c, h.be, h.eligAt.getD 0, none⟩)
        if s.engineLive e && (s.engine arm).waiting.isEmpty && s.opTaken k p c h.desc == op
            && (s.granted arm key h || (s.headEligible key h && turn)) && !s.sourceHeld op p h.desc then
          some ⟨e, s.host e, k, p, c, hGen h.desc, h.desc, h.be, false, none, none, h.eligAt.getD s.now, []⟩
        else none
    | _, _ => none
  | .director p d watch => s.takenIssued e op p d watch none
  | .layer _ _ _ _ => none

/-- A record that told an engine what to do was poisoned (R543): a fault record with its address; a serving command breaks off the
step. DEDUCED (notes/assumptions/21): unsafe. -/
def dropForRecord (c : Cmd) (addr : Nat) : M Unit := do
  let s ← get
  recordFault { s.ueRecord addr actPoisoned with
    unit := engineUnitKind c.e, logical := c.e, physical := s.engPhysical c.e 0, p := c.p, ctx := c.ctx, addr := addr }
  onlyIf c.serving (setInst c.p fun i => { i with broken := true })

/-! ## Codec references (R153) -/

/-- The references on a slot, summed over all units (R153). -/
def State.slotRefs (s : State) (i : Nat) : Nat := (s.codecRefs.filter fun r => r.slot == i).length

/-- CodecSlotRefs follows the references (R158). -/
def putRefs : M Unit := do
  let s ← get
  each (List.range 16) fun i =>
    onlyIf (s.par (pk 0x6004 (i + 1)) != s.slotRefs i) (setPar (pk 0x6004 (i + 1)) (s.slotRefs i))

/-- Takes a reference (R153). -/
def takeRef (r : CodecRef) : M Unit := do
  modify fun s => { s with codecRefs := s.codecRefs ++ [r] }
  putRefs

/-- Releases the references of a command (R153). -/
def dropRefs (e p ctx desc : Nat) : M Unit := do
  modify fun s => { s with codecRefs := s.codecRefs.filter fun r =>
    !(r.e == e && r.p == p && r.ctx == ctx && r.desc == desc) }
  putRefs

/-- The references of a codec command are released: with its cue, or where the rest of it is not run. -/
def releaseRefs (c : Cmd) : M Unit := onlyIf (decide (c.kind = .codec)) (dropRefs c.e c.p c.ctx c.desc)

/-- A command completes: its cue is advanced once, after its writes (R317), and its references are released (R153). The Director knows
that a command which it formed has signalled (R191); what it knows of layers before the last is of no use any more. -/
def completeCmd (c : Cmd) : M Unit := do
  signalCue c.who (hSignalAddr c.desc) (hSignalAdd c.desc)
  releaseRefs c
  match c.mark with
  | none => skip
  | some m => setInst c.p fun i => { i with
      issued := (i.issued.filter fun x => decide (m.2 ≤ x.2.2.2 + 1)) ++ [(c.e, hOpcode c.desc, m.1, m.2)] }

/-- The arbiter of a command. -/
def Cmd.arm (c : Cmd) : Nat := armOf c.host (hOpcode c.desc)

/-- A part-way command of a relay stands at a wait point (R322). -/
def Part.atWait (q : Part) : Bool :=
  match q.wait with
  | .acks _ _ _ | .coll _ _ | .host _ _ _ | .vault | .rdma _ _ _ => true
  | .combine _ | .encode _ _ | .share _ | .issue | .units _ => false

/-- Some part-way commands at wait points are saved (R322, R331). -/
def saveParts (arm : Nat) (mine : Part → Bool) : M Unit := do
  let s ← get
  let held := fun q : Part => !q.saved && q.atWait && mine q
  let n := ((s.engine arm).parts.filter held).length
  if n == 0 then skip
  else do
    setEngine arm fun q => { q with parts := q.parts.map fun x => if held x then { x with saved := true } else x }
    bump (pk 0x8049 7) n

/-- Commands at a wait point are saved when another command gets their engine (R322). -/
def saveWaits (arm : Nat) : M Unit := saveParts arm fun _ => true

/-- A command of a codec unit that runs on neither path (R131): it takes no turn and leaves the books of both paths. -/
def Cmd.off (c : Cmd) : Bool := offPath c.e (hOpcode c.desc)

/-- A cue word to wait on that the partition has no right to is no wait, and counts (R317). -/
def noteBadWait (e p d : Nat) : M Unit := do
  let s ← get
  onlyIf (hWaitAddr d != 0 && !s.atomicOk (whoOf e p).cueOf (hWaitAddr d)) (bump (pk 0x8042 4) 1)

/-- A command of the Director starts: where it was held it is held no more. -/
def startIssued (c : Cmd) : M Unit := do
  let s ← get
  match s.heldIssue c.arm (hOpcode c.desc) c.p c.desc c.mark with
  | none => do
    noteBadWait c.e c.p c.desc
    onlyIf (s.lcWaits c.arm none) (bump (pk 0x8049 9) 1)
  | some q => do
    setEngine c.arm fun x => { x with parts := x.parts.erase q }
    onlyIf (!q.ready) (noteEligible c.e c.p c.desc (s.lcWaits c.arm none) q.since)
  clampDesc (b2n (bits c.desc 42 27 == 0))

/-- The engine's books when a command starts: the head of a stream is consumed, so the next may be fetched (R313). -/
def startCmd (c : Cmd) : M Unit := do
  onlyIf (!c.off) (saveWaits c.arm)
  onlyIf c.serving (startIssued c)
  onlyIf (!c.off) (noteGrant c.arm ⟨c.e, c.p, c.ctx, c.be, c.start, none⟩)
  onlyIf (!c.serving) (modify fun t =>
    match t.stream c.p c.ctx c.e with
    | none => t
    | some st => t.setStream c.p c.ctx c.e { st with head := none })

/-- The unit that the end of a command counts (R319): matrix commands of a block have counted their passes as they ran, and the
other commands all their units but the last. -/
def ownUnit (c : Cmd) : Nat :=
  match c.kind with
  | .press | .draw => if 1 ≤ hOpcode c.desc && hOpcode c.desc ≤ 3 then 0 else 1
  | .stack | .relay | .router | .codec => 1

/-- Units that an arbiter's engine has completed (R319). A cell on loan is back before the next pass starts (R94). DESIGN CHOICE
(notes/assumptions/53): unsafe. -/
def unitsDone (arm n : Nat) : M Unit := setEngine arm fun q => { q with units := q.units + n, loan := none }

/-- What is left of a command, as an engine keeps it. -/
def Cmd.part (c : Cmd) (now : Nat) (w : Wait) : Part :=
  ⟨c.e, c.p, c.ctx, c.desc, c.be, c.start, now, false, false, w, c.watch, c.mark, c.serving, c.args⟩

/-- An engine whose unit has ended. -/
def EngineSt.unitEnded (q : EngineSt) (now units : Nat) : EngineSt :=
  { q with running := none, going := none, units := units, progress := now, fetchRun := 0, meshRun := 0, tiles := [], claims := [],
           loan := none }

/-- The end of a command's work on its engine. -/
def endCmd (c : Cmd) (x : End) : M Unit := do
  let s ← get
  onlyIf (!c.off) (setEngine c.arm fun q => q.unitEnded s.now (q.units + ownUnit c))
  match x with
  | .done => completeCmd c
  | .dropped a => dropForRecord c a
  | .ended => skip
  | .wait w => setEngine c.arm fun q => { q with parts := q.parts ++ [c.part s.now w] }

/-- The end of a command's first unit. before: the units that its arbiter had counted. A command of further units is part-way, and of a
context that is fenced the rest is not run (R319, R320, R328). -/
def endFirst (c : Cmd) (before : Nat) (x : End) : M Unit := do
  let s ← get
  let n := (s.engine c.arm).units - before + ownUnit c
  if x == .done && decide (1 < n) && !c.off then
    if decide ((s.ctx c.p c.ctx).st = .opened) then
      setEngine c.arm fun q => { q.unitEnded s.now (before + 1) with parts := q.parts ++ [c.part s.now (.units (n - 1))] }
    else do
      setEngine c.arm fun q => q.unitEnded s.now (before + 1)
      releaseRefs c
  else endCmd c x

/-- Runs a taken command: its first unit, with the effect on memory of them all. DESIGN CHOICE (notes/assumptions/3): unsafe. -/
def runCmd (c : Cmd) (body : Cmd → M End) : M Unit := do
  startCmd c
  let s ← get
  let x ← body c
  endFirst c (s.engine c.arm).units x

/-- Commands of the Director that an arbiter holds are looked at again (R318). -/
def markIssued (arm : Nat) : M Unit := do
  let s ← get
  each ((s.engine arm).parts.filter fun q => q.wait == .issue && q.ready != s.issueOk q.e q.p q.desc) fun q => do
    let t ← get
    onlyIf (!q.ready) (noteEligible q.e q.p q.desc (t.lcWaits arm none) q.since)
    setEngine arm fun x => { x with parts := x.parts.map fun y => if y == q then { y with ready := !q.ready, start := t.now } else y }

/-- The kinds of engine that hold commands of the Director (R198): those of the serving loop. -/
def holdsIssued (e op : Nat) : Bool := decide (e < 128) && decide (op < 0x70)

/-- A command of the Director that an engine does not take now waits there. -/
def holdIssue (e op p d : Nat) (watch : Option Watch) (mark : Option (Nat × Nat)) (args : List Nat) : M Unit := do
  let s ← get
  let arm := armOf (s.host e) op
  if holdsIssued e op && s.issues e op p d && (s.heldIssue arm op p d mark).isNone then do
    noteBadWait e p d
    setEngine arm fun q => { q with parts := q.parts ++ [⟨e, p, s.servCtx p, d, false, s.now, s.now, false, false, .issue, watch, mark, true, args⟩] }
    markIssued arm
  else skip

/-- An engine runs the command of the Director that is named, or holds it. -/
def State.issuedCommand (s : State) (e op p d : Nat) (watch : Option Watch) (mark : Option (Nat × Nat)) (body : Cmd → M End)
    (args : List Nat) : Host.Outcome State Fault Refusal :=
  match s.takenIssued e op p d watch mark with
  | some c => .next (runCmd { c with args := args } body s).2
  | none => .next (holdIssue e op p d watch mark args s).2

/-- An engine runs the command that a source names, with the given opcode and body. Where the engine does not take the head of a stream
(it is not the chosen one, or the engine is busy with another), nothing happens. -/
def State.engineCommand (s : State) (e op : Nat) (src : CmdSource) (body : Cmd → M End) (args : List Nat) :
    Host.Outcome State Fault Refusal :=
  match src with
  | .stream _ _ =>
    match s.taken e op src with
    | some c => .next (runCmd { c with args := args } body s).2
    | none => .next s
  | .director p d watch => s.issuedCommand e op p d watch none body args
  | .layer _ _ _ _ => .next s

end Sys2Proof.Machine
end

