-- ==== Sys2Proof/Machine/Transmit.lean ====
section
/-! DEFINITION. The transmit side of the Kwanex link groups (chapter "Kwanex fabric and topology"): flits and their codewords, credits and
channels, the choice of a group for a packet, group states and notices. -/
namespace Sys2Proof.Machine

/-! ## Groups and their states (R344 to R346, R350) -/

/-- The node ID in force: it is read at BOOT (R374). -/
def State.nodeId (s : State) : Nat := s.eff' (pk 0x4001 0)

def State.link (s : State) (g : Nat) : LinkGroup := (lookup s.links g).getD LinkGroup.reset

def setLinkGroup (g : Nat) (f : LinkGroup → LinkGroup) : M Unit :=
  modify fun s => { s with links := setC (fun _ => LinkGroup.reset) s.links g (f (s.link g)) }

/-- LinkState of a group (R344): 0 OFF, 1 TRAINING, 2 MGMT_ONLY, 3 UP, 4 RETRAIN, 5 MAPPED_OUT. -/
def State.linkState (s : State) (g : Nat) : Nat := s.par (pk 0x4006 (g + 1))

/-- DivisionProfile, NodeId and DirectDims take effect at BOOT (R374). -/
def State.division (s : State) : Nat := s.eff' (pk 0x4000 0)

/-- The switch plane of a group, where the profile gives it one (R346). -/
def planeOf (profile g : Nat) : Option Nat :=
  if profile == 0 then some g
  else if profile == 1 && g % 6 < 3 then some (3 * (g / 6) + g % 6)
  else none

/-- The neighbour slot of a direct group (R346). -/
def slotOf (profile g : Nat) : Option Nat :=
  if profile == 1 && 3 ≤ g % 6 then some (g % 6 - 3)
  else if profile == 2 then some (g % 6)
  else if profile == 3 then some (g % 4)
  else if profile == 4 then some (g % 2)
  else none

/-- The planes whose group is UP, as a mask (R365). -/
def State.planeMask (s : State) : Nat :=
  (List.range 24).foldl (fun m g => match planeOf s.division g with
    | some q => if s.linkState g == 3 then m ||| 2 ^ q else m
    | none => m) 0

/-- The wiring plan in force for a group (R350). -/
def State.planEntry (s : State) (g : Nat) : Nat := s.eff' (pk 0x4003 (g + 1))

def planKind (v : Nat) : Nat := if bits v 63 62 == 3 then 0 else bits v 63 62

/-- A group has trained, and its flits and codewords run (R349): what TRAINING still carries is the identity record. DEDUCED
(notes/assumptions/40): safe. -/
def State.trained (s : State) (g : Nat) : Bool := s.linkState g == 1 && (s.link g).upSince.isSome

/-- Flits run on a group: MGMT_ONLY, UP, or trained and waiting for the peer's record. -/
def State.linkRuns (s : State) (g : Nat) : Bool := s.linkState g == 2 || s.linkState g == 3 || s.trained g

/-! ## Codewords (R335, R336) -/

/-- Multiplication by α in GF(2^8) with the polynomial of R104. -/
def gfTimes : Nat → Nat → Nat → Nat
  | 0, _, _ => 0
  | n + 1, a, b => (if a % 2 == 1 then b else 0) ^^^ gfTimes n (a / 2) (gfDouble b)

/-- The product of a polynomial, lowest coefficient first, with (x + r). -/
def polyTimes (p : List Nat) (r : Nat) : List Nat :=
  (List.range (p.length + 1)).map fun i => (if i == 0 then 0 else nth p (i - 1)) ^^^ gfTimes 8 (nth p i) r

/-- g(x) = (x + α^0)(x + α^1) … (x + α^15). -/
def rsGenerator : List Nat := (List.range 16).foldl (fun p i => polyTimes p (gfPow i 1)) [1]

/-- The check bytes c_0 to c_15 of data bytes d_0 to d_255: the remainder of Σ d_i x^(i+16) by g(x). -/
def rsCheck (d : List Nat) : List Nat :=
  d.reverse.foldl (fun r b =>
    let f := b ^^^ nth r 15
    (List.range 16).map fun i => (if i == 0 then 0 else nth r (i - 1)) ^^^ gfTimes 8 f (nth rsGenerator i)) (List.replicate 16 0)

/-- A lane's codeword from its data bytes, as they are sent. -/
def codeword (d : List Nat) : List Nat := d ++ rsCheck d

/-- The data of a lane's codeword: its quarters of four flits, in flit order (R336). -/
def laneData (flits : List (List Nat)) (lane : Nat) : List Nat := flits.flatMap fun f => (f.drop (64 * lane)).take 64

/-- Codewords a lane has sent since its group trained: 224 Gb/s (R334) in codewords of 272 B. -/
def State.wordCount (s : State) (g : Nat) : Nat :=
  match (s.link g).upSince with
  | some t => (s.now - t) * 7 / 68
  | none => 0

/-- The number of the next data codeword: every 1,024th is a marker. -/
def State.nextWord (s : State) (g : Nat) : Nat :=
  let n := max (s.link g).txWord.2 (s.wordCount g)
  if n % 1024 == 1023 then n + 1 else n

/-- Four flits leave as one codeword on each lane (R336). -/
def sendWord (g : Nat) (flits : List (List Nat)) : M Unit := do
  let s ← get
  let n := s.nextWord g
  emit (.codewords g n ((List.range 4).map fun lane => codeword (laneData flits lane)))
  setLinkGroup g fun q => { q with txWord := ([], n + 1) }

/-- The markers of a group: the lane's number and the count of codewords. The layout of a marker is the model's. DESIGN CHOICE
(notes/assumptions/40): unsafe. -/
def sendMarker (g n : Nat) : M Unit :=
  emit (.codewords g n ((List.range 4).map fun lane => codeword ([lane] ++ toBytes n 8 ++ List.replicate 247 0)))

/-! ## Flits (R337 to R341, R356) -/

/-- A flit from its header and 248 payload bytes (R337). -/
def flitOf (header : Nat) (payload : List Nat) : List Nat :=
  let body := toBytes header 4 ++ payload ++ List.replicate (248 - payload.length) 0
  body ++ toBytes (crc32c body) 4

/-- A flit goes into the group's codewords. -/
def emitFlit (g : Nat) (bytes : List Nat) : M Unit := do
  emit (.flit g bytes)
  let s ← get
  let w := (s.link g).txWord.1 ++ [bytes]
  if w.length < 4 then setLinkGroup g fun q => { q with txWord := (w, q.txWord.2) } else sendWord g w

/-- The slots that are left of a codeword begun carry IDLE flits (R336, R337). -/
def fillWord (g : Nat) : M Unit := do
  let s ← get
  let w := (s.link g).txWord.1
  if w.isEmpty then skip else sendWord g (w ++ List.replicate (4 - w.length) (flitOf 0 []))

/-- The stratum at which this module gives time to a group (R370, R372): 15 gives none. -/
def State.stratum (s : State) (g : Nat) : Nat :=
  match s.par (pk 0x4020 0) with
  | 0 =>
    if s.par (pk 0x4021 0) == 1 then 0
    else if s.par (pk 0x4022 0) == 3 then 15
    else match s.clock.parent with
      | some q => if q == g then 15 else min 15 ((s.link q).stratum + 1)
      | none => 15
  | 1 => if s.par (pk 0x4022 0) == 3 then 15 else 0
  | _ => 15

/-- Sends a CONTROL flit (R338, R339). op: SpareOp, lane and the codeword count it applies at. -/
def sendControl (g op lane at' : Nat) : M Unit := do
  let s ← get
  let q := s.link g
  let payload := toBytes ((q.rxSeq + 4095) % 4096) 2 ++ toBytes (if q.rxHold then 0x8000 + q.rxSeq else 0) 2
    ++ q.freed.flatMap (fun n => toBytes n 2) ++ toBytes (op * 2 ^ 13 + lane % 8) 2 ++ toBytes at' 4
    ++ toBytes (s.now * 16) 8 ++ toBytes q.echoTx 8 ++ toBytes q.echoRx 8 ++ [s.stratum g]
  setLinkGroup g fun q => { q with freed := [0, 0, 0], slots := 0, ctlAt := s.now }
  emitFlit g (flitOf (2 * 2 ^ 28) payload)

/-- A DATA flit takes a slot, sent for the first time or again; the 128th slot is a CONTROL flit's (R338). -/
def sendFlit (g : Nat) (bytes : List Nat) : M Unit := do
  emitFlit g bytes
  let s ← get
  let n := (s.link g).slots + 1
  setLinkGroup g fun q => { q with slots := n }
  onlyIf (decide (127 ≤ n)) (sendControl g 0 0 0)

/-- 128 flit slots in whole ns: a CONTROL flit is due so long after the last (R338). -/
def controlNs : Nat := 312

/-- The channel that sends next (R356, R341): MGMT, then LC before BE, and a BE flit where LC has held the group for
StarveLimit. Only channels with a credit and a flit count; other channels than MGMT need the group UP. -/
def State.nextChannel (s : State) (g : Nat) : Option Nat :=
  let q := s.link g
  let has := fun ch => decide (0 < nth q.credits ch) && q.queue.any (fun f => f.1 == ch)
    && (s.linkState g == 3 || (s.linkRuns g && ch == 2))
  let starved := match q.lcSince with
    | some t => decide (t + s.par (pk 0x5008 0) * 1000 ≤ s.now)
    | none => false
  if has 2 then some 2
  else if has 1 && starved then some 1
  else if has 0 then some 0
  else if has 1 then some 1
  else none

/-- Sends what the group may send now (R340, R341); fuel bounds the flits. -/
def pump (g : Nat) : Nat → M Unit
  | 0 => skip
  | fuel + 1 => do
    let s ← get
    let q := s.link g
    match (if q.replay.length < 1024 then s.nextChannel g else none) with
    | none => onlyIf (q.lcSince.isSome && !(q.queue.any fun f => f.1 == 0)) (setLinkGroup g fun q => { q with lcSince := none })
    | some ch =>
      match q.queue.find? fun f => f.1 == ch with
      | none => skip
      | some f => do
        let bytes := flitOf (2 ^ 28 + q.txSeq * 2 ^ 16 + ch * 2 ^ 14 + f.2.1 * 2 ^ 8) f.2.2
        setLinkGroup g fun q => { q with
          txSeq := (q.txSeq + 1) % 4096
          replay := q.replay ++ [(q.txSeq, bytes)]
          queue := q.queue.erase f
          credits := setNth q.credits ch (nth q.credits ch - 1)
          ackTime := if q.replay.isEmpty then s.now else q.ackTime
          lcSince := if ch == 0 then some (q.lcSince.getD s.now) else if ch == 1 then none else q.lcSince }
        sendFlit g bytes
        pump g fuel

/-- The payloads of one packet (R337): it starts a flit. -/
def cutPacket : Nat → Nat → Nat → List Nat → List (Nat × Nat × List Nat)
  | 0, _, _, _ => []
  | fuel + 1, ch, first, bs =>
    if bs.isEmpty then [] else (ch, first, bs.take 248) :: cutPacket fuel ch 63 (bs.drop 248)

/-- A packet is handed to a group. -/
def queuePacket (g ch : Nat) (bytes : List Nat) : M Unit := do
  setLinkGroup g fun q => { q with queue := q.queue ++ cutPacket 20 ch 0 bytes }
  pump g 64

/-! ## The port router's choice (R347, R348) -/

/-- The node's coordinates in the direct profiles. -/
def State.dims (s : State) : Nat × Nat × Nat :=
  let v := s.eff' (pk 0x4002 0)
  (max 1 (bits v 7 0), max 1 (bits v 15 8), max 1 (bits v 23 16))

/-- The direction in one dimension of size n from a to b: 0 for +, 1 for -, the shorter way, ties to +. -/
def direction (n a b : Nat) : Option Nat :=
  if a == b then none
  else
    let up := (b + n - a) % n
    some (if up ≤ n - up then 0 else 1)

/-- The neighbour slot toward a node, in dimension order (R347). Under H12 a valid wiring plan says which direct groups lead to the node;
without one the node's tray position is its NodeId's low two bits. DESIGN CHOICE (notes/assumptions/39): unsafe. -/
def State.slotTo (s : State) (node : Nat) : Option Nat :=
  let me := s.nodeId
  let (x, y, z) := s.dims
  match s.division with
  | 1 =>
    if s.par (pk 0x4004 0) == 1 then
      ((List.range 24).find? fun g => (slotOf 1 g).isSome && planKind (s.planEntry g) == 2 && bits (s.planEntry g) 61 46 == node).bind (slotOf 1)
    else
      let pos := s.par (pk 0x1007 0) % 4
      if node / 4 == me / 4 && node % 4 != pos then some ((node % 4 + 3 - pos) % 4) else none
  | 2 =>
    match direction x (me % x) (node % x), direction y (me / x % y) (node / x % y), direction z (me / (x * y)) (node / (x * y)) with
    | some d, _, _ => some d
    | none, some d, _ => some (2 + d)
    | none, none, some d => some (4 + d)
    | none, none, none => none
  | 3 =>
    match direction x (me % x) (node % x), direction y (me / x % y) (node / x % y) with
    | some d, _ => some d
    | none, some d => some (2 + d)
    | none, none => none
  | 4 => direction x (me % x) (node % x)
  | _ => none

/-- The groups over which a packet for a node may leave: direct groups of its slot, or switch groups whose plane the node has
reported usable (R348). mgmt: MGMT_ONLY groups count too. -/
def State.groupsTo (s : State) (node : Nat) (mgmt : Bool) : List Nat :=
  let mask := (lookup s.planes node).getD 0xFFFFFF
  let slot := s.slotTo node
  let pair := s.division == 4 && s.dims.1 == 2
  (List.range 24).filter fun g =>
    (s.linkState g == 3 || (mgmt && s.linkState g == 2)) &&
      (match slot with
       | some n => (match slotOf s.division g with | some m => m == n || pair | none => false)
       | none => (match planeOf s.division g with | some q => bit mask q | none => false))

/-- Sends a packet over the next group in turn (R348), another than the one given where there is another (R355), and answers which; with no
group it is lost, and R355 recovers it. DESIGN CHOICE (notes/assumptions/39): safe. -/
def sendOver (ch node : Nat) (bytes : List Nat) (but : Option Nat) : M (Option Nat) := do
  let s ← get
  let all := s.groupsTo node (ch == 2)
  let others := all.filter fun g => some g != but
  let gs := if others.isEmpty then all else others
  if gs.isEmpty || s.gone.contains node then pure none
  else do
    let g := nth gs (s.spray % gs.length)
    modify fun t => { t with spray := t.spray + 1 }
    queuePacket g ch bytes
    pure (some g)

def sendPacket (ch node : Nat) (bytes : List Nat) : M Unit := do
  let _ ← sendOver ch node bytes none
  skip

/-! ## Notices (R357, R365) -/

/-- The header of a packet, its Tag still 0. -/
def packetHeader (dst src kind p ctx gen len epoch : Nat) (final : Option (Nat × Nat × Nat)) (addr : Nat) : Nat :=
  dst % 2 ^ 16 * 2 ^ 240 + src % 2 ^ 16 * 2 ^ 224 + kind % 16 * 2 ^ 220 + p % 8 * 2 ^ 217 + ctx % 256 * 2 ^ 209
    + gen % 256 * 2 ^ 201 + len % 2 ^ 13 * 2 ^ 188 + epoch % 16 * 2 ^ 170
    + (match final with
       | some (count, sig, add) => 2 ^ 169 + count % 2 ^ 24 * 2 ^ 145 + sig / 8 % 2 ^ 61 * 2 ^ 20 + add % 2 ^ 16 * 2 ^ 4
       | none => 0)
    + addr % 2 ^ 64 * 2 ^ 81

/-- An ABORT of a transfer goes out over another path than its Final packet took (R355). -/
def sendAbort (x : Xfer) : M Unit := do
  let s ← get
  let _ ← sendOver 2 x.node (toBytes (setBits (packetHeader x.node s.nodeId 6 x.p x.ctx 0 0 0 none 0) 185 174 x.tag) 32) x.path
  skip

/-- The 16 B body of a notice: code, subject node, mask, time. -/
def noticeBody (code node mask time : Nat) : Nat :=
  code % 256 + node % 2 ^ 16 * 2 ^ 16 + mask % 2 ^ 32 * 2 ^ 32 + time % 2 ^ 64 * 2 ^ 64

/-- The node of a rank in a partition's map. -/
def State.rankNode (s : State) (p r : Nat) : Nat := bits (s.par (pk 0x4010 (p + 1))) (16 * r + 15) (16 * r)

/-- The rank of a node in a partition's map. -/
def State.rankOf (s : State) (p node : Nat) : Option Nat :=
  if node == 0xFFFF then none else (List.range 64).find? fun r => s.rankNode p r == node

/-- Every node of this module's rank maps. -/
def State.mapNodes (s : State) : List Nat := (List.range 8).flatMap fun p => (List.range 64).map fun r => s.rankNode p r

/-- The lead of each instance whose rank map holds a node. -/
def State.leadsOf (s : State) (node : Nat) : List Nat :=
  ((List.range 8).filter fun p => (s.rankOf p node).isSome).map fun p => s.rankNode p (s.leadRank p)

/-- The nodes a notice goes to (R357): none for 0xFFFF, and not this module. CAPACITY goes to the fabric manager (R435). -/
def State.noticeTo (s : State) (code subject : Nat) : List Nat :=
  let manager := s.par (pk 0x400F 0)
  let all := match code with
    | 1 => s.mapNodes
    | 3 | 4 | 5 => s.mapNodes ++ [manager]
    | 6 => s.leadsOf subject ++ [manager]
    | _ => [manager]
  (all.filter fun n => n != 0xFFFF && n != s.nodeId).eraseDups

/-- A notice goes out as NOTICE packets on MGMT, and its event is raised (R356, R357). -/
def sendNotice (code node mask : Nat) : M Unit := do
  let s ← get
  let b := noticeBody code node mask s.now
  each (s.noticeTo code node) fun n => sendPacket 2 n (toBytes (packetHeader n s.nodeId 4 0 0 0 16 0 none 0) 32 ++ toBytes b 16)
  raiseEvent (0x30 + code) 0xFF 1 b

/-- Groups change state (R344); a change of the set of UP switch groups is told in one PLANES notice (R365). -/
def setLinkStates (gs : List Nat) (st : Nat) : M Unit := do
  let s ← get
  each gs fun g => setPar (pk 0x4006 (g + 1)) st
  onlyIf (st == 3 && decide (s.mode = .training)) (modify fun t => { t with life := { t.life with firstUp := some (t.life.firstUp.getD t.now) } })
  let t ← get
  onlyIf (s.planeMask != t.planeMask) (sendNotice 1 s.nodeId t.planeMask)

def setLinkState (g st : Nat) : M Unit := setLinkStates [g] st

/-- Groups that carried more go to MGMT_ONLY, or every group that is not MAPPED_OUT goes OFF with the rails. -/
def quietLinks (off : Bool) : M Unit := do
  let s ← get
  if off then setLinkStates ((List.range 24).filter fun g => s.linkState g != 5) 0
  else setLinkStates ((List.range 24).filter fun g => s.linkState g == 3) 2

end Sys2Proof.Machine
end

