-- ==== Sys2Proof/Machine/Faults.lean ====
section
/-! DEFINITION. Failing units, spares, engine reset and module-fatal handling (chapter "Faults, spares and recovery"). -/
namespace Sys2Proof.Machine

/-! ## Module states -/

/-- The code of a module state (R492). -/
def modeCode : ModuleState → Nat
  | .off => 0
  | .precharge => 1
  | .boot => 2
  | .selftest => 3
  | .training => 4
  | .ready => 5
  | .serving => 6
  | .draining => 7
  | .fenced => 8
  | .safe => 9
  | .removable => 10

/-- Sessions close, and their transfers are discarded (R451, R455). -/
def State.closeSessions (s : State) (ids : Session → Bool) : State :=
  { s with elo := { s.elo with
      sessions := s.elo.sessions.filter fun x => !ids x
      closed := (s.elo.sessions.filter ids).map (fun x => (x.id, s.now)) ++ s.elo.closed } }

/-- What a state entered takes away: held STARTs in FENCED, SAFE and DRAINING (R499), sessions in FENCED, SAFE and REMOVABLE
(R451). -/
def State.leave (s : State) (m : ModuleState) : State :=
  match m with
  | .draining => { s with life := { s.life with starts := [], instStarts := [] } }
  | .fenced | .safe => ({ s with life := { s.life with starts := [], instStarts := [] } }).closeSessions fun _ => true
  | .removable => s.closeSessions fun _ => true
  | .off | .precharge | .boot | .selftest | .training | .ready | .serving => s

/-- The stacks hold their contents from now on in self-refresh (R497): the module leaves a state in which it served. -/
def keepsStacks (old new : ModuleState) (kept : Bool) : Bool :=
  match new with
  | .fenced | .safe | .removable =>
    (match old with
     | .ready | .serving | .draining => true
     | .off | .precharge | .boot | .selftest | .training | .fenced | .safe | .removable => kept)
  | .off | .precharge | .boot | .selftest | .training | .ready | .serving | .draining => false

/-- The module changes state (R492): ModuleState reports it, and the event is raised. -/
def setMode (m : ModuleState) : M Unit := do
  let s ← get
  if s.mode = m then skip
  else do
    modify fun t => { t.leave m with mode := m }
    modify fun t => { t with life := { t.life with since := s.now, kept := keepsStacks s.mode m s.life.kept } }
    setPar (pk 0x1008 0) (modeCode m)
    raiseEvent 0x50 0xFF 0 (modeCode s.mode + modeCode m * 256)

/-! ## Units that fail (R413 to R415) -/

/-- Names of ErrorKind (R406). -/
def ekMesh : Nat := 0x05
def ekWatchdog : Nat := 0x06
def ekIst : Nat := 0x07
def ekCommanded : Nat := 0x16

/-- The Director serves (R464). -/
def State.directorRuns (s : State) : Bool :=
  match s.mode with
  | .selftest | .training | .ready | .serving | .draining => true
  | .off | .precharge | .boot | .fenced | .safe | .removable => false

/-- The entry of RetiredUnits for a unit. -/
def failedKey (kind phys : Nat) : Nat := kind * 2 ^ 16 + phys

/-- A failed unit is recorded in RetiredUnits (R414) and counted. -/
def noteFailed (kind phys : Nat) : M Unit := do
  modify fun s => { s with
    retired := if s.retired.contains (failedKey kind phys) then s.retired else s.retired ++ [failedKey kind phys] }
  bump (pk 0x8052 2) 1

/-- The key under which a physical unit's in-service tests are kept. -/
def testKey (kind phys : Nat) : Nat := failedKey kind phys

/-- Slices passed, and the end of the last full test: of the self-test at start-up where nothing is listed. -/
def State.test (s : State) (k : Nat) : Nat × Nat := (lookup s.tests k).getD (0, s.life.tested)

/-- IstPeriod in ns. -/
def State.istPeriod (s : State) : Nat := s.par (pk 0x7042 0) * hourNs

/-- A physical unit passed its last full test within IstPeriod (R414). -/
def State.tested (s : State) (k : Nat) : Bool := decide (s.now ≤ (s.test k).2 + s.istPeriod)

/-- SpareState parameters (R438): 0 AVAILABLE, 1 IN_USE, 2 FAILED. -/
def spareCellKey (e : Nat) : Nat := pk 0x7050 (e + 1)
def spareBlockKey (e : Nat) : Nat := pk 0x7050 (if e < 48 then 0x41 + e / 12 else 0x45 + (e - 48) / 4)
def spareCoreKey (stack : Nat) : Nat := pk 0x7050 (0x49 + stack)
def spareDirectorKey : Nat := pk 0x7050 0x55

/-- The physical position of a cell or attention core, by logical number; 31 is the spare. -/
def State.cellPhysical (s : State) (kind e sub : Nat) : Nat := s.engPhysical e (s.subPhys kind e sub)

/-- The physical unit that is the spare block of the region and kind of block e: 12 or 17 at reset (R406), and after a UnitRestore
the unit that it made the spare (R414). -/
def State.spareBlockUnit (s : State) (e : Nat) : Nat :=
  (lookup s.phys (unitKey ukBlock (if e < 48 then 192 + 2 * (e / 12) else 193 + 2 * ((e - 48) / 4)) 31)).getD (if e < 48 then 12 else 17)

/-- The spare block of block e may take over (R414): each of its 17 cells passed its last full test within IstPeriod. DESIGN CHOICE
(notes/assumptions/53): unsafe. -/
def State.spareBlockReady (s : State) (e : Nat) : Bool :=
  s.par (spareBlockKey e) == 0 &&
    (List.range 17).all fun c => s.tested (testKey ukCell (physical (engineRegion e) (s.spareBlockUnit e) c))

/-- Whether the spare of a cell or core may take over (R414). -/
def State.spareReady (s : State) (key kind phys : Nat) : Bool := s.par key == 0 && s.tested (testKey kind phys)

/-- ActiveCounts sub-index of an engine kind (R438). -/
def countSub (k : Kind) : Nat :=
  match k with
  | .press => 1
  | .draw => 2
  | .relay => 3
  | .codec => 4
  | .router => 5
  | .stack => 0

/-- An active count falls, and the CAPACITY notice goes to the fabric manager (R415, R435). -/
def dropCount (sub kind : Nat) : M Unit := do
  let s ← get
  setPar (pk 0x7051 sub) (s.par (pk 0x7051 sub) - 1)
  modify fun t => t.pend 3
  sendNotice 8 s.nodeId (2 ^ kind)

/-- A block is reported to its region as failed (R19). -/
def reportBlock (e err occ : Nat) : M Unit := setEngine e fun q => { q with reported := some (q.reported.getD (err, occ)) }

/-- Copies of spared dies pause in self-refresh and go on after it (R114). -/
def pauseCopies (on : Bool) : M Unit := modify fun s => { s with
  dieCopies := s.dieCopies.map fun x => (x.1, { x.2 with paused := on }) }

/-- A cell in use fails (R92, R93, R407): it takes nothing more; with no spare left the block is reported to its region. The spare
that is to join for an earlier cell at the next pass boundary is in use already (R19). -/
def cellFails (e cell err occ : Nat) : M Unit := do
  let s ← get
  let ph := s.cellPhysical ukCell e cell
  let ready := s.spareReady (spareCellKey e) ukCell (s.cellPhysical ukCell e 31) && (s.engine e).cellsDown.isEmpty
  if (lookup (s.engine e).cellsDown cell).isSome then skip
  else do
    noteFailed ukCell ph
    recordFault ⟨err, 0, ukCell, e, ph, if ready then actRetired else actEscalated, 0, 0, 0, occ, cell, 0⟩
    setEngine e fun q => { q with cellsDown := q.cellsDown ++ [(cell, err)] }
    onlyIf (!ready) (reportBlock e err occ)

/-- The spare cell joins at a pass boundary (R92) and takes the failed cell's logical number (R17). -/
def spareCellJoin (e : Nat) : M Unit := do
  let s ← get
  match (s.engine e).cellsDown with
  | [] => skip
  | (cell, err) :: rest =>
    let spare := s.subPhys ukCell e 31
    if s.spareReady (spareCellKey e) ukCell (s.engPhysical e spare) then do
      modify fun t => t.setPhys ukCell e cell spare
      setPar (spareCellKey e) 1
      bump (pk 0x8052 3) 1
      setEngine e fun q => { q with cellsDown := rest }
      recordFault ⟨err, 0, ukCell, e, s.engPhysical e spare, actSpared, 0, 0, 0, 1, cell, 0⟩
    else skip

/-- An attention core fails (R184, R407): the spare takes its logical number, or its neighbour does its share. detail: ms since the last
progress for a watchdog (R406). -/
def coreFails (stack core err detail : Nat) : M Unit := do
  let s ← get
  let e := 64 + stack
  let ph := s.cellPhysical ukAttnCore e core
  let spare := s.subPhys ukAttnCore e 31
  noteFailed ukAttnCore ph
  if s.spareReady (spareCoreKey stack) ukAttnCore (s.engPhysical e spare) then do
    recordFault ⟨err, 3, ukAttnCore, e, ph, actSpared, 0, 0, 0, 1, core, detail⟩
    modify fun t => t.setPhys ukAttnCore e core spare
    setPar (spareCoreKey stack) 1
    bump (pk 0x8052 3) 1
  else do
    recordFault ⟨err, 3, ukAttnCore, e, ph, actRetired, 0, 0, 0, 1, core, detail⟩
    dropCount 6 ukAttnCore

/-! ## Crash dumps (R431 to R434) -/

/-- The 16 B stream slots of an engine record (R432). -/
def State.dumpSlots (s : State) (e : Nat) : List Nat :=
  let l := (s.streamsOf e).take 256
  (l.flatMap fun x => toBytes (keyCtx x.1 + (keyPart x.1 + 128) * 256 + x.2.fetched % 2 ^ 32 * 2 ^ 32 + x.2.ring % 2 ^ 64 * 2 ^ 64) 16)
    ++ List.replicate (16 * (256 - l.length)) 0

/-- Olumukel service state of a record. -/
def service (unit first n : Nat) : List Nat := (List.range n).map fun i => Config.dumpService unit (first + i) % 256

/-- The data of an engine record (R432), as long as its stated fields. -/
def State.engineData (s : State) (e : Nat) : List Nat :=
  let q := s.engine e
  toBytes ((q.running.map fun r => r.desc).getD 0) 64 ++ toBytes q.units 8 ++ toBytes q.progress 8 ++ service e 80 48 ++ s.dumpSlots e

/-- A unit record (R432): status 0 with its data, or NOT_CAPTURED with a reason. -/
def unitRecord (kind logical phys time reason : Nat) (data : List Nat) : List Nat :=
  let d := if reason == 0 then data else []
  let body := d ++ List.replicate (alignUp d.length 64 - d.length) 0
  toBytes (kind % 16 * 2 ^ 252 + logical % 256 * 2 ^ 244 + phys % 2 ^ 16 * 2 ^ 228 + (if reason == 0 then 0 else 0x0B) * 2 ^ 220
    + reason % 4 * 2 ^ 218 + d.length * 2 ^ 160 + time % 2 ^ 64 * 2 ^ 96 + (if reason == 0 then crc32c d else 0) * 2 ^ 64) 32 ++ body

/-- A reset of an engine leaves its record in the ring of 16 (R434). -/
def dumpEngine (e : Nat) : M Unit := modify fun s =>
  let r := unitRecord (engineUnitKind e) e (s.engPhysical e 0) s.now 0 (s.engineData e)
  { s with engineDumps := (if 16 ≤ s.engineDumps.length then s.engineDumps.drop 1 else s.engineDumps) ++ [r] }

/-- The logical number that physical block u of a region holds (R17); 0xFF for none: a spare, or a block that one replaced. -/
def State.blockAt (s : State) (r u : Nat) : Nat :=
  (((List.range 12).map (12 * r + ·) ++ (List.range 4).map (48 + 4 * r + ·)).find? fun e => s.engPhys e == u).getD 0xFF

/-- The units of a region in the order of R433: UnitKind, logical number and unit number. -/
def State.dumpUnits (s : State) (r : Nat) : List (Nat × Nat × Nat) :=
  (List.range 18).map (fun u => (ukBlock, s.blockAt r u, u))
  ++ (List.range 3).map (fun i => (ukStackEngine, 64 + 3 * r + i, 18 + i))
  ++ (List.range 4).map (fun i => (ukRelay, 80 + 4 * r + i, 21 + i))
  ++ [(ukRouter, 96 + r, 25)]
  ++ (List.range 16).map (fun u => (ukCodec, 128 + 16 * r + u, u))
  ++ [(ukMesh, 0xFF, 0)]
  ++ (List.range 3).map (fun i => (ukMesh, 0xFF, i + 1))
  ++ (List.range 6).map (fun g => (ukLane, 0xFF, 26 + g))
  ++ [(ukIo, 0xFF, 0)]
  ++ (if r == 0 then (List.range 9).map (fun c => (ukDirector, 0xFF, c)) ++ [(ukStage, 0xFF, 0)]
    else if r == 3 then [(ukVault, 0xFF, 0)] else [(ukIo, 0xFF, 1)])

/-- All 225 units with their regions. -/
def State.allDumpUnits (s : State) : List (Nat × Nat × Nat × Nat) := (List.range 4).flatMap fun r => (s.dumpUnits r).map fun u => (r, u)

/-- Why a unit is not captured (R432): its rail is off, it is retired, or it is being reset or timed out. -/
def State.captureReason (s : State) (late : List Nat) (i : Nat) (r : Nat) (u : Nat × Nat × Nat) : Nat :=
  if s.mode == .safe then 3
  else if s.retired.contains (failedKey u.1 (physical r u.2.2 0)) then 2
  else if late.contains i || (u.2.1 != 0xFF && (s.engine u.2.1).resetting.isSome) then 1
  else 0

/-- The unit records of a dump; late: the units, by place, that did not answer within 10 us. -/
def State.dumpRecords (s : State) (late : List Nat) : List (List Nat × Bool) :=
  (s.allDumpUnits.zipIdx).map fun x =>
    let (r, u) := x.1
    let reason := s.captureReason late x.2 r u
    let data := if u.2.1 == 0xFF then service (1000 + x.2) 0 64 else s.engineData u.2.1
    (unitRecord u.1 u.2.1 (physical r u.2.2 0) s.now reason data, reason == 0)

/-- The bytes of a dump (R431): header and records. -/
def State.dumpBytes (s : State) (d : DumpRun) (late : List Nat) : List Nat × List Nat :=
  let recs := s.dumpRecords late
  let body := recs.flatMap Prod.fst
  let ok := (recs.filter Prod.snd).length
  let head := toBytes (1 * 2 ^ 496 + d.reason * 2 ^ 488 + d.mode * 2 ^ 480 + d.start % 2 ^ 64 * 2 ^ 416 + s.now % 2 ^ 64 * 2 ^ 352
    + recs.length * 2 ^ 336 + ok * 2 ^ 320 + (recs.length - ok) * 2 ^ 304 + (64 + body.length) * 2 ^ 272 + crc32c body * 2 ^ 240
    + d.fault * 2 ^ 208) 64
  (head ++ body, head ++ recs.flatMap fun r => r.1.take 32)

/-- The slot that does not hold the newest dump. -/
def State.dumpSlot (s : State) : Nat :=
  match s.dumps.getLast? with
  | some (0, _) => 1
  | _ => 0

/-- A whole-module dump starts (R431). -/
def startDump (reason fault mode : Nat) : M Unit := do
  let s ← get
  modify fun t => { t with dumpRun := some ⟨reason, mode, s.now, fault, s.dumpSlot⟩ }
  setPar (pk 0x7200 2) 1

/-- A dump is complete: its slot is written, its summary goes to flash, and DumpReady is raised (R430, R431). -/
def completeDump (late : List Nat) : M Unit := do
  let s ← get
  match s.dumpRun with
  | none => skip
  | some d => do
    let b := s.dumpBytes d late
    let newest := s.faultLog.drop (s.faultLog.length - 256)
    modify fun t => { t with
      dumps := (t.dumps.filter fun x => x.1 != d.slot) ++ [(d.slot, b.1)]
      dumpSummary := b.2 ++ newest.flatMap fun r => toBytes r 32
      dumpRun := none }
    setPar (pk 0x7200 2) 2
    raiseEvent 0x47 0xFF 0 (d.slot + d.reason * 256)

/-! ## Pennants that end (R401) -/

/-- Changes what the power governor holds. -/
def setPower (f : PowerSt → PowerSt) : M Unit := modify fun s => { s with power := f s.power }

/-- A pennant (R401). -/
def State.pennant (s : State) (n : Nat) : Pennant := (lookup s.power.pennants n).getD Pennant.reset

def setPennant (n : Nat) (q : Pennant) : M Unit := setPower fun x =>
  { x with pennants := setC (fun _ => Pennant.reset) x.pennants n q }

/-- CumulativeUs of a running pennant counts on to now. -/
def accruePennant (n : Nat) : M Unit := do
  let s ← get
  let q := s.pennant n
  match q.since with
  | none => skip
  | some _ =>
    let us := (s.now - q.counted) / 1000
    if us == 0 then skip
    else do
      bump (pk (0x3400 + n) 1) us
      setPennant n { q with counted := q.counted + 1000 * us }

/-- The last record of a pennant's ring gets its end. -/
def endEpisode (now : Nat) (l : List Nat) : List Nat :=
  match l.getLast? with
  | some r => l.dropLast ++ [setBits r 191 128 now]
  | none => l

/-- The compute rails no longer run under the governor: no stretch and no duty acts, and every pennant that runs ends (R401). -/
def quietPower : M Unit := do
  each [pk 0x3600 0, pk 0x3603 0, pk 0x3604 0] fun k => setPar k 0
  setPower fun q => { q with droop := [], ramp := [], gated := [], stretch := 0, fast := false }
  each (List.range 9) fun n => do
    accruePennant n
    let s ← get
    onlyIf (s.pennant n).since.isSome (setPennant n ⟨none, 0, endEpisode s.now (s.pennant n).ring⟩)

/-! ## Module-fatal handling (R429, R430, R542) -/

/-- Module-fatal handling with its triggering record (R430): the FENCED notice, FatalVector on every port that is up, every
engine stopped, and a dump. It is taken in the states from BOOT to DRAINING. -/
def moduleFatal (r : FaultRec) : M Unit := do
  let s ← get
  let live := match s.mode with
    | .boot | .selftest | .training | .ready | .serving | .draining => true
    | .off | .precharge | .fenced | .safe | .removable => false
  if live then do
    recordFault { r with action := actFatal }
    let s ← get
    let ix := (s.par (pk 0x7100 1) - 1) % 4096
    sendNotice 3 s.nodeId 0
    each (List.range 4) fun h => onlyIf (s.hostPort h).up (sendMsix h (s.par (pk 0x7043 0)))
    raiseEvent 0x48 0xFF 0 ix
    modify fun t => { t with engines := t.engines.map fun x => (x.1, { x.2 with running := none, going := none, resetting := none, loan := none }) }
    startDump 1 ix (modeCode s.mode)
    quietLinks false
    setPar (pk 0x8001 0) 0
    quietPower
    setMode .fenced
  else skip

/-! ## Engines that fail -/

/-- The logical blocks of a set, from block 0 up (R76, R85): bits above the kind's blocks are ignored, and a set without
the receiving block is that block alone. -/
def blockSet (k : Kind) (self mask : Nat) : List Nat :=
  let top := if k = .press then 48 else 16
  let l := (List.range top).filter fun i => bit mask i
  if l.contains self then l else [self]

/-- The set member above block e that is not retired, wrapping from the highest to the lowest (R86). DESIGN CHOICE
(notes/assumptions/50): unsafe. -/
def State.nextMember (s : State) (e mask : Nat) : Option Nat :=
  let base := if e < 48 then 0 else 48
  let l := (blockSet (if e < 48 then .press else .draw) (e - base) mask).map (base + ·)
  (l.filter (fun x => decide (e < x)) ++ l.filter (fun x => decide (x < e))).find? fun x => !(s.engine x).retired

/-- The part of a command whose unit did not end. -/
def Part.again (q : Part) : Part :=
  match q.wait with
  | .units n => { q with wait := .units (n + 1) }
  | _ => q

/-- Part-way commands move to the engine that takes over (R311), on both paths of a codec unit (R131); a padded command that waits for its
combines goes to the next member of its set (R86). -/
def moveParts (e dst' : Nat) : M Unit := do
  let s ← get
  let heir := fun q : Part =>
    match q.wait with
    | .combine _ => (s.nextMember e (bits (q.desc / 2 ^ 256) 191 128)).getD dst'
    | _ => dst'
  each ((s.engine e).parts ++ (s.engine e).going.toList.map Part.again) fun q => setEngine (heir q) fun t => { t with parts := t.parts ++ [q] }
  setEngine e fun q => { q with parts := [], running := none, going := none }
  onlyIf (decide (128 ≤ e)) (do
    let up := s.engine (e + 256)
    setEngine (dst' + 256) fun t => { t with parts := t.parts ++ up.parts ++ up.going.toList.map Part.again }
    setEngine (e + 256) fun q => { q with parts := [], running := none, going := none })

/-- An engine without a spare is retired (R22, R415): the next engine holds its streams, the active count falls; with no unit of its
kind left, module-fatal handling. DESIGN CHOICE (notes/assumptions/50): unsafe. -/
def retireEngine (e err occ : Nat) : M Unit := do
  let s ← get
  match engineKind e with
  | none => skip
  | some k => do
    let r : FaultRec := ⟨err, 3, engineUnitKind e, e, s.engPhysical e 0, actRetired, 0, 0, 0, occ, 0, 0⟩
    noteFailed (engineUnitKind e) (s.engPhysical e 0)
    setEngine e fun q => { q with retired := true, reported := none, resetting := none }
    if k = .stack then moduleFatal r
    else
      match s.heir e with
      | none => moduleFatal r
      | some dst' => do
        recordFault { r with level := engineLevel e }
        moveParts e dst'
        dropCount (countSub k) (engineUnitKind e)

/-- Claimed passes of a work list go to free return slots (R84); answers whether each found one. DESIGN CHOICE (notes/assumptions/50):
unsafe. -/
def returnPasses (w : Who) (list : Nat) : List Nat → M Bool
  | [] => pure true
  | p :: ps => do
    let h ← load w list 64
    match (List.range 8).find? fun j => !bit h.val (344 + j) with
    | none => pure false
    | some j => do
      storeVal w (list + 19 + 3 * j) 3 p
      storeVal w (list + 43) 1 (bits h.val 351 344 + 2 ^ j)
      bump (pk 0x8041 5) 1
      returnPasses w list ps

/-- The index of the descriptor that runs in a stream: the one fetched last. -/
def State.descIndex (s : State) (p ctx e : Nat) : Nat := ((s.stream p ctx e).map fun q => q.fetched - 1).getD 0

/-- One command is dropped at an engine reset (R423): the event and the references it held. -/
def dropAtReset (e p ctx desc index : Nat) : M Unit := do
  raiseEvent 0x40 p 0 (e + ctx * 256 + index % 2 ^ 32 * 2 ^ 16)
  dropRefs e p ctx desc

/-- The head of a stream is dropped; the stream goes on with its next descriptor. -/
def dropHead (p ctx e : Nat) : M Unit := modify fun t =>
  match t.stream p ctx e with
  | none => t
  | some st => t.setStream p ctx e { st with head := none }

/-- A serving command is issued again once in a step; the second time the step is broken off (R424). -/
def againOrBroken (p : Nat) : M Unit := setInst p fun i => if i.rerun then { i with broken := true } else { i with rerun := true }

/-- A region acts on a failed block (R21, R22, R84, R86). claimed: the passes it holds claimed of the work list of its running
command; a spare reruns them itself. Without a spare they are returned, and then the copy is complete and signals its cue: its passes
are the list's again. With no return slot free the copy ends without its cue, as a command dropped at an engine reset (R424). The
share of a padded command goes to the next member of its set. DESIGN CHOICE (notes/assumptions/50): unsafe. -/
def blockFailure (e : Nat) (claimed : List Nat) : M Unit := do
  let s ← get
  match (s.engine e).reported with
  | none => skip
  | some (err, occ) =>
    let listRuns := (s.engine e).going.isNone && (s.engine e).running.any fun c => hOpcode c.desc == 0x02
    let spareUnit := s.spareBlockUnit e
    let key := spareBlockKey e
    let ph := s.engPhysical e 0
    if s.spareBlockReady e then do
      noteFailed ukBlock ph
      setPar key 1
      bump (pk 0x8052 3) 1
      modify fun t => { t with phys := (insertAt t.phys (unitKey ukBlock e 31) spareUnit).filter fun x =>
        !(decide (unitKey ukCell e 0 ≤ x.1) && decide (x.1 ≤ unitKey ukCell e 31)) }
      setPar (spareCellKey e) 0
      setEngine e fun q => { q with
        reported := none, cellsDown := [], tiles := [], waiting := [], meshRun := 0, fetchRun := 0, progress := s.now,
        claims := if listRuns then claimed.take 2 else [] }
      recordFault ⟨err, 2, ukBlock, e, ph, actSpared, 0, 0, 0, occ, 0, 0⟩
    else
      match (if (s.engine e).going.isSome then none else (s.engine e).running) with
      | none => retireEngine e err occ
      | some c => do
        let w := whoOf c.e c.p
        if hOpcode c.desc == 0x02 then do
          let ok ← returnPasses w (bits (c.desc / 2 ^ 256) 255 198 * 64) (claimed.take 2)
          if ok then signalCue w (hSignalAddr c.desc) (hSignalAdd c.desc)
          else do
            dropAtReset c.e c.p c.ctx c.desc (s.descIndex c.p c.ctx c.e)
            onlyIf (s.serving c.p && c.ctx == s.servCtx c.p) (againOrBroken c.p)
          dropHead c.p c.ctx c.e
        else if hOpcode c.desc == 0x03 then
          match s.nextMember e (bits (c.desc / 2 ^ 256) 191 128) with
          | none => skip
          | some m => do
            dropHead c.p c.ctx c.e
            setEngine m fun q => { q with
              parts := q.parts ++ [⟨c.e, c.p, c.ctx, c.desc, c.be, c.start, s.now, false, true, .share c.e, none, none, false, []⟩] }
        else skip
        retireEngine e err occ

/-- Every open transfer of an engine is aborted (R422). dropped: the command whose unit runs, as partition and descriptor: of its transfers
none is sent again by itself, and none that waits is opened. -/
def abortXfers (e : Nat) (dropped : Option (Nat × Nat)) : M Unit := do
  let s ← get
  let mine := fun x : Xfer => x.e == e && dropped == some (x.p, x.desc)
  modify fun t => { t with
    xfers := t.xfers.map fun x => if x.e == e then { x with aborted := true, sentAt := t.now, dropped := mine x } else x
    xferWait := t.xferWait.filter fun x => !mine x }
  each (s.xfers.filter fun x => x.e == e) sendAbort

/-- A reset of an engine is requested (R422): grants stop, its dump is taken, its transfers are aborted and its one record is written
(R405, R423). Further requests merge into it. lost: the Director's command whose unit runs; sub: the attention core that the dump
blames; detail: ms since the last progress for a watchdog. DESIGN CHOICE (notes/assumptions/13): unsafe. -/
def startReset (e cause : Nat) (lost : Option (Nat × Nat)) (sub detail : Nat) : M Unit := do
  let s ← get
  if (s.engine e).resetting.isSome || (s.engine e).retired || (engineKind e).isNone || !s.enginesRun then skip
  else do
    dumpEngine e
    abortXfers e (match (s.engine e).running with | some c => some (c.p, c.desc) | none => lost)
    let n ← windowAdd (relKey (engineUnitKind e) (s.engPhysical e 0) 0x10 + e) 1 1
    setEngine e fun q => { q with resetting := some ⟨s.now, cause, lost, n⟩, loan := none }
    let c := (s.engine e).running
    let pc := match c with
      | some x => (x.p, x.ctx)
      | none => match lost with | some x => (x.1, s.servCtx x.1) | none => (0, 0)
    recordFault ⟨cause, engineLevel e, engineUnitKind e, e, s.engPhysical e 0, actReset, pc.1, pc.2, 0, n, sub, detail⟩
    bump (pk 0x8052 1) 1

/-- An engine reset ends (R422 to R425): the command whose unit ran is dropped, on both paths of a codec unit; a serving
command is issued again once in a step; at ResetLimit the engine has failed. Memory stays as the command left it (R157). DESIGN CHOICE
(notes/assumptions/13): unsafe. -/
def endReset (e : Nat) : M Unit := do
  let s ← get
  match (s.engine e).resetting with
  | none => skip
  | some r =>
    if s.now ≤ r.start + 200000 then do
      let arms := e :: (if 128 ≤ e then [e + 256] else [])
      let runs := arms.filterMap fun a => (s.engine a).running.map fun c => (c, (s.engine a).going)
      each runs fun (c, g) => do
        let next := g.isSome && ((s.stream c.p c.ctx c.e).bind Stream.head).isSome
        dropAtReset c.e c.p c.ctx c.desc (s.descIndex c.p c.ctx c.e - b2n next)
        onlyIf g.isNone (dropHead c.p c.ctx c.e)
        onlyIf (s.serving c.p && c.ctx == s.servCtx c.p) (againOrBroken c.p)
      match r.lost with
      | none => onlyIf runs.isEmpty (raiseEvent 0x40 0 0 e)
      | some (p, d) => do
        dropAtReset e p (s.eff' (pk 0x5834 (p + 1))) d 0
        againOrBroken p
      setEngine e fun q => { q with
        resetting := none, running := none, going := none, progress := s.now, meshRun := 0, tiles := [], waiting := [], claims := [] }
      onlyIf (decide (128 ≤ e)) (setEngine (e + 256) fun q => { q with running := none, going := none })
      if s.par (pk 0x7022 0) ≤ r.count then (if e < 64 then reportBlock e r.cause r.count else retireEngine e r.cause r.count) else skip
    else skip

/-- A reset has not ended within 200 us, or the engine's reset controller fails (R422, R542). -/
def resetOverrun (e : Nat) (fails : Bool) : M Unit := do
  let s ← get
  let late := match (s.engine e).resetting with
    | none => false
    | some r => decide (r.start + 200000 < s.now)
  onlyIf (late || fails) (moduleFatal ⟨0x17, 3, engineUnitKind e, e, s.engPhysical e 0, actFatal, 0, 0, 0, 1, 0, 0⟩)

/-- EngineReset is written (R422, R542): a commanded reset and its record. DESIGN CHOICE (notes/assumptions/13): unsafe. -/
def engineReset (e : Nat) (lost : Option (Nat × Nat)) : M Unit := startReset e ekCommanded lost 0 0

/-! ## Watchdogs, timeouts and heartbeats -/

/-- The watchdog limit of an engine in ms (R420). -/
def watchdogMs (e : Nat) : Nat := if 64 ≤ e && e < 76 then 20 else 50

/-- From when the watchdog of an engine measures (R420): its last progress, or the start of its running unit where that is later.
DESIGN CHOICE (notes/assumptions/13): unsafe. -/
def EngineSt.since (q : EngineSt) : Nat := max q.progress ((q.running.map fun r => r.start).getD 0)

/-- The path of an engine whose watchdog has expired: its own, or the encoder path of a codec unit (R131, R420). lost: a Director's
command runs, so the engine's own path is watched. DESIGN CHOICE (notes/assumptions/13): unsafe. -/
def State.expired (s : State) (e : Nat) (lost : Bool) : Option EngineSt :=
  ((e :: (if 128 ≤ e then [e + 256] else [])).map s.engine).find? fun q =>
    (q.running.isSome || lost) && decide (q.since + watchdogMs e * 1000000 ≤ s.now)

/-- A watchdog expires (R420): an engine reset, and the attention core that the engine dump blames fails (R413). lost: the Director's
command whose unit runs; otherwise the unit of the running command. DESIGN CHOICE (notes/assumptions/13): unsafe. -/
def watchdogExpiry (e : Nat) (core : Option Nat) (lost : Option (Nat × Nat)) : M Unit := do
  let s ← get
  match s.expired e lost.isSome with
  | none => skip
  | some q =>
    if (s.engine e).resetting.isNone && s.engineLive e then do
      let ms := (s.now - q.since) / 1000000
      match core with
      | some k => onlyIf (decide (64 ≤ e) && decide (e < 76) && decide (k < 8)) (coreFails (e - 64) k ekWatchdog ms)
      | none => skip
      startReset e ekWatchdog lost (core.getD 0) ms
    else skip

/-- A mesh access times out (R408). target: UnitKind × 256 + logical number. DESIGN CHOICE (notes/assumptions/14): unsafe. -/
def meshTimeout (e target : Nat) (lost : Option (Nat × Nat)) : M Unit := do
  let s ← get
  let run := (s.engine e).meshRun + 1
  let hits := (s.meshHits.filter fun h => decide (s.now ≤ h.2.2 + 1000000) && !(h.1 == target && h.2.1 == e)) ++ [(target, e, s.now)]
  modify fun t => { t with meshHits := hits }
  setEngine e fun q => { q with meshRun := run }
  onlyIf (decide (run < 3)) (recordFault ⟨ekMesh, 2, engineUnitKind e, e, s.engPhysical e 0, actReissued, 0, 0, 0, run, 0, 0⟩)
  if 3 ≤ ((hits.filter fun h => h.1 == target).map fun h => h.2.1).length then
    moduleFatal ⟨ekMesh, 3, target / 256 % 16, target % 256, 0, actFatal, 0, 0, 0, 1, 0, 0⟩
  else if 3 ≤ run then do
    setEngine e fun q => { q with meshRun := 0 }
    startReset e ekMesh lost 0 0
  else skip

/-- A loft fetch of a block times out (R91): it is issued again; three in a row report the block. -/
def loftFetchTimeout (e : Nat) : M Unit := do
  let s ← get
  let run := (s.engine e).fetchRun + 1
  setEngine e fun q => { q with fetchRun := run }
  recordFault ⟨ekMesh, 1, ukBlock, e, s.engPhysical e 0, if run < 3 then actReissued else actEscalated, 0, 0, 0, run, 0, 0⟩
  onlyIf (decide (3 ≤ run)) (reportBlock e ekMesh run)

/-- A Director core fails (R25, R413, R420): it misses its heartbeat for 100 ms, or err, not 0, is the kind of the uncorrectable error
in its local memory. The spare resumes its tasks from the state in T1, or module-fatal handling. Physical holds the core's number as its unit. DESIGN CHOICE
(notes/assumptions/53): unsafe. -/
def heartbeatMiss (core ms err : Nat) : M Unit := do
  let s ← get
  if (100 ≤ ms || err != 0) && s.directorRuns then do
    let r : FaultRec := ⟨if err == 0 then ekWatchdog else err, 3, ukDirector, 0xFF, physical 0 (s.subPhys ukDirector 0 core) 0, actSpared,
      0, 0, 0, 1, core, if err == 0 then ms else 0⟩
    noteFailed ukDirector (physical 0 (s.subPhys ukDirector 0 core) 0)
    if s.par spareDirectorKey == 0 then do
      recordFault r
      setPar spareDirectorKey 1
      modify fun t => t.setPhys ukDirector 0 core (s.subPhys ukDirector 0 31)
      bump (pk 0x8052 3) 1
    else moduleFatal r
  else skip

/-! ## Cells on loan and in-service tests (R94, R418, R419) -/

/-- No pass can start on a block. -/
def State.blockIdle (s : State) (e : Nat) : Bool := (s.engine e).running.isNone && (s.choose e).isNone

/-- A block that has spent 1 % of a window's cycles on background compute lends no cell for the rest of the window (R512): the window,
the cycles counted in it, and whether lending is paused. used: its background cycles in the present window, of cycles in all. -/
def EngineSt.lending (q : EngineSt) (now used cycles : Nat) : Nat × Nat × Bool :=
  let w := now / 1000000000
  let before := if q.lent.1 == w then q.lent.2 else (0, false)
  (w, max used before.1, before.2 || (used != 0 && decide (cycles ≤ 100 * used)))

/-- The counters of R512: background cycles not yet counted, and a window in which lending pauses. -/
def noteLending (e used cycles : Nat) : M Unit := do
  let s ← get
  let old := (s.engine e).lending s.now 0 0
  let new := (s.engine e).lending s.now used cycles
  setEngine e fun q => { q with lent := new }
  bump (pk 0x8020 3) (new.2.1 - old.2.1)
  bump (pk 0x8020 4) (b2n (new.2.2 && !old.2.2))

/-- A block lends an idle cell (R94), within its share of background compute (R512). -/
def cellLoan (e cell idleNs used cycles : Nat) : M Unit := do
  noteLending e used cycles
  let s ← get
  if e < 64 && cell < 16 && 40000 ≤ idleNs && s.blockIdle e && (s.engine e).loan.isNone && s.engineLive e && !(s.engine e).lent.2.2
      && (lookup (s.engine e).cellsDown cell).isNone then
    setEngine e fun q => { q with loan := some cell }
  else skip

/-- Slices of a full test (R418). -/
def istSlices (kind : Nat) : Nat := if kind == ukAttnCore then 24 else 48

/-- The first block of the region and kind whose spare block the number e from 192 on stands for: 192 + 2 r for Press and 193 + 2 r for
Draw blocks of region r. -/
def spareOwner (e : Nat) : Nat := if e % 2 == 0 then 12 * ((e - 192) / 2) else 48 + 4 * ((e - 192) / 2)

/-- The physical position of a unit under test: a cell of a spare block, or a logical cell or core. -/
def State.testPhysical (s : State) (kind e sub : Nat) : Nat :=
  if 192 ≤ e then physical (engineRegion (spareOwner e)) (s.spareBlockUnit (spareOwner e)) sub else s.cellPhysical kind e sub

/-- A unit is idle under R94, so a slice may run on it: a cell on loan, a spare that is AVAILABLE, or a core of a stack engine that runs
nothing. -/
def State.istIdle (s : State) (kind e sub : Nat) : Bool :=
  if 192 ≤ e then s.par (spareBlockKey (spareOwner e)) == 0
  else if sub == 31 then s.par (if kind == ukCell then spareCellKey e else spareCoreKey (e - 64)) == 0
  else if kind == ukAttnCore then (s.engine e).running.isNone else (s.engine e).loan == some sub

/-- A cell or attention core, or a spare (sub-unit 31), fails its test. A spare block one of whose cells fails has failed (R419).
DESIGN CHOICE (notes/assumptions/53): unsafe. -/
def istFail (kind e sub : Nat) : M Unit := do
  let s ← get
  let isCell := kind == ukCell
  if 192 ≤ e then do
    let b := spareOwner e
    let ph := physical (engineRegion b) (s.spareBlockUnit b) 0
    setPar (spareBlockKey b) 2
    noteFailed ukBlock ph
    recordFault ⟨ekIst, 2, ukBlock, 0xFF, ph, actRetired, 0, 0, 0, 1, 31, 0⟩
  else if sub == 31 then do
    let ph := s.cellPhysical kind e sub
    setPar (if isCell then spareCellKey e else spareCoreKey (e - 64)) 2
    noteFailed kind ph
    recordFault ⟨ekIst, if isCell then 0 else 3, kind, e, ph, actRetired, 0, 0, 0, 1, 31, 0⟩
  else if isCell then do
    setEngine e fun q => { q with loan := none }
    cellFails e sub ekIst 1
  else coreFails (e - 64) sub ekIst 0

/-- A cell of a block, or an attention core of a stack engine; sub-unit 31 is the spare. A cell of a spare block, its 17 cells numbered
from 0, under the block numbers from 192 on. -/
def testable (kind e sub : Nat) : Bool :=
  (kind == ukCell && ((decide (e < 64) && (decide (sub < 16) || sub == 31)) || (decide (192 ≤ e) && decide (e < 200) && decide (sub < 17)))) ||
    (kind == ukAttnCore && decide (64 ≤ e) && decide (e < 76) && (decide (sub < 8) || sub == 31))

/-- An in-service test slice ends (R418): cut short it is not counted; a wrong signature fails the unit at once. A full test is each of its
slices passed. -/
def istSlice (kind e sub slice signature : Nat) (cut : Bool) : M Unit := do
  let s ← get
  if testable kind e sub && s.istIdle kind e sub && decide (slice < istSlices kind) && !cut then do
    let ph := s.testPhysical kind e sub
    let k := testKey kind ph
    bump (pk 0x8052 4) 1
    if signature == Config.istSignature k slice then
      modify fun t =>
        let n := (t.test k).1 ||| 2 ^ slice
        if n + 1 == 2 ^ istSlices kind then { t with tests := insertAt t.tests k (0, t.now), overdue := t.overdue.filter (· != k) }
        else { t with tests := insertAt t.tests k (n, (t.test k).2) }
    else do
      bump (pk 0x8052 5) 1
      istFail kind e sub
  else skip

/-- An active unit near IstPeriod without a completed test (R419): between two units of its engine it changes places with the spare, or it
is overdue. -/
def istRotation (kind e sub : Nat) : M Unit := do
  let s ← get
  let isCell := kind == ukCell && decide (e < 64) && decide (sub < 16) && (lookup (s.engine e).cellsDown sub).isNone
  let isCore := kind == ukAttnCore && decide (64 ≤ e) && decide (e < 76) && decide (sub < 8)
  let ph := s.cellPhysical kind e sub
  let k := testKey kind ph
  if (isCell || isCore) && !s.retired.contains (failedKey kind ph) && decide ((s.test k).2 + s.istPeriod ≤ s.now + hourNs) then
    let key := if isCell then spareCellKey e else spareCoreKey (e - 64)
    let old := s.subPhys kind e sub
    let spare := s.subPhys kind e 31
    if s.spareReady key kind (s.engPhysical e spare) then onlyIf (s.engine e).running.isNone do
      modify fun t => (t.setPhys kind e sub spare).setPhys kind e 31 old
      bump (pk 0x8052 3) 1
    else if s.par key != 0 && !s.overdue.contains k then do
      modify fun t => { t with overdue := t.overdue ++ [k] }
      bump (pk 0x8052 6) 1
      raiseEvent 0x43 0xFF 0 (kind + ph * 256)
    else skip
  else skip

/-! ## Commands -/

/-- EnterFenced (R429, R542). -/
def enterFenced : M Unit := moduleFatal ⟨ekCommanded, 3, ukDirector, 0xFF, 0, actFatal, 0, 0, 0, 1, 0, 0⟩

/-- DumpStart (R431): no effect while a dump is running. The newest record is named as the trigger. -/
def dumpStart : M Unit := do
  let s ← get
  if s.dumpRun.isSome then skip else startDump 3 ((s.par (pk 0x7100 1) - 1) % 4096) (modeCode s.mode)

/-- The flash copy of the fault log is committed (R405). -/
def faultLogCommit : M Unit := modify fun s => { s with
  flashLog := s.faultLog.drop (s.faultLog.length - 256)
  flashDue := none }

end Sys2Proof.Machine
end

