-- ==== Sys2Proof/Machine/Links.lean ====
section
/-! DEFINITION. Kwanex link groups (chapter "Kwanex fabric and topology"): flits, retry, credits, lane sparing, group states,
identity and the wiring plan, fabric time, and the choice of a group for a packet. -/
namespace Sys2Proof.Machine

/-! ## Groups -/

/-- The Physical field of a group (R406). -/
def groupPhysical (g sub : Nat) : Nat := physical (g / 6) (26 + g % 6) sub

/-- A group is mapped out (R345): 1 SECOND_LANE, 2 RETRAINS, 3 TRAINING, 4 MISWIRED. -/
def mapOut (g reason : Nat) : M Unit := do
  let s ← get
  if bit (s.par (pk 0x4008 0)) g then skip
  else do
    setPar (pk 0x4008 0) (s.par (pk 0x4008 0) + 2 ^ g)
    setPar (pk 0x4009 (g + 1)) reason
    recordFault ⟨0x0D, 3, ukLane, 0xFF, groupPhysical g 0, actRetired, 0, 0, 0, 1, 0, 0⟩
    setLinkState g 5
    raiseEvent 0x20 0xFF 0 (g + reason * 256)
    sendNotice 2 s.nodeId (2 ^ g)

/-! ## Fabric time (R370 to R373) -/

/-- The sender that time is taken from: the UP or MGMT_ONLY group of lowest (stratum, NodeId) that gives time (R370). -/
def State.timeParent (s : State) : Option Nat :=
  let rank := fun g => (s.link g).stratum * 2 ^ 16 + ((lookup s.peers g).map fun r => r.node).getD 0xFFFF
  ((List.range 24).filter fun g => (s.linkState g == 2 || s.linkState g == 3) && decide ((s.link g).stratum ≤ 14)).foldl
    (fun (b : Option Nat) g => match b with
      | none => some g
      | some h => if rank g < rank h then some g else some h) none

/-- The filtered offset in 1/16 ns: the mean of the offsets kept (R371). -/
def TimeSt.mean (c : TimeSt) : Int := if c.offsets.isEmpty then 0 else (c.offsets.foldl (· + ·) 0) / (c.offsets.length : Int)

/-- One offset of the time source, in 1/16 ns (R371): filtered over 1,024; the first steps time forward, later ones only from
more than 10 µs behind; otherwise the rate is trimmed by at most 200 ppm. LOCKED after 1 s within 10 ns. -/
def takeOffset (off : Int) : M Unit := modify fun s =>
  let c := s.clock
  let kept := (if 1024 ≤ c.offsets.length then c.offsets.drop 1 else c.offsets) ++ [off]
  let c1 : TimeSt := { c with offsets := kept }
  let ns := c1.mean / 16
  if !c.stepped || decide (10000 < ns) then
    { s with now := s.now + ns.toNat
             clock := { c1 with offsets := [], stepped := true, small := none }
             params := setC paramDefault (setC paramDefault s.params (pk 0x4022 0) 1) (pk 0x4023 0) (ofSigned 32 ns) }
  else
    let small := decide (-10 ≤ ns) && decide (ns ≤ 10)
    let since := if small then some (c.small.getD s.now) else none
    let locked := match since with | some t => decide (t + 1000000000 ≤ s.now) | none => false
    { s with clock := { c1 with small := since, trim := max (-200) (min 200 ns) }
             params := setC paramDefault (setC paramDefault s.params (pk 0x4022 0) (if locked then 2 else 1)) (pk 0x4023 0) (ofSigned 32 ns) }

/-- TimeSource is FREE (R370, R374): time is taken from no one. -/
def freeRun : M Unit := do
  modify fun s => { s with clock := { s.clock with parent := none, offsets := [], small := none, ptp := PtpRun.reset } }
  setPar (pk 0x4022 0) 0

/-- The parent is lost and no other source is found (R372). -/
def timeHoldover : M Unit := do
  let s ← get
  let lost := match s.par (pk 0x4020 0) with
    | 0 => s.par (pk 0x4021 0) == 0 && s.timeParent.isNone
    | 1 => true
    | _ => false
  if lost && s.clock.stepped && s.par (pk 0x4022 0) != 3 then do
    modify fun t => { t with clock := { t.clock with parent := none, offsets := [], small := none } }
    setPar (pk 0x4022 0) 3
    raiseEvent 0x23 0xFF 0 (s.par (pk 0x4023 0))
  else skip

/-- The master's time is known for a Sync: the module asks for the delay (R373). -/
def delayRequest (port : Nat) (m : PtpMsg) : M Unit := modify fun s =>
  let r := s.clock.ptp
  { s with out := s.out ++ [.delayReq port m.transport s.clock.ptp.seq]
           clock := { s.clock with ptp := { r with t1 := some m.stamp, t3 := some (s.now * 16), seq := (r.seq + 1) % 2 ^ 16 } } }

/-- An IEEE 1588 message on an Ethernet port (R370, R373), over any of the three transports: Sync of a one-step master, or Sync and Follow_Up
of a two-step one, then Delay_Resp to the module's Delay_Req. The arrival is time-stamped at the port. Of the masters of a domain the one
that sends is taken. PRESUMED (notes/assumptions/40): unsafe. -/
def ptpMessage (port domain : Nat) (m : PtpMsg) : M Unit := do
  let s ← get
  let r := s.clock.ptp
  if s.par (pk 0x4020 0) == 1 && s.par (pk 0x4025 0) == port && s.par (pk 0x4024 0) == domain then
    match m.kind with
    | .sync twoStep => do
      modify fun t => { t with clock := { t.clock with ptp := { r with sync := m.seq, t1 := none, t2 := s.now * 16, t3 := none } } }
      onlyIf (!twoStep) (delayRequest port m)
    | .followUp => onlyIf (r.sync == m.seq && r.t1.isNone) (delayRequest port m)
    | .delayResp =>
      match r.t1, r.t3 with
      | some t1, some t3 =>
        if m.seq == (r.seq + 65535) % 65536 then do
          modify fun t => { t with clock := { t.clock with ptp := { r with t3 := none } } }
          takeOffset (((t1 - r.t2) + (m.stamp - t3)) / 2)
        else skip
      | _, _ => skip
  else skip

/-! ## Retry (R340, R342) -/

/-- The group goes to RETRAIN (R342): the replay buffer is kept; the third time within 60 s maps it out. -/
def goRetrain (g : Nat) : M Unit := do
  let s ← get
  let times := ((s.link g).retrains.filter fun t => decide (s.now ≤ t + 60000000000)) ++ [s.now]
  setLinkGroup g fun q => { q with retrains := times, nakCount := 0, before := s.linkState g }
  bump (pk 0x8050 4) 1
  if 3 ≤ times.length then mapOut g 2 else setLinkState g 4

/-- Data flits are outstanding without an advance of AckSeq for 100 µs (R342). -/
def ackProgressTimeout (g : Nat) : M Unit := do
  let s ← get
  let q := s.link g
  if s.linkRuns g && !q.replay.isEmpty && decide (q.ackTime + 100000 ≤ s.now) then goRetrain g else skip

/-! ## Identity and the wiring plan (R349 to R351) -/

/-- The CRC-32C of the wiring plan in force. -/
def State.planCrc (s : State) : Nat := crc32c ((List.range 24).flatMap fun g => toBytes (s.planEntry g) 8)

/-- The record names the peer that the plan names. -/
def planMatches (v : Nat) (r : IdRec) : Bool :=
  if planKind v == 1 then r.switch && bits v 61 46 == r.plane * 256 + r.port
  else !r.switch && bits v 61 46 == r.node && bits v 45 40 == r.group

/-- A group may train: with a valid plan, only one that has an entry (R344, R351). -/
def State.groupStarts (s : State) (g : Nat) : Bool :=
  s.par (pk 0x4004 0) == 0 || s.nodeId == 0xFFFF || planKind (s.planEntry g) != 0

/-- The state that a comparison gives a group; one in RETRAIN takes it when it has trained (R342, R351). -/
def settleGroup (g st : Nat) : M Unit := do
  let s ← get
  if s.linkState g == 4 then setLinkGroup g fun q => { q with before := st } else setLinkState g st

/-- A group's record is compared with its plan entry (R351); without an entry it is OFF, whatever its record. -/
def compareGroup (g : Nat) : M Unit := do
  let s ← get
  if s.linkState g == 5 || s.linkState g == 0 then skip
  else if !s.groupStarts g then setLinkState g 0
  else
    match lookup s.peers g with
    | none => skip
    | some r =>
      if s.par (pk 0x4004 0) == 0 || s.nodeId == 0xFFFF then settleGroup g 2
      else if planMatches (s.planEntry g) r then do
        onlyIf (r.crc != s.planCrc) (bump (pk 0x8050 10) 1)
        settleGroup g 3
      else mapOut g 4

/-- A group trains afresh. -/
def trainGroup (g : Nat) : M Unit := do
  setLinkGroup g fun q => { q with upSince := none }
  setLinkState g 1

/-- A group that carries traffic again sends what waits. -/
def resume (g : Nat) : M Unit := do
  let s ← get
  if s.linkRuns g then pump g 1024 else skip

/-- An identity record arrives (R349, R351): it is kept; the first after training is compared. -/
def identityRecord (g : Nat) (r : IdRec) : M Unit := do
  let s ← get
  if s.linkState g == 0 || s.linkState g == 5 || 24 ≤ g then skip
  else do
    modify fun t => { t with peers := insertAt t.peers g r }
    if s.linkState g == 1 then do
      compareGroup g
      resume g
    else skip

/-- An identity record in 64 B: the serial or the switch's plane and port, NodeId, group, profile, CRC of the plan, and whether a switch
sent it. The layout is the model's. DESIGN CHOICE (notes/assumptions/40): unsafe. -/
def idBytes (r : IdRec) : List Nat :=
  toBytes (if r.switch then r.plane * 256 + r.port else r.serial) 16 ++ toBytes r.node 2
    ++ [r.group % 256, r.profile % 256] ++ toBytes r.crc 4 ++ [b2n r.switch] ++ List.replicate 39 0

/-- The record that 64 bytes hold. -/
def idRecOf (b : List Nat) : IdRec :=
  let n := fun i k => ofBytes ((b.drop i).take k)
  let sw := n 24 1 % 2 == 1
  ⟨sw, if sw then 0 else n 0 16, n 16 2, n 18 1, n 19 1, n 20 4, if sw then n 0 16 / 256 else 0, if sw then n 0 16 % 256 else 0⟩

/-- This module's record of a group. -/
def State.identity (s : State) (g : Nat) : IdRec := ⟨false, s.par (pk 0x1001 0), s.nodeId, g, s.division, s.planCrc, 0, 0⟩

/-- A group that is not OFF sends its identity record as an MGMT packet (R349); it waits while the group carries nothing. The peer's NodeId
is not known: DstNode is 0xFFFF. DESIGN CHOICE (notes/assumptions/40): unsafe. -/
def identitySend (g : Nat) : M Unit := do
  let s ← get
  if s.linkRuns g || s.linkState g == 4 then
    queuePacket g 2 (toBytes (packetHeader 0xFFFF s.nodeId 3 0 0 0 64 0 none 0) 32 ++ idBytes (s.identity g))
  else skip

/-- The states of the module in which groups train and carry traffic. -/
def State.linksOn (s : State) : Bool :=
  match s.mode with
  | .training | .ready | .serving | .draining | .removable | .fenced => true
  | .off | .precharge | .boot | .selftest | .safe => false

/-- LinkPlanApply is written (R351): the written plan takes effect, and every group is compared again. A group that was OFF for want of an
entry and now has one trains. -/
def linkPlanApply : M Unit := do
  each (List.range 24) fun g => do
    let v ← par (pk 0x4003 (g + 1))
    setEff (pk 0x4003 (g + 1)) v
  each (List.range 24) fun g => do
    let s ← get
    if s.linkState g == 0 then onlyIf (s.groupStarts g && s.linksOn) (trainGroup g)
    else do
      compareGroup g
      resume g

/-- A group finishes training (R334, R349), or fails to (R342, R345). -/
def groupTrained (g : Nat) (ok : Bool) : M Unit := do
  let s ← get
  if s.linkState g == 1 && g < 24 then
    if ok then do
      setLinkGroup g fun q => { LinkGroup.reset with
        retrains := q.retrains, txSpare := q.txSpare, rxSpare := q.rxSpare, upSince := some s.now, ctlAt := s.now }
      modify fun t => { t with peers := eraseKey t.peers g }
      identitySend g
    else mapOut g 3
  else skip

/-- A retrain ends (R342): what was not acknowledged is sent again; a failed training maps the group out. -/
def retrainDone (g : Nat) (ok : Bool) : M Unit := do
  let s ← get
  if s.linkState g == 4 && g < 24 then
    if ok then do
      setLinkGroup g fun q => { q with ackTime := s.now, upSince := some s.now, ctlAt := s.now, txWord := ([], 0), marks := 0, rxWord := none }
      setLinkState g (s.link g).before
      identitySend g
      each (s.link g).replay fun f => sendFlit g f.2
      bump (pk 0x8050 3) (s.link g).replay.length
      resume g
    else mapOut g 3
  else skip

/-- A group loses lock, as with a change of cable (R351): it trains again before it carries traffic. -/
def groupLossOfLock (g : Nat) : M Unit := do
  let s ← get
  if g < 24 && (s.linkRuns g || s.linkState g == 4) then trainGroup g else skip

/-- LinkRestore is written (R345): the map-out ends and the group trains again. -/
def linkRestore (g : Nat) : M Unit := do
  let s ← get
  if g < 24 && s.linkState g == 5 then do
    setPar (pk 0x4008 0) (s.par (pk 0x4008 0) - (if bit (s.par (pk 0x4008 0)) g then 2 ^ g else 0))
    setPar (pk 0x4009 (g + 1)) 0
    trainGroup g
  else skip

/-! ## Lane sparing (R343) -/

/-- The spare of a direction is in use: recorded in SpareInUse, counted, and a record is written. -/
def noteSpare (g lane : Nat) (tx : Bool) : M Unit := do
  let s ← get
  let b := 2 * g + b2n (!tx)
  onlyIf (!bit (s.par (pk 0x400C 0)) b) (setPar (pk 0x400C 0) (s.par (pk 0x400C 0) + 2 ^ b))
  bump (pk 0x8050 5) 1
  recordFault ⟨0x0C, 3, ukLane, 0xFF, groupPhysical g lane, actSpared, 0, 0, 0, 1, lane, 0⟩

/-- The codeword count at which a handover step applies: the next codeword's, as this end counts them. DESIGN CHOICE
(notes/assumptions/40): unsafe. -/
def State.spareAt (s : State) (g : Nat) : Nat := s.wordCount g + 1

/-- The receiver asks for the spare in place of a lane; a second failing lane maps the group out. -/
def requestSpare (g lane : Nat) (lost : Bool) : M Unit := do
  let s ← get
  let q := s.link g
  if g < 24 && lane < 4 && s.linkRuns g then
    if q.rxSpare.isSome || (q.rxSwap.phase != 0 && q.rxSwap.lane != lane) then mapOut g 1
    else if q.rxSwap.phase != 0 then skip
    else do
      setLinkGroup g fun q => { q with rxSwap := ⟨1, lane, s.spareAt g, lost⟩ }
      sendControl g 1 lane (s.spareAt g)
  else skip

/-- A lane's error ratio over 1 s exceeds LaneBerLimit, or it loses lock (R343). ber: FP32. -/
def laneErrorDetect (g lane ber : Nat) (lockLost : Bool) : M Unit := do
  let s ← get
  onlyIf (decide (g < 24)) (set { s with rel := setC (fun _ => 0) s.rel (relKey ukLane (groupPhysical g (lane % 8)) 2) (ber % 2 ^ 32) })
  if lockLost || decide (s.par (pk 0x400D 0) < ber) then requestSpare g lane lockLost else skip

/-- LaneSpareStart is written (R343): group × 8 + logical lane. -/
def laneSpareStart (v : Nat) : M Unit := do
  let s ← get
  if (s.link (v / 8)).rxSpare.isSome then skip else requestSpare (v / 8) (v % 8) false

/-- The receiver chooses the codeword at which the spare takes the lane over. -/
def sendSwitch (g lane : Nat) (lost : Bool) : M Unit := do
  let s ← get
  setLinkGroup g fun q => { q with rxSwap := ⟨3, lane, s.spareAt g, lost⟩ }
  sendControl g 3 lane (s.spareAt g)

/-- The spare carries a lane at the receiver. -/
def rxSwitched (g lane : Nat) : M Unit := do
  setLinkGroup g fun q => { q with rxSwap := ⟨0, 0, 0, false⟩, rxSpare := some lane }
  noteSpare g lane false

/-- A SpareOp arrives: 1 REQUEST and 3 SWITCH at the transmitter, 2 COPYING and 4 DONE at the receiver. After COPYING the receiver
compares 64 codewords, or switches at once where the lane has lost lock. -/
def spareOp (g op lane at' : Nat) : M Unit := do
  let s ← get
  let q := s.link g
  match op with
  | 1 =>
    if q.txSpare.isSome && q.txSpare != some lane then mapOut g 1
    else do
      setLinkGroup g fun q => { q with txSwap := ⟨1, lane, s.spareAt g, false⟩ }
      sendControl g 2 lane (s.spareAt g)
  | 2 =>
    if q.rxSwap.phase == 1 && q.rxSwap.lane == lane then
      if q.rxSwap.lost then sendSwitch g lane true
      else setLinkGroup g fun q => { q with rxSwap := ⟨2, lane, at' + 64, false⟩ }
    else skip
  | 3 => onlyIf (q.txSwap.phase == 1 && q.txSwap.lane == lane) (setLinkGroup g fun q => { q with txSwap := ⟨3, lane, at', false⟩ })
  | 4 => onlyIf (q.rxSwap.phase == 3 && q.rxSwap.lane == lane) (rxSwitched g lane)
  | _ => skip

/-- The handovers of a group whose codeword count has come: the comparison ends with SWITCH, and the spare takes the lane over at both
ends, where the transmitter sends DONE. -/
def spareStep (g : Nat) : M Unit := do
  let s ← get
  let q := s.link g
  let come := fun z : LaneSwap => decide (z.at' ≤ s.wordCount g)
  onlyIf (q.txSwap.phase == 3 && come q.txSwap) (do
    setLinkGroup g fun q => { q with txSwap := ⟨0, 0, 0, false⟩, txSpare := some q.txSwap.lane }
    noteSpare g q.txSwap.lane true
    sendControl g 4 q.txSwap.lane q.txSwap.at')
  if q.rxSwap.phase == 2 && come q.rxSwap then sendSwitch g q.rxSwap.lane false
  else onlyIf (q.rxSwap.phase == 3 && come q.rxSwap) (rxSwitched g q.rxSwap.lane)

/-- What the groups send by themselves in a tick: a CONTROL flit in every 128th slot, IDLE flits in a codeword begun, markers, and the
steps of lane handovers (R336, R338, R343). DESIGN CHOICE (notes/assumptions/40): safe. -/
def linkTick : M Unit := each (List.range 24) fun g => do
  let s ← get
  onlyIf (s.linkRuns g && (s.link g).upSince.isSome) (do
    onlyIf (decide ((s.link g).ctlAt + controlNs ≤ s.now)) (sendControl g 0 0 0)
    spareStep g
    fillWord g
    let k := s.wordCount g / 1024
    onlyIf (decide ((s.link g).marks < k)) (do
      setLinkGroup g fun q => { q with marks := k }
      sendMarker g (1024 * k - 1)))

/-! ## Receiver (R335 to R340) -/

/-- The codewords of the four lanes that carry a flit, as the byte errors of each, and fifth their number (R335, R336): up to 8 are
corrected, and a codeword counts once for the four flits that it carries. Answers whether one is uncorrectable. The lanes come deskewed.
DESIGN CHOICE (notes/assumptions/40): safe. -/
def takeCodewords (g : Nat) (errs : List Nat) : M Bool := do
  let s ← get
  let lanes := errs.take 4
  onlyIf (errs[4]?.isNone || errs[4]? != (s.link g).rxWord) (do
    bump (pk 0x8050 1) ((lanes.filter fun n => decide (n ≤ 8)).foldl (· + ·) 0)
    bump (pk 0x8050 2) (lanes.filter fun n => decide (8 < n)).length
    onlyIf errs[4]?.isSome (setLinkGroup g fun q => { q with rxWord := errs[4]? }))
  pure (lanes.any fun n => decide (8 < n))

/-- A flit fails its CRC (R337, R340): it is discarded, and so is every later one until the expected Seq arrives; a NAK is
sent. -/
def flitBad (g : Nat) : M Unit := do
  setLinkGroup g fun q => { q with rxHold := true }
  sendControl g 0 0 0

def flitOk (bytes : List Nat) : Bool := bytes.length == 256 && crc32c (bytes.take 252) == ofBytes (bytes.drop 252)

/-- Bytes of a packet from its 32 B header on (R352). -/
def packetBytes (bs : List Nat) : Nat := 32 + bits (ofBytes (bs.take 32)) 200 188

/-- The packets that start in some bytes, and the bytes of one that goes on; zeros to the end are padding, but not where a packet is known
to start. -/
def splitPackets : Nat → Bool → List Nat → List (List Nat) × List Nat
  | 0, _, bs => ([], bs)
  | fuel + 1, starts, bs =>
    if !starts && bs.all (· == 0) then ([], [])
    else if bs.length < 32 || bs.length < packetBytes bs then ([], bs)
    else
      let n := packetBytes bs
      let r := splitPackets fuel false (bs.drop (alignUp n 8))
      (bs.take n :: r.1, r.2)

/-- One payload of a channel (R337): the rest of the packet being received, then packets from FirstPacket on. -/
def takePayload (held : List Nat) (first : Nat) (payload : List Nat) : List (List Nat) × List Nat :=
  let head := if first == 63 then payload else payload.take (8 * first)
  let buf := held ++ head
  let done := !held.isEmpty && decide (32 ≤ buf.length) && decide (packetBytes buf ≤ buf.length)
  let old := if done then [buf.take (packetBytes buf)] else []
  if first == 63 then (old, if done || held.isEmpty then [] else buf)
  else
    let r := splitPackets 8 true (payload.drop (8 * first))
    (old ++ r.1, r.2)

/-- A DATA flit arrives (R335, R337, R340): taken in Seq order, its packets delivered with their channel. -/
def dataFlit (g : Nat) (errs bytes : List Nat) (deliver : Nat → List Nat → M Unit) : M Unit := do
  let s ← get
  if g < 24 && s.linkRuns g then do
    let bad ← takeCodewords g errs
    if bad || !flitOk bytes then flitBad g
    else
      let h := ofBytes (bytes.take 4)
      let seq := bits h 27 16
      let ch := bits h 15 14
      let q := s.link g
      if bits h 31 28 != 1 || ch == 3 then skip
      else if seq != q.rxSeq then skip
      else do
        let r := takePayload (q.rxBytes.getD ch []) (bits h 13 8) ((bytes.drop 4).take 248)
        setLinkGroup g fun q => { q with
          rxSeq := (q.rxSeq + 1) % 4096
          rxHold := false
          rxBytes := setNth q.rxBytes ch r.2
          freed := setNth q.freed ch (nth q.freed ch + 1) }
        let allowed := s.mode != .fenced && s.linkState g == 3 || ch == 2
        each r.1 fun p => onlyIf allowed (deliver ch p)
  else skip

/-- The flits that an AckSeq does not cover (R339: cumulative). -/
def afterAck (ack : Nat) (l : List (Nat × List Nat)) : List (Nat × List Nat) :=
  if l.any fun f => f.1 == ack then (l.dropWhile fun f => f.1 != ack).drop 1 else l

/-- A CONTROL flit arrives (R339): acknowledgement, NAK, credits, spare operation and time. -/
def controlFlit (g : Nat) (errs bytes : List Nat) : M Unit := do
  let s ← get
  if g < 24 && s.linkRuns g then do
    let bad ← takeCodewords g errs
    if bad || !flitOk bytes then flitBad g
    else if bits (ofBytes (bytes.take 4)) 31 28 != 2 then skip
    else do
      let v := ofBytes ((bytes.drop 4).take 48)
      let q := s.link g
      let left := afterAck (bits v 11 0) q.replay
      let moved := left.length != q.replay.length
      let nak := bit v 31
      let nakSeq := bits v 27 16
      let count := if nak then (if q.nakSeq == nakSeq && !moved then q.nakCount + 1 else 1) else q.nakCount
      setLinkGroup g fun q => { q with
        replay := left
        ackTime := if moved then s.now else q.ackTime
        nakSeq := if nak then nakSeq else q.nakSeq
        nakCount := if nak then count else if moved then 0 else q.nakCount
        credits := [nth q.credits 0 + bits v 47 32, nth q.credits 1 + bits v 63 48, nth q.credits 2 + bits v 79 64]
        echoTx := bits v 191 128
        echoRx := s.now * 16
        stratum := bits v 323 320 }
      spareOp g (bits v 95 93) (bits v 82 80) (bits v 127 96)
      if nak && 8 ≤ count then goRetrain g
      else do
        let again := if nak then left.dropWhile fun f => f.1 != nakSeq else []
        each again fun f => sendFlit g f.2
        bump (pk 0x8050 3) again.length
        let t ← get
        if t.par (pk 0x4020 0) == 0 && t.par (pk 0x4021 0) == 0 then do
          let parent := t.timeParent
          let fresh := parent != t.clock.parent
          modify fun u => { u with clock := { u.clock with parent := parent, offsets := if fresh then [] else u.clock.offsets } }
          let echoTx := bits v 255 192
          let echoRx := bits v 319 256
          let off := (((echoRx : Int) - echoTx) - ((s.now * 16 : Int) - bits v 191 128)) / 2
          onlyIf (parent == some g && echoTx != 0) (takeOffset off)
        else skip
        resume g
  else skip

/-! ## The port router's choice (R347, R348) -/

end Sys2Proof.Machine
end

