-- ==== Sys2Proof/Machine/Blocks.lean ====
section
/-! DEFINITION. What the commands of the Press and Draw blocks compute (chapter "Press and Draw blocks"): passes, split K,
work lists, padded shares and the vector arithmetic. -/
namespace Sys2Proof.Machine

/-- Output columns of a tile (R66). -/
def tileCols (k : Kind) : Nat := if k = .press then 64 else 32

/-- The rate class of a format (R50): 16, 8, 6, 4 or 2. -/
def Fmt.cls (f : Fmt) : Nat := if f == Fmt.fp32 then 16 else f.elemBits

/-- Kc of R67. -/
def kcOf (k : Kind) (w a : Fmt) : Nat :=
  let press :=
    if w.cls == 16 || a.cls == 16 then 16
    else if w.cls == 2 then (if a.cls == 4 then 256 else 128)
    else if w.cls == 8 || a.cls == 8 then 64
    else 128
  if k = .press then press else press / 2

/-- Lw of R71: the CellClk cycles that load one weight slice with its scales through the 64 B feed. -/
def lwOf (k : Kind) (w a : Fmt) : Nat :=
  let kc := kcOf k w a
  let bytes2 := tileCols k * kc * w.elemBits * (if w.block == 0 then 1 else w.block)
  let sc8 := if w.block == 0 then 0 else tileCols k * kc * 8
  ceilDiv (bytes2 + sc8) (512 * (if w.block == 0 then 1 else w.block))

/-- P of R72. -/
def passCycles (s r lw : Nat) : Nat := s * max r lw + 40

/-- A job record (R77); KChunkLen in K positions. -/
structure Job where
  wAddr   : Nat
  auxOne  : Bool
  accIn   : Bool
  aAddr   : Nat
  oAddr   : Nat
  cAddr   : Nat
  partAddr : Nat
  m       : Nat
  n       : Nat
  k       : Nat
  chunk   : Nat
  tileM   : Nat
  vec     : Nat
deriving DecidableEq, Repr

/-- The job record's fields, with M, N and K raised to 1 where they are 0. -/
def jobOf (v : Nat) : Job :=
  ⟨bits v 511 453 * 32, bit v 449, bit v 448, bits v 447 389 * 32, bits v 383 325 * 32, bits v 319 261 * 32,
   bits v 255 198 * 64, max 1 (bits v 191 168), max 1 (bits v 167 144), max 1 (bits v 143 120),
   bits v 119 104 * 16, bits v 103 96 + 1, bits v 95 64⟩

/-- Clamped fields of a job record: those of M, N and K that are 0 (K not in vector commands). -/
def jobClamps (v : Nat) (vector : Bool) : Nat :=
  b2n (bits v 191 168 == 0) + b2n (bits v 167 144 == 0) + b2n (!vector && bits v 143 120 == 0)

/-- The operands and the geometry of a matrix command as its passes use them. Row and column bases are those of a
work-list item (R81), 0 otherwise. -/
structure MatEnv where
  /-- the block whose cells run the passes -/
  host    : Nat
  w       : Who
  kind    : Kind
  wOp     : Operand
  aOp     : Operand
  oOp     : Operand
  cOp     : Option Operand
  m       : Nat
  n       : Nat
  k       : Nat
  /-- chunk length in K positions: k itself when K is not split -/
  len     : Nat
  tileM   : Nat
  partAddr : Nat
  actBase : Nat
  outBase : Nat
  colBase : Nat
deriving DecidableEq, Repr

/-- The number of chunks C (R80). -/
def MatEnv.chunks (v : MatEnv) : Nat := ceilDiv v.k v.len

/-- Columns of an N group: up to 16 tiles (R69). -/
def MatEnv.groupCols (v : MatEnv) : Nat := 16 * tileCols v.kind

/-- The number of N groups G. -/
def MatEnv.groups (v : MatEnv) : Nat := ceilDiv v.n v.groupCols

/-- The accumulate-in elements of one row at columns n0 to n0+cnt-1, widened to FP32, and which are poisoned. -/
def readAccIn (v : MatEnv) (row n0 cnt : Nat) : M (List Nat × List Bool) :=
  match v.cOp with
  | none => pure (List.replicate cnt 0, List.replicate cnt false)
  | some c => do
    let width := c.fmt.elemBits / 8
    let rs ← collect (List.range cnt) fun j =>
      load v.w (c.elem + row * c.rowPitch + (n0 + j) * width) width
    pure (rs.map fun r => f32Round (c.fmt.dec r.val), rs.map fun r => c.bad || r.poisoned)

/-- Affected outputs of a row: those of a tile that holds a poisoned weight row, or all where the activation row is
poisoned (R409). -/
def affectedCols (tn : Nat) (wBad : List Bool) (aBad : Bool) : List Bool :=
  (List.range wBad.length).map fun j => aBad || ((wBad.drop (j / tn * tn)).take tn).any id

/-- The groups of a weight row and an activation row side by side. -/
def pairGroups (ws as : List RowGroup) : List Group := (ws.zip as).map fun p => ⟨p.1.1, p.2.1, p.1.2, p.2.2⟩

/-- Keeps the values of a watched command that is being drained (R294). -/
def noteDrain (row col total : Nat) (ys : List Nat) (bad : Bool) : M Unit := modify fun s =>
  { s with drain := s.drain.map fun l => l ++ [⟨row, col, total, ys, bad⟩] }

/-- The cells a block forms its passes with: those that have failed unreplaced (R93) or are on loan (R94) are missing. -/
def EngineSt.activeCells (q : EngineSt) : Nat := max 1 (16 - q.cellsDown.length - b2n q.loan.isSome)

/-- The tiles of N group g. -/
def MatEnv.groupTiles (v : MatEnv) (g : Nat) : Nat := ceilDiv (min v.groupCols (v.n - g * v.groupCols)) (tileCols v.kind)

/-- A band of an N group is complete: counted as one pass, or as the passes that its tiles take with the cells the block has (R93,
R95). subs: the units each pass was cut into (R74). DESIGN CHOICE (notes/assumptions/53): unsafe. -/
def passDone (v : MatEnv) (g subs : Nat) : M Unit := do
  let s ← get
  let k := ceilDiv (v.groupTiles g) (s.engine v.host).activeCells
  bump (pk 0x8041 1) k
  unitsDone v.host (k * subs)

/-- The work of a pass (R69): rows r0 to r0+rows-1 over chunk c and N group g. With one chunk the results are scaled, converted
and written; with several, the FP32 partials are written to the partial area (R80). -/
def runBand (v : MatEnv) (c r0 rows g : Nat) : M Unit := do
  let n0 := g * v.groupCols
  let cnt := min v.groupCols (v.n - n0)
  let k0 := c * v.len
  let klen := min v.len (v.k - k0)
  let ws ← collect (List.range cnt) fun j => readRow v.w v.wOp (n0 + j) k0 klen
  each (List.range rows) fun i => do
    let row := r0 + i
    let a ← readRow v.w v.aOp (v.actBase + row) k0 klen
    let aff := affectedCols (tileCols v.kind) (ws.map RowRead.bad) a.bad
    if v.chunks ≤ 1 then do
      let start ← readAccIn v (v.outBase + row) (v.colBase + n0) cnt
      let ys := (ws.zip start.1).map fun x =>
        applyTensorScale (accumulate x.2 (pairGroups x.1.groups a.groups)) v.wOp.tscale v.aOp.tscale
      let bad := (aff.zip start.2).map fun x => x.1 || x.2
      noteDrain (v.outBase + row) (v.colBase + n0) v.n ys (bad.any id)
      writeOutputs v.w v.oOp (v.outBase + row) (v.colBase + n0) ys bad
    else do
      let ys := ws.map fun x => accumulate 0 (pairGroups x.groups a.groups)
      let at' := v.partAddr + (c * v.m * v.n + row * v.n + n0) * 4
      store v.w at' (ys.flatMap fun y => toBytes y 4)
      each ((aff.zipIdx).filter fun x => x.1) fun x => storePoison v.w (at' + 4 * x.2) 4

/-- One pass (R69), counted. -/
def runPass (v : MatEnv) (c r0 rows g : Nat) : M Unit := do
  runBand v c r0 rows g
  passDone v g 1

/-- One combine pass (R80, R54): the partials of a band and N group added in chunk order from the accumulate-in element
or the first partial, scaled by t and converted. -/
def runCombine (v : MatEnv) (r0 rows g : Nat) : M Unit := do
  let n0 := g * v.groupCols
  let cnt := min v.groupCols (v.n - n0)
  each (List.range rows) fun i => do
    let row := r0 + i
    let parts ← collect (List.range v.chunks) fun c =>
      load v.w (v.partAddr + (c * v.m * v.n + row * v.n + n0) * 4) (4 * cnt)
    let start ← readAccIn v (v.outBase + row) (v.colBase + n0) cnt
    let ys := (List.range cnt).map fun j =>
      let ps := parts.map fun r => bits r.val (32 * j + 31) (32 * j)
      let acc := match v.cOp, ps with
        | none, [] => 0
        | none, p :: rest => rest.foldl f32Add p
        | some _, _ => ps.foldl f32Add (nth start.1 j)
      applyTensorScale acc v.wOp.tscale v.aOp.tscale
    let aff := (List.range cnt).map fun j =>
      start.2.getD j false || parts.zipIdx.any fun r =>
        let lo := v.partAddr + (r.2 * v.m * v.n + row * v.n + n0) * 4 + 4 * j
        r.1.bad.any fun cw => decide (lo < cw * 32 + 32) && decide (cw * 32 < lo + 4)
    noteDrain (v.outBase + row) (v.colBase + n0) v.n ys (aff.any id)
    writeOutputs v.w v.oOp (v.outBase + row) (v.colBase + n0) ys aff
  bump (pk 0x8041 1) 1
  unitsDone v.host 1

/-- The rows below M of a band (R78). -/
def bandRows (v : MatEnv) (b : Nat) : Nat := min v.tileM (v.m - b * v.tileM)

/-- MATMUL's passes in the order of R79: chunk, then band, then N group; each combine directly after its last chunk
pass (R80). -/
def matmulPasses (v : MatEnv) : M Unit :=
  each (List.range v.chunks) fun c =>
    each (List.range (ceilDiv v.m v.tileM)) fun b =>
      each (List.range v.groups) fun g => do
        runPass v c (b * v.tileM) (bandRows v b) g
        onlyIf (decide (1 < v.chunks) && c + 1 == v.chunks) (runCombine v (b * v.tileM) (bandRows v b) g)

/-- The TileM and chunk length a best-effort command runs with (R74), and how many of the two were lowered. -/
def lowerBe (k : Kind) (w a : Fmt) (rows kk tileM len : Nat) : Nat × Nat × Nat :=
  let kc := kcOf k w a
  let lw := lwOf k w a
  let s := ceilDiv len kc
  if passCycles s (min tileM rows) lw ≤ 20000 then (tileM, len, 0)
  else
    let fit := (20000 - 40) / s
    if lw ≤ fit then (fit, len, 1)
    else
      let s' := (20000 - 40) / lw
      let len' := max 16 (min kk (s' * kc / 16 * 16))
      (min tileM lw, len', b2n (decide (lw < tileM)) + 1)

/-- The operand C of a job with AccIn. -/
def readAcc (c : Cmd) (j : Job) (n : Nat) (seen : Clamped) : M (Option Operand × Clamped) :=
  if j.accIn then do
    let o ← readOperandOnce c.who .acc n j.cAddr seen
    pure (some o.1, o.2)
  else pure (none, seen)

/-- Reads the operands of a job. WeightFmtAddr, M and N are given: a work-list item supplies its own (R81). -/
def readMat (c : Cmd) (j : Job) (wAddr nW : Nat) (out : Option Operand) : M (Option (Operand × Operand × Operand × Option Operand)) := do
  let o ← match out with
    | none => readOperandOnce c.who .out nW j.oAddr []
    | some o => pure (o, [])
  if o.1.bad then pure none
  else do
    let w ← readOperandOnce c.who .weight j.k wAddr o.2
    let a ← readOperandOnce c.who .act j.k j.aAddr w.2
    let acc ← readAcc c j nW a.2
    pure (some (w.1, a.1, o.1, acc.1))

/-- The environment of a job with its own weights: MATMUL and MATMUL_PADDED. rows is M, or PadRows. -/
def jobEnv (c : Cmd) (j : Job) (rows : Nat) (out : Option Operand) : M (Option MatEnv) := do
  match ← readMat c j j.wAddr j.n out with
  | none => pure none
  | some (wOp, aOp, oOp, cOp) =>
    let len := if j.chunk == 0 || j.k ≤ j.chunk then j.k else j.chunk
    let low := if c.be then lowerBe c.kind wOp.fmt aOp.fmt rows j.k j.tileM len else (j.tileM, len, 0)
    clampDesc low.2.2
    pure (some ⟨c.host, c.who, c.kind, wOp, aOp, oOp, cOp, j.m, j.n, j.k, low.2.1, low.1, j.partAddr, 0, 0, 0⟩)

/-- MATMUL with the rows and the output operand that the job record gives, or with others that the Director names (R79, R166, R167). -/
def matmulInto (c : Cmd) (rows : Option Nat) (out : Option Operand) : M End := do
  let addr := bits c.area 255 198 * 64
  let r ← load c.who addr 64
  if r.poisoned then pure (.dropped addr)
  else do
    clampDesc (jobClamps r.val false)
    let own := jobOf r.val
    let j := { own with m := rows.getD own.m }
    match ← jobEnv c j j.m out with
    | none => pure (.dropped j.oAddr)
    | some v => do
      matmulPasses v
      pure .done

/-- MATMUL (R79). -/
def bodyMatmul (c : Cmd) : M End := matmulInto c none none

/-- Item i of a work list as its fields give it (R81). -/
structure Item where
  wAddr    : Nat
  actRow   : Nat
  rows     : Nat
  outRow   : Nat
  col      : Nat
  cols     : Nat
  passBase : Nat
deriving DecidableEq, Repr

def itemOf (v : Nat) : Item :=
  ⟨bits v 255 197 * 32, bits v 191 168, bits v 167 144, bits v 143 120, bits v 119 96, bits v 95 72, bits v 71 48⟩

/-- Binary search for the item with the largest PassBase at or below p (R82), between lo and hi; the address of an item that reads as
poisoned ends it (R543). Fuel bounds the halvings. -/
def findItem (w : Who) (list p : Nat) : Nat → Nat → Nat → M (Except Nat Nat)
  | 0, lo, _ => pure (.ok lo)
  | fuel + 1, lo, hi =>
    if hi ≤ lo + 1 then pure (.ok lo)
    else do
      let mid := (lo + hi) / 2
      let r ← load w (list + 64 + 32 * mid) 32
      if r.poisoned then pure (.error (list + 64 + 32 * mid))
      else if (itemOf r.val).passBase ≤ p then findItem w list p fuel mid hi
      else findItem w list p fuel lo mid

/-- The number and the fields of the item that pass p belongs to, or the address of an item that read as poisoned. -/
def readItem (w : Who) (list p count : Nat) : M (Except Nat (Nat × Nat)) := do
  match ← findItem w list p 32 0 count with
  | .error a => pure (.error a)
  | .ok i => do
    let r ← load w (list + 64 + 32 * i) 32
    pure (if r.poisoned then .error (list + 64 + 32 * i) else .ok (i, r.val))

/-- Clears the lowest valid return slot or advances ClaimIndex (R82): the pass claimed, none where nothing is claimable.
The header is read and changed in one atomic operation. -/
def claimPass (w : Who) (list : Nat) : M (Option Nat) := do
  let h ← load w list 64
  let valid := (List.range 8).filter fun j => bit h.val (344 + j)
  let slot := valid.foldl (fun (b : Option (Nat × Nat)) j =>
    let x := bits h.val (175 + 24 * j) (152 + 24 * j)
    match b with
    | none => some (x, j)
    | some (y, _) => if x < y then some (x, j) else b) none
  match slot with
  | some (x, j) => do
    storeVal w (list + 43) 1 (bits h.val 351 344 - 2 ^ j)
    pure (some x)
  | none => do
    let p := bits h.val 399 376
    storeVal w (list + 47) 3 (p + 1)
    if bits h.val 423 400 ≤ p then pure none else pure (some p)

/-- Counts a pass of a list as done (R81). -/
def donePass (w : Who) (list : Nat) : M Unit := do
  let h ← load w list 64
  storeVal w (list + 44) 3 (bits h.val 375 352 + 1)

/-- The rows of a sub-pass of a best-effort work list (R74): the most, not below Lw, whose cycles are within the bound. -/
def subRows (k : Kind) (w a : Fmt) (kk : Nat) : Nat := max (lwOf k w a) ((20000 - 40) / ceilDiv kk (kcOf k w a))

/-- What one run of a work list carries along: the items and the fields of format records whose clamps are counted (R10: once per command),
whether a split was counted, and a poisoned item met. -/
structure ListRun where
  seen  : List Nat
  recs  : Clamped
  split : Bool
  bad   : Option Nat
deriving DecidableEq, Repr

/-- Runs one claimed pass of a list (R82): pass p - PassBase of its item, where the item has it. The sub-passes of R74 are units
of their own; their outputs are those of the pass (R55), which PassesRun counts once. -/
def runListPass (c : Cmd) (list count : Nat) (j : Job) (aOp oOp : Operand) (cOp : Option Operand) (p : Nat)
    (st : ListRun) : M ListRun := do
  if count == 0 then pure st
  else do
    match ← readItem c.who list p count with
    | .error a => pure { st with bad := some a }
    | .ok (i, item) => do
      let it := itemOf item
      let tn := tileCols c.kind
      let col := alignDown it.col tn
      onlyIf (!st.seen.contains i && col != it.col) (clampDesc 1)
      let bands := ceilDiv it.rows j.tileM
      let gs := ceilDiv (ceilDiv it.cols tn) 16
      if it.passBase ≤ p && p - it.passBase < bands * gs then do
        let q := p - it.passBase
        let w ← readOperandOnce c.who .weight j.k it.wAddr st.recs
        let wOp := w.1
        let v : MatEnv := ⟨c.host, c.who, c.kind, wOp, aOp, oOp, cOp, it.rows, it.cols, j.k, j.k, j.tileM, 0, it.actRow, it.outRow, col⟩
        let rows := bandRows v (q / gs)
        let subs := if c.be then ceilDiv rows (subRows c.kind wOp.fmt aOp.fmt j.k) else 1
        let split := decide (1 < subs)
        onlyIf (split && !st.split) (clampDesc 1)
        runBand v 0 (q / gs * j.tileM) rows (q % gs)
        passDone v (q % gs) subs
        pure { st with seen := i :: st.seen, recs := w.2, split := st.split || split }
      else pure { st with seen := i :: st.seen }

/-- Claims and runs passes until none is claimable (R82, R83); fuel bounds the claims. -/
def listLoop (c : Cmd) (list count : Nat) (j : Job) (aOp oOp : Operand) (cOp : Option Operand) : Nat → ListRun → M ListRun
  | 0, st => pure st
  | fuel + 1, st => do
    match ← claimPass c.who list with
    | none => pure st
    | some p => do
      let st' ← runListPass c list count j aOp oOp cOp p st
      donePass c.who list
      if st'.bad.isSome then pure st' else listLoop c list count j aOp oOp cOp fuel st'

/-- Runs passes of a list that a failed block held claimed, on the spare that took its number (R84). -/
def runClaimed (c : Cmd) (list count : Nat) (j : Job) (aOp oOp : Operand) (cOp : Option Operand) : List Nat → ListRun → M ListRun
  | [], st => pure st
  | p :: ps, st => do
    let st' ← runListPass c list count j aOp oOp cOp p st
    donePass c.who list
    if st'.bad.isSome then pure st' else runClaimed c list count j aOp oOp cOp ps st'

/-- The passes of a work list on one block, from its header h and the operands of its template (R82, R83). -/
def listPasses (c : Cmd) (list h : Nat) (j : Job) (aOp oOp : Operand) (cOp : Option Operand) (recs : Clamped) :
    M End := do
  let count := bits h 447 424
  let s ← get
  setEngine c.host fun q => { q with claims := [] }
  let st0 ← runClaimed c list count j aOp oOp cOp (s.engine c.host).claims ⟨[], recs, false, none⟩
  let st ← if st0.bad.isSome then pure st0 else listLoop c list count j aOp oOp cOp (bits h 423 400 + 9) st0
  match st.bad with
  | some a => pure (.dropped a)
  | none => pure .done

/-- MATMUL_LIST (R81 to R83). A work list does not split K (R80). The template's N is ignored and a list has no N of its own, so the
least pitch of the output and of C (R48) is taken for rows of 1 element. DESIGN CHOICE (notes/assumptions/53): unsafe. -/
def bodyMatmulList (c : Cmd) : M End := do
  let list := bits c.area 255 198 * 64
  let h ← load c.who list 64
  if h.poisoned then pure (.dropped list)
  else do
    let tAddr := bits h.val 511 454 * 64
    let t ← load c.who tAddr 64
    if t.poisoned then pure (.dropped tAddr)
    else do
      let j := jobOf t.val
      clampDesc (b2n (bits t.val 143 120 == 0))
      let o ← readOperandOnce c.who .out 1 j.oAddr []
      if o.1.bad then pure (.dropped j.oAddr)
      else do
        let a ← readOperandOnce c.who .act j.k j.aAddr o.2
        let acc ← readAcc c j 1 a.2
        listPasses c list h.val j a.1 o.1 acc.1 acc.2

/-- The rank of a block in its set (R85). -/
def setRank (set : List Nat) (self : Nat) : Nat := (set.filter fun b => decide (b < self)).length

/-- The address of the count word of a band and N group (R85). The partials of a padded job stand as R80 lays them out, by the job's
M: rows from M to PadRows - 1 have none. DESIGN CHOICE (notes/assumptions/53): unsafe. -/
def countWord (v : MatEnv) (b g : Nat) : Nat :=
  alignUp (v.partAddr + v.chunks * v.m * v.n * 4) 64 + 8 * (b * v.groups + g)

/-- The combines of a padded command whose count word has reached C are run; the others are left (R85). -/
def runCombines (v : MatEnv) (l : List (Nat × Nat)) : M (List (Nat × Nat)) :=
  foldState l [] fun left x => do
    let r ← load v.w (countWord v x.1 x.2) 8
    if v.chunks ≤ r.val && r.bad.isEmpty then do
      runCombine v (x.1 * v.tileM) (bandRows v x.1) x.2
      pure left
    else pure (left ++ [x])

/-- The environment of a padded command (R85): its job, run as if M were PadRows. -/
def paddedEnv (c : Cmd) : M (Except Nat (MatEnv × Nat)) := do
  let addr := bits c.area 255 198 * 64
  let r ← load c.who addr 64
  if r.poisoned then pure (.error addr)
  else do
    let j := jobOf r.val
    let pad := max (bits c.area 127 104) j.m
    clampDesc (jobClamps r.val false + b2n (decide (bits c.area 127 104 < j.m)))
    match ← jobEnv c j pad none with
    | none => pure (.error j.oAddr)
    | some v => pure (.ok (v, pad))

/-- The share of the passes of logical block c.e (R85), then the combines that are ready. A copy with combines left is part-way. -/
def paddedShare (c : Cmd) (v : MatEnv) (pad : Nat) : M End := do
  let base := if c.kind = .press then 0 else 48
  let self := c.e - base
  let mask := bits c.area 191 128
  let set := blockSet c.kind self mask
  let top := if c.kind = .press then 48 else 16
  onlyIf (!bit (mask % 2 ^ top) self) (clampDesc 1)
  let bands := ceilDiv pad v.tileM
  let total := v.chunks * bands * v.groups
  let mine := (List.range total).filter fun i => i % set.length == setRank set self
  let combines ← foldState mine [] fun acc i => do
    let cc := i / (bands * v.groups)
    let b := i / v.groups % bands
    let g := i % v.groups
    runPass v cc (b * v.tileM) (bandRows v b) g
    if v.chunks ≤ 1 then pure acc
    else do
      let _ ← atomic v.w (countWord v b g) (· + 1)
      pure (if cc + 1 == v.chunks then acc ++ [(b, g)] else acc)
  let left ← runCombines v combines
  if left.isEmpty then pure .done else pure (.wait (.combine left))

/-- MATMUL_PADDED of a job record (R85). The share of a block retired while its copy ran is run by the next member of its set (R86,
blockFailure). -/
def bodyMatmulPadded (c : Cmd) : M End := do
  match ← paddedEnv c with
  | .error a => pure (.dropped a)
  | .ok (v, pad) => paddedShare c v pad

/-! ## Vector commands (R87) -/

/-- One element's result from its row's factor (RMSNORM only), its input and its auxiliary element. -/
def vecElem (op vec r x b : Nat) : Nat :=
  let silu := f32Div x (f32Add f32One (f32Exp (f32Neg x)))
  if op == 0x10 then f32Mul (f32Div x r) b
  else if op == 0x11 then silu
  else if op == 0x12 then
    let a := f32Mul x x
    let c := f32Mul a x
    let f := f32Mul (f32Quot false 44715 1000000 0) c
    let g := f32Add x f
    let h := f32Mul (f32Quot false 79788456 100000000 0) g
    let q := f32Add f32One (f32Tanh h)
    f32Mul (f32Mul (f32Quot false 1 2 0) x) q
  else if op == 0x13 then f32Mul silu b
  else if op == 0x14 then f32Add x b
  else f32Mul x vec

/-- The row factor r = sqrt(mean(x^2) + eps) of VEC_RMSNORM (R87). -/
def rmsFactor (xs : List Nat) (n eps : Nat) : Nat :=
  let s := xs.foldl (fun s x => f32Add s (f32Mul x x)) 0
  f32Sqrt (f32Add (f32Div s (f32OfNat n)) eps)

/-- One row of results of a vector command. -/
def vecRow (op vec n : Nat) (xs bs : List Nat) : List Nat :=
  let r := if op == 0x10 then rmsFactor xs n vec else 0
  (xs.zipIdx).map fun x => vecElem op vec r x.1 (nth bs x.2)

/-- The opcodes that read the auxiliary operand. -/
def vecHasAux (op : Nat) : Bool := op == 0x10 || op == 0x13 || op == 0x14

/-- A vector command (R77, R87, R409): row by row, in order. -/
def bodyVec (op : Nat) (c : Cmd) : M End := do
  let addr := bits c.area 255 198 * 64
  let r ← load c.who addr 64
  if r.poisoned then pure (.dropped addr)
  else do
    clampDesc (jobClamps r.val true)
    let j := jobOf r.val
    let o ← readOperandOnce c.who .out j.n j.oAddr []
    let oOp := o.1
    if oOp.bad then pure (.dropped j.oAddr)
    else do
      let x ← readOperandOnce c.who .act j.n j.aAddr o.2
      let xOp := x.1
      let bOp ← if vecHasAux op then (do let b ← readOperandOnce c.who .weight j.n j.wAddr x.2; pure (some b.1)) else pure none
      each (List.range j.m) fun i => do
        let x ← readRow c.who xOp i 0 j.n
        let b ← match bOp with
          | none => pure (⟨[], false⟩ : RowRead)
          | some o => readRow c.who o (if j.auxOne then 0 else i) 0 j.n
        let bs := match bOp with
          | none => []
          | some o => b.values o.tscale o.fmt.isK
        let ys := vecRow op j.vec j.n (x.values xOp.tscale xOp.fmt.isK) bs
        writeOutputs c.who oOp i 0 ys (List.replicate j.n (x.bad || b.bad))
      unitsDone c.host (ceilDiv j.m 16 - 1)
      pure .done

end Sys2Proof.Machine
end

