-- ==== Sys2Proof/Machine/Codec.lean ====
section
/-! DEFINITION. The codec (chapter "Codec"): canonical codes, table records, block formats, decoding with its checks, the
two passes of the encoder, and the table slots. -/
namespace Sys2Proof.Machine

/-! ## Codes and bit streams -/

/-- The symbol count of a table. -/
def nSym : Nat := 272

/-- The coded symbols in the order of R137: by length, then symbol. -/
def codeOrder (lens : List Nat) : List (Nat × Nat) :=
  (List.range 12).flatMap fun l =>
    (List.range nSym).filterMap fun s => if nth lens s == l + 1 then some (l + 1, s) else none

/-- Canonical codes in that order (R137): length, code and symbol. -/
def assignCodes : List (Nat × Nat) → Nat → Nat → List (Nat × Nat × Nat)
  | [], _, _ => []
  | (l, s) :: t, code, prev =>
    let c := code * 2 ^ (l - prev)
    (l, c, s) :: assignCodes t (c + 1) l

/-- The code of a table: (length, code, symbol). -/
def canonical (lens : List Nat) : List (Nat × Nat × Nat) := assignCodes (codeOrder lens) 0 0

/-- The w bits of n, most significant first. -/
def msbBits (n : Nat) : Nat → List Bool
  | 0 => []
  | w + 1 => bit n w :: msbBits n w

/-- A byte stream as bits, bit 7 of each byte first (R137). -/
def bytesToBits (bs : List Nat) : List Bool := bs.flatMap fun b => msbBits b 8

/-- The number that bits spell, most significant first. -/
def bitsToNat (l : List Bool) : Nat := l.foldl (fun a b => 2 * a + b2n b) 0

/-- Bits packed into bytes, the last padded with 0 bits; fuel bounds the bytes. -/
def bitsToBytes : Nat → List Bool → List Nat
  | 0, _ => []
  | k + 1, l =>
    if l.isEmpty then []
    else
      let h := l.take 8
      bitsToNat (h ++ List.replicate (8 - h.length) false) :: bitsToBytes k (l.drop 8)

/-- Decodes one symbol: the symbol and the bits after it; none for a pattern with no symbol or the stream's end. -/
def takeSymbol (codes : List (Nat × Nat × Nat)) : Nat → Nat → Nat → List Bool → Option (Nat × List Bool)
  | 0, _, _, _ => none
  | _ + 1, _, _, [] => none
  | fuel + 1, len, acc, b :: rest =>
    let a := 2 * acc + b2n b
    match codes.find? fun c => c.1 == len + 1 && c.2.1 == a with
    | some c => some (c.2.2, rest)
    | none => takeSymbol codes fuel (len + 1) a rest

/-- The bits left of a finished stream are at most 7 zeros (R145). -/
def trailingOk (l : List Bool) : Bool := decide (l.length ≤ 7) && l.all (!·)

/-- Expands one GEN bitstream to exactly n bytes (R139, R145); none for a stream error. -/
def expandGen (codes : List (Nat × Nat × Nat)) : Nat → Nat → List Bool → Option (List Nat)
  | 0, n, l => if n == 0 && trailingOk l then some [] else none
  | fuel + 1, n, l =>
    if n == 0 then (if trailingOk l then some [] else none)
    else
      match takeSymbol codes 12 0 0 l with
      | none => none
      | some (s, rest) =>
        if s < 256 then (expandGen codes fuel (n - 1) rest).map (s :: ·)
        else if s == 256 then
          if rest.length < 8 then none
          else (expandGen codes fuel (n - 1) (rest.drop 8)).map (bitsToNat (rest.take 8) :: ·)
        else
          let run := 2 ^ (s - 256)
          if n < run then none else (expandGen codes fuel (n - run) rest).map (List.replicate run 0 ++ ·)

/-- Expands the exponents of one EXP bitstream (R139). -/
def expandExp (codes : List (Nat × Nat × Nat)) : Nat → List Bool → Option (List Nat)
  | 0, l => if trailingOk l then some [] else none
  | n + 1, l =>
    match takeSymbol codes 12 0 0 l with
    | none => none
    | some (s, rest) =>
      if s < 256 then (expandExp codes n rest).map (s :: ·)
      else if s == 256 then
        if rest.length < 8 then none
        else (expandExp codes n (rest.drop 8)).map (bitsToNat (rest.take 8) :: ·)
      else none

/-- The two bytes of a BF16 value from its raw sign-and-mantissa byte and its exponent (R139). -/
def joinBf16 (raw ex : Nat) : List Nat :=
  let v := raw / 128 * 32768 + ex % 256 * 128 + raw % 128
  [v % 256, v / 256]

/-- One sub-stream expanded to n bytes (R139, R140, R145); none for a stream error. Mode 1 EXP, 2 GEN, 3 DELTA. A GEN or DELTA sub-stream
longer than what it expands to is decoded as coded. DESIGN CHOICE (notes/assumptions/19): unsafe. -/
def expandSub (mode : Nat) (codes : List (Nat × Nat × Nat)) (n : Nat) (src : List Nat) : Option (List Nat) :=
  if mode == 1 then
    if n % 2 == 1 || src.length < n / 2 then none
    else
      match expandExp codes (n / 2) (bytesToBits (src.drop (n / 2))) with
      | none => none
      | some exs => some (((src.take (n / 2)).zip exs).flatMap fun x => joinBf16 x.1 x.2)
  else if src.length == n then some src
  else expandGen codes n n (bytesToBits src)

/-! ## Table records (R136, R138) -/

/-- 2^12 times the Kraft sum. -/
def kraft (lens : List Nat) : Nat := lens.foldl (fun a l => if l == 0 then a else a + 2 ^ (12 - l)) 0

def defaultLens : List Nat := (List.range nSym).map fun s => if s < 256 then 8 else 0

/-- The lengths of a record, the table kind (1 EXP, 2 BYTE) and the clamps counted (R138). -/
def checkRecord (bs : List Nat) (poisoned : Bool) : List Nat × Nat × Nat :=
  let crcOk := !poisoned && crc32c (bs.take 140) == ofBytes ((bs.drop 140).take 4)
  let raw := (List.range nSym).map fun s => nth bs (s / 2) / 16 ^ (s % 2) % 16
  let kindRaw := nth bs 136
  let kind := if kindRaw == 1 then 1 else 2
  let dead := fun s => decide (268 ≤ s) || (kind == 1 && decide (257 ≤ s))
  let lens := raw.zipIdx.map fun x => if dead x.2 then 0 else min x.1 12
  let clamps := (raw.zipIdx.filter fun x => (dead x.2 && x.1 != 0) || (!dead x.2 && decide (12 < x.1))).length
    + b2n (kindRaw != 1 && kindRaw != 2)
  if !crcOk then (defaultLens, 2, 1)
  else if 4096 < kraft lens then (defaultLens, 2, clamps + 1)
  else (lens, kind, clamps)

/-- The 256 B record of a table (R136). -/
def tableRecord (lens : List Nat) (kind : Nat) : List Nat :=
  let body := (List.range 136).map (fun i => nth lens (2 * i) + 16 * nth lens (2 * i + 1)) ++ [kind, 0, 0, 0]
  body ++ toBytes (crc32c body) 4 ++ List.replicate 112 0

/-! ## Slots (R152 to R156) -/

/-- A table slot (R152). -/
def State.slot (s : State) (i : Nat) : CodecSlot := (lookup s.slots i).getD CodecSlot.empty
def State.slotState (s : State) (i : Nat) : Nat := s.par (pk 0x6002 (i + 1))
def State.slotGen (s : State) (i : Nat) : Nat := s.par (pk 0x6003 (i + 1))
def State.slotKind (s : State) (i : Nat) : Nat := s.par (pk 0x6005 (i + 1))
/-- The owner in force: a write takes effect when the slot is next EMPTY (R158). DESIGN CHOICE (notes/assumptions/19): unsafe. -/
def State.slotOwner (s : State) (i : Nat) : Nat := s.eff' (pk 0x6001 (i + 1))

def setSlot (i : Nat) (f : CodecSlot → CodecSlot) : M Unit :=
  modify fun s => { s with slots := setC (fun _ => CodecSlot.empty) s.slots i (f (s.slot i)) }

/-- Starts a load into an EMPTY slot (R155): the record is read and checked now, and the slot is LOADING. CodecSlotGen shows the new table from
now on (R152). DESIGN CHOICE (notes/assumptions/19): unsafe. -/
def startLoad (i : Nat) (l : PendLoad) : M Unit := do
  let t ← match l.built with
    | some lens => pure (lens, l.kind, 0)
    | none => do
      let r ← load (whoOf l.e l.p) l.addr 256
      pure (checkRecord (toBytes r.val 256) r.poisoned)
  clampDesc t.2.2
  setPar (pk 0x6002 (i + 1)) 3
  setPar (pk 0x6003 (i + 1)) l.gen
  setPar (pk 0x6005 (i + 1)) t.2.1
  setSlot i fun q => { q with lens := t.1, loading := some l }

/-- A slot becomes EMPTY (R154): the written owner takes effect and a pending load starts; CodecSlotGen keeps its last value (R152).
DESIGN CHOICE (notes/assumptions/19): unsafe. -/
def emptySlot (i : Nat) : M Unit := do
  setPar (pk 0x6002 (i + 1)) 0
  setPar (pk 0x6005 (i + 1)) 0
  let s ← get
  setEff (pk 0x6001 (i + 1)) (s.par (pk 0x6001 (i + 1)))
  let q := s.slot i
  setSlot i fun q => { q with lens := [], pending := none }
  match q.pending with
  | none => skip
  | some l => startLoad i l

/-- An encode whose built table is never loaded waits for the next load into the slot to complete (R148). DEDUCED
(notes/assumptions/19): unsafe. -/
def rewaitEncode (i : Nat) (l : PendLoad) : M Unit := do
  let s ← get
  setEngine (s.host l.e + 256) fun q => { q with parts := q.parts.map fun x =>
    match x.wait with
    | .encode slot _ => if slot == i && x.built l then { x with wait := .encode slot (s.slot i).done } else x
    | _ => x }

/-- Requests a load (R155): at once into an EMPTY slot, otherwise held pending, replacing an earlier one, which signals
its cue without loading. -/
def requestLoad (i : Nat) (l : PendLoad) : M Unit := do
  let s ← get
  if s.slotState i == 0 then startLoad i l
  else do
    match (s.slot i).pending with
    | none => skip
    | some old => do
      onlyIf (!old.encoder) (signalCue (whoOf old.e old.p) (hSignalAddr old.desc) (hSignalAdd old.desc))
      onlyIf old.encoder (rewaitEncode i old)
      bump (pk 0x8043 9) 1
    setSlot i fun q => { q with pending := some l }

/-- TABLE_LOAD (R144, R155): its cue is signalled when the slot is LOADED. -/
def bodyTableLoad (c : Cmd) : M End := do
  let s ← get
  let i := bits c.area 197 194
  if s.slotOwner i != c.p then do
    clampDesc 1
    pure .done
  else do
    requestLoad i ⟨bits c.area 255 198 * 64, none, 0, bits c.area 193 186, c.e, c.p, c.ctx, c.desc, false⟩
    pure .ended

/-- TABLE_RETIRE (R154). -/
def bodyTableRetire (c : Cmd) : M End := do
  let s ← get
  let i := bits c.area 197 194
  if s.slotOwner i != c.p then do
    clampDesc 1
    pure .done
  else if s.slotState i == 1 then do
    setPar (pk 0x6002 (i + 1)) 2
    onlyIf (s.slotRefs i == 0) (emptySlot i)
    pure .done
  else pure .done

/-- TABLE_SAVE (R156). -/
def bodyTableSave (c : Cmd) : M End := do
  let s ← get
  let i := bits c.area 197 194
  if s.slotOwner i != c.p then do
    clampDesc 1
    pure .done
  else if s.slotState i == 1 || s.slotState i == 2 then do
    store c.who (bits c.area 255 198 * 64) (tableRecord (s.slot i).lens (s.slotKind i))
    pure .done
  else pure .done

/-- A load completes (R155): the slot is LOADED in all units at one boundary, and the load's cue advances. -/
def loadComplete (i : Nat) : M Unit := do
  let s ← get
  match (s.slot i).loading with
  | none => skip
  | some l => do
    setPar (pk 0x6002 (i + 1)) 1
    setSlot i fun q => { q with loading := none, done := q.done + 1 }
    onlyIf (!l.encoder) (signalCue (whoOf l.e l.p) (hSignalAddr l.desc) (hSignalAdd l.desc))

/-! ## Decoding (R145, R146) -/

/-- What decoding a block gives: its bytes, or the reason it is poisoned. -/
inductive BlockResult where
  | good (bs : List Nat)
  | badSource
  | mismatch
  | stream
deriving DecidableEq, Repr

/-- The checks 2 to 4 of R145 for a non-RAW block. -/
def State.tableOk (s : State) (p slot gen mode : Nat) : Bool :=
  (s.slotState slot == 1 || s.slotState slot == 2) && s.slotOwner slot == p && s.slotGen slot == gen
    && s.slotKind slot == (if mode == 1 then 1 else 2)

/-- Expanded length of a block's header, clamped to 1 to 65,536. -/
def blockLen (h : Nat) : Nat := clampTo 1 65536 (bits h 113 97)

/-- The SubLen fields of a block header. -/
def subLens (h : Nat) : List Nat := (List.range 32).map fun j => bits h (139 + 12 * j) (128 + 12 * j)

/-- Sub-streams expanded one after another; one wholly beyond the expanded length has no byte. -/
def expandSubs (mode : Nat) (codes : List (Nat × Nat × Nat)) (n : Nat) : List (Nat × Nat) → List Nat → Option (List Nat)
  | [], _ => some []
  | (j, len) :: t, src =>
    let e := min 2048 (n - 2048 * j)
    if n ≤ 2048 * j then (if len == 0 then expandSubs mode codes n t src else none)
    else
      match expandSub mode codes e (src.take len), expandSubs mode codes n t (src.drop len) with
      | some a, some b => some (a ++ b)
      | _, _ => none

/-- One block decoded (R145): base is none where DELTA has no base (R147). -/
def decodeBlock (s : State) (p : Nat) (h : Nat) (src : List Nat) (base : Option (List Nat)) (bad : Bool) : BlockResult :=
  let mode := bits h 127 126
  let n := blockLen h
  if bad then .badSource
  else if mode != 0 && !s.tableOk p (bits h 125 122) (bits h 121 114) mode then .mismatch
  else if mode == 3 && base.isNone then .mismatch
  else
    let out := if mode == 0 then some (src.take n)
      else expandSubs mode (canonical (s.slot (bits h 125 122)).lens) n ((subLens h).zipIdx.map fun x => (x.2, x.1)) src
    match out with
    | none => .stream
    | some bs =>
      let fin := if mode == 3 then (bs.zip (base.getD [])).map fun x => x.1 ^^^ x.2 else bs
      if crc32c fin == bits h 95 64 then .good fin else .stream

/-- The source bytes of a block after its header. -/
def blockSrcLen (h : Nat) : Nat := if bits h 127 126 == 0 then blockLen h else (subLens h).foldl (· + ·) 0

/-- Blocks of an extent header (R133). -/
def extentBlocks (h : Nat) : Nat := ceilDiv (max 1 (bits h 511 472)) 65536

/-- Decodes block i of the extent at src to dst, at most `limit` bytes (R145, R146, R147). -/
def decodeOne (w : Who) (p src hdr i dst limit : Nat) (hdrBad : Bool) (base : Option Nat) : M Unit := do
  let dir ← load w (src + 64 + 4 * i) 4
  let at' := src + 64 * dir.val
  let h ← load w at' 64
  clampDesc (b2n (blockLen h.val != bits h.val 113 97))
  let n := blockLen h.val
  let body ← load w (at' + 64) (blockSrcLen h.val)
  let b ← match base with
    | some a => if bits h.val 127 126 == 3 then (do let r ← load w a n; pure (some r)) else pure none
    | none => pure none
  let bad := hdrBad || dir.poisoned || h.poisoned || body.poisoned || (match b with | some r => r.poisoned | none => false)
  let s ← get
  bump (pk 0x8043 1) 1
  match decodeBlock s p h.val (toBytes body.val (blockSrcLen h.val)) (b.map fun r => toBytes r.val n) bad with
  | .good bs => do
    store w dst (bs.take limit)
    bump (pk 0x8043 2) (min limit bs.length)
  | r => do
    let total := max 1 (bits hdr 511 472)
    storePoison w dst (min limit (min 65536 (total - 65536 * i)))
    bump (pk 0x8043 3) 1
    onlyIf (decide (r = .mismatch)) (bump (pk 0x8043 4) 1)
    onlyIf (decide (r = .stream)) (bump (pk 0x8043 5) 1)

/-- DECODE (R143, R146): blocks FirstBlock on of one extent. Its references are released with its cue (R153).
Where base and destination overlap otherwise than equal, the blocks are decoded one after another. DESIGN CHOICE (notes/assumptions/13):
unsafe. -/
def bodyDecode (c : Cmd) : M End := do
  let a := c.area
  let src := bits a 255 198 * 64
  let dst := bits a 197 140 * 64
  let base := bits a 139 82 * 64
  let h ← load c.who src 64
  clampDesc (b2n (bits h.val 511 472 == 0))
  let b := extentBlocks h.val
  let first := min (bits a 81 58) (b - 1)
  let want := bits a 57 34
  let count := if want == 0 then b - first else min want (b - first)
  clampDesc (b2n (decide (b - 1 < bits a 81 58)) + b2n (decide (b - first < want)))
  each (List.range count) fun k =>
    decodeOne c.who c.p src h.val (first + k) (dst + 65536 * k) 65536 h.poisoned (some (base + 65536 * k))
  unitsDone c.arm (count - 1)
  pure .done

/-! ## Encoding (R148 to R151) -/

/-- The parse of R150 on the zero runs: the largest k with 2^k at most r and a code. -/
def runSymbol (has : Nat → Bool) (r : Nat) : Option Nat :=
  ((List.range 11).map (11 - ·)).find? fun k => decide (2 ^ k ≤ r) && has (256 + k)

/-- The length of the run of zero bytes at the head of a list. -/
def zeroRun : List Nat → Nat
  | [] => 0
  | b :: t => if b == 0 then zeroRun t + 1 else 0

/-- The symbols that R150 emits for a sub-stream, ESC followed by its raw byte as (256, some byte); none where the
sub-stream must be stored. Fuel bounds the bytes. -/
def parseGen (has : Nat → Bool) : Nat → List Nat → Option (List (Nat × Option Nat))
  | 0, _ => some []
  | _ + 1, [] => some []
  | fuel + 1, b :: t =>
    let run := if b == 0 then runSymbol has (zeroRun (b :: t)) else none
    match run with
    | some k => (parseGen has fuel (t.drop (2 ^ k - 1))).map ((256 + k, none) :: ·)
    | none =>
      if has b then (parseGen has fuel t).map ((b, none) :: ·)
      else if has 256 then (parseGen has fuel t).map ((256, some b) :: ·)
      else none

/-- The bits of a list of symbols under a code. -/
def symbolBits (codes : List (Nat × Nat × Nat)) (l : List (Nat × Option Nat)) : List Bool :=
  l.flatMap fun x =>
    (match codes.find? fun c => c.2.2 == x.1 with
     | some c => msbBits c.2.1 c.1
     | none => []) ++
    (match x.2 with
     | some raw => msbBits raw 8
     | none => [])

/-- A coded sub-stream and whether it is in stored form (R140, R150). -/
def encodeGenSub (lens : List Nat) (codes : List (Nat × Nat × Nat)) (bs : List Nat) : List Nat × Bool :=
  match parseGen (fun s => decide (0 < nth lens s)) bs.length bs with
  | none => (bs, true)
  | some syms =>
    let coded := bitsToBytes (12 * bs.length + 1) (symbolBits codes syms)
    if bs.length ≤ coded.length then (bs, true) else (coded, false)

/-- BF16 values of a byte list: raw byte and exponent; fuel counts the values. -/
def splitBf16 : Nat → List Nat → List (Nat × Nat)
  | 0, _ => []
  | k + 1, l =>
    let v := nth l 0 + 256 * nth l 1
    (v / 32768 * 128 + v % 128, v / 128 % 256) :: splitBf16 k (l.drop 2)

/-- A sub-stream in EXP mode; none where an exponent cannot be coded (R141). -/
def encodeExpSub (lens : List Nat) (codes : List (Nat × Nat × Nat)) (bs : List Nat) : Option (List Nat) :=
  let vs := splitBf16 (bs.length / 2) bs
  if vs.all fun v => decide (0 < nth lens v.2) || decide (0 < nth lens 256) then
    let syms := vs.map fun v => if 0 < nth lens v.2 then (v.2, none) else (256, some v.2)
    some (vs.map Prod.fst ++ bitsToBytes (3 * bs.length + 1) (symbolBits codes syms))
  else none

/-- A block as the encoder writes it: its mode (0 RAW), its bytes padded to 64 B, and its stored sub-streams. -/
structure EncBlock where
  mode   : Nat
  bytes  : List Nat
  stored : Nat
deriving DecidableEq, Repr

def pad64 (l : List Nat) : List Nat := l ++ List.replicate (alignUp l.length 64 - l.length) 0

/-- The 64 B block header (R135). -/
def blockHeader (subs : List Nat) (mode slot gen n crc : Nat) : List Nat :=
  let packed := (subs.zipIdx).foldl (fun a x => a + x.1 % 4096 * 2 ^ (12 * x.2)) 0
  toBytes (packed * 2 ^ 128 + mode * 2 ^ 126 + slot * 2 ^ 122 + gen * 2 ^ 114 + n * 2 ^ 97 + crc * 2 ^ 64) 64

/-- A block in RAW form (R149). -/
def rawBlock (bs : List Nat) : EncBlock := ⟨0, pad64 (blockHeader [] 0 0 0 bs.length (crc32c bs) ++ bs), 0⟩

/-- One block (R141, R150): bs are its expanded bytes, xs the bytes coded (XOR base for DELTA). -/
def encodeBlock (mode slot gen : Nat) (lens : List Nat) (bs xs : List Nat) : EncBlock :=
  let codes := canonical lens
  let subs := chunksOf 2048 33 xs
  let n := bs.length
  if mode == 0 then rawBlock bs
  else if mode == 1 then
    let enc := subs.map (encodeExpSub lens codes)
    if n % 2 == 1 || enc.any Option.isNone then rawBlock bs
    else
      let body := enc.map (·.getD [])
      let all := pad64 (blockHeader (body.map List.length) 1 slot gen n (crc32c bs) ++ body.flatten)
      if all.length ≤ 64 * ceilDiv (n * 11) 1024 then ⟨1, all, 0⟩ else rawBlock bs
  else
    let enc := subs.map (encodeGenSub lens codes)
    ⟨mode, pad64 (blockHeader (enc.map fun e => e.1.length) mode slot gen n (crc32c bs) ++ enc.flatMap Prod.fst),
      (enc.filter fun e => e.2).length⟩

/-- A node of the tree of R148: weight, key, and its leaves with their depths. -/
structure HNode where
  weight : Nat
  key    : Nat
  leaves : List (Nat × Nat)
deriving DecidableEq, Repr

def HNode.less (a b : HNode) : Bool := a.weight < b.weight || (a.weight == b.weight && a.key < b.key)

/-- The node least in (weight, key) order, and the rest. -/
def takeLeast : List HNode → Option (HNode × List HNode)
  | [] => none
  | a :: l =>
    match takeLeast l with
    | none => some (a, [])
    | some (b, r) => if b.less a then some (b, a :: r) else some (a, b :: r)

/-- Joins the two least nodes until one is left; fuel bounds the joins. -/
def joinNodes : Nat → List HNode → List HNode
  | 0, l => l
  | fuel + 1, l =>
    match takeLeast l with
    | none => []
    | some (a, r) =>
      match takeLeast r with
      | none => [a]
      | some (b, r') =>
        joinNodes fuel (⟨a.weight + b.weight, min a.key b.key,
          (a.leaves ++ b.leaves).map fun x => (x.1, x.2 + 1)⟩ :: r')

/-- The lengthening step of R148: the symbol with the largest length below 12, ties to the higher symbol, grows by one
until the Kraft sum is at most 1; fuel bounds the steps. -/
def lengthen : Nat → List Nat → List Nat
  | 0, l => l
  | fuel + 1, l =>
    if kraft l ≤ 4096 then l
    else
      let best := l.zipIdx.foldl (fun (b : Option (Nat × Nat)) x =>
        if x.1 == 0 || 12 ≤ x.1 then b
        else match b with
          | none => some x
          | some y => if y.1 ≤ x.1 then some x else some y) none
      match best with
      | none => l
      | some (n, i) => lengthen fuel (l.set i (n + 1))

/-- Code lengths from counts (R148). -/
def buildLens (counts : List Nat) : List Nat :=
  let nodes := counts.zipIdx.filterMap fun x => if x.1 == 0 then none else some (⟨x.1, x.2, [(x.2, 0)]⟩ : HNode)
  let root := (joinNodes nSym nodes).head?
  let depth := fun s => match root with
    | none => 0
    | some r => match r.leaves.find? fun x => x.1 == s with
      | none => 0
      | some x => if nodes.length == 1 then 1 else min 12 x.2
  lengthen (nSym * 12) ((List.range nSym).map depth)

/-- Counts of the symbols of pass 1 (R148): mode 1 counts exponents, modes 2 and 3 the parse with every code; ESC is 1. -/
def passOne (mode : Nat) (xs : List Nat) : List Nat :=
  let subs := chunksOf 2048 (xs.length / 2048 + 2) xs
  let syms := if mode == 1 then subs.flatMap fun b => (splitBf16 (b.length / 2) b).map Prod.snd
    else subs.flatMap fun b => ((parseGen (fun s => decide (s ≠ 256)) b.length b).getD []).map Prod.fst
  (List.range nSym).map fun s => if s == 256 then 1 else (syms.filter (· == s)).length

/-- Length of an ENCODE (R143): 1 to its field, an odd length above 1 clamped down in EXP mode. -/
def encodeLen (mode field : Nat) : Nat :=
  let n := max 1 field
  if mode == 1 && n % 2 == 1 && n != 1 then n - 1 else n

/-- Writes the blocks in order, answering each block's offset in units of 64 B and what it was. -/
def writeBlocks (w : Who) (dst : Nat) : List (EncBlock × Bool) → Nat → M (List Nat)
  | [], _ => pure []
  | (b, bad) :: t, off => do
    store w (dst + 64 * off) b.bytes
    onlyIf bad (storePoison w (dst + 64 * off) b.bytes.length)
    let rest ← writeBlocks w dst t (off + b.bytes.length / 64)
    pure (off :: rest)

/-- Pass 2 (R149 to R151): the blocks, then the directory, then the extent header. Answers the extent's bytes. A block
whose source reads as poisoned is written as poisoned. -/
def encodeExtent (w : Who) (p src dst base len mode slot : Nat) : M Nat := do
  let s ← get
  let usable := mode != 0 && s.slotState slot != 0 && s.slotOwner slot == p
    && s.slotKind slot == (if mode == 1 then 1 else 2)
  let lens := (s.slot slot).lens
  let count := ceilDiv len 65536
  let blocks ← collect (List.range count) fun i => do
    let n := min 65536 (len - 65536 * i)
    let r ← load w (src + 65536 * i) n
    let bs := toBytes r.val n
    if mode == 3 then do
      let b ← load w (base + 65536 * i) n
      let xs := (bs.zip (toBytes b.val n)).map fun x => x.1 ^^^ x.2
      pure (encodeBlock (if usable then 3 else 0) slot (s.slotGen slot) lens bs xs, r.poisoned || b.poisoned)
    else pure (encodeBlock (if usable then mode else 0) slot (s.slotGen slot) lens bs bs, r.poisoned)
  let first := 1 + ceilDiv count 16
  let offs ← writeBlocks w dst blocks first
  store w (dst + 64) (offs.flatMap fun o => toBytes o 4)
  let raws := (blocks.filter fun b => b.1.mode == 0).length
  let fallback := if mode == 0 then 0 else raws
  let stored := blocks.foldl (fun a b => a + b.1.stored) 0
  let total := 64 * first + blocks.foldl (fun a b => a + b.1.bytes.length) 0
  let named := raws != count
  storeVal w dst 64 (len * 2 ^ 472 + mode * 2 ^ 470 + (if named then slot * 2 ^ 466 + s.slotGen slot * 2 ^ 458 else 0)
    + total % 2 ^ 40 * 2 ^ 418 + fallback % 2 ^ 24 * 2 ^ 394 + stored % 2 ^ 24 * 2 ^ 370)
  bump (pk 0x8043 6) count
  bump (pk 0x8043 7) fallback
  bump (pk 0x8043 8) stored
  pure total

/-- Pass 1 (R148): the lengths built over the whole source, XOR base in DELTA mode; poisoned bytes count as they read. DESIGN CHOICE
(notes/assumptions/19): unsafe. -/
def encodeBuild (w : Who) (src base len mode : Nat) : M (List Nat) := do
  let r ← load w src len
  if mode == 3 then do
    let b ← load w base len
    pure (buildLens (passOne mode (((toBytes r.val len).zip (toBytes b.val len)).map fun x => x.1 ^^^ x.2)))
  else pure (buildLens (passOne mode (toBytes r.val len)))

/-- Pass 2 of an ENCODE command. -/
def encodePass2 (c : Cmd) : M End := do
  let a := c.area
  let mode := bits a 41 40
  -- a reference on the slot from the start of pass 2 to the cue; a RAW extent takes none (R153)
  onlyIf (mode != 0) (takeRef ⟨bits a 39 36, c.e, c.p, c.ctx, c.desc⟩)
  let _ ← encodeExtent c.who c.p (bits a 255 198 * 64) (bits a 197 140 * 64) (bits a 139 82 * 64)
    (encodeLen mode (bits a 81 42)) mode (bits a 39 36)
  unitsDone c.arm (ceilDiv (encodeLen mode (bits a 81 42)) 65536 - 1)
  pure .done

/-- ENCODE (R143, R148 to R151). With BuildTable it builds and loads a table first; pass 2 waits while the slot is being
loaded. RAW mode ignores the table fields, and so does a slot of another partition. -/
def bodyEncode (c : Cmd) : M End := do
  let s ← get
  let a := c.area
  let mode := bits a 41 40
  let slot := bits a 39 36
  let len := encodeLen mode (bits a 81 42)
  clampDesc (b2n (len != bits a 81 42))
  if mode == 0 || s.slotOwner slot != c.p then encodePass2 c
  else if bit a 35 then do
    let lens ← encodeBuild c.who (bits a 255 198 * 64) (bits a 139 82 * 64) len mode
    unitsDone c.arm (ceilDiv len 65536 - 1)
    requestLoad slot ⟨0, some lens, if mode == 1 then 1 else 2, bits a 34 27, c.e, c.p, c.ctx, c.desc, true⟩
    pure (.wait (.encode slot (s.slot slot).done))
  else if s.slotState slot == 3 then pure (.wait (.encode slot (s.slot slot).done))
  else encodePass2 c

end Sys2Proof.Machine
end

