-- ==== Sys2Proof/Machine/Kv.lean ====
section
/-! DEFINITION. Key and value frames (chapter "KV frames, reels and stack engines"): geometry, pools, the frame allocator
and the frame table. -/
namespace Sys2Proof.Machine

/-! ## Geometry (R160 to R165) -/

/-- The sizes and formats of a partition's keys and values. -/
structure Geom where
  layers  : Nat
  hg      : Nat
  qpk     : Nat
  d       : Nat
  kv      : Fmt
  q       : Fmt
  scale   : Nat
  kBytes  : Nat
  ksBytes : Nat
  slot    : Nat
  qBytes  : Nat
  feed    : Nat
  partBytes : Nat
  mergeSlot : Nat
  frame   : Nat
  seqs    : Nat
deriving DecidableEq, Repr

/-- A format code of a KV field (R161): an undefined code is BF16. -/
def kvFmt (codes : List Nat) (code : Nat) : Fmt :=
  if codes.contains code then (Fmt.ofCode code).getD .bf16 else .bf16

/-- Rounded up to 64 B. -/
def ceil64 (n : Nat) : Nat := alignUp n 64

/-- The geometry in force of a partition (R160, R163): its parameters as read when the partition started. -/
def State.geom (s : State) (p : Nat) : Geom :=
  let v := fun i => s.eff' (pk i (p + 1))
  let hg := v 0x5802
  let qpk := v 0x5803
  let d := v 0x5804 / 16 * 16
  let kv := kvFmt [1, 3, 4, 0xE, 0xF] (v 0x5805)
  let q := kvFmt [1, 3] (v 0x5806)
  let kBytes := alignUp (hg * d * kv.elemBits / 8) 64
  let ksBytes := if kv.isK then alignUp (hg * d / 16) 64 else 0
  let slot := 2 * (kBytes + ksBytes)
  let qBytes := alignUp (hg * qpk * d * q.elemBits / 8) 64
  let partBytes := alignUp (32 + 4 * d) 64
  ⟨v 0x5801, hg, qpk, d, kv, q, v 0x5807, kBytes, ksBytes, slot, qBytes, qBytes + slot, partBytes,
    12 * hg * qpk * partBytes, v 0x5800, v 0x580B⟩

/-- The tensor scales of a layer: key, then value (R162). -/
def State.kvScale (s : State) (p layer : Nat) : Nat × Nat :=
  ((lookup s.kvScales p).getD []).getD layer (f32One, f32One)

/-! ## Pools (R168) -/

/-- The first accepted placement of a kind on a stack: base and size in bytes. -/
def State.poolOf (s : State) (p kind stack : Nat) : Option (Nat × Nat) :=
  (((lookup s.places p).getD []).find? fun q => q.kind == kind && decide (tierOf q.addr = .stack stack)).map
    fun q => (q.addr, q.size)

def kindKvPool : Nat := 0x05
def kindParkPool : Nat := 0x06
def kindSlates : Nat := 0x07
def kindScratch : Nat := 0x08
def kindExport : Nat := 0x09

/-- The areas of a stack's pool (R168). -/
structure Pool where
  feed   : Nat
  part   : Nat
  region : Nat
  /-- frame numbers -/
  count  : Nat
  /-- LayerStride -/
  stride : Nat
deriving DecidableEq, Repr

/-- The pool of a partition on a stack (R168). -/
def State.pool (s : State) (p stack : Nat) : Pool :=
  let g := s.geom p
  match s.poolOf p kindKvPool stack with
  | none => ⟨0, 0, 0, 0, 0⟩
  | some (base, size) =>
    let feedSize := alignUp (g.seqs * 33 * g.feed) 4096
    let partSize := alignUp (g.seqs * 33 * g.hg * g.qpk * g.partBytes) 4096
    let f := if s.kvBad.contains p then 0 else (size - feedSize - partSize) / (g.layers * g.frame)
    ⟨base, base + feedSize, base + feedSize + partSize, f, f * g.frame⟩

/-- The address of frame number f in a layer. -/
def Pool.frameAddr (q : Pool) (frameBytes layer f : Nat) : Nat := q.region + layer * q.stride + f * frameBytes

/-- The frame number that an address names in a layer, where it is a frame address (R180). -/
def Pool.frameOf (q : Pool) (frameBytes layer a : Nat) : Option Nat :=
  let base := q.region + layer * q.stride
  if base ≤ a && (a - base) % frameBytes == 0 && (a - base) / frameBytes < q.count then some ((a - base) / frameBytes)
  else none

/-! ## Frame numbers (R170) -/

def frameKey (p stack f : Nat) : Nat := (p * 16 + stack) * 2 ^ 24 + f

/-- The state of a frame number (R170). -/
def State.frame (s : State) (p stack f : Nat) : Frame := getC (fun _ => Frame.free) s.frames (frameKey p stack f)

def State.setFrame (s : State) (p stack f : Nat) (v : Frame) : State :=
  { s with frames := setC (fun _ => Frame.free) s.frames (frameKey p stack f) v }

/-- The listed frames of a stack: those that are not FREE. -/
def State.framesOf (s : State) (p stack : Nat) : List (Nat × Frame) :=
  (s.frames.filter fun x => x.1 / 2 ^ 24 == p * 16 + stack).map fun x => (x.1 % 2 ^ 24, x.2)

/-- FREE and RESERVED frame numbers of a stack (R170): the count that COMMIT reports and that the parameters show, for which no
sequence asks. -/
def State.availFrames (s : State) (p stack : Nat) : Nat :=
  (s.pool p stack).count - ((s.framesOf p stack).filter fun x => decide (0 < x.2.refs)).length

/-- The KvFramesAvailable parameters of a partition brought up to date (R196). -/
def refreshAvail (p : Nat) : M Unit := do
  let s ← get
  each (List.range 12) fun st => setPar (pk 0x5820 (12 * p + st + 1)) (s.availFrames p st)

/-- A frame number loses one reference; at 0 it is FREE (R173). -/
def dropFrame (p stack f : Nat) : M Unit := modify fun s =>
  let v := s.frame p stack f
  s.setFrame p stack f (if v.refs ≤ 1 then Frame.free else { v with refs := v.refs - 1 })

/-- A frame number gains one reference. -/
def shareFrame (p stack f : Nat) : M Unit := modify fun s =>
  let v := s.frame p stack f
  s.setFrame p stack f ⟨v.refs + 1, none⟩

/-! ## Reel records (R175, R176) -/

def reelKey (p slate reel : Nat) : Nat := (p * 2 ^ 24 + slate) * 2 ^ 16 + reel

/-- Frame j of a stack word. -/
def StackWord.frame : StackWord → Nat → Option Nat
  | .none, _ => Option.none
  | .contig slot used, j => if j < used then some (16 * slot + j) else Option.none
  | .scatter fs, j => fs[j]?

/-- Frames in use of a stack word. -/
def StackWord.used : StackWord → Nat
  | .none => 0
  | .contig _ used => used
  | .scatter fs => fs.length

/-- The frame numbers of a stack word in order. -/
def StackWord.frames (w : StackWord) : List Nat := (List.range w.used).filterMap w.frame

/-- The stack word of a reel (R176). -/
def State.word (s : State) (p slate reel stack : Nat) : StackWord :=
  ((lookup s.reels (reelKey p slate reel)).getD []).getD stack .none

/-- A stack word replaced. -/
def State.setWord (s : State) (p slate reel stack : Nat) (w : StackWord) : State :=
  let old := (lookup s.reels (reelKey p slate reel)).getD (List.replicate 12 .none)
  { s with reels := insertAt s.reels (reelKey p slate reel) (old.set stack w) }

/-- The reels of a sequence that this module holds. -/
def State.reelsOf (s : State) (p slate : Nat) : List Nat :=
  (s.reels.filter fun x => x.1 / 2 ^ 16 == p * 2 ^ 24 + slate).map fun x => x.1 % 2 ^ 16

/-- The frames of a sequence on a stack in increasing TokenBase: TokenBase / 16 and the frame number. -/
def State.seqFrames (s : State) (p slate stack : Nat) : List (Nat × Nat) :=
  (s.reelsOf p slate).flatMap fun r =>
    ((s.word p slate r stack).frames.zipIdx).map fun x => (16 * r + x.2, x.1)

/-- The 32 bits of a stack word (R176); i is the place of the reel's scatter records. -/
def StackWord.code (i : Nat) : StackWord → Nat
  | .none => 0
  | .contig slot used => 1 * 2 ^ 30 + used % 32 * 2 ^ 25 + slot % 2 ^ 24
  | .scatter fs => 2 * 2 ^ 30 + fs.length % 32 * 2 ^ 25 + i % 2 ^ 24

/-- The 64 B local reel record (R176). -/
def reelRecord (p slate reel i : Nat) (ws : List StackWord) : Nat :=
  slate % 2 ^ 24 * 2 ^ 488 + reel % 2 ^ 16 * 2 ^ 472 + p % 8 * 2 ^ 469
    + ((ws.zipIdx).map fun w => w.1.code i * 2 ^ (32 * w.2)).foldl (· + ·) 0

/-- A 64 B scatter record (R176): 16 U32 frame numbers, 0xFF_FFFF where none is allocated. -/
def scatterRecord (fs : List Nat) : List Nat :=
  (List.range 16).flatMap fun j => toBytes (fs.getD j 0xFFFFFF) 4

/-- Where reel records, scatter records and reel maps lie (the model's own layout, notes/assumptions/54): the last 80 MiB of a system
area hold 32 MiB of reel maps of partition st (stacks 0 to 7) or of reel records in turn (stacks 8 to 11), then 32 MiB of the
stack's scatter records, then 16 MiB of call sheets and notices. -/
def State.sysTail (s : State) (st : Nat) : Nat := s.sysBase st + s.eff' 0x510000 * 0x100000 - 0x5000000
def State.reelAddr (s : State) (i : Nat) : Nat := s.sysTail (8 + i % 4) + i / 4 * 64
def State.scatterAddr (s : State) (st i : Nat) : Nat := s.sysTail st + 0x2000000 + i * 64

/-- The second copy of a reel record, on a stack of another region (R411): of stack 8 on stack 9, of the others on stack 8. DESIGN CHOICE
(notes/assumptions/54): unsafe. -/
def State.reelCopy (s : State) (i : Nat) : Nat :=
  s.sysTail (if i % 4 == 0 then 9 else 8) + (if i % 4 == 0 then 1 else i % 4) * 0x800000 + i / 4 * 64

/-- The places of that layout. -/
def reelPlaces : Nat := 524288

/-- Writes the record of one reel, and the scatter records it names. -/
def writeReel (key i : Nat) (ws : List StackWord) : M Unit := do
  let s ← get
  each [s.reelAddr i, s.reelCopy i] fun a =>
    storeVal .structures a 64 (reelRecord (key / 2 ^ 40) (key / 2 ^ 16 % 2 ^ 24) (key % 2 ^ 16) i ws)
  each (ws.zipIdx) fun w =>
    match w.1 with
    | .scatter fs => store .structures (s.scatterAddr w.2 i) (scatterRecord fs)
    | .none => skip
    | .contig _ _ => skip

/-- The lowest place that no reel record takes. -/
def State.freePlace (s : State) : Option Nat :=
  (List.range (min reelPlaces (s.reelImage.length + 1))).find? fun i => !s.reelImage.any fun x => x.2.1 == i

/-- Brings the reel records in the system areas up to date (R176): the record of a reel that is held no longer is cleared. -/
def syncReels : M Unit := do
  let s ← get
  each (s.reelImage.filter fun x => (lookup s.reels x.1).isNone) fun x => do
    each [s.reelAddr x.2.1, s.reelCopy x.2.1] fun a => storeVal .structures a 64 0
    modify fun t => { t with reelImage := eraseKey t.reelImage x.1 }
  each (s.reels.filter fun x => ((lookup s.reelImage x.1).map Prod.snd) != some x.2) fun x => do
    let t ← get
    match ((lookup t.reelImage x.1).map Prod.fst).orElse fun _ => t.freePlace with
    | none => skip
    | some i => do
      writeReel x.1 i x.2
      modify fun t => { t with reelImage := insertAt t.reelImage x.1 (i, x.2) }

/-! ## The allocator (R171) -/

/-- Every frame of a reel slot is FREE. -/
def State.slotFree (s : State) (p stack r : Nat) : Bool :=
  (List.range 16).all fun j => decide (s.frame p stack (16 * r + j) = Frame.free)

/-- The lowest reel slot that is whole and FREE. Each slot passed over lists a frame, so the search is short. -/
def State.freeSlot (s : State) (p stack : Nat) : Option Nat :=
  (List.range (min ((s.pool p stack).count / 16) ((s.framesOf p stack).length + 1))).find? (s.slotFree p stack)

/-- The lowest FREE frame number. -/
def State.freeFrame (s : State) (p stack : Nat) : Option Nat :=
  (List.range (min (s.pool p stack).count ((s.framesOf p stack).length + 1))).find? fun f =>
    decide (s.frame p stack f = Frame.free)

/-- The highest RESERVED frame number held for another sequence. -/
def State.othersReserved (s : State) (p stack slate : Nat) : Option Nat :=
  (s.framesOf p stack).foldl (fun b x => if x.2.refs == 0 && x.2.res != some slate && x.2.res.isSome then some x.1 else b)
    none

/-- A word with its next frame number added: it stays contiguous only under rules 1 and 2 (R176). -/
def StackWord.push (w : StackWord) (f : Nat) (contig : Bool) : StackWord :=
  match w, contig with
  | .none, true => .contig (f / 16) 1
  | .contig slot used, true => .contig slot (used + 1)
  | w, _ => .scatter (w.frames ++ [f])

/-- A reel slot's reel goes on scattered (R171): its word names each frame, and what was RESERVED for it is held for no contiguous
reel any more and is FREE (R170). DESIGN CHOICE (notes/assumptions/53): unsafe. -/
def State.scatterSlot (s : State) (p stack slot : Nat) : State :=
  { s with
    reels := s.reels.map fun x =>
      if x.1 / 2 ^ 40 == p then (x.1, x.2.mapIdx fun i w => match w with
        | .contig r _ => if i == stack && r == slot then .scatter w.frames else w
        | .none => w
        | .scatter _ => w)
      else x
    frames := s.frames.filter fun x => !(decide (frameKey p stack (16 * slot) ≤ x.1) && decide (x.1 < frameKey p stack (16 * slot + 16)) && x.2.refs == 0) }

/-- Gives the next frame of a sequence's reel on one stack, by the first of the four rules that fits (R171). -/
def allocOn (p slate reel stack : Nat) : M Unit := do
  let s ← get
  let w := s.word p slate reel stack
  let loose : M Unit := match w with
    | .contig slot _ => modify fun t => t.scatterSlot p stack slot
    | .none => skip
    | .scatter _ => skip
  let give : Nat → Bool → M Unit := fun f contig => modify fun t =>
    (t.setFrame p stack f ⟨1, none⟩).setWord p slate reel stack (w.push f contig)
  let next := match w with
    | .contig slot used =>
      if used < 16 && decide (s.frame p stack (16 * slot + used) = (⟨0, some slate⟩ : Frame)) then some (16 * slot + used) else none
    | .none => none
    | .scatter _ => none
  match next with
  | some f => give f true
  | none =>
    match (if w.used == 0 then s.freeSlot p stack else none) with
    | some r => do
      each (List.range 15) fun j => modify fun t => t.setFrame p stack (16 * r + j + 1) ⟨0, some slate⟩
      give (16 * r) true
    | none =>
      match s.freeFrame p stack with
      | some f => do
        loose
        give f false
        bump (pk 0x8044 3) 1
      | none =>
        match s.othersReserved p stack slate with
        | some f => do
          loose
          modify fun t => t.scatterSlot p stack (f / 16)
          give f false
          bump (pk 0x8044 3) 1
          bump (pk 0x8044 4) 1
        | none => skip

/-- Allocates frame j (TokenBase / 16) of a sequence on every stack, where it has none yet. -/
def allocFrame (p slate j : Nat) : M Unit :=
  each (List.range 12) fun st => do
    let s ← get
    onlyIf ((s.word p slate (j / 16) st).used ≤ j % 16) (allocOn p slate (j / 16) st)

/-- Frames that positions lo to hi of a sequence open on this module, in increasing token order. -/
def framesOpened (lo hi : Nat) : List Nat := (List.range (hi / 16 + 1 - lo / 16)).map (· + lo / 16)

/-- A sequence's frames from TokenBase 16j on are released (R173, R227, R255). -/
def releaseFrom (p slate j : Nat) : M Unit := do
  let s ← get
  each (s.reelsOf p slate) fun r =>
    each (List.range 12) fun st => do
      let s ← get
      let w := s.word p slate r st
      let keep := min w.used (j - 16 * r)
      each (w.frames.drop keep) fun f => dropFrame p st f
      onlyIf (decide (keep < w.used)) (modify fun t => t.setWord p slate r st (match w with
        | .none => .none
        | .contig slot _ => if keep == 0 then .none else .contig slot keep
        | .scatter fs => if keep == 0 then .none else .scatter (fs.take keep)))
  modify fun t => { t with reels := t.reels.filter fun x =>
    !(x.1 / 2 ^ 16 == p * 2 ^ 24 + slate && x.2.all fun w => w.used == 0) }

/-- All frames of a leaving sequence are released, and what is reserved for it becomes FREE (R173). -/
def releaseSeq (p slate : Nat) : M Unit := do
  releaseFrom p slate 0
  modify fun t => { t with
    frames := t.frames.filter fun x => !(x.1 / 2 ^ 28 == p && decide (x.2 = (⟨0, some slate⟩ : Frame))) }

/-! ## Frames of a fenced context (R174) -/

/-- The frame numbers of a sequence, those RESERVED for it included: stack and number. -/
def State.framesHeld (s : State) (p slate : Nat) : List (Nat × Nat) :=
  (List.range 12).flatMap fun st =>
    ((s.seqFrames p slate st).map fun f => (st, f.2))
      ++ ((s.framesOf p st).filter fun x => decide (x.2 = (⟨0, some slate⟩ : Frame))).map fun x => (st, x.1)

/-- A sequence leaves, but its context is fenced: its frames stay in their states, to be released later. DESIGN CHOICE
(notes/assumptions/36): safe. DESIGN CHOICE (notes/assumptions/63): safe. -/
def holdLate (p slate ctx : Nat) : M Unit := do
  let s ← get
  setInst p fun i => { i with late := i.late ++ [(ctx, s.framesHeld p slate)] }
  modify fun t => { t with reels := t.reels.filter fun x => !(x.1 / 2 ^ 16 == p * 2 ^ 24 + slate) }

/-- One held frame is released: a reference is dropped, or what was RESERVED is FREE. -/
def dropLate (p : Nat) (f : Nat × Nat) : M Unit := do
  let s ← get
  if (s.frame p f.1 f.2).refs == 0 then modify fun t => t.setFrame p f.1 f.2 Frame.free else dropFrame p f.1 f.2

/-- The held frames whose context is fenced no more are released. DESIGN CHOICE (notes/assumptions/36): safe. DESIGN CHOICE
(notes/assumptions/63): safe. -/
def releaseLate (p : Nat) (fenced : State → Nat → Bool) : M Unit := do
  let s ← get
  let go := (s.inst p).late.filter fun x => !fenced s x.1
  setInst p fun i => { i with late := i.late.filter fun x => fenced s x.1 }
  each go fun x => each x.2 (dropLate p)

/-! ## The runs of a prefill chunk (R166) -/

/-- Positions lo to hi - 1 of a sequence as runs on one stack: frames at consecutive numbers join only where FrameBytes is
16 x SlotBytes. -/
def kvRuns (slate stack : Nat) (whole : Bool) (frameAt : Nat → Option Nat) (lo hi : Nat) : List KvRun :=
  (framesOpened lo (hi - 1)).foldl (fun rs j =>
    match frameAt j with
    | none => rs
    | some f =>
      let a := max lo (16 * j)
      let n := min hi (16 * j + 16) - a
      match rs.getLast? with
      | none => [⟨slate, stack, a, n, f⟩]
      | some r =>
        if whole && r.pos + r.count == a && f == r.frame + (r.pos % 16 + r.count) / 16 then
          rs.dropLast ++ [{ r with count := r.count + n }]
        else rs ++ [⟨slate, stack, a, n, f⟩]) []

/-- The runs of a chunk's positions on every stack. -/
def State.chunkRuns (s : State) (p slate lo hi : Nat) : List KvRun :=
  let g := s.geom p
  (List.range 12).flatMap fun st =>
    kvRuns slate st (g.frame == 16 * g.slot) (fun j => (s.word p slate (j / 16) st).frame (j % 16)) lo hi

/-- The output format record (R48) with which a run's keys (or values) of a layer are written (R166): element and scale addresses at
the slot of the first token, pitches of SlotBytes, and the layer's key scale, for values as for keys. -/
def State.kvRecord (s : State) (p layer : Nat) (r : KvRun) (value : Bool) : Nat :=
  let g := s.geom p
  let slot := (s.pool p r.stack).frameAddr g.frame layer r.frame + r.pos % 16 * g.slot + (if value then g.kBytes + g.ksBytes else 0)
  let t := s.kvScale p layer
  slot / 64 * 2 ^ 198 + (slot + g.kBytes) / 64 * 2 ^ 134 + t.1 * 2 ^ 96 + g.slot / 64 * 2 ^ 72
    + g.slot / 64 * 2 ^ 48 + g.kv.code

/-! ## Starting a partition (R160 to R165) -/

/-- The indices of the geometry parameters that the Director reads when a partition starts (R160, R192, R196). -/
def kvStartParams : List Nat :=
  [0x5800, 0x5801, 0x5802, 0x5803, 0x5804, 0x5805, 0x5806, 0x5807, 0x5808, 0x5809, 0x580A, 0x580B, 0x580C, 0x580D]

/-- Reads the tensor scale table (R162); a poisoned entry makes the table unusable. -/
def readScales (p : Nat) : M Unit := do
  let s ← get
  let g := s.geom p
  let base := s.eff' (pk 0x5808 (p + 1))
  let l ← collect (List.range g.layers) fun i => do
    let r ← load .director (base + 8 * i) 8
    let a := clampTensorScale (bits r.val 31 0)
    let b := clampTensorScale (bits r.val 63 32)
    clampDesc (b2n a.2 + b2n b.2)
    onlyIf r.poisoned (do
      recordUe (base + 8 * i) actPoisoned p 0
      modify fun t => { t with kvBad := if t.kvBad.contains p then t.kvBad else t.kvBad ++ [p] })
    pure (a.1, b.1)
  modify fun t => { t with kvScales := insertAt t.kvScales p l }

/-- The Director reads the geometry as the partition starts: FrameBytes is raised to 16 slots, or the geometry is
unusable; frames and reel records of an earlier run are gone. -/
def startKv (p : Nat) : M Unit := do
  modify fun t => { t with kvBad := t.kvBad.filter (· != p), kvScales := t.kvScales.filter fun x => x.1 != p }
  each kvStartParams fun i => do
    let v ← par (pk i (p + 1))
    setEff (pk i (p + 1)) v
  each [p + 1, p + 9] fun i => do
    let v ← par (pk 0x580E i)
    setEff (pk 0x580E i) v
  let s ← get
  let g := s.geom p
  let need := 16 * g.slot
  let fb := if 0x40000 < need then 0x40000 else max g.frame (alignUp need 256)
  onlyIf (decide (0x40000 < need)) (modify fun t => { t with kvBad := t.kvBad ++ [p] })
  setPar (pk 0x5800 (p + 1)) fb
  setEff (pk 0x5800 (p + 1)) fb
  if g.kv.isK then readScales p else skip
  modify fun t => { t with
    frames := t.frames.filter fun x => x.1 / 2 ^ 28 != p
    reels := t.reels.filter fun x => x.1 / 2 ^ 40 != p }
  setInst p fun i => { i with late := [], seqCtx := [], canned := [] }
  syncReels
  refreshAvail p

end Sys2Proof.Machine
end

