-- ==== Sys2Proof/Machine/Attention.lean ====
section
/-! DEFINITION. Decode attention (chapter "KV frames, reels and stack engines"): the attention list, the frame descriptor
streams, the stack engine's arithmetic, and the relay commands that feed, return and merge. -/
namespace Sys2Proof.Machine

/-! ## The attention list (R177) -/

def aSlate (e : Nat) : Nat := bits e 255 232
def aSlot (e : Nat) : Nat := bits e 231 212
def aCount (e : Nat) : Nat := bits e 211 206
def aPos (e : Nat) : Nat := bits e 205 181
def aHome (e : Nat) : Nat := bits e 180 175
def aNew (e : Nat) : Nat := bits e 174 169
def aLanding (e : Nat) : Nat := bits e 168 145
def aMerge (e : Nat) : Nat := bits e 144 125
def aMask (e : Nat) : Nat := bits e 124 61

/-- A run entry, which is an attention-list entry bit for bit (R177, R220). -/
def attnEntry (slate slot count pos home new landing merge mask : Nat) : Nat :=
  slate % 2 ^ 24 * 2 ^ 232 + slot % 2 ^ 20 * 2 ^ 212 + count % 2 ^ 6 * 2 ^ 206 + pos % 2 ^ 25 * 2 ^ 181
    + home % 2 ^ 6 * 2 ^ 175 + new % 2 ^ 6 * 2 ^ 169 + landing % 2 ^ 24 * 2 ^ 145 + merge % 2 ^ 20 * 2 ^ 125
    + mask % 2 ^ 64 * 2 ^ 61

/-- The ranks of a source mask in source order: from the home upward, wrapping (R177). -/
def sourceOrder (e : Nat) : List Nat :=
  ((List.range 64).map fun i => (aHome e + i) % 64).filter fun r => bit (aMask e) r

/-- The source order w of a rank. -/
def sourceIndex (e r : Nat) : Nat := (sourceOrder e).findIdx (· == r)

/-- A module feeds, attends or merges a sequence (R177, R220). -/
def entryHere (e rank : Nat) : Bool := aHome e == rank || aNew e == rank || bit (aMask e) rank

/-- The places in the system areas where the Director keeps a partition's attention list and a stack's descriptor stream (the model's
own layout): a sixteenth of the area for each partition, the list in the second half of stack 0's. DESIGN CHOICE
(notes/assumptions/54): unsafe. -/
def State.streamAddr (s : State) (p stack : Nat) : Nat := s.sysBase stack + p * (s.eff' 0x510000 * 0x10000)

def State.listAddr (s : State) (p : Nat) : Nat := s.streamAddr p 0 + s.eff' 0x510000 * 0x8000

/-- The frame descriptors of one entry on a stack (R178, R179). -/
def State.descriptors (s : State) (p stack step e : Nat) : List Nat :=
  let g := s.geom p
  let q := s.pool p stack
  let rank := s.rank p
  let last := aPos e + aCount e
  let fs := (s.seqFrames p (aSlate e) stack).filter fun f => decide (16 * f.1 < last)
  let mk := fun (addr base valid : Nat) (first lst : Bool) =>
    addr / 64 * 2 ^ 198 + 0xFFF * 2 ^ 186 + stack * 2 ^ 182 + base * 2 ^ 157 + valid * 2 ^ 152 + aSlate e * 2 ^ 128
      + step % 2 ^ 16 * 2 ^ 112 + (aHome e * 2 ^ 26 + aMerge e * 2 ^ 6 + sourceIndex e rank % 64) * 2 ^ 80
      + aCount e * 2 ^ 74 + aPos e * 2 ^ 49 + aSlot e * 2 ^ 29 + b2n first * 2 ^ 28 + b2n lst * 2 ^ 27
  if fs.isEmpty then [mk 0 0 1 true true]
  else (fs.zipIdx).map fun x =>
    mk (q.frameAddr g.frame 0 x.1.2) (16 * x.1.1) (min 16 (last - 16 * x.1.1)) (x.2 == 0) (x.2 + 1 == fs.length)

/-- The Director writes the attention list and walks the reel records into the streams (R177, R179). -/
def writeWalk (p step : Nat) (run : List Nat) : M Unit := do
  let s ← get
  let es := run.filter fun e => entryHere e (s.rank p)
  store .structures (s.listAddr p) (es.flatMap fun e => toBytes e 32)
  each (List.range 12) fun st =>
    store .structures (s.streamAddr p st) ((es.flatMap fun e => s.descriptors p st step e).flatMap fun d => toBytes d 32)

/-! ## Attention arithmetic (R185 to R188) -/

/-- A running maximum, sum and weighted value vector, with the keys that contributed. -/
structure Partial where
  m    : Nat
  l    : Nat
  o    : List Nat
  keys : Nat
deriving DecidableEq, Repr

/-- The partial with which a sequence starts (R185). -/
def Partial.start (d : Nat) : Partial := ⟨f32NegInf, 0, List.replicate d 0, 0⟩

/-- l = +0 marks an empty partial (R187). -/
def Partial.empty (x : Partial) : Bool := x.l == 0

/-- Two partials merged; an empty one is skipped (R188). -/
def Partial.merge (a b : Partial) : Partial :=
  if b.empty then { a with keys := a.keys + b.keys }
  else if a.empty then { b with keys := a.keys + b.keys }
  else
    let m := if f32IsNan b.m then b.m else f32Max a.m b.m
    let a1 := f32Exp (f32Sub a.m m)
    let a2 := f32Exp (f32Sub b.m m)
    ⟨m, f32Add (f32Mul a1 a.l) (f32Mul a2 b.l), (a.o.zip b.o).map fun x => f32Add (f32Mul a1 x.1) (f32Mul a2 x.2),
      a.keys + b.keys⟩

/-- One frame taken into a partial (R185): the scores of its 16 slots, none where masked, and the slots' values. A slot of p = +0 whose
value is NaN or Inf makes the sum NaN, masked or not (R56, R64). -/
def Partial.frame (x : Partial) (scores : List (Option Nat)) (vals : List (List Val)) : Partial :=
  let ss := scores.map fun o => o.getD f32NegInf
  if ss.any f32IsNan then
    ⟨f32Nan, f32Nan, x.o.map fun _ => f32Nan, x.keys + (scores.filterMap id).length⟩
  else if ss.all (· == f32NegInf) then { x with keys := x.keys + (scores.filterMap id).length }
  else
    let f := ss.foldl f32Max f32NegInf
    let m := f32Max x.m f
    let a := if x.m == f32NegInf then 0 else f32Exp (f32Sub x.m m)
    let ps := ss.map fun s => if s == f32NegInf then 0 else f32Exp (f32Sub s m)
    let l := f32Add (f32Mul a x.l) (f32Round (sumExact (ps.map f32Val)))
    let o := (x.o.zipIdx).map fun y =>
      let terms := (ps.zip vals).map fun z => (f32Val z.1).mul (z.2.getD y.2 Val.zero)
      f32Add (f32Mul a y.1) (f32Round (sumExact terms))
    ⟨m, l, o, x.keys + (scores.filterMap id).length⟩

/-- The elements of one head from the packed bytes of a key or value vector, grouped by 16, with their block scales. -/
def headGroups (g : Geom) (data scales h : Nat) : List RowGroup :=
  (List.range (g.d / 16)).map fun b =>
    ((List.range 16).map fun i => g.kv.dec (unpackCode g.kv.elemBits data (h * g.d + 16 * b + i)),
     if g.kv.isK then g.kv.scaleVal (scales / 256 ^ (h * (g.d / 16) + b) % 256) else Val.fin false 1 0)

/-- The score of a key against a query head (R185 step 1). -/
def score (g : Geom) (kt : Nat) (q : List Val) (k : List RowGroup) : Nat :=
  let gs := (k.zipIdx).map fun x => (⟨x.1.1, (q.drop (16 * x.2)).take 16, x.1.2, Val.fin false 1 0⟩ : Group)
  f32Mul (f32Mul (accumulate 0 gs) kt) g.scale

/-- A slot's keys or values and their scales, and whether a read of them was poisoned. -/
structure SlotRead where
  k    : Nat
  ks   : Nat
  v    : Nat
  vs   : Nat
  bad  : Bool
deriving DecidableEq, Repr

/-- Reads the key and value of one slot (R163). -/
def readSlot (w : Who) (g : Geom) (a : Nat) : M SlotRead := do
  let k ← load w a g.kBytes
  let ks ← if g.ksBytes == 0 then pure (⟨0, []⟩ : Read) else load w (a + g.kBytes) g.ksBytes
  let v ← load w (a + g.kBytes + g.ksBytes) g.kBytes
  let vs ← if g.ksBytes == 0 then pure (⟨0, []⟩ : Read) else load w (a + 2 * g.kBytes + g.ksBytes) g.ksBytes
  pure ⟨k.val, ks.val, v.val, vs.val, k.poisoned || ks.poisoned || v.poisoned || vs.poisoned⟩

/-- The sequence a stack engine has open: its descriptor's fields, its queries, and a partial per query row, query head and
core share. -/
structure OpenSeq where
  desc  : Nat
  qs    : List (Nat × Bool)
  parts : List Partial
  bad   : Bool
deriving DecidableEq, Repr

def dCount (d : Nat) : Nat := bits d 79 74
def dPos (d : Nat) : Nat := bits d 73 49
def dSlot (d : Nat) : Nat := bits d 48 29
def dBase (d : Nat) : Nat := bits d 181 161 * 16
def dValid (d : Nat) : Nat := bits d 156 152

/-- Cores that share a key-value head (R183). -/
def Geom.share (g : Geom) : Nat := if 8 ≤ g.hg then 1 else 8 / g.hg

/-- Query heads of a stack. -/
def Geom.heads (g : Geom) : Nat := g.hg * g.qpk

/-- Opens a sequence at its First descriptor: its query rows are read from the feed area. -/
def openSeq (w : Who) (g : Geom) (q : Pool) (d : Nat) : M OpenSeq := do
  let qs ← collect (List.range (dCount d)) fun i => do
    let r ← load w (q.feed + (dSlot d * 33 + i) * g.feed) g.qBytes
    pure (r.val, r.poisoned)
  pure ⟨d, qs, List.replicate (dCount d * g.heads * g.share) (Partial.start g.d), qs.any Prod.snd⟩

/-- Appends the step's new keys and values that a descriptor's frame holds (R182). -/
def appendKv (w : Who) (g : Geom) (q : Pool) (d frame : Nat) : M Bool :=
  foldState (List.range (dCount d)) false fun bad i => do
    let p := dPos d + i
    if dBase d ≤ p && p < dBase d + min 16 (dValid d) then do
      let a := q.feed + (dSlot d * 33 + i) * g.feed + g.qBytes
      let r ← load w a g.slot
      store w (frame + (p - dBase d) * g.slot) (toBytes r.val g.slot)
      each r.bad fun c => storePoison w (frame + (p - dBase d) * g.slot + (c * 32 - a)) 32
      pure (bad || r.poisoned)
    else pure bad

/-- One frame taken into the open sequence's partials. -/
def frameStep (w : Who) (g : Geom) (kt frame d : Nat) (o : OpenSeq) : M OpenSeq := do
  let slots ← collect (List.range 16) fun t => readSlot w g (frame + t * g.slot)
  let c := g.share
  let vals := (List.range g.hg).map fun h => slots.map fun x =>
    (headGroups g x.v x.vs h).flatMap fun gr => gr.1.map fun e => blockValue gr.2 e
  let keys := (List.range g.hg).map fun h => slots.map fun x => headGroups g x.k x.ks h
  let parts := (o.parts.zipIdx).map fun x =>
    let core := x.2 % c
    let j := x.2 / c % g.heads
    let i := x.2 / c / g.heads
    if dBase d / 16 % c != core then x.1
    else
      let h := j / g.qpk
      let q := (List.range g.d).map fun k => g.q.dec (unpackCode g.q.elemBits ((o.qs.getD i (0, false)).1) (j * g.d + k))
      let scores := ((keys.getD h []).zipIdx).map fun y =>
        if dValid d ≤ y.2 || dPos o.desc + i < dBase d + y.2 then none else some (score g kt q y.1)
      x.1.frame scores (vals.getD h [])
  pure { o with parts := parts, bad := o.bad || slots.any (·.bad) }

/-- The 32 B header of a partial-result record (R187). -/
def partialHeader (slate keys row head layer epoch rank : Nat) (bad : Bool) (x : Partial) : Nat :=
  slate % 2 ^ 24 * 2 ^ 232 + keys % 2 ^ 25 * 2 ^ 207 + row % 2 ^ 6 * 2 ^ 201 + head % 2 ^ 13 * 2 ^ 188
    + layer % 2 ^ 12 * 2 ^ 176 + epoch % 2 ^ 16 * 2 ^ 160 + rank % 2 ^ 6 * 2 ^ 154 + b2n bad * 2 ^ 153
    + x.m % 2 ^ 32 * 2 ^ 96 + x.l % 2 ^ 32 * 2 ^ 64

/-- A record's bytes. -/
def partialBytes (header : Nat) (x : Partial) : List Nat := toBytes header 32 ++ x.o.flatMap fun y => toBytes y 4

/-- Closes a sequence at its Last descriptor: the value tensor scale, the merge of the core shares in increasing order, and
the records (R181, R183, R185, R187). -/
def closeSeq (c : Cmd) (g : Geom) (q : Pool) (tv stack layer : Nat) (bad : Bool) (o : OpenSeq) : M Unit := do
  let s ← get
  let fin := o.parts.map fun x => { x with o := x.o.map fun y => f32Mul y tv }
  each (List.range (dCount o.desc)) fun i =>
    each (List.range g.heads) fun j => do
      let shares := (List.range g.share).map fun k => fin.getD ((i * g.heads + j) * g.share + k) (Partial.start g.d)
      let x := match shares with
        | [] => Partial.start g.d
        | a :: rest => rest.foldl Partial.merge a
      store c.who (q.part + ((dSlot o.desc * 33 + i) * g.heads + j) * g.partBytes)
        (partialBytes (partialHeader (bits o.desc 151 128) x.keys i (stack * g.heads + j) layer ((s.inst c.p).run.getD 0)
          (s.rank c.p) (bad || o.bad) x) x)

/-- What a stack engine carries along its stream. -/
structure Walk where
  cur    : Option OpenSeq
  /-- sequences seen only in dropped descriptors -/
  lost   : List (Nat × Nat)
  opened : List Nat
deriving DecidableEq, Repr

/-- One descriptor (R178, R180, R182, R185). One that follows a dropped First descriptor belongs to the sequence still open. DESIGN CHOICE
(notes/assumptions/45): unsafe. -/
def walkStep (c : Cmd) (g : Geom) (q : Pool) (stack layer : Nat) (bad : Bool) (d : Nat) (w : Walk) : M Walk := do
  let s ← get
  let sc := s.kvScale c.p layer
  let addr := bits d 255 198 * 64
  let only := bits d 197 186
  let empty := addr == 0 && bit d 28 && bit d 27
  let at' := if only == 0xFFF then addr + layer * q.stride else addr
  let mine := only == 0xFFF || only == layer
  let ok := bits d 127 112 == ((s.inst c.p).run.getD 0) % 2 ^ 16 && bits d 185 182 == stack
    && (empty || !mine || (q.frameOf g.frame layer at').isSome)
  if !ok then do
    bump (pk 0x8044 2) 1
    pure { w with lost := w.lost ++ [(bits d 151 128, d)] }
  else do
    bump (pk 0x8044 1) 1
    let cur ← if bit d 28 then (do let o ← openSeq c.who g q d; pure (some o)) else pure w.cur
    let cur ← match cur with
      | none => pure none
      | some o =>
        if empty || !mine then pure (some o)
        else do
          let b ← appendKv c.who g q d at'
          let o' ← frameStep c.who g sc.1 at' d o
          pure (some { o' with bad := o'.bad || b })
    let opened := if bit d 28 then w.opened ++ [bits d 151 128] else w.opened
    match cur with
    | none => pure { w with opened := opened }
    | some o =>
      if bit d 27 then do
        closeSeq c g q sc.2 stack layer bad o
        pure ⟨none, w.lost, opened⟩
      else pure ⟨some o, w.lost, opened⟩

/-- ATTEND (R181 to R187): the stream in order. A sequence whose descriptors are all dropped gets an empty partial. -/
def bodyAttend (c : Cmd) : M End := do
  let s ← get
  let a := c.area
  let g := s.geom c.p
  let stack := c.e - 64
  let q := s.pool c.p stack
  let layer := min (bits a 173 162) (g.layers - 1)
  clampDesc (b2n (layer != bits a 173 162))
  let ds ← collect (List.range (bits a 197 174)) fun i => load (.system .stack c.e) (bits a 255 198 * 64 + 32 * i) 32
  let bad := ds.any Read.poisoned
  let w ← foldState ds ⟨none, [], []⟩ fun w r => walkStep c g q stack layer bad r.val w
  let lost := w.lost.filter fun x => !w.opened.contains x.1
  each lost fun x =>
    closeSeq c g q f32One stack layer bad ⟨x.2, [], List.replicate (dCount x.2 * g.heads * g.share) (Partial.start g.d), false⟩
  pure .done

/-! ## Relay commands (R189 to R191) -/

/-- Reads the attention list named by a relay command: its entries, and whether each read as poisoned. DESIGN CHOICE
(notes/assumptions/54): unsafe. -/
def readList (c : Cmd) : M (List (Nat × Bool)) := do
  let rs ← collect (List.range (bits c.area 197 174)) fun i => load (.system .relay c.e) (bits c.area 255 198 * 64 + 32 * i) 32
  pure (rs.map fun r => (r.val, r.poisoned))

/-- The layer of an attention or expert command, clamped to KvLayerCount - 1. -/
def clampLayer (p field : Nat) : M Nat := do
  let s ← get
  let l := min field ((s.geom p).layers - 1)
  clampDesc (b2n (l != field))
  pure l

/-- A partition's FeedCue (R190) advances by 1; the MergeCue likewise. -/
def attnCue (p : Nat) (feed : Bool) : M Unit := do
  let s ← get
  signalCue (.engine .relay 80 p) (s.eff' (pk 0x580E (if feed then p + 1 else p + 9))) 1

/-- Data sent to another module (R410): zeros in place of each poisoned codeword, a record, an event and a count. -/
def forwarded (c : Cmd) (a dest : Nat) (r : Read) (n : Nat) : M (List Nat) := do
  let bs := toBytes r.val n
  if r.bad.isEmpty then pure bs
  else do
    let s ← get
    recordFault ⟨0x10, 2, ukRelay, c.e, s.engPhysical c.e 0, actPoisoned, c.p, c.ctx, a, 1, 0, dest⟩
    raiseEvent 0x41 c.p 0 (a + dest % 256 * 2 ^ 64)
    bump (pk 0x8052 8) 1
    pure ((bs.zipIdx).map fun x => if r.bad.contains ((a + x.2) / 32) then 0 else x.1)

/-- Marks sequences to be reported Poisoned (R222, R410). -/
def markPoisoned (p slate : Nat) : M Unit :=
  setInst p fun i => { i with poisoned := if i.poisoned.contains slate then i.poisoned else i.poisoned ++ [slate] }

/-- Every other rank of the instance. -/
def State.otherRanks (s : State) (p : Nat) : List Nat := (List.range (s.instSize p)).filter (· != s.rank p)

/-- ATTN_FEED (R189, R190): one batch per other module. -/
def bodyAttnFeed (c : Cmd) : M End := do
  let s ← get
  let g := s.geom c.p
  let me := s.rank c.p
  let _ ← clampLayer c.p (bits c.area 173 162)
  let es ← readList c
  let landing := bits c.area 161 104 * 64
  let pitch := bits c.area 103 80 * 64
  each (es.filter fun e => e.2 && aHome e.1 == me) fun e => markPoisoned c.p (aSlate e.1)
  let rows := ((es.map Prod.fst).filter fun e => aHome e == me).flatMap fun e =>
    (List.range (aCount e)).flatMap fun i => (List.range 12).map fun st => (e, i, st)
  let send ← collect rows fun x => do
    let (e, i, st) := x
    let src := landing + (aLanding e + i) * pitch + st * g.feed
    let off := (aSlot e * 33 + i) * g.feed
    let r ← load c.who src g.feed
    onlyIf r.poisoned (markPoisoned c.p (aSlate e))
    collect (sourceOrder e) fun k => do
      let n := if k == aNew e then g.feed else g.qBytes
      if k == me then do
        let q := s.pool c.p st
        store c.who (q.feed + off) ((toBytes r.val g.feed).take n)
        each (r.bad.filter fun cw => decide (cw * 32 < src + n)) fun cw => storePoison c.who (q.feed + off + (cw * 32 - src)) 32
        pure (none : Option (Nat × AttnRow))
      else do
        let bs ← forwarded c src k r g.feed
        pure (some (k, ⟨st, off, bs.take n⟩))
  let out := send.flatten.filterMap id
  each (s.otherRanks c.p) fun k =>
    emit (.attn k ⟨c.p, c.ctx, c.gen, true, (out.filter fun x => x.1 == k).map Prod.snd⟩)
  attnCue c.p true
  pure .done

/-- ATTN_RETURN (R189, R190, R409): records of every stack for each row go to the home's merge area. -/
def bodyAttnReturn (c : Cmd) : M End := do
  let s ← get
  let g := s.geom c.p
  let me := s.rank c.p
  let _ ← clampLayer c.p (bits c.area 173 162)
  let es ← readList c
  let rows := (es.filter fun e => bit (aMask e.1) me && aHome e.1 != me).flatMap fun e =>
    (List.range (aCount e.1)).flatMap fun i => (List.range 12).flatMap fun st =>
      (List.range g.heads).map fun j => (e.1, e.2, i, st, j)
  let send ← collect rows fun x => do
    let (e, lost, i, st, j) := x
    let q := s.pool c.p st
    let r ← load c.who (q.part + ((aSlot e * 33 + i) * g.heads + j) * g.partBytes) (32 + 4 * g.d)
    let v := if r.poisoned || lost then setBits r.val 153 153 1 else r.val
    let slot := aMerge e + (sourceIndex e me - 1) * aCount e + i
    pure (aHome e, (⟨0, slot * g.mergeSlot + (st * g.heads + j) * g.partBytes, toBytes v (32 + 4 * g.d)⟩ : AttnRow))
  each (s.otherRanks c.p) fun k =>
    emit (.attn k ⟨c.p, c.ctx, c.gen, false, (send.filter fun x => x.1 == k).map Prod.snd⟩)
  attnCue c.p false
  pure .done

/-- The partial a record holds. -/
def partialOf (d : Nat) (v : Nat) : Partial :=
  ⟨bits v 127 96, bits v 95 64, (List.range d).map fun i => bits v (256 + 32 * i + 31) (256 + 32 * i), bits v 231 207⟩

/-- The records of one query head of a row, in source order (R191). -/
def readPartials (c : Cmd) (g : Geom) (e i q : Nat) : M (List Read) := do
  let s ← get
  collect (List.range (sourceOrder e).length) fun w =>
    if w == 0 then
      load c.who ((s.pool c.p (q / g.heads)).part + ((aSlot e * 33 + i) * g.heads + q % g.heads) * g.partBytes) (32 + 4 * g.d)
    else
      load c.who (s.eff' (pk 0x580D (c.p + 1)) + (aMerge e + (w - 1) * aCount e + i) * g.mergeSlot + q * g.partBytes)
        (32 + 4 * g.d)

/-- One entry's query heads merged and written from an output row on (R188, R194). lost: the entry itself read as poisoned. -/
def mergeEntry (c : Cmd) (g : Geom) (oOp : Operand) (first count e : Nat) (lost : Bool) (row : Nat) : M Unit := do
  let rs ← collect ((List.range (aCount e)).flatMap fun i => (List.range count).map fun k => (i, first + k)) fun x => do
    let l ← readPartials c g e x.1 x.2
    pure (x.1, x.2, l)
  let bad := lost || rs.any fun x => x.2.2.any fun r => r.poisoned || bit r.val 153
  let found := lost || rs.any fun x => x.2.2.any Read.poisoned
  onlyIf bad (markPoisoned c.p (aSlate e))
  each rs fun x => do
    let ps := x.2.2.map fun r => partialOf g.d r.val
    bump (pk 0x8044 5) (ps.filter fun y => !y.empty).length
    let y := ps.foldl Partial.merge (Partial.start g.d)
    let ys := if bad then List.replicate g.d f32Nan
      else if y.empty then List.replicate g.d 0
      else y.o.map fun v => f32Div v y.l
    writeOutputs c.who oOp (row + x.1) (x.2.1 * g.d) ys (List.replicate g.d found)

/-- The rows of the sequences admitted to fallback (R299): slate, first output row, rows, and first row of the fallback area. -/
def fbItems (slates : List Nat) : List Nat → Nat → List (Nat × Nat × Nat × Nat)
  | [], _ => []
  | q :: l, row =>
    let n := (slates.filter fun x => x == q).length
    (q, slates.findIdx (fun x => x == q), n, row) :: fbItems slates l (row + n)

/-- The attention output's width. -/
def Geom.width (g : Geom) : Nat := 12 * g.heads * g.d

/-- The fallback area of a region as an operand: rows of ceil64(K) B of FP8 E4M3, with K the watched command's (R299). -/
def State.fallbackArea (s : State) (p region k : Nat) : Operand :=
  ⟨s.eff' (pk 0x5885 (p + 1)) + 0x40000000 * region, 0, f32One, ceil64 k, 0, .e4m3, false⟩

/-- The Director notes the format that a layer's ATTN_MERGE writes (R293). -/
def noteMerged (p layer code : Nat) : M Unit := setInst p fun i =>
  if i.merged.map Prod.fst == some layer then i else { i with merged := some (layer, code) }

/-- The re-run of the producer of watched command k: its admitted decode rows, into the fallback area of its region (R299). -/
def reMerge (c : Cmd) (k : Nat) (es : List (Nat × Bool)) : M End := do
  let s ← get
  let g := s.geom c.p
  match (s.inst c.p).watches[k]? with
  | none => pure .done
  | some r => do
    each (fbItems r.watch.slates r.admitted r.base) fun it =>
      match es.find? fun e => aSlate e.1 == it.1 && aHome e.1 == s.rank c.p with
      | none => skip
      | some e => mergeEntry c g (s.fallbackArea c.p (engineRegion r.e) r.k) 0 (12 * g.heads) e.1 e.2 it.2.2.2
    pure .done

/-- ATTN_MERGE (R188, R189, R191, R194). -/
def bodyAttnMerge (c : Cmd) : M End := do
  let s ← get
  let g := s.geom c.p
  let layer ← clampLayer c.p (bits c.area 173 162)
  let es ← readList c
  match c.mark with
  | some (k + 1, _) => reMerge c k es
  | _ => do
    let oAddr := bits c.area 161 103 * 32
    let oOp ← readCoded c.who .out oAddr g.width [1, 3, 0xE, 0xF]
    if oOp.bad then pure (.dropped oAddr)
    else do
      noteMerged c.p layer oOp.fmt.code
      each (es.filter fun e => aHome e.1 == s.rank c.p) fun e =>
        mergeEntry c g oOp (bits c.area 102 90) (bits c.area 89 77) e.1 e.2 (aLanding e.1)
      pure .done

/-- The receiver accepts a transfer of another module (R322): its own context is OPEN with the same generation. -/
def State.remoteOk (s : State) (p ctx gen : Nat) : Bool :=
  decide ((s.ctx p ctx).st = .opened) && (s.ctx p ctx).gen == gen

/-- A feed or return batch arrives (R190, R322): its rows are written, then the cue advances. DESIGN CHOICE (notes/assumptions/37):
unsafe. -/
def attnReceive (b : AttnBatch) : M Unit := do
  let s ← get
  if s.remoteOk b.p b.ctx b.gen then do
    let w := whoOf 80 b.p
    each b.rows fun r =>
      store w ((if b.feed then (s.pool b.p r.stack).feed else s.eff' (pk 0x580D (b.p + 1))) + r.off) r.bytes
    attnCue b.p b.feed
  else bump (pk 0x8049 2) 1

end Sys2Proof.Machine
end

