-- ==== Sys2Proof/Machine/Sampling.lean ====
section
/-! DEFINITION. SAMPLE (R228 to R232): the sampler record, the keyed generator and the draw. -/
namespace Sys2Proof.Machine

/-- A sampler record (R228), clamped. -/
structure Sampler where
  temp   : Nat
  topP   : Nat
  minP   : Nat
  topK   : Nat
  sample : Bool
  stops  : List Nat
deriving DecidableEq, Repr

/-- An FP32 field bounded to [0, hi], NaN replaced; and whether it was clamped. -/
def clampF32 (hi nan x : Nat) : Nat × Bool :=
  if f32IsNan x then (nan, true)
  else if f32Lt x 0 then (0, true)
  else if f32Lt hi x then (hi, true)
  else (x, false)

/-- The record's fields and the number of them clamped. -/
def samplerOf (v : Nat) : Sampler × Nat :=
  let t := clampF32 (f32OfNat 100) f32One (bits v 511 480)
  let p := clampF32 f32One f32One (bits v 479 448)
  let m := clampF32 f32One 0 (bits v 447 416)
  let k := bits v 415 405
  let n := bits v 403 401
  (⟨t.1, p.1, m.1, if k == 0 then 1024 else min k 1024, bit v 404,
    (List.range (min n 4)).map fun j => bits v (311 + 24 * j) (288 + 24 * j)⟩,
   b2n t.2 + b2n p.2 + b2n m.2 + b2n (decide (1024 < k)) + b2n (decide (4 < n)))

/-- The mixing function of R230 and R240. -/
def mix64 (z : Nat) : Nat :=
  let m := 2 ^ 64
  let a := (z ^^^ (z >>> 30)) * 0xBF58476D1CE4E5B9 % m
  let b := (a ^^^ (a >>> 27)) * 0x94D049BB133111EB % m
  b ^^^ (b >>> 31)

/-- The generator's number u as FP32 (R230). -/
def drawU (seed pos : Nat) : Nat :=
  f32Quot false (mix64 ((seed + (pos + 1) * 0x9E3779B97F4A7C15) % 2 ^ 64) / 2 ^ 40) 1 (-24)

/-- The index of the largest element, ties to the lowest; none of an empty list. -/
def argMax : List Nat → Nat → Option (Nat × Nat)
  | [], _ => none
  | x :: l, i =>
    match argMax l (i + 1) with
    | none => some (x, i)
    | some (y, j) => if f32Lt x y then some (y, j) else some (x, i)

/-- Inserts a candidate in the order of R231 step 4. -/
def insertCand (z i : Nat) : List (Nat × Nat) → List (Nat × Nat)
  | [] => [(z, i)]
  | (y, j) :: l => if f32Lt y z || (f32Eq y z && decide (i < j)) then (z, i) :: (y, j) :: l else (y, j) :: insertCand z i l

/-- The k largest elements in order, with their indices. -/
def topK (k : Nat) (zs : List Nat) : List (Nat × Nat) :=
  (zs.zipIdx).foldl (fun l x => (insertCand x.1 x.2 l).take k) []

/-- Running sums in order, each rounded. -/
def runSums : List Nat → Nat → List Nat
  | [], _ => []
  | p :: l, s => f32Add s p :: runSums l (f32Add s p)

/-- The shortest prefix of (candidate, running sum) pairs whose sum reaches a bound; all of them where none does. -/
def prefixTo (bound : Nat) : List (Nat × Nat) → List (Nat × Nat)
  | [] => []
  | x :: l => if f32Le bound x.2 then [x] else x :: prefixTo bound l

/-- The token drawn from a row's logits (R231, R232): 0xFFFF_FFFF where none is finite or +Inf. DESIGN CHOICE (notes/assumptions/45):
unsafe. -/
def drawToken (sm : Sampler) (seed pos : Nat) (logits : List Nat) : Nat :=
  let xs := logits.map fun x => if f32IsNan x then f32NegInf else x
  if xs.all (· == f32NegInf) then 0xFFFFFFFF
  else
    match xs.findIdx? (· == f32PosInf) with
    | some i => i
    | none =>
      if !sm.sample || f32Eq sm.temp 0 then ((argMax xs 0).map Prod.snd).getD 0
      else
        let cands := topK sm.topK (xs.map fun x => f32Div x sm.temp)
        let m := ((cands.head?).map Prod.fst).getD 0
        let ps := cands.map fun c =>
          if f32Eq c.1 m then (f32One, c.2)
          else if m == f32PosInf then (0, c.2)
          else (f32Exp (f32Sub c.1 m), c.2)
        let kept := ps.filter fun c => !f32Lt c.1 sm.minP
        let sums := runSums (kept.map Prod.fst) 0
        let total := (sums.getLast?).getD 0
        let pre := prefixTo (f32Mul sm.topP total) ((kept.map Prod.snd).zip sums)
        let target := f32Mul (drawU seed pos) (((pre.getLast?).map Prod.snd).getD 0)
        match pre.find? fun c => f32Lt target c.2 with
        | some c => c.1
        | none => ((pre.getLast?).map Prod.fst).getD 0

/-- SAMPLE (R229, R231, R232, R409). A row with any poisoned input gets 0xFFFF_FFFF. The clamps of a sampler record count once in
a command (R10), however many rows name it. -/
def bodySample (c : Cmd) : M End := do
  let a := c.area
  let rows := max 1 (bits a 75 52)
  let vocab := clampTo 1 1048576 (bits a 51 31)
  clampDesc (b2n (bits a 75 52 == 0) + b2n (vocab != bits a 51 31))
  let o ← readCoded c.who .acc (bits a 255 197 * 32) vocab [0, 1]
  let _ ← foldState (List.range rows) ([] : List Nat) fun seen r => do
    let x ← readRow c.who o r 0 vocab
    let e ← load c.who (bits a 191 134 * 64 + 32 * r) 32
    let s ← load c.who (bits e.val 191 134 * 64) 64
    let sm := samplerOf s.val
    let at' := bits e.val 191 134 * 64
    clampDesc (if seen.contains at' then 0 else sm.2)
    let bad := x.bad || e.poisoned || s.poisoned
    let t := if bad then 0xFFFFFFFF else drawToken sm.1 (bits e.val 255 192) (bits e.val 133 109) (x.values o.tscale o.fmt.isK)
    storeVal c.who (bits a 133 76 * 64 + 4 * r) 4 t
    match c.watch.bind fun w => w.slates[r]? with
    | none => skip
    | some slate => onlyIf bad (markPoisoned c.p slate)
    pure (at' :: seen)
  pure .done

end Sys2Proof.Machine
end

