-- ==== Sys2Proof/Machine/Prefix.lean ====
section
/-! DEFINITION. Prefix reuse and cans (chapter "Prefix reuse, speculative takes and parked conversations"): keys, the node
array, and what a holder does with the entries of a take list. -/
namespace Sys2Proof.Machine

/-! ## Keys (R240) -/

/-- The root hash of a variant. -/
def rootHash (salt variant : Nat) : Nat := mix64 (salt ^^^ (variant * 0x9E3779B97F4A7C15 % 2 ^ 64))

/-- The keys after each token: chain hash and check. -/
def keysFrom : List Nat → Nat → Nat → List (Nat × Nat)
  | [], _, _ => []
  | t :: l, h, c =>
    let h' := mix64 (h ^^^ t)
    let c' := mix64 ((c + t) % 2 ^ 64)
    (h', c' % 2 ^ 32) :: keysFrom l h' c'

/-- The keys of a prompt: entry p is the key of the tokens up to p. -/
def promptKeys (salt variant : Nat) (tokens : List Nat) : List (Nat × Nat) :=
  let h := rootHash salt variant
  keysFrom tokens h (mix64 (h ^^^ 0xC2B2AE3D27D4EB4F))

/-! ## The node array (R241, R242) -/

def noNode : Nat := 0x1FFFFFF

/-- A node of the prefix index (R241). -/
def State.node (s : State) (n : Nat) : PNode := getC (fun _ => PNode.free) s.nodes n

/-- The address of a node: the array is spread over the upper halves of the 12 system areas (the model's own layout). DESIGN CHOICE
(notes/assumptions/54): unsafe. -/
def State.nodeAddr (s : State) (n : Nat) : Nat :=
  s.sysBase (n % 12) + s.eff' 0x510000 * 0x80000 + n / 12 * 64

/-- A node reads as poisoned (R412). -/
def State.nodeBad (s : State) (n : Nat) : Bool :=
  (lookup s.poison (s.nodeAddr n / 32)).isSome || (lookup s.poison (s.nodeAddr n / 32 + 1)).isSome

/-- A node written whole. -/
def State.setNode (s : State) (n : Nat) (v : PNode) : State :=
  { s with
    nodes := setC (fun _ => PNode.free) s.nodes n v
    poison := eraseKey (eraseKey s.poison (s.nodeAddr n / 32)) (s.nodeAddr n / 32 + 1) }

/-- Writes a node. -/
def setNode (n : Nat) (f : PNode → PNode) : M Unit := modify fun s => s.setNode n (f (s.node n))

/-- The groups of a partition, as in force since BOOT (R265). -/
def State.groups (s : State) (p : Nat) : Nat := s.eff' (pk 0x5851 (p + 1))

/-- The first group of a partition's range (R242). -/
def State.groupBase (s : State) (p : Nat) : Nat := ((List.range p).map s.groups).foldl (· + ·) 0

/-- The nodes of the group of a hash. -/
def State.groupNodes (s : State) (p h : Nat) : List Nat :=
  if s.groups p == 0 then []
  else (List.range 16).map fun i => (s.groupBase p + h % s.groups p) * 16 + i

/-- Every node of a partition's range is FREE (R243), and its frames are named by it no more (R170, R246). -/
def freeIndex (p : Nat) : M Unit := do
  let s ← get
  let mine := fun n => decide (s.groupBase p * 16 ≤ n) && decide (n < (s.groupBase p + s.groups p) * 16)
  each (s.nodes.filter fun x => mine x.1) fun x =>
    each (x.2.frames.zipIdx) fun f => onlyIf (f.1 != 0xFFFFFF) (dropFrame p f.2 f.1)
  modify fun t => { t with nodes := t.nodes.filter fun x => !mine x.1 }

/-- A poisoned node read by the lead (R412): written FREE, with a record; the frames of a VALID node are lost. -/
def loseNode (n : Nat) : M Unit := do
  let s ← get
  onlyIf ((s.node n).st == 2) (bump (pk 0x8052 12) 12)
  recordFault ⟨0x13, 3, ukDirector, 0xFF, 0, actPoisoned, (s.node n).p, 0, s.nodeAddr n, 1, 0, 0⟩
  setNode n fun _ => PNode.free

/-- A node matches a lookup (R242). -/
def PNode.matches (v : PNode) (p holder valid : Nat) (key : Nat × Nat) : Bool :=
  v.st == 2 && v.p == p && v.holder == holder && v.valid == valid && v.hash == key.1 && v.check == key.2

/-- The lead reads the nodes of a group: those that read as poisoned are FREE (R412). -/
def readGroup (p group : Nat) : M (List Nat) := do
  let s ← get
  let ns := s.groupNodes p group
  each (ns.filter s.nodeBad) loseNode
  pure ns

/-- Looks a key up in the group of a hash (R242, R244): a poisoned node is a miss, and so is one whose Users is full. -/
def findNode (p group holder valid : Nat) (key : Nat × Nat) : M (Option Nat) := do
  let ns ← readGroup p group
  let s ← get
  pure (ns.find? fun n => (s.node n).matches p holder valid key && decide ((s.node n).users < 65535))

/-! ## A holder's part (R239, R246, R247, R249, R250) -/

/-- Writes frame j of a sequence as the given frame numbers, and makes a wholly attached aligned reel contiguous
(R246). -/
def attachFrames (p slate j : Nat) (frames : List Nat) : M Unit :=
  each (List.range 12) fun st => do
    let f := nth frames st
    shareFrame p st f
    modify fun s =>
      let w := (s.word p slate (j / 16) st).push f false
      let fs := w.frames
      let aligned := fs.length == 16 && nth fs 0 % 16 == 0 && (fs.zipIdx).all fun x => x.1 == nth fs 0 + x.2
      s.setWord p slate (j / 16) st (if aligned then .contig (nth fs 0 / 16) 16 else w)

/-- ATTACH (R246). -/
def applyAttach (p entry : Nat) : M Unit := do
  let s ← get
  attachFrames p (bits entry 251 228) (bits entry 202 183) (s.node (bits entry 227 203)).frames

/-- The valid tokens of an entry (R238), 1 to hi. -/
def entryTokens (hi v : Nat) : Nat := clampTo 1 hi v

/-- COPY at allocation (R239, R247): a new frame on each stack. -/
def allocCopy (p entry : Nat) : M Unit := allocFrame p (bits entry 251 228) (bits entry 202 183)

/-- COPY during RUN (R239, R247): the valid slots of the node's frame are copied into the new frame, for every layer. -/
def applyCopy (p entry : Nat) : M Unit := do
  let s ← get
  let slate := bits entry 251 228
  let j := bits entry 202 183
  let v := s.node (bits entry 227 203)
  let g := s.geom p
  each (List.range 12) fun st => do
    let q := s.pool p st
    let w := whoOf (80 + st / 3 * 4) p
    match (s.word p slate (j / 16) st).frame (j % 16) with
    | none => skip
    | some f =>
      each (List.range g.layers) fun l => do
        let src := q.frameAddr g.frame l (nth v.frames st)
        let dst := q.frameAddr g.frame l f
        let n := entryTokens 15 (bits entry 176 172) * g.slot
        let r ← load w src n
        store w dst (toBytes r.val n)
        each r.bad fun c => storePoison w (dst + (c * 32 - src)) 32
  bump (pk 0x8046 6) 1

/-- INSERT (R249): the node becomes VALID with the sequence's frame numbers, each counted once more. The lead counts it (R265). -/
def applyInsert (p entry : Nat) : M Unit := do
  let s ← get
  let slate := bits entry 251 228
  let j := bits entry 166 142 / 16
  let fs := (List.range 12).map fun st => ((s.word p slate (j / 16) st).frame (j % 16)).getD 0xFFFFFF
  each (fs.zipIdx) fun x => onlyIf (x.1 != 0xFFFFFF) (shareFrame p x.2 x.1)
  setNode (bits entry 227 203) fun v =>
    { v with
      hash := bits entry 109 46, check := bits entry 141 110, parent := bits entry 202 178, holder := bits entry 177 172,
      p := p, st := 2, valid := entryTokens 16 (bits entry 171 167), frames := fs }

/-- EVICT (R250): the references of the node's frames are dropped; a poisoned copy loses them (R412). A lead has set its own
half of the node when it planned the eviction; the frame numbers are the holder's half. -/
def applyEvict (entry : Nat) (p : Nat) : M Unit := do
  let s ← get
  let n := bits entry 251 227
  let v := s.node n
  if s.nodeBad n then bump (pk 0x8052 12) 12
  else each (v.frames.zipIdx) fun x => onlyIf (x.1 != 0xFFFFFF) (dropFrame p x.2 x.1)
  setNode n fun w => if s.isLead p && w.st != 0 then { w with frames := [] } else PNode.free

/-! ## Cans (R258, R259) -/

/-- Bound of a segment in bytes (R259). -/
def segBound (frames layers slot : Nat) : Nat :=
  alignUp (192 + ceil64 (8 * frames) + ceil64 (4 * frames * layers) + frames * layers * (192 + ceil64 (16 * slot))) 4096

/-- The area a segment lies in: the stack's park pool, or the export area (R260). -/
def State.canBase (s : State) (p stack target : Nat) : Option Nat :=
  if target == 0 then (s.poolOf p kindParkPool stack).map Prod.fst
  else (((lookup s.places p).getD []).find? fun q => q.kind == kindExport).map fun q => q.addr

/-- The engine identity that writes and reads cans of a stack: a relay engine of the stack's region. -/
def canWho (p stack : Nat) : Who := whoOf (80 + stack / 3 * 4) p

/-- The frames of a sequence on a stack that hold tokens below its committed length less one: TokenBase / 16, frame number
and valid tokens. -/
def State.canFrames (s : State) (p slate stack : Nat) : List (Nat × Nat × Nat) :=
  let stored := (lookup (s.inst p).lens slate).getD 0 - 1
  (s.seqFrames p slate stack).filterMap fun f =>
    if 16 * f.1 < stored then some (f.1, f.2, min 16 (stored - 16 * f.1)) else none

/-- Encodes the extents of a segment in the order of its directory; answers each extent's offset, and the end. -/
def writeExtents (w : Who) (p slot base : Nat) : List (Nat × Nat) → Nat → M (List Nat × Nat)
  | [], off => pure ([], off)
  | (src, len) :: t, off => do
    let n ← encodeExtent w p src (base + 64 * off) 0 len 2 slot
    let r ← writeExtents w p slot base t (off + ceilDiv n 64)
    pure (off :: r.1, r.2)

/-- PARK (R258, R262): encodes one segment. -/
def applyPark (p entry : Nat) : M Unit := do
  let s ← get
  let slate := bits entry 251 228
  let stack := bits entry 221 218
  let home := bit entry 216
  let g := s.geom p
  let q := s.pool p stack
  match s.canBase p stack (bits entry 217 217) with
  | none => skip
  | some area => do
    let base := area + bits entry 215 184 * 4096
    let w := canWho p stack
    let fs := s.canFrames p slate stack
    let listBytes := ceil64 (8 * fs.length)
    let dirBytes := ceil64 (4 * fs.length * g.layers)
    let srcs := (List.range g.layers).flatMap fun l => fs.map fun f => (q.frameAddr g.frame l f.2.1, f.2.2 * g.slot)
    let r ← writeExtents w p (s.eff' (pk 0x5856 (p + 1))) base srcs ((192 + listBytes + dirBytes) / 64)
    let admits := if home then ((lookup (s.inst p).homes slate).map fun h => h.admits).getD 0 else 0
    let total := 64 * r.2
    let header := slate * 2 ^ 488 + p * 2 ^ 485 + stack * 2 ^ 481 + s.rank p * 2 ^ 475 + b2n home * 2 ^ 474
      + fs.length * 2 ^ 450 + g.layers * 2 ^ 438 + g.slot / 64 * 2 ^ 418 + s.eff' (pk 0x5805 (p + 1)) * 2 ^ 413
      + (lookup (s.inst p).lens slate).getD 0 * 2 ^ 388 + total % 2 ^ 40 * 2 ^ 348
    store w base (toBytes header 64 ++ toBytes admits 128)
    store w (base + 192) ((fs.flatMap fun f => toBytes (16 * f.1 * 2 ^ 39 + f.2.2 * 2 ^ 34) 8)
      ++ List.replicate (listBytes - 8 * fs.length) 0)
    store w (base + 192 + listBytes) ((r.1.flatMap fun o => toBytes o 4)
      ++ List.replicate (dirBytes - 4 * fs.length * g.layers) 0)
    setInst p fun i => { i with
      segs := i.segs ++ [(slate, stack, total)]
      canned := (i.canned.filter fun x => !(x.slate == slate && x.stack == stack))
        ++ [⟨slate, stack, (lookup i.lens slate).getD 0, fs.map fun f => (f.1, f.2.2)⟩] }

/-- Decodes a whole extent of n bytes to dst. A header that states another length fails the checks of every block (R264). DEDUCED
(notes/assumptions/56): unsafe. -/
def decodeExtent (w : Who) (p src dst n : Nat) : M Unit := do
  let h ← load w src 64
  each (List.range (ceilDiv n 65536)) fun k =>
    decodeOne w p src (n * 2 ^ 472) k (dst + 65536 * k) (n - 65536 * k) (h.poisoned || bits h.val 511 472 != n) none

/-- What this holder noted of a segment as it wrote it. DEDUCED (notes/assumptions/56): unsafe. -/
def Inst.cannedOf (i : Inst) (slate stack : Nat) : Option Canned := i.canned.find? fun x => x.slate == slate && x.stack == stack

/-- UNPARK at allocation (R239, R263): the frames of a segment, in increasing TokenBase. They are those that the holder noted at the
park: a segment that reads back damaged poisons them, and does not change which they are (R264). DEDUCED
(notes/assumptions/56). -/
def allocUnpark (p entry : Nat) : M Unit := do
  let s ← get
  let slate := bits entry 251 228
  let stack := bits entry 221 218
  match (s.inst p).cannedOf slate stack with
  | none => skip
  | some k => do
    each k.frames fun f => allocOn p slate (f.1 / 16) stack
    setInst p fun i => { i with lens := insertAt i.lens slate k.committed }

/-- UNPARK during RUN (R239, R263): decodes the segment's extents into its frames. The home restores its home-table entry from the
admit copy, where the segment's header names the sequence. DEDUCED (notes/assumptions/56): unsafe. -/
def applyUnpark (p entry : Nat) : M Unit := do
  let s ← get
  let slate := bits entry 251 228
  let stack := bits entry 221 218
  match s.canBase p stack (bits entry 217 217), (s.inst p).cannedOf slate stack with
  | some area, some k => do
    let base := area + bits entry 216 185 * 4096
    let w := canWho p stack
    let g := s.geom p
    let q := s.pool p stack
    let n := k.frames.length
    let dir := base + 192 + ceil64 (8 * n)
    each (List.range g.layers) fun l => each (k.frames.zipIdx) fun f => do
      let o ← load w (dir + 4 * (l * n + f.2)) 4
      match (s.word p slate (f.1.1 / 16) stack).frame (f.1.1 % 16) with
      | none => skip
      | some fr =>
        let dst := q.frameAddr g.frame l fr
        if o.poisoned then storePoison w dst (f.1.2 * g.slot) else decodeExtent w p (base + 64 * o.val) dst (f.1.2 * g.slot)
    let h ← load w base 192
    let right := !h.poisoned && bit h.val 474 && bits h.val 511 488 == slate && bits h.val 487 485 == p && bits h.val 484 481 == stack
    onlyIf right (setInst p fun i => { i with
      homes := insertAt i.homes slate ⟨bits h.val 1535 512, k.committed, false, false⟩ })
  | _, _ => skip

end Sys2Proof.Machine
end

