-- ==== Sys2Proof/Machine/Slates.lean ====
section
/-! DEFINITION. The lead's slates, requests and cancels (R200 to R209, R256, R257), and the pieces of its plan. -/
namespace Sys2Proof.Machine

/-! ## Slates (R206) -/

/-- The slate pool: its address and the number of slates. -/
def State.slatePool (s : State) (p : Nat) : Nat × Nat :=
  match ((lookup s.places p).getD []).find? fun q => q.kind == kindSlates with
  | none => (0, 0)
  | some q => (q.addr, q.size / 192)

def State.slateAddr (s : State) (p slate : Nat) : Nat := (s.slatePool p).1 + 128 * slate
def State.samplerAddr (s : State) (p slate : Nat) : Nat := (s.slatePool p).1 + 128 * (s.slatePool p).2 + 64 * slate

/-- A slate as the lead reads it. -/
def State.slate (s : State) (p slate : Nat) : Nat := s.readVal .director (s.slateAddr p slate) 128

/-- A slate reads as poisoned (R411). -/
def State.slateBad (s : State) (p slate : Nat) : Bool := !(s.badCodewords .director (s.slateAddr p slate) 128).isEmpty

def slState (v : Nat) : Nat := bits v 979 977
def slCtx (v : Nat) : Nat := bits v 996 989
def slGen (v : Nat) : Nat := bits v 988 981
def slBe (v : Nat) : Bool := bit v 980
def slPrompt (v : Nat) : Nat := bits v 901 877
def slMaxNew (v : Nat) : Nat := bits v 876 852
def slHome (v : Nat) : Nat := bits v 851 846
def slVariant (v : Nat) : Nat := bits v 845 830
def slHeld (v : Nat) : Nat := bits v 829 814
def slDeadline (v : Nat) : Nat := bits v 735 672
def slSeed (v : Nat) : Nat := bits v 607 544
def slPromptAddr (v : Nat) : Nat := bits v 543 486 * 64
def slProgress (v : Nat) : Nat := bits v 479 432
def slReady (v : Nat) : Nat := bits v 431 384
def slCancel (v : Nat) : Bool := bit v 304
def slWasHeld (v : Nat) : Bool := bit v 305
def slBudget (v : Nat) : Bool := bit v 306

/-- State codes of R206. -/
def stRetired : Nat := 0
def stQueued : Nat := 1
def stPrefill : Nat := 2
def stReady : Nat := 3
def stDecoding : Nat := 4
def stHeld : Nat := 5
def stParked : Nat := 6

/-- The lead rewrites a slate whole. -/
def setSlate (p slate : Nat) (f : Nat → Nat) : M Unit := do
  let s ← get
  storeVal .director (s.slateAddr p slate) 128 (f (s.slate p slate))

/-- The lead's record of a live sequence. -/
def Inst.seq (i : Inst) (slate : Nat) : Option LeadSeq := i.seqs.find? fun q => q.slate == slate

/-- Live sequences are kept in the order of SlateId. -/
def insertSeq (q : LeadSeq) : List LeadSeq → List LeadSeq
  | [] => [q]
  | r :: l => if q.slate < r.slate then q :: r :: l else if q.slate == r.slate then q :: l else r :: insertSeq q l

def setSeq (p slate : Nat) (f : LeadSeq → LeadSeq) : M Unit :=
  setInst p fun i => { i with seqs := i.seqs.map fun q => if q.slate == slate then f q else q }

/-! ## Holders (R192) -/

/-- The rank that holds reel k of a sequence with this home. -/
def State.holderOf (s : State) (p home k : Nat) : Nat :=
  let n := max 1 (s.instSize p)
  let w := min (s.eff' (pk 0x5809 (p + 1))) n
  (home + k / s.eff' (pk 0x580A (p + 1)) % max 1 w) % n

/-- The rank of a reel: as its first frame was granted, else by the rule. -/
def State.reelRank (s : State) (p : Nat) (q : LeadSeq) (k : Nat) : Nat :=
  match q.reels[k]? with
  | some r => if r == 255 then s.holderOf p q.home k else r
  | none => s.holderOf p q.home k

/-- The reel map with the reels of frames below n filled in (R175). -/
def State.fillReels (s : State) (p : Nat) (q : LeadSeq) (n : Nat) : LeadSeq :=
  { q with reels := (List.range (ceilDiv n 16)).map (s.reelRank p q), frames := n }

/-! ## Requests (R201 to R204, R207, R256, R257) -/

def reqKind (e : Nat) : Nat := bits e 1023 1020
def reqCtx (e : Nat) : Nat := bits e 1019 1012
def reqGen (e : Nat) : Nat := bits e 1011 1004
def reqSlate (e : Nat) : Nat := bits e 995 972

/-- The context of a request is OPEN with its generation (R204, R257). -/
def State.reqCtxOk (s : State) (p e : Nat) : Bool :=
  decide ((s.ctx p (reqCtx e)).st = .opened) && (s.ctx p (reqCtx e)).gen == reqGen e

/-- The rank with the fewest live sequences homed there, ties to the lowest (R207). -/
def State.autoHome (s : State) (p : Nat) : Nat :=
  let count := fun r => ((s.inst p).seqs.filter fun q => q.home == r).length
  (List.range (s.instSize p)).foldl (fun b r => if count r < count b then r else b) 0

/-- First fit at the lowest offset: offsets to try are 0 and the ends of the reservations, each an offset and its units. -/
def firstFit (res : List (Nat × Nat)) (size units : Nat) : Option Nat :=
  let fits := fun off => decide (off + units ≤ size) && res.all fun r => decide (off + units ≤ r.1) || decide (r.1 + r.2 ≤ off)
  (0 :: res.map fun r => r.1 + r.2).foldl (fun b off =>
    if fits off then (match b with | none => some off | some c => some (min c off)) else b) none

/-! ## Reel maps (R175, R207) -/

/-- The units of 64 B that the reel map of a sequence may take: one byte per reel of its longest length, at most 65,536. -/
def mapUnits (plen maxNew : Nat) : Nat := ceilDiv (ceilDiv (min 16777216 (plen + maxNew)) 256) 64

/-- Room for a fresh reel map in the partition's 32 MiB of them, by first fit beside those of the live sequences. Where none is
left the sequence has no map: its units are 0 (notes/assumptions/54). -/
def Inst.freshMap (i : Inst) (units : Nat) : Nat × Nat :=
  match firstFit (i.seqs.map fun q => (q.map, q.mapUnits)) 524288 units with
  | some off => (off, units)
  | none => (0, 0)

/-- The address of a reel map. DESIGN CHOICE (notes/assumptions/54): unsafe. -/
def State.mapAddr (s : State) (p map : Nat) : Nat := s.sysTail p + 64 * map

/-- The bytes of a sequence's reel map (R175): one per reel of its Length, the rank that holds it, or 0xFF where it has no frames. A
parked sequence keeps its map. -/
def State.mapBytes (s : State) (p : Nat) (q : LeadSeq) : List Nat :=
  let held := if q.state == 6 then q.reels.length else ceilDiv q.frames 16
  let n := max (ceilDiv (bits (s.readVal .director (s.slateAddr p q.slate) 128) 976 952) 256) held
  (List.range (min n (64 * q.mapUnits))).map fun k => if k < held then q.reels.getD k 255 else 255

/-- The lead brings the reel maps of a partition up to date, at the end of PLAN and of COMMIT. -/
def syncMaps (p : Nat) : M Unit := do
  let s ← get
  each (s.inst p).seqs fun q => do
    let t ← get
    let l := t.mapBytes p q
    onlyIf (l != q.mapImage) (do
      store .structures (t.mapAddr p q.map) l
      setSeq p q.slate fun r => { r with mapImage := l })

/-- SUBMIT (R204, R207, R316): accepted into its slate, or ignored and counted. DESIGN CHOICE (notes/assumptions/59): unsafe. -/
def takeSubmit (p e : Nat) : M Unit := do
  let s ← get
  let slate := reqSlate e
  let i := s.inst p
  let old := s.slate p slate
  let free := slState old == 0 || slState old == 7
  if s.reqCtxOk p e && decide (slate < (s.slatePool p).2) && free && (i.seq slate).isNone && !s.slateBad p slate
      && decide (i.phase = .running) then do
    let size := s.instSize p
    let plen := clampTo 1 16777215 (bits e 971 947)
    let maxNew := clampTo 1 16777215 (bits e 946 922)
    let auto := bit e 1002
    let home := if auto then s.autoHome p else min (bits e 1001 996) (size - 1)
    let lower := !bit e 1003 && (s.ctx p (reqCtx e)).beOnly
    clampDesc (b2n (plen != bits e 971 947) + b2n (maxNew != bits e 946 922)
      + b2n (!auto && decide (size ≤ bits e 1001 996)) + b2n lower)
    onlyIf lower (bump (pk 0x8049 3) 1)
    let map := i.freshMap (mapUnits plen maxNew)
    let v := slate * 2 ^ 1000 + p * 2 ^ 997 + reqCtx e * 2 ^ 989 + reqGen e * 2 ^ 981 + b2n (bit e 1003 || lower) * 2 ^ 980
      + stQueued * 2 ^ 977 + plen * 2 ^ 877 + maxNew * 2 ^ 852 + home * 2 ^ 846 + bits e 921 906 * 2 ^ 830
      + (if map.2 == 0 then 0 else s.mapAddr p map.1) / 64 * 2 ^ 742 + bits e 831 768 * 2 ^ 672 + s.samplerAddr p slate / 64 * 2 ^ 614
      + bits e 703 640 * 2 ^ 544 + bits e 895 838 * 2 ^ 486 + bits e 767 704 * 2 ^ 320
    storeVal .director (s.slateAddr p slate) 128 v
    storeVal .director (s.samplerAddr p slate) 64 (bits e 639 128)
    setInst p fun i => { i with
      nextOrder := i.nextOrder + 1
      seqs := insertSeq ⟨slate, home, stQueued, 0, i.nextOrder, [], 0, 0, none, false, false, [], map.1, map.2, []⟩ i.seqs }
  else bump (pk 0x8045 7) 1

/-- PARK and UNPARK (R257): queued, or ignored and counted. -/
def takePark (p e : Nat) (unpark : Bool) : M Unit := do
  let s ← get
  let slate := reqSlate e
  let i := s.inst p
  let st := ((i.seq slate).map fun q => q.state).getD 0
  let v := s.slate p slate
  let okState := if unpark then st == stParked else st == stDecoding || st == stHeld || st == stReady
  if s.reqCtxOk p e && slCtx v == reqCtx e && slGen v == reqGen e && okState && decide (i.parkQueue.length < 4096) then do
    -- an LC class bit of an UNPARK from a BE-only context is lowered (R316): the sequence is BE from then on
    let lower := unpark && (s.ctx p (reqCtx e)).beOnly && !slBe v
    onlyIf lower (do
      clampDesc 1
      bump (pk 0x8049 3) 1
      setSlate p slate fun v => setBits v 980 980 1)
    setInst p fun i => { i with parkQueue := i.parkQueue ++ [⟨unpark, slate, bits e 1003 1003, bits e 831 768⟩] }
  else bump (pk 0x8045 7) 1

/-- The request entry at the lead's consumed count (R200, R201). -/
def readRequest (p : Nat) : M Read := do
  let s ← get
  load .rings (s.eff' (pk 0x583B (p + 1)) + s.door p 1 % s.eff' (pk 0x583C (p + 1)) * 128) 128

/-- One request entry taken (R201, R202): a kind that is not defined is NOP, a clamp. A poisoned entry is passed over. -/
def takeRequest (p : Nat) : M Unit := do
  let r ← readRequest p
  let s ← get
  setDoor p 1 ((s.door p 1 + 1) % 2 ^ 32)
  if r.poisoned then skip
  else
    match reqKind r.val with
    | 0 => skip
    | 1 => takeSubmit p r.val
    | 2 => takePark p r.val false
    | 3 => takePark p r.val true
    | _ => clampDesc 1

/-- Requests the lead may read now. -/
def State.requestsWaiting (s : State) (p : Nat) : Nat :=
  if s.ringUp (s.eff' (pk 0x583B (p + 1))) then ahead (s.door p 0) (s.door p 1) else 0

/-- The lead may plan (R210, R366, R368): every rank is admitted and present, the previous step is applied here, and every
module has acknowledged it. -/
def State.mayPlan (s : State) (p : Nat) : Bool :=
  let i := s.inst p
  s.isLead p && s.enginesRun && (match i.phase with
    | .running | .draining | .stopping => true
    | .idle | .starting | .stopped => false)
  && i.plan.isNone && i.notice.isNone && i.members.length == s.instSize p && i.acks.length == s.instSize p
  && s.par (pk 0x4011 (p + 1)) == 0

/-- The request entries of one PLAN (R201). DESIGN CHOICE (notes/assumptions/59): unsafe. -/
def planRequests : Nat := 1024

/-- The next request entry taken, where its kind is the given one: at the start of a PLAN, as one of its entries (R201), or by the
lead of a stopped instance, which ignores SUBMITs (R204); there a head entry that is neither stays until the next START. DESIGN CHOICE
(notes/assumptions/59): unsafe. -/
def takeRequestOf (p kind : Nat) : M Unit := do
  let s ← get
  let plans := s.mayPlan p && decide ((s.inst p).readAhead < planRequests)
  let stopped := s.isLead p && s.enginesRun && decide ((s.inst p).phase = .stopped)
  if (plans || stopped) && decide (0 < s.requestsWaiting p) then do
    let v := s.readVal .rings (s.eff' (pk 0x583B (p + 1)) + s.door p 1 % s.eff' (pk 0x583C (p + 1)) * 128) 128
    if reqKind v == kind then do
      takeRequest p
      onlyIf plans (setInst p fun i => { i with readAhead := i.readAhead + 1 })
    else skip
  else skip

/-- One cancel entry taken (R203, R204). -/
def takeCancel (p : Nat) : M Unit := do
  let s ← get
  let r ← load .rings (s.eff' (pk 0x583D (p + 1)) + s.door p 3 % s.eff' (pk 0x583E (p + 1)) * 16) 16
  setDoor p 3 ((s.door p 3 + 1) % 2 ^ 32)
  let slate := bits r.val 127 104
  let v := s.slate p slate
  if !r.poisoned && ((s.inst p).seq slate).isSome && slCtx v == bits r.val 103 96 && slGen v == bits r.val 95 88 then
    setSlate p slate fun v => setBits v 304 304 1
  else bump (pk 0x8045 8) 1

/-- The cancel entries of one COMMIT (R201). -/
def commitCancels : Nat := 4096

/-- The cancel entries that wait in the ring. -/
def State.cancelsWaiting (s : State) (p : Nat) : Nat :=
  if s.ringUp (s.eff' (pk 0x583D (p + 1))) then min commitCancels (ahead (s.door p 2) (s.door p 3)) else 0

/-! ## Call sheets and notices in the system areas (R219, R225) -/

/-- A list of a call sheet in memory: entries of n bytes, filled up to 64 B. -/
def listBytes (n : Nat) (l : List Nat) : List Nat :=
  l.flatMap (fun e => toBytes e n) ++ List.replicate (ceil64 (n * l.length) - n * l.length) 0

/-- A call sheet's bytes (R219, R220). -/
def sheetBytes (c : CallSheet) : List Nat :=
  toBytes c.header 64 ++ listBytes 32 c.run ++ listBytes 32 c.prefill ++ listBytes 128 c.admits ++ listBytes 8 c.join
    ++ listBytes 8 c.leave ++ listBytes 8 c.held ++ listBytes 32 c.take ++ listBytes 4 c.tokens

/-- A commit notice's bytes (R225). The places of the header's fields are the model's own (notes/assumptions/54). -/
def noticeBytes (n : Notice) : List Nat :=
  toBytes (n.inst % 2 ^ 16 * 2 ^ 496 + n.step % 2 ^ 48 * 2 ^ 448 + n.time % 2 ^ 64 * 2 ^ 384 + b2n n.abandoned * 2 ^ 383
    + n.nextEpoch % 2 ^ 16 * 2 ^ 367) 64 ++ n.outcomes.flatMap fun o => toBytes o 8

/-- The call sheet that the lead has written, a module's two call-sheet buffers of a partition, and the lead's notice, in the last 16
MiB of the system areas of stacks 9, 8 and 10. DESIGN CHOICE (notes/assumptions/54): unsafe. -/
def State.sheetAddr (s : State) (p : Nat) : Nat := s.sysTail 9 + 0x4000000 + p * 0x100000
def State.sheetBuffer (s : State) (p step : Nat) : Nat := s.sysTail 8 + 0x4000000 + (2 * p + step % 2) * 0x100000
def State.noticeAddr (s : State) (p : Nat) : Nat := s.sysTail 10 + 0x4000000 + p * 0x200000

/-! ## Two copies (R411) -/

/-- The second copy of a call sheet or a notice: at the same place of a stack eight stacks lower, in another region. DESIGN CHOICE
(notes/assumptions/54): unsafe. -/
def secondCopy (a : Nat) : Nat := a - 8 * 0x1000000000

/-- A call sheet or a notice is written, both its copies. -/
def storeTwice (a : Nat) (bs : List Nat) : M Unit := do
  store .structures a bs
  store .structures (secondCopy a) bs

/-- The Director reads one of its structures, which it keeps at two places: a copy that reads as poisoned is written whole again from the
other; both poisoned are module-fatal (R411, R542). -/
def readCopies (a b : Nat) (whole : List Nat) : M Unit := do
  let s ← get
  let bad := fun x => !(s.badCodewords .structures x whole.length).isEmpty
  if bad a && bad b then moduleFatal ⟨0x15, 3, ukDirector, 0xFF, 0, actFatal, 0, 0, a, 1, 0, 0⟩
  else do
    onlyIf (bad a) (store .structures a whole)
    onlyIf (bad b) (store .structures b whole)

/-- The Director reads the records of the reels it holds of a partition. -/
def readReels (p : Nat) : M Unit := do
  let s ← get
  each (s.reelImage.filter fun x => x.1 / 2 ^ 40 == p) fun x =>
    readCopies (s.reelAddr x.2.1) (s.reelCopy x.2.1)
      (toBytes (reelRecord (x.1 / 2 ^ 40) (x.1 / 2 ^ 16 % 2 ^ 24) (x.1 % 2 ^ 16) x.2.1 x.2.2) 64)

/-! ## Entries of the call sheet (R219, R220) -/

def prefillEntry (slate base tokens holder home : Nat) (last : Bool) (off : Nat) : Nat :=
  slate * 2 ^ 232 + base * 2 ^ 207 + tokens * 2 ^ 190 + holder * 2 ^ 184 + home * 2 ^ 178 + b2n last * 2 ^ 177
    + off % 2 ^ 24 * 2 ^ 153

def pfSlate (e : Nat) : Nat := bits e 255 232
def pfBase (e : Nat) : Nat := bits e 231 207
def pfTokens (e : Nat) : Nat := bits e 206 190
def pfHolder (e : Nat) : Nat := bits e 189 184
def pfHome (e : Nat) : Nat := bits e 183 178
def pfLast (e : Nat) : Bool := bit e 177

/-- The admits entry of a slate, with its sampler record. -/
def admitEntry (v sampler : Nat) : Nat :=
  bits v 1023 1000 * 2 ^ 1000 + slHome v * 2 ^ 994 + b2n (slBe v) * 2 ^ 993 + slPrompt v * 2 ^ 968 + slMaxNew v * 2 ^ 943
    + slVariant v * 2 ^ 927 + slSeed v * 2 ^ 832 + sampler % 2 ^ 512 * 2 ^ 320

def adSlate (e : Nat) : Nat := bits e 1023 1000
def adHome (e : Nat) : Nat := bits e 999 994
def adPrompt (e : Nat) : Nat := bits e 992 968
def adMaxNew (e : Nat) : Nat := bits e 967 943
def adSampler (e : Nat) : Nat := bits e 831 320

/-- Fields of a call-sheet header. -/
def csStep (c : CallSheet) : Nat := bits c.header 495 448
def csEpoch (c : CallSheet) : Nat := bits c.header 447 432
def csInst (c : CallSheet) : Nat := bits c.header 511 496
def csStory (c : CallSheet) : Nat := bits c.header 331 274 * 64

/-- Take-list entries (R238). -/
def tkOp (e : Nat) : Nat := bits e 255 252
/-- The holder a take-list entry is for; none for TAKE, NONE and undefined operations. -/
def tkHolder (e : Nat) : Option Nat :=
  match tkOp e with
  | 2 => some (bits e 182 177)
  | 3 => some (bits e 182 177)
  | 4 => some (bits e 177 172)
  | 5 => some (bits e 226 221)
  | 6 => some (bits e 227 222)
  | 7 => some (bits e 227 222)
  | _ => none

/-- Outcomes (R225). -/
def outcome (slate status flags accepted : Nat) : Nat :=
  slate * 2 ^ 40 + status * 2 ^ 32 + flags * 2 ^ 24 + accepted * 2 ^ 18

def oSlate (o : Nat) : Nat := bits o 63 40
def oStatus (o : Nat) : Nat := bits o 39 32
def oFlags (o : Nat) : Nat := bits o 31 24
def oAccepted (o : Nat) : Nat := bits o 23 18

/-- A status retires the sequence (R235). -/
def finalStatus (st : Nat) : Bool := decide (1 ≤ st) && decide (st ≤ 8)

/-- The notice's outcome for a sequence. -/
def outcomeFor (n : Notice) (slate : Nat) : Option Nat := n.outcomes.find? fun o => oSlate o == slate

end Sys2Proof.Machine
end

