-- ==== Sys2Proof/Machine/Experts.lean ====
section
/-! DEFINITION. Expert routing and dispatch (R266 to R292): selection, the exchange areas, batches, gather, work lists and
combine. -/
namespace Sys2Proof.Machine

/-! ## Parameters and tables (R275, R276, R286) -/

/-- An expert parameter in force since the partition started (R266). -/
def State.exp (s : State) (p i : Nat) : Nat := s.eff' (pk i (p + 1))

/-- The location table in use (R266, R276). -/
def State.locTable (s : State) (p : Nat) : Nat := if s.serving p then (s.inst p).location else s.exp p 0x5870

/-- A layer's bit of the layer map. -/
def State.expertLayer (s : State) (p layer : Nat) : Bool :=
  s.readVal .director (s.locTable p + 64 + layer / 8) 1 / 2 ^ (layer % 8) % 2 == 1

/-- The partition's expert layers, in order. -/
def State.expertLayers (s : State) (p : Nat) : List Nat := (List.range (s.geom p).layers).filter (s.expertLayer p)

/-- The replicas of a location entry (rank and region); none where it is not valid. -/
def replicas (e : Nat) : Option (List (Nat × Nat)) :=
  if bit e 63 then some ((List.range (bits e 62 61 + 1)).map fun i => (bits e (60 - 8 * i) (55 - 8 * i), bits e (54 - 8 * i) (53 - 8 * i)))
  else none

/-- The location entry of an expert. -/
def State.locEntry (s : State) (p layer e : Nat) : Nat :=
  s.readVal .director (s.locTable p + 576 + 8 * (layer * s.exp p 0x5860 + e)) 8

/-- The expert has a replica on this module, in the given region or in any. -/
def State.hostsExpert (s : State) (p layer e : Nat) (region : Option Nat) : Bool :=
  match replicas (s.locEntry p layer e) with
  | none => false
  | some l => l.any fun r => r.1 == s.rank p && (match region with | none => true | some g => r.2 == g)

/-! ## Selection (R267 to R271) -/

/-- What a ROUTE command uses of a layer: the replicas of each eligible expert, the biases, and whether a read of them was
poisoned. -/
structure RouteTab where
  hosts : List (Option (List (Nat × Nat)))
  bias  : List Nat
  bad   : Bool
deriving DecidableEq, Repr

/-- Reads what ROUTE uses of a layer (R267 to R271, R275). -/
def readRouteTab (w : Who) (p layer : Nat) : M RouteTab := do
  let s ← get
  let n := s.exp p 0x5860
  let size := s.instSize p
  let map ← load w (s.locTable p + 64 + layer / 8) 1
  let es ← load w (s.locTable p + 576 + 8 * layer * n) (8 * n)
  let hosts := (List.range n).map fun e =>
    match replicas (bits es.val (64 * e + 63) (64 * e)) with
    | none => none
    | some l => if l.all fun r => decide (r.1 < size) then some l else none
  let ba := s.exp p 0x5866
  let b ← if ba == 0 then pure (⟨0, []⟩ : Read) else load w (ba + 4 * layer * n) (4 * n)
  let bias := (List.range n).map fun e =>
    let x := bits b.val (32 * e + 31) (32 * e)
    if f32IsNan x then 0 else x
  pure ⟨hosts, bias, map.poisoned || es.poisoned || b.poisoned⟩

/-- What the router decides of a row. -/
structure Selection where
  chosen   : List (Nat × Nat)
  gateSum  : Nat
  noFinite : Bool
deriving DecidableEq, Repr

/-- The scores g of the eligible experts (R268). -/
def expertScores (mode : Nat) (xs : List (Nat × Nat)) : List (Nat × Nat) :=
  if mode == 0 then
    let m := xs.foldl (fun m x => f32Max m x.2) f32NegInf
    let ps := xs.map fun x => (x.1, f32Exp (f32Sub x.2 m))
    let sum := ps.foldl (fun a x => f32Add a x.2) 0
    ps.map fun x => (x.1, f32Div x.2 sum)
  else xs.map fun x => (x.1, f32Div f32One (f32Add f32One (f32Exp (f32Neg x.2))))

/-- One row's selection (R267 to R271), from the logits of the eligible experts in increasing order. -/
def selectExperts (mode thr kmax : Nat) (norm : Bool) (scale : Nat) (bias : List Nat) (logits : List (Nat × Nat)) : Selection :=
  let xs := logits.map fun x => (x.1, if f32IsNan x.2 then f32NegInf else if x.2 == f32PosInf then 0x7F7FFFFF else x.2)
  match xs with
  | [] => ⟨[], 0, false⟩
  | first :: _ =>
    if xs.all fun x => x.2 == f32NegInf then ⟨[(first.1, 0)], 0, true⟩
    else
      let gs := expertScores mode xs
      let qs := gs.map fun g => (f32Add g.2 (nth bias g.1), g.1)
      let order := qs.foldl (fun l q => insertCand q.1 q.2 l) []
      let n := (qs.filter fun q => f32Le thr q.1).length
      let chosen := ((order.take (min (max n 1) kmax)).map Prod.snd).map fun e => (e, (lookup gs e).getD 0)
      let g := chosen.foldl (fun a x => f32Add a x.2) 0
      if norm then
        ⟨chosen.map fun x => (x.1, if f32Eq g 0 then 0 else f32Mul (f32Div x.2 g) scale), g, false⟩
      else ⟨chosen.map fun x => (x.1, f32Mul x.2 scale), 0, false⟩

/-- The list extended to n elements. -/
def padTo (n v : Nat) (l : List Nat) : List Nat := l ++ List.replicate (n - l.length) v

/-- A routing record's bytes (R273). -/
def routingRecord (row flags : Nat) (sel : Selection) (hosts : List Nat) : List Nat :=
  toBytes row 3 ++ [0, sel.chosen.length, flags, 0, 0] ++ toBytes sel.gateSum 4 ++ List.replicate 20 0
    ++ ((padTo 32 0xFFFF (sel.chosen.map Prod.fst)).flatMap fun e => toBytes e 2)
    ++ ((padTo 32 0 (sel.chosen.map Prod.snd)).flatMap fun w => toBytes w 4)
    ++ padTo 32 0 hosts

/-! ## The exchange of a region (R278) -/

/-- The exchange area of a region. -/
def State.exchange (s : State) (p region : Nat) : Exchange := (lookup (s.inst p).exch region).getD Exchange.reset

def setExchange (p region : Nat) (f : Exchange → Exchange) : M Unit :=
  setInst p fun i => { i with exch := insertAt i.exch region (f ((lookup i.exch region).getD Exchange.reset)) }

/-- ROUTE (R272 to R274). In serving, the region's exchange has the rows that its router routes. DESIGN CHOICE (notes/assumptions/46):
unsafe. -/
def bodyRoute (c : Cmd) : M End := do
  let a := c.area
  let rows := max 1 (bits a 133 110)
  clampDesc (b2n (bits a 133 110 == 0))
  let layer ← clampLayer c.p (bits a 85 74)
  onlyIf c.serving (setExchange c.p (engineRegion c.e) fun x => { x with rowsLayer := layer, rows := rows, prefill := min rows (bits a 109 86) })
  let s ← get
  let n := s.exp c.p 0x5860
  let o ← readCoded c.who .acc (bits a 255 197 * 32) n [0, 1]
  let tab ← readRouteTab c.who c.p layer
  each (List.range rows) fun r => do
    let x ← readRow c.who o r 0 n
    let bad := tab.bad || x.bad
    let xs := x.values o.tscale o.fmt.isK
    let logits := ((tab.hosts.zipIdx).filter fun h => h.1.isSome).map fun h => (h.2, nth xs h.2)
    let sel := if bad then (⟨[], 0, false⟩ : Selection)
      else selectExperts (s.exp c.p 0x5862) (s.exp c.p 0x5863) (s.exp c.p 0x5861) (s.exp c.p 0x5864 == 1) (s.exp c.p 0x5865)
        tab.bias logits
    let hosts := sel.chosen.map fun y =>
      let reps := ((tab.hosts.getD y.1 none).getD [])
      let rep := reps.getD ((s.rank c.p + r) % max 1 reps.length) (0, 0)
      rep.1 + rep.2 * 64
    let flags := b2n (decide (bits a 109 86 ≤ r)) + 2 * b2n sel.noFinite + 4 * b2n bad
    store c.who (bits a 191 134 * 64 + 256 * r) (routingRecord r flags sel hosts)
    bump (pk 0x8047 1) sel.chosen.length
    bump (pk 0x8047 8) (b2n sel.noFinite)
  unitsDone c.arm (rows - 1)
  pure .done

/-! ## Rack groups and gateways (R277) -/

/-- The rack group of a rank (R276). -/
def State.rackOf (s : State) (p r : Nat) : Nat :=
  let g := nth (s.inst p).racks r
  if 7 < g then 0 else g

def State.rackMembers (s : State) (p h : Nat) : List Nat := (List.range (s.instSize p)).filter fun r => s.rackOf p r == h

def State.rackPos (s : State) (p r : Nat) : Nat := ((s.rackMembers p (s.rackOf p r)).filter fun q => decide (q < r)).length

/-- The gateway of rank r into group h. -/
def State.gateway (s : State) (p r h : Nat) : Nat :=
  let m := s.rackMembers p h
  nth m (s.rackPos p r % max 1 m.length)

def State.ownGroup (s : State) (p : Nat) : Nat := s.rackOf p (s.rank p)

/-- The other groups that have members. -/
def State.otherGroups (s : State) (p : Nat) : List Nat :=
  (List.range 8).filter fun h => h != s.ownGroup p && !(s.rackMembers p h).isEmpty

/-- S1 of R283. -/
def State.rackSenders (s : State) (p : Nat) : Nat :=
  ((List.range (s.instSize p)).filter fun r => s.rackOf p r != s.ownGroup p && s.gateway p r (s.ownGroup p) == s.rank p).length

/-- What each cue advances by per expert layer. -/
def State.cueSpan (s : State) (p cue : Nat) : Nat :=
  if cue % 2 == 0 then s.rackSenders p else (s.rackMembers p (s.ownGroup p)).length

/-! ## The exchange area (R278) -/

def dataBytes (f : Fmt) (n : Nat) : Nat := ceil64 (ceilDiv (n * f.elemBits) 8)
def planeBytes (f : Fmt) (n : Nat) : Nat := if f.block == 0 then 0 else ceil64 (ceilDiv n f.block)

/-- The row sizes. -/
structure RowSizes where
  inRow  : Nat
  midRow : Nat
  actRow : Nat
  outRow : Nat
deriving DecidableEq, Repr

/-- The row sizes of R278. -/
def State.rowSizes (s : State) (p : Nat) : RowSizes :=
  let fmt := fun i => (Fmt.ofCode (s.exp p i)).getD .bf16
  let row := fun f n => dataBytes f n + planeBytes f n
  ⟨64 + row (fmt 0x5869) (s.exp p 0x5867), row (fmt 0x586A) (2 * s.exp p 0x5868), row (fmt 0x586A) (s.exp p 0x5868),
    64 + dataBytes (fmt 0x586B) (s.exp p 0x5867)⟩

/-- The addresses of a region's parts and the end of the area. -/
structure Parts where
  counts     : Nat
  lists      : Nat
  records    : Nat
  landing    : Nat
  sorted     : Nat
  mid        : Nat
  act        : Nat
  out        : Nat
  forward    : Nat
  retForward : Nat
  retLanding : Nat
  shared     : Nat
  top        : Nat
deriving DecidableEq, Repr

/-- Where parts of the given sizes start, each rounded up to 4 KiB. -/
def stack4k : Nat → List Nat → List Nat
  | a, [] => [a]
  | a, n :: l => a :: stack4k (a + alignUp n 4096) l

/-- The layout for T tokens. -/
def State.partsFor (s : State) (p region t : Nat) : Parts :=
  let z := s.rowSizes p
  let k := s.exp p 0x5861
  let h := t * min k (nth (s.inst p).hostMax region)
  let racks := if (s.otherGroups p).isEmpty then 0 else t * k
  let w := s.exp p 0x586E
  let shared := if w == 0 then 0 else s.exp p 0x586F * (3 * w + s.exp p 0x5867) * 4
  let l := stack4k (s.exp p 0x5874 + 0x40000000 * region)
    [32768, 4 * (64 + 32 * 4096), t * 256, h * z.inRow, h * z.inRow, h * z.midRow, h * z.actRow, h * z.outRow, racks * z.inRow,
     racks * z.outRow, t * k * z.outRow, shared]
  ⟨nth l 0, nth l 1, nth l 2, nth l 3, nth l 4, nth l 5, nth l 6, nth l 7, nth l 8, nth l 9, nth l 10, nth l 11, nth l 12⟩

/-- The layout in force: for RoutedTokenBound tokens. -/
def State.parts (s : State) (p region : Nat) : Parts := s.partsFor p region (s.par (pk 0x5877 (p + 1)))

/-- The layout of T tokens fits on every region. -/
def State.partsFit (s : State) (p t : Nat) : Bool :=
  (List.range 4).all fun r =>
    decide ((s.partsFor p r t).top ≤ s.exp p 0x5874 + 0x40000000 * r + s.exp p 0x5875)

/-- The largest T of 24 bits that fits, by bits from the top. -/
def State.tokenBound (s : State) (p : Nat) : Nat → Nat → Nat
  | 0, t => t
  | k + 1, t => if s.partsFit p (t + 2 ^ k) then s.tokenBound p k (t + 2 ^ k) else s.tokenBound p k t

/-- The largest number of experts that any layer hosts on a region of this module. -/
def State.countHosts (s : State) (p region : Nat) : Nat :=
  ((s.expertLayers p).map fun l =>
    ((List.range (s.exp p 0x5860)).filter fun e => s.hostsExpert p l e (some region)).length).foldl max 0

/-- Expert parameters read when the partition starts (R292). -/
def startExperts (p : Nat) : M Unit := do
  each ((List.range 17).map (· + 0x5860) ++ [0x5873, 0x5874, 0x5875]) fun i => do
    let v ← par (pk i (p + 1))
    setEff (pk i (p + 1)) v
  each (List.range 4) fun c => do
    let v ← par (pk 0x5876 (4 * p + c + 1))
    setEff (pk 0x5876 (4 * p + c + 1)) v

/-- Rack groups and the routed token bound, at START of an instance (R276, R278). DESIGN CHOICE (notes/assumptions/59): unsafe. -/
def startExchange (p : Nat) : M Unit := do
  let s ← get
  setInst p fun i => { i with location := s.exp p 0x5870, exch := [], expCues := [0, 0, 0, 0], heldBatches := [] }
  let s ← get
  let r ← if s.exp p 0x5860 == 0 then pure (⟨0, []⟩ : Read) else load .director (s.locTable p) 64
  setInst p fun i => { i with racks := toBytes r.val 64 }
  let s ← get
  setInst p fun i => { i with hostMax := (List.range 4).map (s.countHosts p) }
  let s ← get
  setPar (pk 0x5877 (p + 1)) (s.tokenBound p 24 0)

/-! ## Rows and batches (R281 to R283) -/

/-- A row: its header and its data. -/
abbrev ExRow := Nat × List Nat

def rowHeader (origin region row e k : Nat) (prefill bad : Bool) (rank toRegion : Nat) : Nat :=
  origin * 2 ^ 506 + region * 2 ^ 504 + row * 2 ^ 480 + e * 2 ^ 468 + k * 2 ^ 463 + b2n prefill * 2 ^ 462 + b2n bad * 2 ^ 461
    + rank * 2 ^ 455 + toRegion * 2 ^ 453

def xOrigin (h : Nat) : Nat := bits h 511 506
def xOriginRegion (h : Nat) : Nat := bits h 505 504
def xRow (h : Nat) : Nat := bits h 503 480
def xExpert (h : Nat) : Nat := bits h 479 468
def xSel (h : Nat) : Nat := bits h 467 463
def xPrefill (h : Nat) : Bool := bit h 462
def xBad (h : Nat) : Bool := bit h 461
def xFinal (h : Nat) : Nat := bits h 460 455
def xFinalRegion (h : Nat) : Nat := bits h 454 453

/-- Lists of keys compared in turn. -/
def keyLt : List Nat → List Nat → Bool
  | a :: l, b :: m => if a < b then true else if b < a then false else keyLt l m
  | _, _ => false

def insertRow (key : Nat → List Nat) (x : ExRow) : List ExRow → List ExRow
  | [] => [x]
  | y :: l => if keyLt (key y.1) (key x.1) then y :: insertRow key x l else x :: y :: l

def sortRows (key : Nat → List Nat) (l : List ExRow) : List ExRow := l.foldr (insertRow key) []

def batchKey (h : Nat) : List Nat := [xFinal h, xExpert h, xOrigin h, xOriginRegion h, xRow h, xSel h]
def gatherKey (h : Nat) : List Nat := [b2n (xPrefill h), xExpert h, xOrigin h, xOriginRegion h, xRow h, xSel h]

/-- A cue of R283 advances by 1. -/
def expCue (p cue : Nat) : M Unit := do
  let s ← get
  setInst p fun i => { i with expCues := i.expCues.set cue (nth i.expCues cue + 1) }
  signalCue (whoOf 80 p) (s.eff' (pk 0x5876 (4 * p + cue + 1))) 1

/-- Sends one batch; one without rows is an empty marker. -/
def sendBatch (c : Cmd) (layer dst' : Nat) (ret : Bool) (stage units : Nat) (rows : List ExRow) : M Unit := do
  let s ← get
  let step := (s.inst c.p).run.getD 0
  let epoch := ((lookup (s.inst c.p).sheets step).map csEpoch).getD 0
  let h := s.eff' (pk 0x5830 (c.p + 1)) * 2 ^ 496 + step % 2 ^ 48 * 2 ^ 448 + layer * 2 ^ 436 + epoch * 2 ^ 420 + c.ctx * 2 ^ 412
    + c.gen * 2 ^ 404 + s.rank c.p * 2 ^ 398 + dst' * 2 ^ 392 + b2n ret * 2 ^ 391 + stage * 2 ^ 390 + rows.length % 2 ^ 24 * 2 ^ 366
    + units / 64 % 2 ^ 16 * 2 ^ 350
  emit (.experts dst' ⟨c.p, h, sortRows batchKey rows⟩)
  bump (pk 0x8047 3) (b2n rows.isEmpty)

/-- Writes a row at an address; a Poisoned row's data is written as poisoned. -/
def putRow (w : Who) (a : Nat) (x : ExRow) : M Unit := do
  store w a (toBytes x.1 64 ++ x.2)
  onlyIf (xBad x.1 && !x.2.isEmpty) (storePoison w (a + 64) x.2.length)

/-- Reads a row of n data bytes. -/
def getRow (w : Who) (a n : Nat) : M ExRow := do
  let h ← load w a 64
  let d ← load w (a + 64) n
  pure (if h.poisoned || d.poisoned then setBits h.val 461 461 1 else h.val, toBytes d.val n)

/-- Lands a dispatch row in its region, at its landing counter (R284). -/
def landRow (w : Who) (p : Nat) (x : ExRow) : M Unit := do
  let s ← get
  let g := xFinalRegion x.1
  let n := (s.exchange p g).landed
  putRow w ((s.parts p g).landing + n * (s.rowSizes p).inRow) x
  storeVal w (s.parts p g).counts 4 (n + 1)
  setExchange p g fun e => { e with landed := n + 1 }

/-- Lands a return row at its origin (R289). -/
def landReturn (w : Who) (p : Nat) (x : ExRow) : M Unit := do
  let s ← get
  putRow w ((s.parts p (xOriginRegion x.1)).retLanding + (xRow x.1 * s.exp p 0x5861 + xSel x.1) * (s.rowSizes p).outRow) x

/-- Rows waiting in the forward areas, which this empties. -/
def takeForward (w : Who) (p : Nat) (ret : Bool) : M (List ExRow) := do
  let s ← get
  let z := s.rowSizes p
  let n := if ret then z.outRow else z.inRow
  let rows ← collect (List.range 4) fun g => do
    let s ← get
    let base := if ret then (s.parts p g).retForward else (s.parts p g).forward
    let k := if ret then (s.exchange p g).retForward else (s.exchange p g).forward
    let l ← collect (List.range k) fun i => getRow w (base + i * n) (n - 64)
    setExchange p g fun e => if ret then { e with retForward := 0 } else { e with forward := 0 }
    pure l
  pure rows.flatten

/-- The two stages, for rows by their destination rank (R282). -/
def sendStage (c : Cmd) (layer : Nat) (ret : Bool) (units : Nat) (dest : Nat → Nat) (own : List ExRow)
    (land : ExRow → M Unit) : M Unit := do
  let s ← get
  if bit c.area 243 then do
    let fwd ← takeForward c.who c.p ret
    let mine := (own.filter fun x => s.rackOf c.p (dest x.1) == s.ownGroup c.p) ++ fwd
    each ((s.rackMembers c.p (s.ownGroup c.p)).filter (· != s.rank c.p)) fun m =>
      sendBatch c layer m ret 1 units (mine.filter fun x => dest x.1 == m)
    each (sortRows batchKey (mine.filter fun x => dest x.1 == s.rank c.p)) land
    expCue c.p (if ret then 3 else 1)
  else
    each (s.otherGroups c.p) fun h =>
      sendBatch c layer (s.gateway c.p (s.rank c.p) h) ret 0 units (own.filter fun x => s.rackOf c.p (dest x.1) == h)

/-- EXP_DISPATCH (R280, R282). rowBases: where each region's hidden rows start; row r lies InRow - 64 bytes per row on. DESIGN CHOICE
(notes/assumptions/46): unsafe. -/
def bodyDispatch (c : Cmd) : M End := do
  let rowBases := c.args
  let layer ← clampLayer c.p (bits c.area 255 244)
  let s ← get
  let z := s.rowSizes c.p
  let n := z.inRow - 64
  let own ← collect (List.range 4) fun g =>
    collect (List.range (bits c.area (242 - 24 * g) (219 - 24 * g))) fun r => do
      let rec' ← load c.who ((s.parts c.p g).records + 256 * r) 256
      let count := if rec'.poisoned then 0 else min 32 (bits rec'.val 39 32)
      if count == 0 then pure []
      else do
        let d ← load c.who (nth rowBases g + n * r) n
        pure ((List.range count).map fun k =>
          let host := bits rec'.val (1792 + 8 * k + 7) (1792 + 8 * k)
          ((rowHeader (s.rank c.p) g r (bits rec'.val (256 + 16 * k + 11) (256 + 16 * k)) k (bit rec'.val 40) d.poisoned (host % 64)
            (host / 64), toBytes d.val n) : ExRow))
  sendStage c layer false n xFinal (own.flatten.flatten) (landRow c.who c.p)
  pure .done

/-- The Counts part of an exchange area (R278, R285): the landing counter, then one U32 per expert and phase. Those that its 32 KiB
do not hold stand in no memory (notes/assumptions/47). -/
def countBytes (experts landed : Nat) (counts : List (Nat × Nat)) : List Nat :=
  toBytes landed 4 ++ (List.range (min 8191 (2 * experts))).flatMap fun k => toBytes ((lookup counts k).getD 0) 4

/-- EXP_GATHER (R285). -/
def bodyGather (c : Cmd) : M End := do
  let layer ← clampLayer c.p (bits c.area 255 244)
  let s ← get
  let g := engineRegion c.e
  let z := s.rowSizes c.p
  let a := s.parts c.p g
  let rows ← collect (List.range (s.exchange c.p g).landed) fun i => getRow c.who (a.landing + i * z.inRow) (z.inRow - 64)
  let ok := rows.filter fun x => xFinal x.1 == s.rank c.p && s.hostsExpert c.p layer (xExpert x.1) none
  bump (pk 0x8047 7) (rows.length - ok.length)
  let sorted := sortRows gatherKey ok
  each (sorted.zipIdx) fun x => putRow c.who (a.sorted + x.2 * z.inRow) x.1
  let counts := sorted.foldl (fun l x =>
    let k := 2 * xExpert x.1 + b2n (xPrefill x.1)
    insertAt l k ((lookup l k).getD 0 + 1)) []
  let idle := (List.range (s.exp c.p 0x5860)).filter fun e =>
    s.hostsExpert c.p layer e (some g) && (lookup counts (2 * e)).isNone && (lookup counts (2 * e + 1)).isNone
  store c.who a.counts (countBytes (s.exp c.p 0x5860) 0 counts)
  bump (pk 0x8047 2) sorted.length
  bump (pk 0x8047 4) idle.length
  setExchange c.p g fun e => { e with
    landed := 0, sorted := sorted.length, layer := layer, counts := counts, final := insertAt e.final layer ((sorted.map fun x => xExpert x.1).eraseDups) }
  pure .done

/-! ## Work lists (R285 to R287) -/

/-- The list of one phase and direction in a region: Draw up, Draw down, Press up, Press down. -/
def Parts.list (a : Parts) (i : Nat) : Nat := a.lists + i * (64 + 32 * 4096)

/-- Items with their first pass: fields of R81. -/
def listItems (kind : Kind) (tileM cols : Nat) : List (Nat × Nat × Nat × Nat) → Nat → List Nat × Nat
  | [], base => ([], base)
  | (e, wAddr, row, n) :: l, base =>
    let passes := ceilDiv n tileM * ceilDiv (ceilDiv cols (tileCols kind)) 16
    let r := listItems kind tileM cols l (base + passes)
    ((wAddr / 32 * 2 ^ 197 + row % 2 ^ 24 * 2 ^ 168 + n % 2 ^ 24 * 2 ^ 144 + row % 2 ^ 24 * 2 ^ 120 + cols % 2 ^ 24 * 2 ^ 72
      + base % 2 ^ 24 * 2 ^ 48 + e * 2 ^ 36) :: r.1, r.2)

/-- Writes one list: a fresh header and its items. -/
def writeList (w : Who) (a template : Nat) (kind : Kind) (tileM cols : Nat) (items : List (Nat × Nat × Nat × Nat)) : M Unit := do
  let l := listItems kind tileM cols items 0
  store w a (toBytes (template / 64 * 2 ^ 454 + items.length % 2 ^ 24 * 2 ^ 424 + l.2 % 2 ^ 24 * 2 ^ 400) 64
    ++ l.1.flatMap fun x => toBytes x 32)

/-- The runs of a phase's sorted rows: expert, first row and count. -/
def State.expertRuns (s : State) (p region : Nat) (prefill : Bool) : List (Nat × Nat × Nat) :=
  let cs := (s.exchange p region).counts
  let mine := cs.filter fun x => x.1 % 2 == b2n prefill
  let before := if prefill then ((cs.filter fun x => x.1 % 2 == 0).map Prod.snd).foldl (· + ·) 0 else 0
  (mine.zipIdx).map fun x => (x.1.1 / 2, before + ((mine.take x.2).map Prod.snd).foldl (· + ·) 0, x.1.2)

/-- The rows of an expert and phase that its padded commands take: none in listed mode (R287). -/
def State.padded (s : State) (p : Nat) : Nat := if s.exp p 0x586C == 1 then s.exp p 0x586D else 0

/-- The variant buffer that the Director puts in place of an expert's weights of a direction (R286): behind the four templates its
operands name expert, up and down address, in threes. DESIGN CHOICE (notes/assumptions/60): unsafe. -/
def variantOf (args : List Nat) (e dir addr : Nat) : Nat :=
  match (List.range ((args.length - 4) / 3)).find? fun i => nth args (4 + 3 * i) == e with
  | some i => nth args (5 + 3 * i + dir)
  | none => addr

/-- BUILD_LISTS (R285). templates: the job records of the four lists. With PADDED, the lists hold only what passes ExpertPadRows
(R287). DESIGN CHOICE (notes/assumptions/46): unsafe. -/
def bodyBuildLists (c : Cmd) : M End := do
  let templates := c.args.take 4
  let layer ← clampLayer c.p (bits c.area 255 244)
  let s ← get
  let g := engineRegion c.e
  let a := s.parts c.p g
  let pad := s.padded c.p
  let bad ← collect [false, true] fun prefill => do
    let runs := (s.expertRuns c.p g prefill).filterMap fun r =>
      if pad < r.2.2 then some (r.1, r.2.1 + pad, r.2.2 - pad) else none
    bump (pk 0x8047 9) (if pad == 0 then 0 else (runs.map fun r => r.2.2).foldl (· + ·) 0)
    if runs.isEmpty then pure none
    else do
      let es ← collect runs fun r => do
        let x ← load c.who (s.exp c.p 0x5873 + 32 * (layer * (s.exp c.p 0x5860 + 1) + r.1)) 32
        pure (r, x)
      match es.find? fun x => x.2.poisoned with
      | some x => pure (some (s.exp c.p 0x5873 + 32 * (layer * (s.exp c.p 0x5860 + 1) + x.1.1)))
      | none => do
        let kind := if prefill then Kind.press else Kind.draw
        let tileM := if prefill then 128 else 64
        let i := if prefill then 2 else 0
        writeList c.who (a.list i) (nth templates i) kind tileM (2 * s.exp c.p 0x5868)
          (es.map fun x => (x.1.1, variantOf c.args x.1.1 0 (bits x.2.val 255 197 * 32), x.1.2.1, x.1.2.2))
        writeList c.who (a.list (i + 1)) (nth templates (i + 1)) kind tileM (s.exp c.p 0x5867)
          (es.map fun x => (x.1.1, variantOf c.args x.1.1 1 (bits x.2.val 191 133 * 32), x.1.2.1, x.1.2.2))
        pure none
  match (bad.filterMap id).head? with
  | some addr => pure (.dropped addr)
  | none => pure .done

/-! ## Return and combine (R289, R290) -/

/-- EXP_RETURN (R280, R289): the Out rows of every region, with the headers of the rows they answer. -/
def bodyReturn (c : Cmd) : M End := do
  let layer ← clampLayer c.p (bits c.area 255 244)
  let s ← get
  let z := s.rowSizes c.p
  let own ← collect (List.range 4) fun g =>
    collect (List.range (s.exchange c.p g).sorted) fun i => do
      let h ← load c.who ((s.parts c.p g).sorted + i * z.inRow) 64
      let d ← load c.who ((s.parts c.p g).out + i * z.outRow + 64) (z.outRow - 64)
      storeVal c.who ((s.parts c.p g).out + i * z.outRow) 64 h.val
      pure ((if h.poisoned || d.poisoned then setBits h.val 461 461 1 else h.val, toBytes d.val (z.outRow - 64)) : ExRow)
  sendStage c layer true (z.outRow - 64) xOrigin own.flatten (landReturn c.who c.p)
  pure .done

/-- The Shared part keeps for each row its fused gate and up output, its GLU output and its shared output, of 4 B an element each
(R278). DEDUCED (notes/assumptions/47): the rows stand one after the other. -/
def State.sharedPitch (s : State) (p : Nat) : Nat := (3 * s.exp p 0x586E + s.exp p 0x5867) * 4

/-- The shared output of a row. DEDUCED (notes/assumptions/47): unsafe. -/
def State.sharedOut (s : State) (p region row : Nat) : Nat :=
  (s.parts p region).shared + row * s.sharedPitch p + 12 * s.exp p 0x586E

/-- The slates of the module's own rows of a layer (R272): its decode rows in landing order, then the rows of the prefill chunks whose
holder it is. The four regions take them in contiguous ranges. DESIGN CHOICE (notes/assumptions/60): unsafe. -/
def State.originRows (s : State) (p : Nat) : List Nat :=
  let i := s.inst p
  match i.run.bind (lookup i.sheets) with
  | none => []
  | some c =>
    ((c.run.filter fun e => aHome e == s.rank p).flatMap fun e => List.replicate (aCount e) (aSlate e))
      ++ ((c.prefill.filter fun e => pfHolder e == s.rank p).flatMap fun e => List.replicate (pfTokens e) (pfSlate e))

/-! ## What has completed in the step -/

/-- A command of a layer has completed on engine e. -/
def Inst.did (i : Inst) (e op part l : Nat) : Bool := i.issued.contains (e, op, part, l)

/-- A command of a layer has completed on an engine of a kind. -/
def Inst.didKind (i : Inst) (k : Kind) (op part l : Nat) : Bool :=
  i.issued.any fun x => engineKind x.1 == some k && x.2 == (op, part, l)

/-- A command of a layer has completed on an engine of a kind in a region. -/
def Inst.didIn (i : Inst) (k : Kind) (g op part l : Nat) : Bool :=
  i.issued.any fun x => engineKind x.1 == some k && engineRegion x.1 == g && x.2 == (op, part, l)

/-- A command of a layer has completed on a block of a region. -/
def Inst.didBlock (i : Inst) (g op part l : Nat) : Bool := i.didIn .press g op part l || i.didIn .draw g op part l

/-- The rows that the module's routers have routed of layer l, by region (R272). -/
def State.routed (s : State) (p l g : Nat) : Nat := if (s.inst p).didIn .router g 0x01 0 l then (s.exchange p g).rows else 0

/-- The rows of the layer that all regions have routed. -/
def State.routedAll (s : State) (p l : Nat) : Nat := ((List.range 4).map (s.routed p l)).foldl (· + ·) 0

/-- The attention commands of layer l have signalled (R159). -/
def State.attnDone (s : State) (p l : Nat) : Bool :=
  let i := s.inst p
  i.didKind .relay 0x40 0 l && ((List.range 12).all fun st => i.did (64 + st) 0x01 0 l) && i.didKind .relay 0x41 0 l
    && (List.range 16).all fun r => i.did (80 + r) 0x42 0 l

/-- The module's rows of an expert layer are routed, sent, served and combined (R282 to R290). -/
def State.expertsDone (s : State) (p l : Nat) : Bool :=
  !s.expertLayer p l || (s.routedAll p l == (s.originRows p).length && (s.inst p).didKind .relay 0x52 1 l
    && (List.range 4).all fun g => s.routed p l g == 0 || (s.inst p).didIn .relay g 0x53 0 l)

/-- The entries of the running step's attention list on this module. -/
def State.walkEntries (s : State) (p : Nat) : List Nat :=
  match (s.inst p).run.bind (lookup (s.inst p).sheets) with
  | none => []
  | some c => c.run.filter fun e => entryHere e (s.rank p)

/-- This module is the home of a sequence of the running step's run list. -/
def State.landsRows (s : State) (p : Nat) : Bool := (s.walkEntries p).any fun e => aHome e == s.rank p

/-- The part numbers of a projection: 0 the queries, 1 the keys and 2 the values of a stack, or of a run of a prefill chunk; 3 is a
producer's re-run. -/
def projPart (x w : Nat) : Nat := 4 * x + w

/-- The landing rows of layer l are written: a projection per stack for queries, keys and values, where the module lands rows (R167). -/
def State.landed (s : State) (p l : Nat) : Bool :=
  !s.landsRows p || (List.range 12).all fun st => (List.range 3).all fun w => (s.inst p).didKind .draw 0x01 (projPart st w) l

/-- The keys and values of the step's prefill chunks are written for layer l, a command for each run (R166). -/
def State.chunksWritten (s : State) (p l : Nat) : Bool :=
  (List.range (s.inst p).kvOut.length).all fun x => [1, 2].all fun w => (s.inst p).didKind .press 0x01 (projPart x w) l

/-- The Director's commands of layer l have signalled. -/
def State.layerDone (s : State) (p l : Nat) : Bool :=
  s.attnDone p l && s.chunksWritten p l && s.expertsDone p l && (s.inst p).layerClosed l

/-- An engine holds a command of the Director's: one that has begun, or with `held` also one that has not. -/
def State.servingHeld (s : State) (p : Nat) (held : Bool) : Bool := s.engines.any fun x =>
  (x.2.parts ++ x.2.going.toList).any fun q => q.serving && q.p == p && (held || q.wait != .issue)

/-- Every command of the step has signalled (R159, R210): no engine holds one, and the last layer's are done, each layer's following on
those of the layer before. -/
def State.stepDone (s : State) (p : Nat) : Bool :=
  !s.servingHeld p true && ((s.geom p).layers == 0 || s.layerDone p ((s.geom p).layers - 1))

/-- Commands of the Director that have not begun are issued no more (R226). -/
def dropIssued (p : Nat) : M Unit := modify fun s => { s with
  engines := s.engines.map fun x => (x.1, { x.2 with parts := x.2.parts.filter fun q => !(q.serving && q.p == p && q.wait == .issue) }) }

/-- The rows of layer l that a region has routed or is routing. -/
def State.rowsOf (s : State) (p l g : Nat) : Nat :=
  if (s.exchange p g).rowsLayer == l then (s.exchange p g).rows else 0

/-- The slate of row r of a region in layer l: as the Director's mark says, or by the split of the rows over the regions. DESIGN CHOICE
(notes/assumptions/60): unsafe. -/
def State.rowSlate (s : State) (c : Cmd) (l r : Nat) : Option Nat :=
  match c.watch with
  | some w => w.slates[r]?
  | none => (s.originRows c.p)[(((List.range (engineRegion c.e)).map (s.rowsOf c.p l)).foldl (· + ·) 0) + r]?

/-- EXP_COMBINE (R290). -/
def bodyCombine (c : Cmd) : M End := do
  let l ← clampLayer c.p (bits c.area 255 244)
  let s ← get
  let g := engineRegion c.e
  let z := s.rowSizes c.p
  let a := s.parts c.p g
  let hidden := s.exp c.p 0x5867
  let fmt := (Fmt.ofCode (s.exp c.p 0x586B)).getD .bf16
  let oAddr := bits c.area 218 160 * 32
  let oOp ← readOperand c.who .act hidden oAddr
  if oOp.bad then pure (.dropped oAddr)
  else do
    each (List.range (bits c.area 242 219)) fun r => do
      let rec' ← load c.who (a.records + 256 * r) 256
      let sh ← if s.exp c.p 0x586E == 0 then pure (⟨0, []⟩ : Read)
        else load c.who (s.sharedOut c.p g r) (4 * hidden)
      let start := (List.range hidden).map fun i => bits sh.val (32 * i + 31) (32 * i)
      let acc ← foldState (List.range (min 32 (bits rec'.val 39 32))) (start, false) fun acc k => do
        let row ← getRow c.who (a.retLanding + (r * s.exp c.p 0x5861 + k) * z.outRow) (z.outRow - 64)
        let d := ofBytes row.2
        let wt := bits rec'.val (768 + 32 * k + 31) (768 + 32 * k)
        pure ((acc.1.zipIdx).map fun x =>
          f32Add x.1 (f32Mul wt (f32Round (fmt.dec (unpackCode fmt.elemBits d x.2)))), acc.2 || xBad row.1)
      let bad := rec'.poisoned || bit rec'.val 42 || sh.poisoned || acc.2
      writeOutputs c.who oOp r 0 acc.1 (List.replicate hidden bad)
      match s.rowSlate c l r with
      | none => skip
      | some slate => onlyIf bad (markPoisoned c.p slate)
    pure .done

/-! ## Receiving (R284) -/

def bInst (h : Nat) : Nat := bits h 511 496
def bStep (h : Nat) : Nat := bits h 495 448
def bLayer (h : Nat) : Nat := bits h 447 436
def bEpoch (h : Nat) : Nat := bits h 435 420
def bRet (h : Nat) : Bool := bit h 391
def bStage (h : Nat) : Nat := bits h 390 390

/-- The cue of a batch. -/
def bCue (h : Nat) : Nat := 2 * b2n (bRet h) + bStage h

/-- The layer for which a cue is the next to close. -/
def State.openLayer (s : State) (p cue : Nat) : Option Nat :=
  let n := s.cueSpan p cue
  if n == 0 then none else (s.expertLayers p)[nth (s.inst p).expCues cue / n]?

/-- An accepted batch's rows are written, then its cue advances. -/
def acceptBatch (b : ExpBatch) : M Unit := do
  let w := whoOf 80 b.p
  each b.rows fun x => do
    let s ← get
    let z := s.rowSizes b.p
    if bRet b.header then
      if bStage b.header == 1 then landReturn w b.p x
      else do
        let g := xOriginRegion x.1
        putRow w ((s.parts b.p g).retForward + (s.exchange b.p g).retForward * z.outRow) x
        setExchange b.p g fun e => { e with retForward := e.retForward + 1 }
    else if bStage b.header == 1 then landRow w b.p x
    else do
      let g := xFinalRegion x.1
      putRow w ((s.parts b.p g).forward + (s.exchange b.p g).forward * z.inRow) x
      setExchange b.p g fun e => { e with forward := e.forward + 1 }
  expCue b.p (bCue b.header)

/-- A batch is discarded. -/
def dropBatch (b : ExpBatch) : M Unit := do
  bump (pk 0x8047 5) 1
  bump (pk 0x8047 6) b.rows.length

/-- A step that a newly assigned standby has not learned yet. -/
def anyStep : Nat := 2 ^ 48

/-- A step lies above the one that the receiver runs, or, where it runs none, above the last one it applied. A standby that has not
learned its first step yet holds every batch (R284, R291). -/
def Inst.above (i : Inst) (step : Nat) : Bool :=
  match i.run with
  | some r => decide (r < step)
  | none => i.nextApply == anyStep || decide (i.nextApply ≤ step)

/-- The checks of R284 on a batch. DESIGN CHOICE (notes/assumptions/37): unsafe. -/
def expReceive (b : ExpBatch) : M Unit := do
  let s ← get
  let h := b.header
  let i := s.inst b.p
  if !s.remoteOk b.p (bits h 419 412) (bits h 411 404) then bump (pk 0x8049 2) 1
  else if !(s.serving b.p && bInst h == s.eff' (pk 0x5830 (b.p + 1))) then dropBatch b
  else if i.above (bStep h) then setInst b.p fun i => { i with heldBatches := i.heldBatches ++ [b] }
  else
    let epoch := (i.run.bind fun r => (lookup i.sheets r).map csEpoch)
    if i.run == some (bStep h) && epoch == some (bEpoch h) && s.openLayer b.p (bCue h) == some (bLayer h) then acceptBatch b
    else dropBatch b

/-- Held batches of the step that starts to run are checked again. -/
def recheckHeld (p step : Nat) : M Unit := do
  let s ← get
  let l := (s.inst p).heldBatches
  setInst p fun i => { i with heldBatches := l.filter fun b => bStep b.header != step }
  each (l.filter fun b => bStep b.header == step) expReceive

/-- Held batches of a step that is applied, or of an earlier one, are discarded. -/
def dropHeld (p step : Nat) : M Unit := do
  let s ← get
  let l := (s.inst p).heldBatches
  setInst p fun i => { i with heldBatches := l.filter fun b => decide (step < bStep b.header) }
  each (l.filter fun b => decide (bStep b.header ≤ step)) dropBatch

end Sys2Proof.Machine
end

