-- ==== Sys2Proof/Machine/Norm.lean ====
section
/-! DEFINITION. Norm watch and precision fallback (R293 to R306): observations, baselines, decisions and verdicts. -/
namespace Sys2Proof.Machine

/-! ## Observations (R294) -/

/-- The observation of a row: none where it is not finite. -/
def observe (ys : List Nat) : Option Int :=
  let s := ys.foldl (fun s y => f32Add s (f32Mul y y)) 0
  if f32Eq s 0 then some (-32768)
  else (f32Val (f32Log2 s)).roundInt 7

/-- The pieces of a row in column order. -/
def insertPiece (x : Drained) : List Drained → List Drained
  | [] => [x]
  | y :: l => if x.col ≤ y.col then x :: y :: l else y :: insertPiece x l

/-- The rows that pieces cover whole, in increasing row order: row, values and poison. -/
def wholeRows (l : List Drained) : List (Nat × List Nat × Bool) :=
  let rows := l.foldl (fun rs x => insertAt rs x.row ()) ([] : List (Nat × Unit))
  rows.filterMap fun r =>
    let ps := (l.filter fun x => x.row == r.1).foldr insertPiece []
    let ys := ps.flatMap fun x => x.ys
    match ps.head? with
    | none => none
    | some x => if x.total ≤ ys.length then some (r.1, ys, ps.any fun y => y.bad) else none

/-! ## Baselines (R295, R296) -/

/-- A layer's baseline and count. -/
def baseOf (l : List (Nat × (Int × Nat))) (layer : Nat) : Int × Nat := getC (fun _ => ((0 : Int), 0)) l layer

/-- A layer's baseline has NormObservations observations (R295). -/
def armed (b : Int × Nat) : Bool := decide (64 ≤ b.2)

/-- One finite observation taken into a baseline. -/
def takeObs (flagDelta : Nat) (b : Int × Nat) (o : Int) : Int × Nat :=
  if armed b then
    if o - b.1 < flagDelta then (b.1 + (o - b.1) / 64, b.2) else b
  else (b.1 + Int.tdiv (o - b.1) (b.2 + 1), b.2 + 1)

/-- NormArmedLayers brought up to date (R306). -/
def putArmed (p : Nat) : M Unit := do
  let s ← get
  setPar (pk 0x5889 (p + 1)) (((s.inst p).base.filter fun x => armed x.2).length)

/-- The observations of the step's watched commands in issue order, each command's in increasing row order; re-observations are none
of them. DESIGN CHOICE (notes/assumptions/62): unsafe. -/
def Inst.stepObs (i : Inst) : List Obs := (i.watches.filter fun r => r.watch.rerun.isNone).flatMap WatchRun.obs

/-- The step's observations update the baselines, as its notice is applied. -/
def updateBaselines (p : Nat) : M Unit := do
  let s ← get
  let delta := s.eff' (pk 0x5881 (p + 1))
  setInst p fun i => { i with
    base := i.stepObs.foldl (fun l x =>
      match x.o with
      | none => l
      | some o => setC (fun _ => ((0 : Int), 0)) l x.layer (takeObs delta (baseOf l x.layer) o)) i.base }
  putArmed p

/-- A profile seeds the baselines at START; an entry that reads as poisoned leaves its layer disarmed. -/
def seedBaselines (p : Nat) : M Unit := do
  let s ← get
  let a := s.eff' (pk 0x5886 (p + 1))
  setInst p fun i => { i with base := [] }
  if a == 0 then skip
  else each (List.range (s.geom p).layers) fun l => do
    let r ← load .director (a + 4 * l) 4
    let e := bits r.val 31 16
    onlyIf (!r.poisoned && e != 0x8000) (setInst p fun i => { i with base := insertAt i.base l (toSigned 16 e, 64) })
  putArmed p

/-- The profile of a partition's present baselines. -/
def State.profile (s : State) (p : Nat) : List Nat :=
  (List.range (s.geom p).layers).flatMap fun l =>
    let b := baseOf (s.inst p).base l
    toBytes ((if armed b then ofSigned 16 b.1 else 0x8000) * 65536) 4

/-- A write of NormProfileSave (R296): the array goes to NormProfileAddr where the address is not 0. -/
def normProfileSave (p : Nat) : M Unit := do
  let s ← get
  let a := s.eff' (pk 0x5886 (p + 1))
  if a != 0 && decide (p < 8) then store .director a (s.profile p) else skip

/-! ## Decisions (R297 to R300) -/

/-- NormAction as it acts: FALLBACK is FLAG where the fallback area is not ready (R305). -/
def State.normAction (s : State) (p : Nat) : Nat :=
  let a := s.eff' (pk 0x5880 (p + 1))
  if a == 2 && s.par (pk 0x5888 (p + 1)) == 0 then 1 else a

/-- What one layer makes of a sequence: none, a flag, a fault, or a candidate for fallback. -/
inductive NormOutcome where
  | none | flag | fault | fallback
deriving DecidableEq, Repr

/-- The largest excess of a sequence's finite rows over the baseline. -/
def excess (b : Int) (os : List Obs) : Int :=
  (os.filterMap fun x => x.o).foldl (fun d o => max d (o - b)) (-65536)

/-- The producer of a watched command of prefill rows, where it has run. -/
def Inst.producerOf (i : Inst) (w : Watch) : Option Producer :=
  w.producer.bind fun k => i.producers.find? fun x => x.key == k && x.layer == w.layer

/-- The format code that the producer of a watched command wrote (R293): for prefill rows the marked one, and for decode rows the
layer's ATTN_MERGE. DESIGN CHOICE (notes/assumptions/62): unsafe. -/
def State.producerCode (s : State) (p : Nat) (w : Watch) : Option Nat :=
  if w.producer.isSome then ((s.inst p).producerOf w).map fun x => x.code
  else (s.inst p).merged.bind fun m => if m.1 == w.layer then some m.2 else none

/-- The outcome table of R297. -/
def State.normOutcome (s : State) (p : Nat) (w : Watch) (os : List Obs) : NormOutcome :=
  let b := baseOf (s.inst p).runBase w.layer
  let bad := os.any fun x => x.o.isNone
  let fb := s.normAction p == 2 && [some 0xC, some 0xD, some 0xE].contains (s.producerCode p w)
  if !armed b then (if bad then .fault else .none)
  else
    let d := excess b.1 os
    if bad then (if fb then .fallback else .fault)
    else if s.eff' (pk 0x5882 (p + 1)) ≤ d then (if fb then .fallback else .flag)
    else if s.eff' (pk 0x5881 (p + 1)) ≤ d then .flag
    else .none

/-- The sequences of observations, by slate, and their rows. -/
def obsSlates (os : List Obs) : List Nat := (os.foldl (fun l x => insertAt l x.slate ()) ([] : List (Nat × Unit))).map Prod.fst
/-- The observations of a sequence. -/
def obsOf (os : List Obs) (slate : Nat) : List Obs := os.filter fun x => x.slate == slate

/-- A sequence is marked in a list once. -/
def mark (l : List Nat) (slate : Nat) : List Nat := if l.contains slate then l else l ++ [slate]

/-- The NormJump event (R304): at most one per sequence and layer, and 256 per step. -/
def normJump (p layer slate : Nat) (d : Option Int) (out : Nat) : M Unit := do
  let s ← get
  let es := (s.inst p).normEvents
  if es.contains (layer, slate) || 256 ≤ es.length then bump (pk 0x8048 8) 1
  else do
    let dv := match d with
      | some z => ofSigned 16 z
      | none => Config.normExcess s.freeIx % 65536
    modify fun t => if d.isNone then { t with freeIx := t.freeIx + 1 } else t
    setInst p fun i => { i with normEvents := i.normEvents ++ [(layer, slate)] }
    raiseEvent 0x2 p 0 (layer + slate * 2 ^ 16 + dv * 2 ^ 40 + out * 2 ^ 56)

/-- The d of a sequence: none where a row is not finite. -/
def seqExcess (b : Int) (os : List Obs) : Option Int := if os.any fun x => x.o.isNone then none else some (excess b os)

/-- A flag, or a NormFault, of a sequence at a layer. -/
def noteFlag (p layer slate : Nat) (d : Option Int) : M Unit := do
  bump (pk 0x8048 2) 1
  normJump p layer slate d 0

/-- A NormFault of a sequence at a layer. -/
def noteFault (p layer slate : Nat) (d : Option Int) : M Unit := do
  bump (pk 0x8048 6) 1
  setInst p fun i => { i with normFault := mark i.normFault slate }
  normJump p layer slate d 2

/-- A watched command of the step is changed, by its place in issue order. -/
def setWatch (p k : Nat) (f : WatchRun → WatchRun) : M Unit :=
  setInst p fun i => { i with watches := i.watches.mapIdx fun j r => if j == k then f r else r }

/-- The fallback cue of a watched command is signalled. -/
def closeWatch (p k : Nat) : M Unit := do
  setWatch p k fun r => { r with stage := .closed }
  setInst p fun i => { i with fbCues := i.fbCues + 1 }

/-- The run of a watched command that a copy belongs to: the copies of one command name the same work and carry the same mark. -/
def Inst.watchIx (i : Inst) (key : Nat) (w : Watch) : Option Nat :=
  i.watches.findIdx? fun r => r.key == key && r.watch.layer == w.layer && r.watch.rerun == w.rerun && decide (r.ended < r.watch.copies)

/-- The work that a matrix command's operand area names: its job record, or its list. -/
def Cmd.work (c : Cmd) : Nat := bits c.area 255 198 * 64

/-- A copy of a watched command starts: with the first, the command's run begins. DEDUCED (notes/assumptions/48): unsafe. -/
def startWatch (c : Cmd) (w : Watch) : M Nat := do
  let s ← get
  match (s.inst c.p).watchIx c.work w with
  | some k => pure k
  | none => do
    setInst c.p fun i => { i with watches := i.watches ++ [⟨c.work, c.e, hOpcode c.desc, w, 0, [], [], .runs, [], 0, 0⟩] }
    pure (s.inst c.p).watches.length

/-- The observations of a command whose copies have all ended (R294): whole rows, without those that met poison. -/
def WatchRun.observed (r : WatchRun) : List Obs :=
  (wholeRows r.pieces).filterMap fun x =>
    if x.2.2 then none else (r.watch.slates[x.1]?).map fun q => ⟨r.watch.layer, q, observe x.2.1⟩

/-- Every copy of a watched command has ended: its rows are observed, and its fallback cue is signalled or held (R298). -/
def endWatch (p k : Nat) (r : WatchRun) : M Unit := do
  let s ← get
  let os := r.observed
  bump (pk 0x8048 1) os.length
  bump (pk 0x8048 7) (os.filter fun x => x.o.isNone).length
  setWatch p k fun r => { r with pieces := [], obs := os, stage := if r.watch.rerun.isSome then .closed else .held }
  onlyIf (r.watch.rerun.isNone && (obsSlates os).all fun q => s.normOutcome p r.watch (obsOf os q) == .none) (closeWatch p k)

/-- What a copy drained is kept, and its end is counted. DEDUCED (notes/assumptions/48): unsafe. -/
def endCopy (p k : Nat) (ps : List Drained) (ended : Bool) : M Unit := do
  setWatch p k fun r => { r with pieces := r.pieces ++ ps, ended := r.ended + b2n ended }
  let s ← get
  match (s.inst p).watches[k]? with
  | none => skip
  | some r => onlyIf (ended && r.stage == .runs && r.watch.copies ≤ r.ended) (endWatch p k r)

/-- The job record of a matrix command, or the template of its list, as the Director wrote it. -/
def State.jobWord (s : State) (op key : Nat) : Nat :=
  if op == 0x02 then s.readVal .director (bits (s.readVal .director key 64) 511 454 * 64) 64 else s.readVal .director key 64

/-- The Director notes a marked producer of prefill rows, once, with the format that its output record gives (R293). -/
def noteProducer (c : Cmd) (layer : Nat) : M Unit := do
  let s ← get
  let code := bits (s.readVal .director (jobOf (s.jobWord (hOpcode c.desc) c.work)).oAddr 32) 4 0
  setInst c.p fun i =>
    if i.producers.any fun x => x.key == c.work && x.layer == layer then i
    else { i with producers := i.producers ++ [⟨c.work, hOpcode c.desc, layer, (FmtRole.out.fmt code).1.code⟩] }

/-- Runs a matrix command's body; its rows are observed where the Director has marked it and NormAction is not OFF. -/
def watched (body : Cmd → M End) (c : Cmd) : M End := do
  let s ← get
  match c.watch with
  | none => body c
  | some w =>
    if w.makes then do
      noteProducer c w.layer
      body c
    else do
      let k ← startWatch c w
      modify fun t => { t with drain := if s.normAction c.p == 0 then none else some [] }
      let x ← body c
      let t ← get
      modify fun t => { t with drain := none }
      endCopy c.p k (t.drain.getD []) (x == .done)
      pure x

/-- Sequences in the order of admission (R299): non-finite first, then decreasing d, ties to the lower slate. -/
def insertAdmit (x : Nat × Option Int × Nat) : List (Nat × Option Int × Nat) → List (Nat × Option Int × Nat)
  | [] => [x]
  | y :: l =>
    let first := match x.2.1, y.2.1 with
      | none, none => decide (x.1 < y.1)
      | none, some _ => true
      | some _, none => false
      | some a, some b => decide (b < a) || (decide (a = b) && decide (x.1 < y.1))
    if first then x :: y :: l else y :: insertAdmit x l

/-- The watched command in a stage that comes first in issue order. -/
def Inst.firstWatch (i : Inst) (st : WatchStage) : Option (Nat × WatchRun) :=
  (i.watches.zipIdx.find? fun r => r.1.stage == st).map fun r => (r.2, r.1)

/-- The Director decides the affected sequences of a watched command (R299). -/
def normDecision (p : Nat) : M Unit := do
  let s ← get
  match (s.inst p).firstWatch .held with
  | none => skip
  | some (k, f) =>
    if (s.inst p).run.isNone then skip
    else do
      let layer := f.watch.layer
      let b := (baseOf (s.inst p).runBase layer).1
      let seqs := (obsSlates f.obs).map fun q => (q, s.normOutcome p f.watch (obsOf f.obs q), obsOf f.obs q)
      each seqs fun x =>
        match x.2.1 with
        | .none => skip
        | .flag => noteFlag p layer x.1 (seqExcess b x.2.2)
        | .fault => noteFault p layer x.1 (seqExcess b x.2.2)
        | .fallback => skip
      let cands := ((seqs.filter fun x => x.2.1 == .fallback).map fun x =>
        (x.1, seqExcess b x.2.2, (f.watch.slates.filter fun q => q == x.1).length)).foldr insertAdmit []
      let used := if (s.inst p).fbRows.1 == layer then (s.inst p).fbRows.2 else 0
      let cap := s.eff' (pk 0x5884 (p + 1))
      let adm := cands.foldl (fun (a : List (Nat × Nat) × Nat × Bool) x =>
        if a.2.2 || cap < a.2.1 + x.2.2 then (a.1, a.2.1, true) else (a.1 ++ [(x.1, x.2.2)], a.2.1 + x.2.2, false))
        ([], used, false)
      let admitted := adm.1.map Prod.fst
      each (cands.filter fun x => !admitted.contains x.1) fun x => do
        bump (pk 0x8048 5) 1
        match x.2.1 with
        | none => noteFault p layer x.1 none
        | some d => noteFlag p layer x.1 (some d)
      bump (pk 0x8048 3) admitted.length
      bump (pk 0x8048 4) ((adm.1.map Prod.snd).foldl (· + ·) 0)
      setInst p fun i => { i with fbRows := (layer, adm.2.1) }
      if admitted.isEmpty then closeWatch p k else setWatch p k fun r => { r with
        stage := .admitted, admitted := admitted, k := (jobOf (s.jobWord f.op f.key)).k, base := used }

/-- The re-run of a watched command, once all its copies have ended. -/
def Inst.rerunOf (i : Inst) (f : WatchRun) : Option WatchRun :=
  i.watches.find? fun r => r.watch.rerun == some f.key && r.watch.layer == f.watch.layer && r.stage == .closed

/-- After the re-run, FallbackUsed or NormFault for each admitted sequence (R300). The event states d of the watched command (R304).
DEDUCED (notes/assumptions/48): unsafe. -/
def fallbackVerdict (p : Nat) : M Unit := do
  let s ← get
  match (s.inst p).firstWatch .admitted with
  | none => skip
  | some (k, f) =>
    match (s.inst p).rerunOf f with
    | none => skip
    | some r => do
      let b := (baseOf (s.inst p).runBase f.watch.layer).1
      each f.admitted fun q => do
        let os := obsOf r.obs q
        let ok := !(os.any fun x => x.o.isNone) && decide (excess b os < s.eff' (pk 0x5883 (p + 1)))
        setInst p fun i => { i with fellBack := mark i.fellBack q }
        if ok then do
          bump (pk 0x8048 2) 1
          normJump p f.watch.layer q (seqExcess b (obsOf f.obs q)) 1
        else noteFault p f.watch.layer q (seqExcess b (obsOf f.obs q))
      closeWatch p k

/-! ## The fallback area (R299, R305) -/

/-- Whether a range lies in an accepted SCRATCH placement. -/
def State.inScratch (s : State) (p a n : Nat) : Bool :=
  ((lookup s.places p).getD []).any fun q => q.kind == kindScratch && decide (q.addr ≤ a) && decide (a + n ≤ q.addr + q.size)

/-- Every region has its fallback area in a SCRATCH placement. DESIGN CHOICE (notes/assumptions/62): safe. -/
def State.fallbackReady (s : State) (p : Nat) : Bool :=
  (List.range 4).all fun r =>
    s.inScratch p (s.eff' (pk 0x5885 (p + 1)) + 0x40000000 * r) (s.eff' (pk 0x5884 (p + 1)) * ceil64 (Config.normExtent p))

/-- Norm watch at START of an instance (R295, R296, R305, R306). -/
def startNorm (p : Nat) : M Unit := do
  each [0x5884, 0x5885, 0x5886] fun i => do
    let v ← par (pk i (p + 1))
    setEff (pk i (p + 1)) v
  let flag ← par (pk 0x5881 (p + 1))
  let fb ← par (pk 0x5882 (p + 1))
  let fault ← par (pk 0x5883 (p + 1))
  setPar (pk 0x5882 (p + 1)) (max flag fb)
  setPar (pk 0x5883 (p + 1)) (max (max flag fb) fault)
  let s ← get
  setPar (pk 0x5888 (p + 1)) (b2n (s.fallbackReady p))
  seedBaselines p

end Sys2Proof.Machine
end

