-- ==== Sys2Proof/Machine/Plan.lean ====
section
/-! DEFINITION. PLAN (R211 to R221, R240 to R253, R259 to R263, R279): how the lead plans a step. -/
namespace Sys2Proof.Machine

/-- A run entry being planned. -/
structure RunItem where
  slate : Nat
  count : Nat
  pos   : Nat
  home  : Nat
  new   : Nat
  mask  : Nat
  join  : Bool
  /-- the frames the sequence had before it was granted -/
  had   : Nat
deriving DecidableEq, Repr

/-- The plan being made. -/
structure Planning where
  /-- frames left per rank and stack (R172, R214) -/
  remain : List (Nat × List Nat)
  /-- completion space left per home (R227) -/
  space  : List (Nat × Nat)
  run    : List RunItem
  prefill : List Nat
  admits  : List Nat
  leave  : List (Nat × Nat)
  held   : List Nat
  heldOther : List Nat
  take   : List Nat
  tokens : List Nat
  parks  : List Nat
  unparks : List ParkReq
  budget : List Nat
  lost   : List Nat
  /-- sequences for which no further INSERT is planned since this PLAN (R248) -/
  barred : List Nat
  /-- queued PARK requests that this PLAN grants (R257) -/
  asked  : List ParkReq
  /-- held needs by rank (R216, R218) -/
  short  : List (Nat × Nat)
  /-- FramePressure events raised: rank and stack -/
  pressed : List (Nat × Nat)
  /-- routed tokens so far (R279) -/
  routed : Nat
  /-- prefill tokens left (R212) -/
  chunk  : Nat
  evicted : Nat
  /-- running sequences that step 4 has not placed yet: each will have an entry -/
  waiting : Nat
deriving DecidableEq, Repr

/-- Parameters that take effect at the next PLAN (R237, R265). -/
def planParams : List Nat :=
  [0x5836, 0x5837, 0x5838, 0x5839, 0x583A, 0x583B, 0x583C, 0x583D, 0x583E, 0x583F, 0x5840, 0x5841, 0x5850, 0x5852, 0x5853,
   0x5854, 0x5855, 0x5856]

/-- Written values of parameters take effect. -/
def latchParams (p : Nat) (l : List Nat) : M Unit :=
  each l fun i => do
    let v ← par (pk i (p + 1))
    setEff (pk i (p + 1)) v

/-- What takes effect at a PLAN of the partition: its parameters (R237, R265), and a placement reload (R124). A follower has the PLAN
of a step when its call sheet arrives. -/
def planLatch (p : Nat) : M Unit := do
  latchParams p planParams
  modify fun s =>
    match lookup s.placesNext p with
    | none => s
    | some l => { s with places := insertAt s.places p l, placesNext := eraseKey s.placesNext p }

/-- Bytes of the call sheet so far (R219), with room for the held or leave entry of each running sequence still to be placed. -/
def Planning.bytes (x : Planning) : Nat :=
  64 + ceil64 (32 * x.run.length) + ceil64 (32 * x.prefill.length) + 128 * x.admits.length
    + ceil64 (8 * (x.run.filter (·.join)).length) + ceil64 (8 * x.leave.length)
    + ceil64 (8 * (x.held.length + x.heldOther.length + x.waiting)) + (if x.waiting == 0 then 0 else 64) + ceil64 (32 * x.take.length) + ceil64 (4 * x.tokens.length)

/-- A plan that its call sheet can hold: at most 1 MiB, and counts of 16 bits (R219). What would take it past that is deferred. -/
def Planning.fits (x : Planning) : Bool :=
  decide (x.bytes ≤ 2 ^ 20) && [x.prefill.length, x.admits.length, (x.run.filter (·.join)).length, x.leave.length + x.waiting,
    x.held.length + x.heldOther.length + x.waiting, x.take.length].all fun n => decide (n < 2 ^ 16)

/-- The leave entries that one call sheet can hold (R219). -/
def leaveRoom : Nat := 65535

/-- Every stack of a rank has n frames left beside a margin. -/
def Planning.covers (x : Planning) (rank n margin : Nat) : Bool :=
  let l := (lookup x.remain rank).getD []
  n == 0 || (l.length == 12 && l.all fun k => decide (n + margin ≤ k))

/-- Frames of a rank taken by a grant. -/
def Planning.spend (x : Planning) (rank n : Nat) : Planning := { x with remain := adjust x.remain rank fun l => l.map (· - n) }

/-- The smallest routed token bound of the members (R279). -/
def State.routedCap (s : State) (p : Nat) : Nat := ((s.inst p).members.map fun m => m.bound).foldl min (2 ^ 40)

/-- The merge slots of a home already assigned (R213). -/
def popcount (m : Nat) : Nat := ((List.range 64).filter fun i => bit m i).length
/-- Merge slots of a home that the plan has assigned. -/
def Planning.merges (x : Planning) (home : Nat) : Nat :=
  ((x.run.filter fun r => r.home == home).map fun r => (popcount r.mask - 1) * r.count).foldl (· + ·) 0

/-- Query positions of a decode step of a sequence with D drafts: the need in frames on its NewRank (R214). -/
def seqNeed (q : LeadSeq) (d : Nat) : Nat := (q.committed - 1 + d) / 16 + 1 - q.frames

/-- Ranks that hold frames the queries attend, with home and NewRank (R177). -/
def State.sourceMask (s : State) (p : Nat) (q : LeadSeq) (new : Nat) : Nat :=
  let ranks := ((List.range (ceilDiv q.frames 16)).map (s.reelRank p q)) ++ [q.home, new]
  ((List.range 64).filter fun r => ranks.contains r).foldl (fun a r => a + 2 ^ r) 0

/-- Live sequences of a state. -/
def Inst.live (i : Inst) (st : Nat) : List LeadSeq := i.seqs.filter fun q => q.state == st

/-- Insertion of a sequence by a key order. -/
def insertBy (le : LeadSeq → LeadSeq → Bool) (q : LeadSeq) : List LeadSeq → List LeadSeq
  | [] => [q]
  | r :: l => if le q r then q :: r :: l else r :: insertBy le q l

def sortBy (le : LeadSeq → LeadSeq → Bool) (l : List LeadSeq) : List LeadSeq := l.foldr (insertBy le) []

/-- A sequence takes no part in the step: it leaves, parks or is lost. -/
def Planning.out (x : Planning) (slate : Nat) : Bool :=
  x.parks.contains slate || x.lost.contains slate || x.leave.any fun l => l.1 == slate

/-! ## Decode sequences (R213 to R217, R253) -/

/-- What stops a decode sequence from running: nothing, no frame, or another limit. -/
inductive Grant where
  | yes (d : Nat)
  | noFrames
  | other
deriving DecidableEq, Repr

/-- The largest D from d down that a test allows. -/
def largestD (ok : Nat → Bool) : Nat → Option Nat
  | 0 => if ok 0 then some 0 else none
  | d + 1 => if ok (d + 1) then some (d + 1) else largestD ok d

/-- Grants a decode sequence its step. D is lowered until its frames fit the remaining counts (R215, R216, R253), and the routed
tokens their cap (R279). With that D, the limits of the run list and the merge slots (R213), the completion space (R227) and the call
sheet (R219) let it run or not. DESIGN CHOICE (notes/assumptions/58): unsafe. -/
def State.grant (s : State) (p : Nat) (x : Planning) (q : LeadSeq) (join : Bool) : Grant :=
  let new := s.reelRank p q ((q.committed - 1) / 256)
  let mask := s.sourceMask p q new
  let margin := if join then s.eff' (pk 0x5837 (p + 1)) else 0
  let frames := fun d => x.covers new (seqNeed q d) margin
  let cap := fun d => decide (x.routed + d + 1 ≤ s.routedCap p)
  let d0 := s.eff' (pk 0x5854 (p + 1))
  if !frames 0 then .noFrames
  else
    match largestD (fun d => frames d && cap d) d0 with
    | none => .other
    | some d =>
      let item : RunItem := ⟨q.slate, d + 1, q.committed - 1, q.home, new, mask, join, q.frames⟩
      let listed := decide (x.run.length < min (s.eff' (pk 0x5839 (p + 1))) (s.eff' (pk 0x580B (p + 1))))
      let slots := decide (x.merges q.home + (popcount mask - 1) * (d + 1) ≤ s.eff' (pk 0x580C (p + 1)))
      let room := decide (d + 1 ≤ (lookup x.space q.home).getD 0)
      if listed && slots && room && { x with run := x.run ++ [item], take := if d == 0 then x.take else x.take ++ [0] }.fits then .yes d
      else .other

/-- Adds a granted decode sequence to the run list, with its take (R213, R253). Its new frames, and the reels they open, are those of
its NewRank, whose reels hold every position of the step (R177). DESIGN CHOICE (notes/assumptions/58). -/
def addRun (p : Nat) (x : Planning) (q : LeadSeq) (d : Nat) (join : Bool) : M Planning := do
  let s ← get
  let new := s.reelRank p q ((q.committed - 1) / 256)
  let n := seqNeed q d
  let q' := { q with reels := (s.fillReels p q q.frames).reels ++ List.replicate (ceilDiv (q.frames + n) 16 - ceilDiv q.frames 16) new,
                     frames := q.frames + n }
  let mask := s.sourceMask p q' new
  setSeq p q.slate fun _ => q'
  setSlate p q.slate fun v =>
    let v1 := setBits v 976 952 (q.committed + d)
    if d == 0 then v1 else setBits v1 926 902 q.committed
  let take := if d == 0 then x.take else x.take ++ [1 * 2 ^ 252 + q.slate * 2 ^ 228 + d * 2 ^ 222]
  pure { x.spend new n with
    run := x.run ++ [⟨q.slate, d + 1, q.committed - 1, q.home, new, mask, join, q.frames⟩]
    take := take
    routed := x.routed + d + 1
    space := adjust x.space q.home fun k => k - (d + 1) }

/-- Step 3: a join (R211, R215). -/
def planJoin (p : Nat) (x : Planning) (q : LeadSeq) : M Planning := do
  let s ← get
  if x.out q.slate then pure x
  else
    match s.grant p x q true with
    | .yes d => addRun p x q d true
    | .noFrames | .other => do
      bump (pk 0x8045 4) 1
      pure x

/-- Step 4: a running or held sequence (R216, R217). DESIGN CHOICE (notes/assumptions/58): unsafe. -/
def planRunning (p : Nat) (x : Planning) (q : LeadSeq) : M Planning := do
  let s ← get
  let x := { x with waiting := x.waiting - 1 }
  if x.out q.slate then pure x
  else
    match s.grant p x q false with
    | .yes d => addRun p x q d false
    | .other => pure { x with heldOther := x.heldOther ++ [q.slate] }
    | .noFrames =>
      if s.eff' (pk 0x5836 (p + 1)) ≤ slHeld (s.slate p q.slate) then pure { x with leave := x.leave ++ [(q.slate, 4)] }
      else do
        let new := s.reelRank p q ((q.committed - 1) / 256)
        let n := seqNeed q 0
        let lacking : List (Nat × Nat) := (((lookup x.remain new).getD (List.replicate 12 0)).zipIdx).filter fun k =>
          decide (k.1 < n) && !x.pressed.contains (new, k.2)
        each lacking fun k => do
          raiseEvent 0x1 p 0 (k.2 + new * 2 ^ 8 + (s.inst p).step % 2 ^ 48 * 2 ^ 16)
          bump (pk 0x8045 6) 1
        bump (pk 0x8045 5) 1
        pure { x with
          short := x.short ++ [(new, n)]
          pressed := x.pressed ++ lacking.map fun (k : Nat × Nat) => (new, k.2)
          held := x.held ++ [q.slate] }

/-! ## Evictions (R250) -/

/-- A node that a PLAN may evict (R250): VALID, without children and users, and not touched by it. -/
def State.evictable (s : State) (p n : Nat) : Bool :=
  let v := s.node n
  v.st == 2 && v.p == p && v.children == 0 && v.users == 0 && !(s.inst p).touched.contains n

/-- The eligible node first in order of LastUse, then node number. -/
def State.oldestNode (s : State) (ns : List Nat) : Option Nat :=
  ns.foldl (fun b n =>
    match b with
    | none => some n
    | some m => if (s.node n).lastUse < (s.node m).lastUse then some n else b) none

/-- The nodes of a partition that are not FREE. -/
def State.nodesOf (s : State) (p : Nat) : List Nat := (s.nodes.filter fun x => x.2.p == p).map Prod.fst

/-- Evicts one node: FREE at once at the lead, its parent has one child fewer, and an EVICT is listed. -/
def evictNode (p n : Nat) (x : Planning) : M Planning := do
  let s ← get
  let v := s.node n
  setNode n fun w => if w.holder == s.rank p then { PNode.free with frames := w.frames, p := p } else PNode.free
  onlyIf (v.parent != noNode) (setNode v.parent fun w => { w with children := w.children - 1 })
  bump (pk 0x8046 5) 1
  pure { x with take := x.take ++ [5 * 2 ^ 252 + n * 2 ^ 227 + v.holder * 2 ^ 221], evicted := x.evicted + 1 }

/-- The eligible nodes of a rank. -/
def State.eligible (s : State) (p rank : Nat) : List Nat :=
  (s.nodesOf p).filter fun n => s.evictable p n && (s.node n).holder == rank

/-- Evicts eligible nodes of a rank, oldest first, until `want` are evicted, or none more than `keep` is left, those included that become
eligible as their last child goes; at most 1,024 in a PLAN. -/
def evictRank (p rank keep : Nat) : Nat → Nat → Planning → M Planning
  | 0, _, x => pure x
  | fuel + 1, want, x => do
    let s ← get
    let ns := s.eligible p rank
    if want == 0 || decide (ns.length ≤ keep) || 1024 ≤ x.evicted || !{ x with take := x.take ++ [0] }.fits then pure x
    else
      match s.oldestNode ns with
      | none => pure x
      | some n => do
        let y ← evictNode p n x
        evictRank p rank keep fuel (want - 1) y

/-- Case 2 of R250: each rank is brought down to PrefixRetainFrames eligible nodes. -/
def trimIndex (p : Nat) (x : Planning) : M Planning := do
  let s ← get
  foldState (List.range (s.instSize p)) x fun x r => evictRank p r (s.eff' (pk 0x5853 (p + 1))) 1025 1025 x

/-! ## Prompts and prefix matches (R205, R240, R244, R245) -/

/-- The prompt's tokens as the lead reads them, and whether any reads as poisoned. -/
def readPrompt (a n : Nat) : M (List Nat × Bool) := do
  let r ← load .director a (4 * n)
  pure ((List.range n).map fun i => bits r.val (32 * i + 31) (32 * i), r.poisoned)

/-- Full frames matched from frame j on (R244); fuel bounds the frames. -/
def matchFull (p home : Nat) (keys : List (Nat × Nat)) : Nat → Nat → M (List Nat)
  | 0, _ => pure []
  | fuel + 1, j =>
    match keys[16 * j + 15]? with
    | none => pure []
    | some k => do
      let s ← get
      match ← findNode p k.1 (s.holderOf p home (j / 16)) 16 k with
      | none => pure []
      | some n => do
        let rest ← matchFull p home keys fuel (j + 1)
        pure (n :: rest)

/-- The partial node with the most valid tokens that continues frame m (R244). -/
def matchPartial (p home root : Nat) (keys : List (Nat × Nat)) (m : Nat) : Nat → M (Option (Nat × Nat))
  | 0 => pure none
  | v + 1 =>
    match keys[16 * m + v]? with
    | none => matchPartial p home root keys m v
    | some k => do
      let s ← get
      let group := if m == 0 then root else ((keys[16 * m - 1]?).map Prod.fst).getD root
      match ← findNode p group (s.holderOf p home (m / 16)) (v + 1) k with
      | some n => pure (some (n, v + 1))
      | none => matchPartial p home root keys m v

/-- A prefix match: the nodes of the full frames, and the partial source with its valid tokens. -/
structure Match where
  full : List Nat
  part : Option (Nat × Nat)
deriving DecidableEq, Repr

def Match.tokens (m : Match) : Nat := 16 * m.full.length + (m.part.map Prod.snd).getD 0

/-- The match of an admission, capped below the prompt's last token (R245). -/
def matchPrompt (p home salt variant : Nat) (tokens : List Nat) : M Match := do
  let keys := promptKeys salt variant tokens
  let full ← matchFull p home keys (tokens.length / 16) 0
  let part ← matchPartial p home (rootHash salt variant) keys full.length 15
  let m : Match := ⟨full, part⟩
  let cap := tokens.length - 1
  if m.tokens ≤ cap then pure m
  else if 16 * full.length ≤ cap then
    pure ⟨full, if cap == 16 * full.length then none else part.map fun x => (x.1, cap - 16 * full.length)⟩
  else
    let k := full.length - 1
    pure ⟨full.take k, if cap == 16 * k then none else (full[k]?).map fun n => (n, cap - 16 * k)⟩

/-- A node is attached, inserted or made a parent in the running PLAN, which may not evict it (R250). -/
def guardNode (p n : Nat) : M Unit := setInst p fun i => { i with touched := n :: i.touched }

/-- A node is attached or inserted in the running PLAN (R241, R250). -/
def touchNode (p n : Nat) (f : PNode → PNode) : M Unit := do
  let s ← get
  setNode n fun v => f { v with lastUse := (s.inst p).step % 2 ^ 32 }
  guardNode p n

/-! ## Insertions (R248) -/

/-- Plans the INSERT of one completed prompt frame j of v valid tokens, or stops inserting for the sequence. -/
def planInsert (p slate j v root : Nat) (keys : List (Nat × Nat)) (x : Planning) : M Planning := do
  let s ← get
  match (s.inst p).seq slate with
  | none => pure x
  | some q =>
    if q.noInsert then pure x
    else do
      let key := (keys[16 * j + v - 1]?).getD (0, 0)
      let holder := s.reelRank p q (j / 16)
      let group := if v == 16 then key.1 else if j == 0 then root else ((keys[16 * j - 1]?).map Prod.fst).getD root
      let ns ← readGroup p group
      let s ← get
      let same := ns.any fun n =>
        let w := s.node n
        (w.st == 1 || w.st == 2) && w.p == p && w.hash == key.1 && w.check == key.2
      let skipIt : M Planning := do
        setSeq p slate fun q => { q with noInsert := true }
        bump (pk 0x8046 4) 1
        pure { x with barred := x.barred ++ [slate] }
      if same then skipIt
      else do
        let free := ns.find? fun n => (s.node n).st == 0 || (s.node n).st == 3
        let slot ← match free with
          | some n => pure (some (n, x))
          | none =>
            match s.oldestNode (ns.filter (s.evictable p)) with
            | none => pure none
            | some n =>
              if 1024 ≤ x.evicted then pure none
              else do
                let y ← evictNode p n x
                pure (some (n, y))
        match slot with
        | none => skipIt
        | some (n, y) => do
          let parent := q.node.getD noNode
          touchNode p n fun w =>
            { w with hash := key.1, check := key.2, parent := parent, holder := holder, p := p, st := 1, valid := v,
                     children := 0, users := 1 }
          onlyIf (parent != noNode) (guardNode p parent)
          setSeq p slate fun q => { q with node := some n }
          pure { y with take := y.take ++ [4 * 2 ^ 252 + slate * 2 ^ 228 + n * 2 ^ 203 + parent * 2 ^ 178 + holder * 2 ^ 172
            + v * 2 ^ 167 + 16 * j * 2 ^ 142 + key.2 * 2 ^ 110 + key.1 * 2 ^ 46] }

/-! ## Prefill (R212, R215, R245, R248) -/

/-- The end of a chunk that starts at a position (R212). -/
def State.chunkEnd (s : State) (p : Nat) (x : Planning) (plen base : Nat) : Nat :=
  let span := 256 * s.eff' (pk 0x580A (p + 1))
  min (min plen (base + min x.chunk 65536)) (min ((base / span + 1) * span) (base + (s.routedCap p - x.routed)))

/-- The ATTACH entries of an admission and the COPY of its partial source (R245). -/
def State.matchEntries (s : State) (p : Nat) (q : LeadSeq) (m : Match) : List Nat :=
  ((m.full.zipIdx).map fun f =>
    2 * 2 ^ 252 + q.slate * 2 ^ 228 + f.1 * 2 ^ 203 + f.2 * 2 ^ 183 + s.holderOf p q.home (f.2 / 16) * 2 ^ 177)
  ++ match m.part with
    | none => []
    | some (n, v) =>
      [3 * 2 ^ 252 + q.slate * 2 ^ 228 + n * 2 ^ 203 + m.full.length * 2 ^ 183
        + s.holderOf p q.home (m.full.length / 16) * 2 ^ 177 + v * 2 ^ 172]

/-- What an admission does to the nodes it matched (R245, R251), and its count (R265). -/
def noteMatch (p slate : Nat) (m : Match) : M Unit := do
  bump (pk 0x8046 1) 1
  bump (pk 0x8046 2) m.tokens
  each m.full fun n => touchNode p n fun v => { v with users := v.users + 1 }
  setSeq p slate fun q => { q with node := match m.full.getLast? with | some n => some n | none => q.node }

/-- What a chunk that ends at `stop` does to its sequence's record and slate: its frames and reels are filled in, and its Length covers
its positions while the step runs (R206, R212). -/
def noteChunk (p slate stop : Nat) : M Unit := do
  modify fun t =>
    match (t.inst p).seq slate with
    | none => t
    | some q => t.setInst p { t.inst p with seqs := insertSeq (t.fillReels p q (ceilDiv stop 16)) (t.inst p).seqs }
  setSlate p slate fun v => setBits (setBits v 306 306 0) 976 952 stop

/-- One chunk of a sequence, or the admission with its first chunk (R212, R215). Room in the call sheet is kept for an INSERT and an
EVICT per prompt frame that the chunk completes. -/
def planChunk (p : Nat) (x : Planning) (q : LeadSeq) : M Planning := do
  let s ← get
  let v := s.slate p q.slate
  let gate := s.beGateOpen && (s.inst p).acks.all fun a => a.gate
  if x.out q.slate then pure x
  else if slBe v && !gate then do
    if slBudget v then pure x
    else do
      setSlate p q.slate fun v => setBits v 306 306 1
      pure { x with budget := x.budget ++ [q.slate] }
  else do
    let first := q.state == stQueued
    let plen := slPrompt v
    let reuse := s.eff' (pk 0x5850 (p + 1)) == 1
    let whole ← if reuse then readPrompt (slPromptAddr v) plen else pure ([], false)
    let m ← if first && reuse && !whole.2 then matchPrompt p q.home (s.eff' (pk 0x5852 (p + 1))) (slVariant v) whole.1
      else pure (⟨[], none⟩ : Match)
    let s ← get
    let base := if first then m.tokens else q.written
    let stop := s.chunkEnd p x plen base
    let last := stop == plen
    let tokens ← readPrompt (slPromptAddr v + 4 * base) (stop - base)
    let holder := s.holderOf p q.home (base / 256)
    let have' := if first then m.full.length else q.frames
    let need := ceilDiv stop 16 - have'
    if whole.2 || tokens.2 then pure { x with lost := x.lost ++ [q.slate] }
    else if stop ≤ base || !x.covers holder need (s.eff' (pk 0x5837 (p + 1)))
        || (last && (lookup x.space q.home).getD 0 == 0) then pure x
    else do
      let sampler := s.readVal .director (s.samplerAddr p q.slate) 64
      let z := { x.spend holder need with
        take := x.take ++ s.matchEntries p q m
        prefill := x.prefill ++ [prefillEntry q.slate base (stop - base) holder q.home last x.tokens.length]
        admits := if first then x.admits ++ [admitEntry v sampler] else x.admits
        tokens := x.tokens ++ tokens.1
        chunk := x.chunk - (stop - base)
        routed := x.routed + (stop - base)
        space := if last then adjust x.space q.home (· - 1) else x.space }
      let frames := (List.range (ceilDiv stop 16 - base / 16)).map (· + base / 16)
      let done := frames.filter fun j => decide (16 * j + 16 ≤ stop) || last
      if 2 ^ 20 < z.bytes + 64 * done.length then pure x
      else do
        onlyIf (first && reuse) (noteMatch p q.slate m)
        noteChunk p q.slate stop
        let keys := promptKeys (s.eff' (pk 0x5852 (p + 1))) (slVariant v) whole.1
        let root := rootHash (s.eff' (pk 0x5852 (p + 1))) (slVariant v)
        if reuse then foldState done z fun z j => planInsert p q.slate j (min 16 (plen - 16 * j)) root keys z else pure z

/-! ## Parking (R218, R260, R261) -/

/-- Reservations of an area, as (offset, units): those of every can of the instance. -/
def Inst.reserved (i : Inst) (holder target stack : Nat) : List (Nat × Nat) :=
  i.seqs.flatMap fun q => (q.cans.filter fun c =>
    c.holder == holder && c.target == target && (target == 1 || c.stack == stack)).map fun c => (c.off, c.units)

/-- Frames of a sequence that hold tokens, on a rank. -/
def State.framesOn (s : State) (p : Nat) (q : LeadSeq) (rank : Nat) : Nat :=
  ((List.range (ceilDiv (q.committed - 1) 16)).filter fun j => s.reelRank p q (j / 16) == rank).length

/-- Reserves every segment of a sequence's can; none where one does not fit. -/
def reserveCans (s : State) (p : Nat) (q : LeadSeq) (target : Nat) : Option (List Can) :=
  let g := s.geom p
  let holders := (List.range (s.instSize p)).filter fun r => decide (0 < s.framesOn p q r)
  let want := holders.flatMap fun r => (List.range 12).map fun st => (r, st)
  want.foldl (fun acc h =>
    match acc with
    | none => none
    | some cs =>
      match (s.inst p).members.find? fun m => m.rank == h.1 with
      | none => none
      | some m =>
        let units := segBound (s.framesOn p q h.1) g.layers g.slot / 4096
        let size := if target == 0 then nth m.pools h.2 else m.exportSize
        let mine := (cs.filter fun c => c.holder == h.1 && (target == 1 || c.stack == h.2)).map fun c => (c.off, c.units)
        match firstFit ((s.inst p).reserved h.1 target h.2 ++ mine) size units with
        | none => none
        | some off => some (cs ++ [⟨h.1, h.2, target, off, units, s.framesOn p q h.1⟩])) (some [])

/-- The frames that a sequence holds on a rank at this PLAN, without those that the plan has granted it (R218). -/
def State.heldOn (s : State) (p : Nat) (x : Planning) (q : LeadSeq) (rank : Nat) : Nat :=
  let n := ((x.run.find? fun r => r.slate == q.slate).map RunItem.had).getD q.frames
  ((List.range n).filter fun j => s.reelRank p q (j / 16) == rank).length

/-- A run entry is taken back: the sequence has the frames, reels and Length that it had before its grant. -/
def ungrant (p : Nat) (x : Planning) (q : LeadSeq) : M Unit :=
  match x.run.find? fun r => r.slate == q.slate with
  | none => skip
  | some r => do
    setSeq p q.slate fun q => { q with frames := r.had, reels := q.reels.take (ceilDiv r.had 16) }
    setSlate p q.slate fun v => setBits v 976 952 q.committed

/-- Plans a park: its can reserved, its run entry taken back, and a PARK entry per holder stack. None where the can does
not fit, or its entries do not fit the call sheet. -/
def planPark (p : Nat) (q : LeadSeq) (target : Nat) (x : Planning) : M (Option Planning) := do
  let s ← get
  match reserveCans s p q target with
  | none => pure none
  | some cans =>
    let entries := cans.map fun c =>
      6 * 2 ^ 252 + q.slate * 2 ^ 228 + c.holder * 2 ^ 222 + c.stack * 2 ^ 218 + c.target * 2 ^ 217
        + b2n (c.holder == q.home && c.stack == 0) * 2 ^ 216 + c.off * 2 ^ 184 + c.units * 2 ^ 152
    let y := { x with
      parks := x.parks ++ [q.slate]
      run := x.run.filter fun r => r.slate != q.slate
      held := x.held.filter (· != q.slate)
      take := (x.take.filter fun t => !(tkOp t == 1 && bits t 251 228 == q.slate)) ++ entries }
    if y.fits then do
      ungrant p x q
      setSeq p q.slate fun q => { q with cans := cans }
      pure (some y)
    else pure none

/-- Queued PARKs, in queue order (R257, R261); each takes effect once. -/
def planParks (p : Nat) (x : Planning) : M Planning := do
  let s ← get
  foldState ((s.inst p).parkQueue.filter fun r => !r.unpark) x fun x r => do
    let s ← get
    match (s.inst p).seq r.slate with
    | none => pure x
    | some q =>
      if x.out q.slate || !(q.state == stDecoding || q.state == stHeld || q.state == stReady) then pure x
      else do
        match ← planPark p q r.target x with
        | none => pure x
        | some y => pure { y with asked := y.asked ++ [r] }

/-- Queued UNPARKs, granted as joins (R263): one UNPARK entry per segment. A sequence is unparked once. -/
def planUnparks (p : Nat) (x : Planning) : M Planning := do
  let s ← get
  foldState ((s.inst p).parkQueue.filter fun r => r.unpark) x fun x r => do
    let s ← get
    match (s.inst p).seq r.slate with
    | none => pure x
    | some q =>
      let margin := s.eff' (pk 0x5837 (p + 1))
      let ranks := (List.range (s.instSize p)).filter fun k => q.cans.any fun c => c.holder == k
      let need := fun k => ((q.cans.find? fun c => c.holder == k).map fun c => c.frames).getD 0
      let y := { (ranks.foldl (fun (y : Planning) k => y.spend k (need k)) x) with
        unparks := x.unparks ++ [r]
        take := x.take ++ q.cans.map fun c =>
          7 * 2 ^ 252 + q.slate * 2 ^ 228 + c.holder * 2 ^ 222 + c.stack * 2 ^ 218 + c.target * 2 ^ 217 + c.off * 2 ^ 185 }
      if x.out q.slate || q.state != stParked || (x.unparks.any fun u => u.slate == q.slate)
          || !ranks.all (fun k => x.covers k (need k) margin) || !y.fits then pure x
      else pure y

/-- Step 6 (R218, R250): for each short rank, evictions cover what they can, then BE sequences are parked. -/
def planPressure (p : Nat) (x : Planning) : M Planning := do
  let s ← get
  let ranks := (List.range (s.instSize p)).filter fun r => x.short.any fun y => y.1 == r
  foldState ranks x fun x r => do
    let need := ((x.short.filter fun y => y.1 == r).map Prod.snd).foldl (· + ·) 0
    let before := x.evicted
    let x ← evictRank p r 0 1025 need x
    let left := need - (x.evicted - before)
    let s ← get
    if s.eff' (pk 0x583A (p + 1)) != 1 || left == 0 then pure x
    else do
      let be := (s.inst p).seqs.filter fun q => (q.state == stDecoding || q.state == stHeld) && slBe (s.slate p q.slate)
      let order := sortBy (fun a b =>
        let pa := slProgress (s.slate p a.slate)
        let pb := slProgress (s.slate p b.slate)
        pa < pb || (pa == pb && a.slate ≤ b.slate)) be
      let r ← foldState order (x, left) fun acc q => do
        let s ← get
        let n := s.heldOn p acc.1 q r
        if acc.2 == 0 || n == 0 || acc.1.out q.slate then pure acc
        else do
          match ← planPark p q 0 acc.1 with
          | none => pure acc
          | some y => pure (y, acc.2 - n)
      pure r.1

/-! ## The call sheet (R213, R219) -/

/-- Run entries with their positions: SeqSlot, LandingRow and MergeSlotBase. -/
def Planning.runEntries (x : Planning) : List Nat :=
  (x.run.zipIdx).map fun r =>
    let earlier := (x.run.take r.2).filter fun e => e.home == r.1.home
    let landing := (earlier.map fun e => e.count).foldl (· + ·) 0
    let merge := (earlier.map fun e => (popcount e.mask - 1) * e.count).foldl (· + ·) 0
    attnEntry r.1.slate r.2 r.1.count r.1.pos r.1.home r.1.new landing merge r.1.mask

/-- The call sheet of a plan. -/
def State.sheetOf (s : State) (p story time : Nat) (x : Planning) : CallSheet :=
  let i := s.inst p
  let held := x.held.map (fun q => (q, slHeld (s.slate p q) + 1)) ++ x.heldOther.map fun q => (q, slHeld (s.slate p q))
  let joins := x.run.filter fun r => r.join
  ⟨s.eff' (pk 0x5830 (p + 1)) * 2 ^ 496 + i.step % 2 ^ 48 * 2 ^ 448 + i.epoch % 2 ^ 16 * 2 ^ 432 + x.run.length % 2 ^ 20 * 2 ^ 412
    + x.prefill.length % 2 ^ 16 * 2 ^ 396 + joins.length % 2 ^ 16 * 2 ^ 380 + x.leave.length % 2 ^ 16 * 2 ^ 364
    + held.length % 2 ^ 16 * 2 ^ 348 + x.take.length % 2 ^ 16 * 2 ^ 332 + story / 64 * 2 ^ 274 + s.leadRank p * 2 ^ 268
    + x.tokens.length % 2 ^ 24 * 2 ^ 244 + time % 2 ^ 64 * 2 ^ 180 + x.admits.length % 2 ^ 16 * 2 ^ 164,
   x.runEntries, x.prefill, x.admits, joins.map (fun r => r.slate * 2 ^ 40 + r.home * 2 ^ 34),
   x.leave.map (fun l => l.1 * 2 ^ 40 + l.2 * 2 ^ 32), held.map (fun h => h.1 * 2 ^ 40 + h.2 % 2 ^ 16 * 2 ^ 24), x.take, x.tokens⟩

/-- The planning of a step (R211 to R216). -/
def planStep (p story : Nat) : M Unit := do
  planLatch p
  setInst p fun i => { i with touched := [] }
  let s ← get
  -- step 1
  each (List.range (min (planRequests - (s.inst p).readAhead) (s.requestsWaiting p))) fun _ => takeRequest p
  setInst p fun i => { i with readAhead := 0 }
  let s ← get
  let i := s.inst p
  let stop := decide (i.phase = .stopping)
  let lost := (i.seqs.filter fun q => s.slateBad p q.slate).map fun q => q.slate
  let x : Planning :=
    { remain := i.acks.foldl (fun l a => insertAt l a.rank a.avail) [], space := i.acks.foldl (fun l a => insertAt l a.rank a.space) [],
      run := [], prefill := [], admits := [],
      -- step 2
      leave := if stop then (i.seqs.take leaveRoom).map fun q => (q.slate, 2) else [],
      held := [], heldOther := [], take := [], tokens := [], parks := [], unparks := [], budget := [], lost := lost,
      barred := [], asked := [], short := [],
      pressed := [], routed := 0, chunk := s.eff' (pk 0x5838 (p + 1)) / 16 * 16, evicted := 0, waiting := 0 }
  let x ← planParks p x
  -- step 3
  let s ← get
  let running := (s.inst p).seqs.filter fun q => (q.state == stDecoding || q.state == stHeld) && !x.out q.slate
  let x := { x with waiting := running.length }
  let joins := sortBy (fun a b =>
    let va := s.slate p a.slate
    let vb := s.slate p b.slate
    (!slBe va && slBe vb) || (slBe va == slBe vb && (slReady va < slReady vb || (slReady va == slReady vb && a.slate ≤ b.slate))))
    ((s.inst p).live stReady)
  let x ← foldState joins x (planJoin p)
  let x ← planUnparks p x
  -- step 4
  let x ← foldState running x (planRunning p)
  -- step 5
  let s ← get
  let byOrder := sortBy fun a b =>
    let ba := slBe (s.slate p a.slate)
    let bb := slBe (s.slate p b.slate)
    (!ba && bb) || (ba == bb && a.order ≤ b.order)
  let x ← foldState (byOrder ((s.inst p).live stPrefill)) x (planChunk p)
  let s ← get
  let x ← foldState (byOrder ((s.inst p).live stQueued)) x (planChunk p)
  -- step 6
  let x ← planPressure p x
  let x ← trimIndex p x
  -- steps 7 and 8
  let s ← get
  let sheet := s.sheetOf p story s.now x
  setInst p fun i => { i with
    plan := some ⟨sheet, s.now, x.held, x.heldOther, x.parks, x.unparks, x.budget, x.lost, x.barred, x.asked⟩
    reports := [], acks := [], step := i.step + 1 }
  syncMaps p
  storeTwice (s.sheetAddr p) (sheetBytes sheet)
  each (s.otherRanks p) fun r => emit (.sheet r p sheet)

/-- PLAN (R210, R211): the lead plans where it may. The storyboard of the step is the Director's to name. -/
def plan (p story : Nat) : M Unit := do
  let s ← get
  onlyIf (s.mayPlan p) (planStep p story)

end Sys2Proof.Machine
end

