-- ==== Sys2Proof/Machine/Serve.lean ====
section
/-! DEFINITION. The phases of a step after PLAN (R197 to R227, R233 to R264, R303, R426 to R428): allocation, RUN, COMMIT and
its application, completion records, and the life of an instance. -/
namespace Sys2Proof.Machine

/-! ## Completion records (R233 to R236) -/

/-- A completion record without its Phase. -/
def completion (slate status flags token pos time step : Nat) : Nat :=
  slate % 2 ^ 24 * 2 ^ 232 + status % 256 * 2 ^ 224 + flags % 256 * 2 ^ 216 + token % 2 ^ 32 * 2 ^ 176 + pos % 2 ^ 25 * 2 ^ 151
    + time % 2 ^ 64 * 2 ^ 64 + step % 2 ^ 48 * 2 ^ 16

/-- The completion ring: its address and entries. -/
def State.cplRing (s : State) (p : Nat) : Nat × Nat := (s.eff' (pk 0x583F (p + 1)), max 1 (s.eff' (pk 0x5840 (p + 1))))

/-- The ring has room for a record and is reached. -/
def State.cplRoom (s : State) (p : Nat) : Bool :=
  s.ringUp (s.cplRing p).1 && decide (ahead (s.inst p).cplCount (s.door p 4) < (s.cplRing p).2)

/-- The port that carries CompletionVector (R476). -/
def State.cplPort (s : State) (p : Nat) : Option Nat :=
  match tierOf (s.cplRing p).1 with
  | .host h => some h
  | _ => (List.range 4).find? fun h => bit (s.par (pk 0x5002 (p + 1))) h && (s.hostPort h).up

/-- Record k goes into the ring, with its Phase. -/
def putRecord (p r : Nat) : M Unit := do
  let s ← get
  let k := (s.inst p).cplCount
  let ring := s.cplRing p
  storeVal .rings (ring.1 + k % ring.2 * 32) 32 (r + (1 - k / ring.2 % 2) * 2 ^ 215)
  setInst p fun i => { i with cplCount := (k + 1) % 2 ^ 32 }

/-- One record of a COMMIT: into the ring, or into the spill queue. -/
def writeRecord (p r : Nat) : M Unit := do
  let s ← get
  if (s.inst p).spill.isEmpty && s.cplRoom p then putRecord p r
  else do
    setInst p fun i => { i with spill := i.spill ++ [r] }
    bump (pk 0x8045 9) 1

/-- Spilled records move into the ring in order as space allows; fuel bounds them. -/
def moveSpill (p : Nat) : Nat → M Unit
  | 0 => skip
  | fuel + 1 => do
    let s ← get
    match (s.inst p).spill with
    | [] => skip
    | r :: rest =>
      if s.cplRoom p then do
        putRecord p r
        setInst p fun i => { i with spill := rest }
        moveSpill p fuel
      else skip

/-- CompletionVector goes to the host (R476). -/
def cplVector (p : Nat) : M Unit := do
  let s ← get
  match s.cplPort p with
  | some h => sendMsix h (s.eff' (pk 0x5841 (p + 1)))
  | none => skip

/-- The records of one outcome (R236). -/
def outcomeRecords (o time step base : Nat) (tokens : List Nat) : List Nat :=
  let slate := oSlate o
  let every := oFlags o &&& 5
  let n := min (oAccepted o) tokens.length
  if n == 0 then [completion slate (oStatus o) (oFlags o) 0xFFFFFFFF base time step]
  else ((tokens.take n).zipIdx).map fun t =>
    if t.2 + 1 == n then completion slate (oStatus o) (oFlags o) t.1 (base + t.2) time step
    else completion slate 0 every t.1 (base + t.2) time step

/-- Free completion space of a home (R227). -/
def State.cplSpace (s : State) (p : Nat) : Nat :=
  ((s.cplRing p).2 - ahead (s.inst p).cplCount (s.door p 4)) + (262144 - (s.inst p).spill.length)

/-- What this module acknowledges with. -/
def State.ackOf (s : State) (p : Nat) : Ack :=
  ⟨s.rank p, (List.range 12).map (s.availFrames p), s.cplSpace p, s.beGateOpen, (s.inst p).segs⟩

/-! ## Allocation (R171, R221, R239) -/

/-- The call sheet of a step. -/
def Inst.sheet (i : Inst) (step : Nat) : CallSheet := (lookup i.sheets step).getD ⟨0, [], [], [], [], [], [], [], []⟩

/-- Take-list entries of the given operations for this module, in list order. -/
def State.entriesFor (s : State) (p : Nat) (c : CallSheet) (ops : List Nat) : List Nat :=
  c.take.filter fun e => ops.contains (tkOp e) && tkHolder e == some (s.rank p)

/-- The runs of the step's prefill chunks whose frames this module holds, as the Director builds their output format records from the
frame numbers it has just given (R26, R166). -/
def State.stepRuns (s : State) (p : Nat) (c : CallSheet) : List KvRun :=
  (c.prefill.filter fun e => pfHolder e == s.rank p).flatMap fun e => s.chunkRuns p (pfSlate e) (pfBase e) (pfBase e + pfTokens e)

/-- The frame numbers of a step are allocated (R171): run list, then prefill list, in increasing token order. -/
def allocateStep (p step : Nat) : M Unit := do
  let s ← get
  let c := (s.inst p).sheet step
  let me := s.rank p
  each (c.run.filter fun e => aNew e == me) fun e =>
    each (framesOpened (aPos e) (aPos e + aCount e - 1)) fun j => allocFrame p (aSlate e) j
  each (c.prefill.filter fun e => pfHolder e == me) fun e =>
    each (framesOpened (pfBase e) (pfBase e + pfTokens e - 1)) fun j => allocFrame p (pfSlate e) j
  refreshAvail p
  syncReels
  let s ← get
  setInst p fun i => { i with allocated := i.allocated ++ [step], todo := [], kvOut := s.stepRuns p c }

/-- The allocation of a step goes on (R239): COPY and UNPARK entries give their frames in list order, up to the next ATTACH entry;
after the last entry, the step's frames are given. Fuel bounds the entries. -/
def advanceAlloc (p step : Nat) : Nat → M Unit
  | 0 => allocateStep p step
  | fuel + 1 => do
    let s ← get
    match (s.inst p).todo with
    | [] => allocateStep p step
    | e :: rest =>
      if tkOp e == 2 then skip
      else do
        if tkOp e == 3 then allocCopy p e else allocUnpark p e
        setInst p fun i => { i with todo := rest }
        advanceAlloc p step fuel

/-- Fields of take-list entries for this module that are outside their range (R238): DraftCount, and the ValidTokens of COPY and
INSERT. -/
def State.entryClamps (s : State) (p : Nat) (c : CallSheet) : Nat :=
  let out := fun (hi v : Nat) => decide (clampTo 1 hi v ≠ v)
  ((c.take.filter fun e => tkOp e == 1 && c.run.any fun r => aSlate r == bits e 251 228 && aHome r == s.rank p).filter
      fun e => out 32 (bits e 227 222)).length
    + ((s.entriesFor p c [3]).filter fun e => out 15 (bits e 176 172)).length
    + ((s.entriesFor p c [4]).filter fun e => out 16 (bits e 171 167)).length

/-- A call sheet is held (R36, R219 to R221): admitted sequences homed here enter the home table, and allocation begins. At the lead
it is the sheet of its own plan. DESIGN CHOICE (notes/assumptions/37): unsafe. -/
def receiveSheet (p : Nat) (c : CallSheet) : M Unit := do
  let s ← get
  let i := s.inst p
  let own := !s.isLead p || (match i.plan with | some n => decide (n.sheet = c) | none => false)
  let next := i.nextApply == anyStep || i.nextApply == (csStep c)
  if s.serving p && own && next && (csInst c) == s.eff' (pk 0x5830 (p + 1)) && (lookup i.sheets (csStep c)).isNone && i.run.isNone then do
    clampDesc ((c.take.filter fun e => decide (7 < tkOp e)).length + s.entryClamps p c)
    storeTwice (s.sheetBuffer p (csStep c)) (sheetBytes c)
    -- a follower's PLAN of the step: its parameters, and a placement reload (R124, R237)
    onlyIf (!s.isLead p) (planLatch p)
    setInst p fun i => { i with
      phase := if i.phase == .starting && !s.isLead p then .running else i.phase
      nextApply := (csStep c)
      sheets := insertAt i.sheets (csStep c) c
      homes := (c.admits.filter fun a => adHome a == s.rank p).foldl (fun l a => insertAt l (adSlate a) ⟨a, 0, false, false⟩) i.homes
      todo := s.entriesFor p c [2, 3] ++ s.entriesFor p c [7] }
    advanceAlloc p (csStep c) c.take.length
  else skip

/-- The ATTACH entry that the allocation has come to is applied (R239, R246). -/
def attachEntry (p : Nat) : M Unit := do
  let s ← get
  let i := s.inst p
  if i.run.isSome || i.applying.isSome then skip
  else
    match i.todo with
    | [] => skip
    | e :: rest =>
      if tkOp e == 2 then do
        applyAttach p e
        setInst p fun i => { i with todo := rest }
        advanceAlloc p i.nextApply rest.length
      else skip

/-! ## RUN (R36, R252, R276) -/

/-- DraftCount of a TAKE entry (R238), 1 to 32. -/
def draftCount (e : Nat) : Nat := clampTo 1 32 (bits e 227 222)

/-- The drafts a home feeds for a take (R252, R254): the entry is empty where its header changes or names another
position, and a row without a draft gets token 0. -/
def readDrafts (p slate d committed : Nat) : M (List Nat) := do
  let s ← get
  let a := s.eff' (pk 0x5855 (p + 1)) + 256 * slate
  let w := whoOf 80 p
  let h ← load w a 8
  let ts ← load w (a + 64) 128
  let h' ← load w a 8
  let n := if h.val == h'.val && bits h.val 24 0 == committed then min 32 (bits h.val 37 32) else 0
  pure ((List.range d).map fun i => if i < n then bits ts.val (32 * i + 31) (32 * i) else 0)

/-- Expert switch of a step (R276). -/
def switchTable (p step : Nat) : M Unit := do
  let s ← get
  if s.par (pk 0x5872 (p + 1)) ≤ step then do
    setPar (pk 0x5870 (p + 1)) (s.par (pk 0x5871 (p + 1)))
    setInst p fun i => { i with location := s.par (pk 0x5871 (p + 1)) }
  else skip

/-- The storyboard of a step starts (R125, R126): its header and its layer cue are read, each a counted access (R97, R123); what the one
before wrote is fetched again no more (R107). -/
def startStory (p a : Nat) : M Unit := do
  let s ← get
  let gone := (s.ecc.tried).filter fun c => match s.wroteBy c with | some (q, _) => q == p | none => true
  modify fun t => { t with
    stories := eraseKey t.stories p
    ecc := { t.ecc with tried := t.ecc.tried.filter fun c => !gone.contains c, fetched := t.ecc.fetched.filter fun c => !gone.contains c } }
  if a == 0 then skip
  else do
    let h ← load (storyWho p 0) a 64
    if h.poisoned then storyBad p a
    else do
      let f ← load (.cue p) (hdrLayerCue h.val) 8
      modify fun t => { t with stories := insertAt t.stories p ⟨a, f.val, [], [], []⟩ }

/-- RUN of the next step starts. -/
def beginRun (p n : Nat) : M Unit := do
  let s ← get
  let i := s.inst p
  let c := i.sheet n
  let me := s.rank p
  if s.enginesRun then do
    each [0x5880, 0x5881, 0x5882, 0x5883] fun k => do
      let v ← par (pk k (p + 1))
      setEff (pk k (p + 1)) v
    switchTable p n
    let takes := c.take.filter fun e => tkOp e == 1 && c.run.any fun r => aSlate r == bits e 251 228 && aHome r == me
    let due := (c.prefill.filter fun e => pfHolder e == me && pfHome e != me).map pfSlate
    let await := (c.prefill.filter fun e => pfHolder e != me && pfHome e == me).map pfSlate
    let feeds ← collect takes fun e => do
      let slate := bits e 251 228
      let pos := ((c.run.find? fun r => aSlate r == slate).map aPos).getD 0
      let l ← readDrafts p slate (draftCount e) (pos + 1)
      pure (slate, l)
    setInst p fun i => { i with
      run := some n, broken := false, reported := false, rerun := false, sent := [], feeds := feeds, props := [], drafts := [],
      poisoned := [], fellBack := [], normFault := [], words := await, wordsDue := due,
      todo := takes ++ s.entriesFor p c [6] ++ s.entriesFor p c [3] ++ s.entriesFor p c [7], segs := [], watches := [], fbCues := 0,
      merged := none, producers := [], fbRows := (0, 0), normEvents := [], issued := [], gone := (List.range 64).filter fun e => (s.engine e).retired,
      runBase := i.base, expCues := [0, 0, 0, 0], exch := [] }
    let t ← get
    setInst p fun i => { i with rows := (t.originRows p).length }
    startStory p (csStory c)
    writeWalk p n c.run
    recheckHeld p n
  else skip

/-- The Director starts RUN on a module (R210, R211, R219): both copies of the buffer of its sheet and of the reels are read (R411), where
an uncorrectable both leads to module-fatal handling, and RUN begins where the engines still run. -/
def runStart (p : Nat) : M Unit := do
  let s ← get
  let i := s.inst p
  let n := i.nextApply
  if s.serving p && s.enginesRun && i.run.isNone && i.applying.isNone && i.allocated.contains n && (lookup i.sheets n).isSome then do
    readCopies (s.sheetBuffer p n) (secondCopy (s.sheetBuffer p n)) (sheetBytes (i.sheet n))
    readReels p
    beginRun p n
  else skip

/-- A take-list entry of RUN is done. -/
def doneEntry (p e : Nat) : M Unit := setInst p fun i => { i with todo := i.todo.filter (· != e) }

/-- The next entry of an operation that RUN still has to apply (R239). -/
def runEntry (p op : Nat) (f : Nat → M Unit) : M Unit := do
  let s ← get
  match (s.inst p).run, (s.inst p).todo.find? fun e => tkOp e == op with
  | some _, some e => do
    f e
    doneEntry p e
  | _, _ => skip

/-! ## Proposals (R209, R222, R254) -/

/-- A token at a position completes a sequence (R209). -/
def completes (admits pos token : Nat) : Bool :=
  (samplerOf (adSampler admits)).1.stops.contains token || decide (adMaxNew admits ≤ pos + 1 - adPrompt admits)
    || decide (16777216 ≤ pos + 1)

/-- The tokens proposed from position pos on: none after the first that completes; and whether one does. -/
def cutTokens (admits : Nat) : List Nat → Nat → List Nat × Bool
  | [], _ => ([], false)
  | t :: l, pos =>
    if completes admits pos t then ([t], true)
    else
      let r := cutTokens admits l (pos + 1)
      (t :: r.1, r.2)

/-- Leading drawn tokens that equal the drafts (R254). -/
def matchDrafts : List Nat → List Nat → Nat
  | t :: ts, d :: ds => if t == d then matchDrafts ts ds + 1 else 0
  | _, _ => 0

/-- The home reads drawn tokens; poisoned ones mark the sequence. -/
def readDrawn (p slate a n : Nat) : M (List Nat) := do
  let r ← load .director a (4 * n)
  onlyIf r.poisoned (markPoisoned p slate)
  pure ((List.range n).map fun i => bits r.val (32 * i + 31) (32 * i))

/-- A drawn token that stands for logits without a finite value (R232): the home sets NormFault, and proposes none. -/
def noToken (p slate : Nat) (ts : List Nat) : M Unit :=
  onlyIf (ts.contains 0xFFFFFFFF) (setInst p fun i => { i with normFault := mark i.normFault slate })

/-- TAKE (R254): the home reads the drawn tokens of the rows and proposes the accepted prefix. -/
def takeEntry (p slate tokenAddr : Nat) : M Unit := do
  let s ← get
  let i := s.inst p
  match i.run, i.todo.find? (fun e => tkOp e == 1 && bits e 251 228 == slate) with
  | some _, some e => do
    let d := draftCount e
    let drawn ← readDrawn p slate tokenAddr (d + 1)
    let a := matchDrafts (drawn.take d) ((lookup i.feeds slate).getD [])
    let rows := drawn.take (a + 1)
    noToken p slate rows
    setInst p fun i => { i with drafts := insertAt i.drafts slate a }
    match lookup i.homes slate with
    | some h => setInst p fun i => { i with
        props := insertAt i.props slate (cutTokens h.admits (rows.takeWhile (· != 0xFFFFFFFF)) h.committed).1 }
    | none => skip
    doneEntry p e
  | _, _ => skip

/-- The RUN report entry of a slate (R222, R303). -/
def State.reportEntry (s : State) (p slate : Nat) : Nat :=
  let i := s.inst p
  let ts := (lookup i.props slate).getD []
  let h := lookup i.homes slate
  let pos := match h with
    | some h => (if h.committed == 0 then adPrompt h.admits else h.committed)
    | none => 0
  let ends := match h with
    | some h => (cutTokens h.admits ts pos).2
    | none => false
  let fb := i.fellBack.contains slate || (match h with | some h => h.fallback | none => false)
  let nf := i.normFault.contains slate || (match h with | some h => h.fault | none => false)
  slate * 2 ^ 40 + ts.length % 2 ^ 6 * 2 ^ 34 + b2n ends * 2 ^ 33 + b2n (i.poisoned.contains slate) * 2 ^ 32 + b2n fb * 2 ^ 31
    + b2n nf * 2 ^ 30

/-- The slates a home reports: run entries in order, then Last prefill entries. -/
def csReported (c : CallSheet) (me : Nat) : List Nat :=
  ((c.run.filter fun e => aHome e == me).map aSlate) ++ ((c.prefill.filter fun e => pfHome e == me && pfLast e).map pfSlate)

/-- The lead holds a report. DESIGN CHOICE (notes/assumptions/37): unsafe. -/
def takeReport (p rank : Nat) (entries : List Nat) : M Unit := do
  let s ← get
  let i := s.inst p
  if s.isLead p && i.plan.isSome && i.notice.isNone && decide (rank < s.instSize p) && (lookup i.reports rank).isNone then
    setInst p fun i => { i with reports := insertAt i.reports rank entries }
  else skip

/-- A module's own RUN report. draws: where the token of each sequence without a take was drawn. -/
def ownReport (p : Nat) (draws : List (Nat × Nat)) : M Unit := do
  let s ← get
  let i := s.inst p
  match i.run with
  | none => skip
  | some n =>
    if i.broken || i.reported || !i.todo.isEmpty || !i.words.isEmpty || !i.wordsDue.isEmpty
        || i.watches.any (fun r => r.stage != .closed) || !s.stepDone p then skip
    else do
      let c := i.sheet n
      let slates := csReported c (s.rank p)
      each (slates.filter fun q => (lookup i.props q).isNone) fun q =>
        match lookup i.homes q, draws.find? fun d => d.1 == q with
        | some h, some d => do
          let ts ← readDrawn p q d.2 1
          noToken p q ts
          let pos := if h.committed == 0 then adPrompt h.admits else h.committed
          setInst p fun i => { i with props := insertAt i.props q (cutTokens h.admits (ts.takeWhile (· != 0xFFFFFFFF)) pos).1 }
        | _, _ => skip
      let s ← get
      let entries := slates.map (s.reportEntry p)
      setInst p fun i => { i with reported := true }
      if s.isLead p then takeReport p (s.rank p) entries
      else emit (.report (s.leadRank p) p entries)

/-- A norm word sent by a holder, or received by the home (R303). -/
def normWord (p : Nat) (m : NormMsg) : M Unit := do
  let s ← get
  let i := s.inst p
  match m with
  | .own q =>
    match i.run, i.wordsDue.contains q && s.stepDone p && i.watches.all (fun r => r.stage == .closed) with
    | some n, true => do
      let home := (((i.sheet n).prefill.find? fun e => pfSlate e == q).map pfHome).getD 0
      emit (.normWord home p (q * 2 ^ 40 + b2n (i.fellBack.contains q) * 2 ^ 39 + b2n (i.normFault.contains q) * 2 ^ 38))
      setInst p fun i => { i with wordsDue := i.wordsDue.filter (· != q) }
    | _, _ => skip
  | .word w =>
    let q := bits w 63 40
    if i.words.contains q then
      setInst p fun i => { i with
        words := i.words.filter (· != q)
        fellBack := if bit w 39 then mark i.fellBack q else i.fellBack
        normFault := if bit w 38 then mark i.normFault q else i.normFault }
    else skip

/-! ## Deciding COMMIT (R223 to R226, R426, R427) -/

/-- A slate's context was torn down. -/
def State.torn (s : State) (p v : Nat) : Bool :=
  !(decide ((s.ctx p (slCtx v)).st = .opened) && (s.ctx p (slCtx v)).gen == slGen v)

/-- A sequence was cancelled (R223). -/
def State.cancelSeen (s : State) (p v : Nat) : Bool := slCancel v || decide ((s.inst p).phase = .stopping)

/-- A sequence's deadline has passed (R223). -/
def deadlinePassed (v time : Nat) : Bool := slDeadline v != 0 && decide (slDeadline v ≤ time)

/-- The report entry of a slate. -/
def Inst.entryOf (i : Inst) (slate : Nat) : Nat :=
  (((i.reports.flatMap fun r => r.2).find? fun e => bits e 63 40 == slate)).getD 0

/-- The outcome of a sequence that ran (R223), none for the first Poisoned (R426). -/
def State.decideRan (s : State) (p time : Nat) (q : LeadSeq) (last : Bool) : Option Nat :=
  let v := s.slate p q.slate
  let e := (s.inst p).entryOf q.slate
  let late := deadlinePassed v time
  let base := b2n late + 4 * b2n (bit e 31) + 8 * b2n (slWasHeld v)
  let cancel := s.cancelSeen p v
  let n := bits e 39 34
  let mk := fun (st flags acc : Nat) => some (outcome q.slate st flags acc)
  if s.torn p v then mk 7 base 0
  else if bit e 32 then (if last || q.poison then mk 5 base 0 else none)
  else if bit e 30 then mk 8 base 0
  else if bit e 33 then mk 1 (base + 2 * b2n cancel) n
  else if cancel then mk 2 base 0
  else if late then mk 3 base n
  else mk 0 base n

/-- The outcome of a sequence that did not run (R224); rows 5 only where `parks`. -/
def State.decideIdle (s : State) (p time : Nat) (n : PlanNote) (q : LeadSeq) (parks : Bool) : Option Nat :=
  let v := s.slate p q.slate
  let late := deadlinePassed v time
  let base := b2n late + 8 * b2n (slWasHeld v)
  let leave := n.sheet.leave.any fun l => bits l 63 40 == q.slate && bits l 39 32 == 4
  let mk := fun (st flags : Nat) => some (outcome q.slate st flags 0)
  if n.lost.contains q.slate then mk 5 base
  else if leave then mk 4 (base - 8 * b2n (slWasHeld v) + 8)
  else if s.torn p v then mk 7 base
  else if s.cancelSeen p v then mk 2 base
  else if late then mk 3 base
  else if parks && n.parks.contains q.slate then mk 9 base
  else if n.budget.contains q.slate then mk 0xA 0
  else none

/-- A sequence of the running step: 0 did not run, 1 run entry, 2 Last prefill entry. -/
def csRan (c : CallSheet) (slate : Nat) : Nat :=
  if c.run.any fun e => aSlate e == slate then 1
  else if c.prefill.any fun e => pfSlate e == slate && pfLast e then 2
  else 0

/-- Users falls by 1 along the chain of nodes a sequence named (R251); fuel bounds the chain. -/
def dropUsers : Nat → Nat → M Unit
  | 0, _ => skip
  | fuel + 1, n =>
    if n == noNode then skip
    else do
      let s ← get
      let v := s.node n
      if s.nodeBad n then loseNode n
      else setNode n fun w => { w with users := w.users - 1 }
      dropUsers fuel v.parent

/-- The users of the chain of nodes that a sequence names fall (R251). -/
def dropChain (q : LeadSeq) : M Unit :=
  match q.node with
  | none => skip
  | some n => dropUsers 1048577 n

/-- LastProgressStep of a slate after a step that delivers acc tokens (R227). -/
def progressed (step acc v : Nat) : Nat := if acc == 0 then v else setBits v 479 432 step

/-- The lead retires a sequence: its slate, its nodes and its can. -/
def retire (p step : Nat) (q : LeadSeq) (committed status acc : Nat) : M Unit := do
  dropChain q
  setSlate p q.slate fun v => progressed step acc
    (setBits (setBits (setBits (setBits (setBits v 979 977 stRetired) 813 806 status) 951 927 committed) 976 952 committed) 305 305 0)
  setInst p fun i => { i with
    seqs := i.seqs.filter fun r => r.slate != q.slate
    parkQueue := i.parkQueue.filter fun r => r.slate != q.slate }

/-- A slate read as poisoned is rewritten whole as RETIRED (R411). -/
def retireLost (p : Nat) (q : LeadSeq) : M Unit := do
  let s ← get
  if s.slateBad p q.slate then do
    dropChain q
    storeVal .director (s.slateAddr p q.slate) 128
      (q.slate * 2 ^ 1000 + p * 2 ^ 997 + q.committed * 2 ^ 952 + q.committed * 2 ^ 927 + q.home * 2 ^ 846 + 5 * 2 ^ 806)
    setInst p fun i => { i with
      seqs := i.seqs.filter fun r => r.slate != q.slate
      parkQueue := i.parkQueue.filter fun r => r.slate != q.slate }
  else retire p 0 q q.committed 5 0

/-- The deepest node before a step's insertions for a sequence. -/
def nodeBefore (c : CallSheet) (q : LeadSeq) : Option Nat :=
  match c.take.find? fun e => tkOp e == 4 && bits e 251 228 == q.slate with
  | none => q.node
  | some e => if bits e 202 178 == noNode then none else some (bits e 202 178)

/-- INSERT entries at the lead (R249): VALID where applied, else FREE. Frame numbers that stand in the node until an EVICT of the same
step is applied (R250) stay in it. -/
def settleInsert (ok : Nat → Bool) (e : Nat) : M Unit := do
  let n := bits e 227 203
  if ok e then do
    setNode n fun v => { v with st := 2 }
    let parent := bits e 202 178
    onlyIf (parent != noNode) (setNode parent fun v => { v with children := v.children + 1 })
  else setNode n fun v => if v.frames.isEmpty then PNode.free else { PNode.free with frames := v.frames, p := v.p }

/-- The lead takes one sequence's step into its slate and its own record (R208, R227, R255, R262 to R264). -/
def settle (p step : Nat) (n : PlanNote) (o : Option Nat) (q : LeadSeq) : M Unit := do
  let c := n.sheet
  let kind := csRan c q.slate
  let acc := (o.map oAccepted).getD 0
  let status := (o.map oStatus).getD 0xFF
  let chunk := c.prefill.find? fun e => pfSlate e == q.slate
  let before := match chunk with
    | some e => if kind == 2 && acc != 0 then pfBase e + pfTokens e else q.committed
    | none => q.committed
  let committed := before + acc
  if n.lost.contains q.slate then retireLost p q
  else if finalStatus status then retire p step q committed status acc
  else if status == 9 then do
    dropChain q
    setSlate p q.slate fun v => setBits (setBits v 979 977 stParked) 305 305 0
    setSeq p q.slate fun q => { q with state := stParked, frames := 0, node := none }
    setInst p fun i => { i with parkQueue := (n.asked.filter fun r => r.slate == q.slate).foldl List.erase i.parkQueue }
  else if n.unparks.any fun r => r.slate == q.slate then do
    let dl := ((n.unparks.find? fun r => r.slate == q.slate).map fun r => r.deadline).getD 0
    setSlate p q.slate fun v => setBits (setBits (setBits v 979 977 stReady) 431 384 step) 735 672 dl
    setSeq p q.slate fun q => { q with state := stReady, frames := ceilDiv (q.committed - 1) 16, cans := [] }
    setInst p fun i => { i with parkQueue := (n.unparks.filter fun r => r.slate == q.slate).foldl List.erase i.parkQueue }
  else if kind == 1 then do
    -- a first Poisoned keeps the state (R426)
    let st := if o.isNone then q.state else stDecoding
    onlyIf o.isNone (bump (pk 0x8052 11) 1)
    setSlate p q.slate fun v =>
      let w := setBits (setBits (setBits v 979 977 st) 951 927 committed) 976 952 committed
      if o.isNone then w else progressed step acc (setBits (setBits w 829 814 0) 305 305 0)
    setSeq p q.slate fun q => { q with
      state := st, committed := committed, poison := o.isNone, frames := min q.frames ((committed - 1) / 16 + 1),
      reels := q.reels.take (ceilDiv (min q.frames ((committed - 1) / 16 + 1)) 16) }
  else
    match chunk with
    | some e => do
      let st := if kind == 2 then stReady else stPrefill
      setSlate p q.slate fun v =>
        let w := setBits (setBits v 979 977 st) 976 952 (if kind == 2 then committed else 0)
        if kind == 2 then progressed step acc (setBits (setBits w 951 927 committed) 431 384 step) else w
      setSeq p q.slate fun q => { q with state := st, committed := if kind == 2 then committed else 0, written := pfBase e + pfTokens e }
    | none =>
      if n.held.contains q.slate then do
        setSlate p q.slate fun v => setBits (setBits (setBits v 979 977 stHeld) 829 814 (slHeld v + 1)) 305 305 1
        setSeq p q.slate fun q => { q with state := stHeld }
      else if n.heldOther.contains q.slate then do
        setSlate p q.slate fun v => setBits (setBits v 979 977 stHeld) 305 305 1
        setSeq p q.slate fun q => { q with state := stHeld }
      else skip

/-- What an abandoned step leaves of a live sequence (R226, R251, R264): what its plan took stands as before, insertions that the plan
ended included. -/
def unsettle (p : Nat) (n : PlanNote) (o : Option Nat) (q : LeadSeq) : M Unit := do
  let c := n.sheet
  let status := (o.map oStatus).getD 0xFF
  let chunk := c.prefill.any fun e => pfSlate e == q.slate
  if n.lost.contains q.slate then retireLost p q
  else if finalStatus status then retire p (csStep c) q q.committed status 0
  else if chunk then do
    onlyIf (q.state == stQueued) (dropChain q)
    setSlate p q.slate fun v => setBits v 976 952 q.committed
    setSeq p q.slate fun q =>
      let r := { q with noInsert := q.noInsert && !n.barred.contains q.slate }
      if q.state == stQueued then { r with reels := [], written := 0, frames := 0, node := none }
      else { r with frames := ceilDiv q.written 16, node := nodeBefore c q }
  else if csRan c q.slate == 1 then do
    setSlate p q.slate fun v => setBits v 976 952 q.committed
    setSeq p q.slate fun q => { q with frames := min q.frames ((q.committed - 1) / 16 + 1),
                                       reels := q.reels.take (ceilDiv (min q.frames ((q.committed - 1) / 16 + 1)) 16) }
  else if q.state != stParked then setSeq p q.slate fun q => { q with cans := [] }
  else skip

/-- The order of outcomes (R225). -/
def noticeOrder (c : CallSheet) (os : List (Nat × Nat)) : List Nat :=
  let run := c.run.filterMap fun e => lookup os (aSlate e)
  let rest := os.filterMap fun o => if csRan c o.1 == 1 then none else some o.2
  run ++ rest

/-- A draining or stopping instance has no live sequence left (R199). DESIGN CHOICE (notes/assumptions/36): safe. -/
def State.ending (s : State) (p : Nat) : Bool :=
  let i := s.inst p
  i.seqs.isEmpty && (decide (i.phase = .draining) || decide (i.phase = .stopping))

/-- The lead has settled its slates: it brings the reel maps up to date, says whether the instance stops with this step (R199), writes
the notice (R225) and publishes it. -/
def publish (p : Nat) (m : Notice) : M Unit := do
  syncMaps p
  let s ← get
  let n := { m with ends := s.ending p }
  storeTwice (s.noticeAddr p) (noticeBytes n)
  setInst p fun i => { i with plan := none, notice := some n, epoch := n.nextEpoch }
  each (s.otherRanks p) fun r => emit (.commit r p n)

/-- The notice a decision makes. -/
def State.noticeOf (s : State) (p time : Nat) (n : PlanNote) (abandoned : Bool) (os : List (Nat × Nat)) : Notice :=
  let i := s.inst p
  let change := abandoned || !n.sheet.join.isEmpty || os.any fun o => finalStatus (oStatus o.2) || oStatus o.2 == 9
  ⟨s.eff' (pk 0x5830 (p + 1)), csStep n.sheet, time, abandoned, if change then (i.epoch + 1) % 2 ^ 16 else i.epoch,
    noticeOrder n.sheet os, os.map fun o => (o.1, ((i.seq o.1).map fun q => (q.home, q.committed, slCtx (s.slate p o.1))).getD (0, 0, 0)), false⟩

/-- What is left of the cancel ring is read: at most 4,096 entries for a COMMIT (R201). -/
def readCancels (p : Nat) : M Unit := do
  let s ← get
  each (List.range (min (commitCancels - (s.inst p).cancelAhead) (s.cancelsWaiting p))) fun _ => takeCancel p
  setInst p fun i => { i with cancelAhead := 0 }

/-- The drafts that a take accepted (R254): a where the sequence's home is the lead itself; of another home the lead knows its Accepted
tokens only, which are a + 1 where R209 did not cut them. DESIGN CHOICE (notes/assumptions/58): unsafe. -/
def Inst.takeAccepted (i : Inst) (slate accepted : Nat) : Nat :=
  if accepted == 0 then 0 else (lookup i.drafts slate).getD (accepted - 1)

/-- The lead's counts of takes and insertions at COMMIT (R265). -/
def countTakes (p : Nat) (c : CallSheet) (os : List (Nat × Nat)) : M Unit := do
  let s ← get
  each (c.take.filter fun e => tkOp e == 1) fun e => do
    bump (pk 0x8046 7) 1
    bump (pk 0x8046 8) (draftCount e)
    bump (pk 0x8046 9) ((s.inst p).takeAccepted (bits e 251 228) (((lookup os (bits e 251 228)).map oAccepted).getD 0))

/-- COMMIT of the planned step, once every RUN report is held. -/
def commitStep (p : Nat) : M Unit := do
  let s ← get
  let i := s.inst p
  match i.plan, i.notice with
  | some n, none =>
    if s.isLead p && i.reports.length == s.instSize p then do
      let time := s.now
      readCancels p
      let s ← get
      let seqs := (s.inst p).seqs
      let dec := seqs.map fun q =>
        let k := csRan n.sheet q.slate
        (q, if n.lost.contains q.slate || k == 0 then s.decideIdle p time n q true else s.decideRan p time q (k == 2))
      let os := dec.filterMap fun d => d.2.map fun o => (d.1.slate, o)
      let notice := s.noticeOf p time n false os
      each dec fun d => settle p (csStep n.sheet) n d.2 d.1
      let inserts := n.sheet.take.filter fun e => tkOp e == 4
      let applies := fun e =>
        match lookup os (bits e 251 228) with
        | none => true
        | some o => !(finalStatus (oStatus o) && oAccepted o == 0)
      each inserts (settleInsert applies)
      bump (pk 0x8046 3) (inserts.filter applies).length
      countTakes p n.sheet os
      publish p notice
    else skip
  | _, _ => skip

/-- The ranks of the instance that are absent. -/
def State.absentRanks (s : State) (p : Nat) : List Nat :=
  (List.range (s.instSize p)).filter fun r => bit (s.par (pk 0x4011 (p + 1))) r

/-- A live sequence lost state on a rank (R427). -/
def State.onRank (s : State) (p : Nat) (q : LeadSeq) (r : Nat) : Bool :=
  q.home == r || ((List.range (ceilDiv q.frames 16)).any fun k => s.reelRank p q k == r) || q.cans.any fun c => c.holder == r

/-- The lead abandons the planned step (R226); sequences that lost state on an absent rank get PEER_RESET (R427). all: every
live sequence does (R369). -/
def abandonWith (p : Nat) (n : PlanNote) (all : Bool) : M Unit := do
  readCancels p
  let s ← get
  let time := s.now
  let gone := s.absentRanks p
  let peer := fun q => all || gone.any (s.onRank p q)
  let dec := (s.inst p).seqs.map fun q =>
    let v := s.slate p q.slate
    (q, if peer q then some (outcome q.slate 6 (b2n (deadlinePassed v time) + 8 * b2n (slWasHeld v)) 0)
        else s.decideIdle p time n q false)
  let os := dec.filterMap fun d => d.2.map fun o => (d.1.slate, o)
  let notice := s.noticeOf p time n true os
  each gone fun r => do
    let k := ((s.inst p).seqs.filter fun q => s.onRank p q r).length
    onlyIf (decide (0 < k)) (raiseEvent 0x45 p 0 (r + k * 2 ^ 8))
  each dec fun d => unsettle p n d.2 d.1
  each (n.sheet.take.filter fun e => tkOp e == 4) (settleInsert fun _ => false)
  modify fun s => { s with nodes := s.nodes.filter fun x => !(x.2.p == p && gone.contains x.2.holder && x.2.st != 0) }
  publish p notice

/-- The lead abandons the running step: a RUN report is 500 ms late, or a rank is absent. -/
def abandonStep (p : Nat) : M Unit := do
  let s ← get
  let i := s.inst p
  match i.plan, i.notice with
  | some n, none =>
    let late := decide (n.time + 500000000 ≤ s.now) && decide (i.reports.length < s.instSize p)
    if s.isLead p && (late || !(s.absentRanks p).isEmpty) then abandonWith p n false else skip
  | _, _ => skip

/-! ## Applying COMMIT (R227, R239, R249 to R251) -/

/-- An INSERT is applied (R249). -/
def appliesInsert (n : Notice) (e : Nat) : Bool :=
  !n.abandoned && (match outcomeFor n (bits e 251 228) with
    | none => true
    | some o => !(finalStatus (oStatus o) && oAccepted o == 0))

/-- The position of the first token of an outcome, or the committed length where it delivers none. -/
def Inst.recordBase (i : Inst) (n : Notice) (o : Nat) : Nat :=
  match lookup i.homes (oSlate o) with
  | some h => if oAccepted o != 0 && h.committed == 0 then adPrompt h.admits else h.committed
  | none => ((n.dests.find? fun d => d.1 == oSlate o).map fun d => d.2.2.1).getD 0

/-- The home of an outcome's sequence. -/
def Inst.outcomeHome (i : Inst) (n : Notice) (me o : Nat) : Bool :=
  (lookup i.homes (oSlate o)).isSome || (n.dests.any fun d => d.1 == oSlate o && d.2.1 == me)

/-- The records of a notice that this home writes. -/
def writeRecords (p : Nat) (n : Notice) : M Unit := do
  let s ← get
  let i := s.inst p
  let recs := (n.outcomes.filter (i.outcomeHome n (s.rank p))).flatMap fun o =>
    outcomeRecords o n.time n.step (i.recordBase n o) ((lookup i.props (oSlate o)).getD [])
  bump (pk 0x8045 3) (recs.filter fun r => bits r 207 176 != 0xFFFFFFFF).length
  let before := i.cplCount
  each recs (writeRecord p)
  let s ← get
  onlyIf ((s.inst p).cplCount != before) (cplVector p)

/-- Frame bytes of a sequence on the stacks of the step's segments (R265). -/
def State.canBytes (s : State) (p slate stack : Nat) : Nat :=
  ((s.canFrames p slate stack).map fun f => f.2.2 * (s.geom p).slot * (s.geom p).layers).foldl (· + ·) 0

/-- A context of the partition is being fenced on this module (R174). -/
def State.fencing (s : State) (p c : Nat) : Bool := decide ((s.ctx p c).st = .fencing)

/-- The sequence of an outcome belongs to a context that is being fenced here: its context, where it does. -/
def State.fencedCtx (s : State) (p : Nat) (n : Notice) (slate : Nat) : Option Nat :=
  ((n.dests.find? fun d => d.1 == slate).map fun d => d.2.2.2).filter (s.fencing p)

/-- A sequence leaves: its frames are released, or held while its context is fenced (R173, R174). DESIGN CHOICE
(notes/assumptions/63): safe. -/
def leaveSeq (p : Nat) (n : Notice) (slate : Nat) : M Unit := do
  let s ← get
  match s.fencedCtx p n slate with
  | some c => holdLate p slate c
  | none => releaseSeq p slate

/-- Frames a step's entries leave to be released (R173, R174, R227, R251, R264). -/
def releaseStep (p : Nat) (n : Notice) (c : CallSheet) : M Unit := do
  releaseLate p fun s ctx => s.fencing p ctx
  let s ← get
  each (c.run.filter fun e => (s.fencedCtx p n (aSlate e)).isNone) fun e =>
    releaseFrom p (aSlate e) ((aPos e + ((outcomeFor n (aSlate e)).map oAccepted).getD 0) / 16 + 1)
  onlyIf n.abandoned (do
    each (c.prefill.filter fun e => (s.fencedCtx p n (pfSlate e)).isNone) fun e =>
      if c.admits.any fun a => adSlate a == pfSlate e then releaseSeq p (pfSlate e) else releaseFrom p (pfSlate e) (ceilDiv (pfBase e) 16)
    each (c.take.filter fun e => tkOp e == 7 && (s.fencedCtx p n (bits e 251 228)).isNone) fun e => releaseSeq p (bits e 251 228))
  each (n.outcomes.filter fun o => finalStatus (oStatus o) || oStatus o == 9) fun o => leaveSeq p n (oSlate o)

/-- A holder's counters of committed parks and unparks (R265). -/
def countReuse (p : Nat) (n : Notice) (c : CallSheet) : M Unit := do
  let s ← get
  let i := s.inst p
  if n.abandoned then skip
  else do
    each (s.entriesFor p c [6]) fun e =>
      onlyIf (((outcomeFor n (bits e 251 228)).map oStatus) == some 9) (do
        bump (pk 0x8046 10) 1
        bump (pk 0x8046 12) (((i.segs.find? fun x => x.1 == bits e 251 228 && x.2.1 == bits e 221 218).map fun x => x.2.2).getD 0))
    each (s.entriesFor p c [7]) fun e =>
      onlyIf (outcomeFor n (bits e 251 228)).isNone (do
        bump (pk 0x8046 11) 1
        bump (pk 0x8046 13) (s.canBytes p (bits e 251 228) (bits e 221 218)))

/-- The segments that stay valid after a step (R264): those written for a park that did not take effect are void, and so are those of
a sequence that left or was unparked. -/
def Inst.cannedAfter (i : Inst) (n : Notice) (c : CallSheet) : List Canned :=
  let op := fun k slate => c.take.any fun e => tkOp e == k && bits e 251 228 == slate
  i.canned.filter fun x =>
    match outcomeFor n x.slate with
    | some o => !finalStatus (oStatus o)
    | none => !op 6 x.slate && (n.abandoned || !op 7 x.slate)

/-- The home table, the lengths and the segments after a step. Marks of chunks that are not Last stay with the sequence, unless the
step was abandoned (R303, R305). -/
def Inst.afterStep (i : Inst) (me : Nat) (n : Notice) (c : CallSheet) : Inst :=
  let gone := fun slate => match outcomeFor n slate with
    | some o => finalStatus (oStatus o) || oStatus o == 9
    | none => n.abandoned && ((c.admits.any fun a => adSlate a == slate) || c.take.any fun e => tkOp e == 7 && bits e 251 228 == slate)
  let acc := fun slate => ((outcomeFor n slate).map oAccepted).getD 0
  let lens := c.run.foldl (fun l e => insertAt l (aSlate e) (aPos e + 1 + acc (aSlate e))) i.lens
  let lens := if n.abandoned then lens else (c.prefill.filter pfLast).foldl (fun l e =>
    insertAt l (pfSlate e) (pfBase e + pfTokens e + acc (pfSlate e))) lens
  let part := fun slate => !n.abandoned && c.prefill.any fun e => pfSlate e == slate && pfHome e == me && !pfLast e
  let homes := i.homes.map fun h =>
    let ran := csRan c h.1
    let a := acc h.1
    (h.1, if ran == 1 then { h.2 with committed := h.2.committed + a }
      else if ran == 2 && a != 0 then { h.2 with committed := adPrompt h.2.admits + a, fallback := false, fault := false }
      else if part h.1 then
        { h.2 with fallback := h.2.fallback || i.fellBack.contains h.1, fault := h.2.fault || i.normFault.contains h.1 }
      else h.2)
  { i with
    homes := homes.filter fun h => !gone h.1
    canned := i.cannedAfter n c
    seqCtx := (n.dests.foldl (fun l d => insertAt l d.1 d.2.2.2) i.seqCtx).filter fun l => !gone l.1
    lens := lens.filter fun l => !gone l.1 }

/-- A reservation shrinks to the segment written (R260). -/
def shrinkCan (a : Ack) (slate : Nat) (c : Can) : Can :=
  match a.segs.find? (fun g => g.1 == slate && g.2.1 == c.stack && c.holder == a.rank) with
  | some g => { c with units := min c.units (ceilDiv g.2.2 4096) }
  | none => c

/-- The lead holds an acknowledgement; written segments shrink their reservations (R227, R260). -/
def holdAck (p : Nat) (a : Ack) : M Unit := setInst p fun i => { i with
  acks := i.acks ++ [a]
  seqs := i.seqs.map fun q => { q with cans := q.cans.map (shrinkCan a q.slate) } }

/-- FeedCue and MergeCue as they stand. -/
def State.attnWord (s : State) (p : Nat) (feed : Bool) : Nat :=
  let a := s.eff' (pk 0x580E (if feed then p + 1 else p + 9))
  if a == 0 then 0 else s.readVal (.cue p) a 8

/-- Where the next step's cue counts start (R190): after all N advances of each layer of this step, or where the words stand now if a
step that was broken off left them short. -/
def State.nextCueBase (s : State) (p : Nat) (ran : Bool) : Nat × Nat :=
  let n := if ran then s.instSize p * (s.geom p).layers else 0
  let at' := fun (base w : Nat) => if base + n ≤ w then base + n else w
  (at' (s.inst p).cueBase.1 (s.attnWord p true), at' (s.inst p).cueBase.2 (s.attnWord p false))

/-- The instance stops with the step that its lead's notice says (R199). DESIGN CHOICE (notes/assumptions/36): safe. -/
def endInstance (p : Nat) : M Unit := setInst p fun i => { i with phase := .stopped }

/-- The end of applying a notice: records, releases, home table, acknowledgement. -/
def finishApply (p : Nat) (n : Notice) : M Unit := do
  let s ← get
  let c := (s.inst p).sheet n.step
  writeRecords p n
  countReuse p n c
  releaseStep p n c
  refreshAvail p
  syncReels
  let s ← get
  setInst p fun i => { i.afterStep (s.rank p) n c with
    cueBase := s.nextCueBase p i.run.isSome
    run := none, reported := false, broken := false, nextApply := n.step + 1, applying := none, todo := []
    sheets := i.sheets.filter fun x => decide (n.step < x.1)
    allocated := i.allocated.filter fun x => decide (n.step < x)
    feeds := [], props := [], drafts := [], words := [], wordsDue := [], watches := [], issued := [], kvOut := [] }
  bump (pk 0x8045 1) 1
  onlyIf n.abandoned (bump (pk 0x8045 2) 1)
  setPar (pk 0x5842 (p + 1)) n.step
  dropHeld p n.step
  modify fun t => { t with stories := eraseKey t.stories p }
  let s ← get
  let a := s.ackOf p
  if s.isLead p then do
    holdAck p a
    setInst p fun i => { i with notice := none }
  else emit (.ack (s.leadRank p) p a)
  onlyIf n.ends (endInstance p)

/-- An abandoning notice reaches a module that still runs the step: it issues no further command of it (R226). -/
def stopIssuing (p : Nat) (n : Notice) : M Unit := do
  let s ← get
  if n.abandoned && n.inst == s.eff' (pk 0x5830 (p + 1)) && (s.inst p).run == some n.step then do
    setInst p fun i => { i with broken := true }
    dropIssued p
  else skip

/-- A module applies a notice once its own RUN has ended (R210, R227, R239): EVICT and INSERT entries of its own first, one by one.
DESIGN CHOICE (notes/assumptions/37): unsafe. -/
def applyNotice (p : Nat) (n : Notice) : M Unit := do
  stopIssuing p n
  let s ← get
  let i := s.inst p
  let ok := (n.abandoned && !s.servingHeld p true) || (i.run == some n.step && i.reported)
  if s.serving p && n.inst == s.eff' (pk 0x5830 (p + 1)) && n.step == i.nextApply && i.applying.isNone && ok then do
    onlyIf (s.isLead p) (readCopies (s.noticeAddr p) (secondCopy (s.noticeAddr p)) (noticeBytes n))
    onlyIf (!n.abandoned) (updateBaselines p)
    let c := i.sheet n.step
    let todo := s.entriesFor p c [5] ++ (s.entriesFor p c [4]).filter (appliesInsert n)
    setInst p fun i => { i with applying := some n, todo := todo }
    if todo.isEmpty then finishApply p n else skip
  else skip

/-- The next entry of an apply, where it is of the given operation. -/
def applyEntry (p op : Nat) (f : Nat → M Unit) : M Unit := do
  let s ← get
  let i := s.inst p
  match i.applying, i.todo with
  | some n, e :: rest =>
    if tkOp e == op then do
      f e
      setInst p fun i => { i with todo := rest }
      if rest.isEmpty then finishApply p n else skip
    else skip
  | _, _ => skip

/-- An acknowledgement reaches the lead. DESIGN CHOICE (notes/assumptions/37): unsafe. -/
def takeAck (p : Nat) (a : Ack) : M Unit := do
  let s ← get
  let i := s.inst p
  if s.isLead p && s.serving p && decide (a.rank < s.instSize p) && !(i.acks.any fun b => b.rank == a.rank) then
    holdAck p a
  else skip

/-- The notice of a commit is applied, or an acknowledgement of it reaches the lead (R227). -/
def commitApply (p : Nat) (m : CommitMsg) : M Unit := do
  let s ← get
  match m with
  | .own =>
    match (s.inst p).notice with
    | some n => applyNotice p n
    | none => skip
  | .notice n => if s.isLead p then skip else applyNotice p n
  | .ack a => takeAck p a

/-! ## The life of an instance (R197 to R199, R243, R278, R366, R369, R428) -/

/-- The CRC of a partition's RankMap (R366). -/
def State.rankMapCrc (s : State) (p : Nat) : Nat := crc32c (toBytes (s.par (pk 0x4010 (p + 1))) 128)

/-- What this module states when it acknowledges START. -/
def State.startAckOf (s : State) (p : Nat) : StartAck :=
  ⟨s.rank p, s.eff' (pk 0x4001 0), s.eff' (pk 0x5830 (p + 1)), s.instSize p, s.leadRank p, s.rankMapCrc p,
    (s.ctx p (s.servCtx p)).gen, s.par (pk 0x4013 (p + 1)) == 1,
    (List.range 12).map fun st => ((s.poolOf p kindParkPool st).map fun q => q.2 / 4096).getD 0,
    ((((lookup s.places p).getD []).find? fun q => q.kind == kindExport).map fun q => q.size / 4096).getD 0,
    s.par (pk 0x5877 (p + 1)), (List.range 12).map (s.availFrames p), s.cplSpace p, s.beGateOpen⟩

/-- The lead admits a member. -/
def admitMember (p : Nat) (a : StartAck) : M Unit := do
  setInst p fun i => { i with
    members := i.members ++ [⟨a.rank, a.pools, a.exportUnits, a.bound⟩]
    acks := i.acks ++ [⟨a.rank, a.avail, a.space, a.gate, []⟩] }
  let s ← get
  setInst p fun i => { i with
    phase := if i.phase == .starting && i.members.length == s.instSize p then .running else i.phase }

/-- InstanceControl START may take effect (R119, R165, R198, R278). -/
def State.mayStart (s : State) (p : Nat) : Bool :=
  s.par (pk 0x5001 (p + 1)) == 2 && !s.serving p && !s.kvBad.contains p && s.enginesRun
    && decide ((s.ctx p (s.par (pk 0x5834 (p + 1)))).st = .opened)
    && !s.vaultBusy p

/-- START of an instance. -/
def instanceStart (p : Nat) : M Unit := do
  let s ← get
  if s.mayStart p then do
    latchParams p ([0x5830, 0x5831, 0x5832, 0x5833, 0x5834] ++ planParams)
    modify fun t => t.setInst p { Inst.reset with phase := .starting, late := (t.inst p).late, seqCtx := (t.inst p).seqCtx }
    setDoor p 4 0
    freeIndex p
    refreshAvail p
    startExchange p
    startNorm p
    each [0x5880, 0x5881, 0x5882, 0x5883] fun k => do
      let v ← par (pk k (p + 1))
      setEff (pk k (p + 1)) v
    let s ← get
    if s.par (pk 0x5877 (p + 1)) == 0 then
      modify fun t => t.setInst p { Inst.reset with late := (t.inst p).late, seqCtx := (t.inst p).seqCtx }
    else do
      setInst p fun i => { i with cueBase := (s.attnWord p true, s.attnWord p false) }
      let a := s.startAckOf p
      if s.isLead p && !a.standby then admitMember p a
      else do
        setInst p fun i => { i with nextApply := if a.standby then anyStep else 0 }
        emit (.startAck (s.leadRank p) p a)
  else skip

/-- A start acknowledgement at the lead (R366). -/
def instanceStartAck (p : Nat) (a : StartAck) : M Unit := do
  let s ← get
  let i := s.inst p
  if s.isLead p && s.serving p then do
    let same := a.inst == s.eff' (pk 0x5830 (p + 1)) && a.size == s.instSize p && a.lead == s.leadRank p
      && a.mapCrc == s.rankMapCrc p
    if a.standby then
      if same then setInst p fun i => { i with standbys := (i.standbys.filter fun b => b.node != a.node) ++ [a] }
      else raiseEvent 0x21 p 0 (a.rank + a.node * 2 ^ 8)
    else if same && a.gen == (s.ctx p (s.servCtx p)).gen && decide (a.rank < s.instSize p) && s.rankNode p a.rank == a.node
        && !(i.members.any fun m => m.rank == a.rank) then admitMember p a
    else raiseEvent 0x21 p 0 (a.rank + a.node * 2 ^ 8)
  else skip

/-- DRAIN and STOP, at the lead (R199). With no live sequence an instance of one module stops at once, and so does one whose modules are
not all admitted, which plans no step; any other with the next COMMIT, whose notice tells the followers. DESIGN CHOICE
(notes/assumptions/36): safe. -/
def stopAlone (p : Nat) : M Unit := do
  let s ← get
  onlyIf ((s.instSize p == 1 || (s.inst p).members.length != s.instSize p) && (s.inst p).plan.isNone && (s.inst p).notice.isNone && s.ending p) (endInstance p)

/-- InstanceControl DRAIN (R199). -/
def instanceDrain (p : Nat) : M Unit := do
  let s ← get
  if s.isLead p && ((s.inst p).phase == .running || (s.inst p).phase == .starting) then do
    setInst p fun i => { i with phase := .draining }
    stopAlone p
  else skip

/-- InstanceControl STOP (R199). -/
def instanceStop (p : Nat) : M Unit := do
  let s ← get
  if s.isLead p && s.serving p then do
    setInst p fun i => { i with phase := .stopping }
    stopAlone p
  else skip

/-- What a follower does when its lead is lost (R428). -/
def leadLost (p : Nat) : M Unit := do
  let s ← get
  let i := s.inst p
  if s.serving p && !s.isLead p then do
    let step := s.par (pk 0x5842 (p + 1))
    each i.homes fun h => writeRecord p (completion h.1 6 0 0xFFFFFFFF h.2.committed s.now step)
    onlyIf (!i.homes.isEmpty) (cplVector p)
    setInst p fun i => { i with phase := .stopped, broken := true, run := none, homes := [] }
    dropIssued p
    raiseEvent 0x46 p 0 (s.eff' (pk 0x5830 (p + 1)) + step * 2 ^ 16)
  else skip

/-- The lead loses a rank (R368): the running step is abandoned, and the rank is absent. -/
def loseRank (p r : Nat) : M Unit := do
  let s ← get
  if s.isLead p && s.serving p && decide (r < s.instSize p) && r != s.rank p && !bit (s.par (pk 0x4011 (p + 1))) r then do
    setPar (pk 0x4011 (p + 1)) (s.par (pk 0x4011 (p + 1)) + 2 ^ r)
    bump (pk 0x4012 (p + 1)) 1
    setInst p fun i => { i with waitSince := some (i.waitSince.getD s.now) }
    abandonStep p
  else skip

/-- No substitute came (R369): every live sequence retires with PEER_RESET in a notice of the next step's number, and the
instance stops. -/
def substituteTimeout (p : Nat) : M Unit := do
  let s ← get
  let i := s.inst p
  match i.waitSince with
  | none => skip
  | some t =>
    if s.isLead p && s.serving p && i.plan.isNone && i.notice.isNone
        && (i.standbys.isEmpty || decide (t + s.par (pk 0x4014 (p + 1)) * 1000000 ≤ s.now)) then do
      setInst p fun i => { i with phase := .stopping, step := i.step + 1, waitSince := none }
      abandonWith p ⟨⟨s.eff' (pk 0x5830 (p + 1)) * 2 ^ 496 + i.step % 2 ^ 48 * 2 ^ 448, [], [], [], [], [], [], [], []⟩, s.now, [], [], [],
        [], [], [], [], []⟩ true
    else skip

end Sys2Proof.Machine
end

