-- ==== Sys2Proof/Machine/Tiers.lean ====
section
/-! DEFINITION. Placements, the vault load path, die sparing, scrubbing with the symbol code, restores and storyboards
(chapter "Memory tiers and placement"). -/
namespace Sys2Proof.Machine

/-! ## Placements (R121 to R124) -/

/-- The tiers that a kind may lie in (R122). -/
def kindAllows (kind a : Nat) : Bool :=
  match tierOf a with
  | .stack _ => decide (1 ≤ kind) && decide (kind ≤ 8)
  | .loft _ => decide (1 ≤ kind) && decide (kind ≤ 4) || kind == 8
  | .vault => false
  | .host _ => kind == 9
  | .reserved => false

/-- Two extents overlap. -/
def overlaps (a n b m : Nat) : Bool := decide (a < b + m) && decide (b < a + n)

/-- A placement entry as its fields give it, with its clamped fields counted: Size 0 is 1, and an undefined Kind is NONE. -/
def placementOf (v : Nat) : Placement × Nat :=
  let kind := bits v 87 80
  let size := bits v 127 88
  (⟨bits v 255 198 * 64, max 1 size * 64, if kind ≤ 9 then kind else 0, bits v 191 140 * 4096, bits v 79 64, bits v 63 59⟩,
    b2n (size == 0) + b2n (decide (9 < kind)))

/-- The entry lies wholly in one tier that its kind allows, overlaps no system area and nothing accepted, and is not a second
PARK_POOL of its stack (R122). own: entries of its partition accepted so far; others: those of other partitions. DESIGN CHOICE
(notes/assumptions/20): safe. -/
def State.accepts (s : State) (own others : List Placement) (q : Placement) : Bool :=
  let last := q.addr + q.size - 1
  kindAllows q.kind q.addr && (decide (tierOf q.addr = tierOf last) || ((tierOf q.addr).isHost && (tierOf last).isHost))
    && !(s.inSystem q.addr || s.inSystem last)
    && !((own ++ others).any fun o => overlaps q.addr q.size o.addr o.size)
    && !(q.kind == kindParkPool && own.any fun o => o.kind == kindParkPool && decide (tierOf o.addr = tierOf q.addr))

/-- The accepted entries of every other partition, those due at the next PLAN included. -/
def State.othersPlaced (s : State) (p : Nat) : List Placement :=
  ((s.places ++ s.placesNext).filter fun x => x.1 != p).flatMap Prod.snd

/-- Kinds that a reload changes while an instance serves (R124). -/
def reloadable (kind : Nat) : Bool := decide (1 ≤ kind) && decide (kind ≤ 4) || kind == 8

/-- Reads the entries of a table from one index on, accepting those that may be; `keep` holds kinds whose state stays. What lies
outside T1 is no entry (R121). DESIGN CHOICE (notes/assumptions/20): safe. -/
def readEntries (p base : Nat) (only : Nat → Bool) (keep : List Placement) : List Nat → List Placement → M (List Placement)
  | [], acc => pure acc
  | i :: is, acc => do
    let a := base + 32 * i
    if !(tierOf a).isT1 then readEntries p base only keep is acc
    else do
      let r ← load .director a 32
      if r.poisoned then do
        recordUe a actPoisoned p 0
        readEntries p base only keep is acc
      else do
        let e := placementOf r.val
        clampDesc e.2
        if only e.1.kind || e.1.kind == 0 then do
          let s ← get
          let ok := s.accepts (keep ++ acc) (s.othersPlaced p) e.1
          storeVal .director a 1 (r.val % 256 / 2 * 2 + b2n ok)
          readEntries p base only keep is (if ok then acc ++ [e.1] else acc)
        else readEntries p base only keep is acc

/-- The Director reads a partition's placement table: as the partition starts, or again on a reload, which changes only some
kinds while an instance serves and takes effect at the next PLAN (R124). -/
def readPlacements (p : Nat) : M Unit := do
  let s ← get
  let base := s.par (pk 0x5101 (p + 1))
  let is := List.range (s.par (pk 0x5102 (p + 1)))
  if s.serving p then do
    let keep := ((lookup s.places p).getD []).filter fun q => !reloadable q.kind
    let l ← readEntries p base reloadable keep is []
    modify fun t => { t with placesNext := insertAt t.placesNext p (keep ++ l) }
  else do
    let l ← readEntries p base (fun _ => true) [] is []
    modify fun t => { t with places := insertAt t.places p l, placesNext := eraseKey t.placesNext p }

/-- PlacementReload is written (R124). A partition that is not RUNNING reads its table when it starts. -/
def placementReload (p : Nat) : M Unit := do
  let s ← get
  if s.par (pk 0x5001 (p + 1)) == 2 then readPlacements p else skip

/-! ## Vault load (R117 to R120) -/

/-- The vault area of a partition: base and size in bytes. -/
def State.vaultArea (s : State) (p : Nat) : Nat × Nat :=
  (0x100000000000 + s.eff' (pk 0x7812 (p + 1)) * 2 ^ 30, s.eff' (pk 0x7813 (p + 1)) * 2 ^ 30)

/-- Bytes put into the vault by the load path, in whole codewords, in which no error is left (R106, R117). -/
def vaultPut (a : Nat) (bs : List Nat) : M Unit := modify fun s =>
  let t := (bs.zipIdx).foldl (fun t b => t.setByte (a + b.2) (BitVec.ofNat 8 b.1)) s
  let out := fun c => decide (c * 32 < a) || decide (a + bs.length < c * 32 + 32)
  { t with
    poison := t.poison.filter fun x => out x.1
    ecc := { t.ecc with flaws := t.ecc.flaws.filter fun x => out x.1, beyond := t.ecc.beyond.filter out } }

/-- The load ends in DONE: the area is valid (R118). -/
def vaultDone (part : Nat) : M Unit := do
  setPar (pk 0x7811 1) 3
  setPar (pk 0x7814 (part + 1)) 1
  modify fun s => { s with vaultLoad := none }

/-- The load starts copying once its partition has no serving instance (R118). -/
def vaultRun : M Unit := do
  let s ← get
  match s.vaultLoad with
  | none => skip
  | some v =>
    if s.par (pk 0x7811 1) != 2 && !s.serving v.part then do
      setPar (pk 0x7814 (v.part + 1)) 0
      setPar (pk 0x7811 1) 2
      onlyIf (v.count == 0) (vaultDone v.part)
    else skip

/-- VaultLoad is written (R118, R119): ignored while a load waits or runs, with the running list's address as its echo; a write while
the engines do not run starts no load. The list and the sources are read as the Director reads (R34): in T0 as they stand, and as
zeros in T2. A poisoned header starts nothing (R543). DESIGN CHOICE (notes/assumptions/30): unsafe. DESIGN CHOICE
(notes/assumptions/53): unsafe. -/
def vaultLoadStart (value : Nat) : M Unit := do
  let s ← get
  let addr := value / 32 * 32
  match s.vaultLoad with
  | some v => setPar (pk 0x7810 0) v.list
  | none =>
  if !s.enginesRun then skip
  else do
    setPar (pk 0x7810 0) addr
    let h ← load .director addr 32
    if h.poisoned then recordUe addr actPoisoned 0 0
    else do
      let part := bits h.val 231 229
      modify fun t => { t with vaultLoad := some ⟨addr, part, bits h.val 255 232, 0, false⟩ }
      setPar (pk 0x7811 2) 0
      setPar (pk 0x7811 3) 0
      setPar (pk 0x7811 4) 0
      if s.serving part then setPar (pk 0x7811 1) 1 else vaultRun

/-- The load goes on with its next entry, or ends. -/
def vaultNext (v : VaultLoad) : M Unit := do
  bump (pk 0x7811 2) 1
  if v.count ≤ v.next + 1 then vaultDone v.part
  else modify fun s => { s with vaultLoad := some { v with next := v.next + 1, retried := false } }

/-- An entry's copy and read-back complete (R117, R118). good: the read-back returns what was written. DESIGN CHOICE
(notes/assumptions/53): unsafe. -/
def vaultEntry (good : Bool) : M Unit := do
  let s ← get
  match s.vaultLoad with
  | none => skip
  | some v =>
    if s.par (pk 0x7811 1) == 2 then do
      let a := v.list + 32 + 32 * v.next
      let r ← load .director a 32
      if r.poisoned then do
        recordUe a actPoisoned v.part 0
        vaultNext v
      else do
        let area := s.vaultArea v.part
        let len := min (bits r.val 127 96) (area.2 / 4096)
        let dst := clampTo area.1 (area.1 + area.2 - len * 4096) (bits r.val 191 140 * 4096)
        let clamped := b2n (len != bits r.val 127 96) + b2n (len != 0 && dst != bits r.val 191 140 * 4096)
        clampDesc clamped
        if len == 0 then do
          onlyIf (clamped != 0) (storeVal .director a 32 (setBits r.val 127 96 len))
          vaultNext v
        else do
          onlyIf (clamped != 0) (storeVal .director a 32 (setBits (setBits r.val 127 96 len) 191 140 (dst / 4096)))
          let src ← load .director (bits r.val 255 198 * 64) (len * 4096)
          let bs := toBytes src.val (len * 4096)
          vaultPut dst bs
          bump (pk 0x7811 4) (len * 4096)
          if good && !src.poisoned && crc32c bs == bits r.val 95 64 then vaultNext v
          else if v.retried then do
            setPar (pk 0x7811 1) 4
            setPar (pk 0x7811 3) v.next
            modify fun t => { t with vaultLoad := none }
          else modify fun t => { t with vaultLoad := some { v with retried := true } }
    else skip

/-- A load is interrupted by power loss, standby, SAFE or a drain (R120): it does not resume. DESIGN CHOICE (notes/assumptions/30):
unsafe. -/
def vaultInterrupt : M Unit := do
  let s ← get
  match s.vaultLoad with
  | none => skip
  | some v => do
    setPar (pk 0x7814 (v.part + 1)) 0
    setPar (pk 0x7811 1) 0
    modify fun t => { t with vaultLoad := none }

/-! ## Die sparing and restores (R111 to R114) -/

/-- Copies an extent as a relay does (R409): poisoned codewords stay poisoned at the destination. -/
def copyExtent (w : Who) (src dst n : Nat) : M Unit := do
  let r ← load w src n
  store w dst (toBytes r.val n)
  each r.bad fun c =>
    let lo := max src (c * 32)
    let hi := min (src + n) (c * 32 + 32)
    storePoison w (dst + (lo - src)) (hi - lo)

/-- An accepted weight, delta or codec table with a copy in the vault (R112). -/
def restorable (q : Placement) : Bool := decide (1 ≤ q.kind) && decide (q.kind ≤ 3) && q.vault != 0

/-- The placements that the Director restores after a die failure: those that overlap the die's channels. -/
def State.restoreList (s : State) (stack die : Nat) : List (Nat × Nat) :=
  ((s.places.flatMap Prod.snd).filter fun q => restorable q && decide (tierOf q.addr = .stack stack)
    && (decide (8192 ≤ q.size) || (List.range (q.size / 64)).any fun i => dieOf (q.addr + 64 * i) == 16 * stack + die)).map
    fun q => (q.addr, q.size)

/-- After the last chunk is copied, both channels switch to the spare (R111); after a failure, restores follow (R112). -/
def dieSpareSwitch (stack : Nat) : M Unit := do
  let s ← get
  match lookup s.dieCopies stack with
  | none => skip
  | some q =>
    if q.paused then skip
    else do
      let old := s.diePhysical stack q.die
      setPar (dieStateKey stack) 2
      modify fun t => { t with
        dieCopies := eraseKey t.dieCopies stack
        restores := if (lookup t.dead (16 * stack + q.die)).isSome then t.restores ++ t.restoreList stack q.die else t.restores }
      modify fun t => t.setPhys ukDie (64 + stack) q.die 16
      noteFailed ukDie old
      bump (pk 0x8052 3) 1
      recordFault ⟨0x0B, 3, ukDie, 64 + stack, old, actSpared, 0, 0, 0, 1, q.die, 0⟩

/-- A die fails as a whole (R112, R113): its codewords become uncorrectable and it is spared, or its running copy goes on; with the
spare in use for another die, module-fatal handling. DESIGN CHOICE (notes/assumptions/6): safe. -/
def dieFailure (stack die : Nat) : M Unit := do
  let s ← get
  if stack < 12 && die < 16 then
    if s.par (dieStateKey stack) == 0 then do
      modify fun t => { t with dead := insertAt t.dead (16 * stack + die) [] }
      recordFault (s.dieRecord stack die actPoisoned)
      dieSpareStart stack die
    else if (match lookup s.dieCopies stack with | some q => q.die == die | none => false) then do
      modify fun t => { t with dead := insertAt t.dead (16 * stack + die) [] }
      recordFault (s.dieRecord stack die actPoisoned)
    else moduleFatal (s.dieRecord stack die actFatal)
  else skip

/-- The partition of a placed address with a vault copy, and where that copy lies. -/
def State.vaultCopy (s : State) (a : Nat) : Option (Nat × Nat) :=
  (List.range 8).findSome? fun p =>
    (((lookup s.places p).getD []).find? fun q => restorable q && decide (q.addr ≤ a) && decide (a < q.addr + q.size)).map
      fun q => (p, q.vault + (a - q.addr))

/-- A restore completes (R112): a relay engine of the stack's region writes the range from the vault, in whole codewords. It reads the
vault as every relay of the partition does (R116), and waits while a load runs into its area (R119). -/
def weightRestore (a n : Nat) : M Unit := do
  let s ← get
  if s.restores.contains (a, n) && s.enginesRun then
    match s.vaultCopy a with
    | none => modify fun t => { t with restores := t.restores.filter (· != (a, n)) }
    | some (p, v) => if s.vaultBusy p then skip else do
      let w := whoOf (80 + 4 * (a / 0x1000000000 / 3)) p
      modify fun t => { t with restores := t.restores.filter (· != (a, n)) }
      copyExtent w v a n
      bump (pk 0x8020 1) n
      recordUe a actRestored 0 0
  else skip

/-! ## The symbol code (R104, R105) and the scrubber (R417) -/

/-- The scrubber met an uncorrectable codeword, found first by it or not: a placed one with a vault copy is restored in its
4 KiB (R417). -/
def scrubRestore (a : Nat) (fresh : Bool) : M Unit := do
  let s ← get
  bump (pk 0x8052 7) (b2n fresh)
  match (s.places.flatMap Prod.snd).find? fun q => restorable q && decide (q.addr ≤ a) && decide (a < q.addr + q.size) with
  | none => skip
  | some q =>
    let lo := max q.addr (alignDown a 4096)
    let hi := min (q.addr + q.size) (alignDown a 4096 + 4096)
    modify fun t => { t with restores := if t.restores.contains (lo, hi - lo) then t.restores else t.restores ++ [(lo, hi - lo)] }

/-- The scrub of a place goes on: stacks outside self-refresh and not while a die is being spared; lofts that are powered. -/
def State.scrubs (s : State) (a : Nat) : Bool :=
  s.enginesRun && s.par (pk 0x7803 0) == 0 &&
    (match tierOf a with
     | .stack st => (lookup s.dieCopies st).isNone
     | .loft _ => true
     | .vault => false
     | .host _ => false
     | .reserved => false)

/-- One codeword is read by the patrol scrubber (R417). errs: the symbols that have gone wrong in the codeword as stored since it was last
read, with their 4-bit errors. What a second fetch makes good is left to it (R107). DESIGN CHOICE (notes/assumptions/6): safe. -/
def scrubRead (addr : Nat) (errs : List (Nat × Nat)) : M Unit := do
  let s ← get
  let a := alignDown addr 32
  let c := a / 32
  if s.scrubs a then do
    bump (match tierOf a with | .loft _ => pk 0x8020 2 | _ => pk 0x8020 1) 32
    modify fun t => t.strike c errs
    let t ← get
    if t.badAt c then do
      match t.refetch c with
      | some (_, _, true) => modify fun u => { u with ecc := { u.ecc with tried := c :: u.ecc.tried.filter (· != c), fetched := c :: u.ecc.fetched.filter (· != c) } }
      | _ => do
        findCodeword c
        scrubRestore a (!(lookup t.poison c).getD false)
    else onlyIf (!(t.flawsOf c).isEmpty) (correct (c, t.flawsOf c))
  else skip

/-! ## Storyboards (R125 to R129) -/

/-- Token counts of an expert for a layer are final at a region, and are 0 (R126, R127). -/
def State.countFinal (s : State) (p region layer : Nat) : Bool := (lookup (s.exchange p region).final layer).isSome
/-- An expert's count in a layer is final and 0 (R126, R127). -/
def State.countZero (s : State) (p region layer e : Nat) : Bool :=
  match lookup (s.exchange p region).final layer with
  | some l => !l.contains e
  | none => false

/-- An entry's cue advances (R126 to R128). -/
def storyCue (p h e : Nat) : M Unit := signalCue (storyWho p (enRegion e)) (hdrCueBase h + 8 * enCue e) 1

/-- The entries of a region, in list order, and the place of an entry among them. -/
def State.regionEntries (s : State) (p : Nat) (r : StoryRun) (h g : Nat) : List Nat :=
  (List.range (hdrCount h)).filter fun j => enRegion (s.storyEntry p r j) == g

/-- The entries of a region that the scan looks at: those not started, up to 64 past the oldest of them (R126). -/
def State.scanned (s : State) (p : Nat) (r : StoryRun) (h g : Nat) : List Nat :=
  (((s.regionEntries p r h g).dropWhile fun j => r.started.contains j).take 65).filter fun j => !r.started.contains j

/-- The condition of an entry holds (R126): its layer is near enough and its routing is final. A read of the vault waits for a load
into the partition's area (R119). -/
def State.entryDue (s : State) (p : Nat) (r : StoryRun) (h i : Nat) : Bool :=
  let e := s.storyEntry p r i
  let f := s.readVal (.cue p) (hdrLayerCue h) 8 - r.base
  let layer := enLayer h e
  decide (layer ≤ f + enLead e) && (!enGated e || s.countFinal p (enRegion e) layer)
    && !(decide (tierOf (enSrc e) = .vault) && s.vaultBusy p)

/-- Entry i may start (R126): of the entries the scan looks at, it is the first whose condition holds, and fewer than 32 entries of
its region are in flight. -/
def State.storyReady (s : State) (p : Nat) (r : StoryRun) (h i : Nat) : Bool :=
  let g := enRegion (s.storyEntry p r i)
  let flying := (r.started.filter fun j => !r.ended.contains j && enRegion (s.storyEntry p r j) == g).length
  decide (flying < 32) && (s.scanned p r h g).find? (s.entryDue p r h) == some i

/-- The units that receive the blocks of a CodecPath entry (R147). -/
def State.codecUnits (s : State) (region blocks : Nat) : List Nat :=
  let u0 := ((lookup s.codecUnit region).map (· + 1)).getD 0
  (List.range (min 16 blocks)).map fun i => 128 + 16 * region + (u0 + i) % 16

/-- Expands the blocks of a CodecPath entry, taking its references (R147, R153). -/
def storyExpand (p i e : Nat) : M Unit := do
  let s ← get
  let g := enRegion e
  let w := storyWho p g
  let h ← load w (enSrc e) 64
  let n := min (extentBlocks h.val) (ceilDiv (enLength e) 65536)
  let total := max 1 (bits h.val 511 472)
  let slot := bits h.val 469 466
  onlyIf (bits h.val 471 470 != 0 && bits h.val 417 394 != extentBlocks h.val) (each (s.codecUnits g n) fun u =>
    takeRef ⟨slot, u, p, 256, i⟩)
  let len := min (enLength e) total
  each (List.range n) fun k => decodeOne w p (enSrc e) h.val k (enDst e + 65536 * k) (len - 65536 * k) h.poisoned none
  onlyIf (n != 0) (modify fun t => { t with
    codecUnit := insertAt t.codecUnit g ((((lookup t.codecUnit g).map (· + 1)).getD 0 + n + 15) % 16) })

/-- The relay engines read the entries not yet started, in list order, as far as they scan (R126): one that reads as poisoned writes
nothing and signals nothing, and the step is broken off (R543). -/
def storyCheck (p : Nat) (r : StoryRun) (h : Nat) : M Unit := do
  let s ← get
  let open' := ((List.range (hdrCount h)).filter fun j => !r.started.contains j).take 65
  each (open'.filter fun j => !(s.badCodewords (storyWho p 0) (r.addr + 64 + 32 * j) 32).isEmpty) fun j => do
    let e ← load (storyWho p 0) (r.addr + 64 + 32 * j) 32
    onlyIf e.poisoned (do
      storyBad p (r.addr + 64 + 32 * j)
      setStory p fun q => { q with started := q.started ++ [j], ended := q.ended ++ [j] })

/-- An entry's copy (R128). What its source in the vault delivers poisoned is fetched once more, and in this model reads the same
again (R107, R407). -/
def storyCopy (w : Who) (e : Nat) : M Unit := do
  let s ← get
  copyExtent w (enSrc e) (enDst e) (enLength e)
  onlyIf (decide (tierOf (enSrc e) = .vault)) (bump (pk 0x8042 7) (32 * (s.badCodewords w (enSrc e) (enLength e)).length))

/-- An entry runs (R127, R128): skipped where its expert has no token, otherwise copied or expanded. An entry whose destination is no
loft, or whose source lies outside what its partition may use, writes nothing; of one whose extent leaves its range or placement
part-way, the part beyond reads as zeros and is not written (R97, R98, R123). -/
def storyRun (p i h : Nat) (r : StoryRun) : M Unit := do
  let s ← get
  setStory p fun q => { q with started := q.started ++ [i] }
  let a := r.addr + 64 + 32 * i
  let g := enRegion (s.storyEntry p r i)
  let w := storyWho p g
  let e ← load w a 32
  if e.poisoned then do
    storyBad p a
    setStory p fun q => { q with ended := q.ended ++ [i] }
  else do
    clampDesc (b2n (enLayer h e.val != bits e.val 115 104) + b2n (bits e.val 139 116 == 0))
    if enGated e.val && s.countZero p g (enLayer h e.val) (enExpert e.val) then do
      storyCue p h e.val
      setStory p fun q => { q with ended := q.ended ++ [i] }
      bump (pk 0x8042 6) 1
    else if decide (tierOf (enDst e.val) = .loft g) && s.mayAccess w false (enSrc e.val) then do
      setStory p fun q => { q with wrote := q.wrote ++ [i] }
      if enCodec e.val then storyExpand p i e.val else storyCopy w e.val
    else bump (pk 0x8042 4) 1

/-- A storyboard entry starts where the scan lets it (R126); nothing of a step that was broken off does (R543). -/
def storyStart (p i : Nat) : M Unit := do
  let s ← get
  match lookup s.stories p with
  | none => skip
  | some r => do
    let h := s.storyHeader p r
    if !s.enginesRun || (s.inst p).broken then skip
    else if !(s.badCodewords (storyWho p 0) r.addr 64).isEmpty then do
      let _ ← load (storyWho p 0) r.addr 64
      storyBad p r.addr
    else do
      storyCheck p r h
      let t ← get
      match lookup t.stories p with
      | none => skip
      | some q => if !(t.inst p).broken && t.storyReady p q h i then storyRun p i h q else skip

/-- An entry ends: its last byte is visible and its cue advances (R128); its references are released (R153). -/
def storyEnd (p i : Nat) : M Unit := do
  let s ← get
  match lookup s.stories p with
  | none => skip
  | some r =>
    if r.started.contains i && !r.ended.contains i && s.enginesRun then do
      let h := s.storyHeader p r
      setStory p fun q => { q with ended := q.ended ++ [i] }
      modify fun t => { t with codecRefs := t.codecRefs.filter fun q => !(q.p == p && q.ctx == 256 && q.desc == i) }
      putRefs
      storyCue p h (s.storyEntry p r i)
    else skip

/-- The expert-gated entries of a layer whose expert got no token are skipped as the counts become final (R127). -/
def storySkip (p region layer : Nat) : M Unit := do
  let s ← get
  match lookup s.stories p with
  | none => skip
  | some r => do
    let h := s.storyHeader p r
    storyCheck p r h
    let s ← get
    let r := (lookup s.stories p).getD r
    each ((s.scanned p r h region).filter fun i =>
        let e := s.storyEntry p r i
        enGated e && enLayer h e == layer && s.countZero p region layer (enExpert e))
      fun i => do
        storyCue p h (s.storyEntry p r i)
        setStory p fun q => { q with started := q.started ++ [i], ended := q.ended ++ [i] }
        bump (pk 0x8042 6) 1

/-- EXP_GATHER with the skips that its final counts allow. -/
def bodyGatherSkip (c : Cmd) : M End := do
  let x ← bodyGather c
  let s ← get
  storySkip c.p (engineRegion c.e) (s.exchange c.p (engineRegion c.e)).layer
  pure x

/-- An uncorrectable loft codeword written by the current storyboard run is fetched again, once, from its entry's source, and the loft
holds what the fetch gives (R107). A reader that met it first has its data from that fetch. Of a CodecPath entry the block is expanded
again. DESIGN CHOICE (notes/assumptions/6): safe. -/
def loftRefetch (p addr : Nat) : M Unit := do
  let s ← get
  let c := addr / 32
  match s.refetch c with
  | none => skip
  | some (q, e, _) =>
    if q == p && s.badAt c && s.enginesRun then do
      let w := storyWho p (enRegion e)
      modify fun t => { t with ecc := { t.ecc with tried := c :: t.ecc.tried.filter (· != c), fetched := t.ecc.fetched.filter (· != c) } }
      if enCodec e then do
        let x ← load w (enSrc e) 64
        let k := (c * 32 - enDst e) / 65536
        decodeOne w p (enSrc e) x.val k (enDst e + 65536 * k) (min (enLength e) (max 1 (bits x.val 511 472)) - 65536 * k) x.poisoned none
      else copyExtent w (enSrc e + (c * 32 - enDst e)) (c * 32) 32
      let t ← get
      recordUe (c * 32) (if t.badAt c then actPoisoned else actRefetched) p 0
    else skip

end Sys2Proof.Machine
end

