-- ==== Sys2Proof/Machine/Fabric.lean ====
section
/-! DEFINITION. Packets and transfers, copies, collectives, notices and the loss of modules (chapter "Kwanex fabric and
topology"). -/
namespace Sys2Proof.Machine

/-! ## Packets (R352) -/

def kDst (h : Nat) : Nat := bits h 255 240
def kSrc (h : Nat) : Nat := bits h 239 224
def kKind (h : Nat) : Nat := bits h 223 220
def kPart (h : Nat) : Nat := bits h 219 217
def kCtx (h : Nat) : Nat := bits h 216 209
def kGen (h : Nat) : Nat := bits h 208 201
def kLength (h : Nat) : Nat := bits h 200 188
def kTag (h : Nat) : Nat := bits h 185 174
def kEpoch (h : Nat) : Nat := bits h 173 170
def kFinal (h : Nat) : Bool := bit h 169
def kCount (h : Nat) : Nat := bits h 168 145
def kAddr (h : Nat) : Nat := bits h 144 81
def kSignal (h : Nat) : Nat := bits h 80 20 * 8
def kAdd (h : Nat) : Nat := bits h 19 4
def kHops (h : Nat) : Nat := bits h 3 0

/-- Data cut into pieces of 4 KiB with their offsets. -/
def pieces : Nat → Nat → List Nat → List (Nat × List Nat)
  | 0, _, _ => []
  | fuel + 1, off, bs =>
    if bs.length ≤ 4096 then [(off, bs)] else (off, bs.take 4096) :: pieces fuel (off + 4096) (bs.drop 4096)

/-- The packets of a transfer (R352, R354). -/
def transferPackets (dst src kind p ctx gen epoch addr sig add : Nat) (bs : List Nat) : List (Nat × List Nat) :=
  let ps := pieces (bs.length / 4096 + 1) 0 bs
  (ps.zipIdx).map fun x =>
    (packetHeader dst src kind p ctx gen x.1.2.length epoch (if x.2 + 1 == ps.length then some (ps.length, sig, add) else none)
      (addr + x.1.1), x.1.2)

/-! ## Transfers at the sender (R354, R355) -/

/-- 10 ms: how long a Tag is not used again. -/
def tagNs : Nat := 10000000

/-- A Tag toward a node that may be used. -/
def State.freeTag (s : State) (node : Nat) : Option Nat :=
  let used := (s.xfers.filter fun x => x.node == node).map (fun x => x.tag)
    ++ (s.oldTags.filter fun t => t.1 == node && decide (s.now < t.2.2 + tagNs)).map fun t => t.2.1
  if 256 ≤ (s.xfers.filter fun x => x.node == node).length then none
  else (List.range 4096).find? fun t => !used.contains t

/-- Sends the packets of an open transfer, and notes the group that the Final packet took (R355). -/
def sendTransfer (x : Xfer) : M Unit :=
  each x.packets fun q => do
    let g ← sendOver x.chan x.node (toBytes (setBits q.1 185 174 x.tag) 32 ++ q.2) none
    onlyIf (kFinal q.1) (modify fun s => { s with xfers := s.xfers.map fun y =>
      if y.node == x.node && y.tag == x.tag then { y with path := g } else y })

/-- What names a transfer of a command run again. -/
def Xfer.key (x : Xfer) : Nat × Nat × Nat × Nat := (x.e, x.node, x.desc, kAddr ((x.packets.map Prod.fst).headD 0))

/-- The transfer had reached its node when the command's first run was dropped (R424). -/
def State.sentBefore (s : State) (x : Xfer) : Bool := (s.inst x.p).sent.contains x.key

/-- Opens a transfer, or keeps it until a Tag is free; one that a dropped run completed is not sent again. Answers its Tag. DESIGN CHOICE
(notes/assumptions/39): safe. -/
def openTransfer (x : Xfer) : M (Option Nat) := do
  let s ← get
  if s.sentBefore x then do
    setInst x.p fun i => { i with sent := i.sent.erase x.key }
    pure none
  else match s.freeTag x.node with
  | none => do
    modify fun t => { t with xferWait := t.xferWait ++ [x] }
    pure none
  | some tag => do
    let y : Xfer := { x with tag := tag, sentAt := s.now, aborted := false }
    modify fun t => { t with xfers := t.xfers ++ [y], oldTags := t.oldTags.filter fun o => decide (t.now < o.2.2 + tagNs) }
    sendTransfer y
    pure (some tag)

/-- The part-way command that waits for a transfer, marked as met. -/
def markAck (node tag : Nat) : M Unit := modify fun s => { s with
  engines := s.engines.map fun e => (e.1, { e.2 with parts := e.2.parts.map fun q =>
    match q.wait with
    | .acks n t _ => if n == node && t == tag then { q with ready := true } else q
    | _ => q }) }

/-- The part-way command that waits for a transfer now waits for another Tag. -/
def renameAck (node old new : Nat) : M Unit := modify fun s => { s with
  engines := s.engines.map fun e => (e.1, { e.2 with parts := e.2.parts.map fun q =>
    match q.wait with
    | .acks n t u => if n == node && t == old then { q with wait := .acks n new u } else q
    | _ => q }) }

/-- Tags of waiting commands whose transfer is not open yet: past every Tag. -/
def noTag : Nat := 4096

/-- A transfer that waits for a Tag toward a node is opened. -/
def openWaiting (node : Nat) : M Unit := do
  let s ← get
  match s.xferWait.find? fun x => x.node == node with
  | none => skip
  | some x =>
    if (s.freeTag node).isSome then do
      modify fun t => { t with xferWait := t.xferWait.erase x }
      let tag ← openTransfer x
      renameAck node noTag (tag.getD noTag)
    else skip

/-- A transfer leaves the table of open ones; its Tag is kept out of use for 10 ms. -/
def closeTransfer (x : Xfer) : M Unit := modify fun s => { s with
  xfers := s.xfers.erase x
  oldTags := s.oldTags ++ [(x.node, x.tag, s.now)] }

/-- A transfer is sent again whole under a new Tag (R355). -/
def resendTransfer (x : Xfer) : M Unit := do
  closeTransfer x
  bump (pk 0x8050 8) 1
  let tag ← openTransfer x
  renameAck x.node x.tag (tag.getD noTag)

/-- An ACK arrives (R354, R355): after an ABORT its Final bit says whether the Tag was complete. A transfer of a command dropped at an
engine reset is not sent again; that of a serving command is noted for its rerun (R424). -/
def takeAckPacket (h : Nat) : M Unit := do
  let s ← get
  match s.xfers.find? fun x => x.node == kSrc h && x.tag == kTag h with
  | none => skip
  | some x =>
    if !x.aborted || kFinal h then do
      closeTransfer x
      markAck x.node x.tag
      onlyIf (x.dropped && s.serving x.p && x.ctx == s.servCtx x.p) (setInst x.p fun i => { i with sent := i.sent ++ [x.key] })
      openWaiting x.node
    else if x.dropped then closeTransfer x
    else resendTransfer x

/-- A transfer has no ACK 1 ms after its Final packet was sent (R355): an ABORT goes out with the same Tag over another path. -/
def transferAckTimeout (node tag : Nat) : M Unit := do
  let s ← get
  match s.xfers.find? fun x => x.node == node && x.tag == tag with
  | none => skip
  | some x =>
    if x.sentAt + 1000000 ≤ s.now then do
      modify fun t => { t with xfers := t.xfers.map fun y => if y == x then { y with aborted := true, sentAt := t.now } else y }
      sendAbort x
    else skip

/-! ## Transfers at the receiver (R353, R354) -/

/-- An ACK goes back. -/
def sendAck (node tag : Nat) (complete : Bool) : M Unit := do
  let s ← get
  let h := packetHeader node s.nodeId 5 0 0 0 0 0 (if complete then some (0, 0, 0) else none) 0
  sendPacket 2 node (toBytes (setBits h 185 174 tag) 32)

/-- The Tag of a node is remembered as complete. -/
def State.tagDone (s : State) (node tag : Nat) : Bool :=
  s.rxDone.any fun t => t.1 == node && t.2.1 == tag && decide (s.now < t.2.2 + tagNs)

/-- Counts one packet of a transfer; when all are there, its signal is applied, its contribution noted, an ACK returned and
the Tag remembered (R354, R362). -/
def countPacket (h : Nat) : M Unit := do
  let s ← get
  let node := kSrc h
  let tag := kTag h
  let old := (s.rxXfers.find? fun x => x.node == node && x.tag == tag).getD ⟨node, tag, 0, kAddr h, none, false⟩
  let x : RxXfer := ⟨node, tag, old.count + 1, min old.base (kAddr h), if kFinal h then some h else old.final, kKind h == 2⟩
  let rest := s.rxXfers.filter fun y => !(y.node == node && y.tag == tag)
  let whole := match x.final with
    | some f => x.count == kCount f
    | none => false
  if !whole then modify fun t => { t with rxXfers := rest ++ [x] }
  else do
    modify fun t => { t with
      rxXfers := rest
      rxDone := (t.rxDone.filter fun y => decide (t.now < y.2.2 + tagNs)) ++ [(node, tag, t.now)]
      arrivals := if x.coll then t.arrivals ++ [⟨kPart h, kCtx h, node, x.base⟩] else t.arrivals }
    match x.final with
    | none => skip
    | some f =>
      let t ← get
      if t.remoteOk (kPart f) (kCtx f) (kGen f) then do
        signalCue (whoOf 80 (kPart f)) (kSignal f) (kAdd f)
        onlyIf (kSignal f != 0) (modify fun t => { t with power := { t.power with
          closers := insertAt (eraseKey t.power.closers (kSignal f)) (kSignal f) node } })
      else bump (pk 0x8049 2) 1
    sendAck node tag true

/-- A WRITE or COLLECTIVE packet for this module (R322, R353): checked against the context, its epoch and the placements, written and
counted. DESIGN CHOICE (notes/assumptions/39): safe. -/
def takeData (h : Nat) (data : List Nat) : M Unit := do
  let s ← get
  let p := kPart h
  if !s.remoteOk p (kCtx h) (kGen h) then onlyIf (kFinal h) (bump (pk 0x8049 2) 1)
  else if kKind h == 2 && kEpoch h != s.par (pk 0x4012 (p + 1)) % 16 then bump (pk 0x8050 6) 1
  else if s.tagDone (kSrc h) (kTag h) then skip
  else if 16384 ≤ s.rxXfers.length && !(s.rxXfers.any fun x => x.node == kSrc h && x.tag == kTag h) then bump (pk 0x8050 6) 1
  else do
    onlyIf (kLength h != 0) (store (whoOf 80 p) (kAddr h) (data.take (kLength h)))
    countPacket h

/-- An ABORT arrives (R355). -/
def takeAbort (h : Nat) : M Unit := do
  let s ← get
  let done := s.tagDone (kSrc h) (kTag h)
  onlyIf (!done) (modify fun t => { t with rxXfers := t.rxXfers.filter fun x => !(x.node == kSrc h && x.tag == kTag h) })
  sendAck (kSrc h) (kTag h) done

/-! ## Notices and the loss of a module (R365 to R369, R427, R428, R436) -/

/-- A record of a transfer that was lost (R406, R421, R436). -/
def transferLost (e p ctx rank : Nat) : M Unit := do
  let s ← get
  recordFault ⟨0x11, 2, ukRelay, e, s.engPhysical e 0, actReset, p, ctx, 0, 1, 0, rank⟩
  bump (pk 0x8052 10) 1

/-- SHAPE goes to every other member that is present (R368, R369). DESIGN CHOICE (notes/assumptions/39): safe. -/
def sendShape (p : Nat) (assign : Option (Nat × Nat)) : M Unit := do
  let s ← get
  let mask := s.par (pk 0x4011 (p + 1))
  let epoch := s.par (pk 0x4012 (p + 1))
  each ((List.range (s.instSize p)).filter fun r => r != s.rank p && !bit mask r) fun r => emit (.shape r p mask epoch assign)
  raiseEvent 0x37 p 1 (noticeBody 7 (s.rankNode p ((assign.map Prod.fst).getD 0)) (mask % 2 ^ 32) s.now)

/-- A collective ends with PEER_RESET (R363): its status, its cue and its count. -/
def endCollective (e : Nat) (q : Part) : M Unit := do
  setEngine e fun x => { x with parts := x.parts.erase q }
  let sig := hSignalAddr q.desc
  onlyIf (sig != 0) (storeVal (whoOf e q.p) (sig + 8) 8 6)
  bump (pk 0x8050 9) 1
  signalCue (whoOf e q.p) sig (hSignalAdd q.desc)

/-- The destination rank of a COPY (R358). -/
def copyRank (d : Nat) : Nat := bits (d / 2 ^ 256) 107 102

/-- The transfers of a partition's commands to a rank of a mask. -/
def State.toAbsent (s : State) (p mask : Nat) (x : Xfer) : Bool :=
  x.p == p && (List.range 64).any fun r => bit mask r && s.rankNode p r == x.node

/-- Commands that wait on ranks now absent end: collectives with PEER_RESET (R363), copies as lost (R359). Their transfers send nothing
further. -/
def endAbsent (p mask : Nat) : M Unit := do
  let s ← get
  modify fun t => { t with xferWait := t.xferWait.filter fun x => !s.toAbsent p mask x }
  each (s.xfers.filter (s.toAbsent p mask)) closeTransfer
  each s.engines fun x => each x.2.parts fun q =>
    if q.p == p then
      match q.wait with
      | .coll m _ => onlyIf (m &&& mask != 0) (endCollective x.1 q)
      | .acks _ _ _ =>
        onlyIf (bit mask (copyRank q.desc)) (do
          setEngine x.1 fun e => { e with parts := e.parts.erase q }
          transferLost x.1 p q.ctx (copyRank q.desc))
      | _ => skip
    else skip

/-- Assigns an admitted standby to an absent rank (R369), at the lead. -/
def assignStandby (p r : Nat) : M Unit := do
  let s ← get
  match (s.inst p).standbys.find? fun a => (s.rankOf p a.node).isNone with
  | none => skip
  | some a => do
    let key := pk 0x4010 (p + 1)
    setPar key (setBits (s.par key) (16 * r + 15) (16 * r) a.node)
    sendShape p (some (r, a.node))
    emit (.shape r p (s.par (pk 0x4011 (p + 1))) (s.par (pk 0x4012 (p + 1))) (some (r, a.node)))

/-- A rank of an instance led here is lost (R368, R369, R427). -/
def rankLost (p r : Nat) : M Unit := do
  let s ← get
  loseRank p r
  let t ← get
  if s.par (pk 0x4012 (p + 1)) != t.par (pk 0x4012 (p + 1)) then do
    sendShape p none
    endAbsent p (t.par (pk 0x4011 (p + 1)))
    assignStandby p r
  else skip

/-- Every partition's instance acts on the loss of a node: as lead R368, as follower of a lost lead R428. -/
def instancesLose (node : Nat) (leadToo : Bool) : M Unit := do
  let s ← get
  each (List.range 8) fun p =>
    match s.rankOf p node with
    | none => skip
    | some r =>
      if s.serving p then
        if s.isLead p then rankLost p r
        else onlyIf (leadToo && r == s.leadRank p) (leadLost p)
      else skip

/-- A node is gone (R436): sending to it stops; open transfers to it end without resend, and copies that wait for it end
without their cue. -/
def nodeGone (node : Nat) : M Unit := do
  let s ← get
  modify fun t => { t with
    gone := if t.gone.contains node then t.gone else t.gone ++ [node]
    xferWait := t.xferWait.filter fun x => x.node != node }
  each (s.xfers.filter fun x => x.node == node) fun x => do
    closeTransfer x
    transferLost x.e x.p x.ctx ((s.rankOf x.p node).getD 0)
  each s.engines fun x => each x.2.parts fun q =>
    match q.wait with
    | .acks n _ _ => onlyIf (n == node) (setEngine x.1 fun e => { e with parts := e.parts.erase q })
    | _ => skip

/-- The event of a notice that is applied here. DEDUCED (notes/assumptions/12): unsafe. -/
def noticeEvent (code node mask : Nat) : M Unit := do
  let s ← get
  raiseEvent (0x30 + code) 0xFF 0 (noticeBody code node mask s.now)

/-- FENCED, RESET or REMOVED of a node (R436): it is unreachable, and PEER_LOST goes out (R367). DESIGN CHOICE (notes/assumptions/17):
safe. -/
def peerDown (code node : Nat) : M Unit := do
  noticeEvent code node 0
  nodeGone node
  sendNotice 6 node 0
  instancesLose node true

/-- PEER_LOST of a node, at the lead (R368). -/
def peerLost (node : Nat) : M Unit := do
  noticeEvent 6 node 0
  instancesLose node false

/-- PLANES of a node (R348). -/
def planesNotice (node mask : Nat) : M Unit := do
  noticeEvent 1 node mask
  modify fun s => { s with planes := insertAt s.planes node mask }

/-- The switch planes this module uses: those of its groups that are UP, or of every switch group where none is. DEDUCED
(notes/assumptions/39): unsafe. -/
def State.usedPlanes (s : State) : Nat :=
  if s.planeMask != 0 then s.planeMask
  else (((List.range 24).filterMap (planeOf s.division)).map fun q => 2 ^ q).foldl (· + ·) 0

/-- Nothing has come from a node for PathLossTime while transfers to it are open, or every plane reports its ports down
(R367): it is unreachable, and PEER_LOST goes out. -/
def pathLoss (node : Nat) : M Unit := do
  let s ← get
  let opened := (s.xfers.filter fun x => x.node == node).map fun x => x.sentAt
  let since := max ((lookup s.heard node).getD 0) (opened.foldl min s.now)
  let quiet := !opened.isEmpty && decide (since + s.par (pk 0x400E 0) * 1000 ≤ s.now)
  let dark := match lookup s.planes node with
    | some m => s.usedPlanes != 0 && m &&& s.usedPlanes == 0
    | none => false
  if quiet || dark then do
    sendNotice 6 node 0
    instancesLose node true
  else skip

/-- A member applies SHAPE (R368, R369): absent ranks, epoch, and the node of an assigned rank. DESIGN CHOICE (notes/assumptions/39):
safe. -/
def applyShape (p mask epoch : Nat) (assign : Option (Nat × Nat)) : M Unit := do
  let s ← get
  raiseEvent 0x37 p 0 (noticeBody 7 ((assign.map Prod.snd).getD 0) (mask % 2 ^ 32) s.now)
  setPar (pk 0x4011 (p + 1)) mask
  setPar (pk 0x4012 (p + 1)) epoch
  endAbsent p mask
  match assign with
  | none => skip
  | some (r, node) => do
    let key := pk 0x4010 (p + 1)
    setPar key (setBits (s.par key) (16 * r + 15) (16 * r) node)
    if node == s.nodeId then do
      setEff (pk 0x5832 (p + 1)) r
      raiseEvent 0x22 p 0 r
    else skip

/-- RankReady is written (R369): a standby tells the lead; the lead clears the rank from AbsentMask, takes the standby as its
member and goes on planning. -/
def rankReady (p r : Nat) : M Unit := do
  let s ← get
  if !s.isLead p then emit (.rankReady (s.leadRank p) p r)
  else if s.serving p && bit (s.par (pk 0x4011 (p + 1))) r then do
    let mask := s.par (pk 0x4011 (p + 1)) - 2 ^ r
    setPar (pk 0x4011 (p + 1)) mask
    bump (pk 0x4012 (p + 1)) 1
    match (s.inst p).standbys.find? fun a => a.node == s.rankNode p r with
    | none => skip
    | some a => setInst p fun i => { i with
        members := (i.members.filter fun m => m.rank != r) ++ [⟨r, a.pools, a.exportUnits, a.bound⟩]
        acks := (i.acks.filter fun x => x.rank != r) ++ [⟨r, a.avail, a.space, a.gate, []⟩]
        standbys := i.standbys.filter fun b => b.node != a.node }
    setInst p fun i => { i with waitSince := if mask == 0 then none else i.waitSince }
    sendShape p none
  else skip

/-- A notice packet arrives (R357): its 16 B body. SHAPE's content is not laid out in it. DESIGN CHOICE (notes/assumptions/39): safe.
-/
def takeNotice (data : List Nat) : M Unit := do
  let b := ofBytes (data.take 16)
  let node := bits b 31 16
  let mask := bits b 63 32
  match bits b 7 0 with
  | 1 => planesNotice node mask
  | 2 => noticeEvent 2 node mask
  | 3 => peerDown 3 node
  | 4 => peerDown 4 node
  | 5 => peerDown 5 node
  | 6 => peerLost node
  | 8 => noticeEvent 8 node mask
  | _ => skip

/-! ## A packet arrives -/

/-- A packet for another node is forwarded in dimension order, keeping its channel (R347), or discarded. -/
def forwardPacket (ch h : Nat) (data : List Nat) : M Unit := do
  let s ← get
  if kHops h < 15 && s.division != 0 && !(s.groupsTo (kDst h) (ch == 2)).isEmpty then do
    bump (pk 0x8050 7) 1
    sendPacket ch (kDst h) (toBytes (h + 1) 32 ++ data)
  else bump (pk 0x8050 6) 1

/-- A packet that a group has received (R352, R353). -/
def takePacket (ch h : Nat) (data : List Nat) : M Unit := do
  let s ← get
  if kDst h != s.nodeId then forwardPacket ch h data
  else do
    modify fun t => { t with heard := insertAt t.heard (kSrc h) t.now }
    match kKind h with
    | 1 => takeData h data
    | 2 => takeData h data
    | 3 => skip
    | 4 => takeNotice data
    | 5 => takeAckPacket h
    | 6 => takeAbort h
    | _ => bump (pk 0x8050 6) 1

/-- A packet as bytes from a group, with the channel of its flits. An MGMT packet is the identity record of the group's peer, whatever its
DstNode (R349). DESIGN CHOICE (notes/assumptions/40): unsafe. -/
def takePacketBytes (g ch : Nat) (bs : List Nat) : M Unit :=
  let h := ofBytes (bs.take 32)
  if kKind h == 3 then identityRecord g (idRecOf (bs.drop 32)) else takePacket ch h (bs.drop 32)

/-! ## COPY (R358, R359) -/

/-- The channel of a command's packets (R356). -/
def Cmd.chan (c : Cmd) : Nat := b2n c.be

/-- The 64 B units one transfer can carry: PacketCount has 24 bits. -/
def transferUnits : Nat := (2 ^ 24 - 1) * 64

/-- The rank whose node this module is in a partition's map; without one, InstanceRank. DESIGN CHOICE (notes/assumptions/38): unsafe.
-/
def State.selfRank (s : State) (p : Nat) : Nat := (s.rankOf p s.nodeId).getD (s.rank p)

/-- A rank that cannot be reached: absent, or without a node. -/
def State.rankAbsent (s : State) (p r : Nat) : Bool := bit (s.par (pk 0x4011 (p + 1))) r || s.rankNode p r == 0xFFFF

/-- Sends the units of a remote COPY from the ones already sent on, one transfer at a time; fuel bounds the ones that a dropped run sent.
The transfer of the last units carries the cue where it is the destination's. DESIGN CHOICE (notes/assumptions/38): unsafe. -/
def copySend (c : Cmd) : Nat → Nat → M End
  | 0, _ => pure .done
  | fuel + 1, sent => do
    let s ← get
    let a := c.area
    let len := max 1 (bits a 139 108)
    let rank := bits a 107 102
    let atDest := bit a 100
    if len ≤ sent then pure .done
    else if s.rankAbsent c.p rank then do
      transferLost c.e c.p c.ctx rank
      pure .ended
    else do
      let n := min transferUnits (len - sent)
      let last := len ≤ sent + n
      let src := bits a 255 198 * 64 + sent * 64
      let r ← load c.who src (n * 64)
      let bs ← forwarded c src rank r (n * 64)
      let node := s.rankNode c.p rank
      let sig := if last && atDest then hSignalAddr c.desc else 0
      let x : Xfer := ⟨node, 0, c.chan, c.e, c.p, c.ctx, c.desc,
        transferPackets node s.nodeId 1 c.p c.ctx c.gen 0 (bits a 197 140 * 64 + sent * 64) sig (hSignalAdd c.desc) bs, 0, false, none, false⟩
      let t ← get
      let tag ← openTransfer x
      if last && atDest then pure .ended
      else if t.sentBefore x then copySend c fuel (sent + n)
      else pure (.wait (.acks node (tag.getD noTag) (sent + n)))

/-- Transfers of a COPY: LenUnits has 32 bits. -/
def copyFuel : Nat := 260

/-- The source of a relay read is a host window that is up: its data comes by completions (R475, R481). DESIGN CHOICE
(notes/assumptions/28): unsafe. -/
def State.hostSource (s : State) (a : Nat) : Option Nat :=
  match tierOf a with
  | .host h => if s.windowDown h then none else some h
  | _ => none

/-- Reads of up to 4,096 B go out to a host port (R475). DESIGN CHOICE (notes/assumptions/28): unsafe. -/
def requestHost (h a n : Nat) : M Unit := do
  let s ← get
  each (List.range (ceilDiv n 4096)) fun i => do
    let k := min 4096 (n - 4096 * i)
    emit (.hostRead h ((s.cellKey (a + 4096 * i)) % 2 ^ 64) k)
    modify fun t => { t with hostReads := t.hostReads ++ [(h, a + 4096 * i, k, s.now)] }

/-- COPY once its source may be read: local, or to a destination rank. A remote COPY to this module's own rank stays local. -/
def copyRun (c : Cmd) : M End := do
  let s ← get
  let a := c.area
  if bit a 101 && bits a 107 102 != s.selfRank c.p then copySend c copyFuel 0
  else do
    copyExtent c.who (bits a 255 198 * 64) (bits a 197 140 * 64) (max 1 (bits a 139 108) * 64)
    unitsDone c.arm (ceilDiv (max 1 (bits a 139 108) * 64) 65536 - 1)
    pure .done

/-- COPY (R358): reads of a host window wait for their completions, reads of a vault area being loaded for the load's end
(R119). -/
def bodyCopy (c : Cmd) : M End := do
  let s ← get
  let a := c.area
  let src := bits a 255 198 * 64
  clampDesc (b2n (bits a 139 108 == 0))
  let loading := s.vaultBusy c.p
  if bit a 101 && bits a 107 102 != s.selfRank c.p && s.rankAbsent c.p (bits a 107 102) then copySend c copyFuel 0
  else if tierOf src = .vault && loading then pure (.wait .vault)
  else
    match s.hostSource src with
    | some h => do
      requestHost h src (max 1 (bits a 139 108) * 64)
      pure (.wait (.host h src (max 1 (bits a 139 108) * 64)))
    | none => copyRun c

/-! ## Collectives (R360 to R364) -/

/-- The fields of a collective, clamped, with the clamps counted (R360). -/
structure Coll where
  op     : Nat
  src    : Nat
  dst    : Nat
  scr    : Nat
  len    : Nat
  shape  : Nat
  root   : Nat
  inF    : Fmt
  outF   : Fmt
  ring   : Bool
  skipAbsent : Bool
deriving DecidableEq, Repr

def collReduces (op : Nat) : Bool := op == 0x60 || op == 0x61

/-- A collective command's fields and the number of them clamped (R360). -/
def collOf (d : Nat) : Coll × Nat :=
  let a := d / 2 ^ 256
  let op := hOpcode d
  let i := bits a 37 33
  let o := bits a 32 28
  let len := bits a 81 50
  (⟨op, bits a 255 198 * 64, bits a 197 140 * 64, bits a 139 82 * 64, max 1 len, bits a 49 44, bits a 43 38,
    if i ≤ 2 then (Fmt.ofCode i).getD .bf16 else .bf16, if o ≤ 4 then (Fmt.ofCode o).getD .bf16 else .bf16, bit a 27, bit a 26⟩,
   b2n (len == 0) + b2n (collReduces op && decide (2 < i)) + b2n (collReduces op && decide (4 < o)))

/-- Ranks of a member mask in increasing order. -/
def membersOf (mask : Nat) : List Nat := (List.range 64).filter fun r => bit mask r

/-- What a running collective works with: its members, this module's index, and the units of a chunk. -/
structure CollEnv where
  f    : Coll
  ms   : List Nat
  m    : Nat
deriving DecidableEq, Repr

def CollEnv.size (v : CollEnv) : Nat := v.ms.length
def CollEnv.chunk (v : CollEnv) : Nat := ceilDiv v.f.len v.size
def CollEnv.succ (v : CollEnv) : Nat := (v.m + 1) % v.size
def CollEnv.pred (v : CollEnv) : Nat := (v.m + v.size - 1) % v.size
/-- The index k below m, around the member order. -/
def CollEnv.back (v : CollEnv) (k : Nat) : Nat := (v.m + v.size - k % v.size) % v.size

/-- The units of chunk c of a reduction: first and count. -/
def CollEnv.units (v : CollEnv) (c : Nat) : Nat × Nat :=
  let lo := min v.f.len (c * v.chunk)
  (lo, min v.f.len ((c + 1) * v.chunk) - lo)

/-- Elements in n units of the input. -/
def CollEnv.elems (v : CollEnv) (n : Nat) : Nat := n * 512 / v.f.inF.elemBits

/-- The offset in Dst of the element that starts chunk c, in bytes. -/
def CollEnv.outOff (v : CollEnv) (c : Nat) : Nat := v.elems (v.units c).1 * v.f.outF.elemBits / 8

/-- Bytes of a slot of FP32 partials (R361). -/
def CollEnv.slotBytes (v : CollEnv) : Nat := v.chunk * 64 * 32 / v.f.inF.elemBits

/-- Reads bytes for a contribution (R410). -/
def collRead (c : Cmd) (dest a n : Nat) : M (List Nat) := do
  let r ← load c.who a n
  forwarded c a dest r n

/-- A contribution goes to a member: a COLLECTIVE transfer (R352, R361); nothing for no bytes. -/
def contribute (c : Cmd) (v : CollEnv) (j addr : Nat) (bs : List Nat) : M Unit := do
  let s ← get
  if bs.isEmpty then skip
  else do
    let node := s.rankNode c.p (nth v.ms j)
    let _ ← openTransfer ⟨node, 0, c.chan, c.e, c.p, c.ctx, c.desc,
      transferPackets node s.nodeId 2 c.p c.ctx c.gen (s.par (pk 0x4012 (c.p + 1))) addr 0 0 bs, 0, false, none, false⟩
    skip

/-- Elements of some bytes in the input format, widened to FP32 (R361). -/
def widen (f : Fmt) (bs : List Nat) : List Nat :=
  let n := ofBytes bs
  (List.range (bs.length * 8 / f.elemBits)).map fun i => f32Round (f.dec (unpackCode f.elemBits n i))

/-- FP32 values as bytes and back. -/
def packF32 (xs : List Nat) : List Nat := xs.flatMap fun x => toBytes x 4

/-- This module's own elements of chunk k, which go to a member j (R410). -/
def collOwn (c : Cmd) (v : CollEnv) (j k : Nat) : M (List Nat) := do
  let u := v.units k
  let bs ← collRead c (nth v.ms j) (v.f.src + u.1 * 64) (u.2 * 64)
  pure (widen v.f.inF bs)

/-- Converts a result once (R361): under R58 where the output format is narrower than FP32 (R65); an FP32 result is written as it was
added. DESIGN CHOICE (notes/assumptions/38): unsafe. -/
def collConvert (v : CollEnv) (xs : List Nat) : M (List Nat) :=
  if v.f.outF == Fmt.fp32 then pure (packF32 xs) else do
  let r := convRow v.f.outF f32One xs
  countConv r.conv
  pure (packCodes v.f.outF.elemBits r.codes)

/-- Members whose chunk has units. -/
def CollEnv.chunkFull (v : CollEnv) (c : Nat) : Bool := (v.units c).2 != 0

/-- What step k of a collective waits for: member index and address of each contribution (R362). -/
def CollEnv.expects (v : CollEnv) (k : Nat) : List (Nat × Nat) :=
  let f := v.f
  let others := (List.range v.size).filter (· != v.m)
  let unit := f.len * 64
  if f.ring then
    if collReduces f.op then
      if k < v.size then
        if v.chunkFull (v.back (1 + k)) then [(v.pred, f.scr + (k - 1) % 2 * v.slotBytes)] else []
      else
        let j := v.back (k + 1 - v.size)
        if v.chunkFull j then [(v.pred, f.dst + v.outOff j)] else []
    else if f.op == 0x62 then [(v.pred, f.dst + v.back k * unit)]
    else if f.op == 0x63 then [(v.pred, f.dst)]
    else [(v.back k, f.dst + v.back k * unit)]
  else if collReduces f.op then
    if k == 1 then (if v.chunkFull v.m then others.map fun j => (j, f.scr + j * v.chunk * 64) else [])
    else (others.filter v.chunkFull).map fun j => (j, f.dst + v.outOff j)
  else if f.op == 0x63 then
    match v.ms.findIdx? (· == f.root) with
    | some r => if r == v.m then [] else [(r, f.dst)]
    | none => []
  else others.map fun j => (j, f.dst + j * unit)

/-- The contributions of a step that have arrived for this command. -/
def State.arrived (s : State) (p ctx : Nat) (v : CollEnv) (x : Nat × Nat) : Option Arrival :=
  s.arrivals.find? fun a => a.p == p && a.ctx == ctx && a.node == s.rankNode p (nth v.ms x.1) && a.addr == x.2

/-- A step counts the contributions in its scratch area, wherever in it they lie (R362): the owner's sum of DIRECT. -/
def CollEnv.counts (v : CollEnv) (k : Nat) : Bool := !v.f.ring && collReduces v.f.op && k == 1

/-- The contributions that have arrived in the scratch area of a DIRECT reduction, oldest first (R361, R362). -/
def State.collScratch (s : State) (p ctx : Nat) (v : CollEnv) : List Arrival :=
  s.arrivals.filter fun a => a.p == p && a.ctx == ctx && decide (v.f.scr ≤ a.addr) && decide (a.addr < v.f.scr + v.size * v.chunk * 64)

/-- The contributions that a step waits for are there (R362). -/
def State.stepArrived (s : State) (p ctx : Nat) (v : CollEnv) (k : Nat) : Bool :=
  if v.counts k then decide ((v.expects k).length ≤ (s.collScratch p ctx v).length)
  else (v.expects k).all fun x => (s.arrived p ctx v x).isSome

/-- Takes the contributions of a step out of the counts. -/
def takeArrivals (p ctx : Nat) (v : CollEnv) (k : Nat) : M Unit := each (v.expects k) fun x => modify fun s =>
  match if v.counts k then (s.collScratch p ctx v).head? else s.arrived p ctx v x with
  | none => s
  | some a => { s with arrivals := s.arrivals.erase a }

/-- The last step of a collective. -/
def CollEnv.lastStep (v : CollEnv) : Nat :=
  if v.f.ring then
    if v.f.op == 0x60 then 2 * v.size - 2
    else if v.f.op == 0x63 then (if some v.m == v.ms.findIdx? (· == v.f.root) then 0 else 1)
    else v.size - 1
  else if v.f.op == 0x60 then 2
  else if v.f.op == 0x63 then (if some v.m == v.ms.findIdx? (· == v.f.root) then 0 else 1)
  else 1

/-- What a collective does as it starts (R361): its own data in place, and its first contributions sent. DESIGN CHOICE
(notes/assumptions/38): unsafe. -/
def collStart (c : Cmd) (v : CollEnv) : M Unit := do
  let f := v.f
  let unit := f.len * 64
  let others := (List.range v.size).filter (· != v.m)
  if collReduces f.op then
    if v.size == 1 then do
      let x ← collOwn c v v.m 0
      let bs ← collConvert v x
      store c.who f.dst bs
    else if f.ring then do
      let x ← collOwn c v v.succ (v.back 1)
      contribute c v v.succ f.scr (packF32 x)
    else do
      let u := v.units v.m
      copyExtent c.who (f.src + u.1 * 64) (f.scr + v.m * v.chunk * 64) (u.2 * 64)
      each others fun j => do
        let w := v.units j
        let bs ← collRead c (nth v.ms j) (f.src + w.1 * 64) (w.2 * 64)
        contribute c v j (f.scr + v.m * v.chunk * 64) bs
  else if f.op == 0x62 then do
    copyExtent c.who f.src (f.dst + v.m * unit) unit
    each (if f.ring then [v.succ].filter (· != v.m) else others) fun j => do
      let bs ← collRead c (nth v.ms j) f.src unit
      contribute c v j (f.dst + v.m * unit) bs
  else if f.op == 0x63 then
    if some v.m == v.ms.findIdx? (· == f.root) then do
      copyExtent c.who f.src f.dst unit
      each (if f.ring then [v.succ].filter (· != v.m) else others) fun j => do
        let bs ← collRead c (nth v.ms j) f.src unit
        contribute c v j f.dst bs
    else skip
  else do
    copyExtent c.who (f.src + v.m * unit) (f.dst + v.m * unit) unit
    each (if f.ring then [v.succ].filter (· != v.m) else others) fun j => do
      let bs ← collRead c (nth v.ms j) (f.src + j * unit) unit
      contribute c v j (f.dst + v.m * unit) bs

/-- The sum of a chunk from the scratch of its owner, x_0 first (R361, DIRECT). Of an ALL_REDUCE it goes to every other member, of whom a
record of poisoned data names the successor (R410). DESIGN CHOICE (notes/assumptions/38): unsafe. -/
def directSum (c : Cmd) (v : CollEnv) : M (List Nat) := do
  let n := (v.units v.m).2 * 64
  let dest := if v.f.op == 0x60 then v.succ else v.m
  let xs ← collect (List.range v.size) fun j => do
    let bs ← collRead c (nth v.ms dest) (v.f.scr + j * v.chunk * 64) n
    pure (widen v.f.inF bs)
  match xs with
  | [] => pure []
  | x :: rest => pure (rest.foldl (fun acc y => (acc.zip y).map fun z => f32Add z.1 z.2) x)

/-- The result of this module's chunk is converted, written, and for ALL_REDUCE sent on. -/
def collResult (c : Cmd) (v : CollEnv) (xs : List Nat) (dst' : List Nat) : M Unit := do
  let bs ← collConvert v xs
  let off := if v.f.op == 0x60 then v.outOff v.m else 0
  store c.who (v.f.dst + off) bs
  onlyIf (v.f.op == 0x60) (each dst' fun j => contribute c v j (v.f.dst + off) bs)

/-- What a collective does once step k's contributions are there (R361). DESIGN CHOICE (notes/assumptions/38): unsafe. -/
def collStep (c : Cmd) (v : CollEnv) (k : Nat) : M Unit := do
  let f := v.f
  let unit := f.len * 64
  let others := (List.range v.size).filter (· != v.m)
  if f.ring then
    if collReduces f.op then
      if k < v.size then do
        let j := v.back (1 + k)
        let n := v.elems (v.units j).2 * 4
        let dest := if k + 1 < v.size || f.op == 0x60 then v.succ else v.m
        let got ← collRead c (nth v.ms dest) (f.scr + (k - 1) % 2 * v.slotBytes) n
        let own ← collOwn c v dest j
        let sum := ((widen .fp32 got).zip own).map fun z => f32Add z.1 z.2
        if k + 1 < v.size then contribute c v v.succ (f.scr + k % 2 * v.slotBytes) (packF32 sum)
        else collResult c v sum [v.succ]
      else
        let j := v.back (k + 1 - v.size)
        if k < v.lastStep then do
          let bs ← collRead c (nth v.ms v.succ) (f.dst + v.outOff j) (v.elems (v.units j).2 * f.outF.elemBits / 8)
          contribute c v v.succ (f.dst + v.outOff j) bs
        else skip
    else if f.op == 0x62 then
      if k < v.lastStep then do
        let bs ← collRead c (nth v.ms v.succ) (f.dst + v.back k * unit) unit
        contribute c v v.succ (f.dst + v.back k * unit) bs
      else skip
    else if f.op == 0x63 then
      if some v.succ == v.ms.findIdx? (· == f.root) then skip
      else do
        let bs ← collRead c (nth v.ms v.succ) f.dst unit
        contribute c v v.succ f.dst bs
    else
      if k < v.lastStep then do
        let j := (v.m + k + 1) % v.size
        let bs ← collRead c (nth v.ms j) (f.src + j * unit) unit
        contribute c v j (f.dst + v.m * unit) bs
      else skip
  else if collReduces f.op && k == 1 && v.chunkFull v.m then do
    let sum ← directSum c v
    collResult c v sum others
  else skip

/-- Runs a collective from step k as far as its contributions have come; fuel bounds the steps (R362). -/
def collGo (c : Cmd) (mask : Nat) (v : CollEnv) : Nat → Nat → M End
  | 0, k => pure (.wait (.coll mask k))
  | fuel + 1, k => do
    let s ← get
    if v.lastStep < k || v.size == 1 then do
      onlyIf (hSignalAddr c.desc != 0) (storeVal c.who (hSignalAddr c.desc + 8) 8 0)
      pure .done
    else if s.stepArrived c.p c.ctx v k then do
      takeArrivals c.p c.ctx v k
      collStep c v k
      collGo c mask v fuel (k + 1)
    else pure (.wait (.coll mask k))

/-- The environment of a collective over a member mask. -/
def State.collEnv (s : State) (p : Nat) (f : Coll) (mask : Nat) : CollEnv :=
  let ms := membersOf mask
  ⟨f, ms, ms.findIdx (· == s.selfRank p)⟩

/-- A collective ends at once with a status (R363, R364). -/
def collEnd (c : Cmd) (status : Nat) : M End := do
  onlyIf (hSignalAddr c.desc != 0) (storeVal c.who (hSignalAddr c.desc + 8) 8 status)
  onlyIf (status == 6) (bump (pk 0x8050 9) 1)
  pure .done

/-- Collectives (R360 to R364): the member set is the mask as the command starts, without the absent ranks under SKIP. -/
def bodyCollective (c : Cmd) : M End := do
  let s ← get
  let f := collOf c.desc
  clampDesc f.2
  let r ← load c.who (s.par (pk 0x4016 (c.p + 1)) + 8 * f.1.shape) 8
  let absent := s.par (pk 0x4011 (c.p + 1))
  let mask := if f.1.skipAbsent then r.val - (r.val &&& absent) else r.val
  if !bit mask (s.selfRank c.p) then collEnd c 2
  else if mask &&& absent != 0 then collEnd c 6
  else do
    let v := s.collEnv c.p f.1 mask
    collStart c v
    collGo c mask v 256 1

/-- Marks collectives whose next contributions are there (R322, R362). -/
def markCollectives : M Unit := modify fun s => { s with
  engines := s.engines.map fun e => (e.1, { e.2 with parts := e.2.parts.map fun q =>
    match q.wait with
    | .coll mask k => if s.stepArrived q.p q.ctx (s.collEnv q.p (collOf q.desc).1 mask) k then { q with ready := true } else q
    | _ => q }) }

/-! ## Remote waits (R421) -/

/-- The record, event and count of a remote wait that expired; in the serving context no RUN report follows. -/
def remoteWaitRecord (e p ctx : Nat) : M Unit := do
  let s ← get
  recordFault ⟨0x0F, 2, engineUnitKind e, e, s.engPhysical e 0, actReset, p, ctx, 0, 1, 0, 0⟩
  raiseEvent 0x42 p 0 (e + ctx * 256)
  bump (pk 0x8052 9) 1
  onlyIf (s.serving p && ctx == s.servCtx p) (setInst p fun i => { i with broken := i.broken || i.run.isSome })

/-- Remote waits of a context on an engine that have lasted 500 ms expire (R420, R421): a head with Remote 1 is dropped, a
collective ends with PEER_RESET, a COPY ends without its cue. References of a dropped codec command stay (R153). DESIGN CHOICE
(notes/assumptions/19): unsafe. -/
def remoteWaitExpiry (e p ctx : Nat) : M Unit := do
  let s ← get
  match s.stream p ctx e with
  | none => skip
  | some st =>
    match st.head with
    | none => skip
    | some h =>
      if hRemote h.desc && h.eligAt.isNone && !s.headRuns (streamKey p ctx e) h && decide (h.fetched + 500000000 ≤ s.now) then do
        modify fun t => t.setStream p ctx e { st with head := none }
        remoteWaitRecord e p ctx
      else skip
  each ((s.engine (s.host e)).parts.filter fun q => q.p == p && q.ctx == ctx && !q.ready && decide (q.since + 500000000 ≤ s.now)) fun q =>
    match q.wait with
    | .coll _ _ => do
      endCollective (s.host e) q
      remoteWaitRecord e p ctx
    | .acks _ _ _ => do
      setEngine (s.host e) fun x => { x with parts := x.parts.erase q }
      transferLost e p ctx (copyRank q.desc)
      remoteWaitRecord e p ctx
    | .issue => onlyIf (hRemote q.desc) (do
      setEngine (s.host e) fun x => { x with parts := x.parts.erase q }
      remoteWaitRecord e p ctx)
    | _ => skip

end Sys2Proof.Machine
end

