-- ==== Sys2Proof/Machine/Issue.lean ====
section
/-! DEFINITION. The commands of a step's layers that the Director forms itself: the operand areas and cue waits of the attention
commands (R159, R189 to R191), of routing, dispatch, gather, return and combine (R266 to R290), the expert and shared expert work of a
region (R285 to R288), and the re-runs of a fallback (R299). -/
namespace Sys2Proof.Machine

/-! ## What has begun in the step -/

/-- A command of a layer is held or under way on an engine: elsewhere than on engine e, where g is given in region g; on engine e itself
it has begun. -/
def State.underWay (s : State) (e op p part l : Nat) (g : Option Nat) : Bool :=
  s.engines.any fun x => (x.2.parts ++ x.2.going.toList).any fun q =>
    q.p == p && hOpcode q.desc == op && q.mark == some (part, l) &&
      (if q.e == e then q.wait != .issue else match g with | some r => engineRegion q.e == r | none => true)

/-- A command of a layer has begun on its engine, and has not completed. -/
def State.begun (s : State) (e op p part l : Nat) : Bool := s.underWay e op p part l (some 4)

/-- What the Director forms: the operand area, the cue word and its value, and the mark of norm watch. -/
structure Form where
  area  : Nat
  wait  : Nat × Nat
  watch : Option Watch
  /-- what the Director names beside the operand area -/
  args  : List Nat
deriving DecidableEq, Repr

/-- The bits hi to lo of a word, in their places. -/
def keepBits (v hi lo : Nat) : Nat := bits v hi lo * 2 ^ lo

/-- A command that exists only where a condition holds. -/
def formIf (ok : Bool) (area : Nat) (wait : Nat × Nat) : Option Form := if ok then some ⟨area, wait, none, []⟩ else none

/-! ## Attention (R159, R189 to R191) -/

/-- The frame descriptors of a stack's stream in the running step. -/
def State.streamCount (s : State) (p st : Nat) : Nat :=
  (((s.walkEntries p).map fun e => (s.descriptors p st ((s.inst p).run.getD 0) e).length)).foldl (· + ·) 0

/-- The area of a relay's attention command of layer l (R189). -/
def State.walkArea (s : State) (p l : Nat) : Nat :=
  s.listAddr p / 64 * 2 ^ 198 + (s.walkEntries p).length * 2 ^ 174 + l * 2 ^ 162

/-- FeedCue, or MergeCue, at the count that closes layer l: N advances for each layer of the step up to it (R190). -/
def State.walkWait (s : State) (p : Nat) (feed : Bool) (l : Nat) : Nat × Nat :=
  (s.eff' (pk 0x580E (if feed then p + 1 else p + 9)),
    (if feed then (s.inst p).cueBase.1 else (s.inst p).cueBase.2) + s.instSize p * (l + 1))

/-- ATTEND of layer l on a stack waits on the feed cue (R181, R190). -/
def State.formAttend (s : State) (e op p part l : Nat) : Option Form :=
  formIf (op == 0x01 && part == 0) (s.streamAddr p (e - 64) / 64 * 2 ^ 198 + s.streamCount p (e - 64) * 2 ^ 174 + l * 2 ^ 162)
    (s.walkWait p true l)

/-- ATTN_FEED of a layer, once on a module, after its landing rows are written (R167) and after the commands of the
layer before, whose partial areas it fills again (R301). rest: the landing area. -/
def State.formFeed (s : State) (e p l rest : Nat) : Option Form :=
  let i := s.inst p
  formIf (!i.didKind .relay 0x40 0 l && !s.underWay e 0x40 p 0 l none && s.landed p l && (l == 0 || s.layerDone p (l - 1)))
    (s.walkArea p l + keepBits rest 161 80) (0, 0)

/-- ATTN_RETURN of a layer, once on a module, after its 12 ATTENDs have signalled (R191). -/
def State.formReturn (s : State) (e p l : Nat) : Option Form :=
  let i := s.inst p
  formIf (!i.didKind .relay 0x41 0 l && !s.underWay e 0x41 p 0 l none && (List.range 12).all fun st => i.did (64 + st) 0x01 0 l) (s.walkArea p l) (0, 0)

/-- ATTN_MERGE of a layer on a relay engine: a sixteenth of the query heads (R191). rest: OutFmtAddr. -/
def State.formMerge (s : State) (e p l rest : Nat) : Option Form :=
  let h := 12 * (s.geom p).heads
  let n := ceilDiv h 16
  let first := min h ((e - 80) * n)
  formIf true (s.walkArea p l + keepBits rest 161 103 + first * 2 ^ 90 + min n (h - first) * 2 ^ 77) (s.walkWait p false l)

/-- A projection of the step, once on a module: on a Draw block the queries, keys or values of a stack for the landing rows (R167), on a
Press block the keys or values of a run of a prefill chunk, whose copied frame is there first (R166, R247). rest: JobAddr, and for the
landing rows LandingAddr and LandingPitch. DESIGN CHOICE (notes/assumptions/55): unsafe. -/
def State.formProjection (s : State) (e p x w l rest : Nat) : Option Form :=
  let i := s.inst p
  let once := fun k => engineKind e == some k && !i.didKind k 0x01 (projPart x w) l && !s.underWay e 0x01 p (projPart x w) l none
  let land := once .draw && decide (x < 12) && s.landsRows p
  let write := once .press && w != 0 && (match i.kvOut[x]? with
    | some r => !i.todo.any fun t => tkOp t == 3 && bits t 251 228 == r.slate
    | none => false)
  if land || write then some ⟨keepBits rest 255 198, (0, 0), none, [rest]⟩ else none

/-- The re-merge of watched command k of decode rows, once on a module (R299). -/
def State.formReMerge (s : State) (e p k l : Nat) : Option Form :=
  match (s.inst p).watches[k]? with
  | none => none
  | some r => formIf (r.watch.layer == l && r.watch.producer.isNone && r.stage == .admitted && !(s.inst p).didKind .relay 0x42 (k + 1) l
      && !s.underWay e 0x42 p (k + 1) l none)
      (s.walkArea p l) (0, 0)

/-! ## Experts: what a region has to run (R285 to R288) -/

/-- The count of a cue of R283 that closes layer l. -/
def State.expWait (s : State) (p cue l : Nat) : Nat × Nat :=
  let a := s.eff' (pk 0x5876 (4 * p + cue + 1))
  let k := (s.expertLayers p).findIdx (· == l)
  if a == 0 then (0, 0)
  else (a, s.readVal (.cue p) a 8 + 2 ^ 64 - nth (s.inst p).expCues cue + s.cueSpan p cue * (k + 1))

/-- The blocks of a kind in a region that the step's sets may name (R86). -/
def State.blocksOf (s : State) (p g : Nat) (k : Kind) : List Nat :=
  let l := if k = .press then (List.range 12).map (12 * g + ·) else (List.range 4).map (48 + 4 * g + ·)
  l.filter fun b => !(s.inst p).gone.contains b

/-- Decode rows go to Draw blocks and prefill rows to Press blocks (R285). -/
def phaseKind (ph : Nat) : Kind := if ph == 1 then .press else .draw
def phaseTile (ph : Nat) : Nat := if ph == 1 then 128 else 64

/-- The weight table entry of an expert; that of index ExpertCount is the layer's shared expert (R286). -/
def State.weightAt (s : State) (p l e : Nat) : Nat := s.exp p 0x5873 + 32 * (l * (s.exp p 0x5860 + 1) + e)

/-- The padded set of an expert in a region (R286); one that names no block of the region is the region's first (R76). DESIGN CHOICE
(notes/assumptions/60): unsafe. -/
def State.weightSet (s : State) (p g l e : Nat) (k : Kind) : List Nat :=
  let v := s.readVal .director (s.weightAt p l e) 32
  let bs := s.blocksOf p g k
  let set := bs.filter fun b => if k = .press then bit (bits v 127 80) b else bit (bits v 79 64) (b - 48)
  if set.isEmpty then bs.take 1 else set

/-- A set of blocks as BlockSet holds it (R76). DESIGN CHOICE (notes/assumptions/60): unsafe. -/
def setMask (l : List Nat) : Nat := (l.map fun b => 2 ^ (if b < 48 then b else b - 48)).foldl (· + ·) 0

/-- The part number of a padded command: its expert, its direction (0 up, 1 down) and its phase. -/
def padPart (x dir ph : Nat) : Nat := 4 * x + 2 * dir + ph

/-- The runs of a phase in a region. -/
def State.runsOf (s : State) (p g ph : Nat) : List (Nat × Nat × Nat) := s.expertRuns p g (ph == 1)

/-- The padded commands of a phase and direction have completed. -/
def State.paddedDone (s : State) (p g l dir ph : Nat) : Bool :=
  s.padded p == 0 || (s.runsOf p g ph).all fun r =>
    (s.weightSet p g l r.1 (phaseKind ph)).all fun b => (s.inst p).did b 0x03 (padPart r.1 dir ph) l

/-- A phase has listed rows: all of them, or in padded mode those past ExpertPadRows (R287). -/
def State.listed (s : State) (p g ph : Nat) : Bool := (s.runsOf p g ph).any fun r => decide (s.padded p < r.2.2)

/-- The matrix work of a phase and direction has completed. -/
def State.workDone (s : State) (p g l dir ph : Nat) : Bool :=
  s.paddedDone p g l dir ph &&
    (!s.listed p g ph || (s.blocksOf p g (phaseKind ph)).all fun b => (s.inst p).did b 0x02 (2 * ph + dir) l)

/-- A region's rows of layer l are gathered, so its counts are final (R285). -/
def State.gathered (s : State) (p g l : Nat) : Bool := (s.inst p).didIn .relay g 0x51 0 l

/-- A region's outputs of layer l stand in its Out part. -/
def State.outputsDone (s : State) (p g l : Nat) : Bool :=
  s.gathered p g l && (List.range 2).all fun ph => (s.runsOf p g ph).isEmpty || s.workDone p g l 1 ph

/-- The first row and the rows of a phase that a region's shared expert works on: its own routed rows (R288). -/
def State.sharedRows (s : State) (p g l ph : Nat) : Nat × Nat :=
  let n := s.routed p l g
  let d := min n (s.exchange p g).prefill
  if ph == 1 then (d, n - d) else (0, d)

/-- The shared expert's work of a direction has completed in a region. -/
def State.sharedDone (s : State) (p g l dir ph : Nat) : Bool :=
  (s.sharedRows p g l ph).2 == 0
    || (s.blocksOf p g (phaseKind ph)).all fun b => (s.inst p).did b 0x03 (padPart (s.exp p 0x5860) dir ph) l

/-! ## The commands of an expert layer -/

/-- ROUTE of a region (R272). rest: LogitsFmtAddr, RowCount and PrefillFirst. The regions take the module's rows in contiguous ranges, in
the order of their numbers. -/
def State.formRoute (s : State) (e p l rest : Nat) : Option Form :=
  let g := engineRegion e
  let n := bits rest 133 110
  formIf (s.expertLayer p l && !(s.inst p).didKind .relay 0x50 1 l && decide (0 < n)
      && (List.range 4).all (fun r => decide (r ≤ g) || (!(s.inst p).didIn .router r 0x01 0 l && !s.underWay e 0x01 p 0 l (some r)))
      && decide (s.routedAll p l + n ≤ (s.originRows p).length))
    (keepBits rest 255 197 + (s.parts p g).records / 64 * 2 ^ 134 + keepBits rest 133 86 + l * 2 ^ 74) (0, 0)

/-- BUILD_LISTS of a region, where rows are listed (R285, R287). -/
def State.formLists (s : State) (e p l : Nat) : Option Form :=
  let g := engineRegion e
  formIf (s.expertLayer p l && s.gathered p g l && (s.listed p g 0 || s.listed p g 1)) (l * 2 ^ 244) (0, 0)

/-- EXP_DISPATCH of a stage, once on a module, when all its rows are routed; stage RACK only where the instance has other rack groups
(R280, R282, R283). -/
def State.formDispatch (s : State) (p st l : Nat) : Option Form :=
  let racks := !(s.otherGroups p).isEmpty
  let rows := ((List.range 4).map fun g => s.routed p l g % 2 ^ 24 * 2 ^ (219 - 24 * g)).foldl (· + ·) 0
  formIf (s.expertLayer p l && s.routedAll p l == (s.originRows p).length
      && (if st == 0 then racks else !racks || (s.inst p).didKind .relay 0x50 0 l))
    (l * 2 ^ 244 + st * 2 ^ 243 + rows) (if st == 1 && racks then s.expWait p 0 l else (0, 0))

/-- EXP_GATHER of a region, once (R285). -/
def State.formGather (s : State) (e p l : Nat) : Option Form :=
  formIf (s.expertLayer p l && !s.gathered p (engineRegion e) l && !s.underWay e 0x51 p 0 l (some (engineRegion e))
      && (s.inst p).didKind .relay 0x50 1 l) (l * 2 ^ 244) (s.expWait p 1 l)

/-- EXP_RETURN of a stage, once on a module, after the expert work of all its regions (R282, R285). -/
def State.formExpReturn (s : State) (p st l : Nat) : Option Form :=
  let racks := !(s.otherGroups p).isEmpty
  formIf (s.expertLayer p l && (List.range 4).all (fun g => s.outputsDone p g l)
      && (if st == 0 then racks else !racks || (s.inst p).didKind .relay 0x52 0 l))
    (l * 2 ^ 244 + st * 2 ^ 243) (if st == 1 && racks then s.expWait p 2 l else (0, 0))

/-- EXP_COMBINE of a region's rows, once (R290). rest: OutFmtAddr. -/
def State.formCombine (s : State) (e p l rest : Nat) : Option Form :=
  let g := engineRegion e
  formIf (s.expertLayer p l && decide (0 < s.routed p l g) && !(s.inst p).didIn .relay g 0x53 0 l
      && !s.underWay e 0x53 p 0 l (some g) && (s.inst p).didKind .relay 0x52 1 l
      && (s.exp p 0x586E == 0 || (List.range 2).all fun ph => s.sharedDone p g l 1 ph))
    (l * 2 ^ 244 + s.routed p l g % 2 ^ 24 * 2 ^ 219 + keepBits rest 218 160) (s.expWait p 3 l)

/-- MATMUL_PADDED of an expert on a block of its set (R287), or of the shared expert on every active block of the rows' kind (R288).
rest: for the shared expert, where the region's hidden rows start; below bit 59 bits 63:5 of the variant buffer that stands in for the
weights (R286), 0 for none. DESIGN CHOICE (notes/assumptions/60): unsafe. -/
def State.formPadded (s : State) (e p part l rest : Nat) : Option Form :=
  let g := engineRegion e
  let x := part / 4
  let dir := part / 2 % 2
  let ph := part % 2
  let k := phaseKind ph
  let kindOk := engineKind e == some k && s.expertLayer p l
  if x == s.exp p 0x5860 then
    let set := s.blocksOf p g k
    let n := (s.sharedRows p g l ph).2
    formIf (kindOk && decide (0 < s.exp p 0x586E) && decide (0 < n) && set.contains e
        && (dir == 0 || (s.inst p).didBlock g 0x13 (2 + ph) l))
      (keepBits rest 255 198 + setMask set * 2 ^ 128 + max (s.exp p 0x586F) n % 2 ^ 24 * 2 ^ 104) (0, 0) |>.map fun f =>
        { f with args := [bits rest 58 0 * 32] }
  else
    let set := s.weightSet p g l x k
    formIf (kindOk && decide (0 < s.padded p) && s.gathered p g l && ((s.runsOf p g ph).any fun r => r.1 == x) && set.contains e
        && (dir == 0 || (s.inst p).didBlock g 0x13 ph l))
      (setMask set * 2 ^ 128 + s.padded p % 2 ^ 24 * 2 ^ 104) (0, 0) |>.map fun f => { f with args := [bits rest 58 0 * 32] }

/-- MATMUL_LIST of a region's list, on every active block of its kind, after the padded commands of its phase (R285, R287). -/
def State.formList (s : State) (e p i l : Nat) : Option Form :=
  let g := engineRegion e
  let ph := i / 2
  let dir := i % 2
  formIf (engineKind e == some (phaseKind ph) && (s.blocksOf p g (phaseKind ph)).contains e && s.gathered p g l && s.listed p g ph
      && (s.inst p).didIn .router g 0x02 0 l && s.paddedDone p g l dir ph && (dir == 0 || (s.inst p).didBlock g 0x13 ph l))
    ((s.parts p g).list i / 64 * 2 ^ 198) (0, 0)

/-- The re-run of the producer of watched command k of prefill rows, once, on a Press block of its region (R299). -/
def State.formProducer (s : State) (e p k l : Nat) : Option Form :=
  let i := s.inst p
  match i.watches[k]? with
  | none => none
  | some r => formIf (engineKind e == some .press && engineRegion e == engineRegion r.e && r.watch.layer == l && r.stage == .admitted
      && (i.producerOf r.watch).isSome && !i.didKind .press 0x01 (projPart k 3) l && !s.underWay e 0x01 p (projPart k 3) l none) 0 (0, 0)

/-- The re-run of watched command k: a work list over the active blocks of its rows' kind in its region, after that of its producer
(R299). It is watched again (R300). -/
def State.formReRun (s : State) (e p k l : Nat) : Option Form :=
  match (s.inst p).watches[k]? with
  | none => none
  | some r =>
    let g := engineRegion r.e
    match engineKind r.e with
    | none => none
    | some kind =>
      let set := s.blocksOf p g kind
      if r.watch.layer == l && r.stage == .admitted && set.contains e
          && (if r.watch.producer.isSome then (s.inst p).didKind .press 0x01 (projPart k 3) l else (s.inst p).didKind .relay 0x42 (k + 1) l) then
        some ⟨r.key / 64 * 2 ^ 198, (0, 0), some ⟨l, r.watch.slates, r.watch.producer, set.length, some r.key, false⟩, []⟩
      else none

/-- VEC_GLU_SILU of a region, once for each phase: of the routed experts (parts 0 and 1), or of the shared one (2 and 3). -/
def State.formGlu (s : State) (e p part l : Nat) : Option Form :=
  let g := engineRegion e
  let ph := part % 2
  let ready := if part < 2 then s.gathered p g l && !(s.runsOf p g ph).isEmpty && s.workDone p g l 0 ph
    else decide (0 < s.exp p 0x586E) && decide (0 < (s.sharedRows p g l ph).2) && s.sharedDone p g l 0 ph
  formIf (s.expertLayer p l && decide (part < 4) && !(s.inst p).didBlock g 0x13 part l && !s.underWay e 0x13 p part l (some g) && ready) 0 (0, 0)

/-- The residual VEC_ADD of a layer waits on the layer's fallback cue, or in an expert layer on the region's combine (R290, R298).
rest: its job record. -/
def State.formAdd (s : State) (e p l rest : Nat) : Option Form :=
  formIf (if s.expertLayer p l then (s.inst p).didIn .relay (engineRegion e) 0x53 0 l else (s.inst p).normClosed (l + 1))
    (keepBits rest 255 198) (0, 0)

/-- What the Director forms for a relay engine. -/
def State.formRelay (s : State) (e op p part l rest : Nat) : Option Form :=
  if op == 0x40 && part == 0 then s.formFeed e p l rest
  else if op == 0x41 && part == 0 then s.formReturn e p l
  else if op == 0x42 then (if part == 0 then s.formMerge e p l rest else s.formReMerge e p (part - 1) l)
  else if op == 0x50 && part < 2 && e == 80 then s.formDispatch p part l
  else if op == 0x51 && part == 0 then s.formGather e p l
  else if op == 0x52 && part < 2 && e == 80 then s.formExpReturn p part l
  else if op == 0x53 && part == 0 then s.formCombine e p l rest
  else none

/-- What it forms for a router. -/
def State.formRouter (s : State) (e op p part l rest : Nat) : Option Form :=
  if part != 0 then none
  else if op == 0x01 then s.formRoute e p l rest
  else if op == 0x02 then s.formLists e p l
  else none

/-- What it forms for a Press or Draw block. -/
def State.formBlock (s : State) (e op p part l rest : Nat) : Option Form :=
  if op == 0x01 then (if part % 4 == 3 then s.formProducer e p (part / 4) l else s.formProjection e p (part / 4) (part % 4) l rest)
  else if op == 0x02 then (if part < 4 then (if s.expertLayer p l then s.formList e p part l else none) else s.formReRun e p (part - 4) l)
  else if op == 0x03 then s.formPadded e p part l rest
  else if op == 0x13 then s.formGlu e p part l
  else if op == 0x14 then s.formAdd e p l rest
  else none

/-- The command of layer l that the Director forms for an engine, where it is due: each once in a step. DESIGN CHOICE
(notes/assumptions/57): unsafe. -/
def State.formed (s : State) (e op p part l rest : Nat) : Option Form :=
  if (s.inst p).run.isNone || !decide (l < (s.geom p).layers) || (s.inst p).did e op part l || s.begun e op p part l then none
  else
    match engineKind e with
    | some .stack => s.formAttend e op p part l
    | some .relay => s.formRelay e op p part l rest
    | some .router => s.formRouter e op p part l rest
    | some .press => s.formBlock e op p part l rest
    | some .draw => s.formBlock e op p part l rest
    | some .codec => none
    | none => none

/-- Its descriptor (R314): latency-critical, of the serving context's generation, without a CueSignal of its own; the Director sees
its end. Its cue is advanced from other modules where the instance has any, so the remote-wait watchdog applies (R194). DESIGN CHOICE (notes/assumptions/57): unsafe. -/
def State.formedDesc (s : State) (p op : Nat) (f : Form) : Nat :=
  let c := s.servCtx p
  f.area * 2 ^ 256 + op * 2 ^ 248 + c % 2 ^ 8 * 2 ^ 240 + (s.ctx p c).gen % 2 ^ 8 * 2 ^ 232
    + b2n (f.wait.1 != 0 && decide (1 < s.instSize p)) * 2 ^ 230 + f.wait.1 / 8 % 2 ^ 61 * 2 ^ 168
    + f.wait.2 % 2 ^ 64 * 2 ^ 104 + 2 ^ 27

/-! ## Work whose job the Director lays out -/

/-- Rows of n elements in a part of an exchange area: data, then scales, at the row pitch (R278). DEDUCED (notes/assumptions/47):
unsafe. -/
def exRows (f : Fmt) (n base pitch which : Nat) : Operand :=
  ⟨base, base + dataBytes f n, if f.isK then (clampTensorScale (Config.exchangeScale which % 2 ^ 32)).1 else f32One, pitch, pitch, f, false⟩

/-- An expert format parameter. -/
def State.expFmt (s : State) (p i : Nat) : Fmt := (Fmt.ofCode (s.exp p i)).getD .bf16

/-- The operands of a direction of expert work: input, output, K and N. -/
structure ExpertJob where
  x : Operand
  y : Operand
  k : Nat
  n : Nat
deriving DecidableEq, Repr

/-- Routed experts: from Sorted to Mid, and from Act to Out (R285). -/
def State.routedJob (s : State) (p g dir : Nat) : ExpertJob :=
  let a := s.parts p g
  let z := s.rowSizes p
  let h := s.exp p 0x5867
  let w := s.exp p 0x5868
  if dir == 0 then ⟨exRows (s.expFmt p 0x5869) h (a.sorted + 64) z.inRow 0, exRows (s.expFmt p 0x586A) (2 * w) a.mid z.midRow 1, h, 2 * w⟩
  else ⟨exRows (s.expFmt p 0x586A) w a.act z.actRow 2, exRows (s.expFmt p 0x586B) h (a.out + 64) z.outRow 0, w, h⟩

/-- The shared expert: from the region's hidden rows at `base` to the Shared part (R288). -/
def State.sharedJob (s : State) (p g dir base : Nat) : ExpertJob :=
  let a := (s.parts p g).shared
  let h := s.exp p 0x5867
  let w := s.exp p 0x586E
  let pitch := s.sharedPitch p
  if dir == 0 then ⟨exRows (s.expFmt p 0x5869) h base ((s.rowSizes p).inRow - 64) 0, exRows (s.expFmt p 0x586A) (2 * w) a pitch 1, h, 2 * w⟩
  else ⟨exRows (s.expFmt p 0x586A) w (a + 8 * w) pitch 2, exRows .fp32 h (a + 12 * w) pitch 0, w, h⟩

/-- The environment and PadRows of a padded command that the Director formed. -/
def formedEnv (c : Cmd) (part l : Nat) : M (Except Nat (MatEnv × Nat)) := do
  let s ← get
  let g := engineRegion c.e
  let x := part / 4
  let dir := part / 2 % 2
  let ph := part % 2
  let entry := s.weightAt c.p l x
  let r ← load .director entry 32
  if r.poisoned then pure (.error entry)
  else do
    let shared := x == s.exp c.p 0x5860
    let j := if shared then s.sharedJob c.p g dir (bits c.area 255 198 * 64) else s.routedJob c.p g dir
    let run := if shared then s.sharedRows c.p g l ph
      else (((s.runsOf c.p g ph).find? fun y => y.1 == x).map Prod.snd).getD (0, 0)
    let pad := bits c.area 127 104
    let own := if dir == 0 then bits r.val 255 197 * 32 else bits r.val 191 133 * 32
    let w ← readOperand c.who .weight j.k (if nth c.args 0 == 0 then own else nth c.args 0)
    pure (.ok (⟨c.host, c.who, c.kind, w, j.x, j.y, none, min run.2 pad, j.n, j.k, j.k, phaseTile ph, 0, run.1, run.1, 0⟩, pad))

/-- The environment of a padded command: of its job record, or as the Director formed it. -/
def padEnvOf (c : Cmd) : M (Except Nat (MatEnv × Nat)) :=
  match c.mark with
  | none => paddedEnv c
  | some (part, l) => formedEnv c part l

/-- MATMUL_PADDED (R85, R287, R288). -/
def padBody (c : Cmd) : M End :=
  match c.mark with
  | none => bodyMatmulPadded c
  | some (part, l) => do
    match ← formedEnv c part l with
    | .error a => pure (.dropped a)
    | .ok (v, pad) => paddedShare c v pad

/-- A region's list i on one block: the list that BUILD_LISTS wrote, with a template as R285 lays it out. -/
def bodyRegionList (c : Cmd) (i : Nat) : M End := do
  let list := bits c.area 255 198 * 64
  let h ← load c.who list 64
  if h.poisoned then pure (.dropped list)
  else do
    let s ← get
    let j := s.routedJob c.p (engineRegion c.e) (i % 2)
    listPasses c list h.val ⟨0, false, false, 0, 0, 0, 0, 1, 1, j.k, 0, phaseTile (i / 2), 0⟩ j.x j.y none []

/-- The job of a matrix command and its items: a list's own, or one for a job record. DEDUCED (notes/assumptions/48): unsafe. -/
def workItems (c : Cmd) (op key : Nat) : M (Job × List Item) := do
  if op == 0x02 then do
    let h ← load c.who key 64
    let t ← load c.who (bits h.val 511 454 * 64) 64
    let is ← collect (List.range (bits h.val 447 424)) fun i => load c.who (key + 64 + 32 * i) 32
    pure (jobOf t.val, is.map fun x => itemOf x.val)
  else do
    let t ← load c.who key 64
    let j := jobOf t.val
    pure (j, [⟨j.wAddr, 0, j.m, 0, 0, j.n, 0⟩])

/-- The rows of the admitted sequences that an item covers: slate, first output row, rows and first row of the fallback area, with the
item. -/
def reRunWork (r : WatchRun) (items : List Item) : List ((Nat × Nat × Nat × Nat) × Item) :=
  (fbItems r.watch.slates r.admitted r.base).flatMap fun q =>
    (items.filter fun it => decide (it.outRow ≤ q.2.1) && decide (q.2.1 < it.outRow + it.rows)).map fun it => (q, it)

/-- An operand from a row on. -/
def Operand.fromRow (o : Operand) (row : Nat) : Operand :=
  { o with elem := o.elem + row * o.rowPitch, scale := o.scale + row * o.scalePitch }

/-- The re-run of a producer of prefill rows: the rows of the admitted sequences, into the fallback area as FP8 E4M3 (R299). -/
def bodyProducer (c : Cmd) (k : Nat) : M End := do
  let s ← get
  match (s.inst c.p).watches[k]? with
  | none => pure .done
  | some r =>
    match (s.inst c.p).producerOf r.watch with
    | none => pure .done
    | some x => do
      let (j, items) ← workItems c x.op x.key
      let a ← readOperandOnce c.who .act j.k j.aAddr []
      let acc ← readAcc c j (if x.op == 0x02 then 1 else j.n) a.2
      let area := s.fallbackArea c.p (engineRegion r.e) r.k
      let _ ← foldState (reRunWork r items) acc.2 fun seen y => do
        let (q, it) := y
        let w ← readOperandOnce c.who .weight j.k it.wAddr seen
        matmulPasses ⟨c.host, c.who, c.kind, w.1, a.1, area.fromRow q.2.2.2, acc.1.map fun o => o.fromRow q.2.1, q.2.2.1, it.cols, j.k, j.k,
          j.tileM, 0, it.actRow + (q.2.1 - it.outRow), 0, alignDown it.col (tileCols c.kind)⟩
        pure w.2
      pure .done

/-- Where a projection's output goes: a run's slots (R166), or a stack's part of the landing rows (R167). DESIGN CHOICE
(notes/assumptions/55): unsafe. -/
def State.projRecord (s : State) (c : Cmd) (x w l : Nat) : Nat :=
  let g := s.geom c.p
  if c.kind = .press then ((s.inst c.p).kvOut[x]?.map fun r => s.kvRecord c.p l r (w == 2)).getD 0
  else
    let rest := nth c.args 0
    let at' := bits rest 161 104 * 64 + x * g.feed + (if w == 0 then 0 else g.qBytes) + (if w == 2 then g.kBytes + g.ksBytes else 0)
    let pitch := bits rest 103 80 * (2 ^ 72 + 2 ^ 48)
    at' / 64 * 2 ^ 198 + pitch
      + (if w == 0 then g.q.code else (at' + g.kBytes) / 64 * 2 ^ 134 + (s.kvScale c.p l).1 * 2 ^ 96 + g.kv.code)

/-- MATMUL (R79, R166, R167, R299). -/
def matmulBody (c : Cmd) : M End := do
  let s ← get
  match c.mark with
  | none => bodyMatmul c
  | some (part, l) =>
    if part % 4 == 3 then bodyProducer c (part / 4)
    else
      let rows := if c.kind = .press then (s.inst c.p).kvOut[part / 4]?.map fun r => r.count else none
      let n := (s.geom c.p).hg * (s.geom c.p).d * (if part % 4 == 0 then (s.geom c.p).qpk else 1)
      matmulInto c rows (some (operandOf .out n ⟨s.projRecord c (part / 4) (part % 4) l, []⟩).1)

/-- The list of a re-run: an item for each admitted sequence, with the watched command's weights and output rows, and the fallback area
as activations (R299). The first copy finds every pass, the others none. DEDUCED (notes/assumptions/48): a watched list gives an item
for each of its own that covers the sequence's rows. -/
def bodyReRun (c : Cmd) (k l : Nat) : M End := do
  let s ← get
  match (s.inst c.p).watches[k]? with
  | none => pure .done
  | some r =>
    if (s.inst c.p).didKind c.kind 0x02 (4 + k) l then pure .done
    else do
      let (j, items) ← workItems c r.op r.key
      let n := if r.op == 0x02 then 1 else j.n
      let out ← readOperandOnce c.who .out n j.oAddr []
      let o := out.1
      if o.bad then pure (.dropped j.oAddr)
      else do
        let acc ← readAcc c j n out.2
        let _ ← foldState (reRunWork r items) acc.2 fun seen x => do
          let (q, it) := x
          let w ← readOperandOnce c.who .weight j.k it.wAddr seen
          matmulPasses ⟨c.host, c.who, c.kind, w.1, s.fallbackArea c.p (engineRegion c.e) r.k, o, acc.1, q.2.2.1, it.cols, j.k, j.k, j.tileM, 0,
            q.2.2.2, q.2.1, alignDown it.col (tileCols c.kind)⟩
          pure w.2
        pure .done

/-- MATMUL_LIST (R81 to R83, R285, R299). -/
def listBody (c : Cmd) : M End :=
  match c.mark with
  | none => bodyMatmulList c
  | some (part, l) => if part < 4 then bodyRegionList c part else bodyReRun c (part - 4) l

/-- VEC_GLU_SILU of the rows of a phase: x from columns 0 to W - 1 of Mid and b from the rest (R285). -/
def bodyGlu (c : Cmd) (part l : Nat) : M End := do
  let s ← get
  let g := engineRegion c.e
  let ph := part % 2
  let routed := decide (part < 2)
  let runs := s.runsOf c.p g ph
  let rows := if routed then (((runs.head?).map fun r => r.2.1).getD 0, (runs.map fun r => r.2.2).foldl (· + ·) 0)
    else s.sharedRows c.p g l ph
  let w := if routed then s.exp c.p 0x5868 else s.exp c.p 0x586E
  let mid := (if routed then s.routedJob c.p g 0 else s.sharedJob c.p g 0 0).y
  let act := (if routed then s.routedJob c.p g 1 else s.sharedJob c.p g 1 0).x
  each (List.range rows.2) fun i => do
    let x ← readRow c.who mid (rows.1 + i) 0 w
    let b ← readRow c.who mid (rows.1 + i) w w
    writeOutputs c.who act (rows.1 + i) 0
      (vecRow 0x13 0 w (x.values mid.tscale mid.fmt.isK) (b.values mid.tscale mid.fmt.isK)) (List.replicate w (x.bad || b.bad))
  unitsDone c.host (ceilDiv rows.2 16 - 1)
  pure .done

/-- VEC_GLU_SILU (R87, R285). -/
def gluBody (c : Cmd) : M End :=
  match c.mark with
  | none => bodyVec 0x13 c
  | some (part, l) => bodyGlu c part l

/-- An engine runs the command that a source names. A command of a layer that the Director forms is a descriptor of the serving
context like any other once it is formed. DESIGN CHOICE (notes/assumptions/57): unsafe. -/
def State.layerCommand (s : State) (e op : Nat) (src : CmdSource) (body : Cmd → M End) (args : List Nat) :
    Host.Outcome State Fault Refusal :=
  match src with
  | .stream _ _ => s.engineCommand e op src body args
  | .director _ _ _ => s.engineCommand e op src body args
  | .layer p part l rest =>
    match s.formed e op p part l rest with
    | none => .next s
    | some f => s.issuedCommand e op p (s.formedDesc p op f) f.watch (some (part, l)) body (f.args ++ args)

end Sys2Proof.Machine
end

