-- ==== Sys2Proof/Machine/Contexts.lean ====
section
/-! DEFINITION. Partitions, contexts, the control ring and unit boundaries (chapter "Partitions, contexts and command
queues"). -/
namespace Sys2Proof.Machine

/-! ## The control ring (R325) -/

def cOp (v : Nat) : Nat := if bits v 511 508 ≤ 6 then bits v 511 508 else 0
def cCtx (v : Nat) : Nat := bits v 507 500
def cGen (v : Nat) : Nat := bits v 499 492
def cBe (v : Nat) : Bool := bit v 491
def cEngine (v : Nat) : Nat := bits v 490 483
def cRing (v : Nat) : Nat := bits v 482 425 * 64
def cCue (v : Nat) : Nat := bits v 419 359 * 8

/-- The cue of a control entry advances by 1; it is a cue of the partition (R317). -/
def ctlCue (p a : Nat) : M Unit := signalCue (whoOf 80 p) a 1

/-- A control entry that is ignored (R325). -/
def ctlIgnored (p v : Nat) : M Unit := do
  bump (pk 0x8049 6) 1
  ctlCue p (cCue v)

/-- An entry that is executed as NOP for a field that names nothing: a clamp (R312, R325). -/
def ctlClamped (p v : Nat) : M Unit := do
  clampDesc 1
  ctlCue p (cCue v)

/-- A control entry waits (R325). -/
def holdCtl (p addr v : Nat) : M Unit := modify fun s => { s with heldCtl := s.heldCtl ++ [⟨p, addr, v⟩] }

/-- The stored fields of an entry are written back (R325). -/
def ctlBack (addr v : Nat) : M Unit := storeVal .rings addr 64 v

/-- CTX_OPEN (R326): a FREE context opens with the generation asked for, or the one after its last; an OPEN one echoes its
generation; in FENCING and QUARANTINE the entry is held. -/
def ctxOpen (p addr v : Nat) : M Unit := do
  let s ← get
  let c := cCtx v
  let x := s.ctx p c
  match x.st with
  | .free => do
    let g := if cGen v == x.gen then (x.gen + 1) % 256 else cGen v
    modify fun t => t.setCtx p c ⟨.opened, g, 0, cBe v, [], 0⟩
    ctlBack addr (setBits v 499 492 g)
    ctlCue p (cCue v)
  | .opened => do
    ctlBack addr (setBits (setBits v 499 492 x.gen) 491 491 (b2n x.beOnly))
    ctlCue p (cCue v)
  | .fencing => holdCtl p addr v
  | .quarantine => holdCtl p addr v

/-- An entry other than CTX_OPEN names the current generation of an OPEN context (R325). -/
def State.ctlValid (s : State) (p v : Nat) : Bool :=
  decide ((s.ctx p (cCtx v)).st = .opened) && (s.ctx p (cCtx v)).gen == cGen v

/-- The work of a context runs on an arbiter: its running unit. -/
def State.ctxRuns (s : State) (p c arm : Nat) : Bool :=
  match (s.engine arm).running with
  | some r => r.p == p && r.ctx == c
  | none => false

/-- The arbiters of all engines. -/
def allArms : List Nat := allEngines ++ (List.range 64).map (· + 384)

/-- The command that holds a reference has a unit granted or running: it keeps it to the end of that unit. -/
def State.refRuns (s : State) (r : CodecRef) : Bool :=
  [s.host r.e, s.host r.e + 256].any fun arm =>
    match (s.engine arm).running with
    | some x => x.e == r.e && x.p == r.p && x.ctx == r.ctx && x.desc == r.desc
    | none => false

/-- Teardown steps 1 to 4 (R328): the context is fenced; what has not started, what waits, and what it holds pending is dropped
without signals. DESIGN CHOICE (notes/assumptions/35): unsafe. -/
def fenceCtx (p c cue : Nat) : M Unit := do
  modify fun s => { s.setCtx p c { s.ctx p c with st := .fencing, cue := cue } with
    streams := s.streams.map fun x =>
      if keyPart x.1 == p && keyCtx x.1 == c then (x.1, { x.2 with head := x.2.head.filter (s.headRuns x.1) }) else x
    engines := s.engines.map fun x => (x.1, { x.2 with parts := x.2.parts.filter fun q => !(q.p == p && q.ctx == c) })
    heldCtl := s.heldCtl.filter fun h => !(h.p == p && cCtx h.entry == c && (cOp h.entry == 1 || cOp h.entry == 3))
    xferWait := s.xferWait.filter fun x => !(x.p == p && x.ctx == c)
    slots := s.slots.map fun x => (x.1, { x.2 with
      pending := x.2.pending.filter fun l => !(l.p == p && l.ctx == c) })
    codecRefs := s.codecRefs.filter fun r => !(r.p == p && r.ctx == c) || s.refRuns r }
  putRefs
  each (List.range 16) fun i => do
    let s ← get
    onlyIf (s.slotState i == 2 && s.slotRefs i == 0) (emptySlot i)

/-- CTX_TEARDOWN (R328, R329): held for the ServingContext of a running instance. -/
def ctxTeardown (p addr v : Nat) : M Unit := do
  let s ← get
  if !s.ctlValid p v then ctlIgnored p v
  else if s.serving p && cCtx v == s.servCtx p then holdCtl p addr v
  else fenceCtx p (cCtx v) (cCue v)

/-- The ring of a STREAM_BIND lies wholly in a SCRATCH placement in T0 or T1, or in an EXPORT placement in T3 (R312). -/
def State.ringPlaced (s : State) (p a n : Nat) : Bool :=
  ((lookup s.places p).getD []).any fun q =>
    decide (q.addr ≤ a) && decide (a + n ≤ q.addr + q.size) &&
      ((q.kind == kindScratch && (tierOf a).isT0T1) || (q.kind == kindExport && (tierOf a).isHost))

/-- An engine has a free stream slot: the Director's own streams use one for each serving context (R311). -/
def State.slotRoom (s : State) (e : Nat) : Bool :=
  decide ((s.streamsOf e).length + ((List.range 8).filter s.serving).length < 256)

/-- A context's work runs on an engine: on either path of a codec unit. -/
def State.ctxRunsOn (s : State) (p c e : Nat) : Bool := s.ctxRuns p c (s.host e) || (decide (128 ≤ e) && s.ctxRuns p c (s.host e + 256))

/-- A stream has a command that runs or is part-way. -/
def State.streamBusy (s : State) (p c e : Nat) : Bool :=
  let h := s.host e
  s.ctxRunsOn p c e || ((s.engine h).parts ++ (s.engine (h + 256)).parts).any fun q => q.p == p && q.ctx == c && !q.serving

/-- STREAM_BIND (R311, R312, R327); references of the codec commands that it drops stay (R153). again: the entry was held
before. DESIGN CHOICE (notes/assumptions/19): unsafe. -/
def streamBind (p addr v : Nat) (again : Bool) : M Unit := do
  let s ← get
  let c := cCtx v
  let e := cEngine v
  let l := clampTo 4 16 (bits v 424 420)
  if !s.ctlValid p v then ctlIgnored p v
  else if (engineKind e).isNone || !s.ringPlaced p (cRing v) (64 * 2 ^ l) then ctlClamped p v
  else
    let go := do
      onlyIf (l != bits v 424 420) (clampDesc 1)
      modify fun t => t.setStream p c e ⟨cRing v, l, 0, 0, none, []⟩
      ctlBack addr (setBits v 424 420 l)
      ctlCue p (cCue v)
    match s.stream p c e with
    | some _ => if s.ctxRunsOn p c e then holdCtl p addr v else go
    | none =>
      if s.slotRoom e then go
      else do
        onlyIf (!again) (bump (pk 0x8049 5) 1)
        holdCtl p addr v

/-- STREAM_UNBIND (R327): fetching stops and what has not started is dropped; the slot is freed, and the cue advances, once
the running command ends. References of dropped codec commands stay (R153). DESIGN CHOICE (notes/assumptions/19): unsafe. -/
def streamUnbind (p v : Nat) : M Unit := do
  let s ← get
  let c := cCtx v
  let e := cEngine v
  if !s.ctlValid p v then ctlIgnored p v
  else if (engineKind e).isNone then ctlClamped p v
  else
    match s.stream p c e with
    | none => ctlIgnored p v
    | some st =>
      if s.streamBusy p c e then
        modify fun t => t.setStream p c e { st with
          written := st.fetched, head := st.head.filter (s.headRuns (streamKey p c e)), unbind := st.unbind ++ [cCue v] }
      else do
        modify fun t => { t with streams := eraseKey t.streams (streamKey p c e) }
        ctlCue p (cCue v)

/-- The engines a CTX_PREEMPT or CTX_RESUME names. -/
def namedEngines (e : Nat) : List Nat := if e == 255 then allEngines else [e]

/-- CTX_PREEMPT (R331): the context stops being eligible, its commands at wait points are saved, and the cue advances when
no unit of it runs on the named engines. again: the entry was held for that; it has taken effect before. -/
def ctxPreempt (p addr v : Nat) (again : Bool) : M Unit := do
  let s ← get
  let c := cCtx v
  let e := cEngine v
  let runs := fun (t : State) => (namedEngines e).any (t.ctxRunsOn p c)
  if again then (if runs s then holdCtl p addr v else ctlCue p (cCue v))
  else if !s.ctlValid p v then ctlIgnored p v
  else if e != 255 && (engineKind e).isNone then ctlClamped p v
  else do
    let es := namedEngines e
    let x := s.ctx p c
    modify fun t => t.setCtx p c { x with preempted := x.preempted ++ es.filter fun i => !x.preempted.contains i }
    each es fun i => saveParts (s.host i) fun q => q.p == p && q.ctx == c
    let s ← get
    if runs s then holdCtl p addr v else ctlCue p (cCue v)

/-- CTX_RESUME (R331). -/
def ctxResume (p v : Nat) : M Unit := do
  let s ← get
  let c := cCtx v
  let e := cEngine v
  if !s.ctlValid p v then ctlIgnored p v
  else if e != 255 && (engineKind e).isNone then ctlClamped p v
  else do
    let es := namedEngines e
    modify fun t => t.setCtx p c { t.ctx p c with preempted := (t.ctx p c).preempted.filter fun i => !es.contains i }
    ctlCue p (cCue v)

/-- The effect of one control entry. -/
def performCtl (p addr v : Nat) (again : Bool) : M Unit :=
  match cOp v with
  | 1 => ctxOpen p addr v
  | 2 => ctxTeardown p addr v
  | 3 => streamBind p addr v again
  | 4 => streamUnbind p v
  | 5 => ctxPreempt p addr v again
  | 6 => ctxResume p v
  | _ => do
    onlyIf (bits v 511 508 != 0) (clampDesc 1)
    let s ← get
    if s.ctlValid p v then ctlCue p (cCue v) else ctlIgnored p v

/-- Held entries try again, in order. -/
def retryHeld : M Unit := do
  let s ← get
  set { s with heldCtl := [] }
  each s.heldCtl fun h => performCtl h.p h.addr h.entry true

/-- The partition's control ring is read: it is RUNNING and the Director runs. DESIGN CHOICE (notes/assumptions/35): unsafe. -/
def State.ctlReads (s : State) (p : Nat) : Bool := decide (p < 8) && s.par (pk 0x5001 (p + 1)) == 2 && s.enginesRun

/-- The control ring's address and entries. -/
def State.ctlRing (s : State) (p : Nat) : Nat × Nat := (s.eff' (pk 0x5004 (p + 1)), max 1 (s.eff' (pk 0x5005 (p + 1))))

/-- The address of the next pending control entry. -/
def State.ctlNext (s : State) (p : Nat) : Option Nat :=
  let r := s.ctlRing p
  if s.ctlReads p && s.ringUp r.1 && ahead (s.door p 5) (s.door p 6) != 0 then some (r.1 + 64 * (s.door p 6 % r.2)) else none

/-- The Director reads the next pending control entry where its Op is one of the given. A poisoned entry is passed over
(R543). -/
def takeCtl (p : Nat) (ops : List Nat) : M Bool := do
  let s ← get
  match s.ctlNext p with
  | none => pure false
  | some a =>
    let v := s.readVal .rings a 64
    let bad := !(s.badCodewords .rings a 64).isEmpty
    if bad || ops.contains (cOp v) then do
      let r ← load .rings a 64
      setDoor p 6 ((s.door p 6 + 1) % 2 ^ 32)
      if r.poisoned then recordUe a actPoisoned p 0 else performCtl p a v false
      pure true
    else pure false

/-- NOP entries, and poisoned ones, are passed; fuel bounds the ring. -/
def passNops (p : Nat) : Nat → M Unit
  | 0 => skip
  | fuel + 1 => do
    let b ← takeCtl p [0]
    if b then passNops p fuel else skip

/-- A row of the control ring: NOP entries before the next entry are passed, and the entry is taken where it is of the given
operation. A slot that an unbind has freed lets a held bind go on (R311). -/
def ctlRow (p op : Nat) : M Unit := do
  passNops p 4096
  let _ ← takeCtl p [op]
  onlyIf (op == 4) retryHeld
  passNops p 4096

/-! ## Partitions (R308) -/

/-- The parameters of this chapter that take effect when a partition starts (R333). -/
def startQueues (p : Nat) : M Unit := each [0x5004, 0x5005] fun i => do
  let v ← par (pk i (p + 1))
  setEff (pk i (p + 1)) v

/-- The module is SERVING while a partition is not STOPPED, and READY otherwise (R493). -/
def followPartitions : M Unit := do
  let s ← get
  let any := (List.range 8).any fun p => s.par (pk 0x5001 (p + 1)) != 0
  match s.mode with
  | .ready => onlyIf any (setMode .serving)
  | .serving => onlyIf (!any) (setMode .ready)
  | .off | .precharge | .boot | .selftest | .training | .draining | .fenced | .safe | .removable => skip

/-- START of a STOPPED partition: the Director reads its placement table, its geometry and its parameters. -/
def partitionStart (p : Nat) : M Unit := do
  let s ← get
  if p < 8 && s.enginesRun && s.par (pk 0x5001 (p + 1)) == 0 then do
    setPar (pk 0x5001 (p + 1)) 1
    readPlacements p
    startQueues p
    startKv p
    startExperts p
    followPartitions
  else skip

/-- The contexts of a partition in a state. -/
def State.ctxsIn (s : State) (p : Nat) (st : CtxState) : List Nat :=
  (s.ctxs.filter fun x => x.1 / 256 == p && decide (x.2.st = st)).map fun x => x.1 % 256

/-- A STOPPING partition goes on: once its instance has stopped its open contexts are torn down, and when the last has
drained it is STOPPED. In DRAINING a RUNNING partition without an instance is stopped (R508). -/
def partitionGoOn (p : Nat) : M Unit := do
  let s ← get
  let st := s.par (pk 0x5001 (p + 1))
  if (st == 3 || (st == 2 && decide (s.mode = .draining))) && !s.serving p then do
    setPar (pk 0x5001 (p + 1)) 3
    each (s.ctxsIn p .opened) fun c => fenceCtx p c 0
    let s ← get
    if (s.ctxsIn p .fencing).isEmpty then do
      setPar (pk 0x5001 (p + 1)) 0
      modify fun t => { t with heldCtl := t.heldCtl.filter fun h => h.p != p }
      followPartitions
    else skip
  else skip

/-- STOP of a RUNNING partition. A follower's part of an instance ends here. DESIGN CHOICE (notes/assumptions/35): unsafe. -/
def partitionStop (p : Nat) : M Unit := do
  let s ← get
  if p < 8 && s.par (pk 0x5001 (p + 1)) == 2 then do
    setPar (pk 0x5001 (p + 1)) 3
    if s.serving p && !s.isLead p then do
      setInst p fun i => { i with phase := .stopped, broken := true, run := none, homes := [] }
      dropIssued p
    else instanceStop p
    partitionGoOn p
  else skip

/-- A STARTING partition is RUNNING; an instance START that was held takes effect (R499). -/
def partitionRunning (p : Nat) : M Unit := do
  let s ← get
  if p < 8 && s.enginesRun && s.par (pk 0x5001 (p + 1)) == 1 then do
    setPar (pk 0x5001 (p + 1)) 2
    if s.life.instStarts.contains p && !s.vaultBusy p then do
      modify fun t => { t with life := { t.life with instStarts := t.life.instStarts.filter (· != p) } }
      instanceStart p
    else skip
    partitionGoOn p
  else skip

/-- What an end of serving lets go on: held entries, and partitions that stop. -/
def afterServing : M Unit := do
  retryHeld
  each (List.range 8) partitionGoOn

/-! ## Contexts that drain (R328) -/

/-- The context of a sequence as this module knows it: the lead from its slate, another from the notices that it applied. DESIGN CHOICE
(notes/assumptions/63): safe. -/
def State.seqCtxOf (s : State) (p v : Nat) : Option Nat :=
  if s.isLead p then some (slCtx (s.slate p v)) else lookup (s.inst p).seqCtx v

/-- The frames of a drained context are released (R174): by the next COMMIT while an instance serves, otherwise at once. -/
def releaseCtxFrames (p c : Nat) : M Unit := do
  let s ← get
  if s.serving p then skip
  else do
    let mine := ((s.reels.filter fun x => x.1 / 2 ^ 40 == p).map fun x => x.1 / 2 ^ 16 % 2 ^ 24).eraseDups.filter fun v =>
      s.seqCtxOf p v == some c
    each mine (releaseSeq p)
    releaseLate p fun _ x => x != c
    syncReels
    refreshAvail p

/-- Whether a fenced context still has a running unit. -/
def State.draining (s : State) (p c : Nat) : Bool := allArms.any fun a => s.ctxRuns p c a

/-- A fenced context has drained (R328 steps 6 and 7). DESIGN CHOICE (notes/assumptions/63): safe. -/
def contextDrained (p c : Nat) : M Unit := do
  let s ← get
  let x := s.ctx p c
  if decide (x.st = .fencing) && !s.draining p c then do
    raiseEvent 0x3 p 0 (c + x.gen * 256)
    each (s.streams.filter fun y => keyPart y.1 == p && keyCtx y.1 == c) fun y =>
      each y.2.unbind (ctlCue p)
    modify fun t => { t with streams := t.streams.filter fun y => !(keyPart y.1 == p && keyCtx y.1 == c) }
    ctlCue p x.cue
    modify fun t => t.setCtx p c { x with st := .quarantine, cue := 0, preempted := [], quarEnd := s.now + 2000000 }
    bump (pk 0x8049 11) 1
    releaseCtxFrames p c
    retryHeld
    partitionGoOn p
  else skip

/-- Quarantine ends (R324, R326): the context is FREE, and a held CTX_OPEN takes effect. -/
def contextFree (p c : Nat) : M Unit := do
  let s ← get
  let x := s.ctx p c
  if decide (x.st = .quarantine) && decide (x.quarEnd ≤ s.now) then do
    modify fun t => t.setCtx p c ⟨.free, x.gen, 0, false, [], 0⟩
    retryHeld
  else skip

/-! ## Descriptors (R313, R315, R318) -/

/-- The reference a DECODE command takes when its descriptor is fetched (R153). -/
def decodeRef (e p c d : Nat) : M Unit := do
  let s ← get
  if decide (128 ≤ e) && s.opTaken .codec p c d == 1 then do
    let h ← load (whoOf e p) (bits (d / 2 ^ 256) 255 198 * 64) 64
    onlyIf (bits h.val 471 470 != 0 && bits h.val 417 394 != extentBlocks h.val)
      (takeRef ⟨bits h.val 469 466, e, p, c, d⟩)
  else skip

/-- An engine fetches the next descriptor of a stream and checks its generation. A lent cell returns. -/
def descriptorFetch (p c e : Nat) : M Unit := do
  let s ← get
  match s.stream p c e with
  | none => skip
  | some st =>
    if st.head.isNone && st.unbind.isEmpty && decide ((s.ctx p c).st = .opened) && s.engineLive e
        && ahead st.written st.fetched != 0 then do
      let a := st.ring + 64 * (st.fetched % 2 ^ st.log2)
      let r ← load (whoOf 80 p) a 64
      let st' := { st with fetched := (st.fetched + 1) % 2 ^ 32 }
      modify fun t => t.setStream p c e st'
      setEngine (s.host e) fun q => { q with loan := none }
      if r.poisoned || !s.genOk p c r.val then do
        bump (pk 0x8049 1) 1
        onlyIf r.poisoned (recordUe a actPoisoned p c)
      else do
        let d := r.val
        let k := (engineKind e).getD .relay
        let low := !hBe d && (s.ctx p c).beOnly
        clampDesc (b2n (s.opTaken k p c d != hOpcode d) + b2n (bits d 42 27 == 0) + b2n low)
        onlyIf low (bump (pk 0x8049 3) 1)
        noteBadWait e p d
        let h : Head := ⟨d, a, hBe d || low, none, s.now⟩
        modify fun t => t.setStream p c e { st' with head := some h }
        decodeRef e p c d
        evalHead (streamKey p c e) { st' with head := some h } h
    else skip

/-- An engine sees a write to a cue word (R318): the heads, and the commands of the Director, that wait on it are evaluated again. -/
def cueWriteSeen (e a : Nat) : M Unit := do
  let s ← get
  if s.enginesRun then do
    each (s.streamsAt e) fun x =>
      match x.2.head with
      | none => skip
      | some h => if hWaitAddr h.desc == a then evalHead x.1 x.2 h else skip
    markIssued e
  else skip

/-- A command doorbell (R313): clamped to the ring, refused for a stream that is not bound or a context that is fenced. Answers the
value stored, where it is. -/
def cmdDoorbell (p v : Nat) : M (Option Nat) := do
  let s ← get
  let c := bits v 55 48
  let e := bits v 47 40
  match s.stream p c e with
  | none => do
    bump (pk 0x8049 4) 1
    pure none
  | some st =>
    if decide ((s.ctx p c).st = .opened) && st.unbind.isEmpty then do
      let w := (st.fetched + min (ahead (v % 2 ^ 32) st.fetched) (2 ^ st.log2)) % 2 ^ 32
      bump (pk 0x1F00 4) (b2n (w != v % 2 ^ 32))
      modify fun t => t.setStream p c e { st with written := w }
      pure (some (c * 2 ^ 48 + e * 2 ^ 40 + w))
    else do
      bump (pk 0x8049 4) 1
      pure none

/-! ## Part-way commands -/

/-- The command of a part. -/
def Part.cmd (arm : Nat) (q : Part) : Cmd :=
  ⟨q.e, armEngine arm, (engineKind q.e).getD .relay, q.p, q.ctx, hGen q.desc, q.desc, q.be, q.serving, q.watch, q.mark, q.start, q.args⟩

/-- The environment of a part-way padded command, read without counting clamps again. -/
def State.padEnv (s : State) (c : Cmd) : Option MatEnv :=
  match (padEnvOf c s).1 with
  | .ok (v, _) => some v
  | .error _ => none

/-- A combine of a part-way padded command can run: its count word has reached C (R85). -/
def State.combineReady (s : State) (c : Cmd) (left : List (Nat × Nat)) : Bool :=
  match s.padEnv c with
  | none => true
  | some v => left.any fun x => !(s.badCodewords v.w (countWord v x.1 x.2) 8).isEmpty
      || decide (v.chunks ≤ s.readVal v.w (countWord v x.1 x.2) 8)

/-- At a unit boundary the engine looks whether what its part-way commands, and those of the Director, wait for has come. -/
def markParts (arm : Nat) : M Unit := do
  markCollectives
  modify fun s => s.setEngine arm (let q := s.engine arm; { q with parts := q.parts.map fun x =>
    match x.wait with
    | .combine left => { x with ready := s.combineReady (x.cmd arm) left }
    | _ => x })
  markIssued arm

/-- The work of a command that the Director issues (R75, R181, R189, R229, R272, R280, R358, R360). -/
def issuedBody (c : Cmd) : M End :=
  let op := hOpcode c.desc
  match c.kind with
  | .press | .draw =>
    if op == 1 then watched matmulBody c else if op == 2 then watched listBody c else if op == 3 then watched padBody c
    else if op == 0x13 then gluBody c else if op == 0x20 then bodySample c else if op == 0 then pure .done else bodyVec op c
  | .stack => if op == 1 then bodyAttend c else pure .done
  | .relay =>
    if op == 0x40 then bodyAttnFeed c else if op == 0x41 then bodyAttnReturn c else if op == 0x42 then bodyAttnMerge c
    else if op == 0x50 then bodyDispatch c else if op == 0x51 then bodyGatherSkip c else if op == 0x52 then bodyReturn c
    else if op == 0x53 then bodyCombine c else if op == 1 then bodyCopy c
    else if 0x60 ≤ op then bodyCollective c else pure .done
  | .router => if op == 1 then bodyRoute c else if op == 2 then bodyBuildLists c else pure .done
  | .codec => pure .done

/-- Goes on with a part-way command. -/
def resumePart (c : Cmd) : Wait → M End
  | .combine left => watched (fun c => do
    let s ← get
    match s.padEnv c with
    | none => pure (.dropped (bits c.area 255 198 * 64))
    | some v => do
      let rest ← runCombines v left
      if rest.isEmpty then pure .done else pure (.wait (.combine rest))) c
  | .encode _ _ => encodePass2 c
  | .acks _ _ sent => copySend c copyFuel sent
  | .coll mask k => do
    let s ← get
    collGo c mask (s.collEnv c.p (collOf c.desc).1 mask) 256 k
  | .host _ _ _ => copyRun c
  | .vault => copyRun c
  | .rdma _ _ _ => pure .done
  | .share e => watched padBody { c with e := e }
  | .issue => issuedBody c
  | .units _ => pure .done

/-- The unit boundary of an arbiter (R320): while part-way commands win, they go on; a head that wins is the running unit
and is executed by its own command. Where nothing runs next, LC use pauses (R321). fuel bounds the part-way commands. -/
def nextUnits (arm : Nat) : Nat → M Unit
  | 0 => skip
  | fuel + 1 => do
    markParts arm
    let s ← get
    if (s.engine arm).running.isSome || (s.engine (armEngine arm)).resetting.isSome || !s.enginesRun || s.isGated (armEngine arm) then skip
    else
      match s.choose arm with
      | none => setEngine arm fun q => { q with lcSince := none }
      | some k =>
        match k.part with
        | none =>
          match s.stream k.p k.ctx k.e with
          | none => skip
          | some st =>
            match st.head with
            | none => skip
            | some h => setEngine arm fun q => { q with running := some ⟨k.e, k.p, k.ctx, h.desc, h.be, s.now⟩ }
        | some i =>
          match (s.engine arm).parts[i]? with
          | none => skip
          | some q => do
            match q.wait, (s.arrivals.filter fun a => a.p == q.p && a.ctx == q.ctx).getLast? with
            | .coll _ _, some a => noteBlame q.p a.node (s.now - q.since)
            | _, _ => skip
            setEngine arm fun x => { x with parts := x.parts.eraseIdx i }
            saveWaits arm
            match q.wait with
            | .units n => do
              noteGrant arm k
              setEngine arm fun x => { x with
                running := some ⟨q.e, q.p, q.ctx, q.desc, q.be, s.now⟩, going := some { q with wait := .units (n - 1) } }
            | w => do
              onlyIf (w == .issue) (clampDesc (b2n (bits q.desc 42 27 == 0)))
              noteGrant arm { k with part := if w == .issue then none else k.part }
              let t ← get
              let x ← resumePart (q.cmd arm) w
              endFirst (q.cmd arm) (t.engine arm).units x
              nextUnits arm fuel

/-- One failed tile, or one corrected error, of a block's cell (R88 to R90, R407, R413): kinds 0 a corrected cell-store error,
1 an uncorrectable one, 2 a residue or accumulator mismatch, 3 operand parity. rides: the re-issued tile takes a free slot of
a next pass of the same band; otherwise it runs as a pass of its own. A cell that the block no longer uses fails no tile, and a
re-issued tile runs on a cell it has not failed on. -/
def tileFailure (e cell kind tile : Nat) (rides : Bool) : M Unit := do
  let s ← get
  let cells := (lookup (s.engine e).tiles tile).getD []
  if (lookup (s.engine e).cellsDown cell).isSome || (kind != 0 && cells.contains cell) then skip else do
  let ph := s.cellPhysical ukCell e cell
  let key := relKey ukCell ph (if kind == 0 then 0 else 1)
  modify fun t => t.tally key 1
  let n ← windowAdd (relKey ukCell ph (if kind == 0 then 0 else if kind == 1 then 1 else 2)) 24 1
  let act := if kind == 0 then actCorrected else actReissued
  recordFault ⟨kind + 1, 0, ukCell, e, ph, act, 0, 0, 0, n, cell, 0⟩
  if kind == 0 then onlyIf (decide (s.par (pk 0x7020 0) ≤ n)) (cellFails e cell (kind + 1) n)
  else do
    bump (pk 0x8041 2) 1
    onlyIf (!rides) (bump (pk 0x8041 1) 1)
    onlyIf (kind == 2) (bump (pk 0x8041 3) 1)
    onlyIf (kind == 3) (bump (pk 0x8041 4) 1)
    let cells' := cells ++ [cell]
    setEngine e fun q => { q with tiles := insertAt (eraseKey q.tiles tile) tile cells', waiting := q.waiting ++ [tile] }
    onlyIf (decide (3 ≤ cells'.length)) (reportBlock e (kind + 1) cells'.length)
    onlyIf (kind == 1 || decide (s.par (pk 0x7021 0) ≤ n)) (cellFails e cell (kind + 1) n)

/-- Unbinds that waited for a running command take effect (R327). -/
def settleUnbinds (arm : Nat) : M Unit := do
  let s ← get
  each ((s.streamsAt (armEngine arm)).filter fun x => !x.2.unbind.isEmpty && !s.streamBusy (keyPart x.1) (keyCtx x.1) (keyEngine x.1))
    fun x => do
      modify fun t => { t with streams := eraseKey t.streams x.1 }
      each x.2.unbind (ctlCue (keyPart x.1))

/-- The running unit of a part-way command ends, with its last unit the command; failed tiles that do not ride in a next pass take a
pass more (R90). Of a context that is fenced the rest is not run (R328). -/
def endGoing (arm more : Nat) : M Unit := do
  let s ← get
  match (s.engine arm).going with
  | none => skip
  | some q => do
    let left := (match q.wait with | .units n => n | _ => 0) + more
    setEngine arm fun x => { x.unitEnded s.now (x.units + 1) with tiles := if left == 0 then [] else x.tiles }
    if left == 0 then completeCmd (q.cmd arm)
    else if decide ((s.ctx q.p q.ctx).st = .opened) then setEngine arm fun x => { x with parts := x.parts ++ [{ q with wait := .units left }] }
    else releaseRefs (q.cmd arm)

/-- A unit ends on an arbiter: its failed tiles are noted, held binds and unbinds take effect (R327), and the engine chooses again.
fails: cell, kind of error (plus 4 where the re-issued tile rides in a next pass) and tile. DESIGN CHOICE (notes/assumptions/3): unsafe.
DESIGN CHOICE (notes/assumptions/35): unsafe. -/
def unitComplete (arm : Nat) (fails : List (Nat × Nat × Nat)) : M Unit := do
  let s ← get
  if s.engineLive (armEngine arm) && !(s.engine (armEngine arm)).retired then do
    onlyIf (decide (arm < 64)) (setEngine arm fun q => { q with waiting := [] })
    onlyIf (decide (arm < 64)) (each fails fun f => tileFailure arm (f.1 % 16) (f.2.1 % 4) f.2.2 (decide (4 ≤ f.2.1)))
    endGoing arm (fails.filter fun f => decide (arm < 64) && decide (f.2.1 % 4 ≠ 0) && decide (f.2.1 < 4)).length
    settleUnbinds arm
    retryHeld
    nextUnits arm 4096
    settleUnbinds arm
    retryHeld
  else skip

end Sys2Proof.Machine
end

