-- ==== Sys2Proof/Machine/Limits.lean ====
section
/-! DEFINITION. Silent clamping and persistence of parameters (chapter "The Eloaphor parameter dictionary"). -/
namespace Sys2Proof.Machine

/-! ## One value (R456) -/

/-- The greatest power of two at or below v; 0 for 0. -/
def floorPow2 (v : Nat) : Nat := (List.range 64).foldl (fun a i => if 2 ^ i ≤ v then 2 ^ i else a) 0

/-- Codes that an ENUM parameter defines (R41, R161). -/
def enumCode (r : PRow) (v : Nat) : Bool :=
  decide (r.min ≤ v) && decide (v ≤ r.max) &&
    (if r.index == 0x5805 then [1, 3, 4, 0xE, 0xF].contains v
     else if r.index == 0x5806 then v == 1 || v == 3
     else true)

/-- The step in which a parameter is stored: what its Meaning states, and for addresses the low bits stored as 0. -/
def paramStep (r : PRow) (sub : Nat) : Nat :=
  if r.index == 0x5800 then 256
  else if r.index == 0x5804 || r.index == 0x5838 then 16
  else if r.index == 0x5867 || r.index == 0x5868 || r.index == 0x586E then 32
  else if r.index == 0x7200 && sub == 4 then 4096
  else match r.ty with
    | .u64 => if r.max % 4096 == 0 then 4096 else if r.max % 256 == 0 then 256 else if r.max % 64 == 0 then 64
        else if r.max % 32 == 0 then 32 else if r.max % 8 == 0 then 8 else if r.max % 4 == 0 then 4 else 1
    | _ => 1

/-- Parameters stored as a power of two (R200, R325). -/
def isPow2 (index : Nat) : Bool := index == 0x583C || index == 0x583E || index == 0x5840 || index == 0x5005

/-- An F32 value bounded: an infinity to Max or Min, NaN to the default. -/
def boundF32 (dflt lo hi v : Nat) : Nat := if f32IsNan v then dflt else if f32Lt v lo then lo else if f32Lt hi v then hi else v

/-- A value as it is stored (R456, R455). dflt: the parameter's default. The reserved bits of a wiring-plan entry are stored as 0.
DESIGN CHOICE (notes/assumptions/32): unsafe. -/
def clampValue (r : PRow) (sub dflt v : Nat) : Nat :=
  match r.ty with
  | .bool => b2n (v != 0)
  | .enum => if enumCode r v then v else dflt
  | .f32 => boundF32 dflt r.min r.max v
  | .blob => v % 256 ^ r.len
  | .str => v % 256 ^ r.len
  | .u8 | .u16 | .u32 | .u64 | .s32 | .time =>
    if r.index == 0x4003 then alignDown v (2 ^ 40)
    else
      let c := clampTo r.min r.max v
      max r.min (if isPow2 r.index then floorPow2 c else alignDown c (paramStep r sub))

/-- Storing the value clamps it: reserved bits alone do not count (R4). -/
def clamps (r : PRow) (sub dflt v : Nat) : Bool := r.index != 0x4003 && clampValue r sub dflt v != v

/-! ## Limits that depend on other parameters (R3, R388, R400, R460) -/

/-- The factory record of a user-calibration record. -/
def factoryOf (index : Nat) : Nat := index - 0x800

/-- An index holds a user-calibration record (R460). -/
def isUserCal (index : Nat) : Bool := decide (0x2810 ≤ index) && decide (index ≤ 0x295B)

/-- A cap request (R3). -/
def isCap (key : Nat) : Bool :=
  key == pk 0x3010 0 || key == pk 0x3011 0 || key == pk 0x3012 0 || key == pk 0x3100 1 || key == pk 0x3100 2

/-- The groups of 16 nodes that partitions below p leave of the prefix index: node 0x1FF_FFFF is never used, so the last whole group is
2^21 - 2 (R240, R265). -/
def State.groupsLeft (s : State) (p : Nat) : Nat :=
  2 ^ 21 - 1 - ((List.range p).map fun q => s.par (pk 0x5851 (q + 1))).foldl (· + ·) 0

/-- A stored value under the limits that other parameters set. Factory values are those in use since BOOT. -/
def State.dependValue (s : State) (key v : Nat) : Nat :=
  let index := key / 256
  let capped := if isCap key && s.par (pk 0x1002 0) == 2 then min v 3000 else v
  if key == pk 0x3100 2 then min capped (s.par (pk 0x3100 1))
  else if key == pk 0x3201 0 then min v (s.par (pk 0x3200 0))
  else if index == 0x5851 && key % 256 != 0 then min v (s.groupsLeft (key % 256 - 1))
  else if isUserCal index && key % 256 == 2 then
    let f := factoryOf index
    let base := s.eff' (pk f 1)
    let lo := s.eff' (pk f 2)
    let hi := s.eff' (pk f 3)
    match s.par (pk index 1) with
    | 1 => boundF32 0 lo hi v
    | 2 => boundF32 0 (f32Add base lo) (f32Add base hi) v
    | _ => v
  else capped

/-- The parameters whose limits a write of a parameter moves, itself among them. -/
def dependents (key : Nat) : List Nat :=
  let index := key / 256
  if key == pk 0x3100 1 then [key, pk 0x3100 2]
  else if key == pk 0x3200 0 then [key, pk 0x3201 0]
  else if index == 0x5851 && key % 256 != 0 then (List.range (9 - key % 256)).map (key + ·)
  else if isUserCal index && key % 256 == 1 then [key, pk index 2]
  else [key]

/-- The effective value of a trimmable quantity (R460). -/
def State.effective (s : State) (index : Nat) : Nat :=
  let base := s.eff' (pk (factoryOf index) 1)
  match s.par (pk index 1) with
  | 1 => f32Add base (s.par (pk index 2))
  | 2 => s.par (pk index 2)
  | _ => base

def State.putEffective (s : State) (index : Nat) : State := s.setPar (pk index 3) (s.effective index)

/-! ## Persistence (R458, R345, R414, R118) -/

/-- Kept in management flash at once: identity, factory calibration, mapped-out groups, spared lanes and dies, spares and the validity
of vault areas. DESIGN CHOICE (notes/assumptions/29): unsafe. -/
def keptAtOnce (key : Nat) : Bool :=
  let i := key / 256
  (decide (0x1001 ≤ i) && decide (i ≤ 0x1006)) || (decide (0x2000 ≤ i) && decide (i < 0x2800))
    || [0x4008, 0x4009, 0x400C, 0x7010, 0x7050, 0x7051, 0x7814].contains i

/-- Written to management flash by a commit: RWP values and role keys. DESIGN CHOICE (notes/assumptions/29): unsafe. -/
def committed (key : Nat) : Bool :=
  let i := key / 256
  (decide (0x1020 ≤ i) && decide (i ≤ 0x1022)) ||
    (match dictFind i (key % 256) with
     | some r => decide (r.acc = .rwp)
     | none => false)

/-- A commit (R458). -/
def State.commitFlash (s : State) : State :=
  ({ s with elo := { s.elo with flash := s.params.filter (fun x => committed x.1), due := none } }).setPar (pk 0x10F0 0) 0

def commitFlash : M Unit := modify State.commitFlash

/-- A die whose copy ran when power went is not spared. DESIGN CHOICE (notes/assumptions/29): unsafe. -/
def keptValue (key v : Nat) : Nat := if key / 256 == 0x7010 && v == 1 then 0 else v

/-- What RestoreDefaults does not touch: role keys, NodeId and the wiring plan. -/
def restoreSpares (key : Nat) : Bool :=
  let i := key / 256
  (decide (0x1020 ≤ i) && decide (i ≤ 0x1022)) || i == 0x4001 || i == 0x4003

/-- The parameters with which the module starts: what flash holds, and what is kept at once. DESIGN CHOICE (notes/assumptions/29):
unsafe. -/
def State.savedParams (s : State) : List (Nat × Nat) :=
  let base := s.elo.flash.filter fun x => !s.elo.restore || restoreSpares x.1
  (s.params.filter fun x => keptAtOnce x.1).foldl (fun l x => setC paramDefault l x.1 (keptValue x.1 x.2)) base

/-- A write of a parameter that a commit will take. -/
def noteWrite (key path : Nat) : M Unit := do
  let s ← get
  if committed key then do
    set { s with elo := { s.elo with due := some (s.elo.due.getD s.now), paths := insertAt s.elo.paths key path } }
    setPar (pk 0x10F0 0) 1
  else skip

/-- Checks one persisted value against the present limits at BOOT (R458); a clamp counts against the path that wrote it. -/
def bootCheck (key : Nat) : M Unit := do
  let s ← get
  match dictFind (key / 256) (key % 256) with
  | none => skip
  | some r =>
    let v := s.par key
    let w := s.dependValue key (clampValue r (key % 256) (paramDefault key) v)
    if w == v then skip
    else do
      setPar key w
      match lookup s.elo.paths key with
      | some p => bump (pk 0x1F00 p) 1
      | none => skip

end Sys2Proof.Machine
end

