-- ==== Sys2Proof/Machine/Power.lean ====
section
/-! DEFINITION. The power governor and its loops, heat, coolant, leases, trading, the BE gate and pennants (chapter "Power,
heat and the energy budget"). Powers are in W, voltages in mV, flows in mL/min, coolant temperatures in m°C. -/
namespace Sys2Proof.Machine

/-- The sum of a list. -/
def sumOf (l : List Nat) : Nat := l.foldl (· + ·) 0

/-- The grade's power ceiling (R1, R385). -/
def State.gradeCeiling (s : State) : Nat := if s.par (pk 0x1002 0) == 2 then 3000 else 4400

/-- The governor runs: the module is in READY, SERVING or DRAINING and not in standby (R492, R494). -/
def State.governed (s : State) : Bool := s.enginesRun && s.par (pk 0x7803 0) == 0

/-- Full-activity input power of an operating point (R380). -/
def opPower (op : Nat) : Nat :=
  nth [1400, 1552, 1717, 1895, 2088, 2295, 2518, 2756, 3010, 3281, 3570, 3876, 4200, 4543, 4905, 5287] op

/-- The operating point in force. -/
def State.op (s : State) : Nat := s.par (pk 0x3600 0)
/-- The duty in force (R383). -/
def State.duty (s : State) : Nat := s.par (pk 0x3604 0)

/-! ## The power limit (R385, R376, R379, R390) -/

/-- Failed units of a kind, of a region where one is named (R414). -/
def State.failedOf (s : State) (kind : Nat) (region : Option Nat) : Nat :=
  (s.retired.filter fun x => x / 2 ^ 16 == kind &&
    (match region with | some r => x / 2 ^ 14 % 4 == r | none => true)).length

/-- Phases missing of the core rails: failed ones beyond each region's spare (R379). -/
def State.missingPhases (s : State) : Nat :=
  ((List.range 4).map fun r => s.failedOf ukPhase (some r) - 1).foldl (· + ·) 0

/-- The terms of the supply: the current limit of R376, the limits of R379, the supply limit while it is in force (R390), and the hold
floor on hold-up (R391). DESIGN CHOICE (notes/assumptions/42): unsafe. -/
def State.supplyTerm (s : State) : Nat :=
  let mv := s.par (pk 0x3002 0)
  let cur := if mv == 0 then 4400 else mv * 125 / 10000
  let stages := if 2 ≤ s.failedOf ukStage none then 2400 else 4400
  let phases := 4400 - 100 * s.missingPhases
  let sup := if s.power.supply then (if s.par (pk 0x3102 0) == 1 then s.power.derate else s.par (pk 0x3012 0)) else 4400
  min (min cur stages) (min (min phases sup) (if s.power.holdUp then 700 else 4400))

/-- TradeOffset in W. -/
def State.tradeOffset (s : State) : Int := toSigned 32 (s.par (pk 0x3114 0))

/-- The budget term: Grant + TradeOffset while the lease is ACTIVE, OrphanBudget otherwise. -/
def State.budgetTerm (s : State) : Nat :=
  if s.par (pk 0x3102 0) == 1 then ((s.power.grant : Int) + s.tradeOffset).toNat else s.par (pk 0x3011 0)

/-- The pennant of the budget term. -/
def State.budgetPennant (s : State) : Nat :=
  if s.par (pk 0x3102 0) == 1 then (if s.tradeOffset < 0 then 8 else 0) else 5

/-- The terms of L with the pennant of each. -/
def State.limitTerms (s : State) : List (Nat × Nat) :=
  [(0, s.gradeCeiling), (0, s.par (pk 0x3010 0)), (s.budgetPennant, s.budgetTerm), (4, s.supplyTerm)]
    ++ s.power.coolant.toList.map fun w => (6, w)

/-- L: the lowest term, never below 700 W. -/
def State.limit (s : State) : Nat := max 700 ((s.limitTerms.map Prod.snd).foldl min 4400)

/-- PowerLimit follows L; the L that a fall is measured from is the highest since the last fall (R387, R403). -/
def putLimit : M Unit := do
  let s ← get
  setPar (pk 0x3000 0) s.limit
  setPower fun q => { q with enforced := if s.governed then max q.enforced s.limit else s.limit }

/-- What the governor applies: the lower of L and the thermal limit (R392). -/
def State.applied (s : State) : Nat := min s.limit s.power.thermal

/-! ## The BE gate (R400) -/

/-- The BE gate closes. -/
def gateClose : M Unit := do
  let s ← get
  if s.beGateOpen then do
    setPar (pk 0x3203 0) 0
    setPower fun q => { q with gateSince := s.now }
  else skip

/-- The energy account A, in units of 10 μJ: over the last EnergyWindowMs windows (BeGateLowPct × L − measured power) × 1 ms. -/
def State.account (s : State) : Int :=
  ((s.power.windows.take (s.par (pk 0x3202 0))).map fun w =>
    ((s.par (pk 0x3201 0) * w.1 : Nat) : Int) - ((100 * w.2 : Nat) : Int)).foldl (· + ·) 0

/-! ## Pennants (R401) -/

/-- Work is queued: a fetched descriptor, a running or part-way command, or a step in RUN. -/
def State.workQueued (s : State) : Bool :=
  (s.streams.any fun x => x.2.head.isSome) || (s.engines.any fun x => x.2.running.isSome || !x.2.parts.isEmpty)
    || s.insts.any fun x => x.2.run.isSome

/-- The highest operating point the governor uses: OpCeiling, or FixedOp (R402). -/
def State.topOp (s : State) : Nat :=
  if s.par (pk 0x3601 0) < 16 then min (s.par (pk 0x3601 0)) (s.par (pk 0x3602 0)) else s.par (pk 0x3602 0)

/-- The module is throttled (R401). -/
def State.throttled (s : State) : Bool :=
  s.governed && s.workQueued && (decide (s.op < s.par (pk 0x3602 0)) || s.power.stretch != 0 || s.duty != 0)

/-- The budget reason: of the terms equal to the lowest, the first of COOLANT, THERMAL, SUPPLY, LEASE, TRADE and CAP. -/
def State.budgetReason (s : State) : Option Nat :=
  let ts := s.limitTerms ++ [(1, s.power.thermal)]
  [6, 1, 4, 5, 8, 0].find? fun n => ts.any fun x => x.1 == n && max 700 x.2 == s.applied

/-- The pennants that run. -/
def State.pennantsRun (s : State) : List Nat :=
  (if s.throttled then s.budgetReason.toList else [])
    ++ (if !s.governed then [] else
      (if s.power.droop.isEmpty then [] else [2]) ++ (if s.power.ramp.isEmpty then [] else [3]) ++ (if s.duty != 0 then [7] else []))

/-- The Detail field of an episode. -/
def State.pennantDetail (s : State) (n : Nat) : Nat :=
  match n with
  | 1 => s.power.hotSensor
  | 2 => (s.power.droop.head?.map Prod.fst).getD 0
  | 3 => (s.power.ramp.head?.map Prod.fst).getD 0
  | 4 => b2n s.power.derateN + 2 * b2n s.power.sag
      + 4 * b2n (decide (s.par (pk 0x3002 0) * 125 / 10000 ≤ s.limit) && s.par (pk 0x3002 0) != 0)
      + 8 * b2n (decide (2 ≤ s.failedOf ukStage none) || s.missingPhases != 0)
  | 6 => s.power.row
  | 7 => s.duty
  | _ => s.power.leaseSeq.getD 0

/-- An episode record. -/
def episode (start stop limit power detail : Nat) : Nat :=
  start % 2 ^ 64 * 2 ^ 192 + stop % 2 ^ 64 * 2 ^ 128 + limit % 2 ^ 32 * 2 ^ 96 + power % 2 ^ 32 * 2 ^ 64
    + detail % 2 ^ 32 * 2 ^ 32

/-- A pennant starts or ends. -/
def putPennant (n : Nat) (on : Bool) : M Unit := do
  let s ← get
  let q := s.pennant n
  if on && q.since.isNone then do
    let limit := if n == 1 then s.power.thermal else s.limit
    let power := s.par (pk 0x3001 0)
    let r := episode s.now 0 limit power (s.pennantDetail n)
    setPennant n ⟨some s.now, s.now, (if 32 ≤ q.ring.length then q.ring.drop 1 else q.ring) ++ [r]⟩
    setPar (pk (0x3400 + n) 2) s.now
    raiseEvent 0x10 0xFF 0 (n + limit % 2 ^ 32 * 2 ^ 8 + power % 2 ^ 32 * 2 ^ 40)
    onlyIf (n == 1 || n == 4 || n == 6 || n == 7) gateClose
  else if !on && q.since.isSome then do
    accruePennant n
    let s ← get
    setPennant n ⟨none, 0, endEpisode s.now (s.pennant n).ring⟩
  else accruePennant n

/-- The pennants follow what runs. -/
def putPennants : M Unit := do
  let s ← get
  let on := s.pennantsRun
  each (List.range 9) fun n => putPennant n (on.contains n)

/-! ## Stretch (R382) -/

/-- The deepest stretch of the fast path: CellClk stays at 0.8 GHz or above. -/
def stretchMax (op : Nat) : Nat := min 8 (16 - ceilDiv 768 (48 + 4 * op))

/-- StretchDepth is the deepest request. -/
def putStretch : M Unit := do
  let s ← get
  let d := (s.power.droop.map fun x => x.2.s).foldl max 0
  let r := (s.power.ramp.map Prod.snd).foldl max 0
  setPar (pk 0x3603 0) (max s.power.stretch (max d r))

/-! ## Droop (R395) -/

/-- The time DROOP has run counts in its 1 s window; more than 1 % of it lowers the operating point for 10 s. -/
def accrueDroop : M Unit := do
  let s ← get
  let q := s.power
  let ran := if q.droop.isEmpty then 0 else s.now - q.droopAt
  let win := if q.droopWin.1 + 1000000000 ≤ s.now then (s.now, 0) else (q.droopWin.1, q.droopWin.2 + ran)
  if 10000000 < win.2 then
    setPower fun x => { x with droopAt := s.now, droopWin := (s.now, 0), lowered := some (s.now + 10000000000) }
  else setPower fun x => { x with droopAt := s.now, droopWin := win }

/-- A region's voltage is below the droop threshold (R395): stretch 4 at the onset, which counts, and 8 where the voltage is still low 8
cycles of CellClk later, of 60 / (48 + 4 n) ns at OPn (R380). A fall after a recovery is an onset. -/
def droopRow (region : Nat) : M Unit := do
  let s ← get
  if region < 4 && s.governed then do
    accrueDroop
    let onset := fun (d : Nat) => (do
      setPower fun x => { x with droop := insertAt x.droop region ⟨max d 4, s.now, s.now, true⟩ }
      bump (pk 0x8051 4) 1 : M Unit)
    match lookup s.power.droop region with
    | none => onset 0
    | some d =>
      if !d.low then onset d.s
      else setPower fun x => { x with
        droop := insertAt x.droop region { d with s := if 480 ≤ (s.now - d.start) * (48 + 4 * s.op) then 8 else d.s, since := s.now } }
    putStretch
    putPennants
  else skip

/-- The voltage has recovered for 256 ns: stretch falls by 1, and by 1 each 64 ns after. -/
def droopRelease (region : Nat) : M Unit := do
  let s ← get
  match lookup s.power.droop region with
  | none => skip
  | some d =>
    if d.since + 256 ≤ s.now then do
      accrueDroop
      setPower fun x => { x with
        droop := if d.s ≤ 1 then eraseKey x.droop region else insertAt x.droop region ⟨d.s - 1, s.now - 192, d.start, false⟩ }
      putStretch
      putPennants
    else skip

/-! ## The ramp limiter (R396) -/

/-- The blocks and codec units of a region. -/
def rampEngines (region : Nat) : List Nat := allEngines.filter fun e => engineRegion e == region && (e < 64 || 128 ≤ e)

/-- An engine has a unit to run. -/
def State.engineWorks (s : State) (e : Nat) : Bool := !s.blockIdle e || (decide (128 ≤ e) && !s.blockIdle (e + 256))

/-- The first of a region's engines that a slot admits: two blocks and four codec units, lowest numbers first. -/
def slotOfRegion (l : List Nat) : List Nat := (l.filter fun e => e < 64).take 2 ++ (l.filter fun e => 128 ≤ e).take 4

/-- The table's index of an engine's kind. -/
def rampKind (e : Nat) : Nat := if e < 48 then 0 else if e < 64 then 1 else 2

/-- The estimated current step of an engine that starts or stops, in mA, by the factory table (R396). classes: the format class of each
engine, by engine. -/
def State.rampStep (s : State) (classes : List (Nat × Nat)) (e : Nat) : Nat :=
  Config.rampStep (rampKind e) ((lookup classes e).getD 0) s.op

/-- The engines, in order, whose steps together stay within 9.6 A (R396). -/
def rampWithin (step : Nat → Nat) : Nat → List Nat → List Nat
  | _, [] => []
  | sum, e :: l => if sum + step e ≤ 9600 then e :: rampWithin step (sum + step e) l else []

/-- Stretch at which the estimated rise of restarts fits 9.6 A: raised by 1, up to 8, for as long as it does not; fuel. -/
def rampFit (rise : Nat) : Nat → Nat → Nat
  | 0, s => s
  | fuel + 1, s => if rise * (16 - s) / 16 ≤ 9600 || 8 ≤ s then s else rampFit rise fuel (s + 1)

/-- One 64 ns slot of a region. classes: the format class of each engine that restarts or is gated, by engine. -/
def rampSlot (region : Nat) (classes : List (Nat × Nat)) : M Unit := do
  let s ← get
  if region < 4 && s.governed then do
    let es := rampEngines region
    let want := es.filter fun e => s.power.gated.contains e && s.engineWorks e
    let start := slotOfRegion want
    let idle := es.filter fun e => !s.power.gated.contains e && !s.engineWorks e && decide ((s.engine e).progress + 1000 ≤ s.now)
    let stop := rampWithin (s.rampStep classes) 0 (slotOfRegion idle)
    let rise := sumOf (start.map (s.rampStep classes))
    let cur := (lookup s.power.ramp region).getD 0
    let held := start.length < want.length
    let next := if start.isEmpty then cur - 1 else rampFit rise 9 cur
    setPower fun x => { x with
      gated := (x.gated.filter fun e => !start.contains e) ++ stop
      ramp := if next == 0 && !held then eraseKey x.ramp region else insertAt (eraseKey x.ramp region) region next }
    onlyIf (next != 0) (bump (pk 0x8051 5) 1)
    putStretch
    putPennants
  else skip

/-! ## The supply (R375, R379, R390, R391) -/

/-- A cause of the supply limit sets in. -/
def supplyOnset (f : PowerSt → PowerSt) : M Unit := do
  let s ← get
  onlyIf (!s.power.supply) (bump (pk 0x8051 6) 1)
  setPower fun x => { f x with supply := true, clearAt := none }
  putLimit

/-- A cause clears: with both clear, the 1 s of R390 starts. -/
def supplyCleared (f : PowerSt → PowerSt) : M Unit := do
  let s ← get
  let q := f s.power
  setPower fun _ => { q with clearAt := if q.supply && !q.derateN && !q.sag then some (q.clearAt.getD s.now) else none }

/-- A sample of the input voltage. -/
def putVolts (mv : Nat) : M Unit := do
  setPar (pk 0x3002 0) mv
  setPower fun x => { x with volts := (x.volts ++ [mv]).drop (x.volts.length - 63) }

/-- The island or the Director runs: the module is powered. -/
def State.powered (s : State) : Bool :=
  match s.mode with
  | .off | .precharge => false
  | .boot | .selftest | .training | .ready | .serving | .draining | .fenced | .safe | .removable => true

/-- The input is at 350 V or above, so that it no longer sags (R390). -/
def sagOver (mv : Nat) : M Unit := do
  let s ← get
  onlyIf (s.power.sag && decide (350000 ≤ mv)) (supplyCleared fun x => { x with sag := false })

/-! ## The governor (R381, R386, R387, R402) -/

/-- The operating point and duty that keep what the work draws within 0.98 of the limit (R386). draw: the 1 ms average that the
present work draws at each operating point, then at OP0 with duty 1 to 14. DESIGN CHOICE (notes/assumptions/41): safe. -/
def State.govern (s : State) (draw : List Nat) : Nat × Nat :=
  let lim := s.applied
  let fits := fun w : Nat => decide (w * 100 ≤ 98 * lim)
  let floor := ((List.range 14).find? fun d => fits (draw.getD (16 + d) 0)).map (· + 1)
  if s.par (pk 0x3601 0) < 16 then
    match ((List.range (s.topOp + 1)).reverse).find? fun op => decide (opPower op ≤ lim) with
    | some op => (op, 0)
    | none => (0, ((List.range 14).find? fun d => decide (opPower 0 - 50 * (d + 1) ≤ lim)).map (· + 1) |>.getD 14)
  else
    match ((List.range (s.topOp + 1)).reverse).find? fun op => fits (draw.getD op 0) with
    | some op => (op, 0)
    | none => (0, floor.getD 14)

/-- One period of the governor. avg: the 1 ms average of input power; mv: input voltage. A rise of L takes effect here. DESIGN CHOICE
(notes/assumptions/41): safe. -/
def governorPeriod (avg mv : Nat) (draw : List Nat) : M Unit := do
  let s ← get
  if s.governed then do
    setPar (pk 0x3001 0) avg
    setPar (pk 0x3002 0) mv
    setPower fun x => { x with volts := (x.volts ++ [mv]).drop (x.volts.length - 63) }
    sagOver mv
    putLimit
    accrueDroop
    let s ← get
    setPower fun x => { x with lowered := match x.lowered with | some t => if t ≤ s.now then none else x.lowered | none => none }
    let s ← get
    let g := s.govern draw
    let op := if s.power.lowered.isSome then g.1 - 1 else g.1
    setPower fun x => { x with target := op, dutyTo := g.2 }
    if s.op == op then do
      onlyIf (!s.power.fast) (do
        setPar (pk 0x3604 0) g.2
        setPower fun x => { x with stretch := 0 })
    else onlyIf (decide (s.op < op) && !s.power.fast) (setPar (pk 0x3604 0) 0)
    onlyIf (decide (s.par (pk 0x3200 0) * s.limit ≤ avg * 100)) gateClose
    putStretch
    putPennants
  else skip

/-- L has fallen (R387): the BE gate closes and the fast path starts. -/
def fastPath : M Unit := do
  putLimit
  let s ← get
  if s.governed && decide (s.limit < s.power.enforced) then do
    gateClose
    setPower fun x => { x with enforced := s.limit, fast := true }
    bump (pk 0x8051 3) 1
    putPennants
  else skip

/-- One 2 us step of the fast path, to the depths it applies: the 10 us average is at or below L, or it deepens. DESIGN CHOICE
(notes/assumptions/41): safe. -/
def fastPathStep (avg stretch duty : Nat) : M Unit := do
  let s ← get
  if s.governed && s.power.fast then do
    if avg ≤ s.limit then setPower fun x => { x with fast := false }
    else do
      setPower fun x => { x with stretch := clampTo s.power.stretch (max s.power.stretch (stretchMax s.op)) stretch }
      setPar (pk 0x3604 0) (clampTo s.duty 15 duty)
    putStretch
    putPennants
  else skip

/-- One step of the operating point completes (R381); as the target takes over, stretch and duty are released (R387). -/
def opStep : M Unit := do
  let s ← get
  if s.governed && s.op != s.power.target then do
    let op := if s.op < s.power.target then s.op + 1 else s.op - 1
    setPar (pk 0x3600 0) op
    bump (pk 0x8051 2) 1
    setPower fun x => { x with stretch := min x.stretch (stretchMax op) }
    onlyIf (op == s.power.target && !s.power.fast) (do
      setPar (pk 0x3604 0) s.power.dutyTo
      setPower fun x => { x with stretch := 0 })
    putStretch
    putPennants
  else skip

/-! ## Leases (R388, R389) and what trades end with them (R399) -/

/-- TradeOffset is set. -/
def putOffset (z : Int) : M Unit := setPar (pk 0x3114 0) (ofSigned 32 z)

/-- A receiver lowers at once by what it owes, and returns it. -/
def returnAll : M Unit := do
  let s ← get
  let sum := sumOf (s.power.owes.map Prod.snd)
  putOffset (s.tradeOffset - (sum : Int))
  each s.power.owes fun x => emit (.tradeToken x.1 false x.2)
  setPower fun x => { x with owes := [] }

/-- LeaseCommit is written. -/
def leaseCommit (v : Nat) : M Unit := do
  let s ← get
  let q := s.power
  let seq := s.par (pk 0x3100 3)
  if v == 1 then
    let newer := match q.leaseSeq with | some k => decide (k < seq) | none => true
    if newer || s.par (pk 0x3102 0) == 2 then do
      let grant := s.par (pk 0x3100 1)
      let group := s.par (pk 0x3100 4)
      onlyIf (grant != q.grant || group != q.group) (do
        returnAll
        setPower fun x => { x with ending := x.owed.map fun o => (o.1, o.2, 0) })
      setPower fun x => { x with leaseSeq := some seq, grant := grant, derate := s.par (pk 0x3100 2), group := group }
      setPar (pk 0x3102 0) 1
      setPar (pk 0x3103 0) (s.now + 30000000000)
      putLimit
    else bump (pk 0x8051 9) 1
  else skip

/-- Fabric time passes LeaseExpiry. -/
def leaseExpiry : M Unit := do
  let s ← get
  if s.par (pk 0x3102 0) == 1 && decide (s.par (pk 0x3103 0) < s.now) then do
    setPar (pk 0x3102 0) 2
    putOffset 0
    setPower fun x => { x with owes := [], owed := [], ending := [], silent := [], blame := [], reports := [], planAt := none }
    putLimit
    putPennants
  else skip

/-- The input has been below 350 V for 50 us. DESIGN CHOICE (notes/assumptions/42): unsafe. -/
def supplySag (mv : Nat) : M Unit := do
  let s ← get
  if s.powered && mv < 350000 then do
    putVolts mv
    onlyIf (!s.power.sag) (supplyOnset fun x => { x with sag := true })
  else skip

/-- DERATE_N is asserted, or released. -/
def derateAssert : M Unit := do
  let s ← get
  if s.powered && !s.power.derateN then supplyOnset fun x => { x with derateN := true } else setPower fun x => { x with derateN := true }

/-- DERATE_N is released (R390). -/
def derateRelease : M Unit := do
  let s ← get
  if s.power.derateN then supplyCleared fun x => { x with derateN := false } else skip

/-- 1 s after both causes have cleared the supply limit ends. -/
def supplyLimitClear : M Unit := do
  let s ← get
  match s.power.clearAt with
  | none => skip
  | some t =>
    if t + 1000000000 ≤ s.now then do
      setPower fun x => { x with supply := false, clearAt := none }
      putLimit
    else skip

/-- The converter stops drawing below 330 V, or above 430 V: the module runs on hold-up at the hold floor. DESIGN CHOICE
(notes/assumptions/42): unsafe. -/
def converterStop (mv : Nat) (high' : Bool) : M Unit := do
  let s ← get
  if s.powered && !s.power.holdUp && (if high' then decide (430000 < mv) else decide (mv < 330000)) then do
    putVolts mv
    setPower fun x => { x with holdUp := true, overVolt := high' }
    putLimit
  else skip

/-- The lockout that stopped the converter lets it go again (R375): above 350 V after an undervoltage, below 425 V after an overvoltage,
and in either case within the other lockout's threshold. -/
def PowerSt.restarts (q : PowerSt) (mv : Nat) : Bool :=
  q.holdUp && if q.overVolt then decide (330000 ≤ mv) && decide (mv < 425000) else decide (350000 < mv) && decide (mv ≤ 430000)

/-- The input is back (R375, R390, R391): the converter restarts where its lockout lets it go, and after an undervoltage the supply limit
applies; an input at 350 V or above no longer sags. DESIGN CHOICE (notes/assumptions/42): unsafe. -/
def inputRestart (mv : Nat) : M Unit := do
  let s ← get
  if s.powered then do
    putVolts mv
    sagOver mv
    onlyIf (s.power.restarts mv) (do
      onlyIf (!s.power.overVolt) (do
        supplyOnset fun x => x
        supplyCleared fun x => x)
      setPower fun x => { x with holdUp := false, overVolt := false })
    putLimit
  else skip

/-- The spare phase key of a region. -/
def sparePhaseKey (region : Nat) : Nat := pk 0x7050 (0x56 + region)

/-- The phase that is the spare of a region: the highest number at reset (R406), or the one that a restore made it (R414). -/
def State.sparePhase (s : State) (region : Nat) : Nat := (lookup s.phys (unitKey ukPhase region 31)).getD 12

/-- A regulator phase of a region, or a converter stage, has failed (R416, R379): the spare takes over, or the supply limit falls. occ: how
often the error that failed it occurred in its window. DESIGN CHOICE (notes/assumptions/53): unsafe. -/
def powerUnitFails (stage : Bool) (region unit occ : Nat) : M Unit := do
  let s ← get
  let kind := if stage then ukStage else ukPhase
  let ph := if stage then physical 0 unit 0 else physical region unit 0
  if s.retired.contains (failedKey kind ph) then skip
  else do
    let key := sparePhaseKey (region % 4)
    let isSpare := !stage && s.par key == 0 && unit == s.sparePhase region
    let spare := if stage then s.failedOf ukStage none == 0 else s.par key == 0 && !isSpare
    noteFailed kind ph
    recordFault ⟨0x0E, 3, kind, 0xFF, ph, if spare then actSpared else actRetired, 0, 0, 0, occ, if isSpare then 31 else unit, 0⟩
    onlyIf spare (bump (pk 0x8052 3) 1)
    onlyIf (!stage) (if isSpare then setPar key 2 else onlyIf spare (setPar key 1))
    putLimit

/-- The times at which a sign of R416 has shown on a unit, within its window. -/
def State.signs (s : State) (key window : Nat) : List (Nat × Nat) :=
  s.power.signs.filter fun x => x.1 != key || decide (s.now < x.2 + window)

/-- A sign of a failing regulator phase or converter stage is sensed (R416): the third overcurrent trip within 1 s, an output more than 50 mV
off for 10 us and 125 °C fail a phase; an output fault, 120 °C and the third input fault within 1 h fail a stage. -/
def powerUnitFailure (sign : PowerSign) (region unit : Nat) : M Unit := do
  let s ← get
  let nth3 := fun (stage : Bool) (window : Nat) => (do
    let key := failedKey (if stage then ukStage else ukPhase) (if stage then physical 0 unit 0 else physical region unit 0)
    let l := s.signs key window ++ [(key, s.now)]
    let n := (l.filter fun x => x.1 == key).length
    setPower fun x => { x with signs := if 3 ≤ n then l.filter fun x => x.1 != key else l }
    onlyIf (decide (3 ≤ n)) (powerUnitFails stage region unit n) : M Unit)
  if !s.powered then skip
  else match sign with
    | .trip => nth3 false 1000000000
    | .output mv ns => onlyIf (decide (50 < mv) && decide (10000 ≤ ns)) (powerUnitFails false region unit 1)
    | .heat c => onlyIf (decide (125 ≤ c)) (powerUnitFails false region unit 1)
    | .stageOutput => powerUnitFails true region unit 1
    | .stageHeat c => onlyIf (decide (120 ≤ c)) (powerUnitFails true region unit 1)
    | .stageInput => nth3 true hourNs

/-! ## Restored units (R414) -/

/-- The spare place of a failed unit (R414): its SpareState parameter, or none for a cell of a block that no longer runs. A converter stage
has no such parameter. Unit numbers are those of R406. -/
def State.restoreKey (s : State) (v : Nat) : Option Nat :=
  let kind := v / 2 ^ 16
  let r := bits v 15 14
  let u := bits v 13 9
  if kind == ukCell then (if s.blockAt r u == 0xFF then none else some (spareCellKey (s.blockAt r u)))
  else if kind == ukBlock then some (pk 0x7050 (if u < 13 then 0x41 + r else 0x45 + r))
  else if kind == ukAttnCore then some (spareCoreKey (3 * r + (u - 18) % 3))
  else if kind == ukDirector then some spareDirectorKey
  else if kind == ukPhase then some (sparePhaseKey r)
  else none

/-- A restored unit becomes the spare of its kind, all of a block's cells with it. -/
def becomeSpare (v key : Nat) : M Unit := do
  let s ← get
  let kind := v / 2 ^ 16
  let r := bits v 15 14
  let u := bits v 13 9
  let e := if kind == ukCell then s.blockAt r u else 64 + (key % 256 - 0x49)
  onlyIf (kind == ukCell || kind == ukAttnCore) (modify fun t => t.setPhys kind e 31 (bits v 8 4))
  onlyIf (kind == ukDirector) (modify fun t => t.setPhys kind 0 31 u)
  onlyIf (kind == ukPhase) (modify fun t => t.setPhys kind r 31 u)
  onlyIf (kind == ukBlock) (modify fun t =>
    let t := t.setPhys kind (192 + 2 * r + b2n (decide (13 ≤ u))) 31 u
    { t with tests := (List.range 17).foldl (fun l c => insertAt l (testKey ukCell (physical r u c)) (0, t.now)) t.tests })

/-- UnitRestore (R414): a failed unit that passes its test becomes the spare of its kind where that place is free; a phase or stage that was
missing runs again (R379). The record is that of a commanded action. DESIGN CHOICE (notes/assumptions/53): unsafe. -/
def unitRestore (v : Nat) (pass : Bool) : M Unit := do
  let s ← get
  let kind := v / 2 ^ 16
  let free := kind == ukStage || match s.restoreKey v with | some key => s.par key != 0 | none => false
  if s.retired.contains v && pass && free then do
    modify fun t => { t with retired := t.retired.filter (· != v), tests := insertAt t.tests v (0, t.now) }
    let left := (s.failedOf ukPhase (some (bits v 15 14))) - 1
    match s.restoreKey v with
    | none => skip
    | some key => do
      setPar key (b2n (kind == ukPhase && left != 0))
      becomeSpare v key
    recordFault ⟨ekCommanded, if kind == ukCell then 0 else if kind == ukBlock then 2 else 3, kind, 0xFF, v % 2 ^ 16, actRestored, 0, 0, 0, 1, 31, 0⟩
    putLimit
  else skip

/-! ## Heat and coolant (R392 to R394) -/

/-- The thermal controller compares (R392). hottest: the hottest estimate in °C; avg: input power over the last 1 ms. -/
def thermalCompare (hottest : Int) (avg sensor : Nat) : M Unit := do
  let s ← get
  if s.governed then do
    let top := s.gradeCeiling
    let e := hottest - (s.par (pk 0x3300 0) : Int)
    let lt := s.power.thermal
    let new := if 0 < e then min lt (((avg : Int) * (100 - 2 * e) / 100).toNat)
      else if e ≤ -1 then min top (lt + top / 100)
      else lt
    setPower fun x => { x with thermal := max 700 new, hotSensor := sensor }
    setPar (pk 0x3301 0) (ofSigned 32 hottest)
    modify fun t => { t with life := { t.life with peak := some (match t.life.peak with | some k => max k hottest | none => hottest) } }
    putPennants
  else skip

/-- The FP32 value of z / 1000. -/
def f32Milli (z : Int) : Nat := f32Quot (decide (z < 0)) z.natAbs 1000 0

/-- The coolant row and term (R394). -/
def coolantRow (pump : Bool) (flow : Nat) (inlet : Int) : Nat × Option Nat :=
  if pump then (1, some 700)
  else if 800 ≤ flow && flow ≤ 1200 then (2, some (4400 * flow / 1200))
  else if 45000 < inlet then (3, some (4400 - (inlet - 45000).toNat * 200 / 1000))
  else if inlet < 17000 then (4, none)
  else (5, none)

/-- A sample of the coolant sensors (R394, R538). DESIGN CHOICE (notes/assumptions/44): unsafe. -/
def coolantSample (flow : Nat) (inlet outlet : Int) : M Unit := do
  let s ← get
  if s.powered then do
    let q := s.power
    let boot := decide (s.mode = .boot)
    let low := if flow < 800 then q.flowLow + 1 else 0
    let rise := match q.outlets[249]? with | some o => decide (500 < outlet - o) | none => false
    let up := match q.outlets.head? with | some o => decide (o < outlet) | none => false
    let ok := if 1200 ≤ flow then some (q.flowOk.getD s.now) else none
    let detect := decide (3 ≤ low) || rise || (boot && decide (flow < 800))
    let high' := !up && (match ok with | some t => decide (t + 10000000000 ≤ s.now) | none => false)
    let pump := detect || (q.pumpLoss && !high')
    let r := coolantRow pump flow inlet
    setPar (pk 0x3302 0) (f32Milli inlet)
    setPar (pk 0x3303 0) (f32Milli outlet)
    setPar (pk 0x3304 0) (f32Milli flow)
    setPar (pk 0x3305 0) (if r.1 == 1 then 2 else if r.1 ≤ 3 then 1 else 0)
    onlyIf (pump && !q.pumpLoss) (bump (pk 0x8051 7) 1)
    onlyIf (r.1 == 4 && !q.cold) (raiseEvent 0x12 0xFF 0 (f32Milli inlet))
    setPower fun x => { x with flowLow := low, flowOk := ok, outlets := (outlet :: x.outlets).take 250, pumpLoss := pump, row := r.1
                               coolant := r.2, cold := r.1 == 4 }
    putLimit
    onlyIf s.governed putPennants
  else skip

/-- A command that waits for the data of a host port goes on when none of its reads is left. -/
def Part.hostDone (left : List (Nat × Nat × Nat × Nat)) (h : Nat) (q : Part) : Part :=
  match q.wait with
  | .host port a n =>
    if port == h && !(left.any fun r => r.1 == h && decide (r.2.1 < a + n) && decide (a < r.2.1 + r.2.2.1)) then { q with ready := true }
    else q
  | _ => q

/-- A host window goes down: reads that wait for its data return all ones (R98). DESIGN CHOICE (notes/assumptions/44): unsafe. -/
def windowLost (h : Nat) : M Unit := modify fun s => { s with
    hostReads := s.hostReads.filter fun r => r.1 != h
    engines := s.engines.map fun x => (x.1, { x.2 with parts := x.2.parts.map (Part.hostDone [] h) }) }

/-- A host port's link goes down. -/
def portDown (h : Nat) : M Unit := do
  setHostPort h fun q => { q with up := false, latch := none }
  windowLost h

/-- Groups and host ports go off with the compute rails, and every engine stops. -/
def railsOff (links ports : Bool) : M Unit := do
  modify fun t => { t with engines := t.engines.map fun x => (x.1, { x.2 with running := none, going := none, resetting := none, loan := none }) }
  onlyIf links (quietLinks true)
  onlyIf ports (each (List.range 4) portDown)

/-- A junction sensor against the trip: the reading with the factory offset or the effective one, whichever is hotter (R460). -/
def State.tripped (s : State) (sensor : Nat) (raw : Int) : Bool :=
  let hot := fun off : Nat => !(((Val.ofInt raw).add (f32Val off)).lt (Val.ofInt 110))
  hot (s.eff' (pk (0x2100 + sensor) 1)) || hot (s.par (pk (0x2900 + sensor) 3))

/-- The thermal trip (R393). DESIGN CHOICE (notes/assumptions/44): unsafe. -/
def thermalTrip (sensor : Nat) (raw : Int) : M Unit := do
  let s ← get
  if s.powered && s.mode != .safe && s.tripped sensor raw then do
    bump (pk 0x8051 8) 1
    sendNotice 3 s.nodeId 0
    railsOff true true
    vaultInterrupt
    pauseCopies true
    setPar (pk 0x8001 0) 0
    quietPower
    onlyIf s.dumpRun.isNone (startDump 2 0 (modeCode s.mode))
    setMode .safe
  else skip

/-! ## The energy account (R400) -/

/-- A 1 ms window ends with its average power: what the module draws counts in every state in which it is powered (R404), and the energy
account takes in every window since BOOT (R400). -/
def energyWindow (avg : Nat) : M Unit := do
  let s ← get
  if s.powered then do
    setPar (pk 0x3001 0) avg
    bump (pk 0x8051 1) avg
    setPower fun x => { x with windows := ((s.limit, avg) :: x.windows).take 10000 }
    modify fun t => { t with life := { t.life with powerSum := (t.life.powerSum.1 + avg, t.life.powerSum.2 + 1) } }
    let s ← get
    let bad := [1, 4, 6, 7].any fun n => (s.pennant n).since.isSome
    if !s.governed then skip
    else if decide (s.par (pk 0x3200 0) * s.limit ≤ avg * 100) || bad then gateClose
    else
      onlyIf (!s.beGateOpen && decide (s.power.gateSince + 1000000 ≤ s.now) && decide (avg * 100 ≤ s.par (pk 0x3201 0) * s.limit)
        && decide (0 ≤ s.account)) (setPar (pk 0x3203 0) 1)
  else skip

/-! ## Trading (R397 to R399) -/

/-- The members that this module lists, itself left out. TradeMembers holds 64 NodeIds. -/
def State.tradeMembers (s : State) : List Nat :=
  let b := toBytes (s.par (pk 0x3110 0)) 128
  ((List.range 64).map fun i => ofBytes ((b.drop (2 * i)).take 2)).filter fun n => n != 0xFFFF && n != s.nodeId

/-- The module trades: its lease is ACTIVE in a group. -/
def State.trades (s : State) : Bool := s.governed && s.par (pk 0x3102 0) == 1 && s.power.group != 0

/-- Lateness of a node: the blame that the other members assign to it. -/
def lateness (rs : List TradeReport) (j : Nat) : Nat :=
  ((rs.filter fun r => r.node != j).map fun r => (lookup r.blame j).getD 0).foldl (· + ·) 0

/-- w W split over shares in proportion, in whole W, the sum exact. DESIGN CHOICE (notes/assumptions/43): unsafe. -/
def splitShares (w total : Nat) : Nat → List (Nat × Nat) → List (Nat × Nat)
  | _, [] => []
  | cum, (j, x) :: l => (j, w * (cum + x) / total - w * cum / total) :: splitShares w total (cum + x) l

def addOwed (l : List (Nat × Nat)) (j w : Nat) : List (Nat × Nat) :=
  let v := (lookup l j).getD 0 + w
  if v == 0 then eraseKey l j else insertAt (eraseKey l j) j v

def lessOwed (l : List (Nat × Nat)) (j w : Nat) : List (Nat × Nat) :=
  let v := (lookup l j).getD 0 - w
  if v == 0 then eraseKey l j else insertAt (eraseKey l j) j v

/-- A member without reports for long loses its entry in the ledger (R399): after 3 windows what is owed to it is dropped and
lowered, after 5 what it owes is taken back. -/
def tradeSilent (j : Nat) : M Unit := do
  let s ← get
  let n := (lookup s.power.silent j).getD 0
  match lookup s.power.owes j with
  | some w => onlyIf (decide (3 ≤ n)) (do
      putOffset (s.tradeOffset - (w : Int))
      setPower fun x => { x with owes := eraseKey x.owes j })
  | none => skip
  let s ← get
  match lookup s.power.owed j with
  | some w => onlyIf (decide (5 ≤ n)) (do
      putOffset (s.tradeOffset + (w : Int))
      setPower fun x => { x with owed := eraseKey x.owed j })
  | none => skip

/-- The plan of R398 on the reports held, this module's own among them. DESIGN CHOICE (notes/assumptions/43): unsafe. -/
def tradePlan (rs : List TradeReport) : M Unit := do
  let s ← get
  let limitNs := s.par (pk 0x3113 0)
  let late := fun j => decide (limitNs ≤ lateness rs j)
  let me := s.nodeId
  let grant := s.power.grant
  let step := s.par (pk 0x3112 0) * grant / 1000
  let lates := (rs.filter fun r => r.node != me && late r.node)
  if !late me && !lates.isEmpty then do
    let give := min step ((s.tradeOffset + (grant / 4 : Nat)).toNat)
    let total := (lates.map fun r => lateness rs r.node).foldl (· + ·) 0
    let parts := (splitShares give (max 1 total) 0 (lates.map fun r => (r.node, lateness rs r.node))).map fun x =>
      let room := match lates.find? fun r => r.node == x.1 with
        | some r => ((r.grant / 4 : Nat) - r.offset : Int).toNat
        | none => 0
      (x.1, min x.2 room)
    let sum := sumOf (parts.map Prod.snd)
    putOffset (s.tradeOffset - (sum : Int))
    each (parts.filter fun x => x.2 != 0) fun x => do
      setPower fun q => { q with owed := addOwed q.owed x.1 x.2 }
      emit (.tradeToken x.1 true x.2)
  else skip
  let s ← get
  if 0 < s.tradeOffset && !late me then do
    let total := (s.power.owes.map Prod.snd).foldl (· + ·) 0
    let back := min (min step s.tradeOffset.toNat) total
    let parts := splitShares back (max 1 total) 0 s.power.owes
    putOffset (s.tradeOffset - (back : Int))
    each (parts.filter fun x => x.2 != 0) fun x => do
      setPower fun q => { q with owes := lessOwed q.owes x.1 x.2 }
      emit (.tradeToken x.1 false x.2)
  else skip

/-- The plan of a window runs 300 us after its end, on the reports that have arrived (R398). DESIGN CHOICE (notes/assumptions/43): unsafe. -/
def tradeClose : M Unit := do
  let s ← get
  match s.power.planAt with
  | none => skip
  | some (own, at') =>
    if at' + 300000 ≤ s.now then do
      setPower fun x => { x with planAt := none, reports := [] }
      if s.trades then do
        setPower fun x => { x with silent := s.tradeMembers.map fun j =>
          (j, if s.power.reports.any fun r => r.node == j then 0 else (lookup x.silent j).getD 0 + 1) }
        each s.tradeMembers tradeSilent
        tradePlan (own :: s.power.reports)
        putLimit
      else skip
    else skip

/-- What a donor is owed from before a lease commit that ended its trades comes back after 5 windows without a RETURN (R399). -/
def takeBack : M Unit := do
  let s ← get
  each (s.power.ending.filter fun x => decide (4 ≤ x.2.2)) fun x => do
    let t ← get
    let w := min x.2.1 ((lookup t.power.owed x.1).getD 0)
    putOffset (t.tradeOffset + (w : Int))
    setPower fun q => { q with owed := lessOwed q.owed x.1 w }
  setPower fun q => { q with ending := (q.ending.filter fun x => decide (x.2.2 < 4)).map fun x => (x.1, x.2.1, x.2.2 + 1) }
  onlyIf (!s.power.ending.isEmpty) putLimit

/-- A trade window ends (R397 to R399): the blame measured in it goes out in the module's report, once in each window. window: its number.
DESIGN CHOICE (notes/assumptions/43): unsafe. -/
def tradeWindowEnd (window : Nat) : M Unit := do
  tradeClose
  let s ← get
  if window == s.now / 1000000 && s.power.lastWindow != some window then do
    setPower fun x => { x with blame := [], lastWindow := some window }
    takeBack
    let s' ← get
    if s.trades then do
      let own : TradeReport := ⟨s.nodeId, window, s.power.blame, s.power.grant, s'.tradeOffset⟩
      each s.tradeMembers fun n => emit (.tradeReport n own)
      setPower fun x => { x with planAt := some (own, s.now) }
    else skip
  else skip

/-- A report arrives from a member (R398): it is held for the plan of its window where it arrives within 300 us of the window's end. -/
def tradeReport (r : TradeReport) : M Unit := do
  tradeClose
  let s ← get
  onlyIf (s.trades && s.tradeMembers.contains r.node && r.window == s.now / 1000000 && decide (s.now % 1000000 ≤ 300000))
    (setPower fun x => { x with reports := (x.reports.filter fun y => y.node != r.node) ++ [r] })

/-- A token arrives: GIVE raises up to +25 % of Grant and returns the rest at once, RETURN gives back what is owed. -/
def tradeToken (node : Nat) (give : Bool) (watts : Nat) : M Unit := do
  tradeClose
  let s ← get
  if give then do
    let room := (((s.power.grant / 4 : Nat) : Int) - s.tradeOffset).toNat
    let w := if s.trades && s.tradeMembers.contains node then min watts room else 0
    putOffset (s.tradeOffset + (w : Int))
    setPower fun x => { x with owes := addOwed x.owes node w }
    onlyIf (w < watts) (emit (.tradeToken node false (watts - w)))
  else do
    let w := min watts ((lookup s.power.owed node).getD 0)
    putOffset (s.tradeOffset + (w : Int))
    setPower fun x => { x with
      owed := lessOwed x.owed node w
      ending := (x.ending.map fun y => if y.1 == node then (y.1, y.2.1 - w, y.2.2) else y).filter fun y => y.2.1 != 0 }
  putLimit

end Sys2Proof.Machine
end

