-- ==== Sys2Proof/Machine/Life.lean ====
section
/-! DEFINITION. Start-up, restart, drain, firmware, clapper and dailies (chapter "Start-up, live service and telemetry"). -/
namespace Sys2Proof.Machine

def setLife (f : LifeSt → LifeSt) : M Unit := modify fun s => { s with life := f s.life }

/-- Time in the present state, ms. -/
def State.stateMs (s : State) : Nat := (s.now - s.life.since) / 1000000

/-! ## A fresh start (R497, R500) -/

/-- A byte outlasts a start: the vault and host memory, and where the stacks are kept their user capacity. sys: bytes of the
system area. -/
def outlasts (keep : Bool) (sys a : Nat) : Bool :=
  if 2 ^ 64 ≤ a then true
  else match tierOf a with
    | .stack _ => keep && decide (a % 0x1000000000 + sys < 0x1000000000)
    | .vault => true
    | .host _ => true
    | .loft _ => false
    | .reserved => false

/-- Parameters that take effect at BOOT: system area, profile, node, dimensions, wiring plan, vault areas, prefix groups, slot owners,
and factory calibration. DESIGN CHOICE (notes/assumptions/29): unsafe. -/
def bootKey (key : Nat) : Bool :=
  let i := key / 256
  [0x5100, 0x4000, 0x4001, 0x4002, 0x4003, 0x7812, 0x7813, 0x5851, 0x6001].contains i
    || (decide (0x2000 ≤ i) && decide (i < 0x2800))

/-- A firmware instance at BOOT: a slot in TRIAL is not used (R505). -/
def FwInst.atBoot (q : FwInst) : FwInst :=
  if q.active == 0 && q.a.st == 2 then { q with active := 1, a := { q.a with st := 1 }, b := { q.b with st := 3 } }
  else if q.active == 1 && q.b.st == 2 then { q with active := 0, b := { q.b with st := 1 }, a := { q.a with st := 3 } }
  else q

/-- An engine at a start: what has failed of it stays failed. -/
def EngineSt.atBoot (q : EngineSt) : EngineSt := { EngineSt.idle with retired := q.retired, cellsDown := q.cellsDown }

/-- A group's lanes at a start: spares in use stay in use. DESIGN CHOICE (notes/assumptions/40): unsafe. -/
def LinkGroup.atBoot (q : LinkGroup) : LinkGroup := { LinkGroup.reset with txSpare := q.txSpare, rxSpare := q.rxSpare }

/-- The groups of MapOutMask, which stay MAPPED_OUT (R345). -/
def mappedOut (mask : Nat) : List Nat := (List.range 24).filter fun g => bit mask g

/-- The state with everything gone that a start does not keep. A die copy goes on where the stacks kept their contents (R114).
UNVERIFIED (notes/assumptions/49): unsafe. -/
def State.afresh (s : State) (keep : Bool) : State :=
  let ps := if keep then s.dieCopies.foldl (fun l x => setC paramDefault l (dieStateKey x.1) 1) s.savedParams else s.savedParams
  let ps := (mappedOut (getC paramDefault ps (pk 0x4008 0))).foldl (fun l g => setC paramDefault l (pk 0x4006 (g + 1)) 5) ps
  let sys := getC paramDefault ps 0x510000 * 0x100000
  { State.reset with
    pending := s.pending, out := s.out, freeIx := s.freeIx, now := s.now, mode := s.mode
    mem := s.mem.filter fun x => outlasts keep sys x.1
    poison := (s.poison.filter fun x => outlasts keep sys (x.1 * 32)).map fun x => (x.1, false)
    ecc := { EccSt.reset with flaws := s.ecc.flaws.filter fun x => outlasts keep sys (x.1 * 32) }
    dead := if keep then s.dead else []
    dieCopies := if keep then s.dieCopies.map fun x => (x.1, { x.2 with paused := false }) else []
    params := ps
    eff := ps.filter fun x => bootKey x.1
    phys := s.phys, rel := s.rel, retired := s.retired, flashLog := s.flashLog, dumpSummary := s.dumpSummary
    engines := (s.engines.map fun x => (x.1, x.2.atBoot)).filter fun x => decide (x.2 ≠ EngineSt.idle)
    links := (s.links.map fun x => (x.1, x.2.atBoot)).filter fun x => decide (x.2 ≠ LinkGroup.reset)
    power := { PowerSt.reset with lossRec := s.power.lossRec, derateN := s.power.derateN, supply := s.power.derateN }
    life := { LifeSt.reset with since := s.life.since, present := s.life.present, straps := s.life.straps, fw := s.life.fw }
    elo := { EloSt.reset with flash := s.elo.flash, paths := s.elo.paths, restore := s.elo.restore } }

/-- The user-calibration records of which something is stored. -/
def State.calRecords (s : State) : List Nat :=
  (((s.params.map fun x => x.1 / 256).map fun i => if 0x2000 ≤ i && i < 0x2800 then i + 0x800 else i).filter isUserCal).eraseDups

/-- The size of a vault area that overlaps one of a lower-numbered partition, or that runs past 16 TiB, becomes 0 (R116). -/
def clearVaultAreas : M Unit := each (List.range 8) fun p => do
  let s ← get
  let area := fun q => (s.par (pk 0x7812 (q + 1)), s.par (pk 0x7813 (q + 1)))
  let a := area p
  if a.2 != 0 && (decide (16384 < a.1 + a.2) || (List.range p).any fun q =>
      (area q).2 != 0 && decide (a.1 < (area q).1 + (area q).2) && decide ((area q).1 < a.1 + a.2)) then do
    setPar (pk 0x7813 (p + 1)) 0
    setEff (pk 0x7813 (p + 1)) 0
  else skip

/-- BOOT begins: 0 POWER_ON, 1 RESTART, 2 RESTART_KEEP, 3 KEEP_DENIED; pre: ms spent in PRECHARGE. -/
def enterBoot (last pre : Nat) (keep : Bool) : M Unit := do
  setMode .boot
  modify fun s => { s.afresh keep with now := 0 }
  modify fun s => { s with
    power := { s.power with thermal := s.gradeCeiling }
    life := { s.life with since := 0, fw := s.life.fw.map fun x => (x.1, x.2.atBoot) }
    elo := { s.elo with restore := false, flash := s.params.filter fun x => committed x.1 } }
  let s ← get
  setPar (pk 0x1008 0) 2
  setPar (pk 0x1007 0) s.life.straps
  setPar (pk 0x1040 0) (s.life.straps + 1)
  setPar (pk 0x7804 1) pre
  setPar (pk 0x7805 0) last
  each (s.elo.flash.map Prod.fst) bootCheck
  each [pk 0x3010 0, pk 0x3011 0, pk 0x3012 0, pk 0x3100 1, pk 0x3100 2] fun k => do
    let t ← get
    setPar k (t.dependValue k (t.par k))
  each (List.range 8) fun p => do
    let t ← get
    let v := t.dependValue (pk 0x5851 (p + 1)) (t.par (pk 0x5851 (p + 1)))
    setPar (pk 0x5851 (p + 1)) v
    setEff (pk 0x5851 (p + 1)) v
  clearVaultAreas
  each s.calRecords fun i => modify fun t => t.putEffective i
  putLimit

/-- Power is gone: what is not in flash is lost, the Reliability counts too (R378), and a vault load does not resume (R120). -/
def goOff : M Unit := do
  vaultInterrupt
  setMode .off
  modify fun s => { s.afresh false with rel := [] }

/-! ## Power and presence (R377, R378, R391) -/

/-- PRES_N has been held low for 50 ms. straps: TRAY_POS. -/
def prechargeEntry (straps : Nat) : M Unit := do
  let s ← get
  if s.mode = .off then do
    setLife fun q => { q with present := true, straps := straps % 4 }
    setPower fun q => { q with preSince := s.now, preFail := none }
    setMode .precharge
  else skip

/-- The bulk voltage is within 10 V of the input. -/
def bulkReady (bulk input : Nat) : Bool := decide (bulk ≤ input + 10000) && decide (input ≤ bulk + 10000)

/-- The main switch closes. -/
def prechargeComplete (bulk input : Nat) : M Unit := do
  let s ← get
  if s.mode = .precharge && s.power.preFail.isNone && bulkReady bulk input && decide (s.now ≤ s.power.preSince + 200000000) then do
    enterBoot 0 s.stateMs false
    putVolts input
    putLimit
  else skip

/-- 200 ms have passed. -/
def prechargeFail (bulk input : Nat) : M Unit := do
  let s ← get
  if s.mode = .precharge && s.power.preFail.isNone && !bulkReady bulk input && decide (s.power.preSince + 200000000 ≤ s.now) then do
    setPower fun q => { q with preFail := some s.now }
    raiseEvent 0x11 0xFF 0 (input % 2 ^ 32)
  else skip

/-- 10 s later the precharge is tried again. -/
def prechargeRetry : M Unit := do
  let s ← get
  match s.power.preFail with
  | none => skip
  | some t =>
    if s.mode = .precharge && decide (t + 10000000000 ≤ s.now) then
      setPower fun q => { q with preSince := s.now, preFail := none }
    else skip

/-- PRES_N has been high for 5 us: the main input switch opens. gap: ns from the break of PRES_N to that of the main
contacts. -/
def presRelease (gap : Nat) : M Unit := do
  let s ← get
  let rec' := some (1, s.now, gap, s.power.volts)
  setLife fun q => { q with present := false }
  if s.mode = .off then skip
  else do
    onlyIf (s.powered && decide (s.mode ≠ .removable)) (setPower fun q => { q with lossRec := rec' })
    goOff

/-- Hold-up runs out: the power-loss record is written. -/
def holdUpExhausted : M Unit := do
  let s ← get
  if s.powered && s.power.holdUp then do
    setPower fun q => { q with lossRec := some (0, s.now, 0, q.volts) }
    goOff
  else skip

/-! ## From BOOT to READY (R459, R495, R496) -/

/-- The Director runs its firmware. sealA, sealB: the seal of each copy of the factory area verifies. -/
def bootDone (sealA sealB : Bool) : M Unit := do
  let s ← get
  if s.mode = .boot && s.par (pk 0x3305 0) != 2 then do
    match s.power.lossRec with
    | some (1, _, gap, _) =>
      onlyIf (decide (gap < 2000000)) (recordFault ⟨0x0E, 3, ukStage, 0xFF, physical 0 0 0, actCounted, 0, 0, 0, 1, 0, 0⟩)
    | _ => skip
    setPower fun q => { q with lossRec := none }
    setPar (pk 0x2000 4) (if sealA then 0 else if sealB then 1 else 2)
    onlyIf (!sealA && !sealB) (recordFault ⟨0x15, 3, ukDirector, 0xFF, 0, actCounted, 0, 0, 0, 1, 0, 0⟩)
    setPar (pk 0x7804 2) s.stateMs
    setMode .selftest
  else skip

/-- The tests are complete. failed: cells, cores and spares that failed, as UnitKind, engine and sub-unit (31 the spare). -/
def selftestDone (failed : List (Nat × Nat × Nat)) : M Unit := do
  let s ← get
  if s.mode = .selftest then do
    each failed fun f =>
      let isCell := f.1 == ukCell && decide (f.2.1 < 64) && (decide (f.2.2 < 16) || f.2.2 == 31)
      let isCore := f.1 == ukAttnCore && decide (64 ≤ f.2.1) && decide (f.2.1 < 76) && (decide (f.2.2 < 8) || f.2.2 == 31)
      onlyIf (isCell || isCore) (istFail f.1 f.2.1 f.2.2)
    let s ← get
    if s.mode = .selftest && s.par (pk 0x2000 4) != 2 then do
      setLife fun q => { q with tested := s.now }
      setPar (pk 0x7804 3) s.stateMs
      setMode .training
      each (List.range 24) fun g =>
        if bit (s.par (pk 0x4008 0)) g then setPar (pk 0x4006 (g + 1)) 5
        else onlyIf (s.groupStarts g) (trainGroup g)
    else skip
  else skip

/-- Training ends: every group that trained has settled, and fabric time is LOCKED or 2 s have passed since the first group
came UP; after 30 s in any case. -/
def State.trainingOver (s : State) : Bool :=
  let settled := (List.range 24).all fun g => s.linkState g != 1 && s.linkState g != 4
  let timed := s.par (pk 0x4022 0) == 2 || (match s.life.firstUp with | some t => decide (t + 2000000000 ≤ s.now) | none => false)
  (settled && timed) || decide (s.life.since + 30000000000 ≤ s.now)

/-- Held STARTs of partitions take effect (R494, R499). DESIGN CHOICE (notes/assumptions/11): unsafe. -/
def releaseStarts : M Unit := do
  let s ← get
  setLife fun q => { q with starts := [] }
  each s.life.starts partitionStart

/-- Training ends (R495): READY, and the STARTs that were held take effect. -/
def trainingEnd : M Unit := do
  let s ← get
  if s.mode = .training && s.trainingOver then do
    setPar (pk 0x7804 4) s.stateMs
    setMode .ready
    setPower fun q => { q with gateSince := s.now }
    releaseStarts
  else skip

/-! ## Restart (R497, R498) -/

/-- The restart begins. -/
def restartNow (keep : Bool) : M Unit := do
  let s ← get
  let kept := s.life.kept || (decide (s.mode = .ready) && s.par (pk 0x7803 0) == 1)
  sendNotice 4 s.nodeId 0
  commitFlash
  enterBoot (if keep then (if kept then 2 else 3) else 1) 0 (keep && kept)

/-- ModuleControl RESTART or RESTART_KEEP. -/
def moduleRestart (keep : Bool) : M Unit := do
  let s ← get
  let hold := setLife fun q => { q with restart := some (if keep then 3 else 2) }
  match s.mode with
  | .ready | .removable => restartNow keep
  | .fenced => if s.dumpRun.isSome then hold else restartNow keep
  | .safe => hold
  | .off | .precharge | .boot | .selftest | .training | .serving | .draining => skip

/-- A dump is complete, and a restart held for it in FENCED takes effect. -/
def dumpDone (late : List Nat) : M Unit := do
  completeDump late
  let s ← get
  match s.life.restart with
  | some v => if s.mode = .fenced && s.dumpRun.isNone then restartNow (v == 3) else skip
  | none => skip

/-- A restart held in SAFE takes effect: hottest junction at or below 85 °C and coolant NORMAL. -/
def safeRelease (hottest : Int) : M Unit := do
  let s ← get
  match s.life.restart with
  | some v => if s.mode = .safe && decide (hottest ≤ 85) && s.par (pk 0x3305 0) == 0 then restartNow (v == 3) else skip
  | none => skip

/-! ## Standby (R494, R114, R120) -/

/-- STANDBY (R494), from READY: a vault load is interrupted, and die copies pause. DESIGN CHOICE (notes/assumptions/23): unsafe. -/
def moduleStandby : M Unit := do
  let s ← get
  if s.mode = .ready && s.par (pk 0x7803 0) == 0 then do
    setPar (pk 0x7803 0) 1
    vaultInterrupt
    pauseCopies true
    quietPower
  else skip

/-- WAKE (R494). DESIGN CHOICE (notes/assumptions/23): unsafe. -/
def moduleWake : M Unit := do
  let s ← get
  if s.mode = .ready && s.par (pk 0x7803 0) == 1 then do
    setPar (pk 0x7803 0) 0
    pauseCopies false
    releaseStarts
  else skip

/-- PartitionControl (R308, R494, R499): held before READY; in standby a START wakes the module first. DESIGN CHOICE
(notes/assumptions/23): unsafe. -/
def partitionControl (p v : Nat) : M Unit := do
  let s ← get
  let hold := setLife fun q => { q with starts := if q.starts.contains p then q.starts else q.starts ++ [p] }
  if 8 ≤ p then skip
  else match v with
    | 1 => match s.mode with
      | .selftest | .training => hold
      | .ready => do
        moduleWake
        partitionStart p
      | .serving => partitionStart p
      | .off | .precharge | .boot | .draining | .fenced | .safe | .removable => skip
    | 2 => do
      setLife fun q => { q with starts := q.starts.filter (· != p), instStarts := q.instStarts.filter (· != p) }
      partitionStop p
    | _ => skip

/-- InstanceControl (R197, R199, R499): START is held while its partition is not RUNNING, and while a load of its vault area
runs (R119). -/
def instanceControl (p v : Nat) : M Unit := do
  let s ← get
  let hold := setLife fun q => { q with instStarts := if q.instStarts.contains p then q.instStarts else q.instStarts ++ [p] }
  if 8 ≤ p then skip
  else match v with
    | 1 => match s.mode with
      | .selftest | .training => hold
      | .ready | .serving =>
        if s.par (pk 0x5001 (p + 1)) == 2 && !s.vaultBusy p
        then instanceStart p else hold
      | .off | .precharge | .boot | .draining | .fenced | .safe | .removable => skip
    | 2 => instanceDrain p
    | 3 => do
      setLife fun q => { q with instStarts := q.instStarts.filter (· != p) }
      instanceStop p
    | _ => skip

/-- After a vault load has ended, instance STARTs held for it take effect. DESIGN CHOICE (notes/assumptions/11): unsafe. -/
def releaseInstStarts : M Unit := do
  let s ← get
  onlyIf s.vaultLoad.isNone (each s.life.instStarts fun p => do
    let t ← get
    if t.par (pk 0x5001 (p + 1)) == 2 then do
      setLife fun q => { q with instStarts := q.instStarts.filter (· != p) }
      instanceStart p
    else skip)

/-! ## Drain (R508, R519) -/

/-- What DRAINING asks of one partition at once. -/
def drainPartition (p : Nat) : M Unit := do
  let s ← get
  if s.par (pk 0x5001 (p + 1)) != 2 then skip
  else if !s.serving p || s.par (pk 0x7801 0) == 1 then partitionStop p
  else instanceDrain p

/-- ModuleControl DRAIN (R508): each partition drains; a vault load is interrupted where DrainMode is IMMEDIATE. DESIGN CHOICE
(notes/assumptions/23): unsafe. DESIGN CHOICE (notes/assumptions/30): unsafe. -/
def moduleDrain : M Unit := do
  let s ← get
  if s.mode = .ready || s.mode = .serving then do
    setPar (pk 0x7803 0) 0
    pauseCopies false
    setMode .draining
    setLife fun q => { q with drainAt := some s.now, fwQueue := if q.fwCheck.isSome then [] else q.fwQueue.take 1 }
    onlyIf (s.par (pk 0x7801 0) == 1) vaultInterrupt
    each (List.range 8) drainPartition
    afterServing
  else skip

/-- DrainTimeout has passed. DESIGN CHOICE (notes/assumptions/30): unsafe. -/
def drainTimeout : M Unit := do
  let s ← get
  match s.life.drainAt with
  | none => skip
  | some t =>
    if s.mode = .draining && decide (t + s.par (pk 0x7802 0) * 1000000000 ≤ s.now) then do
      vaultInterrupt
      each (List.range 8) partitionStop
      afterServing
    else skip

/-- Every partition is STOPPED: the module makes itself removable. DESIGN CHOICE (notes/assumptions/30): unsafe. -/
def drainComplete : M Unit := do
  let s ← get
  if s.mode = .draining && ((List.range 8).all fun p => s.par (pk 0x5001 (p + 1)) == 0) && s.life.fwCheck.isNone
      && s.life.fwQueue.isEmpty then do
    sendNotice 5 s.nodeId 0
    commitFlash
    faultLogCommit
    vaultInterrupt
    railsOff false true
    quietLinks false
    quietPower
    setPar (pk 0x8001 0) 0
    setMode .removable
  else skip

/-! ## Firmware (R501 to R506) -/

/-- Instances of a kind, and its slot size in MiB. -/
def fwInstances (kind : Nat) : Nat := nth [1, 1, 12, 24, 4, 2, 1, 1] kind
def fwSlotMib (kind : Nat) : Nat := nth [8, 64, 4, 2, 4, 8, 16, 2] kind

/-- A firmware instance by its kind and number. -/
def State.fwInst (s : State) (key : Nat) : FwInst := (lookup s.life.fw key).getD FwInst.reset
def setFw (key : Nat) (v : FwInst) : M Unit := setLife fun q => { q with fw := setC (fun _ => FwInst.reset) q.fw key v }

def FwInst.slot (q : FwInst) : FwSlot := if q.active == 0 then q.a else q.b
def FwInst.other (q : FwInst) : FwSlot := if q.active == 0 then q.b else q.a
def FwInst.putSlot (q : FwInst) (v : FwSlot) : FwInst := if q.active == 0 then { q with a := v } else { q with b := v }
def FwInst.putOther (q : FwInst) (v : FwSlot) : FwInst := if q.active == 0 then { q with b := v } else { q with a := v }

/-- The keys of all instances of a kind. -/
def fwKeys (kind : Nat) : List Nat := (List.range (fwInstances kind)).map (· + 256 * kind)

def State.fwTrial (s : State) (kind : Nat) : Bool := (fwKeys kind).any fun k => (s.fwInst k).slot.st == 2

/-- The lowest WireLevel among the running units (R506). -/
def State.wireLevel (s : State) : Nat := ((List.range 8).flatMap fwKeys).foldl (fun m k => min m (s.fwInst k).slot.level) 255

def levelOk (low level : Nat) : Bool := decide (level ≤ low + 1) && decide (low ≤ level + 1)

/-- FwStageStatus. -/
def stageStatus (st reason : Nat) : M Unit := do
  setPar (pk 0x7821 1) st
  setPar (pk 0x7821 2) reason

/-- The inactive slots of a kind. -/
def putOthers (kind : Nat) (v : FwSlot) : M Unit := each (fwKeys kind) fun k => do
  let s ← get
  setFw k ((s.fwInst k).putOther v)

/-- A staging that fails. -/
def stageFails (kind reason : Nat) : M Unit := do
  stageStatus 3 reason
  putOthers kind ⟨0, 0, 0, 0⟩

/-- The source of an image can be read (R503). -/
def State.stageSource (s : State) (a : Nat) : Bool :=
  match tierOf a with
  | .stack _ => true
  | .host h => !s.windowDown h
  | .loft _ => false
  | .vault => false
  | .reserved => false

/-- FwStage is written (R503). sigOk: the signature verifies. DESIGN CHOICE (notes/assumptions/31): safe. -/
def fwStage (addr : Nat) (sigOk : Bool) : M Unit := do
  let s ← get
  let a := alignDown addr 64
  if !s.directorRuns then skip
  else if s.life.staging.isSome then stageStatus 3 6
  else if !s.stageSource a then stageStatus 3 7
  else do
    let h ← load .director a 64
    let v := h.val
    let kind := bits v 479 472
    let len := bits v 399 368
    let sig := bits v 335 320
    if h.poisoned then stageStatus 3 7
    else if bits v 511 480 != 0x4E465749 || 7 < kind then stageStatus 3 3
    else do
      setPar (pk 0x7821 3) kind
      setPar (pk 0x7821 4) (bits v 471 440)
      if s.fwTrial kind || s.life.fwQueue.any (fun k => k / 256 == kind) then stageStatus 3 6
      else if fwSlotMib kind * 2 ^ 20 < len + sig then stageFails kind 4
      else do
        let body ← load .director (a + 64) (len + sig)
        if body.poisoned then stageFails kind 7
        else if crc32c (toBytes body.val len) != bits v 367 336 then stageFails kind 1
        else if !sigOk then stageFails kind 2
        else if !levelOk s.wireLevel (bits v 407 400) then stageFails kind 5
        else do
          stageStatus 1 0
          putOthers kind ⟨0, 0, 0, 0⟩
          setLife fun q => { q with staging := some (kind, ⟨1, bits v 471 440, bits v 407 400, bits v 439 408⟩) }

/-- The slots have been written and read back. DESIGN CHOICE (notes/assumptions/31): safe. -/
def fwStageDone (ok : Bool) : M Unit := do
  let s ← get
  match s.life.staging with
  | none => skip
  | some (kind, slot) => do
    setLife fun q => { q with staging := none }
    if ok then do
      putOthers kind slot
      stageStatus 2 0
    else stageStatus 3 1

/-- No instance is inside a step: the boundary after a notice is applied and before the next PLAN or RUN (R504). -/
def State.atBoundary (s : State) : Bool :=
  (List.range 8).all fun p => !s.serving p ||
    ((s.inst p).run.isNone && (s.inst p).plan.isNone && (s.inst p).notice.isNone && (s.inst p).applying.isNone)

/-- The Director holds its instances at their next step boundary: an activation of its own firmware, or of a stack's, waits. -/
def State.fwHolds (s : State) : Bool :=
  match s.life.fwQueue with
  | k :: _ => s.life.fwCheck.isNone && (k / 256 == 1 || k / 256 == 2)
  | [] => false

/-- An instance may switch now (R501). -/
def State.fwReady (s : State) (key : Nat) : Bool :=
  match key / 256 with
  | 1 => s.atBoundary
  | 2 => s.atBoundary && (s.engine (64 + key % 256)).running.isNone
  | 6 => !(s.vaultLoad.isSome && s.par (pk 0x7811 1) == 2)
  | _ => true

/-- What a switch does to its unit (R501). -/
def fwUnit (key : Nat) : M Unit :=
  let i := key % 256
  match key / 256 with
  | 3 => do
    let s ← get
    onlyIf (s.linkRuns i || s.linkState i == 4) (trainGroup i)
  | 4 => portDown i
  | 5 => setPar (pk 0x4810 (i + 1)) 0
  | _ => skip

/-- An instance switches to its other slot (R505). -/
def fwSwitch (key : Nat) : M Unit := do
  let s ← get
  let q := s.fwInst key
  let r := (q.putSlot { q.slot with st := 1 }).putOther { q.other with st := 2 }
  setFw key { r with active := 1 - q.active, since := s.now, passed := false }
  setLife fun x => { x with fwCheck := some key }
  bump (pk 0x7827 0) 1
  fwUnit key

/-- The next instance switches once its point has come and the one before has passed its check. -/
def fwGo : M Unit := do
  let s ← get
  match s.life.fwQueue with
  | [] => skip
  | k :: ks =>
    if s.life.fwCheck.isNone && s.fwReady k then do
      setLife fun q => { q with fwQueue := ks }
      fwSwitch k
    else skip

/-- The instances that a value names (R504). -/
def fwNamed (v : Nat) : List Nat :=
  let kind := v / 256
  if 8 ≤ kind then [] else if v % 256 == 255 then fwKeys kind else (fwKeys kind).filter (· == v)

/-- An activation is refused (R504). -/
def State.fwRefuses (s : State) (keys : List Nat) : Bool :=
  let dir := (s.fwInst 256).slot.ver
  !(decide (s.mode = .ready) || decide (s.mode = .serving)) || keys.any fun k =>
    let o := (s.fwInst k).other
    o.st != 1 || decide (dir < o.minDir) || !levelOk s.wireLevel o.level || s.fwTrial (k / 256)

/-- FwActivate is written. DESIGN CHOICE (notes/assumptions/31): safe. -/
def fwActivate (v : Nat) : M Unit := do
  let s ← get
  let keys := fwNamed v
  if s.fwRefuses keys then skip
  else do
    setLife fun q => { q with fwQueue := q.fwQueue ++ keys.filter fun k => !q.fwQueue.contains k }
    fwGo

/-- FwRevert is written: CONFIRMED instances switch back, as an activation does. -/
def fwRevert (v : Nat) : M Unit := do
  let s ← get
  let keys := (fwNamed v).filter fun k => (s.fwInst k).slot.st == 3 && (s.fwInst k).other.st == 1
  if s.fwRefuses keys then skip
  else do
    setLife fun q => { q with fwQueue := q.fwQueue ++ keys.filter fun k => !q.fwQueue.contains k }
    fwGo

/-- The unit of a firmware instance in fault records: UnitKind, Logical and Physical. -/
def State.fwUnitOf (s : State) (key : Nat) : Nat × Nat × Nat :=
  let i := key % 256
  match key / 256 with
  | 2 => (ukStackEngine, 64 + i, s.engPhysical (64 + i) 0)
  | 3 => (ukLane, 0xFF, groupPhysical i 0)
  | 4 => (ukIo, 0xFF, physical i 0 0)
  | 5 => (ukIo, 0xFF, physical (i + 1) 1 0)
  | 6 => (ukVault, 0xFF, physical 3 0 0)
  | _ => (ukDirector, 0xFF, 0)

/-- A slot fails in TRIAL: the unit switches back and the slot is BAD; later instances of the activation do not follow. DESIGN CHOICE
(notes/assumptions/31): safe. -/
def fwFail (key : Nat) : M Unit := do
  let s ← get
  let q := s.fwInst key
  if q.slot.st == 2 then do
    let r := (q.putSlot { q.slot with st := 4 }).putOther { q.other with st := 3 }
    setFw key { r with active := 1 - q.active, since := s.now, passed := true }
    setLife fun x => { x with
      fwCheck := if x.fwCheck == some key then none else x.fwCheck
      fwQueue := x.fwQueue.filter fun k => k / 256 != key / 256 }
    let u := s.fwUnitOf key
    recordFault ⟨Config.fwFailKind (key / 256) % 256, 3, u.1, u.2.1, u.2.2, Config.fwFailAction (key / 256) % 16, 0, 0, 0, 1, 0, 0⟩
    bump (pk 0x7828 0) 1
    fwUnit key
    fwGo
  else skip

/-- 1 s after a switch. healthy: the unit has reported so; for SERDES the group is UP. -/
def fwHealthCheck (key : Nat) (healthy : Bool) : M Unit := do
  let s ← get
  let q := s.fwInst key
  if s.life.fwCheck == some key && q.slot.st == 2 && decide (q.since + 1000000000 ≤ s.now) then
    if healthy && (key / 256 != 3 || s.linkState (key % 256) == 3) then do
      setFw key { q with passed := true }
      setLife fun x => { x with fwCheck := none }
      fwGo
    else fwFail key
  else skip

/-- An instance that passed its check is confirmed. -/
def fwConfirmOne (key : Nat) : M Unit := do
  let s ← get
  let q := s.fwInst key
  onlyIf (q.slot.st == 2 && q.passed) (setFw key (q.putSlot { q.slot with st := 3 }))

/-- FwTrialTime has passed since the switch. -/
def fwTrialEnd (key : Nat) : M Unit := do
  let s ← get
  onlyIf (s.par (pk 0x7826 0) == 1 && decide ((s.fwInst key).since + s.par (pk 0x7825 0) * 1000000000 ≤ s.now)) (fwConfirmOne key)

/-- FW_CONFIRM of a kind (R505). -/
def fwConfirm (kind : Nat) : M Unit := each (fwKeys kind) fwConfirmOne

/-- A reset or watchdog expiry of a stack engine, or a failed heartbeat, ends a trial of its firmware. -/
def fwEngineFails (e : Nat) : M Unit := do
  let s ← get
  onlyIf (decide (64 ≤ e) && decide (e < 76) && (s.engine e).resetting.isSome) (fwFail (512 + (e - 64)))

/-! ## Clapper and dailies (R513 to R518) -/

/-- TypeCodes (R445). -/
def PTy.code : PTy → Nat
  | .u8 => 1
  | .u16 => 2
  | .u32 => 3
  | .u64 => 4
  | .s32 => 5
  | .f32 => 6
  | .bool => 7
  | .enum => 8
  | .time => 9
  | .str => 10
  | .blob => 11

/-- A latched entry: index, sub-index, type and value. -/
def telEntry (index sub ty v : Nat) : Nat := index % 2 ^ 16 + sub % 256 * 2 ^ 16 + ty * 2 ^ 24 + v % 2 ^ 64 * 2 ^ 64

/-- A row holds counters that a clapper latches. -/
def latchRow (r : PRow) : Bool :=
  let i := r.index
  (decide (r.ty = .u64) && decide (r.acc = .ro) && decide (1 ≤ r.lo) &&
    (i == 0x1F00 || i == 0x48E0 || i == 0x48E1 || (decide (0x8000 ≤ i) && decide (i ≤ 0x8FFF))))
  || (decide (0x3400 ≤ i) && decide (i ≤ 0x3408) && r.lo == 1)
  || (i == 0x7100 && r.lo == 1)

/-- The counters that a clapper latches: type, index and sub-index. -/
def latchKeys : List (Nat × Nat × Nat) :=
  (dictRows.filter latchRow).flatMap fun r => (List.range (r.hi + 1 - r.lo)).map fun k => (r.ty.code, r.index, r.lo + k)

/-- Every counter at this tick. -/
def State.latch (s : State) : List Nat := latchKeys.map fun k => telEntry k.2.1 k.2.2 k.1 (s.par (pk k.2.1 k.2.2))

/-- Pennants that run count on to this tick. -/
def accruePennants : M Unit := each (List.range 9) accruePennant

/-- ClapperAt is written. -/
def clapperArm (v : Nat) : M Unit := do
  let s ← get
  onlyIf s.directorRuns (setPar (pk 0x8001 0) (v % 2 ^ 64))

/-- The armed time has come. -/
def clapperFire : M Unit := do
  let s ← get
  let at' := s.par (pk 0x8001 0)
  if s.directorRuns && at' != 0 && decide (at' ≤ s.now) then do
    accruePennants
    let s ← get
    let n := s.par (pk 0x8003 0) + 1
    setPar (pk 0x8003 0) n
    setLife fun q => { q with banks := insertAt (eraseKey q.banks (n % 2)) (n % 2) (s.now, n, s.latch) }
    setPar (pk 0x8001 0) 0
  else skip

/-- The sub-indices that a selected index contributes, with their rows. -/
def dailySubs (index : Nat) : List (PRow × Nat) :=
  let rows := (dictArea (index / 256)).filter fun r => r.index == index
  let subs := rows.flatMap fun r => (List.range (r.hi + 1 - r.lo)).map fun k => (r, r.lo + k)
  let members := subs.filter fun x => x.2 != 0
  if members.isEmpty then subs else members.filter fun x => decide (x.1.ty ≠ .blob) && decide (x.1.ty ≠ .str)

/-- A value widened to 8 B. -/
def widenValue (ty : PTy) (v : Nat) : Nat := if ty = .s32 then ofSigned 64 (toSigned 32 v) else v

/-- The entries of a daily record. -/
def State.dailyEntries (s : State) : List Nat :=
  let sel := s.par (pk 0x8011 0)
  let idx := ((List.range 32).map fun i => bits sel (16 * i + 15) (16 * i)).filter (· != 0)
  ((idx.flatMap dailySubs).map fun x => telEntry x.1.index x.2 x.1.ty.code (widenValue x.1.ty (s.par (pk x.1.index x.2)))).take 256

/-- The bytes of a daily record (R517). -/
def Daily.bytes (d : Daily) : List Nat :=
  let body := d.entries.flatMap fun e => toBytes e 16
  toBytes (d.time % 2 ^ 64 * 2 ^ 448 + d.seq % 2 ^ 64 * 2 ^ 384 + d.node % 2 ^ 16 * 2 ^ 368 + d.mode % 256 * 2 ^ 360
    + d.op % 256 * 2 ^ 352 + d.entries.length % 2 ^ 16 * 2 ^ 336 + crc32c body * 2 ^ 304 + d.power % 2 ^ 32 * 2 ^ 272
    + ofSigned 16 d.peak * 2 ^ 256) 64 ++ body ++ List.replicate (4096 - body.length) 0

/-- The partition in one of whose placements an address lies. -/
def State.placedIn (s : State) (a : Nat) : Option Nat := (List.range 8).find? fun p => s.placed p a

/-- A record is exported (R518): entries first, header last, to T1 or a host window inside a placement. -/
def exportDaily (d : Daily) : M Unit := do
  let s ← get
  let base := s.par (pk 0x8012 0)
  if base == 0 then skip
  else do
    let a := base + (d.seq - 1) % max 1 (s.par (pk 0x8013 0)) * 4160
    let ok := (tierOf a).isT1 || (tierOf a).isHost
    match s.placedIn a with
    | some p =>
      if ok then do
        store (whoOf 80 p) (a + 64) (d.bytes.drop 64)
        store (whoOf 80 p) a (d.bytes.take 64)
      else bump (pk 0x8042 4) 1
    | none => bump (pk 0x8042 4) 1

/-- Fabric time reaches a multiple of DailiesPeriodMs. -/
def dailyRecord : M Unit := do
  let s ← get
  let k := s.now / (s.par (pk 0x8010 0) * 1000000)
  if s.directorRuns && decide (s.life.dailyDone < k) then do
    accruePennants
    let s ← get
    let seq := s.par (pk 0x8016 0) + 1
    let d : Daily := ⟨s.now, seq, s.nodeId, modeCode s.mode, s.op, s.life.powerSum.1 / max 1 s.life.powerSum.2,
      s.life.peak.getD (toSigned 32 (s.par (pk 0x3301 0))), s.dailyEntries⟩
    setPar (pk 0x8016 0) seq
    setLife fun q => { q with
      dailies := (if 1024 ≤ q.dailies.length then q.dailies.drop 1 else q.dailies) ++ [d]
      dailyDone := k, powerSum := (0, 0), peak := none }
    exportDaily d
  else skip

/-! ## Background work and clocks (R407, R511, R534) -/

/-- One core-rail phase of a region is calibrated; not while the region's spare phase is in use. -/
def regulatorCalibration (region phase : Nat) : M Unit := do
  let s ← get
  let key := 16 * region + phase
  if region < 4 && s.governed && s.par (sparePhaseKey region) == 0
      && (match lookup s.life.cals key with | some t => decide (t + 10000000000 ≤ s.now) | none => true) then
    setLife fun q => { q with cals := insertAt (eraseKey q.cals key) key s.now }
  else skip

/-- A spare lane's eye is scanned: its height in mV and width in mUI are kept in LaneStats; not while the spare is in use in
that direction. -/
def eyeScan (g : Nat) (tx : Bool) (height width : Nat) : M Unit := do
  let s ← get
  let spare := if tx then (s.link g).txSpare else (s.link g).rxSpare
  if g < 24 && s.linkState g != 0 && s.linkState g != 5 && spare.isNone then
    let rel := setC (fun _ => 0) s.rel (relKey ukLane (groupPhysical g 4) 0x20) (height % 2 ^ 16)
    set { s with rel := setC (fun _ => 0) rel (relKey ukLane (groupPhysical g 4) 0x21) (width % 2 ^ 16) }
  else skip

/-- REFCLK is lost, or has been away for more than 1 ms. -/
def refclkLoss : M Unit := do
  let s ← get
  match s.power.refLost with
  | none =>
    if s.powered then do
      setPower fun q => { q with refLost := some s.now }
      timeHoldover
    else skip
  | some t =>
    if t + 1000000 < s.now then moduleFatal ⟨0x18, 3, ukMesh, 0xFF, 0, actFatal, 0, 0, 0, 1, 0, 0⟩ else skip

/-- REFCLK is back within 1 ms. -/
def refclkReturn : M Unit := do
  let s ← get
  match s.power.refLost with
  | none => skip
  | some t =>
    if s.now ≤ t + 1000000 then do
      setPower fun q => { q with refLost := none }
      recordFault ⟨0x18, 3, ukMesh, 0xFF, 0, actCounted, 0, 0, 0, 1, 0, 0⟩
    else skip

/-- A flit of a bridge fails its CRC: it is sent again; a flit that fails after 16 retries is fatal. -/
def bridgeFlitError (bridge flit : Nat) : M Unit := do
  let s ← get
  if s.powered then do
    let n := match lookup s.bridges bridge with
      | some (f, r) => if f == flit then r + 1 else 0
      | none => 0
    modify fun t => { t with bridges := insertAt t.bridges bridge (flit, n) }
    onlyIf (decide (n < 16)) (recordFault ⟨0x14, 3, ukMesh, 0xFF, 0, actReissued, 0, 0, 0, n + 1, 0, 0⟩)
    onlyIf (decide (16 ≤ n)) (moduleFatal ⟨0x14, 3, ukMesh, 0xFF, 0, actFatal, 0, 0, 0, 1, 0, 0⟩)
  else skip

/-- What the end of a step lets go on: held entries, partitions that stop, and firmware that waits for its point. -/
def afterStep : M Unit := do
  afterServing
  fwGo

/-! ## Sideband outputs (R527, R528) -/

/-- RMV_OK_N is driven low: an open-drain output, released in every other state. DEDUCED (notes/assumptions/22): safe. -/
def State.rmvOkLow (s : State) : Bool := s.mode = .removable

/-- FAULT_N is driven low: an open-drain output, released in every other state. DEDUCED (notes/assumptions/22): safe. -/
def State.faultLow (s : State) : Bool := s.mode = .fenced || s.mode = .safe

/-- MOD_PRSNT_N is tied to chassis ground in the module, so it reads low in every state. DEDUCED (notes/assumptions/22): safe. -/
def State.modPresentLow (_ : State) : Bool := true

end Sys2Proof.Machine
end

