-- ==== Sys2Proof/Machine/Eth.lean ====
section
/-! DEFINITION. The Ethernet ports and RoCE (chapter "Host ports and Ethernet ports"). -/
namespace Sys2Proof.Machine

/-! ## Queue pairs and keys (R485, R486) -/

def qValid (v : Nat) : Bool := bit v 511
def qPart (v : Nat) : Nat := bits v 510 508
def qMtu (v : Nat) : Nat := nth [1024, 2048, 4096, 1024] (bits v 507 506)
def qRetry (v : Nat) : Nat := bits v 496 494
def qTimeout (v : Nat) : Nat := 4096 * 2 ^ bits v 493 489
def qLocal (v : Nat) : Nat := bits v 488 465
def qRemote (v : Nat) : Nat := bits v 464 441
def qRemoteIp (v : Nat) : Nat := bits v 383 256
def qCue (v : Nat) : Nat := bits v 255 195 * 8

/-- The key of queue pair i of a port. -/
def qpKey (port i : Nat) : Nat := 1024 * port + i

def State.qp (s : State) (k : Nat) : Option Qp := lookup s.eth.qps k

def setEth (f : EthSt → EthSt) : M Unit := modify fun s => { s with eth := f s.eth }

def setQp (k : Nat) (q : Qp) : M Unit := setEth fun x => { x with qps := insertAt (eraseKey x.qps k) k q }

/-- A queue pair as it starts from its entry. -/
def Qp.start (entry : Nat) : Qp := ⟨entry, bits entry 440 417, bits entry 416 393, false, [], 0, 0, 1000, 0, none⟩

/-- The detail of a record that names a queue pair (R406). -/
def qpDetail (k : Nat) : Nat := 64 + k / 1024 % 2 + k % 1024 * 128

/-- The commands part-way on a queue pair: arbiter and part. -/
def State.qpParts (s : State) (k : Nat) : List (Nat × Part) :=
  s.engines.flatMap fun x => (x.2.parts.filter fun q => match q.wait with
    | .rdma port i _ => qpKey port i == k
    | _ => false).map fun q => (x.1, q)

/-- A part that waits on a queue pair. -/
def Part.onQp (k : Nat) (q : Part) : Bool :=
  match q.wait with
  | .rdma port i _ => qpKey port i == k
  | _ => false

/-- The commands of a queue pair end without their cues (R489). -/
def qpLose (k : Nat) : M Unit := do
  let s ← get
  modify fun t => { t with engines := t.engines.map fun x => (x.1, { x.2 with parts := x.2.parts.filter fun q => !q.onQp k }) }
  each (s.qpParts k) fun x => transferLost (armEngine x.1) x.2.p x.2.ctx (qpDetail k)

/-- A part whose packets are all acknowledged, or all answered, is ready. -/
def Part.rdmaDone (k : Nat) (open' : List Nat) (q : Part) : Part :=
  match q.wait with
  | .rdma port i psn => if qpKey port i == k && !open'.contains psn then { q with ready := true } else q
  | _ => q

def settleRdma (k : Nat) : M Unit := modify fun s =>
  match s.qp k with
  | none => s
  | some q => { s with engines := s.engines.map fun x => (x.1, { x.2 with parts := x.2.parts.map (Part.rdmaDone k (q.unacked.map fun y => y.psn)) }) }

/-- An entry is read again (R485). What waits on the queue pair ends. DESIGN CHOICE (notes/assumptions/34): safe. -/
def qpReload (v : Nat) : M Unit := do
  let s ← get
  let port := v / 1024 % 2
  let i := v % 1024
  if s.powered && i < s.par (pk 0x4821 (port + 1)) then do
    let a := s.par (pk 0x4820 (port + 1)) + 64 * i
    let r ← load .director a 64
    qpLose (qpKey port i)
    if r.poisoned then recordUe a actPoisoned 0 0
    else setQp (qpKey port i) (Qp.start r.val)
  else skip

/-- A key table entry is read again (R486). -/
def keyReload (i : Nat) : M Unit := do
  let s ← get
  if s.powered && i < s.par (pk 0x4823 0) then do
    let a := s.par (pk 0x4822 0) + 32 * i
    let r ← load .director a 32
    if r.poisoned then recordUe a actPoisoned 0 0
    else setEth fun x => { x with keys := insertAt (eraseKey x.keys i) i r.val }
  else skip

/-- The tables as they are read at BOOT. -/
def loadEthTables : M Unit := do
  let s ← get
  each (List.range 2) fun e => each (List.range (s.par (pk 0x4821 (e + 1)))) fun i => qpReload (qpKey e i)
  each (List.range (s.par (pk 0x4823 0))) keyReload

/-! ## Frames (R482, R483) -/

def State.ethUp (s : State) (port : Nat) : Bool := decide (port < 2) && s.par (pk 0x4810 (port + 1)) == 1

/-- A frame goes out where the link is up. -/
def sendFrame (port : Nat) (o : Out) : M Unit := do
  let s ← get
  if s.ethUp port then do
    emit o
    bump (pk 0x48E1 2) 1
  else skip

/-- The link-local address of a port: the bytes of fe80::/64 with the modified EUI-64 of its MAC, first byte lowest. -/
def State.linkLocal (s : State) (port : Nat) : Nat :=
  let m := beBytes ((s.par (pk 0x1006 0) + 1 + port) % 2 ^ 48) 6
  ofBytes ([0xFE, 0x80, 0, 0, 0, 0, 0, 0, nth m 0 ^^^ 2, nth m 1, nth m 2, 0xFF, 0xFE, nth m 3, nth m 4, nth m 5])

/-- An IPv4 address of the port, or an IPv6 address. -/
def State.ownIp4 (s : State) (port ip : Nat) : Bool := ip != 0 && ip == s.par (pk 0x4811 (port + 1))
def State.ownIp6 (s : State) (port ip : Nat) : Bool := (ip != 0 && ip == s.par (pk 0x4813 (port + 1))) || ip == s.linkLocal port

/-- A frame that is neither RoCE, Eloaphor nor IEEE 1588 arrives. -/
def networkFrame (port : Nat) (f : EthFrame) : M Unit := do
  let s ← get
  if s.ethUp port then
    match f with
    | .other => bump (pk 0x48E1 3) 1
    | .arp ip => do
      bump (pk 0x48E1 1) 1
      if s.ownIp4 port ip then sendFrame port (.ethAnswer port f) else skip
    | .ndp ip => do
      bump (pk 0x48E1 1) 1
      if s.ownIp6 port ip then sendFrame port (.ethAnswer port f) else skip
    | .echo ip _ _ => do
      bump (pk 0x48E1 1) 1
      if s.ownIp4 port ip || s.ownIp6 port ip then sendFrame port (.ethAnswer port f) else skip
  else skip

/-- A port's link goes up or down: from TRAINING onward. -/
def ethLinkChange (port : Nat) (up : Bool) : M Unit := do
  let s ← get
  if port < 2 && (!up || (s.directorRuns && decide (s.mode ≠ .selftest))) then setPar (pk 0x4810 (port + 1)) (b2n up) else skip

/-- A PFC frame pauses a priority for some quanta of 512 bit times at 800 Gb/s. DESIGN CHOICE (notes/assumptions/34): safe. -/
def pfcFrame (port priority quanta : Nat) : M Unit := do
  let s ← get
  if s.ethUp port then
    if bit (s.par (pk 0x4818 (port + 1))) (priority % 8) then do
      bump (pk 0x48E1 1) 1
      let l := s.eth.pause.filter fun x => !(x.1 == port && x.2.1 == priority % 8)
      setEth fun x => { x with pause := if quanta == 0 then l else l ++ [(port, priority % 8, s.now + quanta % 2 ^ 16 * 64 / 100)] }
    else bump (pk 0x48E1 3) 1
  else skip

/-! ## RoCE as requester (R488, R489) -/

/-- Bytes cut into packets of the path MTU. -/
def cutMtu (mtu : Nat) : Nat → List Nat → List (List Nat)
  | 0, _ => []
  | fuel + 1, bs => if bs.length ≤ mtu then [bs] else bs.take mtu :: cutMtu mtu fuel (bs.drop mtu)

/-- The packets of a WRITE: the last carries the immediate value. -/
def writePackets (psn rkey addr : Nat) (imm : Option Nat) : List (List Nat) → List RocePkt
  | [] => []
  | [bs] => [⟨psn % 2 ^ 24, 0, rkey, addr, bs.length, bs, imm⟩]
  | bs :: l => ⟨psn % 2 ^ 24, 0, rkey, addr, bs.length, bs, none⟩ :: writePackets (psn + 1) rkey (addr + bs.length) imm l

/-- The requests of a READ: one for each path MTU. DESIGN CHOICE (notes/assumptions/34): safe. -/
def readPackets (psn rkey addr n mtu : Nat) : List RocePkt :=
  (List.range (ceilDiv n mtu)).map fun i => ⟨(psn + i) % 2 ^ 24, 1, rkey, addr + mtu * i, min mtu (n - mtu * i), [], none⟩

/-- The queue pair of a command: its port and index, clamped. -/
def rdmaQp (s : State) (a : Nat) : Nat × Nat :=
  let port := b2n (bit a 101)
  (port, min (bits a 100 91) (s.par (pk 0x4821 (port + 1)) - 1))

/-- Sends the packets of a command. -/
def sendPackets (k : Nat) (q : Qp) (l : List RocePkt) : M Unit := do
  let s ← get
  setQp k { q with
    unacked := q.unacked ++ l
    sendPsn := (q.sendPsn + l.length) % 2 ^ 24
    sentAt := if q.unacked.isEmpty then s.now else q.sentAt }
  each l fun x => sendFrame (k / 1024) (.roce (k / 1024) (k % 1024) x)

/-- RDMA_WRITE and RDMA_READ. -/
def bodyRdma (write : Bool) (c : Cmd) : M End := do
  let s ← get
  let a := c.area
  let (port, i) := rdmaQp s a
  let k := qpKey port i
  clampDesc (b2n (bits a 133 102 == 0) + b2n (i != bits a 100 91))
  match s.qp k with
  | none => do
    clampDesc 1
    pure .done
  | some q =>
    if !qValid q.entry || qPart q.entry != c.p then do
      clampDesc 1
      pure .done
    else if q.error then do
      transferLost c.e c.p c.ctx (qpDetail k)
      pure .ended
    else do
      let n := max 1 (bits a 133 102) * 64
      let loc := bits a 255 198 * 64
      let rkey := bits a 90 59
      let ps ← if write then do
          let r ← load c.who loc n
          let bs ← forwarded c loc (qpDetail k) r n
          pure (writePackets q.sendPsn rkey (bits a 197 134) (if bit a 26 then some (bits a 58 27) else none) (cutMtu (qMtu q.entry) n bs))
        else pure (readPackets q.sendPsn rkey (bits a 197 134) n (qMtu q.entry))
      sendPackets k q ps
      pure (.wait (.rdma port i ((q.sendPsn + ps.length - 1) % 2 ^ 24)))

/-- Queue pair with a local number on a port. -/
def State.qpOf (s : State) (port qpn : Nat) : Option (Nat × Qp) :=
  s.eth.qps.find? fun x => x.1 / 1024 == port && qValid x.2.entry && qLocal x.2.entry == qpn

/-- The packets before a PSN, and those from it on. -/
def splitAtPsn (psn : Nat) : List RocePkt → List RocePkt × List RocePkt
  | [] => ([], [])
  | x :: l => if x.psn == psn then ([], x :: l) else ((x :: (splitAtPsn psn l).1), (splitAtPsn psn l).2)

/-- The queue pair enters ERROR. -/
def qpFail (k : Nat) (q : Qp) : M Unit := do
  setQp k { q with error := true, unacked := [] }
  qpLose k

/-- Packets are sent again, go-back-N; a packet that has been retried RetryLimit times ends its command. -/
def roceRetry (k : Nat) (q : Qp) (l : List RocePkt) : M Unit := do
  let s ← get
  if l.isEmpty then setQp k q
  else if qRetry q.entry ≤ q.retries then qpFail k q
  else do
    setQp k { q with retries := q.retries + 1, sentAt := s.now }
    each l fun x => sendFrame (k / 1024) (.roce (k / 1024) (k % 1024) x)
    bump (pk 0x48E1 4) l.length

/-- An acknowledgement or NAK arrives at the requester. -/
def roceAck (port qpn psn : Nat) (nak : Option Nat) : M Unit := do
  let s ← get
  if s.ethUp port then
    match s.qpOf port qpn with
    | none => bump (pk 0x48E1 3) 1
    | some (k, q) => do
      bump (pk 0x48E1 1) 1
      if q.unacked.any fun x => x.psn == psn then do
        let cut := splitAtPsn psn q.unacked
        let before := cut.1.filter fun x => x.op != 0
        match nak with
        | none => do
          let rest := before ++ (cut.2.filter fun x => x.psn != psn || x.op != 0)
          setQp k { q with unacked := rest, retries := 0, sentAt := s.now }
          settleRdma k
        | some _ => do
          let rest := before ++ cut.2
          let moved := rest.length != q.unacked.length
          roceRetry k { q with unacked := rest, retries := if moved then 0 else q.retries } cut.2
          settleRdma k
      else skip
  else skip

/-- The acknowledgement timeout of a queue pair passes. -/
def roceTimeout (port i : Nat) : M Unit := do
  let s ← get
  match s.qp (qpKey port i) with
  | none => skip
  | some q =>
    if !q.unacked.isEmpty && decide (q.sentAt + qTimeout q.entry ≤ s.now) then roceRetry (qpKey port i) q q.unacked else skip

/-- A CNP halves a queue pair's rate. DESIGN CHOICE (notes/assumptions/34): safe. -/
def cnp (port qpn : Nat) : M Unit := do
  let s ← get
  if s.ethUp port then
    match s.qpOf port qpn with
    | none => bump (pk 0x48E1 3) 1
    | some (k, q) => do
      bump (pk 0x48E1 1) 1
      bump (pk 0x48E1 6) 1
      setQp k { q with rate := q.rate / 2, cnpAt := s.now }
  else skip

/-- 55 us without a CNP: the rate rises by 5 % of line rate. DESIGN CHOICE (notes/assumptions/34): safe. -/
def roceRateRaise (port i : Nat) : M Unit := do
  let s ← get
  match s.qp (qpKey port i) with
  | none => skip
  | some q =>
    if q.cnpAt + 55000 ≤ s.now && decide (q.rate < 1000) then
      setQp (qpKey port i) { q with rate := min 1000 (q.rate + 50), cnpAt := s.now }
    else skip

/-- Response data of a READ arrives: it is written at its place of LocalAddr. -/
def roceReadResponse (port qpn psn : Nat) (data : List Nat) : M Unit := do
  let s ← get
  if s.ethUp port then
    match s.qpOf port qpn with
    | none => bump (pk 0x48E1 3) 1
    | some (k, q) => do
      bump (pk 0x48E1 1) 1
      match q.unacked.find? fun x => x.psn == psn && x.op == 1 with
      | none => skip
      | some x => do
        let cut := splitAtPsn psn q.unacked
        match (s.qpParts k).find? fun y => hOpcode y.2.desc == 0x71 &&
            decide (bits (y.2.desc / 2 ^ 256) 197 134 ≤ x.addr) &&
            decide (x.addr < bits (y.2.desc / 2 ^ 256) 197 134 + max 1 (bits (y.2.desc / 2 ^ 256) 133 102) * 64) with
        | some y =>
          let a := y.2.desc / 2 ^ 256
          store (whoOf (armEngine y.1) y.2.p) (bits a 255 198 * 64 + (x.addr - bits a 197 134)) (data.take x.len)
        | none => skip
        setQp k { q with unacked := (cut.1.filter fun y => y.op != 0) ++ cut.2.drop 1, retries := 0, sentAt := s.now }
        settleRdma k
  else skip

/-! ## RoCE as responder (R487, R489) -/

/-- The relay engine of a port's region. -/
def portRelay (port : Nat) : Nat := 84 + 4 * port

/-- The key entry that an RKey names. -/
def State.keyEntry (s : State) (rkey : Nat) : Option Nat :=
  let i := bits rkey 31 20
  if i < s.par (pk 0x4823 0) then
    match lookup s.eth.keys i with
    | some v => if bit v 154 && bits v 151 132 == bits rkey 19 0 then some v else none
    | none => none
  else none

/-- The checks of R487 on a request: the access bit, and every byte in the entry and in a placement of the partition. -/
def State.roceOk (s : State) (q : Qp) (r : RoceReq) (accessBit : Nat) : Bool :=
  qRemoteIp q.entry == r.srcIp && qRemote q.entry == r.srcQpn && q.recvPsn == r.psn &&
    (match s.keyEntry r.rkey with
     | none => false
     | some v =>
       let base := bits v 255 198 * 64
       bit v accessBit && bits v 157 155 == qPart q.entry && decide (base ≤ r.addr)
         && decide (r.addr + r.len ≤ base + bits v 197 158 * 64)
         && (List.range r.len).all fun i => s.placed (qPart q.entry) (r.addr + i))

/-- A congestion mark is answered with a CNP, at most one per queue pair in 50 us. -/
def answerMark (k : Nat) (r : RoceReq) : M Unit := do
  let s ← get
  match s.qp k with
  | none => skip
  | some q =>
    let due := match q.cnpSent with | some t => decide (t + 50000 ≤ s.now) | none => true
    if r.marked && due then do
      setQp k { q with cnpSent := some s.now }
      sendFrame r.port (.cnp r.port r.srcQpn)
    else skip

/-- A request that fails its checks. DESIGN CHOICE (notes/assumptions/34): safe. -/
def roceRefuse (r : RoceReq) : M Unit := do
  bump (pk 0x48E1 5) 1
  sendFrame r.port (.roceAck r.port r.srcQpn r.psn (some 1))

/-- An incoming WRITE packet. -/
def incomingWrite (r : RoceReq) : M Unit := do
  let s ← get
  if s.ethUp r.port then do
    bump (pk 0x48E1 1) 1
    match s.qpOf r.port r.dstQpn with
    | none => roceRefuse r
    | some (k, q) =>
      if s.roceOk q { r with len := r.data.length } 153 then do
        let w := whoOf (portRelay r.port) (qPart q.entry)
        store w r.addr r.data
        match r.imm with
        | some v =>
          if qCue q.entry == 0 then skip
          else do
            storeVal w (qCue q.entry + 8) 4 (v % 2 ^ 32)
            signalCue w (qCue q.entry) 1
        | none => skip
        setQp k { q with recvPsn := (q.recvPsn + 1) % 2 ^ 24 }
        answerMark k r
        sendFrame r.port (.roceAck r.port r.srcQpn r.psn none)
      else roceRefuse r
  else skip

/-- An incoming READ: poisoned data goes out as zeros (R410). DESIGN CHOICE (notes/assumptions/34): safe. -/
def incomingRead (r : RoceReq) : M Unit := do
  let s ← get
  if s.ethUp r.port then do
    bump (pk 0x48E1 1) 1
    match s.qpOf r.port r.dstQpn with
    | none => roceRefuse r
    | some (k, q) =>
      if s.roceOk q r 152 then do
        let e := portRelay r.port
        let w := whoOf e (qPart q.entry)
        let v ← load w r.addr r.len
        let bs ← forwarded ⟨e, e, .relay, qPart q.entry, 0, 0, 0, false, false, none, none, 0, []⟩ r.addr (qpDetail k) v r.len
        let ps := cutMtu (qMtu q.entry) (r.len + 1) bs
        setQp k { q with recvPsn := (q.recvPsn + ps.length) % 2 ^ 24 }
        answerMark k r
        each ps.zipIdx fun x => sendFrame r.port (.roceData r.port r.srcQpn ((r.psn + x.2) % 2 ^ 24) x.1)
      else roceRefuse r
  else skip

end Sys2Proof.Machine
end

