-- ==== Sys2Proof/Machine/Views.lean ====
section
/-! DEFINITION. What a dictionary read returns: stored values, and values made from the state (chapter "The Eloaphor
parameter dictionary" and the chapters' parameter tables). -/
namespace Sys2Proof.Machine

/-- Bytes without the zeros at their end. -/
def trimZeros (l : List Nat) : List Nat := ((l.reverse).dropWhile (· == 0)).reverse

/-- SessionTable (R466): 16 entries of 16 B. -/
def State.sessionTable (s : State) : List Nat :=
  let open' := (s.elo.sessions.filter fun x => x.isOpen).take 16
  (open'.flatMap fun x => toBytes x.id 2 ++ [x.role % 256, x.path % 256] ++ toBytes ((s.now - x.last) / 1000000) 4 ++ toBytes x.src 8)
    ++ List.replicate (16 * (16 - open'.length)) 0

/-- The state code of a context (R324). -/
def ctxCode : CtxState → Nat
  | .free => 0
  | .opened => 1
  | .fencing => 2
  | .quarantine => 3

/-- ContextTable of a partition. -/
def State.contextTable (s : State) (p : Nat) : List Nat :=
  (List.range 256).flatMap fun c => [ctxCode (s.ctx p c).st, (s.ctx p c).gen % 256]

/-- LinkPeer: the last identity record of a group. -/
def State.linkPeer (s : State) (g : Nat) : List Nat :=
  match lookup s.peers g with
  | none => List.replicate 64 0
  | some r => idBytes r

/-- The record of the fault log that a ring index selects (R405). -/
def State.faultAt (s : State) (i : Nat) : Nat :=
  let first := s.par (pk 0x7100 1) - s.faultLog.length
  let k := (i + 4096 - first % 4096) % 4096
  s.faultLog.getD k 0

/-- The Reliability count of a physical unit. -/
def State.relCount (s : State) (kind phys what : Nat) : Nat := getC (fun _ => 0) s.rel (relKey kind phys what)

/-- LaneStats of a group (R374). -/
def State.laneStats (s : State) (l : Nat) : List Nat :=
  let ph := groupPhysical (l / 5) (l % 5)
  toBytes (Config.statWord l 0) 8 ++ toBytes (Config.statWord l 1) 8 ++ toBytes (s.relCount ukLane ph 2) 4
    ++ toBytes (s.relCount ukLane ph 0x20) 2 ++ toBytes (s.relCount ukLane ph 0x21) 2 ++ toBytes (Config.statWord l 2) 4
    ++ toBytes (Config.statWord l 3) 4

/-- CellStats (R438). -/
def State.cellStats (s : State) (b : Nat) : List Nat :=
  (List.range 17).flatMap fun c =>
    let ph := physical (b / 18) (b % 18) c
    toBytes (s.relCount ukCell ph 0) 4 ++ toBytes (s.relCount ukCell ph 1) 4 ++ toBytes (s.test (testKey ukCell ph)).2 8

/-- DieStats (R438). -/
def State.dieStats (s : State) (stack : Nat) : List Nat :=
  (List.range 17).flatMap fun d =>
    let ph := physical (stack / 3) (18 + stack % 3) d
    toBytes (s.relCount ukDie ph 0) 4 ++ toBytes (s.relCount ukDie ph 1) 4 ++ toBytes (s.relCount ukDie ph 2) 4
      ++ toBytes (Config.statWord (17 * stack + d) 4) 4

/-- BankStats (R438). -/
def State.bankStats (s : State) (d : Nat) : List Nat :=
  (List.range 128).flatMap fun b =>
    let k := d / 3 * 2 ^ 9 + d % 3 * 2 ^ 7 + b
    toBytes (s.relCount ukLoftBank k 0) 4 ++ toBytes (s.relCount ukLoftBank k 1) 4

/-- FwSlots of a kind (R520). -/
def State.fwSlots (s : State) (kind : Nat) : List Nat := (fwKeys kind).flatMap fun k =>
  let q := s.fwInst k
  [q.active, q.a.st, q.b.st, 0] ++ toBytes q.a.ver 4 ++ toBytes q.b.ver 4 ++ [q.slot.level % 256, 0, 0, 0]

/-- A shadow bank (R514). -/
def State.clapperBank (s : State) (i : Nat) : List Nat :=
  match lookup s.life.banks i with
  | none => List.replicate 4128 0
  | some (t, n, es) =>
    let body := es.flatMap fun e => toBytes e 16
    toBytes t 8 ++ toBytes n 8 ++ toBytes es.length 4 ++ toBytes (crc32c body) 4 ++ List.replicate 8 0 ++ body
      ++ List.replicate (4096 - body.length) 0

/-- The daily record in a ring slot (R518). -/
def State.dailyAt (s : State) (i : Nat) : List Nat :=
  match s.life.dailies.find? fun d => (d.seq - 1) % 1024 == i with
  | some d => d.bytes
  | none => List.replicate 4160 0

/-- The 32 episode records of a pennant, oldest first. -/
def State.episodes (s : State) (n : Nat) : List Nat :=
  let l := (s.pennant n).ring
  (l.flatMap fun e => toBytes e 32) ++ List.replicate (32 * (32 - l.length)) 0

/-- 4 KiB of the selected dump from the selected offset. -/
def State.dumpData (s : State) : List Nat :=
  let l := ((lookup s.dumps (s.par (pk 0x7200 3))).getD []).drop (s.par (pk 0x7200 4))
  l.take 4096 ++ List.replicate (4096 - l.length) 0

/-- A subscriber slot, empty where it holds none. -/
def State.subAt (s : State) (slot : Nat) : Sub := (lookup s.subs slot).getD ⟨0, 0, 0, 0, 0, 0, 0, 0, [], 0, 0⟩

/-- A value of a subscriber record (R466). -/
def State.subValue (s : State) (slot sub : Nat) : Nat :=
  let u := s.subAt slot
  match sub with
  | 1 => u.path
  | 2 => u.dest
  | 3 => u.mask
  | 4 => u.session
  | 5 => u.delivered
  | 6 => u.dropped
  | _ => 6

/-- The bytes of a stored value. -/
def valueBytes (r : PRow) (v : Nat) : List Nat :=
  match r.ty with
  | .str => trimZeros (toBytes v r.len)
  | _ => toBytes v r.len

/-- The logic voltages of the operating points, in mV (R380, R404): the part's own, within 30 mV of the nominal ones; a factory write of the
sealed record replaces them. -/
def State.opVoltages (s : State) : List Nat :=
  if s.eff' (pk 0x2200 0) != 0 then toBytes (s.eff' (pk 0x2200 0)) 32
  else (List.range 16).flatMap fun n => toBytes (clampTo (590 + 20 * n) (650 + 20 * n) (Config.opVoltage n)) 2

/-- The value of a parameter, as its bytes. -/
def State.view (s : State) (r : PRow) (index sub : Nat) : List Nat :=
  let stored := valueBytes r (s.par (pk index sub))
  if index == 0x1030 then s.sessionTable
  else if 0x3400 ≤ index && index ≤ 0x3408 && sub == 3 then s.episodes (index - 0x3400)
  else if index == 0x3605 || (index == 0x2200 && sub == 0) then s.opVoltages
  else if index == 0x4007 && sub != 0 then s.linkPeer (sub - 1)
  else if index == 0x5010 && sub != 0 then s.contextTable (sub - 1)
  else if index == 0x7000 then s.retired.flatMap fun v => toBytes v 4
  else if index == 0x7100 && sub == 3 then toBytes (s.faultAt (s.par (pk 0x7100 2))) 32
  else if index == 0x7200 && sub == 5 then s.dumpData
  else if index == 0x7200 && sub == 6 then s.dumpSummary
  else if index == 0x7200 && sub == 8 then s.engineDumps.getD (s.par (pk 0x7200 7)) []
  else if index == 0x7300 && sub != 0 then s.laneStats (sub - 1)
  else if index == 0x7310 && sub != 0 then s.cellStats (sub - 1)
  else if index == 0x7320 && sub != 0 then s.dieStats (sub - 1)
  else if index == 0x7330 && sub != 0 then s.bankStats (sub - 1)
  else if 0x7830 ≤ index && index ≤ 0x7837 then s.fwSlots (index - 0x7830)
  else if index == 0x8002 && sub != 0 then s.clapperBank (sub - 1)
  else if index == 0x8015 then s.dailyAt (s.par (pk 0x8014 0))
  else if index == 0x9000 then [(s.subs.filter fun u => u.2.path != 0).length]
  else if 0x9001 ≤ index && index ≤ 0x9010 && sub != 0 then toBytes (s.subValue (index - 0x9001) sub) r.len
  else stored

end Sys2Proof.Machine
end

