-- ==== Sys2Proof/Machine/Eloaphor.lean ====
section
/-! DEFINITION. Eloaphor: requests, sessions, subscriptions and parameter writes (chapter "The Eloaphor parameter
dictionary"). Paths: 1 halyard, 2 host mailbox, 3 UDP. A source is a MAC, a host port, or an IPv6 address with its UDP port
above it, read as the bytes of a Destination (R466). -/
namespace Sys2Proof.Machine

def setElo (f : EloSt → EloSt) : M Unit := modify fun s => { s with elo := f s.elo }

/-! ## PDUs and items (R443, R444) -/

end Sys2Proof.Machine
namespace Sys2Proof
open Sys2Proof.Machine
/-- The header of a PDU. -/
def Pdu.header (p : Pdu) : List Nat :=
  [p.version % 256, p.op % 256, p.flags % 256, p.result % 256] ++ toBytes p.body.length 2 ++ toBytes p.session 2 ++ toBytes p.txid 4
    ++ toBytes p.seq 4

def Pdu.bytes (p : Pdu) : List Nat := p.header ++ p.body ++ p.tag

def Pdu.tagged (p : Pdu) : Bool := bit p.flags 1
end Sys2Proof
namespace Sys2Proof.Machine

/-- The PDU that bytes spell; none where the length disagrees with BodyLength and Tagged. DESIGN CHOICE (notes/assumptions/26):
unsafe. -/
def pduOf (bs : List Nat) : Option Pdu :=
  let len := ofBytes ((bs.drop 4).take 2)
  let tagLen := if bit (nth bs 2) 1 then 32 else 0
  if 16 ≤ bs.length && bs.length == 16 + len + tagLen then
    some ⟨nth bs 0, nth bs 1, nth bs 2, nth bs 3, ofBytes ((bs.drop 6).take 2), ofBytes ((bs.drop 8).take 4),
      ofBytes ((bs.drop 12).take 4), (bs.drop 16).take len, bs.drop (16 + len)⟩
  else none

/-- Operations that are defined in requests. EVENT comes from the module only. -/
def opDefined (op : Nat) : Bool :=
  [0x01, 0x02, 0x03, 0x04, 0x05, 0x06, 0x10, 0x11, 0x12, 0x20, 0x21, 0x23, 0x30].contains op

/-- Largest PDU of a path (R439). -/
def maxPdu (path : Nat) : Nat := if path == 2 then 4096 else 1400

end Sys2Proof.Machine
namespace Sys2Proof
open Sys2Proof.Machine
/-- A PDU is well framed (R443). DESIGN CHOICE (notes/assumptions/26): unsafe. -/
def Pdu.framed (p : Pdu) (path : Nat) : Bool :=
  p.version == 1 && opDefined p.op && decide (p.bytes.length ≤ maxPdu path) && p.tag.length == (if p.tagged then 32 else 0)
end Sys2Proof
namespace Sys2Proof.Machine

/-- An item (R444). -/
structure PduItem where
  index  : Nat
  sub    : Nat
  ty     : Nat
  value  : List Nat
  result : Nat
deriving DecidableEq, Repr

/-- The items of a body, each from a 4 B boundary; none where one reaches beyond the body, or there are more than fuel. -/
def parseItems : Nat → List Nat → Option (List PduItem)
  | 0, bs => if bs.isEmpty then some [] else none
  | fuel + 1, bs =>
    if bs.isEmpty then some []
    else
      let len := ofBytes ((bs.drop 4).take 2)
      if bs.length < 8 + len then none
      else (parseItems fuel (bs.drop (8 + alignUp len 4))).map fun l =>
        ⟨ofBytes (bs.take 2), nth bs 2, nth bs 3, (bs.drop 8).take len, 0⟩ :: l

/-- An item as bytes, filled up to a 4 B boundary. -/
def PduItem.bytes (i : PduItem) : List Nat :=
  toBytes i.index 2 ++ [i.sub % 256, i.ty % 256] ++ toBytes i.value.length 2 ++ [i.result % 256, 0] ++ i.value
    ++ List.replicate (alignUp i.value.length 4 - i.value.length) 0

def itemsBytes (l : List PduItem) : List Nat := l.flatMap PduItem.bytes

/-! ## Who is served (R442, R464) -/

/-- An entry of the allow list holds an address: the prefixes agree. An entry of zeros lists nothing. DESIGN CHOICE
(notes/assumptions/32): unsafe. -/
def allows (entry addr : Nat) : Bool :=
  let be := fun v : Nat => ofBytes ((toBytes v 16).reverse)
  let n := min 128 (entry / 2 ^ 128 % 256)
  entry != 0 && be entry / 2 ^ (128 - n) == be addr / 2 ^ (128 - n)

/-- Datagrams of a source are taken. DESIGN CHOICE (notes/assumptions/32): unsafe. -/
def State.udpTaken (s : State) (src : Nat) : Bool :=
  (s.ethUp 0 || s.ethUp 1) &&
    (match s.par (pk 0x48F0 0) with
     | 1 => true
     | 2 => (List.range 8).any fun i => allows (s.par (pk 0x48F2 0) / 256 ^ (17 * i) % 256 ^ 17) (src % 2 ^ 128)
     | _ => false)

/-- What the module serves on a path: 0 nothing, 1 the island subset, 2 the whole dictionary. DESIGN CHOICE (notes/assumptions/33):
unsafe. -/
def State.serves (s : State) (path src : Nat) : Nat :=
  match s.mode with
  | .off | .precharge => 0
  | .boot | .fenced | .safe | .removable => if path == 1 then 1 else 0
  | .selftest | .training | .ready | .serving | .draining =>
    if path == 1 then 2
    else if path == 2 then (if (s.hostPort src).up then 2 else 0)
    else if path == 3 then (if s.udpTaken src then 2 else 0)
    else 0

/-- Indices of the island subset. -/
def islandIndex (i : Nat) : Bool :=
  (decide (0x1000 ≤ i) && decide (i ≤ 0x1FFF)) || (decide (0x3000 ≤ i) && decide (i ≤ 0x35FF)) || (decide (0x7000 ≤ i) && decide (i ≤ 0x77FF))

/-- Parameters that the island lets be written: DumpStart and ModuleControl (R498). -/
def islandWrite (index sub : Nat) : Bool := (index == 0x7200 && sub == 1) || (index == 0x7800 && sub == 0)

/-- Operations of the island subset. -/
def islandOp (op : Nat) : Bool := [0x01, 0x02, 0x03, 0x04, 0x05, 0x10, 0x11, 0x12, 0x30].contains op

/-! ## Answers -/

/-- What an operation answers: PDU result, body, and More. -/
structure Answer where
  result : Nat
  body   : List Nat
  more   : Bool
deriving DecidableEq, Repr

def Answer.of (r : Nat) : Answer := ⟨r, [], false⟩

/-- A response reaches its path: the host mailbox gets it in HP_MBX_RSP with its vector (R441). -/
def deliver (path src : Nat) (q : Pdu) : M Unit := do
  let s ← get
  if path == 2 then
    if (s.hostPort src).mbxState == 1 then do
      setHostPort src fun h => { h with rsp := putBytes h.rsp 0 q.bytes, rspLen := q.bytes.length, mbxState := 2 }
      sendMsix src (s.par (pk 0x4802 (src + 1)))
    else skip
  else emit (.pdu path src q)

end Sys2Proof.Machine
namespace Sys2Proof
open Sys2Proof.Machine
/-- The response to a request; an open session's is tagged (R449). -/
def Pdu.response (p : Pdu) (x : Option Session) (a : Answer) : Pdu :=
  let tag := x.isSome
  let q : Pdu := ⟨1, p.op, 1 + 2 * b2n tag + 4 * b2n a.more, a.result, p.session, p.txid, if tag then p.seq else 0, a.body, []⟩
  match x with
  | some y => { q with tag := hmac y.key (q.header ++ q.body) }
  | none => q
end Sys2Proof
namespace Sys2Proof.Machine

/-! ## Reading (R445, R453) -/

/-- A value that a READ may return. -/
def State.readItem (s : State) (island : Bool) (i : PduItem) : PduItem × Option (List Nat) :=
  if island && !islandIndex i.index then ({ i with value := [], result := 7 }, none)
  else match dictFind i.index i.sub with
    | none => ({ i with value := [], result := 1 }, none)
    | some r =>
      if r.acc = .wo then ({ i with value := [], result := 2 }, none)
      else
        let v := s.view r i.index i.sub
        ({ i with ty := r.ty.code, value := v.take 1024, result := 0 }, some v)

/-- READ (R445, R453): the values of its items at one instant. -/
def opRead (island : Bool) (body : List Nat) : M Answer := do
  match parseItems 64 body with
  | none => pure (.of 0x10)
  | some l => do
    accruePennants
    let s ← get
    pure ⟨0, itemsBytes (l.map fun i => (s.readItem island i).1), false⟩

def accCode : PAcc → Nat
  | .ro => 0
  | .rw => 1
  | .rwp => 2
  | .wo => 3
  | .cmd => 4

def roleCode : Role → Nat
  | .observer => 0
  | .oper => 1
  | .service => 2
  | .factory => 3

/-- DESCRIBE's value; the default of PowerCapRequest is the highest cap of the grade (R404). DESIGN CHOICE (notes/assumptions/32): unsafe. -/
def describeValue (lce : Bool) (r : PRow) (key : Nat) : List Nat :=
  let w := fun v : Nat => toBytes (widenValue r.ty v) 8
  [r.ty.code, accCode r.acc, roleCode r.role] ++ w (if lce && key == pk 0x3010 0 then 3000 else paramDefault key) ++ w r.min ++ w r.max

/-- DESCRIBE (R445). -/
def opDescribe (lce island : Bool) (body : List Nat) : Answer :=
  match parseItems 64 body with
  | none => .of 0x10
  | some l => ⟨0, itemsBytes (l.map fun i =>
      if island && !islandIndex i.index then { i with value := [], result := 7 }
      else match dictFind i.index i.sub with
        | none => { i with value := [], result := 1 }
        | some r => { i with ty := r.ty.code, value := describeValue lce r (pk i.index i.sub), result := 0 }), false⟩

/-- LIST: the indices present in a range, as many as a PDU of the path holds. DESIGN CHOICE (notes/assumptions/32): unsafe. -/
def opList (island : Bool) (path : Nat) (body : List Nat) : Answer :=
  if body.length != 4 then .of 0x10
  else
    let first := ofBytes (body.take 2)
    let n := ofBytes (body.drop 2)
    let l := ((dictRows.map fun r => r.index).filter fun i => decide (first ≤ i) && decide (i < first + n) && (!island || islandIndex i)).eraseDups
    ⟨0, (l.take ((maxPdu path - 48) / 2)).flatMap fun i => toBytes i 2, false⟩

/-- BLOB_READ (R445): up to 1,024 B from an offset. -/
def opBlobRead (island : Bool) (body : List Nat) : M Answer := do
  match parseItems 64 body with
  | some [i] =>
    if i.value.length != 4 then pure (.of 0x10)
    else do
      accruePennants
      let s ← get
      let off := ofBytes i.value
      match s.readItem island i with
      | (j, none) => pure ⟨0, j.bytes, false⟩
      | (j, some v) =>
        if j.ty != 11 then pure ⟨0, ({ i with value := [], result := 4 } : PduItem).bytes, false⟩
        else pure ⟨0, ({ j with value := (v.drop off).take 1024 } : PduItem).bytes, decide (off + 1024 < v.length)⟩
  | _ => pure (.of 0x10)

/-! ## Sessions that end (R451) -/

/-- Keys of the roles: RoleKeyOperator, RoleKeyService and RoleKeyFactory. -/
def roleKey (role : Nat) : Nat := pk (0x101F + role) 0

/-- Bytes of the serial number. -/
def State.serial (s : State) : List Nat := trimZeros (toBytes (s.par (pk 0x1001 0)) 16)

/-- A session by its SessionId. -/
def State.session (s : State) (id : Nat) : Option Session := s.elo.sessions.find? fun x => x.id == id

def putSession (x : Session) : M Unit := setElo fun q => { q with sessions := q.sessions.map fun y => if y.id == x.id then x else y }

/-- One session closes; the session of a subscriber slot is then no longer open. -/
def sessionClose (id : Nat) : M Unit := modify fun s => s.closeSessions fun x => x.id == id

/-- 5 s after a CHALLENGE without a LOGIN. -/
def loginTimeout (id : Nat) : M Unit := do
  let s ← get
  match s.session id with
  | some x => if !x.isOpen && decide (x.born + 5000000000 ≤ s.now) then sessionClose id else skip
  | none => skip

/-- 60 s without a PDU. -/
def sessionIdle (id : Nat) : M Unit := do
  let s ← get
  match s.session id with
  | some x => if x.isOpen && decide (x.last + 60000000000 ≤ s.now) then sessionClose id else skip
  | none => skip

/-- 5 s without a segment discard a transfer (R455). -/
def blobTimeout (id : Nat) : M Unit := do
  let s ← get
  match s.session id with
  | some x =>
    match x.blob with
    | some b => if b.last + 5000000000 ≤ s.now then putSession { x with blob := none } else skip
    | none => skip
  | none => skip

/-! ## Commands of parameters -/

/-- ModuleControl (R497, R498, R508). -/
def moduleControl (v : Nat) : M Unit :=
  match v with
  | 1 => moduleDrain
  | 2 => moduleRestart false
  | 3 => moduleRestart true
  | 4 => moduleStandby
  | 5 => moduleWake
  | _ => skip

/-- UserCalReset (R460). -/
def userCalReset : M Unit := do
  let s ← get
  each (s.calRecords.filter fun i => s.par (pk i 1) != 0) fun i => do
    setPar (pk i 1) 0
    noteWrite (pk i 1) 0
  each s.calRecords fun i => modify fun t => t.putEffective i

/-- RestoreDefaults (R458). -/
def restoreDefaults : M Unit := setElo fun q => { q with restore := true }

/-- EngineReset: a trial of a stack's firmware ends with it (R422, R505). -/
def resetCommand (e : Nat) (lost : Option (Nat × Nat)) : M Unit := do
  engineReset e lost
  fwEngineFails e

/-- What the write of a CMD parameter does. UnitRestore and FwStage go on with the commands UNIT_RESTORE and FW_STAGE, which carry the
outcome of the test and of the signature. DESIGN CHOICE (notes/assumptions/11): unsafe. -/
def command (key v : Nat) : M Unit :=
  let index := key / 256
  let sub := key % 256
  if index == 0x1031 then sessionClose v
  else if index == 0x10F1 then onlyIf (v == 1) restoreDefaults
  else if index == 0x2FFF then onlyIf (v == 1) userCalReset
  else if index == 0x3101 then leaseCommit v
  else if index == 0x4005 then linkPlanApply
  else if index == 0x400A then linkRestore v
  else if index == 0x400B then laneSpareStart v
  else if index == 0x4015 then rankReady (sub - 1) v
  else if index == 0x4824 then qpReload v
  else if index == 0x4825 then keyReload v
  else if index == 0x5000 then partitionControl (sub - 1) v
  else if index == 0x5835 then instanceControl (sub - 1) v
  else if index == 0x5103 then placementReload v
  else if index == 0x5887 then normProfileSave v
  else if index == 0x7002 then resetCommand v none
  else if index == 0x7003 then onlyIf (v == 1) enterFenced
  else if index == 0x7011 then dieSpareStart (v / 16) (v % 16)
  else if index == 0x7200 then onlyIf (v == 1) dumpStart
  else if index == 0x7800 then moduleControl v
  else if index == 0x7810 then vaultLoadStart v
  else if index == 0x7822 then fwActivate v
  else if index == 0x7823 then fwConfirm v
  else if index == 0x7824 then fwRevert v
  else skip

/-! ## Writing (R453 to R456) -/

/-- A subscriber slot written through its record (R461): Path 0 frees it. -/
def putSub (slot sub v : Nat) : M Unit := modify fun s =>
  let u := { s.subAt slot with session := 0 }
  let w := match sub with
    | 1 => { u with path := v }
    | 2 => { u with dest := v }
    | _ => { u with mask := v }
  { s with subs := if sub == 1 && v == 0 then eraseKey s.subs slot else insertAt (eraseKey s.subs slot) slot w }

/-- A value stored. -/
def putValue (key v : Nat) : M Unit :=
  let index := key / 256
  if 0x9001 ≤ index && index ≤ 0x9010 then putSub (index - 0x9001) (key % 256) v else setPar key v

/-- One value clamped and stored; answers whether it was clamped. n: the bytes it came with. -/
def storeValue (path key : Nat) (r : PRow) (n v : Nat) : M Bool := do
  let sub := key % 256
  putValue key (clampValue r sub (paramDefault key) v)
  noteWrite key path
  pure (clamps r sub (paramDefault key) v || (decide (r.ty = .blob) && n != r.len))

/-- The limits that a write moves: the values that depend on them are clamped again; answers those that were. DESIGN CHOICE
(notes/assumptions/16): unsafe. -/
def settleLimits (path : Nat) (keys : List Nat) : M (List Nat) := do
  let moved ← collect (keys.flatMap dependents).eraseDups fun k => do
    let s ← get
    let w := s.dependValue k (s.par k)
    if w == s.par k then pure []
    else do
      setPar k w
      noteWrite k path
      pure [k]
  each ((keys.map (· / 256)).filter isUserCal).eraseDups fun i => modify fun t => t.putEffective i
  pure (List.flatten moved)

/-- What follows a stored parameter at once: sessions of a role whose key changed close, PowerLimit follows its terms, and the owner
of an EMPTY codec slot is in force (R158). DESIGN CHOICE (notes/assumptions/19): unsafe. -/
def followWrite (key old : Nat) : M Unit := do
  let s ← get
  let role := key / 256 - 0x101F
  onlyIf (decide (0x1020 ≤ key / 256) && decide (key / 256 ≤ 0x1022) && s.par key != old)
    (modify fun t => t.closeSessions fun x => x.role == role)
  onlyIf (isCap key) putLimit
  onlyIf (key / 256 == 0x4020 && s.par key == 2) freeRun
  onlyIf (key / 256 == 0x6001 && key % 256 != 0 && s.slotState (key % 256 - 1) == 0) (setEff key (s.par key))

/-- The checks of one item of a WRITE (R446, R447, R464). DESIGN CHOICE (notes/assumptions/32): unsafe. -/
def writeCheck (role : Nat) (island : Bool) (i : PduItem) : Nat :=
  if island && !islandWrite i.index i.sub then 7
  else match dictFind i.index i.sub with
    | none => 1
    | some r =>
      if r.acc = .ro then 2
      else if 0x2000 ≤ i.index && i.index < 0x2800 && role < 3 then 5
      else if role < roleCode r.role then 3
      else if i.ty != r.ty.code || (r.ty != .blob && r.ty != .str && i.value.length != r.len) then 4
      else 0

/-- Marks of the writes of a list whose parameter a later one of the list writes again. DESIGN CHOICE (notes/assumptions/16): unsafe.
-/
def overwritten : List (Nat × List Nat) → List Bool
  | [] => []
  | x :: rest => (rest.any fun y => y.1 == x.1) :: overwritten rest

/-- Writes checked values together (R453): stored, limits settled, clamps counted on the path, then their commands. Answers the value
that each write stored. DESIGN CHOICE (notes/assumptions/11): unsafe. DESIGN CHOICE (notes/assumptions/16): unsafe. -/
def writeAll (path : Nat) (items : List (Nat × List Nat)) : M (List (List Nat)) := do
  let s ← get
  -- a write to VaultLoad is ignored while a load waits or runs: the address of its list stays, and is the echo (R119)
  let l := match s.vaultLoad with
    | some v => items.map fun x => if x.1 == pk 0x7810 0 then (x.1, toBytes v.list 8) else x
    | none => items
  let old := l.map fun x => s.par x.1
  let clamped ← collect l fun x =>
    match dictFind (x.1 / 256) (x.1 % 256) with
    | none => pure []
    | some r => do
      let b ← storeValue path x.1 r x.2.length (ofBytes x.2)
      pure (if b then [x.1] else [])
  let moved ← settleLimits path (l.map Prod.fst)
  let cs := List.flatten clamped
  bump (pk 0x1F00 path) (cs.length + (moved.filter fun k => !cs.contains k).length)
  let t ← get
  let later := l.zip (overwritten l)
  let out := later.map fun y =>
    let x := y.1
    match dictFind (x.1 / 256) (x.1 % 256) with
    | none => []
    | some r =>
      let own := clampValue r (x.1 % 256) (paramDefault x.1) (ofBytes x.2)
      if r.acc = PAcc.wo then toBytes (crc32c (toBytes (if y.2 then own else t.par x.1) r.len)) 4
      else (if y.2 then toBytes own r.len else t.view r (x.1 / 256) (x.1 % 256)).take 1024
  each (later.zip old) fun y => do
    let x := y.1.1
    followWrite x.1 y.2
    match dictFind (x.1 / 256) (x.1 % 256) with
    | some r =>
      let v := if y.1.2 then clampValue r (x.1 % 256) (paramDefault x.1) (ofBytes x.2) else t.par x.1
      onlyIf (decide (r.acc = PAcc.cmd)) (command x.1 v)
    | none => skip
  pure out

/-- WRITE (R446, R453): every item is checked, then all are written, or none. -/
def opWrite (role path : Nat) (island : Bool) (body : List Nat) : M Answer := do
  match parseItems 64 body with
  | none => pure (.of 0x10)
  | some l => do
    let cs := l.map fun i => writeCheck role island i
    if cs.all (· == 0) then do
      let vs ← writeAll path (l.map fun i => (pk i.index i.sub, i.value))
      pure ⟨0, itemsBytes ((l.zip vs).map fun x => { x.1 with value := x.2, result := 0 }), false⟩
    else pure ⟨0, itemsBytes ((l.zip cs).map fun x => { x.1 with result := if x.2 == 0 then 6 else x.2 }), false⟩

/-- BLOB_WRITE (R455). DESIGN CHOICE (notes/assumptions/32): unsafe. -/
def opBlobWrite (path : Nat) (x : Option Session) (more : Bool) (body : List Nat) : M Answer := do
  match parseItems 64 body with
  | some [i] =>
    let off := ofBytes (i.value.take 4)
    let data := i.value.drop 4
    let echo := fun r v => ({ i with value := v, result := r } : PduItem).bytes
    if i.value.length < 4 || 1024 < i.value.length then pure (.of 0x10)
    else match x with
      | none => pure ⟨0, echo 3 (i.value.take 4), false⟩
      | some y => do
        let s ← get
        let key := pk i.index i.sub
        let c := writeCheck y.role false i
        let busy := match y.blob with | some b => b.key != key | none => false
        let have' := match y.blob with | some b => b.bytes | none => []
        let kind := match dictFind i.index i.sub with | some r => if r.ty = .blob then c else 4 | none => c
        if busy then pure (.of 8)
        else if kind != 0 then do
          putSession { y with blob := none }
          pure ⟨0, echo kind (i.value.take 4), false⟩
        else if off != have'.length then do
          putSession { y with blob := none }
          pure ⟨0, echo 6 (i.value.take 4), false⟩
        else if more then do
          putSession { y with blob := some ⟨key, have' ++ data, s.now⟩ }
          pure ⟨0, echo 0 (i.value.take 4), false⟩
        else do
          putSession { y with blob := none }
          let _ ← writeAll path [(key, have' ++ data)]
          let t ← get
          let r := (dictFind i.index i.sub).map fun r => r.len
          pure ⟨0, echo 0 (toBytes (crc32c (toBytes (if 0x9001 ≤ i.index && i.index ≤ 0x9010 then t.subValue (i.index - 0x9001) i.sub else t.par key)
            (r.getD 0))) 4), false⟩
  | _ => pure (.of 0x10)

/-! ## Opening sessions (R448, R451) -/

/-- A random number of R448. -/
def randomNumber : M Nat := fun s => (Config.random s.freeIx, { s with freeIx := s.freeIx + 1 })

/-- A SessionId that is neither in use nor closed within the last 60 s. -/
def State.freshId (s : State) (r : Nat) : Nat :=
  (((List.range 65535).map fun i => (r + i) % 65535 + 1).find? fun id =>
    !(s.elo.sessions.any fun x => x.id == id) && !(s.elo.closed.any fun x => x.1 == id && decide (s.now < x.2 + 60000000000))).getD 1

/-- A source may open no session for now (R448). -/
def State.lockedOut (s : State) (path src : Nat) : Bool := s.elo.locked.any fun x => x.1 == path && x.2.1 == src && decide (s.now < x.2.2)

/-- CHALLENGE (R448): a SessionId and a nonce for a role. All 16 sessions open is BUSY; the oldest that is not open makes room. DESIGN
CHOICE (notes/assumptions/33): unsafe. -/
def opChallenge (path src : Nat) (body : List Nat) : M Answer := do
  let s ← get
  let role := nth body 0
  if body.length != 17 then pure (.of 0x10)
  else if 0 < role && s.lockedOut path src then pure (.of 0x14)
  else if role == 0 || 3 < role || (role == 3 && path != 1) then pure (.of 3)
  else if 16 ≤ (s.elo.sessions.filter fun x => x.isOpen).length then pure (.of 8)
  else do
    let r ← randomNumber
    let nm ← collect (List.range 16) fun _ => randomNumber
    let nm := nm.map (· % 256)
    let id := s.freshId r
    let room := if 16 ≤ s.elo.sessions.length then s.elo.sessions.eraseP fun x => !x.isOpen else s.elo.sessions
    setElo fun q => { q with sessions := room ++ [⟨id, role, path, src, false, body.drop 1, nm, [], 0, 0, none, s.now, s.now, none⟩] }
    pure ⟨0, toBytes id 2 ++ nm, false⟩

/-- The bytes "ELOALOGN" and "ELOASESS". -/
def logn : List Nat := [0x45, 0x4C, 0x4F, 0x41, 0x4C, 0x4F, 0x47, 0x4E]
def sess : List Nat := [0x45, 0x4C, 0x4F, 0x41, 0x53, 0x45, 0x53, 0x53]

/-- The proof that a LOGIN must carry, and the session key. -/
def State.proof (s : State) (x : Session) (key : List Nat) : List Nat :=
  hmac key (logn ++ [x.role] ++ toBytes x.id 2 ++ x.nm ++ x.nc ++ s.serial)
/-- The key of a session (R449). -/
def Session.sessionKey (x : Session) (key : List Nat) : List Nat := hmac key (sess ++ toBytes x.id 2 ++ x.nm ++ x.nc)

/-- A LOGIN that fails: five from one source within 60 s lock it out. -/
def loginFails (path src : Nat) : M Unit := do
  let s ← get
  bump (pk 0x8053 3) 1
  let fails := (s.elo.fails.filter fun x => decide (s.now < x.2.2 + 60000000000)) ++ [(path, src, s.now)]
  let mine := (fails.filter fun x => x.1 == path && x.2.1 == src).length
  setElo fun q => { q with
    fails := fails
    locked := (q.locked.filter fun x => decide (s.now < x.2.2)) ++ (if 5 ≤ mine then [(path, src, s.now + 60000000000)] else []) }

/-- LOGIN of a challenged session: the response is tagged where the session opens. DESIGN CHOICE (notes/assumptions/32): unsafe. -/
def opLogin (path src : Nat) (x : Session) (p : Pdu) : M Pdu := do
  let s ← get
  let key := toBytes (s.par (roleKey x.role)) 32
  if p.body.length != 32 then pure (p.response none (.of 0x10))
  else if key.any (· != 0) && decide (p.body = s.proof x key) then do
    let y := { x with isOpen := true, key := x.sessionKey key, seq := p.seq, tx := p.txid, last := s.now }
    let q := p.response (some y) (.of 0)
    putSession { y with resp := some q }
    pure q
  else do
    sessionClose x.id
    loginFails path src
    pure (p.response none (.of 3))

/-! ## Subscriptions (R461, R462) -/

/-- A slot that a new subscription may take. -/
def State.freeSub (s : State) : Option Nat := (List.range 16).find? fun i => (s.subAt i).path == 0

/-- SUBSCRIBE (R461): a slot for the requester; BUSY where none is free. DESIGN CHOICE (notes/assumptions/33): unsafe. -/
def opSubscribe (path src : Nat) (x : Option Session) (body : List Nat) : M Answer := do
  let s ← get
  let mask := ofBytes body
  if body.length != 32 then pure (.of 0x10)
  else match s.subs.find? fun u => u.2.path == path && u.2.dest == src && u.2.mask == mask with
    | some u => pure ⟨0, [u.1], false⟩
    | none => match s.freeSub with
      | none => pure (.of 8)
      | some i => do
        modify fun t => { t with subs := insertAt (eraseKey t.subs i) i ⟨path, src, mask, (x.map fun y => y.id).getD 0, 0, 0, 0, 0, [], 0, 0⟩ }
        pure ⟨0, [i], false⟩

/-- UNSUBSCRIBE (R461). -/
def opUnsubscribe (path src role : Nat) (body : List Nat) : M Answer := do
  let s ← get
  let i := nth body 0
  if body.length != 1 || 15 < i then pure (.of 0x10)
  else if (s.subAt i).path == 0 then pure (.of 0)
  else if ((s.subAt i).path == path && (s.subAt i).dest == src) || 1 ≤ role then do
    modify fun t => { t with subs := eraseKey t.subs i }
    pure (.of 0)
  else pure (.of 3)

/-- Records up to a number are acknowledged. -/
def Sub.ack (u : Sub) (n : Nat) : Sub :=
  let m := min n u.seq
  { u with queue := u.queue.filter fun x => x.1 == 0 || decide (m < x.1), delivered := max u.delivered m, resends := 0 }

/-- The slots of a source (R462). -/
def State.slotsOf (s : State) (path src : Nat) : List (Nat × Sub) := s.subs.filter fun u => u.2.path == path && u.2.dest == src

/-- An acknowledgement reaches the slots of its source; what waits there then goes out. -/
def ackFrom (path src n : Nat) : M Unit := do
  modify fun s => { s with subs := s.subs.map fun u => if u.2.path == path && u.2.dest == src then (u.1, u.2.ack n) else u }
  let s ← get
  each (s.slotsOf path src) fun u => deliverSlot u.1

/-- A PDU from a source lets its stopped slots go on (R462): what is not acknowledged goes out again, then what waits. DESIGN CHOICE
(notes/assumptions/18): unsafe. -/
def resumeSlots (path src : Nat) : M Unit := do
  let s ← get
  each ((s.slotsOf path src).filter fun u => decide (10 ≤ u.2.resends)) fun u => do
    modify fun t => { t with subs := insertAt t.subs u.1 { u.2 with resends := 0, lastSend := t.now } }
    sendRecords u.1 u.2 ((u.2.queue.filter fun x => x.1 != 0).map Prod.snd)
    deliverSlot u.1

/-- EVENT_ACK (R462). DESIGN CHOICE (notes/assumptions/33): unsafe. -/
def opEventAck (path src : Nat) (body : List Nat) : M Answer := do
  if body.length != 4 then pure (.of 0x10)
  else do
    ackFrom path src (ofBytes body)
    pure (.of 0)

/-- 100 ms after the last EVENT PDU its records go out again, up to 10 times. DESIGN CHOICE (notes/assumptions/18): unsafe. -/
def eventResend (slot : Nat) : M Unit := do
  let s ← get
  match lookup s.subs slot with
  | none => skip
  | some u =>
    let sent := u.queue.filter fun x => x.1 != 0
    if !sent.isEmpty && u.path != 2 && decide (u.lastSend + 100000000 ≤ s.now) && decide (u.resends < 10) then do
      sendRecords slot u (sent.map Prod.snd)
      modify fun t => { t with subs := insertAt t.subs slot { u with resends := u.resends + 1, lastSend := s.now } }
    else skip

/-- DISCOVER (R445): serial, tray position, grade, state and NodeId; not on the host mailbox. DESIGN CHOICE (notes/assumptions/33):
unsafe. -/
def opDiscover (path : Nat) : M Answer := do
  let s ← get
  let serial := (s.serial ++ List.replicate 16 0).take 16
  if path == 2 then pure (.of 7)
  else pure ⟨0, serial ++ [s.par (pk 0x1007 0) % 256, s.par (pk 0x1002 0) % 256, modeCode s.mode] ++ toBytes s.nodeId 2, false⟩

/-! ## One request (R443 to R451) -/

/-- An operation of a session, or of an observer. -/
def performOp (path src : Nat) (x : Option Session) (island : Bool) (p : Pdu) : M Answer :=
  let role := (x.map fun y => y.role).getD 0
  if island && !islandOp p.op then pure (.of 7)
  else match p.op with
    | 0x01 => opRead island p.body
    | 0x02 => opWrite role path island p.body
    | 0x03 => do
      let s ← get
      pure (opDescribe (s.par (pk 0x1002 0) == 2) island p.body)
    | 0x04 => pure (opList island path p.body)
    | 0x05 => opBlobRead island p.body
    | 0x06 => opBlobWrite path x (bit p.flags 2) p.body
    | 0x10 => opChallenge path src p.body
    | 0x11 => pure (.of (if x.isSome then 0 else 0x13))
    | 0x12 => match x with
      | some y => do
        sessionClose y.id
        pure (.of 0)
      | none => pure (.of 0x13)
    | 0x20 => opSubscribe path src x p.body
    | 0x21 => opUnsubscribe path src role p.body
    | 0x23 => opEventAck path src p.body
    | _ => opDiscover path

/-- A response goes out and is counted. -/
def answer (path src : Nat) (q : Pdu) : M Unit := do
  bump (pk 0x8053 1) 1
  deliver path src q

/-- A request of an open session whose tag has been checked. -/
def sessionRequest (path src : Nat) (x : Session) (island : Bool) (p : Pdu) : M Unit := do
  let s ← get
  putSession { x with last := s.now }
  if p.seq ≤ x.seq then
    match (if p.seq == x.seq && p.txid == x.tx then x.resp else none) with
    | some q => deliver path src q
    | none => do
      bump (pk 0x8053 4) 1
      answer path src (p.response (some x) (.of 0x12))
  else do
    let y := { x with last := s.now, seq := p.seq, tx := p.txid }
    putSession y
    let a ← performOp path src (some y) island p
    let q := p.response (some y) a
    let t ← get
    match t.session y.id with
    | some z => putSession { z with resp := some q }
    | none => skip
    answer path src q

/-- A PDU arrives. DESIGN CHOICE (notes/assumptions/26): unsafe. -/
def receivePdu (path src : Nat) (p : Pdu) : M Unit := do
  let s ← get
  let level := s.serves path src
  let island := level == 1
  if level == 0 then skip
  else do
    onlyIf (path == 3) (bump (pk 0x48E1 1) 1)
    resumeSlots path src
    if !p.framed path then answer path src (p.response none (.of 0x10))
    else if p.session == 0 then
      if p.tagged then answer path src (p.response none (.of 0x13))
      else do
        let a ← performOp path src none island p
        answer path src (p.response none a)
    else match s.session p.session with
      | none => answer path src (p.response none (.of 0x13))
      | some x =>
        if x.path != path || x.src != src then bump (pk 0x8053 2) 1
        else if !x.isOpen then
          if p.op == 0x11 && !p.tagged && decide (s.now < x.born + 5000000000) then do
            let q ← opLogin path src x p
            answer path src q
          else answer path src (p.response none (.of 0x13))
        else if p.tagged && decide (p.tag = hmac x.key (p.header ++ p.body)) then sessionRequest path src x island p
        else bump (pk 0x8053 2) 1

/-- The command of one operation: a PDU of that operation arrives. READ also takes a PDU whose operation is undefined. -/
def pduRow (op path src : Nat) (p : Pdu) : M Unit :=
  if p.op == op || (op == 1 && !opDefined p.op) then receivePdu path src p else skip

/-- Within 1 s of an RWP write, a commit (R458). -/
def persistCommit : M Unit := do
  let s ← get
  if s.elo.due.isSome && s.powered then commitFlash else skip

end Sys2Proof.Machine
end

