-- ==== Sys2Proof/Machine/Host.lean ====
section
/-! DEFINITION. The host ports: BAR0 and its registers, BAR2, the host windows, interrupts, resets (chapter "Host ports
and Ethernet ports", R468 to R481, and R532). -/
namespace Sys2Proof.Machine

/-! ## Windows and resets (R475, R478, R479, R532) -/

/-- Spilled records of the rings in a window that is up again move into the ring, and CompletionVector is sent once after
the first of them (R478). -/
def windowBack (h : Nat) : M Unit := each (List.range 8) fun p => do
  let s ← get
  if decide (tierOf (s.cplRing p).1 = .host h) && !(s.inst p).spill.isEmpty && s.cplRoom p then do
    moveSpill p 262144
    cplVector p
  else skip

/-- A change of a port's configuration, and what its window does by it. -/
def changePort (h : Nat) (f : HostPort → HostPort) : M Unit := do
  let s ← get
  setHostPort h f
  let t ← get
  onlyIf (!s.windowDown h && t.windowDown h) (windowLost h)
  onlyIf (s.windowDown h && !t.windowDown h) (windowBack h)

/-- What a reset leaves of a port: its link. PRESUMED (notes/assumptions/27): unsafe. -/
def HostPort.afterReset (q : HostPort) : HostPort :=
  { HostPort.reset with up := q.up, width := q.width, rate := q.rate, flit := q.flit, cxl := q.cxl, perst := q.perst }

/-- A function, hot or link reset of a port (R479). -/
def portReset (h : Nat) : M Unit := do
  bump (pk 0x48E0 2) 1
  changePort h HostPort.afterReset

/-- FUNCTION_LEVEL_RESET (R479). -/
def functionLevelReset (h : Nat) : M Unit := do
  let s ← get
  onlyIf (s.hostPort h).up (portReset h)

/-- A link-down that the module did not request (R478). -/
def surpriseDown (h : Nat) : M Unit := do
  let s ← get
  if (s.hostPort h).up then do
    bump (pk 0x48E0 1) 1
    portDown h
  else skip

/-- PERST_N of a port falls or rises (R532). PRESUMED (notes/assumptions/27): unsafe. -/
def perstN (h : Nat) (low : Bool) : M Unit := do
  let s ← get
  if low then
    if (s.hostPort h).perst then skip
    else do
      portReset h
      setHostPort h fun q => { q with perst := true }
      portDown h
  else setHostPort h fun q => { q with perst := false }

/-- Host ports train from TRAINING on, and stay up in FENCED (R430, R532). -/
def State.portsTrain (s : State) : Bool :=
  match s.mode with
  | .training | .ready | .serving | .draining | .fenced => true
  | .off | .precharge | .boot | .selftest | .safe | .removable => false

/-- A link trains: its width and rate, FLIT mode, and CXL where HostPortCxl asks for it and the partner offers it (R468, R470).
Enumerated again after a link-down, the port is reset (R479). PRESUMED (notes/assumptions/27): unsafe. -/
def hostLinkUp (h width rate : Nat) (flit cxl again : Bool) : M Unit := do
  let s ← get
  if s.portsTrain && !(s.hostPort h).perst && !(s.hostPort h).up then do
    onlyIf again (portReset h)
    changePort h fun q => { q with
      up := true, width := width % 32, rate := rate % 16, flit := flit, cxl := cxl && s.par (pk 0x4800 (h + 1)) == 1 }
  else skip

/-! ## MSI-X (R476) -/

/-- Vectors that are no longer masked and pending are sent. -/
def sendPending (h : Nat) : M Unit := do
  let s ← get
  let q := s.hostPort h
  if q.up && q.msixOn && !q.fmask then do
    let go := q.pba.filter fun v => match lookup q.msix v with
      | some e => !bit e 96
      | none => false
    setHostPort h fun x => { x with pba := x.pba.filter fun v => !go.contains v }
    each go fun v => emit (.msix h v)
  else skip

/-- A host writes configuration space (R475, R476, R470). It keeps the latch of R8. DESIGN CHOICE
(notes/assumptions/53): unsafe. PRESUMED (notes/assumptions/27): unsafe. -/
def configurationWrite (h : Nat) (w : ConfigWrite) : M Unit := do
  let s ← get
  if (s.hostPort h).up then
    match w with
    | .busMaster on => changePort h fun q => { q with bme := on }
    | .powerState d3 => changePort h fun q => { q with d3 := d3 }
    | .hdmCommit on => setHostPort h fun q => { q with hdm := on && q.cxl }
    | .msix on mask => do
      setHostPort h fun q => { q with msixOn := on, fmask := mask }
      sendPending h
  else skip

/-! ## Registers as they read (R471) -/

/-- The port reaches the partition (R309). -/
def State.portReaches (s : State) (h p : Nat) : Bool := bit (s.par (pk 0x5002 (p + 1))) h

/-- A register of a doorbell page. -/
def State.pageRegister (s : State) (h p off : Nat) : Nat :=
  if !s.portReaches h p then 0
  else match off with
    | 0x00 => s.door p 0
    | 0x08 => s.door p 1
    | 0x10 => s.door p 2
    | 0x18 => s.door p 3
    | 0x20 => s.door p 4
    | 0x28 => (s.inst p).cplCount
    | 0x30 => s.door p 7
    | 0x38 => s.door p 5
    | 0x40 => s.door p 6
    | _ => 0

/-- The running pennants, as bits. -/
def State.pennantBits (s : State) : Nat := sumOf ((List.range 9).map fun n => b2n (s.pennant n).since.isSome * 2 ^ n)

/-- LinkState of groups from g0 on, a nibble each. -/
def State.linkNibbles (s : State) (g0 n : Nat) : Nat := sumOf ((List.range n).map fun i => s.linkState (g0 + i) % 16 * 2 ^ (4 * i))

/-- The slot of the newest dump. -/
def State.newestDump (s : State) : Nat := ((s.dumps.getLast?).map Prod.fst).getD 0

/-- A register of the PWR, KL, FLT and TEL blocks. -/
def State.moduleRegister (s : State) (off : Nat) : Nat :=
  match off with
  | 0x108000 => modeCode s.mode + sumOf ((List.range 8).map fun p => s.par (pk 0x5001 (p + 1)) % 4 * 2 ^ (16 + 2 * p))
  | 0x200000 => s.par (pk 0x3010 0) % 2 ^ 13
  | 0x200008 => s.par (pk 0x3000 0) % 2 ^ 13
  | 0x200010 => s.par (pk 0x3001 0) % 2 ^ 13 + s.par (pk 0x3002 0) % 2 ^ 19 * 2 ^ 32
  | 0x200018 => s.par (pk 0x3600 0) % 16 + s.par (pk 0x3603 0) % 16 * 2 ^ 4 + s.par (pk 0x3604 0) % 16 * 2 ^ 8
      + s.par (pk 0x3203 0) % 2 * 2 ^ 12 + s.par (pk 0x3102 0) % 4 * 2 ^ 13 + s.par (pk 0x3305 0) % 4 * 2 ^ 16
  | 0x200020 => s.pennantBits
  | 0x200028 => s.par (pk 0x8051 1)
  | 0x200030 => s.par (pk 0x3301 0) % 2 ^ 16
  | 0x300000 => s.linkNibbles 0 16
  | 0x300008 => s.linkNibbles 16 8
  | 0x300010 => s.par (pk 0x4008 0) % 2 ^ 24
  | 0x300018 => s.par (pk 0x400C 0) % 2 ^ 48
  | 0x300020 => s.now % 2 ^ 64
  | 0x300028 => s.par (pk 0x4022 0) % 4 + s.par (pk 0x4023 0) % 2 ^ 32 * 2 ^ 32
  | 0x300030 => s.nodeId % 2 ^ 16 + s.eff' (pk 0x4000 0) % 8 * 2 ^ 16
  | 0x400000 => s.par (pk 0x7100 1)
  | 0x400008 => s.par (pk 0x7100 2) % 2 ^ 12
  | 0x400010 => s.faultAt (s.par (pk 0x7100 2)) % 2 ^ 64
  | 0x400018 => s.faultAt (s.par (pk 0x7100 2)) / 2 ^ 64 % 2 ^ 64
  | 0x400020 => s.faultAt (s.par (pk 0x7100 2)) / 2 ^ 128 % 2 ^ 64
  | 0x400028 => s.faultAt (s.par (pk 0x7100 2)) / 2 ^ 192 % 2 ^ 64
  | 0x400030 => s.fltPending % 64
  | 0x400038 => s.par (pk 0x7200 2) % 4 + s.newestDump % 2 * 2 ^ 8
  | 0x500000 => s.par (pk 0x8045 1)
  | 0x500008 => s.par (pk 0x8045 3)
  | 0x500010 => s.par (pk 0x8001 0)
  | 0x500018 => s.par (pk 0x8003 0)
  | _ => 0

/-- An entry of the MSI-X table; one that nothing has written is masked. -/
def HostPort.entry (q : HostPort) (v : Nat) : Nat := getC (fun _ => 2 ^ 96) q.msix v

/-- Eight bytes of the MSI-X pending bits. -/
def HostPort.pbaWord (q : HostPort) (i : Nat) : Nat := sumOf ((List.range 64).map fun b => b2n (q.pba.contains (64 * i + b)) * 2 ^ b)

/-- The 64 bits at a BAR0 offset that is a multiple of 8, through a port; reserved offsets read as 0 (R6). -/
def State.register (s : State) (h off : Nat) : Nat :=
  let q := s.hostPort h
  if 0x1000 ≤ off && off < 0x2000 then ofBytes (getBytes q.req (off - 0x1000) 8)
  else if 0x2000 ≤ off && off < 0x3000 then ofBytes (getBytes q.rsp (off - 0x2000) 8)
  else if 0x3000 ≤ off && off < 0x4000 then ofBytes (getBytes q.evt (off - 0x3000) 8)
  else if 0x8000 ≤ off && off < 0x10000 then q.entry ((off - 0x8000) / 16) / 2 ^ (off % 16 * 8) % 2 ^ 64
  else if 0x10000 ≤ off && off < 0x10100 then q.pbaWord ((off - 0x10000) / 8)
  else if 0x200 ≤ off && off < 0x280 then getC (fun _ => 0) q.segs ((off - 0x200) / 8)
  else if 0x100000 ≤ off && off < 0x108000 then s.pageRegister h ((off - 0x100000) / 0x1000) (off % 0x1000)
  else match off with
    | 0x000 => s.par (pk 0x1002 0) % 256 * 2 ^ 48 + s.par (pk 0x1004 0) % 256 * 2 ^ 40 + h % 4 * 2 ^ 32 + 0x4412 * 2 ^ 16
        + Config.vendorId % 2 ^ 16
    | 0x008 => b2n q.up * 2 ^ 19 + b2n q.hdm * 2 ^ 18 + b2n q.cxl * 2 ^ 17 + b2n q.flit * 2 ^ 16 + q.rate % 16 * 2 ^ 8 + q.width % 32
    | 0x100 => q.mbxDoor
    | 0x108 => q.mbxState % 4 + q.rspLen % 2 ^ 13 * 2 ^ 16
    | 0x110 => q.evtAck
    | 0x118 => q.evtHead % 2 ^ 32
    | 0x300 => q.window
    | 0x308 => b2n (bit (s.par (pk 0x4801 0)) h)
    | _ => s.moduleRegister off

/-- An offset of a buffer or of the MSI-X structures, to which R8 does not apply. -/
def bufferOffset (off : Nat) : Bool := (decide (0x1000 ≤ off) && decide (off < 0x4000)) || (decide (0x8000 ≤ off) && decide (off < 0x10100))

/-- An access through a port whose link is up; it discards the high half latched for that port (R8). Each port has its own latch,
which only its own accesses discard. DESIGN CHOICE (notes/assumptions/53): unsafe. -/
def portAccess (h : Nat) (m : M Unit) : M Unit := do
  let s ← get
  if (s.hostPort h).up then do
    setHostPort h fun q => { q with latch := none }
    m
  else skip

/-- A 32-bit read of the high half of the register at an offset (R8). -/
def highHalfRead (h off : Nat) : M Unit := do
  let before ← get
  portAccess h do
    let s ← get
    let live := s.register h (off / 8 * 8) / 2 ^ 32
    let v := match (before.hostPort h).latch with
      | some (o, w) => if o == off / 8 * 8 then w else live
      | none => live
    emit (.completion h (toBytes v 4) false false)

/-- A read of n bytes at an offset of a register (R7, R8): 4 bytes at its start are its low half, and latch its high half; 4 bytes at its
middle are its high half; 8 bytes are all of it at once, and latch nothing; any other width, or an offset that is not a multiple of it,
reads as all ones. -/
def lowHalfRead (h off n : Nat) : M Unit :=
  if n == 4 && off % 8 == 4 then highHalfRead h off
  else portAccess h do
    let s ← get
    let v := s.register h (off / 8 * 8)
    if n == 4 && off % 8 == 0 then do
      onlyIf (!bufferOffset off) (setHostPort h fun q => { q with latch := some (off / 8 * 8, v / 2 ^ 32) })
      emit (.completion h (toBytes v 4) false false)
    else if n == 8 && off % 8 == 0 then emit (.completion h (toBytes v 8) false false)
    else emit (.completion h (List.replicate n 255) false false)

/-! ## Register writes (R471, R477) -/

/-- A register's bits after a write of a part of it. -/
def merge (part : RegPart) (old v : Nat) : Nat :=
  match part with
  | .whole => v % 2 ^ 64
  | .low => old / 2 ^ 32 * 2 ^ 32 + v % 2 ^ 32
  | .high => old % 2 ^ 32 + v % 2 ^ 32 * 2 ^ 32

/-- The write reaches bits [31:0]. -/
def hasLow (part : RegPart) : Bool :=
  match part with
  | .whole | .low => true
  | .high => false

/-- The image of a parameter is written (R453, R471). DESIGN CHOICE (notes/assumptions/24): safe. -/
def writeImage (key n v : Nat) : M Unit := do
  let s ← get
  if s.directorRuns then do
    let _ ← writeAll 4 [(key, toBytes v n)]
    skip
  else skip

/-- A register without its own behaviour: segments, window, FLT_LOG_INDEX and TEL_CLAPPER_AT. The others are read-only,
reserved, or the business of their own commands; a write to any offset of a doorbell page that the port does not reach counts (R309). -/
def writeRegister (h off : Nat) (part : RegPart) (v : Nat) : M Unit := do
  let s ← get
  let w := merge part (s.register h off) v
  if 0x200 ≤ off && off < 0x280 then do
    let base := bits w 39 32
    bump (pk 0x1F00 4) (b2n (decide (0xBF < base)))
    setHostPort h fun q => { q with segs := setC (fun _ => 0) q.segs ((off - 0x200) / 8) (bits w 63 63 * 2 ^ 63 + min base 0xBF * 2 ^ 32) }
  else if off == 0x300 then changePort h fun q => { q with window := bits w 63 12 * 2 ^ 12 + w % 2 }
  else if off == 0x400008 then onlyIf (hasLow part) (writeImage (pk 0x7100 2) 4 (w % 2 ^ 12))
  else if off == 0x500010 then writeImage (pk 0x8001 0) 8 w
  else if 0x100000 ≤ off && off < 0x108000 then bump (pk 0x8049 4) (b2n (!s.portReaches h ((off - 0x100000) / 0x1000)))
  else skip

/-- Bytes of the MSI-X table are written; only the mask bit of a vector control word is kept. -/
def writeMsix (h off : Nat) (data : List Nat) : M Unit := do
  setHostPort h fun q =>
    let v := (off - 0x8000) / 16
    let e := ofBytes (data.zipIdx.foldl (fun (l : List Nat) x => l.set (off % 16 + x.2) x.1) (toBytes (q.entry v) 16))
    { q with msix := setC (fun _ => 2 ^ 96) q.msix v (e % 2 ^ 97) }
  sendPending h

/-- A write to BAR0 of the given bytes (R7, R471): the mailbox request buffer takes any bytes, the other registers whole or half
registers. DESIGN CHOICE (notes/assumptions/24): safe. -/
def registerWrite (h off : Nat) (data : List Nat) : M Unit := portAccess h do
  let n := data.length
  if 0x1000 ≤ off && off < 0x2000 then
    setHostPort h fun q => { q with req := putBytes q.req (off - 0x1000) (data.take (0x2000 - off)) }
  else if (n != 4 && n != 8) || off % n != 0 then skip
  else if 0x8000 ≤ off && off < 0x10000 then writeMsix h off data
  else writeRegister h (off / 8 * 8) (if n == 8 then .whole else if off % 8 == 0 then .low else .high) (ofBytes data)

/-- PWR_CAP_REQ (R477). -/
def powerCapWrite (h : Nat) (part : RegPart) (v : Nat) : M Unit := portAccess h do
  let s ← get
  if !bit (s.par (pk 0x4801 0)) h then bump (pk 0x48E0 6) 1
  else onlyIf (hasLow part) (writeImage (pk 0x3010 0) 4 (v % 2 ^ 13))

/-- FLT_PENDING: a 1 clears its bit for every port. DESIGN CHOICE (notes/assumptions/24): safe. -/
def fltPendingWrite (h : Nat) (part : RegPart) (v : Nat) : M Unit := portAccess h do
  onlyIf (hasLow part) (modify fun s => { s with
    fltPending := sumOf ((List.range 6).map fun i => if bit s.fltPending i && !bit v i then 2 ^ i else 0) })

/-! ## The mailbox (R441, R462, R490) -/

/-- HP_MBX_DOORBELL. A request to which no response is given leaves the mailbox IDLE. DESIGN CHOICE (notes/assumptions/26): unsafe. -/
def mailboxDoorbell (h : Nat) (part : RegPart) (v : Nat) : M Unit := portAccess h do
  let s ← get
  let off := match s.mode with
    | .fenced | .safe | .removable => true
    | .off | .precharge | .boot | .selftest | .training | .ready | .serving | .draining => false
  if !hasLow part then skip
  else if off || (s.hostPort h).mbxState == 1 then bump (pk 0x8049 4) 1
  else do
    let n := clampTo 16 4096 (v % 2 ^ 13)
    bump (pk 0x1F00 4) (b2n (n != v % 2 ^ 13))
    setHostPort h fun q => { q with mbxDoor := n, mbxState := 1, rspLen := 0 }
    match pduOf (getBytes (s.hostPort h).req 0 n) with
    | some p => receivePdu 2 h p
    | none => answer 2 h ⟨1, nth (getBytes (s.hostPort h).req 0 n) 1, 1, 0x10, 0, ofBytes (getBytes (s.hostPort h).req 8 4), 0, [], []⟩
    setHostPort h fun q => if q.mbxState == 1 then { q with mbxState := 0 } else q

/-- HP_MBX_EVT_ACK. -/
def mailboxEventAck (h : Nat) (part : RegPart) (v : Nat) : M Unit := portAccess h do
  if (hasLow part) then do
    setHostPort h fun q => { q with evtAck := v % 2 ^ 32 }
    ackFrom 2 h (v % 2 ^ 32)
  else skip

/-! ## Doorbells (R201, R234, R309, R313, R325, R430, R494) -/

/-- A doorbell of a page reaches its partition: not through a port that does not reach it, and not while FENCED. -/
def doorbell (h p : Nat) (m : M Unit) : M Unit := portAccess h do
  let s ← get
  if !s.portReaches h p || decide (s.mode = .fenced) then bump (pk 0x8049 4) 1 else m

/-- A count doorbell with the clamp of R201: at most size ahead of the consumed count. -/
def countDoorbell (p door done size v : Nat) : M Unit := do
  let s ← get
  let w := (s.door p done + min (ahead (v % 2 ^ 32) (s.door p done)) size) % 2 ^ 32
  bump (pk 0x1F00 4) (b2n (w != v % 2 ^ 32))
  setDoor p door w

/-- DIR_REQ_DOORBELL (R201). -/
def requestDoorbell (h p : Nat) (part : RegPart) (v : Nat) : M Unit := doorbell h p do
  let s ← get
  onlyIf (hasLow part) (countDoorbell p 0 1 (s.eff' (pk 0x583C (p + 1))) v)

/-- DIR_CANCEL_DOORBELL (R201). -/
def cancelDoorbell (h p : Nat) (part : RegPart) (v : Nat) : M Unit := doorbell h p do
  let s ← get
  onlyIf (hasLow part) (countDoorbell p 2 3 (s.eff' (pk 0x583E (p + 1))) v)

/-- The host's consumed count: spilled records move into the space it frees (R234). -/
def completionDoorbell (h p : Nat) (part : RegPart) (v : Nat) : M Unit := doorbell h p do
  if (hasLow part) then do
    setDoor p 4 (v % 2 ^ 32)
    moveSpill p 262144
  else skip

/-- A control doorbell: the entries are read by the commands of the control ring; NOP entries are passed at once. -/
def controlDoorbell (h p : Nat) (part : RegPart) (v : Nat) : M Unit := doorbell h p do
  if (hasLow part) then do
    let s ← get
    countDoorbell p 5 6 (s.ctlRing p).2 v
    passNops p 4096
  else skip

/-- A command doorbell; in standby it is refused (R494). A write of the high half alone stores CONTEXT and ENGINE. DESIGN CHOICE
(notes/assumptions/25): unsafe. -/
def commandDoorbell (h p : Nat) (part : RegPart) (v : Nat) : M Unit := doorbell h p do
  let s ← get
  let w := merge part (s.door p 7) v
  let w := bits w 55 40 * 2 ^ 40 + w % 2 ^ 32
  if s.par (pk 0x7803 0) == 1 then bump (pk 0x8049 4) 1
  else if (hasLow part) then do
    let r ← cmdDoorbell p w
    match r with
    | some x => setDoor p 7 x
    | none => skip
  else setDoor p 7 w

/-! ## BAR2 (R473, R474) -/

/-- The module address of a BAR2 offset, where its segment is enabled. -/
def State.bar2Address (s : State) (h off : Nat) : Option Nat :=
  let g := getC (fun _ => 0) (s.hostPort h).segs (off / 2 ^ 32 % 16)
  if bit g 63 then some (bits g 39 32 * 2 ^ 32 + off % 2 ^ 32) else none

/-- A line may be accessed through a port: an accepted placement holds it, of a partition that the port reaches. -/
def State.bar2Line (s : State) (h a : Nat) : Bool := (List.range 8).any fun p => s.portReaches h p && s.placed p a

/-- The lines that an access covers: module address where the check holds, BAR2 offset and bytes. -/
def State.bar2Lines (s : State) (h off n : Nat) : List (Option Nat × Nat × Nat) :=
  (List.range ((off % 64 + n + 63) / 64)).map fun i =>
    let o := if i == 0 then off else off / 64 * 64 + 64 * i
    let k := min (off + n) (off / 64 * 64 + 64 * i + 64) - o
    match s.bar2Address h o with
    | some a => (if s.bar2Line h a then some a else none, o, k)
    | none => (none, o, k)

/-- A BAR2 access is refused in standby (R494). DESIGN CHOICE (notes/assumptions/25): unsafe. -/
def State.bar2Off (s : State) : Bool := s.par (pk 0x7803 0) == 1

/-- A read of BAR2 or through CXL.mem (R473): its lines one after the other; zeros, counted, for a line that fails its check. DESIGN
CHOICE (notes/assumptions/25): unsafe. -/
def bar2Read (h off n : Nat) : M Unit := portAccess h do
  let s ← get
  if s.bar2Off then do
    bump (pk 0x8049 4) 1
    emit (.completion h [] false true)
  else do
    let parts ← collect (s.bar2Lines h off n) fun x =>
      match x.1 with
      | some a => do
        let r ← load .director a x.2.2
        pure (toBytes r.val x.2.2, r.poisoned)
      | none => do
        bump (pk 0x8042 4) 1
        pure (List.replicate x.2.2 0, false)
    let bad := parts.any Prod.snd
    bump (pk 0x48E0 4) (b2n bad)
    emit (.completion h (parts.flatMap Prod.fst) bad false)

/-- A write of BAR2 or through CXL.mem (R473, R481): its lines in order, poisoned where it arrives so. DESIGN CHOICE
(notes/assumptions/25): unsafe. -/
def bar2Write (h off : Nat) (data : List Nat) (poisoned : Bool) : M Unit := portAccess h do
  let s ← get
  if s.bar2Off then bump (pk 0x8049 4) 1
  else if s.mode = .fenced then skip
  else do
    bump (pk 0x48E0 5) (b2n poisoned)
    each (s.bar2Lines h off data.length) fun x =>
      match x.1 with
      | some a => if poisoned then storePoison .director a x.2.2 else store .director a ((data.drop (x.2.1 - off)).take x.2.2)
      | none => bump (pk 0x8042 4) 1

/-- The word that an AtomicOp writes. -/
def atomicNew (op : HostAtomic) (a b old : Nat) : Nat :=
  match op with
  | .fetchAdd => old + a
  | .swap => a
  | .cas => if old == a % 2 ^ 64 then b else old

/-- An AtomicOp of size bytes; FENCED discards its write. -/
def bar2Atomic (h off size : Nat) (op : HostAtomic) (a b : Nat) : M Unit := portAccess h do
  let s ← get
  if s.bar2Off then do
    bump (pk 0x8049 4) 1
    emit (.completion h [] false true)
  else if size != 8 || off % 8 != 0 then emit (.completion h [] false true)
  else match (s.bar2Address h off).filter fun x => s.bar2Line h x with
    | none => do
      bump (pk 0x8042 4) 1
      emit (.completion h (toBytes 0 8) false false)
    | some x => do
      let r ← if s.mode = .fenced then load .director x 8 else atomic .director x (atomicNew op a b)
      bump (pk 0x48E0 4) (b2n r.poisoned)
      emit (.completion h (toBytes r.val 8) r.poisoned false)

/-! ## Reads of host memory (R475, R481) -/

/-- A codeword of a window as a completion leaves it. -/
def State.setWindowBad (s : State) (bad : Bool) (c : Nat) : State :=
  { s with poison := if bad then insertAt (eraseKey s.poison c) c false else eraseKey s.poison c }

/-- Data for a read at a window address: poisoned data marks every codeword that it covers. -/
def windowData (a : Nat) (data : List Nat) (poisoned : Bool) : M Unit := modify fun s =>
  let t := (data.zipIdx).foldl (fun t b => t.setByte (a + b.2) (BitVec.ofNat 8 b.1)) s
  (codewords a data.length).foldl (fun t c => t.setWindowBad poisoned c) t

/-- The commands that wait for a port's reads go on where none of theirs is left. -/
def readsArrived (h : Nat) : M Unit := modify fun s => { s with
  engines := s.engines.map fun x => (x.1, { x.2 with parts := x.2.parts.map (Part.hostDone s.hostReads h) }) }

/-- A read with its first n bytes delivered. -/
def readLeft (r : Nat × Nat × Nat × Nat) (n : Nat) : List (Nat × Nat × Nat × Nat) :=
  if r.2.2.1 ≤ n then [] else [(r.1, r.2.1 + n, r.2.2.1 - n, r.2.2.2)]

/-- A completion for the read of a port that starts at a window address. DESIGN CHOICE (notes/assumptions/28): unsafe. -/
def hostReadCompletion (h a : Nat) (data : List Nat) (poisoned : Bool) : M Unit := do
  let s ← get
  match s.hostReads.find? fun r => r.1 == h && r.2.1 == a && decide (data.length ≤ r.2.2.1) && !data.isEmpty with
  | none => skip
  | some r => do
    bump (pk 0x48E0 5) (b2n poisoned)
    windowData a data poisoned
    modify fun t => { t with hostReads := t.hostReads.flatMap fun x => if x = r then readLeft x data.length else [x] }
    readsArrived h

/-- A read without completion for 10 ms is delivered as poisoned. DESIGN CHOICE (notes/assumptions/28): unsafe. -/
def completionTimeout (h a : Nat) : M Unit := do
  let s ← get
  match s.hostReads.find? fun r => r.1 == h && r.2.1 == a && decide (r.2.2.2 + 10000000 ≤ s.now) with
  | none => skip
  | some r => do
    bump (pk 0x48E0 3) 1
    windowData a (List.replicate r.2.2.1 0) true
    modify fun t => { t with hostReads := t.hostReads.filter fun x => x ≠ r }
    readsArrived h

end Sys2Proof.Machine
end

