-- ==== Sys2Proof/Machine/Rows.lean ====
section
/-! DEFINITION. How a command of the table becomes a meaning: the units that exist, and the operation it runs. -/
namespace Sys2Proof.Machine

/-- What a command answers. -/
abbrev Result := Host.Outcome State Fault Refusal

/-- An operation as a meaning. -/
def perform (m : M Unit) (s : State) : Result := .next (m s).2

/-- An operation on units that must exist. A command that names another unit reaches none, so nothing changes. DESIGN CHOICE
(notes/assumptions/10), safe. -/
def performOn (ok : Bool) (m : M Unit) (s : State) : Result := if ok then perform m s else .next s

/-! ## Units that exist (R14 to R17, R310) -/

def isEngine (e : Nat) : Bool := (engineKind e).isSome
def isBlock (e : Nat) : Bool := decide (e < 64)
def isPart (p : Nat) : Bool := decide (p < 8)
def isCtx (c : Nat) : Bool := decide (c < 256)
def isStack (st : Nat) : Bool := decide (st < 12)
def isDie (st d : Nat) : Bool := decide (st < 12) && decide (d < 16)
def isSlot (i : Nat) : Bool := decide (i < 16)
def isGroup (g : Nat) : Bool := decide (g < 24)
def isChan (c : Nat) : Bool := decide (c < 3)
def isNode (n : Nat) : Bool := decide (n < 65536)
def isEth (port : Nat) : Bool := decide (port < 2)
def isQp (port i : Nat) : Bool := decide (port < 2) && decide (i < 1024)
def isRegion (r : Nat) : Bool := decide (r < 4)
def isPort (h : Nat) : Bool := decide (h < 4)
/-- A path of Eloaphor, and for the mailbox a host port. -/
def isPath (path src : Nat) : Bool := path == 1 || (path == 2 && decide (src < 4)) || path == 3
/-! ## Engine kinds -/

def anyKind : Kind → Bool
  | .press | .draw | .stack | .relay | .router | .codec => true
/-- Press and Draw blocks accept the same commands (R75). -/
def blockKind : Kind → Bool
  | .press | .draw => true
  | .stack | .relay | .router | .codec => false
def stackKind : Kind → Bool
  | .stack => true
  | .press | .draw | .relay | .router | .codec => false
def relayKind : Kind → Bool
  | .relay => true
  | .press | .draw | .stack | .router | .codec => false
def routerKind : Kind → Bool
  | .router => true
  | .press | .draw | .stack | .relay | .codec => false
def codecKind : Kind → Bool
  | .codec => true
  | .press | .draw | .stack | .relay | .router => false

/-- A command that an engine of a kind runs. No engine of another kind takes it: there its opcode stands for another command, or
for none (R23). An undefined engine number (R310) takes nothing. DESIGN CHOICE (notes/assumptions/10), safe. -/
def State.kindCommand (s : State) (ok : Kind → Bool) (e op : Nat) (src : CmdSource) (body : Cmd → M End)
    (args : List Nat := []) : Result :=
  match engineKind e with
  | some k => if ok k then s.layerCommand e op src body args else .next s
  | none => .next s

/-! ## Commands made of operations -/

/-- PLAN and RUN wait while firmware of the Director or of a stack engine waits for its step boundary (R504). -/
def unlessFw (m : M Unit) : M Unit := do
  let s ← get
  onlyIf (!s.fwHolds) m

/-- A RUN report (R222): this module's own, or one that reaches the lead. -/
def runReport (p : Nat) (r : Report) : M Unit :=
  match r with
  | .own d => ownReport p d
  | .fromRank k es => takeReport p k es

/-- The next cancel entry, read while COMMIT is due (R201, R203). -/
def cancelEntry (p : Nat) : M Unit := do
  let s ← get
  let i := s.inst p
  onlyIf (s.isLead p && i.plan.isSome && i.notice.isNone && i.reports.length == s.instSize p && decide (0 < s.cancelsWaiting p)
      && decide (i.cancelAhead < commitCancels)) (do
    takeCancel p
    setInst p fun i => { i with cancelAhead := i.cancelAhead + 1 })

/-- A RETIRING slot without references is EMPTY (R154). -/
def slotDrained (i : Nat) : M Unit := do
  let s ← get
  onlyIf (s.slotState i == 2 && s.slotRefs i == 0) (emptySlot i)

/-- A packet of one of the given kinds (R353). -/
def packetOf (kinds : List Nat) (chan header : Nat) (data : List Nat) : M Unit :=
  onlyIf (kinds.contains (kKind header)) (takePacket chan header data)

/-! ## A tick of TimeClk (R32, R371) -/

/-- The ns of a tick, 10 at the trimmed rate, and the millionths of a ns left over. DESIGN CHOICE (notes/assumptions/2): safe. -/
def tickNs (c : TimeSt) : Nat × Int :=
  let z := 10000000 + 10 * c.trim + c.frac
  ((z / 1000000).toNat, z % 1000000)

/-- What the symbol code still owes: corrections made by writes are counted, and the events of weak loft banks are raised (R105, R413). -/
def settleErrors : M Unit := do
  let s ← get
  each s.ecc.due fun x => countCorrected (x.1 * 32) x.2
  let t ← get
  each t.ecc.weak fun d => raiseEvent 0x44 0xFF 0 d
  onlyIf (!(t.ecc.due.isEmpty && t.ecc.weak.isEmpty)) (modify fun u => { u with ecc := { u.ecc with due := [], weak := [] } })

/-- One tick: fabric time advances, and the time with the BE gate closed is counted while the governor runs (R320). DESIGN CHOICE
(notes/assumptions/2): safe. -/
def State.tick (s : State) : State :=
  let d := tickNs s.clock
  let t := { s with now := s.now + d.1, clock := { s.clock with frac := d.2 } }
  let t := if s.governed && !s.beGateOpen then t.bump (pk 0x8049 12) d.1 else t
  let t := match Config.upset s.now with
    | some (c, errs) => t.strike c errs
    | none => t
  (linkTick (settleErrors t).2).2

/-- The command of a word: the table gives no row bits, so no word spells a command. -/
def State.withCommand (s : State) (c : Option Instr) : State :=
  match c with
  | some i => { s with pending := i :: s.pending }
  | none => s

end Sys2Proof.Machine
end

