-- ==== Sys2Proof/Machine/Engines.lean ====
section
/-! DEFINITION. Meanings of the engine commands (R75, R143, R181, R189, R229, R272, R280, R358, R360, R488). -/
namespace Sys2Proof.Machine

/-- NOP (R23). An engine runs the default no-operation opcode, or an opcode replaced by it, and signals the descriptor's
CueSignal. -/
def execNop (e : Nat) (src : CmdSource) (s : State) : Result := s.kindCommand anyKind e 0x00 src (fun _ => pure .done)

/-- MATMUL (R79). A block runs every pass of one job record in chunk, band and N-group order and signals its cue after the
last output is written. -/
def execMatmul (e : Nat) (src : CmdSource) (s : State) : Result := s.kindCommand blockKind e 0x01 src (watched matmulBody)

/-- MATMUL_LIST (R82). A block claims and runs passes from a shared work list until none is claimable, then signals its
own cue. -/
def execMatmulList (e : Nat) (src : CmdSource) (s : State) : Result :=
  s.kindCommand blockKind e 0x02 src (watched listBody)

/-- MATMUL_PADDED (R85). A block runs its fixed share of a job padded to PadRows and signals its cue when its share and
combine passes are written. -/
def execMatmulPadded (e : Nat) (src : CmdSource) (s : State) : Result :=
  s.kindCommand blockKind e 0x03 src (watched padBody)

/-- VEC_RMSNORM (R87). A block computes RMS normalisation per row with the fixed FP32 step order. -/
def execVecRmsnorm (e : Nat) (src : CmdSource) (s : State) : Result := s.kindCommand blockKind e 0x10 src (bodyVec 0x10)

/-- VEC_SILU (R87). A block computes y = x / (1 + exp(-x)) per element. -/
def execVecSilu (e : Nat) (src : CmdSource) (s : State) : Result := s.kindCommand blockKind e 0x11 src (bodyVec 0x11)

/-- VEC_GELU (R87). A block computes the tanh form of GELU per element. -/
def execVecGelu (e : Nat) (src : CmdSource) (s : State) : Result := s.kindCommand blockKind e 0x12 src (bodyVec 0x12)

/-- VEC_GLU_SILU (R87). A block computes silu(x) times the auxiliary operand per element. -/
def execVecGluSilu (e : Nat) (src : CmdSource) (s : State) : Result := s.kindCommand blockKind e 0x13 src gluBody

/-- VEC_ADD (R87). A block adds the auxiliary operand to the input per element. -/
def execVecAdd (e : Nat) (src : CmdSource) (s : State) : Result := s.kindCommand blockKind e 0x14 src (bodyVec 0x14)

/-- VEC_SCALE (R87). A block multiplies the input by VecParam per element. -/
def execVecScale (e : Nat) (src : CmdSource) (s : State) : Result := s.kindCommand blockKind e 0x15 src (bodyVec 0x15)

/-- SAMPLE (R231). A Draw block draws one token per row from its logits with the keyed generator, top-k, min-p and top-p
rules. -/
def execSample (e : Nat) (src : CmdSource) (s : State) : Result := s.kindCommand blockKind e 0x20 src bodySample

/-- DECODE (R145). A codec unit expands blocks of an extent, checking each and poisoning those that fail. -/
def execDecode (e : Nat) (src : CmdSource) (s : State) : Result := s.kindCommand codecKind e 0x01 src bodyDecode

/-- ENCODE (R148). A codec encoder optionally builds and loads a table in pass 1, then codes the source into an extent in
pass 2. -/
def execEncode (e : Nat) (src : CmdSource) (s : State) : Result := s.kindCommand codecKind e 0x02 src bodyEncode

/-- TABLE_LOAD (R155). A table record is loaded into a slot of every unit, or held pending while the slot is not EMPTY. -/
def execTableLoad (e : Nat) (src : CmdSource) (s : State) : Result := s.kindCommand codecKind e 0x03 src bodyTableLoad

/-- TABLE_RETIRE (R154). A LOADED slot is moved to RETIRING. -/
def execTableRetire (e : Nat) (src : CmdSource) (s : State) : Result := s.kindCommand codecKind e 0x04 src bodyTableRetire

/-- TABLE_SAVE (R156). A slot's table record is written to memory. -/
def execTableSave (e : Nat) (src : CmdSource) (s : State) : Result := s.kindCommand codecKind e 0x05 src bodyTableSave

/-- ATTEND (R185). A stack engine appends new keys and values, walks the frame descriptor stream and writes partial-result
records. -/
def execAttend (e : Nat) (src : CmdSource) (s : State) : Result := s.kindCommand stackKind e 0x01 src bodyAttend

/-- ATTN_FEED (R189). Relays copy query rows and new keys and values to the feed areas of every holder, one batch per
module. -/
def execAttnFeed (e : Nat) (src : CmdSource) (s : State) : Result := s.kindCommand relayKind e 0x40 src bodyAttnFeed

/-- ATTN_RETURN (R191). Relays send partial records of sequences homed elsewhere to the home's merge area. -/
def execAttnReturn (e : Nat) (src : CmdSource) (s : State) : Result := s.kindCommand relayKind e 0x41 src bodyAttnReturn

/-- ATTN_MERGE (R188). Relays merge each query head's partials in source order and write the attention output. -/
def execAttnMerge (e : Nat) (src : CmdSource) (s : State) : Result := s.kindCommand relayKind e 0x42 src bodyAttnMerge

/-- ROUTE (R269). A router unit scores, selects and weights experts for each row and writes routing records. -/
def execRoute (e : Nat) (src : CmdSource) (s : State) : Result := s.kindCommand routerKind e 0x01 src bodyRoute

/-- BUILD_LISTS (R285). A router unit writes the region's up and down expert work lists for a layer. -/
def execBuildLists (e : Nat) (src : CmdSource) (templates : List Nat) (s : State) : Result :=
  s.kindCommand routerKind e 0x02 src bodyBuildLists templates

/-- EXP_DISPATCH (R282). Relays send routed rows by rack then module stage, one batch per destination. -/
def execExpDispatch (e : Nat) (src : CmdSource) (rowBases : List Nat) (s : State) : Result :=
  s.kindCommand relayKind e 0x50 src bodyDispatch rowBases

/-- EXP_GATHER (R285). A region sorts landed rows into expert order and makes each expert's token count final. -/
def execExpGather (e : Nat) (src : CmdSource) (s : State) : Result := s.kindCommand relayKind e 0x51 src bodyGatherSkip

/-- EXP_RETURN (R289). Relays send expert outputs back to their origins by the two stages. -/
def execExpReturn (e : Nat) (src : CmdSource) (s : State) : Result := s.kindCommand relayKind e 0x52 src bodyReturn

/-- EXP_COMBINE (R290). A region sums shared and weighted returned results for each routed row in fixed order. -/
def execExpCombine (e : Nat) (src : CmdSource) (s : State) : Result := s.kindCommand relayKind e 0x53 src bodyCombine

/-- COPY (R358). A relay moves Length x 64 B locally or to a destination rank. -/
def execCopy (e : Nat) (src : CmdSource) (s : State) : Result := s.kindCommand relayKind e 0x01 src bodyCopy

/-- ALL_REDUCE (R361). Members sum their sources in fixed order and every member receives the result. -/
def execAllReduce (e : Nat) (src : CmdSource) (s : State) : Result := s.kindCommand relayKind e 0x60 src bodyCollective

/-- REDUCE_SCATTER (R361). Member m receives the sum over members of chunk m. -/
def execReduceScatter (e : Nat) (src : CmdSource) (s : State) : Result :=
  s.kindCommand relayKind e 0x61 src bodyCollective

/-- ALL_GATHER (R360). Every member receives every member's source. -/
def execAllGather (e : Nat) (src : CmdSource) (s : State) : Result := s.kindCommand relayKind e 0x62 src bodyCollective

/-- BROADCAST (R360). Every member receives the source of RootRank. -/
def execBroadcast (e : Nat) (src : CmdSource) (s : State) : Result := s.kindCommand relayKind e 0x63 src bodyCollective

/-- ALL_TO_ALL (R360). Member m receives chunk m of every member's source. -/
def execAllToAll (e : Nat) (src : CmdSource) (s : State) : Result := s.kindCommand relayKind e 0x64 src bodyCollective

/-- RDMA_WRITE (R488). A relay writes local data to a RoCE peer and signals when all packets are acknowledged. -/
def execRdmaWrite (e : Nat) (src : CmdSource) (s : State) : Result := s.kindCommand relayKind e 0x70 src (bodyRdma true)

/-- RDMA_READ (R488). A relay reads from a RoCE peer into local memory and signals when the data is visible. -/
def execRdmaRead (e : Nat) (src : CmdSource) (s : State) : Result := s.kindCommand relayKind e 0x71 src (bodyRdma false)

end Sys2Proof.Machine
end

