-- ==== Sys2Proof/Machine/Ether.lean ====
section
/-! DEFINITION. Meanings of the commands of the Ethernet ports and RoCE. -/
namespace Sys2Proof.Machine

/-- INCOMING_RDMA_WRITE (R487). An incoming RoCE WRITE is checked against queue pair and key table and performed or NAKed.
-/
def execIncomingRdmaWrite (r : RoceReq) (s : State) : Result := performOn (isEth r.port) (incomingWrite r) s

/-- INCOMING_RDMA_READ (R487). An incoming RoCE READ is checked against queue pair and key table and answered or NAKed. -/
def execIncomingRdmaRead (r : RoceReq) (s : State) : Result := performOn (isEth r.port) (incomingRead r) s

/-- ROCE_ACK (R489). A RoCE acknowledgement or NAK arrives, completing or retransmitting go-back-N. -/
def execRoceAck (port qpn psn : Nat) (nak : Option Nat) (s : State) : Result :=
  performOn (isEth port) (roceAck port qpn psn nak) s

/-- ROCE_TIMEOUT (R489). A RoCE acknowledgement timeout retransmits, or after RetryLimit ends the command and puts the
queue pair in ERROR. -/
def execRoceTimeout (port qp : Nat) (s : State) : Result := performOn (isQp port qp) (roceTimeout port qp) s

/-- CNP (R489). A received CNP halves the queue pair's rate. -/
def execCnp (port qpn : Nat) (s : State) : Result := performOn (isEth port) (cnp port qpn) s

/-- ROCE_RATE_RAISE (R489). After 55 us without a CNP a queue pair's rate rises by 5 % of line rate. -/
def execRoceRateRaise (port qp : Nat) (s : State) : Result := performOn (isQp port qp) (roceRateRaise port qp) s

/-- ROCE_QP_RELOAD (R485). A queue pair entry is read again and restarted from its start PSNs. -/
def execRoceQpReload (v : Nat) (s : State) : Result := performOn (decide (v < 2048)) (qpReload v) s

/-- ROCE_KEY_RELOAD (R486). A key table entry is read again. -/
def execRoceKeyReload (key : Nat) (s : State) : Result := performOn (decide (key < 4096)) (keyReload key) s

/-- NETWORK_FRAME (R483). An Ethernet port answers ARP, NDP or echo, or drops an unaccepted frame. -/
def execNetworkFrame (port : Nat) (f : EthFrame) (s : State) : Result := performOn (isEth port) (networkFrame port f) s

/-- ETH_LINK_CHANGE (R482). An Ethernet port's link goes up or down. -/
def execEthLinkChange (port : Nat) (up : Bool) (s : State) : Result := performOn (isEth port) (ethLinkChange port up) s

/-- ROCE_READ_RESPONSE (R488). A RoCE read-response packet arrives for an outstanding RDMA_READ and its data is written to
LocalAddr. -/
def execRoceReadResponse (port qpn psn : Nat) (data : List Nat) (s : State) : Result :=
  performOn (isEth port) (roceReadResponse port qpn psn data) s

/-- PFC_FRAME (R482). An IEEE 802.1Qbb PFC frame arrives on an Ethernet port and pauses egress on its priorities. -/
def execPfcFrame (port priority quanta : Nat) (s : State) : Result :=
  performOn (isEth port && decide (priority < 8)) (pfcFrame port priority quanta) s

end Sys2Proof.Machine
end

