-- ==== Sys2Proof/Machine/Governor.lean ====
section
/-! DEFINITION. Meanings of the commands about input power, the governor, thermals, leases and trades. -/
namespace Sys2Proof.Machine

/-- PRECHARGE_ENTRY (R377). PRES_N held low for 50 ms moves the module from OFF to PRECHARGE. -/
def execPrechargeEntry (straps : Nat) (s : State) : Result := perform (prechargeEntry straps) s

/-- PRECHARGE_COMPLETE (R377). The bulk voltage comes within 10 V of the input, the main switch closes and the module
enters BOOT. -/
def execPrechargeComplete (bulk input : Nat) (s : State) : Result := perform (prechargeComplete bulk input) s

/-- PRECHARGE_FAIL (R377). Bulk voltage not within 10 V after 200 ms opens the precharge path and raises PrechargeFail. -/
def execPrechargeFail (bulk input : Nat) (s : State) : Result := perform (prechargeFail bulk input) s

/-- PRECHARGE_RETRY (R377). Every 10 s a failed precharge is retried. -/
def execPrechargeRetry (s : State) : Result := perform prechargeRetry s

/-- PRES_N_RELEASE (R378). PRES_N high for 5 us opens the main input switch within 10 us. -/
def execPresNRelease (gap : Nat) (s : State) : Result := perform (presRelease gap) s

/-- INPUT_UNDERVOLTAGE (R391). Input below 330 V stops the converter and drops the module to the hold floor on hold-up. -/
def execInputUndervoltage (mv : Nat) (s : State) : Result := perform (converterStop mv false) s

/-- INPUT_OVERVOLTAGE (R375). Input above 430 V stops the converter drawing. -/
def execInputOvervoltage (mv : Nat) (s : State) : Result := perform (converterStop mv true) s

/-- INPUT_RESTART (R375). Input returning above 350 V or below 425 V restarts the converter. -/
def execInputRestart (mv : Nat) (s : State) : Result := perform (inputRestart mv) s

/-- SUPPLY_SAG (R390). Input below 350 V for 50 us puts the supply limit in force. -/
def execSupplySag (mv : Nat) (s : State) : Result := perform (supplySag mv) s

/-- DERATE_N (R390). Assertion of the DERATE_N sideband puts the supply limit in force. -/
def execDerateN (s : State) : Result := perform derateAssert s

/-- SUPPLY_LIMIT_CLEAR (R390). 1 s after the derate and sag causes clear, the supply limit ends. -/
def execSupplyLimitClear (s : State) : Result := perform supplyLimitClear s

/-- HOLD_UP_EXHAUSTED (R391). Hold-up runs out: the power-loss record is written and the module enters OFF. -/
def execHoldUpExhausted (s : State) : Result := perform holdUpExhausted s

/-- POWER_UNIT_FAILURE (R416). A regulator phase or converter stage fails and its spare takes over, or the supply limit
falls. -/
def execPowerUnitFailure (sign : PowerSign) (region unit : Nat) (s : State) : Result :=
  performOn (isRegion region) (powerUnitFailure sign region unit) s

/-- GOVERNOR_PERIOD (R386). Every 100 us the governor sets operating point and duty to keep power within L. -/
def execGovernorPeriod (avg mv : Nat) (draw : List Nat) (s : State) : Result := perform (governorPeriod avg mv draw) s

/-- FAST_PATH (R387). When L falls the BE gate closes and the fast path starts stretch and duty insertion. -/
def execFastPath (s : State) : Result := perform fastPath s

/-- FAST_PATH_STEP (R387). Every 2 us the fast path deepens stretch or duty until the 10 us average is within L. -/
def execFastPathStep (avg stretch duty : Nat) (s : State) : Result := perform (fastPathStep avg stretch duty) s

/-- OP_STEP (R381). An operating-point step of voltage and RootClk completes and the next step or release follows. -/
def execOpStep (s : State) : Result := perform opStep s

/-- LEASE_COMMIT (R388). A lease with a newer LeaseSeq becomes ACTIVE with a 30 s expiry, or is counted stale. -/
def execLeaseCommit (v : Nat) (s : State) : Result := perform (leaseCommit v) s

/-- LEASE_EXPIRY (R389). Fabric time passes LeaseExpiry: the lease expires, OrphanBudget applies and TradeOffset becomes
0. -/
def execLeaseExpiry (s : State) : Result := perform leaseExpiry s

/-- THERMAL_COMPARE (R392). Every 1 ms the thermal controller adjusts the thermal limit from the hottest estimate. -/
def execThermalCompare (hottest : Int) (avg sensor : Nat) (s : State) : Result :=
  perform (thermalCompare hottest avg sensor) s

/-- THERMAL_TRIP (R393). A junction at 110 C trips the module to SAFE, fencing and switching off the compute rails. -/
def execThermalTrip (sensor : Nat) (raw : Int) (s : State) : Result :=
  performOn (decide (sensor < 92)) (thermalTrip sensor raw) s

/-- COOLANT_SAMPLE (R394). Every 1 ms the flow sensor is sampled and the coolant term set. -/
def execCoolantSample (flow : Nat) (inlet outlet : Int) (s : State) : Result :=
  perform (coolantSample flow inlet outlet) s

/-- DROOP (R395). A region's voltage falls below the droop threshold and it requests clock stretch. -/
def execDroop (region : Nat) (s : State) : Result := performOn (isRegion region) (droopRow region) s

/-- DROOP_RELEASE (R395). After the voltage recovers, stretch is released by one every 64 ns. -/
def execDroopRelease (region : Nat) (s : State) : Result := performOn (isRegion region) (droopRelease region) s

/-- RAMP_SLOT (R396). Each 64 ns slot the ramp limiter restarts or gates engines within the current slew bound, stretching
if needed. -/
def execRampSlot (region : Nat) (classes : List (Nat × Nat)) (s : State) : Result :=
  performOn (isRegion region) (rampSlot region classes) s

/-- ENERGY_WINDOW (R400). At each 1 ms window end the energy account is updated and the BE gate may open. -/
def execEnergyWindow (avg : Nat) (s : State) : Result := perform (energyWindow avg) s

/-- TRADE_WINDOW_END (R398). At each 1 ms window end a trade member sends its blame vector and runs the donor and receiver
plan. -/
def execTradeWindowEnd (window : Nat) (s : State) : Result := perform (tradeWindowEnd window) s

/-- TRADE_REPORT (R398). A trade member receives another member's window report. -/
def execTradeReport (r : TradeReport) (s : State) : Result := perform (tradeReport r) s

/-- TRADE_TOKEN (R398). A GIVE or RETURN token arrives and changes TradeOffset and the ledger. -/
def execTradeToken (node : Nat) (give : Bool) (watts : Nat) (s : State) : Result :=
  performOn (isNode node) (tradeToken node give watts) s

/-- DERATE_N_DEASSERT (R390). The tray releases the DERATE_N sideband, which starts the 1 s hold before the supply limit
can clear. -/
def execDerateNDeassert (s : State) : Result := perform derateRelease s

end Sys2Proof.Machine
end

