-- ==== Sys2Proof/Machine/Kwanex.lean ====
section
/-! DEFINITION. Meanings of the commands of the Kwanex fabric. -/
namespace Sys2Proof.Machine

/-- DATA_FLIT (R340). A receiver takes a DATA flit in Seq order, or discards it and sends a NAK on CRC failure. -/
def execDataFlit (g : Nat) (errs bytes : List Nat) (s : State) : Result :=
  performOn (isGroup g) (dataFlit g errs bytes (takePacketBytes g)) s

/-- CONTROL_FLIT (R339). A CONTROL flit delivers acknowledgements, NAKs, credits, spare operations and time stamps. -/
def execControlFlit (g : Nat) (errs bytes : List Nat) (s : State) : Result :=
  performOn (isGroup g) (controlFlit g errs bytes) s

/-- ACK_PROGRESS_TIMEOUT (R342). DATA flits outstanding for 100 us without AckSeq advance send the group to RETRAIN. -/
def execAckProgressTimeout (g : Nat) (s : State) : Result := performOn (isGroup g) (ackProgressTimeout g) s

/-- RETRAIN_DONE (R342). A retrain ends and the transmitter resends from the first unacknowledged Seq, or the group is
mapped out. -/
def execRetrainDone (g : Nat) (ok : Bool) (s : State) : Result := performOn (isGroup g) (retrainDone g ok) s

/-- GROUP_TRAINED (R334). A Kwanex group finishes training and sends its identity record. -/
def execGroupTrained (g : Nat) (ok : Bool) (s : State) : Result := performOn (isGroup g) (groupTrained g ok) s

/-- LANE_ERROR_DETECT (R343). A receiver finds a lane over LaneBerLimit or out of lock and requests the spare lane. -/
def execLaneErrorDetect (g lane ber : Nat) (lockLost : Bool) (s : State) : Result :=
  performOn (isGroup g) (laneErrorDetect g lane ber lockLost) s

/-- LANE_SPARE_START (R343). A Service write starts sparing of a logical lane. -/
def execLaneSpareStart (v : Nat) (s : State) : Result := perform (laneSpareStart v) s

/-- LINK_RESTORE (R345). A mapped-out group is released, trains again and is compared before carrying traffic. -/
def execLinkRestore (g : Nat) (s : State) : Result := performOn (isGroup g) (linkRestore g) s

/-- LINK_PLAN_APPLY (R351). Every group's identity record is compared again with the wiring plan. -/
def execLinkPlanApply (s : State) : Result := perform linkPlanApply s

/-- IDENTITY_SEND (R349). Every 1 s a group that is not OFF sends its identity record. -/
def execIdentitySend (g : Nat) (s : State) : Result := performOn (isGroup g) (identitySend g) s

/-- IDENTITY_RECORD (R351). A received identity record is kept and compared with the plan, moving the group to UP,
MGMT_ONLY, OFF or MAPPED_OUT. -/
def execIdentityRecord (g : Nat) (r : IdRec) (s : State) : Result := performOn (isGroup g) (identityRecord g r) s

/-- WRITE_PACKET (R353). A receiver checks a WRITE packet, writes its data, forwards it, or discards it. -/
def execWritePacket (chan header : Nat) (data : List Nat) (s : State) : Result :=
  performOn (isChan chan) (packetOf [1] chan header data) s

/-- COLLECTIVE_PACKET (R353). A receiver checks a COLLECTIVE packet's epoch and writes its contribution. -/
def execCollectivePacket (chan header : Nat) (data : List Nat) (s : State) : Result :=
  performOn (isChan chan) (packetOf [2] chan header data) s

/-- ACK_PACKET (R354). A sender receives the ACK of a transfer and completes it. -/
def execAckPacket (chan header : Nat) (s : State) : Result := performOn (isChan chan) (packetOf [5] chan header []) s

/-- ABORT_PACKET (R355). A receiver answers an ABORT, reporting completion or dropping its count for the Tag. -/
def execAbortPacket (chan header : Nat) (s : State) : Result := performOn (isChan chan) (packetOf [6] chan header []) s

/-- TRANSFER_ACK_TIMEOUT (R355). A transfer without ACK 1 ms after its Final packet is aborted and resent under a new Tag.
-/
def execTransferAckTimeout (node tag : Nat) (s : State) : Result :=
  performOn (isNode node) (transferAckTimeout node tag) s

/-- PLANES (R365). A PLANES notice updates which switch planes a destination can use. -/
def execPlanes (node mask : Nat) (s : State) : Result := performOn (isNode node) (planesNotice node mask) s

/-- LINK (R436). A LINK notice about a mapped-out group is received and left to the fabric manager. -/
def execLink (node mask : Nat) (s : State) : Result := performOn (isNode node) (noticeEvent 2 node mask) s

/-- FENCED (R436). A FENCED notice stops sending to the node and makes a lead abandon the step and mark the rank absent.
-/
def execFenced (node : Nat) (s : State) : Result := performOn (isNode node) (peerDown 3 node) s

/-- RESET (R436). A RESET notice is handled as FENCED for the restarting node. -/
def execReset (node : Nat) (s : State) : Result := performOn (isNode node) (peerDown 4 node) s

/-- REMOVED (R436). A REMOVED notice is handled as FENCED for the drained node. -/
def execRemoved (node : Nat) (s : State) : Result := performOn (isNode node) (peerDown 5 node) s

/-- PEER_LOST (R368). A lead applies PEER_LOST: abandons the step, sets the rank absent, increments ShapeEpoch and sends
SHAPE. -/
def execPeerLost (node : Nat) (s : State) : Result := performOn (isNode node) (peerLost node) s

/-- SHAPE (R369). A member applies a SHAPE notice, updating AbsentMask, ShapeEpoch or RankMap. -/
def execShape (p mask epoch : Nat) (assign : Option (Nat × Nat)) (s : State) : Result :=
  performOn (isPart p) (applyShape p (mask % 2 ^ 64) (epoch % 2 ^ 32) assign) s

/-- CAPACITY (R435). A CAPACITY notice about fallen active counts is received and left to the fabric manager. -/
def execCapacity (node mask : Nat) (s : State) : Result := performOn (isNode node) (noticeEvent 8 node mask) s

/-- PATH_LOSS (R367). No packet or ACK from a node for PathLossTime with transfers open marks it unreachable and sends
PEER_LOST. -/
def execPathLoss (node : Nat) (s : State) : Result := performOn (isNode node) (pathLoss node) s

/-- SUBSTITUTE_TIMEOUT (R369). With no RankReady in time the lead retires every live sequence with PEER_RESET and stops
the instance. -/
def execSubstituteTimeout (p : Nat) (s : State) : Result :=
  performOn (isPart p) (do
    substituteTimeout p
    afterStep) s

/-- RANK_READY (R369). The lead clears the rank from AbsentMask, sends SHAPE and resumes PLAN. -/
def execRankReady (p r : Nat) (s : State) : Result := performOn (isPart p && decide (r < 64)) (rankReady p r) s

/-- TIME_HOLDOVER (R372). On loss of the time parent the module runs fabric time from REFCLK and raises TimeHoldover. -/
def execTimeHoldover (s : State) : Result := perform timeHoldover s

/-- PTP_MESSAGE (R373). An IEEE 1588 message on PtpPort adjusts fabric time. -/
def execPtpMessage (port domain : Nat) (m : PtpMsg) (s : State) : Result :=
  performOn (isEth port) (ptpMessage port domain m) s

/-- GROUP_LOSS_OF_LOCK (R351). A whole Kwanex group loses lock, for example on a cable change, leaves UP and trains again
before carrying traffic. -/
def execGroupLossOfLock (g : Nat) (s : State) : Result := performOn (isGroup g) (groupLossOfLock g) s

end Sys2Proof.Machine
end

