-- ==== Sys2Proof/Machine/Ports.lean ====
section
/-! DEFINITION. Meanings of the commands at the host ports. -/
namespace Sys2Proof.Machine

/-- HP_MBX_DOORBELL (R441). The mailbox takes the PDU in HP_MBX_REQ, answers into HP_MBX_RSP and sends MailboxVector. -/
def execHpMbxDoorbell (h : Nat) (part : RegPart) (v : Nat) (s : State) : Result :=
  performOn (isPort h) (mailboxDoorbell h part v) s

/-- HP_MBX_EVT_ACK (R462). The host acknowledges mailbox event records up to an EventSeq. -/
def execHpMbxEvtAck (h : Nat) (part : RegPart) (v : Nat) (s : State) : Result :=
  performOn (isPort h) (mailboxEventAck h part v) s

/-- REGISTER_WRITE (R471). A BAR0 register without its own behaviour is written, with clamps counted as register clamps.
-/
def execRegisterWrite (h off : Nat) (data : List Nat) (s : State) : Result :=
  performOn (isPort h) (registerWrite h off data) s

/-- LOW_HALF_READ (R8). A 32-bit read of a register's low half latches its high half. The row carries the width of the read:
a 64-bit read of the register, or a read of another width (R7), is the same access with another n. -/
def execLowHalfRead (h : Nat) (r : RegRead) (s : State) : Result :=
  performOn (isPort h) (lowHalfRead h r.off r.n) s

/-- HIGH_HALF_READ (R8). A 32-bit read of the high half returns and discards the latch, or returns the live value. -/
def execHighHalfRead (h off : Nat) (s : State) : Result := performOn (isPort h) (highHalfRead h off) s

/-- DIR_REQ_DOORBELL (R201). A request doorbell is stored with its clamp for the lead to read at PLAN. -/
def execDirReqDoorbell (h p : Nat) (part : RegPart) (v : Nat) (s : State) : Result :=
  performOn (isPort h && isPart p) (requestDoorbell h p part v) s

/-- DIR_CANCEL_DOORBELL (R201). A cancel doorbell is stored with its clamp for the lead to read at COMMIT. -/
def execDirCancelDoorbell (h p : Nat) (part : RegPart) (v : Nat) (s : State) : Result :=
  performOn (isPort h && isPart p) (cancelDoorbell h p part v) s

/-- DIR_CPL_DOORBELL (R234). The host's consumed count frees completion ring space and spilled records move in. -/
def execDirCplDoorbell (h p : Nat) (part : RegPart) (v : Nat) (s : State) : Result :=
  performOn (isPort h && isPart p) (completionDoorbell h p part v) s

/-- DIR_CMD_DOORBELL (R313). A command doorbell sets a stream's written count so its engine fetches new descriptors. -/
def execDirCmdDoorbell (h p : Nat) (part : RegPart) (v : Nat) (s : State) : Result :=
  performOn (isPort h && isPart p) (commandDoorbell h p part v) s

/-- DIR_CTL_DOORBELL (R325). A control doorbell makes the Director read the pending control entries within 20 us. -/
def execDirCtlDoorbell (h p : Nat) (part : RegPart) (v : Nat) (s : State) : Result :=
  performOn (isPort h && isPart p) (controlDoorbell h p part v) s

/-- PWR_CAP_REQ (R477). A write of the power cap image is performed only through an authorised port. -/
def execPwrCapReq (h : Nat) (part : RegPart) (v : Nat) (s : State) : Result :=
  performOn (isPort h) (powerCapWrite h part v) s

/-- FLT_PENDING (R471). Writing 1 clears pending fault bits for every port. -/
def execFltPending (h : Nat) (part : RegPart) (v : Nat) (s : State) : Result :=
  performOn (isPort h) (fltPendingWrite h part v) s

/-- BAR2_READ (R473). A BAR2 or CXL.mem read is mapped through a segment and checked per 64 B line. -/
def execBar2Read (h off n : Nat) (s : State) : Result := performOn (isPort h) (bar2Read h off n) s

/-- BAR2_WRITE (R473). A BAR2 or CXL.mem write is mapped through a segment, checked per line and performed in arrival
order. -/
def execBar2Write (h off : Nat) (data : List Nat) (poisoned : Bool) (s : State) : Result :=
  performOn (isPort h) (bar2Write h off data poisoned) s

/-- ATOMIC_OP (R474). A 64-bit FetchAdd, Swap or CAS AtomicOp to BAR2 is performed as a module atomic. -/
def execAtomicOp (h off size : Nat) (op : HostAtomic) (a b : Nat) (s : State) : Result :=
  performOn (isPort h) (bar2Atomic h off size op a b) s

/-- HOST_READ_COMPLETION (R481). A completion to a module read of host memory arrives and its data is written, as poisoned
if marked. -/
def execHostReadCompletion (h addr : Nat) (data : List Nat) (poisoned : Bool) (s : State) : Result :=
  performOn (isPort h) (hostReadCompletion h addr data poisoned) s

/-- COMPLETION_TIMEOUT (R475). A host read with no completion after 10 ms is delivered as poisoned. -/
def execCompletionTimeout (h addr : Nat) (s : State) : Result := performOn (isPort h) (completionTimeout h addr) s

/-- SURPRISE_DOWN (R478). A host port link goes down and its window objects are held or spilled. -/
def execSurpriseDown (h : Nat) (s : State) : Result := performOn (isPort h) (surpriseDown h) s

/-- HOST_LINK_UP (R478). A window comes up again and spilled completion records move into the ring. -/
def execHostLinkUp (h width rate : Nat) (flit cxl again : Bool) (s : State) : Result :=
  performOn (isPort h) (hostLinkUp h width rate flit cxl again) s

/-- FUNCTION_LEVEL_RESET (R479). A function, hot or link reset resets the port's configuration, MSI-X and HP block. -/
def execFunctionLevelReset (h : Nat) (s : State) : Result := performOn (isPort h) (functionLevelReset h) s

/-- PERST_N (R532). PERST_N holds a host port in reset, and its rise lets the port train. -/
def execPerstN (h : Nat) (low : Bool) (s : State) : Result := performOn (isPort h) (perstN h low) s

/-- CONFIGURATION_WRITE (R475). A host writes PCI Express configuration space, for example Bus Master Enable, the power
state or the MSI-X enable, taking the port's window down or up. -/
def execConfigurationWrite (h : Nat) (w : ConfigWrite) (s : State) : Result :=
  performOn (isPort h) (configurationWrite h w) s

end Sys2Proof.Machine
end

