-- ==== Sys2Proof/Machine/Recovery.lean ====
section
/-! DEFINITION. Meanings of the commands about faults, resets and dumps. -/
namespace Sys2Proof.Machine

/-- WATCHDOG_EXPIRY (R420). A unit makes no progress within its watchdog limit and an engine reset is requested. -/
def execWatchdogExpiry (e : Nat) (core : Option Nat) (lost : Option (Nat × Nat)) (s : State) : Result :=
  performOn (isEngine e) (do
    watchdogExpiry e core lost
    fwEngineFails e) s

/-- HEARTBEAT_MISS (R25). A Director core misses its heartbeat for 100 ms and the spare core takes over, or the module
goes fatal. -/
def execHeartbeatMiss (core : Nat) (miss : CoreMiss) (s : State) : Result :=
  performOn (decide (core < 8)) (do
    heartbeatMiss core miss.ms miss.err
    onlyIf (decide (100 ≤ miss.ms) || miss.err != 0) (fwFail 256)) s

/-- REMOTE_WAIT_EXPIRY (R421). A remote wait reaches 500 ms: the head is dropped, the collective or copy ends, and serving
sends no RUN report. -/
def execRemoteWaitExpiry (e p ctx : Nat) (s : State) : Result :=
  performOn (isEngine e && isPart p && isCtx ctx) (remoteWaitExpiry e p ctx) s

/-- MESH_TIMEOUT (R408). A mesh access not completed in 20 us is retried, leading to engine reset or fatal handling when
repeated. -/
def execMeshTimeout (e target : Nat) (lost : Option (Nat × Nat)) (s : State) : Result :=
  performOn (isEngine e) (do
    meshTimeout e target lost
    fwEngineFails e) s

/-- ENGINE_RESET (R422). A reset of one engine starts: grants stop, an engine dump is taken and open transfers are
aborted. -/
def execEngineReset (e : Nat) (lost : Option (Nat × Nat)) (s : State) : Result :=
  performOn (isEngine e) (resetCommand e lost) s

/-- ENGINE_RESET_END (R423). An engine reset ends: the running command is dropped, others continue, and serving commands
are reissued. -/
def execEngineResetEnd (e : Nat) (s : State) : Result := performOn (isEngine e) (endReset e) s

/-- RESET_OVERRUN (R422). An engine reset not ended within 200 us leads to module-fatal handling. -/
def execResetOverrun (r : Overrun) (s : State) : Result := performOn (isEngine r.e) (resetOverrun r.e r.fails) s

/-- ENTER_FENCED (R429). A Service write of EnterFenced starts module-fatal handling. -/
def execEnterFenced (s : State) : Result := perform enterFenced s

/-- DUMP_START (R431). A Service write starts a whole-module dump while units run. -/
def execDumpStart (s : State) : Result := perform dumpStart s

/-- DUMP_COMPLETE (R431). A crash dump slot is complete, its summary goes to flash and DumpReady is raised. -/
def execDumpComplete (late : List Nat) (s : State) : Result := perform (dumpDone late) s

/-- FAULT_LOG_COMMIT (R405). Within 1 s of a new fault record the flash copy of the newest records is committed. -/
def execFaultLogCommit (s : State) : Result := perform faultLogCommit s

/-- UNIT_RESTORE (R414). A failed unit is tested and becomes a spare if it passes and the place is free. -/
def execUnitRestore (v : Nat) (pass : Bool) (s : State) : Result := perform (unitRestore v pass) s

/-- REFCLK_LOSS (R534). REFCLK is lost; the island runs on its oscillator, and after 1 ms the module goes fatal. -/
def execRefclkLoss (s : State) : Result := perform refclkLoss s

/-- REFCLK_RETURN (R534). REFCLK returns within 1 ms of its loss; the module resumes from it and records a REFCLK_LOSS
fault with Action COUNTED. -/
def execRefclkReturn (s : State) : Result := perform refclkReturn s

/-- BRIDGE_FLIT_ERROR (R407). A die-to-die bridge flit fails its CRC and is retried, leading to module-fatal handling
after 16 retries of one flit. -/
def execBridgeFlitError (bridge flit : Nat) (s : State) : Result :=
  performOn (decide (bridge < 6)) (bridgeFlitError bridge flit) s

end Sys2Proof.Machine
end

