-- ==== Sys2Proof/Machine/Requests.lean ====
section
/-! DEFINITION. Meanings of the commands of the Eloaphor dictionary. -/
namespace Sys2Proof.Machine

/-- READ (R453). An Eloaphor READ returns the items' values at one instant. -/
def execRead (path src : Nat) (p : Pdu) (s : State) : Result := performOn (isPath path src) (pduRow 0x01 path src p) s

/-- WRITE (R453). An Eloaphor WRITE stores all items together with clamping, or none if any item fails. -/
def execWrite (path src : Nat) (p : Pdu) (s : State) : Result := performOn (isPath path src) (pduRow 0x02 path src p) s

/-- DESCRIBE (R445). DESCRIBE returns each item's type, access, write role and limits. -/
def execDescribe (path src : Nat) (p : Pdu) (s : State) : Result := performOn (isPath path src) (pduRow 0x03 path src p) s

/-- LIST (R445). LIST returns the indices present in a range. -/
def execList (path src : Nat) (p : Pdu) (s : State) : Result := performOn (isPath path src) (pduRow 0x04 path src p) s

/-- BLOB_READ (R445). BLOB_READ returns up to 1,024 B of a BLOB from an offset. -/
def execBlobRead (path src : Nat) (p : Pdu) (s : State) : Result := performOn (isPath path src) (pduRow 0x05 path src p) s

/-- BLOB_WRITE (R455). BLOB_WRITE stores a segment of a BLOB and stores the whole BLOB at the last segment. -/
def execBlobWrite (path src : Nat) (p : Pdu) (s : State) : Result :=
  performOn (isPath path src) (pduRow 0x06 path src p) s

/-- BLOB_TRANSFER_TIMEOUT (R455). 5 s without a segment discards an open BLOB transfer. -/
def execBlobTransferTimeout (id : Nat) (s : State) : Result := perform (blobTimeout id) s

/-- CHALLENGE (R448). The module answers a role challenge with a SessionId and nonce, or BUSY or LOCKED_OUT. -/
def execChallenge (path src : Nat) (p : Pdu) (s : State) : Result :=
  performOn (isPath path src) (pduRow 0x10 path src p) s

/-- LOGIN (R448). A matching proof opens a tagged session, a failing one counts toward lockout. -/
def execLogin (path src : Nat) (p : Pdu) (s : State) : Result := performOn (isPath path src) (pduRow 0x11 path src p) s

/-- LOGIN_TIMEOUT (R448). A session whose LOGIN has not arrived within 5 s is dropped. -/
def execLoginTimeout (id : Nat) (s : State) : Result := perform (loginTimeout id) s

/-- LOGOUT (R451). LOGOUT closes the session. -/
def execLogout (path src : Nat) (p : Pdu) (s : State) : Result := performOn (isPath path src) (pduRow 0x12 path src p) s

/-- SESSION_IDLE_TIMEOUT (R451). A session with no PDU for 60 s closes. -/
def execSessionIdleTimeout (id : Nat) (s : State) : Result := perform (sessionIdle id) s

/-- SESSION_CLOSE (R451). A Service write closes the named session. -/
def execSessionClose (id : Nat) (s : State) : Result := perform (sessionClose id) s

/-- SUBSCRIBE (R461). A subscriber slot is filled with the requester's path, address and mask. -/
def execSubscribe (path src : Nat) (p : Pdu) (s : State) : Result :=
  performOn (isPath path src) (pduRow 0x20 path src p) s

/-- UNSUBSCRIBE (R461). A subscriber slot is freed. -/
def execUnsubscribe (path src : Nat) (p : Pdu) (s : State) : Result :=
  performOn (isPath path src) (pduRow 0x21 path src p) s

/-- EVENT_ACK (R462). An acknowledgement releases queued event records up to the given EventSeq. -/
def execEventAck (path src : Nat) (p : Pdu) (s : State) : Result := performOn (isPath path src) (pduRow 0x23 path src p) s

/-- EVENT_RESEND (R462). Every 100 ms unacknowledged EVENT PDUs are resent, stopping after 10 resends. -/
def execEventResend (slot : Nat) (s : State) : Result := performOn (decide (slot < 16)) (eventResend slot) s

/-- DISCOVER (R445). The module answers with its serial, tray position, grade, state and NodeId. -/
def execDiscover (path src : Nat) (p : Pdu) (s : State) : Result := performOn (isPath path src) (pduRow 0x30 path src p) s

/-- PERSIST_COMMIT (R458). Within 1 s of an RWP write, coalesced values are committed to management flash. -/
def execPersistCommit (s : State) : Result := perform persistCommit s

/-- RESTORE_DEFAULTS (R458). Every RWP parameter is set to its default at the next BOOT. -/
def execRestoreDefaults (s : State) : Result := perform restoreDefaults s

/-- USER_CAL_RESET (R460). Every user calibration Mode is set to NONE. -/
def execUserCalReset (s : State) : Result := perform userCalReset s

end Sys2Proof.Machine
end

