-- ==== Sys2Proof/Machine/Serving.lean ====
section
/-! DEFINITION. Meanings of the commands of the serving loop, prefixes, takes, parking and the norm watch. -/
namespace Sys2Proof.Machine

/-- ATTN_BATCH_RECEIVED (R190). A module receives a feed or return batch and advances FeedCue or MergeCue once its rows
are visible. -/
def execAttnBatchReceived (b : AttnBatch) (s : State) : Result := performOn (isPart b.p) (attnReceive b) s

/-- PLAN (R211). The lead plans a step: reads requests, grants joins, frames and chunks, parks, assigns slots and writes
and publishes the call sheet. -/
def execPlan (p story : Nat) (s : State) : Result := performOn (isPart p) (unlessFw (plan p story)) s

/-- CALL_SHEET_RECEIVED (R171). A module holds a step's call sheet and allocates the step's frame numbers by the fixed
rule. -/
def execCallSheetReceived (p : Nat) (sheet : CallSheet) (s : State) : Result :=
  performOn (isPart p) (receiveSheet p sheet) s

/-- RUN_START (R36). A module with the call sheet, the previous COMMIT applied and allocation ended enters RUN of the
step. -/
def execRunStart (p : Nat) (s : State) : Result := performOn (isPart p) (unlessFw (runStart p)) s

/-- RUN_REPORT (R222). When a module's last command of the step has signalled, its Director sends the lead its RUN report.
-/
def execRunReport (p : Nat) (report : Report) (s : State) : Result := performOn (isPart p) (runReport p report) s

/-- NORM_WORD (R303). A prefill holder sends the home a norm word with FallbackUsed and NormFault marks. -/
def execNormWord (p : Nat) (msg : NormMsg) (s : State) : Result := performOn (isPart p) (normWord p msg) s

/-- COMMIT (R223). Holding every RUN report, the lead reads the cancel ring, decides each sequence's outcome and writes
the commit notice. -/
def execCommit (p : Nat) (s : State) : Result :=
  performOn (isPart p) (do
    commitStep p
    afterStep) s

/-- STEP_ABANDON (R226). The lead abandons a step when a RUN report is 500 ms late or a module is fenced, reset or
removed, writing an abandoning notice. -/
def execStepAbandon (p : Nat) (s : State) : Result :=
  performOn (isPart p) (do
    abandonStep p
    afterStep) s

/-- COMMIT_APPLY (R227). A module applies a commit notice: writes completion records, releases frames, drops home entries
and acknowledges. -/
def execCommitApply (p : Nat) (msg : CommitMsg) (s : State) : Result :=
  performOn (isPart p) (do
    commitApply p msg
    afterStep) s

/-- SUBMIT (R207). The lead accepts a request entry of kind SUBMIT into a slate, or ignores it. -/
def execSubmit (p : Nat) (s : State) : Result := performOn (isPart p) (takeRequestOf p 1) s

/-- CANCEL (R203). The lead reads a cancel entry at COMMIT and marks the sequence cancelled, or ignores it. -/
def execCancel (p : Nat) (s : State) : Result := performOn (isPart p) (cancelEntry p) s

/-- PARK (R261). The lead queues a PARK request and plans the park when all segments can be reserved. -/
def execPark (p : Nat) (s : State) : Result := performOn (isPart p) (takeRequestOf p 2) s

/-- UNPARK (R263). The lead queues an UNPARK request and grants it as a join when frames fit. -/
def execUnpark (p : Nat) (s : State) : Result := performOn (isPart p) (takeRequestOf p 3) s

/-- TAKE (R254). The home feeds draft tokens, draws a token per row and proposes the accepted prefix. -/
def execTake (p slate tokenAddr : Nat) (s : State) : Result := performOn (isPart p) (takeEntry p slate tokenAddr) s

/-- ATTACH (R246). A holder raises reference counts of a matched node's frames and writes them into the sequence's reel
records. -/
def execAttach (p : Nat) (s : State) : Result := performOn (isPart p) (attachEntry p) s

/-- COPY_ON_WRITE (R247). A holder allocates a new frame and copies the valid slots of a partial node's frame into it. -/
def execCopyOnWrite (p : Nat) (s : State) : Result := performOn (isPart p) (runEntry p 3 (applyCopy p)) s

/-- INSERT (R249). At apply a holder makes a PENDING prefix node VALID with the sequence's frame numbers. -/
def execInsert (p : Nat) (s : State) : Result :=
  performOn (isPart p) (do
    applyEntry p 4 (applyInsert p)
    afterStep) s

/-- EVICT (R250). At apply a holder drops the references of an evicted node's frames. -/
def execEvict (p : Nat) (s : State) : Result :=
  performOn (isPart p) (do
    applyEntry p 5 (fun e => applyEvict e p)
    afterStep) s

/-- PARK_ENTRY (R262). During RUN a holder encodes a parked sequence's frames into a can segment. -/
def execParkEntry (p : Nat) (s : State) : Result := performOn (isPart p) (runEntry p 6 (applyPark p)) s

/-- UNPARK_ENTRY (R263). A holder allocates frames for a can segment and decodes its extents into them. -/
def execUnparkEntry (p : Nat) (s : State) : Result := performOn (isPart p) (runEntry p 7 (applyUnpark p)) s

/-- EXPERT_BATCH_RECEIVED (R284). A receiver checks a dispatch or return batch, writes its rows and advances the matching
cue, holds it or drops it. -/
def execExpertBatchReceived (b : ExpBatch) (s : State) : Result := performOn (isPart b.p) (expReceive b) s

/-- NORM_DECISION (R299). After a watched command with jumped rows, the Director admits sequences to fallback and issues
the re-runs. -/
def execNormDecision (p : Nat) (s : State) : Result := performOn (isPart p) (normDecision p) s

/-- FALLBACK_VERDICT (R300). After the re-run watched command, the Director decides FallbackUsed or NormFault and signals
the fallback cue. -/
def execFallbackVerdict (p : Nat) (s : State) : Result := performOn (isPart p) (fallbackVerdict p) s

/-- NORM_PROFILE_SAVE (R296). The module writes its current norm baselines into a profile array. -/
def execNormProfileSave (p : Nat) (s : State) : Result := performOn (isPart p) (normProfileSave p) s

end Sys2Proof.Machine
end

