-- ==== Sys2Proof/Machine/Startup.lean ====
section
/-! DEFINITION. Meanings of the commands about start-up, firmware and telemetry. -/
namespace Sys2Proof.Machine

/-- BOOT_DONE (R495). The Director runs its firmware and the module enters SELFTEST. -/
def execBootDone (sealA sealB : Bool) (s : State) : Result :=
  perform (do
    bootDone sealA sealB
    loadEthTables) s

/-- SELFTEST_DONE (R495). Tests complete with a valid seal and the module enters TRAINING. -/
def execSelftestDone (failed : List (Nat × Nat × Nat)) (s : State) : Result := perform (selftestDone failed) s

/-- TRAINING_END (R495). Training ends by group states and time lock or 30 s and the module enters READY. -/
def execTrainingEnd (s : State) : Result := perform trainingEnd s

/-- MODULE_DRAIN (R508). ModuleControl DRAIN moves the module to DRAINING and drains its partitions. -/
def execModuleDrain (s : State) : Result := perform moduleDrain s

/-- DRAIN_TIMEOUT (R508). DrainTimeout passes and the remaining partitions are stopped. -/
def execDrainTimeout (s : State) : Result := perform drainTimeout s

/-- DRAIN_COMPLETE (R508). With every partition STOPPED the module notifies, powers down and enters REMOVABLE. -/
def execDrainComplete (s : State) : Result := perform drainComplete s

/-- RESTART (R497). The module sends RESET and runs the whole start-up from BOOT. -/
def execRestart (s : State) : Result := perform (moduleRestart false) s

/-- RESTART_KEEP (R497). The module restarts from BOOT keeping stack user capacity where self-refresh held. -/
def execRestartKeep (s : State) : Result := perform (moduleRestart true) s

/-- SAFE_RELEASE (R498). A restart held in SAFE takes effect once junctions and coolant are back in range. -/
def execSafeRelease (hottest : Int) (s : State) : Result := perform (safeRelease hottest) s

/-- STANDBY (R494). The module enters standby power mode in READY. -/
def execStandby (s : State) : Result := perform moduleStandby s

/-- WAKE (R494). The module returns from standby to ACTIVE within 2 s. -/
def execWake (s : State) : Result := perform moduleWake s

/-- FW_STAGE (R503). The island checks an image and writes it into the inactive slots of its kind. -/
def execFwStage (addr : Nat) (sigOk : Bool) (s : State) : Result := perform (fwStage addr sigOk) s

/-- FW_STAGE_DONE (R503). Staging ends as STAGED or ERROR after read-back. -/
def execFwStageDone (ok : Bool) (s : State) : Result := perform (fwStageDone ok) s

/-- FW_ACTIVATE (R504). A firmware instance switches to its other slot at its activation point, or is refused. -/
def execFwActivate (v : Nat) (s : State) : Result := perform (fwActivate v) s

/-- FW_HEALTH_CHECK (R505). 1 s after a switch the unit must have reported healthy, or it reverts. -/
def execFwHealthCheck (key : Nat) (healthy : Bool) (s : State) : Result := perform (fwHealthCheck key healthy) s

/-- FW_TRIAL_END (R505). FwTrialTime passes without failure and the slot becomes CONFIRMED when auto-confirm is set. -/
def execFwTrialEnd (key : Nat) (s : State) : Result := perform (fwTrialEnd key) s

/-- FW_CONFIRM (R505). Instances of a kind that passed their check become CONFIRMED. -/
def execFwConfirm (kind : Nat) (s : State) : Result := perform (fwConfirm kind) s

/-- FW_REVERT (R505). A CONFIRMED instance switches back to its other VALID slot. -/
def execFwRevert (v : Nat) (s : State) : Result := perform (fwRevert v) s

/-- CLAPPER_ARM (R513). A write of ClapperAt or TEL_CLAPPER_AT arms, replaces or disarms the clapper. -/
def execClapperArm (v : Nat) (s : State) : Result := perform (clapperArm v) s

/-- CLAPPER_FIRE (R513). At the armed fabric time every counter is latched into a shadow bank in one tick. -/
def execClapperFire (s : State) : Result := perform clapperFire s

/-- DAILY_RECORD (R516). At each DailiesPeriodMs boundary a daily record is latched, kept and exported. -/
def execDailyRecord (s : State) : Result := perform dailyRecord s

/-- REGULATOR_CALIBRATION (R511). Every 10 s a core-rail phase is calibrated while the spare phase carries its share. -/
def execRegulatorCalibration (region phase : Nat) (s : State) : Result :=
  performOn (isRegion region) (regulatorCalibration region phase) s

/-- EYE_SCAN (R511). Every 60 s a spare lane's eye is scanned. -/
def execEyeScan (g : Nat) (tx : Bool) (height width : Nat) (s : State) : Result :=
  performOn (isGroup g) (eyeScan g tx height width) s

end Sys2Proof.Machine
end

