-- ==== Sys2Proof/Machine/Streams.lean ====
section
/-! DEFINITION. Meanings of the commands about partitions, contexts, streams and instances. -/
namespace Sys2Proof.Machine

/-- DESCRIPTOR_FETCH (R315). An engine fetches the next command descriptor of a stream and checks its context generation,
discarding it if the check fails or the fetch reads poisoned. -/
def execDescriptorFetch (p ctx e : Nat) (s : State) : Result :=
  performOn (isPart p && isCtx ctx && isEngine e) (descriptorFetch p ctx e) s

/-- CUE_WRITE_SEEN (R318). An engine sees a write to a cue word and re-evaluates the CueWait of its head descriptors for
eligibility. -/
def execCueWriteSeen (e addr : Nat) (s : State) : Result := performOn (isEngine e) (cueWriteSeen e addr) s

/-- UNIT_COMPLETE (R320). A unit of an engine ends, and at the unit boundary the engine chooses its next unit among
eligible and part-way commands by class, age and weighted round robin. -/
def execUnitComplete (e : Nat) (encoder : Bool) (fails : List (Nat × Nat × Nat)) (s : State) : Result :=
  performOn (isEngine e && (!encoder || decide (128 ≤ e))) (unitComplete (if encoder then e + 256 else e) fails) s

/-- PARTITION_START (R308). A STOPPED partition moves to STARTING and the Director reads its tables and parameters. -/
def execPartitionStart (p : Nat) (s : State) : Result := performOn (isPart p) (partitionControl p 1) s

/-- PARTITION_RUNNING (R308). A STARTING partition completes its reads and becomes RUNNING. -/
def execPartitionRunning (p : Nat) (s : State) : Result := performOn (isPart p) (partitionRunning p) s

/-- PARTITION_STOP (R308). A RUNNING partition stops its instance and tears down every context. -/
def execPartitionStop (p : Nat) (s : State) : Result :=
  performOn (isPart p) (do
    partitionControl p 2
    afterStep) s

/-- CTX_OPEN (R326). A FREE context becomes OPEN with a generation, or the open is held until it is FREE. -/
def execCtxOpen (p : Nat) (s : State) : Result := performOn (isPart p) (ctlRow p 1) s

/-- CTX_TEARDOWN (R328). An OPEN context is fenced and its unstarted and saved commands dropped. -/
def execCtxTeardown (p : Nat) (s : State) : Result := performOn (isPart p) (ctlRow p 2) s

/-- CONTEXT_DRAINED (R328). A fenced context's drain completes on every engine, raising ContextDrained and entering
QUARANTINE. -/
def execContextDrained (p ctx : Nat) (s : State) : Result := performOn (isPart p && isCtx ctx) (contextDrained p ctx) s

/-- CONTEXT_FREE (R324). 2 ms after quarantine begins the context becomes FREE and held opens take effect. -/
def execContextFree (p ctx : Nat) (s : State) : Result := performOn (isPart p && isCtx ctx) (contextFree p ctx) s

/-- STREAM_BIND (R327). A ring is bound to an engine as a stream, or held until a stream slot frees. -/
def execStreamBind (p : Nat) (s : State) : Result := performOn (isPart p) (ctlRow p 3) s

/-- STREAM_UNBIND (R327). Fetching from a stream stops and unstarted commands are dropped. -/
def execStreamUnbind (p : Nat) (s : State) : Result := performOn (isPart p) (ctlRow p 4) s

/-- CTX_PREEMPT (R331). A context stops being eligible on the named engines and waiting commands are saved. -/
def execCtxPreempt (p : Nat) (s : State) : Result := performOn (isPart p) (ctlRow p 5) s

/-- CTX_RESUME (R331). A preempted context becomes eligible again on the named engines. -/
def execCtxResume (p : Nat) (s : State) : Result := performOn (isPart p) (ctlRow p 6) s

/-- INSTANCE_START (R197). InstanceControl START begins serving, with admission over Kwanex. -/
def execInstanceStart (p : Nat) (s : State) : Result := performOn (isPart p) (instanceControl p 1) s

/-- INSTANCE_START_ACK (R366). The lead checks a follower's start acknowledgement and admits it or raises AdmitRefused. -/
def execInstanceStartAck (p : Nat) (ack : StartAck) (s : State) : Result :=
  performOn (isPart p) (instanceStartAck p ack) s

/-- INSTANCE_DRAIN (R199). The lead admits no further SUBMITs and stops the instance when no live sequence remains. -/
def execInstanceDrain (p : Nat) (s : State) : Result :=
  performOn (isPart p) (do
    instanceControl p 2
    afterStep) s

/-- INSTANCE_STOP (R199). The lead retires every live sequence at the next COMMIT with CANCELLED and stops the instance.
-/
def execInstanceStop (p : Nat) (s : State) : Result :=
  performOn (isPart p) (do
    instanceControl p 3
    afterStep) s

end Sys2Proof.Machine
end

