-- ==== Sys2Proof/Machine/Units.lean ====
section
/-! DEFINITION. Meanings of the commands about blocks, stacks, lofts, the vault, storyboards and codec tables. -/
namespace Sys2Proof.Machine

/-- LOFT_FETCH_TIMEOUT (R91). A loft fetch not granted within 20 us is abandoned and reissued, and three in a row report
the block failed. -/
def execLoftFetchTimeout (e : Nat) (s : State) : Result := performOn (isBlock e) (loftFetchTimeout e) s

/-- SPARE_CELL_JOIN (R92). At the next pass boundary after a cell failure the spare cell takes the failed cell's logical
number. -/
def execSpareCellJoin (e : Nat) (s : State) : Result := performOn (isBlock e) (spareCellJoin e) s

/-- BLOCK_FAILURE (R21). A region receives a block failure report and swaps in its spare block within 10 us, rerunning
unwritten and claimed passes. -/
def execBlockFailure (e : Nat) (claimed : List Nat) (s : State) : Result :=
  performOn (isBlock e) (blockFailure e claimed) s

/-- CELL_LOAN (R94). A block that cannot start a pass for 40 us lends an idle cell to the in-service test. -/
def execCellLoan (e cell : Nat) (idle : IdleSpan) (s : State) : Result :=
  performOn (isBlock e && decide (cell < 16)) (cellLoan e cell idle.ns idle.used idle.cycles) s

/-- IST_SLICE_COMPLETE (R418). An in-service test slice ends and its result signature is compared with the factory value.
-/
def execIstSliceComplete (kind e sub slice signature : Nat) (cut : Bool) (s : State) : Result :=
  performOn (testable kind e sub) (istSlice kind e sub slice signature cut) s

/-- IST_ROTATION (R419). An active cell or attention core nearing IstPeriod untested hands its logical number to the
spare, or becomes overdue. -/
def execIstRotation (kind e sub : Nat) (s : State) : Result := performOn (testable kind e sub) (istRotation kind e sub) s

/-- LOFT_REFETCH (R107). A relay fetches again an uncorrectable loft codeword written by the current storyboard run,
poisoning only on a second failure. -/
def execLoftRefetch (p addr : Nat) (s : State) : Result := performOn (isPart p) (loftRefetch p addr) s

/-- SCRUB_READ (R417). The patrol scrubber reads a stack or loft codeword, corrects and writes it back, or records an
uncorrectable codeword and starts a restore. -/
def execScrubRead (addr : Nat) (errs : List (Nat × Nat)) (s : State) : Result := perform (scrubRead addr errs) s

/-- DIE_SPARE_START (R111). Die sparing of a stack die starts, mirroring writes and copying the die to the spare chunk by
chunk. -/
def execDieSpareStart (stack die : Nat) (s : State) : Result := performOn (isDie stack die) (dieSpareStart stack die) s

/-- DIE_SPARE_SWITCH (R111). After the last chunk is copied the base die switches both channels to the spare and powers
off the old die. -/
def execDieSpareSwitch (stack : Nat) (s : State) : Result := performOn (isStack stack) (dieSpareSwitch stack) s

/-- DIE_FAILURE (R112). A die fails without warning, and the Director spares it and restores vault-backed placements
overlapping it. -/
def execDieFailure (stack die : Nat) (s : State) : Result := performOn (isDie stack die) (dieFailure stack die) s

/-- WEIGHT_RESTORE (R112). A restore of a vault-backed range into a stack completes and its reads are no longer poisoned.
-/
def execWeightRestore (addr bytes : Nat) (s : State) : Result := perform (weightRestore addr bytes) s

/-- VAULT_LOAD (R118). A write of a load-list address to VaultLoad starts a vault load, waiting while its partition
serves. -/
def execVaultLoad (value : Nat) (s : State) : Result := perform (vaultLoadStart value) s

/-- VAULT_LOAD_RUN (R118). Once the target partition has no serving instance, the load clears VaultAreaValid and starts
copying entries. -/
def execVaultLoadRun (s : State) : Result := perform vaultRun s

/-- VAULT_LOAD_ENTRY (R118). A load entry's copy and read-back complete, its CRC is compared, and it is retried, failed or
the next entry started. -/
def execVaultLoadEntry (good : Bool) (s : State) : Result :=
  perform (do
    vaultEntry good
    releaseInstStarts
    fwGo) s

/-- PLACEMENT_RELOAD (R124). The Director reads a partition's placement table again, effective at the next PLAN. -/
def execPlacementReload (p : Nat) (s : State) : Result := performOn (isPart p) (placementReload p) s

/-- STORYBOARD_ENTRY_START (R126). A relay engine starts a storyboard entry whose layer and routing condition holds and
for which an in-flight place is free. -/
def execStoryboardEntryStart (p entry : Nat) (s : State) : Result := performOn (isPart p) (storyStart p entry) s

/-- STORYBOARD_ENTRY_END (R128). A storyboard entry's last byte becomes visible and its cue advances. -/
def execStoryboardEntryEnd (p entry : Nat) (s : State) : Result := performOn (isPart p) (storyEnd p entry) s

/-- TABLE_LOAD_COMPLETE (R155). A loading slot becomes LOADED in all units at one MeshClk boundary and the load's cue
advances. -/
def execTableLoadComplete (slot : Nat) (s : State) : Result := performOn (isSlot slot) (loadComplete slot) s

/-- TABLE_SLOT_EMPTY (R154). A RETIRING slot whose references reach 0 becomes EMPTY and any pending load starts. -/
def execTableSlotEmpty (slot : Nat) (s : State) : Result := performOn (isSlot slot) (slotDrained slot) s

end Sys2Proof.Machine
end

