-- ==== Sys2Proof/Machine/Dispatch.lean ====
section
/-! DEFINITION. Every command with its meaning. -/
namespace Sys2Proof.Machine

def exec (i : Instr) (s : State) : Host.Outcome State Fault Refusal :=
  match i with
  | .nop e src => Sys2Proof.Machine.execNop e src s
  | .descriptorFetch p ctx e => Sys2Proof.Machine.execDescriptorFetch p ctx e s
  | .cueWriteSeen e addr => Sys2Proof.Machine.execCueWriteSeen e addr s
  | .unitComplete e encoder fails => Sys2Proof.Machine.execUnitComplete e encoder fails s
  | .matmul e src => Sys2Proof.Machine.execMatmul e src s
  | .matmulList e src => Sys2Proof.Machine.execMatmulList e src s
  | .matmulPadded e src => Sys2Proof.Machine.execMatmulPadded e src s
  | .vecRmsnorm e src => Sys2Proof.Machine.execVecRmsnorm e src s
  | .vecSilu e src => Sys2Proof.Machine.execVecSilu e src s
  | .vecGelu e src => Sys2Proof.Machine.execVecGelu e src s
  | .vecGluSilu e src => Sys2Proof.Machine.execVecGluSilu e src s
  | .vecAdd e src => Sys2Proof.Machine.execVecAdd e src s
  | .vecScale e src => Sys2Proof.Machine.execVecScale e src s
  | .sample e src => Sys2Proof.Machine.execSample e src s
  | .loftFetchTimeout e => Sys2Proof.Machine.execLoftFetchTimeout e s
  | .spareCellJoin e => Sys2Proof.Machine.execSpareCellJoin e s
  | .blockFailure e claimed => Sys2Proof.Machine.execBlockFailure e claimed s
  | .cellLoan e cell idle => Sys2Proof.Machine.execCellLoan e cell idle s
  | .istSliceComplete kind e sub slice signature cut => Sys2Proof.Machine.execIstSliceComplete kind e sub slice signature cut s
  | .istRotation kind e sub => Sys2Proof.Machine.execIstRotation kind e sub s
  | .loftRefetch p addr => Sys2Proof.Machine.execLoftRefetch p addr s
  | .scrubRead addr errs => Sys2Proof.Machine.execScrubRead addr errs s
  | .dieSpareStart stack die => Sys2Proof.Machine.execDieSpareStart stack die s
  | .dieSpareSwitch stack => Sys2Proof.Machine.execDieSpareSwitch stack s
  | .dieFailure stack die => Sys2Proof.Machine.execDieFailure stack die s
  | .weightRestore addr bytes => Sys2Proof.Machine.execWeightRestore addr bytes s
  | .vaultLoad value => Sys2Proof.Machine.execVaultLoad value s
  | .vaultLoadRun => Sys2Proof.Machine.execVaultLoadRun s
  | .vaultLoadEntry good => Sys2Proof.Machine.execVaultLoadEntry good s
  | .placementReload p => Sys2Proof.Machine.execPlacementReload p s
  | .storyboardEntryStart p entry => Sys2Proof.Machine.execStoryboardEntryStart p entry s
  | .storyboardEntryEnd p entry => Sys2Proof.Machine.execStoryboardEntryEnd p entry s
  | .decode e src => Sys2Proof.Machine.execDecode e src s
  | .encode e src => Sys2Proof.Machine.execEncode e src s
  | .tableLoad e src => Sys2Proof.Machine.execTableLoad e src s
  | .tableLoadComplete slot => Sys2Proof.Machine.execTableLoadComplete slot s
  | .tableRetire e src => Sys2Proof.Machine.execTableRetire e src s
  | .tableSlotEmpty slot => Sys2Proof.Machine.execTableSlotEmpty slot s
  | .tableSave e src => Sys2Proof.Machine.execTableSave e src s
  | .attend e src => Sys2Proof.Machine.execAttend e src s
  | .attnFeed e src => Sys2Proof.Machine.execAttnFeed e src s
  | .attnReturn e src => Sys2Proof.Machine.execAttnReturn e src s
  | .attnMerge e src => Sys2Proof.Machine.execAttnMerge e src s
  | .attnBatchReceived b => Sys2Proof.Machine.execAttnBatchReceived b s
  | .plan p story => Sys2Proof.Machine.execPlan p story s
  | .callSheetReceived p sheet => Sys2Proof.Machine.execCallSheetReceived p sheet s
  | .runStart p => Sys2Proof.Machine.execRunStart p s
  | .runReport p report => Sys2Proof.Machine.execRunReport p report s
  | .normWord p msg => Sys2Proof.Machine.execNormWord p msg s
  | .commit p => Sys2Proof.Machine.execCommit p s
  | .stepAbandon p => Sys2Proof.Machine.execStepAbandon p s
  | .commitApply p msg => Sys2Proof.Machine.execCommitApply p msg s
  | .submit p => Sys2Proof.Machine.execSubmit p s
  | .cancel p => Sys2Proof.Machine.execCancel p s
  | .park p => Sys2Proof.Machine.execPark p s
  | .unpark p => Sys2Proof.Machine.execUnpark p s
  | .take p slate tokenAddr => Sys2Proof.Machine.execTake p slate tokenAddr s
  | .attach p => Sys2Proof.Machine.execAttach p s
  | .copyOnWrite p => Sys2Proof.Machine.execCopyOnWrite p s
  | .insert p => Sys2Proof.Machine.execInsert p s
  | .evict p => Sys2Proof.Machine.execEvict p s
  | .parkEntry p => Sys2Proof.Machine.execParkEntry p s
  | .unparkEntry p => Sys2Proof.Machine.execUnparkEntry p s
  | .route e src => Sys2Proof.Machine.execRoute e src s
  | .buildLists e src templates => Sys2Proof.Machine.execBuildLists e src templates s
  | .expDispatch e src rowBases => Sys2Proof.Machine.execExpDispatch e src rowBases s
  | .expertBatchReceived b => Sys2Proof.Machine.execExpertBatchReceived b s
  | .expGather e src => Sys2Proof.Machine.execExpGather e src s
  | .expReturn e src => Sys2Proof.Machine.execExpReturn e src s
  | .expCombine e src => Sys2Proof.Machine.execExpCombine e src s
  | .normDecision p => Sys2Proof.Machine.execNormDecision p s
  | .fallbackVerdict p => Sys2Proof.Machine.execFallbackVerdict p s
  | .normProfileSave p => Sys2Proof.Machine.execNormProfileSave p s
  | .partitionStart p => Sys2Proof.Machine.execPartitionStart p s
  | .partitionRunning p => Sys2Proof.Machine.execPartitionRunning p s
  | .partitionStop p => Sys2Proof.Machine.execPartitionStop p s
  | .ctxOpen p => Sys2Proof.Machine.execCtxOpen p s
  | .ctxTeardown p => Sys2Proof.Machine.execCtxTeardown p s
  | .contextDrained p ctx => Sys2Proof.Machine.execContextDrained p ctx s
  | .contextFree p ctx => Sys2Proof.Machine.execContextFree p ctx s
  | .streamBind p => Sys2Proof.Machine.execStreamBind p s
  | .streamUnbind p => Sys2Proof.Machine.execStreamUnbind p s
  | .ctxPreempt p => Sys2Proof.Machine.execCtxPreempt p s
  | .ctxResume p => Sys2Proof.Machine.execCtxResume p s
  | .instanceStart p => Sys2Proof.Machine.execInstanceStart p s
  | .instanceStartAck p ack => Sys2Proof.Machine.execInstanceStartAck p ack s
  | .instanceDrain p => Sys2Proof.Machine.execInstanceDrain p s
  | .instanceStop p => Sys2Proof.Machine.execInstanceStop p s
  | .dataFlit g errs bytes => Sys2Proof.Machine.execDataFlit g errs bytes s
  | .controlFlit g errs bytes => Sys2Proof.Machine.execControlFlit g errs bytes s
  | .ackProgressTimeout g => Sys2Proof.Machine.execAckProgressTimeout g s
  | .retrainDone g ok => Sys2Proof.Machine.execRetrainDone g ok s
  | .groupTrained g ok => Sys2Proof.Machine.execGroupTrained g ok s
  | .laneErrorDetect g lane ber lockLost => Sys2Proof.Machine.execLaneErrorDetect g lane ber lockLost s
  | .laneSpareStart v => Sys2Proof.Machine.execLaneSpareStart v s
  | .linkRestore g => Sys2Proof.Machine.execLinkRestore g s
  | .linkPlanApply => Sys2Proof.Machine.execLinkPlanApply s
  | .identitySend g => Sys2Proof.Machine.execIdentitySend g s
  | .identityRecord g r => Sys2Proof.Machine.execIdentityRecord g r s
  | .writePacket chan header data => Sys2Proof.Machine.execWritePacket chan header data s
  | .collectivePacket chan header data => Sys2Proof.Machine.execCollectivePacket chan header data s
  | .ackPacket chan header => Sys2Proof.Machine.execAckPacket chan header s
  | .abortPacket chan header => Sys2Proof.Machine.execAbortPacket chan header s
  | .transferAckTimeout node tag => Sys2Proof.Machine.execTransferAckTimeout node tag s
  | .planes node mask => Sys2Proof.Machine.execPlanes node mask s
  | .link node mask => Sys2Proof.Machine.execLink node mask s
  | .fenced node => Sys2Proof.Machine.execFenced node s
  | .reset node => Sys2Proof.Machine.execReset node s
  | .removed node => Sys2Proof.Machine.execRemoved node s
  | .peerLost node => Sys2Proof.Machine.execPeerLost node s
  | .shape p mask epoch assign => Sys2Proof.Machine.execShape p mask epoch assign s
  | .capacity node mask => Sys2Proof.Machine.execCapacity node mask s
  | .pathLoss node => Sys2Proof.Machine.execPathLoss node s
  | .substituteTimeout p => Sys2Proof.Machine.execSubstituteTimeout p s
  | .rankReady p r => Sys2Proof.Machine.execRankReady p r s
  | .timeHoldover => Sys2Proof.Machine.execTimeHoldover s
  | .ptpMessage port domain m => Sys2Proof.Machine.execPtpMessage port domain m s
  | .copy e src => Sys2Proof.Machine.execCopy e src s
  | .allReduce e src => Sys2Proof.Machine.execAllReduce e src s
  | .reduceScatter e src => Sys2Proof.Machine.execReduceScatter e src s
  | .allGather e src => Sys2Proof.Machine.execAllGather e src s
  | .broadcast e src => Sys2Proof.Machine.execBroadcast e src s
  | .allToAll e src => Sys2Proof.Machine.execAllToAll e src s
  | .rdmaWrite e src => Sys2Proof.Machine.execRdmaWrite e src s
  | .rdmaRead e src => Sys2Proof.Machine.execRdmaRead e src s
  | .incomingRdmaWrite r => Sys2Proof.Machine.execIncomingRdmaWrite r s
  | .incomingRdmaRead r => Sys2Proof.Machine.execIncomingRdmaRead r s
  | .roceAck port qpn psn nak => Sys2Proof.Machine.execRoceAck port qpn psn nak s
  | .roceTimeout port qp => Sys2Proof.Machine.execRoceTimeout port qp s
  | .cnp port qpn => Sys2Proof.Machine.execCnp port qpn s
  | .roceRateRaise port qp => Sys2Proof.Machine.execRoceRateRaise port qp s
  | .roceQpReload v => Sys2Proof.Machine.execRoceQpReload v s
  | .roceKeyReload key => Sys2Proof.Machine.execRoceKeyReload key s
  | .networkFrame port f => Sys2Proof.Machine.execNetworkFrame port f s
  | .ethLinkChange port up => Sys2Proof.Machine.execEthLinkChange port up s
  | .prechargeEntry straps => Sys2Proof.Machine.execPrechargeEntry straps s
  | .prechargeComplete bulk input => Sys2Proof.Machine.execPrechargeComplete bulk input s
  | .prechargeFail bulk input => Sys2Proof.Machine.execPrechargeFail bulk input s
  | .prechargeRetry => Sys2Proof.Machine.execPrechargeRetry s
  | .presNRelease gap => Sys2Proof.Machine.execPresNRelease gap s
  | .inputUndervoltage mv => Sys2Proof.Machine.execInputUndervoltage mv s
  | .inputOvervoltage mv => Sys2Proof.Machine.execInputOvervoltage mv s
  | .inputRestart mv => Sys2Proof.Machine.execInputRestart mv s
  | .supplySag mv => Sys2Proof.Machine.execSupplySag mv s
  | .derateN => Sys2Proof.Machine.execDerateN s
  | .supplyLimitClear => Sys2Proof.Machine.execSupplyLimitClear s
  | .holdUpExhausted => Sys2Proof.Machine.execHoldUpExhausted s
  | .powerUnitFailure sign region unit => Sys2Proof.Machine.execPowerUnitFailure sign region unit s
  | .governorPeriod avg mv draw => Sys2Proof.Machine.execGovernorPeriod avg mv draw s
  | .fastPath => Sys2Proof.Machine.execFastPath s
  | .fastPathStep avg stretch duty => Sys2Proof.Machine.execFastPathStep avg stretch duty s
  | .opStep => Sys2Proof.Machine.execOpStep s
  | .leaseCommit v => Sys2Proof.Machine.execLeaseCommit v s
  | .leaseExpiry => Sys2Proof.Machine.execLeaseExpiry s
  | .thermalCompare hottest avg sensor => Sys2Proof.Machine.execThermalCompare hottest avg sensor s
  | .thermalTrip sensor raw => Sys2Proof.Machine.execThermalTrip sensor raw s
  | .coolantSample flow inlet outlet => Sys2Proof.Machine.execCoolantSample flow inlet outlet s
  | .droop region => Sys2Proof.Machine.execDroop region s
  | .droopRelease region => Sys2Proof.Machine.execDroopRelease region s
  | .rampSlot region classes => Sys2Proof.Machine.execRampSlot region classes s
  | .energyWindow avg => Sys2Proof.Machine.execEnergyWindow avg s
  | .tradeWindowEnd window => Sys2Proof.Machine.execTradeWindowEnd window s
  | .tradeReport r => Sys2Proof.Machine.execTradeReport r s
  | .tradeToken node give watts => Sys2Proof.Machine.execTradeToken node give watts s
  | .watchdogExpiry e core lost => Sys2Proof.Machine.execWatchdogExpiry e core lost s
  | .heartbeatMiss core miss => Sys2Proof.Machine.execHeartbeatMiss core miss s
  | .remoteWaitExpiry e p ctx => Sys2Proof.Machine.execRemoteWaitExpiry e p ctx s
  | .meshTimeout e target lost => Sys2Proof.Machine.execMeshTimeout e target lost s
  | .engineReset e lost => Sys2Proof.Machine.execEngineReset e lost s
  | .engineResetEnd e => Sys2Proof.Machine.execEngineResetEnd e s
  | .resetOverrun r => Sys2Proof.Machine.execResetOverrun r s
  | .enterFenced => Sys2Proof.Machine.execEnterFenced s
  | .dumpStart => Sys2Proof.Machine.execDumpStart s
  | .dumpComplete late => Sys2Proof.Machine.execDumpComplete late s
  | .faultLogCommit => Sys2Proof.Machine.execFaultLogCommit s
  | .unitRestore v pass => Sys2Proof.Machine.execUnitRestore v pass s
  | .refclkLoss => Sys2Proof.Machine.execRefclkLoss s
  | .read path src p => Sys2Proof.Machine.execRead path src p s
  | .write path src p => Sys2Proof.Machine.execWrite path src p s
  | .describe path src p => Sys2Proof.Machine.execDescribe path src p s
  | .list path src p => Sys2Proof.Machine.execList path src p s
  | .blobRead path src p => Sys2Proof.Machine.execBlobRead path src p s
  | .blobWrite path src p => Sys2Proof.Machine.execBlobWrite path src p s
  | .blobTransferTimeout id => Sys2Proof.Machine.execBlobTransferTimeout id s
  | .challenge path src p => Sys2Proof.Machine.execChallenge path src p s
  | .login path src p => Sys2Proof.Machine.execLogin path src p s
  | .loginTimeout id => Sys2Proof.Machine.execLoginTimeout id s
  | .logout path src p => Sys2Proof.Machine.execLogout path src p s
  | .sessionIdleTimeout id => Sys2Proof.Machine.execSessionIdleTimeout id s
  | .sessionClose id => Sys2Proof.Machine.execSessionClose id s
  | .subscribe path src p => Sys2Proof.Machine.execSubscribe path src p s
  | .unsubscribe path src p => Sys2Proof.Machine.execUnsubscribe path src p s
  | .eventAck path src p => Sys2Proof.Machine.execEventAck path src p s
  | .eventResend slot => Sys2Proof.Machine.execEventResend slot s
  | .discover path src p => Sys2Proof.Machine.execDiscover path src p s
  | .persistCommit => Sys2Proof.Machine.execPersistCommit s
  | .restoreDefaults => Sys2Proof.Machine.execRestoreDefaults s
  | .userCalReset => Sys2Proof.Machine.execUserCalReset s
  | .hpMbxDoorbell h part v => Sys2Proof.Machine.execHpMbxDoorbell h part v s
  | .hpMbxEvtAck h part v => Sys2Proof.Machine.execHpMbxEvtAck h part v s
  | .registerWrite h off data => Sys2Proof.Machine.execRegisterWrite h off data s
  | .lowHalfRead h r => Sys2Proof.Machine.execLowHalfRead h r s
  | .highHalfRead h off => Sys2Proof.Machine.execHighHalfRead h off s
  | .dirReqDoorbell h p part v => Sys2Proof.Machine.execDirReqDoorbell h p part v s
  | .dirCancelDoorbell h p part v => Sys2Proof.Machine.execDirCancelDoorbell h p part v s
  | .dirCplDoorbell h p part v => Sys2Proof.Machine.execDirCplDoorbell h p part v s
  | .dirCmdDoorbell h p part v => Sys2Proof.Machine.execDirCmdDoorbell h p part v s
  | .dirCtlDoorbell h p part v => Sys2Proof.Machine.execDirCtlDoorbell h p part v s
  | .pwrCapReq h part v => Sys2Proof.Machine.execPwrCapReq h part v s
  | .fltPending h part v => Sys2Proof.Machine.execFltPending h part v s
  | .bar2Read h off n => Sys2Proof.Machine.execBar2Read h off n s
  | .bar2Write h off data poisoned => Sys2Proof.Machine.execBar2Write h off data poisoned s
  | .atomicOp h off size op a b => Sys2Proof.Machine.execAtomicOp h off size op a b s
  | .hostReadCompletion h addr data poisoned => Sys2Proof.Machine.execHostReadCompletion h addr data poisoned s
  | .completionTimeout h addr => Sys2Proof.Machine.execCompletionTimeout h addr s
  | .surpriseDown h => Sys2Proof.Machine.execSurpriseDown h s
  | .hostLinkUp h width rate flit cxl again => Sys2Proof.Machine.execHostLinkUp h width rate flit cxl again s
  | .functionLevelReset h => Sys2Proof.Machine.execFunctionLevelReset h s
  | .perstN h low => Sys2Proof.Machine.execPerstN h low s
  | .bootDone sealA sealB => Sys2Proof.Machine.execBootDone sealA sealB s
  | .selftestDone failed => Sys2Proof.Machine.execSelftestDone failed s
  | .trainingEnd => Sys2Proof.Machine.execTrainingEnd s
  | .moduleDrain => Sys2Proof.Machine.execModuleDrain s
  | .drainTimeout => Sys2Proof.Machine.execDrainTimeout s
  | .drainComplete => Sys2Proof.Machine.execDrainComplete s
  | .restart => Sys2Proof.Machine.execRestart s
  | .restartKeep => Sys2Proof.Machine.execRestartKeep s
  | .safeRelease hottest => Sys2Proof.Machine.execSafeRelease hottest s
  | .standby => Sys2Proof.Machine.execStandby s
  | .wake => Sys2Proof.Machine.execWake s
  | .fwStage addr sigOk => Sys2Proof.Machine.execFwStage addr sigOk s
  | .fwStageDone ok => Sys2Proof.Machine.execFwStageDone ok s
  | .fwActivate v => Sys2Proof.Machine.execFwActivate v s
  | .fwHealthCheck key healthy => Sys2Proof.Machine.execFwHealthCheck key healthy s
  | .fwTrialEnd key => Sys2Proof.Machine.execFwTrialEnd key s
  | .fwConfirm kind => Sys2Proof.Machine.execFwConfirm kind s
  | .fwRevert v => Sys2Proof.Machine.execFwRevert v s
  | .clapperArm v => Sys2Proof.Machine.execClapperArm v s
  | .clapperFire => Sys2Proof.Machine.execClapperFire s
  | .dailyRecord => Sys2Proof.Machine.execDailyRecord s
  | .regulatorCalibration region phase => Sys2Proof.Machine.execRegulatorCalibration region phase s
  | .eyeScan g tx height width => Sys2Proof.Machine.execEyeScan g tx height width s
  | .refclkReturn => Sys2Proof.Machine.execRefclkReturn s
  | .derateNDeassert => Sys2Proof.Machine.execDerateNDeassert s
  | .groupLossOfLock g => Sys2Proof.Machine.execGroupLossOfLock g s
  | .roceReadResponse port qpn psn data => Sys2Proof.Machine.execRoceReadResponse port qpn psn data s
  | .configurationWrite h w => Sys2Proof.Machine.execConfigurationWrite h w s
  | .bridgeFlitError bridge flit => Sys2Proof.Machine.execBridgeFlitError bridge flit s
  | .pfcFrame port priority quanta => Sys2Proof.Machine.execPfcFrame port priority quanta s

end Sys2Proof.Machine
end

