-- ==== Sys2Proof/Safety.lean ====
section
/-! DEFINITION. What the statements call a state in order, and the pieces of a state that a command leaves alone. -/
namespace Sys2Proof.Machine

/-- The canonical form of memory: addresses rise, and no entry is the 0 that an unlisted byte reads as. -/
def Memory.wf (m : List Host.Cell) : Bool := canonC (fun _ => 0) m

/-- What holds of every state a run passes through: memory is in its canonical form; the fault log holds at most its 4,096
records (R405); bits [63:6] of FLT_PENDING read 0 (R471). -/
def State.Inv (s : State) : Prop := Memory.wf s.mem = true ∧ s.faultLog.length ≤ 4096 ∧ s.fltPending < 64

/-- The pieces of the state, by name. -/
inductive Piece where
  | pending | now | mode | mem | poison | ueFull | params | eff | ctxs | streams | heldCtl | places | placesNext
  | engines | phys | rel | win | retired | dieCopies | restores | vaultLoad | slots | codecRefs | codecUnit | stories
  | faultLog | flashLog | flashDue | subs | hostPorts | kvScales | kvBad | frames | reels | reelImage | doors | insts | nodes
  | drain | fltPending | dead | tests | overdue | meshHits | engineDumps | dumps | dumpRun | dumpSummary | links | xfers
  | xferWait | oldTags | rxXfers | rxDone | arrivals | planes | gone | heard | spray | peers | clock | power | life
  | elo | eth | hostReads | bridges | out | freeIx | ecc
deriving DecidableEq, Repr

/-- Every piece but the named ones. -/
def Piece.allBut (l : List Piece) : List Piece :=
  let a : List Piece := [.pending, .now, .mode, .mem, .poison, .ueFull, .params, .eff, .ctxs, .streams, .heldCtl, .places, .placesNext,
    .engines, .phys, .rel, .win, .retired, .dieCopies, .restores, .vaultLoad, .slots, .codecRefs, .codecUnit, .stories]
  let b : List Piece := [.faultLog, .flashLog, .flashDue, .subs, .hostPorts, .kvScales, .kvBad, .frames, .reels, .reelImage, .doors, .insts, .nodes,
    .drain, .fltPending, .dead, .tests, .overdue, .meshHits, .engineDumps, .dumps, .dumpRun, .dumpSummary, .links, .xfers]
  let c : List Piece := [.xferWait, .oldTags, .rxXfers, .rxDone, .arrivals, .planes, .gone, .heard, .spray, .peers, .clock, .power, .life,
    .elo, .eth, .hostReads, .bridges, .out, .freeIx, .ecc]
  (a ++ b ++ c).filter fun x => !l.contains x

/-- The state with the named pieces as they are after reset. -/
def State.without (l : List Piece) (s : State) : State :=
  { pending := if l.contains .pending then State.reset.pending else s.pending,
    now := if l.contains .now then State.reset.now else s.now,
    mode := if l.contains .mode then State.reset.mode else s.mode,
    mem := if l.contains .mem then State.reset.mem else s.mem,
    poison := if l.contains .poison then State.reset.poison else s.poison,
    ecc := if l.contains .ecc then State.reset.ecc else s.ecc,
    ueFull := if l.contains .ueFull then State.reset.ueFull else s.ueFull,
    params := if l.contains .params then State.reset.params else s.params,
    eff := if l.contains .eff then State.reset.eff else s.eff,
    ctxs := if l.contains .ctxs then State.reset.ctxs else s.ctxs,
    streams := if l.contains .streams then State.reset.streams else s.streams,
    heldCtl := if l.contains .heldCtl then State.reset.heldCtl else s.heldCtl,
    places := if l.contains .places then State.reset.places else s.places,
    placesNext := if l.contains .placesNext then State.reset.placesNext else s.placesNext,
    engines := if l.contains .engines then State.reset.engines else s.engines,
    phys := if l.contains .phys then State.reset.phys else s.phys,
    rel := if l.contains .rel then State.reset.rel else s.rel,
    win := if l.contains .win then State.reset.win else s.win,
    retired := if l.contains .retired then State.reset.retired else s.retired,
    dieCopies := if l.contains .dieCopies then State.reset.dieCopies else s.dieCopies,
    restores := if l.contains .restores then State.reset.restores else s.restores,
    vaultLoad := if l.contains .vaultLoad then State.reset.vaultLoad else s.vaultLoad,
    slots := if l.contains .slots then State.reset.slots else s.slots,
    codecRefs := if l.contains .codecRefs then State.reset.codecRefs else s.codecRefs,
    codecUnit := if l.contains .codecUnit then State.reset.codecUnit else s.codecUnit,
    stories := if l.contains .stories then State.reset.stories else s.stories,
    faultLog := if l.contains .faultLog then State.reset.faultLog else s.faultLog,
    flashLog := if l.contains .flashLog then State.reset.flashLog else s.flashLog,
    flashDue := if l.contains .flashDue then State.reset.flashDue else s.flashDue,
    subs := if l.contains .subs then State.reset.subs else s.subs,
    hostPorts := if l.contains .hostPorts then State.reset.hostPorts else s.hostPorts,
    kvScales := if l.contains .kvScales then State.reset.kvScales else s.kvScales,
    kvBad := if l.contains .kvBad then State.reset.kvBad else s.kvBad,
    frames := if l.contains .frames then State.reset.frames else s.frames,
    reels := if l.contains .reels then State.reset.reels else s.reels,
    reelImage := if l.contains .reelImage then State.reset.reelImage else s.reelImage,
    doors := if l.contains .doors then State.reset.doors else s.doors,
    insts := if l.contains .insts then State.reset.insts else s.insts,
    nodes := if l.contains .nodes then State.reset.nodes else s.nodes,
    drain := if l.contains .drain then State.reset.drain else s.drain,
    fltPending := if l.contains .fltPending then State.reset.fltPending else s.fltPending,
    dead := if l.contains .dead then State.reset.dead else s.dead,
    tests := if l.contains .tests then State.reset.tests else s.tests,
    overdue := if l.contains .overdue then State.reset.overdue else s.overdue,
    meshHits := if l.contains .meshHits then State.reset.meshHits else s.meshHits,
    engineDumps := if l.contains .engineDumps then State.reset.engineDumps else s.engineDumps,
    dumps := if l.contains .dumps then State.reset.dumps else s.dumps,
    dumpRun := if l.contains .dumpRun then State.reset.dumpRun else s.dumpRun,
    dumpSummary := if l.contains .dumpSummary then State.reset.dumpSummary else s.dumpSummary,
    links := if l.contains .links then State.reset.links else s.links,
    xfers := if l.contains .xfers then State.reset.xfers else s.xfers,
    xferWait := if l.contains .xferWait then State.reset.xferWait else s.xferWait,
    oldTags := if l.contains .oldTags then State.reset.oldTags else s.oldTags,
    rxXfers := if l.contains .rxXfers then State.reset.rxXfers else s.rxXfers,
    rxDone := if l.contains .rxDone then State.reset.rxDone else s.rxDone,
    arrivals := if l.contains .arrivals then State.reset.arrivals else s.arrivals,
    planes := if l.contains .planes then State.reset.planes else s.planes,
    gone := if l.contains .gone then State.reset.gone else s.gone,
    heard := if l.contains .heard then State.reset.heard else s.heard,
    spray := if l.contains .spray then State.reset.spray else s.spray,
    peers := if l.contains .peers then State.reset.peers else s.peers,
    clock := if l.contains .clock then State.reset.clock else s.clock,
    power := if l.contains .power then State.reset.power else s.power,
    life := if l.contains .life then State.reset.life else s.life,
    elo := if l.contains .elo then State.reset.elo else s.elo,
    eth := if l.contains .eth then State.reset.eth else s.eth,
    hostReads := if l.contains .hostReads then State.reset.hostReads else s.hostReads,
    bridges := if l.contains .bridges then State.reset.bridges else s.bridges,
    out := if l.contains .out then State.reset.out else s.out,
    freeIx := if l.contains .freeIx then State.reset.freeIx else s.freeIx }

/-- s and t differ in the named pieces of the state at most. -/
def SameBut (l : List Piece) (s t : State) : Prop := t.without l = s.without l

/-- A parameter whose access is not CMD (spec/00_scope.md, Dictionary parameters): a write of it starts no action. -/
def QuietKey (k : Nat) : Prop := ∀ r, dictFind (k / 256) (k % 256) = some r → r.acc ≠ .cmd

/-- A request body whose items (R444) name parameters of this kind only. -/
def QuietBody (body : List Nat) : Prop := ∀ l, parseItems 64 body = some l → ∀ i ∈ l, QuietKey (pk i.index i.sub)

/-- A read of n bytes at a meets no codeword with an error, correctable or not (R102, R103). -/
abbrev State.clean (s : State) (w : Who) (a n : Nat) : Prop := s.flawed w a n = [] ∧ s.badCodewords w a n = []

/-- The two copies of the sheet of a step, and of the reel places of its partition, hold no uncorrectable error (R411). -/
def State.copiesGood (s : State) (p n : Nat) : Prop :=
  let good := fun a b len => s.badCodewords .structures a len = [] ∧ s.badCodewords .structures b len = []
  good (s.sheetBuffer p n) (secondCopy (s.sheetBuffer p n)) (sheetBytes ((s.inst p).sheet n)).length ∧
    ∀ x ∈ s.reelImage, x.1 / 2 ^ 40 = p → good (s.reelAddr x.2.1) (s.reelCopy x.2.1) 64

/-- The command that an engine takes from a source, with the figures that its row names: one at the head of a stream, one that the
Director sends whole, or one that the Director forms for a layer of the running step (R198, R313). -/
def State.accepted (s : State) (e op : Nat) (src : CmdSource) (args : List Nat := []) : Option Cmd :=
  match src with
  | .stream p c => (s.taken e op (.stream p c)).map fun c => { c with args := args }
  | .director p d w => (s.takenIssued e op p d w none).map fun c => { c with args := args }
  | .layer p part l rest => (s.formed e op p part l rest).bind fun f =>
      (s.takenIssued e op p (s.formedDesc p op f) f.watch (some (part, l))).map fun c => { c with args := f.args ++ args }

/-- What a command of an engine leaves of its engine (R311, R313): the command runs and, where it occupies its engine, nothing runs there
any more, no tile is marked as failed, no pass of a list is held claimed and no cell is on loan; a command of a stream has been taken off
its stream. -/
def Released (c : Cmd) (r : Result) : Prop :=
  ∃ t, r = .next t ∧
    (c.off = false → (t.engine c.arm).running = none ∧ (t.engine c.arm).tiles = [] ∧ (t.engine c.arm).claims = [] ∧
      (t.engine c.arm).loan = none) ∧
    (c.serving = false → ∀ st, t.stream c.p c.ctx c.e = some st → st.head = none)

/-- t follows s through module-fatal handling (R429, R430) with record r. -/
def FencedBy (r : FaultRec) (s t : State) : Prop :=
  t.mode = .fenced ∧ t.par (pk 0x1008 0) = 8 ∧
    (∀ e, (t.engine e).running = none ∧ (t.engine e).going = none ∧ (t.engine e).resetting = none) ∧ t.elo.sessions = [] ∧
    t.dumpRun.isSome = true ∧ t.faultLog.getLast? = some ({ r with action := actFatal }.word s.now)

/-- The partition and context of the command that a reset of engine e drops: the running one's, else those of the command of the Director
that the reset loses (R422, R423). -/
def State.cmdAt (s : State) (e : Nat) (lost : Option (Nat × Nat)) : Nat × Nat :=
  match (s.engine e).running, lost with
  | some x, _ => (x.p, x.ctx)
  | none, some x => (x.1, s.servCtx x.1)
  | none, none => (0, 0)

/-- Module-fatal handling is taken. -/
def State.live (s : State) : Bool := [ModuleState.boot, .selftest, .training, .ready, .serving, .draining].contains s.mode

/-- A PDU that the module takes from its source: it is served whole, its frame is good, and no slot of the source has stopped. -/
def State.takes (s : State) (path src : Nat) (p : Pdu) : Prop :=
  isPath path src = true ∧ s.serves path src = 2 ∧ p.framed path = true ∧ (∀ u ∈ s.slotsOf path src, u.2.resends < 10)
/-- A request outside a session. -/
def State.observed (s : State) (path src : Nat) (p : Pdu) : Prop := s.takes path src p ∧ p.session = 0 ∧ p.tagged = false
/-- A new request of the open session x. -/
def State.inSession (s : State) (path src : Nat) (p : Pdu) (x : Session) : Prop :=
  s.takes path src p ∧ p.session ≠ 0 ∧ s.session p.session = some x ∧ x.path = path ∧ x.src = src ∧ x.isOpen = true ∧
    p.tagged = true ∧ p.tag = hmac x.key (p.header ++ p.body) ∧ x.seq < p.seq
/-- q goes out as a response (R441): to the mailbox of a host port that waits for one, or on its path. -/
def Answered (path src : Nat) (q : Pdu) (s t : State) : Prop :=
  t.par (pk 0x8053 1) = add64 (s.par (pk 0x8053 1)) 1 ∧ (path ≠ 2 → t.out = s.out ++ [.pdu path src q]) ∧
    (path = 2 → (s.hostPort src).mbxState = 1 → (t.hostPort src).rsp = putBytes (s.hostPort src).rsp 0 q.bytes ∧
      (t.hostPort src).rspLen = q.bytes.length ∧ (t.hostPort src).mbxState = 2)

/-- A group that was not mapped out becomes mapped out, for the reason given and with its record (R345). -/
def MappedOut (g reason : Nat) (s t : State) : Prop :=
  t.linkState g = 5 ∧ t.par (pk 0x4008 0) = s.par (pk 0x4008 0) + 2 ^ g ∧ t.par (pk 0x4009 (g + 1)) = reason ∧
    t.faultLog.getLast? = some (FaultRec.word ⟨0x0D, 3, ukLane, 0xFF, groupPhysical g 0, actRetired, 0, 0, 0, 1, 0, 0⟩ s.now)

/-- The changes of state that R493 lists. -/
def ModuleState.mayBecome : ModuleState → ModuleState → Bool
  | _, .off => true
  | .off, .precharge => true
  | .precharge, .boot => true
  | .boot, .selftest => true
  | .selftest, .training => true
  | .training, .ready => true
  | .ready, .serving => true
  | .serving, .ready => true
  | .ready, .draining => true
  | .serving, .draining => true
  | .draining, .removable => true
  | .boot, .fenced | .selftest, .fenced | .training, .fenced | .ready, .fenced | .serving, .fenced | .draining, .fenced => true
  | .boot, .safe | .selftest, .safe | .training, .safe | .ready, .safe | .serving, .safe | .draining, .safe | .fenced, .safe
  | .removable, .safe => true
  | .fenced, .boot | .safe, .boot | .removable, .boot | .ready, .boot => true
  | _, _ => false
/-- Changes that one command makes by way of a state between: a START held since TRAINING, and a request that carries several
commands. -/
def ModuleState.mayPass : ModuleState → ModuleState → Bool
  | .training, .serving => true
  | .serving, .boot => true
  | .removable, .fenced => true
  | _, _ => false
/-- The commands of engines that act for one partition. -/
def engineCommandsOf (e : Nat) (src : CmdSource) (templates rowBases : List Nat) : List Instr :=
  [.nop e src, .matmul e src, .matmulList e src, .matmulPadded e src, .vecRmsnorm e src, .vecSilu e src, .vecGelu e src, .vecGluSilu e src,
    .vecAdd e src, .vecScale e src, .sample e src, .decode e src, .tableRetire e src, .tableSave e src, .attend e src, .attnFeed e src,
    .attnReturn e src, .attnMerge e src, .route e src, .buildLists e src templates, .expDispatch e src rowBases, .expGather e src,
    .expReturn e src, .expCombine e src, .copy e src, .allReduce e src, .reduceScatter e src, .allGather e src, .broadcast e src,
    .allToAll e src, .rdmaWrite e src, .rdmaRead e src]

end Sys2Proof.Machine

namespace Sys2Proof

/-- The partition that an engine's command belongs to. -/
def CmdSource.part : CmdSource → Nat
  | .stream p _ => p
  | .director p _ _ => p
  | .layer p _ _ _ => p

end Sys2Proof
end

