-- ==== Sys2Proof/WellFormed.lean ====
section
/-! DEFINITION. Which commands are well formed: they name units that the module has, and their operands fit their fields. -/
namespace Sys2Proof

/-- Engine numbers of R310. -/
def wfEngine (e : Nat) : Bool := decide (e < 76) || (decide (80 ≤ e) && decide (e < 100)) || (decide (128 ≤ e) && decide (e < 192))
def wfBlock (e : Nat) : Bool := decide (e < 64)
def wfStackEngine (e : Nat) : Bool := decide (64 ≤ e) && decide (e < 76)
def wfRelay (e : Nat) : Bool := decide (80 ≤ e) && decide (e < 96)
def wfRouter (e : Nat) : Bool := decide (96 ≤ e) && decide (e < 100)
def wfCodec (e : Nat) : Bool := decide (128 ≤ e) && decide (e < 192)
def wfPart (p : Nat) : Bool := decide (p < 8)
def wfCtx (c : Nat) : Bool := decide (c < 256)
def wfStack (st : Nat) : Bool := decide (st < 12)
def wfDie (st d : Nat) : Bool := decide (st < 12) && decide (d < 16)
def wfSlot (i : Nat) : Bool := decide (i < 16)
def wfGroup (g : Nat) : Bool := decide (g < 24)
def wfChan (c : Nat) : Bool := decide (c < 3)
def wfNode (n : Nat) : Bool := decide (n < 65536)
def wfEth (port : Nat) : Bool := decide (port < 2)
def wfQp (port i : Nat) : Bool := decide (port < 2) && decide (i < 1024)
def wfRegion (r : Nat) : Bool := decide (r < 4)
def wfPort (h : Nat) : Bool := decide (h < 4)
/-- A path of R439 and R466, and for the mailbox a host port. -/
def wfPath (path src : Nat) : Bool := path == 1 || (path == 2 && decide (src < 4)) || path == 3
/-- A cell (UnitKind 0) or attention core (UnitKind 2), or with sub-unit 31 its spare; from 192 on a cell of a spare block. -/
def wfTestable (kind e sub : Nat) : Bool :=
  (kind == 0 && ((decide (e < 64) && (decide (sub < 16) || sub == 31)) || (decide (192 ≤ e) && decide (e < 200) && decide (sub < 17)))) ||
    (kind == 2 && decide (64 ≤ e) && decide (e < 76) && (decide (sub < 8) || sub == 31))
/-- A number that fits w bits. -/
def wfWord (w v : Nat) : Bool := decide (v < 2 ^ w)
def wfBytes (l : List Nat) : Bool := l.all fun b => decide (b < 256)
/-- A descriptor is 64 B (R314). -/
def CmdSource.wf : CmdSource → Bool
  | .stream p c => wfPart p && wfCtx c
  | .director p d _ => wfPart p && wfWord 512 d
  | .layer p part l rest => wfPart p && wfWord 16 part && wfWord 12 l && wfWord 256 rest
/-- A PDU's fields fit (R443). -/
def Pdu.wf (p : Pdu) : Bool :=
  wfWord 8 p.version && wfWord 8 p.op && wfWord 8 p.flags && wfWord 8 p.result && wfWord 16 p.session && wfWord 32 p.txid
    && wfWord 32 p.seq && wfWord 16 p.body.length && wfBytes p.body && wfBytes p.tag
/-- A RoCE request's fields fit (R485, R486). -/
def RoceReq.wf (r : RoceReq) : Bool := wfWord 24 r.psn && wfWord 32 r.rkey && wfWord 64 r.addr && wfBytes r.data

/-- The command is well formed. DESIGN CHOICE (notes/assumptions/10): safe. -/
def Instr.wf : Instr → Bool
  | .nop e src => wfEngine e && src.wf
  | .descriptorFetch p ctx e => wfPart p && wfCtx ctx && wfEngine e
  | .cueWriteSeen e addr => wfEngine e && wfWord 64 addr
  | .unitComplete e encoder _ => wfEngine e && (!encoder || decide (128 ≤ e))
  | .matmul e src => wfBlock e && src.wf
  | .matmulList e src => wfBlock e && src.wf
  | .matmulPadded e src => wfBlock e && src.wf
  | .vecRmsnorm e src => wfBlock e && src.wf
  | .vecSilu e src => wfBlock e && src.wf
  | .vecGelu e src => wfBlock e && src.wf
  | .vecGluSilu e src => wfBlock e && src.wf
  | .vecAdd e src => wfBlock e && src.wf
  | .vecScale e src => wfBlock e && src.wf
  | .sample e src => wfBlock e && src.wf
  | .loftFetchTimeout e => wfBlock e
  | .spareCellJoin e => wfBlock e
  | .blockFailure e _ => wfBlock e
  | .cellLoan e cell _ => wfBlock e && decide (cell < 16)
  | .istSliceComplete kind e sub _ _ _ => wfTestable kind e sub
  | .istRotation kind e sub => wfTestable kind e sub
  | .loftRefetch p addr => wfPart p && wfWord 64 addr
  | .scrubRead addr _ => wfWord 64 addr
  | .dieSpareStart stack die => wfDie stack die
  | .dieSpareSwitch stack => wfStack stack
  | .dieFailure stack die => wfDie stack die
  | .weightRestore addr _ => wfWord 64 addr
  | .vaultLoad _ => true
  | .vaultLoadRun => true
  | .vaultLoadEntry _ => true
  | .placementReload p => wfPart p
  | .storyboardEntryStart p _ => wfPart p
  | .storyboardEntryEnd p _ => wfPart p
  | .decode e src => wfCodec e && src.wf
  | .encode e src => wfCodec e && src.wf
  | .tableLoad e src => wfCodec e && src.wf
  | .tableLoadComplete slot => wfSlot slot
  | .tableRetire e src => wfCodec e && src.wf
  | .tableSlotEmpty slot => wfSlot slot
  | .tableSave e src => wfCodec e && src.wf
  | .attend e src => wfStackEngine e && src.wf
  | .attnFeed e src => wfRelay e && src.wf
  | .attnReturn e src => wfRelay e && src.wf
  | .attnMerge e src => wfRelay e && src.wf
  | .attnBatchReceived b => wfPart b.p
  | .plan p _ => wfPart p
  | .callSheetReceived p _ => wfPart p
  | .runStart p => wfPart p
  | .runReport p _ => wfPart p
  | .normWord p _ => wfPart p
  | .commit p => wfPart p
  | .stepAbandon p => wfPart p
  | .commitApply p _ => wfPart p
  | .submit p => wfPart p
  | .cancel p => wfPart p
  | .park p => wfPart p
  | .unpark p => wfPart p
  | .take p _ _ => wfPart p
  | .attach p => wfPart p
  | .copyOnWrite p => wfPart p
  | .insert p => wfPart p
  | .evict p => wfPart p
  | .parkEntry p => wfPart p
  | .unparkEntry p => wfPart p
  | .route e src => wfRouter e && src.wf
  | .buildLists e src _ => wfRouter e && src.wf
  | .expDispatch e src _ => wfRelay e && src.wf
  | .expertBatchReceived b => wfPart b.p
  | .expGather e src => wfRelay e && src.wf
  | .expReturn e src => wfRelay e && src.wf
  | .expCombine e src => wfRelay e && src.wf
  | .normDecision p => wfPart p
  | .fallbackVerdict p => wfPart p
  | .normProfileSave p => wfPart p
  | .partitionStart p => wfPart p
  | .partitionRunning p => wfPart p
  | .partitionStop p => wfPart p
  | .ctxOpen p => wfPart p
  | .ctxTeardown p => wfPart p
  | .contextDrained p ctx => wfPart p && wfCtx ctx
  | .contextFree p ctx => wfPart p && wfCtx ctx
  | .streamBind p => wfPart p
  | .streamUnbind p => wfPart p
  | .ctxPreempt p => wfPart p
  | .ctxResume p => wfPart p
  | .instanceStart p => wfPart p
  | .instanceStartAck p _ => wfPart p
  | .instanceDrain p => wfPart p
  | .instanceStop p => wfPart p
  | .dataFlit g _ bytes => wfGroup g && wfBytes bytes
  | .controlFlit g _ bytes => wfGroup g && wfBytes bytes
  | .ackProgressTimeout g => wfGroup g
  | .retrainDone g _ => wfGroup g
  | .groupTrained g _ => wfGroup g
  | .laneErrorDetect g _ _ _ => wfGroup g
  | .laneSpareStart _ => true
  | .linkRestore g => wfGroup g
  | .linkPlanApply => true
  | .identitySend g => wfGroup g
  | .identityRecord g _ => wfGroup g
  | .writePacket chan header data => wfChan chan && wfWord 256 header && wfBytes data
  | .collectivePacket chan header data => wfChan chan && wfWord 256 header && wfBytes data
  | .ackPacket chan header => wfChan chan && wfWord 256 header
  | .abortPacket chan header => wfChan chan && wfWord 256 header
  | .transferAckTimeout node _ => wfNode node
  | .planes node _ => wfNode node
  | .link node _ => wfNode node
  | .fenced node => wfNode node
  | .reset node => wfNode node
  | .removed node => wfNode node
  | .peerLost node => wfNode node
  | .shape p _ _ _ => wfPart p
  | .capacity node _ => wfNode node
  | .pathLoss node => wfNode node
  | .substituteTimeout p => wfPart p
  | .rankReady p r => wfPart p && decide (r < 64)
  | .timeHoldover => true
  | .ptpMessage port _ m => wfEth port && decide (m.transport < 3)
  | .copy e src => wfRelay e && src.wf
  | .allReduce e src => wfRelay e && src.wf
  | .reduceScatter e src => wfRelay e && src.wf
  | .allGather e src => wfRelay e && src.wf
  | .broadcast e src => wfRelay e && src.wf
  | .allToAll e src => wfRelay e && src.wf
  | .rdmaWrite e src => wfRelay e && src.wf
  | .rdmaRead e src => wfRelay e && src.wf
  | .incomingRdmaWrite r => wfEth r.port && r.wf
  | .incomingRdmaRead r => wfEth r.port && r.wf
  | .roceAck port _ _ _ => wfEth port
  | .roceTimeout port qp => wfQp port qp
  | .cnp port _ => wfEth port
  | .roceRateRaise port qp => wfQp port qp
  | .roceQpReload v => decide (v < 2048)
  | .roceKeyReload key => decide (key < 4096)
  | .networkFrame port _ => wfEth port
  | .ethLinkChange port _ => wfEth port
  | .prechargeEntry _ => true
  | .prechargeComplete _ _ => true
  | .prechargeFail _ _ => true
  | .prechargeRetry => true
  | .presNRelease _ => true
  | .inputUndervoltage _ => true
  | .inputOvervoltage _ => true
  | .inputRestart _ => true
  | .supplySag _ => true
  | .derateN => true
  | .supplyLimitClear => true
  | .holdUpExhausted => true
  | .powerUnitFailure _ region _ => wfRegion region
  | .governorPeriod _ _ _ => true
  | .fastPath => true
  | .fastPathStep _ _ _ => true
  | .opStep => true
  | .leaseCommit _ => true
  | .leaseExpiry => true
  | .thermalCompare _ _ _ => true
  | .thermalTrip sensor _ => decide (sensor < 92)
  | .coolantSample _ _ _ => true
  | .droop region => wfRegion region
  | .droopRelease region => wfRegion region
  | .rampSlot region _ => wfRegion region
  | .energyWindow _ => true
  | .tradeWindowEnd _ => true
  | .tradeReport _ => true
  | .tradeToken node _ _ => wfNode node
  | .watchdogExpiry e _ _ => wfEngine e
  | .heartbeatMiss core _ => decide (core < 8)
  | .remoteWaitExpiry e p ctx => wfEngine e && wfPart p && wfCtx ctx
  | .meshTimeout e _ _ => wfEngine e
  | .engineReset e _ => wfEngine e
  | .engineResetEnd e => wfEngine e
  | .resetOverrun r => wfEngine r.e
  | .enterFenced => true
  | .dumpStart => true
  | .dumpComplete _ => true
  | .faultLogCommit => true
  | .unitRestore _ _ => true
  | .refclkLoss => true
  | .read path src p => wfPath path src && p.wf
  | .write path src p => wfPath path src && p.wf
  | .describe path src p => wfPath path src && p.wf
  | .list path src p => wfPath path src && p.wf
  | .blobRead path src p => wfPath path src && p.wf
  | .blobWrite path src p => wfPath path src && p.wf
  | .blobTransferTimeout _ => true
  | .challenge path src p => wfPath path src && p.wf
  | .login path src p => wfPath path src && p.wf
  | .loginTimeout _ => true
  | .logout path src p => wfPath path src && p.wf
  | .sessionIdleTimeout _ => true
  | .sessionClose _ => true
  | .subscribe path src p => wfPath path src && p.wf
  | .unsubscribe path src p => wfPath path src && p.wf
  | .eventAck path src p => wfPath path src && p.wf
  | .eventResend slot => decide (slot < 16)
  | .discover path src p => wfPath path src && p.wf
  | .persistCommit => true
  | .restoreDefaults => true
  | .userCalReset => true
  | .hpMbxDoorbell h _ v => wfPort h && wfWord 64 v
  | .hpMbxEvtAck h _ v => wfPort h && wfWord 64 v
  | .registerWrite h off data => wfPort h && wfWord 26 off && wfBytes data
  | .lowHalfRead h r => wfPort h && wfWord 26 r.off
  | .highHalfRead h off => wfPort h && wfWord 26 off
  | .dirReqDoorbell h p _ v => wfPort h && wfPart p && wfWord 64 v
  | .dirCancelDoorbell h p _ v => wfPort h && wfPart p && wfWord 64 v
  | .dirCplDoorbell h p _ v => wfPort h && wfPart p && wfWord 64 v
  | .dirCmdDoorbell h p _ v => wfPort h && wfPart p && wfWord 64 v
  | .dirCtlDoorbell h p _ v => wfPort h && wfPart p && wfWord 64 v
  | .pwrCapReq h _ v => wfPort h && wfWord 64 v
  | .fltPending h _ v => wfPort h && wfWord 64 v
  | .bar2Read h off _ => wfPort h && wfWord 36 off
  | .bar2Write h off data _ => wfPort h && wfWord 36 off && wfBytes data
  | .atomicOp h off _ _ _ _ => wfPort h && wfWord 36 off
  | .hostReadCompletion h addr data _ => wfPort h && wfWord 64 addr && wfBytes data
  | .completionTimeout h addr => wfPort h && wfWord 64 addr
  | .surpriseDown h => wfPort h
  | .hostLinkUp h _ _ _ _ _ => wfPort h
  | .functionLevelReset h => wfPort h
  | .perstN h _ => wfPort h
  | .bootDone _ _ => true
  | .selftestDone _ => true
  | .trainingEnd => true
  | .moduleDrain => true
  | .drainTimeout => true
  | .drainComplete => true
  | .restart => true
  | .restartKeep => true
  | .safeRelease _ => true
  | .standby => true
  | .wake => true
  | .fwStage addr _ => wfWord 64 addr
  | .fwStageDone _ => true
  | .fwActivate _ => true
  | .fwHealthCheck _ _ => true
  | .fwTrialEnd _ => true
  | .fwConfirm _ => true
  | .fwRevert _ => true
  | .clapperArm _ => true
  | .clapperFire => true
  | .dailyRecord => true
  | .regulatorCalibration region _ => wfRegion region
  | .eyeScan g _ _ _ => wfGroup g
  | .refclkReturn => true
  | .derateNDeassert => true
  | .groupLossOfLock g => wfGroup g
  | .roceReadResponse port _ _ data => wfEth port && wfBytes data
  | .configurationWrite h _ => wfPort h
  | .bridgeFlitError bridge _ => decide (bridge < 6)
  | .pfcFrame port priority _ => wfEth port && decide (priority < 8)

end Sys2Proof
end

