-- ==== Sys2Proof/Certificates/Slice0/Obligations.lean ====
section
/-! DEFINITION. The statements for the provers. Each says of the commands it names what they do in every state that meets its premises;
where a clause rests on a choice of the model its text names the log entry. -/
open Sys2Proof Sys2Proof.Machine

/-- A step runs the command at the front of the queue with the queue's rest. For every command c and state s, a step of s with c at the
front of its queue is exec of c on s with the rest of the queue. That commands wait in a queue is the model's form of a block (log entry
1). -/
def Obligations.StepRunsFrontCommand : Prop :=
  ∀ (c : Instr) (rest : List Instr) (s : State), step { s with pending := c :: rest } = exec c { s with pending := rest }

/-- With no command waiting, a step is one tick of TimeClk. With an empty queue a step answers a next state whose fabric time has moved by
one tick as trimmed, by 10 ns with no trim, with the queue, module state, instances and streams as they were. Where no upset strikes at
that time, no error waits in memory and no link group counts codewords, only fabric time, the clock's fraction and BeGateClosedNs can
differ, and BeGateClosedNs counts the tick while the governor runs and the best-effort gate is closed; where an upset strikes, the tick's
state is the one with its codeword struck. That a step with no command is a tick is the model's choice (log entry 2), and when an upset
strikes is a free value (log entry 6). -/
def Obligations.EmptyQueueTicks : Prop :=
  ∀ s : State, s.pending = [] → ∃ t, step s = .next t ∧ t.pending = [] ∧ t.mode = s.mode ∧
    t.insts = s.insts ∧ t.streams = s.streams ∧
    t.now = s.now + (tickNs s.clock).1 ∧ t.clock = { s.clock with frac := (tickNs s.clock).2 } ∧
    (s.clock.trim = 0 → s.clock.frac = 0 → t.now = s.now + 10) ∧
    (s.ecc.due = [] → s.ecc.weak = [] → (∀ g, g < 24 → (s.link g).upSince = none) →
      let u : State := { s with now := s.now + (tickNs s.clock).1, clock := { s.clock with frac := (tickNs s.clock).2 } }
      SameBut [.now, .clock, .params, .mem, .poison, .ecc] s t ∧
      (s.governed = false ∨ s.beGateOpen = true → t = match Config.upset s.now with
        | some (c, errs) => u.strike c errs
        | none => u) ∧
      (s.governed = true → s.beGateOpen = false → t.par (pk 0x8049 12) = add64 (s.par (pk 0x8049 12)) (tickNs s.clock).1 ∧
        ∀ k, k ≠ pk 0x8049 12 → t.par k = s.par k))

/-- The reset state: OFF, in order, dictionary at its defaults, nothing running. State.reset is in order, in OFF, at fabric time 0, with
no command waiting, an empty fault log, no byte of memory listed (that such bytes read 0 is log entry 5), every dictionary value at its
default, every partition stopped, every context FREE with generation 0, every code-table slot EMPTY, the best-effort gate closed, no
subscription, no lease, and DefaultBudget 2,400 W. Values the spec does not give are the model's (log entry 4). -/
def Obligations.ResetState : Prop :=
  State.Inv State.reset ∧ State.reset.mode = .off ∧ State.reset.now = 0 ∧ State.reset.pending = [] ∧ State.reset.faultLog = [] ∧
    (∀ a, State.reset.byte a = 0) ∧ (∀ k, State.reset.par k = paramDefault k) ∧ (∀ p, p < 8 → State.reset.par (pk 0x5001 (p + 1)) = 0) ∧
    (∀ p c, (State.reset.ctx p c).st = .free ∧ (State.reset.ctx p c).gen = 0) ∧
    (∀ i, i < 16 → State.reset.slotState i = 0) ∧ State.reset.beGateOpen = false ∧ State.reset.subs = [] ∧
    State.reset.par (pk 0x3102 0) = 0 ∧ State.reset.par (pk 0x3011 0) = 2400

/-- The module address map, every range of it. Every module address lies in the range R96 gives it: stack s at 0x10_0000_0000 s, the first
768 MiB of each 1 GiB loft aperture, the vault, the four host windows, and everything else reserved. Two different addresses below 2^47
are never stored in one cell. -/
def Obligations.AddressMap : Prop :=
  (∀ st x, st < 12 → x < 0x1000000000 → tierOf (0x1000000000 * st + x) = .stack st) ∧
  (∀ a, 0xC000000000 ≤ a → a < 0x10000000000 → tierOf a = .reserved) ∧
  (∀ r x, r < 4 → x < 0x40000000 → tierOf (0x10000000000 + 0x40000000 * r + x) = if x < 768 * 2 ^ 20 then .loft r else .reserved) ∧
  (∀ a, 0x10100000000 ≤ a → a < 0x100000000000 → tierOf a = .reserved) ∧
  (∀ a, 0x100000000000 ≤ a → a < 0x200000000000 → tierOf a = .vault) ∧
  (∀ a, 0x200000000000 ≤ a → a < 0x400000000000 → tierOf a = .reserved) ∧
  (∀ h x, h < 4 → x < 2 ^ 44 → tierOf (0x400000000000 + 0x100000000000 * h + x) = .host h) ∧
  (∀ a, 0x800000000000 ≤ a → tierOf a = .reserved) ∧
  (∀ (s : State) a b, a < 0x800000000000 → b < 0x800000000000 → s.cellKey a = s.cellKey b → a = b)

/-- Engine numbers and the regions and stacks they name. Each engine number names the engine kind, region and stack of the table of engine
numbers; a stack engine reaches the memory of its own stack and of no other stack; the undefined numbers name no engine; 255 names every
engine, and any other number at most itself. -/
def Obligations.EngineNumbers : Prop :=
  (∀ b, b < 48 → engineKind b = some .press) ∧
  (∀ b, b < 16 → engineKind (48 + b) = some .draw) ∧
  (∀ st, st < 12 → engineKind (64 + st) = some .stack ∧ ∀ w t, reaches .stack (64 + st) w (.stack t) = true ↔ t = st) ∧
  (∀ r i, r < 4 → i < 4 → engineKind (80 + 4 * r + i) = some .relay ∧ engineRegion (80 + 4 * r + i) = r) ∧
  (∀ r, r < 4 → engineKind (96 + r) = some .router ∧ engineRegion (96 + r) = r) ∧
  (∀ r u, r < 4 → u < 16 → engineKind (128 + 16 * r + u) = some .codec ∧ engineRegion (128 + 16 * r + u) = r) ∧
  (∀ e, (76 ≤ e ∧ e < 80) ∨ (100 ≤ e ∧ e < 128) ∨ 192 ≤ e → engineKind e = none) ∧
  (∀ e, e ∈ namedEngines 255 ↔ (engineKind e).isSome = true) ∧ (∀ e, e ≠ 255 → namedEngines e = [e])

/-- Fault records, event records and notices have their fields where the layout puts them. Each field of a fault record, of a 32-byte
event record and of a notice is read back from its bits of the record, modulo its width, and reserved bits are 0. Writing a fault record
puts it last in a log of 4,096 records, dropping the oldest of a full log and counting it, and counts the record. -/
def Obligations.RecordLayouts : Prop :=
  (∀ (r : FaultRec) t, let w := r.word t
    bits w 255 192 = t % 2 ^ 64 ∧ bits w 191 184 = r.kind % 256 ∧ bits w 183 182 = r.level % 4 ∧ bits w 181 178 = r.unit % 16 ∧
    bits w 177 170 = r.logical % 256 ∧ bits w 169 154 = r.physical % 2 ^ 16 ∧ bits w 153 150 = r.action % 16 ∧
    bits w 149 147 = r.p % 8 ∧ bits w 146 139 = r.ctx % 256 ∧ bits w 138 128 = 0 ∧ bits w 127 64 = r.addr % 2 ^ 64 ∧
    bits w 63 40 = r.occ % 2 ^ 24 ∧ bits w 39 35 = r.sub % 32 ∧ bits w 34 0 = r.detail % 2 ^ 35 ∧ w < 2 ^ 256) ∧
  (∀ code p flags seq time detail, let w := eventRecord code p flags seq time detail
    (toBytes w 32).length = 32 ∧ bits w 15 0 = code % 2 ^ 16 ∧ bits w 23 16 = p % 256 ∧ bits w 31 24 = flags % 256 ∧
    bits w 63 32 = seq % 2 ^ 32 ∧ bits w 127 64 = time % 2 ^ 64 ∧ bits w 255 128 = detail % 2 ^ 128 ∧ w < 2 ^ 256) ∧
  (∀ code node mask time, let w := noticeBody code node mask time
    bits w 7 0 = code % 256 ∧ bits w 15 8 = 0 ∧ bits w 31 16 = node % 2 ^ 16 ∧ bits w 63 32 = mask % 2 ^ 32 ∧
    bits w 127 64 = time % 2 ^ 64 ∧ w < 2 ^ 128) ∧
  (∀ (s : State) r, (s.recordFault r).faultLog = (if s.faultLog.length < 4096 then s.faultLog else s.faultLog.drop 1) ++ [r.word s.now] ∧
    (s.recordFault r).par (pk 0x7100 1) = add64 (s.par (pk 0x7100 1)) 1 ∧
    (s.recordFault r).par (pk 0x8052 13) = if s.faultLog.length < 4096 then s.par (pk 0x8052 13) else add64 (s.par (pk 0x8052 13)) 1)

/-- K-format elements and the scales of block formats. KT2 and KI2 codes have the values of their table. Bit 7 of a K-format block scale
is read as 0, its values are never negative, 0xFF is NaN, and scales 0x00 and 0x80 make every element zero. A NaN block scale makes every
element NaN. An MX scale of 0xFF is NaN and any other is a power of two, 0x00 being 2^-127. -/
def Obligations.BlockScales : Prop :=
  (∀ code, Fmt.kt2.dec code = Val.ofInt (([0, 1, 0, -1] : List Int).getD (code % 4) 0) ∧
    Fmt.ki2.dec code = Val.ofInt (([0, 1, -2, -1] : List Int).getD (code % 4) 0)) ∧
  (∀ (f : Fmt) byte e, f.isK = true → f.scaleVal byte = f.scaleVal (byte % 128) ∧ f.scaleVal 0xFF = .nan ∧
    (byte % 128 ≠ 127 → ∃ n x, f.scaleVal byte = .fin false n x) ∧
    (byte % 128 = 0 → (blockValue (f.scaleVal byte) e).isZero = true)) ∧
  (∀ (f : Fmt) byte e, (f.scaleVal byte).isNan = true → blockValue (f.scaleVal byte) e = .nan) ∧
  (∀ (f : Fmt) byte, f.isK = false → f.block ≠ 0 → byte < 256 →
    f.scaleVal byte = if byte = 255 then .nan else .fin false 1 ((byte : Int) - 127))

/-- Output blocks with NaN or infinity, and partial output blocks. A block whose elements include NaN or an infinity is written with the
NaN scale of its format and elements of code 0, and a reader recovers NaN for every element. A partial block at the end of a row takes its
scale from the elements that exist, and the missing positions are written as 0. -/
def Obligations.OutputBlocks : Prop :=
  (∀ (f : Fmt) t ys, f.block ≠ 0 → (∃ y ∈ ys, f32IsFinite y = false) →
    (convBlock f t ys).scale = (if f.isK then 0x7F else 0xFF) ∧ (∀ c ∈ (convBlock f t ys).codes, c = 0) ∧
    ∀ e, blockValue (f.scaleVal (convBlock f t ys).scale) e = .nan) ∧
  (∀ (f : Fmt) t m ys zs, f.block ≠ 0 → ys.length = m * f.block → 0 < zs.length → zs.length < f.block →
    let o := convBlock f t zs
    (convRow f t (ys ++ zs)).scales = (convRow f t ys).scales ++ [o.scale] ∧ o.codes.length = zs.length ∧
    (convRow f t (ys ++ zs)).codes = (convRow f t ys).codes ++ o.codes ++ List.replicate (f.block - zs.length) 0)

/-- A PDU written as bytes is read back as the same PDU. For every well-formed PDU, with its tag of 32 bytes where it is tagged and none
otherwise, reading its bytes gives the PDU back, every field of its header, body and tag. -/
def Obligations.PduRoundTrip : Prop :=
  ∀ p : Pdu, p.wf = true → p.tag.length = (if p.tagged then 32 else 0) → pduOf p.bytes = some p

/-- Every step keeps the state in order. For every state in order (memory in its canonical form, at most 4,096 fault records, bits 63 to 6
of FLT_PENDING zero), whatever command is at the front of the queue, or none, the state after the step is in order. -/
def Obligations.StepKeepsOrder : Prop :=
  ∀ s t : State, s.Inv → step s = .next t → t.Inv

/-- No step changes the module state except as the table of module states allows. Whatever the command, a step leaves the module state as
it is, or makes a change that the table of module states lists, or one of three changes that pass through a state between within one step:
from TRAINING to SERVING by a START held since TRAINING, and from SERVING to BOOT and REMOVABLE to FENCED by a request that carries
several commands (log entry 11). -/
def Obligations.ModuleStateTransitions : Prop :=
  ∀ s t : State, step s = .next t → t.mode = s.mode ∨ s.mode.mayBecome t.mode = true ∨ s.mode.mayPass t.mode = true

/-- An engine's command changes no byte outside its partition's placements. Each of the 32 named commands of engines, run for a partition
on any engine and from any source, leaves every byte that lies in no accepted placement of that partition as it was, and changes no
partition's placements. -/
def Obligations.EngineCommandsStayInPlacements : Prop :=
  ∀ (s t : State) (e : Nat) (src : CmdSource) (templates rowBases : List Nat) (i : Instr), i ∈ engineCommandsOf e src templates rowBases →
    exec i s = .next t → (∀ a, a < 0x800000000000 → s.placed src.part a = false → t.byte a = s.byte a) ∧ t.places = s.places

/-- Every command completes in every state: none stops the module. Whatever the command and its operands, and whatever the state, the
command answers a next state: no command faults and none is refused. A command whose conditions do not hold completes with the state
unchanged (log entries 9 and 10). -/
def Obligations.EveryCommandCompletes : Prop :=
  ∀ (i : Instr) (s : State), ∃ t, exec i s = .next t

/-- Sparing a stack die, losing one, and restoring weights from the vault. DIE_SPARE_START starts a copy to the spare die where the stack
has none, and changes nothing otherwise. DIE_SPARE_SWITCH ends a running copy: the die's place moves to the spare, a SPARED record is
written, and no byte changes. DIE_FAILURE of a stack with its spare free marks the die dead with nothing of it readable yet and starts the
copy. WEIGHT_RESTORE of a range being restored, read and written with the rights of its partition while no load of its vault area runs,
writes exactly the bytes of its vault copy over it, records it and ends its restore. -/
def Obligations.DieSparing : Prop :=
  (∀ s stack die, stack < 12 → die < 16 →
    exec (.dieSpareStart stack die) s = .next
      (if s.par (pk 0x7010 (stack + 1)) = 0 then
        { s.setPar (pk 0x7010 (stack + 1)) 1 with dieCopies := insertAt s.dieCopies stack ⟨die, false⟩ }
      else s)) ∧
  (∀ (s : State) stack q, stack < 12 → lookup s.dieCopies stack = some q → q.paused = false →
    ∃ t, exec (.dieSpareSwitch stack) s = .next t ∧ lookup t.dieCopies stack = none ∧
      t.par (pk 0x7010 (stack + 1)) = 2 ∧ lookup t.phys (unitKey ukDie (64 + stack) q.die) = some 16 ∧
      t.faultLog.getLast? = some (FaultRec.word ⟨0x0B, 3, ukDie, 64 + stack, s.diePhysical stack q.die, actSpared, 0, 0, 0, 1, q.die,
        0⟩ s.now) ∧
      t.mem = s.mem) ∧
  (∀ (s : State) stack die, stack < 12 → die < 16 → s.par (pk 0x7010 (stack + 1)) = 0 → 
    ∃ t, exec (.dieFailure stack die) s = .next t ∧
     lookup t.dead (16 * stack + die) = some [] ∧ t.par (pk 0x7010 (stack + 1)) = 1 ∧
      lookup t.dieCopies stack = some ⟨die, false⟩ ∧ t.mem = s.mem) ∧
  (∀ (s : State) a n p v st, (a, n) ∈ s.restores → s.enginesRun = true → s.vaultCopy a = some (p, v) → s.vaultBusy p = false →
    a % 32 = 0 → n % 32 = 0 → (∀ x, a ≤ x → x < a + n → tierOf x = .stack st) →
    let w := whoOf (80 + 4 * (a / 0x1000000000 / 3)) p
    s.mayAll w true a n = true → s.mayAll w false v n = true → s.clean w v n →
    ∃ t, exec (.weightRestore a n) s = .next t ∧ (a, n) ∉ t.restores ∧
      t.faultLog.getLast? = some (FaultRec.word (s.ueRecord a actRestored) s.now) ∧
      ∀ x, x < 0x800000000000 → t.byte x = if a ≤ x ∧ x < a + n then BitVec.ofNat 8 (s.readByte w (v + (x - a))) else s.byte x)

/-- A vault load: its start, its wait, and each of its entries. VAULT_LOAD while a load waits or runs keeps the address of that load's
list and does nothing else, and does nothing where engines do not run (log entry 53); otherwise it reads the list header, and waits while
its partition serves. VAULT_LOAD_RUN starts a waiting load when the partition does not serve and completes a list of no entries.
VAULT_LOAD_ENTRY writes exactly the entry's bytes at their vault address; a good read-back with the right CRC counts the entry and, after
the last, makes the area valid; a bad one is tried once more and then ends the load in ERROR at that entry. -/
def Obligations.VaultLoadStartsOnce : Prop :=
  (∀ (s : State) value v, s.vaultLoad = some v → exec (.vaultLoad value) s = .next (s.setPar (pk 0x7810 0) v.list)) ∧
  (∀ (s : State) value, s.vaultLoad = none → s.enginesRun = false → exec (.vaultLoad value) s = .next s) ∧
  (∀ (s : State) value, s.vaultLoad = none → s.enginesRun = true → s.clean .director (value / 32 * 32) 32 →
    let a := value / 32 * 32
    let h := s.readVal .director a 32
    let p := bits h 231 229
    ∃ t, exec (.vaultLoad value) s = .next t ∧ t.par (pk 0x7810 0) = a ∧ t.par (pk 0x7811 2) = 0 ∧ t.mem = s.mem ∧
      (s.serving p = true → t.vaultLoad = some ⟨a, p, bits h 255 232, 0, false⟩ ∧ t.par (pk 0x7811 1) = 1) ∧
      (s.serving p = false → s.par (pk 0x7811 1) ≠ 2 → bits h 255 232 ≠ 0 →
        t.vaultLoad = some ⟨a, p, bits h 255 232, 0, false⟩ ∧ t.par (pk 0x7811 1) = 2 ∧ t.par (pk 0x7814 (p + 1)) = 0)) ∧
  (∀ (s : State) v, s.vaultLoad = some v → s.par (pk 0x7811 1) ≠ 2 → s.serving v.part = false →
    ∃ t, exec .vaultLoadRun s = .next t ∧ t.mem = s.mem ∧
      (v.count ≠ 0 → t.vaultLoad = some v ∧ t.par (pk 0x7811 1) = 2 ∧ t.par (pk 0x7814 (v.part + 1)) = 0) ∧
      (v.count = 0 → t.vaultLoad = none ∧ t.par (pk 0x7811 1) = 3 ∧ t.par (pk 0x7814 (v.part + 1)) = 1)) ∧
  (∀ (s : State) v good, s.vaultLoad = some v → s.par (pk 0x7811 1) = 2 → s.life.instStarts = [] → s.life.fwQueue = [] →
      let a := v.list + 32 + 32 * v.next
      let e := s.readVal .director a 32
      let n := bits e 127 96 * 4096
      let dst := bits e 191 140 * 4096
      let src := bits e 255 198 * 64
      s.clean .director a 32 → s.clean .director src n → 0 < n → n ≤ (s.vaultArea v.part).2 →
      (s.vaultArea v.part).1 ≤ dst → dst + n ≤ (s.vaultArea v.part).1 + (s.vaultArea v.part).2 → dst + n ≤ 0x200000000000 →
      let bs := toBytes (s.readVal .director src n) n
      ∃ t, exec (.vaultLoadEntry good) s = .next t ∧ t.par (pk 0x7811 4) = add64 (s.par (pk 0x7811 4)) n ∧
        (∀ x, x < 0x800000000000 → t.byte x = if dst ≤ x ∧ x < dst + n then BitVec.ofNat 8 (bs.getD (x - dst) 0) else s.byte x) ∧
        (good = true → crc32c bs = bits e 95 64 → t.par (pk 0x7811 2) = add64 (s.par (pk 0x7811 2)) 1 ∧
          (v.next + 1 < v.count → t.vaultLoad = some { v with next := v.next + 1, retried := false }) ∧
          (v.count ≤ v.next + 1 → t.vaultLoad = none ∧ t.par (pk 0x7811 1) = 3 ∧ t.par (pk 0x7814 (v.part + 1)) = 1)) ∧
        (good = false ∨ crc32c bs ≠ bits e 95 64 →
          (v.retried = false → t.vaultLoad = some { v with retried := true } ∧ t.par (pk 0x7811 1) = 2) ∧
          (v.retried = true → t.vaultLoad = none ∧ t.par (pk 0x7811 1) = 4 ∧ t.par (pk 0x7811 3) = v.next)))

/-- Scrubbing: clean, corrected and uncorrectable codewords, and the refetch of a loft word. SCRUB_READ does nothing to an address that is
not scrubbed; a clean read counts 32 bytes for its stack or loft; an uncorrectable one leaves memory as it is and the codeword bad; a
corrected one writes back the word with exactly the decoded symbol's correction, counts it for its tier and changes no other byte.
LOFT_REFETCH of a bad word that the running storyboard wrote from a plain source writes that word's bytes of the source over it and writes
a REFETCHED record, or a POISONED one when it stays bad; of another word it does nothing. The errors come with the command or from the
memory's own upsets (log entry 6). -/
def Obligations.ScrubAndRefetch : Prop :=
  (∀ (s : State) addr errs, s.scrubs (addr / 32 * 32) = false → exec (.scrubRead addr errs) s = .next s) ∧
  (∀ (s : State) addr st, s.scrubs (addr / 32 * 32) = true → tierOf (addr / 32 * 32) = .stack st → s.badAt (addr / 32) = false →
    s.flawsOf (addr / 32) = [] → exec (.scrubRead addr []) s = .next (s.bump (pk 0x8020 1) 32)) ∧
  (∀ (s : State) addr r, s.scrubs (addr / 32 * 32) = true → tierOf (addr / 32 * 32) = .loft r → s.badAt (addr / 32) = false →
    s.flawsOf (addr / 32) = [] → exec (.scrubRead addr []) s = .next (s.bump (pk 0x8020 2) 32)) ∧
  (∀ (s : State) addr errs, s.scrubs (addr / 32 * 32) = true → s.badAt (addr / 32) = false → errs ≠ [] →
    decodeErrors (s.flawsOf (addr / 32) ++ errs) = .uncorrectable →
    ∃ t, exec (.scrubRead addr errs) s = .next t ∧ t.badAt (addr / 32) = true ∧ t.mem = s.mem) ∧
  (∀ (s : State) addr errs pos val, s.scrubs (addr / 32 * 32) = true → s.badAt (addr / 32) = false → s.flawsOf (addr / 32) = [] →
    errs ≠ [] → decodeErrors errs = .corrected pos val →
    ∃ t, exec (.scrubRead addr errs) s = .next t ∧ t.flawsOf (addr / 32) = [] ∧
      (∀ st, tierOf (addr / 32 * 32) = .stack st → t.par (pk 0x8042 2) = add64 (s.par (pk 0x8042 2)) 1) ∧
      (∀ r, tierOf (addr / 32 * 32) = .loft r → t.par (pk 0x8042 1) = add64 (s.par (pk 0x8042 1)) 1) ∧
      ∀ x, x < 0x800000000000 → t.byte x = if x / 32 = addr / 32 then
        BitVec.ofNat 8 ((toBytes (ofBytes ((List.range 32).map fun i => (s.byte (addr / 32 * 32 + i)).toNat) ^^^ dataErrors errs ^^^
          (if 4 ≤ pos then val * 16 ^ (pos - 4) else 0)) 32).getD (x % 32) 0) else s.byte x) ∧
  (∀ (s : State) p addr, p < 8 → s.refetch (addr / 32) = none → exec (.loftRefetch p addr) s = .next s) ∧
  (∀ (s : State) p addr e b, p < 8 → s.refetch (addr / 32) = some (p, e, b) → s.badAt (addr / 32) = true → s.enginesRun = true →
    ∃ t, exec (.loftRefetch p addr) s = .next t ∧ (t.faultLog.getLast? = some (FaultRec.word { t.ueRecord (addr / 32 * 32)
        (if t.badAt (addr / 32) then actPoisoned else actRefetched) with p := p, ctx := 0 } t.now)) ∧
      (let w := storyWho p (enRegion e)
       let a := addr / 32 * 32
       let src := enSrc e + (a - enDst e)
       enCodec e = false → s.clean w src 32 → s.mayAll w true a 32 = true → (∀ h, tierOf a ≠ .host h) →
       ∀ x, x < 0x800000000000 → t.byte x = if a ≤ x ∧ x < a + 32 then BitVec.ofNat 8 (s.readByte w (src + (x - a))) else s.byte x))

/-- Fetch timeouts, spare cells, spare blocks, cell loans and in-service tests. A loft fetch timeout below the third in a row is counted
and recorded as REISSUED. SPARE_CELL_JOIN puts the spare cell in the failed cell's place with a SPARED record. BLOCK_FAILURE with the
region's spare block tested and free puts it in the block's place with its own spare cell, clears the block's failures, keeps the claimed
passes of a list to run again, and writes its record. CELL_LOAN notes the lending of its window and lends the cell of an idle, live block
after 40 us where the window allows it and the cell has not failed. A cut test slice changes nothing, and a slice with the right signature
counts, ending the test at its last slice. IST_ROTATION exchanges a cell due for its test with the tested spare. Signatures and idle times
are operands (log entry 8). -/
def Obligations.BlockUnits : Prop :=
  (∀ (s : State) e, e < 64 → (s.engine e).fetchRun < 2 → ∃ t, exec (.loftFetchTimeout e) s = .next t ∧
    t.engine e = { s.engine e with fetchRun := (s.engine e).fetchRun + 1 } ∧ t.mem = s.mem ∧
    t.faultLog.getLast? = some (FaultRec.word ⟨ekMesh, 1, ukBlock, e, s.engPhysical e 0, actReissued, 0, 0, 0, (s.engine e).fetchRun + 1,
      0, 0⟩ s.now)) ∧
  (∀ (s : State) e cell err rest, e < 64 → (s.engine e).cellsDown = (cell, err) :: rest →
    s.spareReady (spareCellKey e) ukCell (s.engPhysical e (s.subPhys ukCell e 31)) = true →
    ∃ t, exec (.spareCellJoin e) s = .next t ∧ t.subPhys ukCell e cell = s.subPhys ukCell e 31 ∧ t.par (spareCellKey e) = 1 ∧
      (t.engine e) = { s.engine e with cellsDown := rest } ∧ t.mem = s.mem ∧
      t.faultLog.getLast? = some (FaultRec.word ⟨err, 0, ukCell, e, s.engPhysical e (s.subPhys ukCell e 31), actSpared, 0, 0, 0, 1, cell,
        0⟩ s.now)) ∧
  (∀ (s : State) e claimed err occ, e < 64 → (s.engine e).reported = some (err, occ) → s.spareBlockReady e = true →
    ∃ t, exec (.blockFailure e claimed) s = .next t ∧ t.engPhys e = s.spareBlockUnit e ∧ t.par (spareBlockKey e) = 1 ∧
      t.par (spareCellKey e) = 0 ∧
      t.engine e = { s.engine e with
        reported := none, cellsDown := [], tiles := [], waiting := [], meshRun := 0, fetchRun := 0, progress := s.now,
        claims := if (s.engine e).going = none ∧ ((s.engine e).running.any fun c => hOpcode c.desc == 0x02) = true then claimed.take 2 else [] } ∧ t.mem = s.mem ∧
      t.faultLog.getLast? = some (FaultRec.word ⟨err, 2, ukBlock, e, s.engPhysical e 0, actSpared, 0, 0, 0, occ, 0, 0⟩ s.now)) ∧
  (∀ (s : State) e cell idle used cycles, e < 64 → cell < 16 →
    let u := (noteLending e used cycles s).2
    u.engine e = { s.engine e with lent := (s.engine e).lending s.now used cycles } ∧ u.mem = s.mem ∧
    exec (.cellLoan e cell ⟨idle, used, cycles⟩) s = .next
      (if 40000 ≤ idle ∧ u.blockIdle e = true ∧ (u.engine e).loan = none ∧ u.engineLive e = true ∧ (u.engine e).lent.2.2 = false ∧
          lookup (u.engine e).cellsDown cell = none then
        u.setEngine e { u.engine e with loan := some cell } else u)) ∧
  (∀ (s : State) kind e sub slice sig, testable kind e sub = true → s.istIdle kind e sub = true → slice < istSlices kind →
    exec (.istSliceComplete kind e sub slice sig true) s = .next s ∧
    (sig = Config.istSignature (testKey kind (s.testPhysical kind e sub)) slice →
      exec (.istSliceComplete kind e sub slice sig false) s = .next
        (let k := testKey kind (s.testPhysical kind e sub)
         let n := (s.test k).1 ||| 2 ^ slice
         let u := s.bump (pk 0x8052 4) 1
         if n + 1 = 2 ^ istSlices kind then { u with tests := insertAt s.tests k (0, s.now), overdue := s.overdue.filter (· != k) }
         else { u with tests := insertAt s.tests k (n, (s.test k).2) }))) ∧
  (∀ (s : State) kind e sub slice sig cut, istSlices kind ≤ slice → exec (.istSliceComplete kind e sub slice sig cut) s = .next s) ∧
  (∀ (s : State) e sub, e < 64 → sub < 16 → s.spareReady (spareCellKey e) ukCell (s.engPhysical e (s.subPhys ukCell e 31)) = true →
    lookup (s.engine e).cellsDown sub = none → failedKey ukCell (s.cellPhysical ukCell e sub) ∉ s.retired →
    (s.test (testKey ukCell (s.cellPhysical ukCell e sub))).2 + s.istPeriod ≤ s.now + hourNs →
    ((s.engine e).running.isSome = true → exec (.istRotation ukCell e sub) s = .next s) ∧
    ((s.engine e).running = none → exec (.istRotation ukCell e sub) s = .next
      (((s.setPhys ukCell e sub (s.subPhys ukCell e 31)).setPhys ukCell e 31 (s.subPhys ukCell e sub)).bump (pk 0x8052 3) 1)))

/-- Code-table slots: the end of a load, and emptying a retiring slot. TABLE_LOAD_COMPLETE makes a loading slot LOADED, keeps its table
and counts the load as done, and of an encoder's load changes no byte. TABLE_SLOT_EMPTY empties a RETIRING slot with no references and no
load waiting, gives it the stored owner, and changes no byte; a slot in another state or still referenced stays as it is. -/
def Obligations.TableSlots : Prop :=
  (∀ (s : State) i l, i < 16 → (s.slot i).loading = some l →
    ∃ t, exec (.tableLoadComplete i) s = .next t ∧ t.slotState i = 1 ∧
      t.slot i = { s.slot i with loading := none, done := (s.slot i).done + 1 } ∧
      (l.encoder = true → t.mem = s.mem)) ∧
  (∀ (s : State) i, i < 16 → s.slotState i = 2 → s.slotRefs i = 0 → (s.slot i).pending = none →
    ∃ t, exec (.tableSlotEmpty i) s = .next t ∧ t.slotState i = 0 ∧ t.slotKind i = 0 ∧ t.slotOwner i = s.par (pk 0x6001 (i + 1)) ∧
      t.slot i = { s.slot i with lens := [], pending := none } ∧ t.mem = s.mem ∧ t.codecRefs = s.codecRefs) ∧
  (∀ (s : State) i, i < 16 → s.slotState i ≠ 2 ∨ s.slotRefs i ≠ 0 → exec (.tableSlotEmpty i) s = .next s)

/-- Storyboard entries and placement reloads. A plain entry that is ready, in a state whose running step is whole, copies exactly its
bytes into the loft of its region with the rights of its region's relay engine, and is marked as started and as the last to write there; a
bad header breaks the step and writes a POISONED record; the end of a started entry drops its code-table reference. A placement reload
does nothing unless the partition runs; it takes effect at once where the partition does not serve, and for a serving partition it waits
for the next step and replaces the reloadable entries only. -/
def Obligations.StoryboardEntries : Prop :=
  (∀ (s : State) p i r, p < 8 → lookup s.stories p = some r → s.clean (storyWho p 0) r.addr 64 → s.enginesRun = true →
    (s.inst p).broken = false → s.storyReady p r (s.storyHeader p r) i = true →
    (∀ j ∈ ((List.range (hdrCount (s.storyHeader p r))).filter fun j => !r.started.contains j).take 65,
      s.badCodewords (storyWho p 0) (r.addr + 64 + 32 * j) 32 = []) →
    let e := s.storyEntry p r i
    let w := storyWho p (enRegion e)
    s.clean w (r.addr + 64 + 32 * i) 32 → s.readVal w (r.addr + 64 + 32 * i) 32 = e →
    tierOf (enDst e) = .loft (enRegion e) → enGated e = false → enCodec e = false →
    s.mayAll w true (enDst e) (enLength e) = true → s.mayAccess w false (enSrc e) = true →
    s.clean w (enSrc e) (enLength e) →
    ∃ t, exec (.storyboardEntryStart p i) s = .next t ∧
      lookup t.stories p = some { r with started := r.started ++ [i], wrote := r.wrote ++ [i] } ∧
      ∀ x, x < 0x800000000000 → t.byte x = if enDst e ≤ x ∧ x < enDst e + enLength e then
        BitVec.ofNat 8 (s.readByte w (enSrc e + (x - enDst e))) else s.byte x) ∧
  (∀ (s : State) p i r, p < 8 → lookup s.stories p = some r → s.enginesRun = true → (s.inst p).broken = false →
    s.badCodewords (storyWho p 0) r.addr 64 ≠ [] →
    ∃ t, exec (.storyboardEntryStart p i) s = .next t ∧ t.stories = s.stories ∧ (t.inst p).broken = true ∧ t.mem = s.mem ∧
      t.faultLog.getLast? = some (FaultRec.word { s.ueRecord r.addr actPoisoned with p := p } s.now)) ∧
  (∀ (s : State) p i r, p < 8 → lookup s.stories p = some r → i ∈ r.started → i ∉ r.ended → s.enginesRun = true →
    ∃ t, exec (.storyboardEntryEnd p i) s = .next t ∧ lookup t.stories p = some { r with ended := r.ended ++ [i] } ∧
      t.codecRefs = s.codecRefs.filter fun q => !(q.p == p && q.ctx == 256 && q.desc == i)) ∧
  (∀ (s : State) p, p < 8 → s.par (pk 0x5001 (p + 1)) ≠ 2 → exec (.placementReload p) s = .next s) ∧
  (∀ (s : State) p, p < 8 → s.par (pk 0x5001 (p + 1)) = 2 → s.serving p = true →
    ∃ t l, exec (.placementReload p) s = .next t ∧ t.places = s.places ∧
      lookup t.placesNext p = some ((((lookup s.places p).getD []).filter fun q => !reloadable q.kind) ++ l)) ∧
  (∀ (s : State) p, p < 8 → s.par (pk 0x5001 (p + 1)) = 2 → s.serving p = false →
    ∃ t l, exec (.placementReload p) s = .next t ∧ t.places = insertAt s.places p l ∧ lookup t.placesNext p = none)

/-- TABLE_LOAD, TABLE_RETIRE and TABLE_SAVE. TABLE_LOAD of a slot its partition does not own leaves the slots alone; into an EMPTY slot it
reads the record and leaves the slot LOADING with the record's lengths, kind and generation; into another slot it waits with its address,
generation and descriptor. TABLE_RETIRE of a loaded slot leaves it RETIRING while referenced and EMPTY otherwise, and leaves a slot in
another state. TABLE_SAVE writes exactly the slot's 256-byte record. -/
def Obligations.TableCommands : Prop :=
  (∀ (s : State) (e : Nat) (src : CmdSource) (c : Cmd), engineKind e = some .codec → s.accepted e 0x03 src = some c →
    let i := bits c.area 197 194
    let a := bits c.area 255 198 * 64
    let w := whoOf c.e c.p
    let r := checkRecord (toBytes (s.readVal w a 256) 256) (!(s.badCodewords w a 256).isEmpty)
    (s.slotOwner i ≠ c.p → ∃ t, exec (.tableLoad e src) s = .next t ∧ t.slots = s.slots ∧ t.slotState i = s.slotState i) ∧
    (s.slotOwner i = c.p → s.slotState i = 0 → s.clean w a 256 → ∃ t, exec (.tableLoad e src) s = .next t ∧ t.slotState i = 3 ∧
      (t.slot i).lens = r.1 ∧ t.slotKind i = r.2.1 ∧ t.par (pk 0x6003 (i + 1)) = bits c.area 193 186 ∧ t.mem = s.mem ∧
      ∀ j, j ≠ i → t.slot j = s.slot j) ∧
    (s.slotOwner i = c.p → s.slotState i ≠ 0 → (s.slot i).pending = none → ∃ t l, exec (.tableLoad e src) s = .next t ∧
      t.slotState i = s.slotState i ∧ t.slot i = { s.slot i with pending := some l } ∧ l.addr = a ∧ l.gen = bits c.area 193 186 ∧
      l.desc = c.desc ∧ t.mem = s.mem)) ∧
  (∀ (s : State) (e : Nat) (src : CmdSource) (c : Cmd), engineKind e = some .codec → s.accepted e 0x04 src = some c →
    hSignalAddr c.desc = 0 →
    let i := bits c.area 197 194
    s.slotOwner i = c.p → ∃ t, exec (.tableRetire e src) s = .next t ∧ t.mem = s.mem ∧
      (s.slotState i ≠ 1 → t.slots = s.slots ∧ t.slotState i = s.slotState i) ∧
      (s.slotState i = 1 → s.slotRefs i ≠ 0 → t.slots = s.slots ∧ t.slotState i = 2) ∧
      (s.slotState i = 1 → s.slotRefs i = 0 → (s.slot i).pending = none → t.slotState i = 0 ∧ (t.slot i).lens = [])) ∧
  (∀ (s : State) (e : Nat) (src : CmdSource) (c : Cmd), engineKind e = some .codec → s.accepted e 0x05 src = some c →
    hSignalAddr c.desc = 0 →
    let i := bits c.area 197 194
    let a := bits c.area 255 198 * 64
    s.slotOwner i = c.p → s.slotState i = 1 ∨ s.slotState i = 2 → s.mayAll c.who true a 256 = true →
    (∀ h, ∀ x, a ≤ x → x < a + 256 → tierOf x = .host h → s.windowDown h = false) →
    ∃ t, exec (.tableSave e src) s = .next t ∧ t.slots = s.slots ∧ ∀ x, x < 0x800000000000 → t.byte x =
      if a ≤ x ∧ x < a + 256 then BitVec.ofNat 8 ((tableRecord (s.slot i).lens (s.slotKind i)).getD (x - a) 0) else s.byte x)

/-- The cue signal of NOP, and COPY of local bytes. A NOP with no signal address changes no byte; with an address outside what its cue may
touch it changes no byte and counts OutOfPlacement; otherwise it adds its addend to the 8-byte word modulo 2^64 and changes nothing else.
A local COPY whose source is readable and whose destination lies in its partition's rights writes exactly the source's bytes. A COPY that
may not be taken changes nothing, and one sent to an engine of another kind changes nothing (log entry 10). Which rights a cue has is a
reading (log entry 15). -/
def Obligations.CuesAndCopies : Prop :=
  (∀ (s : State) (e : Nat) (k : Kind) (src : CmdSource) (c : Cmd), engineKind e = some k → s.accepted e 0x00 src = some c →
    let a := hSignalAddr c.desc
    let w := Who.cue c.p
    ∃ t, exec (.nop e src) s = .next t ∧ (a = 0 → t.mem = s.mem ∧ t.poison = s.poison) ∧
      (a ≠ 0 → s.atomicOk w a = false → t.mem = s.mem ∧ t.par (pk 0x8042 4) = add64 (s.par (pk 0x8042 4)) 1) ∧
      (a ≠ 0 → s.atomicOk w a = true → s.mayAll w true a 8 = true → s.clean w a 8 → s.badAt (a / 32) = false →
        ∀ x, x < 0x800000000000 → t.byte x =
          if a ≤ x ∧ x < a + 8 then BitVec.ofNat 8 ((s.readVal w a 8 + hSignalAdd c.desc) % 2 ^ 64 / 256 ^ (x - a)) else s.byte x)) ∧
  (∀ (s : State) (e : Nat) (src : CmdSource) (c : Cmd), engineKind e = some .relay → s.accepted e 0x01 src = some c →
    let from' := bits c.area 255 198 * 64
    let dest := bits c.area 197 140 * 64
    let n := max 1 (bits c.area 139 108) * 64
    c.p < 8 → bit c.area 101 = false ∨ bits c.area 107 102 = s.selfRank c.p → tierOf from' ≠ .vault ∨ s.vaultBusy c.p = false →
      s.hostSource from' = none →
    s.clean c.who from' n → s.mayAll c.who true dest n = true → hSignalAddr c.desc = 0 →
    (∀ h, ∀ x, dest ≤ x → x < dest + n → tierOf x = .host h → s.windowDown h = false) →
    ∃ t, exec (.copy e src) s = .next t ∧ ∀ x, x < 0x800000000000 → t.byte x =
      if dest ≤ x ∧ x < dest + n then BitVec.ofNat 8 (s.readByte c.who (from' + (x - dest))) else s.byte x) ∧
  (∀ (s : State) (e p x : Nat), engineKind e = some .relay → s.accepted e 0x01 (.stream p x) = none →
    exec (.copy e (.stream p x)) s = .next s) ∧
  (∀ (s : State) (e p d : Nat) (w : Option Watch), engineKind e = some .relay → s.issues e 0x01 p d = false →
    exec (.copy e (.director p d w)) s = .next s) ∧
  (∀ (s : State) (e : Nat) (src : CmdSource), engineKind e ≠ some .relay → exec (.copy e src) s = .next s)

/-- Every engine command that is taken runs and leaves its engine free. Each of the commands of the engines, when it is the one its engine
takes (from the head of a stream, sent whole by the Director, or formed by it for a layer of the running step), answers a next state in
which its engine runs nothing, has no failed tile, no claimed pass and no lent cell, unless it is a table command, which occupies no path
of its codec unit; and the stream that the command came from has no command at its head. What remains of a command that waits part-way or
runs in several units stands in the engine's parts (log entry 3). -/
def Obligations.EngineCommandsComplete : Prop :=
  ∀ (s : State) (e : Nat) (k : Kind) (src : CmdSource) (c : Cmd), engineKind e = some k →
    (s.accepted e 0x00 src = some c → Released c (exec (.nop e src) s)) ∧
    (blockKind k = true →
      (s.accepted e 0x01 src = some c → Released c (exec (.matmul e src) s)) ∧
      (s.accepted e 0x02 src = some c → Released c (exec (.matmulList e src) s)) ∧
      (s.accepted e 0x03 src = some c → Released c (exec (.matmulPadded e src) s)) ∧
      (s.accepted e 0x10 src = some c → Released c (exec (.vecRmsnorm e src) s)) ∧
      (s.accepted e 0x11 src = some c → Released c (exec (.vecSilu e src) s)) ∧
      (s.accepted e 0x12 src = some c → Released c (exec (.vecGelu e src) s)) ∧
      (s.accepted e 0x13 src = some c → Released c (exec (.vecGluSilu e src) s)) ∧
      (s.accepted e 0x14 src = some c → Released c (exec (.vecAdd e src) s)) ∧
      (s.accepted e 0x15 src = some c → Released c (exec (.vecScale e src) s))) ∧
    (blockKind k = true → s.accepted e 0x20 src = some c → Released c (exec (.sample e src) s)) ∧
    (k = .codec →
      (s.accepted e 0x01 src = some c → Released c (exec (.decode e src) s)) ∧
      (s.accepted e 0x02 src = some c → Released c (exec (.encode e src) s)) ∧
      (s.accepted e 0x03 src = some c → Released c (exec (.tableLoad e src) s)) ∧
      (s.accepted e 0x04 src = some c → Released c (exec (.tableRetire e src) s)) ∧
      (s.accepted e 0x05 src = some c → Released c (exec (.tableSave e src) s))) ∧
    (k = .stack → s.accepted e 0x01 src = some c → Released c (exec (.attend e src) s)) ∧
    (k = .router →
      (s.accepted e 0x01 src = some c → Released c (exec (.route e src) s)) ∧
      (∀ templates, s.accepted e 0x02 src templates = some c → Released c (exec (.buildLists e src templates) s))) ∧
    (k = .relay →
      (s.accepted e 0x40 src = some c → Released c (exec (.attnFeed e src) s)) ∧
      (s.accepted e 0x41 src = some c → Released c (exec (.attnReturn e src) s)) ∧
      (s.accepted e 0x42 src = some c → Released c (exec (.attnMerge e src) s)) ∧
      (∀ bases, s.accepted e 0x50 src bases = some c → Released c (exec (.expDispatch e src bases) s)) ∧
      (s.accepted e 0x51 src = some c → Released c (exec (.expGather e src) s)) ∧
      (s.accepted e 0x52 src = some c → Released c (exec (.expReturn e src) s)) ∧
      (s.accepted e 0x53 src = some c → Released c (exec (.expCombine e src) s)) ∧
      (s.accepted e 0x01 src = some c → Released c (exec (.copy e src) s)) ∧
      (s.accepted e 0x60 src = some c → Released c (exec (.allReduce e src) s)) ∧
      (s.accepted e 0x61 src = some c → Released c (exec (.reduceScatter e src) s)) ∧
      (s.accepted e 0x62 src = some c → Released c (exec (.allGather e src) s)) ∧
      (s.accepted e 0x63 src = some c → Released c (exec (.broadcast e src) s)) ∧
      (s.accepted e 0x64 src = some c → Released c (exec (.allToAll e src) s)) ∧
      (s.accepted e 0x70 src = some c → Released c (exec (.rdmaWrite e src) s)) ∧
      (s.accepted e 0x71 src = some c → Released c (exec (.rdmaRead e src) s)))

/-- PLAN, the call sheet, RUN and its reports. PLAN does nothing where the lead may not plan; otherwise it holds the step's sheet with its
time and no report or acknowledgement. A received call sheet for the next step is held and its entries of the start are due, or the step
is allocated at once. RUN_START starts an allocated step whose sheet is held, with no placement changed. A rank's report is held under its
rank, and an own report, with its norm words in and every watched command of the step closed, goes to the lead with one entry per slate of
the sheet that the rank reports. Firmware that waits for the boundary holds PLAN and RUN_START (log entry 31). -/
def Obligations.StepIsPlannedAndRun : Prop :=
  (∀ (s : State) p story, p < 8 → s.mayPlan p = false → exec (.plan p story) s = .next s) ∧
  (∀ (s : State) p story, p < 8 → s.fwHolds = false → s.mayPlan p = true →
    ∃ t n, exec (.plan p story) s = .next t ∧ (t.inst p).plan = some n ∧ n.time = s.now ∧ (t.inst p).reports = [] ∧
      (t.inst p).acks = []) ∧
  (∀ (s : State) p c, p < 8 → s.serving p = true →
    (s.isLead p = true → ∃ n, (s.inst p).plan = some n ∧ n.sheet = c) →
    (s.inst p).nextApply = anyStep ∨ (s.inst p).nextApply = csStep c → csInst c = s.eff' (pk 0x5830 (p + 1)) →
    lookup (s.inst p).sheets (csStep c) = none → (s.inst p).run = none →
    ∃ t, exec (.callSheetReceived p c) s = .next t ∧ lookup (t.inst p).sheets (csStep c) = some c ∧
      (t.inst p).nextApply = csStep c ∧ (t.inst p).run = none ∧
      (s.entriesFor p c [2, 3] = [] → s.entriesFor p c [7] = [] → (t.inst p).allocated = (s.inst p).allocated ++ [csStep c] ∧
        (t.inst p).todo = []) ∧
      (∀ e rest, s.entriesFor p c [2, 3] ++ s.entriesFor p c [7] = e :: rest → tkOp e = 2 →
        (t.inst p).todo = e :: rest ∧ (t.inst p).allocated = (s.inst p).allocated)) ∧
  (∀ (s : State) p, p < 8 → s.fwHolds = false → s.serving p = true → s.enginesRun = true → (s.inst p).run = none →
    (s.inst p).applying = none → (s.inst p).nextApply ∈ (s.inst p).allocated →
      (lookup (s.inst p).sheets (s.inst p).nextApply).isSome = true →
    s.copiesGood p (s.inst p).nextApply →
    ∃ t, exec (.runStart p) s = .next t ∧ (t.inst p).run = some (s.inst p).nextApply ∧ (t.inst p).reported = false ∧
      (csStory ((s.inst p).sheet (s.inst p).nextApply) = 0 → (t.inst p).broken = false) ∧ t.places = s.places ∧
        t.placesNext = s.placesNext) ∧
  (∀ (s : State) p k es, p < 8 → s.isLead p = true → (s.inst p).plan.isSome = true → (s.inst p).notice = none → k < s.instSize p →
    lookup (s.inst p).reports k = none →
    exec (.runReport p (.fromRank k es)) s = .next (s.setInst p { s.inst p with reports := insertAt (s.inst p).reports k es })) ∧
  (∀ (s : State) p draws n, p < 8 → s.isLead p = false → (s.inst p).run = some n → (s.inst p).broken = false →
    (s.inst p).reported = false → (s.inst p).todo = [] → (s.inst p).words = [] → (s.inst p).wordsDue = [] →
      (∀ r ∈ (s.inst p).watches, r.stage = .closed) → s.stepDone p = true →
    ∃ t es, exec (.runReport p (.own draws)) s = .next t ∧ (t.inst p).reported = true ∧
      t.out = s.out ++ [.report (s.leadRank p) p es] ∧ es.length = (csReported ((s.inst p).sheet n) (s.rank p)).length)

/-- COMMIT, abandoned steps, the notice and its acknowledgements, norm words. With every report in, COMMIT ends the plan with a notice of
this step that is not abandoned; after 500 ms without a report, or with a rank lost, STEP_ABANDON ends it with an abandoned one. A
follower that takes the notice of its next step, reported, or abandoned with nothing of it still running, and with nothing to insert or
evict, ends the run and its storyboard and expects the next step. The lead keeps one acknowledgement per rank. Once the step's commands
have run and its watched commands are closed, a norm word is sent to its sequence's home with the slate, fallback and fault bits, and a
received one is held. -/
def Obligations.StepIsCommitted : Prop :=
  (∀ (s : State) p n, p < 8 → s.isLead p = true → (s.inst p).plan = some n → (s.inst p).notice = none →
    (s.inst p).reports.length = s.instSize p →
    ∃ t m, exec (.commit p) s = .next t ∧ (t.inst p).plan = none ∧ (t.inst p).notice = some m ∧ m.step = csStep n.sheet ∧
      m.time = s.now ∧ m.abandoned = false ∧ (t.inst p).epoch = m.nextEpoch) ∧
  (∀ (s : State) p n, p < 8 → s.isLead p = true → (s.inst p).plan = some n → (s.inst p).notice = none →
    (n.time + 500000000 ≤ s.now ∧ (s.inst p).reports.length < s.instSize p) ∨ s.absentRanks p ≠ [] →
    ∃ t m, exec (.stepAbandon p) s = .next t ∧ (t.inst p).plan = none ∧ (t.inst p).notice = some m ∧ m.step = csStep n.sheet ∧
      m.time = s.now ∧ m.abandoned = true ∧ (t.inst p).epoch = m.nextEpoch) ∧
  (∀ (s : State) p n, p < 8 → s.isLead p = false → s.serving p = true → n.inst = s.eff' (pk 0x5830 (p + 1)) →
    n.step = (s.inst p).nextApply → (s.inst p).applying = none →
    (n.abandoned = true ∧ s.servingHeld p true = false) ∨ ((s.inst p).run = some n.step ∧ (s.inst p).reported = true) →
    s.entriesFor p ((s.inst p).sheet n.step) [4, 5] = [] →
    ∃ t, exec (.commitApply p (.notice n)) s = .next t ∧ (t.inst p).run = none ∧ (t.inst p).nextApply = n.step + 1 ∧
      (t.inst p).applying = none ∧ (t.inst p).todo = [] ∧ lookup t.stories p = none) ∧
  (∀ (s : State) p a, p < 8 → s.isLead p = true → s.serving p = true → a.rank < s.instSize p →
    (∀ b ∈ (s.inst p).acks, b.rank ≠ a.rank) →
    ∃ t, exec (.commitApply p (.ack a)) s = .next t ∧ (t.inst p).acks = (s.inst p).acks ++ [a]) ∧
  (∀ (s : State) p q n, p < 8 → (s.inst p).run = some n → q ∈ (s.inst p).wordsDue → s.stepDone p = true →
    (∀ r ∈ (s.inst p).watches, r.stage = .closed) →
    ∃ t, exec (.normWord p (.own q)) s = .next t ∧
      t.insts = (s.setInst p { s.inst p with wordsDue := (s.inst p).wordsDue.filter (· != q) }).insts ∧
      t.out = s.out ++ [.normWord ((((s.inst p).sheet n).prefill.find? fun e => pfSlate e == q).map pfHome |>.getD 0) p
        (q * 2 ^ 40 + b2n ((s.inst p).fellBack.contains q) * 2 ^ 39 + b2n ((s.inst p).normFault.contains q) * 2 ^ 38)]) ∧
  (∀ (s : State) p w, p < 8 → bits w 63 40 ∈ (s.inst p).words →
    exec (.normWord p (.word w)) s = .next (s.setInst p { s.inst p with
      words := (s.inst p).words.filter (· != bits w 63 40),
      fellBack := if bit w 39 then mark (s.inst p).fellBack (bits w 63 40) else (s.inst p).fellBack,
      normFault := if bit w 38 then mark (s.inst p).normFault (bits w 63 40) else (s.inst p).normFault }))

/-- Requests, cancels and take-list entries are taken in order, each by its own command. While the lead may plan, up to 1,024 requests for
each PLAN: the next request of the ring is taken by the command of its kind, which counts it as consumed, and the other two commands do
nothing; at any other time none of a running instance is taken. The next cancel is consumed and, naming no live slate, is counted as
ignored. TAKE of a running step holds its slate's proposals. ATTACH takes the front entry of a step being allocated, which is allocated
with its last; INSERT and EVICT take the front entry of a notice being applied; INSERT writes the fields of its node, EVICT frees its node
on a follower and its frames on the lead; COPY_ON_WRITE, PARK and UNPARK take their entry of a running step, and do nothing with no step
running. -/
def Obligations.RingEntriesAreTaken : Prop :=
  (∀ (s : State) p, p < 8 → s.mayPlan p = true → (s.inst p).readAhead < planRequests → 0 < s.requestsWaiting p →
    let v := s.readVal .rings (s.eff' (pk 0x583B (p + 1)) + s.door p 1 % s.eff' (pk 0x583C (p + 1)) * 128) 128
    (reqKind v = 1 → ∃ t, exec (.submit p) s = .next t ∧ t.door p 1 = (s.door p 1 + 1) % 2 ^ 32 ∧
      (t.inst p).readAhead = (s.inst p).readAhead + 1) ∧
    (reqKind v = 2 → ∃ t, exec (.park p) s = .next t ∧ t.door p 1 = (s.door p 1 + 1) % 2 ^ 32 ∧
      (t.inst p).readAhead = (s.inst p).readAhead + 1) ∧
    (reqKind v = 3 → ∃ t, exec (.unpark p) s = .next t ∧ t.door p 1 = (s.door p 1 + 1) % 2 ^ 32 ∧
      (t.inst p).readAhead = (s.inst p).readAhead + 1) ∧
    (reqKind v ≠ 1 → exec (.submit p) s = .next s) ∧ (reqKind v ≠ 2 → exec (.park p) s = .next s) ∧
    (reqKind v ≠ 3 → exec (.unpark p) s = .next s)) ∧
  (∀ (s : State) p, p < 8 → s.mayPlan p = false ∨ planRequests ≤ (s.inst p).readAhead → (s.inst p).phase ≠ .stopped →
    exec (.submit p) s = .next s ∧ exec (.park p) s = .next s ∧ exec (.unpark p) s = .next s) ∧
  (∀ (s : State) p, p < 8 → s.isLead p = true → (s.inst p).plan.isSome = true → (s.inst p).notice = none →
    (s.inst p).reports.length = s.instSize p → 0 < s.cancelsWaiting p → (s.inst p).cancelAhead < commitCancels →
    let a := s.eff' (pk 0x583D (p + 1)) + s.door p 3 % s.eff' (pk 0x583E (p + 1)) * 16
    ∃ t, exec (.cancel p) s = .next t ∧ t.door p 3 = (s.door p 3 + 1) % 2 ^ 32 ∧
      t.insts = (s.setInst p { s.inst p with cancelAhead := (s.inst p).cancelAhead + 1 }).insts ∧
      (s.clean .rings a 16 → (s.inst p).seq (bits (s.readVal .rings a 16) 127 104) = none →
        t.mem = s.mem ∧ t.par (pk 0x8045 8) = add64 (s.par (pk 0x8045 8)) 1)) ∧
  (∀ (s : State) p slate tok n e h, p < 8 → (s.inst p).run = some n →
    (s.inst p).todo.find? (fun e => tkOp e == 1 && bits e 251 228 == slate) = some e → lookup (s.inst p).homes slate = some h →
    ∃ t, exec (.take p slate tok) s = .next t ∧ (t.inst p).todo = (s.inst p).todo.filter (· != e) ∧
      (lookup (t.inst p).props slate).isSome = true ∧
      (s.clean .director tok (4 * (draftCount e + 1)) → t.mem = s.mem)) ∧
  (∀ (s : State) p e rest, p < 8 → (s.inst p).run = none → (s.inst p).applying = none → (s.inst p).todo = e :: rest →
    (tkOp e = 2 → ∃ t, exec (.attach p) s = .next t ∧
      (rest = [] → (t.inst p).todo = [] ∧ (t.inst p).allocated = (s.inst p).allocated ++ [(s.inst p).nextApply]) ∧
      (∀ f fs, rest = f :: fs → tkOp f = 2 → (t.inst p).todo = rest ∧ (t.inst p).allocated = (s.inst p).allocated)) ∧
    (tkOp e ≠ 2 → exec (.attach p) s = .next s)) ∧
  (∀ (s : State) p n e rest, p < 8 → (s.inst p).applying = some n → (s.inst p).todo = e :: rest → rest ≠ [] →
    (tkOp e = 4 → ∃ t, exec (.insert p) s = .next t ∧ (t.inst p).todo = rest ∧
      (t.node (bits e 227 203)).st = 2 ∧ (t.node (bits e 227 203)).p = p ∧ (t.node (bits e 227 203)).hash = bits e 109 46 ∧
      (t.node (bits e 227 203)).check = bits e 141 110 ∧ (t.node (bits e 227 203)).parent = bits e 202 178 ∧
      (t.node (bits e 227 203)).holder = bits e 177 172 ∧ (t.node (bits e 227 203)).valid = entryTokens 16 (bits e 171 167)) ∧
    (tkOp e = 5 → ∃ t, exec (.evict p) s = .next t ∧ (t.inst p).todo = rest ∧
      t.node (bits e 251 227) = if s.isLead p = true ∧
        (s.node (bits e 251 227)).st ≠ 0 then { s.node (bits e 251 227) with frames := [] } else PNode.free)) ∧
  (∀ (s : State) p n e, p < 8 → (s.inst p).run = some n →
    ((s.inst p).todo.find? (fun e => tkOp e == 3) = some e →
      ∃ t, exec (.copyOnWrite p) s = .next t ∧ (t.inst p).todo = (s.inst p).todo.filter (· != e) ∧ (t.inst p).run = some n) ∧
    ((s.inst p).todo.find? (fun e => tkOp e == 6) = some e →
      ∃ t, exec (.parkEntry p) s = .next t ∧ (t.inst p).todo = (s.inst p).todo.filter (· != e) ∧ (t.inst p).run = some n) ∧
    ((s.inst p).todo.find? (fun e => tkOp e == 7) = some e →
      ∃ t, exec (.unparkEntry p) s = .next t ∧ (t.inst p).todo = (s.inst p).todo.filter (· != e) ∧ (t.inst p).run = some n)) ∧
  (∀ (s : State) p, p < 8 → (s.inst p).run = none →
    exec (.copyOnWrite p) s = .next s ∧ exec (.parkEntry p) s = .next s ∧ exec (.unparkEntry p) s = .next s)

/-- Batches from other modules, and the norm watch's decision, verdict and profile. A batch for a context or generation that is not open
is dropped and counted. A row of an attention batch is written to exactly its place of the feed or return area. An expert batch of a later
step is held. The norm decision of a held watched command either closes it and signals its fallback cue or admits sequences to the
fallback; the verdict after the re-run marks every admitted slate as fallen back, closes the watched command and signals the cue; saving
the profile writes it at its address, and does nothing with no address. -/
def Obligations.ReceivedBatchesAndNormWatch : Prop :=
  (∀ (s : State) (b : AttnBatch), b.p < 8 → s.remoteOk b.p b.ctx b.gen = false →
    exec (.attnBatchReceived b) s = .next (s.bump (pk 0x8049 2) 1)) ∧
  (∀ (s : State) (b : AttnBatch) r st, b.p < 8 → s.remoteOk b.p b.ctx b.gen = true → b.rows = [r] →
    s.eff' (pk 0x580E (if b.feed then b.p + 1 else b.p + 9)) = 0 →
    let a := (if b.feed then (s.pool b.p r.stack).feed else s.eff' (pk 0x580D (b.p + 1))) + r.off
    (∀ x, a ≤ x → x < a + r.bytes.length → tierOf x = .stack st ∧ s.placed b.p x = true ∧ s.badAt (x / 32) = false) →
    ∃ t, exec (.attnBatchReceived b) s = .next t ∧ ∀ x, x < 0x800000000000 → t.byte x =
      if a ≤ x ∧ x < a + r.bytes.length then BitVec.ofNat 8 (r.bytes.getD (x - a) 0) else s.byte x) ∧
  (∀ (s : State) (b : ExpBatch), b.p < 8 → s.remoteOk b.p (bits b.header 419 412) (bits b.header 411 404) = false →
    exec (.expertBatchReceived b) s = .next (s.bump (pk 0x8049 2) 1)) ∧
  (∀ (s : State) (b : ExpBatch), b.p < 8 → s.remoteOk b.p (bits b.header 419 412) (bits b.header 411 404) = true →
    s.serving b.p = true → bInst b.header = s.eff' (pk 0x5830 (b.p + 1)) → (s.inst b.p).above (bStep b.header) = true →
    exec (.expertBatchReceived b) s = .next (s.setInst b.p { s.inst b.p with heldBatches := (s.inst b.p).heldBatches ++ [b] })) ∧
  (∀ (s : State) p k f n, p < 8 → (s.inst p).firstWatch .held = some (k, f) → (s.inst p).run = some n →
    ∃ t r, exec (.normDecision p) s = .next t ∧ t.mem = s.mem ∧ (t.inst p).watches[k]? = some r ∧
      (r = { f with stage := .closed } ∧ (t.inst p).fbCues = (s.inst p).fbCues + 1 ∨
       ∃ l, l ≠ [] ∧ r = { f with stage := .admitted, admitted := l } ∧ (t.inst p).fbCues = (s.inst p).fbCues)) ∧
  (∀ (s : State) p k f r, p < 8 → (s.inst p).firstWatch .admitted = some (k, f) → (s.inst p).rerunOf f = some r →
    ∃ t, exec (.fallbackVerdict p) s = .next t ∧ t.mem = s.mem ∧ (t.inst p).watches[k]? = some { f with stage := .closed } ∧
      (t.inst p).fbCues = (s.inst p).fbCues + 1 ∧ ∀ q ∈ f.admitted, q ∈ (t.inst p).fellBack) ∧
  (∀ (s : State) p, p < 8 → (s.inst p).firstWatch .held = none → exec (.normDecision p) s = .next s) ∧
  (∀ (s : State) p, p < 8 → exec (.normProfileSave p) s = .next
    (if s.eff' (pk 0x5886 (p + 1)) = 0 then s else (store .director (s.eff' (pk 0x5886 (p + 1))) (s.profile p) s).2))

/-- Control entries: open, teardown, bind, unbind, preempt and resume. For the last waiting control entry, readable and valid: CTX_OPEN
opens a FREE context with the entry's generation or the one after its old one and the entry's class; CTX_TEARDOWN fences the context and
keeps its cue; STREAM_BIND binds the ring with its clamped size; STREAM_UNBIND of an idle stream removes it; CTX_PREEMPT and CTX_RESUME
mark and unmark the engine. Each counts the entry as consumed. -/
def Obligations.ControlEntriesAreTaken : Prop :=
  ∀ (s : State) p a, p < 8 → s.ctlNext p = some a → s.clean .rings a 64 → ahead (s.door p 5) (s.door p 6) = 1 →
    let v := s.readVal .rings a 64
    let c := cCtx v
    let e := cEngine v
    (cOp v = 1 → (s.ctx p c).st = .free → ∃ t, exec (.ctxOpen p) s = .next t ∧ t.door p 6 = (s.door p 6 + 1) % 2 ^ 32 ∧
      t.ctx p c = ⟨.opened, if cGen v = (s.ctx p c).gen then ((s.ctx p c).gen + 1) % 256 else cGen v, 0, cBe v, [], 0⟩) ∧
    (cOp v = 2 → s.ctlValid p v = true → ¬ (s.serving p = true ∧ c = s.servCtx p) →
      ∃ t, exec (.ctxTeardown p) s = .next t ∧ t.door p 6 = (s.door p 6 + 1) % 2 ^ 32 ∧
        t.ctx p c = { s.ctx p c with st := .fencing, cue := cCue v }) ∧
    (cOp v = 3 → s.ctlValid p v = true → (engineKind e).isSome = true →
      s.ringPlaced p (cRing v) (64 * 2 ^ clampTo 4 16 (bits v 424 420)) = true →
      s.stream p c e = none → s.slotRoom e = true →
      ∃ t, exec (.streamBind p) s = .next t ∧ t.door p 6 = (s.door p 6 + 1) % 2 ^ 32 ∧
        t.stream p c e = some ⟨cRing v, clampTo 4 16 (bits v 424 420), 0, 0, none, []⟩) ∧
    (cOp v = 4 → s.ctlValid p v = true → (engineKind e).isSome = true → (s.stream p c e).isSome = true → s.streamBusy p c e = false →
      s.heldCtl = [] →
      ∃ t, exec (.streamUnbind p) s = .next t ∧ t.door p 6 = (s.door p 6 + 1) % 2 ^ 32 ∧ t.stream p c e = none) ∧
    (cOp v = 5 → s.ctlValid p v = true → e = 255 ∨ (engineKind e).isSome = true →
      ∃ t, exec (.ctxPreempt p) s = .next t ∧ t.door p 6 = (s.door p 6 + 1) % 2 ^ 32 ∧ (∀ i ∈ namedEngines e, i ∈ (t.ctx p c).preempted) ∧
        (t.ctx p c).st = (s.ctx p c).st) ∧
    (cOp v = 6 → s.ctlValid p v = true → e = 255 ∨ (engineKind e).isSome = true →
      ∃ t, exec (.ctxResume p) s = .next t ∧ t.door p 6 = (s.door p 6 + 1) % 2 ^ 32 ∧ (∀ i ∈ namedEngines e, i ∉ (t.ctx p c).preempted) ∧
        (t.ctx p c).st = (s.ctx p c).st)

/-- Descriptors reach the head of their stream, become eligible and are granted. A stream with a descriptor waiting, no command at its
head and no unbind pending fetches the next one: dropped and counted with a stale generation, else it is the head with its time, and a
lent cell comes back. A cue write that is seen makes a waiting head eligible when the cue holds. At the end of a unit of a command that
goes on, UNIT_COMPLETE ends the command where its context is no longer open or where that was its last unit; on an idle, open engine the
command that arbitration chooses starts. -/
def Obligations.StreamHeads : Prop :=
  (∀ (s : State) p c e st, p < 8 → c < 256 → (engineKind e).isSome = true → s.stream p c e = some st → st.head = none →
    st.unbind = [] → (s.ctx p c).st = .opened → s.engineLive e = true → ahead st.written st.fetched ≠ 0 →
    let a := st.ring + 64 * (st.fetched % 2 ^ st.log2)
    s.clean (whoOf 80 p) a 64 →
    let d := s.readVal (whoOf 80 p) a 64
    (s.genOk p c d = false → ∃ t, exec (.descriptorFetch p c e) s = .next t ∧
      t.stream p c e = some { st with fetched := (st.fetched + 1) % 2 ^ 32 } ∧ t.mem = s.mem ∧
      t.par (pk 0x8049 1) = add64 (s.par (pk 0x8049 1)) 1) ∧
    (s.genOk p c d = true → ∃ t h, exec (.descriptorFetch p c e) s = .next t ∧
      t.stream p c e = some { st with fetched := (st.fetched + 1) % 2 ^ 32, head := some h } ∧
      h.desc = d ∧ h.addr = a ∧ h.fetched = s.now ∧ t.mem = s.mem ∧ (t.engine (s.host e)).loan = none)) ∧
  (∀ (s : State) p c e st, p < 8 → c < 256 → (engineKind e).isSome = true → s.stream p c e = some st →
    st.head.isSome = true ∨ ahead st.written st.fetched = 0 → exec (.descriptorFetch p c e) s = .next s) ∧
  (∀ (s : State) k st h a, (engineKind (keyEngine k)).isSome = true → s.enginesRun = true → s.streams = [(k, st)] → st.head = some h →
    s.headRuns k h = false →
    s.host (keyEngine k) = keyEngine k → hWaitAddr h.desc = a → h.eligAt = none →
    ∃ t, exec (.cueWriteSeen (keyEngine k) a) s = .next t ∧ t.mem = s.mem ∧ t.streams = [(k, { st with head := some { h with
      eligAt := if s.waitHolds (keyEngine k) (keyPart k) h.desc then some s.now else none } })]) ∧
  (∀ (s : State) e q n, (engineKind e).isSome = true → s.engineLive e = true → (s.engine e).retired = false →
    (s.engine e).going = some q → q.wait = .units n → (s.engine e).parts = [] → s.streams = [] → s.heldCtl = [] →
    (n ≠ 0 → (s.ctx q.p q.ctx).st ≠ .opened →
      ∃ t, exec (.unitComplete e false []) s = .next t ∧ (t.engine e).running = none ∧ (t.engine e).going = none ∧
        (t.engine e).parts = [] ∧ t.mem = s.mem) ∧
    (n = 0 → ∃ t, exec (.unitComplete e false []) s = .next t ∧ (t.engine e).running = none ∧ (t.engine e).going = none ∧
      (t.engine e).parts = [] ∧ (t.engine e).tiles = [] ∧ (hSignalAddr q.desc = 0 → t.mem = s.mem))) ∧
  (∀ (s : State) e k st h, (engineKind e).isSome = true → s.engineLive e = true → (s.engine e).retired = false →
    (s.engine e).running = none → (s.engine e).going = none → (s.engine e).resetting = none → s.isGated e = false →
      (∀ x ∈ s.engines, x.2.parts = []) → canonC (fun _ => EngineSt.idle) s.engines = true → s.heldCtl = [] →
    (∀ x ∈ s.streams, x.2.unbind = []) → (s.engine e).waiting = [] → s.choose e = some k → k.part = none →
      s.stream k.p k.ctx k.e = some st → st.head = some h →
    ∃ t, exec (.unitComplete e false []) s = .next t ∧ (t.engine e).running = some ⟨k.e, k.p, k.ctx, h.desc, h.be, s.now⟩)

/-- Partitions start and stop; contexts drain and become free. A partition's START is held in SELFTEST and TRAINING; in READY or SERVING
it makes a stopped partition STARTING and the module SERVING, which PARTITION_RUNNING makes RUNNING. Stopping a serving partition waits
for its lead's instance and ends a follower's part at once (log entry 36). A drained context goes to quarantine for 2 ms without its
streams, and is FREE with its generation kept once that time is over. -/
def Obligations.PartitionsAndContexts : Prop :=
  (∀ (s : State) p, p < 8 → s.mode = .selftest ∨ s.mode = .training →
    exec (.partitionStart p) s = .next { s with life := { s.life with starts := if p ∈ s.life.starts then s.life.starts else s.life.starts ++ [p] } }) ∧
  (∀ (s : State) p, p < 8 → s.mode = .ready ∨ s.mode = .serving → s.par (pk 0x5001 (p + 1)) = 0 →
    ∃ t, exec (.partitionStart p) s = .next t ∧ t.par (pk 0x5001 (p + 1)) = 1 ∧ t.mode = .serving) ∧
  (∀ (s : State) p, p < 8 → s.enginesRun = true → s.mode ≠ .draining → s.par (pk 0x5001 (p + 1)) = 1 → p ∉ s.life.instStarts →
    exec (.partitionRunning p) s = .next (s.setPar (pk 0x5001 (p + 1)) 2)) ∧
  (∀ (s : State) p, p < 8 → s.par (pk 0x5001 (p + 1)) = 2 → s.serving p = true →
    (s.isLead p = true → (s.inst p).plan.isSome = true →
      ∃ t, exec (.partitionStop p) s = .next t ∧ (t.inst p).phase = .stopping) ∧
    (s.isLead p = false → ∃ t, exec (.partitionStop p) s = .next t ∧ (t.inst p).phase = .stopped ∧ (t.inst p).run = none ∧
      (t.inst p).homes = [])) ∧
  (∀ (s : State) p c, p < 8 → c < 256 → (s.ctx p c).st = .fencing → s.draining p c = false → s.serving p = true → s.heldCtl = [] →
    ∃ t, exec (.contextDrained p c) s = .next t ∧
      t.ctx p c = { s.ctx p c with st := .quarantine, cue := 0, preempted := [], quarEnd := s.now + 2000000 } ∧
      t.streams = s.streams.filter fun y => !(keyPart y.1 == p && keyCtx y.1 == c)) ∧
  (∀ (s : State) p c, p < 8 → c < 256 → (s.ctx p c).st = .quarantine → s.heldCtl = [] →
    exec (.contextFree p c) s = .next (if (s.ctx p c).quarEnd ≤ s.now then s.setCtx p c ⟨.free, (s.ctx p c).gen, 0, false, [], 0⟩ else s))

/-- An instance starts, gathers its ranks, drains and stops. An instance's START is held in SELFTEST and TRAINING; in READY or SERVING,
where it may start, it begins from a reset instance with the host's completion count at 0 and no byte changed, or is refused by its routed
bound (log entry 36). The acknowledgement of a standby or of a rank, if it agrees with the instance, is held once, and the last rank's
makes the instance run. Draining and stopping a lead's planned instance change its phase. -/
def Obligations.InstancesStartAndEnd : Prop :=
  (∀ (s : State) p, p < 8 → s.mode = .selftest ∨ s.mode = .training →
    exec (.instanceStart p) s = .next { s with life := { s.life with
      instStarts := if p ∈ s.life.instStarts then s.life.instStarts else s.life.instStarts ++ [p] } }) ∧
  (∀ (s : State) p, p < 8 → s.mode = .ready ∨ s.mode = .serving → s.mayStart p = true →
    ∃ t, exec (.instanceStart p) s = .next t ∧ t.door p 4 = 0 ∧ t.mem = s.mem ∧
      (t.inst p = Inst.reset ∨ (t.inst p).phase = .starting ∨ (t.inst p).phase = .running)) ∧
  (∀ (s : State) p a, p < 8 → s.isLead p = true → s.serving p = true → a.inst = s.eff' (pk 0x5830 (p + 1)) → a.size = s.instSize p →
    a.lead = s.leadRank p → a.mapCrc = s.rankMapCrc p →
    (a.standby = true → exec (.instanceStartAck p a) s = .next (s.setInst p { s.inst p with
      standbys := ((s.inst p).standbys.filter fun b => b.node != a.node) ++ [a] })) ∧
    (a.standby = false → a.gen = (s.ctx p (s.servCtx p)).gen → a.rank < s.instSize p → s.rankNode p a.rank = a.node →
      (∀ m ∈ (s.inst p).members, m.rank ≠ a.rank) →
      ∃ t, exec (.instanceStartAck p a) s = .next t ∧ t.mem = s.mem ∧
        (t.inst p).members = (s.inst p).members ++ [⟨a.rank, a.pools, a.exportUnits, a.bound⟩] ∧
        (t.inst p).acks = (s.inst p).acks ++ [⟨a.rank, a.avail, a.space, a.gate, []⟩] ∧
        ((s.inst p).phase = .starting → (s.inst p).members.length + 1 = s.instSize p → (t.inst p).phase = .running))) ∧
  (∀ (s : State) p, p < 8 → s.isLead p = true → (s.inst p).plan.isSome = true →
    ((s.inst p).phase = .running → ∃ t, exec (.instanceDrain p) s = .next t ∧ t.inst p = { s.inst p with phase := .draining }) ∧
    (s.serving p = true → ∃ t, exec (.instanceStop p) s = .next t ∧ t.inst p = { s.inst p with phase := .stopping }))

/-- Precharge, supply faults, hold-up and failed power units. Mating presence starts PRECHARGE, which completes to BOOT with fabric time 0
or fails after 200 ms and is retried after 10 s. Losing presence goes to OFF with a loss record and without the reliability counts. Under-
and overvoltage stop the converters with 700 W in force (log entry 42); each lockout ends at its own threshold, an undervoltage one with
the supply limit. Sag and DERATE_N set and clear the supply limit, which lasts 1 s after its causes; an exhausted hold-up goes to OFF. A
phase more than 50 mV off for 10 us or at 125 C, a stage off or at 120 C, and the third overcurrent trip in 1 s or input fault in 1 h, is
retired with its record, SPARED where its spare takes over; an earlier trip is only noted. Voltages and temperatures are operands (log
entry 8). -/
def Obligations.PrechargeAndSupply : Prop :=
  (∀ (s : State) straps, s.mode = .off → ∃ t, exec (.prechargeEntry straps) s = .next t ∧ t.mode = .precharge ∧
    t.par (pk 0x1008 0) = 1 ∧ t.life.present = true ∧ t.life.straps = straps % 4 ∧ t.power.preSince = s.now ∧ t.power.preFail = none) ∧
  (∀ (s : State) bulk input, s.mode = .precharge → s.power.preFail = none → bulkReady bulk input = true →
    s.now ≤ s.power.preSince + 200000000 → ∃ t, exec (.prechargeComplete bulk input) s = .next t ∧ t.mode = .boot ∧ t.now = 0 ∧
      t.par (pk 0x1008 0) = 2 ∧ t.par (pk 0x3002 0) = input ∧ t.par (pk 0x3000 0) = t.limit) ∧
  (∀ (s : State) bulk input, s.mode = .precharge → s.power.preFail = none → bulkReady bulk input = false →
    s.power.preSince + 200000000 ≤ s.now → ∃ t, exec (.prechargeFail bulk input) s = .next t ∧ t.mode = .precharge ∧
      t.power = { s.power with preFail := some s.now }) ∧
  (∀ (s : State) t0, s.mode = .precharge → s.power.preFail = some t0 → t0 + 10000000000 ≤ s.now →
    exec .prechargeRetry s = .next { s with power := { s.power with preSince := s.now, preFail := none } }) ∧
  (∀ (s : State) gap, s.powered = true → s.mode ≠ .removable → ∃ t, exec (.presNRelease gap) s = .next t ∧ t.mode = .off ∧
    t.life.present = false ∧ t.rel = [] ∧ t.power.lossRec = some (1, s.now, gap, s.power.volts)) ∧
  (∀ (s : State) mv, s.powered = true → s.power.holdUp = false →
    (mv < 330000 → ∃ t, exec (.inputUndervoltage mv) s = .next t ∧ t.power.holdUp = true ∧ t.par (pk 0x3002 0) = mv ∧
      t.par (pk 0x3000 0) = 700) ∧
    (430000 < mv → ∃ t, exec (.inputOvervoltage mv) s = .next t ∧ t.power.holdUp = true ∧ t.par (pk 0x3002 0) = mv ∧
      t.par (pk 0x3000 0) = 700)) ∧
  (∀ (s : State) mv, s.powered = true → s.power.holdUp = true → (if s.power.overVolt then 330000 ≤ mv ∧ mv < 425000 else 350000 < mv ∧
    mv ≤ 430000) →
    ∃ t, exec (.inputRestart mv) s = .next t ∧ t.power.holdUp = false ∧ t.power.overVolt = false ∧ t.par (pk 0x3002 0) = mv ∧
      t.par (pk 0x3000 0) = t.limit ∧ (s.power.overVolt = false → t.power.supply = true)) ∧
  (∀ (s : State) mv, s.powered = true → s.power.sag = false → mv < 350000 → ∃ t, exec (.supplySag mv) s = .next t ∧
    t.power.sag = true ∧ t.power.supply = true ∧ t.power.clearAt = none ∧ t.par (pk 0x3002 0) = mv ∧ t.par (pk 0x3000 0) = t.limit) ∧
  (∀ (s : State), s.powered = true → s.power.derateN = false → ∃ t, exec .derateN s = .next t ∧
    t.power = { s.power with derateN := true, supply := true, clearAt := none, enforced := t.power.enforced } ∧
      t.par (pk 0x3000 0) = t.limit ∧
    (s.power.supply = false → t.par (pk 0x8051 6) = add64 (s.par (pk 0x8051 6)) 1)) ∧
  (∀ (s : State), s.power.derateN = true → exec .derateNDeassert s = .next { s with power := { s.power with
    derateN := false, clearAt := if s.power.supply && !s.power.sag then some (s.power.clearAt.getD s.now) else none } }) ∧
  (∀ (s : State) t0, s.power.clearAt = some t0 → t0 + 1000000000 ≤ s.now → ∃ t, exec .supplyLimitClear s = .next t ∧
    t.power = { s.power with supply := false, clearAt := none, enforced := t.power.enforced } ∧ t.par (pk 0x3000 0) = t.limit) ∧
  (∀ (s : State), s.powered = true → s.power.holdUp = true → ∃ t, exec .holdUpExhausted s = .next t ∧ t.mode = .off ∧
    t.rel = [] ∧ t.power.lossRec = some (0, s.now, 0, s.power.volts)) ∧
  (∀ (s : State) sign region unit, region < 4 → s.powered = true →
    (∃ mv ns, sign = .output mv ns ∧ 50 < mv ∧ 10000 ≤ ns) ∨ (∃ c, sign = .heat c ∧ 125 ≤ c) →
    let ph := physical region unit 0
    let own := s.par (sparePhaseKey region) == 0 && unit == s.sparePhase region
    let spare := s.par (sparePhaseKey region) == 0 && !own
    failedKey ukPhase ph ∉ s.retired →
    ∃ t, exec (.powerUnitFailure sign region unit) s = .next t ∧ t.retired = s.retired ++ [failedKey ukPhase ph] ∧
      t.faultLog.getLast? = some (FaultRec.word ⟨0x0E, 3, ukPhase, 0xFF, ph, if spare then actSpared else actRetired, 0, 0, 0, 1,
        if own then 31 else unit, 0⟩ s.now) ∧
      t.par (sparePhaseKey region) = (if own then 2 else if spare then 1 else s.par (sparePhaseKey region)) ∧
      t.par (pk 0x3000 0) = t.limit) ∧
  (∀ (s : State) sign region unit, region < 4 → s.powered = true → sign = .stageOutput ∨ (∃ c, sign = .stageHeat c ∧ 120 ≤ c) →
    let ph := physical 0 unit 0
    failedKey ukStage ph ∉ s.retired →
    ∃ t, exec (.powerUnitFailure sign region unit) s = .next t ∧ t.retired = s.retired ++ [failedKey ukStage ph] ∧
      t.faultLog.getLast? = some (FaultRec.word ⟨0x0E, 3, ukStage, 0xFF, ph,
        if s.failedOf ukStage none = 0 then actSpared else actRetired, 0, 0, 0, 1, unit, 0⟩ s.now) ∧
      t.par (pk 0x3000 0) = t.limit) ∧
  (∀ (s : State) (stage : Bool) region unit, region < 4 → s.powered = true →
    let key := failedKey (if stage then ukStage else ukPhase) (if stage then physical 0 unit 0 else physical region unit 0)
    let held := s.signs key (if stage then hourNs else 1000000000)
    ((held.filter fun x => x.1 == key).length < 2 →
      exec (.powerUnitFailure (if stage then .stageInput else .trip) region unit) s =
        .next { s with power := { s.power with signs := held ++ [(key, s.now)] } }) ∧
    ((held.filter fun x => x.1 == key).length = 2 → key ∉ s.retired →
      ∃ t, exec (.powerUnitFailure (if stage then .stageInput else .trip) region unit) s = .next t ∧
        t.retired = s.retired ++ [key] ∧ t.power.signs = held.filter fun x => x.1 != key))

/-- The governor, the fast path, operating-point steps, droop, the ramp limiter and energy windows. A governor period takes the average
and voltage and sets the target point and duty of its rule, and closes the gate when the threshold is reached. The fast path enforces a
lower limit at once and its steps only raise stretch and duty until the average is below the limit. OP_STEP moves one point. A droop asks
for stretch 4 at its onset, which is counted, and for 8 when it lasts, and is released step by step. A ramp slot starts and stops at most
its number of engines, each in its region and with work, or without, and lets the estimated current fall by at most 9.6 A. An energy
window adds its energy and opens or closes the best-effort gate by its thresholds. Averages and draws are operands (log entry 8). -/
def Obligations.GovernorLoops : Prop :=
  (∀ (s : State) avg mv draw, s.governed = true → ∃ t, exec (.governorPeriod avg mv draw) s = .next t ∧
    t.par (pk 0x3001 0) = avg ∧ t.par (pk 0x3002 0) = mv ∧ t.par (pk 0x3000 0) = t.limit ∧
    t.power.target = (if t.power.lowered.isSome then (t.govern draw).1 - 1 else (t.govern draw).1) ∧ t.power.dutyTo = (t.govern draw).2 ∧
    (s.op = t.power.target → s.power.fast = false → t.duty = t.power.dutyTo ∧ t.power.stretch = 0) ∧
    (t.par (pk 0x3200 0) * t.limit ≤ avg * 100 → t.beGateOpen = false)) ∧
  (∀ (s : State), s.governed = true → s.limit < s.power.enforced → ∃ t, exec .fastPath s = .next t ∧
    t.power.fast = true ∧ t.power.enforced = s.limit ∧ t.par (pk 0x3000 0) = s.limit ∧ t.beGateOpen = false ∧
    t.par (pk 0x8051 3) = add64 (s.par (pk 0x8051 3)) 1) ∧
  (∀ (s : State) avg stretch duty, s.governed = true → s.power.fast = true →
    (avg ≤ s.limit → ∃ t, exec (.fastPathStep avg stretch duty) s = .next t ∧ t.power.fast = false ∧ t.duty = s.duty ∧
      t.power.stretch = s.power.stretch) ∧
    (s.limit < avg → ∃ t, exec (.fastPathStep avg stretch duty) s = .next t ∧ t.power.fast = true ∧
      t.duty = clampTo s.duty 15 duty ∧
      t.power.stretch = clampTo s.power.stretch (max s.power.stretch (stretchMax s.op)) stretch)) ∧
  (∀ (s : State), s.governed = true → s.op ≠ s.power.target → ∃ t, exec .opStep s = .next t ∧
    t.op = (if s.op < s.power.target then s.op + 1 else s.op - 1) ∧ t.par (pk 0x8051 2) = add64 (s.par (pk 0x8051 2)) 1 ∧
    (t.op = s.power.target → s.power.fast = false → t.duty = s.power.dutyTo ∧ t.power.stretch = 0) ∧
    (t.op ≠ s.power.target ∨ s.power.fast = true → t.duty = s.duty ∧ t.power.stretch = min s.power.stretch (stretchMax t.op))) ∧
  (∀ (s : State) region, region < 4 → s.governed = true →
    ∃ t, exec (.droop region) s = .next t ∧
      lookup t.power.droop region = some (match lookup s.power.droop region with
        | none => ⟨4, s.now, s.now, true⟩
        | some d => if d.low then { d with s := if 480 ≤ (s.now - d.start) * (48 + 4 * s.op) then 8 else d.s, since := s.now }
          else ⟨max d.s 4, s.now, s.now, true⟩) ∧
      (((lookup s.power.droop region).all fun d => !d.low) = true →
        4 ≤ t.par (pk 0x3603 0) ∧ t.par (pk 0x8051 4) = add64 (s.par (pk 0x8051 4)) 1)) ∧
  (∀ (s : State) region d, region < 4 → lookup s.power.droop region = some d → d.since + 256 ≤ s.now →
    ∃ t, exec (.droopRelease region) s = .next t ∧
      lookup t.power.droop region = if d.s ≤ 1 then none else some ⟨d.s - 1, s.now - 192, d.start, false⟩) ∧
  (∀ (s : State) region classes, region < 4 → s.governed = true → ∃ t, exec (.rampSlot region classes) s = .next t ∧
    let starts := allEngines.filter fun e => s.power.gated.contains e && !t.power.gated.contains e
    let stops := allEngines.filter fun e => !s.power.gated.contains e && t.power.gated.contains e
    (starts.filter fun e => e < 64).length ≤ 2 ∧ (starts.filter fun e => 128 ≤ e).length ≤ 4 ∧
    (stops.filter fun e => e < 64).length ≤ 2 ∧ (stops.filter fun e => 128 ≤ e).length ≤ 4 ∧
    sumOf (stops.map (s.rampStep classes)) ≤ 9600 ∧
    (∀ e ∈ starts, engineRegion e = region ∧ s.engineWorks e = true) ∧
    (∀ e ∈ stops, engineRegion e = region ∧ s.engineWorks e = false ∧ (s.engine e).progress + 1000 ≤ s.now)) ∧
  (∀ (s : State) avg, s.powered = true → ∃ t, exec (.energyWindow avg) s = .next t ∧ t.par (pk 0x3001 0) = avg ∧
    (0 < avg → t.par (pk 0x8051 1) = add64 (s.par (pk 0x8051 1)) avg) ∧
    t.power.windows = ((s.limit, avg) :: s.power.windows).take 10000 ∧
    t.life.powerSum = (s.life.powerSum.1 + avg, s.life.powerSum.2 + 1) ∧
    (s.governed = true → s.par (pk 0x3200 0) * s.limit ≤ avg * 100 ∨ (∃ n ∈ [1, 4, 6, 7], (s.pennant n).since.isSome = true) →
      t.beGateOpen = false) ∧
    (s.governed = true → avg * 100 < s.par (pk 0x3200 0) * s.limit → avg * 100 ≤ s.par (pk 0x3201 0) * s.limit →
      (∀ n ∈ [1, 4, 6, 7], (s.pennant n).since = none) → s.power.gateSince + 1000000 ≤ s.now → 0 ≤ t.account → t.beGateOpen = true))

/-- Thermal limits, the thermal trip and the coolant rows. THERMAL_COMPARE lowers the thermal term by 2 % per degree above the target,
holds it at the target and raises it by 1 % of the ceiling below it, never under 700 W. A tripped sensor takes the module to SAFE with a
dump, nothing running, no session, no vault load and no duty or stretch; another changes nothing. Flow below 800 for the third sample sets
pump loss and 700 W; otherwise a sample sets the coolant term, state and readings of its row. Temperatures and flows are operands (log
entry 8). -/
def Obligations.HeatAndCoolant : Prop :=
  (∀ (s : State) (hottest : Int) avg sensor, s.governed = true → ∃ t, exec (.thermalCompare hottest avg sensor) s = .next t ∧
    t.par (pk 0x3301 0) = ofSigned 32 hottest ∧ t.power.hotSensor = sensor ∧
    let e := hottest - (s.par (pk 0x3300 0) : Int)
    (0 < e → t.power.thermal = max 700 (min s.power.thermal (((avg : Int) * (100 - 2 * e) / 100).toNat))) ∧
    (e = 0 → t.power.thermal = max 700 s.power.thermal) ∧
    (e < 0 → t.power.thermal = max 700 (min s.gradeCeiling (s.power.thermal + s.gradeCeiling / 100)))) ∧
  (∀ (s : State) sensor raw, sensor < 92 → s.powered = true → s.mode ≠ .safe → s.tripped sensor raw = true →
    ∃ t, exec (.thermalTrip sensor raw) s = .next t ∧ t.mode = .safe ∧ (∀ e, (t.engine e).running = none ∧ (t.engine e).going = none) ∧
      t.elo.sessions = [] ∧ t.vaultLoad = none ∧ t.par (pk 0x3600 0) = 0 ∧ t.par (pk 0x3603 0) = 0 ∧ t.par (pk 0x3604 0) = 0 ∧
      t.par (pk 0x1008 0) = 9 ∧ t.dumpRun.isSome = true) ∧
  (∀ (s : State) sensor raw, sensor < 92 → s.tripped sensor raw = false → exec (.thermalTrip sensor raw) s = .next s) ∧
  (∀ (s : State) flow (inlet outlet : Int), s.powered = true → s.power.flowLow = 2 → flow < 800 →
    ∃ t, exec (.coolantSample flow inlet outlet) s = .next t ∧ t.power.pumpLoss = true ∧ t.power.coolant = some 700 ∧ t.power.row = 1 ∧
      t.par (pk 0x3305 0) = 2 ∧ t.par (pk 0x3000 0) = 700) ∧
  (∀ (s : State) flow (inlet outlet : Int), s.powered = true → s.power.pumpLoss = false → s.power.outlets[249]? = none → 800 ≤ flow →
    ∃ t, exec (.coolantSample flow inlet outlet) s = .next t ∧ t.power.pumpLoss = false ∧
      t.power.coolant = (if flow ≤ 1200 then some (4400 * flow / 1200) else if 45000 < inlet then some (4400 - (inlet - 45000).toNat * 200 / 1000)
        else none) ∧
      t.par (pk 0x3305 0) = (if flow ≤ 1200 ∨ 45000 < inlet then 1 else 0) ∧ t.par (pk 0x3000 0) = t.limit ∧
      t.par (pk 0x3302 0) = f32Milli inlet ∧ t.par (pk 0x3303 0) = f32Milli outlet ∧ t.par (pk 0x3304 0) = f32Milli flow)

/-- Leases of the rack manager and the trading of budget. LEASE_COMMIT of a newer sequence number, or after expiry, puts the lease in
force for 30 s, and a change of grant or group returns what is owed and waits for what is owed to it; an old number is counted and
ignored. An expired lease ends trading and leaves DefaultBudget. At a window's end the own report goes to every member and the plan waits
300 us; a report of this window in that time is held, another is not; the plan then counts each silent member. A token raises the offset
by what the grant allows and sends back the rest, and outside trading all of it; a returned token gives back at most what is owed. -/
def Obligations.LeasesAndTrades : Prop :=
  (∀ (s : State), let seq := s.par (pk 0x3100 3)
    let newer : Bool := match s.power.leaseSeq with
      | some k => decide (k < seq)
      | none => true
    (newer = true ∨ s.par (pk 0x3102 0) = 2 → ∃ t, exec (.leaseCommit 1) s = .next t ∧ t.par (pk 0x3102 0) = 1 ∧
      t.par (pk 0x3103 0) = s.now + 30000000000 ∧ t.power.leaseSeq = some seq ∧ t.power.grant = s.par (pk 0x3100 1) ∧
      t.power.derate = s.par (pk 0x3100 2) ∧ t.power.group = s.par (pk 0x3100 4) ∧ t.par (pk 0x3000 0) = t.limit ∧
      (s.par (pk 0x3100 1) ≠ s.power.grant ∨ s.par (pk 0x3100 4) ≠ s.power.group →
        t.power.owes = [] ∧ t.power.ending = s.power.owed.map (fun o => (o.1, o.2, 0)) ∧
          t.out = s.out ++ s.power.owes.map fun x => .tradeToken x.1 false x.2)) ∧
    (newer = false → s.par (pk 0x3102 0) ≠ 2 → exec (.leaseCommit 1) s = .next (s.bump (pk 0x8051 9) 1))) ∧
  (∀ (s : State) v, v ≠ 1 → exec (.leaseCommit v) s = .next s) ∧
  (∀ (s : State), s.par (pk 0x3102 0) = 1 →
    (s.par (pk 0x3103 0) < s.now → ∃ t, exec .leaseExpiry s = .next t ∧ t.par (pk 0x3102 0) = 2 ∧ t.tradeOffset = 0 ∧
      t.budgetTerm = s.par (pk 0x3011 0) ∧ t.power.owes = [] ∧ t.power.owed = [] ∧ t.power.reports = [] ∧ t.power.ending = [] ∧
        t.power.planAt = none ∧
      t.par (pk 0x3000 0) = t.limit) ∧
    (s.now ≤ s.par (pk 0x3103 0) → exec .leaseExpiry s = .next s)) ∧
  (∀ (s : State), s.power.planAt = none → s.power.ending = [] → s.power.lastWindow ≠ some (s.now / 1000000) →
    let own : TradeReport := ⟨s.nodeId, s.now / 1000000, s.power.blame, s.power.grant, s.tradeOffset⟩
    ∃ t, exec (.tradeWindowEnd (s.now / 1000000)) s = .next t ∧ t.power.blame = [] ∧ t.power.lastWindow = some (s.now / 1000000) ∧
      (s.trades = true → t.power.planAt = some (own, s.now) ∧ t.out = s.out ++ s.tradeMembers.map fun n => .tradeReport n own) ∧
      (s.trades = false → t.power.planAt = none ∧ t.out = s.out)) ∧
  (∀ (s : State) window, s.power.planAt = none → window ≠ s.now / 1000000 ∨ s.power.lastWindow = some window →
    exec (.tradeWindowEnd window) s = .next s) ∧
  (∀ (s : State) r own since, s.power.planAt = some (own, since) → since + 300000 ≤ s.now → s.trades = true → r.window ≠ s.now / 1000000 →
    ∃ t, exec (.tradeReport r) s = .next t ∧ t.power.planAt = none ∧ t.power.reports = [] ∧ t.par (pk 0x3000 0) = t.limit ∧
      t.power.silent = s.tradeMembers.map fun j =>
        (j, if s.power.reports.any fun r => r.node == j then 0 else (lookup s.power.silent j).getD 0 + 1)) ∧
  (∀ (s : State) r, (∀ own since, s.power.planAt = some (own, since) → s.now < since + 300000) →
    (s.trades = true → r.node ∈ s.tradeMembers → r.window = s.now / 1000000 → s.now % 1000000 ≤ 300000 →
      exec (.tradeReport r) s = .next { s with power := { s.power with
        reports := (s.power.reports.filter fun y => y.node != r.node) ++ [r] } }) ∧
    (s.trades = false ∨ r.node ∉ s.tradeMembers ∨ r.window ≠ s.now / 1000000 ∨ 300000 < s.now % 1000000 →
      exec (.tradeReport r) s = .next s)) ∧
  (∀ (s : State) node watts, node < 65536 → (∀ own since, s.power.planAt = some (own, since) → s.now < since + 300000) →
    s.trades = true → node ∈ s.tradeMembers → s.power.grant < 2 ^ 32 →
    let w := min watts (((s.power.grant / 4 : Nat) : Int) - s.tradeOffset).toNat
    ∃ t, exec (.tradeToken node true watts) s = .next t ∧ t.tradeOffset = s.tradeOffset + w ∧
      lookup t.power.owes node = (if (lookup s.power.owes node).getD 0 + w = 0 then none else some ((lookup s.power.owes node).getD 0 + w)) ∧
      t.par (pk 0x3000 0) = t.limit ∧ t.out = s.out ++ (if w < watts then [.tradeToken node false (watts - w)] else [])) ∧
  (∀ (s : State) node watts, node < 65536 → (∀ own since, s.power.planAt = some (own, since) → s.now < since + 300000) →
    s.trades = false ∨ node ∉ s.tradeMembers → 0 < watts →
    ∃ t, exec (.tradeToken node true watts) s = .next t ∧ t.tradeOffset = s.tradeOffset ∧
      t.out = s.out ++ [.tradeToken node false watts]) ∧
  (∀ (s : State) node watts, node < 65536 → (∀ own since, s.power.planAt = some (own, since) → s.now < since + 300000) →
    s.tradeOffset + (min watts ((lookup s.power.owed node).getD 0) : Nat) < 2 ^ 31 →
    let w := min watts ((lookup s.power.owed node).getD 0)
    ∃ t, exec (.tradeToken node false watts) s = .next t ∧ t.tradeOffset = s.tradeOffset + w ∧ t.par (pk 0x3000 0) = t.limit ∧
      lookup t.power.owed node = (if (lookup s.power.owed node).getD 0 - w = 0 then none else some ((lookup s.power.owed node).getD 0 - w)))

/-- Watchdogs, engine resets, remote waits and mesh timeouts. An expired watchdog and a commanded reset each start a reset with one RESET
record of the unit, its command's partition and context, and its time, and abort the engine's transfers. The end of a reset frees the
engine and has a serving step whose command was lost run again once, or reports the block as failed at its limit of resets; an overrun, or
a reset controller that fails, is fatal. An expired remote wait drops its command, at a stream's head or of the Director, whose step it
breaks. Mesh timeouts are re-issued twice in a row and then reset the engine; a third engine's on one target within 1 ms is fatal. Records
of escalation are as in log entries 13 and 14. -/
def Obligations.EngineResets : Prop :=
  (∀ (s : State) e core lost, (engineKind e).isSome = true → s.engineLive e = true → (s.engine e).retired = false →
    (s.engine e).resetting = none → (s.engine e).running.isSome = true ∨ lost.isSome = true →
    (s.engine e).since + watchdogMs e * 1000000 ≤ s.now → (64 ≤ e → e < 76 → (s.fwInst (512 + (e - 64))).slot.st ≠ 2) →
    ∃ t n, exec (.watchdogExpiry e core lost) s = .next t ∧ (t.engine e).resetting = some ⟨s.now, ekWatchdog, lost, n⟩ ∧
      t.faultLog.getLast? = some (FaultRec.word ⟨ekWatchdog, engineLevel e, engineUnitKind e, e, s.engPhysical e 0, actReset,
        (s.cmdAt e lost).1, (s.cmdAt e lost).2, 0, n, core.getD 0,
        (s.now - (s.engine e).since) / 1000000⟩ s.now)) ∧
  (∀ (s : State) e lost, (engineKind e).isSome = true → s.enginesRun = true → (s.engine e).retired = false → (s.engine e).resetting = none →
    (64 ≤ e → e < 76 → (s.fwInst (512 + (e - 64))).slot.st ≠ 2) →
    ∃ t n, exec (.engineReset e lost) s = .next t ∧ (t.engine e).resetting = some ⟨s.now, ekCommanded, lost, n⟩ ∧
      t.faultLog.getLast? = some (FaultRec.word ⟨ekCommanded, engineLevel e, engineUnitKind e, e, s.engPhysical e 0, actReset,
        (s.cmdAt e lost).1, (s.cmdAt e lost).2, 0, n, 0, 0⟩ s.now) ∧
      (∀ x ∈ t.xfers, x.e = e → x.aborted = true)) ∧
  (∀ (s : State) e r, (engineKind e).isSome = true → (s.engine e).resetting = some r → s.now ≤ r.start + 200000 →
    r.count < s.par (pk 0x7022 0) →
    ∃ t, exec (.engineResetEnd e) s = .next t ∧ (t.engine e).resetting = none ∧ (t.engine e).running = none ∧ (t.engine e).going = none ∧
      (t.engine e).tiles = [] ∧
      (t.engine e).progress = s.now ∧
      ∀ p d, r.lost = some (p, d) → (s.engine e).running = none → (s.engine (e + 256)).running = none →
        t.inst p = if (s.inst p).rerun then { s.inst p with broken := true } else { s.inst p with rerun := true }) ∧
  (∀ (s : State) e r, e < 64 → (s.engine e).resetting = some r → s.now ≤ r.start + 200000 → s.par (pk 0x7022 0) ≤ r.count →
    ∃ t, exec (.engineResetEnd e) s = .next t ∧ (t.engine e).resetting = none ∧
      (t.engine e).reported = some ((s.engine e).reported.getD (r.cause, r.count))) ∧
  (∀ (s : State) e fails, (engineKind e).isSome = true → s.live = true →
    fails = true ∨ (∃ r, (s.engine e).resetting = some r ∧ r.start + 200000 < s.now) →
    ∃ t, exec (.resetOverrun ⟨e, fails⟩) s = .next t ∧
      FencedBy ⟨0x17, 3, engineUnitKind e, e, s.engPhysical e 0, actFatal, 0, 0, 0, 1, 0, 0⟩ s t) ∧
  (∀ (s : State) e p ctx st h, (engineKind e).isSome = true → p < 8 → ctx < 256 → s.stream p ctx e = some st → st.head = some h →
    hRemote h.desc = true → h.eligAt = none → s.headRuns (streamKey p ctx e) h = false → h.fetched + 500000000 ≤ s.now →
    (∀ q ∈ (s.engine (s.host e)).parts, q.p = p → q.ctx ≠ ctx) →
    ∃ t, exec (.remoteWaitExpiry e p ctx) s = .next t ∧ t.stream p ctx e = some { st with head := none } ∧
      t.faultLog.getLast? = some (FaultRec.word ⟨0x0F, 2, engineUnitKind e, e, s.engPhysical e 0, actReset, p, ctx, 0, 1, 0, 0⟩ s.now) ∧
      t.par (pk 0x8052 9) = add64 (s.par (pk 0x8052 9)) 1) ∧
  (∀ (s : State) e p q, (engineKind e).isSome = true → p < 8 → q.ctx < 256 → q.p = p → (s.engine (s.host e)).parts = [q] → q.wait = .issue →
    hRemote q.desc = true → q.ready = false → q.since + 500000000 ≤ s.now → s.stream p q.ctx e = none →
    ∃ t, exec (.remoteWaitExpiry e p q.ctx) s = .next t ∧ (t.engine (s.host e)).parts = [] ∧
      t.faultLog.getLast? = some (FaultRec.word ⟨0x0F, 2, engineUnitKind e, e, s.engPhysical e 0, actReset, p, q.ctx, 0, 1, 0, 0⟩ s.now) ∧
      t.par (pk 0x8052 9) = add64 (s.par (pk 0x8052 9)) 1 ∧
      (s.serving p = true → q.ctx = s.servCtx p → (t.inst p).broken = ((s.inst p).broken || (s.inst p).run.isSome))) ∧
  (∀ (s : State) e target lost, (engineKind e).isSome = true → (s.engine e).resetting = none →
    let others := (s.meshHits.filter fun h => s.now ≤ h.2.2 + 1000000 && h.1 == target && h.2.1 != e).length
    (others < 2 → (s.engine e).meshRun < 2 → ∃ t, exec (.meshTimeout e target lost) s = .next t ∧
      (t.engine e).meshRun = (s.engine e).meshRun + 1 ∧ t.faultLog.getLast? = some (FaultRec.word ⟨ekMesh, 2, engineUnitKind e, e,
        s.engPhysical e 0, actReissued, 0, 0, 0, (s.engine e).meshRun + 1, 0, 0⟩ s.now)) ∧
    (others < 2 → 2 ≤ (s.engine e).meshRun → s.enginesRun = true → (s.engine e).retired = false →
      (64 ≤ e → e < 76 → (s.fwInst (512 + (e - 64))).slot.st ≠ 2) →
      ∃ t n, exec (.meshTimeout e target lost) s = .next t ∧ (t.engine e).meshRun = 0 ∧
        (t.engine e).resetting = some ⟨s.now, ekMesh, lost, n⟩) ∧
    (2 ≤ others → s.live = true → ∃ t, exec (.meshTimeout e target lost) s = .next t ∧
      FencedBy ⟨ekMesh, 3, target / 256 % 16, target % 256, 0, actFatal, 0, 0, 0, 1, 0, 0⟩ s t))

/-- FENCED, the Director's heartbeat, crash dumps, restores, the reference clock and bridge flits. Entering FENCED from a live state stops
every engine, closes sessions, starts a dump and writes a FATAL record; from another state it does nothing. A missed heartbeat, or an
error that cannot be corrected in a core's own memory, uses the spare core or is fatal without one. A dump starts once and its end fills
its slot and the summary. The fault log's newest 256 records are committed. A unit that passes its test is restored with a RESTORED
record, one that fails it stays retired. The reference clock lost for more than 1 ms, and the 17th failure of one bridge flit, are fatal;
a shorter loss and an earlier failure are recorded. -/
def Obligations.FatalDumpsAndSpares : Prop :=
  (∀ (s : State), s.live = true → ∃ t, exec .enterFenced s = .next t ∧
    FencedBy ⟨ekCommanded, 3, ukDirector, 0xFF, 0, actFatal, 0, 0, 0, 1, 0, 0⟩ s t) ∧
  (∀ (s : State), s.live = false → exec .enterFenced s = .next s) ∧
  (∀ (s : State) core ms err, core < 8 → (100 ≤ ms ∨ err ≠ 0) → s.directorRuns = true → (s.fwInst 256).slot.st ≠ 2 →
    let r : FaultRec := ⟨if err = 0 then ekWatchdog else err, 3, ukDirector, 0xFF, physical 0 (s.subPhys ukDirector 0 core) 0, actSpared,
      0, 0, 0, 1, core, if err = 0 then ms else 0⟩
    (s.par spareDirectorKey = 0 → ∃ t, exec (.heartbeatMiss core ⟨ms, err⟩) s = .next t ∧ t.par spareDirectorKey = 1 ∧
      t.subPhys ukDirector 0 core = s.subPhys ukDirector 0 31 ∧ t.faultLog.getLast? = some (r.word s.now) ∧ t.mode = s.mode) ∧
    (s.par spareDirectorKey ≠ 0 → ∃ t, exec (.heartbeatMiss core ⟨ms, err⟩) s = .next t ∧ FencedBy r s t)) ∧
  (∀ (s : State), s.dumpRun = none → exec .dumpStart s = .next (State.setPar { s with
      dumpRun := some ⟨3, modeCode s.mode, s.now, (s.par (pk 0x7100 1) - 1) % 4096, s.dumpSlot⟩ } (pk 0x7200 2) 1)) ∧
  (∀ (s : State) d, s.dumpRun = some d → exec .dumpStart s = .next s) ∧
  (∀ (s : State) d late, s.dumpRun = some d → s.life.restart = none → ∃ t, exec (.dumpComplete late) s = .next t ∧ t.dumpRun = none ∧
    t.par (pk 0x7200 2) = 2 ∧ t.dumps = (s.dumps.filter fun x => x.1 != d.slot) ++ [(d.slot, (s.dumpBytes d late).1)] ∧
    t.dumpSummary = (s.dumpBytes d late).2 ++ (s.faultLog.drop (s.faultLog.length - 256)).flatMap fun r => toBytes r 32) ∧
  (∀ (s : State), exec .faultLogCommit s = .next { s with flashLog := s.faultLog.drop (s.faultLog.length - 256), flashDue := none }) ∧
  (∀ (s : State) v, v ∈ s.retired →
    exec (.unitRestore v false) s = .next s ∧
    (v / 2 ^ 16 = ukStage ∨ (∃ key, s.restoreKey v = some key ∧ s.par key ≠ 0) → ∃ t, exec (.unitRestore v true) s = .next t ∧
      v ∉ t.retired ∧ lookup t.tests v = some (0, s.now) ∧ t.par (pk 0x3000 0) = t.limit ∧
      (∀ key, s.restoreKey v = some key → v / 2 ^ 16 ≠ ukPhase → t.par key = 0) ∧
      t.faultLog.getLast? = some (FaultRec.word ⟨ekCommanded, if v / 2 ^ 16 = ukCell then 0 else if v / 2 ^ 16 = ukBlock then 2 else 3,
        v / 2 ^ 16,
        0xFF, v % 2 ^ 16, actRestored, 0, 0, 0, 1, 31, 0⟩ s.now))) ∧
  (∀ (s : State), s.power.refLost = none → s.powered = true → ∃ t, exec .refclkLoss s = .next t ∧ t.power.refLost = some s.now) ∧
  (∀ (s : State) t0, s.power.refLost = some t0 →
    (t0 + 1000000 < s.now → s.live = true → ∃ t, exec .refclkLoss s = .next t ∧
      FencedBy ⟨0x18, 3, ukMesh, 0xFF, 0, actFatal, 0, 0, 0, 1, 0, 0⟩ s t) ∧
    (s.now ≤ t0 + 1000000 → ∃ t, exec .refclkReturn s = .next t ∧ t.power = { s.power with refLost := none } ∧ t.mode = s.mode ∧
      t.faultLog.getLast? = some (FaultRec.word ⟨0x18, 3, ukMesh, 0xFF, 0, actCounted, 0, 0, 0, 1, 0, 0⟩ s.now))) ∧
  (∀ (s : State) bridge flit, bridge < 6 → s.powered = true →
    let n := match lookup s.bridges bridge with
      | some (f, r) => if f == flit then r + 1 else 0
      | none => 0
    (n < 16 → ∃ t, exec (.bridgeFlitError bridge flit) s = .next t ∧ t.bridges = insertAt s.bridges bridge (flit, n) ∧ t.mode = s.mode ∧
      t.faultLog.getLast? = some (FaultRec.word ⟨0x14, 3, ukMesh, 0xFF, 0, actReissued, 0, 0, 0, n + 1, 0, 0⟩ s.now)) ∧
    (16 ≤ n → s.live = true → ∃ t, exec (.bridgeFlitError bridge flit) s = .next t ∧
      FencedBy ⟨0x14, 3, ukMesh, 0xFF, 0, actFatal, 0, 0, 0, 1, 0, 0⟩ s t))

/-- READ, DESCRIBE, LIST, BLOB_READ, DISCOVER, SUBSCRIBE, UNSUBSCRIBE and EVENT_ACK outside a session. Each such request that is taken is
answered on its path with exactly its response: the items read, the description, the list, the next 1,024 bytes of a blob, the identity,
the free slot, or success; SUBSCRIBE fills its slot, UNSUBSCRIBE empties it, and EVENT_ACK drops from each of the source's slots what it
acknowledges. Corners of these operations are in log entries 32 to 34. -/
def Obligations.RequestsAreAnswered : Prop :=
  ∀ (s : State) (path src : Nat) (p : Pdu),
    (s.observed path src p →
      (p.op = 0x01 → (parseItems 64 p.body = none → ∃ t, exec (.read path src p) s = .next t ∧
        Answered path src (p.response none (.of 0x10)) s t) ∧
        ∀ l, parseItems 64 p.body = some l → ∃ t, exec (.read path src p) s = .next t ∧ Answered path src
          (p.response none ⟨0, itemsBytes (l.map fun i => ((accruePennants (if path = 3 then s.bump (pk 0x48E1 1) 1 else s)).2.readItem false i).1), false⟩) s t) ∧
      (p.op = 0x03 → ∃ t, exec (.describe path src p) s = .next t ∧
        Answered path src (p.response none (opDescribe (s.par (pk 0x1002 0) == 2) false p.body)) s t) ∧
      (p.op = 0x04 → ∃ t, exec (.list path src p) s = .next t ∧ Answered path src (p.response none (opList false path p.body)) s t) ∧
      (p.op = 0x05 → ∀ i v j, parseItems 64 p.body = some [i] → i.value.length = 4 →
        (accruePennants (if path = 3 then s.bump (pk 0x48E1 1) 1 else s)).2.readItem false i = (j, some v) → j.ty = 11 →
        ∃ t, exec (.blobRead path src p) s = .next t ∧ Answered path src (p.response none
          ⟨0, PduItem.bytes { j with value := (v.drop (ofBytes i.value)).take 1024 }, decide (ofBytes i.value + 1024 < v.length)⟩) s t) ∧
      (p.op = 0x30 → path ≠ 2 → ∃ t, exec (.discover path src p) s = .next t ∧ Answered path src (p.response none ⟨0,
        (s.serial ++ List.replicate 16 0).take 16 ++ [s.par (pk 0x1007 0) % 256, s.par (pk 0x1002 0) % 256, modeCode s.mode] ++
          toBytes s.nodeId 2, false⟩) s t) ∧
      (p.op = 0x20 → p.body.length = 32 → (s.subs.find? fun u => u.2.path == path && u.2.dest == src && u.2.mask == ofBytes p.body) = none →
        ∀ i, s.freeSub = some i → ∃ t, exec (.subscribe path src p) s = .next t ∧
          lookup t.subs i = some ⟨path, src, ofBytes p.body, 0, 0, 0, 0, 0, [], 0, 0⟩ ∧
            Answered path src (p.response none ⟨0, [i], false⟩) s t) ∧
      (p.op = 0x21 → ∀ i, p.body = [i] → i < 16 → (s.subAt i).path = path → (s.subAt i).dest = src →
        ∃ t, exec (.unsubscribe path src p) s = .next t ∧ lookup t.subs i = none ∧ Answered path src (p.response none (.of 0)) s t) ∧
      (p.op = 0x23 → p.body.length = 4 → ∃ t, exec (.eventAck path src p) s = .next t ∧
        ∀ i u, lookup s.subs i = some u → u.path = path → u.dest = src → ∃ v, lookup t.subs i = some v ∧
          v.delivered = max u.delivered (min (ofBytes p.body) u.seq) ∧ (∀ x ∈ v.queue, x.1 = 0 ∨ min (ofBytes p.body) u.seq < x.1)))

/-- CHALLENGE, LOGIN, LOGOUT, BLOB_WRITE and WRITE. CHALLENGE makes an unopened session with the requester's nonce and role; LOGIN with
the right proof and a key that is not zero opens it, and a wrong proof drops it and is counted. LOGOUT closes the session. BLOB_WRITE
begins a transfer at offset 0 and continues it at its length. A WRITE with one item that fails its check changes no parameter; a WRITE of
one plain parameter stores its value, clamped. The module's nonces are free values (log entry 7). -/
def Obligations.SessionsOpenAndClose : Prop :=
  ∀ (s : State) (path src : Nat) (p : Pdu),
    (s.observed path src p → p.op = 0x10 → p.body.length = 17 → ∀ role, p.body.head? = some role → 0 < role → role ≤ 3 →
      (role = 3 → path = 1) → s.lockedOut path src = false → (s.elo.sessions.filter fun x => x.isOpen).length < 16 →
      ∃ t z, exec (.challenge path src p) s = .next t ∧ z ∈ t.elo.sessions ∧ z.role = role ∧ z.path = path ∧ z.src = src ∧
        z.isOpen = false ∧ z.nc = p.body.drop 1 ∧ z.born = s.now ∧
          Answered path src (p.response none ⟨0, toBytes z.id 2 ++ z.nm, false⟩) s t) ∧
    (∀ x, s.takes path src p → p.op = 0x11 → p.tagged = false → p.session ≠ 0 → s.session p.session = some x → x.path = path → x.src = src →
      x.isOpen = false → s.now < x.born + 5000000000 → p.body.length = 32 →
      let key := toBytes (s.par (roleKey x.role)) 32
      let y : Session := { x with isOpen := true, key := x.sessionKey key, seq := p.seq, tx := p.txid, last := s.now }
      ((∃ b ∈ key, b ≠ 0) → p.body = s.proof x key → ∃ t, exec (.login path src p) s = .next t ∧
        t.session x.id = some { y with resp := some (p.response (some y) (.of 0)) } ∧ Answered path src (p.response (some y) (.of 0)) s t) ∧
      (p.body ≠ s.proof x key → ∃ t, exec (.login path src p) s = .next t ∧ t.session x.id = none ∧
        t.par (pk 0x8053 3) = add64 (s.par (pk 0x8053 3)) 1 ∧ Answered path src (p.response none (.of 3)) s t)) ∧
    (∀ x, s.inSession path src p x →
      (p.op = 0x12 → ∃ t, exec (.logout path src p) s = .next t ∧ t.session x.id = none) ∧
      (p.op = 0x06 → bit p.flags 2 = true → ∀ i r, parseItems 64 p.body = some [i] → 4 ≤ i.value.length → i.value.length ≤ 1024 →
        dictFind i.index i.sub = some r → r.ty = .blob → writeCheck x.role false i = 0 →
        (x.blob = none → ofBytes (i.value.take 4) = 0 → ∃ t z, exec (.blobWrite path src p) s = .next t ∧ t.session x.id = some z ∧
          z.blob = some ⟨pk i.index i.sub, i.value.drop 4, s.now⟩) ∧
        (∀ b, x.blob = some b → b.key = pk i.index i.sub → ofBytes (i.value.take 4) = b.bytes.length →
          ∃ t z, exec (.blobWrite path src p) s = .next t ∧ t.session x.id = some z ∧
            z.blob = some ⟨b.key, b.bytes ++ i.value.drop 4, s.now⟩)) ∧
      (p.op = 0x02 → ∀ l, parseItems 64 p.body = some l → (∃ i ∈ l, writeCheck x.role false i ≠ 0) →
        ∃ t, exec (.write path src p) s = .next t ∧ t.mem = s.mem ∧ ∀ k, k ≠ pk 0x8053 1 → k ≠ pk 0x48E1 1 → t.par k = s.par k) ∧
      (p.op = 0x02 → ∀ i r, parseItems 64 p.body = some [i] → i.sub < 256 → writeCheck x.role false i = 0 →
        dictFind i.index i.sub = some r →
        r.acc = .rw ∨ r.acc = .rwp → i.index < 0x9001 → dependents (pk i.index i.sub) = [pk i.index i.sub] → isUserCal i.index = false →
        (∀ (u : State) v, u.dependValue (pk i.index i.sub) v = v) →
        ∃ t, exec (.write path src p) s = .next t ∧
          t.par (pk i.index i.sub) = clampValue r i.sub (paramDefault (pk i.index i.sub)) (ofBytes i.value)))

/-- Sessions and transfers time out; resends, persistence, defaults and calibration. An unopened session closes after 5 s and an idle one
after 60 s, a blob transfer ends after 5 s without a segment, and a closed session is gone. Undelivered events are sent again after 100
ms, up to ten times. A due commit writes what persists. RESTORE_DEFAULTS takes effect at the next BOOT. A user calibration reset turns
every user record off and leaves its factory values in force. -/
def Obligations.SessionsAndTransfersTimeOut : Prop :=
  (∀ (s : State) id x, s.session id = some x →
    (x.isOpen = false → x.born + 5000000000 ≤ s.now → exec (.loginTimeout id) s = .next (s.closeSessions fun y => y.id == id)) ∧
    (x.isOpen = true → x.last + 60000000000 ≤ s.now → exec (.sessionIdleTimeout id) s = .next (s.closeSessions fun y => y.id == id)) ∧
    (∀ b, x.blob = some b → b.last + 5000000000 ≤ s.now → ∃ t, exec (.blobTransferTimeout id) s = .next t ∧
      t.session id = some { x with blob := none })) ∧
  (∀ (s : State) id, exec (.sessionClose id) s = .next (s.closeSessions fun y => y.id == id) ∧
    (s.closeSessions fun y => y.id == id).session id = none) ∧
  (∀ (s : State) slot u, slot < 16 → lookup s.subs slot = some u → (∃ x ∈ u.queue, x.1 ≠ 0) → u.path ≠ 2 → u.lastSend + 100000000 ≤ s.now →
    u.resends < 10 → ∃ t, exec (.eventResend slot) s = .next t ∧
      lookup t.subs slot = some { u with resends := u.resends + 1, lastSend := s.now } ∧ s.out.length < t.out.length) ∧
  (∀ (s : State), s.elo.due.isSome = true → s.powered = true → exec .persistCommit s = .next s.commitFlash) ∧
  (∀ (s : State), exec .restoreDefaults s = .next { s with elo := { s.elo with restore := true } }) ∧
  (∀ (s : State) i, i ∈ s.calRecords → ∃ t, exec .userCalReset s = .next t ∧ t.par (pk i 1) = 0 ∧ t.par (pk i 3) = t.effective i)

/-- Register reads, segments, FLT_PENDING, PWR_CAP_REQ and the mailbox. A 4-byte read of a register's low half answers its low word and
latches the high one, which the next high-half read of that register answers; a 4-byte read at the high half is a high-half read. A read
of all 8 bytes answers the register at once with no latch left, and a read of another width answers ones. A write of a BAR2 segment is
clamped. FLT_PENDING bits clear where 1 is written. PWR_CAP_REQ sets the cap where the port may, and is counted where not. A mailbox
doorbell while one is busy, or in FENCED, is discarded and counted; otherwise a malformed request is answered BAD_FRAME and a LIST is
answered with its list. Register corners are in log entries 24 to 26. -/
def Obligations.PortRegisters : Prop :=
  (∀ (s : State) h off, h < 4 → (s.hostPort h).up = true →
    let v := s.register h (off / 8 * 8)
    (off % 8 = 0 → ∃ t, exec (.lowHalfRead h ⟨off, 4⟩) s = .next t ∧ t.out = s.out ++ [.completion h (toBytes v 4) false false] ∧
      (bufferOffset off = false → (t.hostPort h).latch = some (off / 8 * 8, v / 2 ^ 32))) ∧
    (off % 8 = 4 → exec (.lowHalfRead h ⟨off, 4⟩) s = exec (.highHalfRead h off) s) ∧
    (off % 8 = 0 → ∃ t, exec (.lowHalfRead h ⟨off, 8⟩) s = .next t ∧ t.out = s.out ++ [.completion h (toBytes v 8) false false] ∧
      (t.hostPort h).latch = none) ∧
    (∀ n, n ≠ 4 → n ≠ 8 → ∃ t, exec (.lowHalfRead h ⟨off, n⟩) s = .next t ∧
      t.out = s.out ++ [.completion h (List.replicate n 255) false false])) ∧
  (∀ (s : State) h off, h < 4 → (s.hostPort h).up = true →
    ∃ t, exec (.highHalfRead h off) s = .next t ∧ (t.hostPort h).latch = none ∧
      (∀ w, (s.hostPort h).latch = some (off / 8 * 8, w) → t.out = s.out ++ [.completion h (toBytes w 4) false false]) ∧
      ((∀ w, (s.hostPort h).latch ≠ some (off / 8 * 8, w)) →
        t.out = s.out ++ [.completion h (toBytes (s.register h (off / 8 * 8) / 2 ^ 32) 4) false false])) ∧
  (∀ (s : State) h i data, h < 4 → i < 16 → (s.hostPort h).up = true → data.length = 8 →
    ∃ t, exec (.registerWrite h (0x200 + 8 * i) data) s = .next t ∧
      let w := ofBytes data % 2 ^ 64
      getC (fun _ => 0) (t.hostPort h).segs i = bits w 63 63 * 2 ^ 63 + min (bits w 39 32) 0xBF * 2 ^ 32 ∧
      t.par (pk 0x1F00 4) = (if 0xBF < bits w 39 32 then add64 (s.par (pk 0x1F00 4)) 1 else s.par (pk 0x1F00 4))) ∧
  (∀ (s : State) h part v, h < 4 → (s.hostPort h).up = true → hasLow part = true →
    ∃ t, exec (.fltPending h part v) s = .next t ∧ t.fltPending < 64 ∧
      ∀ i, i < 6 → bit t.fltPending i = (bit s.fltPending i && !bit v i)) ∧
  (∀ (s : State) h part v, h < 4 → (s.hostPort h).up = true → hasLow part = true →
    (bit (s.par (pk 0x4801 0)) h = false → ∃ t, exec (.pwrCapReq h part v) s = .next t ∧ t.par (pk 0x3010 0) = s.par (pk 0x3010 0) ∧
      t.par (pk 0x48E0 6) = add64 (s.par (pk 0x48E0 6)) 1) ∧
    (bit (s.par (pk 0x4801 0)) h = true → s.directorRuns = true → 700 ≤ v % 2 ^ 13 → v % 2 ^ 13 ≤ s.gradeCeiling →
      ∃ t, exec (.pwrCapReq h part v) s = .next t ∧ t.par (pk 0x3010 0) = v % 2 ^ 13 ∧ t.par (pk 0x3000 0) = t.limit)) ∧
  (∀ (s : State) h part v, h < 4 → (s.hostPort h).up = true → hasLow part = true →
    ∃ t, exec (.hpMbxEvtAck h part v) s = .next t ∧ (t.hostPort h).evtAck = v % 2 ^ 32 ∧
      ∀ i u, lookup s.subs i = some u → u.path = 2 → u.dest = h → ∃ x, lookup t.subs i = some x ∧
        x.delivered = max u.delivered (min (v % 2 ^ 32) u.seq)) ∧
  (∀ (s : State) h part v, h < 4 → (s.hostPort h).up = true → hasLow part = true →
    (s.hostPort h).mbxState = 1 ∨ s.mode = .fenced → ∃ t, exec (.hpMbxDoorbell h part v) s = .next t ∧
      t.par (pk 0x8049 4) = add64 (s.par (pk 0x8049 4)) 1 ∧ (t.hostPort h).mbxState = (s.hostPort h).mbxState) ∧
  (∀ (s : State) h part v, h < 4 → (s.hostPort h).up = true → hasLow part = true → (s.hostPort h).mbxState ≠ 1 → s.mode = .serving →
    let bs := getBytes (s.hostPort h).req 0 (clampTo 16 4096 (v % 2 ^ 13))
    (pduOf bs = none → ∃ t, exec (.hpMbxDoorbell h part v) s = .next t ∧ (t.hostPort h).mbxState = 2 ∧
      (t.hostPort h).mbxDoor = clampTo 16 4096 (v % 2 ^ 13) ∧
      (t.hostPort h).rsp = putBytes (s.hostPort h).rsp 0 (Pdu.bytes ⟨1, nth bs 1, 1, 0x10, 0, ofBytes (getBytes (s.hostPort h).req 8 4),
        0, [], []⟩)) ∧
    (∀ p, pduOf bs = some p → p.framed 2 = true → p.session = 0 → p.tagged = false → p.op = 0x04 → (∀ u ∈ s.slotsOf 2 h, u.2.resends < 10) →
      ∃ t, exec (.hpMbxDoorbell h part v) s = .next t ∧ (t.hostPort h).mbxState = 2 ∧
        (t.hostPort h).rsp = putBytes (s.hostPort h).rsp 0 (p.response none (opList false 2 p.body)).bytes))

/-- Doorbells of a partition: refused, taken and clamped. Through a port that does not reach the partition, or in FENCED, each of the five
doorbells changes no doorbell and no stream and is counted. Otherwise a request, cancel or control doorbell becomes the count written,
clamped to the ring size past the consumed count, a completion doorbell becomes the count written, and a command doorbell of an open
context's stream sets the stream's written count clamped likewise. -/
def Obligations.Doorbells : Prop :=
  (∀ (s : State) h p part v, h < 4 → p < 8 → (s.hostPort h).up = true → s.portReaches h p = false ∨ s.mode = .fenced →
    ∀ c ∈ [Instr.dirReqDoorbell h p part v, .dirCancelDoorbell h p part v, .dirCplDoorbell h p part v, .dirCmdDoorbell h p part v,
      .dirCtlDoorbell h p part v], ∃ t, exec c s = .next t ∧ t.doors = s.doors ∧ t.streams = s.streams ∧
        t.par (pk 0x8049 4) = add64 (s.par (pk 0x8049 4)) 1) ∧
  (∀ (s : State) h p part v, h < 4 → p < 8 → (s.hostPort h).up = true → s.portReaches h p = true → s.mode ≠ .fenced → hasLow part = true →
    (∃ t, exec (.dirReqDoorbell h p part v) s = .next t ∧
      t.door p 0 = (s.door p 1 + min (ahead (v % 2 ^ 32) (s.door p 1)) (s.eff' (pk 0x583C (p + 1)))) % 2 ^ 32) ∧
    (∃ t, exec (.dirCancelDoorbell h p part v) s = .next t ∧
      t.door p 2 = (s.door p 3 + min (ahead (v % 2 ^ 32) (s.door p 3)) (s.eff' (pk 0x583E (p + 1)))) % 2 ^ 32) ∧
    (∃ t, exec (.dirCplDoorbell h p part v) s = .next t ∧ t.door p 4 = v % 2 ^ 32) ∧
    (∃ t, exec (.dirCtlDoorbell h p part v) s = .next t ∧
      t.door p 5 = (s.door p 6 + min (ahead (v % 2 ^ 32) (s.door p 6)) (s.ctlRing p).2) % 2 ^ 32)) ∧
  (∀ (s : State) h p v st, h < 4 → p < 8 → (s.hostPort h).up = true → s.portReaches h p = true → s.mode ≠ .fenced →
    s.par (pk 0x7803 0) ≠ 1 →
    let c := bits v 55 48
    let e := bits v 47 40
    s.stream p c e = some st → (s.ctx p c).st = .opened → st.unbind = [] →
    ∃ t, exec (.dirCmdDoorbell h p .whole v) s = .next t ∧
      let w := (st.fetched + min (ahead (v % 2 ^ 32) st.fetched) (2 ^ st.log2)) % 2 ^ 32
      t.stream p c e = some { st with written := w } ∧ t.door p 7 = c * 2 ^ 48 + e * 2 ^ 40 + w)

/-- BAR2 reads, writes and atomics, and the module's own reads of host memory. A BAR2 read of allowed, readable bytes answers them, and of
others answers zeros and is counted. A BAR2 write of allowed good bytes changes exactly those, and another changes none and is counted. An
atomic answers the old word and writes exactly the new one. A completion of the module's read writes exactly its data, and a read with no
completion for 10 ms is counted and leaves its codewords bad. -/
def Obligations.HostMemory : Prop :=
  (∀ (s : State) h off n a, h < 4 → (s.hostPort h).up = true → s.bar2Off = false → 0 < n → off % 64 + n ≤ 64 →
    s.bar2Address h off = some a →
    (s.bar2Line h a = true → s.clean .director a n →
      ∃ t, exec (.bar2Read h off n) s = .next t ∧ t.out = s.out ++ [.completion h (toBytes (s.readVal .director a n) n) false false]) ∧
    (s.bar2Line h a = false → ∃ t, exec (.bar2Read h off n) s = .next t ∧
      t.out = s.out ++ [.completion h (List.replicate n 0) false false] ∧ t.par (pk 0x8042 4) = add64 (s.par (pk 0x8042 4)) 1)) ∧
  (∀ (s : State) h off data a, h < 4 → (s.hostPort h).up = true → s.bar2Off = false → s.mode ≠ .fenced → data ≠ [] →
    off % 64 + data.length ≤ 64 → s.bar2Address h off = some a →
    (s.bar2Line h a = true → (∀ x, a ≤ x → x < a + data.length → (tierOf x).isT0T1 = true ∧ s.badAt (x / 32) = false) →
      ∃ t, exec (.bar2Write h off data false) s = .next t ∧ ∀ x, x < 0x800000000000 →
        t.byte x = if a ≤ x ∧ x < a + data.length then BitVec.ofNat 8 (data.getD (x - a) 0) else s.byte x) ∧
    (s.bar2Line h a = false → ∃ t, exec (.bar2Write h off data false) s = .next t ∧ t.mem = s.mem ∧
      t.par (pk 0x8042 4) = add64 (s.par (pk 0x8042 4)) 1)) ∧
  (∀ (s : State) h off op a b x, h < 4 → (s.hostPort h).up = true → s.bar2Off = false → s.mode ≠ .fenced → off % 8 = 0 →
    s.bar2Address h off = some x → s.bar2Line h x = true → s.atomicOk .director x = true → s.clean .director x 8 →
    ∃ t, exec (.atomicOp h off 8 op a b) s = .next t ∧
      t.out = s.out ++ [.completion h (toBytes (s.readVal .director x 8) 8) false false] ∧
      ∀ y, y < 0x800000000000 → t.byte y = if x ≤ y ∧ y < x + 8 then
        BitVec.ofNat 8 ((toBytes (atomicNew op a b (s.readVal .director x 8) % 2 ^ 64) 8).getD (y - x) 0) else s.byte y) ∧
  (∀ (s : State) h a n t0 data, h < 4 → 0x400000000000 ≤ a → a + n ≤ 0x800000000000 → data.length = n → data ≠ [] →
    (s.hostReads.find? fun r => r.1 == h && r.2.1 == a && decide (n ≤ r.2.2.1) && !data.isEmpty) = some (h, a, n, t0) →
    ∃ t, exec (.hostReadCompletion h a data false) s = .next t ∧ (h, a, n, t0) ∉ t.hostReads ∧
      ∀ x, x < 0x800000000000 → t.byte x = if a ≤ x ∧ x < a + n then BitVec.ofNat 8 (data.getD (x - a) 0) else s.byte x) ∧
  (∀ (s : State) h a n t0, h < 4 → (s.hostReads.find? fun r => r.1 == h && r.2.1 == a &&
    decide (r.2.2.2 + 10000000 ≤ s.now)) = some (h, a, n, t0) →
    ∃ t, exec (.completionTimeout h a) s = .next t ∧ (h, a, n, t0) ∉ t.hostReads ∧
      t.par (pk 0x48E0 3) = add64 (s.par (pk 0x48E0 3)) 1 ∧ ∀ c ∈ codewords a n, t.badAt c = true)

/-- Host links: loss, function-level reset, configuration, training and PERST_N. A surprise-down takes the port down, is counted and drops
its reads. A function-level reset puts that port alone into its state after reset. Configuration writes set bus mastering, the power
state, the HDM decoder of a CXL port and MSI-X. A trained link is up with its width, rate and mode, CXL where the port allows it. PERST_N
takes the port down while it is low. PCI Express state that the spec leaves to its standard is log entry 27. -/
def Obligations.HostLinks : Prop :=
  (∀ (s : State) h, h < 4 → (s.hostPort h).up = true →
    (∃ t, exec (.surpriseDown h) s = .next t ∧ (t.hostPort h).up = false ∧ t.par (pk 0x48E0 1) = add64 (s.par (pk 0x48E0 1)) 1 ∧
      ∀ r ∈ t.hostReads, r.1 ≠ h) ∧
    (∃ t, exec (.functionLevelReset h) s = .next t ∧ t.hostPort h = (s.hostPort h).afterReset ∧
      t.par (pk 0x48E0 2) = add64 (s.par (pk 0x48E0 2)) 1 ∧ ∀ q, q ≠ h → t.hostPort q = s.hostPort q) ∧
    (∀ on, ∃ t, exec (.configurationWrite h (.busMaster on)) s = .next t ∧ (t.hostPort h).bme = on) ∧
    (∀ on, ∃ t, exec (.configurationWrite h (.powerState on)) s = .next t ∧ (t.hostPort h).d3 = on) ∧
    (∀ on, exec (.configurationWrite h (.hdmCommit on)) s = .next (s.setHostPort h { s.hostPort h with hdm := on && (s.hostPort h).cxl })) ∧
    (∀ on mask, ∃ t, exec (.configurationWrite h (.msix on mask)) s = .next t ∧ (t.hostPort h).msixOn = on ∧ (t.hostPort h).fmask = mask)) ∧
  (∀ (s : State) h width rate flit cxl again, h < 4 → s.portsTrain = true → (s.hostPort h).perst = false → (s.hostPort h).up = false →
    ∃ t, exec (.hostLinkUp h width rate flit cxl again) s = .next t ∧ (t.hostPort h).up = true ∧ (t.hostPort h).width = width % 32 ∧
      (t.hostPort h).rate = rate % 16 ∧ (t.hostPort h).flit = flit ∧
      (t.hostPort h).cxl = (cxl && s.par (pk 0x4800 (h + 1)) == 1) ∧ (again = true → (t.hostPort h).bme = false ∧
        (t.hostPort h).window = 0)) ∧
  (∀ (s : State) h, h < 4 → (s.hostPort h).perst = false → ∃ t, exec (.perstN h true) s = .next t ∧ (t.hostPort h).perst = true ∧
    (t.hostPort h).up = false ∧ t.par (pk 0x48E0 2) = add64 (s.par (pk 0x48E0 2)) 1) ∧
  (∀ (s : State) h, h < 4 → exec (.perstN h false) s = .next (s.setHostPort h { s.hostPort h with perst := false }))

/-- Start-up, drain, restart, SAFE, standby and wake. BOOT passes to SELFTEST with the boot image's status, SELFTEST to TRAINING unless no
image is good, and TRAINING to READY when every group is settled. A drain stops partitions by its timeout and ends in REMOVABLE with no
session, load, running unit or host port. A restart goes to BOOT with fabric time 0 and says what was kept, or is held in SAFE and while a
dump runs until its condition holds. Standby pauses copies and stops a vault load, and wake resumes. -/
def Obligations.StartupDrainAndRestart : Prop :=
  (∀ (s : State) a b, s.mode = .boot → s.par (pk 0x3305 0) ≠ 2 → ∃ t, exec (.bootDone a b) s = .next t ∧ t.mode = .selftest ∧
    t.par (pk 0x1008 0) = 3 ∧ t.power.lossRec = none ∧ t.par (pk 0x2000 4) = if a then 0 else if b then 1 else 2) ∧
  (∀ (s : State) failed, s.mode = .selftest → s.par (pk 0x2000 4) ≠ 2 → ∃ t, exec (.selftestDone failed) s = .next t ∧ t.mode = .training ∧
    t.par (pk 0x1008 0) = 4 ∧ t.life.tested = s.now ∧ ∀ g, g < 24 →
      (bit (s.par (pk 0x4008 0)) g = true → t.linkState g = 5) ∧
      (bit (s.par (pk 0x4008 0)) g = false → s.groupStarts g = true → t.linkState g = 1)) ∧
  (∀ (s : State), s.mode = .selftest → s.par (pk 0x2000 4) = 2 → ∃ t, exec (.selftestDone []) s = .next t ∧ t.mode = .selftest) ∧
  (∀ (s : State), s.mode = .training → s.trainingOver = true → ∃ t, exec .trainingEnd s = .next t ∧ t.life.starts = [] ∧
    t.power.gateSince = s.now ∧ (s.life.starts = [] → t.mode = .ready ∧ t.par (pk 0x1008 0) = 5)) ∧
  (∀ (s : State), s.mode = .ready ∨ s.mode = .serving → ∃ t, exec .moduleDrain s = .next t ∧ t.mode = .draining ∧
    t.life.drainAt = some s.now ∧ t.life.starts = [] ∧ t.par (pk 0x7803 0) = 0) ∧
  (∀ (s : State) t0, s.mode = .draining → s.life.drainAt = some t0 → t0 + s.par (pk 0x7802 0) * 1000000000 ≤ s.now →
    ∃ t, exec .drainTimeout s = .next t ∧ t.mode = .draining ∧ t.vaultLoad = none ∧ ∀ p, p < 8 → t.par (pk 0x5001 (p + 1)) ≠ 2) ∧
  (∀ (s : State), s.mode = .draining → (∀ p, p < 8 → s.par (pk 0x5001 (p + 1)) = 0) → s.life.fwCheck = none → s.life.fwQueue = [] →
    ∃ t, exec .drainComplete s = .next t ∧ t.mode = .removable ∧ t.par (pk 0x1008 0) = 10 ∧ t.elo.sessions = [] ∧ t.vaultLoad = none ∧
      t.elo.due = none ∧ (∀ e, (t.engine e).running = none) ∧ ∀ h, h < 4 → (t.hostPort h).up = false) ∧
  (∀ (s : State), s.mode = .ready ∨ s.mode = .removable ∨ (s.mode = .fenced ∧ s.dumpRun = none) →
    (∃ t, exec .restart s = .next t ∧ t.mode = .boot ∧ t.now = 0 ∧ t.par (pk 0x1008 0) = 2 ∧ t.par (pk 0x7805 0) = 1) ∧
    ∃ t, exec .restartKeep s = .next t ∧ t.mode = .boot ∧ t.now = 0 ∧ t.par (pk 0x1008 0) = 2 ∧
      t.par (pk 0x7805 0) = if s.life.kept || (decide (s.mode = .ready) && s.par (pk 0x7803 0) == 1) then 2 else 3) ∧
  (∀ (s : State), s.mode = .safe ∨ (s.mode = .fenced ∧ s.dumpRun.isSome = true) →
    exec .restart s = .next { s with life := { s.life with restart := some 2 } } ∧
    exec .restartKeep s = .next { s with life := { s.life with restart := some 3 } }) ∧
  (∀ (s : State) v hottest, s.mode = .safe → s.life.restart = some v → hottest ≤ 85 → s.par (pk 0x3305 0) = 0 →
    ∃ t, exec (.safeRelease hottest) s = .next t ∧ t.mode = .boot ∧ t.now = 0) ∧
  (∀ (s : State), s.mode = .ready → s.par (pk 0x7803 0) = 0 → ∃ t, exec .standby s = .next t ∧ t.par (pk 0x7803 0) = 1 ∧
    t.vaultLoad = none ∧ t.par (pk 0x3600 0) = 0 ∧ t.par (pk 0x3603 0) = 0 ∧ t.par (pk 0x3604 0) = 0 ∧
    ∀ x ∈ t.dieCopies, x.2.paused = true) ∧
  (∀ (s : State), s.mode = .ready → s.par (pk 0x7803 0) = 1 → ∃ t, exec .wake s = .next t ∧ t.par (pk 0x7803 0) = 0 ∧
    t.life.starts = [] ∧ ∀ x ∈ t.dieCopies, x.2.paused = false)

/-- Firmware: staging, activation, revert, health check, trial and confirmation. Staging refuses a bad header with its reason, and a good
image is staged in the slot that does not run; a failed staging leaves the firmware as it was. Activating or reverting exchanges the two
slots with the new one on trial, unless it is refused. A passed health check is noted, a failed one goes back and marks the image as
failed. A trial ends confirmed after its time, or at once by FW_CONFIRM. Signatures are operands (log entry 8); corners are log entry 31.
-/
def Obligations.FirmwareSlots : Prop :=
  (∀ (s : State) addr, s.directorRuns = true → s.life.staging = none →
    let a := alignDown addr 64
    let v := s.readVal .director a 64
    let kind := bits v 479 472
    let n := bits v 399 368 + bits v 335 320
    s.stageSource a = true → s.clean .director a 64 →
    (bits v 511 480 ≠ 0x4E465749 → ∃ t, exec (.fwStage addr true) s = .next t ∧ t.par (pk 0x7821 1) = 3 ∧ t.par (pk 0x7821 2) = 3) ∧
    (bits v 511 480 = 0x4E465749 → kind ≤ 7 → s.fwTrial kind = false → (∀ k ∈ s.life.fwQueue, k / 256 ≠ kind) →
      n ≤ fwSlotMib kind * 2 ^ 20 →
      s.clean .director (a + 64) n →
      crc32c (toBytes (s.readVal .director (a + 64) n) (bits v 399 368)) = bits v 367 336 → levelOk s.wireLevel (bits v 407 400) = true →
      (∃ t, exec (.fwStage addr true) s = .next t ∧ t.par (pk 0x7821 1) = 1 ∧ t.par (pk 0x7821 3) = kind ∧
        t.life.staging = some (kind, ⟨1, bits v 471 440, bits v 407 400, bits v 439 408⟩) ∧
        ∀ k ∈ fwKeys kind, (t.fwInst k).slot = (s.fwInst k).slot ∧ (t.fwInst k).other = ⟨0, 0, 0, 0⟩) ∧
      (∃ t, exec (.fwStage addr false) s = .next t ∧ t.par (pk 0x7821 1) = 3 ∧ t.par (pk 0x7821 2) = 2 ∧ t.life.staging = none))) ∧
  (∀ (s : State) kind slot, s.life.staging = some (kind, slot) →
    (∃ t, exec (.fwStageDone true) s = .next t ∧ t.life.staging = none ∧ t.par (pk 0x7821 1) = 2 ∧
      ∀ k ∈ fwKeys kind, (t.fwInst k).slot = (s.fwInst k).slot ∧ (t.fwInst k).other = slot) ∧
    (∃ t, exec (.fwStageDone false) s = .next t ∧ t.life.staging = none ∧ t.life.fw = s.life.fw ∧ t.par (pk 0x7821 1) = 3)) ∧
  (∀ (s : State) v k ks, fwNamed v = k :: ks → s.fwRefuses (k :: ks) = false → s.life.fwQueue = [] → s.life.fwCheck = none →
    s.fwReady k = true →
    ∃ t, exec (.fwActivate v) s = .next t ∧ (t.fwInst k).slot = { (s.fwInst k).other with st := 2 } ∧
      (t.fwInst k).other = { (s.fwInst k).slot with st := 1 } ∧ t.life.fwCheck = some k ∧ t.life.fwQueue = ks ∧
      t.par (pk 0x7827 0) = add64 (s.par (pk 0x7827 0)) 1) ∧
  (∀ (s : State) v, s.fwRefuses (fwNamed v) = true → exec (.fwActivate v) s = .next s) ∧
  (∀ (s : State) v k ks, ((fwNamed v).filter fun k => (s.fwInst k).slot.st == 3 && (s.fwInst k).other.st == 1) = k :: ks →
    s.fwRefuses (k :: ks) = false → s.life.fwQueue = [] → s.life.fwCheck = none → s.fwReady k = true →
    ∃ t, exec (.fwRevert v) s = .next t ∧ (t.fwInst k).slot = { (s.fwInst k).other with st := 2 } ∧
      (t.fwInst k).other = { (s.fwInst k).slot with st := 1 } ∧ t.life.fwCheck = some k) ∧
  (∀ (s : State) key, s.life.fwCheck = some key → (s.fwInst key).slot.st = 2 → (s.fwInst key).since + 1000000000 ≤ s.now →
    (s.life.fwQueue = [] → key / 256 ≠ 3 ∨ s.linkState (key % 256) = 3 → ∃ t, exec (.fwHealthCheck key true) s = .next t ∧
      t.life.fwCheck = none ∧ t.fwInst key = { s.fwInst key with passed := true }) ∧
    (∃ t, exec (.fwHealthCheck key false) s = .next t ∧ (t.fwInst key).slot = { (s.fwInst key).other with st := 3 } ∧
      (t.fwInst key).other = { (s.fwInst key).slot with st := 4 } ∧ t.par (pk 0x7828 0) = add64 (s.par (pk 0x7828 0)) 1)) ∧
  (∀ (s : State) key, (s.fwInst key).slot.st = 2 → (s.fwInst key).passed = true → s.par (pk 0x7826 0) = 1 →
    (s.fwInst key).since + s.par (pk 0x7825 0) * 1000000000 ≤ s.now → ∃ t, exec (.fwTrialEnd key) s = .next t ∧
      (t.fwInst key).slot = { (s.fwInst key).slot with st := 3 } ∧ (t.fwInst key).other = (s.fwInst key).other) ∧
  (∀ (s : State) kind, ∃ t, exec (.fwConfirm kind) s = .next t ∧ ∀ k ∈ fwKeys kind, (s.fwInst k).slot.st = 2 → (s.fwInst k).passed = true →
    (t.fwInst k).slot = { (s.fwInst k).slot with st := 3 } ∧ (t.fwInst k).other = (s.fwInst k).other)

/-- Clapper, dailies, regulator calibration and eye scans. CLAPPER_ARM sets the time, and at it CLAPPER_FIRE latches the counters in the
next bank, counts and disarms. DAILY_RECORD at a period's end appends a record with its number, time, node, state, operating point and
entries and starts the next period's sums. A calibration notes its time for the phase, and an eye scan its margins for the spare lane that
it used. -/
def Obligations.ClapperDailiesAndUpkeep : Prop :=
  (∀ (s : State) v, s.directorRuns = true → exec (.clapperArm v) s = .next (s.setPar (pk 0x8001 0) (v % 2 ^ 64))) ∧
  (∀ (s : State), s.directorRuns = true → s.par (pk 0x8001 0) ≠ 0 → s.par (pk 0x8001 0) ≤ s.now → ∃ t, exec .clapperFire s = .next t ∧
    let n := s.par (pk 0x8003 0) + 1
    t.par (pk 0x8003 0) = n ∧ t.par (pk 0x8001 0) = 0 ∧ lookup t.life.banks (n % 2) = some (s.now, n, (accruePennants s).2.latch)) ∧
  (∀ (s : State), s.directorRuns = true → s.life.dailyDone < s.now / (s.par (pk 0x8010 0) * 1000000) →
    ∃ t d, exec .dailyRecord s = .next t ∧
    t.par (pk 0x8016 0) = s.par (pk 0x8016 0) + 1 ∧ t.life.dailyDone = s.now / (s.par (pk 0x8010 0) * 1000000) ∧
    t.life.powerSum = (0, 0) ∧ t.life.peak = none ∧ t.life.dailies.getLast? = some d ∧ d.seq = s.par (pk 0x8016 0) + 1 ∧ d.time = s.now ∧
    d.node = s.nodeId ∧ d.mode = modeCode s.mode ∧ d.op = s.op ∧ d.entries = (accruePennants s).2.dailyEntries) ∧
  (∀ (s : State) region phase, region < 4 → s.governed = true → s.par (sparePhaseKey region) = 0 →
    lookup s.life.cals (16 * region + phase) = none →
    ∃ t, exec (.regulatorCalibration region phase) s = .next t ∧ lookup t.life.cals (16 * region + phase) = some s.now) ∧
  (∀ (s : State) g tx height width, g < 24 → s.linkState g ≠ 0 → s.linkState g ≠ 5 →
    (if tx then (s.link g).txSpare else (s.link g).rxSpare) = none → ∃ t, exec (.eyeScan g tx height width) s = .next t ∧
      getC (fun _ => 0) t.rel (relKey ukLane (groupPhysical g 4) 0x20) = height % 2 ^ 16 ∧
      getC (fun _ => 0) t.rel (relKey ukLane (groupPhysical g 4) 0x21) = width % 2 ^ 16)

/-- Link groups: training, retraining, sparing, mapping out, identity and flits. A trained group starts afresh and sends its identity; its
peer's identity record puts it UP, or where the plan has it, or maps it out. A group that fails training or retraining, retrains a third
time in a minute, has a second bad lane or does not match its plan is mapped out with its reason and record. Retraining resends the replay
buffer. A bad lane asks for the spare, which begins at a later codeword. LINK_RESTORE trains a mapped-out group again. A plan that is
applied is kept entry by entry. An identity record waits in the group's queue or is sent. A data flit with an error holds the receiver and
asks again, the expected one is taken, another is ignored, and a control flit gives credits, acknowledgement, time and stratum. -/
def Obligations.LinkGroups : Prop :=
  (∀ (s : State) g, g < 24 → s.linkState g = 1 →
    (∃ t, exec (.groupTrained g true) s = .next t ∧ t.linkState g = 1 ∧ t.linkRuns g = true ∧ (t.link g).upSince = some s.now ∧
      (t.link g).retrains = (s.link g).retrains ∧ (t.link g).txSpare = (s.link g).txSpare ∧ (t.link g).rxSpare = (s.link g).rxSpare ∧
      t.peers = eraseKey s.peers g ∧ s.out.length < t.out.length) ∧
    (bit (s.par (pk 0x4008 0)) g = false → ∃ t, exec (.groupTrained g false) s = .next t ∧ MappedOut g 3 s t)) ∧
  (∀ (s : State) g, g < 24 → s.linkState g = 4 →
    (∃ t, exec (.retrainDone g true) s = .next t ∧ t.linkState g = (s.link g).before ∧
      ∀ f ∈ (s.link g).replay, .flit g f.2 ∈ t.out) ∧
    (bit (s.par (pk 0x4008 0)) g = false → ∃ t, exec (.retrainDone g false) s = .next t ∧ MappedOut g 3 s t)) ∧
  (∀ (s : State) g, g < 24 → s.linkRuns g = true → (s.link g).replay ≠ [] → (s.link g).ackTime + 100000 ≤ s.now →
    let n := ((s.link g).retrains.filter fun x => decide (s.now ≤ x + 60000000000)).length
    (n < 2 → ∃ t, exec (.ackProgressTimeout g) s = .next t ∧ t.linkState g = 4 ∧ (t.link g).replay = (s.link g).replay ∧
      t.par (pk 0x8050 4) = add64 (s.par (pk 0x8050 4)) 1) ∧
    (2 ≤ n → bit (s.par (pk 0x4008 0)) g = false → ∃ t, exec (.ackProgressTimeout g) s = .next t ∧ MappedOut g 2 s t)) ∧
  (∀ (s : State) g lane ber lost, g < 24 → lane < 4 → s.linkRuns g = true → lost = true ∨ s.par (pk 0x400D 0) < ber →
    ((s.link g).rxSpare = none → (s.link g).rxSwap.phase = 0 → ∃ t, exec (.laneErrorDetect g lane ber lost) s = .next t ∧
      (t.link g).rxSwap = ⟨1, lane, s.spareAt g, lost⟩ ∧ s.out.length < t.out.length) ∧
    ((s.link g).rxSpare.isSome = true → bit (s.par (pk 0x4008 0)) g = false →
      ∃ t, exec (.laneErrorDetect g lane ber lost) s = .next t ∧ MappedOut g 1 s t)) ∧
  (∀ (s : State) g lane, g < 24 → lane < 4 → s.linkRuns g = true → (s.link g).rxSpare = none → (s.link g).rxSwap.phase = 0 →
    ∃ t, exec (.laneSpareStart (8 * g + lane)) s = .next t ∧ (t.link g).rxSwap = ⟨1, lane, s.spareAt g, false⟩ ∧
      s.out.length < t.out.length) ∧
  (∀ (s : State) g, g < 24 → s.linkState g = 5 → bit (s.par (pk 0x4008 0)) g = true → ∃ t, exec (.linkRestore g) s = .next t ∧
    t.linkState g = 1 ∧ t.par (pk 0x4008 0) = s.par (pk 0x4008 0) - 2 ^ g ∧ t.par (pk 0x4009 (g + 1)) = 0) ∧
  (∀ (s : State), ∃ t, exec .linkPlanApply s = .next t ∧ ∀ g, g < 24 → t.planEntry g = s.par (pk 0x4003 (g + 1)) ∧
    (s.linkState g = 0 → s.linksOn = true → s.par (pk 0x4004 0) = 0 ∨ s.nodeId = 0xFFFF ∨ planKind (s.par (pk 0x4003 (g + 1))) ≠ 0 →
      t.linkState g = 1) ∧
    (s.linkState g = 0 → s.linksOn = false → t.linkState g = 0)) ∧
  (∀ (s : State) g, g < 24 →
    (s.linkRuns g = false → s.linkState g ≠ 4 → exec (.identitySend g) s = .next s) ∧
    (s.linkState g = 4 → ∃ t, exec (.identitySend g) s = .next t ∧ t.out = s.out ∧ (t.link g).queue = (s.link g).queue ++
      cutPacket 20 2 0 (toBytes (packetHeader 0xFFFF s.nodeId 3 0 0 0 64 0 none 0) 32 ++ idBytes (s.identity g))) ∧
    (s.linkRuns g = true → 0 < nth (s.link g).credits 2 → (s.link g).replay.length < 1024 →
      ∃ t, exec (.identitySend g) s = .next t ∧ s.out.length < t.out.length ∧ t.linkState g = s.linkState g)) ∧
  (∀ (s : State) g r, g < 24 → s.linkState g ≠ 0 → s.linkState g ≠ 5 → ∃ t, exec (.identityRecord g r) s = .next t ∧
    lookup t.peers g = some r ∧
    (s.linkState g ≠ 1 → t.linkState g = s.linkState g) ∧
    (s.linkState g = 1 → s.par (pk 0x4004 0) = 0 ∨ s.nodeId = 0xFFFF → t.linkState g = 2) ∧
    (s.linkState g = 1 → s.par (pk 0x4004 0) ≠ 0 → s.nodeId ≠ 0xFFFF →
      (planKind (s.planEntry g) = 0 → t.linkState g = 0) ∧
      (planKind (s.planEntry g) ≠ 0 → planMatches (s.planEntry g) r = true → t.linkState g = 3) ∧
      (planKind (s.planEntry g) ≠ 0 → planMatches (s.planEntry g) r = false → bit (s.par (pk 0x4008 0)) g = false → MappedOut g 4 s t))) ∧
  (∀ (s : State) g, g < 24 → s.linkRuns g = true ∨ s.linkState g = 4 → ∃ t, exec (.groupLossOfLock g) s = .next t ∧ t.linkState g = 1) ∧
  (∀ (s : State) g errs bytes, g < 24 → s.linkRuns g = true →
    let h := ofBytes (bytes.take 4)
    let bad := ((errs.take 4).any fun n => decide (8 < n)) || !flitOk bytes
    (bad = true → ∃ t, exec (.dataFlit g errs bytes) s = .next t ∧ (t.link g).rxHold = true ∧ (t.link g).rxSeq = (s.link g).rxSeq ∧
      s.out.length < t.out.length) ∧
    (bad = false → bits h 31 28 = 1 → bits h 15 14 ≠ 3 → bits h 27 16 = (s.link g).rxSeq → ∃ t, exec (.dataFlit g errs bytes) s = .next t ∧
      (t.link g).rxSeq = ((s.link g).rxSeq + 1) % 4096 ∧ (t.link g).rxHold = false) ∧
    (bad = false → bits h 31 28 = 1 → bits h 27 16 ≠ (s.link g).rxSeq → errs.length ≤ 4 →
      ∃ t, exec (.dataFlit g errs bytes) s = .next t ∧ t.links = s.links ∧
      t.mem = s.mem ∧ t.out = s.out)) ∧
  (∀ (s : State) g errs bytes, g < 24 → s.linkRuns g = true → (∀ n ∈ errs.take 4, n ≤ 8) → flitOk bytes = true →
    bits (ofBytes (bytes.take 4)) 31 28 = 2 → (s.link g).queue = [] →
    let v := ofBytes ((bytes.drop 4).take 48)
    bit v 31 = false → bits v 95 93 = 0 → ∃ t, exec (.controlFlit g errs bytes) s = .next t ∧
      (t.link g).replay = afterAck (bits v 11 0) (s.link g).replay ∧
      (t.link g).credits = [nth (s.link g).credits 0 + bits v 47 32, nth (s.link g).credits 1 + bits v 63 48,
        nth (s.link g).credits 2 + bits v 79 64] ∧
      (t.link g).echoTx = bits v 191 128 ∧ (t.link g).stratum = bits v 323 320)

/-- Packets of transfers: data, final, collective, acknowledgement, abort and timeout. A data packet of an open context writes exactly its
bytes into its partition's placements and counts for its transfer; a final packet of one ends it. A collective packet of an old epoch is
dropped and counted, and a whole one arrives. An acknowledgement closes its transfer and puts the tag in quarantine; an abort drops the
transfer at its receiver; a transfer without acknowledgement for 1 ms is aborted. -/
def Obligations.PacketsAndTransfers : Prop :=
  (∀ (s : State) chan h data, chan < 3 → kKind h = 1 → kDst h = s.nodeId → s.remoteOk (kPart h) (kCtx h) (kGen h) = true →
    s.tagDone (kSrc h) (kTag h) = false → s.rxXfers.length < 16384 →
    (s.rxXfers.find? fun x => x.node == kSrc h && x.tag == kTag h) = none →
    (kFinal h = false → kLength h ≠ 0 → kLength h ≤ data.length →
      (∀ x, kAddr h ≤ x → x < kAddr h + kLength h → (tierOf x).isT0T1 = true ∧ s.placed (kPart h) x = true ∧ s.badAt (x / 32) = false) →
      ∃ t, exec (.writePacket chan h data) s = .next t ∧
        t.rxXfers = (s.rxXfers.filter fun y => !(y.node == kSrc h && y.tag == kTag h)) ++ [⟨kSrc h, kTag h, 1, kAddr h, none, false⟩] ∧
        ∀ x, x < 0x800000000000 → t.byte x =
          if kAddr h ≤ x ∧ x < kAddr h + kLength h then BitVec.ofNat 8 (data.getD (x - kAddr h) 0) else s.byte x) ∧
    (kFinal h = true → kCount h = 1 → ∃ t, exec (.writePacket chan h data) s = .next t ∧ t.tagDone (kSrc h) (kTag h) = true ∧
      ∀ y ∈ t.rxXfers, ¬(y.node = kSrc h ∧ y.tag = kTag h))) ∧
  (∀ (s : State) chan h data, chan < 3 → kKind h = 2 → kDst h = s.nodeId → s.remoteOk (kPart h) (kCtx h) (kGen h) = true →
    (kEpoch h ≠ s.par (pk 0x4012 (kPart h + 1)) % 16 → ∃ t, exec (.collectivePacket chan h data) s = .next t ∧ t.mem = s.mem ∧
      t.rxXfers = s.rxXfers ∧ t.par (pk 0x8050 6) = add64 (s.par (pk 0x8050 6)) 1) ∧
    (kEpoch h = s.par (pk 0x4012 (kPart h + 1)) % 16 → s.tagDone (kSrc h) (kTag h) = false → s.rxXfers.length < 16384 →
      (s.rxXfers.find? fun x => x.node == kSrc h && x.tag == kTag h) = none → kFinal h = true → kCount h = 1 →
      ∃ t, exec (.collectivePacket chan h data) s = .next t ∧ t.tagDone (kSrc h) (kTag h) = true ∧
        ⟨kPart h, kCtx h, kSrc h, kAddr h⟩ ∈ t.arrivals)) ∧
  (∀ (s : State) chan h x, chan < 3 → kKind h = 5 → kDst h = s.nodeId →
    (s.xfers.find? fun y => y.node == kSrc h && y.tag == kTag h) = some x → x.aborted = false ∨ kFinal h = true →
    (s.xferWait.find? fun y => y.node == x.node) = none → ∃ t, exec (.ackPacket chan h) s = .next t ∧ t.xfers = s.xfers.erase x ∧
      t.oldTags = s.oldTags ++ [(x.node, x.tag, s.now)]) ∧
  (∀ (s : State) chan h, chan < 3 → kKind h = 6 → kDst h = s.nodeId → ∃ t, exec (.abortPacket chan h) s = .next t ∧
    t.rxXfers = if s.tagDone (kSrc h) (kTag h) then s.rxXfers else s.rxXfers.filter fun y => !(y.node == kSrc h && y.tag == kTag h)) ∧
  (∀ (s : State) node tag x, node < 65536 → (s.xfers.find? fun y => y.node == node && y.tag == tag) = some x → x.sentAt + 1000000 ≤ s.now →
    ∃ t, exec (.transferAckTimeout node tag) s = .next t ∧
      t.xfers = s.xfers.map fun y => if y == x then { y with aborted := true, sentAt := s.now } else y)

/-- Notices, lost modules, shapes, substitutes and fabric time. PLANES, LINK and CAPACITY are held or raised as events. A module that is
fenced, reset or removed is noted as gone and has its transfers ended. A lost peer of a lead's instance is marked absent and the instance
waits. SHAPE sets mask, epoch and rank map. A node that is silent, or to which every plane this module uses is down, is marked absent, and
another is left alone. With no substitute in time the instance stops with a notice. RANK_READY clears its bit and counts an epoch, or is
passed to the lead. A module with no time source goes to holdover. The PTP messages of its port and domain are an exchange (a Sync, one-
or two-step, then the own Delay_Req and its answer) whose four times give the offset; others are ignored. -/
def Obligations.NoticesAndLostModules : Prop :=
  (∀ (s : State) node mask, node < 65536 →
    (∃ t, exec (.planes node mask) s = .next t ∧ lookup t.planes node = some mask) ∧
    exec (.link node mask) s = .next (raiseEvent 0x32 0xFF 0 (noticeBody 2 node mask s.now) s).2 ∧
    exec (.capacity node mask) s = .next (raiseEvent 0x38 0xFF 0 (noticeBody 8 node mask s.now) s).2) ∧
  (∀ (s : State) node, node < 65536 → ∀ c ∈ [Instr.fenced node, .reset node, .removed node], ∃ t, exec c s = .next t ∧ node ∈ t.gone ∧
    (∀ x ∈ t.xfers, x.node ≠ node) ∧ (∀ x ∈ t.xferWait, x.node ≠ node)) ∧
  (∀ (s : State) node p r, node < 65536 → p < 8 → s.rankOf p node = some r → s.serving p = true → s.isLead p = true → r < s.instSize p →
    r ≠ s.rank p → bit (s.par (pk 0x4011 (p + 1))) r = false → ∃ t, exec (.peerLost node) s = .next t ∧
      bit (t.par (pk 0x4011 (p + 1))) r = true ∧ (t.inst p).waitSince.isSome = true) ∧
  (∀ (s : State) p mask epoch, p < 8 → mask < 2 ^ 64 → epoch < 2 ^ 32 →
    (∃ t, exec (.shape p mask epoch none) s = .next t ∧ t.par (pk 0x4011 (p + 1)) = mask ∧ t.par (pk 0x4012 (p + 1)) = epoch) ∧
    (∀ r node, r < 64 → node < 65536 → ∃ t, exec (.shape p mask epoch (some (r, node))) s = .next t ∧ t.par (pk 0x4011 (p + 1)) = mask ∧
      t.par (pk 0x4012 (p + 1)) = epoch ∧ t.rankNode p r = node ∧ (node = s.nodeId → t.rank p = r) ∧ (node ≠ s.nodeId →
        t.rank p = s.rank p))) ∧
  (∀ (s : State) node, node < 65536 →
    let open' := (s.xfers.filter fun x => x.node == node).map fun x => x.sentAt
    let since := max ((lookup s.heard node).getD 0) (open'.foldl min s.now)
    let quiet := !open'.isEmpty && decide (since + s.par (pk 0x400E 0) * 1000 ≤ s.now)
    let dark := match lookup s.planes node with
      | some m => s.usedPlanes != 0 && m &&& s.usedPlanes == 0
      | none => false
    ((quiet || dark) = true → ∀ p r, p < 8 → s.rankOf p node = some r → s.serving p = true → s.isLead p = true → r < s.instSize p →
      r ≠ s.rank p → bit (s.par (pk 0x4011 (p + 1))) r = false → ∃ t, exec (.pathLoss node) s = .next t ∧
        bit (t.par (pk 0x4011 (p + 1))) r = true ∧ (t.inst p).waitSince.isSome = true) ∧
    ((quiet || dark) = false → exec (.pathLoss node) s = .next s)) ∧
  (∀ (s : State) p t0, p < 8 → (s.inst p).waitSince = some t0 → s.isLead p = true → s.serving p = true → (s.inst p).plan = none →
    (s.inst p).notice = none → ((s.inst p).standbys = [] ∨ t0 + s.par (pk 0x4014 (p + 1)) * 1000000 ≤ s.now) →
    ∃ t, exec (.substituteTimeout p) s = .next t ∧ (t.inst p).phase = .stopping ∧ (t.inst p).step = (s.inst p).step + 1 ∧
      (t.inst p).waitSince = none ∧ (t.inst p).notice.isSome = true) ∧
  (∀ (s : State) p r, p < 8 → r < 64 →
    (s.isLead p = false → exec (.rankReady p r) s = .next { s with out := s.out ++ [.rankReady (s.leadRank p) p r] }) ∧
    (s.isLead p = true → s.serving p = true → bit (s.par (pk 0x4011 (p + 1))) r = true → ∃ t, exec (.rankReady p r) s = .next t ∧
      t.par (pk 0x4011 (p + 1)) = s.par (pk 0x4011 (p + 1)) - 2 ^ r ∧ t.par (pk 0x4012 (p + 1)) = add64 (s.par (pk 0x4012 (p + 1))) 1 ∧
      (s.par (pk 0x4011 (p + 1)) = 2 ^ r → (t.inst p).waitSince = none))) ∧
  (∀ (s : State), s.par (pk 0x4020 0) = 0 → s.par (pk 0x4021 0) = 0 → s.timeParent = none → s.clock.stepped = true →
    s.par (pk 0x4022 0) ≠ 3 →
    ∃ t, exec .timeHoldover s = .next t ∧ t.par (pk 0x4022 0) = 3 ∧
      t.clock = { s.clock with parent := none, offsets := [], small := none }) ∧
  (∀ (s : State) port domain (m : PtpMsg), port < 2 →
    let on := s.par (pk 0x4020 0) = 1 ∧ s.par (pk 0x4025 0) = port ∧ s.par (pk 0x4024 0) = domain
    let r := s.clock.ptp
    (¬ on → exec (.ptpMessage port domain m) s = .next s) ∧
    (on → m.kind = .sync true → exec (.ptpMessage port domain m) s =
      .next { s with clock := { s.clock with ptp := { r with sync := m.seq, t1 := none, t2 := s.now * 16, t3 := none } } }) ∧
    (on → m.kind = .sync false ∨ (m.kind = .followUp ∧ r.sync = m.seq ∧ r.t1 = none) → ∃ t, exec (.ptpMessage port domain m) s = .next t ∧
      t.out = s.out ++ [.delayReq port m.transport r.seq] ∧ t.clock.ptp.t1 = some m.stamp ∧ t.clock.ptp.t3 = some (s.now * 16) ∧
      t.clock.ptp.seq = (r.seq + 1) % 2 ^ 16 ∧ (m.kind = .sync false → t.clock.ptp.t2 = s.now * 16)) ∧
    (∀ t1 t3, on → m.kind = .delayResp → r.t1 = some t1 → r.t3 = some t3 → m.seq = (r.seq + 65535) % 65536 →
      s.clock.stepped = false → s.clock.offsets = [] →
      let off : Int := ((t1 - r.t2) + (m.stamp - t3)) / 2
      ∃ t, exec (.ptpMessage port domain m) s = .next t ∧ t.now = s.now + (off / 16).toNat ∧ t.clock.stepped = true ∧
        t.clock.ptp.t3 = none ∧
        t.par (pk 0x4022 0) = 1))

/-- Ethernet frames, pause, and RoCE queue pairs: requests, answers, timeouts and rates. ARP, neighbour and echo requests for an own
address are answered and unknown frames counted. A pause of an enabled priority is held, of another counted. Reloads read the queue pair
or key record. An unanswered request is sent again and ends the queue pair in error at its limit; the rate halves at a CNP and rises after
55 us. Acknowledgements and read responses retire what they answer. An incoming write changes exactly its bytes, a read is answered with
its bytes, and one that fails its check changes nothing and is refused and counted. Corners are log entry 34. -/
def Obligations.EthernetAndRoce : Prop :=
  (∀ (s : State) port f, port < 2 → s.ethUp port = true →
    (f = .other → exec (.networkFrame port f) s = .next (s.bump (pk 0x48E1 3) 1)) ∧
    (∀ ip, f = .arp ip → s.ownIp4 port ip = true → ∃ t, exec (.networkFrame port f) s = .next t ∧ t.out = s.out ++ [.ethAnswer port f]) ∧
    (∀ ip, f = .ndp ip → s.ownIp6 port ip = true → ∃ t, exec (.networkFrame port f) s = .next t ∧ t.out = s.out ++ [.ethAnswer port f]) ∧
    (∀ ip a b, f = .echo ip a b → s.ownIp4 port ip = true ∨ s.ownIp6 port ip = true →
      ∃ t, exec (.networkFrame port f) s = .next t ∧ t.out = s.out ++ [.ethAnswer port f])) ∧
  (∀ (s : State) port, port < 2 → exec (.ethLinkChange port false) s = .next (s.setPar (pk 0x4810 (port + 1)) 0) ∧
    (s.directorRuns = true → s.mode ≠ .selftest → exec (.ethLinkChange port true) s = .next (s.setPar (pk 0x4810 (port + 1)) 1))) ∧
  (∀ (s : State) port priority quanta, port < 2 → priority < 8 → s.ethUp port = true →
    (bit (s.par (pk 0x4818 (port + 1))) priority = false → exec (.pfcFrame port priority quanta) s = .next (s.bump (pk 0x48E1 3) 1)) ∧
    (bit (s.par (pk 0x4818 (port + 1))) priority = true → ∃ t, exec (.pfcFrame port priority quanta) s = .next t ∧
      t.eth.pause = (s.eth.pause.filter fun x => !(x.1 == port && x.2.1 == priority)) ++
        (if quanta = 0 then [] else [(port, priority, s.now + quanta % 2 ^ 16 * 64 / 100)]))) ∧
  (∀ (s : State) v, v < 2048 → s.powered = true → v % 1024 < s.par (pk 0x4821 (v / 1024 + 1)) →
    let a := s.par (pk 0x4820 (v / 1024 + 1)) + 64 * (v % 1024)
    s.clean .director a 64 → ∃ t, exec (.roceQpReload v) s = .next t ∧ t.qp v = some (Qp.start (s.readVal .director a 64)) ∧
      ∀ x ∈ t.engines, ∀ q ∈ x.2.parts, q.onQp v = false) ∧
  (∀ (s : State) i, i < 4096 → s.powered = true → i < s.par (pk 0x4823 0) →
    let a := s.par (pk 0x4822 0) + 32 * i
    s.clean .director a 32 → ∃ t, exec (.roceKeyReload i) s = .next t ∧ lookup t.eth.keys i = some (s.readVal .director a 32)) ∧
  (∀ (s : State) port i q, port < 2 → i < 1024 → s.qp (qpKey port i) = some q →
    (q.unacked ≠ [] → q.sentAt + qTimeout q.entry ≤ s.now →
      (q.retries < qRetry q.entry → ∃ t, exec (.roceTimeout port i) s = .next t ∧
        t.qp (qpKey port i) = some { q with retries := q.retries + 1, sentAt := s.now } ∧
        (s.ethUp port = true → ∀ x ∈ q.unacked, .roce port i x ∈ t.out)) ∧
      (qRetry q.entry ≤ q.retries → ∃ t, exec (.roceTimeout port i) s = .next t ∧
        t.qp (qpKey port i) = some { q with error := true, unacked := [] } ∧
        ∀ x ∈ t.engines, ∀ y ∈ x.2.parts, y.onQp (qpKey port i) = false)) ∧
    (q.cnpAt + 55000 ≤ s.now → q.rate < 1000 → ∃ t, exec (.roceRateRaise port i) s = .next t ∧
      t.qp (qpKey port i) = some { q with rate := min 1000 (q.rate + 50), cnpAt := s.now })) ∧
  (∀ (s : State) port qpn k q, port < 2 → s.ethUp port = true → s.qpOf port qpn = some (k, q) →
    (∃ t, exec (.cnp port qpn) s = .next t ∧ t.qp k = some { q with rate := q.rate / 2, cnpAt := s.now } ∧
      t.par (pk 0x48E1 6) = add64 (s.par (pk 0x48E1 6)) 1) ∧
    (∀ psn, (∃ x ∈ q.unacked, x.psn = psn) → ∃ t, exec (.roceAck port qpn psn none) s = .next t ∧ t.qp k = some { q with
        unacked := ((splitAtPsn psn q.unacked).1.filter fun x => x.op != 0) ++ ((splitAtPsn psn q.unacked).2.filter fun x => x.psn != psn || x.op != 0), retries := 0, sentAt := s.now }) ∧
    (∀ psn data x, (q.unacked.find? fun x => x.psn == psn && x.op == 1) = some x →
      ∃ t, exec (.roceReadResponse port qpn psn data) s = .next t ∧
      t.qp k = some { q with
        unacked := ((splitAtPsn psn q.unacked).1.filter fun y => y.op != 0) ++ (splitAtPsn psn q.unacked).2.drop 1, retries := 0,
          sentAt := s.now })) ∧
  (∀ (s : State) (r : RoceReq), r.port < 2 → s.ethUp r.port = true →
    (∀ k q, s.qpOf r.port r.dstQpn = some (k, q) → s.roceOk q { r with len := r.data.length } 153 = true → r.imm = none →
      (∀ x, r.addr ≤ x → x < r.addr + r.data.length → (tierOf x).isT0T1 = true ∧ s.badAt (x / 32) = false) →
      ∃ t y, exec (.incomingRdmaWrite r) s = .next t ∧ .roceAck r.port r.srcQpn r.psn none ∈ t.out ∧ t.qp k = some y ∧
        y.recvPsn = (q.recvPsn + 1) % 2 ^ 24 ∧ ∀ x, x < 0x800000000000 → t.byte x =
          if r.addr ≤ x ∧ x < r.addr + r.data.length then BitVec.ofNat 8 (r.data.getD (x - r.addr) 0) else s.byte x) ∧
    (∀ k q, s.qpOf r.port r.dstQpn = some (k, q) → s.roceOk q r 152 = true → 0 < r.len → r.len ≤ qMtu q.entry →
      s.clean (whoOf (portRelay r.port) (qPart q.entry)) r.addr r.len →
      ∃ t y, exec (.incomingRdmaRead r) s = .next t ∧ t.qp k = some y ∧ y.recvPsn = (q.recvPsn + 1) % 2 ^ 24 ∧
        .roceData r.port r.srcQpn (r.psn % 2 ^ 24) (toBytes (s.readVal (whoOf (portRelay r.port) (qPart q.entry)) r.addr r.len) r.len) ∈ t.out) ∧
    ((s.qpOf r.port r.dstQpn = none ∨ ∃ k q, s.qpOf r.port r.dstQpn = some (k, q) ∧
      s.roceOk q { r with len := r.data.length } 153 = false) →
      ∃ t, exec (.incomingRdmaWrite r) s = .next t ∧ t.mem = s.mem ∧ t.out = s.out ++ [.roceAck r.port r.srcQpn r.psn (some 1)] ∧
        t.par (pk 0x48E1 5) = add64 (s.par (pk 0x48E1 5)) 1) ∧
    ((s.qpOf r.port r.dstQpn = none ∨ ∃ k q, s.qpOf r.port r.dstQpn = some (k, q) ∧ s.roceOk q r 152 = false) →
      ∃ t, exec (.incomingRdmaRead r) s = .next t ∧ t.mem = s.mem ∧ t.out = s.out ++ [.roceAck r.port r.srcQpn r.psn (some 1)] ∧
        t.par (pk 0x48E1 5) = add64 (s.par (pk 0x48E1 5)) 1))

/-- Frame: what the engine commands leave unchanged. For each command named, where it answers a next state, every piece of the state
(registers and dictionary values, memory, poison, engines, streams, contexts, instances, links, power, sessions, logs, ports and the rest)
other than the ones listed for it is as it was before. -/
def Obligations.EnginesFrame : Prop :=
  ∀ s t : State,
    (∀ (e : Nat) (src : CmdSource), exec (.nop e src) s = .next t → SameBut [.mem, .poison, .ueFull, .ecc, .params, .streams,
      .engines, .rel, .win, .dieCopies, .codecRefs, .faultLog, .flashDue, .insts, .fltPending, .dead, .power] s t) ∧
    (∀ (e : Nat) (src : CmdSource), exec (.matmul e src) s = .next t → SameBut [.mem, .poison, .ueFull, .ecc, .params, .streams,
      .engines, .rel, .win, .dieCopies, .codecRefs, .faultLog, .flashDue, .insts, .drain, .fltPending, .dead, .power] s t) ∧
    (∀ (e : Nat) (src : CmdSource), exec (.matmulList e src) s = .next t → SameBut [.mem, .poison, .ueFull, .ecc, .params,
      .streams, .engines, .rel, .win, .dieCopies, .codecRefs, .faultLog, .flashDue, .insts, .drain, .fltPending, .dead,
      .power] s t) ∧
    (∀ (e : Nat) (src : CmdSource), exec (.matmulPadded e src) s = .next t → SameBut [.mem, .poison, .ueFull, .ecc, .params,
      .streams, .engines, .rel, .win, .dieCopies, .codecRefs, .faultLog, .flashDue, .insts, .drain, .fltPending, .dead,
      .power] s t) ∧
    (∀ (e : Nat) (src : CmdSource), exec (.vecRmsnorm e src) s = .next t → SameBut [.mem, .poison, .ueFull, .ecc, .params,
      .streams, .engines, .rel, .win, .dieCopies, .codecRefs, .faultLog, .flashDue, .insts, .fltPending, .dead, .power] s t) ∧
    (∀ (e : Nat) (src : CmdSource), exec (.vecSilu e src) s = .next t → SameBut [.mem, .poison, .ueFull, .ecc, .params,
      .streams, .engines, .rel, .win, .dieCopies, .codecRefs, .faultLog, .flashDue, .insts, .fltPending, .dead, .power] s t) ∧
    (∀ (e : Nat) (src : CmdSource), exec (.vecGelu e src) s = .next t → SameBut [.mem, .poison, .ueFull, .ecc, .params,
      .streams, .engines, .rel, .win, .dieCopies, .codecRefs, .faultLog, .flashDue, .insts, .fltPending, .dead, .power] s t) ∧
    (∀ (e : Nat) (src : CmdSource), exec (.vecGluSilu e src) s = .next t → SameBut [.mem, .poison, .ueFull, .ecc, .params,
      .streams, .engines, .rel, .win, .dieCopies, .codecRefs, .faultLog, .flashDue, .insts, .fltPending, .dead, .power] s t) ∧
    (∀ (e : Nat) (src : CmdSource), exec (.vecAdd e src) s = .next t → SameBut [.mem, .poison, .ueFull, .ecc, .params, .streams,
      .engines, .rel, .win, .dieCopies, .codecRefs, .faultLog, .flashDue, .insts, .fltPending, .dead, .power] s t) ∧
    (∀ (e : Nat) (src : CmdSource), exec (.vecScale e src) s = .next t → SameBut [.mem, .poison, .ueFull, .ecc, .params,
      .streams, .engines, .rel, .win, .dieCopies, .codecRefs, .faultLog, .flashDue, .insts, .fltPending, .dead, .power] s t) ∧
    (∀ (e : Nat) (src : CmdSource), exec (.sample e src) s = .next t → SameBut [.mem, .poison, .ueFull, .ecc, .params, .streams,
      .engines, .rel, .win, .dieCopies, .codecRefs, .faultLog, .flashDue, .insts, .fltPending, .dead, .power] s t) ∧
    (∀ (e : Nat) (src : CmdSource), exec (.decode e src) s = .next t → SameBut [.mem, .poison, .ueFull, .ecc, .params, .streams,
      .engines, .rel, .win, .dieCopies, .codecRefs, .faultLog, .flashDue, .insts, .fltPending, .dead, .power] s t) ∧
    (∀ (e : Nat) (src : CmdSource), exec (.encode e src) s = .next t → SameBut [.mem, .poison, .ueFull, .ecc, .params, .streams,
      .engines, .rel, .win, .dieCopies, .slots, .codecRefs, .faultLog, .flashDue, .insts, .fltPending, .dead, .power, .life,
      .elo] s t) ∧
    (∀ (e : Nat) (src : CmdSource), exec (.tableLoad e src) s = .next t → SameBut [.mem, .poison, .ueFull, .ecc, .params,
      .streams, .engines, .rel, .win, .dieCopies, .slots, .codecRefs, .faultLog, .flashDue, .insts, .fltPending, .dead,
      .power] s t) ∧
    (∀ (e : Nat) (src : CmdSource), exec (.tableRetire e src) s = .next t → SameBut [.mem, .poison, .ueFull, .ecc, .params,
      .eff, .streams, .engines, .rel, .win, .dieCopies, .slots, .codecRefs, .faultLog, .flashDue, .insts, .fltPending,
      .dead, .power] s t) ∧
    (∀ (e : Nat) (src : CmdSource), exec (.tableSave e src) s = .next t → SameBut [.mem, .poison, .ueFull, .ecc, .params,
      .streams, .engines, .rel, .win, .dieCopies, .codecRefs, .faultLog, .flashDue, .insts, .fltPending, .dead, .power] s t) ∧
    (∀ (e : Nat) (src : CmdSource), exec (.attend e src) s = .next t → SameBut [.mem, .poison, .ueFull, .ecc, .params, .streams,
      .engines, .rel, .win, .dieCopies, .codecRefs, .faultLog, .flashDue, .insts, .fltPending, .dead, .power] s t) ∧
    (∀ (e : Nat) (src : CmdSource), exec (.attnFeed e src) s = .next t → SameBut [.mem, .poison, .ueFull, .ecc, .params,
      .streams, .engines, .rel, .win, .dieCopies, .codecRefs, .faultLog, .flashDue, .subs, .hostPorts, .insts, .fltPending,
      .dead, .power, .out] s t) ∧
    (∀ (e : Nat) (src : CmdSource), exec (.attnReturn e src) s = .next t → SameBut [.mem, .poison, .ueFull, .ecc, .params,
      .streams, .engines, .rel, .win, .dieCopies, .codecRefs, .faultLog, .flashDue, .insts, .fltPending, .dead, .power,
      .out] s t) ∧
    (∀ (e : Nat) (src : CmdSource), exec (.attnMerge e src) s = .next t → SameBut [.mem, .poison, .ueFull, .ecc, .params,
      .streams, .engines, .rel, .win, .dieCopies, .codecRefs, .faultLog, .flashDue, .insts, .fltPending, .dead, .power] s t) ∧
    (∀ (e : Nat) (src : CmdSource), exec (.route e src) s = .next t → SameBut [.mem, .poison, .ueFull, .ecc, .params, .streams,
      .engines, .rel, .win, .dieCopies, .codecRefs, .faultLog, .flashDue, .insts, .fltPending, .dead, .power] s t) ∧
    (∀ (e : Nat) (src : CmdSource) (templates : List Nat), exec (.buildLists e src templates) s = .next t → SameBut [.mem,
      .poison, .ueFull, .ecc, .params, .streams, .engines, .rel, .win, .dieCopies, .codecRefs, .faultLog, .flashDue, .insts,
      .fltPending, .dead, .power] s t) ∧
    (∀ (e : Nat) (src : CmdSource) (rowBases : List Nat), exec (.expDispatch e src rowBases) s = .next t → SameBut [.mem,
      .poison, .ueFull, .ecc, .params, .streams, .engines, .rel, .win, .dieCopies, .codecRefs, .faultLog, .flashDue, .insts,
      .fltPending, .dead, .power, .out] s t) ∧
    (∀ (e : Nat) (src : CmdSource), exec (.expGather e src) s = .next t → SameBut [.mem, .poison, .ueFull, .ecc, .params,
      .streams, .engines, .rel, .win, .dieCopies, .codecRefs, .stories, .faultLog, .flashDue, .insts, .fltPending, .dead,
      .power] s t) ∧
    (∀ (e : Nat) (src : CmdSource), exec (.expReturn e src) s = .next t → SameBut [.mem, .poison, .ueFull, .ecc, .params,
      .streams, .engines, .rel, .win, .dieCopies, .codecRefs, .faultLog, .flashDue, .insts, .fltPending, .dead, .power,
      .out] s t) ∧
    (∀ (e : Nat) (src : CmdSource), exec (.expCombine e src) s = .next t → SameBut [.mem, .poison, .ueFull, .ecc, .params,
      .streams, .engines, .rel, .win, .dieCopies, .codecRefs, .faultLog, .flashDue, .insts, .fltPending, .dead, .power] s t) ∧
    (∀ (e : Nat) (src : CmdSource), exec (.copy e src) s = .next t → SameBut [.mem, .poison, .ueFull, .ecc, .params, .streams,
      .engines, .rel, .win, .dieCopies, .slots, .codecRefs, .faultLog, .flashDue, .subs, .hostPorts, .insts, .fltPending,
      .dead, .links, .xfers, .xferWait, .oldTags, .spray, .power, .hostReads, .out] s t) ∧
    (∀ (e : Nat) (src : CmdSource), exec (.allReduce e src) s = .next t → SameBut [.mem, .poison, .ueFull, .ecc, .params,
      .streams, .engines, .rel, .win, .dieCopies, .slots, .codecRefs, .faultLog, .flashDue, .subs, .hostPorts, .insts,
      .fltPending, .dead, .links, .xfers, .xferWait, .oldTags, .arrivals, .spray, .power, .out] s t) ∧
    (∀ (e : Nat) (src : CmdSource), exec (.reduceScatter e src) s = .next t → SameBut [.mem, .poison, .ueFull, .ecc, .params,
      .streams, .engines, .rel, .win, .dieCopies, .slots, .codecRefs, .faultLog, .flashDue, .subs, .hostPorts, .insts,
      .fltPending, .dead, .links, .xfers, .xferWait, .oldTags, .arrivals, .spray, .power, .out] s t) ∧
    (∀ (e : Nat) (src : CmdSource), exec (.allGather e src) s = .next t → SameBut [.mem, .poison, .ueFull, .ecc, .params,
      .streams, .engines, .rel, .win, .dieCopies, .slots, .codecRefs, .faultLog, .flashDue, .subs, .hostPorts, .insts,
      .fltPending, .dead, .links, .xfers, .xferWait, .oldTags, .arrivals, .spray, .power, .out] s t) ∧
    (∀ (e : Nat) (src : CmdSource), exec (.broadcast e src) s = .next t → SameBut [.mem, .poison, .ueFull, .ecc, .params,
      .streams, .engines, .rel, .win, .dieCopies, .slots, .codecRefs, .faultLog, .flashDue, .subs, .hostPorts, .insts,
      .fltPending, .dead, .links, .xfers, .xferWait, .oldTags, .arrivals, .spray, .power, .out] s t) ∧
    (∀ (e : Nat) (src : CmdSource), exec (.allToAll e src) s = .next t → SameBut [.mem, .poison, .ueFull, .ecc, .params,
      .streams, .engines, .rel, .win, .dieCopies, .slots, .codecRefs, .faultLog, .flashDue, .subs, .hostPorts, .insts,
      .fltPending, .dead, .links, .xfers, .xferWait, .oldTags, .arrivals, .spray, .power, .out] s t) ∧
    (∀ (e : Nat) (src : CmdSource), exec (.rdmaWrite e src) s = .next t → SameBut [.mem, .poison, .ueFull, .ecc, .params,
      .streams, .engines, .rel, .win, .dieCopies, .codecRefs, .faultLog, .flashDue, .subs, .hostPorts, .insts, .fltPending,
      .dead, .power, .eth, .out] s t) ∧
    (∀ (e : Nat) (src : CmdSource), exec (.rdmaRead e src) s = .next t → SameBut [.mem, .poison, .ueFull, .ecc, .params,
      .streams, .engines, .rel, .win, .dieCopies, .codecRefs, .faultLog, .flashDue, .subs, .hostPorts, .insts, .fltPending,
      .dead, .power, .eth, .out] s t)

/-- Frame: what the stream, context, partition and instance commands leave unchanged. For each command named, where it answers a next
state, every piece of the state (registers and dictionary values, memory, poison, engines, streams, contexts, instances, links, power,
sessions, logs, ports and the rest) other than the ones listed for it is as it was before. -/
def Obligations.StreamsFrame : Prop :=
  ∀ s t : State,
    (∀ (p ctx e : Nat), exec (.descriptorFetch p ctx e) s = .next t → SameBut [.poison, .ueFull, .ecc, .params, .streams,
      .engines, .rel, .win, .dieCopies, .codecRefs, .faultLog, .flashDue, .fltPending, .power] s t) ∧
    (∀ (e addr : Nat), exec (.cueWriteSeen e addr) s = .next t → SameBut [.params, .streams, .engines, .power] s t) ∧
    (∀ (e : Nat) (encoder : Bool) (fails : List (Nat × Nat × Nat)), exec (.unitComplete e encoder fails) s = .next t → SameBut
      (Piece.allBut [.pending, .now, .mode, .places, .placesNext, .phys, .restores, .vaultLoad, .codecUnit, .flashLog,
      .kvScales, .kvBad, .frames, .reels, .reelImage, .doors, .nodes, .tests, .overdue, .meshHits, .engineDumps, .dumps,
      .dumpRun, .dumpSummary, .rxXfers, .rxDone, .planes, .gone, .heard, .peers, .clock, .eth, .bridges, .freeIx]) s t) ∧
    (∀ (p : Nat), exec (.partitionStart p) s = .next t → SameBut [.mode, .mem, .poison, .ueFull, .ecc, .params, .eff, .ctxs,
      .streams, .heldCtl, .places, .placesNext, .engines, .rel, .win, .dieCopies, .slots, .codecRefs, .faultLog, .flashDue,
      .subs, .hostPorts, .kvScales, .kvBad, .frames, .reels, .reelImage, .insts, .fltPending, .dead, .xferWait, .life, .elo,
      .out] s t) ∧
    (∀ (p : Nat), exec (.partitionRunning p) s = .next t → SameBut [.mode, .poison, .ueFull, .ecc, .params, .eff, .ctxs,
      .streams, .heldCtl, .engines, .rel, .win, .dieCopies, .slots, .codecRefs, .faultLog, .flashDue, .subs, .hostPorts,
      .frames, .doors, .insts, .nodes, .fltPending, .xferWait, .life, .elo, .out] s t) ∧
    (∀ (p : Nat), exec (.partitionStop p) s = .next t → SameBut (Piece.allBut [.pending, .now, .phys, .retired, .restores,
      .vaultLoad, .codecUnit, .stories, .flashLog, .doors, .nodes, .drain, .tests, .overdue, .meshHits, .engineDumps,
      .dumps, .dumpRun, .dumpSummary, .xfers, .oldTags, .rxXfers, .rxDone, .arrivals, .planes, .gone, .heard, .peers,
      .clock, .power, .eth, .bridges, .freeIx]) s t) ∧
    (∀ (p : Nat), exec (.ctxOpen p) s = .next t → SameBut [.mem, .poison, .ueFull, .ecc, .params, .eff, .ctxs, .streams,
      .heldCtl, .engines, .rel, .win, .dieCopies, .slots, .codecRefs, .faultLog, .flashDue, .doors, .fltPending, .dead,
      .xferWait] s t) ∧
    (∀ (p : Nat), exec (.ctxTeardown p) s = .next t → SameBut [.mem, .poison, .ueFull, .ecc, .params, .eff, .ctxs, .streams,
      .heldCtl, .engines, .rel, .win, .dieCopies, .slots, .codecRefs, .faultLog, .flashDue, .doors, .fltPending, .dead,
      .xferWait] s t) ∧
    (∀ (p ctx : Nat), exec (.contextDrained p ctx) s = .next t → SameBut [.mode, .mem, .poison, .ueFull, .ecc, .params, .eff,
      .ctxs, .streams, .heldCtl, .engines, .rel, .win, .dieCopies, .slots, .codecRefs, .faultLog, .flashDue, .subs,
      .hostPorts, .frames, .reels, .reelImage, .insts, .fltPending, .dead, .xferWait, .life, .elo, .out] s t) ∧
    (∀ (p ctx : Nat), exec (.contextFree p ctx) s = .next t → SameBut [.mem, .poison, .ueFull, .ecc, .params, .eff, .ctxs,
      .streams, .heldCtl, .engines, .rel, .win, .dieCopies, .slots, .codecRefs, .faultLog, .flashDue, .fltPending, .dead,
      .xferWait] s t) ∧
    (∀ (p : Nat), exec (.streamBind p) s = .next t → SameBut [.mem, .poison, .ueFull, .ecc, .params, .eff, .ctxs, .streams,
      .heldCtl, .engines, .rel, .win, .dieCopies, .slots, .codecRefs, .faultLog, .flashDue, .doors, .fltPending, .dead,
      .xferWait] s t) ∧
    (∀ (p : Nat), exec (.streamUnbind p) s = .next t → SameBut [.mem, .poison, .ueFull, .ecc, .params, .eff, .ctxs, .streams,
      .heldCtl, .engines, .rel, .win, .dieCopies, .slots, .codecRefs, .faultLog, .flashDue, .doors, .fltPending, .dead,
      .xferWait] s t) ∧
    (∀ (p : Nat), exec (.ctxPreempt p) s = .next t → SameBut [.mem, .poison, .ueFull, .ecc, .params, .eff, .ctxs, .streams,
      .heldCtl, .engines, .rel, .win, .dieCopies, .slots, .codecRefs, .faultLog, .flashDue, .doors, .fltPending, .dead,
      .xferWait] s t) ∧
    (∀ (p : Nat), exec (.ctxResume p) s = .next t → SameBut [.mem, .poison, .ueFull, .ecc, .params, .eff, .ctxs, .streams,
      .heldCtl, .engines, .rel, .win, .dieCopies, .slots, .codecRefs, .faultLog, .flashDue, .doors, .fltPending, .dead,
      .xferWait] s t) ∧
    (∀ (p : Nat), exec (.instanceStart p) s = .next t → SameBut [.poison, .ueFull, .ecc, .params, .eff, .rel, .win, .dieCopies,
      .faultLog, .flashDue, .frames, .doors, .insts, .nodes, .fltPending, .life, .out] s t) ∧
    (∀ (p : Nat) (ack : StartAck), exec (.instanceStartAck p ack) s = .next t → SameBut [.params, .subs, .hostPorts, .insts,
      .fltPending, .out] s t) ∧
    (∀ (p : Nat), exec (.instanceDrain p) s = .next t → SameBut [.mode, .mem, .poison, .ueFull, .ecc, .params, .eff, .ctxs,
      .streams, .heldCtl, .engines, .rel, .win, .dieCopies, .slots, .codecRefs, .faultLog, .flashDue, .subs, .hostPorts,
      .frames, .doors, .insts, .nodes, .fltPending, .dead, .links, .xferWait, .spray, .life, .elo, .hostReads, .out] s t) ∧
    (∀ (p : Nat), exec (.instanceStop p) s = .next t → SameBut [.mode, .mem, .poison, .ueFull, .ecc, .params, .eff, .ctxs,
      .streams, .heldCtl, .engines, .rel, .win, .dieCopies, .slots, .codecRefs, .faultLog, .flashDue, .subs, .hostPorts,
      .frames, .doors, .insts, .nodes, .fltPending, .dead, .links, .xferWait, .spray, .life, .elo, .hostReads, .out] s t)

/-- Frame: what the unit, memory, vault and table commands leave unchanged. For each command named, where it answers a next state, every
piece of the state (registers and dictionary values, memory, poison, engines, streams, contexts, instances, links, power, sessions, logs,
ports and the rest) other than the ones listed for it is as it was before. -/
def Obligations.UnitsFrame : Prop :=
  ∀ s t : State,
    (∀ (e : Nat), exec (.loftFetchTimeout e) s = .next t → SameBut [.params, .engines, .faultLog, .flashDue, .fltPending] s t) ∧
    (∀ (e : Nat), exec (.spareCellJoin e) s = .next t → SameBut [.params, .engines, .phys, .faultLog, .flashDue, .fltPending] s
      t) ∧
    (∀ (e : Nat) (claimed : List Nat), exec (.blockFailure e claimed) s = .next t → SameBut [.mode, .mem, .poison, .ueFull,
      .ecc, .params, .streams, .engines, .phys, .rel, .win, .retired, .dieCopies, .slots, .codecRefs, .faultLog, .flashDue,
      .subs, .hostPorts, .insts, .fltPending, .dead, .dumpRun, .links, .spray, .power, .life, .elo, .out] s t) ∧
    (∀ (e cell : Nat) (idle : IdleSpan), exec (.cellLoan e cell idle) s = .next t → SameBut [.params, .engines] s t) ∧
    (∀ (kind e sub slice signature : Nat) (cut : Bool), exec (.istSliceComplete kind e sub slice signature cut) s = .next t →
      SameBut [.params, .engines, .phys, .retired, .slots, .faultLog, .flashDue, .subs, .hostPorts, .fltPending, .tests,
      .overdue, .links, .spray, .out] s t) ∧
    (∀ (kind e sub : Nat), exec (.istRotation kind e sub) s = .next t → SameBut [.params, .phys, .subs, .hostPorts, .fltPending,
      .overdue, .out] s t) ∧
    (∀ (p addr : Nat), exec (.loftRefetch p addr) s = .next t → SameBut [.mem, .poison, .ueFull, .ecc, .params, .rel, .win,
      .dieCopies, .faultLog, .flashDue, .fltPending, .dead] s t) ∧
    (∀ (addr : Nat) (errs : List (Nat × Nat)), exec (.scrubRead addr errs) s = .next t → SameBut [.mem, .poison, .ueFull, .ecc,
      .params, .rel, .win, .dieCopies, .restores, .faultLog, .flashDue, .fltPending] s t) ∧
    (∀ (stack die : Nat), exec (.dieSpareStart stack die) s = .next t → SameBut [.params, .dieCopies] s t) ∧
    (∀ (stack : Nat), exec (.dieSpareSwitch stack) s = .next t → SameBut [.params, .phys, .retired, .dieCopies, .restores,
      .faultLog, .flashDue, .fltPending] s t) ∧
    (∀ (stack die : Nat), exec (.dieFailure stack die) s = .next t → SameBut [.mode, .params, .engines, .dieCopies, .slots,
      .faultLog, .flashDue, .subs, .hostPorts, .fltPending, .dead, .dumpRun, .links, .spray, .power, .life, .elo, .out] s t) ∧
    (∀ (addr bytes : Nat), exec (.weightRestore addr bytes) s = .next t → SameBut [.mem, .poison, .ueFull, .ecc, .params, .rel,
      .win, .dieCopies, .restores, .faultLog, .flashDue, .fltPending, .dead] s t) ∧
    (∀ (value : Nat), exec (.vaultLoad value) s = .next t → SameBut [.poison, .ueFull, .ecc, .params, .rel, .win, .dieCopies,
      .vaultLoad, .faultLog, .flashDue, .fltPending] s t) ∧
    (exec .vaultLoadRun s = .next t → SameBut [.params, .vaultLoad] s t) ∧
    (∀ (good : Bool), exec (.vaultLoadEntry good) s = .next t → SameBut [.mem, .poison, .ueFull, .ecc, .params, .eff, .engines,
      .rel, .win, .dieCopies, .vaultLoad, .slots, .faultLog, .flashDue, .subs, .hostPorts, .frames, .doors, .insts, .nodes,
      .fltPending, .dead, .links, .spray, .life, .hostReads, .out] s t) ∧
    (∀ (p : Nat), exec (.placementReload p) s = .next t → SameBut [.mem, .poison, .ueFull, .ecc, .params, .places, .placesNext,
      .rel, .win, .dieCopies, .faultLog, .flashDue, .fltPending, .dead] s t) ∧
    (∀ (p entry : Nat), exec (.storyboardEntryStart p entry) s = .next t → SameBut [.mem, .poison, .ueFull, .ecc, .params, .rel,
      .win, .dieCopies, .codecRefs, .codecUnit, .stories, .faultLog, .flashDue, .insts, .fltPending, .dead] s t) ∧
    (∀ (p entry : Nat), exec (.storyboardEntryEnd p entry) s = .next t → SameBut [.mem, .poison, .ueFull, .ecc, .params, .rel,
      .win, .dieCopies, .codecRefs, .stories, .faultLog, .flashDue, .fltPending, .dead] s t) ∧
    (∀ (slot : Nat), exec (.tableLoadComplete slot) s = .next t → SameBut [.mem, .poison, .ueFull, .ecc, .params, .rel, .win,
      .dieCopies, .slots, .faultLog, .flashDue, .fltPending, .dead] s t) ∧
    (∀ (slot : Nat), exec (.tableSlotEmpty slot) s = .next t → SameBut [.poison, .ueFull, .ecc, .params, .eff, .rel, .win,
      .dieCopies, .slots, .faultLog, .flashDue, .fltPending] s t)

/-- Frame: what the serving-loop commands leave unchanged. For each command named, where it answers a next state, every piece of the state
(registers and dictionary values, memory, poison, engines, streams, contexts, instances, links, power, sessions, logs, ports and the rest)
other than the ones listed for it is as it was before. -/
def Obligations.ServingFrame : Prop :=
  ∀ s t : State,
    (∀ (p story : Nat), exec (.plan p story) s = .next t → SameBut [.mem, .poison, .ueFull, .ecc, .params, .eff, .places,
      .placesNext, .rel, .win, .dieCopies, .faultLog, .flashDue, .subs, .hostPorts, .frames, .reels, .doors, .insts, .nodes,
      .fltPending, .dead, .life, .elo, .out] s t) ∧
    (∀ (p : Nat) (sheet : CallSheet), exec (.callSheetReceived p sheet) s = .next t → SameBut [.mem, .poison, .ecc, .params,
      .eff, .places, .placesNext, .frames, .reels, .reelImage, .insts, .dead, .life, .elo] s t) ∧
    (∀ (p : Nat), exec (.runStart p) s = .next t → SameBut [.mode, .mem, .poison, .ueFull, .ecc, .params, .eff, .engines, .rel,
      .win, .dieCopies, .slots, .stories, .faultLog, .flashDue, .subs, .hostPorts, .insts, .fltPending, .dead, .dumpRun,
      .links, .gone, .spray, .power, .life, .elo, .out] s t) ∧
    (∀ (p : Nat) (report : Report), exec (.runReport p report) s = .next t → SameBut [.poison, .ueFull, .ecc, .params, .rel,
      .win, .dieCopies, .faultLog, .flashDue, .insts, .fltPending, .out] s t) ∧
    (∀ (p : Nat) (msg : NormMsg), exec (.normWord p msg) s = .next t → SameBut [.insts, .out] s t) ∧
    (∀ (p : Nat), exec (.commit p) s = .next t → SameBut (Piece.allBut [.pending, .now, .phys, .retired, .restores, .vaultLoad,
      .codecUnit, .stories, .flashLog, .kvScales, .kvBad, .reelImage, .drain, .tests, .overdue, .meshHits, .engineDumps,
      .dumps, .dumpRun, .dumpSummary, .xfers, .oldTags, .rxXfers, .rxDone, .arrivals, .planes, .gone, .heard, .peers,
      .clock, .power, .eth, .bridges, .freeIx]) s t) ∧
    (∀ (p : Nat), exec (.stepAbandon p) s = .next t → SameBut (Piece.allBut [.pending, .now, .phys, .retired, .restores,
      .vaultLoad, .codecUnit, .stories, .flashLog, .kvScales, .kvBad, .reelImage, .drain, .tests, .overdue, .meshHits,
      .engineDumps, .dumps, .dumpRun, .dumpSummary, .xfers, .oldTags, .rxXfers, .rxDone, .arrivals, .planes, .gone, .heard,
      .peers, .clock, .power, .eth, .bridges, .freeIx]) s t) ∧
    (∀ (p : Nat) (msg : CommitMsg), exec (.commitApply p msg) s = .next t → SameBut (Piece.allBut [.pending, .now, .places,
      .placesNext, .phys, .retired, .restores, .vaultLoad, .codecUnit, .flashLog, .kvScales, .kvBad, .doors, .nodes, .drain,
      .tests, .overdue, .meshHits, .engineDumps, .dumps, .dumpSummary, .xfers, .oldTags, .rxXfers, .rxDone, .arrivals,
      .planes, .gone, .heard, .peers, .clock, .eth, .bridges, .freeIx]) s t) ∧
    (∀ (p : Nat), exec (.submit p) s = .next t → SameBut [.mem, .poison, .ueFull, .ecc, .params, .rel, .win, .dieCopies,
      .faultLog, .flashDue, .doors, .insts, .fltPending, .dead] s t) ∧
    (∀ (p : Nat), exec (.cancel p) s = .next t → SameBut [.mem, .poison, .ueFull, .ecc, .params, .rel, .win, .dieCopies,
      .faultLog, .flashDue, .doors, .insts, .fltPending, .dead] s t) ∧
    (∀ (p : Nat), exec (.park p) s = .next t → SameBut [.mem, .poison, .ueFull, .ecc, .params, .rel, .win, .dieCopies,
      .faultLog, .flashDue, .doors, .insts, .fltPending, .dead] s t) ∧
    (∀ (p : Nat), exec (.unpark p) s = .next t → SameBut [.mem, .poison, .ueFull, .ecc, .params, .rel, .win, .dieCopies,
      .faultLog, .flashDue, .doors, .insts, .fltPending, .dead] s t) ∧
    (∀ (p slate tokenAddr : Nat), exec (.take p slate tokenAddr) s = .next t → SameBut [.poison, .ueFull, .ecc, .params, .rel,
      .win, .dieCopies, .faultLog, .flashDue, .insts, .fltPending] s t) ∧
    (∀ (p : Nat), exec (.attach p) s = .next t → SameBut [.mem, .poison, .ecc, .params, .frames, .reels, .reelImage, .insts,
      .dead] s t) ∧
    (∀ (p : Nat), exec (.copyOnWrite p) s = .next t → SameBut [.mem, .poison, .ueFull, .ecc, .params, .rel, .win, .dieCopies,
      .faultLog, .flashDue, .insts, .fltPending, .dead] s t) ∧
    (∀ (p : Nat), exec (.insert p) s = .next t → SameBut (Piece.allBut [.pending, .now, .places, .placesNext, .phys, .retired,
      .restores, .vaultLoad, .codecUnit, .flashLog, .kvScales, .kvBad, .doors, .drain, .tests, .overdue, .meshHits,
      .engineDumps, .dumps, .dumpRun, .dumpSummary, .xfers, .oldTags, .rxXfers, .rxDone, .arrivals, .planes, .gone, .heard,
      .peers, .clock, .power, .eth, .bridges, .freeIx]) s t) ∧
    (∀ (p : Nat), exec (.evict p) s = .next t → SameBut (Piece.allBut [.pending, .now, .places, .placesNext, .phys, .retired,
      .restores, .vaultLoad, .codecUnit, .flashLog, .kvScales, .kvBad, .doors, .drain, .tests, .overdue, .meshHits,
      .engineDumps, .dumps, .dumpRun, .dumpSummary, .xfers, .oldTags, .rxXfers, .rxDone, .arrivals, .planes, .gone, .heard,
      .peers, .clock, .power, .eth, .bridges, .freeIx]) s t) ∧
    (∀ (p : Nat), exec (.parkEntry p) s = .next t → SameBut [.mem, .poison, .ueFull, .ecc, .params, .rel, .win, .dieCopies,
      .faultLog, .flashDue, .insts, .fltPending, .dead, .life, .elo] s t) ∧
    (∀ (p : Nat), exec (.unparkEntry p) s = .next t → SameBut [.mem, .poison, .ueFull, .ecc, .params, .rel, .win, .dieCopies,
      .faultLog, .flashDue, .insts, .fltPending, .dead] s t) ∧
    (∀ (b : AttnBatch), exec (.attnBatchReceived b) s = .next t → SameBut [.mem, .poison, .ueFull, .ecc, .params, .rel, .win,
      .dieCopies, .faultLog, .flashDue, .fltPending, .dead, .life, .elo] s t) ∧
    (∀ (b : ExpBatch), exec (.expertBatchReceived b) s = .next t → SameBut [.mem, .poison, .ueFull, .ecc, .params, .rel, .win,
      .dieCopies, .faultLog, .flashDue, .insts, .fltPending, .dead] s t) ∧
    (∀ (p : Nat), exec (.normDecision p) s = .next t → SameBut [.params, .subs, .hostPorts, .insts, .fltPending, .out, .freeIx]
      s t) ∧
    (∀ (p : Nat), exec (.fallbackVerdict p) s = .next t → SameBut [.params, .subs, .hostPorts, .insts, .fltPending, .out,
      .freeIx] s t) ∧
    (∀ (p : Nat), exec (.normProfileSave p) s = .next t → SameBut [.mem, .poison, .ecc, .params, .dead] s t)

/-- Frame: what the Kwanex commands leave unchanged. For each command named, where it answers a next state, every piece of the state
(registers and dictionary values, memory, poison, engines, streams, contexts, instances, links, power, sessions, logs, ports and the rest)
other than the ones listed for it is as it was before. -/
def Obligations.KwanexFrame : Prop :=
  ∀ s t : State,
    (∀ (g : Nat) (errs bytes : List Nat), exec (.dataFlit g errs bytes) s = .next t → SameBut (Piece.allBut [.pending, .now,
      .mode, .ctxs, .streams, .heldCtl, .phys, .retired, .restores, .vaultLoad, .codecRefs, .codecUnit, .stories, .flashLog,
      .kvScales, .kvBad, .reelImage, .drain, .tests, .overdue, .meshHits, .engineDumps, .dumps, .dumpRun, .dumpSummary,
      .clock, .eth, .hostReads, .bridges, .freeIx]) s t) ∧
    (∀ (g : Nat) (errs bytes : List Nat), exec (.controlFlit g errs bytes) s = .next t → SameBut [.now, .params, .slots,
      .faultLog, .flashDue, .subs, .hostPorts, .fltPending, .links, .spray, .clock, .life, .out] s t) ∧
    (∀ (g : Nat), exec (.ackProgressTimeout g) s = .next t → SameBut [.params, .slots, .faultLog, .flashDue, .subs, .hostPorts,
      .fltPending, .links, .spray, .life, .out] s t) ∧
    (∀ (g : Nat) (ok : Bool), exec (.retrainDone g ok) s = .next t → SameBut [.params, .slots, .faultLog, .flashDue, .subs,
      .hostPorts, .fltPending, .links, .spray, .life, .out] s t) ∧
    (∀ (g : Nat) (ok : Bool), exec (.groupTrained g ok) s = .next t → SameBut [.params, .slots, .faultLog, .flashDue, .subs,
      .hostPorts, .fltPending, .links, .spray, .peers, .life, .out] s t) ∧
    (∀ (g lane ber : Nat) (lockLost : Bool), exec (.laneErrorDetect g lane ber lockLost) s = .next t → SameBut [.params, .rel,
      .slots, .faultLog, .flashDue, .subs, .hostPorts, .fltPending, .links, .spray, .life, .out] s t) ∧
    (∀ (v : Nat), exec (.laneSpareStart v) s = .next t → SameBut [.params, .slots, .faultLog, .flashDue, .subs, .hostPorts,
      .fltPending, .links, .spray, .life, .out] s t) ∧
    (∀ (g : Nat), exec (.linkRestore g) s = .next t → SameBut [.params, .slots, .subs, .hostPorts, .fltPending, .links, .spray,
      .life, .out] s t) ∧
    (exec .linkPlanApply s = .next t → SameBut [.params, .eff, .slots, .faultLog, .flashDue, .subs, .hostPorts, .fltPending,
      .links, .spray, .life, .out] s t) ∧
    (∀ (g : Nat), exec (.identitySend g) s = .next t → SameBut [.slots, .links, .out] s t) ∧
    (∀ (g : Nat) (r : IdRec), exec (.identityRecord g r) s = .next t → SameBut [.params, .slots, .faultLog, .flashDue, .subs,
      .hostPorts, .fltPending, .links, .spray, .peers, .life, .out] s t) ∧
    (∀ (chan header : Nat) (data : List Nat), exec (.writePacket chan header data) s = .next t → SameBut (Piece.allBut
      [.pending, .now, .mode, .ctxs, .streams, .heldCtl, .phys, .retired, .restores, .vaultLoad, .codecRefs, .codecUnit,
      .stories, .flashLog, .kvScales, .kvBad, .reelImage, .drain, .tests, .overdue, .meshHits, .engineDumps, .dumps,
      .dumpRun, .dumpSummary, .peers, .clock, .eth, .hostReads, .bridges, .freeIx]) s t) ∧
    (∀ (chan header : Nat) (data : List Nat), exec (.collectivePacket chan header data) s = .next t → SameBut (Piece.allBut
      [.pending, .now, .mode, .ctxs, .streams, .heldCtl, .phys, .retired, .restores, .vaultLoad, .codecRefs, .codecUnit,
      .stories, .flashLog, .kvScales, .kvBad, .reelImage, .drain, .tests, .overdue, .meshHits, .engineDumps, .dumps,
      .dumpRun, .dumpSummary, .peers, .clock, .eth, .hostReads, .bridges, .freeIx]) s t) ∧
    (∀ (chan header : Nat), exec (.ackPacket chan header) s = .next t → SameBut (Piece.allBut [.pending, .now, .mode, .ctxs,
      .streams, .heldCtl, .phys, .retired, .restores, .vaultLoad, .codecRefs, .codecUnit, .stories, .flashLog, .kvScales,
      .kvBad, .reelImage, .drain, .tests, .overdue, .meshHits, .engineDumps, .dumps, .dumpRun, .dumpSummary, .peers, .clock,
      .eth, .hostReads, .bridges, .freeIx]) s t) ∧
    (∀ (chan header : Nat), exec (.abortPacket chan header) s = .next t → SameBut (Piece.allBut [.pending, .now, .mode, .ctxs,
      .streams, .heldCtl, .phys, .retired, .restores, .vaultLoad, .codecRefs, .codecUnit, .stories, .flashLog, .kvScales,
      .kvBad, .reelImage, .drain, .tests, .overdue, .meshHits, .engineDumps, .dumps, .dumpRun, .dumpSummary, .peers, .clock,
      .eth, .hostReads, .bridges, .freeIx]) s t) ∧
    (∀ (node tag : Nat), exec (.transferAckTimeout node tag) s = .next t → SameBut [.slots, .links, .xfers, .spray, .out] s t) ∧
    (∀ (node mask : Nat), exec (.planes node mask) s = .next t → SameBut [.params, .subs, .hostPorts, .fltPending, .planes,
      .out] s t) ∧
    (∀ (node mask : Nat), exec (.link node mask) s = .next t → SameBut [.params, .subs, .hostPorts, .fltPending, .out] s t) ∧
    (∀ (node : Nat), exec (.fenced node) s = .next t → SameBut [.mem, .poison, .ueFull, .ecc, .params, .eff, .places,
      .placesNext, .engines, .rel, .win, .dieCopies, .slots, .faultLog, .flashDue, .subs, .hostPorts, .frames, .reels,
      .doors, .insts, .nodes, .fltPending, .dead, .links, .xfers, .xferWait, .oldTags, .gone, .spray, .life, .elo, .out] s
      t) ∧
    (∀ (node : Nat), exec (.reset node) s = .next t → SameBut [.mem, .poison, .ueFull, .ecc, .params, .eff, .places,
      .placesNext, .engines, .rel, .win, .dieCopies, .slots, .faultLog, .flashDue, .subs, .hostPorts, .frames, .reels,
      .doors, .insts, .nodes, .fltPending, .dead, .links, .xfers, .xferWait, .oldTags, .gone, .spray, .life, .elo, .out] s
      t) ∧
    (∀ (node : Nat), exec (.removed node) s = .next t → SameBut [.mem, .poison, .ueFull, .ecc, .params, .eff, .places,
      .placesNext, .engines, .rel, .win, .dieCopies, .slots, .faultLog, .flashDue, .subs, .hostPorts, .frames, .reels,
      .doors, .insts, .nodes, .fltPending, .dead, .links, .xfers, .xferWait, .oldTags, .gone, .spray, .life, .elo, .out] s
      t) ∧
    (∀ (node : Nat), exec (.peerLost node) s = .next t → SameBut [.mem, .poison, .ueFull, .ecc, .params, .eff, .places,
      .placesNext, .engines, .rel, .win, .dieCopies, .faultLog, .flashDue, .subs, .hostPorts, .frames, .reels, .doors,
      .insts, .nodes, .fltPending, .dead, .xfers, .xferWait, .oldTags, .life, .elo, .out] s t) ∧
    (∀ (p mask epoch : Nat) (assign : Option (Nat × Nat)), exec (.shape p mask epoch assign) s = .next t → SameBut [.mem,
      .poison, .ueFull, .ecc, .params, .eff, .engines, .rel, .win, .dieCopies, .faultLog, .flashDue, .subs, .hostPorts,
      .fltPending, .dead, .xfers, .xferWait, .oldTags, .out] s t) ∧
    (∀ (node mask : Nat), exec (.capacity node mask) s = .next t → SameBut [.params, .subs, .hostPorts, .fltPending, .out] s t) ∧
    (∀ (node : Nat), exec (.pathLoss node) s = .next t → SameBut [.mem, .poison, .ueFull, .ecc, .params, .eff, .places,
      .placesNext, .engines, .rel, .win, .dieCopies, .slots, .faultLog, .flashDue, .subs, .hostPorts, .frames, .reels,
      .doors, .insts, .nodes, .fltPending, .dead, .links, .xfers, .xferWait, .oldTags, .spray, .life, .elo, .out] s t) ∧
    (∀ (p : Nat), exec (.substituteTimeout p) s = .next t → SameBut (Piece.allBut [.pending, .now, .phys, .retired, .restores,
      .vaultLoad, .codecUnit, .stories, .flashLog, .kvScales, .kvBad, .reelImage, .drain, .tests, .overdue, .meshHits,
      .engineDumps, .dumps, .dumpRun, .dumpSummary, .xfers, .oldTags, .rxXfers, .rxDone, .arrivals, .planes, .gone, .heard,
      .peers, .clock, .power, .eth, .bridges, .freeIx]) s t) ∧
    (∀ (p r : Nat), exec (.rankReady p r) s = .next t → SameBut [.params, .subs, .hostPorts, .insts, .fltPending, .out] s t) ∧
    (exec .timeHoldover s = .next t → SameBut [.params, .subs, .hostPorts, .fltPending, .clock, .out] s t) ∧
    (∀ (port domain : Nat) (m : PtpMsg), exec (.ptpMessage port domain m) s = .next t → SameBut [.now, .params, .clock, .out] s
      t) ∧
    (∀ (g : Nat), exec (.groupLossOfLock g) s = .next t → SameBut [.params, .slots, .subs, .hostPorts, .fltPending, .links,
      .spray, .life, .out] s t)

/-- Frame: what the power and heat commands leave unchanged. For each command named, where it answers a next state, every piece of the
state (registers and dictionary values, memory, poison, engines, streams, contexts, instances, links, power, sessions, logs, ports and the
rest) other than the ones listed for it is as it was before. -/
def Obligations.GovernorFrame : Prop :=
  ∀ s t : State,
    (∀ (straps : Nat), exec (.prechargeEntry straps) s = .next t → SameBut [.mode, .params, .subs, .hostPorts, .fltPending,
      .power, .life, .elo, .out] s t) ∧
    (∀ (bulk input : Nat), exec (.prechargeFail bulk input) s = .next t → SameBut [.params, .subs, .hostPorts, .fltPending,
      .power, .out] s t) ∧
    (exec .prechargeRetry s = .next t → SameBut [.power] s t) ∧
    (∀ (mv : Nat), exec (.inputUndervoltage mv) s = .next t → SameBut [.params, .power, .life, .elo] s t) ∧
    (∀ (mv : Nat), exec (.inputOvervoltage mv) s = .next t → SameBut [.params, .power, .life, .elo] s t) ∧
    (∀ (mv : Nat), exec (.inputRestart mv) s = .next t → SameBut [.params, .power, .life, .elo] s t) ∧
    (∀ (mv : Nat), exec (.supplySag mv) s = .next t → SameBut [.params, .power, .life, .elo] s t) ∧
    (exec .derateN s = .next t → SameBut [.params, .power, .life, .elo] s t) ∧
    (exec .supplyLimitClear s = .next t → SameBut [.params, .power, .life, .elo] s t) ∧
    (∀ (sign : PowerSign) (region unit : Nat), exec (.powerUnitFailure sign region unit) s = .next t → SameBut [.params,
      .retired, .faultLog, .flashDue, .fltPending, .power, .life, .elo] s t) ∧
    (∀ (avg mv : Nat) (draw : List Nat), exec (.governorPeriod avg mv draw) s = .next t → SameBut [.params, .subs, .hostPorts,
      .fltPending, .power, .life, .elo, .out] s t) ∧
    (exec .fastPath s = .next t → SameBut [.params, .subs, .hostPorts, .fltPending, .power, .life, .elo, .out] s t) ∧
    (∀ (avg stretch duty : Nat), exec (.fastPathStep avg stretch duty) s = .next t → SameBut [.params, .subs, .hostPorts,
      .fltPending, .power, .life, .elo, .out] s t) ∧
    (exec .opStep s = .next t → SameBut [.params, .subs, .hostPorts, .fltPending, .power, .life, .elo, .out] s t) ∧
    (∀ (v : Nat), exec (.leaseCommit v) s = .next t → SameBut [.params, .power, .life, .elo, .out] s t) ∧
    (exec .leaseExpiry s = .next t → SameBut [.params, .subs, .hostPorts, .fltPending, .power, .life, .elo, .out] s t) ∧
    (∀ (hottest : Int) (avg sensor : Nat), exec (.thermalCompare hottest avg sensor) s = .next t → SameBut [.params, .subs,
      .hostPorts, .fltPending, .power, .life, .elo, .out] s t) ∧
    (∀ (sensor : Nat) (raw : Int), exec (.thermalTrip sensor raw) s = .next t → SameBut [.mode, .params, .engines, .dieCopies,
      .vaultLoad, .slots, .subs, .hostPorts, .fltPending, .dumpRun, .links, .spray, .power, .life, .elo, .hostReads, .out] s
      t) ∧
    (∀ (flow : Nat) (inlet outlet : Int), exec (.coolantSample flow inlet outlet) s = .next t → SameBut [.params, .slots, .subs,
      .hostPorts, .fltPending, .links, .power, .life, .elo, .out] s t) ∧
    (∀ (region : Nat), exec (.droop region) s = .next t → SameBut [.params, .subs, .hostPorts, .fltPending, .power, .life, .elo,
      .out] s t) ∧
    (∀ (region : Nat), exec (.droopRelease region) s = .next t → SameBut [.params, .subs, .hostPorts, .fltPending, .power,
      .life, .elo, .out] s t) ∧
    (∀ (region : Nat) (classes : List (Nat × Nat)), exec (.rampSlot region classes) s = .next t → SameBut [.params, .subs,
      .hostPorts, .fltPending, .power, .life, .elo, .out] s t) ∧
    (∀ (avg : Nat), exec (.energyWindow avg) s = .next t → SameBut [.params, .power, .life, .elo] s t) ∧
    (∀ (window : Nat), exec (.tradeWindowEnd window) s = .next t → SameBut [.params, .power, .life, .elo, .out] s t) ∧
    (∀ (r : TradeReport), exec (.tradeReport r) s = .next t → SameBut [.params, .power, .life, .elo, .out] s t) ∧
    (∀ (node : Nat) (give : Bool) (watts : Nat), exec (.tradeToken node give watts) s = .next t → SameBut [.params, .power,
      .life, .elo, .out] s t) ∧
    (exec .derateNDeassert s = .next t → SameBut [.power] s t) ∧
    (∀ (bulk input : Nat), exec (.prechargeComplete bulk input) s = .next t → SameBut (Piece.allBut [.pending, .phys, .rel,
      .retired, .flashLog, .dumpSummary, .freeIx]) s t) ∧
    (∀ (gap : Nat), exec (.presNRelease gap) s = .next t → SameBut (Piece.allBut [.pending, .phys, .retired, .flashLog,
      .dumpSummary, .freeIx]) s t) ∧
    (exec .holdUpExhausted s = .next t → SameBut (Piece.allBut [.pending, .phys, .retired, .flashLog, .dumpSummary, .freeIx]) s
      t)

/-- Frame: what the fault and recovery commands leave unchanged. For each command named, where it answers a next state, every piece of the
state (registers and dictionary values, memory, poison, engines, streams, contexts, instances, links, power, sessions, logs, ports and the
rest) other than the ones listed for it is as it was before. -/
def Obligations.RecoveryFrame : Prop :=
  ∀ s t : State,
    (∀ (e : Nat) (core : Option Nat) (lost : Option (Nat × Nat)), exec (.watchdogExpiry e core lost) s = .next t → SameBut
      [.params, .engines, .phys, .win, .retired, .slots, .faultLog, .flashDue, .subs, .hostPorts, .fltPending, .engineDumps,
      .links, .xfers, .xferWait, .spray, .life, .hostReads, .out] s t) ∧
    (∀ (core : Nat) (miss : CoreMiss), exec (.heartbeatMiss core miss) s = .next t → SameBut [.mode, .params, .engines, .phys,
      .retired, .slots, .faultLog, .flashDue, .subs, .hostPorts, .fltPending, .dumpRun, .links, .spray, .power, .life, .elo,
      .hostReads, .out] s t) ∧
    (∀ (e p ctx : Nat), exec (.remoteWaitExpiry e p ctx) s = .next t → SameBut [.mem, .poison, .ueFull, .ecc, .params, .streams,
      .engines, .rel, .win, .dieCopies, .faultLog, .flashDue, .subs, .hostPorts, .insts, .fltPending, .dead, .out] s t) ∧
    (∀ (e target : Nat) (lost : Option (Nat × Nat)), exec (.meshTimeout e target lost) s = .next t → SameBut [.mode, .params,
      .engines, .win, .slots, .faultLog, .flashDue, .subs, .hostPorts, .fltPending, .meshHits, .engineDumps, .dumpRun,
      .links, .xfers, .xferWait, .spray, .power, .life, .elo, .hostReads, .out] s t) ∧
    (∀ (e : Nat) (lost : Option (Nat × Nat)), exec (.engineReset e lost) s = .next t → SameBut [.params, .engines, .win, .slots,
      .faultLog, .flashDue, .subs, .hostPorts, .fltPending, .engineDumps, .links, .xfers, .xferWait, .spray, .life,
      .hostReads, .out] s t) ∧
    (∀ (e : Nat), exec (.engineResetEnd e) s = .next t → SameBut [.mode, .params, .streams, .engines, .retired, .slots,
      .codecRefs, .faultLog, .flashDue, .subs, .hostPorts, .insts, .fltPending, .dumpRun, .links, .spray, .power, .life,
      .elo, .out] s t) ∧
    (∀ (r : Overrun), exec (.resetOverrun r) s = .next t → SameBut [.mode, .params, .engines, .slots, .faultLog, .flashDue,
      .subs, .hostPorts, .fltPending, .dumpRun, .links, .spray, .power, .life, .elo, .out] s t) ∧
    (exec .enterFenced s = .next t → SameBut [.mode, .params, .engines, .slots, .faultLog, .flashDue, .subs, .hostPorts,
      .fltPending, .dumpRun, .links, .spray, .power, .life, .elo, .out] s t) ∧
    (exec .dumpStart s = .next t → SameBut [.params, .dumpRun] s t) ∧
    (exec .faultLogCommit s = .next t → SameBut [.flashLog, .flashDue] s t) ∧
    (∀ (v : Nat) (pass : Bool), exec (.unitRestore v pass) s = .next t → SameBut [.params, .phys, .retired, .faultLog,
      .flashDue, .fltPending, .tests, .power, .life, .elo] s t) ∧
    (exec .refclkLoss s = .next t → SameBut [.mode, .params, .engines, .slots, .faultLog, .flashDue, .subs, .hostPorts,
      .fltPending, .dumpRun, .links, .spray, .clock, .power, .life, .elo, .out] s t) ∧
    (exec .refclkReturn s = .next t → SameBut [.params, .faultLog, .flashDue, .fltPending, .power] s t) ∧
    (∀ (bridge flit : Nat), exec (.bridgeFlitError bridge flit) s = .next t → SameBut [.mode, .params, .engines, .slots,
      .faultLog, .flashDue, .subs, .hostPorts, .fltPending, .dumpRun, .links, .spray, .power, .life, .elo, .bridges, .out] s
      t) ∧
    (∀ (late : List Nat), exec (.dumpComplete late) s = .next t → SameBut (Piece.allBut [.pending, .phys, .rel, .retired,
      .flashLog, .freeIx]) s t)

/-- Frame: what the Eloaphor requests and timers leave unchanged. For each command named, where it answers a next state, every piece of
the state (registers and dictionary values, memory, poison, engines, streams, contexts, instances, links, power, sessions, logs, ports and
the rest) other than the ones listed for it is as it was before. WRITE and BLOB_WRITE are named for a body whose items are all parameters
of another access than CMD: a write of a CMD parameter is that parameter's own command. -/
def Obligations.RequestsFrame : Prop :=
  ∀ s t : State,
    (∀ (id : Nat), exec (.blobTransferTimeout id) s = .next t → SameBut [.elo] s t) ∧
    (∀ (id : Nat), exec (.loginTimeout id) s = .next t → SameBut [.elo] s t) ∧
    (∀ (id : Nat), exec (.sessionIdleTimeout id) s = .next t → SameBut [.elo] s t) ∧
    (∀ (id : Nat), exec (.sessionClose id) s = .next t → SameBut [.elo] s t) ∧
    (∀ (slot : Nat), exec (.eventResend slot) s = .next t → SameBut [.subs, .out] s t) ∧
    (exec .persistCommit s = .next t → SameBut [.params, .elo] s t) ∧
    (exec .restoreDefaults s = .next t → SameBut [.elo] s t) ∧
    (exec .userCalReset s = .next t → SameBut [.params, .elo] s t) ∧
    (∀ (path src : Nat) (p : Pdu), exec (.read path src p) s = .next t → SameBut [.params, .subs, .hostPorts, .power, .life,
      .elo, .out] s t) ∧
    (∀ (path src : Nat) (p : Pdu), exec (.blobRead path src p) s = .next t → SameBut [.params, .subs, .hostPorts, .power, .life,
      .elo, .out] s t) ∧
    (∀ (path src : Nat) (p : Pdu), exec (.describe path src p) s = .next t → SameBut [.params, .subs, .hostPorts, .life, .elo,
      .out] s t) ∧
    (∀ (path src : Nat) (p : Pdu), exec (.list path src p) s = .next t → SameBut [.params, .subs, .hostPorts, .life, .elo, .out]
      s t) ∧
    (∀ (path src : Nat) (p : Pdu), exec (.challenge path src p) s = .next t → SameBut [.params, .subs, .hostPorts, .life, .elo,
      .out, .freeIx] s t) ∧
    (∀ (path src : Nat) (p : Pdu), exec (.login path src p) s = .next t → SameBut [.params, .subs, .hostPorts, .life, .elo,
      .out] s t) ∧
    (∀ (path src : Nat) (p : Pdu), exec (.logout path src p) s = .next t → SameBut [.params, .subs, .hostPorts, .life, .elo,
      .out] s t) ∧
    (∀ (path src : Nat) (p : Pdu), exec (.subscribe path src p) s = .next t → SameBut [.params, .subs, .hostPorts, .life, .elo,
      .out] s t) ∧
    (∀ (path src : Nat) (p : Pdu), exec (.unsubscribe path src p) s = .next t → SameBut [.params, .subs, .hostPorts, .life,
      .elo, .out] s t) ∧
    (∀ (path src : Nat) (p : Pdu), exec (.eventAck path src p) s = .next t → SameBut [.params, .subs, .hostPorts, .life, .elo,
      .out] s t) ∧
    (∀ (path src : Nat) (p : Pdu), exec (.discover path src p) s = .next t → SameBut [.params, .subs, .hostPorts, .life, .elo,
      .out] s t) ∧
    (∀ (path src : Nat) (p : Pdu), QuietBody p.body → exec (.write path src p) s = .next t → SameBut [.params, .eff, .clock,
      .subs, .hostPorts, .power, .life, .elo, .out] s t) ∧
    (∀ (path src : Nat) (p : Pdu), QuietBody p.body → exec (.blobWrite path src p) s = .next t → SameBut [.params, .eff, .clock,
      .subs, .hostPorts, .power, .life, .elo, .out] s t)

/-- Frame: what the host-port and Ethernet commands leave unchanged. For each command named, where it answers a next state, every piece of
the state (registers and dictionary values, memory, poison, engines, streams, contexts, instances, links, power, sessions, logs, ports and
the rest) other than the ones listed for it is as it was before. HP_MBX_DOORBELL is named for a request whose items are all parameters of
another access than CMD. -/
def Obligations.PortsFrame : Prop :=
  ∀ s t : State,
    (∀ (h : Nat) (part : RegPart) (v : Nat), exec (.hpMbxEvtAck h part v) s = .next t → SameBut [.params, .subs, .hostPorts,
      .out] s t) ∧
    (∀ (h : Nat) (r : RegRead), exec (.lowHalfRead h r) s = .next t → SameBut [.hostPorts, .out] s t) ∧
    (∀ (h off : Nat), exec (.highHalfRead h off) s = .next t → SameBut [.hostPorts, .out] s t) ∧
    (∀ (h p : Nat) (part : RegPart) (v : Nat), exec (.dirReqDoorbell h p part v) s = .next t → SameBut [.params, .hostPorts,
      .doors] s t) ∧
    (∀ (h p : Nat) (part : RegPart) (v : Nat), exec (.dirCancelDoorbell h p part v) s = .next t → SameBut [.params, .hostPorts,
      .doors] s t) ∧
    (∀ (h p : Nat) (part : RegPart) (v : Nat), exec (.dirCplDoorbell h p part v) s = .next t → SameBut [.mem, .poison, .ecc,
      .params, .hostPorts, .doors, .insts, .dead] s t) ∧
    (∀ (h p : Nat) (part : RegPart) (v : Nat), exec (.dirCmdDoorbell h p part v) s = .next t → SameBut [.params, .streams,
      .hostPorts, .doors] s t) ∧
    (∀ (h p : Nat) (part : RegPart) (v : Nat), exec (.dirCtlDoorbell h p part v) s = .next t → SameBut [.mem, .poison, .ueFull,
      .ecc, .params, .eff, .ctxs, .streams, .heldCtl, .engines, .rel, .win, .dieCopies, .slots, .codecRefs, .faultLog,
      .flashDue, .hostPorts, .doors, .fltPending, .dead, .xferWait] s t) ∧
    (∀ (h : Nat) (part : RegPart) (v : Nat), exec (.fltPending h part v) s = .next t → SameBut [.hostPorts, .fltPending] s t) ∧
    (∀ (h off n : Nat), exec (.bar2Read h off n) s = .next t → SameBut [.poison, .ueFull, .ecc, .params, .rel, .win, .dieCopies,
      .faultLog, .flashDue, .hostPorts, .fltPending, .out] s t) ∧
    (∀ (h off : Nat) (data : List Nat) (poisoned : Bool), exec (.bar2Write h off data poisoned) s = .next t → SameBut [.mem,
      .poison, .ecc, .params, .hostPorts, .dead] s t) ∧
    (∀ (h off size : Nat) (op : HostAtomic) (a b : Nat), exec (.atomicOp h off size op a b) s = .next t → SameBut [.mem,
      .poison, .ueFull, .ecc, .params, .rel, .win, .dieCopies, .faultLog, .flashDue, .hostPorts, .fltPending, .dead, .out] s
      t) ∧
    (∀ (h addr : Nat) (data : List Nat) (poisoned : Bool), exec (.hostReadCompletion h addr data poisoned) s = .next t → SameBut
      [.mem, .poison, .params, .engines, .hostReads] s t) ∧
    (∀ (h addr : Nat), exec (.completionTimeout h addr) s = .next t → SameBut [.mem, .poison, .params, .engines, .hostReads] s
      t) ∧
    (∀ (h : Nat), exec (.surpriseDown h) s = .next t → SameBut [.params, .engines, .hostPorts, .hostReads] s t) ∧
    (∀ (h width rate : Nat) (flit cxl again : Bool), exec (.hostLinkUp h width rate flit cxl again) s = .next t → SameBut [.mem,
      .poison, .ecc, .params, .engines, .hostPorts, .insts, .dead, .hostReads, .out] s t) ∧
    (∀ (h : Nat), exec (.functionLevelReset h) s = .next t → SameBut [.mem, .poison, .ecc, .params, .engines, .hostPorts,
      .insts, .dead, .hostReads, .out] s t) ∧
    (∀ (h : Nat) (low : Bool), exec (.perstN h low) s = .next t → SameBut [.mem, .poison, .ecc, .params, .engines, .hostPorts,
      .insts, .dead, .hostReads, .out] s t) ∧
    (∀ (h : Nat) (w : ConfigWrite), exec (.configurationWrite h w) s = .next t → SameBut [.mem, .poison, .ecc, .params,
      .engines, .hostPorts, .insts, .dead, .hostReads, .out] s t) ∧
    (∀ (h off : Nat) (data : List Nat), exec (.registerWrite h off data) s = .next t → SameBut [.mem, .poison, .ecc, .params,
      .engines, .subs, .hostPorts, .insts, .dead, .elo, .hostReads, .out] s t) ∧
    (∀ (h : Nat) (part : RegPart) (v : Nat), exec (.pwrCapReq h part v) s = .next t → SameBut [.params, .subs, .hostPorts,
      .power, .life, .elo] s t) ∧
    (∀ (h : Nat) (part : RegPart) (v : Nat), (∀ p, pduOf (getBytes (s.hostPort h).req 0 (clampTo 16 4096 (v % 2 ^ 13))) = some p
      → QuietBody p.body) → exec (.hpMbxDoorbell h part v) s = .next t → SameBut [.params, .eff, .clock, .subs, .hostPorts,
      .power, .life, .elo, .out, .freeIx] s t) ∧
    (∀ (r : RoceReq), exec (.incomingRdmaWrite r) s = .next t → SameBut [.mem, .poison, .ueFull, .ecc, .params, .engines, .rel,
      .win, .dieCopies, .faultLog, .flashDue, .fltPending, .dead, .eth, .out] s t) ∧
    (∀ (r : RoceReq), exec (.incomingRdmaRead r) s = .next t → SameBut [.poison, .ueFull, .ecc, .params, .engines, .rel, .win,
      .dieCopies, .faultLog, .flashDue, .subs, .hostPorts, .fltPending, .eth, .out] s t) ∧
    (∀ (port qpn psn : Nat) (nak : Option Nat), exec (.roceAck port qpn psn nak) s = .next t → SameBut [.params, .engines,
      .faultLog, .flashDue, .fltPending, .eth, .out] s t) ∧
    (∀ (port qp : Nat), exec (.roceTimeout port qp) s = .next t → SameBut [.params, .engines, .faultLog, .flashDue, .fltPending,
      .eth, .out] s t) ∧
    (∀ (port qpn : Nat), exec (.cnp port qpn) s = .next t → SameBut [.params, .eth] s t) ∧
    (∀ (port qp : Nat), exec (.roceRateRaise port qp) s = .next t → SameBut [.eth] s t) ∧
    (∀ (v : Nat), exec (.roceQpReload v) s = .next t → SameBut [.poison, .ueFull, .ecc, .params, .engines, .rel, .win,
      .dieCopies, .faultLog, .flashDue, .fltPending, .eth] s t) ∧
    (∀ (key : Nat), exec (.roceKeyReload key) s = .next t → SameBut [.poison, .ueFull, .ecc, .params, .rel, .win, .dieCopies,
      .faultLog, .flashDue, .fltPending, .eth] s t) ∧
    (∀ (port : Nat) (f : EthFrame), exec (.networkFrame port f) s = .next t → SameBut [.params, .out] s t) ∧
    (∀ (port : Nat) (up : Bool), exec (.ethLinkChange port up) s = .next t → SameBut [.params] s t) ∧
    (∀ (port qpn psn : Nat) (data : List Nat), exec (.roceReadResponse port qpn psn data) s = .next t → SameBut [.mem, .poison,
      .ecc, .params, .engines, .dead, .eth] s t) ∧
    (∀ (port priority quanta : Nat), exec (.pfcFrame port priority quanta) s = .next t → SameBut [.params, .eth] s t)

/-- Frame: what the start-up and live-service commands leave unchanged. For each command named, where it answers a next state, every piece
of the state (registers and dictionary values, memory, poison, engines, streams, contexts, instances, links, power, sessions, logs, ports
and the rest) other than the ones listed for it is as it was before. -/
def Obligations.StartupFrame : Prop :=
  ∀ s t : State,
    (∀ (sealA sealB : Bool), exec (.bootDone sealA sealB) s = .next t → SameBut [.mode, .poison, .ueFull, .ecc, .params,
      .engines, .rel, .win, .dieCopies, .faultLog, .flashDue, .subs, .hostPorts, .fltPending, .power, .life, .elo, .eth,
      .out] s t) ∧
    (∀ (failed : List (Nat × Nat × Nat)), exec (.selftestDone failed) s = .next t → SameBut [.mode, .params, .engines, .phys,
      .retired, .slots, .faultLog, .flashDue, .subs, .hostPorts, .fltPending, .links, .spray, .life, .elo, .out] s t) ∧
    (exec .trainingEnd s = .next t → SameBut [.mode, .mem, .poison, .ueFull, .ecc, .params, .eff, .places, .placesNext, .rel,
      .win, .dieCopies, .faultLog, .flashDue, .subs, .hostPorts, .kvScales, .kvBad, .frames, .reels, .reelImage, .insts,
      .fltPending, .dead, .power, .life, .elo, .out] s t) ∧
    (exec .moduleDrain s = .next t → SameBut [.mode, .mem, .poison, .ueFull, .ecc, .params, .eff, .ctxs, .streams, .heldCtl,
      .engines, .rel, .win, .dieCopies, .vaultLoad, .slots, .codecRefs, .faultLog, .flashDue, .subs, .hostPorts, .insts,
      .fltPending, .dead, .xferWait, .life, .elo, .out] s t) ∧
    (exec .drainTimeout s = .next t → SameBut [.mode, .mem, .poison, .ueFull, .ecc, .params, .eff, .ctxs, .streams, .heldCtl,
      .engines, .rel, .win, .dieCopies, .vaultLoad, .slots, .codecRefs, .faultLog, .flashDue, .subs, .hostPorts, .insts,
      .fltPending, .dead, .xferWait, .life, .elo, .out] s t) ∧
    (exec .drainComplete s = .next t → SameBut [.mode, .params, .engines, .vaultLoad, .slots, .flashLog, .flashDue, .subs,
      .hostPorts, .fltPending, .links, .spray, .power, .life, .elo, .hostReads, .out] s t) ∧
    (exec .standby s = .next t → SameBut [.params, .dieCopies, .vaultLoad, .power] s t) ∧
    (exec .wake s = .next t → SameBut [.mode, .mem, .poison, .ueFull, .ecc, .params, .eff, .places, .placesNext, .rel, .win,
      .dieCopies, .faultLog, .flashDue, .subs, .hostPorts, .kvScales, .kvBad, .frames, .reels, .reelImage, .insts,
      .fltPending, .dead, .life, .elo, .out] s t) ∧
    (∀ (addr : Nat) (sigOk : Bool), exec (.fwStage addr sigOk) s = .next t → SameBut [.poison, .ueFull, .ecc, .params, .rel,
      .win, .dieCopies, .faultLog, .flashDue, .fltPending, .life] s t) ∧
    (∀ (ok : Bool), exec (.fwStageDone ok) s = .next t → SameBut [.params, .life] s t) ∧
    (∀ (v : Nat), exec (.fwActivate v) s = .next t → SameBut [.params, .engines, .slots, .subs, .hostPorts, .fltPending, .links,
      .spray, .life, .hostReads, .out] s t) ∧
    (∀ (key : Nat) (healthy : Bool), exec (.fwHealthCheck key healthy) s = .next t → SameBut [.params, .engines, .slots,
      .faultLog, .flashDue, .subs, .hostPorts, .fltPending, .links, .spray, .life, .hostReads, .out] s t) ∧
    (∀ (key : Nat), exec (.fwTrialEnd key) s = .next t → SameBut [.life] s t) ∧
    (∀ (kind : Nat), exec (.fwConfirm kind) s = .next t → SameBut [.life] s t) ∧
    (∀ (v : Nat), exec (.fwRevert v) s = .next t → SameBut [.params, .engines, .slots, .subs, .hostPorts, .fltPending, .links,
      .spray, .life, .hostReads, .out] s t) ∧
    (∀ (v : Nat), exec (.clapperArm v) s = .next t → SameBut [.params] s t) ∧
    (exec .clapperFire s = .next t → SameBut [.params, .power, .life] s t) ∧
    (exec .dailyRecord s = .next t → SameBut [.mem, .poison, .ecc, .params, .dead, .power, .life, .elo] s t) ∧
    (∀ (region phase : Nat), exec (.regulatorCalibration region phase) s = .next t → SameBut [.life] s t) ∧
    (∀ (g : Nat) (tx : Bool) (height width : Nat), exec (.eyeScan g tx height width) s = .next t → SameBut [.rel] s t) ∧
    (exec .restart s = .next t → SameBut (Piece.allBut [.pending, .phys, .rel, .retired, .flashLog, .dumpSummary, .freeIx]) s t) ∧
    (exec .restartKeep s = .next t → SameBut (Piece.allBut [.pending, .phys, .rel, .retired, .flashLog, .dumpSummary, .freeIx])
      s t) ∧
    (∀ (hottest : Int), exec (.safeRelease hottest) s = .next t → SameBut (Piece.allBut [.pending, .phys, .rel, .retired,
      .flashLog, .dumpSummary, .freeIx]) s t)
end

