-- ==== Sys2Proof/Laws/Store.lean ====
section
/-! SUPPORT. Sparse tables: what a key reads as after a change, and that changes keep the canonical form. -/
namespace Sys2Proof.Machine

/-! ## Reading after a change -/

@[simp] theorem lookup_nil {α : Type} (j : Nat) : lookup ([] : List (Nat × α)) j = none := rfl

@[simp] theorem lookup_insertAt_same {α : Type} (l : List (Nat × α)) (j : Nat) (v : α) : lookup (insertAt l j v) j = some v := by
  induction l with
  | nil => simp [insertAt, lookup]
  | cons x t ih =>
    obtain ⟨k, w⟩ := x
    simp only [insertAt]
    split
    · simp [lookup]
    · split
      · simp [lookup]
      · simp only [lookup, if_neg ‹¬k = j›, ih]

theorem lookup_insertAt_ne {α : Type} (l : List (Nat × α)) {i j : Nat} (v : α) (h : i ≠ j) :
    lookup (insertAt l j v) i = lookup l i := by
  induction l with
  | nil => simp [insertAt, lookup, Ne.symm h]
  | cons x t ih =>
    obtain ⟨k, w⟩ := x
    simp only [insertAt]
    split
    · simp [lookup, Ne.symm h]
    · split
      · subst_vars; simp [lookup, Ne.symm h]
      · simp only [lookup, ih]

@[simp] theorem lookup_eraseKey_same {α : Type} (l : List (Nat × α)) (j : Nat) : lookup (eraseKey l j) j = none := by
  induction l with
  | nil => rfl
  | cons x t ih =>
    obtain ⟨k, w⟩ := x
    by_cases hk : k = j
    · simpa [eraseKey, hk] using ih
    · simpa [eraseKey, hk, lookup] using ih

theorem lookup_eraseKey_ne {α : Type} (l : List (Nat × α)) {i j : Nat} (h : i ≠ j) :
    lookup (eraseKey l j) i = lookup l i := by
  induction l with
  | nil => rfl
  | cons x t ih =>
    obtain ⟨k, w⟩ := x
    by_cases hk : k = j
    · subst hk
      simpa [eraseKey, lookup, Ne.symm h] using ih
    · simp only [eraseKey, ne_eq, decide_not, List.filter_cons, hk, decide_false, Bool.not_false, if_true, lookup]
      split
      · rfl
      · simpa [eraseKey] using ih

/-- A key just set reads as the value set. -/
@[simp] theorem getC_setC_same {α : Type} [DecidableEq α] (d : Nat → α) (l : List (Nat × α)) (j : Nat) (v : α) :
    getC d (setC d l j v) j = v := by
  unfold getC setC
  split <;> simp [*]

/-- Every other key reads as before. -/
theorem getC_setC_ne {α : Type} [DecidableEq α] (d : Nat → α) (l : List (Nat × α)) {i j : Nat} (v : α) (h : i ≠ j) :
    getC d (setC d l j v) i = getC d l i := by
  unfold getC setC
  split
  · rw [lookup_eraseKey_ne l h]
  · rw [lookup_insertAt_ne _ v h, lookup_eraseKey_ne l h]

/-- What a key reads as after one key was set. -/
theorem getC_setC {α : Type} [DecidableEq α] (d : Nat → α) (l : List (Nat × α)) (i j : Nat) (v : α) :
    getC d (setC d l j v) i = if i = j then v else getC d l i := by
  split
  · subst_vars; simp
  · exact getC_setC_ne d l v ‹_›

/-! ## Canonical form -/

theorem keysRise_iff {α : Type} (l : List (Nat × α)) : keysRise l = true ↔ l.Pairwise fun x y => x.1 < y.1 := by
  induction l with
  | nil => simp [keysRise]
  | cons x t ih =>
    cases t with
    | nil => simp [keysRise]
    | cons y u =>
      simp only [keysRise, Bool.and_eq_true, decide_eq_true_eq, ih]
      constructor
      · intro h
        refine List.pairwise_cons.mpr ⟨fun z hz => ?_, h.2⟩
        rcases List.mem_cons.mp hz with rfl | hz
        · exact h.1
        · exact lt_trans h.1 ((List.pairwise_cons.mp h.2).1 z hz)
      · intro h
        obtain ⟨h1, h2⟩ := List.pairwise_cons.mp h
        exact ⟨h1 y (by simp), h2⟩

theorem mem_insertAt {α : Type} {l : List (Nat × α)} {j : Nat} {v : α} {x : Nat × α} (h : x ∈ insertAt l j v) :
    x = (j, v) ∨ x ∈ l := by
  induction l with
  | nil => simpa [insertAt] using h
  | cons y t ih =>
    obtain ⟨k, w⟩ := y
    simp only [insertAt] at h
    split at h
    · simpa using h
    · split at h
      · rcases List.mem_cons.mp h with h | h <;> simp [h]
      · rcases List.mem_cons.mp h with h | h
        · simp [h]
        · rcases ih h with h | h <;> simp [h]

theorem keysRise_insertAt {α : Type} {l : List (Nat × α)} (j : Nat) (v : α) (h : keysRise l = true) :
    keysRise (insertAt l j v) = true := by
  rw [keysRise_iff] at h ⊢
  induction l with
  | nil => simp [insertAt]
  | cons y t ih =>
    obtain ⟨k, w⟩ := y
    obtain ⟨h1, h2⟩ := List.pairwise_cons.mp h
    simp only [insertAt]
    split
    · refine List.pairwise_cons.mpr ⟨fun z hz => ?_, h⟩
      rcases List.mem_cons.mp hz with rfl | hz
      · assumption
      · exact lt_trans ‹j < k› (h1 z hz)
    · split
      · subst_vars; exact List.pairwise_cons.mpr ⟨h1, h2⟩
      · refine List.pairwise_cons.mpr ⟨fun z hz => ?_, ih h2⟩
        rcases mem_insertAt hz with rfl | hz
        · show k < j; omega
        · exact h1 z hz

theorem keysRise_eraseKey {α : Type} {l : List (Nat × α)} (j : Nat) (h : keysRise l = true) : keysRise (eraseKey l j) = true := by
  rw [keysRise_iff] at h ⊢
  exact h.filter _

/-- Setting a key keeps the canonical form. -/
theorem canonC_setC {α : Type} [DecidableEq α] {d : Nat → α} {l : List (Nat × α)} (j : Nat) (v : α) (h : canonC d l = true) :
    canonC d (setC d l j v) = true := by
  simp only [canonC, Bool.and_eq_true, List.all_eq_true, decide_eq_true_eq] at h ⊢
  unfold setC
  split
  · exact ⟨keysRise_eraseKey j h.1, fun x hx => h.2 x (List.mem_filter.mp hx).1⟩
  · refine ⟨keysRise_insertAt j v (keysRise_eraseKey j h.1), fun x hx => ?_⟩
    rcases mem_insertAt hx with rfl | hx
    · assumption
    · exact h.2 x (List.mem_filter.mp hx).1

/-- Equal contents are equal tables. -/
theorem canonC_ext {α : Type} [DecidableEq α] {d : Nat → α} {l m : List (Nat × α)} (hl : canonC d l = true)
    (hm : canonC d m = true) (h : ∀ j, getC d l j = getC d m j) : l = m := by
  simp only [canonC, Bool.and_eq_true, List.all_eq_true, decide_eq_true_eq, keysRise_iff] at hl hm
  have key : ∀ {k : List (Nat × α)}, k.Pairwise (fun x y => x.1 < y.1) → (∀ x ∈ k, x.2 ≠ d x.1) → ∀ x, x ∈ k ↔
      lookup k x.1 = some x.2 := by
    intro k
    induction k with
    | nil => simp
    | cons y t ih =>
      intro hp hd x
      obtain ⟨k, w⟩ := y
      obtain ⟨h1, h2⟩ := List.pairwise_cons.mp hp
      have ih := ih h2 (fun z hz => hd z (by simp [hz])) x
      obtain ⟨i, v⟩ := x
      simp only [List.mem_cons, Prod.mk.injEq, lookup]
      split
      · subst_vars
        simp only [true_and, Option.some.injEq]
        constructor
        · rintro (h | h)
          · exact h.symm
          · exact absurd (h1 _ h) (lt_irrefl _)
        · intro h; exact .inl h.symm
      · rw [← ih]
        exact ⟨fun h => h.resolve_left fun h => ‹¬k = i› h.1.symm, .inr⟩
  have dflt : ∀ {k : List (Nat × α)}, k.Pairwise (fun x y => x.1 < y.1) → (∀ x ∈ k, x.2 ≠ d x.1) → ∀ i v,
      lookup k i = some v ↔ getC d k i = v ∧ v ≠ d i := by
    intro k hp hd i v
    constructor
    · intro h
      exact ⟨by simp [getC, h], hd (i, v) ((key hp hd (i, v)).mpr h)⟩
    · rintro ⟨h1, h2⟩
      unfold getC at h1
      cases hk : lookup k i with
      | none => rw [hk] at h1; exact absurd h1.symm h2
      | some u => rw [hk] at h1; simpa using h1
  have hmem : ∀ x, x ∈ l ↔ x ∈ m := by
    intro x
    rw [key hl.1 hl.2, key hm.1 hm.2, dflt hl.1 hl.2, dflt hm.1 hm.2, h]
  have nd : ∀ {k : List (Nat × α)}, k.Pairwise (fun x y => x.1 < y.1) → k.Nodup := fun hp =>
    hp.imp fun h => by rintro rfl; exact lt_irrefl _ h
  refine List.Perm.eq_of_pairwise (le := fun x y => x.1 < y.1) ?_ hl.1 hm.1 ((List.perm_ext_iff_of_nodup (nd hl.1) (nd hm.1)).mpr hmem)
  intro x y _ _ h1 h2
  exact absurd (lt_trans h1 h2) (lt_irrefl _)

end Sys2Proof.Machine
end

