-- ==== Sys2Proof/Laws/State.lean ====
section
/-! SUPPORT. The updates of State: one lemma per field per update, and what the accessors read after an update. -/
namespace Sys2Proof.Machine

variable (s : State)

/-! ## What an accessor reads after its update -/

@[simp] theorem State.par_setPar_same (k v : Nat) : (s.setPar k v).par k = v := getC_setC_same ..
theorem State.par_setPar_ne {k j : Nat} (v : Nat) (h : j ≠ k) : (s.setPar k v).par j = s.par j := getC_setC_ne _ _ v h
theorem State.par_setPar (j k v : Nat) : (s.setPar k v).par j = if j = k then v else s.par j := getC_setC ..
@[simp] theorem State.eff'_setEff_same (k v : Nat) : (s.setEff k v).eff' k = v := getC_setC_same ..
theorem State.eff'_setEff_ne {k j : Nat} (v : Nat) (h : j ≠ k) : (s.setEff k v).eff' j = s.eff' j := getC_setC_ne _ _ v h
@[simp] theorem State.par_bump_same (k n : Nat) : (s.bump k n).par k = add64 (s.par k) n := getC_setC_same ..
theorem State.par_bump_ne {k j : Nat} (n : Nat) (h : j ≠ k) : (s.bump k n).par j = s.par j := getC_setC_ne _ _ _ h
@[simp] theorem State.inst_setInst_same (p : Nat) (v : Inst) : (s.setInst p v).inst p = v :=
  getC_setC_same (fun _ => Inst.reset) s.insts p v
theorem State.inst_setInst_ne {p q : Nat} (v : Inst) (h : q ≠ p) : (s.setInst p v).inst q = s.inst q :=
  getC_setC_ne (fun _ => Inst.reset) s.insts v h
@[simp] theorem State.engine_setEngine_same (e : Nat) (v : EngineSt) : (s.setEngine e v).engine e = v :=
  getC_setC_same (fun _ => EngineSt.idle) s.engines e v
theorem State.engine_setEngine_ne {e f : Nat} (v : EngineSt) (h : f ≠ e) : (s.setEngine e v).engine f = s.engine f :=
  getC_setC_ne (fun _ => EngineSt.idle) s.engines v h
@[simp] theorem State.hostPort_setHostPort_same (h : Nat) (v : HostPort) : (s.setHostPort h v).hostPort h = v :=
  getC_setC_same (fun _ => HostPort.reset) s.hostPorts h v
theorem State.hostPort_setHostPort_ne {h k : Nat} (v : HostPort) (hk : k ≠ h) : (s.setHostPort h v).hostPort k = s.hostPort k :=
  getC_setC_ne (fun _ => HostPort.reset) s.hostPorts v hk

/-! ## setPar -/

@[simp] theorem State.setPar_pending (k v : Nat) : (s.setPar k v).pending = s.pending := rfl
@[simp] theorem State.setPar_now (k v : Nat) : (s.setPar k v).now = s.now := rfl
@[simp] theorem State.setPar_mode (k v : Nat) : (s.setPar k v).mode = s.mode := rfl
@[simp] theorem State.setPar_mem (k v : Nat) : (s.setPar k v).mem = s.mem := rfl
@[simp] theorem State.setPar_poison (k v : Nat) : (s.setPar k v).poison = s.poison := rfl
@[simp] theorem State.setPar_ueFull (k v : Nat) : (s.setPar k v).ueFull = s.ueFull := rfl
@[simp] theorem State.setPar_ecc (k v : Nat) : (s.setPar k v).ecc = s.ecc := rfl
@[simp] theorem State.setPar_eff (k v : Nat) : (s.setPar k v).eff = s.eff := rfl
@[simp] theorem State.setPar_ctxs (k v : Nat) : (s.setPar k v).ctxs = s.ctxs := rfl
@[simp] theorem State.setPar_streams (k v : Nat) : (s.setPar k v).streams = s.streams := rfl
@[simp] theorem State.setPar_heldCtl (k v : Nat) : (s.setPar k v).heldCtl = s.heldCtl := rfl
@[simp] theorem State.setPar_places (k v : Nat) : (s.setPar k v).places = s.places := rfl
@[simp] theorem State.setPar_placesNext (k v : Nat) : (s.setPar k v).placesNext = s.placesNext := rfl
@[simp] theorem State.setPar_engines (k v : Nat) : (s.setPar k v).engines = s.engines := rfl
@[simp] theorem State.setPar_phys (k v : Nat) : (s.setPar k v).phys = s.phys := rfl
@[simp] theorem State.setPar_rel (k v : Nat) : (s.setPar k v).rel = s.rel := rfl
@[simp] theorem State.setPar_win (k v : Nat) : (s.setPar k v).win = s.win := rfl
@[simp] theorem State.setPar_retired (k v : Nat) : (s.setPar k v).retired = s.retired := rfl
@[simp] theorem State.setPar_dieCopies (k v : Nat) : (s.setPar k v).dieCopies = s.dieCopies := rfl
@[simp] theorem State.setPar_restores (k v : Nat) : (s.setPar k v).restores = s.restores := rfl
@[simp] theorem State.setPar_vaultLoad (k v : Nat) : (s.setPar k v).vaultLoad = s.vaultLoad := rfl
@[simp] theorem State.setPar_slots (k v : Nat) : (s.setPar k v).slots = s.slots := rfl
@[simp] theorem State.setPar_codecRefs (k v : Nat) : (s.setPar k v).codecRefs = s.codecRefs := rfl
@[simp] theorem State.setPar_codecUnit (k v : Nat) : (s.setPar k v).codecUnit = s.codecUnit := rfl
@[simp] theorem State.setPar_stories (k v : Nat) : (s.setPar k v).stories = s.stories := rfl
@[simp] theorem State.setPar_faultLog (k v : Nat) : (s.setPar k v).faultLog = s.faultLog := rfl
@[simp] theorem State.setPar_flashLog (k v : Nat) : (s.setPar k v).flashLog = s.flashLog := rfl
@[simp] theorem State.setPar_flashDue (k v : Nat) : (s.setPar k v).flashDue = s.flashDue := rfl
@[simp] theorem State.setPar_subs (k v : Nat) : (s.setPar k v).subs = s.subs := rfl
@[simp] theorem State.setPar_hostPorts (k v : Nat) : (s.setPar k v).hostPorts = s.hostPorts := rfl
@[simp] theorem State.setPar_kvScales (k v : Nat) : (s.setPar k v).kvScales = s.kvScales := rfl
@[simp] theorem State.setPar_kvBad (k v : Nat) : (s.setPar k v).kvBad = s.kvBad := rfl
@[simp] theorem State.setPar_frames (k v : Nat) : (s.setPar k v).frames = s.frames := rfl
@[simp] theorem State.setPar_reels (k v : Nat) : (s.setPar k v).reels = s.reels := rfl
@[simp] theorem State.setPar_reelImage (k v : Nat) : (s.setPar k v).reelImage = s.reelImage := rfl
@[simp] theorem State.setPar_doors (k v : Nat) : (s.setPar k v).doors = s.doors := rfl
@[simp] theorem State.setPar_insts (k v : Nat) : (s.setPar k v).insts = s.insts := rfl
@[simp] theorem State.setPar_nodes (k v : Nat) : (s.setPar k v).nodes = s.nodes := rfl
@[simp] theorem State.setPar_drain (k v : Nat) : (s.setPar k v).drain = s.drain := rfl
@[simp] theorem State.setPar_fltPending (k v : Nat) : (s.setPar k v).fltPending = s.fltPending := rfl
@[simp] theorem State.setPar_dead (k v : Nat) : (s.setPar k v).dead = s.dead := rfl
@[simp] theorem State.setPar_tests (k v : Nat) : (s.setPar k v).tests = s.tests := rfl
@[simp] theorem State.setPar_overdue (k v : Nat) : (s.setPar k v).overdue = s.overdue := rfl
@[simp] theorem State.setPar_meshHits (k v : Nat) : (s.setPar k v).meshHits = s.meshHits := rfl
@[simp] theorem State.setPar_engineDumps (k v : Nat) : (s.setPar k v).engineDumps = s.engineDumps := rfl
@[simp] theorem State.setPar_dumps (k v : Nat) : (s.setPar k v).dumps = s.dumps := rfl
@[simp] theorem State.setPar_dumpRun (k v : Nat) : (s.setPar k v).dumpRun = s.dumpRun := rfl
@[simp] theorem State.setPar_dumpSummary (k v : Nat) : (s.setPar k v).dumpSummary = s.dumpSummary := rfl
@[simp] theorem State.setPar_links (k v : Nat) : (s.setPar k v).links = s.links := rfl
@[simp] theorem State.setPar_xfers (k v : Nat) : (s.setPar k v).xfers = s.xfers := rfl
@[simp] theorem State.setPar_xferWait (k v : Nat) : (s.setPar k v).xferWait = s.xferWait := rfl
@[simp] theorem State.setPar_oldTags (k v : Nat) : (s.setPar k v).oldTags = s.oldTags := rfl
@[simp] theorem State.setPar_rxXfers (k v : Nat) : (s.setPar k v).rxXfers = s.rxXfers := rfl
@[simp] theorem State.setPar_rxDone (k v : Nat) : (s.setPar k v).rxDone = s.rxDone := rfl
@[simp] theorem State.setPar_arrivals (k v : Nat) : (s.setPar k v).arrivals = s.arrivals := rfl
@[simp] theorem State.setPar_planes (k v : Nat) : (s.setPar k v).planes = s.planes := rfl
@[simp] theorem State.setPar_gone (k v : Nat) : (s.setPar k v).gone = s.gone := rfl
@[simp] theorem State.setPar_heard (k v : Nat) : (s.setPar k v).heard = s.heard := rfl
@[simp] theorem State.setPar_spray (k v : Nat) : (s.setPar k v).spray = s.spray := rfl
@[simp] theorem State.setPar_peers (k v : Nat) : (s.setPar k v).peers = s.peers := rfl
@[simp] theorem State.setPar_clock (k v : Nat) : (s.setPar k v).clock = s.clock := rfl
@[simp] theorem State.setPar_power (k v : Nat) : (s.setPar k v).power = s.power := rfl
@[simp] theorem State.setPar_life (k v : Nat) : (s.setPar k v).life = s.life := rfl
@[simp] theorem State.setPar_elo (k v : Nat) : (s.setPar k v).elo = s.elo := rfl
@[simp] theorem State.setPar_eth (k v : Nat) : (s.setPar k v).eth = s.eth := rfl
@[simp] theorem State.setPar_hostReads (k v : Nat) : (s.setPar k v).hostReads = s.hostReads := rfl
@[simp] theorem State.setPar_bridges (k v : Nat) : (s.setPar k v).bridges = s.bridges := rfl
@[simp] theorem State.setPar_out (k v : Nat) : (s.setPar k v).out = s.out := rfl
@[simp] theorem State.setPar_freeIx (k v : Nat) : (s.setPar k v).freeIx = s.freeIx := rfl

/-! ## setEff -/

@[simp] theorem State.setEff_pending (k v : Nat) : (s.setEff k v).pending = s.pending := rfl
@[simp] theorem State.setEff_now (k v : Nat) : (s.setEff k v).now = s.now := rfl
@[simp] theorem State.setEff_mode (k v : Nat) : (s.setEff k v).mode = s.mode := rfl
@[simp] theorem State.setEff_mem (k v : Nat) : (s.setEff k v).mem = s.mem := rfl
@[simp] theorem State.setEff_poison (k v : Nat) : (s.setEff k v).poison = s.poison := rfl
@[simp] theorem State.setEff_ueFull (k v : Nat) : (s.setEff k v).ueFull = s.ueFull := rfl
@[simp] theorem State.setEff_ecc (k v : Nat) : (s.setEff k v).ecc = s.ecc := rfl
@[simp] theorem State.setEff_params (k v : Nat) : (s.setEff k v).params = s.params := rfl
@[simp] theorem State.setEff_ctxs (k v : Nat) : (s.setEff k v).ctxs = s.ctxs := rfl
@[simp] theorem State.setEff_streams (k v : Nat) : (s.setEff k v).streams = s.streams := rfl
@[simp] theorem State.setEff_heldCtl (k v : Nat) : (s.setEff k v).heldCtl = s.heldCtl := rfl
@[simp] theorem State.setEff_places (k v : Nat) : (s.setEff k v).places = s.places := rfl
@[simp] theorem State.setEff_placesNext (k v : Nat) : (s.setEff k v).placesNext = s.placesNext := rfl
@[simp] theorem State.setEff_engines (k v : Nat) : (s.setEff k v).engines = s.engines := rfl
@[simp] theorem State.setEff_phys (k v : Nat) : (s.setEff k v).phys = s.phys := rfl
@[simp] theorem State.setEff_rel (k v : Nat) : (s.setEff k v).rel = s.rel := rfl
@[simp] theorem State.setEff_win (k v : Nat) : (s.setEff k v).win = s.win := rfl
@[simp] theorem State.setEff_retired (k v : Nat) : (s.setEff k v).retired = s.retired := rfl
@[simp] theorem State.setEff_dieCopies (k v : Nat) : (s.setEff k v).dieCopies = s.dieCopies := rfl
@[simp] theorem State.setEff_restores (k v : Nat) : (s.setEff k v).restores = s.restores := rfl
@[simp] theorem State.setEff_vaultLoad (k v : Nat) : (s.setEff k v).vaultLoad = s.vaultLoad := rfl
@[simp] theorem State.setEff_slots (k v : Nat) : (s.setEff k v).slots = s.slots := rfl
@[simp] theorem State.setEff_codecRefs (k v : Nat) : (s.setEff k v).codecRefs = s.codecRefs := rfl
@[simp] theorem State.setEff_codecUnit (k v : Nat) : (s.setEff k v).codecUnit = s.codecUnit := rfl
@[simp] theorem State.setEff_stories (k v : Nat) : (s.setEff k v).stories = s.stories := rfl
@[simp] theorem State.setEff_faultLog (k v : Nat) : (s.setEff k v).faultLog = s.faultLog := rfl
@[simp] theorem State.setEff_flashLog (k v : Nat) : (s.setEff k v).flashLog = s.flashLog := rfl
@[simp] theorem State.setEff_flashDue (k v : Nat) : (s.setEff k v).flashDue = s.flashDue := rfl
@[simp] theorem State.setEff_subs (k v : Nat) : (s.setEff k v).subs = s.subs := rfl
@[simp] theorem State.setEff_hostPorts (k v : Nat) : (s.setEff k v).hostPorts = s.hostPorts := rfl
@[simp] theorem State.setEff_kvScales (k v : Nat) : (s.setEff k v).kvScales = s.kvScales := rfl
@[simp] theorem State.setEff_kvBad (k v : Nat) : (s.setEff k v).kvBad = s.kvBad := rfl
@[simp] theorem State.setEff_frames (k v : Nat) : (s.setEff k v).frames = s.frames := rfl
@[simp] theorem State.setEff_reels (k v : Nat) : (s.setEff k v).reels = s.reels := rfl
@[simp] theorem State.setEff_reelImage (k v : Nat) : (s.setEff k v).reelImage = s.reelImage := rfl
@[simp] theorem State.setEff_doors (k v : Nat) : (s.setEff k v).doors = s.doors := rfl
@[simp] theorem State.setEff_insts (k v : Nat) : (s.setEff k v).insts = s.insts := rfl
@[simp] theorem State.setEff_nodes (k v : Nat) : (s.setEff k v).nodes = s.nodes := rfl
@[simp] theorem State.setEff_drain (k v : Nat) : (s.setEff k v).drain = s.drain := rfl
@[simp] theorem State.setEff_fltPending (k v : Nat) : (s.setEff k v).fltPending = s.fltPending := rfl
@[simp] theorem State.setEff_dead (k v : Nat) : (s.setEff k v).dead = s.dead := rfl
@[simp] theorem State.setEff_tests (k v : Nat) : (s.setEff k v).tests = s.tests := rfl
@[simp] theorem State.setEff_overdue (k v : Nat) : (s.setEff k v).overdue = s.overdue := rfl
@[simp] theorem State.setEff_meshHits (k v : Nat) : (s.setEff k v).meshHits = s.meshHits := rfl
@[simp] theorem State.setEff_engineDumps (k v : Nat) : (s.setEff k v).engineDumps = s.engineDumps := rfl
@[simp] theorem State.setEff_dumps (k v : Nat) : (s.setEff k v).dumps = s.dumps := rfl
@[simp] theorem State.setEff_dumpRun (k v : Nat) : (s.setEff k v).dumpRun = s.dumpRun := rfl
@[simp] theorem State.setEff_dumpSummary (k v : Nat) : (s.setEff k v).dumpSummary = s.dumpSummary := rfl
@[simp] theorem State.setEff_links (k v : Nat) : (s.setEff k v).links = s.links := rfl
@[simp] theorem State.setEff_xfers (k v : Nat) : (s.setEff k v).xfers = s.xfers := rfl
@[simp] theorem State.setEff_xferWait (k v : Nat) : (s.setEff k v).xferWait = s.xferWait := rfl
@[simp] theorem State.setEff_oldTags (k v : Nat) : (s.setEff k v).oldTags = s.oldTags := rfl
@[simp] theorem State.setEff_rxXfers (k v : Nat) : (s.setEff k v).rxXfers = s.rxXfers := rfl
@[simp] theorem State.setEff_rxDone (k v : Nat) : (s.setEff k v).rxDone = s.rxDone := rfl
@[simp] theorem State.setEff_arrivals (k v : Nat) : (s.setEff k v).arrivals = s.arrivals := rfl
@[simp] theorem State.setEff_planes (k v : Nat) : (s.setEff k v).planes = s.planes := rfl
@[simp] theorem State.setEff_gone (k v : Nat) : (s.setEff k v).gone = s.gone := rfl
@[simp] theorem State.setEff_heard (k v : Nat) : (s.setEff k v).heard = s.heard := rfl
@[simp] theorem State.setEff_spray (k v : Nat) : (s.setEff k v).spray = s.spray := rfl
@[simp] theorem State.setEff_peers (k v : Nat) : (s.setEff k v).peers = s.peers := rfl
@[simp] theorem State.setEff_clock (k v : Nat) : (s.setEff k v).clock = s.clock := rfl
@[simp] theorem State.setEff_power (k v : Nat) : (s.setEff k v).power = s.power := rfl
@[simp] theorem State.setEff_life (k v : Nat) : (s.setEff k v).life = s.life := rfl
@[simp] theorem State.setEff_elo (k v : Nat) : (s.setEff k v).elo = s.elo := rfl
@[simp] theorem State.setEff_eth (k v : Nat) : (s.setEff k v).eth = s.eth := rfl
@[simp] theorem State.setEff_hostReads (k v : Nat) : (s.setEff k v).hostReads = s.hostReads := rfl
@[simp] theorem State.setEff_bridges (k v : Nat) : (s.setEff k v).bridges = s.bridges := rfl
@[simp] theorem State.setEff_out (k v : Nat) : (s.setEff k v).out = s.out := rfl
@[simp] theorem State.setEff_freeIx (k v : Nat) : (s.setEff k v).freeIx = s.freeIx := rfl

/-! ## bump -/

@[simp] theorem State.bump_pending (k n : Nat) : (s.bump k n).pending = s.pending := rfl
@[simp] theorem State.bump_now (k n : Nat) : (s.bump k n).now = s.now := rfl
@[simp] theorem State.bump_mode (k n : Nat) : (s.bump k n).mode = s.mode := rfl
@[simp] theorem State.bump_mem (k n : Nat) : (s.bump k n).mem = s.mem := rfl
@[simp] theorem State.bump_poison (k n : Nat) : (s.bump k n).poison = s.poison := rfl
@[simp] theorem State.bump_ueFull (k n : Nat) : (s.bump k n).ueFull = s.ueFull := rfl
@[simp] theorem State.bump_ecc (k n : Nat) : (s.bump k n).ecc = s.ecc := rfl
@[simp] theorem State.bump_eff (k n : Nat) : (s.bump k n).eff = s.eff := rfl
@[simp] theorem State.bump_ctxs (k n : Nat) : (s.bump k n).ctxs = s.ctxs := rfl
@[simp] theorem State.bump_streams (k n : Nat) : (s.bump k n).streams = s.streams := rfl
@[simp] theorem State.bump_heldCtl (k n : Nat) : (s.bump k n).heldCtl = s.heldCtl := rfl
@[simp] theorem State.bump_places (k n : Nat) : (s.bump k n).places = s.places := rfl
@[simp] theorem State.bump_placesNext (k n : Nat) : (s.bump k n).placesNext = s.placesNext := rfl
@[simp] theorem State.bump_engines (k n : Nat) : (s.bump k n).engines = s.engines := rfl
@[simp] theorem State.bump_phys (k n : Nat) : (s.bump k n).phys = s.phys := rfl
@[simp] theorem State.bump_rel (k n : Nat) : (s.bump k n).rel = s.rel := rfl
@[simp] theorem State.bump_win (k n : Nat) : (s.bump k n).win = s.win := rfl
@[simp] theorem State.bump_retired (k n : Nat) : (s.bump k n).retired = s.retired := rfl
@[simp] theorem State.bump_dieCopies (k n : Nat) : (s.bump k n).dieCopies = s.dieCopies := rfl
@[simp] theorem State.bump_restores (k n : Nat) : (s.bump k n).restores = s.restores := rfl
@[simp] theorem State.bump_vaultLoad (k n : Nat) : (s.bump k n).vaultLoad = s.vaultLoad := rfl
@[simp] theorem State.bump_slots (k n : Nat) : (s.bump k n).slots = s.slots := rfl
@[simp] theorem State.bump_codecRefs (k n : Nat) : (s.bump k n).codecRefs = s.codecRefs := rfl
@[simp] theorem State.bump_codecUnit (k n : Nat) : (s.bump k n).codecUnit = s.codecUnit := rfl
@[simp] theorem State.bump_stories (k n : Nat) : (s.bump k n).stories = s.stories := rfl
@[simp] theorem State.bump_faultLog (k n : Nat) : (s.bump k n).faultLog = s.faultLog := rfl
@[simp] theorem State.bump_flashLog (k n : Nat) : (s.bump k n).flashLog = s.flashLog := rfl
@[simp] theorem State.bump_flashDue (k n : Nat) : (s.bump k n).flashDue = s.flashDue := rfl
@[simp] theorem State.bump_subs (k n : Nat) : (s.bump k n).subs = s.subs := rfl
@[simp] theorem State.bump_hostPorts (k n : Nat) : (s.bump k n).hostPorts = s.hostPorts := rfl
@[simp] theorem State.bump_kvScales (k n : Nat) : (s.bump k n).kvScales = s.kvScales := rfl
@[simp] theorem State.bump_kvBad (k n : Nat) : (s.bump k n).kvBad = s.kvBad := rfl
@[simp] theorem State.bump_frames (k n : Nat) : (s.bump k n).frames = s.frames := rfl
@[simp] theorem State.bump_reels (k n : Nat) : (s.bump k n).reels = s.reels := rfl
@[simp] theorem State.bump_reelImage (k n : Nat) : (s.bump k n).reelImage = s.reelImage := rfl
@[simp] theorem State.bump_doors (k n : Nat) : (s.bump k n).doors = s.doors := rfl
@[simp] theorem State.bump_insts (k n : Nat) : (s.bump k n).insts = s.insts := rfl
@[simp] theorem State.bump_nodes (k n : Nat) : (s.bump k n).nodes = s.nodes := rfl
@[simp] theorem State.bump_drain (k n : Nat) : (s.bump k n).drain = s.drain := rfl
@[simp] theorem State.bump_fltPending (k n : Nat) : (s.bump k n).fltPending = s.fltPending := rfl
@[simp] theorem State.bump_dead (k n : Nat) : (s.bump k n).dead = s.dead := rfl
@[simp] theorem State.bump_tests (k n : Nat) : (s.bump k n).tests = s.tests := rfl
@[simp] theorem State.bump_overdue (k n : Nat) : (s.bump k n).overdue = s.overdue := rfl
@[simp] theorem State.bump_meshHits (k n : Nat) : (s.bump k n).meshHits = s.meshHits := rfl
@[simp] theorem State.bump_engineDumps (k n : Nat) : (s.bump k n).engineDumps = s.engineDumps := rfl
@[simp] theorem State.bump_dumps (k n : Nat) : (s.bump k n).dumps = s.dumps := rfl
@[simp] theorem State.bump_dumpRun (k n : Nat) : (s.bump k n).dumpRun = s.dumpRun := rfl
@[simp] theorem State.bump_dumpSummary (k n : Nat) : (s.bump k n).dumpSummary = s.dumpSummary := rfl
@[simp] theorem State.bump_links (k n : Nat) : (s.bump k n).links = s.links := rfl
@[simp] theorem State.bump_xfers (k n : Nat) : (s.bump k n).xfers = s.xfers := rfl
@[simp] theorem State.bump_xferWait (k n : Nat) : (s.bump k n).xferWait = s.xferWait := rfl
@[simp] theorem State.bump_oldTags (k n : Nat) : (s.bump k n).oldTags = s.oldTags := rfl
@[simp] theorem State.bump_rxXfers (k n : Nat) : (s.bump k n).rxXfers = s.rxXfers := rfl
@[simp] theorem State.bump_rxDone (k n : Nat) : (s.bump k n).rxDone = s.rxDone := rfl
@[simp] theorem State.bump_arrivals (k n : Nat) : (s.bump k n).arrivals = s.arrivals := rfl
@[simp] theorem State.bump_planes (k n : Nat) : (s.bump k n).planes = s.planes := rfl
@[simp] theorem State.bump_gone (k n : Nat) : (s.bump k n).gone = s.gone := rfl
@[simp] theorem State.bump_heard (k n : Nat) : (s.bump k n).heard = s.heard := rfl
@[simp] theorem State.bump_spray (k n : Nat) : (s.bump k n).spray = s.spray := rfl
@[simp] theorem State.bump_peers (k n : Nat) : (s.bump k n).peers = s.peers := rfl
@[simp] theorem State.bump_clock (k n : Nat) : (s.bump k n).clock = s.clock := rfl
@[simp] theorem State.bump_power (k n : Nat) : (s.bump k n).power = s.power := rfl
@[simp] theorem State.bump_life (k n : Nat) : (s.bump k n).life = s.life := rfl
@[simp] theorem State.bump_elo (k n : Nat) : (s.bump k n).elo = s.elo := rfl
@[simp] theorem State.bump_eth (k n : Nat) : (s.bump k n).eth = s.eth := rfl
@[simp] theorem State.bump_hostReads (k n : Nat) : (s.bump k n).hostReads = s.hostReads := rfl
@[simp] theorem State.bump_bridges (k n : Nat) : (s.bump k n).bridges = s.bridges := rfl
@[simp] theorem State.bump_out (k n : Nat) : (s.bump k n).out = s.out := rfl
@[simp] theorem State.bump_freeIx (k n : Nat) : (s.bump k n).freeIx = s.freeIx := rfl

/-! ## setInst -/

@[simp] theorem State.setInst_pending (p : Nat) (v : Inst) : (s.setInst p v).pending = s.pending := rfl
@[simp] theorem State.setInst_now (p : Nat) (v : Inst) : (s.setInst p v).now = s.now := rfl
@[simp] theorem State.setInst_mode (p : Nat) (v : Inst) : (s.setInst p v).mode = s.mode := rfl
@[simp] theorem State.setInst_mem (p : Nat) (v : Inst) : (s.setInst p v).mem = s.mem := rfl
@[simp] theorem State.setInst_poison (p : Nat) (v : Inst) : (s.setInst p v).poison = s.poison := rfl
@[simp] theorem State.setInst_ueFull (p : Nat) (v : Inst) : (s.setInst p v).ueFull = s.ueFull := rfl
@[simp] theorem State.setInst_ecc (p : Nat) (v : Inst) : (s.setInst p v).ecc = s.ecc := rfl
@[simp] theorem State.setInst_params (p : Nat) (v : Inst) : (s.setInst p v).params = s.params := rfl
@[simp] theorem State.setInst_eff (p : Nat) (v : Inst) : (s.setInst p v).eff = s.eff := rfl
@[simp] theorem State.setInst_ctxs (p : Nat) (v : Inst) : (s.setInst p v).ctxs = s.ctxs := rfl
@[simp] theorem State.setInst_streams (p : Nat) (v : Inst) : (s.setInst p v).streams = s.streams := rfl
@[simp] theorem State.setInst_heldCtl (p : Nat) (v : Inst) : (s.setInst p v).heldCtl = s.heldCtl := rfl
@[simp] theorem State.setInst_places (p : Nat) (v : Inst) : (s.setInst p v).places = s.places := rfl
@[simp] theorem State.setInst_placesNext (p : Nat) (v : Inst) : (s.setInst p v).placesNext = s.placesNext := rfl
@[simp] theorem State.setInst_engines (p : Nat) (v : Inst) : (s.setInst p v).engines = s.engines := rfl
@[simp] theorem State.setInst_phys (p : Nat) (v : Inst) : (s.setInst p v).phys = s.phys := rfl
@[simp] theorem State.setInst_rel (p : Nat) (v : Inst) : (s.setInst p v).rel = s.rel := rfl
@[simp] theorem State.setInst_win (p : Nat) (v : Inst) : (s.setInst p v).win = s.win := rfl
@[simp] theorem State.setInst_retired (p : Nat) (v : Inst) : (s.setInst p v).retired = s.retired := rfl
@[simp] theorem State.setInst_dieCopies (p : Nat) (v : Inst) : (s.setInst p v).dieCopies = s.dieCopies := rfl
@[simp] theorem State.setInst_restores (p : Nat) (v : Inst) : (s.setInst p v).restores = s.restores := rfl
@[simp] theorem State.setInst_vaultLoad (p : Nat) (v : Inst) : (s.setInst p v).vaultLoad = s.vaultLoad := rfl
@[simp] theorem State.setInst_slots (p : Nat) (v : Inst) : (s.setInst p v).slots = s.slots := rfl
@[simp] theorem State.setInst_codecRefs (p : Nat) (v : Inst) : (s.setInst p v).codecRefs = s.codecRefs := rfl
@[simp] theorem State.setInst_codecUnit (p : Nat) (v : Inst) : (s.setInst p v).codecUnit = s.codecUnit := rfl
@[simp] theorem State.setInst_stories (p : Nat) (v : Inst) : (s.setInst p v).stories = s.stories := rfl
@[simp] theorem State.setInst_faultLog (p : Nat) (v : Inst) : (s.setInst p v).faultLog = s.faultLog := rfl
@[simp] theorem State.setInst_flashLog (p : Nat) (v : Inst) : (s.setInst p v).flashLog = s.flashLog := rfl
@[simp] theorem State.setInst_flashDue (p : Nat) (v : Inst) : (s.setInst p v).flashDue = s.flashDue := rfl
@[simp] theorem State.setInst_subs (p : Nat) (v : Inst) : (s.setInst p v).subs = s.subs := rfl
@[simp] theorem State.setInst_hostPorts (p : Nat) (v : Inst) : (s.setInst p v).hostPorts = s.hostPorts := rfl
@[simp] theorem State.setInst_kvScales (p : Nat) (v : Inst) : (s.setInst p v).kvScales = s.kvScales := rfl
@[simp] theorem State.setInst_kvBad (p : Nat) (v : Inst) : (s.setInst p v).kvBad = s.kvBad := rfl
@[simp] theorem State.setInst_frames (p : Nat) (v : Inst) : (s.setInst p v).frames = s.frames := rfl
@[simp] theorem State.setInst_reels (p : Nat) (v : Inst) : (s.setInst p v).reels = s.reels := rfl
@[simp] theorem State.setInst_reelImage (p : Nat) (v : Inst) : (s.setInst p v).reelImage = s.reelImage := rfl
@[simp] theorem State.setInst_doors (p : Nat) (v : Inst) : (s.setInst p v).doors = s.doors := rfl
@[simp] theorem State.setInst_nodes (p : Nat) (v : Inst) : (s.setInst p v).nodes = s.nodes := rfl
@[simp] theorem State.setInst_drain (p : Nat) (v : Inst) : (s.setInst p v).drain = s.drain := rfl
@[simp] theorem State.setInst_fltPending (p : Nat) (v : Inst) : (s.setInst p v).fltPending = s.fltPending := rfl
@[simp] theorem State.setInst_dead (p : Nat) (v : Inst) : (s.setInst p v).dead = s.dead := rfl
@[simp] theorem State.setInst_tests (p : Nat) (v : Inst) : (s.setInst p v).tests = s.tests := rfl
@[simp] theorem State.setInst_overdue (p : Nat) (v : Inst) : (s.setInst p v).overdue = s.overdue := rfl
@[simp] theorem State.setInst_meshHits (p : Nat) (v : Inst) : (s.setInst p v).meshHits = s.meshHits := rfl
@[simp] theorem State.setInst_engineDumps (p : Nat) (v : Inst) : (s.setInst p v).engineDumps = s.engineDumps := rfl
@[simp] theorem State.setInst_dumps (p : Nat) (v : Inst) : (s.setInst p v).dumps = s.dumps := rfl
@[simp] theorem State.setInst_dumpRun (p : Nat) (v : Inst) : (s.setInst p v).dumpRun = s.dumpRun := rfl
@[simp] theorem State.setInst_dumpSummary (p : Nat) (v : Inst) : (s.setInst p v).dumpSummary = s.dumpSummary := rfl
@[simp] theorem State.setInst_links (p : Nat) (v : Inst) : (s.setInst p v).links = s.links := rfl
@[simp] theorem State.setInst_xfers (p : Nat) (v : Inst) : (s.setInst p v).xfers = s.xfers := rfl
@[simp] theorem State.setInst_xferWait (p : Nat) (v : Inst) : (s.setInst p v).xferWait = s.xferWait := rfl
@[simp] theorem State.setInst_oldTags (p : Nat) (v : Inst) : (s.setInst p v).oldTags = s.oldTags := rfl
@[simp] theorem State.setInst_rxXfers (p : Nat) (v : Inst) : (s.setInst p v).rxXfers = s.rxXfers := rfl
@[simp] theorem State.setInst_rxDone (p : Nat) (v : Inst) : (s.setInst p v).rxDone = s.rxDone := rfl
@[simp] theorem State.setInst_arrivals (p : Nat) (v : Inst) : (s.setInst p v).arrivals = s.arrivals := rfl
@[simp] theorem State.setInst_planes (p : Nat) (v : Inst) : (s.setInst p v).planes = s.planes := rfl
@[simp] theorem State.setInst_gone (p : Nat) (v : Inst) : (s.setInst p v).gone = s.gone := rfl
@[simp] theorem State.setInst_heard (p : Nat) (v : Inst) : (s.setInst p v).heard = s.heard := rfl
@[simp] theorem State.setInst_spray (p : Nat) (v : Inst) : (s.setInst p v).spray = s.spray := rfl
@[simp] theorem State.setInst_peers (p : Nat) (v : Inst) : (s.setInst p v).peers = s.peers := rfl
@[simp] theorem State.setInst_clock (p : Nat) (v : Inst) : (s.setInst p v).clock = s.clock := rfl
@[simp] theorem State.setInst_power (p : Nat) (v : Inst) : (s.setInst p v).power = s.power := rfl
@[simp] theorem State.setInst_life (p : Nat) (v : Inst) : (s.setInst p v).life = s.life := rfl
@[simp] theorem State.setInst_elo (p : Nat) (v : Inst) : (s.setInst p v).elo = s.elo := rfl
@[simp] theorem State.setInst_eth (p : Nat) (v : Inst) : (s.setInst p v).eth = s.eth := rfl
@[simp] theorem State.setInst_hostReads (p : Nat) (v : Inst) : (s.setInst p v).hostReads = s.hostReads := rfl
@[simp] theorem State.setInst_bridges (p : Nat) (v : Inst) : (s.setInst p v).bridges = s.bridges := rfl
@[simp] theorem State.setInst_out (p : Nat) (v : Inst) : (s.setInst p v).out = s.out := rfl
@[simp] theorem State.setInst_freeIx (p : Nat) (v : Inst) : (s.setInst p v).freeIx = s.freeIx := rfl

/-! ## setEngine -/

@[simp] theorem State.setEngine_pending (e : Nat) (v : EngineSt) : (s.setEngine e v).pending = s.pending := rfl
@[simp] theorem State.setEngine_now (e : Nat) (v : EngineSt) : (s.setEngine e v).now = s.now := rfl
@[simp] theorem State.setEngine_mode (e : Nat) (v : EngineSt) : (s.setEngine e v).mode = s.mode := rfl
@[simp] theorem State.setEngine_mem (e : Nat) (v : EngineSt) : (s.setEngine e v).mem = s.mem := rfl
@[simp] theorem State.setEngine_poison (e : Nat) (v : EngineSt) : (s.setEngine e v).poison = s.poison := rfl
@[simp] theorem State.setEngine_ueFull (e : Nat) (v : EngineSt) : (s.setEngine e v).ueFull = s.ueFull := rfl
@[simp] theorem State.setEngine_ecc (e : Nat) (v : EngineSt) : (s.setEngine e v).ecc = s.ecc := rfl
@[simp] theorem State.setEngine_params (e : Nat) (v : EngineSt) : (s.setEngine e v).params = s.params := rfl
@[simp] theorem State.setEngine_eff (e : Nat) (v : EngineSt) : (s.setEngine e v).eff = s.eff := rfl
@[simp] theorem State.setEngine_ctxs (e : Nat) (v : EngineSt) : (s.setEngine e v).ctxs = s.ctxs := rfl
@[simp] theorem State.setEngine_streams (e : Nat) (v : EngineSt) : (s.setEngine e v).streams = s.streams := rfl
@[simp] theorem State.setEngine_heldCtl (e : Nat) (v : EngineSt) : (s.setEngine e v).heldCtl = s.heldCtl := rfl
@[simp] theorem State.setEngine_places (e : Nat) (v : EngineSt) : (s.setEngine e v).places = s.places := rfl
@[simp] theorem State.setEngine_placesNext (e : Nat) (v : EngineSt) : (s.setEngine e v).placesNext = s.placesNext := rfl
@[simp] theorem State.setEngine_phys (e : Nat) (v : EngineSt) : (s.setEngine e v).phys = s.phys := rfl
@[simp] theorem State.setEngine_rel (e : Nat) (v : EngineSt) : (s.setEngine e v).rel = s.rel := rfl
@[simp] theorem State.setEngine_win (e : Nat) (v : EngineSt) : (s.setEngine e v).win = s.win := rfl
@[simp] theorem State.setEngine_retired (e : Nat) (v : EngineSt) : (s.setEngine e v).retired = s.retired := rfl
@[simp] theorem State.setEngine_dieCopies (e : Nat) (v : EngineSt) : (s.setEngine e v).dieCopies = s.dieCopies := rfl
@[simp] theorem State.setEngine_restores (e : Nat) (v : EngineSt) : (s.setEngine e v).restores = s.restores := rfl
@[simp] theorem State.setEngine_vaultLoad (e : Nat) (v : EngineSt) : (s.setEngine e v).vaultLoad = s.vaultLoad := rfl
@[simp] theorem State.setEngine_slots (e : Nat) (v : EngineSt) : (s.setEngine e v).slots = s.slots := rfl
@[simp] theorem State.setEngine_codecRefs (e : Nat) (v : EngineSt) : (s.setEngine e v).codecRefs = s.codecRefs := rfl
@[simp] theorem State.setEngine_codecUnit (e : Nat) (v : EngineSt) : (s.setEngine e v).codecUnit = s.codecUnit := rfl
@[simp] theorem State.setEngine_stories (e : Nat) (v : EngineSt) : (s.setEngine e v).stories = s.stories := rfl
@[simp] theorem State.setEngine_faultLog (e : Nat) (v : EngineSt) : (s.setEngine e v).faultLog = s.faultLog := rfl
@[simp] theorem State.setEngine_flashLog (e : Nat) (v : EngineSt) : (s.setEngine e v).flashLog = s.flashLog := rfl
@[simp] theorem State.setEngine_flashDue (e : Nat) (v : EngineSt) : (s.setEngine e v).flashDue = s.flashDue := rfl
@[simp] theorem State.setEngine_subs (e : Nat) (v : EngineSt) : (s.setEngine e v).subs = s.subs := rfl
@[simp] theorem State.setEngine_hostPorts (e : Nat) (v : EngineSt) : (s.setEngine e v).hostPorts = s.hostPorts := rfl
@[simp] theorem State.setEngine_kvScales (e : Nat) (v : EngineSt) : (s.setEngine e v).kvScales = s.kvScales := rfl
@[simp] theorem State.setEngine_kvBad (e : Nat) (v : EngineSt) : (s.setEngine e v).kvBad = s.kvBad := rfl
@[simp] theorem State.setEngine_frames (e : Nat) (v : EngineSt) : (s.setEngine e v).frames = s.frames := rfl
@[simp] theorem State.setEngine_reels (e : Nat) (v : EngineSt) : (s.setEngine e v).reels = s.reels := rfl
@[simp] theorem State.setEngine_reelImage (e : Nat) (v : EngineSt) : (s.setEngine e v).reelImage = s.reelImage := rfl
@[simp] theorem State.setEngine_doors (e : Nat) (v : EngineSt) : (s.setEngine e v).doors = s.doors := rfl
@[simp] theorem State.setEngine_insts (e : Nat) (v : EngineSt) : (s.setEngine e v).insts = s.insts := rfl
@[simp] theorem State.setEngine_nodes (e : Nat) (v : EngineSt) : (s.setEngine e v).nodes = s.nodes := rfl
@[simp] theorem State.setEngine_drain (e : Nat) (v : EngineSt) : (s.setEngine e v).drain = s.drain := rfl
@[simp] theorem State.setEngine_fltPending (e : Nat) (v : EngineSt) : (s.setEngine e v).fltPending = s.fltPending := rfl
@[simp] theorem State.setEngine_dead (e : Nat) (v : EngineSt) : (s.setEngine e v).dead = s.dead := rfl
@[simp] theorem State.setEngine_tests (e : Nat) (v : EngineSt) : (s.setEngine e v).tests = s.tests := rfl
@[simp] theorem State.setEngine_overdue (e : Nat) (v : EngineSt) : (s.setEngine e v).overdue = s.overdue := rfl
@[simp] theorem State.setEngine_meshHits (e : Nat) (v : EngineSt) : (s.setEngine e v).meshHits = s.meshHits := rfl
@[simp] theorem State.setEngine_engineDumps (e : Nat) (v : EngineSt) : (s.setEngine e v).engineDumps = s.engineDumps := rfl
@[simp] theorem State.setEngine_dumps (e : Nat) (v : EngineSt) : (s.setEngine e v).dumps = s.dumps := rfl
@[simp] theorem State.setEngine_dumpRun (e : Nat) (v : EngineSt) : (s.setEngine e v).dumpRun = s.dumpRun := rfl
@[simp] theorem State.setEngine_dumpSummary (e : Nat) (v : EngineSt) : (s.setEngine e v).dumpSummary = s.dumpSummary := rfl
@[simp] theorem State.setEngine_links (e : Nat) (v : EngineSt) : (s.setEngine e v).links = s.links := rfl
@[simp] theorem State.setEngine_xfers (e : Nat) (v : EngineSt) : (s.setEngine e v).xfers = s.xfers := rfl
@[simp] theorem State.setEngine_xferWait (e : Nat) (v : EngineSt) : (s.setEngine e v).xferWait = s.xferWait := rfl
@[simp] theorem State.setEngine_oldTags (e : Nat) (v : EngineSt) : (s.setEngine e v).oldTags = s.oldTags := rfl
@[simp] theorem State.setEngine_rxXfers (e : Nat) (v : EngineSt) : (s.setEngine e v).rxXfers = s.rxXfers := rfl
@[simp] theorem State.setEngine_rxDone (e : Nat) (v : EngineSt) : (s.setEngine e v).rxDone = s.rxDone := rfl
@[simp] theorem State.setEngine_arrivals (e : Nat) (v : EngineSt) : (s.setEngine e v).arrivals = s.arrivals := rfl
@[simp] theorem State.setEngine_planes (e : Nat) (v : EngineSt) : (s.setEngine e v).planes = s.planes := rfl
@[simp] theorem State.setEngine_gone (e : Nat) (v : EngineSt) : (s.setEngine e v).gone = s.gone := rfl
@[simp] theorem State.setEngine_heard (e : Nat) (v : EngineSt) : (s.setEngine e v).heard = s.heard := rfl
@[simp] theorem State.setEngine_spray (e : Nat) (v : EngineSt) : (s.setEngine e v).spray = s.spray := rfl
@[simp] theorem State.setEngine_peers (e : Nat) (v : EngineSt) : (s.setEngine e v).peers = s.peers := rfl
@[simp] theorem State.setEngine_clock (e : Nat) (v : EngineSt) : (s.setEngine e v).clock = s.clock := rfl
@[simp] theorem State.setEngine_power (e : Nat) (v : EngineSt) : (s.setEngine e v).power = s.power := rfl
@[simp] theorem State.setEngine_life (e : Nat) (v : EngineSt) : (s.setEngine e v).life = s.life := rfl
@[simp] theorem State.setEngine_elo (e : Nat) (v : EngineSt) : (s.setEngine e v).elo = s.elo := rfl
@[simp] theorem State.setEngine_eth (e : Nat) (v : EngineSt) : (s.setEngine e v).eth = s.eth := rfl
@[simp] theorem State.setEngine_hostReads (e : Nat) (v : EngineSt) : (s.setEngine e v).hostReads = s.hostReads := rfl
@[simp] theorem State.setEngine_bridges (e : Nat) (v : EngineSt) : (s.setEngine e v).bridges = s.bridges := rfl
@[simp] theorem State.setEngine_out (e : Nat) (v : EngineSt) : (s.setEngine e v).out = s.out := rfl
@[simp] theorem State.setEngine_freeIx (e : Nat) (v : EngineSt) : (s.setEngine e v).freeIx = s.freeIx := rfl

/-! ## setPhys -/

@[simp] theorem State.setPhys_pending (k l u v : Nat) : (s.setPhys k l u v).pending = s.pending := rfl
@[simp] theorem State.setPhys_now (k l u v : Nat) : (s.setPhys k l u v).now = s.now := rfl
@[simp] theorem State.setPhys_mode (k l u v : Nat) : (s.setPhys k l u v).mode = s.mode := rfl
@[simp] theorem State.setPhys_mem (k l u v : Nat) : (s.setPhys k l u v).mem = s.mem := rfl
@[simp] theorem State.setPhys_poison (k l u v : Nat) : (s.setPhys k l u v).poison = s.poison := rfl
@[simp] theorem State.setPhys_ueFull (k l u v : Nat) : (s.setPhys k l u v).ueFull = s.ueFull := rfl
@[simp] theorem State.setPhys_ecc (k l u v : Nat) : (s.setPhys k l u v).ecc = s.ecc := rfl
@[simp] theorem State.setPhys_params (k l u v : Nat) : (s.setPhys k l u v).params = s.params := rfl
@[simp] theorem State.setPhys_eff (k l u v : Nat) : (s.setPhys k l u v).eff = s.eff := rfl
@[simp] theorem State.setPhys_ctxs (k l u v : Nat) : (s.setPhys k l u v).ctxs = s.ctxs := rfl
@[simp] theorem State.setPhys_streams (k l u v : Nat) : (s.setPhys k l u v).streams = s.streams := rfl
@[simp] theorem State.setPhys_heldCtl (k l u v : Nat) : (s.setPhys k l u v).heldCtl = s.heldCtl := rfl
@[simp] theorem State.setPhys_places (k l u v : Nat) : (s.setPhys k l u v).places = s.places := rfl
@[simp] theorem State.setPhys_placesNext (k l u v : Nat) : (s.setPhys k l u v).placesNext = s.placesNext := rfl
@[simp] theorem State.setPhys_engines (k l u v : Nat) : (s.setPhys k l u v).engines = s.engines := rfl
@[simp] theorem State.setPhys_rel (k l u v : Nat) : (s.setPhys k l u v).rel = s.rel := rfl
@[simp] theorem State.setPhys_win (k l u v : Nat) : (s.setPhys k l u v).win = s.win := rfl
@[simp] theorem State.setPhys_retired (k l u v : Nat) : (s.setPhys k l u v).retired = s.retired := rfl
@[simp] theorem State.setPhys_dieCopies (k l u v : Nat) : (s.setPhys k l u v).dieCopies = s.dieCopies := rfl
@[simp] theorem State.setPhys_restores (k l u v : Nat) : (s.setPhys k l u v).restores = s.restores := rfl
@[simp] theorem State.setPhys_vaultLoad (k l u v : Nat) : (s.setPhys k l u v).vaultLoad = s.vaultLoad := rfl
@[simp] theorem State.setPhys_slots (k l u v : Nat) : (s.setPhys k l u v).slots = s.slots := rfl
@[simp] theorem State.setPhys_codecRefs (k l u v : Nat) : (s.setPhys k l u v).codecRefs = s.codecRefs := rfl
@[simp] theorem State.setPhys_codecUnit (k l u v : Nat) : (s.setPhys k l u v).codecUnit = s.codecUnit := rfl
@[simp] theorem State.setPhys_stories (k l u v : Nat) : (s.setPhys k l u v).stories = s.stories := rfl
@[simp] theorem State.setPhys_faultLog (k l u v : Nat) : (s.setPhys k l u v).faultLog = s.faultLog := rfl
@[simp] theorem State.setPhys_flashLog (k l u v : Nat) : (s.setPhys k l u v).flashLog = s.flashLog := rfl
@[simp] theorem State.setPhys_flashDue (k l u v : Nat) : (s.setPhys k l u v).flashDue = s.flashDue := rfl
@[simp] theorem State.setPhys_subs (k l u v : Nat) : (s.setPhys k l u v).subs = s.subs := rfl
@[simp] theorem State.setPhys_hostPorts (k l u v : Nat) : (s.setPhys k l u v).hostPorts = s.hostPorts := rfl
@[simp] theorem State.setPhys_kvScales (k l u v : Nat) : (s.setPhys k l u v).kvScales = s.kvScales := rfl
@[simp] theorem State.setPhys_kvBad (k l u v : Nat) : (s.setPhys k l u v).kvBad = s.kvBad := rfl
@[simp] theorem State.setPhys_frames (k l u v : Nat) : (s.setPhys k l u v).frames = s.frames := rfl
@[simp] theorem State.setPhys_reels (k l u v : Nat) : (s.setPhys k l u v).reels = s.reels := rfl
@[simp] theorem State.setPhys_reelImage (k l u v : Nat) : (s.setPhys k l u v).reelImage = s.reelImage := rfl
@[simp] theorem State.setPhys_doors (k l u v : Nat) : (s.setPhys k l u v).doors = s.doors := rfl
@[simp] theorem State.setPhys_insts (k l u v : Nat) : (s.setPhys k l u v).insts = s.insts := rfl
@[simp] theorem State.setPhys_nodes (k l u v : Nat) : (s.setPhys k l u v).nodes = s.nodes := rfl
@[simp] theorem State.setPhys_drain (k l u v : Nat) : (s.setPhys k l u v).drain = s.drain := rfl
@[simp] theorem State.setPhys_fltPending (k l u v : Nat) : (s.setPhys k l u v).fltPending = s.fltPending := rfl
@[simp] theorem State.setPhys_dead (k l u v : Nat) : (s.setPhys k l u v).dead = s.dead := rfl
@[simp] theorem State.setPhys_tests (k l u v : Nat) : (s.setPhys k l u v).tests = s.tests := rfl
@[simp] theorem State.setPhys_overdue (k l u v : Nat) : (s.setPhys k l u v).overdue = s.overdue := rfl
@[simp] theorem State.setPhys_meshHits (k l u v : Nat) : (s.setPhys k l u v).meshHits = s.meshHits := rfl
@[simp] theorem State.setPhys_engineDumps (k l u v : Nat) : (s.setPhys k l u v).engineDumps = s.engineDumps := rfl
@[simp] theorem State.setPhys_dumps (k l u v : Nat) : (s.setPhys k l u v).dumps = s.dumps := rfl
@[simp] theorem State.setPhys_dumpRun (k l u v : Nat) : (s.setPhys k l u v).dumpRun = s.dumpRun := rfl
@[simp] theorem State.setPhys_dumpSummary (k l u v : Nat) : (s.setPhys k l u v).dumpSummary = s.dumpSummary := rfl
@[simp] theorem State.setPhys_links (k l u v : Nat) : (s.setPhys k l u v).links = s.links := rfl
@[simp] theorem State.setPhys_xfers (k l u v : Nat) : (s.setPhys k l u v).xfers = s.xfers := rfl
@[simp] theorem State.setPhys_xferWait (k l u v : Nat) : (s.setPhys k l u v).xferWait = s.xferWait := rfl
@[simp] theorem State.setPhys_oldTags (k l u v : Nat) : (s.setPhys k l u v).oldTags = s.oldTags := rfl
@[simp] theorem State.setPhys_rxXfers (k l u v : Nat) : (s.setPhys k l u v).rxXfers = s.rxXfers := rfl
@[simp] theorem State.setPhys_rxDone (k l u v : Nat) : (s.setPhys k l u v).rxDone = s.rxDone := rfl
@[simp] theorem State.setPhys_arrivals (k l u v : Nat) : (s.setPhys k l u v).arrivals = s.arrivals := rfl
@[simp] theorem State.setPhys_planes (k l u v : Nat) : (s.setPhys k l u v).planes = s.planes := rfl
@[simp] theorem State.setPhys_gone (k l u v : Nat) : (s.setPhys k l u v).gone = s.gone := rfl
@[simp] theorem State.setPhys_heard (k l u v : Nat) : (s.setPhys k l u v).heard = s.heard := rfl
@[simp] theorem State.setPhys_spray (k l u v : Nat) : (s.setPhys k l u v).spray = s.spray := rfl
@[simp] theorem State.setPhys_peers (k l u v : Nat) : (s.setPhys k l u v).peers = s.peers := rfl
@[simp] theorem State.setPhys_clock (k l u v : Nat) : (s.setPhys k l u v).clock = s.clock := rfl
@[simp] theorem State.setPhys_power (k l u v : Nat) : (s.setPhys k l u v).power = s.power := rfl
@[simp] theorem State.setPhys_life (k l u v : Nat) : (s.setPhys k l u v).life = s.life := rfl
@[simp] theorem State.setPhys_elo (k l u v : Nat) : (s.setPhys k l u v).elo = s.elo := rfl
@[simp] theorem State.setPhys_eth (k l u v : Nat) : (s.setPhys k l u v).eth = s.eth := rfl
@[simp] theorem State.setPhys_hostReads (k l u v : Nat) : (s.setPhys k l u v).hostReads = s.hostReads := rfl
@[simp] theorem State.setPhys_bridges (k l u v : Nat) : (s.setPhys k l u v).bridges = s.bridges := rfl
@[simp] theorem State.setPhys_out (k l u v : Nat) : (s.setPhys k l u v).out = s.out := rfl
@[simp] theorem State.setPhys_freeIx (k l u v : Nat) : (s.setPhys k l u v).freeIx = s.freeIx := rfl

/-! ## tally -/

@[simp] theorem State.tally_pending (k n : Nat) : (s.tally k n).pending = s.pending := rfl
@[simp] theorem State.tally_now (k n : Nat) : (s.tally k n).now = s.now := rfl
@[simp] theorem State.tally_mode (k n : Nat) : (s.tally k n).mode = s.mode := rfl
@[simp] theorem State.tally_mem (k n : Nat) : (s.tally k n).mem = s.mem := rfl
@[simp] theorem State.tally_poison (k n : Nat) : (s.tally k n).poison = s.poison := rfl
@[simp] theorem State.tally_ueFull (k n : Nat) : (s.tally k n).ueFull = s.ueFull := rfl
@[simp] theorem State.tally_ecc (k n : Nat) : (s.tally k n).ecc = s.ecc := rfl
@[simp] theorem State.tally_params (k n : Nat) : (s.tally k n).params = s.params := rfl
@[simp] theorem State.tally_eff (k n : Nat) : (s.tally k n).eff = s.eff := rfl
@[simp] theorem State.tally_ctxs (k n : Nat) : (s.tally k n).ctxs = s.ctxs := rfl
@[simp] theorem State.tally_streams (k n : Nat) : (s.tally k n).streams = s.streams := rfl
@[simp] theorem State.tally_heldCtl (k n : Nat) : (s.tally k n).heldCtl = s.heldCtl := rfl
@[simp] theorem State.tally_places (k n : Nat) : (s.tally k n).places = s.places := rfl
@[simp] theorem State.tally_placesNext (k n : Nat) : (s.tally k n).placesNext = s.placesNext := rfl
@[simp] theorem State.tally_engines (k n : Nat) : (s.tally k n).engines = s.engines := rfl
@[simp] theorem State.tally_phys (k n : Nat) : (s.tally k n).phys = s.phys := rfl
@[simp] theorem State.tally_win (k n : Nat) : (s.tally k n).win = s.win := rfl
@[simp] theorem State.tally_retired (k n : Nat) : (s.tally k n).retired = s.retired := rfl
@[simp] theorem State.tally_dieCopies (k n : Nat) : (s.tally k n).dieCopies = s.dieCopies := rfl
@[simp] theorem State.tally_restores (k n : Nat) : (s.tally k n).restores = s.restores := rfl
@[simp] theorem State.tally_vaultLoad (k n : Nat) : (s.tally k n).vaultLoad = s.vaultLoad := rfl
@[simp] theorem State.tally_slots (k n : Nat) : (s.tally k n).slots = s.slots := rfl
@[simp] theorem State.tally_codecRefs (k n : Nat) : (s.tally k n).codecRefs = s.codecRefs := rfl
@[simp] theorem State.tally_codecUnit (k n : Nat) : (s.tally k n).codecUnit = s.codecUnit := rfl
@[simp] theorem State.tally_stories (k n : Nat) : (s.tally k n).stories = s.stories := rfl
@[simp] theorem State.tally_faultLog (k n : Nat) : (s.tally k n).faultLog = s.faultLog := rfl
@[simp] theorem State.tally_flashLog (k n : Nat) : (s.tally k n).flashLog = s.flashLog := rfl
@[simp] theorem State.tally_flashDue (k n : Nat) : (s.tally k n).flashDue = s.flashDue := rfl
@[simp] theorem State.tally_subs (k n : Nat) : (s.tally k n).subs = s.subs := rfl
@[simp] theorem State.tally_hostPorts (k n : Nat) : (s.tally k n).hostPorts = s.hostPorts := rfl
@[simp] theorem State.tally_kvScales (k n : Nat) : (s.tally k n).kvScales = s.kvScales := rfl
@[simp] theorem State.tally_kvBad (k n : Nat) : (s.tally k n).kvBad = s.kvBad := rfl
@[simp] theorem State.tally_frames (k n : Nat) : (s.tally k n).frames = s.frames := rfl
@[simp] theorem State.tally_reels (k n : Nat) : (s.tally k n).reels = s.reels := rfl
@[simp] theorem State.tally_reelImage (k n : Nat) : (s.tally k n).reelImage = s.reelImage := rfl
@[simp] theorem State.tally_doors (k n : Nat) : (s.tally k n).doors = s.doors := rfl
@[simp] theorem State.tally_insts (k n : Nat) : (s.tally k n).insts = s.insts := rfl
@[simp] theorem State.tally_nodes (k n : Nat) : (s.tally k n).nodes = s.nodes := rfl
@[simp] theorem State.tally_drain (k n : Nat) : (s.tally k n).drain = s.drain := rfl
@[simp] theorem State.tally_fltPending (k n : Nat) : (s.tally k n).fltPending = s.fltPending := rfl
@[simp] theorem State.tally_dead (k n : Nat) : (s.tally k n).dead = s.dead := rfl
@[simp] theorem State.tally_tests (k n : Nat) : (s.tally k n).tests = s.tests := rfl
@[simp] theorem State.tally_overdue (k n : Nat) : (s.tally k n).overdue = s.overdue := rfl
@[simp] theorem State.tally_meshHits (k n : Nat) : (s.tally k n).meshHits = s.meshHits := rfl
@[simp] theorem State.tally_engineDumps (k n : Nat) : (s.tally k n).engineDumps = s.engineDumps := rfl
@[simp] theorem State.tally_dumps (k n : Nat) : (s.tally k n).dumps = s.dumps := rfl
@[simp] theorem State.tally_dumpRun (k n : Nat) : (s.tally k n).dumpRun = s.dumpRun := rfl
@[simp] theorem State.tally_dumpSummary (k n : Nat) : (s.tally k n).dumpSummary = s.dumpSummary := rfl
@[simp] theorem State.tally_links (k n : Nat) : (s.tally k n).links = s.links := rfl
@[simp] theorem State.tally_xfers (k n : Nat) : (s.tally k n).xfers = s.xfers := rfl
@[simp] theorem State.tally_xferWait (k n : Nat) : (s.tally k n).xferWait = s.xferWait := rfl
@[simp] theorem State.tally_oldTags (k n : Nat) : (s.tally k n).oldTags = s.oldTags := rfl
@[simp] theorem State.tally_rxXfers (k n : Nat) : (s.tally k n).rxXfers = s.rxXfers := rfl
@[simp] theorem State.tally_rxDone (k n : Nat) : (s.tally k n).rxDone = s.rxDone := rfl
@[simp] theorem State.tally_arrivals (k n : Nat) : (s.tally k n).arrivals = s.arrivals := rfl
@[simp] theorem State.tally_planes (k n : Nat) : (s.tally k n).planes = s.planes := rfl
@[simp] theorem State.tally_gone (k n : Nat) : (s.tally k n).gone = s.gone := rfl
@[simp] theorem State.tally_heard (k n : Nat) : (s.tally k n).heard = s.heard := rfl
@[simp] theorem State.tally_spray (k n : Nat) : (s.tally k n).spray = s.spray := rfl
@[simp] theorem State.tally_peers (k n : Nat) : (s.tally k n).peers = s.peers := rfl
@[simp] theorem State.tally_clock (k n : Nat) : (s.tally k n).clock = s.clock := rfl
@[simp] theorem State.tally_power (k n : Nat) : (s.tally k n).power = s.power := rfl
@[simp] theorem State.tally_life (k n : Nat) : (s.tally k n).life = s.life := rfl
@[simp] theorem State.tally_elo (k n : Nat) : (s.tally k n).elo = s.elo := rfl
@[simp] theorem State.tally_eth (k n : Nat) : (s.tally k n).eth = s.eth := rfl
@[simp] theorem State.tally_hostReads (k n : Nat) : (s.tally k n).hostReads = s.hostReads := rfl
@[simp] theorem State.tally_bridges (k n : Nat) : (s.tally k n).bridges = s.bridges := rfl
@[simp] theorem State.tally_out (k n : Nat) : (s.tally k n).out = s.out := rfl
@[simp] theorem State.tally_freeIx (k n : Nat) : (s.tally k n).freeIx = s.freeIx := rfl

/-! ## setHostPort -/

@[simp] theorem State.setHostPort_pending (h : Nat) (v : HostPort) : (s.setHostPort h v).pending = s.pending := rfl
@[simp] theorem State.setHostPort_now (h : Nat) (v : HostPort) : (s.setHostPort h v).now = s.now := rfl
@[simp] theorem State.setHostPort_mode (h : Nat) (v : HostPort) : (s.setHostPort h v).mode = s.mode := rfl
@[simp] theorem State.setHostPort_mem (h : Nat) (v : HostPort) : (s.setHostPort h v).mem = s.mem := rfl
@[simp] theorem State.setHostPort_poison (h : Nat) (v : HostPort) : (s.setHostPort h v).poison = s.poison := rfl
@[simp] theorem State.setHostPort_ueFull (h : Nat) (v : HostPort) : (s.setHostPort h v).ueFull = s.ueFull := rfl
@[simp] theorem State.setHostPort_ecc (h : Nat) (v : HostPort) : (s.setHostPort h v).ecc = s.ecc := rfl
@[simp] theorem State.setHostPort_params (h : Nat) (v : HostPort) : (s.setHostPort h v).params = s.params := rfl
@[simp] theorem State.setHostPort_eff (h : Nat) (v : HostPort) : (s.setHostPort h v).eff = s.eff := rfl
@[simp] theorem State.setHostPort_ctxs (h : Nat) (v : HostPort) : (s.setHostPort h v).ctxs = s.ctxs := rfl
@[simp] theorem State.setHostPort_streams (h : Nat) (v : HostPort) : (s.setHostPort h v).streams = s.streams := rfl
@[simp] theorem State.setHostPort_heldCtl (h : Nat) (v : HostPort) : (s.setHostPort h v).heldCtl = s.heldCtl := rfl
@[simp] theorem State.setHostPort_places (h : Nat) (v : HostPort) : (s.setHostPort h v).places = s.places := rfl
@[simp] theorem State.setHostPort_placesNext (h : Nat) (v : HostPort) : (s.setHostPort h v).placesNext = s.placesNext := rfl
@[simp] theorem State.setHostPort_engines (h : Nat) (v : HostPort) : (s.setHostPort h v).engines = s.engines := rfl
@[simp] theorem State.setHostPort_phys (h : Nat) (v : HostPort) : (s.setHostPort h v).phys = s.phys := rfl
@[simp] theorem State.setHostPort_rel (h : Nat) (v : HostPort) : (s.setHostPort h v).rel = s.rel := rfl
@[simp] theorem State.setHostPort_win (h : Nat) (v : HostPort) : (s.setHostPort h v).win = s.win := rfl
@[simp] theorem State.setHostPort_retired (h : Nat) (v : HostPort) : (s.setHostPort h v).retired = s.retired := rfl
@[simp] theorem State.setHostPort_dieCopies (h : Nat) (v : HostPort) : (s.setHostPort h v).dieCopies = s.dieCopies := rfl
@[simp] theorem State.setHostPort_restores (h : Nat) (v : HostPort) : (s.setHostPort h v).restores = s.restores := rfl
@[simp] theorem State.setHostPort_vaultLoad (h : Nat) (v : HostPort) : (s.setHostPort h v).vaultLoad = s.vaultLoad := rfl
@[simp] theorem State.setHostPort_slots (h : Nat) (v : HostPort) : (s.setHostPort h v).slots = s.slots := rfl
@[simp] theorem State.setHostPort_codecRefs (h : Nat) (v : HostPort) : (s.setHostPort h v).codecRefs = s.codecRefs := rfl
@[simp] theorem State.setHostPort_codecUnit (h : Nat) (v : HostPort) : (s.setHostPort h v).codecUnit = s.codecUnit := rfl
@[simp] theorem State.setHostPort_stories (h : Nat) (v : HostPort) : (s.setHostPort h v).stories = s.stories := rfl
@[simp] theorem State.setHostPort_faultLog (h : Nat) (v : HostPort) : (s.setHostPort h v).faultLog = s.faultLog := rfl
@[simp] theorem State.setHostPort_flashLog (h : Nat) (v : HostPort) : (s.setHostPort h v).flashLog = s.flashLog := rfl
@[simp] theorem State.setHostPort_flashDue (h : Nat) (v : HostPort) : (s.setHostPort h v).flashDue = s.flashDue := rfl
@[simp] theorem State.setHostPort_subs (h : Nat) (v : HostPort) : (s.setHostPort h v).subs = s.subs := rfl
@[simp] theorem State.setHostPort_kvScales (h : Nat) (v : HostPort) : (s.setHostPort h v).kvScales = s.kvScales := rfl
@[simp] theorem State.setHostPort_kvBad (h : Nat) (v : HostPort) : (s.setHostPort h v).kvBad = s.kvBad := rfl
@[simp] theorem State.setHostPort_frames (h : Nat) (v : HostPort) : (s.setHostPort h v).frames = s.frames := rfl
@[simp] theorem State.setHostPort_reels (h : Nat) (v : HostPort) : (s.setHostPort h v).reels = s.reels := rfl
@[simp] theorem State.setHostPort_reelImage (h : Nat) (v : HostPort) : (s.setHostPort h v).reelImage = s.reelImage := rfl
@[simp] theorem State.setHostPort_doors (h : Nat) (v : HostPort) : (s.setHostPort h v).doors = s.doors := rfl
@[simp] theorem State.setHostPort_insts (h : Nat) (v : HostPort) : (s.setHostPort h v).insts = s.insts := rfl
@[simp] theorem State.setHostPort_nodes (h : Nat) (v : HostPort) : (s.setHostPort h v).nodes = s.nodes := rfl
@[simp] theorem State.setHostPort_drain (h : Nat) (v : HostPort) : (s.setHostPort h v).drain = s.drain := rfl
@[simp] theorem State.setHostPort_fltPending (h : Nat) (v : HostPort) : (s.setHostPort h v).fltPending = s.fltPending := rfl
@[simp] theorem State.setHostPort_dead (h : Nat) (v : HostPort) : (s.setHostPort h v).dead = s.dead := rfl
@[simp] theorem State.setHostPort_tests (h : Nat) (v : HostPort) : (s.setHostPort h v).tests = s.tests := rfl
@[simp] theorem State.setHostPort_overdue (h : Nat) (v : HostPort) : (s.setHostPort h v).overdue = s.overdue := rfl
@[simp] theorem State.setHostPort_meshHits (h : Nat) (v : HostPort) : (s.setHostPort h v).meshHits = s.meshHits := rfl
@[simp] theorem State.setHostPort_engineDumps (h : Nat) (v : HostPort) : (s.setHostPort h v).engineDumps = s.engineDumps := rfl
@[simp] theorem State.setHostPort_dumps (h : Nat) (v : HostPort) : (s.setHostPort h v).dumps = s.dumps := rfl
@[simp] theorem State.setHostPort_dumpRun (h : Nat) (v : HostPort) : (s.setHostPort h v).dumpRun = s.dumpRun := rfl
@[simp] theorem State.setHostPort_dumpSummary (h : Nat) (v : HostPort) : (s.setHostPort h v).dumpSummary = s.dumpSummary := rfl
@[simp] theorem State.setHostPort_links (h : Nat) (v : HostPort) : (s.setHostPort h v).links = s.links := rfl
@[simp] theorem State.setHostPort_xfers (h : Nat) (v : HostPort) : (s.setHostPort h v).xfers = s.xfers := rfl
@[simp] theorem State.setHostPort_xferWait (h : Nat) (v : HostPort) : (s.setHostPort h v).xferWait = s.xferWait := rfl
@[simp] theorem State.setHostPort_oldTags (h : Nat) (v : HostPort) : (s.setHostPort h v).oldTags = s.oldTags := rfl
@[simp] theorem State.setHostPort_rxXfers (h : Nat) (v : HostPort) : (s.setHostPort h v).rxXfers = s.rxXfers := rfl
@[simp] theorem State.setHostPort_rxDone (h : Nat) (v : HostPort) : (s.setHostPort h v).rxDone = s.rxDone := rfl
@[simp] theorem State.setHostPort_arrivals (h : Nat) (v : HostPort) : (s.setHostPort h v).arrivals = s.arrivals := rfl
@[simp] theorem State.setHostPort_planes (h : Nat) (v : HostPort) : (s.setHostPort h v).planes = s.planes := rfl
@[simp] theorem State.setHostPort_gone (h : Nat) (v : HostPort) : (s.setHostPort h v).gone = s.gone := rfl
@[simp] theorem State.setHostPort_heard (h : Nat) (v : HostPort) : (s.setHostPort h v).heard = s.heard := rfl
@[simp] theorem State.setHostPort_spray (h : Nat) (v : HostPort) : (s.setHostPort h v).spray = s.spray := rfl
@[simp] theorem State.setHostPort_peers (h : Nat) (v : HostPort) : (s.setHostPort h v).peers = s.peers := rfl
@[simp] theorem State.setHostPort_clock (h : Nat) (v : HostPort) : (s.setHostPort h v).clock = s.clock := rfl
@[simp] theorem State.setHostPort_power (h : Nat) (v : HostPort) : (s.setHostPort h v).power = s.power := rfl
@[simp] theorem State.setHostPort_life (h : Nat) (v : HostPort) : (s.setHostPort h v).life = s.life := rfl
@[simp] theorem State.setHostPort_elo (h : Nat) (v : HostPort) : (s.setHostPort h v).elo = s.elo := rfl
@[simp] theorem State.setHostPort_eth (h : Nat) (v : HostPort) : (s.setHostPort h v).eth = s.eth := rfl
@[simp] theorem State.setHostPort_hostReads (h : Nat) (v : HostPort) : (s.setHostPort h v).hostReads = s.hostReads := rfl
@[simp] theorem State.setHostPort_bridges (h : Nat) (v : HostPort) : (s.setHostPort h v).bridges = s.bridges := rfl
@[simp] theorem State.setHostPort_out (h : Nat) (v : HostPort) : (s.setHostPort h v).out = s.out := rfl
@[simp] theorem State.setHostPort_freeIx (h : Nat) (v : HostPort) : (s.setHostPort h v).freeIx = s.freeIx := rfl

/-! ## setByte -/

@[simp] theorem State.setByte_pending (a : Nat) (b : Byte) : (s.setByte a b).pending = s.pending := rfl
@[simp] theorem State.setByte_now (a : Nat) (b : Byte) : (s.setByte a b).now = s.now := rfl
@[simp] theorem State.setByte_mode (a : Nat) (b : Byte) : (s.setByte a b).mode = s.mode := rfl
@[simp] theorem State.setByte_poison (a : Nat) (b : Byte) : (s.setByte a b).poison = s.poison := rfl
@[simp] theorem State.setByte_ueFull (a : Nat) (b : Byte) : (s.setByte a b).ueFull = s.ueFull := rfl
@[simp] theorem State.setByte_ecc (a : Nat) (b : Byte) : (s.setByte a b).ecc = s.ecc := rfl
@[simp] theorem State.setByte_params (a : Nat) (b : Byte) : (s.setByte a b).params = s.params := rfl
@[simp] theorem State.setByte_eff (a : Nat) (b : Byte) : (s.setByte a b).eff = s.eff := rfl
@[simp] theorem State.setByte_ctxs (a : Nat) (b : Byte) : (s.setByte a b).ctxs = s.ctxs := rfl
@[simp] theorem State.setByte_streams (a : Nat) (b : Byte) : (s.setByte a b).streams = s.streams := rfl
@[simp] theorem State.setByte_heldCtl (a : Nat) (b : Byte) : (s.setByte a b).heldCtl = s.heldCtl := rfl
@[simp] theorem State.setByte_places (a : Nat) (b : Byte) : (s.setByte a b).places = s.places := rfl
@[simp] theorem State.setByte_placesNext (a : Nat) (b : Byte) : (s.setByte a b).placesNext = s.placesNext := rfl
@[simp] theorem State.setByte_engines (a : Nat) (b : Byte) : (s.setByte a b).engines = s.engines := rfl
@[simp] theorem State.setByte_phys (a : Nat) (b : Byte) : (s.setByte a b).phys = s.phys := rfl
@[simp] theorem State.setByte_rel (a : Nat) (b : Byte) : (s.setByte a b).rel = s.rel := rfl
@[simp] theorem State.setByte_win (a : Nat) (b : Byte) : (s.setByte a b).win = s.win := rfl
@[simp] theorem State.setByte_retired (a : Nat) (b : Byte) : (s.setByte a b).retired = s.retired := rfl
@[simp] theorem State.setByte_dieCopies (a : Nat) (b : Byte) : (s.setByte a b).dieCopies = s.dieCopies := rfl
@[simp] theorem State.setByte_restores (a : Nat) (b : Byte) : (s.setByte a b).restores = s.restores := rfl
@[simp] theorem State.setByte_vaultLoad (a : Nat) (b : Byte) : (s.setByte a b).vaultLoad = s.vaultLoad := rfl
@[simp] theorem State.setByte_slots (a : Nat) (b : Byte) : (s.setByte a b).slots = s.slots := rfl
@[simp] theorem State.setByte_codecRefs (a : Nat) (b : Byte) : (s.setByte a b).codecRefs = s.codecRefs := rfl
@[simp] theorem State.setByte_codecUnit (a : Nat) (b : Byte) : (s.setByte a b).codecUnit = s.codecUnit := rfl
@[simp] theorem State.setByte_stories (a : Nat) (b : Byte) : (s.setByte a b).stories = s.stories := rfl
@[simp] theorem State.setByte_faultLog (a : Nat) (b : Byte) : (s.setByte a b).faultLog = s.faultLog := rfl
@[simp] theorem State.setByte_flashLog (a : Nat) (b : Byte) : (s.setByte a b).flashLog = s.flashLog := rfl
@[simp] theorem State.setByte_flashDue (a : Nat) (b : Byte) : (s.setByte a b).flashDue = s.flashDue := rfl
@[simp] theorem State.setByte_subs (a : Nat) (b : Byte) : (s.setByte a b).subs = s.subs := rfl
@[simp] theorem State.setByte_hostPorts (a : Nat) (b : Byte) : (s.setByte a b).hostPorts = s.hostPorts := rfl
@[simp] theorem State.setByte_kvScales (a : Nat) (b : Byte) : (s.setByte a b).kvScales = s.kvScales := rfl
@[simp] theorem State.setByte_kvBad (a : Nat) (b : Byte) : (s.setByte a b).kvBad = s.kvBad := rfl
@[simp] theorem State.setByte_frames (a : Nat) (b : Byte) : (s.setByte a b).frames = s.frames := rfl
@[simp] theorem State.setByte_reels (a : Nat) (b : Byte) : (s.setByte a b).reels = s.reels := rfl
@[simp] theorem State.setByte_reelImage (a : Nat) (b : Byte) : (s.setByte a b).reelImage = s.reelImage := rfl
@[simp] theorem State.setByte_doors (a : Nat) (b : Byte) : (s.setByte a b).doors = s.doors := rfl
@[simp] theorem State.setByte_insts (a : Nat) (b : Byte) : (s.setByte a b).insts = s.insts := rfl
@[simp] theorem State.setByte_nodes (a : Nat) (b : Byte) : (s.setByte a b).nodes = s.nodes := rfl
@[simp] theorem State.setByte_drain (a : Nat) (b : Byte) : (s.setByte a b).drain = s.drain := rfl
@[simp] theorem State.setByte_fltPending (a : Nat) (b : Byte) : (s.setByte a b).fltPending = s.fltPending := rfl
@[simp] theorem State.setByte_dead (a : Nat) (b : Byte) : (s.setByte a b).dead = s.dead := rfl
@[simp] theorem State.setByte_tests (a : Nat) (b : Byte) : (s.setByte a b).tests = s.tests := rfl
@[simp] theorem State.setByte_overdue (a : Nat) (b : Byte) : (s.setByte a b).overdue = s.overdue := rfl
@[simp] theorem State.setByte_meshHits (a : Nat) (b : Byte) : (s.setByte a b).meshHits = s.meshHits := rfl
@[simp] theorem State.setByte_engineDumps (a : Nat) (b : Byte) : (s.setByte a b).engineDumps = s.engineDumps := rfl
@[simp] theorem State.setByte_dumps (a : Nat) (b : Byte) : (s.setByte a b).dumps = s.dumps := rfl
@[simp] theorem State.setByte_dumpRun (a : Nat) (b : Byte) : (s.setByte a b).dumpRun = s.dumpRun := rfl
@[simp] theorem State.setByte_dumpSummary (a : Nat) (b : Byte) : (s.setByte a b).dumpSummary = s.dumpSummary := rfl
@[simp] theorem State.setByte_links (a : Nat) (b : Byte) : (s.setByte a b).links = s.links := rfl
@[simp] theorem State.setByte_xfers (a : Nat) (b : Byte) : (s.setByte a b).xfers = s.xfers := rfl
@[simp] theorem State.setByte_xferWait (a : Nat) (b : Byte) : (s.setByte a b).xferWait = s.xferWait := rfl
@[simp] theorem State.setByte_oldTags (a : Nat) (b : Byte) : (s.setByte a b).oldTags = s.oldTags := rfl
@[simp] theorem State.setByte_rxXfers (a : Nat) (b : Byte) : (s.setByte a b).rxXfers = s.rxXfers := rfl
@[simp] theorem State.setByte_rxDone (a : Nat) (b : Byte) : (s.setByte a b).rxDone = s.rxDone := rfl
@[simp] theorem State.setByte_arrivals (a : Nat) (b : Byte) : (s.setByte a b).arrivals = s.arrivals := rfl
@[simp] theorem State.setByte_planes (a : Nat) (b : Byte) : (s.setByte a b).planes = s.planes := rfl
@[simp] theorem State.setByte_gone (a : Nat) (b : Byte) : (s.setByte a b).gone = s.gone := rfl
@[simp] theorem State.setByte_heard (a : Nat) (b : Byte) : (s.setByte a b).heard = s.heard := rfl
@[simp] theorem State.setByte_spray (a : Nat) (b : Byte) : (s.setByte a b).spray = s.spray := rfl
@[simp] theorem State.setByte_peers (a : Nat) (b : Byte) : (s.setByte a b).peers = s.peers := rfl
@[simp] theorem State.setByte_clock (a : Nat) (b : Byte) : (s.setByte a b).clock = s.clock := rfl
@[simp] theorem State.setByte_power (a : Nat) (b : Byte) : (s.setByte a b).power = s.power := rfl
@[simp] theorem State.setByte_life (a : Nat) (b : Byte) : (s.setByte a b).life = s.life := rfl
@[simp] theorem State.setByte_elo (a : Nat) (b : Byte) : (s.setByte a b).elo = s.elo := rfl
@[simp] theorem State.setByte_eth (a : Nat) (b : Byte) : (s.setByte a b).eth = s.eth := rfl
@[simp] theorem State.setByte_hostReads (a : Nat) (b : Byte) : (s.setByte a b).hostReads = s.hostReads := rfl
@[simp] theorem State.setByte_bridges (a : Nat) (b : Byte) : (s.setByte a b).bridges = s.bridges := rfl
@[simp] theorem State.setByte_out (a : Nat) (b : Byte) : (s.setByte a b).out = s.out := rfl
@[simp] theorem State.setByte_freeIx (a : Nat) (b : Byte) : (s.setByte a b).freeIx = s.freeIx := rfl

/-! ## setCtx -/

@[simp] theorem State.setCtx_pending (p c : Nat) (v : Ctx) : (s.setCtx p c v).pending = s.pending := rfl
@[simp] theorem State.setCtx_now (p c : Nat) (v : Ctx) : (s.setCtx p c v).now = s.now := rfl
@[simp] theorem State.setCtx_mode (p c : Nat) (v : Ctx) : (s.setCtx p c v).mode = s.mode := rfl
@[simp] theorem State.setCtx_mem (p c : Nat) (v : Ctx) : (s.setCtx p c v).mem = s.mem := rfl
@[simp] theorem State.setCtx_poison (p c : Nat) (v : Ctx) : (s.setCtx p c v).poison = s.poison := rfl
@[simp] theorem State.setCtx_ueFull (p c : Nat) (v : Ctx) : (s.setCtx p c v).ueFull = s.ueFull := rfl
@[simp] theorem State.setCtx_ecc (p c : Nat) (v : Ctx) : (s.setCtx p c v).ecc = s.ecc := rfl
@[simp] theorem State.setCtx_params (p c : Nat) (v : Ctx) : (s.setCtx p c v).params = s.params := rfl
@[simp] theorem State.setCtx_eff (p c : Nat) (v : Ctx) : (s.setCtx p c v).eff = s.eff := rfl
@[simp] theorem State.setCtx_streams (p c : Nat) (v : Ctx) : (s.setCtx p c v).streams = s.streams := rfl
@[simp] theorem State.setCtx_heldCtl (p c : Nat) (v : Ctx) : (s.setCtx p c v).heldCtl = s.heldCtl := rfl
@[simp] theorem State.setCtx_places (p c : Nat) (v : Ctx) : (s.setCtx p c v).places = s.places := rfl
@[simp] theorem State.setCtx_placesNext (p c : Nat) (v : Ctx) : (s.setCtx p c v).placesNext = s.placesNext := rfl
@[simp] theorem State.setCtx_engines (p c : Nat) (v : Ctx) : (s.setCtx p c v).engines = s.engines := rfl
@[simp] theorem State.setCtx_phys (p c : Nat) (v : Ctx) : (s.setCtx p c v).phys = s.phys := rfl
@[simp] theorem State.setCtx_rel (p c : Nat) (v : Ctx) : (s.setCtx p c v).rel = s.rel := rfl
@[simp] theorem State.setCtx_win (p c : Nat) (v : Ctx) : (s.setCtx p c v).win = s.win := rfl
@[simp] theorem State.setCtx_retired (p c : Nat) (v : Ctx) : (s.setCtx p c v).retired = s.retired := rfl
@[simp] theorem State.setCtx_dieCopies (p c : Nat) (v : Ctx) : (s.setCtx p c v).dieCopies = s.dieCopies := rfl
@[simp] theorem State.setCtx_restores (p c : Nat) (v : Ctx) : (s.setCtx p c v).restores = s.restores := rfl
@[simp] theorem State.setCtx_vaultLoad (p c : Nat) (v : Ctx) : (s.setCtx p c v).vaultLoad = s.vaultLoad := rfl
@[simp] theorem State.setCtx_slots (p c : Nat) (v : Ctx) : (s.setCtx p c v).slots = s.slots := rfl
@[simp] theorem State.setCtx_codecRefs (p c : Nat) (v : Ctx) : (s.setCtx p c v).codecRefs = s.codecRefs := rfl
@[simp] theorem State.setCtx_codecUnit (p c : Nat) (v : Ctx) : (s.setCtx p c v).codecUnit = s.codecUnit := rfl
@[simp] theorem State.setCtx_stories (p c : Nat) (v : Ctx) : (s.setCtx p c v).stories = s.stories := rfl
@[simp] theorem State.setCtx_faultLog (p c : Nat) (v : Ctx) : (s.setCtx p c v).faultLog = s.faultLog := rfl
@[simp] theorem State.setCtx_flashLog (p c : Nat) (v : Ctx) : (s.setCtx p c v).flashLog = s.flashLog := rfl
@[simp] theorem State.setCtx_flashDue (p c : Nat) (v : Ctx) : (s.setCtx p c v).flashDue = s.flashDue := rfl
@[simp] theorem State.setCtx_subs (p c : Nat) (v : Ctx) : (s.setCtx p c v).subs = s.subs := rfl
@[simp] theorem State.setCtx_hostPorts (p c : Nat) (v : Ctx) : (s.setCtx p c v).hostPorts = s.hostPorts := rfl
@[simp] theorem State.setCtx_kvScales (p c : Nat) (v : Ctx) : (s.setCtx p c v).kvScales = s.kvScales := rfl
@[simp] theorem State.setCtx_kvBad (p c : Nat) (v : Ctx) : (s.setCtx p c v).kvBad = s.kvBad := rfl
@[simp] theorem State.setCtx_frames (p c : Nat) (v : Ctx) : (s.setCtx p c v).frames = s.frames := rfl
@[simp] theorem State.setCtx_reels (p c : Nat) (v : Ctx) : (s.setCtx p c v).reels = s.reels := rfl
@[simp] theorem State.setCtx_reelImage (p c : Nat) (v : Ctx) : (s.setCtx p c v).reelImage = s.reelImage := rfl
@[simp] theorem State.setCtx_doors (p c : Nat) (v : Ctx) : (s.setCtx p c v).doors = s.doors := rfl
@[simp] theorem State.setCtx_insts (p c : Nat) (v : Ctx) : (s.setCtx p c v).insts = s.insts := rfl
@[simp] theorem State.setCtx_nodes (p c : Nat) (v : Ctx) : (s.setCtx p c v).nodes = s.nodes := rfl
@[simp] theorem State.setCtx_drain (p c : Nat) (v : Ctx) : (s.setCtx p c v).drain = s.drain := rfl
@[simp] theorem State.setCtx_fltPending (p c : Nat) (v : Ctx) : (s.setCtx p c v).fltPending = s.fltPending := rfl
@[simp] theorem State.setCtx_dead (p c : Nat) (v : Ctx) : (s.setCtx p c v).dead = s.dead := rfl
@[simp] theorem State.setCtx_tests (p c : Nat) (v : Ctx) : (s.setCtx p c v).tests = s.tests := rfl
@[simp] theorem State.setCtx_overdue (p c : Nat) (v : Ctx) : (s.setCtx p c v).overdue = s.overdue := rfl
@[simp] theorem State.setCtx_meshHits (p c : Nat) (v : Ctx) : (s.setCtx p c v).meshHits = s.meshHits := rfl
@[simp] theorem State.setCtx_engineDumps (p c : Nat) (v : Ctx) : (s.setCtx p c v).engineDumps = s.engineDumps := rfl
@[simp] theorem State.setCtx_dumps (p c : Nat) (v : Ctx) : (s.setCtx p c v).dumps = s.dumps := rfl
@[simp] theorem State.setCtx_dumpRun (p c : Nat) (v : Ctx) : (s.setCtx p c v).dumpRun = s.dumpRun := rfl
@[simp] theorem State.setCtx_dumpSummary (p c : Nat) (v : Ctx) : (s.setCtx p c v).dumpSummary = s.dumpSummary := rfl
@[simp] theorem State.setCtx_links (p c : Nat) (v : Ctx) : (s.setCtx p c v).links = s.links := rfl
@[simp] theorem State.setCtx_xfers (p c : Nat) (v : Ctx) : (s.setCtx p c v).xfers = s.xfers := rfl
@[simp] theorem State.setCtx_xferWait (p c : Nat) (v : Ctx) : (s.setCtx p c v).xferWait = s.xferWait := rfl
@[simp] theorem State.setCtx_oldTags (p c : Nat) (v : Ctx) : (s.setCtx p c v).oldTags = s.oldTags := rfl
@[simp] theorem State.setCtx_rxXfers (p c : Nat) (v : Ctx) : (s.setCtx p c v).rxXfers = s.rxXfers := rfl
@[simp] theorem State.setCtx_rxDone (p c : Nat) (v : Ctx) : (s.setCtx p c v).rxDone = s.rxDone := rfl
@[simp] theorem State.setCtx_arrivals (p c : Nat) (v : Ctx) : (s.setCtx p c v).arrivals = s.arrivals := rfl
@[simp] theorem State.setCtx_planes (p c : Nat) (v : Ctx) : (s.setCtx p c v).planes = s.planes := rfl
@[simp] theorem State.setCtx_gone (p c : Nat) (v : Ctx) : (s.setCtx p c v).gone = s.gone := rfl
@[simp] theorem State.setCtx_heard (p c : Nat) (v : Ctx) : (s.setCtx p c v).heard = s.heard := rfl
@[simp] theorem State.setCtx_spray (p c : Nat) (v : Ctx) : (s.setCtx p c v).spray = s.spray := rfl
@[simp] theorem State.setCtx_peers (p c : Nat) (v : Ctx) : (s.setCtx p c v).peers = s.peers := rfl
@[simp] theorem State.setCtx_clock (p c : Nat) (v : Ctx) : (s.setCtx p c v).clock = s.clock := rfl
@[simp] theorem State.setCtx_power (p c : Nat) (v : Ctx) : (s.setCtx p c v).power = s.power := rfl
@[simp] theorem State.setCtx_life (p c : Nat) (v : Ctx) : (s.setCtx p c v).life = s.life := rfl
@[simp] theorem State.setCtx_elo (p c : Nat) (v : Ctx) : (s.setCtx p c v).elo = s.elo := rfl
@[simp] theorem State.setCtx_eth (p c : Nat) (v : Ctx) : (s.setCtx p c v).eth = s.eth := rfl
@[simp] theorem State.setCtx_hostReads (p c : Nat) (v : Ctx) : (s.setCtx p c v).hostReads = s.hostReads := rfl
@[simp] theorem State.setCtx_bridges (p c : Nat) (v : Ctx) : (s.setCtx p c v).bridges = s.bridges := rfl
@[simp] theorem State.setCtx_out (p c : Nat) (v : Ctx) : (s.setCtx p c v).out = s.out := rfl
@[simp] theorem State.setCtx_freeIx (p c : Nat) (v : Ctx) : (s.setCtx p c v).freeIx = s.freeIx := rfl

/-! ## setStream -/

@[simp] theorem State.setStream_pending (p c e : Nat) (v : Stream) : (s.setStream p c e v).pending = s.pending := rfl
@[simp] theorem State.setStream_now (p c e : Nat) (v : Stream) : (s.setStream p c e v).now = s.now := rfl
@[simp] theorem State.setStream_mode (p c e : Nat) (v : Stream) : (s.setStream p c e v).mode = s.mode := rfl
@[simp] theorem State.setStream_mem (p c e : Nat) (v : Stream) : (s.setStream p c e v).mem = s.mem := rfl
@[simp] theorem State.setStream_poison (p c e : Nat) (v : Stream) : (s.setStream p c e v).poison = s.poison := rfl
@[simp] theorem State.setStream_ueFull (p c e : Nat) (v : Stream) : (s.setStream p c e v).ueFull = s.ueFull := rfl
@[simp] theorem State.setStream_ecc (p c e : Nat) (v : Stream) : (s.setStream p c e v).ecc = s.ecc := rfl
@[simp] theorem State.setStream_params (p c e : Nat) (v : Stream) : (s.setStream p c e v).params = s.params := rfl
@[simp] theorem State.setStream_eff (p c e : Nat) (v : Stream) : (s.setStream p c e v).eff = s.eff := rfl
@[simp] theorem State.setStream_ctxs (p c e : Nat) (v : Stream) : (s.setStream p c e v).ctxs = s.ctxs := rfl
@[simp] theorem State.setStream_heldCtl (p c e : Nat) (v : Stream) : (s.setStream p c e v).heldCtl = s.heldCtl := rfl
@[simp] theorem State.setStream_places (p c e : Nat) (v : Stream) : (s.setStream p c e v).places = s.places := rfl
@[simp] theorem State.setStream_placesNext (p c e : Nat) (v : Stream) : (s.setStream p c e v).placesNext = s.placesNext := rfl
@[simp] theorem State.setStream_engines (p c e : Nat) (v : Stream) : (s.setStream p c e v).engines = s.engines := rfl
@[simp] theorem State.setStream_phys (p c e : Nat) (v : Stream) : (s.setStream p c e v).phys = s.phys := rfl
@[simp] theorem State.setStream_rel (p c e : Nat) (v : Stream) : (s.setStream p c e v).rel = s.rel := rfl
@[simp] theorem State.setStream_win (p c e : Nat) (v : Stream) : (s.setStream p c e v).win = s.win := rfl
@[simp] theorem State.setStream_retired (p c e : Nat) (v : Stream) : (s.setStream p c e v).retired = s.retired := rfl
@[simp] theorem State.setStream_dieCopies (p c e : Nat) (v : Stream) : (s.setStream p c e v).dieCopies = s.dieCopies := rfl
@[simp] theorem State.setStream_restores (p c e : Nat) (v : Stream) : (s.setStream p c e v).restores = s.restores := rfl
@[simp] theorem State.setStream_vaultLoad (p c e : Nat) (v : Stream) : (s.setStream p c e v).vaultLoad = s.vaultLoad := rfl
@[simp] theorem State.setStream_slots (p c e : Nat) (v : Stream) : (s.setStream p c e v).slots = s.slots := rfl
@[simp] theorem State.setStream_codecRefs (p c e : Nat) (v : Stream) : (s.setStream p c e v).codecRefs = s.codecRefs := rfl
@[simp] theorem State.setStream_codecUnit (p c e : Nat) (v : Stream) : (s.setStream p c e v).codecUnit = s.codecUnit := rfl
@[simp] theorem State.setStream_stories (p c e : Nat) (v : Stream) : (s.setStream p c e v).stories = s.stories := rfl
@[simp] theorem State.setStream_faultLog (p c e : Nat) (v : Stream) : (s.setStream p c e v).faultLog = s.faultLog := rfl
@[simp] theorem State.setStream_flashLog (p c e : Nat) (v : Stream) : (s.setStream p c e v).flashLog = s.flashLog := rfl
@[simp] theorem State.setStream_flashDue (p c e : Nat) (v : Stream) : (s.setStream p c e v).flashDue = s.flashDue := rfl
@[simp] theorem State.setStream_subs (p c e : Nat) (v : Stream) : (s.setStream p c e v).subs = s.subs := rfl
@[simp] theorem State.setStream_hostPorts (p c e : Nat) (v : Stream) : (s.setStream p c e v).hostPorts = s.hostPorts := rfl
@[simp] theorem State.setStream_kvScales (p c e : Nat) (v : Stream) : (s.setStream p c e v).kvScales = s.kvScales := rfl
@[simp] theorem State.setStream_kvBad (p c e : Nat) (v : Stream) : (s.setStream p c e v).kvBad = s.kvBad := rfl
@[simp] theorem State.setStream_frames (p c e : Nat) (v : Stream) : (s.setStream p c e v).frames = s.frames := rfl
@[simp] theorem State.setStream_reels (p c e : Nat) (v : Stream) : (s.setStream p c e v).reels = s.reels := rfl
@[simp] theorem State.setStream_reelImage (p c e : Nat) (v : Stream) : (s.setStream p c e v).reelImage = s.reelImage := rfl
@[simp] theorem State.setStream_doors (p c e : Nat) (v : Stream) : (s.setStream p c e v).doors = s.doors := rfl
@[simp] theorem State.setStream_insts (p c e : Nat) (v : Stream) : (s.setStream p c e v).insts = s.insts := rfl
@[simp] theorem State.setStream_nodes (p c e : Nat) (v : Stream) : (s.setStream p c e v).nodes = s.nodes := rfl
@[simp] theorem State.setStream_drain (p c e : Nat) (v : Stream) : (s.setStream p c e v).drain = s.drain := rfl
@[simp] theorem State.setStream_fltPending (p c e : Nat) (v : Stream) : (s.setStream p c e v).fltPending = s.fltPending := rfl
@[simp] theorem State.setStream_dead (p c e : Nat) (v : Stream) : (s.setStream p c e v).dead = s.dead := rfl
@[simp] theorem State.setStream_tests (p c e : Nat) (v : Stream) : (s.setStream p c e v).tests = s.tests := rfl
@[simp] theorem State.setStream_overdue (p c e : Nat) (v : Stream) : (s.setStream p c e v).overdue = s.overdue := rfl
@[simp] theorem State.setStream_meshHits (p c e : Nat) (v : Stream) : (s.setStream p c e v).meshHits = s.meshHits := rfl
@[simp] theorem State.setStream_engineDumps (p c e : Nat) (v : Stream) : (s.setStream p c e v).engineDumps = s.engineDumps := rfl
@[simp] theorem State.setStream_dumps (p c e : Nat) (v : Stream) : (s.setStream p c e v).dumps = s.dumps := rfl
@[simp] theorem State.setStream_dumpRun (p c e : Nat) (v : Stream) : (s.setStream p c e v).dumpRun = s.dumpRun := rfl
@[simp] theorem State.setStream_dumpSummary (p c e : Nat) (v : Stream) : (s.setStream p c e v).dumpSummary = s.dumpSummary := rfl
@[simp] theorem State.setStream_links (p c e : Nat) (v : Stream) : (s.setStream p c e v).links = s.links := rfl
@[simp] theorem State.setStream_xfers (p c e : Nat) (v : Stream) : (s.setStream p c e v).xfers = s.xfers := rfl
@[simp] theorem State.setStream_xferWait (p c e : Nat) (v : Stream) : (s.setStream p c e v).xferWait = s.xferWait := rfl
@[simp] theorem State.setStream_oldTags (p c e : Nat) (v : Stream) : (s.setStream p c e v).oldTags = s.oldTags := rfl
@[simp] theorem State.setStream_rxXfers (p c e : Nat) (v : Stream) : (s.setStream p c e v).rxXfers = s.rxXfers := rfl
@[simp] theorem State.setStream_rxDone (p c e : Nat) (v : Stream) : (s.setStream p c e v).rxDone = s.rxDone := rfl
@[simp] theorem State.setStream_arrivals (p c e : Nat) (v : Stream) : (s.setStream p c e v).arrivals = s.arrivals := rfl
@[simp] theorem State.setStream_planes (p c e : Nat) (v : Stream) : (s.setStream p c e v).planes = s.planes := rfl
@[simp] theorem State.setStream_gone (p c e : Nat) (v : Stream) : (s.setStream p c e v).gone = s.gone := rfl
@[simp] theorem State.setStream_heard (p c e : Nat) (v : Stream) : (s.setStream p c e v).heard = s.heard := rfl
@[simp] theorem State.setStream_spray (p c e : Nat) (v : Stream) : (s.setStream p c e v).spray = s.spray := rfl
@[simp] theorem State.setStream_peers (p c e : Nat) (v : Stream) : (s.setStream p c e v).peers = s.peers := rfl
@[simp] theorem State.setStream_clock (p c e : Nat) (v : Stream) : (s.setStream p c e v).clock = s.clock := rfl
@[simp] theorem State.setStream_power (p c e : Nat) (v : Stream) : (s.setStream p c e v).power = s.power := rfl
@[simp] theorem State.setStream_life (p c e : Nat) (v : Stream) : (s.setStream p c e v).life = s.life := rfl
@[simp] theorem State.setStream_elo (p c e : Nat) (v : Stream) : (s.setStream p c e v).elo = s.elo := rfl
@[simp] theorem State.setStream_eth (p c e : Nat) (v : Stream) : (s.setStream p c e v).eth = s.eth := rfl
@[simp] theorem State.setStream_hostReads (p c e : Nat) (v : Stream) : (s.setStream p c e v).hostReads = s.hostReads := rfl
@[simp] theorem State.setStream_bridges (p c e : Nat) (v : Stream) : (s.setStream p c e v).bridges = s.bridges := rfl
@[simp] theorem State.setStream_out (p c e : Nat) (v : Stream) : (s.setStream p c e v).out = s.out := rfl
@[simp] theorem State.setStream_freeIx (p c e : Nat) (v : Stream) : (s.setStream p c e v).freeIx = s.freeIx := rfl

/-! ## pend and recordFault -/

@[simp] theorem State.pend_pending (i : Nat) : (s.pend i).pending = s.pending := by unfold State.pend; split <;> rfl
@[simp] theorem State.pend_now (i : Nat) : (s.pend i).now = s.now := by unfold State.pend; split <;> rfl
@[simp] theorem State.pend_mode (i : Nat) : (s.pend i).mode = s.mode := by unfold State.pend; split <;> rfl
@[simp] theorem State.pend_mem (i : Nat) : (s.pend i).mem = s.mem := by unfold State.pend; split <;> rfl
@[simp] theorem State.pend_poison (i : Nat) : (s.pend i).poison = s.poison := by unfold State.pend; split <;> rfl
@[simp] theorem State.pend_ueFull (i : Nat) : (s.pend i).ueFull = s.ueFull := by unfold State.pend; split <;> rfl
@[simp] theorem State.pend_ecc (i : Nat) : (s.pend i).ecc = s.ecc := by unfold State.pend; split <;> rfl
@[simp] theorem State.pend_params (i : Nat) : (s.pend i).params = s.params := by unfold State.pend; split <;> rfl
@[simp] theorem State.pend_eff (i : Nat) : (s.pend i).eff = s.eff := by unfold State.pend; split <;> rfl
@[simp] theorem State.pend_ctxs (i : Nat) : (s.pend i).ctxs = s.ctxs := by unfold State.pend; split <;> rfl
@[simp] theorem State.pend_streams (i : Nat) : (s.pend i).streams = s.streams := by unfold State.pend; split <;> rfl
@[simp] theorem State.pend_heldCtl (i : Nat) : (s.pend i).heldCtl = s.heldCtl := by unfold State.pend; split <;> rfl
@[simp] theorem State.pend_places (i : Nat) : (s.pend i).places = s.places := by unfold State.pend; split <;> rfl
@[simp] theorem State.pend_placesNext (i : Nat) : (s.pend i).placesNext = s.placesNext := by unfold State.pend; split <;> rfl
@[simp] theorem State.pend_engines (i : Nat) : (s.pend i).engines = s.engines := by unfold State.pend; split <;> rfl
@[simp] theorem State.pend_phys (i : Nat) : (s.pend i).phys = s.phys := by unfold State.pend; split <;> rfl
@[simp] theorem State.pend_rel (i : Nat) : (s.pend i).rel = s.rel := by unfold State.pend; split <;> rfl
@[simp] theorem State.pend_win (i : Nat) : (s.pend i).win = s.win := by unfold State.pend; split <;> rfl
@[simp] theorem State.pend_retired (i : Nat) : (s.pend i).retired = s.retired := by unfold State.pend; split <;> rfl
@[simp] theorem State.pend_dieCopies (i : Nat) : (s.pend i).dieCopies = s.dieCopies := by unfold State.pend; split <;> rfl
@[simp] theorem State.pend_restores (i : Nat) : (s.pend i).restores = s.restores := by unfold State.pend; split <;> rfl
@[simp] theorem State.pend_vaultLoad (i : Nat) : (s.pend i).vaultLoad = s.vaultLoad := by unfold State.pend; split <;> rfl
@[simp] theorem State.pend_slots (i : Nat) : (s.pend i).slots = s.slots := by unfold State.pend; split <;> rfl
@[simp] theorem State.pend_codecRefs (i : Nat) : (s.pend i).codecRefs = s.codecRefs := by unfold State.pend; split <;> rfl
@[simp] theorem State.pend_codecUnit (i : Nat) : (s.pend i).codecUnit = s.codecUnit := by unfold State.pend; split <;> rfl
@[simp] theorem State.pend_stories (i : Nat) : (s.pend i).stories = s.stories := by unfold State.pend; split <;> rfl
@[simp] theorem State.pend_faultLog (i : Nat) : (s.pend i).faultLog = s.faultLog := by unfold State.pend; split <;> rfl
@[simp] theorem State.pend_flashLog (i : Nat) : (s.pend i).flashLog = s.flashLog := by unfold State.pend; split <;> rfl
@[simp] theorem State.pend_flashDue (i : Nat) : (s.pend i).flashDue = s.flashDue := by unfold State.pend; split <;> rfl
@[simp] theorem State.pend_subs (i : Nat) : (s.pend i).subs = s.subs := by unfold State.pend; split <;> rfl
@[simp] theorem State.pend_hostPorts (i : Nat) : (s.pend i).hostPorts = s.hostPorts := by unfold State.pend; split <;> rfl
@[simp] theorem State.pend_kvScales (i : Nat) : (s.pend i).kvScales = s.kvScales := by unfold State.pend; split <;> rfl
@[simp] theorem State.pend_kvBad (i : Nat) : (s.pend i).kvBad = s.kvBad := by unfold State.pend; split <;> rfl
@[simp] theorem State.pend_frames (i : Nat) : (s.pend i).frames = s.frames := by unfold State.pend; split <;> rfl
@[simp] theorem State.pend_reels (i : Nat) : (s.pend i).reels = s.reels := by unfold State.pend; split <;> rfl
@[simp] theorem State.pend_reelImage (i : Nat) : (s.pend i).reelImage = s.reelImage := by unfold State.pend; split <;> rfl
@[simp] theorem State.pend_doors (i : Nat) : (s.pend i).doors = s.doors := by unfold State.pend; split <;> rfl
@[simp] theorem State.pend_insts (i : Nat) : (s.pend i).insts = s.insts := by unfold State.pend; split <;> rfl
@[simp] theorem State.pend_nodes (i : Nat) : (s.pend i).nodes = s.nodes := by unfold State.pend; split <;> rfl
@[simp] theorem State.pend_drain (i : Nat) : (s.pend i).drain = s.drain := by unfold State.pend; split <;> rfl
@[simp] theorem State.pend_dead (i : Nat) : (s.pend i).dead = s.dead := by unfold State.pend; split <;> rfl
@[simp] theorem State.pend_tests (i : Nat) : (s.pend i).tests = s.tests := by unfold State.pend; split <;> rfl
@[simp] theorem State.pend_overdue (i : Nat) : (s.pend i).overdue = s.overdue := by unfold State.pend; split <;> rfl
@[simp] theorem State.pend_meshHits (i : Nat) : (s.pend i).meshHits = s.meshHits := by unfold State.pend; split <;> rfl
@[simp] theorem State.pend_engineDumps (i : Nat) : (s.pend i).engineDumps = s.engineDumps := by unfold State.pend; split <;> rfl
@[simp] theorem State.pend_dumps (i : Nat) : (s.pend i).dumps = s.dumps := by unfold State.pend; split <;> rfl
@[simp] theorem State.pend_dumpRun (i : Nat) : (s.pend i).dumpRun = s.dumpRun := by unfold State.pend; split <;> rfl
@[simp] theorem State.pend_dumpSummary (i : Nat) : (s.pend i).dumpSummary = s.dumpSummary := by unfold State.pend; split <;> rfl
@[simp] theorem State.pend_links (i : Nat) : (s.pend i).links = s.links := by unfold State.pend; split <;> rfl
@[simp] theorem State.pend_xfers (i : Nat) : (s.pend i).xfers = s.xfers := by unfold State.pend; split <;> rfl
@[simp] theorem State.pend_xferWait (i : Nat) : (s.pend i).xferWait = s.xferWait := by unfold State.pend; split <;> rfl
@[simp] theorem State.pend_oldTags (i : Nat) : (s.pend i).oldTags = s.oldTags := by unfold State.pend; split <;> rfl
@[simp] theorem State.pend_rxXfers (i : Nat) : (s.pend i).rxXfers = s.rxXfers := by unfold State.pend; split <;> rfl
@[simp] theorem State.pend_rxDone (i : Nat) : (s.pend i).rxDone = s.rxDone := by unfold State.pend; split <;> rfl
@[simp] theorem State.pend_arrivals (i : Nat) : (s.pend i).arrivals = s.arrivals := by unfold State.pend; split <;> rfl
@[simp] theorem State.pend_planes (i : Nat) : (s.pend i).planes = s.planes := by unfold State.pend; split <;> rfl
@[simp] theorem State.pend_gone (i : Nat) : (s.pend i).gone = s.gone := by unfold State.pend; split <;> rfl
@[simp] theorem State.pend_heard (i : Nat) : (s.pend i).heard = s.heard := by unfold State.pend; split <;> rfl
@[simp] theorem State.pend_spray (i : Nat) : (s.pend i).spray = s.spray := by unfold State.pend; split <;> rfl
@[simp] theorem State.pend_peers (i : Nat) : (s.pend i).peers = s.peers := by unfold State.pend; split <;> rfl
@[simp] theorem State.pend_clock (i : Nat) : (s.pend i).clock = s.clock := by unfold State.pend; split <;> rfl
@[simp] theorem State.pend_power (i : Nat) : (s.pend i).power = s.power := by unfold State.pend; split <;> rfl
@[simp] theorem State.pend_life (i : Nat) : (s.pend i).life = s.life := by unfold State.pend; split <;> rfl
@[simp] theorem State.pend_elo (i : Nat) : (s.pend i).elo = s.elo := by unfold State.pend; split <;> rfl
@[simp] theorem State.pend_eth (i : Nat) : (s.pend i).eth = s.eth := by unfold State.pend; split <;> rfl
@[simp] theorem State.pend_hostReads (i : Nat) : (s.pend i).hostReads = s.hostReads := by unfold State.pend; split <;> rfl
@[simp] theorem State.pend_bridges (i : Nat) : (s.pend i).bridges = s.bridges := by unfold State.pend; split <;> rfl
@[simp] theorem State.pend_out (i : Nat) : (s.pend i).out = s.out := by unfold State.pend; split <;> rfl
@[simp] theorem State.pend_freeIx (i : Nat) : (s.pend i).freeIx = s.freeIx := by unfold State.pend; split <;> rfl

@[simp] theorem State.recordFault_pending (r : FaultRec) : (s.recordFault r).pending = s.pending := by
  unfold State.recordFault; rw [State.pend_pending]; split <;> rfl
@[simp] theorem State.recordFault_now (r : FaultRec) : (s.recordFault r).now = s.now := by
  unfold State.recordFault; rw [State.pend_now]; split <;> rfl
@[simp] theorem State.recordFault_mode (r : FaultRec) : (s.recordFault r).mode = s.mode := by
  unfold State.recordFault; rw [State.pend_mode]; split <;> rfl
@[simp] theorem State.recordFault_mem (r : FaultRec) : (s.recordFault r).mem = s.mem := by
  unfold State.recordFault; rw [State.pend_mem]; split <;> rfl
@[simp] theorem State.recordFault_poison (r : FaultRec) : (s.recordFault r).poison = s.poison := by
  unfold State.recordFault; rw [State.pend_poison]; split <;> rfl
@[simp] theorem State.recordFault_ueFull (r : FaultRec) : (s.recordFault r).ueFull = s.ueFull := by
  unfold State.recordFault; rw [State.pend_ueFull]; split <;> rfl
@[simp] theorem State.recordFault_ecc (r : FaultRec) : (s.recordFault r).ecc = s.ecc := by
  unfold State.recordFault; rw [State.pend_ecc]; split <;> rfl
@[simp] theorem State.recordFault_eff (r : FaultRec) : (s.recordFault r).eff = s.eff := by
  unfold State.recordFault; rw [State.pend_eff]; split <;> rfl
@[simp] theorem State.recordFault_ctxs (r : FaultRec) : (s.recordFault r).ctxs = s.ctxs := by
  unfold State.recordFault; rw [State.pend_ctxs]; split <;> rfl
@[simp] theorem State.recordFault_streams (r : FaultRec) : (s.recordFault r).streams = s.streams := by
  unfold State.recordFault; rw [State.pend_streams]; split <;> rfl
@[simp] theorem State.recordFault_heldCtl (r : FaultRec) : (s.recordFault r).heldCtl = s.heldCtl := by
  unfold State.recordFault; rw [State.pend_heldCtl]; split <;> rfl
@[simp] theorem State.recordFault_places (r : FaultRec) : (s.recordFault r).places = s.places := by
  unfold State.recordFault; rw [State.pend_places]; split <;> rfl
@[simp] theorem State.recordFault_placesNext (r : FaultRec) : (s.recordFault r).placesNext = s.placesNext := by
  unfold State.recordFault; rw [State.pend_placesNext]; split <;> rfl
@[simp] theorem State.recordFault_engines (r : FaultRec) : (s.recordFault r).engines = s.engines := by
  unfold State.recordFault; rw [State.pend_engines]; split <;> rfl
@[simp] theorem State.recordFault_phys (r : FaultRec) : (s.recordFault r).phys = s.phys := by
  unfold State.recordFault; rw [State.pend_phys]; split <;> rfl
@[simp] theorem State.recordFault_rel (r : FaultRec) : (s.recordFault r).rel = s.rel := by
  unfold State.recordFault; rw [State.pend_rel]; split <;> rfl
@[simp] theorem State.recordFault_win (r : FaultRec) : (s.recordFault r).win = s.win := by
  unfold State.recordFault; rw [State.pend_win]; split <;> rfl
@[simp] theorem State.recordFault_retired (r : FaultRec) : (s.recordFault r).retired = s.retired := by
  unfold State.recordFault; rw [State.pend_retired]; split <;> rfl
@[simp] theorem State.recordFault_dieCopies (r : FaultRec) : (s.recordFault r).dieCopies = s.dieCopies := by
  unfold State.recordFault; rw [State.pend_dieCopies]; split <;> rfl
@[simp] theorem State.recordFault_restores (r : FaultRec) : (s.recordFault r).restores = s.restores := by
  unfold State.recordFault; rw [State.pend_restores]; split <;> rfl
@[simp] theorem State.recordFault_vaultLoad (r : FaultRec) : (s.recordFault r).vaultLoad = s.vaultLoad := by
  unfold State.recordFault; rw [State.pend_vaultLoad]; split <;> rfl
@[simp] theorem State.recordFault_slots (r : FaultRec) : (s.recordFault r).slots = s.slots := by
  unfold State.recordFault; rw [State.pend_slots]; split <;> rfl
@[simp] theorem State.recordFault_codecRefs (r : FaultRec) : (s.recordFault r).codecRefs = s.codecRefs := by
  unfold State.recordFault; rw [State.pend_codecRefs]; split <;> rfl
@[simp] theorem State.recordFault_codecUnit (r : FaultRec) : (s.recordFault r).codecUnit = s.codecUnit := by
  unfold State.recordFault; rw [State.pend_codecUnit]; split <;> rfl
@[simp] theorem State.recordFault_stories (r : FaultRec) : (s.recordFault r).stories = s.stories := by
  unfold State.recordFault; rw [State.pend_stories]; split <;> rfl
@[simp] theorem State.recordFault_flashLog (r : FaultRec) : (s.recordFault r).flashLog = s.flashLog := by
  unfold State.recordFault; rw [State.pend_flashLog]; split <;> rfl
@[simp] theorem State.recordFault_subs (r : FaultRec) : (s.recordFault r).subs = s.subs := by
  unfold State.recordFault; rw [State.pend_subs]; split <;> rfl
@[simp] theorem State.recordFault_hostPorts (r : FaultRec) : (s.recordFault r).hostPorts = s.hostPorts := by
  unfold State.recordFault; rw [State.pend_hostPorts]; split <;> rfl
@[simp] theorem State.recordFault_kvScales (r : FaultRec) : (s.recordFault r).kvScales = s.kvScales := by
  unfold State.recordFault; rw [State.pend_kvScales]; split <;> rfl
@[simp] theorem State.recordFault_kvBad (r : FaultRec) : (s.recordFault r).kvBad = s.kvBad := by
  unfold State.recordFault; rw [State.pend_kvBad]; split <;> rfl
@[simp] theorem State.recordFault_frames (r : FaultRec) : (s.recordFault r).frames = s.frames := by
  unfold State.recordFault; rw [State.pend_frames]; split <;> rfl
@[simp] theorem State.recordFault_reels (r : FaultRec) : (s.recordFault r).reels = s.reels := by
  unfold State.recordFault; rw [State.pend_reels]; split <;> rfl
@[simp] theorem State.recordFault_reelImage (r : FaultRec) : (s.recordFault r).reelImage = s.reelImage := by
  unfold State.recordFault; rw [State.pend_reelImage]; split <;> rfl
@[simp] theorem State.recordFault_doors (r : FaultRec) : (s.recordFault r).doors = s.doors := by
  unfold State.recordFault; rw [State.pend_doors]; split <;> rfl
@[simp] theorem State.recordFault_insts (r : FaultRec) : (s.recordFault r).insts = s.insts := by
  unfold State.recordFault; rw [State.pend_insts]; split <;> rfl
@[simp] theorem State.recordFault_nodes (r : FaultRec) : (s.recordFault r).nodes = s.nodes := by
  unfold State.recordFault; rw [State.pend_nodes]; split <;> rfl
@[simp] theorem State.recordFault_drain (r : FaultRec) : (s.recordFault r).drain = s.drain := by
  unfold State.recordFault; rw [State.pend_drain]; split <;> rfl
@[simp] theorem State.recordFault_dead (r : FaultRec) : (s.recordFault r).dead = s.dead := by
  unfold State.recordFault; rw [State.pend_dead]; split <;> rfl
@[simp] theorem State.recordFault_tests (r : FaultRec) : (s.recordFault r).tests = s.tests := by
  unfold State.recordFault; rw [State.pend_tests]; split <;> rfl
@[simp] theorem State.recordFault_overdue (r : FaultRec) : (s.recordFault r).overdue = s.overdue := by
  unfold State.recordFault; rw [State.pend_overdue]; split <;> rfl
@[simp] theorem State.recordFault_meshHits (r : FaultRec) : (s.recordFault r).meshHits = s.meshHits := by
  unfold State.recordFault; rw [State.pend_meshHits]; split <;> rfl
@[simp] theorem State.recordFault_engineDumps (r : FaultRec) : (s.recordFault r).engineDumps = s.engineDumps := by
  unfold State.recordFault; rw [State.pend_engineDumps]; split <;> rfl
@[simp] theorem State.recordFault_dumps (r : FaultRec) : (s.recordFault r).dumps = s.dumps := by
  unfold State.recordFault; rw [State.pend_dumps]; split <;> rfl
@[simp] theorem State.recordFault_dumpRun (r : FaultRec) : (s.recordFault r).dumpRun = s.dumpRun := by
  unfold State.recordFault; rw [State.pend_dumpRun]; split <;> rfl
@[simp] theorem State.recordFault_dumpSummary (r : FaultRec) : (s.recordFault r).dumpSummary = s.dumpSummary := by
  unfold State.recordFault; rw [State.pend_dumpSummary]; split <;> rfl
@[simp] theorem State.recordFault_links (r : FaultRec) : (s.recordFault r).links = s.links := by
  unfold State.recordFault; rw [State.pend_links]; split <;> rfl
@[simp] theorem State.recordFault_xfers (r : FaultRec) : (s.recordFault r).xfers = s.xfers := by
  unfold State.recordFault; rw [State.pend_xfers]; split <;> rfl
@[simp] theorem State.recordFault_xferWait (r : FaultRec) : (s.recordFault r).xferWait = s.xferWait := by
  unfold State.recordFault; rw [State.pend_xferWait]; split <;> rfl
@[simp] theorem State.recordFault_oldTags (r : FaultRec) : (s.recordFault r).oldTags = s.oldTags := by
  unfold State.recordFault; rw [State.pend_oldTags]; split <;> rfl
@[simp] theorem State.recordFault_rxXfers (r : FaultRec) : (s.recordFault r).rxXfers = s.rxXfers := by
  unfold State.recordFault; rw [State.pend_rxXfers]; split <;> rfl
@[simp] theorem State.recordFault_rxDone (r : FaultRec) : (s.recordFault r).rxDone = s.rxDone := by
  unfold State.recordFault; rw [State.pend_rxDone]; split <;> rfl
@[simp] theorem State.recordFault_arrivals (r : FaultRec) : (s.recordFault r).arrivals = s.arrivals := by
  unfold State.recordFault; rw [State.pend_arrivals]; split <;> rfl
@[simp] theorem State.recordFault_planes (r : FaultRec) : (s.recordFault r).planes = s.planes := by
  unfold State.recordFault; rw [State.pend_planes]; split <;> rfl
@[simp] theorem State.recordFault_gone (r : FaultRec) : (s.recordFault r).gone = s.gone := by
  unfold State.recordFault; rw [State.pend_gone]; split <;> rfl
@[simp] theorem State.recordFault_heard (r : FaultRec) : (s.recordFault r).heard = s.heard := by
  unfold State.recordFault; rw [State.pend_heard]; split <;> rfl
@[simp] theorem State.recordFault_spray (r : FaultRec) : (s.recordFault r).spray = s.spray := by
  unfold State.recordFault; rw [State.pend_spray]; split <;> rfl
@[simp] theorem State.recordFault_peers (r : FaultRec) : (s.recordFault r).peers = s.peers := by
  unfold State.recordFault; rw [State.pend_peers]; split <;> rfl
@[simp] theorem State.recordFault_clock (r : FaultRec) : (s.recordFault r).clock = s.clock := by
  unfold State.recordFault; rw [State.pend_clock]; split <;> rfl
@[simp] theorem State.recordFault_power (r : FaultRec) : (s.recordFault r).power = s.power := by
  unfold State.recordFault; rw [State.pend_power]; split <;> rfl
@[simp] theorem State.recordFault_life (r : FaultRec) : (s.recordFault r).life = s.life := by
  unfold State.recordFault; rw [State.pend_life]; split <;> rfl
@[simp] theorem State.recordFault_elo (r : FaultRec) : (s.recordFault r).elo = s.elo := by
  unfold State.recordFault; rw [State.pend_elo]; split <;> rfl
@[simp] theorem State.recordFault_eth (r : FaultRec) : (s.recordFault r).eth = s.eth := by
  unfold State.recordFault; rw [State.pend_eth]; split <;> rfl
@[simp] theorem State.recordFault_hostReads (r : FaultRec) : (s.recordFault r).hostReads = s.hostReads := by
  unfold State.recordFault; rw [State.pend_hostReads]; split <;> rfl
@[simp] theorem State.recordFault_bridges (r : FaultRec) : (s.recordFault r).bridges = s.bridges := by
  unfold State.recordFault; rw [State.pend_bridges]; split <;> rfl
@[simp] theorem State.recordFault_out (r : FaultRec) : (s.recordFault r).out = s.out := by
  unfold State.recordFault; rw [State.pend_out]; split <;> rfl
@[simp] theorem State.recordFault_freeIx (r : FaultRec) : (s.recordFault r).freeIx = s.freeIx := by
  unfold State.recordFault; rw [State.pend_freeIx]; split <;> rfl

/-- Writing a fault record changes no parameter but the two counts of the fault log. -/
theorem State.recordFault_par (r : FaultRec) {k : Nat} (h1 : k ≠ pk 0x7100 1) (h2 : k ≠ pk 0x8052 13) :
    (s.recordFault r).par k = s.par k := by
  unfold State.recordFault State.par
  rw [State.pend_params]
  split
  · exact (State.par_bump_ne _ _ h2).trans (State.par_bump_ne _ _ h1)
  · exact State.par_bump_ne _ _ h1

@[simp] theorem State.pend_par (i k : Nat) : (s.pend i).par k = s.par k := by unfold State.pend; split <;> rfl

end Sys2Proof.Machine
end

