-- ==== Sys2Proof/Laws/Monad.lean ====
section
/-! SUPPORT. Computations over the state: what each combinator does to a state, and which part of the state a computation
leaves as it was. -/
namespace Sys2Proof.Machine

/-! ## Running a computation -/

variable {α β : Type}

@[simp] theorem run_pure (a : α) (s : State) : (pure a : M α) s = (a, s) := rfl
@[simp] theorem run_bind (m : M α) (f : α → M β) (s : State) : (m >>= f) s = f (m s).1 (m s).2 := rfl
@[simp] theorem run_get (s : State) : (get : M State) s = (s, s) := rfl
@[simp↓] theorem run_get_bind (f : State → M α) (s : State) : (get >>= f) s = f s s := rfl
@[simp↓] theorem run_pure_bind (a : α) (f : α → M β) (s : State) : ((pure a : M α) >>= f) s = f a s := rfl
@[simp] theorem run_set (t s : State) : (set t : M Unit) s = ((), t) := rfl
@[simp] theorem run_modify (f : State → State) (s : State) : (modify f : M Unit) s = ((), f s) := rfl
@[simp] theorem run_ite (c : Prop) [Decidable c] (m k : M α) (s : State) :
    (if c then m else k) s = if c then m s else k s := by split <;> rfl
@[simp] theorem run_skip (s : State) : skip s = ((), s) := rfl
@[simp] theorem run_onlyIf_true (m : M Unit) (s : State) : onlyIf true m s = m s := rfl
@[simp] theorem run_onlyIf_false (m : M Unit) (s : State) : onlyIf false m s = ((), s) := rfl
@[simp] theorem run_each_nil (f : α → M Unit) (s : State) : each [] f s = ((), s) := rfl
@[simp] theorem run_each_cons (x : α) (xs : List α) (f : α → M Unit) (s : State) :
    each (x :: xs) f s = each xs f (f x s).2 := rfl
@[simp] theorem run_setPar (k v : Nat) (s : State) : setPar k v s = ((), s.setPar k v) := rfl
@[simp] theorem run_setEff (k v : Nat) (s : State) : setEff k v s = ((), s.setEff k v) := rfl
@[simp] theorem run_bump (k n : Nat) (s : State) : bump k n s = ((), if n == 0 then s else s.bump k n) := rfl
@[simp] theorem run_setInst (p : Nat) (f : Inst → Inst) (s : State) : setInst p f s = ((), s.setInst p (f (s.inst p))) := rfl
@[simp] theorem run_setEngine (e : Nat) (f : EngineSt → EngineSt) (s : State) :
    setEngine e f s = ((), s.setEngine e (f (s.engine e))) := rfl
@[simp] theorem run_setHostPort (h : Nat) (f : HostPort → HostPort) (s : State) :
    setHostPort h f s = ((), s.setHostPort h (f (s.hostPort h))) := rfl
@[simp] theorem run_recordFault (r : FaultRec) (s : State) : recordFault r s = ((), s.recordFault r) := rfl
@[simp] theorem run_emit (o : Out) (s : State) : emit o s = ((), { s with out := s.out ++ [o] }) := rfl

/-! ## What a computation keeps -/

/-- The part f of the state is after m what it was before. -/
def Keeps (f : State → β) (m : M α) : Prop := ∀ s, f (m s).2 = f s

namespace Keep

variable {γ : Type} {f : State → γ}

theorem ret (a : α) : Keeps f (pure a : M α) := fun _ => rfl
theorem skip : Keeps f Machine.skip := fun _ => rfl
theorem read : Keeps f (get : M State) := fun _ => rfl
theorem andThen {m : M α} {k : α → M β} (hm : Keeps f m) (hk : ∀ a, Keeps f (k a)) : Keeps f (m >>= k) :=
  fun s => (hk _ _).trans (hm s)
theorem change {g : State → State} (h : ∀ s, f (g s) = f s) : Keeps f (modify g : M Unit) := h
theorem cond {c : Prop} [Decidable c] {m k : M α} (hm : Keeps f m) (hk : Keeps f k) : Keeps f (if c then m else k) := by
  split <;> assumption
theorem onlyIf (c : Bool) {m : M Unit} (hm : Keeps f m) : Keeps f (Machine.onlyIf c m) := cond hm skip
theorem each (l : List α) {k : α → M Unit} (hk : ∀ a, Keeps f (k a)) : Keeps f (Machine.each l k) := by
  induction l with
  | nil => exact skip
  | cons x t ih => exact andThen (hk x) fun _ => ih
theorem collect (l : List α) {k : α → M β} (hk : ∀ a, Keeps f (k a)) : Keeps f (Machine.collect l k) := by
  induction l with
  | nil => exact ret _
  | cons x t ih => exact andThen (hk x) fun _ => andThen ih fun _ => ret _
theorem foldState (l : List α) (b : β) {k : β → α → M β} (hk : ∀ b a, Keeps f (k b a)) : Keeps f (Machine.foldState l b k) := by
  induction l generalizing b with
  | nil => exact ret _
  | cons x t ih => exact andThen (hk b x) fun c => ih c
/-- What keeps f keeps every function of f. -/
theorem weaken {δ : Type} (g : γ → δ) {m : M α} (hm : Keeps f m) : Keeps (fun s => g (f s)) m := fun s => congrArg g (hm s)

end Keep

/-- m leads from a state that has I to one that has it. -/
def Preserves (I : State → Prop) (m : M α) : Prop := ∀ s, I s → I (m s).2

namespace Preserve

variable {I : State → Prop}

theorem ret (a : α) : Preserves I (pure a : M α) := fun _ h => h
theorem skip : Preserves I Machine.skip := fun _ h => h
theorem read : Preserves I (get : M State) := fun _ h => h
theorem andThen {m : M α} {k : α → M β} (hm : Preserves I m) (hk : ∀ a, Preserves I (k a)) : Preserves I (m >>= k) :=
  fun s h => hk _ _ (hm s h)
theorem change {g : State → State} (h : ∀ s, I s → I (g s)) : Preserves I (modify g : M Unit) := h
theorem cond {c : Prop} [Decidable c] {m k : M α} (hm : Preserves I m) (hk : Preserves I k) :
    Preserves I (if c then m else k) := by
  split <;> assumption
theorem onlyIf (c : Bool) {m : M Unit} (hm : Preserves I m) : Preserves I (Machine.onlyIf c m) := cond hm skip
theorem each (l : List α) {k : α → M Unit} (hk : ∀ a, Preserves I (k a)) : Preserves I (Machine.each l k) := by
  induction l with
  | nil => exact skip
  | cons x t ih => exact andThen (hk x) fun _ => ih
theorem collect (l : List α) {k : α → M β} (hk : ∀ a, Preserves I (k a)) : Preserves I (Machine.collect l k) := by
  induction l with
  | nil => exact ret _
  | cons x t ih => exact andThen (hk x) fun _ => andThen ih fun _ => ret _
theorem foldState (l : List α) (b : β) {k : β → α → M β} (hk : ∀ b a, Preserves I (k b a)) :
    Preserves I (Machine.foldState l b k) := by
  induction l generalizing b with
  | nil => exact ret _
  | cons x t ih => exact andThen (hk b x) fun c => ih c
/-- What leaves the part f alone preserves what depends on f only. -/
theorem ofKeeps {γ : Type} {f : State → γ} {J : γ → Prop} {m : M α} (hm : Keeps f m) : Preserves (fun s => J (f s)) m :=
  fun s h => by show J (f (m s).2); rw [hm s]; exact h

end Preserve

end Sys2Proof.Machine
end

