-- ==== Sys2Proof/Laws/Memory.lean ====
section
/-! SUPPORT. Memory: a byte reads as it was last written, writes leave every other byte alone, and every operation on memory
keeps its canonical form. -/
namespace Sys2Proof.Machine

/-! ## One byte -/

/-- A byte just written reads as written. -/
@[simp] theorem State.byte_setByte_same (s : State) (a : Nat) (b : Byte) : (s.setByte a b).byte a = b := by
  exact getC_setC_same (fun _ => (0 : Byte)) s.mem (s.cellKey a) b

/-- A byte kept elsewhere reads as before. -/
theorem State.byte_setByte_ne (s : State) {a x : Nat} (b : Byte) (h : s.cellKey x ≠ s.cellKey a) :
    (s.setByte a b).byte x = s.byte x := by
  exact getC_setC_ne (fun _ => (0 : Byte)) s.mem b h

/-- Below the host windows a byte is kept under its address. -/
theorem State.cellKey_low (s : State) {a : Nat} (h : a < 0x400000000000) : s.cellKey a = a := by
  have ht : ∀ k, tierOf a ≠ .host k := by
    intro k
    unfold tierOf
    repeat' split
    all_goals simp
  unfold State.cellKey
  split
  · exact absurd ‹_› (ht _)
  · rfl

/-! ## The canonical form -/

theorem State.setByte_wf (s : State) (a : Nat) (b : Byte) (h : Memory.wf s.mem = true) : Memory.wf (s.setByte a b).mem = true :=
  canonC_setC _ _ h

theorem Memory.wf_filter {m : List Host.Cell} (p : Host.Cell → Bool) (h : Memory.wf m = true) : Memory.wf (m.filter p) = true := by
  simp only [Memory.wf, canonC, Bool.and_eq_true, List.all_eq_true, decide_eq_true_eq, keysRise_iff] at h ⊢
  exact ⟨h.1.filter _, fun x hx => h.2 x (List.mem_filter.mp hx).1⟩

/-- A fold of steps that each keep I keeps I. -/
theorem foldl_keeps {α β : Type} {I : β → Prop} (f : β → α → β) (l : List α) (b : β) (hb : I b) (h : ∀ b a, I b → I (f b a)) :
    I (l.foldl f b) := by
  induction l generalizing b with
  | nil => exact hb
  | cons x t ih => exact ih _ (h b x hb)

theorem State.storeChunk_wf (s : State) (w : Who) (a : Nat) (bs : List Nat) (h : Memory.wf s.mem = true) :
    Memory.wf (s.storeChunk w a bs).mem = true := by
  unfold State.storeChunk
  extract_lets c whole s1
  have h1 : Memory.wf s1.mem = true := by
    show Memory.wf (State.mem (if whole = true then _ else _)) = true
    split <;> exact h
  split
  · exact h1
  · refine foldl_keeps (I := fun t : State => Memory.wf t.mem = true) _ _ _ h1 fun t x ht => ?_
    repeat' split
    all_goals first
      | exact ht
      | exact State.setByte_wf _ _ _ ht

theorem State.storeBytes_wf (w : Who) (fuel : Nat) (s : State) (a : Nat) (bs : List Nat) (h : Memory.wf s.mem = true) :
    Memory.wf (State.storeBytes w fuel s a bs).mem = true := by
  induction fuel generalizing s a bs with
  | zero => exact h
  | succ n ih =>
    unfold State.storeBytes
    split
    · exact h
    · exact ih _ _ _ (State.storeChunk_wf s w a _ h)

/-- The part of the state that holds memory is in order. -/
abbrev State.MemOk (s : State) : Prop := Memory.wf s.mem = true

theorem memOk_of_keeps {α : Type} {m : M α} (hm : Keeps State.mem m) : Preserves State.MemOk m :=
  Preserve.ofKeeps (J := fun x => Memory.wf x = true) hm

theorem bump_mem (k n : Nat) : Keeps State.mem (bump k n) := by
  intro s
  show State.mem (if _ then _ else _) = _
  split <;> rfl

theorem store_wf (w : Who) (a : Nat) (bs : List Nat) : Preserves State.MemOk (store w a bs) :=
  Preserve.andThen Preserve.read fun _ =>
    Preserve.andThen (Preserve.onlyIf _ (memOk_of_keeps (bump_mem _ _))) fun _ =>
      Preserve.change fun s h => State.storeBytes_wf w _ s a bs h

theorem storeVal_wf (w : Who) (a n v : Nat) : Preserves State.MemOk (storeVal w a n v) := store_wf w a _

theorem recordFault_mem (r : FaultRec) : Keeps State.mem (recordFault r) := fun s => s.recordFault_mem r

theorem windowAdd_mem (k h n : Nat) : Keeps State.mem (windowAdd k h n) := fun _ => rfl

theorem dieSpareStart_mem (st d : Nat) : Keeps State.mem (dieSpareStart st d) :=
  Keep.andThen Keep.read fun _ => Keep.cond (Keep.andThen (fun _ => rfl) fun _ => Keep.change fun _ => rfl) Keep.skip

theorem dieThreshold_mem (st d : Nat) (r : Bool) : Keeps State.mem (dieThreshold st d r) :=
  Keep.andThen Keep.read fun _ => Keep.cond (dieSpareStart_mem _ _) (Keep.cond Keep.skip (Keep.onlyIf _ (recordFault_mem _)))

theorem noteReached_mem (k : Nat) (on : Bool) : Keeps State.mem (noteReached k on) := by
  intro s
  show State.mem (if _ then _ else _) = _
  split <;> rfl

theorem recordUe_mem (a action p ctx : Nat) : Keeps State.mem (recordUe a action p ctx) := fun s => s.recordFault_mem _

theorem tallyUe_mem (a : Nat) : Keeps State.mem (tallyUe a) := by
  refine Keep.andThen Keep.read fun s => ?_
  cases tierOf a with
  | stack st => exact Keep.change fun _ => rfl
  | loft r => exact Keep.change fun _ => rfl
  | vault => exact Keep.skip
  | host h => exact Keep.skip
  | reserved => exact Keep.skip

theorem listUe_mem (a : Nat) : Keeps State.mem (listUe a) := by
  refine Keep.andThen Keep.read fun s => ?_
  cases tierOf a with
  | stack st =>
    exact Keep.andThen (windowAdd_mem _ _ _) fun _ => Keep.andThen (Keep.change fun t => t.recordFault_mem _) fun _ =>
      Keep.andThen (noteReached_mem _ _) fun _ => Keep.onlyIf _ (dieThreshold_mem _ _ _)
  | loft r => exact recordUe_mem _ _ _ _
  | vault => exact recordUe_mem _ _ _ _
  | host h => exact Keep.skip
  | reserved => exact Keep.skip

theorem countCorrected_mem (a : Nat) (errs : List (Nat × Nat)) : Keeps State.mem (countCorrected a errs) := by
  refine Keep.andThen Keep.read fun s => ?_
  cases tierOf a with
  | stack st =>
    have rest : ∀ (f : State → State) (r : FaultRec) (k1 k2 : Nat) (b1 b2 ce : Bool) (die : Nat), (∀ s, (f s).mem = s.mem) →
        Keeps State.mem (do
          modify f
          recordFault r
          let x ← noteReached k1 b1
          let y ← noteReached k2 b2
          onlyIf ce (dieThreshold st die (x || y))) := fun f r k1 k2 b1 b2 ce die hf =>
      Keep.andThen (Keep.change hf) fun _ => Keep.andThen (recordFault_mem _) fun _ => Keep.andThen (noteReached_mem _ _) fun _ =>
        Keep.andThen (noteReached_mem _ _) fun _ => Keep.onlyIf _ (dieThreshold_mem _ _ _)
    refine Keep.andThen (bump_mem _ _) fun _ => Keep.andThen (Keep.change fun _ => rfl) fun _ =>
      Keep.andThen (windowAdd_mem _ _ _) fun _ => ?_
    dsimp only
    split
    · exact Keep.andThen (windowAdd_mem _ _ _) fun _ => rest _ _ _ _ _ _ _ _ fun _ => rfl
    · exact Keep.andThen (Keep.ret _) fun _ => rest _ _ _ _ _ _ _ _ fun _ => rfl
  | loft r =>
    exact Keep.andThen (bump_mem _ _) fun _ => Keep.andThen (Keep.change fun _ => rfl) fun _ =>
      Keep.andThen (windowAdd_mem _ _ _) fun _ => Keep.andThen (recordFault_mem _) fun _ =>
      Keep.andThen (noteReached_mem _ _) fun _ => Keep.onlyIf _ (Keep.andThen (recordFault_mem _) fun _ => Keep.change fun _ => rfl)
  | vault => exact Keep.skip
  | host h => exact Keep.skip
  | reserved => exact Keep.skip

theorem correct_mem (x : Nat × List (Nat × Nat)) : Keeps State.mem (correct x) :=
  Keep.andThen (Keep.change fun _ => rfl) fun _ => countCorrected_mem _ _

theorem findCodeword_mem (c : Nat) : Keeps State.mem (findCodeword c) := by
  refine Keep.andThen Keep.read fun s => ?_
  cases (lookup s.poison c).getD (!s.dieDead c) with
  | true => exact Keep.skip
  | false =>
    exact Keep.cond (Keep.change fun _ => rfl) (Keep.cond
      (Keep.andThen (Keep.change fun _ => rfl) fun _ => Keep.andThen (Keep.onlyIf _ (tallyUe_mem _)) fun _ => listUe_mem _)
      (Keep.andThen (Keep.onlyIf _ (Keep.andThen (Keep.change fun _ => rfl) fun _ => tallyUe_mem _)) fun _ =>
        Keep.cond Keep.skip (Keep.andThen (Keep.change fun _ => rfl) fun _ => recordUe_mem _ _ _ _)))

theorem readAccess_mem (w : Who) (a n : Nat) : Keeps State.mem (readAccess w a n) :=
  Keep.andThen Keep.read fun _ =>
    Keep.andThen (Keep.onlyIf _ (bump_mem _ _)) fun _ => Keep.andThen (Keep.onlyIf _ (Keep.change fun _ => rfl)) fun _ =>
      Keep.andThen (Keep.onlyIf _ (Keep.andThen (bump_mem _ _) fun _ => Keep.each _ findCodeword_mem)) fun _ =>
        Keep.andThen (Keep.onlyIf _ (bump_mem _ _)) fun _ => Keep.ret _

/-- Reading changes no byte of memory. -/
theorem load_mem (w : Who) (a n : Nat) : Keeps State.mem (load w a n) :=
  Keep.andThen Keep.read fun _ => Keep.andThen (Keep.each _ correct_mem) fun _ => readAccess_mem w a n

theorem load_wf (w : Who) (a n : Nat) : Preserves State.MemOk (load w a n) :=
  memOk_of_keeps (load_mem w a n)

theorem State.poisonCodeword_mem (s : State) (w : Who) (c : Nat) : (s.poisonCodeword w c).mem = s.mem := by
  unfold State.poisonCodeword
  split <;> rfl

/-- Marking codewords as poisoned changes no byte of memory. -/
theorem storePoison_mem (w : Who) (a n : Nat) : Keeps State.mem (storePoison w a n) :=
  Keep.andThen Keep.read fun _ => Keep.andThen (Keep.onlyIf _ (bump_mem _ _)) fun _ =>
    Keep.andThen (Keep.onlyIf _ (bump_mem _ _)) fun _ => Keep.change fun s =>
      foldl_keeps (I := fun t : State => t.mem = s.mem) _ _ _ rfl fun t c ht => (State.poisonCodeword_mem t w c).trans ht

theorem atomic_wf (w : Who) (a : Nat) (f : Nat → Nat) : Preserves State.MemOk (atomic w a f) :=
  Preserve.andThen Preserve.read fun _ => Preserve.andThen (load_wf w a 8) fun _ =>
    Preserve.cond (Preserve.andThen (Preserve.change fun s h => State.storeBytes_wf w _ s a _ h) fun _ => Preserve.ret _)
      (Preserve.ret _)

theorem signalCue_wf (w : Who) (a add : Nat) : Preserves State.MemOk (signalCue w a add) :=
  Preserve.andThen Preserve.read fun _ =>
    Preserve.cond Preserve.skip
      (Preserve.cond (Preserve.andThen (atomic_wf _ a _) fun _ => Preserve.skip) (memOk_of_keeps (bump_mem _ _)))

theorem vaultPut_wf (a : Nat) (bs : List Nat) : Preserves State.MemOk (vaultPut a bs) :=
  Preserve.change fun _ h => foldl_keeps (I := State.MemOk) _ _ _ h fun t _ ht => State.setByte_wf t _ _ ht

theorem windowData_wf (a : Nat) (data : List Nat) (p : Bool) : Preserves State.MemOk (windowData a data p) :=
  Preserve.change fun _ h =>
    foldl_keeps (I := State.MemOk) _ _ _
      (foldl_keeps (I := State.MemOk) _ _ _ h fun t _ ht => State.setByte_wf t _ _ ht)
      fun _ _ ht => ht

/-- A start from BOOT keeps only what outlasts it, in canonical form. -/
theorem State.afresh_wf (s : State) (keep : Bool) (h : Memory.wf s.mem = true) : Memory.wf (s.afresh keep).mem = true :=
  Memory.wf_filter _ h

/-- Memory at reset is in canonical form. -/
theorem reset_mem_wf : Memory.wf State.reset.mem = true := rfl

end Sys2Proof.Machine
end

