-- ==== Sys2Proof/Laws/Access.lean ====
section
/-! SUPPORT. What a write to memory does to every byte, and what it leaves of the rest of the state. -/
namespace Sys2Proof.Machine

theorem toBytes_length (v n : Nat) : (toBytes v n).length = n := by
  induction n generalizing v with
  | zero => rfl
  | succ k ih => exact congrArg (· + 1) (ih _)

/-! ## Where bytes are kept -/

theorem tierOf_host {a h : Nat} (ha : tierOf a = .host h) :
    0x400000000000 ≤ a ∧ a < 0x800000000000 ∧ h = (a - 0x400000000000) / 0x100000000000 := by
  unfold tierOf at ha
  repeat' split at ha
  all_goals first
    | exact Tier.noConfusion ha
    | exact ⟨by omega, by omega, (Tier.host.inj ha).symm⟩

/-- Two addresses of the map keep their bytes in two places. -/
theorem State.cellKey_inj (s : State) {a b : Nat} (ha : a < 0x800000000000) (hb : b < 0x800000000000)
    (h : s.cellKey a = s.cellKey b) : a = b := by
  unfold State.cellKey at h
  split at h <;> split at h
  · rename_i _ h1 e1 _ h2 e2
    obtain ⟨l1, u1, q1⟩ := tierOf_host e1
    obtain ⟨l2, u2, q2⟩ := tierOf_host e2
    have hk : h1 = h2 := by omega
    rw [hk] at h
    omega
  · omega
  · omega
  · exact h

/-- What a byte reads as depends on memory and the host windows. -/
theorem State.byte_congr {s t : State} (hm : t.mem = s.mem) (hh : t.hostPorts = s.hostPorts) (a : Nat) : t.byte a = s.byte a := by
  unfold State.byte State.cellKey State.hostPort
  rw [hm, hh]

/-! ## What decides an access -/

/-- Two states decide accesses alike: values in force, placements and host ports are the same. -/
structure SameRights (s t : State) : Prop where
  eff : t.eff = s.eff
  places : t.places = s.places
  ports : t.hostPorts = s.hostPorts

theorem SameRights.refl (s : State) : SameRights s s := ⟨rfl, rfl, rfl⟩
theorem SameRights.trans {s t u : State} (h : SameRights s t) (k : SameRights t u) : SameRights s u :=
  ⟨k.eff.trans h.eff, k.places.trans h.places, k.ports.trans h.ports⟩

theorem SameRights.hostPort {s t : State} (h : SameRights s t) (p : Nat) : t.hostPort p = s.hostPort p := by
  unfold State.hostPort; rw [h.ports]
theorem SameRights.windowDown {s t : State} (h : SameRights s t) (p : Nat) : t.windowDown p = s.windowDown p := by
  unfold State.windowDown; rw [h.hostPort]
theorem SameRights.cellKey {s t : State} (h : SameRights s t) (a : Nat) : t.cellKey a = s.cellKey a := by
  unfold State.cellKey; simp only [h.hostPort]
theorem SameRights.placed {s t : State} (h : SameRights s t) (p a : Nat) : t.placed p a = s.placed p a := by
  unfold State.placed; rw [h.places]
theorem SameRights.inVaultArea {s t : State} (h : SameRights s t) (p a : Nat) : t.inVaultArea p a = s.inVaultArea p a := by
  unfold State.inVaultArea State.eff'; rw [h.eff]
theorem SameRights.mayAccess {s t : State} (h : SameRights s t) (w : Who) (d : Bool) (a : Nat) :
    t.mayAccess w d a = s.mayAccess w d a := by
  unfold State.mayAccess; simp only [h.placed, h.inVaultArea]
theorem SameRights.mayAll {s t : State} (h : SameRights s t) (w : Who) (d : Bool) (a n : Nat) : t.mayAll w d a n = s.mayAll w d a n := by
  unfold State.mayAll; simp only [h.mayAccess]
theorem SameRights.atomicOk {s t : State} (h : SameRights s t) (w : Who) (a : Nat) : t.atomicOk w a = s.atomicOk w a := by
  unfold State.atomicOk; simp only [h.mayAccess]

/-! ## One write -/

/-- A write reaches a byte: the writer may change it, and its host window is up. -/
def State.writable (s : State) (w : Who) (a : Nat) : Bool :=
  s.mayAccess w true a && (match tierOf a with | .host h => !s.windowDown h | _ => true)

theorem State.mayAccess_lt {s : State} {w : Who} {d : Bool} {a : Nat} (h : s.mayAccess w d a = true) : a < 0x800000000000 := by
  by_contra hn
  have ht : tierOf a = .reserved := by
    unfold tierOf
    repeat' split
    all_goals first
      | rfl
      | omega
  unfold State.mayAccess at h
  rw [ht] at h
  cases w <;> simp [reaches, Tier.isT0T1, Tier.isT1, Tier.isHost] at h

theorem State.writable_lt {s : State} {w : Who} {a : Nat} (h : s.writable w a = true) : a < 0x800000000000 := by
  unfold State.writable at h
  exact State.mayAccess_lt (Bool.and_eq_true_iff.mp h).1

/-- t is s but for memory: its bytes, its uncorrectable codewords and the errors its codewords hold. -/
def State.OnlyMemory (s t : State) : Prop := t = { s with mem := t.mem, poison := t.poison, dead := t.dead, ecc := t.ecc }

theorem State.OnlyMemory.refl (s : State) : s.OnlyMemory s := rfl
theorem State.OnlyMemory.trans {s t u : State} (h : s.OnlyMemory t) (k : t.OnlyMemory u) : s.OnlyMemory u := by
  unfold State.OnlyMemory at *
  rw [h] at k
  exact k
theorem State.OnlyMemory.rights {s t : State} (h : s.OnlyMemory t) : SameRights s t := by
  unfold State.OnlyMemory at h
  constructor <;> rw [h]
theorem State.setByte_onlyMemory (s : State) (a : Nat) (b : Byte) : s.OnlyMemory (s.setByte a b) := rfl

/-- Bytes put one after another, each where a test lets it: what the state reads at x afterwards. -/
theorem putRun (ok : Nat → Bool) (a : Nat) (hok : ∀ x, ok x = true → x < 0x800000000000) (bs : List Nat) :
    ∀ (k : Nat) (s : State), s.OnlyMemory ((bs.zipIdx k).foldl (fun t b => if ok (a + b.2) then t.setByte (a + b.2) (BitVec.ofNat 8 b.1) else t) s)
      ∧ ∀ x, x < 0x800000000000 →
        ((bs.zipIdx k).foldl (fun t b => if ok (a + b.2) then t.setByte (a + b.2) (BitVec.ofNat 8 b.1) else t) s).byte x =
          if a + k ≤ x ∧ x < a + k + bs.length ∧ ok x = true then BitVec.ofNat 8 (bs.getD (x - (a + k)) 0) else s.byte x := by
  induction bs with
  | nil =>
    intro k s
    refine ⟨rfl, fun x _ => ?_⟩
    rw [if_neg (by simp only [List.length_nil]; omega)]
    rfl
  | cons b bs ih =>
    intro k s
    obtain ⟨s1, e1, m1, b1⟩ : ∃ s1, (if ok (a + k) then s.setByte (a + k) (BitVec.ofNat 8 b) else s) = s1 ∧ s.OnlyMemory s1 ∧
        ∀ x, x < 0x800000000000 → s1.byte x = if x = a + k ∧ ok x = true then BitVec.ofNat 8 b else s.byte x := by
      refine ⟨_, rfl, ?_, fun x hx => ?_⟩
      · split
        · exact s.setByte_onlyMemory _ _
        · rfl
      · split
        · rename_i h
          by_cases hxk : x = a + k
          · subst hxk; simp [h]
          · rw [if_neg (by simp [hxk]), State.byte_setByte_ne]
            exact fun he => hxk (s.cellKey_inj hx (hok _ h) he)
        · rename_i h
          rw [if_neg]
          rintro ⟨rfl, h2⟩
          exact h h2
    have step : ((b :: bs).zipIdx k).foldl (fun t b => if ok (a + b.2) then t.setByte (a + b.2) (BitVec.ofNat 8 b.1) else t) s
        = (bs.zipIdx (k + 1)).foldl (fun t b => if ok (a + b.2) then t.setByte (a + b.2) (BitVec.ofNat 8 b.1) else t) s1 := by
      rw [List.zipIdx_cons, List.foldl_cons, e1]
    rw [step]
    obtain ⟨m2, b2⟩ := ih (k + 1) s1
    refine ⟨m1.trans m2, fun x hx => ?_⟩
    rw [b2 x hx]
    by_cases h1 : a + (k + 1) ≤ x ∧ x < a + (k + 1) + bs.length ∧ ok x = true
    · rw [if_pos h1, if_pos ⟨by omega, by simp only [List.length_cons]; omega, h1.2.2⟩]
      obtain ⟨j, hj⟩ : ∃ j, x = a + k + (j + 1) := ⟨x - (a + k) - 1, by omega⟩
      rw [show x - (a + (k + 1)) = j by omega, show x - (a + k) = j + 1 by omega, List.getD_cons_succ]
    · rw [if_neg h1, b1 x hx]
      by_cases h2 : x = a + k ∧ ok x = true
      · rw [if_pos h2, if_pos ⟨by omega, by simp only [List.length_cons]; omega, h2.2⟩, h2.1]
        simp
      · rw [if_neg h2, if_neg]
        rintro ⟨h3, h4, h5⟩
        simp only [List.length_cons] at h4
        rcases Nat.eq_or_lt_of_le h3 with he | hl
        · exact h2 ⟨he.symm, h5⟩
        · exact h1 ⟨by omega, by omega, h5⟩

theorem lookup_adjust {α : Type} (l : List (Nat × α)) (j k : Nat) (f : α → α) :
    lookup (adjust l j f) k = if k = j then (lookup l k).map f else lookup l k := by
  induction l with
  | nil => split <;> rfl
  | cons x l ih =>
    obtain ⟨i, v⟩ := x
    show lookup ((if i = j then (i, f v) else (i, v)) :: adjust l j f) k = _
    by_cases h1 : i = j
    · rw [if_pos h1]
      unfold lookup
      by_cases h2 : i = k
      · rw [if_pos h2, if_pos h2, if_pos (h2 ▸ h1)]; rfl
      · rw [if_neg h2, if_neg h2]; exact ih
    · rw [if_neg h1]
      unfold lookup
      by_cases h2 : i = k
      · rw [if_pos h2, if_pos h2, if_neg (h2 ▸ h1)]
      · rw [if_neg h2, if_neg h2]; exact ih

theorem healed_adjust (l : List (Nat × List Nat)) (b : Bool) (k d : Nat) (x : Bool) {c : Nat} (c0 : Nat) (h : c ≠ c0) :
    (match lookup (if b = true then adjust l k (fun l => c0 :: l) else l) d with
      | some healed => x || !healed.contains c
      | none => false) =
    match lookup l d with
      | some healed => x || !healed.contains c
      | none => false := by
  cases b with
  | false => rfl
  | true =>
    rw [if_pos rfl, lookup_adjust]
    split_ifs
    · cases lookup l d with
      | none => rfl
      | some v => simp [h]
    · rfl

/-- A write takes the place of a codeword whole: it covers it, and the writer may change all of it. -/
def State.coversWord (s : State) (w : Who) (a n c : Nat) : Bool :=
  decide (a ≤ c * 32) && decide (c * 32 + 32 ≤ a + n) && s.mayAll w true (c * 32) 32

/-- A write of n bytes at a changes the byte at x: it may be written, and its codeword is correctable or is replaced whole
(R103, R106). -/
def State.changes (s : State) (w : Who) (a n x : Nat) : Bool :=
  decide (a ≤ x) && decide (x < a + n) && s.writable w x && (s.coversWord w a n (x / 32) || !s.badAt (x / 32))

theorem State.storeChunk_spec (s : State) (w : Who) (a : Nat) (bs : List Nat) (fit : a % 32 + bs.length ≤ 32) :
    s.OnlyMemory (s.storeChunk w a bs) ∧
    (∀ x, x < 0x800000000000 → (s.storeChunk w a bs).byte x =
      if s.changes w a bs.length x = true then BitVec.ofNat 8 (bs.getD (x - a) 0) else s.byte x) ∧
    (∀ c, c ≠ a / 32 → (s.storeChunk w a bs).badAt c = s.badAt c) := by
  have hw : (a % 32 == 0 && bs.length == 32 && s.mayAll w true a 32) = s.coversWord w a bs.length (a / 32) := by
    rw [Bool.eq_iff_iff]
    simp only [State.coversWord, Bool.and_eq_true, beq_iff_eq, decide_eq_true_eq]
    constructor
    · rintro ⟨⟨h1, h2⟩, h3⟩
      exact ⟨⟨by omega, by omega⟩, by rw [show a / 32 * 32 = a by omega]; exact h3⟩
    · rintro ⟨⟨h1, h2⟩, h3⟩
      exact ⟨⟨by omega, by omega⟩, by rw [← show a / 32 * 32 = a by omega]; exact h3⟩
  obtain ⟨s1, e1, m1, by1, bad1, good1⟩ : ∃ s1, (if s.coversWord w a bs.length (a / 32) = true then
      { s with poison := eraseKey s.poison (a / 32), ecc := s.ecc.rewritten (a / 32),
               dead := if s.dieDead (a / 32) = true then adjust s.dead (dieOf a) fun l => a / 32 :: l else s.dead }
      else { s with ecc := s.ecc.merged (a / 32) }) = s1 ∧ s.OnlyMemory s1 ∧ (∀ x, s1.byte x = s.byte x) ∧ (∀ c, c ≠ a / 32 → s1.badAt c = s.badAt c) ∧
      ((lookup s1.poison (a / 32)).isSome || (!s.coversWord w a bs.length (a / 32) && s1.dieDead (a / 32))) =
        (!s.coversWord w a bs.length (a / 32) && s.badAt (a / 32)) := by
    refine ⟨_, rfl, ?_⟩
    cases hc : s.coversWord w a bs.length (a / 32) with
    | false => exact ⟨rfl, fun _ => rfl, fun _ _ => rfl, by simp [State.badAt, State.dieDead]⟩
    | true =>
      refine ⟨rfl, fun _ => rfl, fun c hcc => ?_, by simp⟩
      rw [if_pos rfl]
      unfold State.badAt State.dieDead
      rw [lookup_eraseKey_ne _ hcc]
      congr 1
      cases tierOf (c * 32) with
      | stack st =>
        exact healed_adjust s.dead _ _ _ _ _ hcc
      | loft _ => rfl
      | vault => rfl
      | host _ => rfl
      | reserved => rfl
  have unfolded : s.storeChunk w a bs = if (!s.coversWord w a bs.length (a / 32) && s.badAt (a / 32)) = true then s1 else
      (bs.zipIdx).foldl (fun t b => if s.writable w (a + b.2) then t.setByte (a + b.2) (BitVec.ofNat 8 b.1) else t) s1 := by
    rw [← good1, ← e1, ← hw]
    rfl
  rw [unfolded]
  have inWord : ∀ x, a ≤ x → x < a + bs.length → x / 32 = a / 32 := fun x h1 h2 => by omega
  cases hb : (!s.coversWord w a bs.length (a / 32) && s.badAt (a / 32)) with
  | true =>
    rw [if_pos rfl]
    refine ⟨m1, fun x _ => ?_, bad1⟩
    rw [by1, if_neg]
    simp only [State.changes, Bool.and_eq_true, decide_eq_true_eq]
    rintro ⟨⟨⟨h1, h2⟩, _⟩, h4⟩
    rw [inWord x h1 h2] at h4
    cases hc : s.coversWord w a bs.length (a / 32) <;> cases hd : s.badAt (a / 32) <;> simp_all
  | false =>
    rw [if_neg (by simp)]
    obtain ⟨m2, b2⟩ := putRun (fun x => s.writable w x) a (fun x hx => State.writable_lt hx) bs 0 s1
    refine ⟨m1.trans m2, fun x hx => ?_, fun c hc => ?_⟩
    · rw [b2 x hx, by1]
      simp only [Nat.add_zero]
      refine if_congr ?_ rfl rfl
      simp only [State.changes, Bool.and_eq_true, decide_eq_true_eq]
      constructor
      · rintro ⟨h1, h2, h3⟩
        refine ⟨⟨⟨h1, h2⟩, h3⟩, ?_⟩
        rw [inWord x h1 h2]
        cases hc : s.coversWord w a bs.length (a / 32) <;> cases hd : s.badAt (a / 32) <;> simp_all
      · rintro ⟨⟨⟨h1, h2⟩, h3⟩, _⟩
        exact ⟨h1, h2, h3⟩
    · rw [← bad1 c hc]
      have hp := foldl_keeps (I := fun t : State => t.poison = s1.poison ∧ t.dead = s1.dead ∧ t.dieCopies = s1.dieCopies)
        (fun t (b : Nat × Nat) => if s.writable w (a + b.2) then t.setByte (a + b.2) (BitVec.ofNat 8 b.1) else t)
        (bs.zipIdx) s1 ⟨rfl, rfl, rfl⟩ (fun t b ht => by split <;> exact ht)
      unfold State.badAt State.dieDead
      rw [hp.1, hp.2.1, hp.2.2]

theorem SameRights.writable {s t : State} (h : SameRights s t) (w : Who) (a : Nat) : t.writable w a = s.writable w a := by
  unfold State.writable; simp only [h.mayAccess, h.windowDown]

/-- A write of any length: every byte of the map afterwards, and nothing but memory is touched. -/
theorem State.storeBytes_spec (w : Who) (fuel : Nat) : ∀ (s : State) (a : Nat) (bs : List Nat), bs.length ≤ fuel →
    s.OnlyMemory (State.storeBytes w fuel s a bs) ∧
    (∀ x, x < 0x800000000000 → (State.storeBytes w fuel s a bs).byte x =
      if s.changes w a bs.length x = true then BitVec.ofNat 8 (bs.getD (x - a) 0) else s.byte x) ∧
    (∀ c, (c < a / 32 ∨ a + bs.length ≤ c * 32) → (State.storeBytes w fuel s a bs).badAt c = s.badAt c) := by
  have nothing : ∀ (s : State) a x, s.changes w a 0 x = false := fun s a x => by
    simp only [State.changes, Nat.add_zero]
    by_cases h : a ≤ x
    · have : ¬ x < a := by omega
      simp [this]
    · simp [h]
  induction fuel with
  | zero =>
    intro s a bs h
    have hl : bs.length = 0 := by omega
    refine ⟨rfl, fun x _ => ?_, fun _ _ => rfl⟩
    rw [hl, nothing]
    rfl
  | succ fuel ih =>
    intro s a bs h
    unfold State.storeBytes
    cases hbs : bs.isEmpty with
    | true =>
      have hl : bs.length = 0 := by simpa using hbs
      rw [if_pos rfl]
      refine ⟨rfl, fun x _ => ?_, fun _ _ => rfl⟩
      rw [hl, nothing]
      rfl
    | false =>
      rw [if_neg (by simp)]
      have hpos : 0 < bs.length := by
        cases bs with
        | nil => simp at hbs
        | cons _ _ => simp
      have hn : (bs.take (32 - a % 32)).length = min (32 - a % 32) bs.length := List.length_take
      have hd : (bs.drop (32 - a % 32)).length = bs.length - (32 - a % 32) := List.length_drop
      obtain ⟨m1, b1, g1⟩ := s.storeChunk_spec w a (bs.take (32 - a % 32)) (by omega)
      obtain ⟨m2, b2, g2⟩ := ih (s.storeChunk w a (bs.take (32 - a % 32))) (a + (32 - a % 32)) (bs.drop (32 - a % 32)) (by omega)
      refine ⟨m1.trans m2, fun x hx => ?_, fun c hc => ?_⟩
      · rw [b2 x hx, b1 x hx]
        by_cases hx1 : x < a + (32 - a % 32)
        · have f1 : (s.storeChunk w a (bs.take (32 - a % 32))).changes w (a + (32 - a % 32)) (bs.drop (32 - a % 32)).length x = false := by
            have hf : decide (a + (32 - a % 32) ≤ x) = false := by simp; omega
            simp only [State.changes, hf, Bool.false_and]
          have f2 : s.changes w a (bs.take (32 - a % 32)).length x = s.changes w a bs.length x := by
            rw [hn]
            simp only [State.changes, State.coversWord]
            by_cases ha : a ≤ x
            · have hw : x / 32 = a / 32 := by omega
              have e1 : (decide (a ≤ x) && decide (x < a + min (32 - a % 32) bs.length)) =
                  (decide (a ≤ x) && decide (x < a + bs.length)) := by
                rw [Bool.eq_iff_iff]; simp only [Bool.and_eq_true, decide_eq_true_eq]; omega
              have e2 : (decide (a ≤ a / 32 * 32) && decide (a / 32 * 32 + 32 ≤ a + min (32 - a % 32) bs.length)) =
                  (decide (a ≤ a / 32 * 32) && decide (a / 32 * 32 + 32 ≤ a + bs.length)) := by
                rw [Bool.eq_iff_iff]; simp only [Bool.and_eq_true, decide_eq_true_eq]; omega
              rw [hw, e1, e2]
            · have hf : decide (a ≤ x) = false := by simp; omega
              simp only [hf, Bool.false_and]
          rw [f1, f2, if_neg (by simp)]
          by_cases hc : s.changes w a bs.length x = true
          · rw [if_pos hc, if_pos hc]
            congr 1
            simp only [State.changes, Bool.and_eq_true, decide_eq_true_eq] at hc
            have : x - a < 32 - a % 32 := by omega
            simp only [List.getD_eq_getElem?_getD, List.getElem?_take, this, if_true]
          · rw [if_neg hc, if_neg hc]
        · have f1 : s.changes w a (bs.take (32 - a % 32)).length x = false := by
            have hf : decide (x < a + min (32 - a % 32) bs.length) = false := by simp; omega
            rw [hn]
            simp only [State.changes, hf, Bool.and_false, Bool.false_and]
          have f2 : (s.storeChunk w a (bs.take (32 - a % 32))).changes w (a + (32 - a % 32)) (bs.drop (32 - a % 32)).length x =
              s.changes w a bs.length x := by
            rw [hd]
            simp only [State.changes, State.coversWord, m1.rights.writable, m1.rights.mayAll, g1 (x / 32) (by omega)]
            have e1 : (decide (a + (32 - a % 32) ≤ x) && decide (x < a + (32 - a % 32) + (bs.length - (32 - a % 32)))) =
                (decide (a ≤ x) && decide (x < a + bs.length)) := by
              rw [Bool.eq_iff_iff]; simp only [Bool.and_eq_true, decide_eq_true_eq]; omega
            by_cases hl : x < a + bs.length
            · have e2 : (decide (a + (32 - a % 32) ≤ x / 32 * 32) &&
                    decide (x / 32 * 32 + 32 ≤ a + (32 - a % 32) + (bs.length - (32 - a % 32)))) =
                  (decide (a ≤ x / 32 * 32) && decide (x / 32 * 32 + 32 ≤ a + bs.length)) := by
                rw [Bool.eq_iff_iff]; simp only [Bool.and_eq_true, decide_eq_true_eq]; omega
              rw [e1, e2]
            · have hf : decide (x < a + bs.length) = false := by simp; omega
              rw [e1, hf]
              simp only [Bool.and_false, Bool.false_and]
          rw [f1, f2, if_neg (c := false = true) (by simp)]
          refine if_congr Iff.rfl ?_ rfl
          congr 1
          have : 32 - a % 32 + (x - (a + (32 - a % 32))) = x - a := by omega
          simp only [List.getD_eq_getElem?_getD, List.getElem?_drop, this]
      · rw [g2 c (by omega), g1 c (by omega)]

/-- One write access: the bytes it changes, every other byte as before, and of the rest of the state nothing but a count. -/
theorem store_spec (w : Who) (a : Nat) (bs : List Nat) (s : State) :
    let t := (store w a bs s).2
    t = { s with mem := t.mem, poison := t.poison, dead := t.dead, ecc := t.ecc,
                 params := if s.mayAll w true a bs.length then s.params else (s.bump (pk 0x8042 4) 1).params } ∧
    ∀ x, x < 0x800000000000 → t.byte x =
      if s.changes w a bs.length x = true then BitVec.ofNat 8 (bs.getD (x - a) 0) else s.byte x := by
  have run : (store w a bs s).2 = State.storeBytes w (bs.length + 1)
      (if s.mayAll w true a bs.length then s else s.bump (pk 0x8042 4) 1) a bs := by
    show State.storeBytes w (bs.length + 1) (onlyIf (!s.mayAll w true a bs.length) (bump (pk 0x8042 4) 1) s).2 a bs = _
    cases s.mayAll w true a bs.length <;> rfl
  intro t
  cases hm : s.mayAll w true a bs.length with
  | true =>
    rw [hm, if_pos rfl] at run
    obtain ⟨m, b, _⟩ := State.storeBytes_spec w (bs.length + 1) s a bs (by omega)
    rw [← run] at m b
    exact ⟨m, b⟩
  | false =>
    rw [hm, if_neg (by simp)] at run
    obtain ⟨m, b, _⟩ := State.storeBytes_spec w (bs.length + 1) (s.bump (pk 0x8042 4) 1) a bs (by omega)
    rw [← run] at m b
    exact ⟨m, b⟩

/-- What bytes written, errors noted and codewords lost keep, an error that strikes a codeword keeps. -/
theorem State.strike_keeps {I : State → Prop} {s : State} (hb : ∀ t a b, I t → I (t.setByte a b))
    (he : ∀ (t : State) q p, I t → I { t with ecc := q, poison := p }) (c : Nat) (errs : List (Nat × Nat)) (h : I s) :
    I (s.strike c errs) := by
  have put : ∀ l : List (Nat × Nat), I (l.foldl (fun t b => t.setByte (c * 32 + b.2) (BitVec.ofNat 8 b.1)) s) := fun _ =>
    foldl_keeps (I := I) _ _ _ h fun t _ ht => hb t _ _ ht
  unfold State.strike
  split
  · exact h
  · extract_lets old all d t
    have ht : I t := put _
    clear_value t d all old
    split
    · exact he t _ _ ht
    · exact he t _ _ ht
    · exact he s _ _ h

/-- An error that strikes a codeword touches nothing but memory, and keeps its canonical form. -/
theorem State.strike_onlyMemory (s : State) (c : Nat) (errs : List (Nat × Nat)) : s.OnlyMemory (s.strike c errs) :=
  State.strike_keeps (I := s.OnlyMemory) (fun _ _ _ h => h.trans (State.setByte_onlyMemory ..)) (fun _ _ _ h => h.trans rfl) c errs rfl

theorem State.strike_wf (s : State) (c : Nat) (errs : List (Nat × Nat)) (h : s.MemOk) : (s.strike c errs).MemOk :=
  State.strike_keeps (I := State.MemOk) (fun _ _ _ h => State.setByte_wf _ _ _ h) (fun _ _ _ h => h) c errs h

/-! ## One read -/

/-- Where the codewords hold no error to correct, a read is one access to them. -/
theorem load_clean (w : Who) (a n : Nat) (s : State) (hf : s.flawed w a n = []) : load w a n s = readAccess w a n s := by
  show readAccess w a n (each (s.flawed w a n) correct s).2 = _
  rw [hf]
  rfl

/-- Where the codewords hold no error, a read answers its bytes. -/
theorem load_answers (w : Who) (a n : Nat) (s : State) (hf : s.flawed w a n = []) (hb : s.badCodewords w a n = []) :
    (load w a n s).1 = ⟨s.readVal w a n, []⟩ := by
  rw [load_clean w a n s hf]
  show (⟨s.readHealed w a n (s.healed (s.badCodewords w a n)), (s.badCodewords w a n).filter fun c =>
    !(s.healed (s.badCodewords w a n)).any fun h => h.1 == c⟩ : Read) = _
  rw [hb]
  rfl

theorem paramsOnly_trans {s t u : State} (h : t = { s with params := t.params }) (k : u = { t with params := u.params }) :
    u = { s with params := u.params } := by
  rw [h] at k
  exact k

theorem bump_spec (k n : Nat) (s : State) : (bump k n s).2 = { s with params := (bump k n s).2.params } ∧
    ∀ j, j ≠ k → (bump k n s).2.par j = s.par j := by
  show (if n == 0 then s else s.bump k n) = { s with params := (if n == 0 then s else s.bump k n).params } ∧
    ∀ j, j ≠ k → (if n == 0 then s else s.bump k n).par j = s.par j
  split
  · exact ⟨rfl, fun _ _ => rfl⟩
  · exact ⟨rfl, fun j hj => State.par_bump_ne s n hj⟩

/-- A read that meets no error changes at most the two counts of R97 and R105. -/
theorem load_spec (w : Who) (a n : Nat) (s : State) (hf : s.flawed w a n = []) (h : s.badCodewords w a n = []) :
    (load w a n s).2 = { s with params := (load w a n s).2.params } ∧
    ∀ k, k ≠ pk 0x8042 4 → k ≠ pk 0x8042 7 → (load w a n s).2.par k = s.par k := by
  have count : ∀ (b : Bool) (k n : Nat) (u : State), (onlyIf b (bump k n) u).2 = { u with params := (onlyIf b (bump k n) u).2.params } ∧
      ∀ j, j ≠ k → (onlyIf b (bump k n) u).2.par j = u.par j := fun b k n u => by
    cases b
    · exact ⟨rfl, fun _ _ => rfl⟩
    · exact bump_spec k n u
  obtain ⟨m, hm⟩ : ∃ m, m = ((List.range n).filter fun i => decide (tierOf (a + i) = .vault) && s.mayAccess w false (a + i)).length := ⟨_, rfl⟩
  have run : (load w a n s).2 = (onlyIf (decide (tierOf a = .vault)) (bump (pk 0x8042 7) m)
      (onlyIf (!s.mayAll w false a n) (bump (pk 0x8042 4) 1) s).2).2 := by
    rw [hm, load_clean w a n s hf]
    unfold readAccess
    simp only [↓run_get_bind, h, List.any_nil, run_bind, run_onlyIf_false, List.filter_nil, List.isEmpty_nil, Bool.not_true, run_pure]
  obtain ⟨e1, p1⟩ := count (!s.mayAll w false a n) (pk 0x8042 4) 1 s
  obtain ⟨e2, p2⟩ := count (decide (tierOf a = .vault)) (pk 0x8042 7) m (onlyIf (!s.mayAll w false a n) (bump (pk 0x8042 4) 1) s).2
  rw [run]
  exact ⟨paramsOnly_trans e1 e2, fun k h4 h7 => (p2 k h7).trans (p1 k h4)⟩

end Sys2Proof.Machine
end

