-- ==== Sys2Proof/Laws/Order.lean ====
section
/-! SUPPORT. Every operation keeps a state in order: one lemma per operation, that a state with Inv leads to one with it. The
lemmas follow the shape of the operations they are about, in the order of the files of the machine. -/
namespace Sys2Proof.Machine

/-! ## Updates of the state, and what is not made of other operations -/

theorem State.pend_inv {s : State} {i : Nat} (hi : i < 6) (h : s.Inv) : (s.pend i).Inv := by
  refine ⟨by rw [State.pend_mem]; exact h.1, by rw [State.pend_faultLog]; exact h.2.1, ?_⟩
  have hb := h.2.2
  unfold State.pend
  split
  · exact hb
  · rename_i hf
    show s.fltPending + 2 ^ i < 64
    have key : ∀ n : Fin 64, ∀ k : Fin 6, bit n k = false → n.val + 2 ^ k.val < 64 := by decide
    exact key ⟨_, hb⟩ ⟨i, hi⟩ (by simpa using hf)

theorem State.recordFault_inv {s : State} (r : FaultRec) (h : s.Inv) : (s.recordFault r).Inv := by
  unfold State.recordFault
  refine State.pend_inv (by decide) ?_
  have h2 := h.2.1
  split
  · refine ⟨h.1, ?_, h.2.2⟩
    show (s.faultLog.drop 1 ++ [r.word s.now]).length ≤ 4096
    simp; omega
  · rename_i hf
    refine ⟨h.1, ?_, h.2.2⟩
    show (s.faultLog ++ [r.word s.now]).length ≤ 4096
    simp at hf ⊢; omega

theorem State.OnlyMemory.inv {s t : State} (m : s.OnlyMemory t) (w : Memory.wf t.mem = true) (h : s.Inv) : t.Inv := by
  refine ⟨w, ?_, ?_⟩
  · have : t.faultLog = s.faultLog := by rw [m]
    rw [this]; exact h.2.1
  · have : t.fltPending = s.fltPending := by rw [m]
    rw [this]; exact h.2.2

theorem State.storeBytes_inv (w : Who) {fuel : Nat} {s : State} (a : Nat) {bs : List Nat} (hf : bs.length ≤ fuel) (h : s.Inv) :
    (State.storeBytes w fuel s a bs).Inv :=
  (State.storeBytes_spec w fuel s a bs hf).1.inv (State.storeBytes_wf w fuel s a bs h.1) h
theorem State.setByte_inv {s : State} (a : Nat) (b : Byte) (h : s.Inv) : (s.setByte a b).Inv :=
  ⟨State.setByte_wf s a b h.1, h.2⟩
theorem State.poisonCodeword_inv {s : State} (w : Who) (c : Nat) (h : s.Inv) : (s.poisonCodeword w c).Inv := by
  unfold State.poisonCodeword; split <;> exact h
theorem State.strike_inv {s : State} (c : Nat) (errs : List (Nat × Nat)) (h : s.Inv) : (s.strike c errs).Inv :=
  (s.strike_onlyMemory c errs).inv (s.strike_wf c errs h.1) h
theorem bump_inv (k n : Nat) : Preserves State.Inv (bump k n) := Preserve.change fun s h => by
  split <;> exact h
theorem clampDesc_inv (n : Nat) : Preserves State.Inv (clampDesc n) := bump_inv _ _
theorem recordFault_inv (r : FaultRec) : Preserves State.Inv (recordFault r) := Preserve.change fun _ h => State.recordFault_inv r h
theorem windowAdd_inv (k h n : Nat) : Preserves State.Inv (windowAdd k h n) := fun _ h => h
theorem noteReached_inv (k : Nat) (on : Bool) : Preserves State.Inv (noteReached k on) := fun s h => by
  show State.Inv (if _ then _ else _)
  split <;> exact h
theorem store_inv (w : Who) (a : Nat) (bs : List Nat) : Preserves State.Inv (store w a bs) :=
  Preserve.andThen Preserve.read fun _ => Preserve.andThen (Preserve.onlyIf _ (bump_inv _ _)) fun _ =>
    Preserve.change fun _ h => State.storeBytes_inv w a (by omega) h
theorem storeVal_inv (w : Who) (a n v : Nat) : Preserves State.Inv (storeVal w a n v) := store_inv w a _
/-- A state chosen while another was at hand. -/
theorem Preserve.put {I : State → Prop} {t : State} (h : I t) : Preserves I (set t : M Unit) := fun _ _ => h


theorem State.storeChunk_inv (w : Who) (a : Nat) (bs : List Nat) {s : State} (h : s.Inv) : (s.storeChunk w a bs).Inv := by
  unfold State.storeChunk
  extract_lets c whole s1
  have h1 : s1.Inv := by
    show State.Inv (if whole = true then _ else _)
    split <;> exact h
  split
  · exact h1
  · refine foldl_keeps (I := State.Inv) _ _ _ h1 fun t x ht => ?_
    repeat' split
    all_goals first
      | exact ht
      | exact State.setByte_inv _ _ ht
theorem Preserve.readThen {α : Type} {I : State → Prop} {k : State → M α} (hk : ∀ s, I s → Preserves I (k s)) : Preserves I (get >>= k) :=
  fun s h => hk s h s h
theorem State.afresh_inv (keep : Bool) {s : State} (h : s.Inv) : (s.afresh keep).Inv :=
  ⟨State.afresh_wf s keep h.1, Nat.zero_le _, show 0 < 64 by decide⟩
theorem sixBits_lt (c : Nat → Bool) : sumOf ((List.range 6).map fun i => if c i then 2 ^ i else 0) < 64 := by
  have h : (List.range 6) = [0, 1, 2, 3, 4, 5] := rfl
  rw [h]
  simp only [List.map, sumOf, List.foldl]
  cases c 0 <;> cases c 1 <;> cases c 2 <;> cases c 3 <;> cases c 4 <;> cases c 5 <;> decide
theorem par_inv (k : Nat) : Preserves State.Inv (par k) := fun _ h => h
theorem eff_inv (k : Nat) : Preserves State.Inv (eff k) := fun _ h => h
theorem eventBit_lt {code i : Nat} (h : eventBit code = some i) : i < 6 := by
  unfold eventBit at h
  split at h <;> first | (cases h; decide) | cases h

/-! ## Ops -/

theorem setPar_inv (key v : Nat) : Preserves State.Inv (setPar key v) := by
  unfold setPar
  repeat' first
    | (with_reducible refine Preserve.change fun _ h => ?_); exact h

theorem setEff_inv (key v : Nat) : Preserves State.Inv (setEff key v) := by
  unfold setEff
  repeat' first
    | (with_reducible first
         | refine Preserve.andThen ?_ fun _ => ?_)
    | (with_reducible refine Preserve.change fun _ h => ?_); exact h

theorem setInst_inv (p : Nat) (f : Inst → Inst) : Preserves State.Inv (setInst p f) := by
  unfold setInst
  repeat' first
    | (with_reducible first
         | refine Preserve.andThen ?_ fun _ => ?_)
    | (with_reducible refine Preserve.change fun _ h => ?_); exact h

theorem setDoor_inv (p i v : Nat) : Preserves State.Inv (setDoor p i v) := by
  unfold setDoor
  repeat' first
    | (with_reducible first
         | refine Preserve.andThen ?_ fun _ => ?_)
    | (with_reducible refine Preserve.change fun _ h => ?_); exact h

theorem setEngine_inv (e : Nat) (f : EngineSt → EngineSt) : Preserves State.Inv (setEngine e f) := by
  unfold setEngine
  repeat' first
    | (with_reducible first
         | refine Preserve.andThen ?_ fun _ => ?_)
    | (with_reducible refine Preserve.change fun _ h => ?_); exact h

theorem setHostPort_inv (h : Nat) (f : HostPort → HostPort) : Preserves State.Inv (setHostPort h f) := by
  unfold setHostPort
  repeat' first
    | (with_reducible first
         | refine Preserve.andThen ?_ fun _ => ?_)
    | (with_reducible refine Preserve.change fun _ h => ?_); exact h

theorem emit_inv (o : Out) : Preserves State.Inv (emit o) := by
  unfold emit
  repeat' first
    | (with_reducible first
         | refine Preserve.andThen ?_ fun _ => ?_)
    | (with_reducible refine Preserve.change fun _ h => ?_); exact h

theorem sendMsix_inv (h vector : Nat) : Preserves State.Inv (sendMsix h vector) := by
  unfold sendMsix
  repeat' first
    | (with_reducible first
         | exact Preserve.skip | exact Preserve.read | exact setHostPort_inv .. | exact emit_inv ..
         | refine Preserve.readThen fun _ _ => ?_ | refine Preserve.andThen ?_ fun _ => ?_
         | refine Preserve.cond ?_ ?_)
    | split

theorem sendRecords_inv (slot : Nat) (u : Sub) (rs : List Nat) : Preserves State.Inv (sendRecords slot u rs) := by
  unfold sendRecords
  repeat' first
    | (with_reducible first
         | exact Preserve.read | exact emit_inv .. | refine Preserve.readThen fun _ _ => ?_
         | refine Preserve.andThen ?_ fun _ => ?_ | refine Preserve.each _ fun _ => ?_)

theorem deliverSlot_inv (slot : Nat) : Preserves State.Inv (deliverSlot slot) := by
  unfold deliverSlot
  repeat' first
    | (with_reducible first
         | exact Preserve.skip | exact Preserve.read | exact bump_inv .. | exact setHostPort_inv ..
         | exact sendMsix_inv .. | exact sendRecords_inv .. | refine Preserve.readThen fun _ _ => ?_
         | refine Preserve.andThen ?_ fun _ => ?_ | refine Preserve.cond ?_ ?_ | refine Preserve.each _ fun _ => ?_)
    | (with_reducible refine Preserve.change fun _ h => ?_); exact h
    | split

theorem raiseEvent_inv (code p flags detail : Nat) : Preserves State.Inv (raiseEvent code p flags detail) := by
  unfold raiseEvent
  repeat' first
    | (with_reducible first
         | exact Preserve.skip | exact Preserve.read | exact bump_inv .. | exact deliverSlot_inv ..
         | refine Preserve.readThen fun _ _ => ?_ | refine Preserve.andThen ?_ fun _ => ?_
         | refine Preserve.each _ fun _ => ?_)
    | (with_reducible refine Preserve.change fun _ h => ?_); first | exact h | exact State.pend_inv (by decide) h | exact State.pend_inv (eventBit_lt (by assumption)) h
    | split

theorem recordUe_inv (a action p ctx : Nat) : Preserves State.Inv (recordUe a action p ctx) := by
  unfold recordUe
  repeat' first
    | (with_reducible first
         | refine Preserve.andThen ?_ fun _ => ?_)
    | (with_reducible refine Preserve.change fun _ h => ?_); first | exact h | exact State.recordFault_inv _ h

theorem dieSpareStart_inv (stack die : Nat) : Preserves State.Inv (dieSpareStart stack die) := by
  unfold dieSpareStart
  repeat' first
    | (with_reducible first
         | exact Preserve.skip | exact Preserve.read | exact setPar_inv .. | refine Preserve.readThen fun _ _ => ?_
         | refine Preserve.andThen ?_ fun _ => ?_ | refine Preserve.cond ?_ ?_)
    | (with_reducible refine Preserve.change fun _ h => ?_); exact h

theorem dieThreshold_inv (stack die : Nat) (reached : Bool) : Preserves State.Inv (dieThreshold stack die reached) := by
  unfold dieThreshold
  repeat' first
    | (with_reducible first
         | exact Preserve.skip | exact Preserve.read | exact dieSpareStart_inv .. | exact recordFault_inv ..
         | refine Preserve.readThen fun _ _ => ?_ | refine Preserve.andThen ?_ fun _ => ?_
         | refine Preserve.onlyIf _ ?_ | refine Preserve.cond ?_ ?_)

theorem tallyUe_inv (a : Nat) : Preserves State.Inv (tallyUe a) := by
  unfold tallyUe
  repeat' first
    | (with_reducible first
         | exact Preserve.skip | exact Preserve.read | refine Preserve.readThen fun _ _ => ?_
         | refine Preserve.andThen ?_ fun _ => ?_)
    | (with_reducible refine Preserve.change fun _ h => ?_); exact h
    | split

theorem listUe_inv (a : Nat) : Preserves State.Inv (listUe a) := by
  unfold listUe
  repeat' first
    | (with_reducible first
         | exact Preserve.skip | exact Preserve.read | exact windowAdd_inv .. | exact noteReached_inv ..
         | exact dieThreshold_inv .. | exact recordUe_inv .. | refine Preserve.readThen fun _ _ => ?_
         | refine Preserve.andThen ?_ fun _ => ?_ | refine Preserve.onlyIf _ ?_)
    | (with_reducible refine Preserve.change fun _ h => ?_); first | exact h | exact State.recordFault_inv _ h
    | split

theorem findCodeword_inv (c : Nat) : Preserves State.Inv (findCodeword c) := by
  unfold findCodeword
  repeat' first
    | (with_reducible first
         | exact Preserve.skip | exact Preserve.read | exact tallyUe_inv .. | exact listUe_inv ..
         | exact recordUe_inv .. | refine Preserve.readThen fun _ _ => ?_ | refine Preserve.andThen ?_ fun _ => ?_
         | refine Preserve.onlyIf _ ?_ | refine Preserve.cond ?_ ?_)
    | (with_reducible refine Preserve.change fun _ h => ?_); exact h
    | split

theorem countCorrected_inv (a : Nat) (errs : List (Nat × Nat)) : Preserves State.Inv (countCorrected a errs) := by
  unfold countCorrected
  repeat' first
    | (with_reducible first
         | exact Preserve.skip | exact Preserve.read | exact Preserve.ret _ | exact bump_inv ..
         | exact windowAdd_inv .. | exact recordFault_inv .. | exact noteReached_inv .. | exact dieThreshold_inv ..
         | refine Preserve.readThen fun _ _ => ?_ | refine Preserve.andThen ?_ fun _ => ?_
         | refine Preserve.onlyIf _ ?_)
    | (with_reducible refine Preserve.change fun _ h => ?_); exact h
    | split

theorem correct_inv (x : Nat × List (Nat × Nat)) : Preserves State.Inv (correct x) := by
  unfold correct
  repeat' first
    | (with_reducible first
         | exact countCorrected_inv .. | refine Preserve.andThen ?_ fun _ => ?_)
    | (with_reducible refine Preserve.change fun _ h => ?_); exact h

theorem setStory_inv (p : Nat) (f : StoryRun → StoryRun) : Preserves State.Inv (setStory p f) := by
  unfold setStory
  repeat' first
    | (with_reducible first
         | refine Preserve.andThen ?_ fun _ => ?_)
    | (with_reducible refine Preserve.change fun _ h => ?_); exact h

theorem storyBad_inv (p a : Nat) : Preserves State.Inv (storyBad p a) := by
  unfold storyBad
  repeat' first
    | (with_reducible first
         | exact recordUe_inv .. | exact setInst_inv .. | refine Preserve.andThen ?_ fun _ => ?_)

theorem readAccess_inv (w : Who) (a n : Nat) : Preserves State.Inv (readAccess w a n) := by
  unfold readAccess
  repeat' first
    | (with_reducible first
         | exact Preserve.read | exact Preserve.ret _ | exact bump_inv .. | exact findCodeword_inv ..
         | refine Preserve.readThen fun _ _ => ?_ | refine Preserve.andThen ?_ fun _ => ?_
         | refine Preserve.onlyIf _ ?_ | refine Preserve.each _ fun _ => ?_)
    | (with_reducible refine Preserve.change fun _ h => ?_); exact h

theorem load_inv (w : Who) (a n : Nat) : Preserves State.Inv (load w a n) := by
  unfold load
  repeat' first
    | (with_reducible first
         | exact Preserve.read | exact correct_inv .. | exact readAccess_inv ..
         | refine Preserve.readThen fun _ _ => ?_ | refine Preserve.andThen ?_ fun _ => ?_
         | refine Preserve.each _ fun _ => ?_)

theorem storePoison_inv (w : Who) (a n : Nat) : Preserves State.Inv (storePoison w a n) :=
  Preserve.andThen Preserve.read fun _ => Preserve.andThen (Preserve.onlyIf _ (bump_inv _ _)) fun _ =>
    Preserve.andThen (Preserve.onlyIf _ (bump_inv _ _)) fun _ => Preserve.change fun s h =>
      foldl_keeps (I := State.Inv) _ _ _ h fun _ c ht => State.poisonCodeword_inv w c ht

theorem atomic_inv (w : Who) (a : Nat) (f : Nat → Nat) : Preserves State.Inv (atomic w a f) :=
  Preserve.andThen Preserve.read fun _ => Preserve.andThen (load_inv w a 8) fun _ =>
    Preserve.cond (Preserve.andThen (Preserve.change fun s h => State.storeBytes_inv w a (by rw [toBytes_length]; omega) h)
      fun _ => Preserve.ret _) (Preserve.ret _)

theorem signalCue_inv (w : Who) (a add : Nat) : Preserves State.Inv (signalCue w a add) := by
  unfold signalCue
  repeat' first
    | (with_reducible first
         | exact Preserve.skip | exact Preserve.read | exact atomic_inv .. | exact bump_inv ..
         | refine Preserve.readThen fun _ _ => ?_ | refine Preserve.andThen ?_ fun _ => ?_
         | refine Preserve.cond ?_ ?_)

/-! ## Operands -/

theorem readOperandOnce_inv (w : Who) (role : FmtRole) (extent addr : Nat) (seen : Clamped) : Preserves State.Inv (readOperandOnce w role extent addr seen) := by
  unfold readOperandOnce
  repeat' first
    | (with_reducible first
         | exact Preserve.ret _ | exact load_inv .. | exact clampDesc_inv .. | refine Preserve.andThen ?_ fun _ => ?_)

theorem readOperand_inv (w : Who) (role : FmtRole) (extent addr : Nat) : Preserves State.Inv (readOperand w role extent addr) := by
  unfold readOperand
  repeat' first
    | (with_reducible first
         | exact Preserve.ret _ | exact readOperandOnce_inv .. | refine Preserve.andThen ?_ fun _ => ?_)

theorem readCoded_inv (w : Who) (role : FmtRole) (addr extent : Nat) (codes : List Nat) : Preserves State.Inv (readCoded w role addr extent codes) := by
  unfold readCoded
  repeat' first
    | (with_reducible first
         | exact Preserve.ret _ | exact load_inv .. | exact clampDesc_inv .. | refine Preserve.andThen ?_ fun _ => ?_)

theorem readRow_inv (w : Who) (o : Operand) (row k0 len : Nat) : Preserves State.Inv (readRow w o row k0 len) := by
  unfold readRow
  repeat' first
    | (with_reducible first
         | exact Preserve.ret _ | exact load_inv .. | refine Preserve.andThen ?_ fun _ => ?_
         | refine Preserve.cond ?_ ?_)

theorem storeCodes_inv (w : Who) (a width : Nat) (codes : List Nat) : Preserves State.Inv (storeCodes w a width codes) := by
  unfold storeCodes
  repeat' first
    | (with_reducible first
         | exact Preserve.skip | exact Preserve.read | exact storeVal_inv .. | refine Preserve.readThen fun _ _ => ?_
         | refine Preserve.andThen ?_ fun _ => ?_ | refine Preserve.cond ?_ ?_)

theorem countConv_inv (c : Conv) : Preserves State.Inv (countConv c) := by
  unfold countConv
  repeat' first
    | (with_reducible first
         | exact bump_inv .. | refine Preserve.andThen ?_ fun _ => ?_)

theorem poisonOutputs_inv (w : Who) (o : Operand) (row n0 : Nat) (affected : List Bool) : Preserves State.Inv (poisonOutputs w o row n0 affected) := by
  unfold poisonOutputs
  repeat' first
    | (with_reducible first
         | exact Preserve.skip | exact storePoison_inv .. | refine Preserve.andThen ?_ fun _ => ?_
         | refine Preserve.cond ?_ ?_ | refine Preserve.each _ fun _ => ?_)

theorem writeOutputs_inv (w : Who) (o : Operand) (row n0 : Nat) (ys : List Nat) (affected : List Bool) : Preserves State.Inv (writeOutputs w o row n0 ys affected) := by
  unfold writeOutputs
  repeat' first
    | (with_reducible first
         | exact Preserve.skip | exact countConv_inv .. | exact storeCodes_inv .. | exact store_inv ..
         | exact poisonOutputs_inv .. | refine Preserve.andThen ?_ fun _ => ?_ | refine Preserve.cond ?_ ?_)

/-! ## Queues -/

theorem noteBlame_inv (p node ns : Nat) : Preserves State.Inv (noteBlame p node ns) := by
  unfold noteBlame
  repeat' first
    | (with_reducible first
         | refine Preserve.andThen ?_ fun _ => ?_ | refine Preserve.cond ?_ ?_)
    | (with_reducible refine Preserve.change fun _ h => ?_); first | exact h | ((repeat' split) <;> exact h)

theorem noteEligible_inv (e p desc : Nat) (overlap : Bool) (since : Nat) : Preserves State.Inv (noteEligible e p desc overlap since) := by
  unfold noteEligible
  repeat' first
    | (with_reducible first
         | exact Preserve.skip | exact Preserve.read | exact setEngine_inv .. | exact bump_inv ..
         | exact noteBlame_inv .. | refine Preserve.readThen fun _ _ => ?_ | refine Preserve.andThen ?_ fun _ => ?_
         | refine Preserve.onlyIf _ ?_)
    | split

theorem evalHead_inv (k : Nat) (st : Stream) (h : Head) : Preserves State.Inv (evalHead k st h) := by
  unfold evalHead
  repeat' first
    | (with_reducible first
         | exact Preserve.skip | exact Preserve.read | exact noteEligible_inv ..
         | refine Preserve.readThen fun _ _ => ?_ | refine Preserve.andThen ?_ fun _ => ?_
         | refine Preserve.onlyIf _ ?_ | refine Preserve.cond ?_ ?_)
    | (with_reducible refine Preserve.change fun _ h => ?_); exact h

theorem noteGrant_inv (e : Nat) (c : Cand) : Preserves State.Inv (noteGrant e c) := by
  unfold noteGrant
  repeat' first
    | (with_reducible first
         | exact Preserve.read | exact bump_inv .. | exact setEngine_inv .. | exact setPar_inv ..
         | refine Preserve.readThen fun _ _ => ?_ | refine Preserve.andThen ?_ fun _ => ?_
         | refine Preserve.onlyIf _ ?_ | refine Preserve.cond ?_ ?_)

theorem dropForRecord_inv (c : Cmd) (addr : Nat) : Preserves State.Inv (dropForRecord c addr) := by
  unfold dropForRecord
  repeat' first
    | (with_reducible first
         | exact Preserve.read | exact recordFault_inv .. | exact setInst_inv ..
         | refine Preserve.readThen fun _ _ => ?_ | refine Preserve.andThen ?_ fun _ => ?_
         | refine Preserve.onlyIf _ ?_)

theorem putRefs_inv : Preserves State.Inv putRefs := by
  unfold putRefs
  repeat' first
    | (with_reducible first
         | exact Preserve.read | exact setPar_inv .. | refine Preserve.readThen fun _ _ => ?_
         | refine Preserve.andThen ?_ fun _ => ?_ | refine Preserve.onlyIf _ ?_ | refine Preserve.each _ fun _ => ?_)

theorem takeRef_inv (r : CodecRef) : Preserves State.Inv (takeRef r) := by
  unfold takeRef
  repeat' first
    | (with_reducible first
         | exact putRefs_inv .. | refine Preserve.andThen ?_ fun _ => ?_)
    | (with_reducible refine Preserve.change fun _ h => ?_); exact h

theorem dropRefs_inv (e p ctx desc : Nat) : Preserves State.Inv (dropRefs e p ctx desc) := by
  unfold dropRefs
  repeat' first
    | (with_reducible first
         | exact putRefs_inv .. | refine Preserve.andThen ?_ fun _ => ?_)
    | (with_reducible refine Preserve.change fun _ h => ?_); exact h

theorem releaseRefs_inv (c : Cmd) : Preserves State.Inv (releaseRefs c) := by
  unfold releaseRefs
  repeat' first
    | (with_reducible first
         | exact dropRefs_inv .. | refine Preserve.andThen ?_ fun _ => ?_ | refine Preserve.onlyIf _ ?_)

theorem completeCmd_inv (c : Cmd) : Preserves State.Inv (completeCmd c) := by
  unfold completeCmd
  repeat' first
    | (with_reducible first
         | exact Preserve.skip | exact signalCue_inv .. | exact releaseRefs_inv .. | exact setInst_inv ..
         | refine Preserve.andThen ?_ fun _ => ?_)
    | split

theorem saveParts_inv (arm : Nat) (mine : Part → Bool) : Preserves State.Inv (saveParts arm mine) := by
  unfold saveParts
  repeat' first
    | (with_reducible first
         | exact Preserve.skip | exact Preserve.read | exact setEngine_inv .. | exact bump_inv ..
         | refine Preserve.readThen fun _ _ => ?_ | refine Preserve.andThen ?_ fun _ => ?_
         | refine Preserve.cond ?_ ?_)

theorem saveWaits_inv (arm : Nat) : Preserves State.Inv (saveWaits arm) := by
  unfold saveWaits
  repeat' first
    | (with_reducible first
         | exact saveParts_inv ..)

theorem noteBadWait_inv (e p d : Nat) : Preserves State.Inv (noteBadWait e p d) := by
  unfold noteBadWait
  repeat' first
    | (with_reducible first
         | exact Preserve.read | exact bump_inv .. | refine Preserve.readThen fun _ _ => ?_
         | refine Preserve.andThen ?_ fun _ => ?_ | refine Preserve.onlyIf _ ?_)

theorem startIssued_inv (c : Cmd) : Preserves State.Inv (startIssued c) := by
  unfold startIssued
  repeat' first
    | (with_reducible first
         | exact Preserve.read | exact noteBadWait_inv .. | exact bump_inv .. | exact setEngine_inv ..
         | exact noteEligible_inv .. | exact clampDesc_inv .. | refine Preserve.readThen fun _ _ => ?_
         | refine Preserve.andThen ?_ fun _ => ?_ | refine Preserve.onlyIf _ ?_)
    | split

theorem startCmd_inv (c : Cmd) : Preserves State.Inv (startCmd c) := by
  unfold startCmd
  repeat' first
    | (with_reducible first
         | exact saveWaits_inv .. | exact startIssued_inv .. | exact noteGrant_inv ..
         | refine Preserve.andThen ?_ fun _ => ?_ | refine Preserve.onlyIf _ ?_)
    | (with_reducible refine Preserve.change fun _ h => ?_); first | exact h | ((repeat' split) <;> exact h)

theorem unitsDone_inv (arm n : Nat) : Preserves State.Inv (unitsDone arm n) := by
  unfold unitsDone
  repeat' first
    | (with_reducible first
         | exact setEngine_inv ..)

theorem endCmd_inv (c : Cmd) (x : End) : Preserves State.Inv (endCmd c x) := by
  unfold endCmd
  repeat' first
    | (with_reducible first
         | exact Preserve.skip | exact Preserve.read | exact setEngine_inv .. | exact completeCmd_inv ..
         | exact dropForRecord_inv .. | refine Preserve.readThen fun _ _ => ?_
         | refine Preserve.andThen ?_ fun _ => ?_ | refine Preserve.onlyIf _ ?_)
    | split

theorem endFirst_inv (c : Cmd) (before : Nat) (x : End) : Preserves State.Inv (endFirst c before x) := by
  unfold endFirst
  repeat' first
    | (with_reducible first
         | exact Preserve.read | exact setEngine_inv .. | exact releaseRefs_inv .. | exact endCmd_inv ..
         | refine Preserve.readThen fun _ _ => ?_ | refine Preserve.andThen ?_ fun _ => ?_
         | refine Preserve.cond ?_ ?_)

theorem runCmd_inv (c : Cmd) (body : Cmd → M End) (hbody : ∀ x0, Preserves State.Inv (body x0)) : Preserves State.Inv (runCmd c body) := by
  unfold runCmd
  repeat' first
    | (with_reducible first
         | exact Preserve.read | exact hbody .. | exact startCmd_inv .. | exact endFirst_inv ..
         | refine Preserve.readThen fun _ _ => ?_ | refine Preserve.andThen ?_ fun _ => ?_)

theorem markIssued_inv (arm : Nat) : Preserves State.Inv (markIssued arm) := by
  unfold markIssued
  repeat' first
    | (with_reducible first
         | exact Preserve.read | exact noteEligible_inv .. | exact setEngine_inv ..
         | refine Preserve.readThen fun _ _ => ?_ | refine Preserve.andThen ?_ fun _ => ?_
         | refine Preserve.onlyIf _ ?_ | refine Preserve.cond ?_ ?_ | refine Preserve.each _ fun _ => ?_)

theorem holdIssue_inv (e op p d : Nat) (watch : Option Watch) (mark : Option (Nat × Nat)) (args : List Nat) : Preserves State.Inv (holdIssue e op p d watch mark args) := by
  unfold holdIssue
  repeat' first
    | (with_reducible first
         | exact Preserve.skip | exact Preserve.read | exact noteBadWait_inv .. | exact setEngine_inv ..
         | exact markIssued_inv .. | refine Preserve.readThen fun _ _ => ?_ | refine Preserve.andThen ?_ fun _ => ?_
         | refine Preserve.cond ?_ ?_)

/-! ## Kv -/

theorem refreshAvail_inv (p : Nat) : Preserves State.Inv (refreshAvail p) := by
  unfold refreshAvail
  repeat' first
    | (with_reducible first
         | exact Preserve.read | exact setPar_inv .. | refine Preserve.readThen fun _ _ => ?_
         | refine Preserve.andThen ?_ fun _ => ?_ | refine Preserve.each _ fun _ => ?_)

theorem dropFrame_inv (p stack f : Nat) : Preserves State.Inv (dropFrame p stack f) := by
  unfold dropFrame
  repeat' first
    | (with_reducible first
         | refine Preserve.andThen ?_ fun _ => ?_ | refine Preserve.cond ?_ ?_)
    | (with_reducible refine Preserve.change fun _ h => ?_); exact h

theorem shareFrame_inv (p stack f : Nat) : Preserves State.Inv (shareFrame p stack f) := by
  unfold shareFrame
  repeat' first
    | (with_reducible first
         | refine Preserve.andThen ?_ fun _ => ?_)
    | (with_reducible refine Preserve.change fun _ h => ?_); exact h

theorem writeReel_inv (key i : Nat) (ws : List StackWord) : Preserves State.Inv (writeReel key i ws) := by
  unfold writeReel
  repeat' first
    | (with_reducible first
         | exact Preserve.skip | exact Preserve.read | exact storeVal_inv .. | exact store_inv ..
         | refine Preserve.readThen fun _ _ => ?_ | refine Preserve.andThen ?_ fun _ => ?_
         | refine Preserve.each _ fun _ => ?_)
    | split

theorem syncReels_inv : Preserves State.Inv syncReels := by
  unfold syncReels
  repeat' first
    | (with_reducible first
         | exact Preserve.skip | exact Preserve.read | exact storeVal_inv .. | exact writeReel_inv ..
         | refine Preserve.readThen fun _ _ => ?_ | refine Preserve.andThen ?_ fun _ => ?_
         | refine Preserve.each _ fun _ => ?_)
    | (with_reducible refine Preserve.change fun _ h => ?_); exact h
    | split

theorem allocOn_inv (p slate reel stack : Nat) : Preserves State.Inv (allocOn p slate reel stack) := by
  unfold allocOn
  repeat' first
    | (with_reducible first
         | exact Preserve.skip | exact Preserve.read | exact bump_inv .. | refine Preserve.readThen fun _ _ => ?_
         | refine Preserve.andThen ?_ fun _ => ?_ | refine Preserve.cond ?_ ?_ | refine Preserve.each _ fun _ => ?_)
    | (with_reducible refine Preserve.change fun _ h => ?_); exact h
    | split
    | dsimp only

theorem allocFrame_inv (p slate j : Nat) : Preserves State.Inv (allocFrame p slate j) := by
  unfold allocFrame
  repeat' first
    | (with_reducible first
         | exact Preserve.read | exact allocOn_inv .. | refine Preserve.readThen fun _ _ => ?_
         | refine Preserve.andThen ?_ fun _ => ?_ | refine Preserve.onlyIf _ ?_ | refine Preserve.each _ fun _ => ?_)

theorem releaseFrom_inv (p slate j : Nat) : Preserves State.Inv (releaseFrom p slate j) := by
  unfold releaseFrom
  repeat' first
    | (with_reducible first
         | exact Preserve.read | exact dropFrame_inv .. | refine Preserve.readThen fun _ _ => ?_
         | refine Preserve.andThen ?_ fun _ => ?_ | refine Preserve.onlyIf _ ?_ | refine Preserve.cond ?_ ?_
         | refine Preserve.each _ fun _ => ?_)
    | (with_reducible refine Preserve.change fun _ h => ?_); exact h

theorem releaseSeq_inv (p slate : Nat) : Preserves State.Inv (releaseSeq p slate) := by
  unfold releaseSeq
  repeat' first
    | (with_reducible first
         | exact releaseFrom_inv .. | refine Preserve.andThen ?_ fun _ => ?_)
    | (with_reducible refine Preserve.change fun _ h => ?_); exact h

theorem holdLate_inv (p slate ctx : Nat) : Preserves State.Inv (holdLate p slate ctx) := by
  unfold holdLate
  repeat' first
    | (with_reducible first
         | exact Preserve.read | exact setInst_inv .. | refine Preserve.readThen fun _ _ => ?_
         | refine Preserve.andThen ?_ fun _ => ?_)
    | (with_reducible refine Preserve.change fun _ h => ?_); exact h

theorem dropLate_inv (p : Nat) (f : Nat × Nat) : Preserves State.Inv (dropLate p f) := by
  unfold dropLate
  repeat' first
    | (with_reducible first
         | exact Preserve.read | exact dropFrame_inv .. | refine Preserve.readThen fun _ _ => ?_
         | refine Preserve.andThen ?_ fun _ => ?_ | refine Preserve.cond ?_ ?_)
    | (with_reducible refine Preserve.change fun _ h => ?_); exact h

theorem releaseLate_inv (p : Nat) (fenced : State → Nat → Bool) : Preserves State.Inv (releaseLate p fenced) := by
  unfold releaseLate
  repeat' first
    | (with_reducible first
         | exact Preserve.read | exact setInst_inv .. | exact dropLate_inv .. | refine Preserve.readThen fun _ _ => ?_
         | refine Preserve.andThen ?_ fun _ => ?_ | refine Preserve.each _ fun _ => ?_)

theorem readScales_inv (p : Nat) : Preserves State.Inv (readScales p) := by
  unfold readScales
  repeat' first
    | (with_reducible first
         | exact Preserve.read | exact Preserve.ret _ | exact load_inv .. | exact clampDesc_inv ..
         | exact recordUe_inv .. | refine Preserve.readThen fun _ _ => ?_ | refine Preserve.andThen ?_ fun _ => ?_
         | refine Preserve.onlyIf _ ?_ | refine Preserve.cond ?_ ?_ | refine Preserve.collect _ fun _ => ?_)
    | (with_reducible refine Preserve.change fun _ h => ?_); exact h

theorem startKv_inv (p : Nat) : Preserves State.Inv (startKv p) := by
  unfold startKv
  repeat' first
    | (with_reducible first
         | exact Preserve.skip | exact Preserve.read | exact par_inv .. | exact setEff_inv .. | exact setPar_inv ..
         | exact readScales_inv .. | exact setInst_inv .. | exact syncReels_inv .. | exact refreshAvail_inv ..
         | refine Preserve.readThen fun _ _ => ?_ | refine Preserve.andThen ?_ fun _ => ?_
         | refine Preserve.onlyIf _ ?_ | refine Preserve.cond ?_ ?_ | refine Preserve.each _ fun _ => ?_)
    | (with_reducible refine Preserve.change fun _ h => ?_); exact h

/-! ## Attention -/

theorem writeWalk_inv (p step : Nat) (run : List Nat) : Preserves State.Inv (writeWalk p step run) := by
  unfold writeWalk
  repeat' first
    | (with_reducible first
         | exact Preserve.read | exact store_inv .. | refine Preserve.readThen fun _ _ => ?_
         | refine Preserve.andThen ?_ fun _ => ?_ | refine Preserve.each _ fun _ => ?_)

theorem readSlot_inv (w : Who) (g : Geom) (a : Nat) : Preserves State.Inv (readSlot w g a) := by
  unfold readSlot
  repeat' first
    | (with_reducible first
         | exact Preserve.ret _ | exact load_inv .. | refine Preserve.andThen ?_ fun _ => ?_
         | refine Preserve.cond ?_ ?_)

theorem openSeq_inv (w : Who) (g : Geom) (q : Pool) (d : Nat) : Preserves State.Inv (openSeq w g q d) := by
  unfold openSeq
  repeat' first
    | (with_reducible first
         | exact Preserve.ret _ | exact load_inv .. | refine Preserve.andThen ?_ fun _ => ?_
         | refine Preserve.collect _ fun _ => ?_)

theorem appendKv_inv (w : Who) (g : Geom) (q : Pool) (d frame : Nat) : Preserves State.Inv (appendKv w g q d frame) := by
  unfold appendKv
  repeat' first
    | (with_reducible first
         | exact Preserve.ret _ | exact load_inv .. | exact store_inv .. | exact storePoison_inv ..
         | refine Preserve.andThen ?_ fun _ => ?_ | refine Preserve.cond ?_ ?_ | refine Preserve.each _ fun _ => ?_
         | refine Preserve.foldState _ _ fun _ _ => ?_)

theorem frameStep_inv (w : Who) (g : Geom) (kt frame d : Nat) (o : OpenSeq) : Preserves State.Inv (frameStep w g kt frame d o) := by
  unfold frameStep
  repeat' first
    | (with_reducible first
         | exact Preserve.ret _ | exact readSlot_inv .. | refine Preserve.andThen ?_ fun _ => ?_
         | refine Preserve.cond ?_ ?_ | refine Preserve.collect _ fun _ => ?_)

theorem closeSeq_inv (c : Cmd) (g : Geom) (q : Pool) (tv stack layer : Nat) (bad : Bool) (o : OpenSeq) : Preserves State.Inv (closeSeq c g q tv stack layer bad o) := by
  unfold closeSeq
  repeat' first
    | (with_reducible first
         | exact Preserve.read | exact store_inv .. | refine Preserve.readThen fun _ _ => ?_
         | refine Preserve.andThen ?_ fun _ => ?_ | refine Preserve.each _ fun _ => ?_)

theorem walkStep_inv (c : Cmd) (g : Geom) (q : Pool) (stack layer : Nat) (bad : Bool) (d : Nat) (w : Walk) : Preserves State.Inv (walkStep c g q stack layer bad d w) := by
  unfold walkStep
  repeat' first
    | (with_reducible first
         | exact Preserve.read | exact Preserve.ret _ | exact bump_inv .. | exact openSeq_inv ..
         | exact appendKv_inv .. | exact frameStep_inv .. | exact closeSeq_inv ..
         | refine Preserve.readThen fun _ _ => ?_ | refine Preserve.andThen ?_ fun _ => ?_
         | refine Preserve.cond ?_ ?_)
    | split
    | dsimp only

theorem bodyAttend_inv (c : Cmd) : Preserves State.Inv (bodyAttend c) := by
  unfold bodyAttend
  repeat' first
    | (with_reducible first
         | exact Preserve.read | exact Preserve.ret _ | exact clampDesc_inv .. | exact load_inv ..
         | exact walkStep_inv .. | exact closeSeq_inv .. | refine Preserve.readThen fun _ _ => ?_
         | refine Preserve.andThen ?_ fun _ => ?_ | refine Preserve.each _ fun _ => ?_
         | refine Preserve.collect _ fun _ => ?_ | refine Preserve.foldState _ _ fun _ _ => ?_)

theorem readList_inv (c : Cmd) : Preserves State.Inv (readList c) := by
  unfold readList
  repeat' first
    | (with_reducible first
         | exact Preserve.ret _ | exact load_inv .. | refine Preserve.andThen ?_ fun _ => ?_
         | refine Preserve.collect _ fun _ => ?_)

theorem clampLayer_inv (p field : Nat) : Preserves State.Inv (clampLayer p field) := by
  unfold clampLayer
  repeat' first
    | (with_reducible first
         | exact Preserve.read | exact Preserve.ret _ | exact clampDesc_inv ..
         | refine Preserve.readThen fun _ _ => ?_ | refine Preserve.andThen ?_ fun _ => ?_)

theorem attnCue_inv (p : Nat) (feed : Bool) : Preserves State.Inv (attnCue p feed) := by
  unfold attnCue
  repeat' first
    | (with_reducible first
         | exact Preserve.read | exact signalCue_inv .. | refine Preserve.readThen fun _ _ => ?_)

theorem forwarded_inv (c : Cmd) (a dest : Nat) (r : Read) (n : Nat) : Preserves State.Inv (forwarded c a dest r n) := by
  unfold forwarded
  repeat' first
    | (with_reducible first
         | exact Preserve.read | exact Preserve.ret _ | exact recordFault_inv .. | exact raiseEvent_inv ..
         | exact bump_inv .. | refine Preserve.readThen fun _ _ => ?_ | refine Preserve.andThen ?_ fun _ => ?_
         | refine Preserve.cond ?_ ?_)

theorem markPoisoned_inv (p slate : Nat) : Preserves State.Inv (markPoisoned p slate) := by
  unfold markPoisoned
  repeat' first
    | (with_reducible first
         | exact setInst_inv ..)

theorem bodyAttnFeed_inv (c : Cmd) : Preserves State.Inv (bodyAttnFeed c) := by
  unfold bodyAttnFeed
  repeat' first
    | (with_reducible first
         | exact Preserve.read | exact Preserve.ret _ | exact clampLayer_inv .. | exact readList_inv ..
         | exact markPoisoned_inv .. | exact load_inv .. | exact store_inv .. | exact storePoison_inv ..
         | exact forwarded_inv .. | exact emit_inv .. | exact attnCue_inv .. | refine Preserve.readThen fun _ _ => ?_
         | refine Preserve.andThen ?_ fun _ => ?_ | refine Preserve.onlyIf _ ?_ | refine Preserve.cond ?_ ?_
         | refine Preserve.each _ fun _ => ?_ | refine Preserve.collect _ fun _ => ?_)

theorem bodyAttnReturn_inv (c : Cmd) : Preserves State.Inv (bodyAttnReturn c) := by
  unfold bodyAttnReturn
  repeat' first
    | (with_reducible first
         | exact Preserve.read | exact Preserve.ret _ | exact clampLayer_inv .. | exact readList_inv ..
         | exact load_inv .. | exact emit_inv .. | exact attnCue_inv .. | refine Preserve.readThen fun _ _ => ?_
         | refine Preserve.andThen ?_ fun _ => ?_ | refine Preserve.cond ?_ ?_ | refine Preserve.each _ fun _ => ?_
         | refine Preserve.collect _ fun _ => ?_)

theorem readPartials_inv (c : Cmd) (g : Geom) (e i q : Nat) : Preserves State.Inv (readPartials c g e i q) := by
  unfold readPartials
  repeat' first
    | (with_reducible first
         | exact Preserve.read | exact load_inv .. | refine Preserve.readThen fun _ _ => ?_
         | refine Preserve.andThen ?_ fun _ => ?_ | refine Preserve.cond ?_ ?_ | refine Preserve.collect _ fun _ => ?_)

theorem mergeEntry_inv (c : Cmd) (g : Geom) (oOp : Operand) (first count e : Nat) (lost : Bool) (row : Nat) : Preserves State.Inv (mergeEntry c g oOp first count e lost row) := by
  unfold mergeEntry
  repeat' first
    | (with_reducible first
         | exact Preserve.ret _ | exact readPartials_inv .. | exact markPoisoned_inv .. | exact bump_inv ..
         | exact writeOutputs_inv .. | refine Preserve.andThen ?_ fun _ => ?_ | refine Preserve.onlyIf _ ?_
         | refine Preserve.cond ?_ ?_ | refine Preserve.each _ fun _ => ?_ | refine Preserve.collect _ fun _ => ?_)

theorem noteMerged_inv (p layer code : Nat) : Preserves State.Inv (noteMerged p layer code) := by
  unfold noteMerged
  repeat' first
    | (with_reducible first
         | exact setInst_inv ..)

theorem reMerge_inv (c : Cmd) (k : Nat) (es : List (Nat × Bool)) : Preserves State.Inv (reMerge c k es) := by
  unfold reMerge
  repeat' first
    | (with_reducible first
         | exact Preserve.skip | exact Preserve.read | exact Preserve.ret _ | exact mergeEntry_inv ..
         | refine Preserve.readThen fun _ _ => ?_ | refine Preserve.andThen ?_ fun _ => ?_
         | refine Preserve.each _ fun _ => ?_)
    | split

theorem bodyAttnMerge_inv (c : Cmd) : Preserves State.Inv (bodyAttnMerge c) := by
  unfold bodyAttnMerge
  repeat' first
    | (with_reducible first
         | exact Preserve.read | exact Preserve.ret _ | exact clampLayer_inv .. | exact readList_inv ..
         | exact reMerge_inv .. | exact readCoded_inv .. | exact noteMerged_inv .. | exact mergeEntry_inv ..
         | refine Preserve.readThen fun _ _ => ?_ | refine Preserve.andThen ?_ fun _ => ?_
         | refine Preserve.cond ?_ ?_ | refine Preserve.each _ fun _ => ?_)
    | split

theorem attnReceive_inv (b : AttnBatch) : Preserves State.Inv (attnReceive b) := by
  unfold attnReceive
  repeat' first
    | (with_reducible first
         | exact Preserve.read | exact store_inv .. | exact attnCue_inv .. | exact bump_inv ..
         | refine Preserve.readThen fun _ _ => ?_ | refine Preserve.andThen ?_ fun _ => ?_
         | refine Preserve.cond ?_ ?_ | refine Preserve.each _ fun _ => ?_)

/-! ## Transmit -/

theorem setLinkGroup_inv (g : Nat) (f : LinkGroup → LinkGroup) : Preserves State.Inv (setLinkGroup g f) := by
  unfold setLinkGroup
  repeat' first
    | (with_reducible first
         | refine Preserve.andThen ?_ fun _ => ?_)
    | (with_reducible refine Preserve.change fun _ h => ?_); exact h

theorem sendWord_inv (g : Nat) (flits : List (List Nat)) : Preserves State.Inv (sendWord g flits) := by
  unfold sendWord
  repeat' first
    | (with_reducible first
         | exact Preserve.read | exact emit_inv .. | exact setLinkGroup_inv ..
         | refine Preserve.readThen fun _ _ => ?_ | refine Preserve.andThen ?_ fun _ => ?_)

theorem sendMarker_inv (g n : Nat) : Preserves State.Inv (sendMarker g n) := by
  unfold sendMarker
  repeat' first
    | (with_reducible first
         | exact emit_inv ..)

theorem emitFlit_inv (g : Nat) (bytes : List Nat) : Preserves State.Inv (emitFlit g bytes) := by
  unfold emitFlit
  repeat' first
    | (with_reducible first
         | exact Preserve.read | exact emit_inv .. | exact setLinkGroup_inv .. | exact sendWord_inv ..
         | refine Preserve.readThen fun _ _ => ?_ | refine Preserve.andThen ?_ fun _ => ?_
         | refine Preserve.cond ?_ ?_)

theorem fillWord_inv (g : Nat) : Preserves State.Inv (fillWord g) := by
  unfold fillWord
  repeat' first
    | (with_reducible first
         | exact Preserve.skip | exact Preserve.read | exact sendWord_inv .. | refine Preserve.readThen fun _ _ => ?_
         | refine Preserve.andThen ?_ fun _ => ?_ | refine Preserve.cond ?_ ?_)

theorem sendControl_inv (g op lane at' : Nat) : Preserves State.Inv (sendControl g op lane at') := by
  unfold sendControl
  repeat' first
    | (with_reducible first
         | exact Preserve.read | exact setLinkGroup_inv .. | exact emitFlit_inv ..
         | refine Preserve.readThen fun _ _ => ?_ | refine Preserve.andThen ?_ fun _ => ?_)

theorem sendFlit_inv (g : Nat) (bytes : List Nat) : Preserves State.Inv (sendFlit g bytes) := by
  unfold sendFlit
  repeat' first
    | (with_reducible first
         | exact Preserve.read | exact emitFlit_inv .. | exact setLinkGroup_inv .. | exact sendControl_inv ..
         | refine Preserve.readThen fun _ _ => ?_ | refine Preserve.andThen ?_ fun _ => ?_
         | refine Preserve.onlyIf _ ?_)

theorem pump_inv (g : Nat) (x0 : Nat) : Preserves State.Inv (pump g x0) := by
  induction x0 with
  | zero =>
    unfold pump
    repeat' first
      | (with_reducible first
           | exact Preserve.skip)
  | succ n ih =>
    unfold pump
    repeat' first
      | (with_reducible first
           | exact ih .. | exact Preserve.skip | exact Preserve.read | exact setLinkGroup_inv ..
           | exact sendFlit_inv .. | refine Preserve.readThen fun _ _ => ?_ | refine Preserve.andThen ?_ fun _ => ?_
           | refine Preserve.onlyIf _ ?_ | refine Preserve.cond ?_ ?_)
      | split
      | dsimp only

theorem queuePacket_inv (g ch : Nat) (bytes : List Nat) : Preserves State.Inv (queuePacket g ch bytes) := by
  unfold queuePacket
  repeat' first
    | (with_reducible first
         | exact setLinkGroup_inv .. | exact pump_inv .. | refine Preserve.andThen ?_ fun _ => ?_)

theorem sendOver_inv (ch node : Nat) (bytes : List Nat) (but : Option Nat) : Preserves State.Inv (sendOver ch node bytes but) := by
  unfold sendOver
  repeat' first
    | (with_reducible first
         | exact Preserve.read | exact Preserve.ret _ | exact queuePacket_inv ..
         | refine Preserve.readThen fun _ _ => ?_ | refine Preserve.andThen ?_ fun _ => ?_
         | refine Preserve.cond ?_ ?_)
    | (with_reducible refine Preserve.change fun _ h => ?_); exact h

theorem sendPacket_inv (ch node : Nat) (bytes : List Nat) : Preserves State.Inv (sendPacket ch node bytes) := by
  unfold sendPacket
  repeat' first
    | (with_reducible first
         | exact Preserve.skip | exact sendOver_inv .. | refine Preserve.andThen ?_ fun _ => ?_)

theorem sendAbort_inv (x : Xfer) : Preserves State.Inv (sendAbort x) := by
  unfold sendAbort
  repeat' first
    | (with_reducible first
         | exact Preserve.skip | exact Preserve.read | exact sendOver_inv .. | refine Preserve.readThen fun _ _ => ?_
         | refine Preserve.andThen ?_ fun _ => ?_)

theorem sendNotice_inv (code node mask : Nat) : Preserves State.Inv (sendNotice code node mask) := by
  unfold sendNotice
  repeat' first
    | (with_reducible first
         | exact Preserve.read | exact sendPacket_inv .. | exact raiseEvent_inv ..
         | refine Preserve.readThen fun _ _ => ?_ | refine Preserve.andThen ?_ fun _ => ?_
         | refine Preserve.each _ fun _ => ?_)

theorem setLinkStates_inv (gs : List Nat) (st : Nat) : Preserves State.Inv (setLinkStates gs st) := by
  unfold setLinkStates
  repeat' first
    | (with_reducible first
         | exact Preserve.read | exact setPar_inv .. | exact sendNotice_inv ..
         | refine Preserve.readThen fun _ _ => ?_ | refine Preserve.andThen ?_ fun _ => ?_
         | refine Preserve.onlyIf _ ?_ | refine Preserve.each _ fun _ => ?_)
    | (with_reducible refine Preserve.change fun _ h => ?_); exact h

theorem setLinkState_inv (g st : Nat) : Preserves State.Inv (setLinkState g st) := by
  unfold setLinkState
  repeat' first
    | (with_reducible first
         | exact setLinkStates_inv ..)

theorem quietLinks_inv (off : Bool) : Preserves State.Inv (quietLinks off) := by
  unfold quietLinks
  repeat' first
    | (with_reducible first
         | exact Preserve.read | exact setLinkStates_inv .. | refine Preserve.readThen fun _ _ => ?_
         | refine Preserve.andThen ?_ fun _ => ?_ | refine Preserve.cond ?_ ?_)

/-! ## Faults -/

theorem setMode_inv (m : ModuleState) : Preserves State.Inv (setMode m) := by
  unfold setMode
  repeat' first
    | (with_reducible first
         | exact Preserve.skip | exact Preserve.read | exact setPar_inv .. | exact raiseEvent_inv ..
         | refine Preserve.readThen fun _ _ => ?_ | refine Preserve.andThen ?_ fun _ => ?_
         | refine Preserve.cond ?_ ?_)
    | (with_reducible refine Preserve.change fun _ h => ?_); first | exact h | (cases m <;> exact h)

theorem noteFailed_inv (kind phys : Nat) : Preserves State.Inv (noteFailed kind phys) := by
  unfold noteFailed
  repeat' first
    | (with_reducible first
         | exact bump_inv .. | refine Preserve.andThen ?_ fun _ => ?_ | refine Preserve.cond ?_ ?_)
    | (with_reducible refine Preserve.change fun _ h => ?_); exact h

theorem dropCount_inv (sub kind : Nat) : Preserves State.Inv (dropCount sub kind) := by
  unfold dropCount
  repeat' first
    | (with_reducible first
         | exact Preserve.read | exact setPar_inv .. | exact sendNotice_inv ..
         | refine Preserve.readThen fun _ _ => ?_ | refine Preserve.andThen ?_ fun _ => ?_)
    | (with_reducible refine Preserve.change fun _ h => ?_); first | exact h | exact State.pend_inv (by decide) h

theorem reportBlock_inv (e err occ : Nat) : Preserves State.Inv (reportBlock e err occ) := by
  unfold reportBlock
  repeat' first
    | (with_reducible first
         | exact setEngine_inv ..)

theorem pauseCopies_inv (on : Bool) : Preserves State.Inv (pauseCopies on) := by
  unfold pauseCopies
  repeat' first
    | (with_reducible first
         | refine Preserve.andThen ?_ fun _ => ?_)
    | (with_reducible refine Preserve.change fun _ h => ?_); exact h

theorem cellFails_inv (e cell err occ : Nat) : Preserves State.Inv (cellFails e cell err occ) := by
  unfold cellFails
  repeat' first
    | (with_reducible first
         | exact Preserve.skip | exact Preserve.read | exact noteFailed_inv .. | exact recordFault_inv ..
         | exact setEngine_inv .. | exact reportBlock_inv .. | refine Preserve.readThen fun _ _ => ?_
         | refine Preserve.andThen ?_ fun _ => ?_ | refine Preserve.onlyIf _ ?_ | refine Preserve.cond ?_ ?_)

theorem spareCellJoin_inv (e : Nat) : Preserves State.Inv (spareCellJoin e) := by
  unfold spareCellJoin
  repeat' first
    | (with_reducible first
         | exact Preserve.skip | exact Preserve.read | exact setPar_inv .. | exact bump_inv ..
         | exact setEngine_inv .. | exact recordFault_inv .. | refine Preserve.readThen fun _ _ => ?_
         | refine Preserve.andThen ?_ fun _ => ?_ | refine Preserve.cond ?_ ?_)
    | (with_reducible refine Preserve.change fun _ h => ?_); exact h
    | split

theorem coreFails_inv (stack core err detail : Nat) : Preserves State.Inv (coreFails stack core err detail) := by
  unfold coreFails
  repeat' first
    | (with_reducible first
         | exact Preserve.read | exact noteFailed_inv .. | exact recordFault_inv .. | exact setPar_inv ..
         | exact bump_inv .. | exact dropCount_inv .. | refine Preserve.readThen fun _ _ => ?_
         | refine Preserve.andThen ?_ fun _ => ?_ | refine Preserve.cond ?_ ?_)
    | (with_reducible refine Preserve.change fun _ h => ?_); exact h

theorem dumpEngine_inv (e : Nat) : Preserves State.Inv (dumpEngine e) := by
  unfold dumpEngine
  repeat' first
    | (with_reducible first
         | refine Preserve.andThen ?_ fun _ => ?_ | refine Preserve.cond ?_ ?_)
    | (with_reducible refine Preserve.change fun _ h => ?_); exact h

theorem startDump_inv (reason fault mode : Nat) : Preserves State.Inv (startDump reason fault mode) := by
  unfold startDump
  repeat' first
    | (with_reducible first
         | exact Preserve.read | exact setPar_inv .. | refine Preserve.readThen fun _ _ => ?_
         | refine Preserve.andThen ?_ fun _ => ?_)
    | (with_reducible refine Preserve.change fun _ h => ?_); exact h

theorem completeDump_inv (late : List Nat) : Preserves State.Inv (completeDump late) := by
  unfold completeDump
  repeat' first
    | (with_reducible first
         | exact Preserve.skip | exact Preserve.read | exact setPar_inv .. | exact raiseEvent_inv ..
         | refine Preserve.readThen fun _ _ => ?_ | refine Preserve.andThen ?_ fun _ => ?_)
    | (with_reducible refine Preserve.change fun _ h => ?_); exact h
    | split

theorem setPower_inv (f : PowerSt → PowerSt) : Preserves State.Inv (setPower f) := by
  unfold setPower
  repeat' first
    | (with_reducible first
         | refine Preserve.andThen ?_ fun _ => ?_)
    | (with_reducible refine Preserve.change fun _ h => ?_); exact h

theorem setPennant_inv (n : Nat) (q : Pennant) : Preserves State.Inv (setPennant n q) := by
  unfold setPennant
  repeat' first
    | (with_reducible first
         | exact setPower_inv ..)

theorem accruePennant_inv (n : Nat) : Preserves State.Inv (accruePennant n) := by
  unfold accruePennant
  repeat' first
    | (with_reducible first
         | exact Preserve.skip | exact Preserve.read | exact bump_inv .. | exact setPennant_inv ..
         | refine Preserve.readThen fun _ _ => ?_ | refine Preserve.andThen ?_ fun _ => ?_
         | refine Preserve.cond ?_ ?_)
    | split
    | dsimp only

theorem quietPower_inv : Preserves State.Inv quietPower := by
  unfold quietPower
  repeat' first
    | (with_reducible first
         | exact Preserve.read | exact setPar_inv .. | exact setPower_inv .. | exact accruePennant_inv ..
         | exact setPennant_inv .. | refine Preserve.readThen fun _ _ => ?_ | refine Preserve.andThen ?_ fun _ => ?_
         | refine Preserve.onlyIf _ ?_ | refine Preserve.each _ fun _ => ?_)

theorem moduleFatal_inv (r : FaultRec) : Preserves State.Inv (moduleFatal r) := by
  unfold moduleFatal
  repeat' first
    | (with_reducible first
         | exact Preserve.skip | exact Preserve.read | exact recordFault_inv .. | exact sendNotice_inv ..
         | exact sendMsix_inv .. | exact raiseEvent_inv .. | exact startDump_inv .. | exact quietLinks_inv ..
         | exact setPar_inv .. | exact quietPower_inv .. | exact setMode_inv ..
         | refine Preserve.readThen fun _ _ => ?_ | refine Preserve.andThen ?_ fun _ => ?_
         | refine Preserve.onlyIf _ ?_ | refine Preserve.cond ?_ ?_ | refine Preserve.each _ fun _ => ?_)
    | (with_reducible refine Preserve.change fun _ h => ?_); exact h

theorem moveParts_inv (e dst' : Nat) : Preserves State.Inv (moveParts e dst') := by
  unfold moveParts
  repeat' first
    | (with_reducible first
         | exact Preserve.read | exact setEngine_inv .. | refine Preserve.readThen fun _ _ => ?_
         | refine Preserve.andThen ?_ fun _ => ?_ | refine Preserve.onlyIf _ ?_ | refine Preserve.each _ fun _ => ?_)

theorem retireEngine_inv (e err occ : Nat) : Preserves State.Inv (retireEngine e err occ) := by
  unfold retireEngine
  repeat' first
    | (with_reducible first
         | exact Preserve.skip | exact Preserve.read | exact noteFailed_inv .. | exact setEngine_inv ..
         | exact moduleFatal_inv .. | exact recordFault_inv .. | exact moveParts_inv .. | exact dropCount_inv ..
         | refine Preserve.readThen fun _ _ => ?_ | refine Preserve.andThen ?_ fun _ => ?_
         | refine Preserve.cond ?_ ?_)
    | split

theorem returnPasses_inv (w : Who) (list : Nat) (x0 : List Nat) : Preserves State.Inv (returnPasses w list x0) := by
  induction x0 with
  | nil =>
    unfold returnPasses
    repeat' first
      | (with_reducible first
           | exact Preserve.ret _)
  | cons y l ih =>
    unfold returnPasses
    repeat' first
      | (with_reducible first
           | exact ih .. | exact Preserve.ret _ | exact load_inv .. | exact storeVal_inv .. | exact bump_inv ..
           | refine Preserve.andThen ?_ fun _ => ?_)
      | split

theorem dropAtReset_inv (e p ctx desc index : Nat) : Preserves State.Inv (dropAtReset e p ctx desc index) := by
  unfold dropAtReset
  repeat' first
    | (with_reducible first
         | exact raiseEvent_inv .. | exact dropRefs_inv .. | refine Preserve.andThen ?_ fun _ => ?_)

theorem dropHead_inv (p ctx e : Nat) : Preserves State.Inv (dropHead p ctx e) := by
  unfold dropHead
  repeat' first
    | (with_reducible first
         | refine Preserve.andThen ?_ fun _ => ?_)
    | (with_reducible refine Preserve.change fun _ h => ?_); first | exact h | ((repeat' split) <;> exact h)

theorem againOrBroken_inv (p : Nat) : Preserves State.Inv (againOrBroken p) := by
  unfold againOrBroken
  repeat' first
    | (with_reducible first
         | exact setInst_inv ..)

theorem blockFailure_inv (e : Nat) (claimed : List Nat) : Preserves State.Inv (blockFailure e claimed) := by
  unfold blockFailure
  repeat' first
    | (with_reducible first
         | exact Preserve.skip | exact Preserve.read | exact noteFailed_inv .. | exact setPar_inv ..
         | exact bump_inv .. | exact setEngine_inv .. | exact recordFault_inv .. | exact retireEngine_inv ..
         | exact returnPasses_inv .. | exact signalCue_inv .. | exact dropAtReset_inv .. | exact againOrBroken_inv ..
         | exact dropHead_inv .. | refine Preserve.readThen fun _ _ => ?_ | refine Preserve.andThen ?_ fun _ => ?_
         | refine Preserve.onlyIf _ ?_ | refine Preserve.cond ?_ ?_)
    | (with_reducible refine Preserve.change fun _ h => ?_); exact h
    | split

theorem abortXfers_inv (e : Nat) (dropped : Option (Nat × Nat)) : Preserves State.Inv (abortXfers e dropped) := by
  unfold abortXfers
  repeat' first
    | (with_reducible first
         | exact Preserve.read | exact sendAbort_inv .. | refine Preserve.readThen fun _ _ => ?_
         | refine Preserve.andThen ?_ fun _ => ?_ | refine Preserve.cond ?_ ?_ | refine Preserve.each _ fun _ => ?_)
    | (with_reducible refine Preserve.change fun _ h => ?_); exact h

theorem startReset_inv (e cause : Nat) (lost : Option (Nat × Nat)) (sub detail : Nat) : Preserves State.Inv (startReset e cause lost sub detail) := by
  unfold startReset
  repeat' first
    | (with_reducible first
         | exact Preserve.skip | exact Preserve.read | exact dumpEngine_inv .. | exact abortXfers_inv ..
         | exact windowAdd_inv .. | exact setEngine_inv .. | exact recordFault_inv .. | exact bump_inv ..
         | refine Preserve.readThen fun _ _ => ?_ | refine Preserve.andThen ?_ fun _ => ?_
         | refine Preserve.cond ?_ ?_)

theorem endReset_inv (e : Nat) : Preserves State.Inv (endReset e) := by
  unfold endReset
  repeat' first
    | (with_reducible first
         | exact Preserve.skip | exact Preserve.read | exact dropAtReset_inv .. | exact dropHead_inv ..
         | exact againOrBroken_inv .. | exact raiseEvent_inv .. | exact setEngine_inv .. | exact reportBlock_inv ..
         | exact retireEngine_inv .. | refine Preserve.readThen fun _ _ => ?_ | refine Preserve.andThen ?_ fun _ => ?_
         | refine Preserve.onlyIf _ ?_ | refine Preserve.cond ?_ ?_ | refine Preserve.each _ fun _ => ?_)
    | split

theorem resetOverrun_inv (e : Nat) (fails : Bool) : Preserves State.Inv (resetOverrun e fails) := by
  unfold resetOverrun
  repeat' first
    | (with_reducible first
         | exact Preserve.read | exact moduleFatal_inv .. | refine Preserve.readThen fun _ _ => ?_
         | refine Preserve.andThen ?_ fun _ => ?_ | refine Preserve.onlyIf _ ?_)

theorem engineReset_inv (e : Nat) (lost : Option (Nat × Nat)) : Preserves State.Inv (engineReset e lost) := by
  unfold engineReset
  repeat' first
    | (with_reducible first
         | exact startReset_inv ..)

theorem watchdogExpiry_inv (e : Nat) (core : Option Nat) (lost : Option (Nat × Nat)) : Preserves State.Inv (watchdogExpiry e core lost) := by
  unfold watchdogExpiry
  repeat' first
    | (with_reducible first
         | exact Preserve.skip | exact Preserve.read | exact coreFails_inv .. | exact startReset_inv ..
         | refine Preserve.readThen fun _ _ => ?_ | refine Preserve.andThen ?_ fun _ => ?_
         | refine Preserve.onlyIf _ ?_ | refine Preserve.cond ?_ ?_)
    | split

theorem meshTimeout_inv (e target : Nat) (lost : Option (Nat × Nat)) : Preserves State.Inv (meshTimeout e target lost) := by
  unfold meshTimeout
  repeat' first
    | (with_reducible first
         | exact Preserve.skip | exact Preserve.read | exact setEngine_inv .. | exact recordFault_inv ..
         | exact moduleFatal_inv .. | exact startReset_inv .. | refine Preserve.readThen fun _ _ => ?_
         | refine Preserve.andThen ?_ fun _ => ?_ | refine Preserve.onlyIf _ ?_ | refine Preserve.cond ?_ ?_)
    | (with_reducible refine Preserve.change fun _ h => ?_); exact h

theorem loftFetchTimeout_inv (e : Nat) : Preserves State.Inv (loftFetchTimeout e) := by
  unfold loftFetchTimeout
  repeat' first
    | (with_reducible first
         | exact Preserve.read | exact setEngine_inv .. | exact recordFault_inv .. | exact reportBlock_inv ..
         | refine Preserve.readThen fun _ _ => ?_ | refine Preserve.andThen ?_ fun _ => ?_
         | refine Preserve.onlyIf _ ?_)

theorem heartbeatMiss_inv (core ms err : Nat) : Preserves State.Inv (heartbeatMiss core ms err) := by
  unfold heartbeatMiss
  repeat' first
    | (with_reducible first
         | exact Preserve.skip | exact Preserve.read | exact noteFailed_inv .. | exact recordFault_inv ..
         | exact setPar_inv .. | exact bump_inv .. | exact moduleFatal_inv .. | refine Preserve.readThen fun _ _ => ?_
         | refine Preserve.andThen ?_ fun _ => ?_ | refine Preserve.cond ?_ ?_)
    | (with_reducible refine Preserve.change fun _ h => ?_); exact h

theorem noteLending_inv (e used cycles : Nat) : Preserves State.Inv (noteLending e used cycles) := by
  unfold noteLending
  repeat' first
    | (with_reducible first
         | exact Preserve.read | exact setEngine_inv .. | exact bump_inv .. | refine Preserve.readThen fun _ _ => ?_
         | refine Preserve.andThen ?_ fun _ => ?_)

theorem cellLoan_inv (e cell idleNs used cycles : Nat) : Preserves State.Inv (cellLoan e cell idleNs used cycles) := by
  unfold cellLoan
  repeat' first
    | (with_reducible first
         | exact Preserve.skip | exact Preserve.read | exact noteLending_inv .. | exact setEngine_inv ..
         | refine Preserve.readThen fun _ _ => ?_ | refine Preserve.andThen ?_ fun _ => ?_
         | refine Preserve.cond ?_ ?_)

theorem istFail_inv (kind e sub : Nat) : Preserves State.Inv (istFail kind e sub) := by
  unfold istFail
  repeat' first
    | (with_reducible first
         | exact Preserve.read | exact setPar_inv .. | exact noteFailed_inv .. | exact recordFault_inv ..
         | exact setEngine_inv .. | exact cellFails_inv .. | exact coreFails_inv ..
         | refine Preserve.readThen fun _ _ => ?_ | refine Preserve.andThen ?_ fun _ => ?_
         | refine Preserve.cond ?_ ?_)

theorem istSlice_inv (kind e sub slice signature : Nat) (cut : Bool) : Preserves State.Inv (istSlice kind e sub slice signature cut) := by
  unfold istSlice
  repeat' first
    | (with_reducible first
         | exact Preserve.skip | exact Preserve.read | exact bump_inv .. | exact istFail_inv ..
         | refine Preserve.readThen fun _ _ => ?_ | refine Preserve.andThen ?_ fun _ => ?_
         | refine Preserve.cond ?_ ?_)
    | (with_reducible refine Preserve.change fun _ h => ?_); first | exact h | ((repeat' split) <;> exact h)
    | split
    | dsimp only

theorem istRotation_inv (kind e sub : Nat) : Preserves State.Inv (istRotation kind e sub) := by
  unfold istRotation
  repeat' first
    | (with_reducible first
         | exact Preserve.skip | exact Preserve.read | exact bump_inv .. | exact raiseEvent_inv ..
         | refine Preserve.readThen fun _ _ => ?_ | refine Preserve.andThen ?_ fun _ => ?_
         | refine Preserve.onlyIf _ ?_ | refine Preserve.cond ?_ ?_)
    | (with_reducible refine Preserve.change fun _ h => ?_); exact h

theorem enterFenced_inv : Preserves State.Inv enterFenced := by
  unfold enterFenced
  repeat' first
    | (with_reducible first
         | exact moduleFatal_inv ..)

theorem dumpStart_inv : Preserves State.Inv dumpStart := by
  unfold dumpStart
  repeat' first
    | (with_reducible first
         | exact Preserve.skip | exact Preserve.read | exact startDump_inv .. | refine Preserve.readThen fun _ _ => ?_
         | refine Preserve.andThen ?_ fun _ => ?_ | refine Preserve.cond ?_ ?_)

theorem faultLogCommit_inv : Preserves State.Inv faultLogCommit :=
  Preserve.change fun _ h => ⟨h.1, h.2.1, h.2.2⟩

/-! ## Blocks -/

theorem readAccIn_inv (v : MatEnv) (row n0 cnt : Nat) : Preserves State.Inv (readAccIn v row n0 cnt) := by
  unfold readAccIn
  repeat' first
    | (with_reducible first
         | exact Preserve.ret _ | exact load_inv .. | refine Preserve.andThen ?_ fun _ => ?_
         | refine Preserve.collect _ fun _ => ?_)
    | split

theorem noteDrain_inv (row col total : Nat) (ys : List Nat) (bad : Bool) : Preserves State.Inv (noteDrain row col total ys bad) := by
  unfold noteDrain
  repeat' first
    | (with_reducible first
         | refine Preserve.andThen ?_ fun _ => ?_)
    | (with_reducible refine Preserve.change fun _ h => ?_); exact h

theorem passDone_inv (v : MatEnv) (g subs : Nat) : Preserves State.Inv (passDone v g subs) := by
  unfold passDone
  repeat' first
    | (with_reducible first
         | exact Preserve.read | exact bump_inv .. | exact unitsDone_inv .. | refine Preserve.readThen fun _ _ => ?_
         | refine Preserve.andThen ?_ fun _ => ?_)

theorem runBand_inv (v : MatEnv) (c r0 rows g : Nat) : Preserves State.Inv (runBand v c r0 rows g) := by
  unfold runBand
  repeat' first
    | (with_reducible first
         | exact readRow_inv .. | exact readAccIn_inv .. | exact noteDrain_inv .. | exact writeOutputs_inv ..
         | exact store_inv .. | exact storePoison_inv .. | refine Preserve.andThen ?_ fun _ => ?_
         | refine Preserve.cond ?_ ?_ | refine Preserve.each _ fun _ => ?_ | refine Preserve.collect _ fun _ => ?_)

theorem runPass_inv (v : MatEnv) (c r0 rows g : Nat) : Preserves State.Inv (runPass v c r0 rows g) := by
  unfold runPass
  repeat' first
    | (with_reducible first
         | exact runBand_inv .. | exact passDone_inv .. | refine Preserve.andThen ?_ fun _ => ?_)

theorem runCombine_inv (v : MatEnv) (r0 rows g : Nat) : Preserves State.Inv (runCombine v r0 rows g) := by
  unfold runCombine
  repeat' first
    | (with_reducible first
         | exact load_inv .. | exact readAccIn_inv .. | exact noteDrain_inv .. | exact writeOutputs_inv ..
         | exact bump_inv .. | exact unitsDone_inv .. | refine Preserve.andThen ?_ fun _ => ?_
         | refine Preserve.each _ fun _ => ?_ | refine Preserve.collect _ fun _ => ?_)

theorem matmulPasses_inv (v : MatEnv) : Preserves State.Inv (matmulPasses v) := by
  unfold matmulPasses
  repeat' first
    | (with_reducible first
         | exact runPass_inv .. | exact runCombine_inv .. | refine Preserve.andThen ?_ fun _ => ?_
         | refine Preserve.onlyIf _ ?_ | refine Preserve.each _ fun _ => ?_)

theorem readAcc_inv (c : Cmd) (j : Job) (n : Nat) (seen : Clamped) : Preserves State.Inv (readAcc c j n seen) := by
  unfold readAcc
  repeat' first
    | (with_reducible first
         | exact Preserve.ret _ | exact readOperandOnce_inv .. | refine Preserve.andThen ?_ fun _ => ?_
         | refine Preserve.cond ?_ ?_)

theorem readMat_inv (c : Cmd) (j : Job) (wAddr nW : Nat) (out : Option Operand) : Preserves State.Inv (readMat c j wAddr nW out) := by
  unfold readMat
  repeat' first
    | (with_reducible first
         | exact Preserve.ret _ | exact readOperandOnce_inv .. | exact readAcc_inv ..
         | refine Preserve.andThen ?_ fun _ => ?_ | refine Preserve.cond ?_ ?_)
    | split

theorem jobEnv_inv (c : Cmd) (j : Job) (rows : Nat) (out : Option Operand) : Preserves State.Inv (jobEnv c j rows out) := by
  unfold jobEnv
  repeat' first
    | (with_reducible first
         | exact Preserve.ret _ | exact readMat_inv .. | exact clampDesc_inv ..
         | refine Preserve.andThen ?_ fun _ => ?_ | refine Preserve.cond ?_ ?_)
    | split

theorem matmulInto_inv (c : Cmd) (rows : Option Nat) (out : Option Operand) : Preserves State.Inv (matmulInto c rows out) := by
  unfold matmulInto
  repeat' first
    | (with_reducible first
         | exact Preserve.ret _ | exact load_inv .. | exact clampDesc_inv .. | exact jobEnv_inv ..
         | exact matmulPasses_inv .. | refine Preserve.andThen ?_ fun _ => ?_ | refine Preserve.cond ?_ ?_)
    | split

theorem bodyMatmul_inv (c : Cmd) : Preserves State.Inv (bodyMatmul c) := by
  unfold bodyMatmul
  repeat' first
    | (with_reducible first
         | exact matmulInto_inv ..)

theorem findItem_inv (w : Who) (list p : Nat) (x0 : Nat) (x1 : Nat) (x2 : Nat) : Preserves State.Inv (findItem w list p x0 x1 x2) := by
  induction x0 generalizing x1 x2 with
  | zero =>
    unfold findItem
    repeat' first
      | (with_reducible first
           | exact Preserve.ret _)
  | succ n ih =>
    unfold findItem
    repeat' first
      | (with_reducible first
           | exact ih .. | exact Preserve.ret _ | exact load_inv .. | refine Preserve.andThen ?_ fun _ => ?_
           | refine Preserve.cond ?_ ?_)

theorem readItem_inv (w : Who) (list p count : Nat) : Preserves State.Inv (readItem w list p count) := by
  unfold readItem
  repeat' first
    | (with_reducible first
         | exact Preserve.ret _ | exact findItem_inv .. | exact load_inv .. | refine Preserve.andThen ?_ fun _ => ?_
         | refine Preserve.cond ?_ ?_)
    | split

theorem claimPass_inv (w : Who) (list : Nat) : Preserves State.Inv (claimPass w list) := by
  unfold claimPass
  repeat' first
    | (with_reducible first
         | exact Preserve.ret _ | exact load_inv .. | exact storeVal_inv .. | refine Preserve.andThen ?_ fun _ => ?_
         | refine Preserve.cond ?_ ?_)
    | split
    | dsimp only

theorem donePass_inv (w : Who) (list : Nat) : Preserves State.Inv (donePass w list) := by
  unfold donePass
  repeat' first
    | (with_reducible first
         | exact load_inv .. | exact storeVal_inv .. | refine Preserve.andThen ?_ fun _ => ?_)

theorem runListPass_inv (c : Cmd) (list count : Nat) (j : Job) (aOp oOp : Operand) (cOp : Option Operand) (p : Nat)
    (st : ListRun) : Preserves State.Inv (runListPass c list count j aOp oOp cOp p st) := by
  unfold runListPass
  repeat' first
    | (with_reducible first
         | exact Preserve.ret _ | exact readItem_inv .. | exact clampDesc_inv .. | exact readOperandOnce_inv ..
         | exact runBand_inv .. | exact passDone_inv .. | refine Preserve.andThen ?_ fun _ => ?_
         | refine Preserve.onlyIf _ ?_ | refine Preserve.cond ?_ ?_)
    | split

theorem listLoop_inv (c : Cmd) (list count : Nat) (j : Job) (aOp oOp : Operand) (cOp : Option Operand) (x0 : Nat) (x1 : ListRun) : Preserves State.Inv (listLoop c list count j aOp oOp cOp x0 x1) := by
  induction x0 generalizing x1 with
  | zero =>
    unfold listLoop
    repeat' first
      | (with_reducible first
           | exact Preserve.ret _)
  | succ n ih =>
    unfold listLoop
    repeat' first
      | (with_reducible first
           | exact ih .. | exact Preserve.ret _ | exact claimPass_inv .. | exact runListPass_inv ..
           | exact donePass_inv .. | refine Preserve.andThen ?_ fun _ => ?_ | refine Preserve.cond ?_ ?_)
      | split

theorem runClaimed_inv (c : Cmd) (list count : Nat) (j : Job) (aOp oOp : Operand) (cOp : Option Operand) (x0 : List Nat) (x1 : ListRun) : Preserves State.Inv (runClaimed c list count j aOp oOp cOp x0 x1) := by
  induction x0 generalizing x1 with
  | nil =>
    unfold runClaimed
    repeat' first
      | (with_reducible first
           | exact Preserve.ret _)
  | cons y l ih =>
    unfold runClaimed
    repeat' first
      | (with_reducible first
           | exact ih .. | exact Preserve.ret _ | exact runListPass_inv .. | exact donePass_inv ..
           | refine Preserve.andThen ?_ fun _ => ?_ | refine Preserve.cond ?_ ?_)

theorem listPasses_inv (c : Cmd) (list h : Nat) (j : Job) (aOp oOp : Operand) (cOp : Option Operand) (recs : Clamped) : Preserves State.Inv (listPasses c list h j aOp oOp cOp recs) := by
  unfold listPasses
  repeat' first
    | (with_reducible first
         | exact Preserve.read | exact Preserve.ret _ | exact setEngine_inv .. | exact runClaimed_inv ..
         | exact listLoop_inv .. | refine Preserve.readThen fun _ _ => ?_ | refine Preserve.andThen ?_ fun _ => ?_
         | refine Preserve.cond ?_ ?_)
    | split
    | dsimp only

theorem bodyMatmulList_inv (c : Cmd) : Preserves State.Inv (bodyMatmulList c) := by
  unfold bodyMatmulList
  repeat' first
    | (with_reducible first
         | exact Preserve.ret _ | exact load_inv .. | exact clampDesc_inv .. | exact readOperandOnce_inv ..
         | exact readAcc_inv .. | exact listPasses_inv .. | refine Preserve.andThen ?_ fun _ => ?_
         | refine Preserve.cond ?_ ?_)

theorem runCombines_inv (v : MatEnv) (l : List (Nat × Nat)) : Preserves State.Inv (runCombines v l) := by
  unfold runCombines
  repeat' first
    | (with_reducible first
         | exact Preserve.ret _ | exact load_inv .. | exact runCombine_inv .. | refine Preserve.andThen ?_ fun _ => ?_
         | refine Preserve.cond ?_ ?_ | refine Preserve.foldState _ _ fun _ _ => ?_)

theorem paddedEnv_inv (c : Cmd) : Preserves State.Inv (paddedEnv c) := by
  unfold paddedEnv
  repeat' first
    | (with_reducible first
         | exact Preserve.ret _ | exact load_inv .. | exact clampDesc_inv .. | exact jobEnv_inv ..
         | refine Preserve.andThen ?_ fun _ => ?_ | refine Preserve.cond ?_ ?_)
    | split

theorem paddedShare_inv (c : Cmd) (v : MatEnv) (pad : Nat) : Preserves State.Inv (paddedShare c v pad) := by
  unfold paddedShare
  repeat' first
    | (with_reducible first
         | exact Preserve.ret _ | exact clampDesc_inv .. | exact runPass_inv .. | exact atomic_inv ..
         | exact runCombines_inv ..)
    | (with_reducible first
         | refine Preserve.andThen ?_ fun _ => ?_ | refine Preserve.onlyIf _ ?_ | refine Preserve.cond ?_ ?_
         | refine Preserve.foldState _ _ fun _ _ => ?_)

theorem bodyMatmulPadded_inv (c : Cmd) : Preserves State.Inv (bodyMatmulPadded c) := by
  unfold bodyMatmulPadded
  repeat' first
    | (with_reducible first
         | exact Preserve.ret _ | exact paddedEnv_inv .. | exact paddedShare_inv ..
         | refine Preserve.andThen ?_ fun _ => ?_)
    | split

theorem bodyVec_inv (op : Nat) (c : Cmd) : Preserves State.Inv (bodyVec op c) := by
  unfold bodyVec
  repeat' first
    | (with_reducible first
         | exact Preserve.ret _ | exact load_inv .. | exact clampDesc_inv .. | exact readOperandOnce_inv ..
         | exact readRow_inv .. | exact writeOutputs_inv .. | exact unitsDone_inv ..
         | refine Preserve.andThen ?_ fun _ => ?_ | refine Preserve.cond ?_ ?_ | refine Preserve.each _ fun _ => ?_)
    | split

/-! ## Codec -/

theorem setSlot_inv (i : Nat) (f : CodecSlot → CodecSlot) : Preserves State.Inv (setSlot i f) := by
  unfold setSlot
  repeat' first
    | (with_reducible first
         | refine Preserve.andThen ?_ fun _ => ?_)
    | (with_reducible refine Preserve.change fun _ h => ?_); exact h

theorem startLoad_inv (i : Nat) (l : PendLoad) : Preserves State.Inv (startLoad i l) := by
  unfold startLoad
  repeat' first
    | (with_reducible first
         | exact Preserve.ret _ | exact load_inv .. | exact clampDesc_inv .. | exact setPar_inv ..
         | exact setSlot_inv .. | refine Preserve.andThen ?_ fun _ => ?_)
    | split

theorem emptySlot_inv (i : Nat) : Preserves State.Inv (emptySlot i) := by
  unfold emptySlot
  repeat' first
    | (with_reducible first
         | exact Preserve.skip | exact Preserve.read | exact setPar_inv .. | exact setEff_inv ..
         | exact setSlot_inv .. | exact startLoad_inv .. | refine Preserve.readThen fun _ _ => ?_
         | refine Preserve.andThen ?_ fun _ => ?_)
    | split

theorem rewaitEncode_inv (i : Nat) (l : PendLoad) : Preserves State.Inv (rewaitEncode i l) := by
  unfold rewaitEncode
  repeat' first
    | (with_reducible first
         | exact Preserve.read | exact setEngine_inv .. | refine Preserve.readThen fun _ _ => ?_)

theorem requestLoad_inv (i : Nat) (l : PendLoad) : Preserves State.Inv (requestLoad i l) := by
  unfold requestLoad
  repeat' first
    | (with_reducible first
         | exact Preserve.skip | exact Preserve.read | exact startLoad_inv .. | exact signalCue_inv ..
         | exact rewaitEncode_inv .. | exact bump_inv .. | exact setSlot_inv ..
         | refine Preserve.readThen fun _ _ => ?_ | refine Preserve.andThen ?_ fun _ => ?_
         | refine Preserve.onlyIf _ ?_ | refine Preserve.cond ?_ ?_)
    | split

theorem bodyTableLoad_inv (c : Cmd) : Preserves State.Inv (bodyTableLoad c) := by
  unfold bodyTableLoad
  repeat' first
    | (with_reducible first
         | exact Preserve.read | exact Preserve.ret _ | exact clampDesc_inv .. | exact requestLoad_inv ..
         | refine Preserve.readThen fun _ _ => ?_ | refine Preserve.andThen ?_ fun _ => ?_
         | refine Preserve.cond ?_ ?_)

theorem bodyTableRetire_inv (c : Cmd) : Preserves State.Inv (bodyTableRetire c) := by
  unfold bodyTableRetire
  repeat' first
    | (with_reducible first
         | exact Preserve.read | exact Preserve.ret _ | exact clampDesc_inv .. | exact setPar_inv ..
         | exact emptySlot_inv .. | refine Preserve.readThen fun _ _ => ?_ | refine Preserve.andThen ?_ fun _ => ?_
         | refine Preserve.onlyIf _ ?_ | refine Preserve.cond ?_ ?_)

theorem bodyTableSave_inv (c : Cmd) : Preserves State.Inv (bodyTableSave c) := by
  unfold bodyTableSave
  repeat' first
    | (with_reducible first
         | exact Preserve.read | exact Preserve.ret _ | exact clampDesc_inv .. | exact store_inv ..
         | refine Preserve.readThen fun _ _ => ?_ | refine Preserve.andThen ?_ fun _ => ?_
         | refine Preserve.cond ?_ ?_)

theorem loadComplete_inv (i : Nat) : Preserves State.Inv (loadComplete i) := by
  unfold loadComplete
  repeat' first
    | (with_reducible first
         | exact Preserve.skip | exact Preserve.read | exact setPar_inv .. | exact setSlot_inv ..
         | exact signalCue_inv .. | refine Preserve.readThen fun _ _ => ?_ | refine Preserve.andThen ?_ fun _ => ?_
         | refine Preserve.onlyIf _ ?_)
    | split

theorem decodeOne_inv (w : Who) (p src hdr i dst limit : Nat) (hdrBad : Bool) (base : Option Nat) : Preserves State.Inv (decodeOne w p src hdr i dst limit hdrBad base) := by
  unfold decodeOne
  repeat' first
    | (with_reducible first
         | exact Preserve.read | exact Preserve.ret _ | exact load_inv .. | exact clampDesc_inv .. | exact bump_inv ..
         | exact store_inv .. | exact storePoison_inv .. | refine Preserve.readThen fun _ _ => ?_
         | refine Preserve.andThen ?_ fun _ => ?_ | refine Preserve.onlyIf _ ?_ | refine Preserve.cond ?_ ?_)
    | split

theorem bodyDecode_inv (c : Cmd) : Preserves State.Inv (bodyDecode c) := by
  unfold bodyDecode
  repeat' first
    | (with_reducible first
         | exact Preserve.ret _ | exact load_inv .. | exact clampDesc_inv .. | exact decodeOne_inv ..
         | exact unitsDone_inv .. | refine Preserve.andThen ?_ fun _ => ?_ | refine Preserve.cond ?_ ?_
         | refine Preserve.each _ fun _ => ?_)

theorem writeBlocks_inv (w : Who) (dst : Nat) (x0 : List (EncBlock × Bool)) (x1 : Nat) : Preserves State.Inv (writeBlocks w dst x0 x1) := by
  induction x0 generalizing x1 with
  | nil =>
    unfold writeBlocks
    repeat' first
      | (with_reducible first
           | exact Preserve.ret _)
  | cons y l ih =>
    unfold writeBlocks
    repeat' first
      | (with_reducible first
           | exact ih .. | exact Preserve.ret _ | exact store_inv .. | exact storePoison_inv ..
           | refine Preserve.andThen ?_ fun _ => ?_ | refine Preserve.onlyIf _ ?_)

theorem encodeExtent_inv (w : Who) (p src dst base len mode slot : Nat) : Preserves State.Inv (encodeExtent w p src dst base len mode slot) := by
  unfold encodeExtent
  repeat' first
    | (with_reducible first
         | exact Preserve.read | exact Preserve.ret _ | exact load_inv .. | exact writeBlocks_inv ..
         | exact store_inv .. | exact storeVal_inv .. | exact bump_inv .. | refine Preserve.readThen fun _ _ => ?_
         | refine Preserve.andThen ?_ fun _ => ?_ | refine Preserve.cond ?_ ?_ | refine Preserve.collect _ fun _ => ?_)

theorem encodeBuild_inv (w : Who) (src base len mode : Nat) : Preserves State.Inv (encodeBuild w src base len mode) := by
  unfold encodeBuild
  repeat' first
    | (with_reducible first
         | exact Preserve.ret _ | exact load_inv .. | refine Preserve.andThen ?_ fun _ => ?_
         | refine Preserve.cond ?_ ?_)

theorem encodePass2_inv (c : Cmd) : Preserves State.Inv (encodePass2 c) := by
  unfold encodePass2
  repeat' first
    | (with_reducible first
         | exact Preserve.ret _ | exact takeRef_inv .. | exact encodeExtent_inv .. | exact unitsDone_inv ..
         | refine Preserve.andThen ?_ fun _ => ?_ | refine Preserve.onlyIf _ ?_)

theorem bodyEncode_inv (c : Cmd) : Preserves State.Inv (bodyEncode c) := by
  unfold bodyEncode
  repeat' first
    | (with_reducible first
         | exact Preserve.read | exact Preserve.ret _ | exact clampDesc_inv .. | exact encodePass2_inv ..
         | exact encodeBuild_inv .. | exact unitsDone_inv .. | exact requestLoad_inv ..
         | refine Preserve.readThen fun _ _ => ?_ | refine Preserve.andThen ?_ fun _ => ?_
         | refine Preserve.cond ?_ ?_)

/-! ## Sampling -/

theorem bodySample_inv (c : Cmd) : Preserves State.Inv (bodySample c) := by
  unfold bodySample
  repeat' first
    | (with_reducible first
         | exact Preserve.skip | exact Preserve.ret _ | exact clampDesc_inv .. | exact readCoded_inv ..
         | exact readRow_inv .. | exact load_inv .. | exact storeVal_inv .. | exact markPoisoned_inv ..
         | refine Preserve.andThen ?_ fun _ => ?_ | refine Preserve.onlyIf _ ?_ | refine Preserve.cond ?_ ?_
         | refine Preserve.foldState _ _ fun _ _ => ?_)
    | split

/-! ## Prefix -/

theorem setNode_inv (n : Nat) (f : PNode → PNode) : Preserves State.Inv (setNode n f) := by
  unfold setNode
  repeat' first
    | (with_reducible first
         | refine Preserve.andThen ?_ fun _ => ?_)
    | (with_reducible refine Preserve.change fun _ h => ?_); exact h

theorem freeIndex_inv (p : Nat) : Preserves State.Inv (freeIndex p) := by
  unfold freeIndex
  repeat' first
    | (with_reducible first
         | exact Preserve.read | exact dropFrame_inv .. | refine Preserve.readThen fun _ _ => ?_
         | refine Preserve.andThen ?_ fun _ => ?_ | refine Preserve.onlyIf _ ?_ | refine Preserve.each _ fun _ => ?_)
    | (with_reducible refine Preserve.change fun _ h => ?_); exact h

theorem loseNode_inv (n : Nat) : Preserves State.Inv (loseNode n) := by
  unfold loseNode
  repeat' first
    | (with_reducible first
         | exact Preserve.read | exact bump_inv .. | exact recordFault_inv .. | exact setNode_inv ..
         | refine Preserve.readThen fun _ _ => ?_ | refine Preserve.andThen ?_ fun _ => ?_
         | refine Preserve.onlyIf _ ?_)

theorem readGroup_inv (p group : Nat) : Preserves State.Inv (readGroup p group) := by
  unfold readGroup
  repeat' first
    | (with_reducible first
         | exact Preserve.read | exact Preserve.ret _ | exact loseNode_inv .. | refine Preserve.readThen fun _ _ => ?_
         | refine Preserve.andThen ?_ fun _ => ?_ | refine Preserve.each _ fun _ => ?_)

theorem findNode_inv (p group holder valid : Nat) (key : Nat × Nat) : Preserves State.Inv (findNode p group holder valid key) := by
  unfold findNode
  repeat' first
    | (with_reducible first
         | exact Preserve.read | exact Preserve.ret _ | exact readGroup_inv ..
         | refine Preserve.readThen fun _ _ => ?_ | refine Preserve.andThen ?_ fun _ => ?_)

theorem attachFrames_inv (p slate j : Nat) (frames : List Nat) : Preserves State.Inv (attachFrames p slate j frames) := by
  unfold attachFrames
  repeat' first
    | (with_reducible first
         | exact shareFrame_inv .. | refine Preserve.andThen ?_ fun _ => ?_ | refine Preserve.cond ?_ ?_
         | refine Preserve.each _ fun _ => ?_)
    | (with_reducible refine Preserve.change fun _ h => ?_); exact h

theorem applyAttach_inv (p entry : Nat) : Preserves State.Inv (applyAttach p entry) := by
  unfold applyAttach
  repeat' first
    | (with_reducible first
         | exact Preserve.read | exact attachFrames_inv .. | refine Preserve.readThen fun _ _ => ?_)

theorem allocCopy_inv (p entry : Nat) : Preserves State.Inv (allocCopy p entry) := by
  unfold allocCopy
  repeat' first
    | (with_reducible first
         | exact allocFrame_inv ..)

theorem applyCopy_inv (p entry : Nat) : Preserves State.Inv (applyCopy p entry) := by
  unfold applyCopy
  repeat' first
    | (with_reducible first
         | exact Preserve.skip | exact Preserve.read | exact load_inv .. | exact store_inv ..
         | exact storePoison_inv .. | exact bump_inv .. | refine Preserve.readThen fun _ _ => ?_
         | refine Preserve.andThen ?_ fun _ => ?_ | refine Preserve.each _ fun _ => ?_)
    | split

theorem applyInsert_inv (p entry : Nat) : Preserves State.Inv (applyInsert p entry) := by
  unfold applyInsert
  repeat' first
    | (with_reducible first
         | exact Preserve.read | exact shareFrame_inv .. | exact setNode_inv ..
         | refine Preserve.readThen fun _ _ => ?_ | refine Preserve.andThen ?_ fun _ => ?_
         | refine Preserve.onlyIf _ ?_ | refine Preserve.each _ fun _ => ?_)

theorem applyEvict_inv (entry : Nat) (p : Nat) : Preserves State.Inv (applyEvict entry p) := by
  unfold applyEvict
  repeat' first
    | (with_reducible first
         | exact Preserve.read | exact bump_inv .. | exact dropFrame_inv .. | exact setNode_inv ..
         | refine Preserve.readThen fun _ _ => ?_ | refine Preserve.andThen ?_ fun _ => ?_
         | refine Preserve.onlyIf _ ?_ | refine Preserve.cond ?_ ?_ | refine Preserve.each _ fun _ => ?_)

theorem writeExtents_inv (w : Who) (p slot base : Nat) (x0 : List (Nat × Nat)) (x1 : Nat) : Preserves State.Inv (writeExtents w p slot base x0 x1) := by
  induction x0 generalizing x1 with
  | nil =>
    unfold writeExtents
    repeat' first
      | (with_reducible first
           | exact Preserve.ret _)
  | cons y l ih =>
    unfold writeExtents
    repeat' first
      | (with_reducible first
           | exact ih .. | exact Preserve.ret _ | exact encodeExtent_inv .. | refine Preserve.andThen ?_ fun _ => ?_)

theorem applyPark_inv (p entry : Nat) : Preserves State.Inv (applyPark p entry) := by
  unfold applyPark
  repeat' first
    | (with_reducible first
         | exact Preserve.skip | exact Preserve.read | exact writeExtents_inv .. | exact store_inv ..
         | exact setInst_inv .. | refine Preserve.readThen fun _ _ => ?_ | refine Preserve.andThen ?_ fun _ => ?_
         | refine Preserve.cond ?_ ?_)
    | split
    | dsimp only

theorem decodeExtent_inv (w : Who) (p src dst n : Nat) : Preserves State.Inv (decodeExtent w p src dst n) := by
  unfold decodeExtent
  repeat' first
    | (with_reducible first
         | exact load_inv .. | exact decodeOne_inv .. | refine Preserve.andThen ?_ fun _ => ?_
         | refine Preserve.each _ fun _ => ?_)

theorem allocUnpark_inv (p entry : Nat) : Preserves State.Inv (allocUnpark p entry) := by
  unfold allocUnpark
  repeat' first
    | (with_reducible first
         | exact Preserve.skip | exact Preserve.read | exact allocOn_inv .. | exact setInst_inv ..
         | refine Preserve.readThen fun _ _ => ?_ | refine Preserve.andThen ?_ fun _ => ?_
         | refine Preserve.each _ fun _ => ?_)
    | split
    | dsimp only

theorem applyUnpark_inv (p entry : Nat) : Preserves State.Inv (applyUnpark p entry) := by
  unfold applyUnpark
  repeat' first
    | (with_reducible first
         | exact Preserve.skip | exact Preserve.read | exact load_inv .. | exact storePoison_inv ..
         | exact decodeExtent_inv .. | exact setInst_inv .. | refine Preserve.readThen fun _ _ => ?_
         | refine Preserve.andThen ?_ fun _ => ?_ | refine Preserve.onlyIf _ ?_ | refine Preserve.cond ?_ ?_
         | refine Preserve.each _ fun _ => ?_)
    | split
    | dsimp only

/-! ## Slates -/

theorem setSlate_inv (p slate : Nat) (f : Nat → Nat) : Preserves State.Inv (setSlate p slate f) := by
  unfold setSlate
  repeat' first
    | (with_reducible first
         | exact Preserve.read | exact storeVal_inv .. | refine Preserve.readThen fun _ _ => ?_)

theorem setSeq_inv (p slate : Nat) (f : LeadSeq → LeadSeq) : Preserves State.Inv (setSeq p slate f) := by
  unfold setSeq
  repeat' first
    | (with_reducible first
         | exact setInst_inv ..)

theorem syncMaps_inv (p : Nat) : Preserves State.Inv (syncMaps p) := by
  unfold syncMaps
  repeat' first
    | (with_reducible first
         | exact Preserve.read | exact store_inv .. | exact setSeq_inv .. | refine Preserve.readThen fun _ _ => ?_
         | refine Preserve.andThen ?_ fun _ => ?_ | refine Preserve.onlyIf _ ?_ | refine Preserve.each _ fun _ => ?_)

theorem takeSubmit_inv (p e : Nat) : Preserves State.Inv (takeSubmit p e) := by
  unfold takeSubmit
  repeat' first
    | (with_reducible first
         | exact Preserve.read | exact clampDesc_inv .. | exact bump_inv .. | exact storeVal_inv ..
         | exact setInst_inv .. | refine Preserve.readThen fun _ _ => ?_ | refine Preserve.andThen ?_ fun _ => ?_
         | refine Preserve.onlyIf _ ?_ | refine Preserve.cond ?_ ?_)

theorem takePark_inv (p e : Nat) (unpark : Bool) : Preserves State.Inv (takePark p e unpark) := by
  unfold takePark
  repeat' first
    | (with_reducible first
         | exact Preserve.read | exact clampDesc_inv .. | exact bump_inv .. | exact setSlate_inv ..
         | exact setInst_inv .. | refine Preserve.readThen fun _ _ => ?_ | refine Preserve.andThen ?_ fun _ => ?_
         | refine Preserve.onlyIf _ ?_ | refine Preserve.cond ?_ ?_)

theorem readRequest_inv (p : Nat) : Preserves State.Inv (readRequest p) := by
  unfold readRequest
  repeat' first
    | (with_reducible first
         | exact Preserve.read | exact load_inv .. | refine Preserve.readThen fun _ _ => ?_)

theorem takeRequest_inv (p : Nat) : Preserves State.Inv (takeRequest p) := by
  unfold takeRequest
  repeat' first
    | (with_reducible first
         | exact Preserve.skip | exact Preserve.read | exact readRequest_inv .. | exact setDoor_inv ..
         | exact takeSubmit_inv .. | exact takePark_inv .. | exact clampDesc_inv ..
         | refine Preserve.readThen fun _ _ => ?_ | refine Preserve.andThen ?_ fun _ => ?_
         | refine Preserve.cond ?_ ?_)
    | split

theorem takeRequestOf_inv (p kind : Nat) : Preserves State.Inv (takeRequestOf p kind) := by
  unfold takeRequestOf
  repeat' first
    | (with_reducible first
         | exact Preserve.skip | exact Preserve.read | exact takeRequest_inv .. | exact setInst_inv ..
         | refine Preserve.readThen fun _ _ => ?_ | refine Preserve.andThen ?_ fun _ => ?_
         | refine Preserve.onlyIf _ ?_ | refine Preserve.cond ?_ ?_)

theorem takeCancel_inv (p : Nat) : Preserves State.Inv (takeCancel p) := by
  unfold takeCancel
  repeat' first
    | (with_reducible first
         | exact Preserve.read | exact load_inv .. | exact setDoor_inv .. | exact setSlate_inv .. | exact bump_inv ..
         | refine Preserve.readThen fun _ _ => ?_ | refine Preserve.andThen ?_ fun _ => ?_
         | refine Preserve.cond ?_ ?_)

theorem storeTwice_inv (a : Nat) (bs : List Nat) : Preserves State.Inv (storeTwice a bs) := by
  unfold storeTwice
  repeat' first
    | (with_reducible first
         | exact store_inv .. | refine Preserve.andThen ?_ fun _ => ?_)

theorem readCopies_inv (a b : Nat) (whole : List Nat) : Preserves State.Inv (readCopies a b whole) := by
  unfold readCopies
  repeat' first
    | (with_reducible first
         | exact Preserve.read | exact moduleFatal_inv .. | exact store_inv ..
         | refine Preserve.readThen fun _ _ => ?_ | refine Preserve.andThen ?_ fun _ => ?_
         | refine Preserve.onlyIf _ ?_ | refine Preserve.cond ?_ ?_)

theorem readReels_inv (p : Nat) : Preserves State.Inv (readReels p) := by
  unfold readReels
  repeat' first
    | (with_reducible first
         | exact Preserve.read | exact readCopies_inv .. | refine Preserve.readThen fun _ _ => ?_
         | refine Preserve.andThen ?_ fun _ => ?_ | refine Preserve.each _ fun _ => ?_)

/-! ## Plan -/

theorem latchParams_inv (p : Nat) (l : List Nat) : Preserves State.Inv (latchParams p l) := by
  unfold latchParams
  repeat' first
    | (with_reducible first
         | exact par_inv .. | exact setEff_inv .. | refine Preserve.andThen ?_ fun _ => ?_
         | refine Preserve.each _ fun _ => ?_)

theorem planLatch_inv (p : Nat) : Preserves State.Inv (planLatch p) := by
  unfold planLatch
  repeat' first
    | (with_reducible first
         | exact latchParams_inv .. | refine Preserve.andThen ?_ fun _ => ?_)
    | (with_reducible refine Preserve.change fun _ h => ?_); first | exact h | ((repeat' split) <;> exact h)

theorem addRun_inv (p : Nat) (x : Planning) (q : LeadSeq) (d : Nat) (join : Bool) : Preserves State.Inv (addRun p x q d join) := by
  unfold addRun
  repeat' first
    | (with_reducible first
         | exact Preserve.read | exact Preserve.ret _ | exact setSeq_inv .. | exact setSlate_inv ..
         | refine Preserve.readThen fun _ _ => ?_ | refine Preserve.andThen ?_ fun _ => ?_)

theorem planJoin_inv (p : Nat) (x : Planning) (q : LeadSeq) : Preserves State.Inv (planJoin p x q) := by
  unfold planJoin
  repeat' first
    | (with_reducible first
         | exact Preserve.read | exact Preserve.ret _ | exact addRun_inv .. | exact bump_inv ..
         | refine Preserve.readThen fun _ _ => ?_ | refine Preserve.andThen ?_ fun _ => ?_
         | refine Preserve.cond ?_ ?_)
    | split

theorem planRunning_inv (p : Nat) (x : Planning) (q : LeadSeq) : Preserves State.Inv (planRunning p x q) := by
  unfold planRunning
  repeat' first
    | (with_reducible first
         | exact Preserve.read | exact Preserve.ret _ | exact addRun_inv .. | exact raiseEvent_inv ..
         | exact bump_inv .. | refine Preserve.readThen fun _ _ => ?_ | refine Preserve.andThen ?_ fun _ => ?_
         | refine Preserve.cond ?_ ?_ | refine Preserve.each _ fun _ => ?_)
    | split

theorem evictNode_inv (p n : Nat) (x : Planning) : Preserves State.Inv (evictNode p n x) := by
  unfold evictNode
  repeat' first
    | (with_reducible first
         | exact Preserve.read | exact Preserve.ret _ | exact setNode_inv .. | exact bump_inv ..
         | refine Preserve.readThen fun _ _ => ?_ | refine Preserve.andThen ?_ fun _ => ?_
         | refine Preserve.onlyIf _ ?_)

theorem evictRank_inv (p rank keep : Nat) (x0 : Nat) (x1 : Nat) (x2 : Planning) : Preserves State.Inv (evictRank p rank keep x0 x1 x2) := by
  induction x0 generalizing x1 x2 with
  | zero =>
    unfold evictRank
    repeat' first
      | (with_reducible first
           | exact Preserve.read | exact Preserve.ret _)
  | succ n ih =>
    unfold evictRank
    repeat' first
      | (with_reducible first
           | exact ih .. | exact Preserve.read | exact Preserve.ret _ | exact evictNode_inv ..
           | refine Preserve.readThen fun _ _ => ?_ | refine Preserve.andThen ?_ fun _ => ?_
           | refine Preserve.cond ?_ ?_)
      | split

theorem trimIndex_inv (p : Nat) (x : Planning) : Preserves State.Inv (trimIndex p x) := by
  unfold trimIndex
  repeat' first
    | (with_reducible first
         | exact Preserve.read | exact evictRank_inv .. | refine Preserve.readThen fun _ _ => ?_
         | refine Preserve.andThen ?_ fun _ => ?_ | refine Preserve.foldState _ _ fun _ _ => ?_)

theorem readPrompt_inv (a n : Nat) : Preserves State.Inv (readPrompt a n) := by
  unfold readPrompt
  repeat' first
    | (with_reducible first
         | exact Preserve.ret _ | exact load_inv .. | refine Preserve.andThen ?_ fun _ => ?_)

theorem matchFull_inv (p home : Nat) (keys : List (Nat × Nat)) (x0 : Nat) (x1 : Nat) : Preserves State.Inv (matchFull p home keys x0 x1) := by
  induction x0 generalizing x1 with
  | zero =>
    unfold matchFull
    repeat' first
      | (with_reducible first
           | exact Preserve.read | exact Preserve.ret _)
  | succ n ih =>
    unfold matchFull
    repeat' first
      | (with_reducible first
           | exact ih .. | exact Preserve.read | exact Preserve.ret _ | exact findNode_inv ..
           | refine Preserve.readThen fun _ _ => ?_ | refine Preserve.andThen ?_ fun _ => ?_)
      | split

theorem matchPartial_inv (p home root : Nat) (keys : List (Nat × Nat)) (m : Nat) (x0 : Nat) : Preserves State.Inv (matchPartial p home root keys m x0) := by
  induction x0 with
  | zero =>
    unfold matchPartial
    repeat' first
      | (with_reducible first
           | exact Preserve.read | exact Preserve.ret _)
  | succ n ih =>
    unfold matchPartial
    repeat' first
      | (with_reducible first
           | exact ih .. | exact Preserve.read | exact Preserve.ret _ | exact findNode_inv ..
           | refine Preserve.readThen fun _ _ => ?_ | refine Preserve.andThen ?_ fun _ => ?_
           | refine Preserve.cond ?_ ?_)
      | split

theorem matchPrompt_inv (p home salt variant : Nat) (tokens : List Nat) : Preserves State.Inv (matchPrompt p home salt variant tokens) := by
  unfold matchPrompt
  repeat' first
    | (with_reducible first
         | exact Preserve.ret _ | exact matchFull_inv .. | exact matchPartial_inv ..
         | refine Preserve.andThen ?_ fun _ => ?_ | refine Preserve.cond ?_ ?_)

theorem guardNode_inv (p n : Nat) : Preserves State.Inv (guardNode p n) := by
  unfold guardNode
  repeat' first
    | (with_reducible first
         | exact setInst_inv ..)

theorem touchNode_inv (p n : Nat) (f : PNode → PNode) : Preserves State.Inv (touchNode p n f) := by
  unfold touchNode
  repeat' first
    | (with_reducible first
         | exact Preserve.read | exact setNode_inv .. | exact guardNode_inv ..
         | refine Preserve.readThen fun _ _ => ?_ | refine Preserve.andThen ?_ fun _ => ?_)

theorem planInsert_inv (p slate j v root : Nat) (keys : List (Nat × Nat)) (x : Planning) : Preserves State.Inv (planInsert p slate j v root keys x) := by
  unfold planInsert
  repeat' first
    | (with_reducible first
         | exact Preserve.read | exact Preserve.ret _ | exact readGroup_inv .. | exact setSeq_inv ..
         | exact bump_inv .. | exact evictNode_inv .. | exact touchNode_inv .. | exact guardNode_inv ..
         | refine Preserve.readThen fun _ _ => ?_ | refine Preserve.andThen ?_ fun _ => ?_
         | refine Preserve.onlyIf _ ?_ | refine Preserve.cond ?_ ?_)
    | split
    | dsimp only

theorem noteMatch_inv (p slate : Nat) (m : Match) : Preserves State.Inv (noteMatch p slate m) := by
  unfold noteMatch
  repeat' first
    | (with_reducible first
         | exact bump_inv .. | exact touchNode_inv .. | exact setSeq_inv .. | refine Preserve.andThen ?_ fun _ => ?_
         | refine Preserve.each _ fun _ => ?_)

theorem noteChunk_inv (p slate stop : Nat) : Preserves State.Inv (noteChunk p slate stop) := by
  unfold noteChunk
  repeat' first
    | (with_reducible first
         | exact setSlate_inv .. | refine Preserve.andThen ?_ fun _ => ?_)
    | (with_reducible refine Preserve.change fun _ h => ?_); first | exact h | ((repeat' split) <;> exact h)

theorem planChunk_inv (p : Nat) (x : Planning) (q : LeadSeq) : Preserves State.Inv (planChunk p x q) := by
  unfold planChunk
  repeat' first
    | (with_reducible first
         | exact Preserve.read | exact Preserve.ret _ | exact setSlate_inv .. | exact readPrompt_inv ..
         | exact matchPrompt_inv .. | exact noteMatch_inv .. | exact noteChunk_inv .. | exact planInsert_inv ..
         | refine Preserve.readThen fun _ _ => ?_ | refine Preserve.andThen ?_ fun _ => ?_
         | refine Preserve.onlyIf _ ?_ | refine Preserve.cond ?_ ?_ | refine Preserve.foldState _ _ fun _ _ => ?_)

theorem ungrant_inv (p : Nat) (x : Planning) (q : LeadSeq) : Preserves State.Inv (ungrant p x q) := by
  unfold ungrant
  repeat' first
    | (with_reducible first
         | exact Preserve.skip | exact setSeq_inv .. | exact setSlate_inv .. | refine Preserve.andThen ?_ fun _ => ?_)
    | split

theorem planPark_inv (p : Nat) (q : LeadSeq) (target : Nat) (x : Planning) : Preserves State.Inv (planPark p q target x) := by
  unfold planPark
  repeat' first
    | (with_reducible first
         | exact Preserve.read | exact Preserve.ret _ | exact ungrant_inv .. | exact setSeq_inv ..
         | refine Preserve.readThen fun _ _ => ?_ | refine Preserve.andThen ?_ fun _ => ?_
         | refine Preserve.cond ?_ ?_)
    | split

theorem planParks_inv (p : Nat) (x : Planning) : Preserves State.Inv (planParks p x) := by
  unfold planParks
  repeat' first
    | (with_reducible first
         | exact Preserve.read | exact Preserve.ret _ | exact planPark_inv .. | refine Preserve.readThen fun _ _ => ?_
         | refine Preserve.andThen ?_ fun _ => ?_ | refine Preserve.cond ?_ ?_
         | refine Preserve.foldState _ _ fun _ _ => ?_)
    | split

theorem planUnparks_inv (p : Nat) (x : Planning) : Preserves State.Inv (planUnparks p x) := by
  unfold planUnparks
  repeat' first
    | (with_reducible first
         | exact Preserve.read | exact Preserve.ret _ | refine Preserve.readThen fun _ _ => ?_
         | refine Preserve.andThen ?_ fun _ => ?_ | refine Preserve.cond ?_ ?_
         | refine Preserve.foldState _ _ fun _ _ => ?_)
    | split

theorem planPressure_inv (p : Nat) (x : Planning) : Preserves State.Inv (planPressure p x) := by
  unfold planPressure
  repeat' first
    | (with_reducible first
         | exact Preserve.read | exact Preserve.ret _ | exact evictRank_inv .. | exact planPark_inv ..
         | refine Preserve.readThen fun _ _ => ?_ | refine Preserve.andThen ?_ fun _ => ?_
         | refine Preserve.cond ?_ ?_ | refine Preserve.foldState _ _ fun _ _ => ?_)
    | split

theorem planStep_inv (p story : Nat) : Preserves State.Inv (planStep p story) := by
  unfold planStep
  repeat' first
    | (with_reducible first
         | exact Preserve.read | exact planLatch_inv .. | exact setInst_inv .. | exact takeRequest_inv ..
         | exact planParks_inv .. | exact planJoin_inv .. | exact planUnparks_inv .. | exact planRunning_inv ..
         | exact planChunk_inv .. | exact planPressure_inv .. | exact trimIndex_inv .. | exact plan_inv ..
         | exact syncMaps_inv .. | exact storeTwice_inv .. | exact emit_inv ..
         | refine Preserve.readThen fun _ _ => ?_ | refine Preserve.andThen ?_ fun _ => ?_
         | refine Preserve.cond ?_ ?_ | refine Preserve.each _ fun _ => ?_
         | refine Preserve.foldState _ _ fun _ _ => ?_)

theorem plan_inv (p story : Nat) : Preserves State.Inv (plan p story) := by
  unfold plan
  repeat' first
    | (with_reducible first
         | exact Preserve.read | exact planStep_inv .. | refine Preserve.readThen fun _ _ => ?_
         | refine Preserve.andThen ?_ fun _ => ?_ | refine Preserve.onlyIf _ ?_)

/-! ## Norm -/

theorem putArmed_inv (p : Nat) : Preserves State.Inv (putArmed p) := by
  unfold putArmed
  repeat' first
    | (with_reducible first
         | exact Preserve.read | exact setPar_inv .. | refine Preserve.readThen fun _ _ => ?_)

theorem updateBaselines_inv (p : Nat) : Preserves State.Inv (updateBaselines p) := by
  unfold updateBaselines
  repeat' first
    | (with_reducible first
         | exact Preserve.read | exact setInst_inv .. | exact putArmed_inv .. | refine Preserve.readThen fun _ _ => ?_
         | refine Preserve.andThen ?_ fun _ => ?_)

theorem seedBaselines_inv (p : Nat) : Preserves State.Inv (seedBaselines p) := by
  unfold seedBaselines
  repeat' first
    | (with_reducible first
         | exact Preserve.skip | exact Preserve.read | exact setInst_inv .. | exact load_inv ..
         | exact putArmed_inv .. | refine Preserve.readThen fun _ _ => ?_ | refine Preserve.andThen ?_ fun _ => ?_
         | refine Preserve.onlyIf _ ?_ | refine Preserve.cond ?_ ?_ | refine Preserve.each _ fun _ => ?_)

theorem normProfileSave_inv (p : Nat) : Preserves State.Inv (normProfileSave p) := by
  unfold normProfileSave
  repeat' first
    | (with_reducible first
         | exact Preserve.skip | exact Preserve.read | exact store_inv .. | refine Preserve.readThen fun _ _ => ?_
         | refine Preserve.andThen ?_ fun _ => ?_ | refine Preserve.cond ?_ ?_)

theorem normJump_inv (p layer slate : Nat) (d : Option Int) (out : Nat) : Preserves State.Inv (normJump p layer slate d out) := by
  unfold normJump
  repeat' first
    | (with_reducible first
         | exact Preserve.read | exact bump_inv .. | exact setInst_inv .. | exact raiseEvent_inv ..
         | refine Preserve.readThen fun _ _ => ?_ | refine Preserve.andThen ?_ fun _ => ?_
         | refine Preserve.cond ?_ ?_)
    | (with_reducible refine Preserve.change fun _ h => ?_); first | exact h | ((repeat' split) <;> exact h)

theorem noteFlag_inv (p layer slate : Nat) (d : Option Int) : Preserves State.Inv (noteFlag p layer slate d) := by
  unfold noteFlag
  repeat' first
    | (with_reducible first
         | exact bump_inv .. | exact normJump_inv .. | refine Preserve.andThen ?_ fun _ => ?_)

theorem noteFault_inv (p layer slate : Nat) (d : Option Int) : Preserves State.Inv (noteFault p layer slate d) := by
  unfold noteFault
  repeat' first
    | (with_reducible first
         | exact bump_inv .. | exact setInst_inv .. | exact normJump_inv .. | refine Preserve.andThen ?_ fun _ => ?_)

theorem setWatch_inv (p k : Nat) (f : WatchRun → WatchRun) : Preserves State.Inv (setWatch p k f) := by
  unfold setWatch
  repeat' first
    | (with_reducible first
         | exact setInst_inv ..)

theorem closeWatch_inv (p k : Nat) : Preserves State.Inv (closeWatch p k) := by
  unfold closeWatch
  repeat' first
    | (with_reducible first
         | exact setWatch_inv .. | exact setInst_inv .. | refine Preserve.andThen ?_ fun _ => ?_)

theorem startWatch_inv (c : Cmd) (w : Watch) : Preserves State.Inv (startWatch c w) := by
  unfold startWatch
  repeat' first
    | (with_reducible first
         | exact Preserve.read | exact Preserve.ret _ | exact setInst_inv .. | refine Preserve.readThen fun _ _ => ?_
         | refine Preserve.andThen ?_ fun _ => ?_)
    | split

theorem endWatch_inv (p k : Nat) (r : WatchRun) : Preserves State.Inv (endWatch p k r) := by
  unfold endWatch
  repeat' first
    | (with_reducible first
         | exact Preserve.read | exact bump_inv .. | exact setWatch_inv .. | exact closeWatch_inv ..
         | refine Preserve.readThen fun _ _ => ?_ | refine Preserve.andThen ?_ fun _ => ?_
         | refine Preserve.onlyIf _ ?_)

theorem endCopy_inv (p k : Nat) (ps : List Drained) (ended : Bool) : Preserves State.Inv (endCopy p k ps ended) := by
  unfold endCopy
  repeat' first
    | (with_reducible first
         | exact Preserve.skip | exact Preserve.read | exact setWatch_inv .. | exact endWatch_inv ..
         | refine Preserve.readThen fun _ _ => ?_ | refine Preserve.andThen ?_ fun _ => ?_
         | refine Preserve.onlyIf _ ?_)
    | split

theorem noteProducer_inv (c : Cmd) (layer : Nat) : Preserves State.Inv (noteProducer c layer) := by
  unfold noteProducer
  repeat' first
    | (with_reducible first
         | exact Preserve.read | exact setInst_inv .. | refine Preserve.readThen fun _ _ => ?_)

theorem watched_inv (body : Cmd → M End) (c : Cmd) (hbody : ∀ x0, Preserves State.Inv (body x0)) : Preserves State.Inv (watched body c) := by
  unfold watched
  repeat' first
    | (with_reducible first
         | exact Preserve.read | exact Preserve.ret _ | exact hbody .. | exact noteProducer_inv ..
         | exact startWatch_inv .. | exact endCopy_inv .. | refine Preserve.readThen fun _ _ => ?_
         | refine Preserve.andThen ?_ fun _ => ?_ | refine Preserve.cond ?_ ?_)
    | (with_reducible refine Preserve.change fun _ h => ?_); exact h
    | split

theorem normDecision_inv (p : Nat) : Preserves State.Inv (normDecision p) := by
  unfold normDecision
  repeat' first
    | (with_reducible first
         | exact Preserve.skip | exact Preserve.read | exact noteFlag_inv .. | exact noteFault_inv ..
         | exact bump_inv .. | exact setInst_inv .. | exact closeWatch_inv .. | exact setWatch_inv ..
         | refine Preserve.readThen fun _ _ => ?_ | refine Preserve.andThen ?_ fun _ => ?_
         | refine Preserve.cond ?_ ?_ | refine Preserve.each _ fun _ => ?_)
    | split

theorem fallbackVerdict_inv (p : Nat) : Preserves State.Inv (fallbackVerdict p) := by
  unfold fallbackVerdict
  repeat' first
    | (with_reducible first
         | exact Preserve.skip | exact Preserve.read | exact setInst_inv .. | exact bump_inv ..
         | exact normJump_inv .. | exact noteFault_inv .. | exact closeWatch_inv ..
         | refine Preserve.readThen fun _ _ => ?_ | refine Preserve.andThen ?_ fun _ => ?_
         | refine Preserve.cond ?_ ?_ | refine Preserve.each _ fun _ => ?_)
    | split

theorem startNorm_inv (p : Nat) : Preserves State.Inv (startNorm p) := by
  unfold startNorm
  repeat' first
    | (with_reducible first
         | exact Preserve.read | exact par_inv .. | exact setEff_inv .. | exact setPar_inv ..
         | exact seedBaselines_inv .. | refine Preserve.readThen fun _ _ => ?_
         | refine Preserve.andThen ?_ fun _ => ?_ | refine Preserve.each _ fun _ => ?_)

/-! ## Experts -/

theorem readRouteTab_inv (w : Who) (p layer : Nat) : Preserves State.Inv (readRouteTab w p layer) := by
  unfold readRouteTab
  repeat' first
    | (with_reducible first
         | exact Preserve.read | exact Preserve.ret _ | exact load_inv .. | refine Preserve.readThen fun _ _ => ?_
         | refine Preserve.andThen ?_ fun _ => ?_ | refine Preserve.cond ?_ ?_)

theorem setExchange_inv (p region : Nat) (f : Exchange → Exchange) : Preserves State.Inv (setExchange p region f) := by
  unfold setExchange
  repeat' first
    | (with_reducible first
         | exact setInst_inv ..)

theorem bodyRoute_inv (c : Cmd) : Preserves State.Inv (bodyRoute c) := by
  unfold bodyRoute
  repeat' first
    | (with_reducible first
         | exact Preserve.read | exact Preserve.ret _ | exact clampDesc_inv .. | exact clampLayer_inv ..
         | exact setExchange_inv .. | exact readCoded_inv .. | exact readRouteTab_inv .. | exact readRow_inv ..
         | exact store_inv .. | exact bump_inv .. | exact unitsDone_inv .. | refine Preserve.readThen fun _ _ => ?_
         | refine Preserve.andThen ?_ fun _ => ?_ | refine Preserve.onlyIf _ ?_ | refine Preserve.cond ?_ ?_
         | refine Preserve.each _ fun _ => ?_)

theorem startExperts_inv (p : Nat) : Preserves State.Inv (startExperts p) := by
  unfold startExperts
  repeat' first
    | (with_reducible first
         | exact par_inv .. | exact setEff_inv .. | refine Preserve.andThen ?_ fun _ => ?_
         | refine Preserve.each _ fun _ => ?_)

theorem startExchange_inv (p : Nat) : Preserves State.Inv (startExchange p) := by
  unfold startExchange
  repeat' first
    | (with_reducible first
         | exact Preserve.read | exact Preserve.ret _ | exact setInst_inv .. | exact load_inv .. | exact setPar_inv ..
         | refine Preserve.readThen fun _ _ => ?_ | refine Preserve.andThen ?_ fun _ => ?_
         | refine Preserve.cond ?_ ?_)

theorem expCue_inv (p cue : Nat) : Preserves State.Inv (expCue p cue) := by
  unfold expCue
  repeat' first
    | (with_reducible first
         | exact Preserve.read | exact setInst_inv .. | exact signalCue_inv ..
         | refine Preserve.readThen fun _ _ => ?_)
    | (with_reducible first
         | refine Preserve.andThen ?_ fun _ => ?_)

theorem sendBatch_inv (c : Cmd) (layer dst' : Nat) (ret : Bool) (stage units : Nat) (rows : List ExRow) : Preserves State.Inv (sendBatch c layer dst' ret stage units rows) := by
  unfold sendBatch
  repeat' first
    | (with_reducible first
         | exact Preserve.read | exact emit_inv .. | exact bump_inv .. | refine Preserve.readThen fun _ _ => ?_
         | refine Preserve.andThen ?_ fun _ => ?_)

theorem putRow_inv (w : Who) (a : Nat) (x : ExRow) : Preserves State.Inv (putRow w a x) := by
  unfold putRow
  repeat' first
    | (with_reducible first
         | exact store_inv .. | exact storePoison_inv .. | refine Preserve.andThen ?_ fun _ => ?_
         | refine Preserve.onlyIf _ ?_)

theorem getRow_inv (w : Who) (a n : Nat) : Preserves State.Inv (getRow w a n) := by
  unfold getRow
  repeat' first
    | (with_reducible first
         | exact Preserve.ret _ | exact load_inv .. | refine Preserve.andThen ?_ fun _ => ?_)

theorem landRow_inv (w : Who) (p : Nat) (x : ExRow) : Preserves State.Inv (landRow w p x) := by
  unfold landRow
  repeat' first
    | (with_reducible first
         | exact Preserve.read | exact putRow_inv .. | exact storeVal_inv .. | exact setExchange_inv ..
         | refine Preserve.readThen fun _ _ => ?_ | refine Preserve.andThen ?_ fun _ => ?_)

theorem landReturn_inv (w : Who) (p : Nat) (x : ExRow) : Preserves State.Inv (landReturn w p x) := by
  unfold landReturn
  repeat' first
    | (with_reducible first
         | exact Preserve.read | exact putRow_inv .. | refine Preserve.readThen fun _ _ => ?_)

theorem takeForward_inv (w : Who) (p : Nat) (ret : Bool) : Preserves State.Inv (takeForward w p ret) := by
  unfold takeForward
  repeat' first
    | (with_reducible first
         | exact Preserve.read | exact Preserve.ret _ | exact getRow_inv .. | exact setExchange_inv ..
         | refine Preserve.readThen fun _ _ => ?_ | refine Preserve.andThen ?_ fun _ => ?_
         | refine Preserve.cond ?_ ?_ | refine Preserve.collect _ fun _ => ?_)

theorem sendStage_inv (c : Cmd) (layer : Nat) (ret : Bool) (units : Nat) (dest : Nat → Nat) (own : List ExRow)
    (land : ExRow → M Unit) (hland : ∀ x0, Preserves State.Inv (land x0)) : Preserves State.Inv (sendStage c layer ret units dest own land) := by
  unfold sendStage
  repeat' first
    | (with_reducible first
         | exact Preserve.read | exact hland .. | exact takeForward_inv .. | exact sendBatch_inv ..
         | exact expCue_inv .. | refine Preserve.readThen fun _ _ => ?_ | refine Preserve.andThen ?_ fun _ => ?_
         | refine Preserve.cond ?_ ?_ | refine Preserve.each _ fun _ => ?_)

theorem bodyDispatch_inv (c : Cmd) : Preserves State.Inv (bodyDispatch c) := by
  unfold bodyDispatch
  repeat' first
    | (with_reducible first
         | exact Preserve.read | exact Preserve.ret _ | exact clampLayer_inv .. | exact load_inv ..
         | refine sendStage_inv (hland := fun _ => ?_) .. | exact landRow_inv ..
         | refine Preserve.readThen fun _ _ => ?_ | refine Preserve.andThen ?_ fun _ => ?_
         | refine Preserve.cond ?_ ?_ | refine Preserve.collect _ fun _ => ?_)

theorem bodyGather_inv (c : Cmd) : Preserves State.Inv (bodyGather c) := by
  unfold bodyGather
  repeat' first
    | (with_reducible first
         | exact Preserve.read | exact Preserve.ret _ | exact clampLayer_inv .. | exact getRow_inv ..
         | exact bump_inv .. | exact putRow_inv .. | exact store_inv .. | exact setExchange_inv ..
         | refine Preserve.readThen fun _ _ => ?_ | refine Preserve.andThen ?_ fun _ => ?_
         | refine Preserve.each _ fun _ => ?_ | refine Preserve.collect _ fun _ => ?_)

theorem writeList_inv (w : Who) (a template : Nat) (kind : Kind) (tileM cols : Nat) (items : List (Nat × Nat × Nat × Nat)) : Preserves State.Inv (writeList w a template kind tileM cols items) := by
  unfold writeList
  repeat' first
    | (with_reducible first
         | exact store_inv ..)

theorem bodyBuildLists_inv (c : Cmd) : Preserves State.Inv (bodyBuildLists c) := by
  unfold bodyBuildLists
  repeat' first
    | (with_reducible first
         | exact Preserve.read | exact Preserve.ret _ | exact clampLayer_inv .. | exact bump_inv ..
         | exact load_inv .. | exact writeList_inv .. | refine Preserve.readThen fun _ _ => ?_
         | refine Preserve.andThen ?_ fun _ => ?_ | refine Preserve.cond ?_ ?_ | refine Preserve.collect _ fun _ => ?_)
    | split

theorem bodyReturn_inv (c : Cmd) : Preserves State.Inv (bodyReturn c) := by
  unfold bodyReturn
  repeat' first
    | (with_reducible first
         | exact Preserve.read | exact Preserve.ret _ | exact clampLayer_inv .. | exact load_inv ..
         | exact storeVal_inv .. | refine sendStage_inv (hland := fun _ => ?_) .. | exact landReturn_inv ..
         | refine Preserve.readThen fun _ _ => ?_ | refine Preserve.andThen ?_ fun _ => ?_
         | refine Preserve.cond ?_ ?_ | refine Preserve.collect _ fun _ => ?_)

theorem dropIssued_inv (p : Nat) : Preserves State.Inv (dropIssued p) := by
  unfold dropIssued
  repeat' first
    | (with_reducible first
         | refine Preserve.andThen ?_ fun _ => ?_)
    | (with_reducible refine Preserve.change fun _ h => ?_); exact h

theorem bodyCombine_inv (c : Cmd) : Preserves State.Inv (bodyCombine c) := by
  unfold bodyCombine
  repeat' first
    | (with_reducible first
         | exact Preserve.skip | exact Preserve.read | exact Preserve.ret _ | exact clampLayer_inv ..
         | exact readOperand_inv .. | exact load_inv .. | exact getRow_inv .. | exact writeOutputs_inv ..
         | exact markPoisoned_inv .. | refine Preserve.readThen fun _ _ => ?_ | refine Preserve.andThen ?_ fun _ => ?_
         | refine Preserve.onlyIf _ ?_ | refine Preserve.cond ?_ ?_ | refine Preserve.each _ fun _ => ?_
         | refine Preserve.foldState _ _ fun _ _ => ?_)
    | split

theorem acceptBatch_inv (b : ExpBatch) : Preserves State.Inv (acceptBatch b) := by
  unfold acceptBatch
  repeat' first
    | (with_reducible first
         | exact Preserve.read | exact landReturn_inv .. | exact putRow_inv .. | exact setExchange_inv ..
         | exact landRow_inv .. | exact expCue_inv .. | refine Preserve.readThen fun _ _ => ?_
         | refine Preserve.andThen ?_ fun _ => ?_ | refine Preserve.cond ?_ ?_ | refine Preserve.each _ fun _ => ?_)

theorem dropBatch_inv (b : ExpBatch) : Preserves State.Inv (dropBatch b) := by
  unfold dropBatch
  repeat' first
    | (with_reducible first
         | exact bump_inv .. | refine Preserve.andThen ?_ fun _ => ?_)

theorem expReceive_inv (b : ExpBatch) : Preserves State.Inv (expReceive b) := by
  unfold expReceive
  repeat' first
    | (with_reducible first
         | exact Preserve.read | exact bump_inv .. | exact dropBatch_inv .. | exact setInst_inv ..
         | exact acceptBatch_inv .. | refine Preserve.readThen fun _ _ => ?_ | refine Preserve.andThen ?_ fun _ => ?_
         | refine Preserve.cond ?_ ?_)

theorem recheckHeld_inv (p step : Nat) : Preserves State.Inv (recheckHeld p step) := by
  unfold recheckHeld
  repeat' first
    | (with_reducible first
         | exact Preserve.read | exact setInst_inv .. | exact expReceive_inv ..
         | refine Preserve.readThen fun _ _ => ?_ | refine Preserve.andThen ?_ fun _ => ?_
         | refine Preserve.each _ fun _ => ?_)

theorem dropHeld_inv (p step : Nat) : Preserves State.Inv (dropHeld p step) := by
  unfold dropHeld
  repeat' first
    | (with_reducible first
         | exact Preserve.read | exact setInst_inv .. | exact dropBatch_inv ..
         | refine Preserve.readThen fun _ _ => ?_ | refine Preserve.andThen ?_ fun _ => ?_
         | refine Preserve.each _ fun _ => ?_)

/-! ## Serve -/

theorem putRecord_inv (p r : Nat) : Preserves State.Inv (putRecord p r) := by
  unfold putRecord
  repeat' first
    | (with_reducible first
         | exact Preserve.read | exact storeVal_inv .. | exact setInst_inv .. | refine Preserve.readThen fun _ _ => ?_
         | refine Preserve.andThen ?_ fun _ => ?_)

theorem writeRecord_inv (p r : Nat) : Preserves State.Inv (writeRecord p r) := by
  unfold writeRecord
  repeat' first
    | (with_reducible first
         | exact Preserve.read | exact putRecord_inv .. | exact setInst_inv .. | exact bump_inv ..
         | refine Preserve.readThen fun _ _ => ?_ | refine Preserve.andThen ?_ fun _ => ?_
         | refine Preserve.cond ?_ ?_)

theorem moveSpill_inv (p : Nat) (x0 : Nat) : Preserves State.Inv (moveSpill p x0) := by
  induction x0 with
  | zero =>
    unfold moveSpill
    repeat' first
      | (with_reducible first
           | exact Preserve.skip)
  | succ n ih =>
    unfold moveSpill
    repeat' first
      | (with_reducible first
           | exact ih .. | exact Preserve.skip | exact Preserve.read | exact putRecord_inv .. | exact setInst_inv ..
           | refine Preserve.readThen fun _ _ => ?_ | refine Preserve.andThen ?_ fun _ => ?_
           | refine Preserve.cond ?_ ?_)
      | split

theorem cplVector_inv (p : Nat) : Preserves State.Inv (cplVector p) := by
  unfold cplVector
  repeat' first
    | (with_reducible first
         | exact Preserve.skip | exact Preserve.read | exact sendMsix_inv .. | refine Preserve.readThen fun _ _ => ?_
         | refine Preserve.andThen ?_ fun _ => ?_)
    | split

theorem allocateStep_inv (p step : Nat) : Preserves State.Inv (allocateStep p step) := by
  unfold allocateStep
  repeat' first
    | (with_reducible first
         | exact Preserve.read | exact allocFrame_inv .. | exact refreshAvail_inv .. | exact syncReels_inv ..
         | exact setInst_inv .. | refine Preserve.readThen fun _ _ => ?_ | refine Preserve.andThen ?_ fun _ => ?_
         | refine Preserve.each _ fun _ => ?_)

theorem advanceAlloc_inv (p step : Nat) (x0 : Nat) : Preserves State.Inv (advanceAlloc p step x0) := by
  induction x0 with
  | zero =>
    unfold advanceAlloc
    repeat' first
      | (with_reducible first
           | exact Preserve.skip | exact Preserve.read | exact allocateStep_inv ..)
  | succ n ih =>
    unfold advanceAlloc
    repeat' first
      | (with_reducible first
           | exact ih .. | exact Preserve.skip | exact Preserve.read | exact allocateStep_inv ..
           | exact allocCopy_inv .. | exact allocUnpark_inv .. | exact setInst_inv ..
           | refine Preserve.readThen fun _ _ => ?_ | refine Preserve.andThen ?_ fun _ => ?_
           | refine Preserve.cond ?_ ?_)
      | split

theorem receiveSheet_inv (p : Nat) (c : CallSheet) : Preserves State.Inv (receiveSheet p c) := by
  unfold receiveSheet
  repeat' first
    | (with_reducible first
         | exact Preserve.skip | exact Preserve.read | exact clampDesc_inv .. | exact storeTwice_inv ..
         | exact planLatch_inv .. | exact setInst_inv .. | exact advanceAlloc_inv ..
         | refine Preserve.readThen fun _ _ => ?_ | refine Preserve.andThen ?_ fun _ => ?_
         | refine Preserve.onlyIf _ ?_ | refine Preserve.cond ?_ ?_)

theorem attachEntry_inv (p : Nat) : Preserves State.Inv (attachEntry p) := by
  unfold attachEntry
  repeat' first
    | (with_reducible first
         | exact Preserve.skip | exact Preserve.read | exact applyAttach_inv .. | exact setInst_inv ..
         | exact advanceAlloc_inv .. | refine Preserve.readThen fun _ _ => ?_ | refine Preserve.andThen ?_ fun _ => ?_
         | refine Preserve.cond ?_ ?_)
    | split

theorem readDrafts_inv (p slate d committed : Nat) : Preserves State.Inv (readDrafts p slate d committed) := by
  unfold readDrafts
  repeat' first
    | (with_reducible first
         | exact Preserve.read | exact Preserve.ret _ | exact load_inv .. | refine Preserve.readThen fun _ _ => ?_
         | refine Preserve.andThen ?_ fun _ => ?_)

theorem switchTable_inv (p step : Nat) : Preserves State.Inv (switchTable p step) := by
  unfold switchTable
  repeat' first
    | (with_reducible first
         | exact Preserve.skip | exact Preserve.read | exact setPar_inv .. | exact setInst_inv ..
         | refine Preserve.readThen fun _ _ => ?_ | refine Preserve.andThen ?_ fun _ => ?_
         | refine Preserve.cond ?_ ?_)

theorem startStory_inv (p a : Nat) : Preserves State.Inv (startStory p a) := by
  unfold startStory
  repeat' first
    | (with_reducible first
         | exact Preserve.skip | exact Preserve.read | exact load_inv .. | exact storyBad_inv ..
         | refine Preserve.readThen fun _ _ => ?_ | refine Preserve.andThen ?_ fun _ => ?_
         | refine Preserve.cond ?_ ?_)
    | (with_reducible refine Preserve.change fun _ h => ?_); exact h

theorem beginRun_inv (p n : Nat) : Preserves State.Inv (beginRun p n) := by
  unfold beginRun
  repeat' first
    | (with_reducible first
         | exact Preserve.skip | exact Preserve.read | exact Preserve.ret _ | exact par_inv .. | exact setEff_inv ..
         | exact switchTable_inv .. | exact readDrafts_inv .. | exact setInst_inv .. | exact startStory_inv ..
         | exact writeWalk_inv .. | exact recheckHeld_inv .. | refine Preserve.readThen fun _ _ => ?_
         | refine Preserve.andThen ?_ fun _ => ?_ | refine Preserve.cond ?_ ?_ | refine Preserve.each _ fun _ => ?_
         | refine Preserve.collect _ fun _ => ?_)

theorem runStart_inv (p : Nat) : Preserves State.Inv (runStart p) := by
  unfold runStart
  repeat' first
    | (with_reducible first
         | exact Preserve.skip | exact Preserve.read | exact readCopies_inv .. | exact readReels_inv ..
         | exact beginRun_inv .. | refine Preserve.readThen fun _ _ => ?_ | refine Preserve.andThen ?_ fun _ => ?_
         | refine Preserve.cond ?_ ?_)

theorem doneEntry_inv (p e : Nat) : Preserves State.Inv (doneEntry p e) := by
  unfold doneEntry
  repeat' first
    | (with_reducible first
         | exact setInst_inv ..)

theorem runEntry_inv (p op : Nat) (f : Nat → M Unit) (hf : ∀ x0, Preserves State.Inv (f x0)) : Preserves State.Inv (runEntry p op f) := by
  unfold runEntry
  repeat' first
    | (with_reducible first
         | exact Preserve.skip | exact Preserve.read | exact hf .. | exact doneEntry_inv ..
         | refine Preserve.readThen fun _ _ => ?_ | refine Preserve.andThen ?_ fun _ => ?_)
    | split

theorem readDrawn_inv (p slate a n : Nat) : Preserves State.Inv (readDrawn p slate a n) := by
  unfold readDrawn
  repeat' first
    | (with_reducible first
         | exact Preserve.ret _ | exact load_inv .. | exact markPoisoned_inv ..
         | refine Preserve.andThen ?_ fun _ => ?_ | refine Preserve.onlyIf _ ?_)

theorem noToken_inv (p slate : Nat) (ts : List Nat) : Preserves State.Inv (noToken p slate ts) := by
  unfold noToken
  repeat' first
    | (with_reducible first
         | exact setInst_inv .. | refine Preserve.andThen ?_ fun _ => ?_ | refine Preserve.onlyIf _ ?_)

theorem takeEntry_inv (p slate tokenAddr : Nat) : Preserves State.Inv (takeEntry p slate tokenAddr) := by
  unfold takeEntry
  repeat' first
    | (with_reducible first
         | exact Preserve.skip | exact Preserve.read | exact readDrawn_inv .. | exact noToken_inv ..
         | exact setInst_inv .. | exact doneEntry_inv .. | refine Preserve.readThen fun _ _ => ?_
         | refine Preserve.andThen ?_ fun _ => ?_)
    | split
    | dsimp only

theorem takeReport_inv (p rank : Nat) (entries : List Nat) : Preserves State.Inv (takeReport p rank entries) := by
  unfold takeReport
  repeat' first
    | (with_reducible first
         | exact Preserve.skip | exact Preserve.read | exact setInst_inv .. | refine Preserve.readThen fun _ _ => ?_
         | refine Preserve.andThen ?_ fun _ => ?_ | refine Preserve.cond ?_ ?_)

theorem ownReport_inv (p : Nat) (draws : List (Nat × Nat)) : Preserves State.Inv (ownReport p draws) := by
  unfold ownReport
  repeat' first
    | (with_reducible first
         | exact Preserve.skip | exact Preserve.read | exact readDrawn_inv .. | exact noToken_inv ..
         | exact setInst_inv .. | exact takeReport_inv .. | exact emit_inv .. | refine Preserve.readThen fun _ _ => ?_
         | refine Preserve.andThen ?_ fun _ => ?_ | refine Preserve.cond ?_ ?_ | refine Preserve.each _ fun _ => ?_)
    | split
    | dsimp only

theorem normWord_inv (p : Nat) (m : NormMsg) : Preserves State.Inv (normWord p m) := by
  unfold normWord
  repeat' first
    | (with_reducible first
         | exact Preserve.skip | exact Preserve.read | exact emit_inv .. | exact setInst_inv ..
         | refine Preserve.readThen fun _ _ => ?_ | refine Preserve.andThen ?_ fun _ => ?_
         | refine Preserve.cond ?_ ?_)
    | split
    | dsimp only

theorem dropUsers_inv (x0 : Nat) (x1 : Nat) : Preserves State.Inv (dropUsers x0 x1) := by
  induction x0 generalizing x1 with
  | zero =>
    unfold dropUsers
    repeat' first
      | (with_reducible first
           | exact Preserve.skip)
  | succ n ih =>
    unfold dropUsers
    repeat' first
      | (with_reducible first
           | exact ih .. | exact Preserve.skip | exact Preserve.read | exact loseNode_inv .. | exact setNode_inv ..
           | refine Preserve.readThen fun _ _ => ?_ | refine Preserve.andThen ?_ fun _ => ?_
           | refine Preserve.cond ?_ ?_)

theorem dropChain_inv (q : LeadSeq) : Preserves State.Inv (dropChain q) := by
  unfold dropChain
  repeat' first
    | (with_reducible first
         | exact Preserve.skip | exact dropUsers_inv .. | refine Preserve.andThen ?_ fun _ => ?_)
    | split

theorem retire_inv (p step : Nat) (q : LeadSeq) (committed status acc : Nat) : Preserves State.Inv (retire p step q committed status acc) := by
  unfold retire
  repeat' first
    | (with_reducible first
         | exact dropChain_inv .. | exact setSlate_inv .. | exact setInst_inv ..
         | refine Preserve.andThen ?_ fun _ => ?_)

theorem retireLost_inv (p : Nat) (q : LeadSeq) : Preserves State.Inv (retireLost p q) := by
  unfold retireLost
  repeat' first
    | (with_reducible first
         | exact Preserve.read | exact dropChain_inv .. | exact storeVal_inv .. | exact setInst_inv ..
         | exact retire_inv .. | refine Preserve.readThen fun _ _ => ?_ | refine Preserve.andThen ?_ fun _ => ?_
         | refine Preserve.cond ?_ ?_)

theorem settleInsert_inv (ok : Nat → Bool) (e : Nat) : Preserves State.Inv (settleInsert ok e) := by
  unfold settleInsert
  repeat' first
    | (with_reducible first
         | exact setNode_inv .. | refine Preserve.andThen ?_ fun _ => ?_ | refine Preserve.onlyIf _ ?_
         | refine Preserve.cond ?_ ?_)

theorem settle_inv (p step : Nat) (n : PlanNote) (o : Option Nat) (q : LeadSeq) : Preserves State.Inv (settle p step n o q) := by
  unfold settle
  repeat' first
    | (with_reducible first
         | exact Preserve.skip | exact retireLost_inv .. | exact retire_inv .. | exact dropChain_inv ..
         | exact setSlate_inv .. | exact setSeq_inv .. | exact setInst_inv .. | exact bump_inv ..
         | refine Preserve.andThen ?_ fun _ => ?_ | refine Preserve.onlyIf _ ?_ | refine Preserve.cond ?_ ?_)
    | split

theorem unsettle_inv (p : Nat) (n : PlanNote) (o : Option Nat) (q : LeadSeq) : Preserves State.Inv (unsettle p n o q) := by
  unfold unsettle
  repeat' first
    | (with_reducible first
         | exact Preserve.skip | exact retireLost_inv .. | exact retire_inv .. | exact dropChain_inv ..
         | exact setSlate_inv .. | exact setSeq_inv .. | refine Preserve.andThen ?_ fun _ => ?_
         | refine Preserve.onlyIf _ ?_ | refine Preserve.cond ?_ ?_)

theorem publish_inv (p : Nat) (m : Notice) : Preserves State.Inv (publish p m) := by
  unfold publish
  repeat' first
    | (with_reducible first
         | exact Preserve.read | exact syncMaps_inv .. | exact storeTwice_inv .. | exact setInst_inv ..
         | exact plan_inv .. | exact emit_inv .. | refine Preserve.readThen fun _ _ => ?_
         | refine Preserve.andThen ?_ fun _ => ?_ | refine Preserve.each _ fun _ => ?_)

theorem readCancels_inv (p : Nat) : Preserves State.Inv (readCancels p) := by
  unfold readCancels
  repeat' first
    | (with_reducible first
         | exact Preserve.read | exact takeCancel_inv .. | exact setInst_inv ..
         | refine Preserve.readThen fun _ _ => ?_ | refine Preserve.andThen ?_ fun _ => ?_
         | refine Preserve.each _ fun _ => ?_)

theorem countTakes_inv (p : Nat) (c : CallSheet) (os : List (Nat × Nat)) : Preserves State.Inv (countTakes p c os) := by
  unfold countTakes
  repeat' first
    | (with_reducible first
         | exact Preserve.read | exact bump_inv .. | refine Preserve.readThen fun _ _ => ?_
         | refine Preserve.andThen ?_ fun _ => ?_ | refine Preserve.each _ fun _ => ?_)

theorem commitStep_inv (p : Nat) : Preserves State.Inv (commitStep p) := by
  unfold commitStep
  repeat' first
    | (with_reducible first
         | exact Preserve.skip | exact Preserve.read | exact readCancels_inv .. | exact settle_inv ..
         | exact settleInsert_inv .. | exact bump_inv .. | exact countTakes_inv .. | exact publish_inv ..
         | refine Preserve.readThen fun _ _ => ?_ | refine Preserve.andThen ?_ fun _ => ?_
         | refine Preserve.cond ?_ ?_ | refine Preserve.each _ fun _ => ?_)
    | split
    | dsimp only

theorem abandonWith_inv (p : Nat) (n : PlanNote) (all : Bool) : Preserves State.Inv (abandonWith p n all) := by
  unfold abandonWith
  repeat' first
    | (with_reducible first
         | exact Preserve.read | exact readCancels_inv .. | exact raiseEvent_inv .. | exact unsettle_inv ..
         | exact settleInsert_inv .. | exact publish_inv .. | refine Preserve.readThen fun _ _ => ?_
         | refine Preserve.andThen ?_ fun _ => ?_ | refine Preserve.onlyIf _ ?_ | refine Preserve.cond ?_ ?_
         | refine Preserve.each _ fun _ => ?_)
    | (with_reducible refine Preserve.change fun _ h => ?_); exact h

theorem abandonStep_inv (p : Nat) : Preserves State.Inv (abandonStep p) := by
  unfold abandonStep
  repeat' first
    | (with_reducible first
         | exact Preserve.skip | exact Preserve.read | exact abandonWith_inv ..
         | refine Preserve.readThen fun _ _ => ?_ | refine Preserve.andThen ?_ fun _ => ?_
         | refine Preserve.cond ?_ ?_)
    | split
    | dsimp only

theorem writeRecords_inv (p : Nat) (n : Notice) : Preserves State.Inv (writeRecords p n) := by
  unfold writeRecords
  repeat' first
    | (with_reducible first
         | exact Preserve.read | exact bump_inv .. | exact writeRecord_inv .. | exact cplVector_inv ..
         | refine Preserve.readThen fun _ _ => ?_ | refine Preserve.andThen ?_ fun _ => ?_
         | refine Preserve.onlyIf _ ?_ | refine Preserve.each _ fun _ => ?_)

theorem leaveSeq_inv (p : Nat) (n : Notice) (slate : Nat) : Preserves State.Inv (leaveSeq p n slate) := by
  unfold leaveSeq
  repeat' first
    | (with_reducible first
         | exact Preserve.read | exact holdLate_inv .. | exact releaseSeq_inv ..
         | refine Preserve.readThen fun _ _ => ?_ | refine Preserve.andThen ?_ fun _ => ?_)
    | split

theorem releaseStep_inv (p : Nat) (n : Notice) (c : CallSheet) : Preserves State.Inv (releaseStep p n c) := by
  unfold releaseStep
  repeat' first
    | (with_reducible first
         | exact Preserve.read | exact releaseLate_inv .. | exact releaseFrom_inv .. | exact releaseSeq_inv ..
         | exact leaveSeq_inv .. | refine Preserve.readThen fun _ _ => ?_ | refine Preserve.andThen ?_ fun _ => ?_
         | refine Preserve.onlyIf _ ?_ | refine Preserve.cond ?_ ?_ | refine Preserve.each _ fun _ => ?_)

theorem countReuse_inv (p : Nat) (n : Notice) (c : CallSheet) : Preserves State.Inv (countReuse p n c) := by
  unfold countReuse
  repeat' first
    | (with_reducible first
         | exact Preserve.skip | exact Preserve.read | exact bump_inv .. | refine Preserve.readThen fun _ _ => ?_
         | refine Preserve.andThen ?_ fun _ => ?_ | refine Preserve.onlyIf _ ?_ | refine Preserve.cond ?_ ?_
         | refine Preserve.each _ fun _ => ?_)

theorem holdAck_inv (p : Nat) (a : Ack) : Preserves State.Inv (holdAck p a) := by
  unfold holdAck
  repeat' first
    | (with_reducible first
         | exact setInst_inv ..)

theorem endInstance_inv (p : Nat) : Preserves State.Inv (endInstance p) := by
  unfold endInstance
  repeat' first
    | (with_reducible first
         | exact setInst_inv ..)

theorem finishApply_inv (p : Nat) (n : Notice) : Preserves State.Inv (finishApply p n) := by
  unfold finishApply
  repeat' first
    | (with_reducible first
         | exact Preserve.read | exact writeRecords_inv .. | exact countReuse_inv .. | exact releaseStep_inv ..
         | exact refreshAvail_inv .. | exact syncReels_inv .. | exact setInst_inv .. | exact bump_inv ..
         | exact setPar_inv .. | exact dropHeld_inv .. | exact holdAck_inv .. | exact emit_inv ..
         | exact endInstance_inv .. | refine Preserve.readThen fun _ _ => ?_ | refine Preserve.andThen ?_ fun _ => ?_
         | refine Preserve.onlyIf _ ?_ | refine Preserve.cond ?_ ?_)
    | (with_reducible refine Preserve.change fun _ h => ?_); exact h

theorem stopIssuing_inv (p : Nat) (n : Notice) : Preserves State.Inv (stopIssuing p n) := by
  unfold stopIssuing
  repeat' first
    | (with_reducible first
         | exact Preserve.skip | exact Preserve.read | exact setInst_inv .. | exact dropIssued_inv ..
         | refine Preserve.readThen fun _ _ => ?_ | refine Preserve.andThen ?_ fun _ => ?_
         | refine Preserve.cond ?_ ?_)

theorem applyNotice_inv (p : Nat) (n : Notice) : Preserves State.Inv (applyNotice p n) := by
  unfold applyNotice
  repeat' first
    | (with_reducible first
         | exact Preserve.skip | exact Preserve.read | exact stopIssuing_inv .. | exact readCopies_inv ..
         | exact updateBaselines_inv .. | exact setInst_inv .. | exact finishApply_inv ..
         | refine Preserve.readThen fun _ _ => ?_ | refine Preserve.andThen ?_ fun _ => ?_
         | refine Preserve.onlyIf _ ?_ | refine Preserve.cond ?_ ?_)

theorem applyEntry_inv (p op : Nat) (f : Nat → M Unit) (hf : ∀ x0, Preserves State.Inv (f x0)) : Preserves State.Inv (applyEntry p op f) := by
  unfold applyEntry
  repeat' first
    | (with_reducible first
         | exact Preserve.skip | exact Preserve.read | exact hf .. | exact setInst_inv .. | exact finishApply_inv ..
         | refine Preserve.readThen fun _ _ => ?_ | refine Preserve.andThen ?_ fun _ => ?_
         | refine Preserve.cond ?_ ?_)
    | split
    | dsimp only

theorem takeAck_inv (p : Nat) (a : Ack) : Preserves State.Inv (takeAck p a) := by
  unfold takeAck
  repeat' first
    | (with_reducible first
         | exact Preserve.skip | exact Preserve.read | exact holdAck_inv .. | refine Preserve.readThen fun _ _ => ?_
         | refine Preserve.andThen ?_ fun _ => ?_ | refine Preserve.cond ?_ ?_)

theorem commitApply_inv (p : Nat) (m : CommitMsg) : Preserves State.Inv (commitApply p m) := by
  unfold commitApply
  repeat' first
    | (with_reducible first
         | exact Preserve.skip | exact Preserve.read | exact applyNotice_inv .. | exact takeAck_inv ..
         | refine Preserve.readThen fun _ _ => ?_ | refine Preserve.andThen ?_ fun _ => ?_
         | refine Preserve.cond ?_ ?_)
    | split

theorem admitMember_inv (p : Nat) (a : StartAck) : Preserves State.Inv (admitMember p a) := by
  unfold admitMember
  repeat' first
    | (with_reducible first
         | exact Preserve.read | exact setInst_inv .. | refine Preserve.readThen fun _ _ => ?_
         | refine Preserve.andThen ?_ fun _ => ?_)

theorem instanceStart_inv (p : Nat) : Preserves State.Inv (instanceStart p) := by
  unfold instanceStart
  repeat' first
    | (with_reducible first
         | exact Preserve.skip | exact Preserve.read | exact latchParams_inv .. | exact setDoor_inv ..
         | exact freeIndex_inv .. | exact refreshAvail_inv .. | exact startExchange_inv .. | exact startNorm_inv ..
         | exact par_inv .. | exact setEff_inv .. | exact setInst_inv .. | exact admitMember_inv ..
         | exact emit_inv .. | refine Preserve.readThen fun _ _ => ?_ | refine Preserve.andThen ?_ fun _ => ?_
         | refine Preserve.cond ?_ ?_ | refine Preserve.each _ fun _ => ?_)
    | (with_reducible refine Preserve.change fun _ h => ?_); exact h

theorem instanceStartAck_inv (p : Nat) (a : StartAck) : Preserves State.Inv (instanceStartAck p a) := by
  unfold instanceStartAck
  repeat' first
    | (with_reducible first
         | exact Preserve.skip | exact Preserve.read | exact setInst_inv .. | exact raiseEvent_inv ..
         | exact admitMember_inv .. | refine Preserve.readThen fun _ _ => ?_ | refine Preserve.andThen ?_ fun _ => ?_
         | refine Preserve.cond ?_ ?_)

theorem stopAlone_inv (p : Nat) : Preserves State.Inv (stopAlone p) := by
  unfold stopAlone
  repeat' first
    | (with_reducible first
         | exact Preserve.read | exact endInstance_inv .. | refine Preserve.readThen fun _ _ => ?_
         | refine Preserve.andThen ?_ fun _ => ?_ | refine Preserve.onlyIf _ ?_)

theorem instanceDrain_inv (p : Nat) : Preserves State.Inv (instanceDrain p) := by
  unfold instanceDrain
  repeat' first
    | (with_reducible first
         | exact Preserve.skip | exact Preserve.read | exact setInst_inv .. | exact stopAlone_inv ..
         | refine Preserve.readThen fun _ _ => ?_ | refine Preserve.andThen ?_ fun _ => ?_
         | refine Preserve.cond ?_ ?_)

theorem instanceStop_inv (p : Nat) : Preserves State.Inv (instanceStop p) := by
  unfold instanceStop
  repeat' first
    | (with_reducible first
         | exact Preserve.skip | exact Preserve.read | exact setInst_inv .. | exact stopAlone_inv ..
         | refine Preserve.readThen fun _ _ => ?_ | refine Preserve.andThen ?_ fun _ => ?_
         | refine Preserve.cond ?_ ?_)

theorem leadLost_inv (p : Nat) : Preserves State.Inv (leadLost p) := by
  unfold leadLost
  repeat' first
    | (with_reducible first
         | exact Preserve.skip | exact Preserve.read | exact writeRecord_inv .. | exact cplVector_inv ..
         | exact setInst_inv .. | exact dropIssued_inv .. | exact raiseEvent_inv ..
         | refine Preserve.readThen fun _ _ => ?_ | refine Preserve.andThen ?_ fun _ => ?_
         | refine Preserve.onlyIf _ ?_ | refine Preserve.cond ?_ ?_ | refine Preserve.each _ fun _ => ?_)

theorem loseRank_inv (p r : Nat) : Preserves State.Inv (loseRank p r) := by
  unfold loseRank
  repeat' first
    | (with_reducible first
         | exact Preserve.skip | exact Preserve.read | exact setPar_inv .. | exact bump_inv .. | exact setInst_inv ..
         | exact abandonStep_inv .. | refine Preserve.readThen fun _ _ => ?_ | refine Preserve.andThen ?_ fun _ => ?_
         | refine Preserve.cond ?_ ?_)

theorem substituteTimeout_inv (p : Nat) : Preserves State.Inv (substituteTimeout p) := by
  unfold substituteTimeout
  repeat' first
    | (with_reducible first
         | exact Preserve.skip | exact Preserve.read | exact setInst_inv .. | exact abandonWith_inv ..
         | refine Preserve.readThen fun _ _ => ?_ | refine Preserve.andThen ?_ fun _ => ?_
         | refine Preserve.cond ?_ ?_)
    | split
    | dsimp only

/-! ## Issue -/

theorem formedEnv_inv (c : Cmd) (part l : Nat) : Preserves State.Inv (formedEnv c part l) := by
  unfold formedEnv
  repeat' first
    | (with_reducible first
         | exact Preserve.read | exact Preserve.ret _ | exact load_inv .. | exact readOperand_inv ..
         | refine Preserve.readThen fun _ _ => ?_ | refine Preserve.andThen ?_ fun _ => ?_
         | refine Preserve.cond ?_ ?_)

theorem padEnvOf_inv (c : Cmd) : Preserves State.Inv (padEnvOf c) := by
  unfold padEnvOf
  repeat' first
    | (with_reducible first
         | exact paddedEnv_inv .. | exact formedEnv_inv .. | refine Preserve.andThen ?_ fun _ => ?_)
    | split

theorem padBody_inv (c : Cmd) : Preserves State.Inv (padBody c) := by
  unfold padBody
  repeat' first
    | (with_reducible first
         | exact Preserve.ret _ | exact bodyMatmulPadded_inv .. | exact formedEnv_inv .. | exact paddedShare_inv ..
         | refine Preserve.andThen ?_ fun _ => ?_)
    | split

theorem bodyRegionList_inv (c : Cmd) (i : Nat) : Preserves State.Inv (bodyRegionList c i) := by
  unfold bodyRegionList
  repeat' first
    | (with_reducible first
         | exact Preserve.read | exact Preserve.ret _ | exact load_inv .. | exact listPasses_inv ..
         | refine Preserve.readThen fun _ _ => ?_ | refine Preserve.andThen ?_ fun _ => ?_
         | refine Preserve.cond ?_ ?_)

theorem workItems_inv (c : Cmd) (op key : Nat) : Preserves State.Inv (workItems c op key) := by
  unfold workItems
  repeat' first
    | (with_reducible first
         | exact Preserve.ret _ | exact load_inv .. | refine Preserve.andThen ?_ fun _ => ?_
         | refine Preserve.cond ?_ ?_ | refine Preserve.collect _ fun _ => ?_)

theorem bodyProducer_inv (c : Cmd) (k : Nat) : Preserves State.Inv (bodyProducer c k) := by
  unfold bodyProducer
  repeat' first
    | (with_reducible first
         | exact Preserve.read | exact Preserve.ret _ | exact workItems_inv .. | exact readOperandOnce_inv ..
         | exact readAcc_inv .. | exact matmulPasses_inv .. | refine Preserve.readThen fun _ _ => ?_
         | refine Preserve.andThen ?_ fun _ => ?_ | refine Preserve.cond ?_ ?_
         | refine Preserve.foldState _ _ fun _ _ => ?_)
    | split

theorem matmulBody_inv (c : Cmd) : Preserves State.Inv (matmulBody c) := by
  unfold matmulBody
  repeat' first
    | (with_reducible first
         | exact Preserve.read | exact bodyMatmul_inv .. | exact bodyProducer_inv .. | exact matmulInto_inv ..
         | refine Preserve.readThen fun _ _ => ?_ | refine Preserve.andThen ?_ fun _ => ?_
         | refine Preserve.cond ?_ ?_)
    | split

theorem bodyReRun_inv (c : Cmd) (k l : Nat) : Preserves State.Inv (bodyReRun c k l) := by
  unfold bodyReRun
  repeat' first
    | (with_reducible first
         | exact Preserve.read | exact Preserve.ret _ | exact workItems_inv .. | exact readOperandOnce_inv ..
         | exact readAcc_inv .. | exact matmulPasses_inv .. | refine Preserve.readThen fun _ _ => ?_
         | refine Preserve.andThen ?_ fun _ => ?_ | refine Preserve.cond ?_ ?_
         | refine Preserve.foldState _ _ fun _ _ => ?_)
    | split

theorem listBody_inv (c : Cmd) : Preserves State.Inv (listBody c) := by
  unfold listBody
  repeat' first
    | (with_reducible first
         | exact bodyMatmulList_inv .. | exact bodyRegionList_inv .. | exact bodyReRun_inv ..
         | refine Preserve.andThen ?_ fun _ => ?_ | refine Preserve.cond ?_ ?_)
    | split

theorem bodyGlu_inv (c : Cmd) (part l : Nat) : Preserves State.Inv (bodyGlu c part l) := by
  unfold bodyGlu
  repeat' first
    | (with_reducible first
         | exact Preserve.read | exact Preserve.ret _ | exact readRow_inv .. | exact writeOutputs_inv ..
         | exact unitsDone_inv .. | refine Preserve.readThen fun _ _ => ?_ | refine Preserve.andThen ?_ fun _ => ?_
         | refine Preserve.cond ?_ ?_ | refine Preserve.each _ fun _ => ?_)

theorem gluBody_inv (c : Cmd) : Preserves State.Inv (gluBody c) := by
  unfold gluBody
  repeat' first
    | (with_reducible first
         | exact bodyVec_inv .. | exact bodyGlu_inv .. | refine Preserve.andThen ?_ fun _ => ?_)
    | split

/-! ## Tiers -/

theorem readEntries_inv (p base : Nat) (only : Nat → Bool) (keep : List Placement) (x0 : List Nat) (x1 : List Placement) : Preserves State.Inv (readEntries p base only keep x0 x1) := by
  induction x0 generalizing x1 with
  | nil =>
    unfold readEntries
    repeat' first
      | (with_reducible first
           | exact Preserve.read | exact Preserve.ret _)
  | cons y l ih =>
    unfold readEntries
    repeat' first
      | (with_reducible first
           | exact ih .. | exact Preserve.read | exact Preserve.ret _ | exact load_inv .. | exact recordUe_inv ..
           | exact clampDesc_inv .. | exact storeVal_inv .. | refine Preserve.readThen fun _ _ => ?_
           | refine Preserve.andThen ?_ fun _ => ?_ | refine Preserve.cond ?_ ?_)

theorem readPlacements_inv (p : Nat) : Preserves State.Inv (readPlacements p) := by
  unfold readPlacements
  repeat' first
    | (with_reducible first
         | exact Preserve.read | exact readEntries_inv .. | refine Preserve.readThen fun _ _ => ?_
         | refine Preserve.andThen ?_ fun _ => ?_ | refine Preserve.cond ?_ ?_)
    | (with_reducible refine Preserve.change fun _ h => ?_); exact h

theorem placementReload_inv (p : Nat) : Preserves State.Inv (placementReload p) := by
  unfold placementReload
  repeat' first
    | (with_reducible first
         | exact Preserve.skip | exact Preserve.read | exact readPlacements_inv ..
         | refine Preserve.readThen fun _ _ => ?_ | refine Preserve.andThen ?_ fun _ => ?_
         | refine Preserve.cond ?_ ?_)

theorem vaultPut_inv (a : Nat) (bs : List Nat) : Preserves State.Inv (vaultPut a bs) := by
  unfold vaultPut
  repeat' first
    | (with_reducible first
         | refine Preserve.andThen ?_ fun _ => ?_)
    | (with_reducible refine Preserve.change fun _ h => ?_); first | exact h | exact foldl_keeps (I := State.Inv) _ _ _ h fun _ _ ht => State.setByte_inv _ _ ht

theorem vaultDone_inv (part : Nat) : Preserves State.Inv (vaultDone part) := by
  unfold vaultDone
  repeat' first
    | (with_reducible first
         | exact setPar_inv .. | refine Preserve.andThen ?_ fun _ => ?_)
    | (with_reducible refine Preserve.change fun _ h => ?_); exact h

theorem vaultRun_inv : Preserves State.Inv vaultRun := by
  unfold vaultRun
  repeat' first
    | (with_reducible first
         | exact Preserve.skip | exact Preserve.read | exact setPar_inv .. | exact vaultDone_inv ..
         | refine Preserve.readThen fun _ _ => ?_ | refine Preserve.andThen ?_ fun _ => ?_
         | refine Preserve.onlyIf _ ?_ | refine Preserve.cond ?_ ?_)
    | split

theorem vaultLoadStart_inv (value : Nat) : Preserves State.Inv (vaultLoadStart value) := by
  unfold vaultLoadStart
  repeat' first
    | (with_reducible first
         | exact Preserve.skip | exact Preserve.read | exact setPar_inv .. | exact load_inv .. | exact recordUe_inv ..
         | exact vaultRun_inv .. | refine Preserve.readThen fun _ _ => ?_ | refine Preserve.andThen ?_ fun _ => ?_
         | refine Preserve.cond ?_ ?_)
    | (with_reducible refine Preserve.change fun _ h => ?_); exact h
    | split

theorem vaultNext_inv (v : VaultLoad) : Preserves State.Inv (vaultNext v) := by
  unfold vaultNext
  repeat' first
    | (with_reducible first
         | exact bump_inv .. | exact vaultDone_inv .. | refine Preserve.andThen ?_ fun _ => ?_
         | refine Preserve.cond ?_ ?_)
    | (with_reducible refine Preserve.change fun _ h => ?_); exact h

theorem vaultEntry_inv (good : Bool) : Preserves State.Inv (vaultEntry good) := by
  unfold vaultEntry
  repeat' first
    | (with_reducible first
         | exact Preserve.skip | exact Preserve.read | exact load_inv .. | exact recordUe_inv ..
         | exact vaultNext_inv .. | exact clampDesc_inv .. | exact storeVal_inv .. | exact vaultPut_inv ..
         | exact bump_inv .. | exact setPar_inv .. | refine Preserve.readThen fun _ _ => ?_
         | refine Preserve.andThen ?_ fun _ => ?_ | refine Preserve.onlyIf _ ?_ | refine Preserve.cond ?_ ?_)
    | (with_reducible refine Preserve.change fun _ h => ?_); exact h
    | split

theorem vaultInterrupt_inv : Preserves State.Inv vaultInterrupt := by
  unfold vaultInterrupt
  repeat' first
    | (with_reducible first
         | exact Preserve.skip | exact Preserve.read | exact setPar_inv .. | refine Preserve.readThen fun _ _ => ?_
         | refine Preserve.andThen ?_ fun _ => ?_)
    | (with_reducible refine Preserve.change fun _ h => ?_); exact h
    | split

theorem copyExtent_inv (w : Who) (src dst n : Nat) : Preserves State.Inv (copyExtent w src dst n) := by
  unfold copyExtent
  repeat' first
    | (with_reducible first
         | exact load_inv .. | exact store_inv .. | exact storePoison_inv .. | refine Preserve.andThen ?_ fun _ => ?_
         | refine Preserve.each _ fun _ => ?_)

theorem dieSpareSwitch_inv (stack : Nat) : Preserves State.Inv (dieSpareSwitch stack) := by
  unfold dieSpareSwitch
  repeat' first
    | (with_reducible first
         | exact Preserve.skip | exact Preserve.read | exact setPar_inv .. | exact noteFailed_inv ..
         | exact bump_inv .. | exact recordFault_inv .. | refine Preserve.readThen fun _ _ => ?_
         | refine Preserve.andThen ?_ fun _ => ?_ | refine Preserve.cond ?_ ?_)
    | (with_reducible refine Preserve.change fun _ h => ?_); exact h
    | split

theorem dieFailure_inv (stack die : Nat) : Preserves State.Inv (dieFailure stack die) := by
  unfold dieFailure
  repeat' first
    | (with_reducible first
         | exact Preserve.skip | exact Preserve.read | exact recordFault_inv .. | exact dieSpareStart_inv ..
         | exact moduleFatal_inv .. | refine Preserve.readThen fun _ _ => ?_ | refine Preserve.andThen ?_ fun _ => ?_
         | refine Preserve.cond ?_ ?_)
    | (with_reducible refine Preserve.change fun _ h => ?_); exact h

theorem weightRestore_inv (a n : Nat) : Preserves State.Inv (weightRestore a n) := by
  unfold weightRestore
  repeat' first
    | (with_reducible first
         | exact Preserve.skip | exact Preserve.read | exact copyExtent_inv .. | exact bump_inv ..
         | exact recordUe_inv .. | refine Preserve.readThen fun _ _ => ?_ | refine Preserve.andThen ?_ fun _ => ?_
         | refine Preserve.cond ?_ ?_)
    | (with_reducible refine Preserve.change fun _ h => ?_); exact h
    | split

theorem scrubRestore_inv (a : Nat) (fresh : Bool) : Preserves State.Inv (scrubRestore a fresh) := by
  unfold scrubRestore
  repeat' first
    | (with_reducible first
         | exact Preserve.skip | exact Preserve.read | exact bump_inv .. | refine Preserve.readThen fun _ _ => ?_
         | refine Preserve.andThen ?_ fun _ => ?_ | refine Preserve.cond ?_ ?_)
    | (with_reducible refine Preserve.change fun _ h => ?_); exact h
    | split

theorem scrubRead_inv (addr : Nat) (errs : List (Nat × Nat)) : Preserves State.Inv (scrubRead addr errs) := by
  unfold scrubRead
  repeat' first
    | (with_reducible first
         | exact Preserve.skip | exact Preserve.read | exact bump_inv .. | exact findCodeword_inv ..
         | exact scrubRestore_inv .. | exact correct_inv .. | refine Preserve.readThen fun _ _ => ?_
         | refine Preserve.andThen ?_ fun _ => ?_ | refine Preserve.onlyIf _ ?_ | refine Preserve.cond ?_ ?_)
    | (with_reducible refine Preserve.change fun _ h => ?_); first | exact h | exact State.strike_inv _ _ h
    | split

theorem storyCue_inv (p h e : Nat) : Preserves State.Inv (storyCue p h e) := by
  unfold storyCue
  repeat' first
    | (with_reducible first
         | exact signalCue_inv ..)

theorem storyExpand_inv (p i e : Nat) : Preserves State.Inv (storyExpand p i e) := by
  unfold storyExpand
  repeat' first
    | (with_reducible first
         | exact Preserve.read | exact load_inv .. | exact takeRef_inv .. | exact decodeOne_inv ..
         | refine Preserve.readThen fun _ _ => ?_ | refine Preserve.andThen ?_ fun _ => ?_
         | refine Preserve.onlyIf _ ?_ | refine Preserve.each _ fun _ => ?_)
    | (with_reducible refine Preserve.change fun _ h => ?_); exact h

theorem storyCheck_inv (p : Nat) (r : StoryRun) (h : Nat) : Preserves State.Inv (storyCheck p r h) := by
  unfold storyCheck
  repeat' first
    | (with_reducible first
         | exact Preserve.read | exact load_inv .. | exact storyBad_inv .. | exact setStory_inv ..
         | refine Preserve.readThen fun _ _ => ?_ | refine Preserve.andThen ?_ fun _ => ?_
         | refine Preserve.onlyIf _ ?_ | refine Preserve.each _ fun _ => ?_)

theorem storyCopy_inv (w : Who) (e : Nat) : Preserves State.Inv (storyCopy w e) := by
  unfold storyCopy
  repeat' first
    | (with_reducible first
         | exact Preserve.read | exact copyExtent_inv .. | exact bump_inv .. | refine Preserve.readThen fun _ _ => ?_
         | refine Preserve.andThen ?_ fun _ => ?_ | refine Preserve.onlyIf _ ?_)

theorem storyRun_inv (p i h : Nat) (r : StoryRun) : Preserves State.Inv (storyRun p i h r) := by
  unfold storyRun
  repeat' first
    | (with_reducible first
         | exact Preserve.read | exact setStory_inv .. | exact load_inv .. | exact storyBad_inv ..
         | exact clampDesc_inv .. | exact storyCue_inv .. | exact bump_inv .. | exact storyExpand_inv ..
         | exact storyCopy_inv .. | refine Preserve.readThen fun _ _ => ?_ | refine Preserve.andThen ?_ fun _ => ?_
         | refine Preserve.cond ?_ ?_)

theorem storyStart_inv (p i : Nat) : Preserves State.Inv (storyStart p i) := by
  unfold storyStart
  repeat' first
    | (with_reducible first
         | exact Preserve.skip | exact Preserve.read | exact load_inv .. | exact storyBad_inv ..
         | exact storyCheck_inv .. | exact storyRun_inv .. | refine Preserve.readThen fun _ _ => ?_
         | refine Preserve.andThen ?_ fun _ => ?_ | refine Preserve.cond ?_ ?_)
    | split

theorem storyEnd_inv (p i : Nat) : Preserves State.Inv (storyEnd p i) := by
  unfold storyEnd
  repeat' first
    | (with_reducible first
         | exact Preserve.skip | exact Preserve.read | exact setStory_inv .. | exact putRefs_inv ..
         | exact storyCue_inv .. | refine Preserve.readThen fun _ _ => ?_ | refine Preserve.andThen ?_ fun _ => ?_
         | refine Preserve.cond ?_ ?_)
    | (with_reducible refine Preserve.change fun _ h => ?_); exact h
    | split

theorem storySkip_inv (p region layer : Nat) : Preserves State.Inv (storySkip p region layer) := by
  unfold storySkip
  repeat' first
    | (with_reducible first
         | exact Preserve.skip | exact Preserve.read | exact storyCheck_inv .. | exact storyCue_inv ..
         | exact setStory_inv .. | exact bump_inv .. | refine Preserve.readThen fun _ _ => ?_
         | refine Preserve.andThen ?_ fun _ => ?_ | refine Preserve.each _ fun _ => ?_)
    | split

theorem bodyGatherSkip_inv (c : Cmd) : Preserves State.Inv (bodyGatherSkip c) := by
  unfold bodyGatherSkip
  repeat' first
    | (with_reducible first
         | exact Preserve.read | exact Preserve.ret _ | exact bodyGather_inv .. | exact storySkip_inv ..
         | refine Preserve.readThen fun _ _ => ?_ | refine Preserve.andThen ?_ fun _ => ?_)

theorem loftRefetch_inv (p addr : Nat) : Preserves State.Inv (loftRefetch p addr) := by
  unfold loftRefetch
  repeat' first
    | (with_reducible first
         | exact Preserve.skip | exact Preserve.read | exact load_inv .. | exact decodeOne_inv ..
         | exact copyExtent_inv .. | exact recordUe_inv .. | refine Preserve.readThen fun _ _ => ?_
         | refine Preserve.andThen ?_ fun _ => ?_ | refine Preserve.cond ?_ ?_)
    | (with_reducible refine Preserve.change fun _ h => ?_); exact h
    | split
    | dsimp only

/-! ## Links -/

theorem mapOut_inv (g reason : Nat) : Preserves State.Inv (mapOut g reason) := by
  unfold mapOut
  repeat' first
    | (with_reducible first
         | exact Preserve.skip | exact Preserve.read | exact setPar_inv .. | exact recordFault_inv ..
         | exact setLinkState_inv .. | exact raiseEvent_inv .. | exact sendNotice_inv ..
         | refine Preserve.readThen fun _ _ => ?_ | refine Preserve.andThen ?_ fun _ => ?_
         | refine Preserve.cond ?_ ?_)

theorem takeOffset_inv (off : Int) : Preserves State.Inv (takeOffset off) := by
  unfold takeOffset
  repeat' first
    | (with_reducible first
         | refine Preserve.andThen ?_ fun _ => ?_ | refine Preserve.cond ?_ ?_)
    | (with_reducible refine Preserve.change fun _ h => ?_); first | exact h | ((repeat' split) <;> exact h)
    | split
    | dsimp only

theorem freeRun_inv : Preserves State.Inv freeRun := by
  unfold freeRun
  repeat' first
    | (with_reducible first
         | exact setPar_inv .. | refine Preserve.andThen ?_ fun _ => ?_)
    | (with_reducible refine Preserve.change fun _ h => ?_); exact h

theorem timeHoldover_inv : Preserves State.Inv timeHoldover := by
  unfold timeHoldover
  repeat' first
    | (with_reducible first
         | exact Preserve.skip | exact Preserve.read | exact setPar_inv .. | exact raiseEvent_inv ..
         | refine Preserve.readThen fun _ _ => ?_ | refine Preserve.andThen ?_ fun _ => ?_
         | refine Preserve.cond ?_ ?_)
    | (with_reducible refine Preserve.change fun _ h => ?_); exact h

theorem delayRequest_inv (port : Nat) (m : PtpMsg) : Preserves State.Inv (delayRequest port m) := by
  unfold delayRequest
  repeat' first
    | (with_reducible first
         | refine Preserve.andThen ?_ fun _ => ?_)
    | (with_reducible refine Preserve.change fun _ h => ?_); exact h

theorem ptpMessage_inv (port domain : Nat) (m : PtpMsg) : Preserves State.Inv (ptpMessage port domain m) := by
  unfold ptpMessage
  repeat' first
    | (with_reducible first
         | exact Preserve.skip | exact Preserve.read | exact delayRequest_inv .. | exact takeOffset_inv ..
         | refine Preserve.readThen fun _ _ => ?_ | refine Preserve.andThen ?_ fun _ => ?_
         | refine Preserve.onlyIf _ ?_ | refine Preserve.cond ?_ ?_)
    | (with_reducible refine Preserve.change fun _ h => ?_); exact h
    | split

theorem goRetrain_inv (g : Nat) : Preserves State.Inv (goRetrain g) := by
  unfold goRetrain
  repeat' first
    | (with_reducible first
         | exact Preserve.read | exact setLinkGroup_inv .. | exact bump_inv .. | exact mapOut_inv ..
         | exact setLinkState_inv .. | refine Preserve.readThen fun _ _ => ?_ | refine Preserve.andThen ?_ fun _ => ?_
         | refine Preserve.cond ?_ ?_)

theorem ackProgressTimeout_inv (g : Nat) : Preserves State.Inv (ackProgressTimeout g) := by
  unfold ackProgressTimeout
  repeat' first
    | (with_reducible first
         | exact Preserve.skip | exact Preserve.read | exact goRetrain_inv .. | refine Preserve.readThen fun _ _ => ?_
         | refine Preserve.andThen ?_ fun _ => ?_ | refine Preserve.cond ?_ ?_)

theorem settleGroup_inv (g st : Nat) : Preserves State.Inv (settleGroup g st) := by
  unfold settleGroup
  repeat' first
    | (with_reducible first
         | exact Preserve.read | exact setLinkGroup_inv .. | exact setLinkState_inv ..
         | refine Preserve.readThen fun _ _ => ?_ | refine Preserve.andThen ?_ fun _ => ?_
         | refine Preserve.cond ?_ ?_)

theorem compareGroup_inv (g : Nat) : Preserves State.Inv (compareGroup g) := by
  unfold compareGroup
  repeat' first
    | (with_reducible first
         | exact Preserve.skip | exact Preserve.read | exact setLinkState_inv .. | exact settleGroup_inv ..
         | exact bump_inv .. | exact mapOut_inv .. | refine Preserve.readThen fun _ _ => ?_
         | refine Preserve.andThen ?_ fun _ => ?_ | refine Preserve.onlyIf _ ?_ | refine Preserve.cond ?_ ?_)
    | split

theorem trainGroup_inv (g : Nat) : Preserves State.Inv (trainGroup g) := by
  unfold trainGroup
  repeat' first
    | (with_reducible first
         | exact setLinkGroup_inv .. | exact setLinkState_inv .. | refine Preserve.andThen ?_ fun _ => ?_)

theorem resume_inv (g : Nat) : Preserves State.Inv (resume g) := by
  unfold resume
  repeat' first
    | (with_reducible first
         | exact Preserve.skip | exact Preserve.read | exact pump_inv .. | refine Preserve.readThen fun _ _ => ?_
         | refine Preserve.andThen ?_ fun _ => ?_ | refine Preserve.cond ?_ ?_)

theorem identityRecord_inv (g : Nat) (r : IdRec) : Preserves State.Inv (identityRecord g r) := by
  unfold identityRecord
  repeat' first
    | (with_reducible first
         | exact Preserve.skip | exact Preserve.read | exact compareGroup_inv .. | exact resume_inv ..
         | refine Preserve.readThen fun _ _ => ?_ | refine Preserve.andThen ?_ fun _ => ?_
         | refine Preserve.cond ?_ ?_)
    | (with_reducible refine Preserve.change fun _ h => ?_); exact h

theorem identitySend_inv (g : Nat) : Preserves State.Inv (identitySend g) := by
  unfold identitySend
  repeat' first
    | (with_reducible first
         | exact Preserve.skip | exact Preserve.read | exact queuePacket_inv ..
         | refine Preserve.readThen fun _ _ => ?_ | refine Preserve.andThen ?_ fun _ => ?_
         | refine Preserve.cond ?_ ?_)

theorem linkPlanApply_inv : Preserves State.Inv linkPlanApply := by
  unfold linkPlanApply
  repeat' first
    | (with_reducible first
         | exact Preserve.read | exact par_inv .. | exact setEff_inv .. | exact trainGroup_inv ..
         | exact compareGroup_inv .. | exact resume_inv .. | refine Preserve.readThen fun _ _ => ?_
         | refine Preserve.andThen ?_ fun _ => ?_ | refine Preserve.onlyIf _ ?_ | refine Preserve.cond ?_ ?_
         | refine Preserve.each _ fun _ => ?_)

theorem groupTrained_inv (g : Nat) (ok : Bool) : Preserves State.Inv (groupTrained g ok) := by
  unfold groupTrained
  repeat' first
    | (with_reducible first
         | exact Preserve.skip | exact Preserve.read | exact setLinkGroup_inv .. | exact identitySend_inv ..
         | exact mapOut_inv .. | refine Preserve.readThen fun _ _ => ?_ | refine Preserve.andThen ?_ fun _ => ?_
         | refine Preserve.cond ?_ ?_)
    | (with_reducible refine Preserve.change fun _ h => ?_); exact h

theorem retrainDone_inv (g : Nat) (ok : Bool) : Preserves State.Inv (retrainDone g ok) := by
  unfold retrainDone
  repeat' first
    | (with_reducible first
         | exact Preserve.skip | exact Preserve.read | exact setLinkGroup_inv .. | exact setLinkState_inv ..
         | exact identitySend_inv .. | exact sendFlit_inv .. | exact bump_inv .. | exact resume_inv ..
         | exact mapOut_inv .. | refine Preserve.readThen fun _ _ => ?_ | refine Preserve.andThen ?_ fun _ => ?_
         | refine Preserve.cond ?_ ?_ | refine Preserve.each _ fun _ => ?_)

theorem groupLossOfLock_inv (g : Nat) : Preserves State.Inv (groupLossOfLock g) := by
  unfold groupLossOfLock
  repeat' first
    | (with_reducible first
         | exact Preserve.skip | exact Preserve.read | exact trainGroup_inv ..
         | refine Preserve.readThen fun _ _ => ?_ | refine Preserve.andThen ?_ fun _ => ?_
         | refine Preserve.cond ?_ ?_)

theorem linkRestore_inv (g : Nat) : Preserves State.Inv (linkRestore g) := by
  unfold linkRestore
  repeat' first
    | (with_reducible first
         | exact Preserve.skip | exact Preserve.read | exact setPar_inv .. | exact trainGroup_inv ..
         | refine Preserve.readThen fun _ _ => ?_ | refine Preserve.andThen ?_ fun _ => ?_
         | refine Preserve.cond ?_ ?_)

theorem noteSpare_inv (g lane : Nat) (tx : Bool) : Preserves State.Inv (noteSpare g lane tx) := by
  unfold noteSpare
  repeat' first
    | (with_reducible first
         | exact Preserve.read | exact setPar_inv .. | exact bump_inv .. | exact recordFault_inv ..
         | refine Preserve.readThen fun _ _ => ?_ | refine Preserve.andThen ?_ fun _ => ?_
         | refine Preserve.onlyIf _ ?_)

theorem requestSpare_inv (g lane : Nat) (lost : Bool) : Preserves State.Inv (requestSpare g lane lost) := by
  unfold requestSpare
  repeat' first
    | (with_reducible first
         | exact Preserve.skip | exact Preserve.read | exact mapOut_inv .. | exact setLinkGroup_inv ..
         | exact sendControl_inv .. | refine Preserve.readThen fun _ _ => ?_ | refine Preserve.andThen ?_ fun _ => ?_
         | refine Preserve.cond ?_ ?_)

theorem laneErrorDetect_inv (g lane ber : Nat) (lockLost : Bool) : Preserves State.Inv (laneErrorDetect g lane ber lockLost) := by
  unfold laneErrorDetect
  repeat' first
    | (with_reducible first
         | exact Preserve.skip | exact Preserve.read | exact requestSpare_inv ..
         | refine Preserve.readThen fun _ _ => ?_)
    | (with_reducible refine Preserve.put ?_); assumption
    | (with_reducible first
         | refine Preserve.andThen ?_ fun _ => ?_ | refine Preserve.onlyIf _ ?_ | refine Preserve.cond ?_ ?_)

theorem laneSpareStart_inv (v : Nat) : Preserves State.Inv (laneSpareStart v) := by
  unfold laneSpareStart
  repeat' first
    | (with_reducible first
         | exact Preserve.skip | exact Preserve.read | exact requestSpare_inv ..
         | refine Preserve.readThen fun _ _ => ?_ | refine Preserve.andThen ?_ fun _ => ?_
         | refine Preserve.cond ?_ ?_)

theorem sendSwitch_inv (g lane : Nat) (lost : Bool) : Preserves State.Inv (sendSwitch g lane lost) := by
  unfold sendSwitch
  repeat' first
    | (with_reducible first
         | exact Preserve.read | exact setLinkGroup_inv .. | exact sendControl_inv ..
         | refine Preserve.readThen fun _ _ => ?_ | refine Preserve.andThen ?_ fun _ => ?_)

theorem rxSwitched_inv (g lane : Nat) : Preserves State.Inv (rxSwitched g lane) := by
  unfold rxSwitched
  repeat' first
    | (with_reducible first
         | exact setLinkGroup_inv .. | exact noteSpare_inv .. | refine Preserve.andThen ?_ fun _ => ?_)

theorem spareOp_inv (g op lane at' : Nat) : Preserves State.Inv (spareOp g op lane at') := by
  unfold spareOp
  repeat' first
    | (with_reducible first
         | exact Preserve.skip | exact Preserve.read | exact mapOut_inv .. | exact setLinkGroup_inv ..
         | exact sendControl_inv .. | exact sendSwitch_inv .. | exact rxSwitched_inv ..
         | refine Preserve.readThen fun _ _ => ?_ | refine Preserve.andThen ?_ fun _ => ?_
         | refine Preserve.onlyIf _ ?_ | refine Preserve.cond ?_ ?_)
    | split

theorem spareStep_inv (g : Nat) : Preserves State.Inv (spareStep g) := by
  unfold spareStep
  repeat' first
    | (with_reducible first
         | exact Preserve.read | exact setLinkGroup_inv .. | exact noteSpare_inv .. | exact sendControl_inv ..
         | exact sendSwitch_inv .. | exact rxSwitched_inv .. | refine Preserve.readThen fun _ _ => ?_
         | refine Preserve.andThen ?_ fun _ => ?_ | refine Preserve.onlyIf _ ?_ | refine Preserve.cond ?_ ?_)

theorem linkTick_inv : Preserves State.Inv linkTick := by
  unfold linkTick
  repeat' first
    | (with_reducible first
         | exact Preserve.read | exact sendControl_inv .. | exact spareStep_inv .. | exact fillWord_inv ..
         | exact setLinkGroup_inv .. | exact sendMarker_inv .. | refine Preserve.readThen fun _ _ => ?_
         | refine Preserve.andThen ?_ fun _ => ?_ | refine Preserve.onlyIf _ ?_ | refine Preserve.each _ fun _ => ?_)

theorem takeCodewords_inv (g : Nat) (errs : List Nat) : Preserves State.Inv (takeCodewords g errs) := by
  unfold takeCodewords
  repeat' first
    | (with_reducible first
         | exact Preserve.read | exact Preserve.ret _ | exact bump_inv .. | exact setLinkGroup_inv ..
         | refine Preserve.readThen fun _ _ => ?_ | refine Preserve.andThen ?_ fun _ => ?_
         | refine Preserve.onlyIf _ ?_)

theorem flitBad_inv (g : Nat) : Preserves State.Inv (flitBad g) := by
  unfold flitBad
  repeat' first
    | (with_reducible first
         | exact setLinkGroup_inv .. | exact sendControl_inv .. | refine Preserve.andThen ?_ fun _ => ?_)

theorem dataFlit_inv (g : Nat) (errs bytes : List Nat) (deliver : Nat → List Nat → M Unit) (hdeliver : ∀ x0 x1, Preserves State.Inv (deliver x0 x1)) : Preserves State.Inv (dataFlit g errs bytes deliver) := by
  unfold dataFlit
  repeat' first
    | (with_reducible first
         | exact Preserve.skip | exact Preserve.read | exact hdeliver .. | exact takeCodewords_inv ..
         | exact flitBad_inv .. | exact setLinkGroup_inv .. | exact deliver_inv ..
         | refine Preserve.readThen fun _ _ => ?_ | refine Preserve.andThen ?_ fun _ => ?_
         | refine Preserve.onlyIf _ ?_ | refine Preserve.cond ?_ ?_ | refine Preserve.each _ fun _ => ?_)

theorem controlFlit_inv (g : Nat) (errs bytes : List Nat) : Preserves State.Inv (controlFlit g errs bytes) := by
  unfold controlFlit
  repeat' first
    | (with_reducible first
         | exact Preserve.skip | exact Preserve.read | exact takeCodewords_inv .. | exact flitBad_inv ..
         | exact setLinkGroup_inv .. | exact spareOp_inv .. | exact goRetrain_inv .. | exact sendFlit_inv ..
         | exact bump_inv .. | exact takeOffset_inv .. | exact resume_inv .. | refine Preserve.readThen fun _ _ => ?_
         | refine Preserve.andThen ?_ fun _ => ?_ | refine Preserve.onlyIf _ ?_ | refine Preserve.cond ?_ ?_
         | refine Preserve.each _ fun _ => ?_)
    | (with_reducible refine Preserve.change fun _ h => ?_); exact h

/-! ## Fabric -/

theorem sendTransfer_inv (x : Xfer) : Preserves State.Inv (sendTransfer x) := by
  unfold sendTransfer
  repeat' first
    | (with_reducible first
         | exact sendOver_inv .. | refine Preserve.andThen ?_ fun _ => ?_ | refine Preserve.onlyIf _ ?_
         | refine Preserve.cond ?_ ?_ | refine Preserve.each _ fun _ => ?_)
    | (with_reducible refine Preserve.change fun _ h => ?_); exact h

theorem openTransfer_inv (x : Xfer) : Preserves State.Inv (openTransfer x) := by
  unfold openTransfer
  repeat' first
    | (with_reducible first
         | exact Preserve.read | exact Preserve.ret _ | exact setInst_inv .. | exact sendTransfer_inv ..
         | refine Preserve.readThen fun _ _ => ?_ | refine Preserve.andThen ?_ fun _ => ?_
         | refine Preserve.cond ?_ ?_)
    | (with_reducible refine Preserve.change fun _ h => ?_); exact h
    | split

theorem markAck_inv (node tag : Nat) : Preserves State.Inv (markAck node tag) := by
  unfold markAck
  repeat' first
    | (with_reducible first
         | refine Preserve.andThen ?_ fun _ => ?_ | refine Preserve.cond ?_ ?_)
    | (with_reducible refine Preserve.change fun _ h => ?_); exact h

theorem renameAck_inv (node old new : Nat) : Preserves State.Inv (renameAck node old new) := by
  unfold renameAck
  repeat' first
    | (with_reducible first
         | refine Preserve.andThen ?_ fun _ => ?_ | refine Preserve.cond ?_ ?_)
    | (with_reducible refine Preserve.change fun _ h => ?_); exact h

theorem openWaiting_inv (node : Nat) : Preserves State.Inv (openWaiting node) := by
  unfold openWaiting
  repeat' first
    | (with_reducible first
         | exact Preserve.skip | exact Preserve.read | exact openTransfer_inv .. | exact renameAck_inv ..
         | refine Preserve.readThen fun _ _ => ?_ | refine Preserve.andThen ?_ fun _ => ?_
         | refine Preserve.cond ?_ ?_)
    | (with_reducible refine Preserve.change fun _ h => ?_); exact h
    | split

theorem closeTransfer_inv (x : Xfer) : Preserves State.Inv (closeTransfer x) := by
  unfold closeTransfer
  repeat' first
    | (with_reducible first
         | refine Preserve.andThen ?_ fun _ => ?_)
    | (with_reducible refine Preserve.change fun _ h => ?_); exact h

theorem resendTransfer_inv (x : Xfer) : Preserves State.Inv (resendTransfer x) := by
  unfold resendTransfer
  repeat' first
    | (with_reducible first
         | exact closeTransfer_inv .. | exact bump_inv .. | exact openTransfer_inv .. | exact renameAck_inv ..
         | refine Preserve.andThen ?_ fun _ => ?_)

theorem takeAckPacket_inv (h : Nat) : Preserves State.Inv (takeAckPacket h) := by
  unfold takeAckPacket
  repeat' first
    | (with_reducible first
         | exact Preserve.skip | exact Preserve.read | exact closeTransfer_inv .. | exact markAck_inv ..
         | exact setInst_inv .. | exact openWaiting_inv .. | exact resendTransfer_inv ..
         | refine Preserve.readThen fun _ _ => ?_ | refine Preserve.andThen ?_ fun _ => ?_
         | refine Preserve.onlyIf _ ?_ | refine Preserve.cond ?_ ?_)
    | split

theorem transferAckTimeout_inv (node tag : Nat) : Preserves State.Inv (transferAckTimeout node tag) := by
  unfold transferAckTimeout
  repeat' first
    | (with_reducible first
         | exact Preserve.skip | exact Preserve.read | exact sendAbort_inv .. | refine Preserve.readThen fun _ _ => ?_
         | refine Preserve.andThen ?_ fun _ => ?_ | refine Preserve.cond ?_ ?_)
    | (with_reducible refine Preserve.change fun _ h => ?_); exact h
    | split

theorem sendAck_inv (node tag : Nat) (complete : Bool) : Preserves State.Inv (sendAck node tag complete) := by
  unfold sendAck
  repeat' first
    | (with_reducible first
         | exact Preserve.read | exact sendPacket_inv .. | refine Preserve.readThen fun _ _ => ?_)

theorem countPacket_inv (h : Nat) : Preserves State.Inv (countPacket h) := by
  unfold countPacket
  repeat' first
    | (with_reducible first
         | exact Preserve.skip | exact Preserve.read | exact signalCue_inv .. | exact bump_inv ..
         | exact sendAck_inv .. | refine Preserve.readThen fun _ _ => ?_ | refine Preserve.andThen ?_ fun _ => ?_
         | refine Preserve.onlyIf _ ?_ | refine Preserve.cond ?_ ?_)
    | (with_reducible refine Preserve.change fun _ h => ?_); exact h
    | split

theorem takeData_inv (h : Nat) (data : List Nat) : Preserves State.Inv (takeData h data) := by
  unfold takeData
  repeat' first
    | (with_reducible first
         | exact Preserve.skip | exact Preserve.read | exact bump_inv .. | exact store_inv ..
         | exact countPacket_inv .. | refine Preserve.readThen fun _ _ => ?_ | refine Preserve.andThen ?_ fun _ => ?_
         | refine Preserve.onlyIf _ ?_ | refine Preserve.cond ?_ ?_)

theorem takeAbort_inv (h : Nat) : Preserves State.Inv (takeAbort h) := by
  unfold takeAbort
  repeat' first
    | (with_reducible first
         | exact Preserve.read | exact sendAck_inv .. | refine Preserve.readThen fun _ _ => ?_
         | refine Preserve.andThen ?_ fun _ => ?_ | refine Preserve.onlyIf _ ?_)
    | (with_reducible refine Preserve.change fun _ h => ?_); exact h

theorem transferLost_inv (e p ctx rank : Nat) : Preserves State.Inv (transferLost e p ctx rank) := by
  unfold transferLost
  repeat' first
    | (with_reducible first
         | exact Preserve.read | exact recordFault_inv .. | exact bump_inv .. | refine Preserve.readThen fun _ _ => ?_
         | refine Preserve.andThen ?_ fun _ => ?_)

theorem sendShape_inv (p : Nat) (assign : Option (Nat × Nat)) : Preserves State.Inv (sendShape p assign) := by
  unfold sendShape
  repeat' first
    | (with_reducible first
         | exact Preserve.read | exact emit_inv .. | exact raiseEvent_inv .. | refine Preserve.readThen fun _ _ => ?_
         | refine Preserve.andThen ?_ fun _ => ?_ | refine Preserve.each _ fun _ => ?_)

theorem endCollective_inv (e : Nat) (q : Part) : Preserves State.Inv (endCollective e q) := by
  unfold endCollective
  repeat' first
    | (with_reducible first
         | exact setEngine_inv .. | exact storeVal_inv .. | exact bump_inv .. | exact signalCue_inv ..
         | refine Preserve.andThen ?_ fun _ => ?_ | refine Preserve.onlyIf _ ?_)

theorem endAbsent_inv (p mask : Nat) : Preserves State.Inv (endAbsent p mask) := by
  unfold endAbsent
  repeat' first
    | (with_reducible first
         | exact Preserve.skip | exact Preserve.read | exact closeTransfer_inv .. | exact endCollective_inv ..
         | exact setEngine_inv .. | exact transferLost_inv .. | refine Preserve.readThen fun _ _ => ?_
         | refine Preserve.andThen ?_ fun _ => ?_ | refine Preserve.onlyIf _ ?_ | refine Preserve.cond ?_ ?_
         | refine Preserve.each _ fun _ => ?_)
    | (with_reducible refine Preserve.change fun _ h => ?_); exact h
    | split

theorem assignStandby_inv (p r : Nat) : Preserves State.Inv (assignStandby p r) := by
  unfold assignStandby
  repeat' first
    | (with_reducible first
         | exact Preserve.skip | exact Preserve.read | exact setPar_inv .. | exact sendShape_inv ..
         | exact emit_inv .. | refine Preserve.readThen fun _ _ => ?_ | refine Preserve.andThen ?_ fun _ => ?_)
    | split

theorem rankLost_inv (p r : Nat) : Preserves State.Inv (rankLost p r) := by
  unfold rankLost
  repeat' first
    | (with_reducible first
         | exact Preserve.skip | exact Preserve.read | exact loseRank_inv .. | exact sendShape_inv ..
         | exact endAbsent_inv .. | exact assignStandby_inv .. | refine Preserve.readThen fun _ _ => ?_
         | refine Preserve.andThen ?_ fun _ => ?_ | refine Preserve.cond ?_ ?_)

theorem instancesLose_inv (node : Nat) (leadToo : Bool) : Preserves State.Inv (instancesLose node leadToo) := by
  unfold instancesLose
  repeat' first
    | (with_reducible first
         | exact Preserve.skip | exact Preserve.read | exact rankLost_inv .. | exact leadLost_inv ..
         | refine Preserve.readThen fun _ _ => ?_ | refine Preserve.andThen ?_ fun _ => ?_
         | refine Preserve.onlyIf _ ?_ | refine Preserve.cond ?_ ?_ | refine Preserve.each _ fun _ => ?_)
    | split

theorem nodeGone_inv (node : Nat) : Preserves State.Inv (nodeGone node) := by
  unfold nodeGone
  repeat' first
    | (with_reducible first
         | exact Preserve.skip | exact Preserve.read | exact closeTransfer_inv .. | exact transferLost_inv ..
         | exact setEngine_inv .. | refine Preserve.readThen fun _ _ => ?_ | refine Preserve.andThen ?_ fun _ => ?_
         | refine Preserve.onlyIf _ ?_ | refine Preserve.cond ?_ ?_ | refine Preserve.each _ fun _ => ?_)
    | (with_reducible refine Preserve.change fun _ h => ?_); exact h
    | split

theorem noticeEvent_inv (code node mask : Nat) : Preserves State.Inv (noticeEvent code node mask) := by
  unfold noticeEvent
  repeat' first
    | (with_reducible first
         | exact Preserve.read | exact raiseEvent_inv .. | refine Preserve.readThen fun _ _ => ?_)

theorem peerDown_inv (code node : Nat) : Preserves State.Inv (peerDown code node) := by
  unfold peerDown
  repeat' first
    | (with_reducible first
         | exact noticeEvent_inv .. | exact nodeGone_inv .. | exact sendNotice_inv .. | exact instancesLose_inv ..
         | refine Preserve.andThen ?_ fun _ => ?_)

theorem peerLost_inv (node : Nat) : Preserves State.Inv (peerLost node) := by
  unfold peerLost
  repeat' first
    | (with_reducible first
         | exact noticeEvent_inv .. | exact instancesLose_inv .. | refine Preserve.andThen ?_ fun _ => ?_)

theorem planesNotice_inv (node mask : Nat) : Preserves State.Inv (planesNotice node mask) := by
  unfold planesNotice
  repeat' first
    | (with_reducible first
         | exact noticeEvent_inv .. | refine Preserve.andThen ?_ fun _ => ?_)
    | (with_reducible refine Preserve.change fun _ h => ?_); exact h

theorem pathLoss_inv (node : Nat) : Preserves State.Inv (pathLoss node) := by
  unfold pathLoss
  repeat' first
    | (with_reducible first
         | exact Preserve.skip | exact Preserve.read | exact sendNotice_inv .. | exact instancesLose_inv ..
         | refine Preserve.readThen fun _ _ => ?_ | refine Preserve.andThen ?_ fun _ => ?_
         | refine Preserve.cond ?_ ?_)

theorem applyShape_inv (p mask epoch : Nat) (assign : Option (Nat × Nat)) : Preserves State.Inv (applyShape p mask epoch assign) := by
  unfold applyShape
  repeat' first
    | (with_reducible first
         | exact Preserve.skip | exact Preserve.read | exact raiseEvent_inv .. | exact setPar_inv ..
         | exact endAbsent_inv .. | exact setEff_inv .. | refine Preserve.readThen fun _ _ => ?_
         | refine Preserve.andThen ?_ fun _ => ?_ | refine Preserve.cond ?_ ?_)
    | split

theorem rankReady_inv (p r : Nat) : Preserves State.Inv (rankReady p r) := by
  unfold rankReady
  repeat' first
    | (with_reducible first
         | exact Preserve.skip | exact Preserve.read | exact emit_inv .. | exact setPar_inv .. | exact bump_inv ..
         | exact setInst_inv .. | exact sendShape_inv .. | refine Preserve.readThen fun _ _ => ?_
         | refine Preserve.andThen ?_ fun _ => ?_ | refine Preserve.cond ?_ ?_)
    | split

theorem takeNotice_inv (data : List Nat) : Preserves State.Inv (takeNotice data) := by
  unfold takeNotice
  repeat' first
    | (with_reducible first
         | exact Preserve.skip | exact planesNotice_inv .. | exact noticeEvent_inv .. | exact peerDown_inv ..
         | exact peerLost_inv .. | refine Preserve.andThen ?_ fun _ => ?_)
    | split
    | dsimp only

theorem forwardPacket_inv (ch h : Nat) (data : List Nat) : Preserves State.Inv (forwardPacket ch h data) := by
  unfold forwardPacket
  repeat' first
    | (with_reducible first
         | exact Preserve.read | exact bump_inv .. | exact sendPacket_inv .. | refine Preserve.readThen fun _ _ => ?_
         | refine Preserve.andThen ?_ fun _ => ?_ | refine Preserve.cond ?_ ?_)

theorem takePacket_inv (ch h : Nat) (data : List Nat) : Preserves State.Inv (takePacket ch h data) := by
  unfold takePacket
  repeat' first
    | (with_reducible first
         | exact Preserve.skip | exact Preserve.read | exact forwardPacket_inv .. | exact takeData_inv ..
         | exact takeNotice_inv .. | exact takeAckPacket_inv .. | exact takeAbort_inv .. | exact bump_inv ..
         | refine Preserve.readThen fun _ _ => ?_ | refine Preserve.andThen ?_ fun _ => ?_
         | refine Preserve.cond ?_ ?_)
    | (with_reducible refine Preserve.change fun _ h => ?_); exact h
    | split

theorem takePacketBytes_inv (g ch : Nat) (bs : List Nat) : Preserves State.Inv (takePacketBytes g ch bs) := by
  unfold takePacketBytes
  repeat' first
    | (with_reducible first
         | exact identityRecord_inv .. | exact takePacket_inv .. | refine Preserve.andThen ?_ fun _ => ?_
         | refine Preserve.cond ?_ ?_)

theorem copySend_inv (c : Cmd) (x0 : Nat) (x1 : Nat) : Preserves State.Inv (copySend c x0 x1) := by
  induction x0 generalizing x1 with
  | zero =>
    unfold copySend
    repeat' first
      | (with_reducible first
           | exact Preserve.read | exact Preserve.ret _)
  | succ n ih =>
    unfold copySend
    repeat' first
      | (with_reducible first
           | exact ih .. | exact Preserve.read | exact Preserve.ret _ | exact transferLost_inv .. | exact load_inv ..
           | exact forwarded_inv .. | exact openTransfer_inv .. | refine Preserve.readThen fun _ _ => ?_
           | refine Preserve.andThen ?_ fun _ => ?_ | refine Preserve.cond ?_ ?_)

theorem requestHost_inv (h a n : Nat) : Preserves State.Inv (requestHost h a n) := by
  unfold requestHost
  repeat' first
    | (with_reducible first
         | exact Preserve.read | exact emit_inv .. | refine Preserve.readThen fun _ _ => ?_
         | refine Preserve.andThen ?_ fun _ => ?_ | refine Preserve.each _ fun _ => ?_)
    | (with_reducible refine Preserve.change fun _ h => ?_); exact h

theorem copyRun_inv (c : Cmd) : Preserves State.Inv (copyRun c) := by
  unfold copyRun
  repeat' first
    | (with_reducible first
         | exact Preserve.read | exact Preserve.ret _ | exact copySend_inv .. | exact copyExtent_inv ..
         | exact unitsDone_inv .. | refine Preserve.readThen fun _ _ => ?_ | refine Preserve.andThen ?_ fun _ => ?_
         | refine Preserve.cond ?_ ?_)

theorem bodyCopy_inv (c : Cmd) : Preserves State.Inv (bodyCopy c) := by
  unfold bodyCopy
  repeat' first
    | (with_reducible first
         | exact Preserve.read | exact Preserve.ret _ | exact clampDesc_inv .. | exact copySend_inv ..
         | exact requestHost_inv .. | exact copyRun_inv .. | refine Preserve.readThen fun _ _ => ?_
         | refine Preserve.andThen ?_ fun _ => ?_ | refine Preserve.cond ?_ ?_)
    | split

theorem collRead_inv (c : Cmd) (dest a n : Nat) : Preserves State.Inv (collRead c dest a n) := by
  unfold collRead
  repeat' first
    | (with_reducible first
         | exact load_inv .. | exact forwarded_inv .. | refine Preserve.andThen ?_ fun _ => ?_)

theorem contribute_inv (c : Cmd) (v : CollEnv) (j addr : Nat) (bs : List Nat) : Preserves State.Inv (contribute c v j addr bs) := by
  unfold contribute
  repeat' first
    | (with_reducible first
         | exact Preserve.skip | exact Preserve.read | exact openTransfer_inv ..
         | refine Preserve.readThen fun _ _ => ?_ | refine Preserve.andThen ?_ fun _ => ?_
         | refine Preserve.cond ?_ ?_)

theorem collOwn_inv (c : Cmd) (v : CollEnv) (j k : Nat) : Preserves State.Inv (collOwn c v j k) := by
  unfold collOwn
  repeat' first
    | (with_reducible first
         | exact Preserve.ret _ | exact collRead_inv .. | refine Preserve.andThen ?_ fun _ => ?_)

theorem collConvert_inv (v : CollEnv) (xs : List Nat) : Preserves State.Inv (collConvert v xs) := by
  unfold collConvert
  repeat' first
    | (with_reducible first
         | exact Preserve.ret _ | exact countConv_inv .. | refine Preserve.andThen ?_ fun _ => ?_
         | refine Preserve.cond ?_ ?_)

theorem takeArrivals_inv (p ctx : Nat) (v : CollEnv) (k : Nat) : Preserves State.Inv (takeArrivals p ctx v k) := by
  unfold takeArrivals
  repeat' first
    | (with_reducible first
         | refine Preserve.andThen ?_ fun _ => ?_ | refine Preserve.cond ?_ ?_ | refine Preserve.each _ fun _ => ?_)
    | (with_reducible refine Preserve.change fun _ h => ?_); first | exact h | ((repeat' split) <;> exact h)

theorem collStart_inv (c : Cmd) (v : CollEnv) : Preserves State.Inv (collStart c v) := by
  unfold collStart
  repeat' first
    | (with_reducible first
         | exact Preserve.skip | exact collOwn_inv .. | exact collConvert_inv .. | exact store_inv ..
         | exact contribute_inv .. | exact copyExtent_inv .. | exact collRead_inv ..
         | refine Preserve.andThen ?_ fun _ => ?_ | refine Preserve.cond ?_ ?_ | refine Preserve.each _ fun _ => ?_)

theorem directSum_inv (c : Cmd) (v : CollEnv) : Preserves State.Inv (directSum c v) := by
  unfold directSum
  repeat' first
    | (with_reducible first
         | exact Preserve.ret _ | exact collRead_inv .. | refine Preserve.andThen ?_ fun _ => ?_
         | refine Preserve.cond ?_ ?_ | refine Preserve.collect _ fun _ => ?_)
    | split

theorem collResult_inv (c : Cmd) (v : CollEnv) (xs : List Nat) (dst' : List Nat) : Preserves State.Inv (collResult c v xs dst') := by
  unfold collResult
  repeat' first
    | (with_reducible first
         | exact collConvert_inv .. | exact store_inv .. | exact contribute_inv ..
         | refine Preserve.andThen ?_ fun _ => ?_ | refine Preserve.onlyIf _ ?_ | refine Preserve.cond ?_ ?_
         | refine Preserve.each _ fun _ => ?_)

theorem collStep_inv (c : Cmd) (v : CollEnv) (k : Nat) : Preserves State.Inv (collStep c v k) := by
  unfold collStep
  repeat' first
    | (with_reducible first
         | exact Preserve.skip | exact collRead_inv .. | exact collOwn_inv .. | exact contribute_inv ..
         | exact collResult_inv .. | exact directSum_inv .. | refine Preserve.andThen ?_ fun _ => ?_
         | refine Preserve.cond ?_ ?_)

theorem collGo_inv (c : Cmd) (mask : Nat) (v : CollEnv) (x0 : Nat) (x1 : Nat) : Preserves State.Inv (collGo c mask v x0 x1) := by
  induction x0 generalizing x1 with
  | zero =>
    unfold collGo
    repeat' first
      | (with_reducible first
           | exact Preserve.read | exact Preserve.ret _)
  | succ n ih =>
    unfold collGo
    repeat' first
      | (with_reducible first
           | exact ih .. | exact Preserve.read | exact Preserve.ret _ | exact storeVal_inv ..
           | exact takeArrivals_inv .. | exact collStep_inv .. | refine Preserve.readThen fun _ _ => ?_
           | refine Preserve.andThen ?_ fun _ => ?_ | refine Preserve.onlyIf _ ?_ | refine Preserve.cond ?_ ?_)

theorem collEnd_inv (c : Cmd) (status : Nat) : Preserves State.Inv (collEnd c status) := by
  unfold collEnd
  repeat' first
    | (with_reducible first
         | exact Preserve.ret _ | exact storeVal_inv .. | exact bump_inv .. | refine Preserve.andThen ?_ fun _ => ?_
         | refine Preserve.onlyIf _ ?_)

theorem bodyCollective_inv (c : Cmd) : Preserves State.Inv (bodyCollective c) := by
  unfold bodyCollective
  repeat' first
    | (with_reducible first
         | exact Preserve.read | exact clampDesc_inv .. | exact load_inv .. | exact collEnd_inv ..
         | exact collStart_inv .. | exact collGo_inv .. | refine Preserve.readThen fun _ _ => ?_
         | refine Preserve.andThen ?_ fun _ => ?_ | refine Preserve.cond ?_ ?_)

theorem markCollectives_inv : Preserves State.Inv markCollectives := by
  unfold markCollectives
  repeat' first
    | (with_reducible first
         | refine Preserve.andThen ?_ fun _ => ?_ | refine Preserve.cond ?_ ?_)
    | (with_reducible refine Preserve.change fun _ h => ?_); exact h

theorem remoteWaitRecord_inv (e p ctx : Nat) : Preserves State.Inv (remoteWaitRecord e p ctx) := by
  unfold remoteWaitRecord
  repeat' first
    | (with_reducible first
         | exact Preserve.read | exact recordFault_inv .. | exact raiseEvent_inv .. | exact bump_inv ..
         | exact setInst_inv .. | refine Preserve.readThen fun _ _ => ?_ | refine Preserve.andThen ?_ fun _ => ?_
         | refine Preserve.onlyIf _ ?_)

theorem remoteWaitExpiry_inv (e p ctx : Nat) : Preserves State.Inv (remoteWaitExpiry e p ctx) := by
  unfold remoteWaitExpiry
  repeat' first
    | (with_reducible first
         | exact Preserve.skip | exact Preserve.read | exact remoteWaitRecord_inv .. | exact endCollective_inv ..
         | exact setEngine_inv .. | exact transferLost_inv .. | refine Preserve.readThen fun _ _ => ?_
         | refine Preserve.andThen ?_ fun _ => ?_ | refine Preserve.onlyIf _ ?_ | refine Preserve.cond ?_ ?_
         | refine Preserve.each _ fun _ => ?_)
    | (with_reducible refine Preserve.change fun _ h => ?_); exact h
    | split

/-! ## Contexts -/

theorem ctlCue_inv (p a : Nat) : Preserves State.Inv (ctlCue p a) := by
  unfold ctlCue
  repeat' first
    | (with_reducible first
         | exact signalCue_inv ..)

theorem ctlIgnored_inv (p v : Nat) : Preserves State.Inv (ctlIgnored p v) := by
  unfold ctlIgnored
  repeat' first
    | (with_reducible first
         | exact bump_inv .. | exact ctlCue_inv .. | refine Preserve.andThen ?_ fun _ => ?_)

theorem ctlClamped_inv (p v : Nat) : Preserves State.Inv (ctlClamped p v) := by
  unfold ctlClamped
  repeat' first
    | (with_reducible first
         | exact clampDesc_inv .. | exact ctlCue_inv .. | refine Preserve.andThen ?_ fun _ => ?_)

theorem holdCtl_inv (p addr v : Nat) : Preserves State.Inv (holdCtl p addr v) := by
  unfold holdCtl
  repeat' first
    | (with_reducible first
         | refine Preserve.andThen ?_ fun _ => ?_)
    | (with_reducible refine Preserve.change fun _ h => ?_); exact h

theorem ctlBack_inv (addr v : Nat) : Preserves State.Inv (ctlBack addr v) := by
  unfold ctlBack
  repeat' first
    | (with_reducible first
         | exact storeVal_inv ..)

theorem ctxOpen_inv (p addr v : Nat) : Preserves State.Inv (ctxOpen p addr v) := by
  unfold ctxOpen
  repeat' first
    | (with_reducible first
         | exact Preserve.read | exact ctlBack_inv .. | exact ctlCue_inv .. | exact holdCtl_inv ..
         | refine Preserve.readThen fun _ _ => ?_ | refine Preserve.andThen ?_ fun _ => ?_
         | refine Preserve.cond ?_ ?_)
    | (with_reducible refine Preserve.change fun _ h => ?_); exact h
    | split
    | dsimp only

theorem fenceCtx_inv (p c cue : Nat) : Preserves State.Inv (fenceCtx p c cue) := by
  unfold fenceCtx
  repeat' first
    | (with_reducible first
         | exact Preserve.read | exact putRefs_inv .. | exact emptySlot_inv ..
         | refine Preserve.readThen fun _ _ => ?_ | refine Preserve.andThen ?_ fun _ => ?_
         | refine Preserve.onlyIf _ ?_ | refine Preserve.cond ?_ ?_ | refine Preserve.each _ fun _ => ?_)
    | (with_reducible refine Preserve.change fun _ h => ?_); exact h

theorem ctxTeardown_inv (p addr v : Nat) : Preserves State.Inv (ctxTeardown p addr v) := by
  unfold ctxTeardown
  repeat' first
    | (with_reducible first
         | exact Preserve.read | exact ctlIgnored_inv .. | exact holdCtl_inv .. | exact fenceCtx_inv ..
         | refine Preserve.readThen fun _ _ => ?_ | refine Preserve.andThen ?_ fun _ => ?_
         | refine Preserve.cond ?_ ?_)

theorem streamBind_inv (p addr v : Nat) (again : Bool) : Preserves State.Inv (streamBind p addr v again) := by
  unfold streamBind
  repeat' first
    | (with_reducible first
         | exact Preserve.read | exact ctlIgnored_inv .. | exact ctlClamped_inv .. | exact clampDesc_inv ..
         | exact ctlBack_inv .. | exact ctlCue_inv .. | exact holdCtl_inv .. | exact bump_inv ..
         | refine Preserve.readThen fun _ _ => ?_ | refine Preserve.andThen ?_ fun _ => ?_
         | refine Preserve.onlyIf _ ?_ | refine Preserve.cond ?_ ?_)
    | (with_reducible refine Preserve.change fun _ h => ?_); exact h
    | split

theorem streamUnbind_inv (p v : Nat) : Preserves State.Inv (streamUnbind p v) := by
  unfold streamUnbind
  repeat' first
    | (with_reducible first
         | exact Preserve.read | exact ctlIgnored_inv .. | exact ctlClamped_inv .. | exact ctlCue_inv ..
         | refine Preserve.readThen fun _ _ => ?_ | refine Preserve.andThen ?_ fun _ => ?_
         | refine Preserve.cond ?_ ?_)
    | (with_reducible refine Preserve.change fun _ h => ?_); exact h
    | split

theorem ctxPreempt_inv (p addr v : Nat) (again : Bool) : Preserves State.Inv (ctxPreempt p addr v again) := by
  unfold ctxPreempt
  repeat' first
    | (with_reducible first
         | exact Preserve.read | exact holdCtl_inv .. | exact ctlCue_inv .. | exact ctlIgnored_inv ..
         | exact ctlClamped_inv .. | exact saveParts_inv .. | refine Preserve.readThen fun _ _ => ?_
         | refine Preserve.andThen ?_ fun _ => ?_ | refine Preserve.cond ?_ ?_ | refine Preserve.each _ fun _ => ?_)
    | (with_reducible refine Preserve.change fun _ h => ?_); exact h

theorem ctxResume_inv (p v : Nat) : Preserves State.Inv (ctxResume p v) := by
  unfold ctxResume
  repeat' first
    | (with_reducible first
         | exact Preserve.read | exact ctlIgnored_inv .. | exact ctlClamped_inv .. | exact ctlCue_inv ..
         | refine Preserve.readThen fun _ _ => ?_ | refine Preserve.andThen ?_ fun _ => ?_
         | refine Preserve.cond ?_ ?_)
    | (with_reducible refine Preserve.change fun _ h => ?_); exact h

theorem performCtl_inv (p addr v : Nat) (again : Bool) : Preserves State.Inv (performCtl p addr v again) := by
  unfold performCtl
  repeat' first
    | (with_reducible first
         | exact Preserve.read | exact ctxOpen_inv .. | exact ctxTeardown_inv .. | exact streamBind_inv ..
         | exact streamUnbind_inv .. | exact ctxPreempt_inv .. | exact ctxResume_inv .. | exact clampDesc_inv ..
         | exact ctlCue_inv .. | exact ctlIgnored_inv .. | refine Preserve.readThen fun _ _ => ?_
         | refine Preserve.andThen ?_ fun _ => ?_ | refine Preserve.onlyIf _ ?_ | refine Preserve.cond ?_ ?_)
    | split

theorem retryHeld_inv : Preserves State.Inv retryHeld := by
  unfold retryHeld
  repeat' first
    | (with_reducible first
         | exact Preserve.read | exact performCtl_inv .. | refine Preserve.readThen fun _ _ => ?_)
    | (with_reducible refine Preserve.put ?_); assumption
    | (with_reducible first
         | refine Preserve.andThen ?_ fun _ => ?_ | refine Preserve.each _ fun _ => ?_)

theorem takeCtl_inv (p : Nat) (ops : List Nat) : Preserves State.Inv (takeCtl p ops) := by
  unfold takeCtl
  repeat' first
    | (with_reducible first
         | exact Preserve.read | exact Preserve.ret _ | exact load_inv .. | exact setDoor_inv ..
         | exact recordUe_inv .. | exact performCtl_inv .. | refine Preserve.readThen fun _ _ => ?_
         | refine Preserve.andThen ?_ fun _ => ?_ | refine Preserve.cond ?_ ?_)
    | split

theorem passNops_inv (p : Nat) (x0 : Nat) : Preserves State.Inv (passNops p x0) := by
  induction x0 with
  | zero =>
    unfold passNops
    repeat' first
      | (with_reducible first
           | exact Preserve.skip)
  | succ n ih =>
    unfold passNops
    repeat' first
      | (with_reducible first
           | exact ih .. | exact Preserve.skip | exact takeCtl_inv .. | refine Preserve.andThen ?_ fun _ => ?_
           | refine Preserve.cond ?_ ?_)

theorem ctlRow_inv (p op : Nat) : Preserves State.Inv (ctlRow p op) := by
  unfold ctlRow
  repeat' first
    | (with_reducible first
         | exact passNops_inv .. | exact takeCtl_inv .. | exact retryHeld_inv ..
         | refine Preserve.andThen ?_ fun _ => ?_ | refine Preserve.onlyIf _ ?_)

theorem startQueues_inv (p : Nat) : Preserves State.Inv (startQueues p) := by
  unfold startQueues
  repeat' first
    | (with_reducible first
         | exact par_inv .. | exact setEff_inv .. | refine Preserve.andThen ?_ fun _ => ?_
         | refine Preserve.each _ fun _ => ?_)

theorem followPartitions_inv : Preserves State.Inv followPartitions := by
  unfold followPartitions
  repeat' first
    | (with_reducible first
         | exact Preserve.skip | exact Preserve.read | exact setMode_inv .. | refine Preserve.readThen fun _ _ => ?_
         | refine Preserve.andThen ?_ fun _ => ?_ | refine Preserve.onlyIf _ ?_)
    | split

theorem partitionStart_inv (p : Nat) : Preserves State.Inv (partitionStart p) := by
  unfold partitionStart
  repeat' first
    | (with_reducible first
         | exact Preserve.skip | exact Preserve.read | exact setPar_inv .. | exact readPlacements_inv ..
         | exact startQueues_inv .. | exact startKv_inv .. | exact startExperts_inv .. | exact followPartitions_inv ..
         | refine Preserve.readThen fun _ _ => ?_ | refine Preserve.andThen ?_ fun _ => ?_
         | refine Preserve.cond ?_ ?_)

theorem partitionGoOn_inv (p : Nat) : Preserves State.Inv (partitionGoOn p) := by
  unfold partitionGoOn
  repeat' first
    | (with_reducible first
         | exact Preserve.skip | exact Preserve.read | exact setPar_inv .. | exact fenceCtx_inv ..
         | exact followPartitions_inv .. | refine Preserve.readThen fun _ _ => ?_
         | refine Preserve.andThen ?_ fun _ => ?_ | refine Preserve.cond ?_ ?_ | refine Preserve.each _ fun _ => ?_)
    | (with_reducible refine Preserve.change fun _ h => ?_); exact h

theorem partitionStop_inv (p : Nat) : Preserves State.Inv (partitionStop p) := by
  unfold partitionStop
  repeat' first
    | (with_reducible first
         | exact Preserve.skip | exact Preserve.read | exact setPar_inv .. | exact setInst_inv ..
         | exact dropIssued_inv .. | exact instanceStop_inv .. | exact partitionGoOn_inv ..
         | refine Preserve.readThen fun _ _ => ?_ | refine Preserve.andThen ?_ fun _ => ?_
         | refine Preserve.cond ?_ ?_)

theorem partitionRunning_inv (p : Nat) : Preserves State.Inv (partitionRunning p) := by
  unfold partitionRunning
  repeat' first
    | (with_reducible first
         | exact Preserve.skip | exact Preserve.read | exact setPar_inv .. | exact instanceStart_inv ..
         | exact partitionGoOn_inv .. | refine Preserve.readThen fun _ _ => ?_
         | refine Preserve.andThen ?_ fun _ => ?_ | refine Preserve.cond ?_ ?_)
    | (with_reducible refine Preserve.change fun _ h => ?_); exact h

theorem afterServing_inv : Preserves State.Inv afterServing := by
  unfold afterServing
  repeat' first
    | (with_reducible first
         | exact retryHeld_inv .. | exact partitionGoOn_inv .. | refine Preserve.andThen ?_ fun _ => ?_
         | refine Preserve.each _ fun _ => ?_)

theorem releaseCtxFrames_inv (p c : Nat) : Preserves State.Inv (releaseCtxFrames p c) := by
  unfold releaseCtxFrames
  repeat' first
    | (with_reducible first
         | exact Preserve.skip | exact Preserve.read | exact releaseSeq_inv .. | exact releaseLate_inv ..
         | exact syncReels_inv .. | exact refreshAvail_inv .. | refine Preserve.readThen fun _ _ => ?_
         | refine Preserve.andThen ?_ fun _ => ?_ | refine Preserve.cond ?_ ?_ | refine Preserve.each _ fun _ => ?_)

theorem contextDrained_inv (p c : Nat) : Preserves State.Inv (contextDrained p c) := by
  unfold contextDrained
  repeat' first
    | (with_reducible first
         | exact Preserve.skip | exact Preserve.read | exact raiseEvent_inv .. | exact ctlCue_inv ..
         | exact bump_inv .. | exact releaseCtxFrames_inv .. | exact retryHeld_inv .. | exact partitionGoOn_inv ..
         | refine Preserve.readThen fun _ _ => ?_ | refine Preserve.andThen ?_ fun _ => ?_
         | refine Preserve.cond ?_ ?_ | refine Preserve.each _ fun _ => ?_)
    | (with_reducible refine Preserve.change fun _ h => ?_); exact h

theorem contextFree_inv (p c : Nat) : Preserves State.Inv (contextFree p c) := by
  unfold contextFree
  repeat' first
    | (with_reducible first
         | exact Preserve.skip | exact Preserve.read | exact retryHeld_inv .. | refine Preserve.readThen fun _ _ => ?_
         | refine Preserve.andThen ?_ fun _ => ?_ | refine Preserve.cond ?_ ?_)
    | (with_reducible refine Preserve.change fun _ h => ?_); exact h

theorem decodeRef_inv (e p c d : Nat) : Preserves State.Inv (decodeRef e p c d) := by
  unfold decodeRef
  repeat' first
    | (with_reducible first
         | exact Preserve.skip | exact Preserve.read | exact load_inv .. | exact takeRef_inv ..
         | refine Preserve.readThen fun _ _ => ?_ | refine Preserve.andThen ?_ fun _ => ?_
         | refine Preserve.onlyIf _ ?_ | refine Preserve.cond ?_ ?_)

theorem descriptorFetch_inv (p c e : Nat) : Preserves State.Inv (descriptorFetch p c e) := by
  unfold descriptorFetch
  repeat' first
    | (with_reducible first
         | exact Preserve.skip | exact Preserve.read | exact load_inv .. | exact setEngine_inv .. | exact bump_inv ..
         | exact recordUe_inv .. | exact clampDesc_inv .. | exact noteBadWait_inv .. | exact decodeRef_inv ..
         | exact evalHead_inv .. | refine Preserve.readThen fun _ _ => ?_ | refine Preserve.andThen ?_ fun _ => ?_
         | refine Preserve.onlyIf _ ?_ | refine Preserve.cond ?_ ?_)
    | (with_reducible refine Preserve.change fun _ h => ?_); exact h
    | split

theorem cueWriteSeen_inv (e a : Nat) : Preserves State.Inv (cueWriteSeen e a) := by
  unfold cueWriteSeen
  repeat' first
    | (with_reducible first
         | exact Preserve.skip | exact Preserve.read | exact evalHead_inv .. | exact markIssued_inv ..
         | refine Preserve.readThen fun _ _ => ?_ | refine Preserve.andThen ?_ fun _ => ?_
         | refine Preserve.cond ?_ ?_ | refine Preserve.each _ fun _ => ?_)
    | split

theorem cmdDoorbell_inv (p v : Nat) : Preserves State.Inv (cmdDoorbell p v) := by
  unfold cmdDoorbell
  repeat' first
    | (with_reducible first
         | exact Preserve.read | exact Preserve.ret _ | exact bump_inv .. | refine Preserve.readThen fun _ _ => ?_
         | refine Preserve.andThen ?_ fun _ => ?_ | refine Preserve.cond ?_ ?_)
    | (with_reducible refine Preserve.change fun _ h => ?_); exact h
    | split
    | dsimp only

theorem markParts_inv (arm : Nat) : Preserves State.Inv (markParts arm) := by
  unfold markParts
  repeat' first
    | (with_reducible first
         | exact markCollectives_inv .. | exact markIssued_inv .. | refine Preserve.andThen ?_ fun _ => ?_)
    | (with_reducible refine Preserve.change fun _ h => ?_); exact h

theorem issuedBody_inv (c : Cmd) : Preserves State.Inv (issuedBody c) := by
  unfold issuedBody
  repeat' first
    | (with_reducible first
         | exact Preserve.ret _ | refine watched_inv (hbody := fun _ => ?_) .. | exact matmulBody_inv ..
         | exact listBody_inv .. | exact padBody_inv .. | exact gluBody_inv .. | exact bodySample_inv ..
         | exact bodyVec_inv .. | exact bodyAttend_inv .. | exact bodyAttnFeed_inv .. | exact bodyAttnReturn_inv ..
         | exact bodyAttnMerge_inv .. | exact bodyDispatch_inv .. | exact bodyGatherSkip_inv ..
         | exact bodyReturn_inv .. | exact bodyCombine_inv .. | exact bodyCopy_inv .. | exact bodyCollective_inv ..
         | exact bodyRoute_inv .. | exact bodyBuildLists_inv .. | refine Preserve.andThen ?_ fun _ => ?_
         | refine Preserve.cond ?_ ?_)
    | split

theorem resumePart_inv (c : Cmd) (x0 : Wait) : Preserves State.Inv (resumePart c x0) := by
  unfold resumePart
  repeat' first
    | (with_reducible first
         | exact Preserve.read | exact Preserve.ret _ | refine watched_inv (hbody := fun _ => ?_) ..
         | exact runCombines_inv .. | exact encodePass2_inv .. | exact copySend_inv .. | exact collGo_inv ..
         | exact copyRun_inv .. | exact padBody_inv .. | exact issuedBody_inv ..
         | refine Preserve.readThen fun _ _ => ?_ | refine Preserve.andThen ?_ fun _ => ?_
         | refine Preserve.cond ?_ ?_)
    | split

theorem nextUnits_inv (arm : Nat) (x0 : Nat) : Preserves State.Inv (nextUnits arm x0) := by
  induction x0 with
  | zero =>
    unfold nextUnits
    repeat' first
      | (with_reducible first
           | exact Preserve.skip)
  | succ n ih =>
    unfold nextUnits
    repeat' first
      | (with_reducible first
           | exact ih .. | exact Preserve.skip | exact Preserve.read | exact markParts_inv .. | exact setEngine_inv ..
           | exact noteBlame_inv .. | exact saveWaits_inv .. | exact noteGrant_inv .. | exact clampDesc_inv ..
           | exact resumePart_inv .. | exact endFirst_inv .. | refine Preserve.readThen fun _ _ => ?_
           | refine Preserve.andThen ?_ fun _ => ?_ | refine Preserve.onlyIf _ ?_ | refine Preserve.cond ?_ ?_)
      | split

theorem tileFailure_inv (e cell kind tile : Nat) (rides : Bool) : Preserves State.Inv (tileFailure e cell kind tile rides) := by
  unfold tileFailure
  repeat' first
    | (with_reducible first
         | exact Preserve.skip | exact Preserve.read | exact windowAdd_inv .. | exact recordFault_inv ..
         | exact cellFails_inv .. | exact bump_inv .. | exact setEngine_inv .. | exact reportBlock_inv ..
         | refine Preserve.readThen fun _ _ => ?_ | refine Preserve.andThen ?_ fun _ => ?_
         | refine Preserve.onlyIf _ ?_ | refine Preserve.cond ?_ ?_)
    | (with_reducible refine Preserve.change fun _ h => ?_); exact h

theorem settleUnbinds_inv (arm : Nat) : Preserves State.Inv (settleUnbinds arm) := by
  unfold settleUnbinds
  repeat' first
    | (with_reducible first
         | exact Preserve.read | exact ctlCue_inv .. | refine Preserve.readThen fun _ _ => ?_
         | refine Preserve.andThen ?_ fun _ => ?_ | refine Preserve.each _ fun _ => ?_)
    | (with_reducible refine Preserve.change fun _ h => ?_); exact h

theorem endGoing_inv (arm more : Nat) : Preserves State.Inv (endGoing arm more) := by
  unfold endGoing
  repeat' first
    | (with_reducible first
         | exact Preserve.skip | exact Preserve.read | exact setEngine_inv .. | exact completeCmd_inv ..
         | exact releaseRefs_inv .. | refine Preserve.readThen fun _ _ => ?_ | refine Preserve.andThen ?_ fun _ => ?_
         | refine Preserve.cond ?_ ?_)
    | split

theorem unitComplete_inv (arm : Nat) (fails : List (Nat × Nat × Nat)) : Preserves State.Inv (unitComplete arm fails) := by
  unfold unitComplete
  repeat' first
    | (with_reducible first
         | exact Preserve.skip | exact Preserve.read | exact setEngine_inv .. | exact tileFailure_inv ..
         | exact endGoing_inv .. | exact settleUnbinds_inv .. | exact retryHeld_inv .. | exact nextUnits_inv ..
         | refine Preserve.readThen fun _ _ => ?_ | refine Preserve.andThen ?_ fun _ => ?_
         | refine Preserve.onlyIf _ ?_ | refine Preserve.cond ?_ ?_ | refine Preserve.each _ fun _ => ?_)

/-! ## Power -/

theorem putLimit_inv : Preserves State.Inv putLimit := by
  unfold putLimit
  repeat' first
    | (with_reducible first
         | exact Preserve.read | exact setPar_inv .. | exact setPower_inv .. | refine Preserve.readThen fun _ _ => ?_
         | refine Preserve.andThen ?_ fun _ => ?_)

theorem gateClose_inv : Preserves State.Inv gateClose := by
  unfold gateClose
  repeat' first
    | (with_reducible first
         | exact Preserve.skip | exact Preserve.read | exact setPar_inv .. | exact setPower_inv ..
         | refine Preserve.readThen fun _ _ => ?_ | refine Preserve.andThen ?_ fun _ => ?_
         | refine Preserve.cond ?_ ?_)

theorem putPennant_inv (n : Nat) (on : Bool) : Preserves State.Inv (putPennant n on) := by
  unfold putPennant
  repeat' first
    | (with_reducible first
         | exact Preserve.read | exact setPennant_inv .. | exact setPar_inv .. | exact raiseEvent_inv ..
         | exact gateClose_inv .. | exact accruePennant_inv .. | refine Preserve.readThen fun _ _ => ?_
         | refine Preserve.andThen ?_ fun _ => ?_ | refine Preserve.onlyIf _ ?_ | refine Preserve.cond ?_ ?_)

theorem putPennants_inv : Preserves State.Inv putPennants := by
  unfold putPennants
  repeat' first
    | (with_reducible first
         | exact Preserve.read | exact putPennant_inv .. | refine Preserve.readThen fun _ _ => ?_
         | refine Preserve.andThen ?_ fun _ => ?_ | refine Preserve.each _ fun _ => ?_)

theorem putStretch_inv : Preserves State.Inv putStretch := by
  unfold putStretch
  repeat' first
    | (with_reducible first
         | exact Preserve.read | exact setPar_inv .. | refine Preserve.readThen fun _ _ => ?_)

theorem accrueDroop_inv : Preserves State.Inv accrueDroop := by
  unfold accrueDroop
  repeat' first
    | (with_reducible first
         | exact Preserve.read | exact setPower_inv .. | refine Preserve.readThen fun _ _ => ?_
         | refine Preserve.andThen ?_ fun _ => ?_ | refine Preserve.cond ?_ ?_)

theorem droopRow_inv (region : Nat) : Preserves State.Inv (droopRow region) := by
  unfold droopRow
  repeat' first
    | (with_reducible first
         | exact Preserve.skip | exact Preserve.read | exact accrueDroop_inv .. | exact setPower_inv ..
         | exact bump_inv .. | exact putStretch_inv .. | exact putPennants_inv ..
         | refine Preserve.readThen fun _ _ => ?_ | refine Preserve.andThen ?_ fun _ => ?_
         | refine Preserve.cond ?_ ?_)
    | split

theorem droopRelease_inv (region : Nat) : Preserves State.Inv (droopRelease region) := by
  unfold droopRelease
  repeat' first
    | (with_reducible first
         | exact Preserve.skip | exact Preserve.read | exact accrueDroop_inv .. | exact setPower_inv ..
         | exact putStretch_inv .. | exact putPennants_inv .. | refine Preserve.readThen fun _ _ => ?_
         | refine Preserve.andThen ?_ fun _ => ?_ | refine Preserve.cond ?_ ?_)
    | split

theorem rampSlot_inv (region : Nat) (classes : List (Nat × Nat)) : Preserves State.Inv (rampSlot region classes) := by
  unfold rampSlot
  repeat' first
    | (with_reducible first
         | exact Preserve.skip | exact Preserve.read | exact setPower_inv .. | exact bump_inv ..
         | exact putStretch_inv .. | exact putPennants_inv .. | refine Preserve.readThen fun _ _ => ?_
         | refine Preserve.andThen ?_ fun _ => ?_ | refine Preserve.onlyIf _ ?_ | refine Preserve.cond ?_ ?_)

theorem supplyOnset_inv (f : PowerSt → PowerSt) : Preserves State.Inv (supplyOnset f) := by
  unfold supplyOnset
  repeat' first
    | (with_reducible first
         | exact Preserve.read | exact bump_inv .. | exact setPower_inv .. | exact putLimit_inv ..
         | refine Preserve.readThen fun _ _ => ?_ | refine Preserve.andThen ?_ fun _ => ?_
         | refine Preserve.onlyIf _ ?_)

theorem supplyCleared_inv (f : PowerSt → PowerSt) : Preserves State.Inv (supplyCleared f) := by
  unfold supplyCleared
  repeat' first
    | (with_reducible first
         | exact Preserve.read | exact setPower_inv .. | refine Preserve.readThen fun _ _ => ?_)

theorem putVolts_inv (mv : Nat) : Preserves State.Inv (putVolts mv) := by
  unfold putVolts
  repeat' first
    | (with_reducible first
         | exact setPar_inv .. | exact setPower_inv .. | refine Preserve.andThen ?_ fun _ => ?_)

theorem sagOver_inv (mv : Nat) : Preserves State.Inv (sagOver mv) := by
  unfold sagOver
  repeat' first
    | (with_reducible first
         | exact Preserve.read | exact supplyCleared_inv .. | refine Preserve.readThen fun _ _ => ?_
         | refine Preserve.andThen ?_ fun _ => ?_ | refine Preserve.onlyIf _ ?_)

theorem governorPeriod_inv (avg mv : Nat) (draw : List Nat) : Preserves State.Inv (governorPeriod avg mv draw) := by
  unfold governorPeriod
  repeat' first
    | (with_reducible first
         | exact Preserve.skip | exact Preserve.read | exact setPar_inv .. | exact setPower_inv ..
         | exact sagOver_inv .. | exact putLimit_inv .. | exact accrueDroop_inv .. | exact gateClose_inv ..
         | exact putStretch_inv .. | exact putPennants_inv .. | refine Preserve.readThen fun _ _ => ?_
         | refine Preserve.andThen ?_ fun _ => ?_ | refine Preserve.onlyIf _ ?_ | refine Preserve.cond ?_ ?_)

theorem fastPath_inv : Preserves State.Inv fastPath := by
  unfold fastPath
  repeat' first
    | (with_reducible first
         | exact Preserve.skip | exact Preserve.read | exact putLimit_inv .. | exact gateClose_inv ..
         | exact setPower_inv .. | exact bump_inv .. | exact putPennants_inv ..
         | refine Preserve.readThen fun _ _ => ?_ | refine Preserve.andThen ?_ fun _ => ?_
         | refine Preserve.cond ?_ ?_)

theorem fastPathStep_inv (avg stretch duty : Nat) : Preserves State.Inv (fastPathStep avg stretch duty) := by
  unfold fastPathStep
  repeat' first
    | (with_reducible first
         | exact Preserve.skip | exact Preserve.read | exact setPower_inv .. | exact setPar_inv ..
         | exact putStretch_inv .. | exact putPennants_inv .. | refine Preserve.readThen fun _ _ => ?_
         | refine Preserve.andThen ?_ fun _ => ?_ | refine Preserve.cond ?_ ?_)

theorem opStep_inv : Preserves State.Inv opStep := by
  unfold opStep
  repeat' first
    | (with_reducible first
         | exact Preserve.skip | exact Preserve.read | exact setPar_inv .. | exact bump_inv .. | exact setPower_inv ..
         | exact putStretch_inv .. | exact putPennants_inv .. | refine Preserve.readThen fun _ _ => ?_
         | refine Preserve.andThen ?_ fun _ => ?_ | refine Preserve.onlyIf _ ?_ | refine Preserve.cond ?_ ?_)

theorem putOffset_inv (z : Int) : Preserves State.Inv (putOffset z) := by
  unfold putOffset
  repeat' first
    | (with_reducible first
         | exact setPar_inv ..)

theorem returnAll_inv : Preserves State.Inv returnAll := by
  unfold returnAll
  repeat' first
    | (with_reducible first
         | exact Preserve.read | exact putOffset_inv .. | exact emit_inv .. | exact tradeToken_inv ..
         | exact setPower_inv .. | refine Preserve.readThen fun _ _ => ?_ | refine Preserve.andThen ?_ fun _ => ?_
         | refine Preserve.each _ fun _ => ?_)

theorem leaseCommit_inv (v : Nat) : Preserves State.Inv (leaseCommit v) := by
  unfold leaseCommit
  repeat' first
    | (with_reducible first
         | exact Preserve.skip | exact Preserve.read | exact returnAll_inv .. | exact setPower_inv ..
         | exact setPar_inv .. | exact putLimit_inv .. | exact bump_inv .. | refine Preserve.readThen fun _ _ => ?_
         | refine Preserve.andThen ?_ fun _ => ?_ | refine Preserve.onlyIf _ ?_ | refine Preserve.cond ?_ ?_)

theorem leaseExpiry_inv : Preserves State.Inv leaseExpiry := by
  unfold leaseExpiry
  repeat' first
    | (with_reducible first
         | exact Preserve.skip | exact Preserve.read | exact setPar_inv .. | exact putOffset_inv ..
         | exact setPower_inv .. | exact putLimit_inv .. | exact putPennants_inv ..
         | refine Preserve.readThen fun _ _ => ?_ | refine Preserve.andThen ?_ fun _ => ?_
         | refine Preserve.cond ?_ ?_)

theorem supplySag_inv (mv : Nat) : Preserves State.Inv (supplySag mv) := by
  unfold supplySag
  repeat' first
    | (with_reducible first
         | exact Preserve.skip | exact Preserve.read | exact putVolts_inv .. | exact supplyOnset_inv ..
         | refine Preserve.readThen fun _ _ => ?_ | refine Preserve.andThen ?_ fun _ => ?_
         | refine Preserve.onlyIf _ ?_ | refine Preserve.cond ?_ ?_)

theorem derateAssert_inv : Preserves State.Inv derateAssert := by
  unfold derateAssert
  repeat' first
    | (with_reducible first
         | exact Preserve.read | exact supplyOnset_inv .. | exact setPower_inv ..
         | refine Preserve.readThen fun _ _ => ?_ | refine Preserve.andThen ?_ fun _ => ?_
         | refine Preserve.cond ?_ ?_)

theorem derateRelease_inv : Preserves State.Inv derateRelease := by
  unfold derateRelease
  repeat' first
    | (with_reducible first
         | exact Preserve.skip | exact Preserve.read | exact supplyCleared_inv ..
         | refine Preserve.readThen fun _ _ => ?_ | refine Preserve.andThen ?_ fun _ => ?_
         | refine Preserve.cond ?_ ?_)

theorem supplyLimitClear_inv : Preserves State.Inv supplyLimitClear := by
  unfold supplyLimitClear
  repeat' first
    | (with_reducible first
         | exact Preserve.skip | exact Preserve.read | exact setPower_inv .. | exact putLimit_inv ..
         | refine Preserve.readThen fun _ _ => ?_ | refine Preserve.andThen ?_ fun _ => ?_
         | refine Preserve.cond ?_ ?_)
    | split

theorem converterStop_inv (mv : Nat) (high' : Bool) : Preserves State.Inv (converterStop mv high') := by
  unfold converterStop
  repeat' first
    | (with_reducible first
         | exact Preserve.skip | exact Preserve.read | exact putVolts_inv .. | exact setPower_inv ..
         | exact putLimit_inv .. | refine Preserve.readThen fun _ _ => ?_ | refine Preserve.andThen ?_ fun _ => ?_
         | refine Preserve.cond ?_ ?_)

theorem inputRestart_inv (mv : Nat) : Preserves State.Inv (inputRestart mv) := by
  unfold inputRestart
  repeat' first
    | (with_reducible first
         | exact Preserve.skip | exact Preserve.read | exact putVolts_inv .. | exact sagOver_inv ..
         | exact supplyOnset_inv .. | exact supplyCleared_inv .. | exact setPower_inv .. | exact putLimit_inv ..
         | refine Preserve.readThen fun _ _ => ?_ | refine Preserve.andThen ?_ fun _ => ?_
         | refine Preserve.onlyIf _ ?_ | refine Preserve.cond ?_ ?_)

theorem powerUnitFails_inv (stage : Bool) (region unit occ : Nat) : Preserves State.Inv (powerUnitFails stage region unit occ) := by
  unfold powerUnitFails
  repeat' first
    | (with_reducible first
         | exact Preserve.skip | exact Preserve.read | exact noteFailed_inv .. | exact recordFault_inv ..
         | exact bump_inv .. | exact setPar_inv .. | exact putLimit_inv .. | refine Preserve.readThen fun _ _ => ?_
         | refine Preserve.andThen ?_ fun _ => ?_ | refine Preserve.onlyIf _ ?_ | refine Preserve.cond ?_ ?_)

theorem powerUnitFailure_inv (sign : PowerSign) (region unit : Nat) : Preserves State.Inv (powerUnitFailure sign region unit) := by
  unfold powerUnitFailure
  repeat' first
    | (with_reducible first
         | exact Preserve.skip | exact Preserve.read | exact setPower_inv .. | exact powerUnitFails_inv ..
         | refine Preserve.readThen fun _ _ => ?_ | refine Preserve.andThen ?_ fun _ => ?_
         | refine Preserve.onlyIf _ ?_ | refine Preserve.cond ?_ ?_)
    | split

theorem becomeSpare_inv (v key : Nat) : Preserves State.Inv (becomeSpare v key) := by
  unfold becomeSpare
  repeat' first
    | (with_reducible first
         | exact Preserve.read | refine Preserve.readThen fun _ _ => ?_ | refine Preserve.andThen ?_ fun _ => ?_
         | refine Preserve.onlyIf _ ?_ | refine Preserve.cond ?_ ?_)
    | (with_reducible refine Preserve.change fun _ h => ?_); exact h

theorem unitRestore_inv (v : Nat) (pass : Bool) : Preserves State.Inv (unitRestore v pass) := by
  unfold unitRestore
  repeat' first
    | (with_reducible first
         | exact Preserve.skip | exact Preserve.read | exact setPar_inv .. | exact becomeSpare_inv ..
         | exact recordFault_inv .. | exact putLimit_inv .. | refine Preserve.readThen fun _ _ => ?_
         | refine Preserve.andThen ?_ fun _ => ?_ | refine Preserve.cond ?_ ?_)
    | (with_reducible refine Preserve.change fun _ h => ?_); exact h
    | split

theorem thermalCompare_inv (hottest : Int) (avg sensor : Nat) : Preserves State.Inv (thermalCompare hottest avg sensor) := by
  unfold thermalCompare
  repeat' first
    | (with_reducible first
         | exact Preserve.skip | exact Preserve.read | exact setPower_inv .. | exact setPar_inv ..
         | exact putPennants_inv .. | refine Preserve.readThen fun _ _ => ?_ | refine Preserve.andThen ?_ fun _ => ?_
         | refine Preserve.cond ?_ ?_)
    | (with_reducible refine Preserve.change fun _ h => ?_); exact h

theorem coolantSample_inv (flow : Nat) (inlet outlet : Int) : Preserves State.Inv (coolantSample flow inlet outlet) := by
  unfold coolantSample
  repeat' first
    | (with_reducible first
         | exact Preserve.skip | exact Preserve.read | exact pump_inv .. | exact setPar_inv .. | exact bump_inv ..
         | exact raiseEvent_inv .. | exact setPower_inv .. | exact putLimit_inv .. | exact putPennants_inv ..
         | refine Preserve.readThen fun _ _ => ?_ | refine Preserve.andThen ?_ fun _ => ?_
         | refine Preserve.onlyIf _ ?_ | refine Preserve.cond ?_ ?_)

theorem windowLost_inv (h : Nat) : Preserves State.Inv (windowLost h) := by
  unfold windowLost
  repeat' first
    | (with_reducible first
         | refine Preserve.andThen ?_ fun _ => ?_)
    | (with_reducible refine Preserve.change fun _ h => ?_); exact h

theorem portDown_inv (h : Nat) : Preserves State.Inv (portDown h) := by
  unfold portDown
  repeat' first
    | (with_reducible first
         | exact setHostPort_inv .. | exact windowLost_inv .. | refine Preserve.andThen ?_ fun _ => ?_)

theorem railsOff_inv (links ports : Bool) : Preserves State.Inv (railsOff links ports) := by
  unfold railsOff
  repeat' first
    | (with_reducible first
         | exact quietLinks_inv .. | exact portDown_inv .. | refine Preserve.andThen ?_ fun _ => ?_
         | refine Preserve.onlyIf _ ?_ | refine Preserve.each _ fun _ => ?_)
    | (with_reducible refine Preserve.change fun _ h => ?_); exact h

theorem thermalTrip_inv (sensor : Nat) (raw : Int) : Preserves State.Inv (thermalTrip sensor raw) := by
  unfold thermalTrip
  repeat' first
    | (with_reducible first
         | exact Preserve.skip | exact Preserve.read | exact bump_inv .. | exact sendNotice_inv ..
         | exact railsOff_inv .. | exact vaultInterrupt_inv .. | exact pauseCopies_inv .. | exact setPar_inv ..
         | exact quietPower_inv .. | exact startDump_inv .. | exact setMode_inv ..
         | refine Preserve.readThen fun _ _ => ?_ | refine Preserve.andThen ?_ fun _ => ?_
         | refine Preserve.onlyIf _ ?_ | refine Preserve.cond ?_ ?_)

theorem energyWindow_inv (avg : Nat) : Preserves State.Inv (energyWindow avg) := by
  unfold energyWindow
  repeat' first
    | (with_reducible first
         | exact Preserve.skip | exact Preserve.read | exact setPar_inv .. | exact bump_inv .. | exact setPower_inv ..
         | exact gateClose_inv .. | refine Preserve.readThen fun _ _ => ?_ | refine Preserve.andThen ?_ fun _ => ?_
         | refine Preserve.onlyIf _ ?_ | refine Preserve.cond ?_ ?_)
    | (with_reducible refine Preserve.change fun _ h => ?_); exact h

theorem tradeSilent_inv (j : Nat) : Preserves State.Inv (tradeSilent j) := by
  unfold tradeSilent
  repeat' first
    | (with_reducible first
         | exact Preserve.skip | exact Preserve.read | exact putOffset_inv .. | exact setPower_inv ..
         | refine Preserve.readThen fun _ _ => ?_ | refine Preserve.andThen ?_ fun _ => ?_
         | refine Preserve.onlyIf _ ?_)
    | split

theorem tradePlan_inv (rs : List TradeReport) : Preserves State.Inv (tradePlan rs) := by
  unfold tradePlan
  repeat' first
    | (with_reducible first
         | exact Preserve.skip | exact Preserve.read | exact putOffset_inv .. | exact setPower_inv ..
         | exact emit_inv .. | exact tradeToken_inv .. | refine Preserve.readThen fun _ _ => ?_
         | refine Preserve.andThen ?_ fun _ => ?_ | refine Preserve.cond ?_ ?_ | refine Preserve.each _ fun _ => ?_)

theorem tradeClose_inv : Preserves State.Inv tradeClose := by
  unfold tradeClose
  repeat' first
    | (with_reducible first
         | exact Preserve.skip | exact Preserve.read | exact setPower_inv .. | exact tradeSilent_inv ..
         | exact tradePlan_inv .. | exact putLimit_inv .. | refine Preserve.readThen fun _ _ => ?_
         | refine Preserve.andThen ?_ fun _ => ?_ | refine Preserve.cond ?_ ?_ | refine Preserve.each _ fun _ => ?_)
    | split

theorem takeBack_inv : Preserves State.Inv takeBack := by
  unfold takeBack
  repeat' first
    | (with_reducible first
         | exact Preserve.read | exact putOffset_inv .. | exact setPower_inv .. | exact putLimit_inv ..
         | refine Preserve.readThen fun _ _ => ?_ | refine Preserve.andThen ?_ fun _ => ?_
         | refine Preserve.onlyIf _ ?_ | refine Preserve.each _ fun _ => ?_)

theorem tradeWindowEnd_inv (window : Nat) : Preserves State.Inv (tradeWindowEnd window) := by
  unfold tradeWindowEnd
  repeat' first
    | (with_reducible first
         | exact Preserve.skip | exact Preserve.read | exact tradeClose_inv .. | exact setPower_inv ..
         | exact takeBack_inv .. | exact emit_inv .. | exact tradeReport_inv ..
         | refine Preserve.readThen fun _ _ => ?_ | refine Preserve.andThen ?_ fun _ => ?_
         | refine Preserve.cond ?_ ?_ | refine Preserve.each _ fun _ => ?_)

theorem tradeReport_inv (r : TradeReport) : Preserves State.Inv (tradeReport r) := by
  unfold tradeReport
  repeat' first
    | (with_reducible first
         | exact Preserve.read | exact tradeClose_inv .. | exact setPower_inv ..
         | refine Preserve.readThen fun _ _ => ?_ | refine Preserve.andThen ?_ fun _ => ?_
         | refine Preserve.onlyIf _ ?_)

theorem tradeToken_inv (node : Nat) (give : Bool) (watts : Nat) : Preserves State.Inv (tradeToken node give watts) := by
  unfold tradeToken
  repeat' first
    | (with_reducible first
         | exact Preserve.read | exact tradeClose_inv .. | exact putOffset_inv .. | exact setPower_inv ..
         | exact emit_inv .. | exact putLimit_inv .. | refine Preserve.readThen fun _ _ => ?_
         | refine Preserve.andThen ?_ fun _ => ?_ | refine Preserve.onlyIf _ ?_ | refine Preserve.cond ?_ ?_)

/-! ## Limits -/

theorem commitFlash_inv : Preserves State.Inv commitFlash := by
  unfold commitFlash
  repeat' first
    | (with_reducible first
         | refine Preserve.andThen ?_ fun _ => ?_)
    | (with_reducible refine Preserve.change fun _ h => ?_); exact h

theorem noteWrite_inv (key path : Nat) : Preserves State.Inv (noteWrite key path) := by
  unfold noteWrite
  repeat' first
    | (with_reducible first
         | exact Preserve.skip | exact Preserve.read | exact setPar_inv .. | refine Preserve.readThen fun _ _ => ?_)
    | (with_reducible refine Preserve.put ?_); assumption
    | (with_reducible first
         | refine Preserve.andThen ?_ fun _ => ?_ | refine Preserve.cond ?_ ?_)

theorem bootCheck_inv (key : Nat) : Preserves State.Inv (bootCheck key) := by
  unfold bootCheck
  repeat' first
    | (with_reducible first
         | exact Preserve.skip | exact Preserve.read | exact setPar_inv .. | exact bump_inv ..
         | refine Preserve.readThen fun _ _ => ?_ | refine Preserve.andThen ?_ fun _ => ?_
         | refine Preserve.cond ?_ ?_)
    | split

/-! ## Life -/

theorem setLife_inv (f : LifeSt → LifeSt) : Preserves State.Inv (setLife f) := by
  unfold setLife
  repeat' first
    | (with_reducible first
         | refine Preserve.andThen ?_ fun _ => ?_)
    | (with_reducible refine Preserve.change fun _ h => ?_); exact h

theorem clearVaultAreas_inv : Preserves State.Inv clearVaultAreas := by
  unfold clearVaultAreas
  repeat' first
    | (with_reducible first
         | exact Preserve.skip | exact Preserve.read | exact setPar_inv .. | exact setEff_inv ..
         | refine Preserve.readThen fun _ _ => ?_ | refine Preserve.andThen ?_ fun _ => ?_
         | refine Preserve.cond ?_ ?_ | refine Preserve.each _ fun _ => ?_)

theorem enterBoot_inv (last pre : Nat) (keep : Bool) : Preserves State.Inv (enterBoot last pre keep) := by
  unfold enterBoot
  repeat' first
    | (with_reducible first
         | exact Preserve.read | exact setMode_inv .. | exact setPar_inv .. | exact bootCheck_inv ..
         | exact setEff_inv .. | exact clearVaultAreas_inv .. | exact putLimit_inv ..
         | refine Preserve.readThen fun _ _ => ?_ | refine Preserve.andThen ?_ fun _ => ?_
         | refine Preserve.each _ fun _ => ?_)
    | (with_reducible refine Preserve.change fun _ h => ?_); first | exact h | exact State.afresh_inv _ h

theorem goOff_inv : Preserves State.Inv goOff :=
  Preserve.andThen vaultInterrupt_inv fun _ => Preserve.andThen (setMode_inv _) fun _ =>
    Preserve.change fun _ h => ⟨(State.afresh_inv false h).1, (State.afresh_inv false h).2⟩

theorem prechargeEntry_inv (straps : Nat) : Preserves State.Inv (prechargeEntry straps) := by
  unfold prechargeEntry
  repeat' first
    | (with_reducible first
         | exact Preserve.skip | exact Preserve.read | exact setLife_inv .. | exact setPower_inv ..
         | exact setMode_inv .. | refine Preserve.readThen fun _ _ => ?_ | refine Preserve.andThen ?_ fun _ => ?_
         | refine Preserve.cond ?_ ?_)

theorem prechargeComplete_inv (bulk input : Nat) : Preserves State.Inv (prechargeComplete bulk input) := by
  unfold prechargeComplete
  repeat' first
    | (with_reducible first
         | exact Preserve.skip | exact Preserve.read | exact enterBoot_inv .. | exact putVolts_inv ..
         | exact putLimit_inv .. | refine Preserve.readThen fun _ _ => ?_ | refine Preserve.andThen ?_ fun _ => ?_
         | refine Preserve.cond ?_ ?_)

theorem prechargeFail_inv (bulk input : Nat) : Preserves State.Inv (prechargeFail bulk input) := by
  unfold prechargeFail
  repeat' first
    | (with_reducible first
         | exact Preserve.skip | exact Preserve.read | exact setPower_inv .. | exact raiseEvent_inv ..
         | refine Preserve.readThen fun _ _ => ?_ | refine Preserve.andThen ?_ fun _ => ?_
         | refine Preserve.cond ?_ ?_)

theorem prechargeRetry_inv : Preserves State.Inv prechargeRetry := by
  unfold prechargeRetry
  repeat' first
    | (with_reducible first
         | exact Preserve.skip | exact Preserve.read | exact setPower_inv .. | refine Preserve.readThen fun _ _ => ?_
         | refine Preserve.andThen ?_ fun _ => ?_ | refine Preserve.cond ?_ ?_)
    | split

theorem presRelease_inv (gap : Nat) : Preserves State.Inv (presRelease gap) := by
  unfold presRelease
  repeat' first
    | (with_reducible first
         | exact Preserve.skip | exact Preserve.read | exact setLife_inv .. | exact setPower_inv ..
         | exact goOff_inv .. | refine Preserve.readThen fun _ _ => ?_ | refine Preserve.andThen ?_ fun _ => ?_
         | refine Preserve.onlyIf _ ?_ | refine Preserve.cond ?_ ?_)

theorem holdUpExhausted_inv : Preserves State.Inv holdUpExhausted := by
  unfold holdUpExhausted
  repeat' first
    | (with_reducible first
         | exact Preserve.skip | exact Preserve.read | exact setPower_inv .. | exact goOff_inv ..
         | refine Preserve.readThen fun _ _ => ?_ | refine Preserve.andThen ?_ fun _ => ?_
         | refine Preserve.cond ?_ ?_)

theorem bootDone_inv (sealA sealB : Bool) : Preserves State.Inv (bootDone sealA sealB) := by
  unfold bootDone
  repeat' first
    | (with_reducible first
         | exact Preserve.skip | exact Preserve.read | exact recordFault_inv .. | exact setPower_inv ..
         | exact setPar_inv .. | exact setMode_inv .. | refine Preserve.readThen fun _ _ => ?_
         | refine Preserve.andThen ?_ fun _ => ?_ | refine Preserve.onlyIf _ ?_ | refine Preserve.cond ?_ ?_)
    | split

theorem selftestDone_inv (failed : List (Nat × Nat × Nat)) : Preserves State.Inv (selftestDone failed) := by
  unfold selftestDone
  repeat' first
    | (with_reducible first
         | exact Preserve.skip | exact Preserve.read | exact istFail_inv .. | exact setLife_inv ..
         | exact setPar_inv .. | exact setMode_inv .. | exact trainGroup_inv ..
         | refine Preserve.readThen fun _ _ => ?_ | refine Preserve.andThen ?_ fun _ => ?_
         | refine Preserve.onlyIf _ ?_ | refine Preserve.cond ?_ ?_ | refine Preserve.each _ fun _ => ?_)

theorem releaseStarts_inv : Preserves State.Inv releaseStarts := by
  unfold releaseStarts
  repeat' first
    | (with_reducible first
         | exact Preserve.read | exact setLife_inv .. | exact partitionStart_inv ..
         | refine Preserve.readThen fun _ _ => ?_ | refine Preserve.andThen ?_ fun _ => ?_
         | refine Preserve.each _ fun _ => ?_)

theorem trainingEnd_inv : Preserves State.Inv trainingEnd := by
  unfold trainingEnd
  repeat' first
    | (with_reducible first
         | exact Preserve.skip | exact Preserve.read | exact setPar_inv .. | exact setMode_inv ..
         | exact setPower_inv .. | exact releaseStarts_inv .. | refine Preserve.readThen fun _ _ => ?_
         | refine Preserve.andThen ?_ fun _ => ?_ | refine Preserve.cond ?_ ?_)

theorem restartNow_inv (keep : Bool) : Preserves State.Inv (restartNow keep) := by
  unfold restartNow
  repeat' first
    | (with_reducible first
         | exact Preserve.read | exact sendNotice_inv .. | exact commitFlash_inv .. | exact enterBoot_inv ..
         | refine Preserve.readThen fun _ _ => ?_ | refine Preserve.andThen ?_ fun _ => ?_)

theorem moduleRestart_inv (keep : Bool) : Preserves State.Inv (moduleRestart keep) := by
  unfold moduleRestart
  repeat' first
    | (with_reducible first
         | exact Preserve.skip | exact Preserve.read | exact setLife_inv .. | exact restartNow_inv ..
         | refine Preserve.readThen fun _ _ => ?_ | refine Preserve.andThen ?_ fun _ => ?_
         | refine Preserve.cond ?_ ?_)
    | split

theorem dumpDone_inv (late : List Nat) : Preserves State.Inv (dumpDone late) := by
  unfold dumpDone
  repeat' first
    | (with_reducible first
         | exact Preserve.skip | exact Preserve.read | exact completeDump_inv .. | exact restartNow_inv ..
         | refine Preserve.readThen fun _ _ => ?_ | refine Preserve.andThen ?_ fun _ => ?_
         | refine Preserve.cond ?_ ?_)
    | split

theorem safeRelease_inv (hottest : Int) : Preserves State.Inv (safeRelease hottest) := by
  unfold safeRelease
  repeat' first
    | (with_reducible first
         | exact Preserve.skip | exact Preserve.read | exact restartNow_inv ..
         | refine Preserve.readThen fun _ _ => ?_ | refine Preserve.andThen ?_ fun _ => ?_
         | refine Preserve.cond ?_ ?_)
    | split

theorem moduleStandby_inv : Preserves State.Inv moduleStandby := by
  unfold moduleStandby
  repeat' first
    | (with_reducible first
         | exact Preserve.skip | exact Preserve.read | exact setPar_inv .. | exact vaultInterrupt_inv ..
         | exact pauseCopies_inv .. | exact quietPower_inv .. | refine Preserve.readThen fun _ _ => ?_
         | refine Preserve.andThen ?_ fun _ => ?_ | refine Preserve.cond ?_ ?_)

theorem moduleWake_inv : Preserves State.Inv moduleWake := by
  unfold moduleWake
  repeat' first
    | (with_reducible first
         | exact Preserve.skip | exact Preserve.read | exact setPar_inv .. | exact pauseCopies_inv ..
         | exact releaseStarts_inv .. | refine Preserve.readThen fun _ _ => ?_
         | refine Preserve.andThen ?_ fun _ => ?_ | refine Preserve.cond ?_ ?_)

theorem partitionControl_inv (p v : Nat) : Preserves State.Inv (partitionControl p v) := by
  unfold partitionControl
  repeat' first
    | (with_reducible first
         | exact Preserve.skip | exact Preserve.read | exact setLife_inv .. | exact moduleWake_inv ..
         | exact partitionStart_inv .. | exact partitionStop_inv .. | refine Preserve.readThen fun _ _ => ?_
         | refine Preserve.andThen ?_ fun _ => ?_ | refine Preserve.cond ?_ ?_)
    | split

theorem instanceControl_inv (p v : Nat) : Preserves State.Inv (instanceControl p v) := by
  unfold instanceControl
  repeat' first
    | (with_reducible first
         | exact Preserve.skip | exact Preserve.read | exact setLife_inv .. | exact instanceStart_inv ..
         | exact instanceDrain_inv .. | exact instanceStop_inv .. | refine Preserve.readThen fun _ _ => ?_
         | refine Preserve.andThen ?_ fun _ => ?_ | refine Preserve.cond ?_ ?_)
    | split

theorem releaseInstStarts_inv : Preserves State.Inv releaseInstStarts := by
  unfold releaseInstStarts
  repeat' first
    | (with_reducible first
         | exact Preserve.skip | exact Preserve.read | exact setLife_inv .. | exact instanceStart_inv ..
         | refine Preserve.readThen fun _ _ => ?_ | refine Preserve.andThen ?_ fun _ => ?_
         | refine Preserve.onlyIf _ ?_ | refine Preserve.cond ?_ ?_ | refine Preserve.each _ fun _ => ?_)

theorem drainPartition_inv (p : Nat) : Preserves State.Inv (drainPartition p) := by
  unfold drainPartition
  repeat' first
    | (with_reducible first
         | exact Preserve.skip | exact Preserve.read | exact partitionStop_inv .. | exact instanceDrain_inv ..
         | refine Preserve.readThen fun _ _ => ?_ | refine Preserve.andThen ?_ fun _ => ?_
         | refine Preserve.cond ?_ ?_)

theorem moduleDrain_inv : Preserves State.Inv moduleDrain := by
  unfold moduleDrain
  repeat' first
    | (with_reducible first
         | exact Preserve.skip | exact Preserve.read | exact setPar_inv .. | exact pauseCopies_inv ..
         | exact setMode_inv .. | exact setLife_inv .. | exact vaultInterrupt_inv .. | exact drainPartition_inv ..
         | exact afterServing_inv .. | refine Preserve.readThen fun _ _ => ?_ | refine Preserve.andThen ?_ fun _ => ?_
         | refine Preserve.onlyIf _ ?_ | refine Preserve.cond ?_ ?_ | refine Preserve.each _ fun _ => ?_)

theorem drainTimeout_inv : Preserves State.Inv drainTimeout := by
  unfold drainTimeout
  repeat' first
    | (with_reducible first
         | exact Preserve.skip | exact Preserve.read | exact vaultInterrupt_inv .. | exact partitionStop_inv ..
         | exact afterServing_inv .. | refine Preserve.readThen fun _ _ => ?_ | refine Preserve.andThen ?_ fun _ => ?_
         | refine Preserve.cond ?_ ?_ | refine Preserve.each _ fun _ => ?_)
    | split

theorem drainComplete_inv : Preserves State.Inv drainComplete := by
  unfold drainComplete
  repeat' first
    | (with_reducible first
         | exact Preserve.skip | exact Preserve.read | exact sendNotice_inv .. | exact commitFlash_inv ..
         | exact faultLogCommit_inv .. | exact vaultInterrupt_inv .. | exact railsOff_inv .. | exact quietLinks_inv ..
         | exact quietPower_inv .. | exact setPar_inv .. | exact setMode_inv ..
         | refine Preserve.readThen fun _ _ => ?_ | refine Preserve.andThen ?_ fun _ => ?_
         | refine Preserve.cond ?_ ?_)

theorem setFw_inv (key : Nat) (v : FwInst) : Preserves State.Inv (setFw key v) := by
  unfold setFw
  repeat' first
    | (with_reducible first
         | exact setLife_inv ..)

theorem stageStatus_inv (st reason : Nat) : Preserves State.Inv (stageStatus st reason) := by
  unfold stageStatus
  repeat' first
    | (with_reducible first
         | exact setPar_inv .. | refine Preserve.andThen ?_ fun _ => ?_)

theorem putOthers_inv (kind : Nat) (v : FwSlot) : Preserves State.Inv (putOthers kind v) := by
  unfold putOthers
  repeat' first
    | (with_reducible first
         | exact Preserve.read | exact setFw_inv .. | refine Preserve.readThen fun _ _ => ?_
         | refine Preserve.andThen ?_ fun _ => ?_ | refine Preserve.each _ fun _ => ?_)

theorem stageFails_inv (kind reason : Nat) : Preserves State.Inv (stageFails kind reason) := by
  unfold stageFails
  repeat' first
    | (with_reducible first
         | exact stageStatus_inv .. | exact putOthers_inv .. | refine Preserve.andThen ?_ fun _ => ?_)

theorem fwStage_inv (addr : Nat) (sigOk : Bool) : Preserves State.Inv (fwStage addr sigOk) := by
  unfold fwStage
  repeat' first
    | (with_reducible first
         | exact Preserve.skip | exact Preserve.read | exact stageStatus_inv .. | exact load_inv ..
         | exact setPar_inv .. | exact stageFails_inv .. | exact putOthers_inv .. | exact setLife_inv ..
         | refine Preserve.readThen fun _ _ => ?_ | refine Preserve.andThen ?_ fun _ => ?_
         | refine Preserve.cond ?_ ?_)

theorem fwStageDone_inv (ok : Bool) : Preserves State.Inv (fwStageDone ok) := by
  unfold fwStageDone
  repeat' first
    | (with_reducible first
         | exact Preserve.skip | exact Preserve.read | exact setLife_inv .. | exact putOthers_inv ..
         | exact stageStatus_inv .. | refine Preserve.readThen fun _ _ => ?_ | refine Preserve.andThen ?_ fun _ => ?_
         | refine Preserve.cond ?_ ?_)
    | split

theorem fwUnit_inv (key : Nat) : Preserves State.Inv (fwUnit key) := by
  unfold fwUnit
  repeat' first
    | (with_reducible first
         | exact Preserve.skip | exact Preserve.read | exact trainGroup_inv .. | exact portDown_inv ..
         | exact setPar_inv .. | refine Preserve.readThen fun _ _ => ?_ | refine Preserve.andThen ?_ fun _ => ?_
         | refine Preserve.onlyIf _ ?_)
    | split

theorem fwSwitch_inv (key : Nat) : Preserves State.Inv (fwSwitch key) := by
  unfold fwSwitch
  repeat' first
    | (with_reducible first
         | exact Preserve.read | exact setFw_inv .. | exact setLife_inv .. | exact bump_inv .. | exact fwUnit_inv ..
         | refine Preserve.readThen fun _ _ => ?_ | refine Preserve.andThen ?_ fun _ => ?_)

theorem fwGo_inv : Preserves State.Inv fwGo := by
  unfold fwGo
  repeat' first
    | (with_reducible first
         | exact Preserve.skip | exact Preserve.read | exact setLife_inv .. | exact fwSwitch_inv ..
         | refine Preserve.readThen fun _ _ => ?_ | refine Preserve.andThen ?_ fun _ => ?_
         | refine Preserve.cond ?_ ?_)
    | split

theorem fwActivate_inv (v : Nat) : Preserves State.Inv (fwActivate v) := by
  unfold fwActivate
  repeat' first
    | (with_reducible first
         | exact Preserve.skip | exact Preserve.read | exact setLife_inv .. | exact fwGo_inv ..
         | refine Preserve.readThen fun _ _ => ?_ | refine Preserve.andThen ?_ fun _ => ?_
         | refine Preserve.cond ?_ ?_)

theorem fwRevert_inv (v : Nat) : Preserves State.Inv (fwRevert v) := by
  unfold fwRevert
  repeat' first
    | (with_reducible first
         | exact Preserve.skip | exact Preserve.read | exact setLife_inv .. | exact fwGo_inv ..
         | refine Preserve.readThen fun _ _ => ?_ | refine Preserve.andThen ?_ fun _ => ?_
         | refine Preserve.cond ?_ ?_)

theorem fwFail_inv (key : Nat) : Preserves State.Inv (fwFail key) := by
  unfold fwFail
  repeat' first
    | (with_reducible first
         | exact Preserve.skip | exact Preserve.read | exact setFw_inv .. | exact setLife_inv ..
         | exact recordFault_inv .. | exact bump_inv .. | exact fwUnit_inv .. | exact fwGo_inv ..
         | refine Preserve.readThen fun _ _ => ?_ | refine Preserve.andThen ?_ fun _ => ?_
         | refine Preserve.cond ?_ ?_)

theorem fwHealthCheck_inv (key : Nat) (healthy : Bool) : Preserves State.Inv (fwHealthCheck key healthy) := by
  unfold fwHealthCheck
  repeat' first
    | (with_reducible first
         | exact Preserve.skip | exact Preserve.read | exact setFw_inv .. | exact setLife_inv .. | exact fwGo_inv ..
         | exact fwFail_inv .. | refine Preserve.readThen fun _ _ => ?_ | refine Preserve.andThen ?_ fun _ => ?_
         | refine Preserve.cond ?_ ?_)

theorem fwConfirmOne_inv (key : Nat) : Preserves State.Inv (fwConfirmOne key) := by
  unfold fwConfirmOne
  repeat' first
    | (with_reducible first
         | exact Preserve.read | exact setFw_inv .. | refine Preserve.readThen fun _ _ => ?_
         | refine Preserve.andThen ?_ fun _ => ?_ | refine Preserve.onlyIf _ ?_)

theorem fwTrialEnd_inv (key : Nat) : Preserves State.Inv (fwTrialEnd key) := by
  unfold fwTrialEnd
  repeat' first
    | (with_reducible first
         | exact Preserve.read | exact fwConfirmOne_inv .. | refine Preserve.readThen fun _ _ => ?_
         | refine Preserve.andThen ?_ fun _ => ?_ | refine Preserve.onlyIf _ ?_)

theorem fwConfirm_inv (kind : Nat) : Preserves State.Inv (fwConfirm kind) := by
  unfold fwConfirm
  repeat' first
    | (with_reducible first
         | exact fwConfirmOne_inv .. | refine Preserve.andThen ?_ fun _ => ?_ | refine Preserve.each _ fun _ => ?_)

theorem fwEngineFails_inv (e : Nat) : Preserves State.Inv (fwEngineFails e) := by
  unfold fwEngineFails
  repeat' first
    | (with_reducible first
         | exact Preserve.read | exact fwFail_inv .. | refine Preserve.readThen fun _ _ => ?_
         | refine Preserve.andThen ?_ fun _ => ?_ | refine Preserve.onlyIf _ ?_)

theorem accruePennants_inv : Preserves State.Inv accruePennants := by
  unfold accruePennants
  repeat' first
    | (with_reducible first
         | exact accruePennant_inv .. | refine Preserve.andThen ?_ fun _ => ?_ | refine Preserve.each _ fun _ => ?_)

theorem clapperArm_inv (v : Nat) : Preserves State.Inv (clapperArm v) := by
  unfold clapperArm
  repeat' first
    | (with_reducible first
         | exact Preserve.read | exact setPar_inv .. | refine Preserve.readThen fun _ _ => ?_
         | refine Preserve.andThen ?_ fun _ => ?_ | refine Preserve.onlyIf _ ?_)

theorem clapperFire_inv : Preserves State.Inv clapperFire := by
  unfold clapperFire
  repeat' first
    | (with_reducible first
         | exact Preserve.skip | exact Preserve.read | exact accruePennants_inv .. | exact setPar_inv ..
         | exact setLife_inv .. | refine Preserve.readThen fun _ _ => ?_ | refine Preserve.andThen ?_ fun _ => ?_
         | refine Preserve.cond ?_ ?_)

theorem exportDaily_inv (d : Daily) : Preserves State.Inv (exportDaily d) := by
  unfold exportDaily
  repeat' first
    | (with_reducible first
         | exact Preserve.skip | exact Preserve.read | exact store_inv .. | exact bump_inv ..
         | refine Preserve.readThen fun _ _ => ?_ | refine Preserve.andThen ?_ fun _ => ?_
         | refine Preserve.cond ?_ ?_)
    | split
    | dsimp only

theorem dailyRecord_inv : Preserves State.Inv dailyRecord := by
  unfold dailyRecord
  repeat' first
    | (with_reducible first
         | exact Preserve.skip | exact Preserve.read | exact accruePennants_inv .. | exact setPar_inv ..
         | exact setLife_inv .. | exact exportDaily_inv .. | refine Preserve.readThen fun _ _ => ?_
         | refine Preserve.andThen ?_ fun _ => ?_ | refine Preserve.cond ?_ ?_)

theorem regulatorCalibration_inv (region phase : Nat) : Preserves State.Inv (regulatorCalibration region phase) := by
  unfold regulatorCalibration
  repeat' first
    | (with_reducible first
         | exact Preserve.skip | exact Preserve.read | exact setLife_inv .. | refine Preserve.readThen fun _ _ => ?_
         | refine Preserve.andThen ?_ fun _ => ?_ | refine Preserve.cond ?_ ?_)

theorem eyeScan_inv (g : Nat) (tx : Bool) (height width : Nat) : Preserves State.Inv (eyeScan g tx height width) := by
  unfold eyeScan
  repeat' first
    | (with_reducible first
         | exact Preserve.skip | exact Preserve.read | refine Preserve.readThen fun _ _ => ?_)
    | (with_reducible refine Preserve.put ?_); assumption
    | (with_reducible first
         | refine Preserve.andThen ?_ fun _ => ?_ | refine Preserve.cond ?_ ?_)

theorem refclkLoss_inv : Preserves State.Inv refclkLoss := by
  unfold refclkLoss
  repeat' first
    | (with_reducible first
         | exact Preserve.skip | exact Preserve.read | exact setPower_inv .. | exact timeHoldover_inv ..
         | exact moduleFatal_inv .. | refine Preserve.readThen fun _ _ => ?_ | refine Preserve.andThen ?_ fun _ => ?_
         | refine Preserve.cond ?_ ?_)
    | split

theorem refclkReturn_inv : Preserves State.Inv refclkReturn := by
  unfold refclkReturn
  repeat' first
    | (with_reducible first
         | exact Preserve.skip | exact Preserve.read | exact setPower_inv .. | exact recordFault_inv ..
         | refine Preserve.readThen fun _ _ => ?_ | refine Preserve.andThen ?_ fun _ => ?_
         | refine Preserve.cond ?_ ?_)
    | split

theorem bridgeFlitError_inv (bridge flit : Nat) : Preserves State.Inv (bridgeFlitError bridge flit) := by
  unfold bridgeFlitError
  repeat' first
    | (with_reducible first
         | exact Preserve.skip | exact Preserve.read | exact recordFault_inv .. | exact moduleFatal_inv ..
         | refine Preserve.readThen fun _ _ => ?_ | refine Preserve.andThen ?_ fun _ => ?_
         | refine Preserve.onlyIf _ ?_ | refine Preserve.cond ?_ ?_)
    | (with_reducible refine Preserve.change fun _ h => ?_); exact h

theorem afterStep_inv : Preserves State.Inv afterStep := by
  unfold afterStep
  repeat' first
    | (with_reducible first
         | exact afterServing_inv .. | exact fwGo_inv .. | refine Preserve.andThen ?_ fun _ => ?_)

/-! ## Eth -/

theorem setEth_inv (f : EthSt → EthSt) : Preserves State.Inv (setEth f) := by
  unfold setEth
  repeat' first
    | (with_reducible first
         | refine Preserve.andThen ?_ fun _ => ?_)
    | (with_reducible refine Preserve.change fun _ h => ?_); exact h

theorem setQp_inv (k : Nat) (q : Qp) : Preserves State.Inv (setQp k q) := by
  unfold setQp
  repeat' first
    | (with_reducible first
         | exact setEth_inv ..)

theorem qpLose_inv (k : Nat) : Preserves State.Inv (qpLose k) := by
  unfold qpLose
  repeat' first
    | (with_reducible first
         | exact Preserve.read | exact transferLost_inv .. | refine Preserve.readThen fun _ _ => ?_
         | refine Preserve.andThen ?_ fun _ => ?_ | refine Preserve.each _ fun _ => ?_)
    | (with_reducible refine Preserve.change fun _ h => ?_); exact h

theorem settleRdma_inv (k : Nat) : Preserves State.Inv (settleRdma k) := by
  unfold settleRdma
  repeat' first
    | (with_reducible first
         | refine Preserve.andThen ?_ fun _ => ?_)
    | (with_reducible refine Preserve.change fun _ h => ?_); first | exact h | ((repeat' split) <;> exact h)

theorem qpReload_inv (v : Nat) : Preserves State.Inv (qpReload v) := by
  unfold qpReload
  repeat' first
    | (with_reducible first
         | exact Preserve.skip | exact Preserve.read | exact load_inv .. | exact qpLose_inv .. | exact recordUe_inv ..
         | exact setQp_inv .. | refine Preserve.readThen fun _ _ => ?_ | refine Preserve.andThen ?_ fun _ => ?_
         | refine Preserve.cond ?_ ?_)

theorem keyReload_inv (i : Nat) : Preserves State.Inv (keyReload i) := by
  unfold keyReload
  repeat' first
    | (with_reducible first
         | exact Preserve.skip | exact Preserve.read | exact load_inv .. | exact recordUe_inv .. | exact setEth_inv ..
         | refine Preserve.readThen fun _ _ => ?_ | refine Preserve.andThen ?_ fun _ => ?_
         | refine Preserve.cond ?_ ?_)

theorem loadEthTables_inv : Preserves State.Inv loadEthTables := by
  unfold loadEthTables
  repeat' first
    | (with_reducible first
         | exact Preserve.read | exact qpReload_inv .. | exact keyReload_inv ..
         | refine Preserve.readThen fun _ _ => ?_ | refine Preserve.andThen ?_ fun _ => ?_
         | refine Preserve.each _ fun _ => ?_)

theorem sendFrame_inv (port : Nat) (o : Out) : Preserves State.Inv (sendFrame port o) := by
  unfold sendFrame
  repeat' first
    | (with_reducible first
         | exact Preserve.skip | exact Preserve.read | exact emit_inv .. | exact bump_inv ..
         | refine Preserve.readThen fun _ _ => ?_ | refine Preserve.andThen ?_ fun _ => ?_
         | refine Preserve.cond ?_ ?_)

theorem networkFrame_inv (port : Nat) (f : EthFrame) : Preserves State.Inv (networkFrame port f) := by
  unfold networkFrame
  repeat' first
    | (with_reducible first
         | exact Preserve.skip | exact Preserve.read | exact bump_inv .. | exact sendFrame_inv ..
         | refine Preserve.readThen fun _ _ => ?_ | refine Preserve.andThen ?_ fun _ => ?_
         | refine Preserve.cond ?_ ?_)
    | split

theorem ethLinkChange_inv (port : Nat) (up : Bool) : Preserves State.Inv (ethLinkChange port up) := by
  unfold ethLinkChange
  repeat' first
    | (with_reducible first
         | exact Preserve.skip | exact Preserve.read | exact setPar_inv .. | refine Preserve.readThen fun _ _ => ?_
         | refine Preserve.andThen ?_ fun _ => ?_ | refine Preserve.cond ?_ ?_)

theorem pfcFrame_inv (port priority quanta : Nat) : Preserves State.Inv (pfcFrame port priority quanta) := by
  unfold pfcFrame
  repeat' first
    | (with_reducible first
         | exact Preserve.skip | exact Preserve.read | exact bump_inv .. | exact setEth_inv ..
         | refine Preserve.readThen fun _ _ => ?_ | refine Preserve.andThen ?_ fun _ => ?_
         | refine Preserve.cond ?_ ?_)

theorem sendPackets_inv (k : Nat) (q : Qp) (l : List RocePkt) : Preserves State.Inv (sendPackets k q l) := by
  unfold sendPackets
  repeat' first
    | (with_reducible first
         | exact Preserve.read | exact setQp_inv .. | exact sendFrame_inv .. | refine Preserve.readThen fun _ _ => ?_
         | refine Preserve.andThen ?_ fun _ => ?_ | refine Preserve.cond ?_ ?_ | refine Preserve.each _ fun _ => ?_)

theorem bodyRdma_inv (write : Bool) (c : Cmd) : Preserves State.Inv (bodyRdma write c) := by
  unfold bodyRdma
  repeat' first
    | (with_reducible first
         | exact Preserve.read | exact Preserve.ret _ | exact clampDesc_inv .. | exact transferLost_inv ..
         | exact load_inv .. | exact forwarded_inv .. | exact sendPackets_inv ..
         | refine Preserve.readThen fun _ _ => ?_ | refine Preserve.andThen ?_ fun _ => ?_
         | refine Preserve.cond ?_ ?_)
    | split

theorem qpFail_inv (k : Nat) (q : Qp) : Preserves State.Inv (qpFail k q) := by
  unfold qpFail
  repeat' first
    | (with_reducible first
         | exact setQp_inv .. | exact qpLose_inv .. | refine Preserve.andThen ?_ fun _ => ?_)

theorem roceRetry_inv (k : Nat) (q : Qp) (l : List RocePkt) : Preserves State.Inv (roceRetry k q l) := by
  unfold roceRetry
  repeat' first
    | (with_reducible first
         | exact Preserve.read | exact setQp_inv .. | exact qpFail_inv .. | exact sendFrame_inv .. | exact bump_inv ..
         | refine Preserve.readThen fun _ _ => ?_ | refine Preserve.andThen ?_ fun _ => ?_
         | refine Preserve.cond ?_ ?_ | refine Preserve.each _ fun _ => ?_)

theorem roceAck_inv (port qpn psn : Nat) (nak : Option Nat) : Preserves State.Inv (roceAck port qpn psn nak) := by
  unfold roceAck
  repeat' first
    | (with_reducible first
         | exact Preserve.skip | exact Preserve.read | exact bump_inv .. | exact setQp_inv ..
         | exact settleRdma_inv .. | exact roceRetry_inv .. | refine Preserve.readThen fun _ _ => ?_
         | refine Preserve.andThen ?_ fun _ => ?_ | refine Preserve.cond ?_ ?_)
    | split

theorem roceTimeout_inv (port i : Nat) : Preserves State.Inv (roceTimeout port i) := by
  unfold roceTimeout
  repeat' first
    | (with_reducible first
         | exact Preserve.skip | exact Preserve.read | exact roceRetry_inv .. | refine Preserve.readThen fun _ _ => ?_
         | refine Preserve.andThen ?_ fun _ => ?_ | refine Preserve.cond ?_ ?_)
    | split

theorem cnp_inv (port qpn : Nat) : Preserves State.Inv (cnp port qpn) := by
  unfold cnp
  repeat' first
    | (with_reducible first
         | exact Preserve.skip | exact Preserve.read | exact bump_inv .. | exact setQp_inv ..
         | refine Preserve.readThen fun _ _ => ?_ | refine Preserve.andThen ?_ fun _ => ?_
         | refine Preserve.cond ?_ ?_)
    | split

theorem roceRateRaise_inv (port i : Nat) : Preserves State.Inv (roceRateRaise port i) := by
  unfold roceRateRaise
  repeat' first
    | (with_reducible first
         | exact Preserve.skip | exact Preserve.read | exact setQp_inv .. | refine Preserve.readThen fun _ _ => ?_
         | refine Preserve.andThen ?_ fun _ => ?_ | refine Preserve.cond ?_ ?_)
    | split

theorem roceReadResponse_inv (port qpn psn : Nat) (data : List Nat) : Preserves State.Inv (roceReadResponse port qpn psn data) := by
  unfold roceReadResponse
  repeat' first
    | (with_reducible first
         | exact Preserve.skip | exact Preserve.read | exact bump_inv .. | exact store_inv .. | exact setQp_inv ..
         | exact settleRdma_inv .. | refine Preserve.readThen fun _ _ => ?_ | refine Preserve.andThen ?_ fun _ => ?_
         | refine Preserve.cond ?_ ?_)
    | split

theorem answerMark_inv (k : Nat) (r : RoceReq) : Preserves State.Inv (answerMark k r) := by
  unfold answerMark
  repeat' first
    | (with_reducible first
         | exact Preserve.skip | exact Preserve.read | exact setQp_inv .. | exact sendFrame_inv .. | exact cnp_inv ..
         | refine Preserve.readThen fun _ _ => ?_ | refine Preserve.andThen ?_ fun _ => ?_
         | refine Preserve.cond ?_ ?_)
    | split

theorem roceRefuse_inv (r : RoceReq) : Preserves State.Inv (roceRefuse r) := by
  unfold roceRefuse
  repeat' first
    | (with_reducible first
         | exact bump_inv .. | exact sendFrame_inv .. | exact roceAck_inv .. | refine Preserve.andThen ?_ fun _ => ?_)

theorem incomingWrite_inv (r : RoceReq) : Preserves State.Inv (incomingWrite r) := by
  unfold incomingWrite
  repeat' first
    | (with_reducible first
         | exact Preserve.skip | exact Preserve.read | exact bump_inv .. | exact roceRefuse_inv ..
         | exact store_inv .. | exact storeVal_inv .. | exact signalCue_inv .. | exact setQp_inv ..
         | exact answerMark_inv .. | exact sendFrame_inv .. | exact roceAck_inv ..
         | refine Preserve.readThen fun _ _ => ?_ | refine Preserve.andThen ?_ fun _ => ?_
         | refine Preserve.cond ?_ ?_)
    | split

theorem incomingRead_inv (r : RoceReq) : Preserves State.Inv (incomingRead r) := by
  unfold incomingRead
  repeat' first
    | (with_reducible first
         | exact Preserve.skip | exact Preserve.read | exact bump_inv .. | exact roceRefuse_inv .. | exact load_inv ..
         | exact forwarded_inv .. | exact setQp_inv .. | exact answerMark_inv .. | exact sendFrame_inv ..
         | refine Preserve.readThen fun _ _ => ?_ | refine Preserve.andThen ?_ fun _ => ?_
         | refine Preserve.cond ?_ ?_ | refine Preserve.each _ fun _ => ?_)
    | split

/-! ## Eloaphor -/

theorem setElo_inv (f : EloSt → EloSt) : Preserves State.Inv (setElo f) := by
  unfold setElo
  repeat' first
    | (with_reducible first
         | refine Preserve.andThen ?_ fun _ => ?_)
    | (with_reducible refine Preserve.change fun _ h => ?_); exact h

theorem deliver_inv (path src : Nat) (q : Pdu) : Preserves State.Inv (deliver path src q) := by
  unfold deliver
  repeat' first
    | (with_reducible first
         | exact Preserve.skip | exact Preserve.read | exact setHostPort_inv .. | exact sendMsix_inv ..
         | exact emit_inv .. | refine Preserve.readThen fun _ _ => ?_ | refine Preserve.andThen ?_ fun _ => ?_
         | refine Preserve.cond ?_ ?_)

theorem opRead_inv (island : Bool) (body : List Nat) : Preserves State.Inv (opRead island body) := by
  unfold opRead
  repeat' first
    | (with_reducible first
         | exact Preserve.read | exact Preserve.ret _ | exact accruePennants_inv ..
         | refine Preserve.readThen fun _ _ => ?_ | refine Preserve.andThen ?_ fun _ => ?_)
    | split

theorem opBlobRead_inv (island : Bool) (body : List Nat) : Preserves State.Inv (opBlobRead island body) := by
  unfold opBlobRead
  repeat' first
    | (with_reducible first
         | exact Preserve.read | exact Preserve.ret _ | exact accruePennants_inv ..
         | refine Preserve.readThen fun _ _ => ?_ | refine Preserve.andThen ?_ fun _ => ?_
         | refine Preserve.cond ?_ ?_)
    | split

theorem putSession_inv (x : Session) : Preserves State.Inv (putSession x) := by
  unfold putSession
  repeat' first
    | (with_reducible first
         | exact setElo_inv ..)

theorem sessionClose_inv (id : Nat) : Preserves State.Inv (sessionClose id) := by
  unfold sessionClose
  repeat' first
    | (with_reducible first
         | refine Preserve.andThen ?_ fun _ => ?_)
    | (with_reducible refine Preserve.change fun _ h => ?_); exact h

theorem loginTimeout_inv (id : Nat) : Preserves State.Inv (loginTimeout id) := by
  unfold loginTimeout
  repeat' first
    | (with_reducible first
         | exact Preserve.skip | exact Preserve.read | exact sessionClose_inv ..
         | refine Preserve.readThen fun _ _ => ?_ | refine Preserve.andThen ?_ fun _ => ?_
         | refine Preserve.cond ?_ ?_)
    | split

theorem sessionIdle_inv (id : Nat) : Preserves State.Inv (sessionIdle id) := by
  unfold sessionIdle
  repeat' first
    | (with_reducible first
         | exact Preserve.skip | exact Preserve.read | exact sessionClose_inv ..
         | refine Preserve.readThen fun _ _ => ?_ | refine Preserve.andThen ?_ fun _ => ?_
         | refine Preserve.cond ?_ ?_)
    | split

theorem blobTimeout_inv (id : Nat) : Preserves State.Inv (blobTimeout id) := by
  unfold blobTimeout
  repeat' first
    | (with_reducible first
         | exact Preserve.skip | exact Preserve.read | exact putSession_inv ..
         | refine Preserve.readThen fun _ _ => ?_ | refine Preserve.andThen ?_ fun _ => ?_
         | refine Preserve.cond ?_ ?_)
    | split

theorem moduleControl_inv (v : Nat) : Preserves State.Inv (moduleControl v) := by
  unfold moduleControl
  repeat' first
    | (with_reducible first
         | exact Preserve.skip | exact moduleDrain_inv .. | exact moduleRestart_inv .. | exact moduleStandby_inv ..
         | exact moduleWake_inv .. | refine Preserve.andThen ?_ fun _ => ?_)
    | split

theorem userCalReset_inv : Preserves State.Inv userCalReset := by
  unfold userCalReset
  repeat' first
    | (with_reducible first
         | exact Preserve.read | exact setPar_inv .. | exact noteWrite_inv .. | refine Preserve.readThen fun _ _ => ?_
         | refine Preserve.andThen ?_ fun _ => ?_ | refine Preserve.each _ fun _ => ?_)
    | (with_reducible refine Preserve.change fun _ h => ?_); exact h

theorem restoreDefaults_inv : Preserves State.Inv restoreDefaults := by
  unfold restoreDefaults
  repeat' first
    | (with_reducible first
         | exact setElo_inv ..)

theorem resetCommand_inv (e : Nat) (lost : Option (Nat × Nat)) : Preserves State.Inv (resetCommand e lost) := by
  unfold resetCommand
  repeat' first
    | (with_reducible first
         | exact engineReset_inv .. | exact fwEngineFails_inv .. | refine Preserve.andThen ?_ fun _ => ?_)

theorem command_inv (key v : Nat) : Preserves State.Inv (command key v) := by
  unfold command
  repeat' first
    | (with_reducible first
         | exact Preserve.skip | exact sessionClose_inv .. | exact restoreDefaults_inv .. | exact userCalReset_inv ..
         | exact leaseCommit_inv .. | exact linkPlanApply_inv .. | exact linkRestore_inv ..
         | exact laneSpareStart_inv .. | exact rankReady_inv .. | exact qpReload_inv .. | exact keyReload_inv ..
         | exact partitionControl_inv .. | exact instanceControl_inv .. | exact placementReload_inv ..
         | exact normProfileSave_inv .. | exact resetCommand_inv .. | exact enterFenced_inv ..
         | exact dieSpareStart_inv .. | exact dumpStart_inv .. | exact moduleControl_inv ..
         | exact vaultLoadStart_inv .. | exact fwActivate_inv .. | exact fwConfirm_inv .. | exact fwRevert_inv ..
         | refine Preserve.andThen ?_ fun _ => ?_ | refine Preserve.onlyIf _ ?_ | refine Preserve.cond ?_ ?_)

theorem putSub_inv (slot sub v : Nat) : Preserves State.Inv (putSub slot sub v) := by
  unfold putSub
  repeat' first
    | (with_reducible first
         | refine Preserve.andThen ?_ fun _ => ?_ | refine Preserve.cond ?_ ?_)
    | (with_reducible refine Preserve.change fun _ h => ?_); exact h

theorem putValue_inv (key v : Nat) : Preserves State.Inv (putValue key v) := by
  unfold putValue
  repeat' first
    | (with_reducible first
         | exact putSub_inv .. | exact setPar_inv .. | refine Preserve.andThen ?_ fun _ => ?_
         | refine Preserve.cond ?_ ?_)

theorem storeValue_inv (path key : Nat) (r : PRow) (n v : Nat) : Preserves State.Inv (storeValue path key r n v) := by
  unfold storeValue
  repeat' first
    | (with_reducible first
         | exact Preserve.ret _ | exact putValue_inv .. | exact noteWrite_inv ..
         | refine Preserve.andThen ?_ fun _ => ?_)

theorem settleLimits_inv (path : Nat) (keys : List Nat) : Preserves State.Inv (settleLimits path keys) := by
  unfold settleLimits
  repeat' first
    | (with_reducible first
         | exact Preserve.read | exact Preserve.ret _ | exact setPar_inv .. | exact noteWrite_inv ..
         | refine Preserve.readThen fun _ _ => ?_ | refine Preserve.andThen ?_ fun _ => ?_
         | refine Preserve.cond ?_ ?_ | refine Preserve.each _ fun _ => ?_ | refine Preserve.collect _ fun _ => ?_)
    | (with_reducible refine Preserve.change fun _ h => ?_); exact h

theorem followWrite_inv (key old : Nat) : Preserves State.Inv (followWrite key old) := by
  unfold followWrite
  repeat' first
    | (with_reducible first
         | exact Preserve.read | exact putLimit_inv .. | exact freeRun_inv .. | exact setEff_inv ..
         | refine Preserve.readThen fun _ _ => ?_ | refine Preserve.andThen ?_ fun _ => ?_
         | refine Preserve.onlyIf _ ?_)
    | (with_reducible refine Preserve.change fun _ h => ?_); exact h

theorem writeAll_inv (path : Nat) (items : List (Nat × List Nat)) : Preserves State.Inv (writeAll path items) := by
  unfold writeAll
  repeat' first
    | (with_reducible first
         | exact Preserve.skip | exact Preserve.read | exact Preserve.ret _ | exact storeValue_inv ..
         | exact settleLimits_inv .. | exact bump_inv .. | exact followWrite_inv .. | exact command_inv ..
         | refine Preserve.readThen fun _ _ => ?_ | refine Preserve.andThen ?_ fun _ => ?_
         | refine Preserve.onlyIf _ ?_ | refine Preserve.cond ?_ ?_ | refine Preserve.each _ fun _ => ?_
         | refine Preserve.collect _ fun _ => ?_)
    | split

theorem opWrite_inv (role path : Nat) (island : Bool) (body : List Nat) : Preserves State.Inv (opWrite role path island body) := by
  unfold opWrite
  repeat' first
    | (with_reducible first
         | exact Preserve.ret _ | exact writeAll_inv .. | refine Preserve.andThen ?_ fun _ => ?_
         | refine Preserve.cond ?_ ?_)
    | split

theorem opBlobWrite_inv (path : Nat) (x : Option Session) (more : Bool) (body : List Nat) : Preserves State.Inv (opBlobWrite path x more body) := by
  unfold opBlobWrite
  repeat' first
    | (with_reducible first
         | exact Preserve.read | exact Preserve.ret _ | exact putSession_inv .. | exact writeAll_inv ..
         | refine Preserve.readThen fun _ _ => ?_ | refine Preserve.andThen ?_ fun _ => ?_
         | refine Preserve.cond ?_ ?_)
    | split

theorem randomNumber_inv : Preserves State.Inv randomNumber := by
  unfold randomNumber
  repeat' first
    | (with_reducible first
         | refine Preserve.andThen ?_ fun _ => ?_)
    | (intro _ h; exact h)

theorem opChallenge_inv (path src : Nat) (body : List Nat) : Preserves State.Inv (opChallenge path src body) := by
  unfold opChallenge
  repeat' first
    | (with_reducible first
         | exact Preserve.read | exact Preserve.ret _ | exact randomNumber_inv .. | exact setElo_inv ..
         | refine Preserve.readThen fun _ _ => ?_ | refine Preserve.andThen ?_ fun _ => ?_
         | refine Preserve.cond ?_ ?_ | refine Preserve.collect _ fun _ => ?_)

theorem loginFails_inv (path src : Nat) : Preserves State.Inv (loginFails path src) := by
  unfold loginFails
  repeat' first
    | (with_reducible first
         | exact Preserve.read | exact bump_inv .. | exact setElo_inv .. | refine Preserve.readThen fun _ _ => ?_
         | refine Preserve.andThen ?_ fun _ => ?_)

theorem opLogin_inv (path src : Nat) (x : Session) (p : Pdu) : Preserves State.Inv (opLogin path src x p) := by
  unfold opLogin
  repeat' first
    | (with_reducible first
         | exact Preserve.read | exact Preserve.ret _ | exact putSession_inv .. | exact sessionClose_inv ..
         | exact loginFails_inv .. | refine Preserve.readThen fun _ _ => ?_ | refine Preserve.andThen ?_ fun _ => ?_
         | refine Preserve.cond ?_ ?_)

theorem opSubscribe_inv (path src : Nat) (x : Option Session) (body : List Nat) : Preserves State.Inv (opSubscribe path src x body) := by
  unfold opSubscribe
  repeat' first
    | (with_reducible first
         | exact Preserve.read | exact Preserve.ret _ | refine Preserve.readThen fun _ _ => ?_
         | refine Preserve.andThen ?_ fun _ => ?_ | refine Preserve.cond ?_ ?_)
    | (with_reducible refine Preserve.change fun _ h => ?_); exact h
    | split

theorem opUnsubscribe_inv (path src role : Nat) (body : List Nat) : Preserves State.Inv (opUnsubscribe path src role body) := by
  unfold opUnsubscribe
  repeat' first
    | (with_reducible first
         | exact Preserve.read | exact Preserve.ret _ | refine Preserve.readThen fun _ _ => ?_
         | refine Preserve.andThen ?_ fun _ => ?_ | refine Preserve.cond ?_ ?_)
    | (with_reducible refine Preserve.change fun _ h => ?_); exact h

theorem ackFrom_inv (path src n : Nat) : Preserves State.Inv (ackFrom path src n) := by
  unfold ackFrom
  repeat' first
    | (with_reducible first
         | exact Preserve.read | exact deliverSlot_inv .. | refine Preserve.readThen fun _ _ => ?_
         | refine Preserve.andThen ?_ fun _ => ?_ | refine Preserve.cond ?_ ?_ | refine Preserve.each _ fun _ => ?_)
    | (with_reducible refine Preserve.change fun _ h => ?_); exact h

theorem resumeSlots_inv (path src : Nat) : Preserves State.Inv (resumeSlots path src) := by
  unfold resumeSlots
  repeat' first
    | (with_reducible first
         | exact Preserve.read | exact sendRecords_inv .. | exact deliverSlot_inv ..
         | refine Preserve.readThen fun _ _ => ?_ | refine Preserve.andThen ?_ fun _ => ?_
         | refine Preserve.each _ fun _ => ?_)
    | (with_reducible refine Preserve.change fun _ h => ?_); exact h

theorem opEventAck_inv (path src : Nat) (body : List Nat) : Preserves State.Inv (opEventAck path src body) := by
  unfold opEventAck
  repeat' first
    | (with_reducible first
         | exact Preserve.ret _ | exact ackFrom_inv .. | refine Preserve.andThen ?_ fun _ => ?_
         | refine Preserve.cond ?_ ?_)

theorem eventResend_inv (slot : Nat) : Preserves State.Inv (eventResend slot) := by
  unfold eventResend
  repeat' first
    | (with_reducible first
         | exact Preserve.skip | exact Preserve.read | exact sendRecords_inv ..
         | refine Preserve.readThen fun _ _ => ?_ | refine Preserve.andThen ?_ fun _ => ?_
         | refine Preserve.cond ?_ ?_)
    | (with_reducible refine Preserve.change fun _ h => ?_); exact h
    | split

theorem opDiscover_inv (path : Nat) : Preserves State.Inv (opDiscover path) := by
  unfold opDiscover
  repeat' first
    | (with_reducible first
         | exact Preserve.read | exact Preserve.ret _ | refine Preserve.readThen fun _ _ => ?_
         | refine Preserve.andThen ?_ fun _ => ?_ | refine Preserve.cond ?_ ?_)

theorem performOp_inv (path src : Nat) (x : Option Session) (island : Bool) (p : Pdu) : Preserves State.Inv (performOp path src x island p) := by
  unfold performOp
  repeat' first
    | (with_reducible first
         | exact Preserve.read | exact Preserve.ret _ | exact opRead_inv .. | exact opWrite_inv ..
         | exact opBlobRead_inv .. | exact opBlobWrite_inv .. | exact opChallenge_inv .. | exact sessionClose_inv ..
         | exact opSubscribe_inv .. | exact opUnsubscribe_inv .. | exact opEventAck_inv .. | exact opDiscover_inv ..
         | refine Preserve.readThen fun _ _ => ?_ | refine Preserve.andThen ?_ fun _ => ?_
         | refine Preserve.cond ?_ ?_)
    | split

theorem answer_inv (path src : Nat) (q : Pdu) : Preserves State.Inv (answer path src q) := by
  unfold answer
  repeat' first
    | (with_reducible first
         | exact bump_inv .. | exact deliver_inv .. | refine Preserve.andThen ?_ fun _ => ?_)

theorem sessionRequest_inv (path src : Nat) (x : Session) (island : Bool) (p : Pdu) : Preserves State.Inv (sessionRequest path src x island p) := by
  unfold sessionRequest
  repeat' first
    | (with_reducible first
         | exact Preserve.skip | exact Preserve.read | exact putSession_inv .. | exact deliver_inv ..
         | exact bump_inv .. | exact answer_inv .. | exact performOp_inv .. | refine Preserve.readThen fun _ _ => ?_
         | refine Preserve.andThen ?_ fun _ => ?_ | refine Preserve.cond ?_ ?_)
    | split

theorem receivePdu_inv (path src : Nat) (p : Pdu) : Preserves State.Inv (receivePdu path src p) := by
  unfold receivePdu
  repeat' first
    | (with_reducible first
         | exact Preserve.skip | exact Preserve.read | exact bump_inv .. | exact resumeSlots_inv ..
         | exact answer_inv .. | exact performOp_inv .. | exact opLogin_inv .. | exact sessionRequest_inv ..
         | refine Preserve.readThen fun _ _ => ?_ | refine Preserve.andThen ?_ fun _ => ?_
         | refine Preserve.onlyIf _ ?_ | refine Preserve.cond ?_ ?_)
    | split

theorem pduRow_inv (op path src : Nat) (p : Pdu) : Preserves State.Inv (pduRow op path src p) := by
  unfold pduRow
  repeat' first
    | (with_reducible first
         | exact Preserve.skip | exact receivePdu_inv .. | refine Preserve.andThen ?_ fun _ => ?_
         | refine Preserve.cond ?_ ?_)

theorem persistCommit_inv : Preserves State.Inv persistCommit := by
  unfold persistCommit
  repeat' first
    | (with_reducible first
         | exact Preserve.skip | exact Preserve.read | exact commitFlash_inv ..
         | refine Preserve.readThen fun _ _ => ?_ | refine Preserve.andThen ?_ fun _ => ?_
         | refine Preserve.cond ?_ ?_)

/-! ## Host -/

theorem windowBack_inv (h : Nat) : Preserves State.Inv (windowBack h) := by
  unfold windowBack
  repeat' first
    | (with_reducible first
         | exact Preserve.skip | exact Preserve.read | exact moveSpill_inv .. | exact cplVector_inv ..
         | refine Preserve.readThen fun _ _ => ?_ | refine Preserve.andThen ?_ fun _ => ?_
         | refine Preserve.cond ?_ ?_ | refine Preserve.each _ fun _ => ?_)

theorem changePort_inv (h : Nat) (f : HostPort → HostPort) : Preserves State.Inv (changePort h f) := by
  unfold changePort
  repeat' first
    | (with_reducible first
         | exact Preserve.read | exact setHostPort_inv .. | exact windowLost_inv .. | exact windowBack_inv ..
         | refine Preserve.readThen fun _ _ => ?_ | refine Preserve.andThen ?_ fun _ => ?_
         | refine Preserve.onlyIf _ ?_)

theorem portReset_inv (h : Nat) : Preserves State.Inv (portReset h) := by
  unfold portReset
  repeat' first
    | (with_reducible first
         | exact bump_inv .. | exact changePort_inv .. | refine Preserve.andThen ?_ fun _ => ?_)

theorem functionLevelReset_inv (h : Nat) : Preserves State.Inv (functionLevelReset h) := by
  unfold functionLevelReset
  repeat' first
    | (with_reducible first
         | exact Preserve.read | exact portReset_inv .. | refine Preserve.readThen fun _ _ => ?_
         | refine Preserve.andThen ?_ fun _ => ?_ | refine Preserve.onlyIf _ ?_)

theorem surpriseDown_inv (h : Nat) : Preserves State.Inv (surpriseDown h) := by
  unfold surpriseDown
  repeat' first
    | (with_reducible first
         | exact Preserve.skip | exact Preserve.read | exact bump_inv .. | exact portDown_inv ..
         | refine Preserve.readThen fun _ _ => ?_ | refine Preserve.andThen ?_ fun _ => ?_
         | refine Preserve.cond ?_ ?_)

theorem perstN_inv (h : Nat) (low : Bool) : Preserves State.Inv (perstN h low) := by
  unfold perstN
  repeat' first
    | (with_reducible first
         | exact Preserve.skip | exact Preserve.read | exact portReset_inv .. | exact setHostPort_inv ..
         | exact portDown_inv .. | refine Preserve.readThen fun _ _ => ?_ | refine Preserve.andThen ?_ fun _ => ?_
         | refine Preserve.cond ?_ ?_)

theorem hostLinkUp_inv (h width rate : Nat) (flit cxl again : Bool) : Preserves State.Inv (hostLinkUp h width rate flit cxl again) := by
  unfold hostLinkUp
  repeat' first
    | (with_reducible first
         | exact Preserve.skip | exact Preserve.read | exact portReset_inv .. | exact changePort_inv ..
         | refine Preserve.readThen fun _ _ => ?_ | refine Preserve.andThen ?_ fun _ => ?_
         | refine Preserve.onlyIf _ ?_ | refine Preserve.cond ?_ ?_)

theorem sendPending_inv (h : Nat) : Preserves State.Inv (sendPending h) := by
  unfold sendPending
  repeat' first
    | (with_reducible first
         | exact Preserve.skip | exact Preserve.read | exact setHostPort_inv .. | exact emit_inv ..
         | refine Preserve.readThen fun _ _ => ?_ | refine Preserve.andThen ?_ fun _ => ?_
         | refine Preserve.cond ?_ ?_ | refine Preserve.each _ fun _ => ?_)

theorem configurationWrite_inv (h : Nat) (w : ConfigWrite) : Preserves State.Inv (configurationWrite h w) := by
  unfold configurationWrite
  repeat' first
    | (with_reducible first
         | exact Preserve.skip | exact Preserve.read | exact changePort_inv .. | exact setHostPort_inv ..
         | exact sendPending_inv .. | refine Preserve.readThen fun _ _ => ?_ | refine Preserve.andThen ?_ fun _ => ?_
         | refine Preserve.cond ?_ ?_)
    | split

theorem portAccess_inv (h : Nat) (m : M Unit) (hm : Preserves State.Inv m) : Preserves State.Inv (portAccess h m) := by
  unfold portAccess
  repeat' first
    | (with_reducible first
         | exact Preserve.skip | exact Preserve.read | exact hm | exact setHostPort_inv ..
         | refine Preserve.readThen fun _ _ => ?_ | refine Preserve.andThen ?_ fun _ => ?_
         | refine Preserve.cond ?_ ?_)

theorem highHalfRead_inv (h off : Nat) : Preserves State.Inv (highHalfRead h off) := by
  unfold highHalfRead
  repeat' first
    | (with_reducible first
         | exact Preserve.read | refine portAccess_inv (hm := ?_) .. | exact emit_inv ..
         | refine Preserve.readThen fun _ _ => ?_)

theorem lowHalfRead_inv (h off n : Nat) : Preserves State.Inv (lowHalfRead h off n) := by
  unfold lowHalfRead
  repeat' first
    | (with_reducible first
         | exact Preserve.read | exact highHalfRead_inv .. | refine portAccess_inv (hm := ?_) ..
         | exact setHostPort_inv .. | exact emit_inv .. | refine Preserve.readThen fun _ _ => ?_
         | refine Preserve.andThen ?_ fun _ => ?_ | refine Preserve.onlyIf _ ?_ | refine Preserve.cond ?_ ?_)

theorem writeImage_inv (key n v : Nat) : Preserves State.Inv (writeImage key n v) := by
  unfold writeImage
  repeat' first
    | (with_reducible first
         | exact Preserve.skip | exact Preserve.read | exact writeAll_inv .. | refine Preserve.readThen fun _ _ => ?_
         | refine Preserve.andThen ?_ fun _ => ?_ | refine Preserve.cond ?_ ?_)

theorem writeRegister_inv (h off : Nat) (part : RegPart) (v : Nat) : Preserves State.Inv (writeRegister h off part v) := by
  unfold writeRegister
  repeat' first
    | (with_reducible first
         | exact Preserve.skip | exact Preserve.read | exact bump_inv .. | exact setHostPort_inv ..
         | exact changePort_inv .. | exact writeImage_inv .. | refine Preserve.readThen fun _ _ => ?_
         | refine Preserve.andThen ?_ fun _ => ?_ | refine Preserve.onlyIf _ ?_ | refine Preserve.cond ?_ ?_)

theorem writeMsix_inv (h off : Nat) (data : List Nat) : Preserves State.Inv (writeMsix h off data) := by
  unfold writeMsix
  repeat' first
    | (with_reducible first
         | exact setHostPort_inv .. | exact sendPending_inv ..)
    | (with_reducible first
         | refine Preserve.andThen ?_ fun _ => ?_)

theorem registerWrite_inv (h off : Nat) (data : List Nat) : Preserves State.Inv (registerWrite h off data) := by
  unfold registerWrite
  repeat' first
    | (with_reducible first
         | exact Preserve.skip | refine portAccess_inv (hm := ?_) .. | exact setHostPort_inv ..
         | exact writeMsix_inv .. | exact writeRegister_inv .. | refine Preserve.andThen ?_ fun _ => ?_
         | refine Preserve.cond ?_ ?_)

theorem powerCapWrite_inv (h : Nat) (part : RegPart) (v : Nat) : Preserves State.Inv (powerCapWrite h part v) := by
  unfold powerCapWrite
  repeat' first
    | (with_reducible first
         | exact Preserve.read | refine portAccess_inv (hm := ?_) .. | exact bump_inv .. | exact writeImage_inv ..
         | refine Preserve.readThen fun _ _ => ?_ | refine Preserve.andThen ?_ fun _ => ?_
         | refine Preserve.onlyIf _ ?_ | refine Preserve.cond ?_ ?_)

theorem fltPendingWrite_inv (h : Nat) (part : RegPart) (v : Nat) : Preserves State.Inv (fltPendingWrite h part v) := by
  have one : ∀ u : Nat, Preserves State.Inv (modify fun s => { s with
      fltPending := sumOf ((List.range 6).map fun i => if bit s.fltPending i && !bit u i then 2 ^ i else 0) } : M Unit) := fun u s hs =>
    ⟨hs.1, hs.2.1, sixBits_lt fun i => bit s.fltPending i && !bit u i⟩
  unfold fltPendingWrite
  exact portAccess_inv h _ (Preserve.onlyIf _ (one v))

theorem mailboxDoorbell_inv (h : Nat) (part : RegPart) (v : Nat) : Preserves State.Inv (mailboxDoorbell h part v) := by
  unfold mailboxDoorbell
  repeat' first
    | (with_reducible first
         | exact Preserve.skip | exact Preserve.read | refine portAccess_inv (hm := ?_) .. | exact bump_inv ..
         | exact setHostPort_inv .. | exact receivePdu_inv .. | exact answer_inv ..
         | refine Preserve.readThen fun _ _ => ?_ | refine Preserve.andThen ?_ fun _ => ?_
         | refine Preserve.cond ?_ ?_)
    | split

theorem mailboxEventAck_inv (h : Nat) (part : RegPart) (v : Nat) : Preserves State.Inv (mailboxEventAck h part v) := by
  unfold mailboxEventAck
  repeat' first
    | (with_reducible first
         | exact Preserve.skip | refine portAccess_inv (hm := ?_) .. | exact setHostPort_inv .. | exact ackFrom_inv ..
         | refine Preserve.andThen ?_ fun _ => ?_ | refine Preserve.cond ?_ ?_)

theorem doorbell_inv (h p : Nat) (m : M Unit) (hm : Preserves State.Inv m) : Preserves State.Inv (doorbell h p m) := by
  unfold doorbell
  repeat' first
    | (with_reducible first
         | exact Preserve.read | exact hm | refine portAccess_inv (hm := ?_) .. | exact bump_inv ..
         | refine Preserve.readThen fun _ _ => ?_ | refine Preserve.andThen ?_ fun _ => ?_
         | refine Preserve.cond ?_ ?_)

theorem countDoorbell_inv (p door done size v : Nat) : Preserves State.Inv (countDoorbell p door done size v) := by
  unfold countDoorbell
  repeat' first
    | (with_reducible first
         | exact Preserve.read | exact bump_inv .. | exact setDoor_inv .. | refine Preserve.readThen fun _ _ => ?_
         | refine Preserve.andThen ?_ fun _ => ?_)

theorem requestDoorbell_inv (h p : Nat) (part : RegPart) (v : Nat) : Preserves State.Inv (requestDoorbell h p part v) := by
  unfold requestDoorbell
  repeat' first
    | (with_reducible first
         | exact Preserve.read | refine doorbell_inv (hm := ?_) .. | exact countDoorbell_inv ..
         | refine Preserve.readThen fun _ _ => ?_ | refine Preserve.andThen ?_ fun _ => ?_
         | refine Preserve.onlyIf _ ?_)

theorem cancelDoorbell_inv (h p : Nat) (part : RegPart) (v : Nat) : Preserves State.Inv (cancelDoorbell h p part v) := by
  unfold cancelDoorbell
  repeat' first
    | (with_reducible first
         | exact Preserve.read | refine doorbell_inv (hm := ?_) .. | exact countDoorbell_inv ..
         | refine Preserve.readThen fun _ _ => ?_ | refine Preserve.andThen ?_ fun _ => ?_
         | refine Preserve.onlyIf _ ?_)

theorem completionDoorbell_inv (h p : Nat) (part : RegPart) (v : Nat) : Preserves State.Inv (completionDoorbell h p part v) := by
  unfold completionDoorbell
  repeat' first
    | (with_reducible first
         | exact Preserve.skip | refine doorbell_inv (hm := ?_) .. | exact setDoor_inv .. | exact moveSpill_inv ..
         | refine Preserve.andThen ?_ fun _ => ?_ | refine Preserve.cond ?_ ?_)

theorem controlDoorbell_inv (h p : Nat) (part : RegPart) (v : Nat) : Preserves State.Inv (controlDoorbell h p part v) := by
  unfold controlDoorbell
  repeat' first
    | (with_reducible first
         | exact Preserve.skip | exact Preserve.read | refine doorbell_inv (hm := ?_) .. | exact countDoorbell_inv ..
         | exact passNops_inv .. | refine Preserve.readThen fun _ _ => ?_ | refine Preserve.andThen ?_ fun _ => ?_
         | refine Preserve.cond ?_ ?_)

theorem commandDoorbell_inv (h p : Nat) (part : RegPart) (v : Nat) : Preserves State.Inv (commandDoorbell h p part v) := by
  unfold commandDoorbell
  repeat' first
    | (with_reducible first
         | exact Preserve.skip | exact Preserve.read | refine doorbell_inv (hm := ?_) .. | exact bump_inv ..
         | exact cmdDoorbell_inv .. | exact setDoor_inv .. | refine Preserve.readThen fun _ _ => ?_
         | refine Preserve.andThen ?_ fun _ => ?_ | refine Preserve.cond ?_ ?_)
    | split

theorem bar2Read_inv (h off n : Nat) : Preserves State.Inv (bar2Read h off n) := by
  unfold bar2Read
  repeat' first
    | (with_reducible first
         | exact Preserve.read | exact Preserve.ret _ | refine portAccess_inv (hm := ?_) .. | exact bump_inv ..
         | exact emit_inv .. | exact load_inv .. | refine Preserve.readThen fun _ _ => ?_
         | refine Preserve.andThen ?_ fun _ => ?_ | refine Preserve.cond ?_ ?_ | refine Preserve.collect _ fun _ => ?_)
    | split

theorem bar2Write_inv (h off : Nat) (data : List Nat) (poisoned : Bool) : Preserves State.Inv (bar2Write h off data poisoned) := by
  unfold bar2Write
  repeat' first
    | (with_reducible first
         | exact Preserve.skip | exact Preserve.read | refine portAccess_inv (hm := ?_) .. | exact bump_inv ..
         | exact storePoison_inv .. | exact store_inv .. | refine Preserve.readThen fun _ _ => ?_
         | refine Preserve.andThen ?_ fun _ => ?_ | refine Preserve.cond ?_ ?_ | refine Preserve.each _ fun _ => ?_)
    | split

theorem bar2Atomic_inv (h off size : Nat) (op : HostAtomic) (a b : Nat) : Preserves State.Inv (bar2Atomic h off size op a b) := by
  unfold bar2Atomic
  repeat' first
    | (with_reducible first
         | exact Preserve.read | refine portAccess_inv (hm := ?_) .. | exact bump_inv .. | exact emit_inv ..
         | exact load_inv .. | exact atomic_inv .. | refine Preserve.readThen fun _ _ => ?_
         | refine Preserve.andThen ?_ fun _ => ?_ | refine Preserve.cond ?_ ?_)
    | split

theorem windowData_inv (a : Nat) (data : List Nat) (poisoned : Bool) : Preserves State.Inv (windowData a data poisoned) := by
  unfold windowData
  repeat' first
    | (with_reducible first
         | refine Preserve.andThen ?_ fun _ => ?_)
    | (with_reducible refine Preserve.change fun _ h => ?_); first | exact h | exact foldl_keeps (I := State.Inv) _ _ _ (foldl_keeps (I := State.Inv) _ _ _ h fun _ _ ht => State.setByte_inv _ _ ht) fun _ _ ht => ht

theorem readsArrived_inv (h : Nat) : Preserves State.Inv (readsArrived h) := by
  unfold readsArrived
  repeat' first
    | (with_reducible first
         | refine Preserve.andThen ?_ fun _ => ?_)
    | (with_reducible refine Preserve.change fun _ h => ?_); exact h

theorem hostReadCompletion_inv (h a : Nat) (data : List Nat) (poisoned : Bool) : Preserves State.Inv (hostReadCompletion h a data poisoned) := by
  unfold hostReadCompletion
  repeat' first
    | (with_reducible first
         | exact Preserve.skip | exact Preserve.read | exact bump_inv .. | exact windowData_inv ..
         | exact readsArrived_inv .. | refine Preserve.readThen fun _ _ => ?_ | refine Preserve.andThen ?_ fun _ => ?_
         | refine Preserve.cond ?_ ?_)
    | (with_reducible refine Preserve.change fun _ h => ?_); exact h
    | split

theorem completionTimeout_inv (h a : Nat) : Preserves State.Inv (completionTimeout h a) := by
  unfold completionTimeout
  repeat' first
    | (with_reducible first
         | exact Preserve.skip | exact Preserve.read | exact bump_inv .. | exact windowData_inv ..
         | exact readsArrived_inv .. | refine Preserve.readThen fun _ _ => ?_ | refine Preserve.andThen ?_ fun _ => ?_)
    | (with_reducible refine Preserve.change fun _ h => ?_); exact h
    | split

/-! ## Rows -/

theorem unlessFw_inv (m : M Unit) (hm : Preserves State.Inv m) : Preserves State.Inv (unlessFw m) := by
  unfold unlessFw
  repeat' first
    | (with_reducible first
         | exact Preserve.read | exact hm | refine Preserve.readThen fun _ _ => ?_
         | refine Preserve.andThen ?_ fun _ => ?_ | refine Preserve.onlyIf _ ?_)

theorem runReport_inv (p : Nat) (r : Report) : Preserves State.Inv (runReport p r) := by
  unfold runReport
  repeat' first
    | (with_reducible first
         | exact ownReport_inv .. | exact takeReport_inv .. | refine Preserve.andThen ?_ fun _ => ?_)
    | split

theorem cancelEntry_inv (p : Nat) : Preserves State.Inv (cancelEntry p) := by
  unfold cancelEntry
  repeat' first
    | (with_reducible first
         | exact Preserve.read | exact takeCancel_inv .. | exact setInst_inv ..
         | refine Preserve.readThen fun _ _ => ?_ | refine Preserve.andThen ?_ fun _ => ?_
         | refine Preserve.onlyIf _ ?_)

theorem slotDrained_inv (i : Nat) : Preserves State.Inv (slotDrained i) := by
  unfold slotDrained
  repeat' first
    | (with_reducible first
         | exact Preserve.read | exact emptySlot_inv .. | refine Preserve.readThen fun _ _ => ?_
         | refine Preserve.andThen ?_ fun _ => ?_ | refine Preserve.onlyIf _ ?_)

theorem packetOf_inv (kinds : List Nat) (chan header : Nat) (data : List Nat) : Preserves State.Inv (packetOf kinds chan header data) := by
  unfold packetOf
  repeat' first
    | (with_reducible first
         | exact takePacket_inv .. | refine Preserve.andThen ?_ fun _ => ?_ | refine Preserve.onlyIf _ ?_)

theorem settleErrors_inv : Preserves State.Inv settleErrors := by
  unfold settleErrors
  repeat' first
    | (with_reducible first
         | exact Preserve.read | exact countCorrected_inv .. | exact raiseEvent_inv ..
         | refine Preserve.readThen fun _ _ => ?_ | refine Preserve.andThen ?_ fun _ => ?_
         | refine Preserve.onlyIf _ ?_ | refine Preserve.each _ fun _ => ?_)
    | (with_reducible refine Preserve.change fun _ h => ?_); exact h

/-! ## Commands -/

theorem perform_inv {m : M Unit} (hm : Preserves State.Inv m) {s t : State} (h : s.Inv) (ht : perform m s = .next t) : t.Inv := by
  have : (m s).2 = t := Host.Outcome.next.inj ht
  exact this ▸ hm s h

theorem performOn_inv {ok : Bool} {m : M Unit} (hm : Preserves State.Inv m) {s t : State} (h : s.Inv)
    (ht : performOn ok m s = .next t) : t.Inv := by
  unfold performOn at ht
  split at ht
  · exact perform_inv hm h ht
  · cases ht; exact h

theorem issuedCommand_inv {e op p d : Nat} {watch : Option Watch} {at' : Option (Nat × Nat)} {body : Cmd → M End} {args : List Nat}
    (hb : ∀ c, Preserves State.Inv (body c)) {s t : State} (h : s.Inv) (ht : s.issuedCommand e op p d watch at' body args = .next t) :
    t.Inv := by
  unfold State.issuedCommand at ht
  split at ht <;> cases ht
  · exact runCmd_inv _ _ hb _ h
  · exact holdIssue_inv _ _ _ _ _ _ _ _ h

theorem engineCommand_inv {e op : Nat} {src : CmdSource} {body : Cmd → M End} {args : List Nat}
    (hb : ∀ c, Preserves State.Inv (body c)) {s t : State} (h : s.Inv) (ht : s.engineCommand e op src body args = .next t) : t.Inv := by
  unfold State.engineCommand at ht
  split at ht
  · split at ht <;> cases ht
    · exact runCmd_inv _ _ hb _ h
    · exact h
  · exact issuedCommand_inv hb h ht
  · cases ht; exact h

theorem layerCommand_inv {e op : Nat} {src : CmdSource} {body : Cmd → M End} {args : List Nat}
    (hb : ∀ c, Preserves State.Inv (body c)) {s t : State} (h : s.Inv) (ht : s.layerCommand e op src body args = .next t) : t.Inv := by
  unfold State.layerCommand at ht
  split at ht
  · exact engineCommand_inv hb h ht
  · exact engineCommand_inv hb h ht
  · split at ht
    · cases ht; exact h
    · exact issuedCommand_inv hb h ht

theorem kindCommand_inv {ok : Kind → Bool} {e op : Nat} {src : CmdSource} {body : Cmd → M End} {args : List Nat}
    (hb : ∀ c, Preserves State.Inv (body c)) {s t : State} (h : s.Inv) (ht : s.kindCommand ok e op src body args = .next t) :
    t.Inv := by
  unfold State.kindCommand at ht
  split at ht
  · split at ht
    · exact layerCommand_inv hb h ht
    · cases ht; exact h
  · cases ht; exact h

theorem State.tick_inv {s : State} (h : s.Inv) : s.tick.Inv := by
  have struck : ∀ (u : State) (o : Option (Nat × List (Nat × Nat))), u.Inv →
      (match o with | some (c, errs) => u.strike c errs | none => u : State).Inv := fun u o hu => by
    split
    · exact State.strike_inv _ _ hu
    · exact hu
  have counted : ∀ (b : Bool) (u : State) (k n : Nat), u.Inv → (if b then u.bump k n else u : State).Inv := fun b u k n hu => by
    split <;> exact hu
  exact linkTick_inv _ (settleErrors_inv _ (struck _ _ (counted _ _ _ _ h)))

end Sys2Proof.Machine
end

