-- ==== Sys2Proof/Laws/Confine.lean ====
section
/-! SUPPORT. What an engine's command may write: no operation that runs for a partition changes a byte outside the partition's
accepted placements (R34, R97, R123). One lemma per operation that an engine's command is made of. -/
namespace Sys2Proof.Machine

/-- t is reached from s without a byte changed that partition p has no placement for: placements and host windows stay, and
every byte outside the partition's accepted placements reads as before. -/
structure Within (p : Nat) (s t : State) : Prop where
  places : t.places = s.places
  window : ∀ h, (t.hostPort h).window = (s.hostPort h).window
  bytes : ∀ a, a < 0x800000000000 → s.placed p a = false → t.byte a = s.byte a

theorem Within.refl (p : Nat) (s : State) : Within p s s := ⟨rfl, fun _ => rfl, fun _ _ _ => rfl⟩
theorem Within.trans {p : Nat} {s t u : State} (h : Within p s t) (k : Within p t u) : Within p s u :=
  ⟨k.places.trans h.places, fun x => (k.window x).trans (h.window x), fun a ha hp =>
    (k.bytes a ha (by unfold State.placed at *; rw [h.places]; exact hp)).trans (h.bytes a ha hp)⟩

/-- m changes no byte outside the placements of partition p. -/
def Confined {α : Type} (p : Nat) (m : M α) : Prop := ∀ s, Within p s (m s).2

namespace Confine

variable {α β : Type} {p : Nat}

theorem ret (a : α) : Confined p (pure a : M α) := fun s => .refl p s
theorem skip : Confined p Machine.skip := fun s => .refl p s
theorem read : Confined p (get : M State) := fun s => .refl p s
theorem andThen {m : M α} {k : α → M β} (hm : Confined p m) (hk : ∀ a, Confined p (k a)) : Confined p (m >>= k) :=
  fun s => (hm s).trans (hk _ _)
theorem change {g : State → State} (h : ∀ s, Within p s (g s)) : Confined p (modify g : M Unit) := h
theorem cond {c : Prop} [Decidable c] {m k : M α} (hm : Confined p m) (hk : Confined p k) : Confined p (if c then m else k) := by
  split <;> assumption
theorem onlyIf (c : Bool) {m : M Unit} (hm : Confined p m) : Confined p (Machine.onlyIf c m) := cond hm skip
theorem each (l : List α) {k : α → M Unit} (hk : ∀ a, Confined p (k a)) : Confined p (Machine.each l k) := by
  induction l with
  | nil => exact ret _
  | cons x t ih => exact andThen (hk x) fun _ => ih
theorem collect (l : List α) {k : α → M β} (hk : ∀ a, Confined p (k a)) : Confined p (Machine.collect l k) := by
  induction l with
  | nil => exact ret _
  | cons x t ih => exact andThen (hk x) fun _ => andThen ih fun _ => ret _
theorem foldState (l : List α) (b : β) {k : β → α → M β} (hk : ∀ b a, Confined p (k b a)) : Confined p (Machine.foldState l b k) := by
  induction l generalizing b with
  | nil => exact ret _
  | cons x t ih => exact andThen (hk b x) fun c => ih c

/-- A continuation need only be confined on what the first part can answer. -/
theorem andThenOf {m : M α} {k : α → M β} {Q : α → Prop} (hm : Confined p m) (hq : ∀ s, Q (m s).1) (hk : ∀ a, Q a → Confined p (k a)) :
    Confined p (m >>= k) := fun s => (hm s).trans (hk _ (hq s) _)

end Confine

theorem answers_bind {α β : Type} {m : M α} {k : α → M β} {Q : β → Prop} (hk : ∀ a s, Q (k a s).1) (s : State) : Q ((m >>= k) s).1 := hk _ _
theorem answers_ret {α : Type} {Q : α → Prop} {a : α} (h : Q a) (s : State) : Q ((pure a : M α) s).1 := h

theorem lookup_none_above {α : Type} (l : List (Nat × α)) : ∃ j, lookup l j = none := by
  have h : ∀ (l : List (Nat × α)) (j : Nat), (∀ x ∈ l, x.1 < j) → lookup l j = none := fun l j hl => by
    induction l with
    | nil => rfl
    | cons x t ih =>
      obtain ⟨k, v⟩ := x
      have : k ≠ j := Nat.ne_of_lt (hl (k, v) (List.mem_cons_self ..))
      unfold lookup
      rw [if_neg this]
      exact ih fun y hy => hl y (List.mem_cons_of_mem _ hy)
  refine ⟨(l.map Prod.fst).foldr max 0 + 1, h l _ fun x hx => ?_⟩
  have hm : ∀ m : List Nat, ∀ y ∈ m, y ≤ m.foldr max 0 := fun m => by
    induction m with
    | nil => intro y hy; cases hy
    | cons z t ih =>
      intro y hy
      rcases List.mem_cons.mp hy with rfl | hy
      · exact Nat.le_max_left ..
      · exact (ih y hy).trans (Nat.le_max_right ..)
  exact Nat.lt_succ_of_le (hm _ _ (List.mem_map_of_mem hx))

/-- What is confined to every partition changes no byte. -/
theorem Confined.everywhere {α : Type} {m : M α} (h : ∀ p, Confined p m) (s : State) {a : Nat} (ha : a < 0x800000000000) :
    (m s).2.byte a = s.byte a := by
  obtain ⟨p, hp⟩ := lookup_none_above s.places
  exact (h p s).bytes a ha (by simp [State.placed, hp])

/-- What decides where bytes are kept is the same, and so are the bytes. -/
theorem Within.of_eq {p : Nat} {s t : State} (hm : t.mem = s.mem) (hp : t.places = s.places) (hh : t.hostPorts = s.hostPorts) :
    Within p s t := by
  have hport : ∀ h, t.hostPort h = s.hostPort h := fun h => by unfold State.hostPort; rw [hh]
  refine ⟨hp, fun h => by rw [hport], fun a _ _ => ?_⟩
  unfold State.byte State.cellKey
  simp only [hport, hm]

/-- A host port changes, but not its window. -/
theorem Within.setHostPort (p : Nat) (s : State) (h : Nat) (v : HostPort) (hv : v.window = (s.hostPort h).window) :
    Within p s (s.setHostPort h v) := by
  have hw : ∀ k, ((s.setHostPort h v).hostPort k).window = (s.hostPort k).window := fun k => by
    by_cases hk : k = h
    · subst hk; rw [State.hostPort_setHostPort_same, hv]
    · rw [State.hostPort_setHostPort_ne _ _ hk]
  refine ⟨rfl, hw, fun a _ _ => ?_⟩
  unfold State.byte State.cellKey
  simp only [hw]
  rfl

/-- A writer that reaches only what partition p has placements for (R34, R123). -/
inductive Who.Of (p : Nat) : Who → Prop
  | engine (k : Kind) (e : Nat) : Who.Of p (.engine k e p)
  | cue : Who.Of p (.cue p)

theorem Who.Of.cueOf {p : Nat} {w : Who} (h : w.Of p) : w.cueOf.Of p := by
  cases h <;> exact .cue

theorem Who.Of.placed {p : Nat} {w : Who} (h : w.Of p) {s : State} {a : Nat} (ha : s.mayAccess w true a = true) : s.placed p a = true := by
  cases h with
  | engine k e =>
    unfold State.mayAccess at ha
    dsimp only at ha
    split at ha
    · rename_i heq
      rw [heq] at ha
      cases k <;> simp [reaches] at ha
    · exact (Bool.and_eq_true_iff.mp ha).2
    · exact (Bool.and_eq_true_iff.mp ha).2
    · exact (Bool.and_eq_true_iff.mp ha).2
    · simp at ha
  | cue => exact (Bool.and_eq_true_iff.mp ha).2

/-- A write by such a writer stays in the placements. -/
theorem Within.storeBytes {p : Nat} {w : Who} (hw : w.Of p) (s : State) {fuel : Nat} (a : Nat) {bs : List Nat} (hf : bs.length ≤ fuel) :
    Within p s (State.storeBytes w fuel s a bs) := by
  obtain ⟨m, b, _⟩ := State.storeBytes_spec w fuel s a bs hf
  have r := m.rights
  refine ⟨r.places, fun h => by rw [r.hostPort], fun x hx hp => ?_⟩
  rw [b x hx, if_neg]
  intro hc
  simp only [State.changes, State.writable, Bool.and_eq_true] at hc
  exact absurd (hw.placed hc.1.2.1) (by rw [hp]; simp)

theorem Cmd.who_of (c : Cmd) : c.who.Of c.p := .engine _ _
theorem storyWho_of (p r : Nat) : (storyWho p r).Of p := .engine _ _
theorem whoOf_of (e p : Nat) : (whoOf e p).Of p := .engine _ _

theorem bump_confined {p : Nat} (k n : Nat) : Confined p (bump k n) := Confine.change fun s => by
  split
  · exact .refl p s
  · exact .of_eq rfl rfl rfl
theorem clampDesc_confined {p : Nat} (n : Nat) : Confined p (clampDesc n) := bump_confined _ _
theorem par_confined {p : Nat} (k : Nat) : Confined p (par k) := fun s => .refl p s
theorem eff_confined {p : Nat} (k : Nat) : Confined p (eff k) := fun s => .refl p s
theorem windowAdd_confined {p : Nat} (k h n : Nat) : Confined p (windowAdd k h n) := fun _ => .of_eq rfl rfl rfl
theorem noteReached_confined {p : Nat} (k : Nat) (on : Bool) : Confined p (noteReached k on) := fun s => by
  show Within p s (if _ then _ else _)
  split
  · exact .refl p s
  · exact .of_eq rfl rfl rfl
theorem State.recordFault_within {p : Nat} (s : State) (r : FaultRec) : Within p s (s.recordFault r) :=
  .of_eq (s.recordFault_mem r) (s.recordFault_places r) (s.recordFault_hostPorts r)
theorem recordFault_confined {p : Nat} (r : FaultRec) : Confined p (recordFault r) := Confine.change fun s =>
  .of_eq (s.recordFault_mem r) (s.recordFault_places r) (s.recordFault_hostPorts r)
theorem State.pend_within {p : Nat} (s : State) (i : Nat) : Within p s (s.pend i) :=
  .of_eq (s.pend_mem i) (s.pend_places i) (s.pend_hostPorts i)
theorem Within.foldl {p : Nat} {α : Type} (f : State → α → State) (l : List α) (s : State) (h : ∀ t a, Within p t (f t a)) :
    Within p s (l.foldl f s) :=
  foldl_keeps (I := Within p s) f l s (.refl p s) fun t a ht => ht.trans (h t a)
theorem setHostPort_confined {p : Nat} (h : Nat) (f : HostPort → HostPort) (hf : ∀ q, (f q).window = q.window) :
    Confined p (setHostPort h f) := Confine.change fun s => .setHostPort p s h _ (hf _)
theorem store_confined {p : Nat} (w : Who) (a : Nat) (bs : List Nat) (hw : w.Of p) : Confined p (store w a bs) :=
  Confine.andThen Confine.read fun _ => Confine.andThen (Confine.onlyIf _ (bump_confined _ _)) fun _ =>
    Confine.change fun s => .storeBytes hw s a (by omega)
theorem storeVal_confined {p : Nat} (w : Who) (a n v : Nat) (hw : w.Of p) : Confined p (storeVal w a n v) := store_confined w a _ hw
theorem State.poisonCodeword_within {p : Nat} (s : State) (w : Who) (c : Nat) : Within p s (s.poisonCodeword w c) := by
  unfold State.poisonCodeword
  split
  · exact .of_eq rfl rfl rfl
  · exact .refl p s
theorem storePoison_confined {p : Nat} (w : Who) (a n : Nat) : Confined p (storePoison w a n) :=
  Confine.andThen Confine.read fun _ => Confine.andThen (Confine.onlyIf _ (bump_confined _ _)) fun _ =>
    Confine.andThen (Confine.onlyIf _ (bump_confined _ _)) fun _ => Confine.change fun s =>
      .foldl _ _ s fun t c => t.poisonCodeword_within w c

/-! ## The operations an engine's command is made of -/

theorem setPar_confined {pt : Nat} (key v : Nat) : Confined pt (setPar key v) := by
  unfold setPar
  repeat' first
    | (with_reducible refine Confine.change fun _ => ?_); first | exact .of_eq rfl rfl rfl

theorem setEff_confined {pt : Nat} (key v : Nat) : Confined pt (setEff key v) := by
  unfold setEff
  repeat' first
    | (with_reducible first
         | refine Confine.andThen ?_ fun _ => ?_)
    | (with_reducible refine Confine.change fun _ => ?_); first | exact .of_eq rfl rfl rfl

theorem setInst_confined {pt : Nat} (p : Nat) (f : Inst → Inst) : Confined pt (setInst p f) := by
  unfold setInst
  repeat' first
    | (with_reducible first
         | refine Confine.andThen ?_ fun _ => ?_)
    | (with_reducible refine Confine.change fun _ => ?_); first | exact .of_eq rfl rfl rfl

theorem setEngine_confined {pt : Nat} (e : Nat) (f : EngineSt → EngineSt) : Confined pt (setEngine e f) := by
  unfold setEngine
  repeat' first
    | (with_reducible first
         | refine Confine.andThen ?_ fun _ => ?_)
    | (with_reducible refine Confine.change fun _ => ?_); first | exact .of_eq rfl rfl rfl

theorem emit_confined {pt : Nat} (o : Out) : Confined pt (emit o) := by
  unfold emit
  repeat' first
    | (with_reducible first
         | refine Confine.andThen ?_ fun _ => ?_)
    | (with_reducible refine Confine.change fun _ => ?_); first | exact .of_eq rfl rfl rfl

theorem sendMsix_confined {pt : Nat} (h vector : Nat) : Confined pt (sendMsix h vector) := by
  unfold sendMsix
  repeat' first
    | (with_reducible first
         | exact Confine.skip | exact Confine.read)
    | (with_reducible refine setHostPort_confined _ _ ?_); exact fun _ => rfl
    | (with_reducible first
         | exact emit_confined .. | refine Confine.andThen ?_ fun _ => ?_ | refine Confine.cond ?_ ?_)
    | split

theorem sendRecords_confined {pt : Nat} (slot : Nat) (u : Sub) (rs : List Nat) : Confined pt (sendRecords slot u rs) := by
  unfold sendRecords
  repeat' first
    | (with_reducible first
         | exact Confine.read | exact emit_confined .. | refine Confine.andThen ?_ fun _ => ?_
         | refine Confine.each _ fun _ => ?_)

theorem deliverSlot_confined {pt : Nat} (slot : Nat) : Confined pt (deliverSlot slot) := by
  unfold deliverSlot
  repeat' first
    | (with_reducible first
         | exact Confine.skip | exact Confine.read | exact bump_confined ..)
    | (with_reducible refine setHostPort_confined _ _ ?_); exact fun _ => rfl
    | (with_reducible first
         | exact sendMsix_confined .. | exact sendRecords_confined .. | refine Confine.andThen ?_ fun _ => ?_
         | refine Confine.cond ?_ ?_ | refine Confine.each _ fun _ => ?_)
    | (with_reducible refine Confine.change fun _ => ?_); first | exact .of_eq rfl rfl rfl
    | split

theorem raiseEvent_confined {pt : Nat} (code p flags detail : Nat) : Confined pt (raiseEvent code p flags detail) := by
  unfold raiseEvent
  repeat' first
    | (with_reducible first
         | exact Confine.skip | exact Confine.read | exact bump_confined .. | exact deliverSlot_confined ..
         | refine Confine.andThen ?_ fun _ => ?_ | refine Confine.each _ fun _ => ?_)
    | (with_reducible refine Confine.change fun _ => ?_); first | exact .of_eq rfl rfl rfl | exact State.recordFault_within _ _ | exact State.pend_within _ _
    | split

theorem recordUe_confined {pt : Nat} (a action p ctx : Nat) : Confined pt (recordUe a action p ctx) := by
  unfold recordUe
  repeat' first
    | (with_reducible first
         | refine Confine.andThen ?_ fun _ => ?_)
    | (with_reducible refine Confine.change fun _ => ?_); first | exact .of_eq rfl rfl rfl | exact State.recordFault_within _ _

theorem dieSpareStart_confined {pt : Nat} (stack die : Nat) : Confined pt (dieSpareStart stack die) := by
  unfold dieSpareStart
  repeat' first
    | (with_reducible first
         | exact Confine.skip | exact Confine.read | exact setPar_confined .. | refine Confine.andThen ?_ fun _ => ?_
         | refine Confine.cond ?_ ?_)
    | (with_reducible refine Confine.change fun _ => ?_); first | exact .of_eq rfl rfl rfl

theorem dieThreshold_confined {pt : Nat} (stack die : Nat) (reached : Bool) : Confined pt (dieThreshold stack die reached) := by
  unfold dieThreshold
  repeat' first
    | (with_reducible first
         | exact Confine.skip | exact Confine.read | exact dieSpareStart_confined .. | exact recordFault_confined ..
         | refine Confine.andThen ?_ fun _ => ?_ | refine Confine.onlyIf _ ?_ | refine Confine.cond ?_ ?_)

theorem tallyUe_confined {pt : Nat} (a : Nat) : Confined pt (tallyUe a) := by
  unfold tallyUe
  repeat' first
    | (with_reducible first
         | exact Confine.skip | exact Confine.read | refine Confine.andThen ?_ fun _ => ?_)
    | (with_reducible refine Confine.change fun _ => ?_); first | exact .of_eq rfl rfl rfl
    | split

theorem listUe_confined {pt : Nat} (a : Nat) : Confined pt (listUe a) := by
  unfold listUe
  repeat' first
    | (with_reducible first
         | exact Confine.skip | exact Confine.read | exact windowAdd_confined .. | exact noteReached_confined ..
         | exact dieThreshold_confined .. | exact recordUe_confined .. | refine Confine.andThen ?_ fun _ => ?_
         | refine Confine.onlyIf _ ?_)
    | (with_reducible refine Confine.change fun _ => ?_); first | exact .of_eq rfl rfl rfl | exact State.recordFault_within _ _
    | split

theorem findCodeword_confined {pt : Nat} (c : Nat) : Confined pt (findCodeword c) := by
  unfold findCodeword
  repeat' first
    | (with_reducible first
         | exact Confine.skip | exact Confine.read | exact tallyUe_confined .. | exact listUe_confined ..
         | exact recordUe_confined .. | refine Confine.andThen ?_ fun _ => ?_ | refine Confine.onlyIf _ ?_
         | refine Confine.cond ?_ ?_)
    | (with_reducible refine Confine.change fun _ => ?_); first | exact .of_eq rfl rfl rfl
    | split

theorem countCorrected_confined {pt : Nat} (a : Nat) (errs : List (Nat × Nat)) : Confined pt (countCorrected a errs) := by
  unfold countCorrected
  repeat' first
    | (with_reducible first
         | exact Confine.skip | exact Confine.read | exact Confine.ret _ | exact bump_confined ..
         | exact windowAdd_confined .. | exact recordFault_confined .. | exact noteReached_confined ..
         | exact dieThreshold_confined .. | refine Confine.andThen ?_ fun _ => ?_ | refine Confine.onlyIf _ ?_)
    | (with_reducible refine Confine.change fun _ => ?_); first | exact .of_eq rfl rfl rfl
    | split

theorem correct_confined {pt : Nat} (x : Nat × List (Nat × Nat)) : Confined pt (correct x) := by
  unfold correct
  repeat' first
    | (with_reducible first
         | exact countCorrected_confined .. | refine Confine.andThen ?_ fun _ => ?_)
    | (with_reducible refine Confine.change fun _ => ?_); first | exact .of_eq rfl rfl rfl

theorem setStory_confined {pt : Nat} (p : Nat) (f : StoryRun → StoryRun) : Confined pt (setStory p f) := by
  unfold setStory
  repeat' first
    | (with_reducible first
         | refine Confine.andThen ?_ fun _ => ?_)
    | (with_reducible refine Confine.change fun _ => ?_); first | exact .of_eq rfl rfl rfl

theorem storyBad_confined {pt : Nat} (p a : Nat) : Confined pt (storyBad p a) := by
  unfold storyBad
  repeat' first
    | (with_reducible first
         | exact recordUe_confined .. | exact setInst_confined .. | refine Confine.andThen ?_ fun _ => ?_)

theorem readAccess_confined {pt : Nat} (w : Who) (a n : Nat) : Confined pt (readAccess w a n) := by
  unfold readAccess
  repeat' first
    | (with_reducible first
         | exact Confine.read | exact Confine.ret _ | exact bump_confined .. | exact findCodeword_confined ..
         | refine Confine.andThen ?_ fun _ => ?_ | refine Confine.onlyIf _ ?_ | refine Confine.each _ fun _ => ?_)
    | (with_reducible refine Confine.change fun _ => ?_); first | exact .of_eq rfl rfl rfl

theorem load_confined {pt : Nat} (w : Who) (a n : Nat) : Confined pt (load w a n) := by
  unfold load
  repeat' first
    | (with_reducible first
         | exact Confine.read | exact correct_confined .. | exact readAccess_confined ..
         | refine Confine.andThen ?_ fun _ => ?_ | refine Confine.each _ fun _ => ?_)

theorem atomic_confined {p : Nat} (w : Who) (a : Nat) (f : Nat → Nat) (hw : w.Of p) : Confined p (atomic w a f) :=
  Confine.andThen Confine.read fun _ => Confine.andThen (load_confined w a 8) fun _ =>
    Confine.cond (Confine.andThen (Confine.change fun s => .storeBytes hw s a (by rw [toBytes_length]; omega))
      fun _ => Confine.ret _) (Confine.ret _)

theorem signalCue_confined {p : Nat} (w : Who) (a add : Nat) (hw : w.Of p) : Confined p (signalCue w a add) :=
  Confine.andThen Confine.read fun _ => Confine.cond Confine.skip
    (Confine.cond (Confine.andThen (atomic_confined _ a _ hw.cueOf) fun _ => Confine.skip) (bump_confined _ _))

theorem readOperandOnce_confined {pt : Nat} (w : Who) (role : FmtRole) (extent addr : Nat) (seen : Clamped) : Confined pt (readOperandOnce w role extent addr seen) := by
  unfold readOperandOnce
  repeat' first
    | (with_reducible first
         | exact Confine.ret _ | exact load_confined .. | exact clampDesc_confined ..
         | refine Confine.andThen ?_ fun _ => ?_)

theorem readOperand_confined {pt : Nat} (w : Who) (role : FmtRole) (extent addr : Nat) : Confined pt (readOperand w role extent addr) := by
  unfold readOperand
  repeat' first
    | (with_reducible first
         | exact Confine.ret _ | exact readOperandOnce_confined .. | refine Confine.andThen ?_ fun _ => ?_)

theorem readCoded_confined {pt : Nat} (w : Who) (role : FmtRole) (addr extent : Nat) (codes : List Nat) : Confined pt (readCoded w role addr extent codes) := by
  unfold readCoded
  repeat' first
    | (with_reducible first
         | exact Confine.ret _ | exact load_confined .. | exact clampDesc_confined ..
         | refine Confine.andThen ?_ fun _ => ?_)

theorem readRow_confined {pt : Nat} (w : Who) (o : Operand) (row k0 len : Nat) : Confined pt (readRow w o row k0 len) := by
  unfold readRow
  repeat' first
    | (with_reducible first
         | exact Confine.ret _ | exact load_confined .. | refine Confine.andThen ?_ fun _ => ?_
         | refine Confine.cond ?_ ?_)

theorem storeCodes_confined {pt : Nat} (w : Who) (a width : Nat) (codes : List Nat) (hw : w.Of pt) : Confined pt (storeCodes w a width codes) := by
  unfold storeCodes
  repeat' first
    | (with_reducible first
         | exact Confine.skip | exact Confine.read | exact hw | refine storeVal_confined _ _ _ _ ?_
         | refine Confine.andThen ?_ fun _ => ?_ | refine Confine.cond ?_ ?_)

theorem countConv_confined {pt : Nat} (c : Conv) : Confined pt (countConv c) := by
  unfold countConv
  repeat' first
    | (with_reducible first
         | exact bump_confined .. | refine Confine.andThen ?_ fun _ => ?_)

theorem poisonOutputs_confined {pt : Nat} (w : Who) (o : Operand) (row n0 : Nat) (affected : List Bool) : Confined pt (poisonOutputs w o row n0 affected) := by
  unfold poisonOutputs
  repeat' first
    | (with_reducible first
         | exact Confine.skip | exact storePoison_confined .. | refine Confine.andThen ?_ fun _ => ?_
         | refine Confine.cond ?_ ?_ | refine Confine.each _ fun _ => ?_)

theorem writeOutputs_confined {pt : Nat} (w : Who) (o : Operand) (row n0 : Nat) (ys : List Nat) (affected : List Bool) (hw : w.Of pt) : Confined pt (writeOutputs w o row n0 ys affected) := by
  unfold writeOutputs
  repeat' first
    | (with_reducible first
         | exact Confine.skip | exact hw | exact countConv_confined .. | refine storeCodes_confined (hw := ?_) ..
         | refine store_confined _ _ _ ?_ | exact poisonOutputs_confined .. | refine Confine.andThen ?_ fun _ => ?_
         | refine Confine.cond ?_ ?_)

theorem noteBlame_confined {pt : Nat} (p node ns : Nat) : Confined pt (noteBlame p node ns) := by
  unfold noteBlame
  repeat' first
    | (with_reducible first
         | refine Confine.andThen ?_ fun _ => ?_ | refine Confine.cond ?_ ?_)
    | (with_reducible refine Confine.change fun _ => ?_); first | exact .of_eq rfl rfl rfl | exact State.recordFault_within _ _ | exact State.pend_within _ _ | ((repeat' split) <;> first | exact .of_eq rfl rfl rfl)

theorem noteEligible_confined {pt : Nat} (e p desc : Nat) (overlap : Bool) (since : Nat) : Confined pt (noteEligible e p desc overlap since) := by
  unfold noteEligible
  repeat' first
    | (with_reducible first
         | exact Confine.skip | exact Confine.read | exact setEngine_confined .. | exact bump_confined ..
         | exact noteBlame_confined .. | refine Confine.andThen ?_ fun _ => ?_ | refine Confine.onlyIf _ ?_)
    | split

theorem noteGrant_confined {pt : Nat} (e : Nat) (c : Cand) : Confined pt (noteGrant e c) := by
  unfold noteGrant
  repeat' first
    | (with_reducible first
         | exact Confine.read | exact bump_confined .. | exact setEngine_confined .. | exact setPar_confined ..
         | refine Confine.andThen ?_ fun _ => ?_ | refine Confine.onlyIf _ ?_ | refine Confine.cond ?_ ?_)

theorem dropForRecord_confined {pt : Nat} (c : Cmd) (addr : Nat) : Confined pt (dropForRecord c addr) := by
  unfold dropForRecord
  repeat' first
    | (with_reducible first
         | exact Confine.read | exact recordFault_confined .. | exact setInst_confined ..
         | refine Confine.andThen ?_ fun _ => ?_ | refine Confine.onlyIf _ ?_)

theorem putRefs_confined {pt : Nat} : Confined pt putRefs := by
  unfold putRefs
  repeat' first
    | (with_reducible first
         | exact Confine.read | exact setPar_confined .. | refine Confine.andThen ?_ fun _ => ?_
         | refine Confine.onlyIf _ ?_ | refine Confine.each _ fun _ => ?_)

theorem takeRef_confined {pt : Nat} (r : CodecRef) : Confined pt (takeRef r) := by
  unfold takeRef
  repeat' first
    | (with_reducible first
         | exact putRefs_confined .. | refine Confine.andThen ?_ fun _ => ?_)
    | (with_reducible refine Confine.change fun _ => ?_); first | exact .of_eq rfl rfl rfl

theorem dropRefs_confined {pt : Nat} (e p ctx desc : Nat) : Confined pt (dropRefs e p ctx desc) := by
  unfold dropRefs
  repeat' first
    | (with_reducible first
         | exact putRefs_confined .. | refine Confine.andThen ?_ fun _ => ?_)
    | (with_reducible refine Confine.change fun _ => ?_); first | exact .of_eq rfl rfl rfl

theorem releaseRefs_confined {pt : Nat} (c : Cmd) : Confined pt (releaseRefs c) := by
  unfold releaseRefs
  repeat' first
    | (with_reducible first
         | exact dropRefs_confined .. | refine Confine.andThen ?_ fun _ => ?_ | refine Confine.onlyIf _ ?_)

theorem completeCmd_confined (c : Cmd) : Confined c.p (completeCmd c) := by
  unfold completeCmd
  repeat' first
    | (with_reducible first
         | exact Confine.skip | exact Cmd.who_of _ | refine signalCue_confined (hw := ?_) ..
         | exact releaseRefs_confined .. | exact setInst_confined .. | refine Confine.andThen ?_ fun _ => ?_)
    | split

theorem saveParts_confined {pt : Nat} (arm : Nat) (mine : Part → Bool) : Confined pt (saveParts arm mine) := by
  unfold saveParts
  repeat' first
    | (with_reducible first
         | exact Confine.skip | exact Confine.read | exact setEngine_confined .. | exact bump_confined ..
         | refine Confine.andThen ?_ fun _ => ?_ | refine Confine.cond ?_ ?_)

theorem saveWaits_confined {pt : Nat} (arm : Nat) : Confined pt (saveWaits arm) := by
  unfold saveWaits
  repeat' first
    | (with_reducible first
         | exact saveParts_confined ..)

theorem noteBadWait_confined {pt : Nat} (e p d : Nat) : Confined pt (noteBadWait e p d) := by
  unfold noteBadWait
  repeat' first
    | (with_reducible first
         | exact Confine.read | exact bump_confined .. | refine Confine.andThen ?_ fun _ => ?_
         | refine Confine.onlyIf _ ?_)

theorem startIssued_confined {pt : Nat} (c : Cmd) : Confined pt (startIssued c) := by
  unfold startIssued
  repeat' first
    | (with_reducible first
         | exact Confine.read | exact noteBadWait_confined .. | exact bump_confined .. | exact setEngine_confined ..
         | exact noteEligible_confined .. | exact clampDesc_confined .. | refine Confine.andThen ?_ fun _ => ?_
         | refine Confine.onlyIf _ ?_)
    | split

theorem startCmd_confined {pt : Nat} (c : Cmd) : Confined pt (startCmd c) := by
  unfold startCmd
  repeat' first
    | (with_reducible first
         | exact saveWaits_confined .. | exact startIssued_confined .. | exact noteGrant_confined ..
         | refine Confine.andThen ?_ fun _ => ?_ | refine Confine.onlyIf _ ?_)
    | (with_reducible refine Confine.change fun _ => ?_); first | exact .of_eq rfl rfl rfl | exact State.recordFault_within _ _ | exact State.pend_within _ _ | ((repeat' split) <;> first | exact .of_eq rfl rfl rfl)

theorem unitsDone_confined {pt : Nat} (arm n : Nat) : Confined pt (unitsDone arm n) := by
  unfold unitsDone
  repeat' first
    | (with_reducible first
         | exact setEngine_confined ..)

theorem endCmd_confined (c : Cmd) (x : End) : Confined c.p (endCmd c x) := by
  unfold endCmd
  repeat' first
    | (with_reducible first
         | exact Confine.skip | exact Confine.read | exact setEngine_confined .. | exact completeCmd_confined ..
         | exact dropForRecord_confined .. | refine Confine.andThen ?_ fun _ => ?_ | refine Confine.onlyIf _ ?_)
    | split

theorem endFirst_confined (c : Cmd) (before : Nat) (x : End) : Confined c.p (endFirst c before x) := by
  unfold endFirst
  repeat' first
    | (with_reducible first
         | exact Confine.read | exact .engine _ _ | exact setEngine_confined .. | exact releaseRefs_confined ..
         | exact endCmd_confined .. | refine Confine.andThen ?_ fun _ => ?_ | refine Confine.cond ?_ ?_)

theorem runCmd_confined (c : Cmd) (body : Cmd → M End) (hbody : Confined c.p (body c)) : Confined c.p (runCmd c body) := by
  unfold runCmd
  repeat' first
    | (with_reducible first
         | exact Confine.read | exact hbody | exact .engine _ _ | exact startCmd_confined ..
         | exact endFirst_confined .. | refine Confine.andThen ?_ fun _ => ?_)

theorem markIssued_confined {pt : Nat} (arm : Nat) : Confined pt (markIssued arm) := by
  unfold markIssued
  repeat' first
    | (with_reducible first
         | exact Confine.read | exact noteEligible_confined .. | exact setEngine_confined ..
         | refine Confine.andThen ?_ fun _ => ?_ | refine Confine.onlyIf _ ?_ | refine Confine.cond ?_ ?_
         | refine Confine.each _ fun _ => ?_)

theorem holdIssue_confined {pt : Nat} (e op p d : Nat) (watch : Option Watch) (mark : Option (Nat × Nat)) (args : List Nat) : Confined pt (holdIssue e op p d watch mark args) := by
  unfold holdIssue
  repeat' first
    | (with_reducible first
         | exact Confine.skip | exact Confine.read | exact noteBadWait_confined .. | exact setEngine_confined ..
         | exact markIssued_confined .. | refine Confine.andThen ?_ fun _ => ?_ | refine Confine.cond ?_ ?_)

theorem readSlot_confined {pt : Nat} (w : Who) (g : Geom) (a : Nat) : Confined pt (readSlot w g a) := by
  unfold readSlot
  repeat' first
    | (with_reducible first
         | exact Confine.ret _ | exact load_confined .. | refine Confine.andThen ?_ fun _ => ?_
         | refine Confine.cond ?_ ?_)

theorem openSeq_confined {pt : Nat} (w : Who) (g : Geom) (q : Pool) (d : Nat) : Confined pt (openSeq w g q d) := by
  unfold openSeq
  repeat' first
    | (with_reducible first
         | exact Confine.ret _ | exact load_confined .. | refine Confine.andThen ?_ fun _ => ?_
         | refine Confine.collect _ fun _ => ?_)

theorem appendKv_confined {pt : Nat} (w : Who) (g : Geom) (q : Pool) (d frame : Nat) (hw : w.Of pt) : Confined pt (appendKv w g q d frame) := by
  unfold appendKv
  repeat' first
    | (with_reducible first
         | exact Confine.ret _ | exact hw | exact load_confined .. | refine store_confined _ _ _ ?_
         | exact storePoison_confined .. | refine Confine.andThen ?_ fun _ => ?_ | refine Confine.cond ?_ ?_
         | refine Confine.each _ fun _ => ?_ | refine Confine.foldState _ _ fun _ _ => ?_)

theorem frameStep_confined {pt : Nat} (w : Who) (g : Geom) (kt frame d : Nat) (o : OpenSeq) : Confined pt (frameStep w g kt frame d o) := by
  unfold frameStep
  repeat' first
    | (with_reducible first
         | exact Confine.ret _ | exact readSlot_confined .. | refine Confine.andThen ?_ fun _ => ?_
         | refine Confine.cond ?_ ?_ | refine Confine.collect _ fun _ => ?_)

theorem closeSeq_confined (c : Cmd) (g : Geom) (q : Pool) (tv stack layer : Nat) (bad : Bool) (o : OpenSeq) : Confined c.p (closeSeq c g q tv stack layer bad o) := by
  unfold closeSeq
  repeat' first
    | (with_reducible first
         | exact Confine.read | exact Cmd.who_of _ | refine store_confined _ _ _ ?_
         | refine Confine.andThen ?_ fun _ => ?_ | refine Confine.each _ fun _ => ?_)

theorem walkStep_confined (c : Cmd) (g : Geom) (q : Pool) (stack layer : Nat) (bad : Bool) (d : Nat) (w : Walk) : Confined c.p (walkStep c g q stack layer bad d w) := by
  unfold walkStep
  repeat' first
    | (with_reducible first
         | exact Confine.read | exact Confine.ret _ | exact Cmd.who_of _ | exact bump_confined ..
         | exact openSeq_confined .. | refine appendKv_confined (hw := ?_) .. | exact frameStep_confined ..
         | exact closeSeq_confined .. | refine Confine.andThen ?_ fun _ => ?_ | refine Confine.cond ?_ ?_)
    | split
    | dsimp only

theorem bodyAttend_confined (c : Cmd) : Confined c.p (bodyAttend c) := by
  unfold bodyAttend
  repeat' first
    | (with_reducible first
         | exact Confine.read | exact Confine.ret _ | exact clampDesc_confined .. | exact load_confined ..
         | exact walkStep_confined .. | exact closeSeq_confined .. | refine Confine.andThen ?_ fun _ => ?_
         | refine Confine.each _ fun _ => ?_ | refine Confine.collect _ fun _ => ?_
         | refine Confine.foldState _ _ fun _ _ => ?_)

theorem readList_confined {pt : Nat} (c : Cmd) : Confined pt (readList c) := by
  unfold readList
  repeat' first
    | (with_reducible first
         | exact Confine.ret _ | exact load_confined .. | refine Confine.andThen ?_ fun _ => ?_
         | refine Confine.collect _ fun _ => ?_)

theorem clampLayer_confined {pt : Nat} (p field : Nat) : Confined pt (clampLayer p field) := by
  unfold clampLayer
  repeat' first
    | (with_reducible first
         | exact Confine.read | exact Confine.ret _ | exact clampDesc_confined ..
         | refine Confine.andThen ?_ fun _ => ?_)

theorem attnCue_confined (p : Nat) (feed : Bool) : Confined p (attnCue p feed) := by
  unfold attnCue
  repeat' first
    | (with_reducible first
         | exact Confine.read | exact .engine _ _ | refine signalCue_confined (hw := ?_) ..
         | refine Confine.andThen ?_ fun _ => ?_)

theorem forwarded_confined {pt : Nat} (c : Cmd) (a dest : Nat) (r : Read) (n : Nat) : Confined pt (forwarded c a dest r n) := by
  unfold forwarded
  repeat' first
    | (with_reducible first
         | exact Confine.read | exact Confine.ret _ | exact recordFault_confined .. | exact raiseEvent_confined ..
         | exact bump_confined .. | refine Confine.andThen ?_ fun _ => ?_ | refine Confine.cond ?_ ?_)

theorem markPoisoned_confined {pt : Nat} (p slate : Nat) : Confined pt (markPoisoned p slate) := by
  unfold markPoisoned
  repeat' first
    | (with_reducible first
         | exact setInst_confined ..)

theorem bodyAttnFeed_confined (c : Cmd) : Confined c.p (bodyAttnFeed c) := by
  unfold bodyAttnFeed
  repeat' first
    | (with_reducible first
         | exact Confine.read | exact Confine.ret _ | exact Cmd.who_of _ | exact clampLayer_confined ..
         | exact readList_confined .. | exact markPoisoned_confined .. | exact load_confined ..
         | refine store_confined _ _ _ ?_ | exact storePoison_confined .. | exact forwarded_confined ..
         | exact emit_confined .. | exact attnCue_confined .. | refine Confine.andThen ?_ fun _ => ?_
         | refine Confine.onlyIf _ ?_ | refine Confine.cond ?_ ?_ | refine Confine.each _ fun _ => ?_
         | refine Confine.collect _ fun _ => ?_)

theorem bodyAttnReturn_confined (c : Cmd) : Confined c.p (bodyAttnReturn c) := by
  unfold bodyAttnReturn
  repeat' first
    | (with_reducible first
         | exact Confine.read | exact Confine.ret _ | exact Cmd.who_of _ | exact clampLayer_confined ..
         | exact readList_confined .. | exact load_confined .. | exact emit_confined .. | exact attnCue_confined ..
         | refine Confine.andThen ?_ fun _ => ?_ | refine Confine.cond ?_ ?_ | refine Confine.each _ fun _ => ?_
         | refine Confine.collect _ fun _ => ?_)

theorem readPartials_confined {pt : Nat} (c : Cmd) (g : Geom) (e i q : Nat) : Confined pt (readPartials c g e i q) := by
  unfold readPartials
  repeat' first
    | (with_reducible first
         | exact Confine.read | exact load_confined .. | refine Confine.andThen ?_ fun _ => ?_
         | refine Confine.cond ?_ ?_ | refine Confine.collect _ fun _ => ?_)

theorem mergeEntry_confined (c : Cmd) (g : Geom) (oOp : Operand) (first count e : Nat) (lost : Bool) (row : Nat) : Confined c.p (mergeEntry c g oOp first count e lost row) := by
  unfold mergeEntry
  repeat' first
    | (with_reducible first
         | exact Confine.ret _ | exact Cmd.who_of _ | exact readPartials_confined .. | exact markPoisoned_confined ..
         | exact bump_confined .. | refine writeOutputs_confined (hw := ?_) .. | refine Confine.andThen ?_ fun _ => ?_
         | refine Confine.onlyIf _ ?_ | refine Confine.cond ?_ ?_ | refine Confine.each _ fun _ => ?_
         | refine Confine.collect _ fun _ => ?_)

theorem noteMerged_confined {pt : Nat} (p layer code : Nat) : Confined pt (noteMerged p layer code) := by
  unfold noteMerged
  repeat' first
    | (with_reducible first
         | exact setInst_confined ..)

theorem reMerge_confined (c : Cmd) (k : Nat) (es : List (Nat × Bool)) : Confined c.p (reMerge c k es) := by
  unfold reMerge
  repeat' first
    | (with_reducible first
         | exact Confine.skip | exact Confine.read | exact Confine.ret _ | exact mergeEntry_confined ..
         | refine Confine.andThen ?_ fun _ => ?_ | refine Confine.each _ fun _ => ?_)
    | split

theorem bodyAttnMerge_confined (c : Cmd) : Confined c.p (bodyAttnMerge c) := by
  unfold bodyAttnMerge
  repeat' first
    | (with_reducible first
         | exact Confine.read | exact Confine.ret _ | exact Cmd.who_of _ | exact clampLayer_confined ..
         | exact readList_confined .. | exact reMerge_confined .. | exact readCoded_confined ..
         | exact noteMerged_confined .. | exact mergeEntry_confined .. | refine Confine.andThen ?_ fun _ => ?_
         | refine Confine.cond ?_ ?_ | refine Confine.each _ fun _ => ?_)
    | split

theorem setLinkGroup_confined {pt : Nat} (g : Nat) (f : LinkGroup → LinkGroup) : Confined pt (setLinkGroup g f) := by
  unfold setLinkGroup
  repeat' first
    | (with_reducible first
         | refine Confine.andThen ?_ fun _ => ?_)
    | (with_reducible refine Confine.change fun _ => ?_); first | exact .of_eq rfl rfl rfl

theorem sendWord_confined {pt : Nat} (g : Nat) (flits : List (List Nat)) : Confined pt (sendWord g flits) := by
  unfold sendWord
  repeat' first
    | (with_reducible first
         | exact Confine.read | exact emit_confined .. | exact setLinkGroup_confined ..
         | refine Confine.andThen ?_ fun _ => ?_)

theorem emitFlit_confined {pt : Nat} (g : Nat) (bytes : List Nat) : Confined pt (emitFlit g bytes) := by
  unfold emitFlit
  repeat' first
    | (with_reducible first
         | exact Confine.read | exact emit_confined .. | exact setLinkGroup_confined .. | exact sendWord_confined ..
         | refine Confine.andThen ?_ fun _ => ?_ | refine Confine.cond ?_ ?_)

theorem sendControl_confined {pt : Nat} (g op lane at' : Nat) : Confined pt (sendControl g op lane at') := by
  unfold sendControl
  repeat' first
    | (with_reducible first
         | exact Confine.read | exact setLinkGroup_confined .. | exact emitFlit_confined ..
         | refine Confine.andThen ?_ fun _ => ?_)

theorem sendFlit_confined {pt : Nat} (g : Nat) (bytes : List Nat) : Confined pt (sendFlit g bytes) := by
  unfold sendFlit
  repeat' first
    | (with_reducible first
         | exact Confine.read | exact emitFlit_confined .. | exact setLinkGroup_confined ..
         | exact sendControl_confined .. | refine Confine.andThen ?_ fun _ => ?_ | refine Confine.onlyIf _ ?_)

theorem pump_confined {pt : Nat} (g : Nat) (x0 : Nat) : Confined pt (pump g x0) := by
  induction x0 with
  | zero =>
    unfold pump
    repeat' first
      | (with_reducible first
           | exact Confine.skip)
  | succ n ih =>
    unfold pump
    repeat' first
      | (with_reducible first
           | exact ih .. | exact Confine.skip | exact Confine.read | exact setLinkGroup_confined ..
           | exact sendFlit_confined .. | refine Confine.andThen ?_ fun _ => ?_ | refine Confine.onlyIf _ ?_
           | refine Confine.cond ?_ ?_)
      | split
      | dsimp only

theorem queuePacket_confined {pt : Nat} (g ch : Nat) (bytes : List Nat) : Confined pt (queuePacket g ch bytes) := by
  unfold queuePacket
  repeat' first
    | (with_reducible first
         | exact setLinkGroup_confined .. | exact pump_confined .. | refine Confine.andThen ?_ fun _ => ?_)

theorem sendOver_confined {pt : Nat} (ch node : Nat) (bytes : List Nat) (but : Option Nat) : Confined pt (sendOver ch node bytes but) := by
  unfold sendOver
  repeat' first
    | (with_reducible first
         | exact Confine.read | exact Confine.ret _ | exact queuePacket_confined ..
         | refine Confine.andThen ?_ fun _ => ?_ | refine Confine.cond ?_ ?_)
    | (with_reducible refine Confine.change fun _ => ?_); first | exact .of_eq rfl rfl rfl

theorem readAccIn_confined {pt : Nat} (v : MatEnv) (row n0 cnt : Nat) : Confined pt (readAccIn v row n0 cnt) := by
  unfold readAccIn
  repeat' first
    | (with_reducible first
         | exact Confine.ret _ | exact load_confined .. | refine Confine.andThen ?_ fun _ => ?_
         | refine Confine.collect _ fun _ => ?_)
    | split

theorem noteDrain_confined {pt : Nat} (row col total : Nat) (ys : List Nat) (bad : Bool) : Confined pt (noteDrain row col total ys bad) := by
  unfold noteDrain
  repeat' first
    | (with_reducible first
         | refine Confine.andThen ?_ fun _ => ?_)
    | (with_reducible refine Confine.change fun _ => ?_); first | exact .of_eq rfl rfl rfl

theorem passDone_confined {pt : Nat} (v : MatEnv) (g subs : Nat) : Confined pt (passDone v g subs) := by
  unfold passDone
  repeat' first
    | (with_reducible first
         | exact Confine.read | exact bump_confined .. | exact unitsDone_confined ..
         | refine Confine.andThen ?_ fun _ => ?_)

theorem runBand_confined {pt : Nat} (v : MatEnv) (c r0 rows g : Nat) (hv : v.w.Of pt) : Confined pt (runBand v c r0 rows g) := by
  unfold runBand
  repeat' first
    | (with_reducible first
         | exact hv | exact readRow_confined .. | exact readAccIn_confined .. | exact noteDrain_confined ..
         | refine writeOutputs_confined (hw := ?_) .. | refine store_confined _ _ _ ?_ | exact storePoison_confined ..
         | refine Confine.andThen ?_ fun _ => ?_ | refine Confine.cond ?_ ?_ | refine Confine.each _ fun _ => ?_
         | refine Confine.collect _ fun _ => ?_)

theorem runPass_confined {pt : Nat} (v : MatEnv) (c r0 rows g : Nat) (hv : v.w.Of pt) : Confined pt (runPass v c r0 rows g) := by
  unfold runPass
  repeat' first
    | (with_reducible first
         | exact hv | refine runBand_confined (hv := ?_) .. | exact passDone_confined ..
         | refine Confine.andThen ?_ fun _ => ?_)

theorem runCombine_confined {pt : Nat} (v : MatEnv) (r0 rows g : Nat) (hv : v.w.Of pt) : Confined pt (runCombine v r0 rows g) := by
  unfold runCombine
  repeat' first
    | (with_reducible first
         | exact hv | exact load_confined .. | exact readAccIn_confined .. | exact noteDrain_confined ..
         | refine writeOutputs_confined (hw := ?_) .. | exact bump_confined .. | exact unitsDone_confined ..
         | refine Confine.andThen ?_ fun _ => ?_ | refine Confine.each _ fun _ => ?_
         | refine Confine.collect _ fun _ => ?_)

theorem matmulPasses_confined {pt : Nat} (v : MatEnv) (hv : v.w.Of pt) : Confined pt (matmulPasses v) := by
  unfold matmulPasses
  repeat' first
    | (with_reducible first
         | exact hv | refine runPass_confined (hv := ?_) .. | refine runCombine_confined (hv := ?_) ..
         | refine Confine.andThen ?_ fun _ => ?_ | refine Confine.onlyIf _ ?_ | refine Confine.each _ fun _ => ?_)

theorem readAcc_confined {pt : Nat} (c : Cmd) (j : Job) (n : Nat) (seen : Clamped) : Confined pt (readAcc c j n seen) := by
  unfold readAcc
  repeat' first
    | (with_reducible first
         | exact Confine.ret _ | exact readOperandOnce_confined .. | refine Confine.andThen ?_ fun _ => ?_
         | refine Confine.cond ?_ ?_)

theorem readMat_confined {pt : Nat} (c : Cmd) (j : Job) (wAddr nW : Nat) (out : Option Operand) : Confined pt (readMat c j wAddr nW out) := by
  unfold readMat
  repeat' first
    | (with_reducible first
         | exact Confine.ret _ | exact readOperandOnce_confined .. | exact readAcc_confined ..
         | refine Confine.andThen ?_ fun _ => ?_ | refine Confine.cond ?_ ?_)
    | split

theorem jobEnv_who (c : Cmd) (j : Job) (rows : Nat) (out : Option Operand) (s : State) : ∀ v, (jobEnv c j rows out s).1 = some v → v.w = c.who := by
  unfold jobEnv
  refine answers_bind (Q := fun x : Option MatEnv => ∀ v, x = some v → v.w = c.who) (fun x t => ?_) s
  split
  · intro v h; cases h
  · exact answers_bind (Q := fun x : Option MatEnv => ∀ v, x = some v → v.w = c.who) (fun _ _ => fun v h => by cases h; rfl) t

theorem jobEnv_confined {pt : Nat} (c : Cmd) (j : Job) (rows : Nat) (out : Option Operand) : Confined pt (jobEnv c j rows out) := by
  unfold jobEnv
  repeat' first
    | (with_reducible first
         | exact Confine.ret _ | exact readMat_confined .. | exact clampDesc_confined ..
         | refine Confine.andThen ?_ fun _ => ?_ | refine Confine.cond ?_ ?_)
    | split

theorem matmulInto_confined (c : Cmd) (rows : Option Nat) (out : Option Operand) : Confined c.p (matmulInto c rows out) := by
  refine Confine.andThen (load_confined _ _ _) fun r => Confine.cond (Confine.ret _) ?_
  refine Confine.andThen (clampDesc_confined _) fun _ => Confine.andThenOf (Q := fun x : Option MatEnv => ∀ v, x = some v → v.w = c.who) (jobEnv_confined _ _ _ _) (jobEnv_who _ _ _ _) fun x hx => ?_
  cases x with
  | none => exact Confine.ret _
  | some v =>
    exact Confine.andThen (matmulPasses_confined v (hv := hx v rfl ▸ c.who_of)) fun _ => Confine.ret _

theorem bodyMatmul_confined (c : Cmd) : Confined c.p (bodyMatmul c) := by
  unfold bodyMatmul
  repeat' first
    | (with_reducible first
         | exact matmulInto_confined ..)

theorem findItem_confined {pt : Nat} (w : Who) (list p : Nat) (x0 : Nat) (x1 : Nat) (x2 : Nat) : Confined pt (findItem w list p x0 x1 x2) := by
  induction x0 generalizing x1 x2 with
  | zero =>
    unfold findItem
    repeat' first
      | (with_reducible first
           | exact Confine.ret _)
  | succ n ih =>
    unfold findItem
    repeat' first
      | (with_reducible first
           | exact ih .. | exact Confine.ret _ | exact load_confined .. | refine Confine.andThen ?_ fun _ => ?_
           | refine Confine.cond ?_ ?_)

theorem readItem_confined {pt : Nat} (w : Who) (list p count : Nat) : Confined pt (readItem w list p count) := by
  unfold readItem
  repeat' first
    | (with_reducible first
         | exact Confine.ret _ | exact findItem_confined .. | exact load_confined ..
         | refine Confine.andThen ?_ fun _ => ?_ | refine Confine.cond ?_ ?_)
    | split

theorem claimPass_confined {pt : Nat} (w : Who) (list : Nat) (hw : w.Of pt) : Confined pt (claimPass w list) := by
  unfold claimPass
  repeat' first
    | (with_reducible first
         | exact Confine.ret _ | exact hw | exact load_confined .. | refine storeVal_confined _ _ _ _ ?_
         | refine Confine.andThen ?_ fun _ => ?_ | refine Confine.cond ?_ ?_)
    | split
    | dsimp only

theorem donePass_confined {pt : Nat} (w : Who) (list : Nat) (hw : w.Of pt) : Confined pt (donePass w list) := by
  unfold donePass
  repeat' first
    | (with_reducible first
         | exact hw | exact load_confined .. | refine storeVal_confined _ _ _ _ ?_
         | refine Confine.andThen ?_ fun _ => ?_)

theorem runListPass_confined (c : Cmd) (list count : Nat) (j : Job) (aOp oOp : Operand) (cOp : Option Operand) (p : Nat)
    (st : ListRun) : Confined c.p (runListPass c list count j aOp oOp cOp p st) := by
  unfold runListPass
  repeat' first
    | (with_reducible first
         | exact Confine.ret _ | exact Cmd.who_of _ | exact readItem_confined .. | exact clampDesc_confined ..
         | exact readOperandOnce_confined .. | refine runBand_confined (hv := ?_) .. | exact passDone_confined ..
         | refine Confine.andThen ?_ fun _ => ?_ | refine Confine.onlyIf _ ?_ | refine Confine.cond ?_ ?_)
    | split

theorem listLoop_confined (c : Cmd) (list count : Nat) (j : Job) (aOp oOp : Operand) (cOp : Option Operand) (x0 : Nat) (x1 : ListRun) : Confined c.p (listLoop c list count j aOp oOp cOp x0 x1) := by
  induction x0 generalizing x1 with
  | zero =>
    unfold listLoop
    repeat' first
      | (with_reducible first
           | exact Confine.ret _)
  | succ n ih =>
    unfold listLoop
    repeat' first
      | (with_reducible first
           | exact ih .. | exact Confine.ret _ | exact Cmd.who_of _ | refine claimPass_confined (hw := ?_) ..
           | exact runListPass_confined .. | refine donePass_confined (hw := ?_) ..
           | refine Confine.andThen ?_ fun _ => ?_ | refine Confine.cond ?_ ?_)
      | split

theorem runClaimed_confined (c : Cmd) (list count : Nat) (j : Job) (aOp oOp : Operand) (cOp : Option Operand) (x0 : List Nat) (x1 : ListRun) : Confined c.p (runClaimed c list count j aOp oOp cOp x0 x1) := by
  induction x0 generalizing x1 with
  | nil =>
    unfold runClaimed
    repeat' first
      | (with_reducible first
           | exact Confine.ret _)
  | cons y l ih =>
    unfold runClaimed
    repeat' first
      | (with_reducible first
           | exact ih .. | exact Confine.ret _ | exact Cmd.who_of _ | exact runListPass_confined ..
           | refine donePass_confined (hw := ?_) .. | refine Confine.andThen ?_ fun _ => ?_
           | refine Confine.cond ?_ ?_)

theorem listPasses_confined (c : Cmd) (list h : Nat) (j : Job) (aOp oOp : Operand) (cOp : Option Operand) (recs : Clamped) : Confined c.p (listPasses c list h j aOp oOp cOp recs) := by
  unfold listPasses
  repeat' first
    | (with_reducible first
         | exact Confine.read | exact Confine.ret _ | exact .engine _ _ | exact setEngine_confined ..
         | exact runClaimed_confined .. | exact listLoop_confined .. | refine Confine.andThen ?_ fun _ => ?_
         | refine Confine.cond ?_ ?_)
    | split
    | dsimp only

theorem bodyMatmulList_confined (c : Cmd) : Confined c.p (bodyMatmulList c) := by
  unfold bodyMatmulList
  repeat' first
    | (with_reducible first
         | exact Confine.ret _ | exact Cmd.who_of _ | exact load_confined .. | exact clampDesc_confined ..
         | exact readOperandOnce_confined .. | exact readAcc_confined .. | exact listPasses_confined ..
         | refine Confine.andThen ?_ fun _ => ?_ | refine Confine.cond ?_ ?_)

theorem runCombines_confined {pt : Nat} (v : MatEnv) (l : List (Nat × Nat)) (hv : v.w.Of pt) : Confined pt (runCombines v l) := by
  unfold runCombines
  repeat' first
    | (with_reducible first
         | exact Confine.ret _ | exact hv | exact load_confined .. | refine runCombine_confined (hv := ?_) ..
         | refine Confine.andThen ?_ fun _ => ?_ | refine Confine.cond ?_ ?_
         | refine Confine.foldState _ _ fun _ _ => ?_)

theorem paddedEnv_who (c : Cmd) (s : State) : ∀ v, (paddedEnv c s).1 = .ok v → v.1.w = c.who := by
  unfold paddedEnv
  refine answers_bind (Q := fun x : Except Nat (MatEnv × Nat) => ∀ v, x = .ok v → v.1.w = c.who) (fun r t => ?_) s
  dsimp only
  split
  · intro v h; cases h
  · refine answers_bind (Q := fun x : Except Nat (MatEnv × Nat) => ∀ v, x = .ok v → v.1.w = c.who) (fun _ t => ?_) t
    intro v h
    have := jobEnv_who c (jobOf r.val) (max (bits c.area 127 104) (jobOf r.val).m) none t
    revert h
    rw [run_bind]
    cases he : (jobEnv c (jobOf r.val) (max (bits c.area 127 104) (jobOf r.val).m) none t).1 with
    | none => intro h; cases h
    | some u => intro h; cases h; exact this u he

theorem paddedEnv_confined {pt : Nat} (c : Cmd) : Confined pt (paddedEnv c) := by
  unfold paddedEnv
  repeat' first
    | (with_reducible first
         | exact Confine.ret _ | exact load_confined .. | exact clampDesc_confined .. | exact jobEnv_confined ..
         | refine Confine.andThen ?_ fun _ => ?_ | refine Confine.cond ?_ ?_)
    | split

theorem paddedShare_confined (c : Cmd) (v : MatEnv) (pad : Nat) (hv : v.w.Of c.p) : Confined c.p (paddedShare c v pad) := by
  unfold paddedShare
  repeat' first
    | (with_reducible first
         | exact Confine.ret _ | exact hv | exact clampDesc_confined .. | refine runPass_confined (hv := ?_) ..
         | refine atomic_confined (hw := ?_) .. | refine runCombines_confined (hv := ?_) ..
         | refine Confine.andThen ?_ fun _ => ?_ | refine Confine.onlyIf _ ?_ | refine Confine.cond ?_ ?_
         | refine Confine.foldState _ _ fun _ _ => ?_)

theorem bodyMatmulPadded_confined (c : Cmd) : Confined c.p (bodyMatmulPadded c) := by
  refine Confine.andThenOf (Q := fun x : Except Nat (MatEnv × Nat) => ∀ v, x = .ok v → v.1.w = c.who) (paddedEnv_confined c) (paddedEnv_who c) fun x hx => ?_
  cases x with
  | error a => exact Confine.ret _
  | ok v => exact paddedShare_confined c v.1 v.2 (hv := hx v rfl ▸ c.who_of)

theorem bodyVec_confined (op : Nat) (c : Cmd) : Confined c.p (bodyVec op c) := by
  unfold bodyVec
  repeat' first
    | (with_reducible first
         | exact Confine.ret _ | exact Cmd.who_of _ | exact load_confined .. | exact clampDesc_confined ..
         | exact readOperandOnce_confined .. | exact readRow_confined .. | refine writeOutputs_confined (hw := ?_) ..
         | exact unitsDone_confined .. | refine Confine.andThen ?_ fun _ => ?_ | refine Confine.cond ?_ ?_
         | refine Confine.each _ fun _ => ?_)
    | split

theorem setSlot_confined {pt : Nat} (i : Nat) (f : CodecSlot → CodecSlot) : Confined pt (setSlot i f) := by
  unfold setSlot
  repeat' first
    | (with_reducible first
         | refine Confine.andThen ?_ fun _ => ?_)
    | (with_reducible refine Confine.change fun _ => ?_); first | exact .of_eq rfl rfl rfl

theorem startLoad_confined {pt : Nat} (i : Nat) (l : PendLoad) : Confined pt (startLoad i l) := by
  unfold startLoad
  repeat' first
    | (with_reducible first
         | exact Confine.ret _ | exact load_confined .. | exact clampDesc_confined .. | exact setPar_confined ..
         | exact setSlot_confined .. | refine Confine.andThen ?_ fun _ => ?_)
    | split

theorem emptySlot_confined {pt : Nat} (i : Nat) : Confined pt (emptySlot i) := by
  unfold emptySlot
  repeat' first
    | (with_reducible first
         | exact Confine.skip | exact Confine.read | exact setPar_confined .. | exact setEff_confined ..
         | exact setSlot_confined .. | exact startLoad_confined .. | refine Confine.andThen ?_ fun _ => ?_)
    | split

theorem rewaitEncode_confined {pt : Nat} (i : Nat) (l : PendLoad) : Confined pt (rewaitEncode i l) := by
  unfold rewaitEncode
  repeat' first
    | (with_reducible first
         | exact Confine.read | exact setEngine_confined .. | refine Confine.andThen ?_ fun _ => ?_)

theorem bodyTableRetire_confined {pt : Nat} (c : Cmd) : Confined pt (bodyTableRetire c) := by
  unfold bodyTableRetire
  repeat' first
    | (with_reducible first
         | exact Confine.read | exact Confine.ret _ | exact clampDesc_confined .. | exact setPar_confined ..
         | exact emptySlot_confined .. | refine Confine.andThen ?_ fun _ => ?_ | refine Confine.onlyIf _ ?_
         | refine Confine.cond ?_ ?_)

theorem bodyTableSave_confined (c : Cmd) : Confined c.p (bodyTableSave c) := by
  unfold bodyTableSave
  repeat' first
    | (with_reducible first
         | exact Confine.read | exact Confine.ret _ | exact Cmd.who_of _ | exact clampDesc_confined ..
         | refine store_confined _ _ _ ?_ | refine Confine.andThen ?_ fun _ => ?_ | refine Confine.cond ?_ ?_)

theorem decodeOne_confined (w : Who) (p src hdr i dst limit : Nat) (hdrBad : Bool) (base : Option Nat) (hw : w.Of p) : Confined p (decodeOne w p src hdr i dst limit hdrBad base) := by
  unfold decodeOne
  repeat' first
    | (with_reducible first
         | exact Confine.read | exact Confine.ret _ | exact hw | exact load_confined .. | exact clampDesc_confined ..
         | exact bump_confined .. | refine store_confined _ _ _ ?_ | exact storePoison_confined ..
         | refine Confine.andThen ?_ fun _ => ?_ | refine Confine.onlyIf _ ?_ | refine Confine.cond ?_ ?_)
    | split

theorem bodyDecode_confined (c : Cmd) : Confined c.p (bodyDecode c) := by
  unfold bodyDecode
  repeat' first
    | (with_reducible first
         | exact Confine.ret _ | exact Cmd.who_of _ | exact load_confined .. | exact clampDesc_confined ..
         | refine decodeOne_confined (hw := ?_) .. | exact unitsDone_confined ..
         | refine Confine.andThen ?_ fun _ => ?_ | refine Confine.cond ?_ ?_ | refine Confine.each _ fun _ => ?_)

theorem writeBlocks_confined {pt : Nat} (w : Who) (dst : Nat) (x0 : List (EncBlock × Bool)) (x1 : Nat) (hw : w.Of pt) : Confined pt (writeBlocks w dst x0 x1) := by
  induction x0 generalizing x1 with
  | nil =>
    unfold writeBlocks
    repeat' first
      | (with_reducible first
           | exact Confine.ret _)
  | cons y l ih =>
    unfold writeBlocks
    repeat' first
      | (with_reducible first
           | exact ih .. | exact Confine.ret _ | exact hw | refine store_confined _ _ _ ?_
           | exact storePoison_confined .. | refine Confine.andThen ?_ fun _ => ?_ | refine Confine.onlyIf _ ?_)

theorem encodeExtent_confined (w : Who) (p src dst base len mode slot : Nat) (hw : w.Of p) : Confined p (encodeExtent w p src dst base len mode slot) := by
  unfold encodeExtent
  repeat' first
    | (with_reducible first
         | exact Confine.read | exact Confine.ret _ | exact hw | exact load_confined ..
         | refine writeBlocks_confined (hw := ?_) .. | refine store_confined _ _ _ ?_
         | refine storeVal_confined _ _ _ _ ?_ | exact bump_confined .. | refine Confine.andThen ?_ fun _ => ?_
         | refine Confine.cond ?_ ?_ | refine Confine.collect _ fun _ => ?_)

theorem encodeBuild_confined {pt : Nat} (w : Who) (src base len mode : Nat) : Confined pt (encodeBuild w src base len mode) := by
  unfold encodeBuild
  repeat' first
    | (with_reducible first
         | exact Confine.ret _ | exact load_confined .. | refine Confine.andThen ?_ fun _ => ?_
         | refine Confine.cond ?_ ?_)

theorem encodePass2_confined (c : Cmd) : Confined c.p (encodePass2 c) := by
  unfold encodePass2
  repeat' first
    | (with_reducible first
         | exact Confine.ret _ | exact Cmd.who_of _ | exact takeRef_confined ..
         | refine encodeExtent_confined (hw := ?_) .. | exact unitsDone_confined ..
         | refine Confine.andThen ?_ fun _ => ?_ | refine Confine.onlyIf _ ?_)

theorem bodySample_confined (c : Cmd) : Confined c.p (bodySample c) := by
  unfold bodySample
  repeat' first
    | (with_reducible first
         | exact Confine.skip | exact Confine.ret _ | exact Cmd.who_of _ | exact clampDesc_confined ..
         | exact readCoded_confined .. | exact readRow_confined .. | exact load_confined ..
         | refine storeVal_confined _ _ _ _ ?_ | exact markPoisoned_confined ..
         | refine Confine.andThen ?_ fun _ => ?_ | refine Confine.onlyIf _ ?_ | refine Confine.cond ?_ ?_
         | refine Confine.foldState _ _ fun _ _ => ?_)
    | split

theorem setWatch_confined {pt : Nat} (p k : Nat) (f : WatchRun → WatchRun) : Confined pt (setWatch p k f) := by
  unfold setWatch
  repeat' first
    | (with_reducible first
         | exact setInst_confined ..)

theorem closeWatch_confined {pt : Nat} (p k : Nat) : Confined pt (closeWatch p k) := by
  unfold closeWatch
  repeat' first
    | (with_reducible first
         | exact setWatch_confined .. | exact setInst_confined .. | refine Confine.andThen ?_ fun _ => ?_)

theorem startWatch_confined {pt : Nat} (c : Cmd) (w : Watch) : Confined pt (startWatch c w) := by
  unfold startWatch
  repeat' first
    | (with_reducible first
         | exact Confine.read | exact Confine.ret _ | exact setInst_confined ..
         | refine Confine.andThen ?_ fun _ => ?_)
    | split

theorem endWatch_confined {pt : Nat} (p k : Nat) (r : WatchRun) : Confined pt (endWatch p k r) := by
  unfold endWatch
  repeat' first
    | (with_reducible first
         | exact Confine.read | exact bump_confined .. | exact setWatch_confined .. | exact closeWatch_confined ..
         | refine Confine.andThen ?_ fun _ => ?_ | refine Confine.onlyIf _ ?_)

theorem endCopy_confined {pt : Nat} (p k : Nat) (ps : List Drained) (ended : Bool) : Confined pt (endCopy p k ps ended) := by
  unfold endCopy
  repeat' first
    | (with_reducible first
         | exact Confine.skip | exact Confine.read | exact setWatch_confined .. | exact endWatch_confined ..
         | refine Confine.andThen ?_ fun _ => ?_ | refine Confine.onlyIf _ ?_)
    | split

theorem noteProducer_confined {pt : Nat} (c : Cmd) (layer : Nat) : Confined pt (noteProducer c layer) := by
  unfold noteProducer
  repeat' first
    | (with_reducible first
         | exact Confine.read | exact setInst_confined .. | refine Confine.andThen ?_ fun _ => ?_)

theorem watched_confined (body : Cmd → M End) (c : Cmd) (hbody : Confined c.p (body c)) : Confined c.p (watched body c) := by
  unfold watched
  repeat' first
    | (with_reducible first
         | exact Confine.read | exact Confine.ret _ | exact hbody | exact noteProducer_confined ..
         | exact startWatch_confined .. | exact endCopy_confined .. | refine Confine.andThen ?_ fun _ => ?_
         | refine Confine.cond ?_ ?_)
    | (with_reducible refine Confine.change fun _ => ?_); first | exact .of_eq rfl rfl rfl
    | split

theorem readRouteTab_confined {pt : Nat} (w : Who) (p layer : Nat) : Confined pt (readRouteTab w p layer) := by
  unfold readRouteTab
  repeat' first
    | (with_reducible first
         | exact Confine.read | exact Confine.ret _ | exact load_confined .. | refine Confine.andThen ?_ fun _ => ?_
         | refine Confine.cond ?_ ?_)

theorem setExchange_confined {pt : Nat} (p region : Nat) (f : Exchange → Exchange) : Confined pt (setExchange p region f) := by
  unfold setExchange
  repeat' first
    | (with_reducible first
         | exact setInst_confined ..)

theorem bodyRoute_confined (c : Cmd) : Confined c.p (bodyRoute c) := by
  unfold bodyRoute
  repeat' first
    | (with_reducible first
         | exact Confine.read | exact Confine.ret _ | exact Cmd.who_of _ | exact clampDesc_confined ..
         | exact clampLayer_confined .. | exact setExchange_confined .. | exact readCoded_confined ..
         | exact readRouteTab_confined .. | exact readRow_confined .. | refine store_confined _ _ _ ?_
         | exact bump_confined .. | exact unitsDone_confined .. | refine Confine.andThen ?_ fun _ => ?_
         | refine Confine.onlyIf _ ?_ | refine Confine.cond ?_ ?_ | refine Confine.each _ fun _ => ?_)

theorem expCue_confined (p cue : Nat) : Confined p (expCue p cue) := by
  unfold expCue
  repeat' first
    | (with_reducible first
         | exact Confine.read | exact whoOf_of _ _ | exact setInst_confined ..
         | refine signalCue_confined (hw := ?_) .. | refine Confine.andThen ?_ fun _ => ?_)

theorem sendBatch_confined {pt : Nat} (c : Cmd) (layer dst' : Nat) (ret : Bool) (stage units : Nat) (rows : List ExRow) : Confined pt (sendBatch c layer dst' ret stage units rows) := by
  unfold sendBatch
  repeat' first
    | (with_reducible first
         | exact Confine.read | exact emit_confined .. | exact bump_confined ..
         | refine Confine.andThen ?_ fun _ => ?_)

theorem putRow_confined {pt : Nat} (w : Who) (a : Nat) (x : ExRow) (hw : w.Of pt) : Confined pt (putRow w a x) := by
  unfold putRow
  repeat' first
    | (with_reducible first
         | exact hw | refine store_confined _ _ _ ?_ | exact storePoison_confined ..
         | refine Confine.andThen ?_ fun _ => ?_ | refine Confine.onlyIf _ ?_)

theorem getRow_confined {pt : Nat} (w : Who) (a n : Nat) : Confined pt (getRow w a n) := by
  unfold getRow
  repeat' first
    | (with_reducible first
         | exact Confine.ret _ | exact load_confined .. | refine Confine.andThen ?_ fun _ => ?_)

theorem landRow_confined (w : Who) (p : Nat) (x : ExRow) (hw : w.Of p) : Confined p (landRow w p x) := by
  unfold landRow
  repeat' first
    | (with_reducible first
         | exact Confine.read | exact hw | refine putRow_confined (hw := ?_) .. | refine storeVal_confined _ _ _ _ ?_
         | exact setExchange_confined .. | refine Confine.andThen ?_ fun _ => ?_)

theorem landReturn_confined (w : Who) (p : Nat) (x : ExRow) (hw : w.Of p) : Confined p (landReturn w p x) := by
  unfold landReturn
  repeat' first
    | (with_reducible first
         | exact Confine.read | exact hw | refine putRow_confined (hw := ?_) ..
         | refine Confine.andThen ?_ fun _ => ?_)

theorem takeForward_confined {pt : Nat} (w : Who) (p : Nat) (ret : Bool) : Confined pt (takeForward w p ret) := by
  unfold takeForward
  repeat' first
    | (with_reducible first
         | exact Confine.read | exact Confine.ret _ | exact getRow_confined .. | exact setExchange_confined ..
         | refine Confine.andThen ?_ fun _ => ?_ | refine Confine.cond ?_ ?_ | refine Confine.collect _ fun _ => ?_)

theorem sendStage_confined (c : Cmd) (layer : Nat) (ret : Bool) (units : Nat) (dest : Nat → Nat) (own : List ExRow)
    (land : ExRow → M Unit) (hland : ∀ x0, Confined c.p (land x0)) : Confined c.p (sendStage c layer ret units dest own land) := by
  unfold sendStage
  repeat' first
    | (with_reducible first
         | exact Confine.read | exact hland .. | exact Cmd.who_of _ | exact takeForward_confined ..
         | exact sendBatch_confined .. | exact expCue_confined .. | refine Confine.andThen ?_ fun _ => ?_
         | refine Confine.cond ?_ ?_ | refine Confine.each _ fun _ => ?_)

theorem bodyDispatch_confined (c : Cmd) : Confined c.p (bodyDispatch c) := by
  unfold bodyDispatch
  repeat' first
    | (with_reducible first
         | exact Confine.read | exact Confine.ret _ | exact Cmd.who_of _ | exact clampLayer_confined ..
         | exact load_confined .. | refine sendStage_confined (hland := fun _ => ?_) ..
         | refine landRow_confined (hw := ?_) .. | refine Confine.andThen ?_ fun _ => ?_ | refine Confine.cond ?_ ?_
         | refine Confine.collect _ fun _ => ?_)

theorem bodyGather_confined (c : Cmd) : Confined c.p (bodyGather c) := by
  unfold bodyGather
  repeat' first
    | (with_reducible first
         | exact Confine.read | exact Confine.ret _ | exact Cmd.who_of _ | exact clampLayer_confined ..
         | exact getRow_confined .. | exact bump_confined .. | refine putRow_confined (hw := ?_) ..
         | refine store_confined _ _ _ ?_ | exact setExchange_confined .. | refine Confine.andThen ?_ fun _ => ?_
         | refine Confine.each _ fun _ => ?_ | refine Confine.collect _ fun _ => ?_)

theorem writeList_confined {pt : Nat} (w : Who) (a template : Nat) (kind : Kind) (tileM cols : Nat) (items : List (Nat × Nat × Nat × Nat)) (hw : w.Of pt) : Confined pt (writeList w a template kind tileM cols items) := by
  unfold writeList
  repeat' first
    | (with_reducible first
         | exact hw | refine store_confined _ _ _ ?_)

theorem bodyBuildLists_confined (c : Cmd) : Confined c.p (bodyBuildLists c) := by
  unfold bodyBuildLists
  repeat' first
    | (with_reducible first
         | exact Confine.read | exact Confine.ret _ | exact Cmd.who_of _ | exact clampLayer_confined ..
         | exact bump_confined .. | exact load_confined .. | refine writeList_confined (hw := ?_) ..
         | refine Confine.andThen ?_ fun _ => ?_ | refine Confine.cond ?_ ?_ | refine Confine.collect _ fun _ => ?_)
    | split

theorem bodyReturn_confined (c : Cmd) : Confined c.p (bodyReturn c) := by
  unfold bodyReturn
  repeat' first
    | (with_reducible first
         | exact Confine.read | exact Confine.ret _ | exact Cmd.who_of _ | exact clampLayer_confined ..
         | exact load_confined .. | refine storeVal_confined _ _ _ _ ?_
         | refine sendStage_confined (hland := fun _ => ?_) .. | refine landReturn_confined (hw := ?_) ..
         | refine Confine.andThen ?_ fun _ => ?_ | refine Confine.cond ?_ ?_ | refine Confine.collect _ fun _ => ?_)

theorem bodyCombine_confined (c : Cmd) : Confined c.p (bodyCombine c) := by
  unfold bodyCombine
  repeat' first
    | (with_reducible first
         | exact Confine.skip | exact Confine.read | exact Confine.ret _ | exact Cmd.who_of _
         | exact clampLayer_confined .. | exact readOperand_confined .. | exact load_confined ..
         | exact getRow_confined .. | refine writeOutputs_confined (hw := ?_) .. | exact markPoisoned_confined ..
         | refine Confine.andThen ?_ fun _ => ?_ | refine Confine.onlyIf _ ?_ | refine Confine.cond ?_ ?_
         | refine Confine.each _ fun _ => ?_ | refine Confine.foldState _ _ fun _ _ => ?_)
    | split

theorem formedEnv_confined {pt : Nat} (c : Cmd) (part l : Nat) : Confined pt (formedEnv c part l) := by
  unfold formedEnv
  repeat' first
    | (with_reducible first
         | exact Confine.read | exact Confine.ret _ | exact load_confined .. | exact readOperand_confined ..
         | refine Confine.andThen ?_ fun _ => ?_ | refine Confine.cond ?_ ?_)

theorem formedEnv_who (c : Cmd) (part l : Nat) (s : State) : ∀ v, (formedEnv c part l s).1 = .ok v → v.1.w = c.who := by
  unfold formedEnv
  refine answers_bind (Q := fun x : Except Nat (MatEnv × Nat) => ∀ v, x = .ok v → v.1.w = c.who) (fun t u => ?_) s
  refine answers_bind (Q := fun x : Except Nat (MatEnv × Nat) => ∀ v, x = .ok v → v.1.w = c.who) (fun r u => ?_) u
  split
  · intro v h; cases h
  · exact answers_bind (Q := fun x : Except Nat (MatEnv × Nat) => ∀ v, x = .ok v → v.1.w = c.who) (fun _ _ => fun v h => by cases h; rfl) u

theorem padBody_confined (c : Cmd) : Confined c.p (padBody c) := by
  unfold padBody
  split
  · exact bodyMatmulPadded_confined c
  · refine Confine.andThenOf (Q := fun x : Except Nat (MatEnv × Nat) => ∀ v, x = .ok v → v.1.w = c.who) (formedEnv_confined c _ _) (formedEnv_who c _ _) fun x hx => ?_
    cases x with
    | error a => exact Confine.ret _
    | ok v => exact paddedShare_confined c v.1 v.2 (hv := hx v rfl ▸ c.who_of)

theorem bodyRegionList_confined (c : Cmd) (i : Nat) : Confined c.p (bodyRegionList c i) := by
  unfold bodyRegionList
  repeat' first
    | (with_reducible first
         | exact Confine.read | exact Confine.ret _ | exact Cmd.who_of _ | exact load_confined ..
         | exact listPasses_confined .. | refine Confine.andThen ?_ fun _ => ?_ | refine Confine.cond ?_ ?_)

theorem workItems_confined {pt : Nat} (c : Cmd) (op key : Nat) : Confined pt (workItems c op key) := by
  unfold workItems
  repeat' first
    | (with_reducible first
         | exact Confine.ret _ | exact load_confined .. | refine Confine.andThen ?_ fun _ => ?_
         | refine Confine.cond ?_ ?_ | refine Confine.collect _ fun _ => ?_)

theorem bodyProducer_confined (c : Cmd) (k : Nat) : Confined c.p (bodyProducer c k) := by
  unfold bodyProducer
  repeat' first
    | (with_reducible first
         | exact Confine.read | exact Confine.ret _ | exact Cmd.who_of _ | exact workItems_confined ..
         | exact readOperandOnce_confined .. | exact readAcc_confined .. | refine matmulPasses_confined (hv := ?_) ..
         | refine Confine.andThen ?_ fun _ => ?_ | refine Confine.cond ?_ ?_
         | refine Confine.foldState _ _ fun _ _ => ?_)
    | split

theorem matmulBody_confined (c : Cmd) : Confined c.p (matmulBody c) := by
  unfold matmulBody
  repeat' first
    | (with_reducible first
         | exact Confine.read | exact bodyMatmul_confined .. | exact bodyProducer_confined ..
         | exact matmulInto_confined .. | refine Confine.andThen ?_ fun _ => ?_ | refine Confine.cond ?_ ?_)
    | split

theorem bodyReRun_confined (c : Cmd) (k l : Nat) : Confined c.p (bodyReRun c k l) := by
  unfold bodyReRun
  repeat' first
    | (with_reducible first
         | exact Confine.read | exact Confine.ret _ | exact Cmd.who_of _ | exact workItems_confined ..
         | exact readOperandOnce_confined .. | exact readAcc_confined .. | refine matmulPasses_confined (hv := ?_) ..
         | refine Confine.andThen ?_ fun _ => ?_ | refine Confine.cond ?_ ?_
         | refine Confine.foldState _ _ fun _ _ => ?_)
    | split

theorem listBody_confined (c : Cmd) : Confined c.p (listBody c) := by
  unfold listBody
  repeat' first
    | (with_reducible first
         | exact bodyMatmulList_confined .. | exact bodyRegionList_confined .. | exact bodyReRun_confined ..
         | refine Confine.andThen ?_ fun _ => ?_ | refine Confine.cond ?_ ?_)
    | split

theorem bodyGlu_confined (c : Cmd) (part l : Nat) : Confined c.p (bodyGlu c part l) := by
  unfold bodyGlu
  repeat' first
    | (with_reducible first
         | exact Confine.read | exact Confine.ret _ | exact Cmd.who_of _ | exact readRow_confined ..
         | refine writeOutputs_confined (hw := ?_) .. | exact unitsDone_confined ..
         | refine Confine.andThen ?_ fun _ => ?_ | refine Confine.cond ?_ ?_ | refine Confine.each _ fun _ => ?_)

theorem gluBody_confined (c : Cmd) : Confined c.p (gluBody c) := by
  unfold gluBody
  repeat' first
    | (with_reducible first
         | exact bodyVec_confined .. | exact bodyGlu_confined .. | refine Confine.andThen ?_ fun _ => ?_)
    | split

theorem copyExtent_confined {pt : Nat} (w : Who) (src dst n : Nat) (hw : w.Of pt) : Confined pt (copyExtent w src dst n) := by
  unfold copyExtent
  repeat' first
    | (with_reducible first
         | exact hw | exact load_confined .. | refine store_confined _ _ _ ?_ | exact storePoison_confined ..
         | refine Confine.andThen ?_ fun _ => ?_ | refine Confine.each _ fun _ => ?_)

theorem storyCue_confined (p h e : Nat) : Confined p (storyCue p h e) := by
  unfold storyCue
  repeat' first
    | (with_reducible first
         | exact storyWho_of _ _ | refine signalCue_confined (hw := ?_) ..)

theorem storyCheck_confined {pt : Nat} (p : Nat) (r : StoryRun) (h : Nat) : Confined pt (storyCheck p r h) := by
  unfold storyCheck
  repeat' first
    | (with_reducible first
         | exact Confine.read | exact load_confined .. | exact storyBad_confined .. | exact setStory_confined ..
         | refine Confine.andThen ?_ fun _ => ?_ | refine Confine.onlyIf _ ?_ | refine Confine.each _ fun _ => ?_)

theorem storySkip_confined (p region layer : Nat) : Confined p (storySkip p region layer) := by
  unfold storySkip
  repeat' first
    | (with_reducible first
         | exact Confine.skip | exact Confine.read | exact storyCheck_confined .. | exact storyCue_confined ..
         | exact setStory_confined .. | exact bump_confined .. | refine Confine.andThen ?_ fun _ => ?_
         | refine Confine.each _ fun _ => ?_)
    | split

theorem bodyGatherSkip_confined (c : Cmd) : Confined c.p (bodyGatherSkip c) := by
  unfold bodyGatherSkip
  repeat' first
    | (with_reducible first
         | exact Confine.read | exact Confine.ret _ | exact bodyGather_confined .. | exact storySkip_confined ..
         | refine Confine.andThen ?_ fun _ => ?_)

theorem sendTransfer_confined {pt : Nat} (x : Xfer) : Confined pt (sendTransfer x) := by
  unfold sendTransfer
  repeat' first
    | (with_reducible first
         | exact sendOver_confined .. | refine Confine.andThen ?_ fun _ => ?_ | refine Confine.onlyIf _ ?_
         | refine Confine.cond ?_ ?_ | refine Confine.each _ fun _ => ?_)
    | (with_reducible refine Confine.change fun _ => ?_); first | exact .of_eq rfl rfl rfl

theorem openTransfer_confined {pt : Nat} (x : Xfer) : Confined pt (openTransfer x) := by
  unfold openTransfer
  repeat' first
    | (with_reducible first
         | exact Confine.read | exact Confine.ret _ | exact setInst_confined .. | exact sendTransfer_confined ..
         | refine Confine.andThen ?_ fun _ => ?_ | refine Confine.cond ?_ ?_)
    | (with_reducible refine Confine.change fun _ => ?_); first | exact .of_eq rfl rfl rfl
    | split

theorem transferLost_confined {pt : Nat} (e p ctx rank : Nat) : Confined pt (transferLost e p ctx rank) := by
  unfold transferLost
  repeat' first
    | (with_reducible first
         | exact Confine.read | exact recordFault_confined .. | exact bump_confined ..
         | refine Confine.andThen ?_ fun _ => ?_)

theorem copySend_confined {pt : Nat} (c : Cmd) (x0 : Nat) (x1 : Nat) : Confined pt (copySend c x0 x1) := by
  induction x0 generalizing x1 with
  | zero =>
    unfold copySend
    repeat' first
      | (with_reducible first
           | exact Confine.read | exact Confine.ret _)
  | succ n ih =>
    unfold copySend
    repeat' first
      | (with_reducible first
           | exact ih .. | exact Confine.read | exact Confine.ret _ | exact transferLost_confined ..
           | exact load_confined .. | exact forwarded_confined .. | exact openTransfer_confined ..
           | refine Confine.andThen ?_ fun _ => ?_ | refine Confine.cond ?_ ?_)

theorem requestHost_confined {pt : Nat} (h a n : Nat) : Confined pt (requestHost h a n) := by
  unfold requestHost
  repeat' first
    | (with_reducible first
         | exact Confine.read | exact emit_confined .. | refine Confine.andThen ?_ fun _ => ?_
         | refine Confine.each _ fun _ => ?_)
    | (with_reducible refine Confine.change fun _ => ?_); first | exact .of_eq rfl rfl rfl

theorem copyRun_confined (c : Cmd) : Confined c.p (copyRun c) := by
  unfold copyRun
  repeat' first
    | (with_reducible first
         | exact Confine.read | exact Confine.ret _ | exact Cmd.who_of _ | exact copySend_confined ..
         | refine copyExtent_confined (hw := ?_) .. | exact unitsDone_confined ..
         | refine Confine.andThen ?_ fun _ => ?_ | refine Confine.cond ?_ ?_)

theorem bodyCopy_confined (c : Cmd) : Confined c.p (bodyCopy c) := by
  unfold bodyCopy
  repeat' first
    | (with_reducible first
         | exact Confine.read | exact Confine.ret _ | exact clampDesc_confined .. | exact copySend_confined ..
         | exact requestHost_confined .. | exact copyRun_confined .. | refine Confine.andThen ?_ fun _ => ?_
         | refine Confine.cond ?_ ?_)
    | split

theorem collRead_confined {pt : Nat} (c : Cmd) (dest a n : Nat) : Confined pt (collRead c dest a n) := by
  unfold collRead
  repeat' first
    | (with_reducible first
         | exact load_confined .. | exact forwarded_confined .. | refine Confine.andThen ?_ fun _ => ?_)

theorem contribute_confined {pt : Nat} (c : Cmd) (v : CollEnv) (j addr : Nat) (bs : List Nat) : Confined pt (contribute c v j addr bs) := by
  unfold contribute
  repeat' first
    | (with_reducible first
         | exact Confine.skip | exact Confine.read | exact openTransfer_confined ..
         | refine Confine.andThen ?_ fun _ => ?_ | refine Confine.cond ?_ ?_)

theorem collOwn_confined {pt : Nat} (c : Cmd) (v : CollEnv) (j k : Nat) : Confined pt (collOwn c v j k) := by
  unfold collOwn
  repeat' first
    | (with_reducible first
         | exact Confine.ret _ | exact collRead_confined .. | refine Confine.andThen ?_ fun _ => ?_)

theorem collConvert_confined {pt : Nat} (v : CollEnv) (xs : List Nat) : Confined pt (collConvert v xs) := by
  unfold collConvert
  repeat' first
    | (with_reducible first
         | exact Confine.ret _ | exact countConv_confined .. | refine Confine.andThen ?_ fun _ => ?_
         | refine Confine.cond ?_ ?_)

theorem takeArrivals_confined {pt : Nat} (p ctx : Nat) (v : CollEnv) (k : Nat) : Confined pt (takeArrivals p ctx v k) := by
  unfold takeArrivals
  repeat' first
    | (with_reducible first
         | refine Confine.andThen ?_ fun _ => ?_ | refine Confine.cond ?_ ?_ | refine Confine.each _ fun _ => ?_)
    | (with_reducible refine Confine.change fun _ => ?_); first | exact .of_eq rfl rfl rfl | exact State.recordFault_within _ _ | exact State.pend_within _ _ | ((repeat' split) <;> first | exact .of_eq rfl rfl rfl)

theorem collStart_confined (c : Cmd) (v : CollEnv) : Confined c.p (collStart c v) := by
  unfold collStart
  repeat' first
    | (with_reducible first
         | exact Confine.skip | exact Cmd.who_of _ | exact collOwn_confined .. | exact collConvert_confined ..
         | refine store_confined _ _ _ ?_ | exact contribute_confined .. | refine copyExtent_confined (hw := ?_) ..
         | exact collRead_confined .. | refine Confine.andThen ?_ fun _ => ?_ | refine Confine.cond ?_ ?_
         | refine Confine.each _ fun _ => ?_)

theorem directSum_confined {pt : Nat} (c : Cmd) (v : CollEnv) : Confined pt (directSum c v) := by
  unfold directSum
  repeat' first
    | (with_reducible first
         | exact Confine.ret _ | exact collRead_confined .. | refine Confine.andThen ?_ fun _ => ?_
         | refine Confine.cond ?_ ?_ | refine Confine.collect _ fun _ => ?_)
    | split

theorem collResult_confined (c : Cmd) (v : CollEnv) (xs : List Nat) (dst' : List Nat) : Confined c.p (collResult c v xs dst') := by
  unfold collResult
  repeat' first
    | (with_reducible first
         | exact Cmd.who_of _ | exact collConvert_confined .. | refine store_confined _ _ _ ?_
         | exact contribute_confined .. | refine Confine.andThen ?_ fun _ => ?_ | refine Confine.onlyIf _ ?_
         | refine Confine.cond ?_ ?_ | refine Confine.each _ fun _ => ?_)

theorem collStep_confined (c : Cmd) (v : CollEnv) (k : Nat) : Confined c.p (collStep c v k) := by
  unfold collStep
  repeat' first
    | (with_reducible first
         | exact Confine.skip | exact collRead_confined .. | exact collOwn_confined .. | exact contribute_confined ..
         | exact collResult_confined .. | exact directSum_confined .. | refine Confine.andThen ?_ fun _ => ?_
         | refine Confine.cond ?_ ?_)

theorem collGo_confined (c : Cmd) (mask : Nat) (v : CollEnv) (x0 : Nat) (x1 : Nat) : Confined c.p (collGo c mask v x0 x1) := by
  induction x0 generalizing x1 with
  | zero =>
    unfold collGo
    repeat' first
      | (with_reducible first
           | exact Confine.read | exact Confine.ret _)
  | succ n ih =>
    unfold collGo
    repeat' first
      | (with_reducible first
           | exact ih .. | exact Confine.read | exact Confine.ret _ | exact Cmd.who_of _
           | refine storeVal_confined _ _ _ _ ?_ | exact takeArrivals_confined .. | exact collStep_confined ..
           | refine Confine.andThen ?_ fun _ => ?_ | refine Confine.onlyIf _ ?_ | refine Confine.cond ?_ ?_)

theorem collEnd_confined (c : Cmd) (status : Nat) : Confined c.p (collEnd c status) := by
  unfold collEnd
  repeat' first
    | (with_reducible first
         | exact Confine.ret _ | exact Cmd.who_of _ | refine storeVal_confined _ _ _ _ ?_ | exact bump_confined ..
         | refine Confine.andThen ?_ fun _ => ?_ | refine Confine.onlyIf _ ?_)

theorem bodyCollective_confined (c : Cmd) : Confined c.p (bodyCollective c) := by
  unfold bodyCollective
  repeat' first
    | (with_reducible first
         | exact Confine.read | exact Cmd.who_of _ | exact clampDesc_confined .. | exact load_confined ..
         | exact collEnd_confined .. | exact collStart_confined .. | exact collGo_confined ..
         | refine Confine.andThen ?_ fun _ => ?_ | refine Confine.cond ?_ ?_)

theorem setEth_confined {pt : Nat} (f : EthSt → EthSt) : Confined pt (setEth f) := by
  unfold setEth
  repeat' first
    | (with_reducible first
         | refine Confine.andThen ?_ fun _ => ?_)
    | (with_reducible refine Confine.change fun _ => ?_); first | exact .of_eq rfl rfl rfl

theorem setQp_confined {pt : Nat} (k : Nat) (q : Qp) : Confined pt (setQp k q) := by
  unfold setQp
  repeat' first
    | (with_reducible first
         | exact setEth_confined ..)

theorem sendFrame_confined {pt : Nat} (port : Nat) (o : Out) : Confined pt (sendFrame port o) := by
  unfold sendFrame
  repeat' first
    | (with_reducible first
         | exact Confine.skip | exact Confine.read | exact emit_confined .. | exact bump_confined ..
         | refine Confine.andThen ?_ fun _ => ?_ | refine Confine.cond ?_ ?_)

theorem sendPackets_confined {pt : Nat} (k : Nat) (q : Qp) (l : List RocePkt) : Confined pt (sendPackets k q l) := by
  unfold sendPackets
  repeat' first
    | (with_reducible first
         | exact Confine.read | exact setQp_confined .. | exact sendFrame_confined ..
         | refine Confine.andThen ?_ fun _ => ?_ | refine Confine.cond ?_ ?_ | refine Confine.each _ fun _ => ?_)

theorem bodyRdma_confined {pt : Nat} (write : Bool) (c : Cmd) : Confined pt (bodyRdma write c) := by
  unfold bodyRdma
  repeat' first
    | (with_reducible first
         | exact Confine.read | exact Confine.ret _ | exact clampDesc_confined .. | exact transferLost_confined ..
         | exact load_confined .. | exact forwarded_confined .. | exact sendPackets_confined ..
         | refine Confine.andThen ?_ fun _ => ?_ | refine Confine.cond ?_ ?_)
    | split

/-! ## Commands -/

/-- The partition that a command's source belongs to. -/
theorem taken_part {s : State} {e op p c0 : Nat} {c : Cmd} (h : s.taken e op (.stream p c0) = some c) : c.p = p := by
  unfold State.taken at h
  dsimp only at h
  repeat' split at h
  all_goals first | (cases h; rfl) | cases h

theorem takenIssued_part {s : State} {e op p d : Nat} {watch : Option Watch} {mark : Option (Nat × Nat)} {c : Cmd}
    (h : s.takenIssued e op p d watch mark = some c) : c.p = p := by
  unfold State.takenIssued at h
  split at h
  · cases h
  · simp only [Option.ite_none_right_eq_some] at h
    cases h.2
    rfl

/-- The operands that a command carries change nothing of where it may write. -/
theorem run_within {c : Cmd} {p : Nat} {args : List Nat} {body : Cmd → M End} (hp : c.p = p)
    (hb : Confined c.p (body { c with args := args })) (s : State) : Within p s (runCmd { c with args := args } body s).2 := by
  subst hp
  exact runCmd_confined { c with args := args } body hb s

theorem issuedCommand_within {e op p d : Nat} {watch : Option Watch} {mark : Option (Nat × Nat)} {body : Cmd → M End} {args : List Nat}
    (hb : ∀ c, Confined c.p (body c)) {s t : State} (ht : s.issuedCommand e op p d watch mark body args = .next t) : Within p s t := by
  unfold State.issuedCommand at ht
  split at ht <;> cases ht
  · rename_i c hc
    exact run_within (takenIssued_part hc) (hb { c with args := args }) s
  · exact holdIssue_confined _ _ _ _ _ _ _ s

theorem engineCommand_within {e op : Nat} {src : CmdSource} {body : Cmd → M End} {args : List Nat}
    (hb : ∀ c, Confined c.p (body c)) {s t : State} (ht : s.engineCommand e op src body args = .next t) : Within src.part s t := by
  unfold State.engineCommand at ht
  split at ht
  · split at ht <;> cases ht
    · rename_i c hc
      exact run_within (taken_part hc) (hb { c with args := args }) s
    · exact .refl _ _
  · exact issuedCommand_within hb ht
  · cases ht; exact .refl _ _

theorem layerCommand_within {e op : Nat} {src : CmdSource} {body : Cmd → M End} {args : List Nat}
    (hb : ∀ c, Confined c.p (body c)) {s t : State} (ht : s.layerCommand e op src body args = .next t) : Within src.part s t := by
  unfold State.layerCommand at ht
  split at ht
  · exact engineCommand_within hb ht
  · exact engineCommand_within hb ht
  · split at ht
    · cases ht; exact .refl _ _
    · exact issuedCommand_within hb ht

/-- An engine's command of a partition stays in the partition's placements. -/
theorem kindCommand_within {ok : Kind → Bool} {e op : Nat} {src : CmdSource} {body : Cmd → M End} {args : List Nat}
    (hb : ∀ c, Confined c.p (body c)) {s t : State} (ht : s.kindCommand ok e op src body args = .next t) : Within src.part s t := by
  unfold State.kindCommand at ht
  split at ht
  · split at ht
    · exact layerCommand_within hb ht
    · cases ht; exact .refl _ _
  · cases ht; exact .refl _ _

end Sys2Proof.Machine
end

