-- ==== Sys2Proof/Laws/Frame.lean ====
section
/-! SUPPORT. What every operation leaves as it was: one lemma per operation, that names the pieces of the state it can
change. The lemmas follow the shape of the operations they are about, in the order of the files of the machine. -/
namespace Sys2Proof.Machine

/-! ## States that differ in some pieces only -/

theorem without_piece {α : Type} {b c : Bool} (h : b = true → c = true) (d x : α) :
    (if c then d else if b then d else x) = if c then d else x := by
  cases c
  · cases b
    · rfl
    · cases h rfl
  · rfl

theorem State.without_without {l m : List Piece} (h : l.all m.contains = true) (s : State) : (s.without l).without m = s.without m := by
  have k : ∀ x : Piece, l.contains x = true → m.contains x = true := fun x hx =>
    List.all_eq_true.mp h x (by simpa using hx)
  simp only [State.without, without_piece (k _)]

theorem SameBut.refl (l : List Piece) (s : State) : SameBut l s s := rfl
theorem SameBut.trans {l : List Piece} {s t u : State} (h : SameBut l s t) (k : SameBut l t u) : SameBut l s u := Eq.trans k h
theorem SameBut.wider {l m : List Piece} {s t : State} (h : SameBut l s t) (k : l.all m.contains = true) : SameBut m s t := by
  have := congrArg (State.without m) h
  rwa [State.without_without k, State.without_without k] at this

theorem without_same {α : Type} {c : Bool} (h : c = false) {d x y : α} (e : (if c then d else x) = if c then d else y) : x = y := by
  subst h; exact e
theorem SameBut.pending {l : List Piece} {s t : State} (h : SameBut l s t) (n : l.contains .pending = false := by decide) :
    t.pending = s.pending := without_same n (congrArg State.pending h)
theorem SameBut.now {l : List Piece} {s t : State} (h : SameBut l s t) (n : l.contains .now = false := by decide) :
    t.now = s.now := without_same n (congrArg State.now h)
theorem SameBut.mode {l : List Piece} {s t : State} (h : SameBut l s t) (n : l.contains .mode = false := by decide) :
    t.mode = s.mode := without_same n (congrArg State.mode h)
theorem SameBut.mem {l : List Piece} {s t : State} (h : SameBut l s t) (n : l.contains .mem = false := by decide) :
    t.mem = s.mem := without_same n (congrArg State.mem h)
theorem SameBut.poison {l : List Piece} {s t : State} (h : SameBut l s t) (n : l.contains .poison = false := by decide) :
    t.poison = s.poison := without_same n (congrArg State.poison h)
theorem SameBut.ecc {l : List Piece} {s t : State} (h : SameBut l s t) (n : l.contains .ecc = false := by decide) :
    t.ecc = s.ecc := without_same n (congrArg State.ecc h)
theorem SameBut.ueFull {l : List Piece} {s t : State} (h : SameBut l s t) (n : l.contains .ueFull = false := by decide) :
    t.ueFull = s.ueFull := without_same n (congrArg State.ueFull h)
theorem SameBut.params {l : List Piece} {s t : State} (h : SameBut l s t) (n : l.contains .params = false := by decide) :
    t.params = s.params := without_same n (congrArg State.params h)
theorem SameBut.eff {l : List Piece} {s t : State} (h : SameBut l s t) (n : l.contains .eff = false := by decide) :
    t.eff = s.eff := without_same n (congrArg State.eff h)
theorem SameBut.ctxs {l : List Piece} {s t : State} (h : SameBut l s t) (n : l.contains .ctxs = false := by decide) :
    t.ctxs = s.ctxs := without_same n (congrArg State.ctxs h)
theorem SameBut.streams {l : List Piece} {s t : State} (h : SameBut l s t) (n : l.contains .streams = false := by decide) :
    t.streams = s.streams := without_same n (congrArg State.streams h)
theorem SameBut.heldCtl {l : List Piece} {s t : State} (h : SameBut l s t) (n : l.contains .heldCtl = false := by decide) :
    t.heldCtl = s.heldCtl := without_same n (congrArg State.heldCtl h)
theorem SameBut.reelImage {l : List Piece} {s t : State} (h : SameBut l s t) (n : l.contains .reelImage = false := by decide) :
    t.reelImage = s.reelImage := without_same n (congrArg State.reelImage h)
theorem SameBut.places {l : List Piece} {s t : State} (h : SameBut l s t) (n : l.contains .places = false := by decide) :
    t.places = s.places := without_same n (congrArg State.places h)
theorem SameBut.placesNext {l : List Piece} {s t : State} (h : SameBut l s t) (n : l.contains .placesNext = false := by decide) :
    t.placesNext = s.placesNext := without_same n (congrArg State.placesNext h)
theorem SameBut.engines {l : List Piece} {s t : State} (h : SameBut l s t) (n : l.contains .engines = false := by decide) :
    t.engines = s.engines := without_same n (congrArg State.engines h)
theorem SameBut.phys {l : List Piece} {s t : State} (h : SameBut l s t) (n : l.contains .phys = false := by decide) :
    t.phys = s.phys := without_same n (congrArg State.phys h)
theorem SameBut.rel {l : List Piece} {s t : State} (h : SameBut l s t) (n : l.contains .rel = false := by decide) :
    t.rel = s.rel := without_same n (congrArg State.rel h)
theorem SameBut.win {l : List Piece} {s t : State} (h : SameBut l s t) (n : l.contains .win = false := by decide) :
    t.win = s.win := without_same n (congrArg State.win h)
theorem SameBut.retired {l : List Piece} {s t : State} (h : SameBut l s t) (n : l.contains .retired = false := by decide) :
    t.retired = s.retired := without_same n (congrArg State.retired h)
theorem SameBut.dieCopies {l : List Piece} {s t : State} (h : SameBut l s t) (n : l.contains .dieCopies = false := by decide) :
    t.dieCopies = s.dieCopies := without_same n (congrArg State.dieCopies h)
theorem SameBut.restores {l : List Piece} {s t : State} (h : SameBut l s t) (n : l.contains .restores = false := by decide) :
    t.restores = s.restores := without_same n (congrArg State.restores h)
theorem SameBut.vaultLoad {l : List Piece} {s t : State} (h : SameBut l s t) (n : l.contains .vaultLoad = false := by decide) :
    t.vaultLoad = s.vaultLoad := without_same n (congrArg State.vaultLoad h)
theorem SameBut.slots {l : List Piece} {s t : State} (h : SameBut l s t) (n : l.contains .slots = false := by decide) :
    t.slots = s.slots := without_same n (congrArg State.slots h)
theorem SameBut.codecRefs {l : List Piece} {s t : State} (h : SameBut l s t) (n : l.contains .codecRefs = false := by decide) :
    t.codecRefs = s.codecRefs := without_same n (congrArg State.codecRefs h)
theorem SameBut.codecUnit {l : List Piece} {s t : State} (h : SameBut l s t) (n : l.contains .codecUnit = false := by decide) :
    t.codecUnit = s.codecUnit := without_same n (congrArg State.codecUnit h)
theorem SameBut.stories {l : List Piece} {s t : State} (h : SameBut l s t) (n : l.contains .stories = false := by decide) :
    t.stories = s.stories := without_same n (congrArg State.stories h)
theorem SameBut.faultLog {l : List Piece} {s t : State} (h : SameBut l s t) (n : l.contains .faultLog = false := by decide) :
    t.faultLog = s.faultLog := without_same n (congrArg State.faultLog h)
theorem SameBut.flashLog {l : List Piece} {s t : State} (h : SameBut l s t) (n : l.contains .flashLog = false := by decide) :
    t.flashLog = s.flashLog := without_same n (congrArg State.flashLog h)
theorem SameBut.flashDue {l : List Piece} {s t : State} (h : SameBut l s t) (n : l.contains .flashDue = false := by decide) :
    t.flashDue = s.flashDue := without_same n (congrArg State.flashDue h)
theorem SameBut.subs {l : List Piece} {s t : State} (h : SameBut l s t) (n : l.contains .subs = false := by decide) :
    t.subs = s.subs := without_same n (congrArg State.subs h)
theorem SameBut.hostPorts {l : List Piece} {s t : State} (h : SameBut l s t) (n : l.contains .hostPorts = false := by decide) :
    t.hostPorts = s.hostPorts := without_same n (congrArg State.hostPorts h)
theorem SameBut.kvScales {l : List Piece} {s t : State} (h : SameBut l s t) (n : l.contains .kvScales = false := by decide) :
    t.kvScales = s.kvScales := without_same n (congrArg State.kvScales h)
theorem SameBut.kvBad {l : List Piece} {s t : State} (h : SameBut l s t) (n : l.contains .kvBad = false := by decide) :
    t.kvBad = s.kvBad := without_same n (congrArg State.kvBad h)
theorem SameBut.frames {l : List Piece} {s t : State} (h : SameBut l s t) (n : l.contains .frames = false := by decide) :
    t.frames = s.frames := without_same n (congrArg State.frames h)
theorem SameBut.reels {l : List Piece} {s t : State} (h : SameBut l s t) (n : l.contains .reels = false := by decide) :
    t.reels = s.reels := without_same n (congrArg State.reels h)
theorem SameBut.doors {l : List Piece} {s t : State} (h : SameBut l s t) (n : l.contains .doors = false := by decide) :
    t.doors = s.doors := without_same n (congrArg State.doors h)
theorem SameBut.insts {l : List Piece} {s t : State} (h : SameBut l s t) (n : l.contains .insts = false := by decide) :
    t.insts = s.insts := without_same n (congrArg State.insts h)
theorem SameBut.nodes {l : List Piece} {s t : State} (h : SameBut l s t) (n : l.contains .nodes = false := by decide) :
    t.nodes = s.nodes := without_same n (congrArg State.nodes h)
theorem SameBut.drain {l : List Piece} {s t : State} (h : SameBut l s t) (n : l.contains .drain = false := by decide) :
    t.drain = s.drain := without_same n (congrArg State.drain h)
theorem SameBut.fltPending {l : List Piece} {s t : State} (h : SameBut l s t) (n : l.contains .fltPending = false := by decide) :
    t.fltPending = s.fltPending := without_same n (congrArg State.fltPending h)
theorem SameBut.dead {l : List Piece} {s t : State} (h : SameBut l s t) (n : l.contains .dead = false := by decide) :
    t.dead = s.dead := without_same n (congrArg State.dead h)
theorem SameBut.tests {l : List Piece} {s t : State} (h : SameBut l s t) (n : l.contains .tests = false := by decide) :
    t.tests = s.tests := without_same n (congrArg State.tests h)
theorem SameBut.overdue {l : List Piece} {s t : State} (h : SameBut l s t) (n : l.contains .overdue = false := by decide) :
    t.overdue = s.overdue := without_same n (congrArg State.overdue h)
theorem SameBut.meshHits {l : List Piece} {s t : State} (h : SameBut l s t) (n : l.contains .meshHits = false := by decide) :
    t.meshHits = s.meshHits := without_same n (congrArg State.meshHits h)
theorem SameBut.engineDumps {l : List Piece} {s t : State} (h : SameBut l s t) (n : l.contains .engineDumps = false := by decide) :
    t.engineDumps = s.engineDumps := without_same n (congrArg State.engineDumps h)
theorem SameBut.dumps {l : List Piece} {s t : State} (h : SameBut l s t) (n : l.contains .dumps = false := by decide) :
    t.dumps = s.dumps := without_same n (congrArg State.dumps h)
theorem SameBut.dumpRun {l : List Piece} {s t : State} (h : SameBut l s t) (n : l.contains .dumpRun = false := by decide) :
    t.dumpRun = s.dumpRun := without_same n (congrArg State.dumpRun h)
theorem SameBut.dumpSummary {l : List Piece} {s t : State} (h : SameBut l s t) (n : l.contains .dumpSummary = false := by decide) :
    t.dumpSummary = s.dumpSummary := without_same n (congrArg State.dumpSummary h)
theorem SameBut.links {l : List Piece} {s t : State} (h : SameBut l s t) (n : l.contains .links = false := by decide) :
    t.links = s.links := without_same n (congrArg State.links h)
theorem SameBut.xfers {l : List Piece} {s t : State} (h : SameBut l s t) (n : l.contains .xfers = false := by decide) :
    t.xfers = s.xfers := without_same n (congrArg State.xfers h)
theorem SameBut.xferWait {l : List Piece} {s t : State} (h : SameBut l s t) (n : l.contains .xferWait = false := by decide) :
    t.xferWait = s.xferWait := without_same n (congrArg State.xferWait h)
theorem SameBut.oldTags {l : List Piece} {s t : State} (h : SameBut l s t) (n : l.contains .oldTags = false := by decide) :
    t.oldTags = s.oldTags := without_same n (congrArg State.oldTags h)
theorem SameBut.rxXfers {l : List Piece} {s t : State} (h : SameBut l s t) (n : l.contains .rxXfers = false := by decide) :
    t.rxXfers = s.rxXfers := without_same n (congrArg State.rxXfers h)
theorem SameBut.rxDone {l : List Piece} {s t : State} (h : SameBut l s t) (n : l.contains .rxDone = false := by decide) :
    t.rxDone = s.rxDone := without_same n (congrArg State.rxDone h)
theorem SameBut.arrivals {l : List Piece} {s t : State} (h : SameBut l s t) (n : l.contains .arrivals = false := by decide) :
    t.arrivals = s.arrivals := without_same n (congrArg State.arrivals h)
theorem SameBut.planes {l : List Piece} {s t : State} (h : SameBut l s t) (n : l.contains .planes = false := by decide) :
    t.planes = s.planes := without_same n (congrArg State.planes h)
theorem SameBut.gone {l : List Piece} {s t : State} (h : SameBut l s t) (n : l.contains .gone = false := by decide) :
    t.gone = s.gone := without_same n (congrArg State.gone h)
theorem SameBut.heard {l : List Piece} {s t : State} (h : SameBut l s t) (n : l.contains .heard = false := by decide) :
    t.heard = s.heard := without_same n (congrArg State.heard h)
theorem SameBut.spray {l : List Piece} {s t : State} (h : SameBut l s t) (n : l.contains .spray = false := by decide) :
    t.spray = s.spray := without_same n (congrArg State.spray h)
theorem SameBut.peers {l : List Piece} {s t : State} (h : SameBut l s t) (n : l.contains .peers = false := by decide) :
    t.peers = s.peers := without_same n (congrArg State.peers h)
theorem SameBut.clock {l : List Piece} {s t : State} (h : SameBut l s t) (n : l.contains .clock = false := by decide) :
    t.clock = s.clock := without_same n (congrArg State.clock h)
theorem SameBut.power {l : List Piece} {s t : State} (h : SameBut l s t) (n : l.contains .power = false := by decide) :
    t.power = s.power := without_same n (congrArg State.power h)
theorem SameBut.life {l : List Piece} {s t : State} (h : SameBut l s t) (n : l.contains .life = false := by decide) :
    t.life = s.life := without_same n (congrArg State.life h)
theorem SameBut.elo {l : List Piece} {s t : State} (h : SameBut l s t) (n : l.contains .elo = false := by decide) :
    t.elo = s.elo := without_same n (congrArg State.elo h)
theorem SameBut.eth {l : List Piece} {s t : State} (h : SameBut l s t) (n : l.contains .eth = false := by decide) :
    t.eth = s.eth := without_same n (congrArg State.eth h)
theorem SameBut.hostReads {l : List Piece} {s t : State} (h : SameBut l s t) (n : l.contains .hostReads = false := by decide) :
    t.hostReads = s.hostReads := without_same n (congrArg State.hostReads h)
theorem SameBut.bridges {l : List Piece} {s t : State} (h : SameBut l s t) (n : l.contains .bridges = false := by decide) :
    t.bridges = s.bridges := without_same n (congrArg State.bridges h)
theorem SameBut.out {l : List Piece} {s t : State} (h : SameBut l s t) (n : l.contains .out = false := by decide) :
    t.out = s.out := without_same n (congrArg State.out h)
theorem SameBut.freeIx {l : List Piece} {s t : State} (h : SameBut l s t) (n : l.contains .freeIx = false := by decide) :
    t.freeIx = s.freeIx := without_same n (congrArg State.freeIx h)

/-- m changes the named pieces of the state at most. -/
def Touches {α : Type} (l : List Piece) (m : M α) : Prop := ∀ s, SameBut l s (m s).2

namespace Touch

variable {α β : Type} {l : List Piece}

theorem ret (a : α) : Touches l (pure a : M α) := fun _ => rfl
theorem skip : Touches l Machine.skip := fun _ => rfl
theorem read : Touches l (get : M State) := fun _ => rfl
theorem andThen {m : M α} {k : α → M β} (hm : Touches l m) (hk : ∀ a, Touches l (k a)) : Touches l (m >>= k) :=
  fun s => (hm s).trans (hk _ _)
theorem readThen {k : State → M α} (hk : ∀ s, Touches l (k s)) : Touches l (get >>= k) := fun s => hk s s
theorem change {g : State → State} (h : ∀ s, SameBut l s (g s)) : Touches l (modify g : M Unit) := h
theorem cond {c : Prop} [Decidable c] {m k : M α} (hm : Touches l m) (hk : Touches l k) : Touches l (if c then m else k) := by
  split <;> assumption
theorem onlyIf (c : Bool) {m : M Unit} (hm : Touches l m) : Touches l (Machine.onlyIf c m) := cond hm skip
theorem each (xs : List α) {k : α → M Unit} (hk : ∀ a, Touches l (k a)) : Touches l (Machine.each xs k) := by
  induction xs with
  | nil => exact skip
  | cons x t ih => exact andThen (hk x) fun _ => ih
theorem collect (xs : List α) {k : α → M β} (hk : ∀ a, Touches l (k a)) : Touches l (Machine.collect xs k) := by
  induction xs with
  | nil => exact ret _
  | cons x t ih => exact andThen (hk x) fun _ => andThen ih fun _ => ret _
theorem foldState (xs : List α) (b : β) {k : β → α → M β} (hk : ∀ b a, Touches l (k b a)) : Touches l (Machine.foldState xs b k) := by
  induction xs generalizing b with
  | nil => exact ret _
  | cons x t ih => exact andThen (hk b x) fun c => ih c

end Touch

theorem Touches.wider {α : Type} {l m : List Piece} {a : M α} (h : Touches l a) (k : l.all m.contains = true) : Touches m a :=
  fun s => (h s).wider k

/-! ## Updates of the state, and what is not made of other operations -/

theorem State.pend_only (s : State) (i : Nat) : SameBut [.fltPending] s (s.pend i) := by
  unfold State.pend; split <;> rfl
theorem State.recordFault_only (s : State) (r : FaultRec) : SameBut [.params, .faultLog, .flashDue, .fltPending] s (s.recordFault r) := by
  unfold State.recordFault
  refine SameBut.trans ?_ ((State.pend_only _ 0).wider (by decide))
  split <;> rfl
theorem State.OnlyMemory.only {s t : State} (h : s.OnlyMemory t) : SameBut [.mem, .poison, .dead, .ecc] s t := by
  rw [h]; rfl
theorem State.storeBytes_only (w : Who) {fuel : Nat} {s : State} (a : Nat) {bs : List Nat} (hf : bs.length ≤ fuel) :
    SameBut [.mem, .poison, .dead, .ecc] s (State.storeBytes w fuel s a bs) := (State.storeBytes_spec w fuel s a bs hf).1.only
theorem State.storeChunk_only (s : State) (w : Who) (a : Nat) (bs : List Nat) : SameBut [.mem, .poison, .dead, .ecc] s (s.storeChunk w a bs) := by
  unfold State.storeChunk
  extract_lets c whole s1
  have h1 : SameBut [.mem, .poison, .dead, .ecc] s s1 := by
    show SameBut _ s (if whole = true then _ else _)
    split <;> rfl
  split
  · exact h1
  · refine foldl_keeps (I := SameBut [.mem, .poison, .dead, .ecc] s) _ _ _ h1 fun t x ht => ?_
    repeat' split
    all_goals exact ht
theorem State.poisonCodeword_only (s : State) (w : Who) (c : Nat) : SameBut [.poison] s (s.poisonCodeword w c) := by
  unfold State.poisonCodeword; split <;> rfl
theorem bump_only (k n : Nat) : Touches [.params] (bump k n) := Touch.change fun s => by split <;> rfl
theorem clampDesc_only (n : Nat) : Touches [.params] (clampDesc n) := bump_only _ _
theorem recordFault_only (r : FaultRec) : Touches [.params, .faultLog, .flashDue, .fltPending] (recordFault r) :=
  fun s => s.recordFault_only r
theorem State.strike_only (s : State) (c : Nat) (errs : List (Nat × Nat)) : SameBut [.mem, .poison, .ecc] s (s.strike c errs) :=
  State.strike_keeps (I := SameBut [.mem, .poison, .ecc] s) (fun _ _ _ h => h) (fun _ _ _ h => h) c errs rfl
theorem noteReached_only (k : Nat) (on : Bool) : Touches [.ecc] (noteReached k on) := fun s => by
  show SameBut _ s (if _ then _ else _)
  split <;> rfl
theorem windowAdd_only (k h n : Nat) : Touches [.win] (windowAdd k h n) := fun _ => rfl
theorem store_only (w : Who) (a : Nat) (bs : List Nat) : Touches [.mem, .poison, .params, .dead, .ecc] (store w a bs) :=
  Touch.andThen Touch.read fun _ => Touch.andThen (Touch.onlyIf _ ((bump_only _ _).wider (by decide))) fun _ =>
    Touch.change fun _ => (State.storeBytes_only w a (by omega)).wider (by decide)
theorem storeVal_only (w : Who) (a n v : Nat) : Touches [.mem, .poison, .params, .dead, .ecc] (storeVal w a n v) := store_only w a _
theorem State.afresh_only (s : State) (keep : Bool) : SameBut (Piece.allBut [.pending, .out, .freeIx, .now, .mode, .phys, .rel, .retired,
    .flashLog, .dumpSummary]) s (s.afresh keep) := rfl
theorem par_only (k : Nat) : Touches [] (par k) := fun _ => rfl
theorem eff_only (k : Nat) : Touches [] (eff k) := fun _ => rfl

theorem wide_trans {a b c : List Piece} (h : a.all b.contains = true) (k : b.all c.contains = true) : a.all c.contains = true := by
  refine List.all_eq_true.mpr fun x hx => List.all_eq_true.mp k x ?_
  simpa using List.all_eq_true.mp h x hx

/-! ## Ops -/

theorem setPar_only (key v : Nat) : Touches [.params] (setPar key v) := by
  unfold setPar
  repeat' first
    | (with_reducible refine Touch.change fun _ => ?_); rfl

theorem setEff_only (key v : Nat) : Touches [.eff] (setEff key v) := by
  unfold setEff
  repeat' first
    | (with_reducible first
         | refine Touch.andThen ?_ fun _ => ?_)
    | (with_reducible refine Touch.change fun _ => ?_); rfl

theorem setInst_only (p : Nat) (f : Inst → Inst) : Touches [.insts] (setInst p f) := by
  unfold setInst
  repeat' first
    | (with_reducible first
         | refine Touch.andThen ?_ fun _ => ?_)
    | (with_reducible refine Touch.change fun _ => ?_); rfl

theorem setDoor_only (p i v : Nat) : Touches [.doors] (setDoor p i v) := by
  unfold setDoor
  repeat' first
    | (with_reducible first
         | refine Touch.andThen ?_ fun _ => ?_)
    | (with_reducible refine Touch.change fun _ => ?_); rfl

theorem setEngine_only (e : Nat) (f : EngineSt → EngineSt) : Touches [.engines] (setEngine e f) := by
  unfold setEngine
  repeat' first
    | (with_reducible first
         | refine Touch.andThen ?_ fun _ => ?_)
    | (with_reducible refine Touch.change fun _ => ?_); rfl

theorem setHostPort_only (h : Nat) (f : HostPort → HostPort) : Touches [.hostPorts] (setHostPort h f) := by
  unfold setHostPort
  repeat' first
    | (with_reducible first
         | refine Touch.andThen ?_ fun _ => ?_)
    | (with_reducible refine Touch.change fun _ => ?_); rfl

theorem emit_only (o : Out) : Touches [.out] (emit o) := by
  unfold emit
  repeat' first
    | (with_reducible first
         | refine Touch.andThen ?_ fun _ => ?_)
    | (with_reducible refine Touch.change fun _ => ?_); rfl

theorem sendMsix_only (h vector : Nat) : Touches [.hostPorts, .out] (sendMsix h vector) := by
  unfold sendMsix
  repeat' first
    | (with_reducible first
         | exact Touch.skip | exact Touch.read | exact (setHostPort_only ..).wider (by decide) | exact (emit_only ..).wider (by decide)
         | refine Touch.readThen fun _ => ?_ | refine Touch.andThen ?_ fun _ => ?_
         | refine Touch.cond ?_ ?_)
    | split

theorem sendRecords_only (slot : Nat) (u : Sub) (rs : List Nat) : Touches [.out] (sendRecords slot u rs) := by
  unfold sendRecords
  repeat' first
    | (with_reducible first
         | exact Touch.read | exact (emit_only ..).wider (by decide) | refine Touch.readThen fun _ => ?_
         | refine Touch.andThen ?_ fun _ => ?_ | refine Touch.each _ fun _ => ?_)

theorem deliverSlot_only (slot : Nat) : Touches [.params, .subs, .hostPorts, .out] (deliverSlot slot) := by
  unfold deliverSlot
  repeat' first
    | (with_reducible first
         | exact Touch.skip | exact Touch.read | exact (bump_only ..).wider (by decide) | exact (setHostPort_only ..).wider (by decide)
         | exact (sendMsix_only ..).wider (by decide) | exact (sendRecords_only ..).wider (by decide) | refine Touch.readThen fun _ => ?_
         | refine Touch.andThen ?_ fun _ => ?_ | refine Touch.cond ?_ ?_ | refine Touch.each _ fun _ => ?_)
    | (with_reducible refine Touch.change fun _ => ?_); rfl
    | split

theorem raiseEvent_only (code p flags detail : Nat) : Touches [.params, .subs, .hostPorts, .fltPending, .out] (raiseEvent
    code p flags detail) := by
  unfold raiseEvent
  repeat' first
    | (with_reducible first
         | exact Touch.skip | exact Touch.read | exact (bump_only ..).wider (by decide) | exact (deliverSlot_only ..).wider (by decide)
         | refine Touch.readThen fun _ => ?_ | refine Touch.andThen ?_ fun _ => ?_
         | refine Touch.each _ fun _ => ?_)
    | (with_reducible refine Touch.change fun _ => ?_); first | rfl | exact (State.pend_only ..).wider (by decide)
    | split

theorem recordUe_only (a action p ctx : Nat) : Touches [.params, .faultLog, .flashDue, .fltPending] (recordUe a action p
    ctx) := by
  unfold recordUe
  repeat' first
    | (with_reducible first
         | refine Touch.andThen ?_ fun _ => ?_)
    | (with_reducible refine Touch.change fun _ => ?_); first | rfl | exact (State.recordFault_only ..).wider (by decide)

theorem dieSpareStart_only (stack die : Nat) : Touches [.params, .dieCopies] (dieSpareStart stack die) := by
  unfold dieSpareStart
  repeat' first
    | (with_reducible first
         | exact Touch.skip | exact Touch.read | exact (setPar_only ..).wider (by decide) | refine Touch.readThen fun _ => ?_
         | refine Touch.andThen ?_ fun _ => ?_ | refine Touch.cond ?_ ?_)
    | (with_reducible refine Touch.change fun _ => ?_); rfl

theorem dieThreshold_only (stack die : Nat) (reached : Bool) : Touches [.params, .dieCopies, .faultLog, .flashDue,
    .fltPending] (dieThreshold stack die reached) := by
  unfold dieThreshold
  repeat' first
    | (with_reducible first
         | exact Touch.skip | exact Touch.read | exact (dieSpareStart_only ..).wider (by decide) | exact (recordFault_only ..).wider (by decide)
         | refine Touch.readThen fun _ => ?_ | refine Touch.andThen ?_ fun _ => ?_
         | refine Touch.onlyIf _ ?_ | refine Touch.cond ?_ ?_)

theorem tallyUe_only (a : Nat) : Touches [.rel] (tallyUe a) := by
  unfold tallyUe
  repeat' first
    | (with_reducible first
         | exact Touch.skip | exact Touch.read | refine Touch.readThen fun _ => ?_
         | refine Touch.andThen ?_ fun _ => ?_)
    | (with_reducible refine Touch.change fun _ => ?_); rfl
    | split

theorem listUe_only (a : Nat) : Touches [.ecc, .params, .win, .dieCopies, .faultLog, .flashDue, .fltPending] (listUe a) := by
  unfold listUe
  repeat' first
    | (with_reducible first
         | exact Touch.skip | exact Touch.read | exact (windowAdd_only ..).wider (by decide) | exact (noteReached_only ..).wider (by decide)
         | exact (dieThreshold_only ..).wider (by decide) | exact (recordUe_only ..).wider (by decide) | refine Touch.readThen fun _ => ?_
         | refine Touch.andThen ?_ fun _ => ?_ | refine Touch.onlyIf _ ?_)
    | (with_reducible refine Touch.change fun _ => ?_); first | rfl | exact (State.recordFault_only ..).wider (by decide)
    | split

theorem findCodeword_only (c : Nat) : Touches [.poison, .ueFull, .ecc, .params, .rel, .win, .dieCopies, .faultLog,
    .flashDue, .fltPending] (findCodeword c) := by
  unfold findCodeword
  repeat' first
    | (with_reducible first
         | exact Touch.skip | exact Touch.read | exact (tallyUe_only ..).wider (by decide) | exact (listUe_only ..).wider (by decide)
         | exact (recordUe_only ..).wider (by decide) | refine Touch.readThen fun _ => ?_ | refine Touch.andThen ?_ fun _ => ?_
         | refine Touch.onlyIf _ ?_ | refine Touch.cond ?_ ?_)
    | (with_reducible refine Touch.change fun _ => ?_); rfl
    | split

theorem countCorrected_only (a : Nat) (errs : List (Nat × Nat)) : Touches [.ecc, .params, .rel, .win, .dieCopies,
    .faultLog, .flashDue, .fltPending] (countCorrected a errs) := by
  unfold countCorrected
  repeat' first
    | (with_reducible first
         | exact Touch.skip | exact Touch.read | exact Touch.ret _ | exact (bump_only ..).wider (by decide)
         | exact (windowAdd_only ..).wider (by decide) | exact (recordFault_only ..).wider (by decide) | exact (noteReached_only ..).wider (by decide) | exact (dieThreshold_only ..).wider (by decide)
         | refine Touch.readThen fun _ => ?_ | refine Touch.andThen ?_ fun _ => ?_
         | refine Touch.onlyIf _ ?_)
    | (with_reducible refine Touch.change fun _ => ?_); rfl
    | split

theorem correct_only (x : Nat × List (Nat × Nat)) : Touches [.ecc, .params, .rel, .win, .dieCopies, .faultLog, .flashDue,
    .fltPending] (correct x) := by
  unfold correct
  repeat' first
    | (with_reducible first
         | exact (countCorrected_only ..).wider (by decide) | refine Touch.andThen ?_ fun _ => ?_)
    | (with_reducible refine Touch.change fun _ => ?_); rfl

theorem setStory_only (p : Nat) (f : StoryRun → StoryRun) : Touches [.stories] (setStory p f) := by
  unfold setStory
  repeat' first
    | (with_reducible first
         | refine Touch.andThen ?_ fun _ => ?_)
    | (with_reducible refine Touch.change fun _ => ?_); rfl

theorem storyBad_only (p a : Nat) : Touches [.params, .faultLog, .flashDue, .insts, .fltPending] (storyBad p a) := by
  unfold storyBad
  repeat' first
    | (with_reducible first
         | exact (recordUe_only ..).wider (by decide) | exact (setInst_only ..).wider (by decide) | refine Touch.andThen ?_ fun _ => ?_)

theorem readAccess_only (w : Who) (a n : Nat) : Touches [.poison, .ueFull, .ecc, .params, .rel, .win, .dieCopies,
    .faultLog, .flashDue, .fltPending] (readAccess w a n) := by
  unfold readAccess
  repeat' first
    | (with_reducible first
         | exact Touch.read | exact Touch.ret _ | exact (bump_only ..).wider (by decide) | exact (findCodeword_only ..).wider (by decide)
         | refine Touch.readThen fun _ => ?_ | refine Touch.andThen ?_ fun _ => ?_
         | refine Touch.onlyIf _ ?_ | refine Touch.each _ fun _ => ?_)
    | (with_reducible refine Touch.change fun _ => ?_); rfl

theorem load_only (w : Who) (a n : Nat) : Touches [.poison, .ueFull, .ecc, .params, .rel, .win, .dieCopies, .faultLog,
    .flashDue, .fltPending] (load w a n) := by
  unfold load
  repeat' first
    | (with_reducible first
         | exact Touch.read | exact (correct_only ..).wider (by decide) | exact (readAccess_only ..).wider (by decide)
         | refine Touch.readThen fun _ => ?_ | refine Touch.andThen ?_ fun _ => ?_
         | refine Touch.each _ fun _ => ?_)

theorem storePoison_only (w : Who) (a n : Nat) : Touches [.poison, .params] (storePoison w a n) :=
  Touch.andThen Touch.read fun _ => Touch.andThen (Touch.onlyIf _ ((bump_only _ _).wider (by decide))) fun _ =>
    Touch.andThen (Touch.onlyIf _ ((bump_only _ _).wider (by decide))) fun _ => Touch.change fun s =>
      foldl_keeps (I := SameBut [.poison, .params] s) _ _ _ rfl fun _ c ht =>
        ht.trans ((State.poisonCodeword_only _ w c).wider (by decide))

theorem atomic_only (w : Who) (a : Nat) (f : Nat → Nat) :
    Touches [.mem, .poison, .ueFull, .ecc, .params, .rel, .win, .dieCopies, .faultLog, .flashDue, .fltPending, .dead] (atomic w a f) :=
  Touch.andThen Touch.read fun _ => Touch.andThen ((load_only w a 8).wider (by decide)) fun _ =>
    Touch.cond (Touch.andThen (Touch.change fun _ => (State.storeBytes_only w a (by rw [toBytes_length]; omega)).wider (by decide))
      fun _ => Touch.ret _) (Touch.ret _)

theorem signalCue_only (w : Who) (a add : Nat) : Touches [.mem, .poison, .ueFull, .ecc, .params, .rel, .win, .dieCopies,
    .faultLog, .flashDue, .fltPending, .dead] (signalCue w a add) := by
  unfold signalCue
  repeat' first
    | (with_reducible first
         | exact Touch.skip | exact Touch.read | exact (atomic_only ..).wider (by decide) | exact (bump_only ..).wider (by decide)
         | refine Touch.readThen fun _ => ?_ | refine Touch.andThen ?_ fun _ => ?_
         | refine Touch.cond ?_ ?_)

/-! ## Operands -/

theorem readOperandOnce_only (w : Who) (role : FmtRole) (extent addr : Nat) (seen : Clamped) : Touches [.poison, .ueFull,
    .ecc, .params, .rel, .win, .dieCopies, .faultLog, .flashDue, .fltPending] (readOperandOnce w role extent addr seen) := by
  unfold readOperandOnce
  repeat' first
    | (with_reducible first
         | exact Touch.ret _ | exact (load_only ..).wider (by decide) | exact (clampDesc_only ..).wider (by decide) | refine Touch.andThen ?_ fun _ => ?_)

theorem readOperand_only (w : Who) (role : FmtRole) (extent addr : Nat) : Touches [.poison, .ueFull, .ecc, .params, .rel,
    .win, .dieCopies, .faultLog, .flashDue, .fltPending] (readOperand w role extent addr) := by
  unfold readOperand
  repeat' first
    | (with_reducible first
         | exact Touch.ret _ | exact (readOperandOnce_only ..).wider (by decide) | refine Touch.andThen ?_ fun _ => ?_)

theorem readCoded_only (w : Who) (role : FmtRole) (addr extent : Nat) (codes : List Nat) : Touches [.poison, .ueFull, .ecc,
    .params, .rel, .win, .dieCopies, .faultLog, .flashDue, .fltPending] (readCoded w role addr extent codes) := by
  unfold readCoded
  repeat' first
    | (with_reducible first
         | exact Touch.ret _ | exact (load_only ..).wider (by decide) | exact (clampDesc_only ..).wider (by decide) | refine Touch.andThen ?_ fun _ => ?_)

theorem readRow_only (w : Who) (o : Operand) (row k0 len : Nat) : Touches [.poison, .ueFull, .ecc, .params, .rel, .win,
    .dieCopies, .faultLog, .flashDue, .fltPending] (readRow w o row k0 len) := by
  unfold readRow
  repeat' first
    | (with_reducible first
         | exact Touch.ret _ | exact (load_only ..).wider (by decide) | refine Touch.andThen ?_ fun _ => ?_
         | refine Touch.cond ?_ ?_)

theorem storeCodes_only (w : Who) (a width : Nat) (codes : List Nat) : Touches [.mem, .poison, .ecc, .params, .dead]
    (storeCodes w a width codes) := by
  unfold storeCodes
  repeat' first
    | (with_reducible first
         | exact Touch.skip | exact Touch.read | exact (storeVal_only ..).wider (by decide) | refine Touch.readThen fun _ => ?_
         | refine Touch.andThen ?_ fun _ => ?_ | refine Touch.cond ?_ ?_)

theorem countConv_only (c : Conv) : Touches [.params] (countConv c) := by
  unfold countConv
  repeat' first
    | (with_reducible first
         | exact (bump_only ..).wider (by decide) | refine Touch.andThen ?_ fun _ => ?_)

theorem poisonOutputs_only (w : Who) (o : Operand) (row n0 : Nat) (affected : List Bool) : Touches [.poison, .params]
    (poisonOutputs w o row n0 affected) := by
  unfold poisonOutputs
  repeat' first
    | (with_reducible first
         | exact Touch.skip | exact (storePoison_only ..).wider (by decide) | refine Touch.andThen ?_ fun _ => ?_
         | refine Touch.cond ?_ ?_ | refine Touch.each _ fun _ => ?_)

theorem writeOutputs_only (w : Who) (o : Operand) (row n0 : Nat) (ys : List Nat) (affected : List Bool) : Touches [.mem,
    .poison, .ecc, .params, .dead] (writeOutputs w o row n0 ys affected) := by
  unfold writeOutputs
  repeat' first
    | (with_reducible first
         | exact Touch.skip | exact (countConv_only ..).wider (by decide) | exact (storeCodes_only ..).wider (by decide) | exact (store_only ..).wider (by decide)
         | exact (poisonOutputs_only ..).wider (by decide) | refine Touch.andThen ?_ fun _ => ?_ | refine Touch.cond ?_ ?_)

/-! ## Queues -/

theorem noteBlame_only (p node ns : Nat) : Touches [.power] (noteBlame p node ns) := by
  unfold noteBlame
  repeat' first
    | (with_reducible first
         | refine Touch.andThen ?_ fun _ => ?_ | refine Touch.cond ?_ ?_)
    | (with_reducible refine Touch.change fun _ => ?_); first | rfl | ((repeat' split) <;> rfl)

theorem noteEligible_only (e p desc : Nat) (overlap : Bool) (since : Nat) : Touches [.params, .engines, .power]
    (noteEligible e p desc overlap since) := by
  unfold noteEligible
  repeat' first
    | (with_reducible first
         | exact Touch.skip | exact Touch.read | exact (setEngine_only ..).wider (by decide) | exact (bump_only ..).wider (by decide)
         | exact (noteBlame_only ..).wider (by decide) | refine Touch.readThen fun _ => ?_ | refine Touch.andThen ?_ fun _ => ?_
         | refine Touch.onlyIf _ ?_)
    | split

theorem evalHead_only (k : Nat) (st : Stream) (h : Head) : Touches [.params, .streams, .engines, .power] (evalHead k st h) := by
  unfold evalHead
  repeat' first
    | (with_reducible first
         | exact Touch.skip | exact Touch.read | exact (noteEligible_only ..).wider (by decide)
         | refine Touch.readThen fun _ => ?_ | refine Touch.andThen ?_ fun _ => ?_
         | refine Touch.onlyIf _ ?_ | refine Touch.cond ?_ ?_)
    | (with_reducible refine Touch.change fun _ => ?_); rfl

theorem noteGrant_only (e : Nat) (c : Cand) : Touches [.params, .engines] (noteGrant e c) := by
  unfold noteGrant
  repeat' first
    | (with_reducible first
         | exact Touch.read | exact (bump_only ..).wider (by decide) | exact (setEngine_only ..).wider (by decide) | exact (setPar_only ..).wider (by decide)
         | refine Touch.readThen fun _ => ?_ | refine Touch.andThen ?_ fun _ => ?_
         | refine Touch.onlyIf _ ?_ | refine Touch.cond ?_ ?_)

theorem dropForRecord_only (c : Cmd) (addr : Nat) : Touches [.params, .faultLog, .flashDue, .insts, .fltPending]
    (dropForRecord c addr) := by
  unfold dropForRecord
  repeat' first
    | (with_reducible first
         | exact Touch.read | exact (recordFault_only ..).wider (by decide) | exact (setInst_only ..).wider (by decide)
         | refine Touch.readThen fun _ => ?_ | refine Touch.andThen ?_ fun _ => ?_
         | refine Touch.onlyIf _ ?_)

theorem putRefs_only : Touches [.params] putRefs := by
  unfold putRefs
  repeat' first
    | (with_reducible first
         | exact Touch.read | exact (setPar_only ..).wider (by decide) | refine Touch.readThen fun _ => ?_
         | refine Touch.andThen ?_ fun _ => ?_ | refine Touch.onlyIf _ ?_ | refine Touch.each _ fun _ => ?_)

theorem takeRef_only (r : CodecRef) : Touches [.params, .codecRefs] (takeRef r) := by
  unfold takeRef
  repeat' first
    | (with_reducible first
         | exact (putRefs_only ..).wider (by decide) | refine Touch.andThen ?_ fun _ => ?_)
    | (with_reducible refine Touch.change fun _ => ?_); rfl

theorem dropRefs_only (e p ctx desc : Nat) : Touches [.params, .codecRefs] (dropRefs e p ctx desc) := by
  unfold dropRefs
  repeat' first
    | (with_reducible first
         | exact (putRefs_only ..).wider (by decide) | refine Touch.andThen ?_ fun _ => ?_)
    | (with_reducible refine Touch.change fun _ => ?_); rfl

theorem releaseRefs_only (c : Cmd) : Touches [.params, .codecRefs] (releaseRefs c) := by
  unfold releaseRefs
  repeat' first
    | (with_reducible first
         | exact (dropRefs_only ..).wider (by decide) | refine Touch.andThen ?_ fun _ => ?_ | refine Touch.onlyIf _ ?_)

theorem completeCmd_only (c : Cmd) : Touches [.mem, .poison, .ueFull, .ecc, .params, .rel, .win, .dieCopies, .codecRefs,
    .faultLog, .flashDue, .insts, .fltPending, .dead] (completeCmd c) := by
  unfold completeCmd
  repeat' first
    | (with_reducible first
         | exact Touch.skip | exact (signalCue_only ..).wider (by decide) | exact (releaseRefs_only ..).wider (by decide) | exact (setInst_only ..).wider (by decide)
         | refine Touch.andThen ?_ fun _ => ?_)
    | split

theorem saveParts_only (arm : Nat) (mine : Part → Bool) : Touches [.params, .engines] (saveParts arm mine) := by
  unfold saveParts
  repeat' first
    | (with_reducible first
         | exact Touch.skip | exact Touch.read | exact (setEngine_only ..).wider (by decide) | exact (bump_only ..).wider (by decide)
         | refine Touch.readThen fun _ => ?_ | refine Touch.andThen ?_ fun _ => ?_
         | refine Touch.cond ?_ ?_)

theorem saveWaits_only (arm : Nat) : Touches [.params, .engines] (saveWaits arm) := by
  unfold saveWaits
  repeat' first
    | (with_reducible first
         | exact (saveParts_only ..).wider (by decide))

theorem noteBadWait_only (e p d : Nat) : Touches [.params] (noteBadWait e p d) := by
  unfold noteBadWait
  repeat' first
    | (with_reducible first
         | exact Touch.read | exact (bump_only ..).wider (by decide) | refine Touch.readThen fun _ => ?_
         | refine Touch.andThen ?_ fun _ => ?_ | refine Touch.onlyIf _ ?_)

theorem startIssued_only (c : Cmd) : Touches [.params, .engines, .power] (startIssued c) := by
  unfold startIssued
  repeat' first
    | (with_reducible first
         | exact Touch.read | exact (noteBadWait_only ..).wider (by decide) | exact (bump_only ..).wider (by decide) | exact (setEngine_only ..).wider (by decide)
         | exact (noteEligible_only ..).wider (by decide) | exact (clampDesc_only ..).wider (by decide) | refine Touch.readThen fun _ => ?_
         | refine Touch.andThen ?_ fun _ => ?_ | refine Touch.onlyIf _ ?_)
    | split

theorem startCmd_only (c : Cmd) : Touches [.params, .streams, .engines, .power] (startCmd c) := by
  unfold startCmd
  repeat' first
    | (with_reducible first
         | exact (saveWaits_only ..).wider (by decide) | exact (startIssued_only ..).wider (by decide) | exact (noteGrant_only ..).wider (by decide)
         | refine Touch.andThen ?_ fun _ => ?_ | refine Touch.onlyIf _ ?_)
    | (with_reducible refine Touch.change fun _ => ?_); first | rfl | ((repeat' split) <;> rfl)

theorem unitsDone_only (arm n : Nat) : Touches [.engines] (unitsDone arm n) := by
  unfold unitsDone
  repeat' first
    | (with_reducible first
         | exact (setEngine_only ..).wider (by decide))

theorem endCmd_only (c : Cmd) (x : End) : Touches [.mem, .poison, .ueFull, .ecc, .params, .engines, .rel, .win, .dieCopies,
    .codecRefs, .faultLog, .flashDue, .insts, .fltPending, .dead] (endCmd c x) := by
  unfold endCmd
  repeat' first
    | (with_reducible first
         | exact Touch.skip | exact Touch.read | exact (setEngine_only ..).wider (by decide) | exact (completeCmd_only ..).wider (by decide)
         | exact (dropForRecord_only ..).wider (by decide) | refine Touch.readThen fun _ => ?_
         | refine Touch.andThen ?_ fun _ => ?_ | refine Touch.onlyIf _ ?_)
    | split

theorem endFirst_only (c : Cmd) (before : Nat) (x : End) : Touches [.mem, .poison, .ueFull, .ecc, .params, .engines, .rel,
    .win, .dieCopies, .codecRefs, .faultLog, .flashDue, .insts, .fltPending, .dead] (endFirst c before x) := by
  unfold endFirst
  repeat' first
    | (with_reducible first
         | exact Touch.read | exact (setEngine_only ..).wider (by decide) | exact (releaseRefs_only ..).wider (by decide) | exact (endCmd_only ..).wider (by decide)
         | refine Touch.readThen fun _ => ?_ | refine Touch.andThen ?_ fun _ => ?_
         | refine Touch.cond ?_ ?_)

theorem runCmd_only {l : List Piece} (hl : [.mem, .poison, .ueFull, .ecc, .params, .streams, .engines, .rel, .win,
    .dieCopies, .codecRefs, .faultLog, .flashDue, .insts, .fltPending, .dead, .power].all l.contains = true) (c : Cmd) (body : Cmd → M End) (hbody : ∀ x0, Touches l (body x0)) : Touches l (runCmd c body) := by
  unfold runCmd
  repeat' first
    | (with_reducible first
         | exact Touch.read | exact hbody .. | exact (startCmd_only ..).wider (wide_trans (by decide) hl) | exact (endFirst_only ..).wider (wide_trans (by decide) hl)
         | refine Touch.readThen fun _ => ?_ | refine Touch.andThen ?_ fun _ => ?_)

theorem markIssued_only (arm : Nat) : Touches [.params, .engines, .power] (markIssued arm) := by
  unfold markIssued
  repeat' first
    | (with_reducible first
         | exact Touch.read | exact (noteEligible_only ..).wider (by decide) | exact (setEngine_only ..).wider (by decide)
         | refine Touch.readThen fun _ => ?_ | refine Touch.andThen ?_ fun _ => ?_
         | refine Touch.onlyIf _ ?_ | refine Touch.cond ?_ ?_ | refine Touch.each _ fun _ => ?_)

theorem holdIssue_only (e op p d : Nat) (watch : Option Watch) (mark : Option (Nat × Nat)) (args : List Nat) : Touches
    [.params, .engines, .power] (holdIssue e op p d watch mark args) := by
  unfold holdIssue
  repeat' first
    | (with_reducible first
         | exact Touch.skip | exact Touch.read | exact (noteBadWait_only ..).wider (by decide) | exact (setEngine_only ..).wider (by decide)
         | exact (markIssued_only ..).wider (by decide) | refine Touch.readThen fun _ => ?_ | refine Touch.andThen ?_ fun _ => ?_
         | refine Touch.cond ?_ ?_)

/-! ## Kv -/

theorem refreshAvail_only (p : Nat) : Touches [.params] (refreshAvail p) := by
  unfold refreshAvail
  repeat' first
    | (with_reducible first
         | exact Touch.read | exact (setPar_only ..).wider (by decide) | refine Touch.readThen fun _ => ?_
         | refine Touch.andThen ?_ fun _ => ?_ | refine Touch.each _ fun _ => ?_)

theorem dropFrame_only (p stack f : Nat) : Touches [.frames] (dropFrame p stack f) := by
  unfold dropFrame
  repeat' first
    | (with_reducible first
         | refine Touch.andThen ?_ fun _ => ?_ | refine Touch.cond ?_ ?_)
    | (with_reducible refine Touch.change fun _ => ?_); rfl

theorem shareFrame_only (p stack f : Nat) : Touches [.frames] (shareFrame p stack f) := by
  unfold shareFrame
  repeat' first
    | (with_reducible first
         | refine Touch.andThen ?_ fun _ => ?_)
    | (with_reducible refine Touch.change fun _ => ?_); rfl

theorem writeReel_only (key i : Nat) (ws : List StackWord) : Touches [.mem, .poison, .ecc, .params, .dead] (writeReel key i
    ws) := by
  unfold writeReel
  repeat' first
    | (with_reducible first
         | exact Touch.skip | exact Touch.read | exact (storeVal_only ..).wider (by decide) | exact (store_only ..).wider (by decide)
         | refine Touch.readThen fun _ => ?_ | refine Touch.andThen ?_ fun _ => ?_
         | refine Touch.each _ fun _ => ?_)
    | split

theorem syncReels_only : Touches [.mem, .poison, .ecc, .params, .reelImage, .dead] syncReels := by
  unfold syncReels
  repeat' first
    | (with_reducible first
         | exact Touch.skip | exact Touch.read | exact (storeVal_only ..).wider (by decide) | exact (writeReel_only ..).wider (by decide)
         | refine Touch.readThen fun _ => ?_ | refine Touch.andThen ?_ fun _ => ?_
         | refine Touch.each _ fun _ => ?_)
    | (with_reducible refine Touch.change fun _ => ?_); rfl
    | split

theorem allocOn_only (p slate reel stack : Nat) : Touches [.params, .frames, .reels] (allocOn p slate reel stack) := by
  unfold allocOn
  repeat' first
    | (with_reducible first
         | exact Touch.skip | exact Touch.read | exact (bump_only ..).wider (by decide) | refine Touch.readThen fun _ => ?_
         | refine Touch.andThen ?_ fun _ => ?_ | refine Touch.cond ?_ ?_ | refine Touch.each _ fun _ => ?_)
    | (with_reducible refine Touch.change fun _ => ?_); rfl
    | split
    | dsimp only

theorem allocFrame_only (p slate j : Nat) : Touches [.params, .frames, .reels] (allocFrame p slate j) := by
  unfold allocFrame
  repeat' first
    | (with_reducible first
         | exact Touch.read | exact (allocOn_only ..).wider (by decide) | refine Touch.readThen fun _ => ?_
         | refine Touch.andThen ?_ fun _ => ?_ | refine Touch.onlyIf _ ?_ | refine Touch.each _ fun _ => ?_)

theorem releaseFrom_only (p slate j : Nat) : Touches [.frames, .reels] (releaseFrom p slate j) := by
  unfold releaseFrom
  repeat' first
    | (with_reducible first
         | exact Touch.read | exact (dropFrame_only ..).wider (by decide) | refine Touch.readThen fun _ => ?_
         | refine Touch.andThen ?_ fun _ => ?_ | refine Touch.onlyIf _ ?_ | refine Touch.cond ?_ ?_
         | refine Touch.each _ fun _ => ?_)
    | (with_reducible refine Touch.change fun _ => ?_); rfl

theorem releaseSeq_only (p slate : Nat) : Touches [.frames, .reels] (releaseSeq p slate) := by
  unfold releaseSeq
  repeat' first
    | (with_reducible first
         | exact (releaseFrom_only ..).wider (by decide) | refine Touch.andThen ?_ fun _ => ?_)
    | (with_reducible refine Touch.change fun _ => ?_); rfl

theorem holdLate_only (p slate ctx : Nat) : Touches [.reels, .insts] (holdLate p slate ctx) := by
  unfold holdLate
  repeat' first
    | (with_reducible first
         | exact Touch.read | exact (setInst_only ..).wider (by decide) | refine Touch.readThen fun _ => ?_
         | refine Touch.andThen ?_ fun _ => ?_)
    | (with_reducible refine Touch.change fun _ => ?_); rfl

theorem dropLate_only (p : Nat) (f : Nat × Nat) : Touches [.frames] (dropLate p f) := by
  unfold dropLate
  repeat' first
    | (with_reducible first
         | exact Touch.read | exact (dropFrame_only ..).wider (by decide) | refine Touch.readThen fun _ => ?_
         | refine Touch.andThen ?_ fun _ => ?_ | refine Touch.cond ?_ ?_)
    | (with_reducible refine Touch.change fun _ => ?_); rfl

theorem releaseLate_only (p : Nat) (fenced : State → Nat → Bool) : Touches [.frames, .insts] (releaseLate p fenced) := by
  unfold releaseLate
  repeat' first
    | (with_reducible first
         | exact Touch.read | exact (setInst_only ..).wider (by decide) | exact (dropLate_only ..).wider (by decide) | refine Touch.readThen fun _ => ?_
         | refine Touch.andThen ?_ fun _ => ?_ | refine Touch.each _ fun _ => ?_)

theorem readScales_only (p : Nat) : Touches [.poison, .ueFull, .ecc, .params, .rel, .win, .dieCopies, .faultLog, .flashDue,
    .kvScales, .kvBad, .fltPending] (readScales p) := by
  unfold readScales
  repeat' first
    | (with_reducible first
         | exact Touch.read | exact Touch.ret _ | exact (load_only ..).wider (by decide) | exact (clampDesc_only ..).wider (by decide)
         | exact (recordUe_only ..).wider (by decide) | refine Touch.readThen fun _ => ?_ | refine Touch.andThen ?_ fun _ => ?_
         | refine Touch.onlyIf _ ?_ | refine Touch.cond ?_ ?_ | refine Touch.collect _ fun _ => ?_)
    | (with_reducible refine Touch.change fun _ => ?_); rfl

theorem startKv_only (p : Nat) : Touches [.mem, .poison, .ueFull, .ecc, .params, .eff, .rel, .win, .dieCopies, .faultLog,
    .flashDue, .kvScales, .kvBad, .frames, .reels, .reelImage, .insts, .fltPending, .dead] (startKv p) := by
  unfold startKv
  repeat' first
    | (with_reducible first
         | exact Touch.skip | exact Touch.read | exact (par_only ..).wider (by decide) | exact (setEff_only ..).wider (by decide) | exact (setPar_only ..).wider (by decide)
         | exact (readScales_only ..).wider (by decide) | exact (setInst_only ..).wider (by decide) | exact (syncReels_only ..).wider (by decide) | exact (refreshAvail_only ..).wider (by decide)
         | refine Touch.readThen fun _ => ?_ | refine Touch.andThen ?_ fun _ => ?_
         | refine Touch.onlyIf _ ?_ | refine Touch.cond ?_ ?_ | refine Touch.each _ fun _ => ?_)
    | (with_reducible refine Touch.change fun _ => ?_); rfl

/-! ## Attention -/

theorem writeWalk_only (p step : Nat) (run : List Nat) : Touches [.mem, .poison, .ecc, .params, .dead] (writeWalk p step
    run) := by
  unfold writeWalk
  repeat' first
    | (with_reducible first
         | exact Touch.read | exact (store_only ..).wider (by decide) | refine Touch.readThen fun _ => ?_
         | refine Touch.andThen ?_ fun _ => ?_ | refine Touch.each _ fun _ => ?_)

theorem readSlot_only (w : Who) (g : Geom) (a : Nat) : Touches [.poison, .ueFull, .ecc, .params, .rel, .win, .dieCopies,
    .faultLog, .flashDue, .fltPending] (readSlot w g a) := by
  unfold readSlot
  repeat' first
    | (with_reducible first
         | exact Touch.ret _ | exact (load_only ..).wider (by decide) | refine Touch.andThen ?_ fun _ => ?_
         | refine Touch.cond ?_ ?_)

theorem openSeq_only (w : Who) (g : Geom) (q : Pool) (d : Nat) : Touches [.poison, .ueFull, .ecc, .params, .rel, .win,
    .dieCopies, .faultLog, .flashDue, .fltPending] (openSeq w g q d) := by
  unfold openSeq
  repeat' first
    | (with_reducible first
         | exact Touch.ret _ | exact (load_only ..).wider (by decide) | refine Touch.andThen ?_ fun _ => ?_
         | refine Touch.collect _ fun _ => ?_)

theorem appendKv_only (w : Who) (g : Geom) (q : Pool) (d frame : Nat) : Touches [.mem, .poison, .ueFull, .ecc, .params,
    .rel, .win, .dieCopies, .faultLog, .flashDue, .fltPending, .dead] (appendKv w g q d frame) := by
  unfold appendKv
  repeat' first
    | (with_reducible first
         | exact Touch.ret _ | exact (load_only ..).wider (by decide) | exact (store_only ..).wider (by decide) | exact (storePoison_only ..).wider (by decide)
         | refine Touch.andThen ?_ fun _ => ?_ | refine Touch.cond ?_ ?_ | refine Touch.each _ fun _ => ?_
         | refine Touch.foldState _ _ fun _ _ => ?_)

theorem frameStep_only (w : Who) (g : Geom) (kt frame d : Nat) (o : OpenSeq) : Touches [.poison, .ueFull, .ecc, .params,
    .rel, .win, .dieCopies, .faultLog, .flashDue, .fltPending] (frameStep w g kt frame d o) := by
  unfold frameStep
  repeat' first
    | (with_reducible first
         | exact Touch.ret _ | exact (readSlot_only ..).wider (by decide) | refine Touch.andThen ?_ fun _ => ?_
         | refine Touch.cond ?_ ?_ | refine Touch.collect _ fun _ => ?_)

theorem closeSeq_only (c : Cmd) (g : Geom) (q : Pool) (tv stack layer : Nat) (bad : Bool) (o : OpenSeq) : Touches [.mem,
    .poison, .ecc, .params, .dead] (closeSeq c g q tv stack layer bad o) := by
  unfold closeSeq
  repeat' first
    | (with_reducible first
         | exact Touch.read | exact (store_only ..).wider (by decide) | refine Touch.readThen fun _ => ?_
         | refine Touch.andThen ?_ fun _ => ?_ | refine Touch.each _ fun _ => ?_)

theorem walkStep_only (c : Cmd) (g : Geom) (q : Pool) (stack layer : Nat) (bad : Bool) (d : Nat) (w : Walk) : Touches
    [.mem, .poison, .ueFull, .ecc, .params, .rel, .win, .dieCopies, .faultLog, .flashDue, .fltPending, .dead] (walkStep c g q stack layer bad d w) := by
  unfold walkStep
  repeat' first
    | (with_reducible first
         | exact Touch.read | exact Touch.ret _ | exact (bump_only ..).wider (by decide) | exact (openSeq_only ..).wider (by decide)
         | exact (appendKv_only ..).wider (by decide) | exact (frameStep_only ..).wider (by decide) | exact (closeSeq_only ..).wider (by decide)
         | refine Touch.readThen fun _ => ?_ | refine Touch.andThen ?_ fun _ => ?_
         | refine Touch.cond ?_ ?_)
    | split
    | dsimp only

theorem bodyAttend_only (c : Cmd) : Touches [.mem, .poison, .ueFull, .ecc, .params, .rel, .win, .dieCopies, .faultLog,
    .flashDue, .fltPending, .dead] (bodyAttend c) := by
  unfold bodyAttend
  repeat' first
    | (with_reducible first
         | exact Touch.read | exact Touch.ret _ | exact (clampDesc_only ..).wider (by decide) | exact (load_only ..).wider (by decide)
         | exact (walkStep_only ..).wider (by decide) | exact (closeSeq_only ..).wider (by decide) | refine Touch.readThen fun _ => ?_
         | refine Touch.andThen ?_ fun _ => ?_ | refine Touch.each _ fun _ => ?_
         | refine Touch.collect _ fun _ => ?_ | refine Touch.foldState _ _ fun _ _ => ?_)

theorem readList_only (c : Cmd) : Touches [.poison, .ueFull, .ecc, .params, .rel, .win, .dieCopies, .faultLog, .flashDue,
    .fltPending] (readList c) := by
  unfold readList
  repeat' first
    | (with_reducible first
         | exact Touch.ret _ | exact (load_only ..).wider (by decide) | refine Touch.andThen ?_ fun _ => ?_
         | refine Touch.collect _ fun _ => ?_)

theorem clampLayer_only (p field : Nat) : Touches [.params] (clampLayer p field) := by
  unfold clampLayer
  repeat' first
    | (with_reducible first
         | exact Touch.read | exact Touch.ret _ | exact (clampDesc_only ..).wider (by decide)
         | refine Touch.readThen fun _ => ?_ | refine Touch.andThen ?_ fun _ => ?_)

theorem attnCue_only (p : Nat) (feed : Bool) : Touches [.mem, .poison, .ueFull, .ecc, .params, .rel, .win, .dieCopies,
    .faultLog, .flashDue, .fltPending, .dead] (attnCue p feed) := by
  unfold attnCue
  repeat' first
    | (with_reducible first
         | exact Touch.read | exact (signalCue_only ..).wider (by decide) | refine Touch.readThen fun _ => ?_)

theorem forwarded_only (c : Cmd) (a dest : Nat) (r : Read) (n : Nat) : Touches [.params, .faultLog, .flashDue, .subs,
    .hostPorts, .fltPending, .out] (forwarded c a dest r n) := by
  unfold forwarded
  repeat' first
    | (with_reducible first
         | exact Touch.read | exact Touch.ret _ | exact (recordFault_only ..).wider (by decide) | exact (raiseEvent_only ..).wider (by decide)
         | exact (bump_only ..).wider (by decide) | refine Touch.readThen fun _ => ?_ | refine Touch.andThen ?_ fun _ => ?_
         | refine Touch.cond ?_ ?_)

theorem markPoisoned_only (p slate : Nat) : Touches [.insts] (markPoisoned p slate) := by
  unfold markPoisoned
  repeat' first
    | (with_reducible first
         | exact (setInst_only ..).wider (by decide))

theorem bodyAttnFeed_only (c : Cmd) : Touches [.mem, .poison, .ueFull, .ecc, .params, .rel, .win, .dieCopies, .faultLog,
    .flashDue, .subs, .hostPorts, .insts, .fltPending, .dead, .out] (bodyAttnFeed c) := by
  unfold bodyAttnFeed
  repeat' first
    | (with_reducible first
         | exact Touch.read | exact Touch.ret _ | exact (clampLayer_only ..).wider (by decide) | exact (readList_only ..).wider (by decide)
         | exact (markPoisoned_only ..).wider (by decide) | exact (load_only ..).wider (by decide) | exact (store_only ..).wider (by decide) | exact (storePoison_only ..).wider (by decide)
         | exact (forwarded_only ..).wider (by decide) | exact (emit_only ..).wider (by decide) | exact (attnCue_only ..).wider (by decide) | refine Touch.readThen fun _ => ?_
         | refine Touch.andThen ?_ fun _ => ?_ | refine Touch.onlyIf _ ?_ | refine Touch.cond ?_ ?_
         | refine Touch.each _ fun _ => ?_ | refine Touch.collect _ fun _ => ?_)

theorem bodyAttnReturn_only (c : Cmd) : Touches [.mem, .poison, .ueFull, .ecc, .params, .rel, .win, .dieCopies, .faultLog,
    .flashDue, .fltPending, .dead, .out] (bodyAttnReturn c) := by
  unfold bodyAttnReturn
  repeat' first
    | (with_reducible first
         | exact Touch.read | exact Touch.ret _ | exact (clampLayer_only ..).wider (by decide) | exact (readList_only ..).wider (by decide)
         | exact (load_only ..).wider (by decide) | exact (emit_only ..).wider (by decide) | exact (attnCue_only ..).wider (by decide) | refine Touch.readThen fun _ => ?_
         | refine Touch.andThen ?_ fun _ => ?_ | refine Touch.cond ?_ ?_ | refine Touch.each _ fun _ => ?_
         | refine Touch.collect _ fun _ => ?_)

theorem readPartials_only (c : Cmd) (g : Geom) (e i q : Nat) : Touches [.poison, .ueFull, .ecc, .params, .rel, .win,
    .dieCopies, .faultLog, .flashDue, .fltPending] (readPartials c g e i q) := by
  unfold readPartials
  repeat' first
    | (with_reducible first
         | exact Touch.read | exact (load_only ..).wider (by decide) | refine Touch.readThen fun _ => ?_
         | refine Touch.andThen ?_ fun _ => ?_ | refine Touch.cond ?_ ?_ | refine Touch.collect _ fun _ => ?_)

theorem mergeEntry_only (c : Cmd) (g : Geom) (oOp : Operand) (first count e : Nat) (lost : Bool) (row : Nat) : Touches
    [.mem, .poison, .ueFull, .ecc, .params, .rel, .win, .dieCopies, .faultLog, .flashDue, .insts, .fltPending, .dead] (mergeEntry c g oOp first count e lost row) := by
  unfold mergeEntry
  repeat' first
    | (with_reducible first
         | exact Touch.ret _ | exact (readPartials_only ..).wider (by decide) | exact (markPoisoned_only ..).wider (by decide) | exact (bump_only ..).wider (by decide)
         | exact (writeOutputs_only ..).wider (by decide) | refine Touch.andThen ?_ fun _ => ?_ | refine Touch.onlyIf _ ?_
         | refine Touch.cond ?_ ?_ | refine Touch.each _ fun _ => ?_ | refine Touch.collect _ fun _ => ?_)

theorem noteMerged_only (p layer code : Nat) : Touches [.insts] (noteMerged p layer code) := by
  unfold noteMerged
  repeat' first
    | (with_reducible first
         | exact (setInst_only ..).wider (by decide))

theorem reMerge_only (c : Cmd) (k : Nat) (es : List (Nat × Bool)) : Touches [.mem, .poison, .ueFull, .ecc, .params, .rel,
    .win, .dieCopies, .faultLog, .flashDue, .insts, .fltPending, .dead] (reMerge c k es) := by
  unfold reMerge
  repeat' first
    | (with_reducible first
         | exact Touch.skip | exact Touch.read | exact Touch.ret _ | exact (mergeEntry_only ..).wider (by decide)
         | refine Touch.readThen fun _ => ?_ | refine Touch.andThen ?_ fun _ => ?_
         | refine Touch.each _ fun _ => ?_)
    | split

theorem bodyAttnMerge_only (c : Cmd) : Touches [.mem, .poison, .ueFull, .ecc, .params, .rel, .win, .dieCopies, .faultLog,
    .flashDue, .insts, .fltPending, .dead] (bodyAttnMerge c) := by
  unfold bodyAttnMerge
  repeat' first
    | (with_reducible first
         | exact Touch.read | exact Touch.ret _ | exact (clampLayer_only ..).wider (by decide) | exact (readList_only ..).wider (by decide)
         | exact (reMerge_only ..).wider (by decide) | exact (readCoded_only ..).wider (by decide) | exact (noteMerged_only ..).wider (by decide) | exact (mergeEntry_only ..).wider (by decide)
         | refine Touch.readThen fun _ => ?_ | refine Touch.andThen ?_ fun _ => ?_
         | refine Touch.cond ?_ ?_ | refine Touch.each _ fun _ => ?_)
    | split

theorem attnReceive_only (b : AttnBatch) : Touches [.mem, .poison, .ueFull, .ecc, .params, .rel, .win, .dieCopies,
    .faultLog, .flashDue, .fltPending, .dead, .life, .elo] (attnReceive b) := by
  unfold attnReceive
  repeat' first
    | (with_reducible first
         | exact Touch.read | exact (store_only ..).wider (by decide) | exact (attnCue_only ..).wider (by decide) | exact (bump_only ..).wider (by decide)
         | refine Touch.readThen fun _ => ?_ | refine Touch.andThen ?_ fun _ => ?_
         | refine Touch.cond ?_ ?_ | refine Touch.each _ fun _ => ?_)

/-! ## Transmit -/

theorem setLinkGroup_only (g : Nat) (f : LinkGroup → LinkGroup) : Touches [.links] (setLinkGroup g f) := by
  unfold setLinkGroup
  repeat' first
    | (with_reducible first
         | refine Touch.andThen ?_ fun _ => ?_)
    | (with_reducible refine Touch.change fun _ => ?_); rfl

theorem sendWord_only (g : Nat) (flits : List (List Nat)) : Touches [.links, .out] (sendWord g flits) := by
  unfold sendWord
  repeat' first
    | (with_reducible first
         | exact Touch.read | exact (emit_only ..).wider (by decide) | exact (setLinkGroup_only ..).wider (by decide)
         | refine Touch.readThen fun _ => ?_ | refine Touch.andThen ?_ fun _ => ?_)

theorem sendMarker_only (g n : Nat) : Touches [.out] (sendMarker g n) := by
  unfold sendMarker
  repeat' first
    | (with_reducible first
         | exact (emit_only ..).wider (by decide))

theorem emitFlit_only (g : Nat) (bytes : List Nat) : Touches [.links, .out] (emitFlit g bytes) := by
  unfold emitFlit
  repeat' first
    | (with_reducible first
         | exact Touch.read | exact (emit_only ..).wider (by decide) | exact (setLinkGroup_only ..).wider (by decide) | exact (sendWord_only ..).wider (by decide)
         | refine Touch.readThen fun _ => ?_ | refine Touch.andThen ?_ fun _ => ?_
         | refine Touch.cond ?_ ?_)

theorem fillWord_only (g : Nat) : Touches [.links, .out] (fillWord g) := by
  unfold fillWord
  repeat' first
    | (with_reducible first
         | exact Touch.skip | exact Touch.read | exact (sendWord_only ..).wider (by decide) | refine Touch.readThen fun _ => ?_
         | refine Touch.andThen ?_ fun _ => ?_ | refine Touch.cond ?_ ?_)

theorem sendControl_only (g op lane at' : Nat) : Touches [.slots, .links, .out] (sendControl g op lane at') := by
  unfold sendControl
  repeat' first
    | (with_reducible first
         | exact Touch.read | exact (setLinkGroup_only ..).wider (by decide) | exact (emitFlit_only ..).wider (by decide)
         | refine Touch.readThen fun _ => ?_ | refine Touch.andThen ?_ fun _ => ?_)

theorem sendFlit_only (g : Nat) (bytes : List Nat) : Touches [.slots, .links, .out] (sendFlit g bytes) := by
  unfold sendFlit
  repeat' first
    | (with_reducible first
         | exact Touch.read | exact (emitFlit_only ..).wider (by decide) | exact (setLinkGroup_only ..).wider (by decide) | exact (sendControl_only ..).wider (by decide)
         | refine Touch.readThen fun _ => ?_ | refine Touch.andThen ?_ fun _ => ?_
         | refine Touch.onlyIf _ ?_)

theorem pump_only (g : Nat) (x0 : Nat) : Touches [.slots, .links, .out] (pump g x0) := by
  induction x0 with
  | zero =>
    unfold pump
    repeat' first
      | (with_reducible first
           | exact Touch.skip)
  | succ n ih =>
    unfold pump
    repeat' first
      | (with_reducible first
           | exact ih .. | exact Touch.skip | exact Touch.read | exact (setLinkGroup_only ..).wider (by decide)
           | exact (sendFlit_only ..).wider (by decide) | refine Touch.readThen fun _ => ?_ | refine Touch.andThen ?_ fun _ => ?_
           | refine Touch.onlyIf _ ?_ | refine Touch.cond ?_ ?_)
      | split
      | dsimp only

theorem queuePacket_only (g ch : Nat) (bytes : List Nat) : Touches [.slots, .links, .out] (queuePacket g ch bytes) := by
  unfold queuePacket
  repeat' first
    | (with_reducible first
         | exact (setLinkGroup_only ..).wider (by decide) | exact (pump_only ..).wider (by decide) | refine Touch.andThen ?_ fun _ => ?_)

theorem sendOver_only (ch node : Nat) (bytes : List Nat) (but : Option Nat) : Touches [.slots, .links, .spray, .out]
    (sendOver ch node bytes but) := by
  unfold sendOver
  repeat' first
    | (with_reducible first
         | exact Touch.read | exact Touch.ret _ | exact (queuePacket_only ..).wider (by decide)
         | refine Touch.readThen fun _ => ?_ | refine Touch.andThen ?_ fun _ => ?_
         | refine Touch.cond ?_ ?_)
    | (with_reducible refine Touch.change fun _ => ?_); rfl

theorem sendPacket_only (ch node : Nat) (bytes : List Nat) : Touches [.slots, .links, .spray, .out] (sendPacket ch node
    bytes) := by
  unfold sendPacket
  repeat' first
    | (with_reducible first
         | exact Touch.skip | exact (sendOver_only ..).wider (by decide) | refine Touch.andThen ?_ fun _ => ?_)

theorem sendAbort_only (x : Xfer) : Touches [.slots, .links, .spray, .out] (sendAbort x) := by
  unfold sendAbort
  repeat' first
    | (with_reducible first
         | exact Touch.skip | exact Touch.read | exact (sendOver_only ..).wider (by decide) | refine Touch.readThen fun _ => ?_
         | refine Touch.andThen ?_ fun _ => ?_)

theorem sendNotice_only (code node mask : Nat) : Touches [.params, .slots, .subs, .hostPorts, .fltPending, .links, .spray,
    .out] (sendNotice code node mask) := by
  unfold sendNotice
  repeat' first
    | (with_reducible first
         | exact Touch.read | exact (sendPacket_only ..).wider (by decide) | exact (raiseEvent_only ..).wider (by decide)
         | refine Touch.readThen fun _ => ?_ | refine Touch.andThen ?_ fun _ => ?_
         | refine Touch.each _ fun _ => ?_)

theorem setLinkStates_only (gs : List Nat) (st : Nat) : Touches [.params, .slots, .subs, .hostPorts, .fltPending, .links,
    .spray, .life, .out] (setLinkStates gs st) := by
  unfold setLinkStates
  repeat' first
    | (with_reducible first
         | exact Touch.read | exact (setPar_only ..).wider (by decide) | exact (sendNotice_only ..).wider (by decide)
         | refine Touch.readThen fun _ => ?_ | refine Touch.andThen ?_ fun _ => ?_
         | refine Touch.onlyIf _ ?_ | refine Touch.each _ fun _ => ?_)
    | (with_reducible refine Touch.change fun _ => ?_); rfl

theorem setLinkState_only (g st : Nat) : Touches [.params, .slots, .subs, .hostPorts, .fltPending, .links, .spray, .life,
    .out] (setLinkState g st) := by
  unfold setLinkState
  repeat' first
    | (with_reducible first
         | exact (setLinkStates_only ..).wider (by decide))

theorem quietLinks_only (off : Bool) : Touches [.params, .slots, .subs, .hostPorts, .fltPending, .links, .spray, .life,
    .out] (quietLinks off) := by
  unfold quietLinks
  repeat' first
    | (with_reducible first
         | exact Touch.read | exact (setLinkStates_only ..).wider (by decide) | refine Touch.readThen fun _ => ?_
         | refine Touch.andThen ?_ fun _ => ?_ | refine Touch.cond ?_ ?_)

/-! ## Faults -/

theorem setMode_only (m : ModuleState) : Touches [.mode, .params, .subs, .hostPorts, .fltPending, .life, .elo, .out]
    (setMode m) := by
  unfold setMode
  repeat' first
    | (with_reducible first
         | exact Touch.skip | exact Touch.read | exact (setPar_only ..).wider (by decide) | exact (raiseEvent_only ..).wider (by decide)
         | refine Touch.readThen fun _ => ?_ | refine Touch.andThen ?_ fun _ => ?_
         | refine Touch.cond ?_ ?_)
    | (with_reducible refine Touch.change fun _ => ?_); first | rfl | (cases m <;> rfl)

theorem noteFailed_only (kind phys : Nat) : Touches [.params, .retired] (noteFailed kind phys) := by
  unfold noteFailed
  repeat' first
    | (with_reducible first
         | exact (bump_only ..).wider (by decide) | refine Touch.andThen ?_ fun _ => ?_ | refine Touch.cond ?_ ?_)
    | (with_reducible refine Touch.change fun _ => ?_); rfl

theorem dropCount_only (sub kind : Nat) : Touches [.params, .slots, .subs, .hostPorts, .fltPending, .links, .spray, .out]
    (dropCount sub kind) := by
  unfold dropCount
  repeat' first
    | (with_reducible first
         | exact Touch.read | exact (setPar_only ..).wider (by decide) | exact (sendNotice_only ..).wider (by decide)
         | refine Touch.readThen fun _ => ?_ | refine Touch.andThen ?_ fun _ => ?_)
    | (with_reducible refine Touch.change fun _ => ?_); first | rfl | exact (State.pend_only ..).wider (by decide)

theorem reportBlock_only (e err occ : Nat) : Touches [.engines] (reportBlock e err occ) := by
  unfold reportBlock
  repeat' first
    | (with_reducible first
         | exact (setEngine_only ..).wider (by decide))

theorem pauseCopies_only (on : Bool) : Touches [.dieCopies] (pauseCopies on) := by
  unfold pauseCopies
  repeat' first
    | (with_reducible first
         | refine Touch.andThen ?_ fun _ => ?_)
    | (with_reducible refine Touch.change fun _ => ?_); rfl

theorem cellFails_only (e cell err occ : Nat) : Touches [.params, .engines, .retired, .faultLog, .flashDue, .fltPending]
    (cellFails e cell err occ) := by
  unfold cellFails
  repeat' first
    | (with_reducible first
         | exact Touch.skip | exact Touch.read | exact (noteFailed_only ..).wider (by decide) | exact (recordFault_only ..).wider (by decide)
         | exact (setEngine_only ..).wider (by decide) | exact (reportBlock_only ..).wider (by decide) | refine Touch.readThen fun _ => ?_
         | refine Touch.andThen ?_ fun _ => ?_ | refine Touch.onlyIf _ ?_ | refine Touch.cond ?_ ?_)

theorem spareCellJoin_only (e : Nat) : Touches [.params, .engines, .phys, .faultLog, .flashDue, .fltPending] (spareCellJoin
    e) := by
  unfold spareCellJoin
  repeat' first
    | (with_reducible first
         | exact Touch.skip | exact Touch.read | exact (setPar_only ..).wider (by decide) | exact (bump_only ..).wider (by decide)
         | exact (setEngine_only ..).wider (by decide) | exact (recordFault_only ..).wider (by decide) | refine Touch.readThen fun _ => ?_
         | refine Touch.andThen ?_ fun _ => ?_ | refine Touch.cond ?_ ?_)
    | (with_reducible refine Touch.change fun _ => ?_); rfl
    | split

theorem coreFails_only (stack core err detail : Nat) : Touches [.params, .phys, .retired, .slots, .faultLog, .flashDue,
    .subs, .hostPorts, .fltPending, .links, .spray, .out] (coreFails stack core err detail) := by
  unfold coreFails
  repeat' first
    | (with_reducible first
         | exact Touch.read | exact (noteFailed_only ..).wider (by decide) | exact (recordFault_only ..).wider (by decide) | exact (setPar_only ..).wider (by decide)
         | exact (bump_only ..).wider (by decide) | exact (dropCount_only ..).wider (by decide) | refine Touch.readThen fun _ => ?_
         | refine Touch.andThen ?_ fun _ => ?_ | refine Touch.cond ?_ ?_)
    | (with_reducible refine Touch.change fun _ => ?_); rfl

theorem dumpEngine_only (e : Nat) : Touches [.engineDumps] (dumpEngine e) := by
  unfold dumpEngine
  repeat' first
    | (with_reducible first
         | refine Touch.andThen ?_ fun _ => ?_ | refine Touch.cond ?_ ?_)
    | (with_reducible refine Touch.change fun _ => ?_); rfl

theorem startDump_only (reason fault mode : Nat) : Touches [.params, .dumpRun] (startDump reason fault mode) := by
  unfold startDump
  repeat' first
    | (with_reducible first
         | exact Touch.read | exact (setPar_only ..).wider (by decide) | refine Touch.readThen fun _ => ?_
         | refine Touch.andThen ?_ fun _ => ?_)
    | (with_reducible refine Touch.change fun _ => ?_); rfl

theorem completeDump_only (late : List Nat) : Touches [.params, .subs, .hostPorts, .fltPending, .dumps, .dumpRun,
    .dumpSummary, .out] (completeDump late) := by
  unfold completeDump
  repeat' first
    | (with_reducible first
         | exact Touch.skip | exact Touch.read | exact (setPar_only ..).wider (by decide) | exact (raiseEvent_only ..).wider (by decide)
         | refine Touch.readThen fun _ => ?_ | refine Touch.andThen ?_ fun _ => ?_)
    | (with_reducible refine Touch.change fun _ => ?_); rfl
    | split

theorem setPower_only (f : PowerSt → PowerSt) : Touches [.power] (setPower f) := by
  unfold setPower
  repeat' first
    | (with_reducible first
         | refine Touch.andThen ?_ fun _ => ?_)
    | (with_reducible refine Touch.change fun _ => ?_); rfl

theorem setPennant_only (n : Nat) (q : Pennant) : Touches [.power] (setPennant n q) := by
  unfold setPennant
  repeat' first
    | (with_reducible first
         | exact (setPower_only ..).wider (by decide))

theorem accruePennant_only (n : Nat) : Touches [.params, .power] (accruePennant n) := by
  unfold accruePennant
  repeat' first
    | (with_reducible first
         | exact Touch.skip | exact Touch.read | exact (bump_only ..).wider (by decide) | exact (setPennant_only ..).wider (by decide)
         | refine Touch.readThen fun _ => ?_ | refine Touch.andThen ?_ fun _ => ?_
         | refine Touch.cond ?_ ?_)
    | split
    | dsimp only

theorem quietPower_only : Touches [.params, .power] quietPower := by
  unfold quietPower
  repeat' first
    | (with_reducible first
         | exact Touch.read | exact (setPar_only ..).wider (by decide) | exact (setPower_only ..).wider (by decide) | exact (accruePennant_only ..).wider (by decide)
         | exact (setPennant_only ..).wider (by decide) | refine Touch.readThen fun _ => ?_ | refine Touch.andThen ?_ fun _ => ?_
         | refine Touch.onlyIf _ ?_ | refine Touch.each _ fun _ => ?_)

theorem moduleFatal_only (r : FaultRec) : Touches [.mode, .params, .engines, .slots, .faultLog, .flashDue, .subs,
    .hostPorts, .fltPending, .dumpRun, .links, .spray, .power, .life, .elo, .out] (moduleFatal r) := by
  unfold moduleFatal
  repeat' first
    | (with_reducible first
         | exact Touch.skip | exact Touch.read | exact (recordFault_only ..).wider (by decide) | exact (sendNotice_only ..).wider (by decide)
         | exact (sendMsix_only ..).wider (by decide) | exact (raiseEvent_only ..).wider (by decide) | exact (startDump_only ..).wider (by decide) | exact (quietLinks_only ..).wider (by decide)
         | exact (setPar_only ..).wider (by decide) | exact (quietPower_only ..).wider (by decide) | exact (setMode_only ..).wider (by decide)
         | refine Touch.readThen fun _ => ?_ | refine Touch.andThen ?_ fun _ => ?_
         | refine Touch.onlyIf _ ?_ | refine Touch.cond ?_ ?_ | refine Touch.each _ fun _ => ?_)
    | (with_reducible refine Touch.change fun _ => ?_); rfl

theorem moveParts_only (e dst' : Nat) : Touches [.engines] (moveParts e dst') := by
  unfold moveParts
  repeat' first
    | (with_reducible first
         | exact Touch.read | exact (setEngine_only ..).wider (by decide) | refine Touch.readThen fun _ => ?_
         | refine Touch.andThen ?_ fun _ => ?_ | refine Touch.onlyIf _ ?_ | refine Touch.each _ fun _ => ?_)

theorem retireEngine_only (e err occ : Nat) : Touches [.mode, .params, .engines, .retired, .slots, .faultLog, .flashDue,
    .subs, .hostPorts, .fltPending, .dumpRun, .links, .spray, .power, .life, .elo, .out] (retireEngine e err occ) := by
  unfold retireEngine
  repeat' first
    | (with_reducible first
         | exact Touch.skip | exact Touch.read | exact (noteFailed_only ..).wider (by decide) | exact (setEngine_only ..).wider (by decide)
         | exact (moduleFatal_only ..).wider (by decide) | exact (recordFault_only ..).wider (by decide) | exact (moveParts_only ..).wider (by decide) | exact (dropCount_only ..).wider (by decide)
         | refine Touch.readThen fun _ => ?_ | refine Touch.andThen ?_ fun _ => ?_
         | refine Touch.cond ?_ ?_)
    | split

theorem returnPasses_only (w : Who) (list : Nat) (x0 : List Nat) : Touches [.mem, .poison, .ueFull, .ecc, .params, .rel,
    .win, .dieCopies, .faultLog, .flashDue, .fltPending, .dead] (returnPasses w list x0) := by
  induction x0 with
  | nil =>
    unfold returnPasses
    repeat' first
      | (with_reducible first
           | exact Touch.ret _)
  | cons y l ih =>
    unfold returnPasses
    repeat' first
      | (with_reducible first
           | exact ih .. | exact Touch.ret _ | exact (load_only ..).wider (by decide) | exact (storeVal_only ..).wider (by decide) | exact (bump_only ..).wider (by decide)
           | refine Touch.andThen ?_ fun _ => ?_)
      | split

theorem dropAtReset_only (e p ctx desc index : Nat) : Touches [.params, .codecRefs, .subs, .hostPorts, .fltPending, .out]
    (dropAtReset e p ctx desc index) := by
  unfold dropAtReset
  repeat' first
    | (with_reducible first
         | exact (raiseEvent_only ..).wider (by decide) | exact (dropRefs_only ..).wider (by decide) | refine Touch.andThen ?_ fun _ => ?_)

theorem dropHead_only (p ctx e : Nat) : Touches [.streams] (dropHead p ctx e) := by
  unfold dropHead
  repeat' first
    | (with_reducible first
         | refine Touch.andThen ?_ fun _ => ?_)
    | (with_reducible refine Touch.change fun _ => ?_); first | rfl | ((repeat' split) <;> rfl)

theorem againOrBroken_only (p : Nat) : Touches [.insts] (againOrBroken p) := by
  unfold againOrBroken
  repeat' first
    | (with_reducible first
         | exact (setInst_only ..).wider (by decide))

theorem blockFailure_only (e : Nat) (claimed : List Nat) : Touches [.mode, .mem, .poison, .ueFull, .ecc, .params, .streams,
    .engines, .phys, .rel, .win, .retired, .dieCopies, .slots, .codecRefs, .faultLog, .flashDue, .subs, .hostPorts, .insts, .fltPending, .dead, .dumpRun, .links, .spray, .power, .life, .elo, .out] (blockFailure e claimed) := by
  unfold blockFailure
  repeat' first
    | (with_reducible first
         | exact Touch.skip | exact Touch.read | exact (noteFailed_only ..).wider (by decide) | exact (setPar_only ..).wider (by decide)
         | exact (bump_only ..).wider (by decide) | exact (setEngine_only ..).wider (by decide) | exact (recordFault_only ..).wider (by decide) | exact (retireEngine_only ..).wider (by decide)
         | exact (returnPasses_only ..).wider (by decide) | exact (signalCue_only ..).wider (by decide) | exact (dropAtReset_only ..).wider (by decide) | exact (againOrBroken_only ..).wider (by decide)
         | exact (dropHead_only ..).wider (by decide) | refine Touch.readThen fun _ => ?_ | refine Touch.andThen ?_ fun _ => ?_
         | refine Touch.onlyIf _ ?_ | refine Touch.cond ?_ ?_)
    | (with_reducible refine Touch.change fun _ => ?_); rfl
    | split

theorem abortXfers_only (e : Nat) (dropped : Option (Nat × Nat)) : Touches [.slots, .links, .xfers, .xferWait, .spray,
    .out] (abortXfers e dropped) := by
  unfold abortXfers
  repeat' first
    | (with_reducible first
         | exact Touch.read | exact (sendAbort_only ..).wider (by decide) | refine Touch.readThen fun _ => ?_
         | refine Touch.andThen ?_ fun _ => ?_ | refine Touch.cond ?_ ?_ | refine Touch.each _ fun _ => ?_)
    | (with_reducible refine Touch.change fun _ => ?_); rfl

theorem startReset_only (e cause : Nat) (lost : Option (Nat × Nat)) (sub detail : Nat) : Touches [.params, .engines, .win,
    .slots, .faultLog, .flashDue, .fltPending, .engineDumps, .links, .xfers, .xferWait, .spray, .out] (startReset e cause lost sub detail) := by
  unfold startReset
  repeat' first
    | (with_reducible first
         | exact Touch.skip | exact Touch.read | exact (dumpEngine_only ..).wider (by decide) | exact (abortXfers_only ..).wider (by decide)
         | exact (windowAdd_only ..).wider (by decide) | exact (setEngine_only ..).wider (by decide) | exact (recordFault_only ..).wider (by decide) | exact (bump_only ..).wider (by decide)
         | refine Touch.readThen fun _ => ?_ | refine Touch.andThen ?_ fun _ => ?_
         | refine Touch.cond ?_ ?_)

theorem endReset_only (e : Nat) : Touches [.mode, .params, .streams, .engines, .retired, .slots, .codecRefs, .faultLog,
    .flashDue, .subs, .hostPorts, .insts, .fltPending, .dumpRun, .links, .spray, .power, .life, .elo, .out] (endReset e) := by
  unfold endReset
  repeat' first
    | (with_reducible first
         | exact Touch.skip | exact Touch.read | exact (dropAtReset_only ..).wider (by decide) | exact (dropHead_only ..).wider (by decide)
         | exact (againOrBroken_only ..).wider (by decide) | exact (raiseEvent_only ..).wider (by decide) | exact (setEngine_only ..).wider (by decide) | exact (reportBlock_only ..).wider (by decide)
         | exact (retireEngine_only ..).wider (by decide) | refine Touch.readThen fun _ => ?_ | refine Touch.andThen ?_ fun _ => ?_
         | refine Touch.onlyIf _ ?_ | refine Touch.cond ?_ ?_ | refine Touch.each _ fun _ => ?_)
    | split

theorem resetOverrun_only (e : Nat) (fails : Bool) : Touches [.mode, .params, .engines, .slots, .faultLog, .flashDue,
    .subs, .hostPorts, .fltPending, .dumpRun, .links, .spray, .power, .life, .elo, .out] (resetOverrun e fails) := by
  unfold resetOverrun
  repeat' first
    | (with_reducible first
         | exact Touch.read | exact (moduleFatal_only ..).wider (by decide) | refine Touch.readThen fun _ => ?_
         | refine Touch.andThen ?_ fun _ => ?_ | refine Touch.onlyIf _ ?_)

theorem engineReset_only (e : Nat) (lost : Option (Nat × Nat)) : Touches [.params, .engines, .win, .slots, .faultLog,
    .flashDue, .fltPending, .engineDumps, .links, .xfers, .xferWait, .spray, .out] (engineReset e lost) := by
  unfold engineReset
  repeat' first
    | (with_reducible first
         | exact (startReset_only ..).wider (by decide))

theorem watchdogExpiry_only (e : Nat) (core : Option Nat) (lost : Option (Nat × Nat)) : Touches [.params, .engines, .phys,
    .win, .retired, .slots, .faultLog, .flashDue, .subs, .hostPorts, .fltPending, .engineDumps, .links, .xfers, .xferWait, .spray, .out] (watchdogExpiry e core lost) := by
  unfold watchdogExpiry
  repeat' first
    | (with_reducible first
         | exact Touch.skip | exact Touch.read | exact (coreFails_only ..).wider (by decide) | exact (startReset_only ..).wider (by decide)
         | refine Touch.readThen fun _ => ?_ | refine Touch.andThen ?_ fun _ => ?_
         | refine Touch.onlyIf _ ?_ | refine Touch.cond ?_ ?_)
    | split

theorem meshTimeout_only (e target : Nat) (lost : Option (Nat × Nat)) : Touches [.mode, .params, .engines, .win, .slots,
    .faultLog, .flashDue, .subs, .hostPorts, .fltPending, .meshHits, .engineDumps, .dumpRun, .links, .xfers, .xferWait, .spray, .power, .life, .elo, .out] (meshTimeout e target lost) := by
  unfold meshTimeout
  repeat' first
    | (with_reducible first
         | exact Touch.skip | exact Touch.read | exact (setEngine_only ..).wider (by decide) | exact (recordFault_only ..).wider (by decide)
         | exact (moduleFatal_only ..).wider (by decide) | exact (startReset_only ..).wider (by decide) | refine Touch.readThen fun _ => ?_
         | refine Touch.andThen ?_ fun _ => ?_ | refine Touch.onlyIf _ ?_ | refine Touch.cond ?_ ?_)
    | (with_reducible refine Touch.change fun _ => ?_); rfl

theorem loftFetchTimeout_only (e : Nat) : Touches [.params, .engines, .faultLog, .flashDue, .fltPending] (loftFetchTimeout
    e) := by
  unfold loftFetchTimeout
  repeat' first
    | (with_reducible first
         | exact Touch.read | exact (setEngine_only ..).wider (by decide) | exact (recordFault_only ..).wider (by decide) | exact (reportBlock_only ..).wider (by decide)
         | refine Touch.readThen fun _ => ?_ | refine Touch.andThen ?_ fun _ => ?_
         | refine Touch.onlyIf _ ?_)

theorem heartbeatMiss_only (core ms err : Nat) : Touches [.mode, .params, .engines, .phys, .retired, .slots, .faultLog,
    .flashDue, .subs, .hostPorts, .fltPending, .dumpRun, .links, .spray, .power, .life, .elo, .out] (heartbeatMiss core ms err) := by
  unfold heartbeatMiss
  repeat' first
    | (with_reducible first
         | exact Touch.skip | exact Touch.read | exact (noteFailed_only ..).wider (by decide) | exact (recordFault_only ..).wider (by decide)
         | exact (setPar_only ..).wider (by decide) | exact (bump_only ..).wider (by decide) | exact (moduleFatal_only ..).wider (by decide) | refine Touch.readThen fun _ => ?_
         | refine Touch.andThen ?_ fun _ => ?_ | refine Touch.cond ?_ ?_)
    | (with_reducible refine Touch.change fun _ => ?_); rfl

theorem noteLending_only (e used cycles : Nat) : Touches [.params, .engines] (noteLending e used cycles) := by
  unfold noteLending
  repeat' first
    | (with_reducible first
         | exact Touch.read | exact (setEngine_only ..).wider (by decide) | exact (bump_only ..).wider (by decide) | refine Touch.readThen fun _ => ?_
         | refine Touch.andThen ?_ fun _ => ?_)

theorem cellLoan_only (e cell idleNs used cycles : Nat) : Touches [.params, .engines] (cellLoan e cell idleNs used cycles) := by
  unfold cellLoan
  repeat' first
    | (with_reducible first
         | exact Touch.skip | exact Touch.read | exact (noteLending_only ..).wider (by decide) | exact (setEngine_only ..).wider (by decide)
         | refine Touch.readThen fun _ => ?_ | refine Touch.andThen ?_ fun _ => ?_
         | refine Touch.cond ?_ ?_)

theorem istFail_only (kind e sub : Nat) : Touches [.params, .engines, .phys, .retired, .slots, .faultLog, .flashDue, .subs,
    .hostPorts, .fltPending, .links, .spray, .out] (istFail kind e sub) := by
  unfold istFail
  repeat' first
    | (with_reducible first
         | exact Touch.read | exact (setPar_only ..).wider (by decide) | exact (noteFailed_only ..).wider (by decide) | exact (recordFault_only ..).wider (by decide)
         | exact (setEngine_only ..).wider (by decide) | exact (cellFails_only ..).wider (by decide) | exact (coreFails_only ..).wider (by decide)
         | refine Touch.readThen fun _ => ?_ | refine Touch.andThen ?_ fun _ => ?_
         | refine Touch.cond ?_ ?_)

theorem istSlice_only (kind e sub slice signature : Nat) (cut : Bool) : Touches [.params, .engines, .phys, .retired,
    .slots, .faultLog, .flashDue, .subs, .hostPorts, .fltPending, .tests, .overdue, .links, .spray, .out] (istSlice kind e sub slice signature cut) := by
  unfold istSlice
  repeat' first
    | (with_reducible first
         | exact Touch.skip | exact Touch.read | exact (bump_only ..).wider (by decide) | exact (istFail_only ..).wider (by decide)
         | refine Touch.readThen fun _ => ?_ | refine Touch.andThen ?_ fun _ => ?_
         | refine Touch.cond ?_ ?_)
    | (with_reducible refine Touch.change fun _ => ?_); first | rfl | ((repeat' split) <;> rfl)
    | split
    | dsimp only

theorem istRotation_only (kind e sub : Nat) : Touches [.params, .phys, .subs, .hostPorts, .fltPending, .overdue, .out]
    (istRotation kind e sub) := by
  unfold istRotation
  repeat' first
    | (with_reducible first
         | exact Touch.skip | exact Touch.read | exact (bump_only ..).wider (by decide) | exact (raiseEvent_only ..).wider (by decide)
         | refine Touch.readThen fun _ => ?_ | refine Touch.andThen ?_ fun _ => ?_
         | refine Touch.onlyIf _ ?_ | refine Touch.cond ?_ ?_)
    | (with_reducible refine Touch.change fun _ => ?_); rfl

theorem enterFenced_only : Touches [.mode, .params, .engines, .slots, .faultLog, .flashDue, .subs, .hostPorts, .fltPending,
    .dumpRun, .links, .spray, .power, .life, .elo, .out] enterFenced := by
  unfold enterFenced
  repeat' first
    | (with_reducible first
         | exact (moduleFatal_only ..).wider (by decide))

theorem dumpStart_only : Touches [.params, .dumpRun] dumpStart := by
  unfold dumpStart
  repeat' first
    | (with_reducible first
         | exact Touch.skip | exact Touch.read | exact (startDump_only ..).wider (by decide) | refine Touch.readThen fun _ => ?_
         | refine Touch.andThen ?_ fun _ => ?_ | refine Touch.cond ?_ ?_)

theorem faultLogCommit_only : Touches [.flashLog, .flashDue] faultLogCommit := Touch.change fun _ => by
  simp [SameBut, State.without]

/-! ## Blocks -/

theorem readAccIn_only (v : MatEnv) (row n0 cnt : Nat) : Touches [.poison, .ueFull, .ecc, .params, .rel, .win, .dieCopies,
    .faultLog, .flashDue, .fltPending] (readAccIn v row n0 cnt) := by
  unfold readAccIn
  repeat' first
    | (with_reducible first
         | exact Touch.ret _ | exact (load_only ..).wider (by decide) | refine Touch.andThen ?_ fun _ => ?_
         | refine Touch.collect _ fun _ => ?_)
    | split

theorem noteDrain_only (row col total : Nat) (ys : List Nat) (bad : Bool) : Touches [.drain] (noteDrain row col total ys
    bad) := by
  unfold noteDrain
  repeat' first
    | (with_reducible first
         | refine Touch.andThen ?_ fun _ => ?_)
    | (with_reducible refine Touch.change fun _ => ?_); rfl

theorem passDone_only (v : MatEnv) (g subs : Nat) : Touches [.params, .engines] (passDone v g subs) := by
  unfold passDone
  repeat' first
    | (with_reducible first
         | exact Touch.read | exact (bump_only ..).wider (by decide) | exact (unitsDone_only ..).wider (by decide) | refine Touch.readThen fun _ => ?_
         | refine Touch.andThen ?_ fun _ => ?_)

theorem runBand_only (v : MatEnv) (c r0 rows g : Nat) : Touches [.mem, .poison, .ueFull, .ecc, .params, .rel, .win,
    .dieCopies, .faultLog, .flashDue, .drain, .fltPending, .dead] (runBand v c r0 rows g) := by
  unfold runBand
  repeat' first
    | (with_reducible first
         | exact (readRow_only ..).wider (by decide) | exact (readAccIn_only ..).wider (by decide) | exact (noteDrain_only ..).wider (by decide) | exact (writeOutputs_only ..).wider (by decide)
         | exact (store_only ..).wider (by decide) | exact (storePoison_only ..).wider (by decide) | refine Touch.andThen ?_ fun _ => ?_
         | refine Touch.cond ?_ ?_ | refine Touch.each _ fun _ => ?_ | refine Touch.collect _ fun _ => ?_)

theorem runPass_only (v : MatEnv) (c r0 rows g : Nat) : Touches [.mem, .poison, .ueFull, .ecc, .params, .engines, .rel,
    .win, .dieCopies, .faultLog, .flashDue, .drain, .fltPending, .dead] (runPass v c r0 rows g) := by
  unfold runPass
  repeat' first
    | (with_reducible first
         | exact (runBand_only ..).wider (by decide) | exact (passDone_only ..).wider (by decide) | refine Touch.andThen ?_ fun _ => ?_)

theorem runCombine_only (v : MatEnv) (r0 rows g : Nat) : Touches [.mem, .poison, .ueFull, .ecc, .params, .engines, .rel,
    .win, .dieCopies, .faultLog, .flashDue, .drain, .fltPending, .dead] (runCombine v r0 rows g) := by
  unfold runCombine
  repeat' first
    | (with_reducible first
         | exact (load_only ..).wider (by decide) | exact (readAccIn_only ..).wider (by decide) | exact (noteDrain_only ..).wider (by decide) | exact (writeOutputs_only ..).wider (by decide)
         | exact (bump_only ..).wider (by decide) | exact (unitsDone_only ..).wider (by decide) | refine Touch.andThen ?_ fun _ => ?_
         | refine Touch.each _ fun _ => ?_ | refine Touch.collect _ fun _ => ?_)

theorem matmulPasses_only (v : MatEnv) : Touches [.mem, .poison, .ueFull, .ecc, .params, .engines, .rel, .win, .dieCopies,
    .faultLog, .flashDue, .drain, .fltPending, .dead] (matmulPasses v) := by
  unfold matmulPasses
  repeat' first
    | (with_reducible first
         | exact (runPass_only ..).wider (by decide) | exact (runCombine_only ..).wider (by decide) | refine Touch.andThen ?_ fun _ => ?_
         | refine Touch.onlyIf _ ?_ | refine Touch.each _ fun _ => ?_)

theorem readAcc_only (c : Cmd) (j : Job) (n : Nat) (seen : Clamped) : Touches [.poison, .ueFull, .ecc, .params, .rel, .win,
    .dieCopies, .faultLog, .flashDue, .fltPending] (readAcc c j n seen) := by
  unfold readAcc
  repeat' first
    | (with_reducible first
         | exact Touch.ret _ | exact (readOperandOnce_only ..).wider (by decide) | refine Touch.andThen ?_ fun _ => ?_
         | refine Touch.cond ?_ ?_)

theorem readMat_only (c : Cmd) (j : Job) (wAddr nW : Nat) (out : Option Operand) : Touches [.poison, .ueFull, .ecc,
    .params, .rel, .win, .dieCopies, .faultLog, .flashDue, .fltPending] (readMat c j wAddr nW out) := by
  unfold readMat
  repeat' first
    | (with_reducible first
         | exact Touch.ret _ | exact (readOperandOnce_only ..).wider (by decide) | exact (readAcc_only ..).wider (by decide)
         | refine Touch.andThen ?_ fun _ => ?_ | refine Touch.cond ?_ ?_)
    | split

theorem jobEnv_only (c : Cmd) (j : Job) (rows : Nat) (out : Option Operand) : Touches [.poison, .ueFull, .ecc, .params,
    .rel, .win, .dieCopies, .faultLog, .flashDue, .fltPending] (jobEnv c j rows out) := by
  unfold jobEnv
  repeat' first
    | (with_reducible first
         | exact Touch.ret _ | exact (readMat_only ..).wider (by decide) | exact (clampDesc_only ..).wider (by decide)
         | refine Touch.andThen ?_ fun _ => ?_ | refine Touch.cond ?_ ?_)
    | split

theorem matmulInto_only (c : Cmd) (rows : Option Nat) (out : Option Operand) : Touches [.mem, .poison, .ueFull, .ecc,
    .params, .engines, .rel, .win, .dieCopies, .faultLog, .flashDue, .drain, .fltPending, .dead] (matmulInto c rows out) := by
  unfold matmulInto
  repeat' first
    | (with_reducible first
         | exact Touch.ret _ | exact (load_only ..).wider (by decide) | exact (clampDesc_only ..).wider (by decide) | exact (jobEnv_only ..).wider (by decide)
         | exact (matmulPasses_only ..).wider (by decide) | refine Touch.andThen ?_ fun _ => ?_ | refine Touch.cond ?_ ?_)
    | split

theorem bodyMatmul_only (c : Cmd) : Touches [.mem, .poison, .ueFull, .ecc, .params, .engines, .rel, .win, .dieCopies,
    .faultLog, .flashDue, .drain, .fltPending, .dead] (bodyMatmul c) := by
  unfold bodyMatmul
  repeat' first
    | (with_reducible first
         | exact (matmulInto_only ..).wider (by decide))

theorem findItem_only (w : Who) (list p : Nat) (x0 : Nat) (x1 : Nat) (x2 : Nat) : Touches [.poison, .ueFull, .ecc, .params,
    .rel, .win, .dieCopies, .faultLog, .flashDue, .fltPending] (findItem w list p x0 x1 x2) := by
  induction x0 generalizing x1 x2 with
  | zero =>
    unfold findItem
    repeat' first
      | (with_reducible first
           | exact Touch.ret _)
  | succ n ih =>
    unfold findItem
    repeat' first
      | (with_reducible first
           | exact ih .. | exact Touch.ret _ | exact (load_only ..).wider (by decide) | refine Touch.andThen ?_ fun _ => ?_
           | refine Touch.cond ?_ ?_)

theorem readItem_only (w : Who) (list p count : Nat) : Touches [.poison, .ueFull, .ecc, .params, .rel, .win, .dieCopies,
    .faultLog, .flashDue, .fltPending] (readItem w list p count) := by
  unfold readItem
  repeat' first
    | (with_reducible first
         | exact Touch.ret _ | exact (findItem_only ..).wider (by decide) | exact (load_only ..).wider (by decide) | refine Touch.andThen ?_ fun _ => ?_
         | refine Touch.cond ?_ ?_)
    | split

theorem claimPass_only (w : Who) (list : Nat) : Touches [.mem, .poison, .ueFull, .ecc, .params, .rel, .win, .dieCopies,
    .faultLog, .flashDue, .fltPending, .dead] (claimPass w list) := by
  unfold claimPass
  repeat' first
    | (with_reducible first
         | exact Touch.ret _ | exact (load_only ..).wider (by decide) | exact (storeVal_only ..).wider (by decide) | refine Touch.andThen ?_ fun _ => ?_
         | refine Touch.cond ?_ ?_)
    | split
    | dsimp only

theorem donePass_only (w : Who) (list : Nat) : Touches [.mem, .poison, .ueFull, .ecc, .params, .rel, .win, .dieCopies,
    .faultLog, .flashDue, .fltPending, .dead] (donePass w list) := by
  unfold donePass
  repeat' first
    | (with_reducible first
         | exact (load_only ..).wider (by decide) | exact (storeVal_only ..).wider (by decide) | refine Touch.andThen ?_ fun _ => ?_)

theorem runListPass_only (c : Cmd) (list count : Nat) (j : Job) (aOp oOp : Operand) (cOp : Option Operand) (p : Nat)
   
    (st : ListRun) : Touches [.mem, .poison, .ueFull, .ecc, .params, .engines, .rel, .win, .dieCopies, .faultLog, .flashDue, .drain, .fltPending, .dead] (runListPass c list count j aOp oOp cOp p st) := by
  unfold runListPass
  repeat' first
    | (with_reducible first
         | exact Touch.ret _ | exact (readItem_only ..).wider (by decide) | exact (clampDesc_only ..).wider (by decide) | exact (readOperandOnce_only ..).wider (by decide)
         | exact (runBand_only ..).wider (by decide) | exact (passDone_only ..).wider (by decide) | refine Touch.andThen ?_ fun _ => ?_
         | refine Touch.onlyIf _ ?_ | refine Touch.cond ?_ ?_)
    | split

theorem listLoop_only (c : Cmd) (list count : Nat) (j : Job) (aOp oOp : Operand) (cOp : Option Operand) (x0 : Nat) (x1 :
    ListRun) : Touches [.mem, .poison, .ueFull, .ecc, .params, .engines, .rel, .win, .dieCopies, .faultLog, .flashDue, .drain, .fltPending, .dead] (listLoop c list count j aOp oOp cOp x0 x1) := by
  induction x0 generalizing x1 with
  | zero =>
    unfold listLoop
    repeat' first
      | (with_reducible first
           | exact Touch.ret _)
  | succ n ih =>
    unfold listLoop
    repeat' first
      | (with_reducible first
           | exact ih .. | exact Touch.ret _ | exact (claimPass_only ..).wider (by decide) | exact (runListPass_only ..).wider (by decide)
           | exact (donePass_only ..).wider (by decide) | refine Touch.andThen ?_ fun _ => ?_ | refine Touch.cond ?_ ?_)
      | split

theorem runClaimed_only (c : Cmd) (list count : Nat) (j : Job) (aOp oOp : Operand) (cOp : Option Operand) (x0 : List Nat)
    (x1 : ListRun) : Touches [.mem, .poison, .ueFull, .ecc, .params, .engines, .rel, .win, .dieCopies, .faultLog, .flashDue, .drain, .fltPending, .dead] (runClaimed c list count j aOp oOp cOp x0 x1) := by
  induction x0 generalizing x1 with
  | nil =>
    unfold runClaimed
    repeat' first
      | (with_reducible first
           | exact Touch.ret _)
  | cons y l ih =>
    unfold runClaimed
    repeat' first
      | (with_reducible first
           | exact ih .. | exact Touch.ret _ | exact (runListPass_only ..).wider (by decide) | exact (donePass_only ..).wider (by decide)
           | refine Touch.andThen ?_ fun _ => ?_ | refine Touch.cond ?_ ?_)

theorem listPasses_only (c : Cmd) (list h : Nat) (j : Job) (aOp oOp : Operand) (cOp : Option Operand) (recs : Clamped) :
    Touches [.mem, .poison, .ueFull, .ecc, .params, .engines, .rel, .win, .dieCopies, .faultLog, .flashDue, .drain, .fltPending, .dead] (listPasses c list h j aOp oOp cOp recs) := by
  unfold listPasses
  repeat' first
    | (with_reducible first
         | exact Touch.read | exact Touch.ret _ | exact (setEngine_only ..).wider (by decide) | exact (runClaimed_only ..).wider (by decide)
         | exact (listLoop_only ..).wider (by decide) | refine Touch.readThen fun _ => ?_ | refine Touch.andThen ?_ fun _ => ?_
         | refine Touch.cond ?_ ?_)
    | split
    | dsimp only

theorem bodyMatmulList_only (c : Cmd) : Touches [.mem, .poison, .ueFull, .ecc, .params, .engines, .rel, .win, .dieCopies,
    .faultLog, .flashDue, .drain, .fltPending, .dead] (bodyMatmulList c) := by
  unfold bodyMatmulList
  repeat' first
    | (with_reducible first
         | exact Touch.ret _ | exact (load_only ..).wider (by decide) | exact (clampDesc_only ..).wider (by decide) | exact (readOperandOnce_only ..).wider (by decide)
         | exact (readAcc_only ..).wider (by decide) | exact (listPasses_only ..).wider (by decide) | refine Touch.andThen ?_ fun _ => ?_
         | refine Touch.cond ?_ ?_)

theorem runCombines_only (v : MatEnv) (l : List (Nat × Nat)) : Touches [.mem, .poison, .ueFull, .ecc, .params, .engines,
    .rel, .win, .dieCopies, .faultLog, .flashDue, .drain, .fltPending, .dead] (runCombines v l) := by
  unfold runCombines
  repeat' first
    | (with_reducible first
         | exact Touch.ret _ | exact (load_only ..).wider (by decide) | exact (runCombine_only ..).wider (by decide) | refine Touch.andThen ?_ fun _ => ?_
         | refine Touch.cond ?_ ?_ | refine Touch.foldState _ _ fun _ _ => ?_)

theorem paddedEnv_only (c : Cmd) : Touches [.poison, .ueFull, .ecc, .params, .rel, .win, .dieCopies, .faultLog, .flashDue,
    .fltPending] (paddedEnv c) := by
  unfold paddedEnv
  repeat' first
    | (with_reducible first
         | exact Touch.ret _ | exact (load_only ..).wider (by decide) | exact (clampDesc_only ..).wider (by decide) | exact (jobEnv_only ..).wider (by decide)
         | refine Touch.andThen ?_ fun _ => ?_ | refine Touch.cond ?_ ?_)
    | split

theorem paddedShare_only (c : Cmd) (v : MatEnv) (pad : Nat) : Touches [.mem, .poison, .ueFull, .ecc, .params, .engines,
    .rel, .win, .dieCopies, .faultLog, .flashDue, .drain, .fltPending, .dead] (paddedShare c v pad) := by
  unfold paddedShare
  repeat' first
    | (with_reducible first
         | exact Touch.ret _ | exact (clampDesc_only ..).wider (by decide) | exact (runPass_only ..).wider (by decide) | exact (atomic_only ..).wider (by decide)
         | exact (runCombines_only ..).wider (by decide))
    | (with_reducible first
         | refine Touch.andThen ?_ fun _ => ?_ | refine Touch.onlyIf _ ?_ | refine Touch.cond ?_ ?_
         | refine Touch.foldState _ _ fun _ _ => ?_)

theorem bodyMatmulPadded_only (c : Cmd) : Touches [.mem, .poison, .ueFull, .ecc, .params, .engines, .rel, .win, .dieCopies,
    .faultLog, .flashDue, .drain, .fltPending, .dead] (bodyMatmulPadded c) := by
  unfold bodyMatmulPadded
  repeat' first
    | (with_reducible first
         | exact Touch.ret _ | exact (paddedEnv_only ..).wider (by decide) | exact (paddedShare_only ..).wider (by decide)
         | refine Touch.andThen ?_ fun _ => ?_)
    | split

theorem bodyVec_only (op : Nat) (c : Cmd) : Touches [.mem, .poison, .ueFull, .ecc, .params, .engines, .rel, .win,
    .dieCopies, .faultLog, .flashDue, .fltPending, .dead] (bodyVec op c) := by
  unfold bodyVec
  repeat' first
    | (with_reducible first
         | exact Touch.ret _ | exact (load_only ..).wider (by decide) | exact (clampDesc_only ..).wider (by decide) | exact (readOperandOnce_only ..).wider (by decide)
         | exact (readRow_only ..).wider (by decide) | exact (writeOutputs_only ..).wider (by decide) | exact (unitsDone_only ..).wider (by decide)
         | refine Touch.andThen ?_ fun _ => ?_ | refine Touch.cond ?_ ?_ | refine Touch.each _ fun _ => ?_)
    | split

/-! ## Codec -/

theorem setSlot_only (i : Nat) (f : CodecSlot → CodecSlot) : Touches [.slots] (setSlot i f) := by
  unfold setSlot
  repeat' first
    | (with_reducible first
         | refine Touch.andThen ?_ fun _ => ?_)
    | (with_reducible refine Touch.change fun _ => ?_); rfl

theorem startLoad_only (i : Nat) (l : PendLoad) : Touches [.poison, .ueFull, .ecc, .params, .rel, .win, .dieCopies, .slots,
    .faultLog, .flashDue, .fltPending] (startLoad i l) := by
  unfold startLoad
  repeat' first
    | (with_reducible first
         | exact Touch.ret _ | exact (load_only ..).wider (by decide) | exact (clampDesc_only ..).wider (by decide) | exact (setPar_only ..).wider (by decide)
         | exact (setSlot_only ..).wider (by decide) | refine Touch.andThen ?_ fun _ => ?_)
    | split

theorem emptySlot_only (i : Nat) : Touches [.poison, .ueFull, .ecc, .params, .eff, .rel, .win, .dieCopies, .slots,
    .faultLog, .flashDue, .fltPending] (emptySlot i) := by
  unfold emptySlot
  repeat' first
    | (with_reducible first
         | exact Touch.skip | exact Touch.read | exact (setPar_only ..).wider (by decide) | exact (setEff_only ..).wider (by decide)
         | exact (setSlot_only ..).wider (by decide) | exact (startLoad_only ..).wider (by decide) | refine Touch.readThen fun _ => ?_
         | refine Touch.andThen ?_ fun _ => ?_)
    | split

theorem rewaitEncode_only (i : Nat) (l : PendLoad) : Touches [.engines] (rewaitEncode i l) := by
  unfold rewaitEncode
  repeat' first
    | (with_reducible first
         | exact Touch.read | exact (setEngine_only ..).wider (by decide) | refine Touch.readThen fun _ => ?_)

theorem requestLoad_only (i : Nat) (l : PendLoad) : Touches [.mem, .poison, .ueFull, .ecc, .params, .engines, .rel, .win,
    .dieCopies, .slots, .faultLog, .flashDue, .fltPending, .dead] (requestLoad i l) := by
  unfold requestLoad
  repeat' first
    | (with_reducible first
         | exact Touch.skip | exact Touch.read | exact (startLoad_only ..).wider (by decide) | exact (signalCue_only ..).wider (by decide)
         | exact (rewaitEncode_only ..).wider (by decide) | exact (bump_only ..).wider (by decide) | exact (setSlot_only ..).wider (by decide)
         | refine Touch.readThen fun _ => ?_ | refine Touch.andThen ?_ fun _ => ?_
         | refine Touch.onlyIf _ ?_ | refine Touch.cond ?_ ?_)
    | split

theorem bodyTableLoad_only (c : Cmd) : Touches [.mem, .poison, .ueFull, .ecc, .params, .engines, .rel, .win, .dieCopies,
    .slots, .faultLog, .flashDue, .fltPending, .dead] (bodyTableLoad c) := by
  unfold bodyTableLoad
  repeat' first
    | (with_reducible first
         | exact Touch.read | exact Touch.ret _ | exact (clampDesc_only ..).wider (by decide) | exact (requestLoad_only ..).wider (by decide)
         | refine Touch.readThen fun _ => ?_ | refine Touch.andThen ?_ fun _ => ?_
         | refine Touch.cond ?_ ?_)

theorem bodyTableRetire_only (c : Cmd) : Touches [.poison, .ueFull, .ecc, .params, .eff, .rel, .win, .dieCopies, .slots,
    .faultLog, .flashDue, .fltPending] (bodyTableRetire c) := by
  unfold bodyTableRetire
  repeat' first
    | (with_reducible first
         | exact Touch.read | exact Touch.ret _ | exact (clampDesc_only ..).wider (by decide) | exact (setPar_only ..).wider (by decide)
         | exact (emptySlot_only ..).wider (by decide) | refine Touch.readThen fun _ => ?_ | refine Touch.andThen ?_ fun _ => ?_
         | refine Touch.onlyIf _ ?_ | refine Touch.cond ?_ ?_)

theorem bodyTableSave_only (c : Cmd) : Touches [.mem, .poison, .ecc, .params, .dead] (bodyTableSave c) := by
  unfold bodyTableSave
  repeat' first
    | (with_reducible first
         | exact Touch.read | exact Touch.ret _ | exact (clampDesc_only ..).wider (by decide) | exact (store_only ..).wider (by decide)
         | refine Touch.readThen fun _ => ?_ | refine Touch.andThen ?_ fun _ => ?_
         | refine Touch.cond ?_ ?_)

theorem loadComplete_only (i : Nat) : Touches [.mem, .poison, .ueFull, .ecc, .params, .rel, .win, .dieCopies, .slots,
    .faultLog, .flashDue, .fltPending, .dead] (loadComplete i) := by
  unfold loadComplete
  repeat' first
    | (with_reducible first
         | exact Touch.skip | exact Touch.read | exact (setPar_only ..).wider (by decide) | exact (setSlot_only ..).wider (by decide)
         | exact (signalCue_only ..).wider (by decide) | refine Touch.readThen fun _ => ?_ | refine Touch.andThen ?_ fun _ => ?_
         | refine Touch.onlyIf _ ?_)
    | split

theorem decodeOne_only (w : Who) (p src hdr i dst limit : Nat) (hdrBad : Bool) (base : Option Nat) : Touches [.mem,
    .poison, .ueFull, .ecc, .params, .rel, .win, .dieCopies, .faultLog, .flashDue, .fltPending, .dead] (decodeOne w p src hdr i dst limit hdrBad base) := by
  unfold decodeOne
  repeat' first
    | (with_reducible first
         | exact Touch.read | exact Touch.ret _ | exact (load_only ..).wider (by decide) | exact (clampDesc_only ..).wider (by decide) | exact (bump_only ..).wider (by decide)
         | exact (store_only ..).wider (by decide) | exact (storePoison_only ..).wider (by decide) | refine Touch.readThen fun _ => ?_
         | refine Touch.andThen ?_ fun _ => ?_ | refine Touch.onlyIf _ ?_ | refine Touch.cond ?_ ?_)
    | split

theorem bodyDecode_only (c : Cmd) : Touches [.mem, .poison, .ueFull, .ecc, .params, .engines, .rel, .win, .dieCopies,
    .faultLog, .flashDue, .fltPending, .dead] (bodyDecode c) := by
  unfold bodyDecode
  repeat' first
    | (with_reducible first
         | exact Touch.ret _ | exact (load_only ..).wider (by decide) | exact (clampDesc_only ..).wider (by decide) | exact (decodeOne_only ..).wider (by decide)
         | exact (unitsDone_only ..).wider (by decide) | refine Touch.andThen ?_ fun _ => ?_ | refine Touch.cond ?_ ?_
         | refine Touch.each _ fun _ => ?_)

theorem writeBlocks_only (w : Who) (dst : Nat) (x0 : List (EncBlock × Bool)) (x1 : Nat) : Touches [.mem, .poison, .ecc,
    .params, .dead, .life, .elo] (writeBlocks w dst x0 x1) := by
  induction x0 generalizing x1 with
  | nil =>
    unfold writeBlocks
    repeat' first
      | (with_reducible first
           | exact Touch.ret _)
  | cons y l ih =>
    unfold writeBlocks
    repeat' first
      | (with_reducible first
           | exact ih .. | exact Touch.ret _ | exact (store_only ..).wider (by decide) | exact (storePoison_only ..).wider (by decide)
           | refine Touch.andThen ?_ fun _ => ?_ | refine Touch.onlyIf _ ?_)

theorem encodeExtent_only (w : Who) (p src dst base len mode slot : Nat) : Touches [.mem, .poison, .ueFull, .ecc, .params,
    .rel, .win, .dieCopies, .faultLog, .flashDue, .fltPending, .dead, .life, .elo] (encodeExtent w p src dst base len mode slot) := by
  unfold encodeExtent
  repeat' first
    | (with_reducible first
         | exact Touch.read | exact Touch.ret _ | exact (load_only ..).wider (by decide) | exact (writeBlocks_only ..).wider (by decide)
         | exact (store_only ..).wider (by decide) | exact (storeVal_only ..).wider (by decide) | exact (bump_only ..).wider (by decide) | refine Touch.readThen fun _ => ?_
         | refine Touch.andThen ?_ fun _ => ?_ | refine Touch.cond ?_ ?_ | refine Touch.collect _ fun _ => ?_)

theorem encodeBuild_only (w : Who) (src base len mode : Nat) : Touches [.poison, .ueFull, .ecc, .params, .rel, .win,
    .dieCopies, .faultLog, .flashDue, .fltPending] (encodeBuild w src base len mode) := by
  unfold encodeBuild
  repeat' first
    | (with_reducible first
         | exact Touch.ret _ | exact (load_only ..).wider (by decide) | refine Touch.andThen ?_ fun _ => ?_
         | refine Touch.cond ?_ ?_)

theorem encodePass2_only (c : Cmd) : Touches [.mem, .poison, .ueFull, .ecc, .params, .engines, .rel, .win, .dieCopies,
    .codecRefs, .faultLog, .flashDue, .fltPending, .dead, .life, .elo] (encodePass2 c) := by
  unfold encodePass2
  repeat' first
    | (with_reducible first
         | exact Touch.ret _ | exact (takeRef_only ..).wider (by decide) | exact (encodeExtent_only ..).wider (by decide) | exact (unitsDone_only ..).wider (by decide)
         | refine Touch.andThen ?_ fun _ => ?_ | refine Touch.onlyIf _ ?_)

theorem bodyEncode_only (c : Cmd) : Touches [.mem, .poison, .ueFull, .ecc, .params, .engines, .rel, .win, .dieCopies,
    .slots, .codecRefs, .faultLog, .flashDue, .fltPending, .dead, .life, .elo] (bodyEncode c) := by
  unfold bodyEncode
  repeat' first
    | (with_reducible first
         | exact Touch.read | exact Touch.ret _ | exact (clampDesc_only ..).wider (by decide) | exact (encodePass2_only ..).wider (by decide)
         | exact (encodeBuild_only ..).wider (by decide) | exact (unitsDone_only ..).wider (by decide) | exact (requestLoad_only ..).wider (by decide)
         | refine Touch.readThen fun _ => ?_ | refine Touch.andThen ?_ fun _ => ?_
         | refine Touch.cond ?_ ?_)

/-! ## Sampling -/

theorem bodySample_only (c : Cmd) : Touches [.mem, .poison, .ueFull, .ecc, .params, .rel, .win, .dieCopies, .faultLog,
    .flashDue, .insts, .fltPending, .dead] (bodySample c) := by
  unfold bodySample
  repeat' first
    | (with_reducible first
         | exact Touch.skip | exact Touch.ret _ | exact (clampDesc_only ..).wider (by decide) | exact (readCoded_only ..).wider (by decide)
         | exact (readRow_only ..).wider (by decide) | exact (load_only ..).wider (by decide) | exact (storeVal_only ..).wider (by decide) | exact (markPoisoned_only ..).wider (by decide)
         | refine Touch.andThen ?_ fun _ => ?_ | refine Touch.onlyIf _ ?_ | refine Touch.cond ?_ ?_
         | refine Touch.foldState _ _ fun _ _ => ?_)
    | split

/-! ## Prefix -/

theorem setNode_only (n : Nat) (f : PNode → PNode) : Touches [.poison, .nodes] (setNode n f) := by
  unfold setNode
  repeat' first
    | (with_reducible first
         | refine Touch.andThen ?_ fun _ => ?_)
    | (with_reducible refine Touch.change fun _ => ?_); rfl

theorem freeIndex_only (p : Nat) : Touches [.frames, .nodes] (freeIndex p) := by
  unfold freeIndex
  repeat' first
    | (with_reducible first
         | exact Touch.read | exact (dropFrame_only ..).wider (by decide) | refine Touch.readThen fun _ => ?_
         | refine Touch.andThen ?_ fun _ => ?_ | refine Touch.onlyIf _ ?_ | refine Touch.each _ fun _ => ?_)
    | (with_reducible refine Touch.change fun _ => ?_); rfl

theorem loseNode_only (n : Nat) : Touches [.poison, .params, .faultLog, .flashDue, .nodes, .fltPending] (loseNode n) := by
  unfold loseNode
  repeat' first
    | (with_reducible first
         | exact Touch.read | exact (bump_only ..).wider (by decide) | exact (recordFault_only ..).wider (by decide) | exact (setNode_only ..).wider (by decide)
         | refine Touch.readThen fun _ => ?_ | refine Touch.andThen ?_ fun _ => ?_
         | refine Touch.onlyIf _ ?_)

theorem readGroup_only (p group : Nat) : Touches [.poison, .params, .faultLog, .flashDue, .nodes, .fltPending] (readGroup p
    group) := by
  unfold readGroup
  repeat' first
    | (with_reducible first
         | exact Touch.read | exact Touch.ret _ | exact (loseNode_only ..).wider (by decide) | refine Touch.readThen fun _ => ?_
         | refine Touch.andThen ?_ fun _ => ?_ | refine Touch.each _ fun _ => ?_)

theorem findNode_only (p group holder valid : Nat) (key : Nat × Nat) : Touches [.poison, .params, .faultLog, .flashDue,
    .nodes, .fltPending] (findNode p group holder valid key) := by
  unfold findNode
  repeat' first
    | (with_reducible first
         | exact Touch.read | exact Touch.ret _ | exact (readGroup_only ..).wider (by decide)
         | refine Touch.readThen fun _ => ?_ | refine Touch.andThen ?_ fun _ => ?_)

theorem attachFrames_only (p slate j : Nat) (frames : List Nat) : Touches [.frames, .reels] (attachFrames p slate j frames) := by
  unfold attachFrames
  repeat' first
    | (with_reducible first
         | exact (shareFrame_only ..).wider (by decide) | refine Touch.andThen ?_ fun _ => ?_ | refine Touch.cond ?_ ?_
         | refine Touch.each _ fun _ => ?_)
    | (with_reducible refine Touch.change fun _ => ?_); rfl

theorem applyAttach_only (p entry : Nat) : Touches [.frames, .reels] (applyAttach p entry) := by
  unfold applyAttach
  repeat' first
    | (with_reducible first
         | exact Touch.read | exact (attachFrames_only ..).wider (by decide) | refine Touch.readThen fun _ => ?_)

theorem allocCopy_only (p entry : Nat) : Touches [.params, .frames, .reels] (allocCopy p entry) := by
  unfold allocCopy
  repeat' first
    | (with_reducible first
         | exact (allocFrame_only ..).wider (by decide))

theorem applyCopy_only (p entry : Nat) : Touches [.mem, .poison, .ueFull, .ecc, .params, .rel, .win, .dieCopies, .faultLog,
    .flashDue, .fltPending, .dead] (applyCopy p entry) := by
  unfold applyCopy
  repeat' first
    | (with_reducible first
         | exact Touch.skip | exact Touch.read | exact (load_only ..).wider (by decide) | exact (store_only ..).wider (by decide)
         | exact (storePoison_only ..).wider (by decide) | exact (bump_only ..).wider (by decide) | refine Touch.readThen fun _ => ?_
         | refine Touch.andThen ?_ fun _ => ?_ | refine Touch.each _ fun _ => ?_)
    | split

theorem applyInsert_only (p entry : Nat) : Touches [.poison, .frames, .nodes] (applyInsert p entry) := by
  unfold applyInsert
  repeat' first
    | (with_reducible first
         | exact Touch.read | exact (shareFrame_only ..).wider (by decide) | exact (setNode_only ..).wider (by decide)
         | refine Touch.readThen fun _ => ?_ | refine Touch.andThen ?_ fun _ => ?_
         | refine Touch.onlyIf _ ?_ | refine Touch.each _ fun _ => ?_)

theorem applyEvict_only (entry : Nat) (p : Nat) : Touches [.poison, .params, .frames, .nodes] (applyEvict entry p) := by
  unfold applyEvict
  repeat' first
    | (with_reducible first
         | exact Touch.read | exact (bump_only ..).wider (by decide) | exact (dropFrame_only ..).wider (by decide) | exact (setNode_only ..).wider (by decide)
         | refine Touch.readThen fun _ => ?_ | refine Touch.andThen ?_ fun _ => ?_
         | refine Touch.onlyIf _ ?_ | refine Touch.cond ?_ ?_ | refine Touch.each _ fun _ => ?_)

theorem writeExtents_only (w : Who) (p slot base : Nat) (x0 : List (Nat × Nat)) (x1 : Nat) : Touches [.mem, .poison,
    .ueFull, .ecc, .params, .rel, .win, .dieCopies, .faultLog, .flashDue, .fltPending, .dead, .life, .elo] (writeExtents w p slot base x0 x1) := by
  induction x0 generalizing x1 with
  | nil =>
    unfold writeExtents
    repeat' first
      | (with_reducible first
           | exact Touch.ret _)
  | cons y l ih =>
    unfold writeExtents
    repeat' first
      | (with_reducible first
           | exact ih .. | exact Touch.ret _ | exact (encodeExtent_only ..).wider (by decide) | refine Touch.andThen ?_ fun _ => ?_)

theorem applyPark_only (p entry : Nat) : Touches [.mem, .poison, .ueFull, .ecc, .params, .rel, .win, .dieCopies, .faultLog,
    .flashDue, .insts, .fltPending, .dead, .life, .elo] (applyPark p entry) := by
  unfold applyPark
  repeat' first
    | (with_reducible first
         | exact Touch.skip | exact Touch.read | exact (writeExtents_only ..).wider (by decide) | exact (store_only ..).wider (by decide)
         | exact (setInst_only ..).wider (by decide) | refine Touch.readThen fun _ => ?_ | refine Touch.andThen ?_ fun _ => ?_
         | refine Touch.cond ?_ ?_)
    | split
    | dsimp only

theorem decodeExtent_only (w : Who) (p src dst n : Nat) : Touches [.mem, .poison, .ueFull, .ecc, .params, .rel, .win,
    .dieCopies, .faultLog, .flashDue, .fltPending, .dead] (decodeExtent w p src dst n) := by
  unfold decodeExtent
  repeat' first
    | (with_reducible first
         | exact (load_only ..).wider (by decide) | exact (decodeOne_only ..).wider (by decide) | refine Touch.andThen ?_ fun _ => ?_
         | refine Touch.each _ fun _ => ?_)

theorem allocUnpark_only (p entry : Nat) : Touches [.params, .frames, .reels, .insts] (allocUnpark p entry) := by
  unfold allocUnpark
  repeat' first
    | (with_reducible first
         | exact Touch.skip | exact Touch.read | exact (allocOn_only ..).wider (by decide) | exact (setInst_only ..).wider (by decide)
         | refine Touch.readThen fun _ => ?_ | refine Touch.andThen ?_ fun _ => ?_
         | refine Touch.each _ fun _ => ?_)
    | split
    | dsimp only

theorem applyUnpark_only (p entry : Nat) : Touches [.mem, .poison, .ueFull, .ecc, .params, .rel, .win, .dieCopies,
    .faultLog, .flashDue, .insts, .fltPending, .dead] (applyUnpark p entry) := by
  unfold applyUnpark
  repeat' first
    | (with_reducible first
         | exact Touch.skip | exact Touch.read | exact (load_only ..).wider (by decide) | exact (storePoison_only ..).wider (by decide)
         | exact (decodeExtent_only ..).wider (by decide) | exact (setInst_only ..).wider (by decide) | refine Touch.readThen fun _ => ?_
         | refine Touch.andThen ?_ fun _ => ?_ | refine Touch.onlyIf _ ?_ | refine Touch.cond ?_ ?_
         | refine Touch.each _ fun _ => ?_)
    | split
    | dsimp only

/-! ## Slates -/

theorem setSlate_only (p slate : Nat) (f : Nat → Nat) : Touches [.mem, .poison, .ecc, .params, .dead] (setSlate p slate f) := by
  unfold setSlate
  repeat' first
    | (with_reducible first
         | exact Touch.read | exact (storeVal_only ..).wider (by decide) | refine Touch.readThen fun _ => ?_)

theorem setSeq_only (p slate : Nat) (f : LeadSeq → LeadSeq) : Touches [.insts] (setSeq p slate f) := by
  unfold setSeq
  repeat' first
    | (with_reducible first
         | exact (setInst_only ..).wider (by decide))

theorem syncMaps_only (p : Nat) : Touches [.mem, .poison, .ecc, .params, .insts, .dead] (syncMaps p) := by
  unfold syncMaps
  repeat' first
    | (with_reducible first
         | exact Touch.read | exact (store_only ..).wider (by decide) | exact (setSeq_only ..).wider (by decide) | refine Touch.readThen fun _ => ?_
         | refine Touch.andThen ?_ fun _ => ?_ | refine Touch.onlyIf _ ?_ | refine Touch.each _ fun _ => ?_)

theorem takeSubmit_only (p e : Nat) : Touches [.mem, .poison, .ecc, .params, .insts, .dead] (takeSubmit p e) := by
  unfold takeSubmit
  repeat' first
    | (with_reducible first
         | exact Touch.read | exact (clampDesc_only ..).wider (by decide) | exact (bump_only ..).wider (by decide) | exact (storeVal_only ..).wider (by decide)
         | exact (setInst_only ..).wider (by decide) | refine Touch.readThen fun _ => ?_ | refine Touch.andThen ?_ fun _ => ?_
         | refine Touch.onlyIf _ ?_ | refine Touch.cond ?_ ?_)

theorem takePark_only (p e : Nat) (unpark : Bool) : Touches [.mem, .poison, .ecc, .params, .insts, .dead] (takePark p e
    unpark) := by
  unfold takePark
  repeat' first
    | (with_reducible first
         | exact Touch.read | exact (clampDesc_only ..).wider (by decide) | exact (bump_only ..).wider (by decide) | exact (setSlate_only ..).wider (by decide)
         | exact (setInst_only ..).wider (by decide) | refine Touch.readThen fun _ => ?_ | refine Touch.andThen ?_ fun _ => ?_
         | refine Touch.onlyIf _ ?_ | refine Touch.cond ?_ ?_)

theorem readRequest_only (p : Nat) : Touches [.poison, .ueFull, .ecc, .params, .rel, .win, .dieCopies, .faultLog,
    .flashDue, .fltPending] (readRequest p) := by
  unfold readRequest
  repeat' first
    | (with_reducible first
         | exact Touch.read | exact (load_only ..).wider (by decide) | refine Touch.readThen fun _ => ?_)

theorem takeRequest_only (p : Nat) : Touches [.mem, .poison, .ueFull, .ecc, .params, .rel, .win, .dieCopies, .faultLog,
    .flashDue, .doors, .insts, .fltPending, .dead] (takeRequest p) := by
  unfold takeRequest
  repeat' first
    | (with_reducible first
         | exact Touch.skip | exact Touch.read | exact (readRequest_only ..).wider (by decide) | exact (setDoor_only ..).wider (by decide)
         | exact (takeSubmit_only ..).wider (by decide) | exact (takePark_only ..).wider (by decide) | exact (clampDesc_only ..).wider (by decide)
         | refine Touch.readThen fun _ => ?_ | refine Touch.andThen ?_ fun _ => ?_
         | refine Touch.cond ?_ ?_)
    | split

theorem takeRequestOf_only (p kind : Nat) : Touches [.mem, .poison, .ueFull, .ecc, .params, .rel, .win, .dieCopies,
    .faultLog, .flashDue, .doors, .insts, .fltPending, .dead] (takeRequestOf p kind) := by
  unfold takeRequestOf
  repeat' first
    | (with_reducible first
         | exact Touch.skip | exact Touch.read | exact (takeRequest_only ..).wider (by decide) | exact (setInst_only ..).wider (by decide)
         | refine Touch.readThen fun _ => ?_ | refine Touch.andThen ?_ fun _ => ?_
         | refine Touch.onlyIf _ ?_ | refine Touch.cond ?_ ?_)

theorem takeCancel_only (p : Nat) : Touches [.mem, .poison, .ueFull, .ecc, .params, .rel, .win, .dieCopies, .faultLog,
    .flashDue, .doors, .fltPending, .dead] (takeCancel p) := by
  unfold takeCancel
  repeat' first
    | (with_reducible first
         | exact Touch.read | exact (load_only ..).wider (by decide) | exact (setDoor_only ..).wider (by decide) | exact (setSlate_only ..).wider (by decide) | exact (bump_only ..).wider (by decide)
         | refine Touch.readThen fun _ => ?_ | refine Touch.andThen ?_ fun _ => ?_
         | refine Touch.cond ?_ ?_)

theorem storeTwice_only (a : Nat) (bs : List Nat) : Touches [.mem, .poison, .ecc, .params, .dead] (storeTwice a bs) := by
  unfold storeTwice
  repeat' first
    | (with_reducible first
         | exact (store_only ..).wider (by decide) | refine Touch.andThen ?_ fun _ => ?_)

theorem readCopies_only (a b : Nat) (whole : List Nat) : Touches [.mode, .mem, .poison, .ecc, .params, .engines, .slots,
    .faultLog, .flashDue, .subs, .hostPorts, .fltPending, .dead, .dumpRun, .links, .spray, .power, .life, .elo, .out] (readCopies a b whole) := by
  unfold readCopies
  repeat' first
    | (with_reducible first
         | exact Touch.read | exact (moduleFatal_only ..).wider (by decide) | exact (store_only ..).wider (by decide)
         | refine Touch.readThen fun _ => ?_ | refine Touch.andThen ?_ fun _ => ?_
         | refine Touch.onlyIf _ ?_ | refine Touch.cond ?_ ?_)

theorem readReels_only (p : Nat) : Touches [.mode, .mem, .poison, .ecc, .params, .engines, .slots, .faultLog, .flashDue,
    .subs, .hostPorts, .fltPending, .dead, .dumpRun, .links, .spray, .power, .life, .elo, .out] (readReels p) := by
  unfold readReels
  repeat' first
    | (with_reducible first
         | exact Touch.read | exact (readCopies_only ..).wider (by decide) | refine Touch.readThen fun _ => ?_
         | refine Touch.andThen ?_ fun _ => ?_ | refine Touch.each _ fun _ => ?_)

/-! ## Plan -/

theorem latchParams_only (p : Nat) (l : List Nat) : Touches [.eff] (latchParams p l) := by
  unfold latchParams
  repeat' first
    | (with_reducible first
         | exact (par_only ..).wider (by decide) | exact (setEff_only ..).wider (by decide) | refine Touch.andThen ?_ fun _ => ?_
         | refine Touch.each _ fun _ => ?_)

theorem planLatch_only (p : Nat) : Touches [.eff, .places, .placesNext] (planLatch p) := by
  unfold planLatch
  repeat' first
    | (with_reducible first
         | exact (latchParams_only ..).wider (by decide) | refine Touch.andThen ?_ fun _ => ?_)
    | (with_reducible refine Touch.change fun _ => ?_); first | rfl | ((repeat' split) <;> rfl)

theorem addRun_only (p : Nat) (x : Planning) (q : LeadSeq) (d : Nat) (join : Bool) : Touches [.mem, .poison, .ecc, .params,
    .frames, .reels, .insts, .dead] (addRun p x q d join) := by
  unfold addRun
  repeat' first
    | (with_reducible first
         | exact Touch.read | exact Touch.ret _ | exact (setSeq_only ..).wider (by decide) | exact (setSlate_only ..).wider (by decide)
         | refine Touch.readThen fun _ => ?_ | refine Touch.andThen ?_ fun _ => ?_)

theorem planJoin_only (p : Nat) (x : Planning) (q : LeadSeq) : Touches [.mem, .poison, .ecc, .params, .frames, .reels,
    .insts, .dead, .life, .elo] (planJoin p x q) := by
  unfold planJoin
  repeat' first
    | (with_reducible first
         | exact Touch.read | exact Touch.ret _ | exact (addRun_only ..).wider (by decide) | exact (bump_only ..).wider (by decide)
         | refine Touch.readThen fun _ => ?_ | refine Touch.andThen ?_ fun _ => ?_
         | refine Touch.cond ?_ ?_)
    | split

theorem planRunning_only (p : Nat) (x : Planning) (q : LeadSeq) : Touches [.mem, .poison, .ecc, .params, .subs, .hostPorts,
    .frames, .reels, .insts, .fltPending, .dead, .life, .elo, .out] (planRunning p x q) := by
  unfold planRunning
  repeat' first
    | (with_reducible first
         | exact Touch.read | exact Touch.ret _ | exact (addRun_only ..).wider (by decide) | exact (raiseEvent_only ..).wider (by decide)
         | exact (bump_only ..).wider (by decide) | refine Touch.readThen fun _ => ?_ | refine Touch.andThen ?_ fun _ => ?_
         | refine Touch.cond ?_ ?_ | refine Touch.each _ fun _ => ?_)
    | split

theorem evictNode_only (p n : Nat) (x : Planning) : Touches [.poison, .params, .frames, .nodes] (evictNode p n x) := by
  unfold evictNode
  repeat' first
    | (with_reducible first
         | exact Touch.read | exact Touch.ret _ | exact (setNode_only ..).wider (by decide) | exact (bump_only ..).wider (by decide)
         | refine Touch.readThen fun _ => ?_ | refine Touch.andThen ?_ fun _ => ?_
         | refine Touch.onlyIf _ ?_)

theorem evictRank_only (p rank keep : Nat) (x0 : Nat) (x1 : Nat) (x2 : Planning) : Touches [.poison, .params, .frames,
    .nodes, .life, .elo] (evictRank p rank keep x0 x1 x2) := by
  induction x0 generalizing x1 x2 with
  | zero =>
    unfold evictRank
    repeat' first
      | (with_reducible first
           | exact Touch.read | exact Touch.ret _)
  | succ n ih =>
    unfold evictRank
    repeat' first
      | (with_reducible first
           | exact ih .. | exact Touch.read | exact Touch.ret _ | exact (evictNode_only ..).wider (by decide)
           | refine Touch.readThen fun _ => ?_ | refine Touch.andThen ?_ fun _ => ?_
           | refine Touch.cond ?_ ?_)
      | split

theorem trimIndex_only (p : Nat) (x : Planning) : Touches [.poison, .params, .frames, .nodes, .life, .elo] (trimIndex p x) := by
  unfold trimIndex
  repeat' first
    | (with_reducible first
         | exact Touch.read | exact (evictRank_only ..).wider (by decide) | refine Touch.readThen fun _ => ?_
         | refine Touch.andThen ?_ fun _ => ?_ | refine Touch.foldState _ _ fun _ _ => ?_)

theorem readPrompt_only (a n : Nat) : Touches [.poison, .ueFull, .ecc, .params, .rel, .win, .dieCopies, .faultLog,
    .flashDue, .fltPending] (readPrompt a n) := by
  unfold readPrompt
  repeat' first
    | (with_reducible first
         | exact Touch.ret _ | exact (load_only ..).wider (by decide) | refine Touch.andThen ?_ fun _ => ?_)

theorem matchFull_only (p home : Nat) (keys : List (Nat × Nat)) (x0 : Nat) (x1 : Nat) : Touches [.poison, .params,
    .faultLog, .flashDue, .nodes, .fltPending] (matchFull p home keys x0 x1) := by
  induction x0 generalizing x1 with
  | zero =>
    unfold matchFull
    repeat' first
      | (with_reducible first
           | exact Touch.read | exact Touch.ret _)
  | succ n ih =>
    unfold matchFull
    repeat' first
      | (with_reducible first
           | exact ih .. | exact Touch.read | exact Touch.ret _ | exact (findNode_only ..).wider (by decide)
           | refine Touch.readThen fun _ => ?_ | refine Touch.andThen ?_ fun _ => ?_)
      | split

theorem matchPartial_only (p home root : Nat) (keys : List (Nat × Nat)) (m : Nat) (x0 : Nat) : Touches [.poison, .params,
    .faultLog, .flashDue, .nodes, .fltPending] (matchPartial p home root keys m x0) := by
  induction x0 with
  | zero =>
    unfold matchPartial
    repeat' first
      | (with_reducible first
           | exact Touch.read | exact Touch.ret _)
  | succ n ih =>
    unfold matchPartial
    repeat' first
      | (with_reducible first
           | exact ih .. | exact Touch.read | exact Touch.ret _ | exact (findNode_only ..).wider (by decide)
           | refine Touch.readThen fun _ => ?_ | refine Touch.andThen ?_ fun _ => ?_
           | refine Touch.cond ?_ ?_)
      | split

theorem matchPrompt_only (p home salt variant : Nat) (tokens : List Nat) : Touches [.poison, .params, .faultLog, .flashDue,
    .nodes, .fltPending] (matchPrompt p home salt variant tokens) := by
  unfold matchPrompt
  repeat' first
    | (with_reducible first
         | exact Touch.ret _ | exact (matchFull_only ..).wider (by decide) | exact (matchPartial_only ..).wider (by decide)
         | refine Touch.andThen ?_ fun _ => ?_ | refine Touch.cond ?_ ?_)

theorem guardNode_only (p n : Nat) : Touches [.insts] (guardNode p n) := by
  unfold guardNode
  repeat' first
    | (with_reducible first
         | exact (setInst_only ..).wider (by decide))

theorem touchNode_only (p n : Nat) (f : PNode → PNode) : Touches [.poison, .insts, .nodes] (touchNode p n f) := by
  unfold touchNode
  repeat' first
    | (with_reducible first
         | exact Touch.read | exact (setNode_only ..).wider (by decide) | exact (guardNode_only ..).wider (by decide)
         | refine Touch.readThen fun _ => ?_ | refine Touch.andThen ?_ fun _ => ?_)

theorem planInsert_only (p slate j v root : Nat) (keys : List (Nat × Nat)) (x : Planning) : Touches [.poison, .params,
    .faultLog, .flashDue, .frames, .insts, .nodes, .fltPending] (planInsert p slate j v root keys x) := by
  unfold planInsert
  repeat' first
    | (with_reducible first
         | exact Touch.read | exact Touch.ret _ | exact (readGroup_only ..).wider (by decide) | exact (setSeq_only ..).wider (by decide)
         | exact (bump_only ..).wider (by decide) | exact (evictNode_only ..).wider (by decide) | exact (touchNode_only ..).wider (by decide) | exact (guardNode_only ..).wider (by decide)
         | refine Touch.readThen fun _ => ?_ | refine Touch.andThen ?_ fun _ => ?_
         | refine Touch.onlyIf _ ?_ | refine Touch.cond ?_ ?_)
    | split
    | dsimp only

theorem noteMatch_only (p slate : Nat) (m : Match) : Touches [.poison, .params, .insts, .nodes] (noteMatch p slate m) := by
  unfold noteMatch
  repeat' first
    | (with_reducible first
         | exact (bump_only ..).wider (by decide) | exact (touchNode_only ..).wider (by decide) | exact (setSeq_only ..).wider (by decide) | refine Touch.andThen ?_ fun _ => ?_
         | refine Touch.each _ fun _ => ?_)

theorem noteChunk_only (p slate stop : Nat) : Touches [.mem, .poison, .ecc, .params, .frames, .reels, .insts, .dead]
    (noteChunk p slate stop) := by
  unfold noteChunk
  repeat' first
    | (with_reducible first
         | exact (setSlate_only ..).wider (by decide) | refine Touch.andThen ?_ fun _ => ?_)
    | (with_reducible refine Touch.change fun _ => ?_); first | rfl | ((repeat' split) <;> rfl)

theorem planChunk_only (p : Nat) (x : Planning) (q : LeadSeq) : Touches [.mem, .poison, .ueFull, .ecc, .params, .rel, .win,
    .dieCopies, .faultLog, .flashDue, .frames, .reels, .insts, .nodes, .fltPending, .dead, .life, .elo] (planChunk p x q) := by
  unfold planChunk
  repeat' first
    | (with_reducible first
         | exact Touch.read | exact Touch.ret _ | exact (setSlate_only ..).wider (by decide) | exact (readPrompt_only ..).wider (by decide)
         | exact (matchPrompt_only ..).wider (by decide) | exact (noteMatch_only ..).wider (by decide) | exact (noteChunk_only ..).wider (by decide) | exact (planInsert_only ..).wider (by decide)
         | refine Touch.readThen fun _ => ?_ | refine Touch.andThen ?_ fun _ => ?_
         | refine Touch.onlyIf _ ?_ | refine Touch.cond ?_ ?_ | refine Touch.foldState _ _ fun _ _ => ?_)

theorem ungrant_only (p : Nat) (x : Planning) (q : LeadSeq) : Touches [.mem, .poison, .ecc, .params, .frames, .reels,
    .insts, .dead] (ungrant p x q) := by
  unfold ungrant
  repeat' first
    | (with_reducible first
         | exact Touch.skip | exact (setSeq_only ..).wider (by decide) | exact (setSlate_only ..).wider (by decide) | refine Touch.andThen ?_ fun _ => ?_)
    | split

theorem planPark_only (p : Nat) (q : LeadSeq) (target : Nat) (x : Planning) : Touches [.mem, .poison, .ecc, .params,
    .frames, .reels, .insts, .dead, .life, .elo] (planPark p q target x) := by
  unfold planPark
  repeat' first
    | (with_reducible first
         | exact Touch.read | exact Touch.ret _ | exact (ungrant_only ..).wider (by decide) | exact (setSeq_only ..).wider (by decide)
         | refine Touch.readThen fun _ => ?_ | refine Touch.andThen ?_ fun _ => ?_
         | refine Touch.cond ?_ ?_)
    | split

theorem planParks_only (p : Nat) (x : Planning) : Touches [.mem, .poison, .ecc, .params, .frames, .reels, .insts, .dead,
    .life, .elo] (planParks p x) := by
  unfold planParks
  repeat' first
    | (with_reducible first
         | exact Touch.read | exact Touch.ret _ | exact (planPark_only ..).wider (by decide) | refine Touch.readThen fun _ => ?_
         | refine Touch.andThen ?_ fun _ => ?_ | refine Touch.cond ?_ ?_
         | refine Touch.foldState _ _ fun _ _ => ?_)
    | split

theorem planUnparks_only (p : Nat) (x : Planning) : Touches [.life, .elo] (planUnparks p x) := by
  unfold planUnparks
  repeat' first
    | (with_reducible first
         | exact Touch.read | exact Touch.ret _ | refine Touch.readThen fun _ => ?_
         | refine Touch.andThen ?_ fun _ => ?_ | refine Touch.cond ?_ ?_
         | refine Touch.foldState _ _ fun _ _ => ?_)
    | split

theorem planPressure_only (p : Nat) (x : Planning) : Touches [.mem, .poison, .ecc, .params, .frames, .reels, .insts,
    .nodes, .dead, .life, .elo] (planPressure p x) := by
  unfold planPressure
  repeat' first
    | (with_reducible first
         | exact Touch.read | exact Touch.ret _ | exact (evictRank_only ..).wider (by decide) | exact (planPark_only ..).wider (by decide)
         | refine Touch.readThen fun _ => ?_ | refine Touch.andThen ?_ fun _ => ?_
         | refine Touch.cond ?_ ?_ | refine Touch.foldState _ _ fun _ _ => ?_)
    | split

theorem planStep_only (p story : Nat) : Touches [.mem, .poison, .ueFull, .ecc, .params, .eff, .places, .placesNext, .rel,
    .win, .dieCopies, .faultLog, .flashDue, .subs, .hostPorts, .frames, .reels, .doors, .insts, .nodes, .fltPending, .dead, .life, .elo, .out] (planStep p story) := by
  unfold planStep
  repeat' first
    | (with_reducible first
         | exact Touch.read | exact (planLatch_only ..).wider (by decide) | exact (setInst_only ..).wider (by decide) | exact (takeRequest_only ..).wider (by decide)
         | exact (planParks_only ..).wider (by decide) | exact (planJoin_only ..).wider (by decide) | exact (planUnparks_only ..).wider (by decide) | exact (planRunning_only ..).wider (by decide)
         | exact (planChunk_only ..).wider (by decide) | exact (planPressure_only ..).wider (by decide) | exact (trimIndex_only ..).wider (by decide) | exact (plan_only ..).wider (by decide)
         | exact (syncMaps_only ..).wider (by decide) | exact (storeTwice_only ..).wider (by decide) | exact (emit_only ..).wider (by decide)
         | refine Touch.readThen fun _ => ?_ | refine Touch.andThen ?_ fun _ => ?_
         | refine Touch.cond ?_ ?_ | refine Touch.each _ fun _ => ?_
         | refine Touch.foldState _ _ fun _ _ => ?_)

theorem plan_only (p story : Nat) : Touches [.mem, .poison, .ueFull, .ecc, .params, .eff, .places, .placesNext, .rel, .win, .dieCopies, .faultLog, .flashDue, .subs, .hostPorts, .frames, .reels, .doors, .insts, .nodes, .fltPending, .dead, .life, .elo, .out] (plan p story) :=
  Touch.readThen fun _ => Touch.onlyIf _ (planStep_only p story)

/-! ## Norm -/

theorem putArmed_only (p : Nat) : Touches [.params] (putArmed p) := by
  unfold putArmed
  repeat' first
    | (with_reducible first
         | exact Touch.read | exact (setPar_only ..).wider (by decide) | refine Touch.readThen fun _ => ?_)

theorem updateBaselines_only (p : Nat) : Touches [.params, .insts] (updateBaselines p) := by
  unfold updateBaselines
  repeat' first
    | (with_reducible first
         | exact Touch.read | exact (setInst_only ..).wider (by decide) | exact (putArmed_only ..).wider (by decide) | refine Touch.readThen fun _ => ?_
         | refine Touch.andThen ?_ fun _ => ?_)

theorem seedBaselines_only (p : Nat) : Touches [.poison, .ueFull, .ecc, .params, .rel, .win, .dieCopies, .faultLog,
    .flashDue, .insts, .fltPending] (seedBaselines p) := by
  unfold seedBaselines
  repeat' first
    | (with_reducible first
         | exact Touch.skip | exact Touch.read | exact (setInst_only ..).wider (by decide) | exact (load_only ..).wider (by decide)
         | exact (putArmed_only ..).wider (by decide) | refine Touch.readThen fun _ => ?_ | refine Touch.andThen ?_ fun _ => ?_
         | refine Touch.onlyIf _ ?_ | refine Touch.cond ?_ ?_ | refine Touch.each _ fun _ => ?_)

theorem normProfileSave_only (p : Nat) : Touches [.mem, .poison, .ecc, .params, .dead] (normProfileSave p) := by
  unfold normProfileSave
  repeat' first
    | (with_reducible first
         | exact Touch.skip | exact Touch.read | exact (store_only ..).wider (by decide) | refine Touch.readThen fun _ => ?_
         | refine Touch.andThen ?_ fun _ => ?_ | refine Touch.cond ?_ ?_)

theorem normJump_only (p layer slate : Nat) (d : Option Int) (out : Nat) : Touches [.params, .subs, .hostPorts, .insts,
    .fltPending, .out, .freeIx] (normJump p layer slate d out) := by
  unfold normJump
  repeat' first
    | (with_reducible first
         | exact Touch.read | exact (bump_only ..).wider (by decide) | exact (setInst_only ..).wider (by decide) | exact (raiseEvent_only ..).wider (by decide)
         | refine Touch.readThen fun _ => ?_ | refine Touch.andThen ?_ fun _ => ?_
         | refine Touch.cond ?_ ?_)
    | (with_reducible refine Touch.change fun _ => ?_); first | rfl | ((repeat' split) <;> rfl)

theorem noteFlag_only (p layer slate : Nat) (d : Option Int) : Touches [.params, .subs, .hostPorts, .insts, .fltPending,
    .out, .freeIx] (noteFlag p layer slate d) := by
  unfold noteFlag
  repeat' first
    | (with_reducible first
         | exact (bump_only ..).wider (by decide) | exact (normJump_only ..).wider (by decide) | refine Touch.andThen ?_ fun _ => ?_)

theorem noteFault_only (p layer slate : Nat) (d : Option Int) : Touches [.params, .subs, .hostPorts, .insts, .fltPending,
    .out, .freeIx] (noteFault p layer slate d) := by
  unfold noteFault
  repeat' first
    | (with_reducible first
         | exact (bump_only ..).wider (by decide) | exact (setInst_only ..).wider (by decide) | exact (normJump_only ..).wider (by decide) | refine Touch.andThen ?_ fun _ => ?_)

theorem setWatch_only (p k : Nat) (f : WatchRun → WatchRun) : Touches [.insts] (setWatch p k f) := by
  unfold setWatch
  repeat' first
    | (with_reducible first
         | exact (setInst_only ..).wider (by decide))

theorem closeWatch_only (p k : Nat) : Touches [.insts] (closeWatch p k) := by
  unfold closeWatch
  repeat' first
    | (with_reducible first
         | exact (setWatch_only ..).wider (by decide) | exact (setInst_only ..).wider (by decide) | refine Touch.andThen ?_ fun _ => ?_)

theorem startWatch_only (c : Cmd) (w : Watch) : Touches [.insts] (startWatch c w) := by
  unfold startWatch
  repeat' first
    | (with_reducible first
         | exact Touch.read | exact Touch.ret _ | exact (setInst_only ..).wider (by decide) | refine Touch.readThen fun _ => ?_
         | refine Touch.andThen ?_ fun _ => ?_)
    | split

theorem endWatch_only (p k : Nat) (r : WatchRun) : Touches [.params, .insts] (endWatch p k r) := by
  unfold endWatch
  repeat' first
    | (with_reducible first
         | exact Touch.read | exact (bump_only ..).wider (by decide) | exact (setWatch_only ..).wider (by decide) | exact (closeWatch_only ..).wider (by decide)
         | refine Touch.readThen fun _ => ?_ | refine Touch.andThen ?_ fun _ => ?_
         | refine Touch.onlyIf _ ?_)

theorem endCopy_only (p k : Nat) (ps : List Drained) (ended : Bool) : Touches [.params, .insts] (endCopy p k ps ended) := by
  unfold endCopy
  repeat' first
    | (with_reducible first
         | exact Touch.skip | exact Touch.read | exact (setWatch_only ..).wider (by decide) | exact (endWatch_only ..).wider (by decide)
         | refine Touch.readThen fun _ => ?_ | refine Touch.andThen ?_ fun _ => ?_
         | refine Touch.onlyIf _ ?_)
    | split

theorem noteProducer_only (c : Cmd) (layer : Nat) : Touches [.insts] (noteProducer c layer) := by
  unfold noteProducer
  repeat' first
    | (with_reducible first
         | exact Touch.read | exact (setInst_only ..).wider (by decide) | refine Touch.readThen fun _ => ?_)

theorem watched_only {l : List Piece} (hl : [.params, .insts, .drain].all l.contains = true) (body : Cmd → M End) (c : Cmd)
    (hbody : ∀ x0, Touches l (body x0)) : Touches l (watched body c) := by
  unfold watched
  repeat' first
    | (with_reducible first
         | exact Touch.read | exact Touch.ret _ | exact hbody .. | exact (noteProducer_only ..).wider (wide_trans (by decide) hl)
         | exact (startWatch_only ..).wider (wide_trans (by decide) hl) | exact (endCopy_only ..).wider (wide_trans (by decide) hl) | refine Touch.readThen fun _ => ?_
         | refine Touch.andThen ?_ fun _ => ?_ | refine Touch.cond ?_ ?_)
    | (with_reducible refine Touch.change fun _ => ?_); exact SameBut.wider (l := [.params, .insts, .drain]) rfl hl
    | split

theorem normDecision_only (p : Nat) : Touches [.params, .subs, .hostPorts, .insts, .fltPending, .out, .freeIx]
    (normDecision p) := by
  unfold normDecision
  repeat' first
    | (with_reducible first
         | exact Touch.skip | exact Touch.read | exact (noteFlag_only ..).wider (by decide) | exact (noteFault_only ..).wider (by decide)
         | exact (bump_only ..).wider (by decide) | exact (setInst_only ..).wider (by decide) | exact (closeWatch_only ..).wider (by decide) | exact (setWatch_only ..).wider (by decide)
         | refine Touch.readThen fun _ => ?_ | refine Touch.andThen ?_ fun _ => ?_
         | refine Touch.cond ?_ ?_ | refine Touch.each _ fun _ => ?_)
    | split

theorem fallbackVerdict_only (p : Nat) : Touches [.params, .subs, .hostPorts, .insts, .fltPending, .out, .freeIx]
    (fallbackVerdict p) := by
  unfold fallbackVerdict
  repeat' first
    | (with_reducible first
         | exact Touch.skip | exact Touch.read | exact (setInst_only ..).wider (by decide) | exact (bump_only ..).wider (by decide)
         | exact (normJump_only ..).wider (by decide) | exact (noteFault_only ..).wider (by decide) | exact (closeWatch_only ..).wider (by decide)
         | refine Touch.readThen fun _ => ?_ | refine Touch.andThen ?_ fun _ => ?_
         | refine Touch.cond ?_ ?_ | refine Touch.each _ fun _ => ?_)
    | split

theorem startNorm_only (p : Nat) : Touches [.poison, .ueFull, .ecc, .params, .eff, .rel, .win, .dieCopies, .faultLog,
    .flashDue, .insts, .fltPending] (startNorm p) := by
  unfold startNorm
  repeat' first
    | (with_reducible first
         | exact Touch.read | exact (par_only ..).wider (by decide) | exact (setEff_only ..).wider (by decide) | exact (setPar_only ..).wider (by decide)
         | exact (seedBaselines_only ..).wider (by decide) | refine Touch.readThen fun _ => ?_
         | refine Touch.andThen ?_ fun _ => ?_ | refine Touch.each _ fun _ => ?_)

/-! ## Experts -/

theorem readRouteTab_only (w : Who) (p layer : Nat) : Touches [.poison, .ueFull, .ecc, .params, .rel, .win, .dieCopies,
    .faultLog, .flashDue, .fltPending] (readRouteTab w p layer) := by
  unfold readRouteTab
  repeat' first
    | (with_reducible first
         | exact Touch.read | exact Touch.ret _ | exact (load_only ..).wider (by decide) | refine Touch.readThen fun _ => ?_
         | refine Touch.andThen ?_ fun _ => ?_ | refine Touch.cond ?_ ?_)

theorem setExchange_only (p region : Nat) (f : Exchange → Exchange) : Touches [.insts] (setExchange p region f) := by
  unfold setExchange
  repeat' first
    | (with_reducible first
         | exact (setInst_only ..).wider (by decide))

theorem bodyRoute_only (c : Cmd) : Touches [.mem, .poison, .ueFull, .ecc, .params, .engines, .rel, .win, .dieCopies,
    .faultLog, .flashDue, .insts, .fltPending, .dead] (bodyRoute c) := by
  unfold bodyRoute
  repeat' first
    | (with_reducible first
         | exact Touch.read | exact Touch.ret _ | exact (clampDesc_only ..).wider (by decide) | exact (clampLayer_only ..).wider (by decide)
         | exact (setExchange_only ..).wider (by decide) | exact (readCoded_only ..).wider (by decide) | exact (readRouteTab_only ..).wider (by decide) | exact (readRow_only ..).wider (by decide)
         | exact (store_only ..).wider (by decide) | exact (bump_only ..).wider (by decide) | exact (unitsDone_only ..).wider (by decide) | refine Touch.readThen fun _ => ?_
         | refine Touch.andThen ?_ fun _ => ?_ | refine Touch.onlyIf _ ?_ | refine Touch.cond ?_ ?_
         | refine Touch.each _ fun _ => ?_)

theorem startExperts_only (p : Nat) : Touches [.eff] (startExperts p) := by
  unfold startExperts
  repeat' first
    | (with_reducible first
         | exact (par_only ..).wider (by decide) | exact (setEff_only ..).wider (by decide) | refine Touch.andThen ?_ fun _ => ?_
         | refine Touch.each _ fun _ => ?_)

theorem startExchange_only (p : Nat) : Touches [.poison, .ueFull, .ecc, .params, .rel, .win, .dieCopies, .faultLog,
    .flashDue, .insts, .fltPending] (startExchange p) := by
  unfold startExchange
  repeat' first
    | (with_reducible first
         | exact Touch.read | exact Touch.ret _ | exact (setInst_only ..).wider (by decide) | exact (load_only ..).wider (by decide) | exact (setPar_only ..).wider (by decide)
         | refine Touch.readThen fun _ => ?_ | refine Touch.andThen ?_ fun _ => ?_
         | refine Touch.cond ?_ ?_)

theorem expCue_only (p cue : Nat) : Touches [.mem, .poison, .ueFull, .ecc, .params, .rel, .win, .dieCopies, .faultLog,
    .flashDue, .insts, .fltPending, .dead] (expCue p cue) := by
  unfold expCue
  repeat' first
    | (with_reducible first
         | exact Touch.read | exact (setInst_only ..).wider (by decide) | exact (signalCue_only ..).wider (by decide)
         | refine Touch.readThen fun _ => ?_)
    | (with_reducible first
         | refine Touch.andThen ?_ fun _ => ?_)

theorem sendBatch_only (c : Cmd) (layer dst' : Nat) (ret : Bool) (stage units : Nat) (rows : List ExRow) : Touches
    [.params, .out] (sendBatch c layer dst' ret stage units rows) := by
  unfold sendBatch
  repeat' first
    | (with_reducible first
         | exact Touch.read | exact (emit_only ..).wider (by decide) | exact (bump_only ..).wider (by decide) | refine Touch.readThen fun _ => ?_
         | refine Touch.andThen ?_ fun _ => ?_)

theorem putRow_only (w : Who) (a : Nat) (x : ExRow) : Touches [.mem, .poison, .ecc, .params, .dead] (putRow w a x) := by
  unfold putRow
  repeat' first
    | (with_reducible first
         | exact (store_only ..).wider (by decide) | exact (storePoison_only ..).wider (by decide) | refine Touch.andThen ?_ fun _ => ?_
         | refine Touch.onlyIf _ ?_)

theorem getRow_only (w : Who) (a n : Nat) : Touches [.poison, .ueFull, .ecc, .params, .rel, .win, .dieCopies, .faultLog,
    .flashDue, .fltPending] (getRow w a n) := by
  unfold getRow
  repeat' first
    | (with_reducible first
         | exact Touch.ret _ | exact (load_only ..).wider (by decide) | refine Touch.andThen ?_ fun _ => ?_)

theorem landRow_only (w : Who) (p : Nat) (x : ExRow) : Touches [.mem, .poison, .ecc, .params, .insts, .dead] (landRow w p
    x) := by
  unfold landRow
  repeat' first
    | (with_reducible first
         | exact Touch.read | exact (putRow_only ..).wider (by decide) | exact (storeVal_only ..).wider (by decide) | exact (setExchange_only ..).wider (by decide)
         | refine Touch.readThen fun _ => ?_ | refine Touch.andThen ?_ fun _ => ?_)

theorem landReturn_only (w : Who) (p : Nat) (x : ExRow) : Touches [.mem, .poison, .ecc, .params, .dead] (landReturn w p x) := by
  unfold landReturn
  repeat' first
    | (with_reducible first
         | exact Touch.read | exact (putRow_only ..).wider (by decide) | refine Touch.readThen fun _ => ?_)

theorem takeForward_only (w : Who) (p : Nat) (ret : Bool) : Touches [.poison, .ueFull, .ecc, .params, .rel, .win,
    .dieCopies, .faultLog, .flashDue, .insts, .fltPending] (takeForward w p ret) := by
  unfold takeForward
  repeat' first
    | (with_reducible first
         | exact Touch.read | exact Touch.ret _ | exact (getRow_only ..).wider (by decide) | exact (setExchange_only ..).wider (by decide)
         | refine Touch.readThen fun _ => ?_ | refine Touch.andThen ?_ fun _ => ?_
         | refine Touch.cond ?_ ?_ | refine Touch.collect _ fun _ => ?_)

theorem sendStage_only {l : List Piece} (hl : [.mem, .poison, .ueFull, .ecc, .params, .rel, .win, .dieCopies, .faultLog,
    .flashDue, .insts, .fltPending, .dead, .out].all l.contains = true) (c : Cmd) (layer : Nat) (ret : Bool) (units : Nat) (dest : Nat → Nat) (own : List ExRow)
    (land : ExRow → M Unit) (hland : ∀ x0, Touches l (land x0)) : Touches l (sendStage c layer ret units dest own land) := by
  unfold sendStage
  repeat' first
    | (with_reducible first
         | exact Touch.read | exact hland .. | exact (takeForward_only ..).wider (wide_trans (by decide) hl) | exact (sendBatch_only ..).wider (wide_trans (by decide) hl)
         | exact (expCue_only ..).wider (wide_trans (by decide) hl) | refine Touch.readThen fun _ => ?_ | refine Touch.andThen ?_ fun _ => ?_
         | refine Touch.cond ?_ ?_ | refine Touch.each _ fun _ => ?_)

theorem bodyDispatch_only (c : Cmd) : Touches [.mem, .poison, .ueFull, .ecc, .params, .rel, .win, .dieCopies, .faultLog,
    .flashDue, .insts, .fltPending, .dead, .out] (bodyDispatch c) := by
  unfold bodyDispatch
  repeat' first
    | (with_reducible first
         | exact Touch.read | exact Touch.ret _ | exact (clampLayer_only ..).wider (by decide) | exact (load_only ..).wider (by decide)
         | refine sendStage_only (by decide) (hland := fun _ => ?_) .. | exact (landRow_only ..).wider (by decide)
         | refine Touch.readThen fun _ => ?_ | refine Touch.andThen ?_ fun _ => ?_
         | refine Touch.cond ?_ ?_ | refine Touch.collect _ fun _ => ?_)

theorem bodyGather_only (c : Cmd) : Touches [.mem, .poison, .ueFull, .ecc, .params, .rel, .win, .dieCopies, .faultLog,
    .flashDue, .insts, .fltPending, .dead] (bodyGather c) := by
  unfold bodyGather
  repeat' first
    | (with_reducible first
         | exact Touch.read | exact Touch.ret _ | exact (clampLayer_only ..).wider (by decide) | exact (getRow_only ..).wider (by decide)
         | exact (bump_only ..).wider (by decide) | exact (putRow_only ..).wider (by decide) | exact (store_only ..).wider (by decide) | exact (setExchange_only ..).wider (by decide)
         | refine Touch.readThen fun _ => ?_ | refine Touch.andThen ?_ fun _ => ?_
         | refine Touch.each _ fun _ => ?_ | refine Touch.collect _ fun _ => ?_)

theorem writeList_only (w : Who) (a template : Nat) (kind : Kind) (tileM cols : Nat) (items : List (Nat × Nat × Nat × Nat))
    : Touches [.mem, .poison, .ecc, .params, .dead] (writeList w a template kind tileM cols items) := by
  unfold writeList
  repeat' first
    | (with_reducible first
         | exact (store_only ..).wider (by decide))

theorem bodyBuildLists_only (c : Cmd) : Touches [.mem, .poison, .ueFull, .ecc, .params, .rel, .win, .dieCopies, .faultLog,
    .flashDue, .fltPending, .dead] (bodyBuildLists c) := by
  unfold bodyBuildLists
  repeat' first
    | (with_reducible first
         | exact Touch.read | exact Touch.ret _ | exact (clampLayer_only ..).wider (by decide) | exact (bump_only ..).wider (by decide)
         | exact (load_only ..).wider (by decide) | exact (writeList_only ..).wider (by decide) | refine Touch.readThen fun _ => ?_
         | refine Touch.andThen ?_ fun _ => ?_ | refine Touch.cond ?_ ?_ | refine Touch.collect _ fun _ => ?_)
    | split

theorem bodyReturn_only (c : Cmd) : Touches [.mem, .poison, .ueFull, .ecc, .params, .rel, .win, .dieCopies, .faultLog,
    .flashDue, .insts, .fltPending, .dead, .out] (bodyReturn c) := by
  unfold bodyReturn
  repeat' first
    | (with_reducible first
         | exact Touch.read | exact Touch.ret _ | exact (clampLayer_only ..).wider (by decide) | exact (load_only ..).wider (by decide)
         | exact (storeVal_only ..).wider (by decide) | refine sendStage_only (by decide) (hland := fun _ => ?_) .. | exact (landReturn_only ..).wider (by decide)
         | refine Touch.readThen fun _ => ?_ | refine Touch.andThen ?_ fun _ => ?_
         | refine Touch.cond ?_ ?_ | refine Touch.collect _ fun _ => ?_)

theorem dropIssued_only (p : Nat) : Touches [.engines] (dropIssued p) := by
  unfold dropIssued
  repeat' first
    | (with_reducible first
         | refine Touch.andThen ?_ fun _ => ?_)
    | (with_reducible refine Touch.change fun _ => ?_); rfl

theorem bodyCombine_only (c : Cmd) : Touches [.mem, .poison, .ueFull, .ecc, .params, .rel, .win, .dieCopies, .faultLog,
    .flashDue, .insts, .fltPending, .dead] (bodyCombine c) := by
  unfold bodyCombine
  repeat' first
    | (with_reducible first
         | exact Touch.skip | exact Touch.read | exact Touch.ret _ | exact (clampLayer_only ..).wider (by decide)
         | exact (readOperand_only ..).wider (by decide) | exact (load_only ..).wider (by decide) | exact (getRow_only ..).wider (by decide) | exact (writeOutputs_only ..).wider (by decide)
         | exact (markPoisoned_only ..).wider (by decide) | refine Touch.readThen fun _ => ?_ | refine Touch.andThen ?_ fun _ => ?_
         | refine Touch.onlyIf _ ?_ | refine Touch.cond ?_ ?_ | refine Touch.each _ fun _ => ?_
         | refine Touch.foldState _ _ fun _ _ => ?_)
    | split

theorem acceptBatch_only (b : ExpBatch) : Touches [.mem, .poison, .ueFull, .ecc, .params, .rel, .win, .dieCopies,
    .faultLog, .flashDue, .insts, .fltPending, .dead] (acceptBatch b) := by
  unfold acceptBatch
  repeat' first
    | (with_reducible first
         | exact Touch.read | exact (landReturn_only ..).wider (by decide) | exact (putRow_only ..).wider (by decide) | exact (setExchange_only ..).wider (by decide)
         | exact (landRow_only ..).wider (by decide) | exact (expCue_only ..).wider (by decide) | refine Touch.readThen fun _ => ?_
         | refine Touch.andThen ?_ fun _ => ?_ | refine Touch.cond ?_ ?_ | refine Touch.each _ fun _ => ?_)

theorem dropBatch_only (b : ExpBatch) : Touches [.params] (dropBatch b) := by
  unfold dropBatch
  repeat' first
    | (with_reducible first
         | exact (bump_only ..).wider (by decide) | refine Touch.andThen ?_ fun _ => ?_)

theorem expReceive_only (b : ExpBatch) : Touches [.mem, .poison, .ueFull, .ecc, .params, .rel, .win, .dieCopies, .faultLog,
    .flashDue, .insts, .fltPending, .dead] (expReceive b) := by
  unfold expReceive
  repeat' first
    | (with_reducible first
         | exact Touch.read | exact (bump_only ..).wider (by decide) | exact (dropBatch_only ..).wider (by decide) | exact (setInst_only ..).wider (by decide)
         | exact (acceptBatch_only ..).wider (by decide) | refine Touch.readThen fun _ => ?_ | refine Touch.andThen ?_ fun _ => ?_
         | refine Touch.cond ?_ ?_)

theorem recheckHeld_only (p step : Nat) : Touches [.mem, .poison, .ueFull, .ecc, .params, .rel, .win, .dieCopies,
    .faultLog, .flashDue, .insts, .fltPending, .dead] (recheckHeld p step) := by
  unfold recheckHeld
  repeat' first
    | (with_reducible first
         | exact Touch.read | exact (setInst_only ..).wider (by decide) | exact (expReceive_only ..).wider (by decide)
         | refine Touch.readThen fun _ => ?_ | refine Touch.andThen ?_ fun _ => ?_
         | refine Touch.each _ fun _ => ?_)

theorem dropHeld_only (p step : Nat) : Touches [.params, .insts] (dropHeld p step) := by
  unfold dropHeld
  repeat' first
    | (with_reducible first
         | exact Touch.read | exact (setInst_only ..).wider (by decide) | exact (dropBatch_only ..).wider (by decide)
         | refine Touch.readThen fun _ => ?_ | refine Touch.andThen ?_ fun _ => ?_
         | refine Touch.each _ fun _ => ?_)

/-! ## Serve -/

theorem putRecord_only (p r : Nat) : Touches [.mem, .poison, .ecc, .params, .insts, .dead] (putRecord p r) := by
  unfold putRecord
  repeat' first
    | (with_reducible first
         | exact Touch.read | exact (storeVal_only ..).wider (by decide) | exact (setInst_only ..).wider (by decide) | refine Touch.readThen fun _ => ?_
         | refine Touch.andThen ?_ fun _ => ?_)

theorem writeRecord_only (p r : Nat) : Touches [.mem, .poison, .ecc, .params, .insts, .dead] (writeRecord p r) := by
  unfold writeRecord
  repeat' first
    | (with_reducible first
         | exact Touch.read | exact (putRecord_only ..).wider (by decide) | exact (setInst_only ..).wider (by decide) | exact (bump_only ..).wider (by decide)
         | refine Touch.readThen fun _ => ?_ | refine Touch.andThen ?_ fun _ => ?_
         | refine Touch.cond ?_ ?_)

theorem moveSpill_only (p : Nat) (x0 : Nat) : Touches [.mem, .poison, .ecc, .params, .insts, .dead] (moveSpill p x0) := by
  induction x0 with
  | zero =>
    unfold moveSpill
    repeat' first
      | (with_reducible first
           | exact Touch.skip)
  | succ n ih =>
    unfold moveSpill
    repeat' first
      | (with_reducible first
           | exact ih .. | exact Touch.skip | exact Touch.read | exact (putRecord_only ..).wider (by decide) | exact (setInst_only ..).wider (by decide)
           | refine Touch.readThen fun _ => ?_ | refine Touch.andThen ?_ fun _ => ?_
           | refine Touch.cond ?_ ?_)
      | split

theorem cplVector_only (p : Nat) : Touches [.hostPorts, .out] (cplVector p) := by
  unfold cplVector
  repeat' first
    | (with_reducible first
         | exact Touch.skip | exact Touch.read | exact (sendMsix_only ..).wider (by decide) | refine Touch.readThen fun _ => ?_
         | refine Touch.andThen ?_ fun _ => ?_)
    | split

theorem allocateStep_only (p step : Nat) : Touches [.mem, .poison, .ecc, .params, .frames, .reels, .reelImage, .insts,
    .dead] (allocateStep p step) := by
  unfold allocateStep
  repeat' first
    | (with_reducible first
         | exact Touch.read | exact (allocFrame_only ..).wider (by decide) | exact (refreshAvail_only ..).wider (by decide) | exact (syncReels_only ..).wider (by decide)
         | exact (setInst_only ..).wider (by decide) | refine Touch.readThen fun _ => ?_ | refine Touch.andThen ?_ fun _ => ?_
         | refine Touch.each _ fun _ => ?_)

theorem advanceAlloc_only (p step : Nat) (x0 : Nat) : Touches [.mem, .poison, .ecc, .params, .frames, .reels, .reelImage,
    .insts, .dead] (advanceAlloc p step x0) := by
  induction x0 with
  | zero =>
    unfold advanceAlloc
    repeat' first
      | (with_reducible first
           | exact Touch.skip | exact Touch.read | exact (allocateStep_only ..).wider (by decide))
  | succ n ih =>
    unfold advanceAlloc
    repeat' first
      | (with_reducible first
           | exact ih .. | exact Touch.skip | exact Touch.read | exact (allocateStep_only ..).wider (by decide)
           | exact (allocCopy_only ..).wider (by decide) | exact (allocUnpark_only ..).wider (by decide) | exact (setInst_only ..).wider (by decide)
           | refine Touch.readThen fun _ => ?_ | refine Touch.andThen ?_ fun _ => ?_
           | refine Touch.cond ?_ ?_)
      | split

theorem receiveSheet_only (p : Nat) (c : CallSheet) : Touches [.mem, .poison, .ecc, .params, .eff, .places, .placesNext,
    .frames, .reels, .reelImage, .insts, .dead, .life, .elo] (receiveSheet p c) := by
  unfold receiveSheet
  repeat' first
    | (with_reducible first
         | exact Touch.skip | exact Touch.read | exact (clampDesc_only ..).wider (by decide) | exact (storeTwice_only ..).wider (by decide)
         | exact (planLatch_only ..).wider (by decide) | exact (setInst_only ..).wider (by decide) | exact (advanceAlloc_only ..).wider (by decide)
         | refine Touch.readThen fun _ => ?_ | refine Touch.andThen ?_ fun _ => ?_
         | refine Touch.onlyIf _ ?_ | refine Touch.cond ?_ ?_)

theorem attachEntry_only (p : Nat) : Touches [.mem, .poison, .ecc, .params, .frames, .reels, .reelImage, .insts, .dead]
    (attachEntry p) := by
  unfold attachEntry
  repeat' first
    | (with_reducible first
         | exact Touch.skip | exact Touch.read | exact (applyAttach_only ..).wider (by decide) | exact (setInst_only ..).wider (by decide)
         | exact (advanceAlloc_only ..).wider (by decide) | refine Touch.readThen fun _ => ?_ | refine Touch.andThen ?_ fun _ => ?_
         | refine Touch.cond ?_ ?_)
    | split

theorem readDrafts_only (p slate d committed : Nat) : Touches [.poison, .ueFull, .ecc, .params, .rel, .win, .dieCopies,
    .faultLog, .flashDue, .fltPending] (readDrafts p slate d committed) := by
  unfold readDrafts
  repeat' first
    | (with_reducible first
         | exact Touch.read | exact Touch.ret _ | exact (load_only ..).wider (by decide) | refine Touch.readThen fun _ => ?_
         | refine Touch.andThen ?_ fun _ => ?_)

theorem switchTable_only (p step : Nat) : Touches [.params, .insts] (switchTable p step) := by
  unfold switchTable
  repeat' first
    | (with_reducible first
         | exact Touch.skip | exact Touch.read | exact (setPar_only ..).wider (by decide) | exact (setInst_only ..).wider (by decide)
         | refine Touch.readThen fun _ => ?_ | refine Touch.andThen ?_ fun _ => ?_
         | refine Touch.cond ?_ ?_)

theorem startStory_only (p a : Nat) : Touches [.poison, .ueFull, .ecc, .params, .rel, .win, .dieCopies, .stories,
    .faultLog, .flashDue, .insts, .fltPending] (startStory p a) := by
  unfold startStory
  repeat' first
    | (with_reducible first
         | exact Touch.skip | exact Touch.read | exact (load_only ..).wider (by decide) | exact (storyBad_only ..).wider (by decide)
         | refine Touch.readThen fun _ => ?_ | refine Touch.andThen ?_ fun _ => ?_
         | refine Touch.cond ?_ ?_)
    | (with_reducible refine Touch.change fun _ => ?_); rfl

theorem beginRun_only (p n : Nat) : Touches [.mem, .poison, .ueFull, .ecc, .params, .eff, .rel, .win, .dieCopies, .stories,
    .faultLog, .flashDue, .insts, .fltPending, .dead, .gone] (beginRun p n) := by
  unfold beginRun
  repeat' first
    | (with_reducible first
         | exact Touch.skip | exact Touch.read | exact Touch.ret _ | exact (par_only ..).wider (by decide) | exact (setEff_only ..).wider (by decide)
         | exact (switchTable_only ..).wider (by decide) | exact (readDrafts_only ..).wider (by decide) | exact (setInst_only ..).wider (by decide) | exact (startStory_only ..).wider (by decide)
         | exact (writeWalk_only ..).wider (by decide) | exact (recheckHeld_only ..).wider (by decide) | refine Touch.readThen fun _ => ?_
         | refine Touch.andThen ?_ fun _ => ?_ | refine Touch.cond ?_ ?_ | refine Touch.each _ fun _ => ?_
         | refine Touch.collect _ fun _ => ?_)

theorem runStart_only (p : Nat) : Touches [.mode, .mem, .poison, .ueFull, .ecc, .params, .eff, .engines, .rel, .win,
    .dieCopies, .slots, .stories, .faultLog, .flashDue, .subs, .hostPorts, .insts, .fltPending, .dead, .dumpRun, .links, .gone, .spray, .power, .life, .elo, .out] (runStart p) := by
  unfold runStart
  repeat' first
    | (with_reducible first
         | exact Touch.skip | exact Touch.read | exact (readCopies_only ..).wider (by decide) | exact (readReels_only ..).wider (by decide)
         | exact (beginRun_only ..).wider (by decide) | refine Touch.readThen fun _ => ?_ | refine Touch.andThen ?_ fun _ => ?_
         | refine Touch.cond ?_ ?_)

theorem doneEntry_only (p e : Nat) : Touches [.insts] (doneEntry p e) := by
  unfold doneEntry
  repeat' first
    | (with_reducible first
         | exact (setInst_only ..).wider (by decide))

theorem runEntry_only {l : List Piece} (hl : [.insts].all l.contains = true) (p op : Nat) (f : Nat → M Unit) (hf : ∀ x0,
    Touches l (f x0)) : Touches l (runEntry p op f) := by
  unfold runEntry
  repeat' first
    | (with_reducible first
         | exact Touch.skip | exact Touch.read | exact hf .. | exact (doneEntry_only ..).wider (wide_trans (by decide) hl)
         | refine Touch.readThen fun _ => ?_ | refine Touch.andThen ?_ fun _ => ?_)
    | split

theorem readDrawn_only (p slate a n : Nat) : Touches [.poison, .ueFull, .ecc, .params, .rel, .win, .dieCopies, .faultLog,
    .flashDue, .insts, .fltPending] (readDrawn p slate a n) := by
  unfold readDrawn
  repeat' first
    | (with_reducible first
         | exact Touch.ret _ | exact (load_only ..).wider (by decide) | exact (markPoisoned_only ..).wider (by decide)
         | refine Touch.andThen ?_ fun _ => ?_ | refine Touch.onlyIf _ ?_)

theorem noToken_only (p slate : Nat) (ts : List Nat) : Touches [.insts] (noToken p slate ts) := by
  unfold noToken
  repeat' first
    | (with_reducible first
         | exact (setInst_only ..).wider (by decide) | refine Touch.andThen ?_ fun _ => ?_ | refine Touch.onlyIf _ ?_)

theorem takeEntry_only (p slate tokenAddr : Nat) : Touches [.poison, .ueFull, .ecc, .params, .rel, .win, .dieCopies,
    .faultLog, .flashDue, .insts, .fltPending] (takeEntry p slate tokenAddr) := by
  unfold takeEntry
  repeat' first
    | (with_reducible first
         | exact Touch.skip | exact Touch.read | exact (readDrawn_only ..).wider (by decide) | exact (noToken_only ..).wider (by decide)
         | exact (setInst_only ..).wider (by decide) | exact (doneEntry_only ..).wider (by decide) | refine Touch.readThen fun _ => ?_
         | refine Touch.andThen ?_ fun _ => ?_)
    | split
    | dsimp only

theorem takeReport_only (p rank : Nat) (entries : List Nat) : Touches [.insts] (takeReport p rank entries) := by
  unfold takeReport
  repeat' first
    | (with_reducible first
         | exact Touch.skip | exact Touch.read | exact (setInst_only ..).wider (by decide) | refine Touch.readThen fun _ => ?_
         | refine Touch.andThen ?_ fun _ => ?_ | refine Touch.cond ?_ ?_)

theorem ownReport_only (p : Nat) (draws : List (Nat × Nat)) : Touches [.poison, .ueFull, .ecc, .params, .rel, .win,
    .dieCopies, .faultLog, .flashDue, .insts, .fltPending, .out] (ownReport p draws) := by
  unfold ownReport
  repeat' first
    | (with_reducible first
         | exact Touch.skip | exact Touch.read | exact (readDrawn_only ..).wider (by decide) | exact (noToken_only ..).wider (by decide)
         | exact (setInst_only ..).wider (by decide) | exact (takeReport_only ..).wider (by decide) | exact (emit_only ..).wider (by decide) | refine Touch.readThen fun _ => ?_
         | refine Touch.andThen ?_ fun _ => ?_ | refine Touch.cond ?_ ?_ | refine Touch.each _ fun _ => ?_)
    | split
    | dsimp only

theorem normWord_only (p : Nat) (m : NormMsg) : Touches [.insts, .out] (normWord p m) := by
  unfold normWord
  repeat' first
    | (with_reducible first
         | exact Touch.skip | exact Touch.read | exact (emit_only ..).wider (by decide) | exact (setInst_only ..).wider (by decide)
         | refine Touch.readThen fun _ => ?_ | refine Touch.andThen ?_ fun _ => ?_
         | refine Touch.cond ?_ ?_)
    | split
    | dsimp only

theorem dropUsers_only (x0 : Nat) (x1 : Nat) : Touches [.poison, .params, .faultLog, .flashDue, .nodes, .fltPending]
    (dropUsers x0 x1) := by
  induction x0 generalizing x1 with
  | zero =>
    unfold dropUsers
    repeat' first
      | (with_reducible first
           | exact Touch.skip)
  | succ n ih =>
    unfold dropUsers
    repeat' first
      | (with_reducible first
           | exact ih .. | exact Touch.skip | exact Touch.read | exact (loseNode_only ..).wider (by decide) | exact (setNode_only ..).wider (by decide)
           | refine Touch.readThen fun _ => ?_ | refine Touch.andThen ?_ fun _ => ?_
           | refine Touch.cond ?_ ?_)

theorem dropChain_only (q : LeadSeq) : Touches [.poison, .params, .faultLog, .flashDue, .nodes, .fltPending] (dropChain q) := by
  unfold dropChain
  repeat' first
    | (with_reducible first
         | exact Touch.skip | exact (dropUsers_only ..).wider (by decide) | refine Touch.andThen ?_ fun _ => ?_)
    | split

theorem retire_only (p step : Nat) (q : LeadSeq) (committed status acc : Nat) : Touches [.mem, .poison, .ecc, .params,
    .faultLog, .flashDue, .insts, .nodes, .fltPending, .dead] (retire p step q committed status acc) := by
  unfold retire
  repeat' first
    | (with_reducible first
         | exact (dropChain_only ..).wider (by decide) | exact (setSlate_only ..).wider (by decide) | exact (setInst_only ..).wider (by decide)
         | refine Touch.andThen ?_ fun _ => ?_)

theorem retireLost_only (p : Nat) (q : LeadSeq) : Touches [.mem, .poison, .ecc, .params, .faultLog, .flashDue, .insts,
    .nodes, .fltPending, .dead] (retireLost p q) := by
  unfold retireLost
  repeat' first
    | (with_reducible first
         | exact Touch.read | exact (dropChain_only ..).wider (by decide) | exact (storeVal_only ..).wider (by decide) | exact (setInst_only ..).wider (by decide)
         | exact (retire_only ..).wider (by decide) | refine Touch.readThen fun _ => ?_ | refine Touch.andThen ?_ fun _ => ?_
         | refine Touch.cond ?_ ?_)

theorem settleInsert_only (ok : Nat → Bool) (e : Nat) : Touches [.poison, .frames, .nodes] (settleInsert ok e) := by
  unfold settleInsert
  repeat' first
    | (with_reducible first
         | exact (setNode_only ..).wider (by decide) | refine Touch.andThen ?_ fun _ => ?_ | refine Touch.onlyIf _ ?_
         | refine Touch.cond ?_ ?_)

theorem settle_only (p step : Nat) (n : PlanNote) (o : Option Nat) (q : LeadSeq) : Touches [.mem, .poison, .ecc, .params,
    .faultLog, .flashDue, .frames, .reels, .insts, .nodes, .fltPending, .dead] (settle p step n o q) := by
  unfold settle
  repeat' first
    | (with_reducible first
         | exact Touch.skip | exact (retireLost_only ..).wider (by decide) | exact (retire_only ..).wider (by decide) | exact (dropChain_only ..).wider (by decide)
         | exact (setSlate_only ..).wider (by decide) | exact (setSeq_only ..).wider (by decide) | exact (setInst_only ..).wider (by decide) | exact (bump_only ..).wider (by decide)
         | refine Touch.andThen ?_ fun _ => ?_ | refine Touch.onlyIf _ ?_ | refine Touch.cond ?_ ?_)
    | split

theorem unsettle_only (p : Nat) (n : PlanNote) (o : Option Nat) (q : LeadSeq) : Touches [.mem, .poison, .ecc, .params,
    .faultLog, .flashDue, .frames, .reels, .insts, .nodes, .fltPending, .dead] (unsettle p n o q) := by
  unfold unsettle
  repeat' first
    | (with_reducible first
         | exact Touch.skip | exact (retireLost_only ..).wider (by decide) | exact (retire_only ..).wider (by decide) | exact (dropChain_only ..).wider (by decide)
         | exact (setSlate_only ..).wider (by decide) | exact (setSeq_only ..).wider (by decide) | refine Touch.andThen ?_ fun _ => ?_
         | refine Touch.onlyIf _ ?_ | refine Touch.cond ?_ ?_)

theorem publish_only (p : Nat) (m : Notice) : Touches [.mem, .poison, .ueFull, .ecc, .params, .eff, .places, .placesNext,
    .rel, .win, .dieCopies, .faultLog, .flashDue, .subs, .hostPorts, .frames, .reels, .doors, .insts, .nodes, .fltPending, .dead, .life, .elo, .out] (publish p m) := by
  unfold publish
  repeat' first
    | (with_reducible first
         | exact Touch.read | exact (syncMaps_only ..).wider (by decide) | exact (storeTwice_only ..).wider (by decide) | exact (setInst_only ..).wider (by decide)
         | exact (plan_only ..).wider (by decide) | exact (emit_only ..).wider (by decide) | refine Touch.readThen fun _ => ?_
         | refine Touch.andThen ?_ fun _ => ?_ | refine Touch.each _ fun _ => ?_)

theorem readCancels_only (p : Nat) : Touches [.mem, .poison, .ueFull, .ecc, .params, .rel, .win, .dieCopies, .faultLog,
    .flashDue, .doors, .insts, .fltPending, .dead] (readCancels p) := by
  unfold readCancels
  repeat' first
    | (with_reducible first
         | exact Touch.read | exact (takeCancel_only ..).wider (by decide) | exact (setInst_only ..).wider (by decide)
         | refine Touch.readThen fun _ => ?_ | refine Touch.andThen ?_ fun _ => ?_
         | refine Touch.each _ fun _ => ?_)

theorem countTakes_only (p : Nat) (c : CallSheet) (os : List (Nat × Nat)) : Touches [.params] (countTakes p c os) := by
  unfold countTakes
  repeat' first
    | (with_reducible first
         | exact Touch.read | exact (bump_only ..).wider (by decide) | refine Touch.readThen fun _ => ?_
         | refine Touch.andThen ?_ fun _ => ?_ | refine Touch.each _ fun _ => ?_)

theorem commitStep_only (p : Nat) : Touches [.mem, .poison, .ueFull, .ecc, .params, .eff, .places, .placesNext, .rel, .win,
    .dieCopies, .faultLog, .flashDue, .subs, .hostPorts, .frames, .reels, .doors, .insts, .nodes, .fltPending, .dead, .life, .elo, .out] (commitStep p) := by
  unfold commitStep
  repeat' first
    | (with_reducible first
         | exact Touch.skip | exact Touch.read | exact (readCancels_only ..).wider (by decide) | exact (settle_only ..).wider (by decide)
         | exact (settleInsert_only ..).wider (by decide) | exact (bump_only ..).wider (by decide) | exact (countTakes_only ..).wider (by decide) | exact (publish_only ..).wider (by decide)
         | refine Touch.readThen fun _ => ?_ | refine Touch.andThen ?_ fun _ => ?_
         | refine Touch.cond ?_ ?_ | refine Touch.each _ fun _ => ?_)
    | split
    | dsimp only

theorem abandonWith_only (p : Nat) (n : PlanNote) (all : Bool) : Touches [.mem, .poison, .ueFull, .ecc, .params, .eff,
    .places, .placesNext, .rel, .win, .dieCopies, .faultLog, .flashDue, .subs, .hostPorts, .frames, .reels, .doors, .insts, .nodes, .fltPending, .dead, .life, .elo, .out] (abandonWith p n all) := by
  unfold abandonWith
  repeat' first
    | (with_reducible first
         | exact Touch.read | exact (readCancels_only ..).wider (by decide) | exact (raiseEvent_only ..).wider (by decide) | exact (unsettle_only ..).wider (by decide)
         | exact (settleInsert_only ..).wider (by decide) | exact (publish_only ..).wider (by decide) | refine Touch.readThen fun _ => ?_
         | refine Touch.andThen ?_ fun _ => ?_ | refine Touch.onlyIf _ ?_ | refine Touch.cond ?_ ?_
         | refine Touch.each _ fun _ => ?_)
    | (with_reducible refine Touch.change fun _ => ?_); rfl

theorem abandonStep_only (p : Nat) : Touches [.mem, .poison, .ueFull, .ecc, .params, .eff, .places, .placesNext, .rel,
    .win, .dieCopies, .faultLog, .flashDue, .subs, .hostPorts, .frames, .reels, .doors, .insts, .nodes, .fltPending, .dead, .life, .elo, .out] (abandonStep p) := by
  unfold abandonStep
  repeat' first
    | (with_reducible first
         | exact Touch.skip | exact Touch.read | exact (abandonWith_only ..).wider (by decide)
         | refine Touch.readThen fun _ => ?_ | refine Touch.andThen ?_ fun _ => ?_
         | refine Touch.cond ?_ ?_)
    | split
    | dsimp only

theorem writeRecords_only (p : Nat) (n : Notice) : Touches [.mem, .poison, .ecc, .params, .hostPorts, .insts, .dead, .out]
    (writeRecords p n) := by
  unfold writeRecords
  repeat' first
    | (with_reducible first
         | exact Touch.read | exact (bump_only ..).wider (by decide) | exact (writeRecord_only ..).wider (by decide) | exact (cplVector_only ..).wider (by decide)
         | refine Touch.readThen fun _ => ?_ | refine Touch.andThen ?_ fun _ => ?_
         | refine Touch.onlyIf _ ?_ | refine Touch.each _ fun _ => ?_)

theorem leaveSeq_only (p : Nat) (n : Notice) (slate : Nat) : Touches [.frames, .reels, .insts] (leaveSeq p n slate) := by
  unfold leaveSeq
  repeat' first
    | (with_reducible first
         | exact Touch.read | exact (holdLate_only ..).wider (by decide) | exact (releaseSeq_only ..).wider (by decide)
         | refine Touch.readThen fun _ => ?_ | refine Touch.andThen ?_ fun _ => ?_)
    | split

theorem releaseStep_only (p : Nat) (n : Notice) (c : CallSheet) : Touches [.frames, .reels, .insts] (releaseStep p n c) := by
  unfold releaseStep
  repeat' first
    | (with_reducible first
         | exact Touch.read | exact (releaseLate_only ..).wider (by decide) | exact (releaseFrom_only ..).wider (by decide) | exact (releaseSeq_only ..).wider (by decide)
         | exact (leaveSeq_only ..).wider (by decide) | refine Touch.readThen fun _ => ?_ | refine Touch.andThen ?_ fun _ => ?_
         | refine Touch.onlyIf _ ?_ | refine Touch.cond ?_ ?_ | refine Touch.each _ fun _ => ?_)

theorem countReuse_only (p : Nat) (n : Notice) (c : CallSheet) : Touches [.params] (countReuse p n c) := by
  unfold countReuse
  repeat' first
    | (with_reducible first
         | exact Touch.skip | exact Touch.read | exact (bump_only ..).wider (by decide) | refine Touch.readThen fun _ => ?_
         | refine Touch.andThen ?_ fun _ => ?_ | refine Touch.onlyIf _ ?_ | refine Touch.cond ?_ ?_
         | refine Touch.each _ fun _ => ?_)

theorem holdAck_only (p : Nat) (a : Ack) : Touches [.insts] (holdAck p a) := by
  unfold holdAck
  repeat' first
    | (with_reducible first
         | exact (setInst_only ..).wider (by decide))

theorem endInstance_only (p : Nat) : Touches [.insts] (endInstance p) := by
  unfold endInstance
  repeat' first
    | (with_reducible first
         | exact (setInst_only ..).wider (by decide))

theorem finishApply_only (p : Nat) (n : Notice) : Touches [.mem, .poison, .ecc, .params, .stories, .hostPorts, .frames,
    .reels, .reelImage, .insts, .dead, .out] (finishApply p n) := by
  unfold finishApply
  repeat' first
    | (with_reducible first
         | exact Touch.read | exact (writeRecords_only ..).wider (by decide) | exact (countReuse_only ..).wider (by decide) | exact (releaseStep_only ..).wider (by decide)
         | exact (refreshAvail_only ..).wider (by decide) | exact (syncReels_only ..).wider (by decide) | exact (setInst_only ..).wider (by decide) | exact (bump_only ..).wider (by decide)
         | exact (setPar_only ..).wider (by decide) | exact (dropHeld_only ..).wider (by decide) | exact (holdAck_only ..).wider (by decide) | exact (emit_only ..).wider (by decide)
         | exact (endInstance_only ..).wider (by decide) | refine Touch.readThen fun _ => ?_ | refine Touch.andThen ?_ fun _ => ?_
         | refine Touch.onlyIf _ ?_ | refine Touch.cond ?_ ?_)
    | (with_reducible refine Touch.change fun _ => ?_); rfl

theorem stopIssuing_only (p : Nat) (n : Notice) : Touches [.engines, .insts] (stopIssuing p n) := by
  unfold stopIssuing
  repeat' first
    | (with_reducible first
         | exact Touch.skip | exact Touch.read | exact (setInst_only ..).wider (by decide) | exact (dropIssued_only ..).wider (by decide)
         | refine Touch.readThen fun _ => ?_ | refine Touch.andThen ?_ fun _ => ?_
         | refine Touch.cond ?_ ?_)

theorem applyNotice_only (p : Nat) (n : Notice) : Touches [.mode, .mem, .poison, .ecc, .params, .engines, .slots, .stories,
    .faultLog, .flashDue, .subs, .hostPorts, .frames, .reels, .reelImage, .insts, .fltPending, .dead, .dumpRun, .links, .spray, .power, .life, .elo, .out] (applyNotice p n) := by
  unfold applyNotice
  repeat' first
    | (with_reducible first
         | exact Touch.skip | exact Touch.read | exact (stopIssuing_only ..).wider (by decide) | exact (readCopies_only ..).wider (by decide)
         | exact (updateBaselines_only ..).wider (by decide) | exact (setInst_only ..).wider (by decide) | exact (finishApply_only ..).wider (by decide)
         | refine Touch.readThen fun _ => ?_ | refine Touch.andThen ?_ fun _ => ?_
         | refine Touch.onlyIf _ ?_ | refine Touch.cond ?_ ?_)

theorem applyEntry_only {l : List Piece} (hl : [.mem, .poison, .ecc, .params, .stories, .hostPorts, .frames, .reels,
    .reelImage, .insts, .dead, .out].all l.contains = true) (p op : Nat) (f : Nat → M Unit) (hf : ∀ x0, Touches l (f x0)) : Touches l (applyEntry p op f) := by
  unfold applyEntry
  repeat' first
    | (with_reducible first
         | exact Touch.skip | exact Touch.read | exact hf .. | exact (setInst_only ..).wider (wide_trans (by decide) hl) | exact (finishApply_only ..).wider (wide_trans (by decide) hl)
         | refine Touch.readThen fun _ => ?_ | refine Touch.andThen ?_ fun _ => ?_
         | refine Touch.cond ?_ ?_)
    | split
    | dsimp only

theorem takeAck_only (p : Nat) (a : Ack) : Touches [.insts] (takeAck p a) := by
  unfold takeAck
  repeat' first
    | (with_reducible first
         | exact Touch.skip | exact Touch.read | exact (holdAck_only ..).wider (by decide) | refine Touch.readThen fun _ => ?_
         | refine Touch.andThen ?_ fun _ => ?_ | refine Touch.cond ?_ ?_)

theorem commitApply_only (p : Nat) (m : CommitMsg) : Touches [.mode, .mem, .poison, .ecc, .params, .engines, .slots,
    .stories, .faultLog, .flashDue, .subs, .hostPorts, .frames, .reels, .reelImage, .insts, .fltPending, .dead, .dumpRun, .links, .spray, .power, .life, .elo, .out] (commitApply p m) := by
  unfold commitApply
  repeat' first
    | (with_reducible first
         | exact Touch.skip | exact Touch.read | exact (applyNotice_only ..).wider (by decide) | exact (takeAck_only ..).wider (by decide)
         | refine Touch.readThen fun _ => ?_ | refine Touch.andThen ?_ fun _ => ?_
         | refine Touch.cond ?_ ?_)
    | split

theorem admitMember_only (p : Nat) (a : StartAck) : Touches [.insts] (admitMember p a) := by
  unfold admitMember
  repeat' first
    | (with_reducible first
         | exact Touch.read | exact (setInst_only ..).wider (by decide) | refine Touch.readThen fun _ => ?_
         | refine Touch.andThen ?_ fun _ => ?_)

theorem instanceStart_only (p : Nat) : Touches [.poison, .ueFull, .ecc, .params, .eff, .rel, .win, .dieCopies, .faultLog,
    .flashDue, .frames, .doors, .insts, .nodes, .fltPending, .out] (instanceStart p) := by
  unfold instanceStart
  repeat' first
    | (with_reducible first
         | exact Touch.skip | exact Touch.read | exact (latchParams_only ..).wider (by decide) | exact (setDoor_only ..).wider (by decide)
         | exact (freeIndex_only ..).wider (by decide) | exact (refreshAvail_only ..).wider (by decide) | exact (startExchange_only ..).wider (by decide) | exact (startNorm_only ..).wider (by decide)
         | exact (par_only ..).wider (by decide) | exact (setEff_only ..).wider (by decide) | exact (setInst_only ..).wider (by decide) | exact (admitMember_only ..).wider (by decide)
         | exact (emit_only ..).wider (by decide) | refine Touch.readThen fun _ => ?_ | refine Touch.andThen ?_ fun _ => ?_
         | refine Touch.cond ?_ ?_ | refine Touch.each _ fun _ => ?_)
    | (with_reducible refine Touch.change fun _ => ?_); rfl

theorem instanceStartAck_only (p : Nat) (a : StartAck) : Touches [.params, .subs, .hostPorts, .insts, .fltPending, .out]
    (instanceStartAck p a) := by
  unfold instanceStartAck
  repeat' first
    | (with_reducible first
         | exact Touch.skip | exact Touch.read | exact (setInst_only ..).wider (by decide) | exact (raiseEvent_only ..).wider (by decide)
         | exact (admitMember_only ..).wider (by decide) | refine Touch.readThen fun _ => ?_ | refine Touch.andThen ?_ fun _ => ?_
         | refine Touch.cond ?_ ?_)

theorem stopAlone_only (p : Nat) : Touches [.insts] (stopAlone p) := by
  unfold stopAlone
  repeat' first
    | (with_reducible first
         | exact Touch.read | exact (endInstance_only ..).wider (by decide) | refine Touch.readThen fun _ => ?_
         | refine Touch.andThen ?_ fun _ => ?_ | refine Touch.onlyIf _ ?_)

theorem instanceDrain_only (p : Nat) : Touches [.insts] (instanceDrain p) := by
  unfold instanceDrain
  repeat' first
    | (with_reducible first
         | exact Touch.skip | exact Touch.read | exact (setInst_only ..).wider (by decide) | exact (stopAlone_only ..).wider (by decide)
         | refine Touch.readThen fun _ => ?_ | refine Touch.andThen ?_ fun _ => ?_
         | refine Touch.cond ?_ ?_)

theorem instanceStop_only (p : Nat) : Touches [.insts] (instanceStop p) := by
  unfold instanceStop
  repeat' first
    | (with_reducible first
         | exact Touch.skip | exact Touch.read | exact (setInst_only ..).wider (by decide) | exact (stopAlone_only ..).wider (by decide)
         | refine Touch.readThen fun _ => ?_ | refine Touch.andThen ?_ fun _ => ?_
         | refine Touch.cond ?_ ?_)

theorem leadLost_only (p : Nat) : Touches [.mem, .poison, .ecc, .params, .engines, .subs, .hostPorts, .insts, .fltPending,
    .dead, .out] (leadLost p) := by
  unfold leadLost
  repeat' first
    | (with_reducible first
         | exact Touch.skip | exact Touch.read | exact (writeRecord_only ..).wider (by decide) | exact (cplVector_only ..).wider (by decide)
         | exact (setInst_only ..).wider (by decide) | exact (dropIssued_only ..).wider (by decide) | exact (raiseEvent_only ..).wider (by decide)
         | refine Touch.readThen fun _ => ?_ | refine Touch.andThen ?_ fun _ => ?_
         | refine Touch.onlyIf _ ?_ | refine Touch.cond ?_ ?_ | refine Touch.each _ fun _ => ?_)

theorem loseRank_only (p r : Nat) : Touches [.mem, .poison, .ueFull, .ecc, .params, .eff, .places, .placesNext, .rel, .win,
    .dieCopies, .faultLog, .flashDue, .subs, .hostPorts, .frames, .reels, .doors, .insts, .nodes, .fltPending, .dead, .life, .elo, .out] (loseRank p r) := by
  unfold loseRank
  repeat' first
    | (with_reducible first
         | exact Touch.skip | exact Touch.read | exact (setPar_only ..).wider (by decide) | exact (bump_only ..).wider (by decide) | exact (setInst_only ..).wider (by decide)
         | exact (abandonStep_only ..).wider (by decide) | refine Touch.readThen fun _ => ?_ | refine Touch.andThen ?_ fun _ => ?_
         | refine Touch.cond ?_ ?_)

theorem substituteTimeout_only (p : Nat) : Touches [.mem, .poison, .ueFull, .ecc, .params, .eff, .places, .placesNext,
    .rel, .win, .dieCopies, .faultLog, .flashDue, .subs, .hostPorts, .frames, .reels, .doors, .insts, .nodes, .fltPending, .dead, .life, .elo, .out] (substituteTimeout p) := by
  unfold substituteTimeout
  repeat' first
    | (with_reducible first
         | exact Touch.skip | exact Touch.read | exact (setInst_only ..).wider (by decide) | exact (abandonWith_only ..).wider (by decide)
         | refine Touch.readThen fun _ => ?_ | refine Touch.andThen ?_ fun _ => ?_
         | refine Touch.cond ?_ ?_)
    | split
    | dsimp only

/-! ## Issue -/

theorem formedEnv_only (c : Cmd) (part l : Nat) : Touches [.poison, .ueFull, .ecc, .params, .rel, .win, .dieCopies,
    .faultLog, .flashDue, .fltPending] (formedEnv c part l) := by
  unfold formedEnv
  repeat' first
    | (with_reducible first
         | exact Touch.read | exact Touch.ret _ | exact (load_only ..).wider (by decide) | exact (readOperand_only ..).wider (by decide)
         | refine Touch.readThen fun _ => ?_ | refine Touch.andThen ?_ fun _ => ?_
         | refine Touch.cond ?_ ?_)

theorem padEnvOf_only (c : Cmd) : Touches [.poison, .ueFull, .ecc, .params, .rel, .win, .dieCopies, .faultLog, .flashDue,
    .fltPending] (padEnvOf c) := by
  unfold padEnvOf
  repeat' first
    | (with_reducible first
         | exact (paddedEnv_only ..).wider (by decide) | exact (formedEnv_only ..).wider (by decide) | refine Touch.andThen ?_ fun _ => ?_)
    | split

theorem padBody_only (c : Cmd) : Touches [.mem, .poison, .ueFull, .ecc, .params, .engines, .rel, .win, .dieCopies,
    .faultLog, .flashDue, .drain, .fltPending, .dead] (padBody c) := by
  unfold padBody
  repeat' first
    | (with_reducible first
         | exact Touch.ret _ | exact (bodyMatmulPadded_only ..).wider (by decide) | exact (formedEnv_only ..).wider (by decide) | exact (paddedShare_only ..).wider (by decide)
         | refine Touch.andThen ?_ fun _ => ?_)
    | split

theorem bodyRegionList_only (c : Cmd) (i : Nat) : Touches [.mem, .poison, .ueFull, .ecc, .params, .engines, .rel, .win,
    .dieCopies, .faultLog, .flashDue, .drain, .fltPending, .dead] (bodyRegionList c i) := by
  unfold bodyRegionList
  repeat' first
    | (with_reducible first
         | exact Touch.read | exact Touch.ret _ | exact (load_only ..).wider (by decide) | exact (listPasses_only ..).wider (by decide)
         | refine Touch.readThen fun _ => ?_ | refine Touch.andThen ?_ fun _ => ?_
         | refine Touch.cond ?_ ?_)

theorem workItems_only (c : Cmd) (op key : Nat) : Touches [.poison, .ueFull, .ecc, .params, .rel, .win, .dieCopies,
    .faultLog, .flashDue, .fltPending] (workItems c op key) := by
  unfold workItems
  repeat' first
    | (with_reducible first
         | exact Touch.ret _ | exact (load_only ..).wider (by decide) | refine Touch.andThen ?_ fun _ => ?_
         | refine Touch.cond ?_ ?_ | refine Touch.collect _ fun _ => ?_)

theorem bodyProducer_only (c : Cmd) (k : Nat) : Touches [.mem, .poison, .ueFull, .ecc, .params, .engines, .rel, .win,
    .dieCopies, .faultLog, .flashDue, .drain, .fltPending, .dead] (bodyProducer c k) := by
  unfold bodyProducer
  repeat' first
    | (with_reducible first
         | exact Touch.read | exact Touch.ret _ | exact (workItems_only ..).wider (by decide) | exact (readOperandOnce_only ..).wider (by decide)
         | exact (readAcc_only ..).wider (by decide) | exact (matmulPasses_only ..).wider (by decide) | refine Touch.readThen fun _ => ?_
         | refine Touch.andThen ?_ fun _ => ?_ | refine Touch.cond ?_ ?_
         | refine Touch.foldState _ _ fun _ _ => ?_)
    | split

theorem matmulBody_only (c : Cmd) : Touches [.mem, .poison, .ueFull, .ecc, .params, .engines, .rel, .win, .dieCopies,
    .faultLog, .flashDue, .drain, .fltPending, .dead] (matmulBody c) := by
  unfold matmulBody
  repeat' first
    | (with_reducible first
         | exact Touch.read | exact (bodyMatmul_only ..).wider (by decide) | exact (bodyProducer_only ..).wider (by decide) | exact (matmulInto_only ..).wider (by decide)
         | refine Touch.readThen fun _ => ?_ | refine Touch.andThen ?_ fun _ => ?_
         | refine Touch.cond ?_ ?_)
    | split

theorem bodyReRun_only (c : Cmd) (k l : Nat) : Touches [.mem, .poison, .ueFull, .ecc, .params, .engines, .rel, .win,
    .dieCopies, .faultLog, .flashDue, .drain, .fltPending, .dead] (bodyReRun c k l) := by
  unfold bodyReRun
  repeat' first
    | (with_reducible first
         | exact Touch.read | exact Touch.ret _ | exact (workItems_only ..).wider (by decide) | exact (readOperandOnce_only ..).wider (by decide)
         | exact (readAcc_only ..).wider (by decide) | exact (matmulPasses_only ..).wider (by decide) | refine Touch.readThen fun _ => ?_
         | refine Touch.andThen ?_ fun _ => ?_ | refine Touch.cond ?_ ?_
         | refine Touch.foldState _ _ fun _ _ => ?_)
    | split

theorem listBody_only (c : Cmd) : Touches [.mem, .poison, .ueFull, .ecc, .params, .engines, .rel, .win, .dieCopies,
    .faultLog, .flashDue, .drain, .fltPending, .dead] (listBody c) := by
  unfold listBody
  repeat' first
    | (with_reducible first
         | exact (bodyMatmulList_only ..).wider (by decide) | exact (bodyRegionList_only ..).wider (by decide) | exact (bodyReRun_only ..).wider (by decide)
         | refine Touch.andThen ?_ fun _ => ?_ | refine Touch.cond ?_ ?_)
    | split

theorem bodyGlu_only (c : Cmd) (part l : Nat) : Touches [.mem, .poison, .ueFull, .ecc, .params, .engines, .rel, .win,
    .dieCopies, .faultLog, .flashDue, .fltPending, .dead] (bodyGlu c part l) := by
  unfold bodyGlu
  repeat' first
    | (with_reducible first
         | exact Touch.read | exact Touch.ret _ | exact (readRow_only ..).wider (by decide) | exact (writeOutputs_only ..).wider (by decide)
         | exact (unitsDone_only ..).wider (by decide) | refine Touch.readThen fun _ => ?_ | refine Touch.andThen ?_ fun _ => ?_
         | refine Touch.cond ?_ ?_ | refine Touch.each _ fun _ => ?_)

theorem gluBody_only (c : Cmd) : Touches [.mem, .poison, .ueFull, .ecc, .params, .engines, .rel, .win, .dieCopies,
    .faultLog, .flashDue, .fltPending, .dead] (gluBody c) := by
  unfold gluBody
  repeat' first
    | (with_reducible first
         | exact (bodyVec_only ..).wider (by decide) | exact (bodyGlu_only ..).wider (by decide) | refine Touch.andThen ?_ fun _ => ?_)
    | split

/-! ## Tiers -/

theorem readEntries_only (p base : Nat) (only : Nat → Bool) (keep : List Placement) (x0 : List Nat) (x1 : List Placement) :
    Touches [.mem, .poison, .ueFull, .ecc, .params, .rel, .win, .dieCopies, .faultLog, .flashDue, .fltPending, .dead] (readEntries p base only keep x0 x1) := by
  induction x0 generalizing x1 with
  | nil =>
    unfold readEntries
    repeat' first
      | (with_reducible first
           | exact Touch.read | exact Touch.ret _)
  | cons y l ih =>
    unfold readEntries
    repeat' first
      | (with_reducible first
           | exact ih .. | exact Touch.read | exact Touch.ret _ | exact (load_only ..).wider (by decide) | exact (recordUe_only ..).wider (by decide)
           | exact (clampDesc_only ..).wider (by decide) | exact (storeVal_only ..).wider (by decide) | refine Touch.readThen fun _ => ?_
           | refine Touch.andThen ?_ fun _ => ?_ | refine Touch.cond ?_ ?_)

theorem readPlacements_only (p : Nat) : Touches [.mem, .poison, .ueFull, .ecc, .params, .places, .placesNext, .rel, .win,
    .dieCopies, .faultLog, .flashDue, .fltPending, .dead] (readPlacements p) := by
  unfold readPlacements
  repeat' first
    | (with_reducible first
         | exact Touch.read | exact (readEntries_only ..).wider (by decide) | refine Touch.readThen fun _ => ?_
         | refine Touch.andThen ?_ fun _ => ?_ | refine Touch.cond ?_ ?_)
    | (with_reducible refine Touch.change fun _ => ?_); rfl

theorem placementReload_only (p : Nat) : Touches [.mem, .poison, .ueFull, .ecc, .params, .places, .placesNext, .rel, .win,
    .dieCopies, .faultLog, .flashDue, .fltPending, .dead] (placementReload p) := by
  unfold placementReload
  repeat' first
    | (with_reducible first
         | exact Touch.skip | exact Touch.read | exact (readPlacements_only ..).wider (by decide)
         | refine Touch.readThen fun _ => ?_ | refine Touch.andThen ?_ fun _ => ?_
         | refine Touch.cond ?_ ?_)

theorem vaultPut_only (a : Nat) (bs : List Nat) : Touches [.mem, .poison, .ecc] (vaultPut a bs) :=
  Touch.change fun s => foldl_keeps (I := SameBut [.mem, .poison, .ecc] s) _ _ _ rfl fun _ _ ht => ht

theorem vaultDone_only (part : Nat) : Touches [.params, .vaultLoad] (vaultDone part) := by
  unfold vaultDone
  repeat' first
    | (with_reducible first
         | exact (setPar_only ..).wider (by decide) | refine Touch.andThen ?_ fun _ => ?_)
    | (with_reducible refine Touch.change fun _ => ?_); rfl

theorem vaultRun_only : Touches [.params, .vaultLoad] vaultRun := by
  unfold vaultRun
  repeat' first
    | (with_reducible first
         | exact Touch.skip | exact Touch.read | exact (setPar_only ..).wider (by decide) | exact (vaultDone_only ..).wider (by decide)
         | refine Touch.readThen fun _ => ?_ | refine Touch.andThen ?_ fun _ => ?_
         | refine Touch.onlyIf _ ?_ | refine Touch.cond ?_ ?_)
    | split

theorem vaultLoadStart_only (value : Nat) : Touches [.poison, .ueFull, .ecc, .params, .rel, .win, .dieCopies, .vaultLoad,
    .faultLog, .flashDue, .fltPending] (vaultLoadStart value) := by
  unfold vaultLoadStart
  repeat' first
    | (with_reducible first
         | exact Touch.skip | exact Touch.read | exact (setPar_only ..).wider (by decide) | exact (load_only ..).wider (by decide) | exact (recordUe_only ..).wider (by decide)
         | exact (vaultRun_only ..).wider (by decide) | refine Touch.readThen fun _ => ?_ | refine Touch.andThen ?_ fun _ => ?_
         | refine Touch.cond ?_ ?_)
    | (with_reducible refine Touch.change fun _ => ?_); rfl
    | split

theorem vaultNext_only (v : VaultLoad) : Touches [.params, .vaultLoad] (vaultNext v) := by
  unfold vaultNext
  repeat' first
    | (with_reducible first
         | exact (bump_only ..).wider (by decide) | exact (vaultDone_only ..).wider (by decide) | refine Touch.andThen ?_ fun _ => ?_
         | refine Touch.cond ?_ ?_)
    | (with_reducible refine Touch.change fun _ => ?_); rfl

theorem vaultEntry_only (good : Bool) : Touches [.mem, .poison, .ueFull, .ecc, .params, .rel, .win, .dieCopies, .vaultLoad,
    .faultLog, .flashDue, .fltPending, .dead] (vaultEntry good) := by
  unfold vaultEntry
  repeat' first
    | (with_reducible first
         | exact Touch.skip | exact Touch.read | exact (load_only ..).wider (by decide) | exact (recordUe_only ..).wider (by decide)
         | exact (vaultNext_only ..).wider (by decide) | exact (clampDesc_only ..).wider (by decide) | exact (storeVal_only ..).wider (by decide) | exact (vaultPut_only ..).wider (by decide)
         | exact (bump_only ..).wider (by decide) | exact (setPar_only ..).wider (by decide) | refine Touch.readThen fun _ => ?_
         | refine Touch.andThen ?_ fun _ => ?_ | refine Touch.onlyIf _ ?_ | refine Touch.cond ?_ ?_)
    | (with_reducible refine Touch.change fun _ => ?_); rfl
    | split

theorem vaultInterrupt_only : Touches [.params, .vaultLoad] vaultInterrupt := by
  unfold vaultInterrupt
  repeat' first
    | (with_reducible first
         | exact Touch.skip | exact Touch.read | exact (setPar_only ..).wider (by decide) | refine Touch.readThen fun _ => ?_
         | refine Touch.andThen ?_ fun _ => ?_)
    | (with_reducible refine Touch.change fun _ => ?_); rfl
    | split

theorem copyExtent_only (w : Who) (src dst n : Nat) : Touches [.mem, .poison, .ueFull, .ecc, .params, .rel, .win,
    .dieCopies, .faultLog, .flashDue, .fltPending, .dead] (copyExtent w src dst n) := by
  unfold copyExtent
  repeat' first
    | (with_reducible first
         | exact (load_only ..).wider (by decide) | exact (store_only ..).wider (by decide) | exact (storePoison_only ..).wider (by decide) | refine Touch.andThen ?_ fun _ => ?_
         | refine Touch.each _ fun _ => ?_)

theorem dieSpareSwitch_only (stack : Nat) : Touches [.params, .phys, .retired, .dieCopies, .restores, .faultLog, .flashDue,
    .fltPending] (dieSpareSwitch stack) := by
  unfold dieSpareSwitch
  repeat' first
    | (with_reducible first
         | exact Touch.skip | exact Touch.read | exact (setPar_only ..).wider (by decide) | exact (noteFailed_only ..).wider (by decide)
         | exact (bump_only ..).wider (by decide) | exact (recordFault_only ..).wider (by decide) | refine Touch.readThen fun _ => ?_
         | refine Touch.andThen ?_ fun _ => ?_ | refine Touch.cond ?_ ?_)
    | (with_reducible refine Touch.change fun _ => ?_); rfl
    | split

theorem dieFailure_only (stack die : Nat) : Touches [.mode, .params, .engines, .dieCopies, .slots, .faultLog, .flashDue,
    .subs, .hostPorts, .fltPending, .dead, .dumpRun, .links, .spray, .power, .life, .elo, .out] (dieFailure stack die) := by
  unfold dieFailure
  repeat' first
    | (with_reducible first
         | exact Touch.skip | exact Touch.read | exact (recordFault_only ..).wider (by decide) | exact (dieSpareStart_only ..).wider (by decide)
         | exact (moduleFatal_only ..).wider (by decide) | refine Touch.readThen fun _ => ?_ | refine Touch.andThen ?_ fun _ => ?_
         | refine Touch.cond ?_ ?_)
    | (with_reducible refine Touch.change fun _ => ?_); rfl

theorem weightRestore_only (a n : Nat) : Touches [.mem, .poison, .ueFull, .ecc, .params, .rel, .win, .dieCopies, .restores,
    .faultLog, .flashDue, .fltPending, .dead] (weightRestore a n) := by
  unfold weightRestore
  repeat' first
    | (with_reducible first
         | exact Touch.skip | exact Touch.read | exact (copyExtent_only ..).wider (by decide) | exact (bump_only ..).wider (by decide)
         | exact (recordUe_only ..).wider (by decide) | refine Touch.readThen fun _ => ?_ | refine Touch.andThen ?_ fun _ => ?_
         | refine Touch.cond ?_ ?_)
    | (with_reducible refine Touch.change fun _ => ?_); rfl
    | split

theorem scrubRestore_only (a : Nat) (fresh : Bool) : Touches [.params, .restores] (scrubRestore a fresh) := by
  unfold scrubRestore
  repeat' first
    | (with_reducible first
         | exact Touch.skip | exact Touch.read | exact (bump_only ..).wider (by decide) | refine Touch.readThen fun _ => ?_
         | refine Touch.andThen ?_ fun _ => ?_ | refine Touch.cond ?_ ?_)
    | (with_reducible refine Touch.change fun _ => ?_); rfl
    | split

theorem scrubRead_only (addr : Nat) (errs : List (Nat × Nat)) : Touches [.mem, .poison, .ueFull, .ecc, .params, .rel, .win,
    .dieCopies, .restores, .faultLog, .flashDue, .fltPending] (scrubRead addr errs) := by
  unfold scrubRead
  repeat' first
    | (with_reducible first
         | exact Touch.skip | exact Touch.read | exact (bump_only ..).wider (by decide) | exact (findCodeword_only ..).wider (by decide)
         | exact (scrubRestore_only ..).wider (by decide) | exact (correct_only ..).wider (by decide) | refine Touch.readThen fun _ => ?_
         | refine Touch.andThen ?_ fun _ => ?_ | refine Touch.onlyIf _ ?_ | refine Touch.cond ?_ ?_)
    | (with_reducible refine Touch.change fun _ => ?_); first | rfl | exact (State.strike_only ..).wider (by decide)
    | split

theorem storyCue_only (p h e : Nat) : Touches [.mem, .poison, .ueFull, .ecc, .params, .rel, .win, .dieCopies, .faultLog,
    .flashDue, .fltPending, .dead] (storyCue p h e) := by
  unfold storyCue
  repeat' first
    | (with_reducible first
         | exact (signalCue_only ..).wider (by decide))

theorem storyExpand_only (p i e : Nat) : Touches [.mem, .poison, .ueFull, .ecc, .params, .rel, .win, .dieCopies,
    .codecRefs, .codecUnit, .faultLog, .flashDue, .fltPending, .dead] (storyExpand p i e) := by
  unfold storyExpand
  repeat' first
    | (with_reducible first
         | exact Touch.read | exact (load_only ..).wider (by decide) | exact (takeRef_only ..).wider (by decide) | exact (decodeOne_only ..).wider (by decide)
         | refine Touch.readThen fun _ => ?_ | refine Touch.andThen ?_ fun _ => ?_
         | refine Touch.onlyIf _ ?_ | refine Touch.each _ fun _ => ?_)
    | (with_reducible refine Touch.change fun _ => ?_); rfl

theorem storyCheck_only (p : Nat) (r : StoryRun) (h : Nat) : Touches [.poison, .ueFull, .ecc, .params, .rel, .win,
    .dieCopies, .stories, .faultLog, .flashDue, .insts, .fltPending] (storyCheck p r h) := by
  unfold storyCheck
  repeat' first
    | (with_reducible first
         | exact Touch.read | exact (load_only ..).wider (by decide) | exact (storyBad_only ..).wider (by decide) | exact (setStory_only ..).wider (by decide)
         | refine Touch.readThen fun _ => ?_ | refine Touch.andThen ?_ fun _ => ?_
         | refine Touch.onlyIf _ ?_ | refine Touch.each _ fun _ => ?_)

theorem storyCopy_only (w : Who) (e : Nat) : Touches [.mem, .poison, .ueFull, .ecc, .params, .rel, .win, .dieCopies,
    .faultLog, .flashDue, .fltPending, .dead] (storyCopy w e) := by
  unfold storyCopy
  repeat' first
    | (with_reducible first
         | exact Touch.read | exact (copyExtent_only ..).wider (by decide) | exact (bump_only ..).wider (by decide) | refine Touch.readThen fun _ => ?_
         | refine Touch.andThen ?_ fun _ => ?_ | refine Touch.onlyIf _ ?_)

theorem storyRun_only (p i h : Nat) (r : StoryRun) : Touches [.mem, .poison, .ueFull, .ecc, .params, .rel, .win,
    .dieCopies, .codecRefs, .codecUnit, .stories, .faultLog, .flashDue, .insts, .fltPending, .dead] (storyRun p i h r) := by
  unfold storyRun
  repeat' first
    | (with_reducible first
         | exact Touch.read | exact (setStory_only ..).wider (by decide) | exact (load_only ..).wider (by decide) | exact (storyBad_only ..).wider (by decide)
         | exact (clampDesc_only ..).wider (by decide) | exact (storyCue_only ..).wider (by decide) | exact (bump_only ..).wider (by decide) | exact (storyExpand_only ..).wider (by decide)
         | exact (storyCopy_only ..).wider (by decide) | refine Touch.readThen fun _ => ?_ | refine Touch.andThen ?_ fun _ => ?_
         | refine Touch.cond ?_ ?_)

theorem storyStart_only (p i : Nat) : Touches [.mem, .poison, .ueFull, .ecc, .params, .rel, .win, .dieCopies, .codecRefs,
    .codecUnit, .stories, .faultLog, .flashDue, .insts, .fltPending, .dead] (storyStart p i) := by
  unfold storyStart
  repeat' first
    | (with_reducible first
         | exact Touch.skip | exact Touch.read | exact (load_only ..).wider (by decide) | exact (storyBad_only ..).wider (by decide)
         | exact (storyCheck_only ..).wider (by decide) | exact (storyRun_only ..).wider (by decide) | refine Touch.readThen fun _ => ?_
         | refine Touch.andThen ?_ fun _ => ?_ | refine Touch.cond ?_ ?_)
    | split

theorem storyEnd_only (p i : Nat) : Touches [.mem, .poison, .ueFull, .ecc, .params, .rel, .win, .dieCopies, .codecRefs,
    .stories, .faultLog, .flashDue, .fltPending, .dead] (storyEnd p i) := by
  unfold storyEnd
  repeat' first
    | (with_reducible first
         | exact Touch.skip | exact Touch.read | exact (setStory_only ..).wider (by decide) | exact (putRefs_only ..).wider (by decide)
         | exact (storyCue_only ..).wider (by decide) | refine Touch.readThen fun _ => ?_ | refine Touch.andThen ?_ fun _ => ?_
         | refine Touch.cond ?_ ?_)
    | (with_reducible refine Touch.change fun _ => ?_); rfl
    | split

theorem storySkip_only (p region layer : Nat) : Touches [.mem, .poison, .ueFull, .ecc, .params, .rel, .win, .dieCopies,
    .stories, .faultLog, .flashDue, .insts, .fltPending, .dead] (storySkip p region layer) := by
  unfold storySkip
  repeat' first
    | (with_reducible first
         | exact Touch.skip | exact Touch.read | exact (storyCheck_only ..).wider (by decide) | exact (storyCue_only ..).wider (by decide)
         | exact (setStory_only ..).wider (by decide) | exact (bump_only ..).wider (by decide) | refine Touch.readThen fun _ => ?_
         | refine Touch.andThen ?_ fun _ => ?_ | refine Touch.each _ fun _ => ?_)
    | split

theorem bodyGatherSkip_only (c : Cmd) : Touches [.mem, .poison, .ueFull, .ecc, .params, .rel, .win, .dieCopies, .stories,
    .faultLog, .flashDue, .insts, .fltPending, .dead] (bodyGatherSkip c) := by
  unfold bodyGatherSkip
  repeat' first
    | (with_reducible first
         | exact Touch.read | exact Touch.ret _ | exact (bodyGather_only ..).wider (by decide) | exact (storySkip_only ..).wider (by decide)
         | refine Touch.readThen fun _ => ?_ | refine Touch.andThen ?_ fun _ => ?_)

theorem loftRefetch_only (p addr : Nat) : Touches [.mem, .poison, .ueFull, .ecc, .params, .rel, .win, .dieCopies,
    .faultLog, .flashDue, .fltPending, .dead] (loftRefetch p addr) := by
  unfold loftRefetch
  repeat' first
    | (with_reducible first
         | exact Touch.skip | exact Touch.read | exact (load_only ..).wider (by decide) | exact (decodeOne_only ..).wider (by decide)
         | exact (copyExtent_only ..).wider (by decide) | exact (recordUe_only ..).wider (by decide) | refine Touch.readThen fun _ => ?_
         | refine Touch.andThen ?_ fun _ => ?_ | refine Touch.cond ?_ ?_)
    | (with_reducible refine Touch.change fun _ => ?_); rfl
    | split
    | dsimp only

/-! ## Links -/

theorem mapOut_only (g reason : Nat) : Touches [.params, .slots, .faultLog, .flashDue, .subs, .hostPorts, .fltPending,
    .links, .spray, .life, .out] (mapOut g reason) := by
  unfold mapOut
  repeat' first
    | (with_reducible first
         | exact Touch.skip | exact Touch.read | exact (setPar_only ..).wider (by decide) | exact (recordFault_only ..).wider (by decide)
         | exact (setLinkState_only ..).wider (by decide) | exact (raiseEvent_only ..).wider (by decide) | exact (sendNotice_only ..).wider (by decide)
         | refine Touch.readThen fun _ => ?_ | refine Touch.andThen ?_ fun _ => ?_
         | refine Touch.cond ?_ ?_)

theorem takeOffset_only (off : Int) : Touches [.now, .params, .clock] (takeOffset off) := by
  unfold takeOffset
  repeat' first
    | (with_reducible first
         | refine Touch.andThen ?_ fun _ => ?_ | refine Touch.cond ?_ ?_)
    | (with_reducible refine Touch.change fun _ => ?_); first | rfl | ((repeat' split) <;> rfl)
    | split
    | dsimp only

theorem freeRun_only : Touches [.params, .clock] freeRun := by
  unfold freeRun
  repeat' first
    | (with_reducible first
         | exact (setPar_only ..).wider (by decide) | refine Touch.andThen ?_ fun _ => ?_)
    | (with_reducible refine Touch.change fun _ => ?_); rfl

theorem timeHoldover_only : Touches [.params, .subs, .hostPorts, .fltPending, .clock, .out] timeHoldover := by
  unfold timeHoldover
  repeat' first
    | (with_reducible first
         | exact Touch.skip | exact Touch.read | exact (setPar_only ..).wider (by decide) | exact (raiseEvent_only ..).wider (by decide)
         | refine Touch.readThen fun _ => ?_ | refine Touch.andThen ?_ fun _ => ?_
         | refine Touch.cond ?_ ?_)
    | (with_reducible refine Touch.change fun _ => ?_); rfl

theorem delayRequest_only (port : Nat) (m : PtpMsg) : Touches [.clock, .out] (delayRequest port m) := by
  unfold delayRequest
  repeat' first
    | (with_reducible first
         | refine Touch.andThen ?_ fun _ => ?_)
    | (with_reducible refine Touch.change fun _ => ?_); rfl

theorem ptpMessage_only (port domain : Nat) (m : PtpMsg) : Touches [.now, .params, .clock, .out] (ptpMessage port domain m) := by
  unfold ptpMessage
  repeat' first
    | (with_reducible first
         | exact Touch.skip | exact Touch.read | exact (delayRequest_only ..).wider (by decide) | exact (takeOffset_only ..).wider (by decide)
         | refine Touch.readThen fun _ => ?_ | refine Touch.andThen ?_ fun _ => ?_
         | refine Touch.onlyIf _ ?_ | refine Touch.cond ?_ ?_)
    | (with_reducible refine Touch.change fun _ => ?_); rfl
    | split

theorem goRetrain_only (g : Nat) : Touches [.params, .slots, .faultLog, .flashDue, .subs, .hostPorts, .fltPending, .links,
    .spray, .life, .out] (goRetrain g) := by
  unfold goRetrain
  repeat' first
    | (with_reducible first
         | exact Touch.read | exact (setLinkGroup_only ..).wider (by decide) | exact (bump_only ..).wider (by decide) | exact (mapOut_only ..).wider (by decide)
         | exact (setLinkState_only ..).wider (by decide) | refine Touch.readThen fun _ => ?_ | refine Touch.andThen ?_ fun _ => ?_
         | refine Touch.cond ?_ ?_)

theorem ackProgressTimeout_only (g : Nat) : Touches [.params, .slots, .faultLog, .flashDue, .subs, .hostPorts, .fltPending,
    .links, .spray, .life, .out] (ackProgressTimeout g) := by
  unfold ackProgressTimeout
  repeat' first
    | (with_reducible first
         | exact Touch.skip | exact Touch.read | exact (goRetrain_only ..).wider (by decide) | refine Touch.readThen fun _ => ?_
         | refine Touch.andThen ?_ fun _ => ?_ | refine Touch.cond ?_ ?_)

theorem settleGroup_only (g st : Nat) : Touches [.params, .slots, .subs, .hostPorts, .fltPending, .links, .spray, .life,
    .out] (settleGroup g st) := by
  unfold settleGroup
  repeat' first
    | (with_reducible first
         | exact Touch.read | exact (setLinkGroup_only ..).wider (by decide) | exact (setLinkState_only ..).wider (by decide)
         | refine Touch.readThen fun _ => ?_ | refine Touch.andThen ?_ fun _ => ?_
         | refine Touch.cond ?_ ?_)

theorem compareGroup_only (g : Nat) : Touches [.params, .slots, .faultLog, .flashDue, .subs, .hostPorts, .fltPending,
    .links, .spray, .life, .out] (compareGroup g) := by
  unfold compareGroup
  repeat' first
    | (with_reducible first
         | exact Touch.skip | exact Touch.read | exact (setLinkState_only ..).wider (by decide) | exact (settleGroup_only ..).wider (by decide)
         | exact (bump_only ..).wider (by decide) | exact (mapOut_only ..).wider (by decide) | refine Touch.readThen fun _ => ?_
         | refine Touch.andThen ?_ fun _ => ?_ | refine Touch.onlyIf _ ?_ | refine Touch.cond ?_ ?_)
    | split

theorem trainGroup_only (g : Nat) : Touches [.params, .slots, .subs, .hostPorts, .fltPending, .links, .spray, .life, .out]
    (trainGroup g) := by
  unfold trainGroup
  repeat' first
    | (with_reducible first
         | exact (setLinkGroup_only ..).wider (by decide) | exact (setLinkState_only ..).wider (by decide) | refine Touch.andThen ?_ fun _ => ?_)

theorem resume_only (g : Nat) : Touches [.slots, .links, .out] (resume g) := by
  unfold resume
  repeat' first
    | (with_reducible first
         | exact Touch.skip | exact Touch.read | exact (pump_only ..).wider (by decide) | refine Touch.readThen fun _ => ?_
         | refine Touch.andThen ?_ fun _ => ?_ | refine Touch.cond ?_ ?_)

theorem identityRecord_only (g : Nat) (r : IdRec) : Touches [.params, .slots, .faultLog, .flashDue, .subs, .hostPorts,
    .fltPending, .links, .spray, .peers, .life, .out] (identityRecord g r) := by
  unfold identityRecord
  repeat' first
    | (with_reducible first
         | exact Touch.skip | exact Touch.read | exact (compareGroup_only ..).wider (by decide) | exact (resume_only ..).wider (by decide)
         | refine Touch.readThen fun _ => ?_ | refine Touch.andThen ?_ fun _ => ?_
         | refine Touch.cond ?_ ?_)
    | (with_reducible refine Touch.change fun _ => ?_); rfl

theorem identitySend_only (g : Nat) : Touches [.slots, .links, .out] (identitySend g) := by
  unfold identitySend
  repeat' first
    | (with_reducible first
         | exact Touch.skip | exact Touch.read | exact (queuePacket_only ..).wider (by decide)
         | refine Touch.readThen fun _ => ?_ | refine Touch.andThen ?_ fun _ => ?_
         | refine Touch.cond ?_ ?_)

theorem linkPlanApply_only : Touches [.params, .eff, .slots, .faultLog, .flashDue, .subs, .hostPorts, .fltPending, .links,
    .spray, .life, .out] linkPlanApply := by
  unfold linkPlanApply
  repeat' first
    | (with_reducible first
         | exact Touch.read | exact (par_only ..).wider (by decide) | exact (setEff_only ..).wider (by decide) | exact (trainGroup_only ..).wider (by decide)
         | exact (compareGroup_only ..).wider (by decide) | exact (resume_only ..).wider (by decide) | refine Touch.readThen fun _ => ?_
         | refine Touch.andThen ?_ fun _ => ?_ | refine Touch.onlyIf _ ?_ | refine Touch.cond ?_ ?_
         | refine Touch.each _ fun _ => ?_)

theorem groupTrained_only (g : Nat) (ok : Bool) : Touches [.params, .slots, .faultLog, .flashDue, .subs, .hostPorts,
    .fltPending, .links, .spray, .peers, .life, .out] (groupTrained g ok) := by
  unfold groupTrained
  repeat' first
    | (with_reducible first
         | exact Touch.skip | exact Touch.read | exact (setLinkGroup_only ..).wider (by decide) | exact (identitySend_only ..).wider (by decide)
         | exact (mapOut_only ..).wider (by decide) | refine Touch.readThen fun _ => ?_ | refine Touch.andThen ?_ fun _ => ?_
         | refine Touch.cond ?_ ?_)
    | (with_reducible refine Touch.change fun _ => ?_); rfl

theorem retrainDone_only (g : Nat) (ok : Bool) : Touches [.params, .slots, .faultLog, .flashDue, .subs, .hostPorts,
    .fltPending, .links, .spray, .life, .out] (retrainDone g ok) := by
  unfold retrainDone
  repeat' first
    | (with_reducible first
         | exact Touch.skip | exact Touch.read | exact (setLinkGroup_only ..).wider (by decide) | exact (setLinkState_only ..).wider (by decide)
         | exact (identitySend_only ..).wider (by decide) | exact (sendFlit_only ..).wider (by decide) | exact (bump_only ..).wider (by decide) | exact (resume_only ..).wider (by decide)
         | exact (mapOut_only ..).wider (by decide) | refine Touch.readThen fun _ => ?_ | refine Touch.andThen ?_ fun _ => ?_
         | refine Touch.cond ?_ ?_ | refine Touch.each _ fun _ => ?_)

theorem groupLossOfLock_only (g : Nat) : Touches [.params, .slots, .subs, .hostPorts, .fltPending, .links, .spray, .life,
    .out] (groupLossOfLock g) := by
  unfold groupLossOfLock
  repeat' first
    | (with_reducible first
         | exact Touch.skip | exact Touch.read | exact (trainGroup_only ..).wider (by decide)
         | refine Touch.readThen fun _ => ?_ | refine Touch.andThen ?_ fun _ => ?_
         | refine Touch.cond ?_ ?_)

theorem linkRestore_only (g : Nat) : Touches [.params, .slots, .subs, .hostPorts, .fltPending, .links, .spray, .life, .out]
    (linkRestore g) := by
  unfold linkRestore
  repeat' first
    | (with_reducible first
         | exact Touch.skip | exact Touch.read | exact (setPar_only ..).wider (by decide) | exact (trainGroup_only ..).wider (by decide)
         | refine Touch.readThen fun _ => ?_ | refine Touch.andThen ?_ fun _ => ?_
         | refine Touch.cond ?_ ?_)

theorem noteSpare_only (g lane : Nat) (tx : Bool) : Touches [.params, .faultLog, .flashDue, .fltPending] (noteSpare g lane
    tx) := by
  unfold noteSpare
  repeat' first
    | (with_reducible first
         | exact Touch.read | exact (setPar_only ..).wider (by decide) | exact (bump_only ..).wider (by decide) | exact (recordFault_only ..).wider (by decide)
         | refine Touch.readThen fun _ => ?_ | refine Touch.andThen ?_ fun _ => ?_
         | refine Touch.onlyIf _ ?_)

theorem requestSpare_only (g lane : Nat) (lost : Bool) : Touches [.params, .slots, .faultLog, .flashDue, .subs, .hostPorts,
    .fltPending, .links, .spray, .life, .out] (requestSpare g lane lost) := by
  unfold requestSpare
  repeat' first
    | (with_reducible first
         | exact Touch.skip | exact Touch.read | exact (mapOut_only ..).wider (by decide) | exact (setLinkGroup_only ..).wider (by decide)
         | exact (sendControl_only ..).wider (by decide) | refine Touch.readThen fun _ => ?_ | refine Touch.andThen ?_ fun _ => ?_
         | refine Touch.cond ?_ ?_)

theorem laneErrorDetect_only (g lane ber : Nat) (lockLost : Bool) : Touches [.params, .rel, .slots, .faultLog, .flashDue, .subs, .hostPorts, .fltPending, .links, .spray, .life, .out] (laneErrorDetect g lane ber lockLost) := by
  intro s
  have rest : Touches [.params, .rel, .slots, .faultLog, .flashDue, .subs, .hostPorts, .fltPending, .links, .spray, .life, .out]
      (if (lockLost || decide (s.par (pk 0x400D 0) < ber)) = true then requestSpare g lane lockLost else skip) :=
    Touch.cond ((requestSpare_only g lane lockLost).wider (by decide)) Touch.skip
  refine SameBut.trans ?_ (rest _)
  simp only [run_get]
  cases decide (g < 24) <;> rfl

theorem laneSpareStart_only (v : Nat) : Touches [.params, .slots, .faultLog, .flashDue, .subs, .hostPorts, .fltPending,
    .links, .spray, .life, .out] (laneSpareStart v) := by
  unfold laneSpareStart
  repeat' first
    | (with_reducible first
         | exact Touch.skip | exact Touch.read | exact (requestSpare_only ..).wider (by decide)
         | refine Touch.readThen fun _ => ?_ | refine Touch.andThen ?_ fun _ => ?_
         | refine Touch.cond ?_ ?_)

theorem sendSwitch_only (g lane : Nat) (lost : Bool) : Touches [.slots, .links, .out] (sendSwitch g lane lost) := by
  unfold sendSwitch
  repeat' first
    | (with_reducible first
         | exact Touch.read | exact (setLinkGroup_only ..).wider (by decide) | exact (sendControl_only ..).wider (by decide)
         | refine Touch.readThen fun _ => ?_ | refine Touch.andThen ?_ fun _ => ?_)

theorem rxSwitched_only (g lane : Nat) : Touches [.params, .faultLog, .flashDue, .fltPending, .links] (rxSwitched g lane) := by
  unfold rxSwitched
  repeat' first
    | (with_reducible first
         | exact (setLinkGroup_only ..).wider (by decide) | exact (noteSpare_only ..).wider (by decide) | refine Touch.andThen ?_ fun _ => ?_)

theorem spareOp_only (g op lane at' : Nat) : Touches [.params, .slots, .faultLog, .flashDue, .subs, .hostPorts,
    .fltPending, .links, .spray, .life, .out] (spareOp g op lane at') := by
  unfold spareOp
  repeat' first
    | (with_reducible first
         | exact Touch.skip | exact Touch.read | exact (mapOut_only ..).wider (by decide) | exact (setLinkGroup_only ..).wider (by decide)
         | exact (sendControl_only ..).wider (by decide) | exact (sendSwitch_only ..).wider (by decide) | exact (rxSwitched_only ..).wider (by decide)
         | refine Touch.readThen fun _ => ?_ | refine Touch.andThen ?_ fun _ => ?_
         | refine Touch.onlyIf _ ?_ | refine Touch.cond ?_ ?_)
    | split

theorem spareStep_only (g : Nat) : Touches [.params, .slots, .faultLog, .flashDue, .fltPending, .links, .out] (spareStep g) := by
  unfold spareStep
  repeat' first
    | (with_reducible first
         | exact Touch.read | exact (setLinkGroup_only ..).wider (by decide) | exact (noteSpare_only ..).wider (by decide) | exact (sendControl_only ..).wider (by decide)
         | exact (sendSwitch_only ..).wider (by decide) | exact (rxSwitched_only ..).wider (by decide) | refine Touch.readThen fun _ => ?_
         | refine Touch.andThen ?_ fun _ => ?_ | refine Touch.onlyIf _ ?_ | refine Touch.cond ?_ ?_)

theorem linkTick_only : Touches [.params, .slots, .faultLog, .flashDue, .fltPending, .links, .out] linkTick := by
  unfold linkTick
  repeat' first
    | (with_reducible first
         | exact Touch.read | exact (sendControl_only ..).wider (by decide) | exact (spareStep_only ..).wider (by decide) | exact (fillWord_only ..).wider (by decide)
         | exact (setLinkGroup_only ..).wider (by decide) | exact (sendMarker_only ..).wider (by decide) | refine Touch.readThen fun _ => ?_
         | refine Touch.andThen ?_ fun _ => ?_ | refine Touch.onlyIf _ ?_ | refine Touch.each _ fun _ => ?_)

theorem takeCodewords_only (g : Nat) (errs : List Nat) : Touches [.params, .links] (takeCodewords g errs) := by
  unfold takeCodewords
  repeat' first
    | (with_reducible first
         | exact Touch.read | exact Touch.ret _ | exact (bump_only ..).wider (by decide) | exact (setLinkGroup_only ..).wider (by decide)
         | refine Touch.readThen fun _ => ?_ | refine Touch.andThen ?_ fun _ => ?_
         | refine Touch.onlyIf _ ?_)

theorem flitBad_only (g : Nat) : Touches [.slots, .links, .out] (flitBad g) := by
  unfold flitBad
  repeat' first
    | (with_reducible first
         | exact (setLinkGroup_only ..).wider (by decide) | exact (sendControl_only ..).wider (by decide) | refine Touch.andThen ?_ fun _ => ?_)

theorem dataFlit_only {l : List Piece} (hl : [.params, .slots, .hostPorts, .links, .life, .elo, .out].all l.contains =
    true) (g : Nat) (errs bytes : List Nat) (deliver : Nat → List Nat → M Unit) (hdeliver : ∀ x0 x1, Touches l (deliver x0 x1)) : Touches l (dataFlit g errs bytes deliver) := by
  unfold dataFlit
  repeat' first
    | (with_reducible first
         | exact Touch.skip | exact Touch.read | exact hdeliver .. | exact (takeCodewords_only ..).wider (wide_trans (by decide) hl)
         | exact (flitBad_only ..).wider (wide_trans (by decide) hl) | exact (setLinkGroup_only ..).wider (wide_trans (by decide) hl) | exact (deliver_only ..).wider (wide_trans (by decide) hl)
         | refine Touch.readThen fun _ => ?_ | refine Touch.andThen ?_ fun _ => ?_
         | refine Touch.onlyIf _ ?_ | refine Touch.cond ?_ ?_ | refine Touch.each _ fun _ => ?_)

theorem controlFlit_only (g : Nat) (errs bytes : List Nat) : Touches [.now, .params, .slots, .faultLog, .flashDue, .subs,
    .hostPorts, .fltPending, .links, .spray, .clock, .life, .out] (controlFlit g errs bytes) := by
  unfold controlFlit
  repeat' first
    | (with_reducible first
         | exact Touch.skip | exact Touch.read | exact (takeCodewords_only ..).wider (by decide) | exact (flitBad_only ..).wider (by decide)
         | exact (setLinkGroup_only ..).wider (by decide) | exact (spareOp_only ..).wider (by decide) | exact (goRetrain_only ..).wider (by decide) | exact (sendFlit_only ..).wider (by decide)
         | exact (bump_only ..).wider (by decide) | exact (takeOffset_only ..).wider (by decide) | exact (resume_only ..).wider (by decide) | refine Touch.readThen fun _ => ?_
         | refine Touch.andThen ?_ fun _ => ?_ | refine Touch.onlyIf _ ?_ | refine Touch.cond ?_ ?_
         | refine Touch.each _ fun _ => ?_)
    | (with_reducible refine Touch.change fun _ => ?_); rfl

/-! ## Fabric -/

theorem sendTransfer_only (x : Xfer) : Touches [.slots, .links, .xfers, .spray, .out] (sendTransfer x) := by
  unfold sendTransfer
  repeat' first
    | (with_reducible first
         | exact (sendOver_only ..).wider (by decide) | refine Touch.andThen ?_ fun _ => ?_ | refine Touch.onlyIf _ ?_
         | refine Touch.cond ?_ ?_ | refine Touch.each _ fun _ => ?_)
    | (with_reducible refine Touch.change fun _ => ?_); rfl

theorem openTransfer_only (x : Xfer) : Touches [.slots, .insts, .links, .xfers, .xferWait, .oldTags, .spray, .out]
    (openTransfer x) := by
  unfold openTransfer
  repeat' first
    | (with_reducible first
         | exact Touch.read | exact Touch.ret _ | exact (setInst_only ..).wider (by decide) | exact (sendTransfer_only ..).wider (by decide)
         | refine Touch.readThen fun _ => ?_ | refine Touch.andThen ?_ fun _ => ?_
         | refine Touch.cond ?_ ?_)
    | (with_reducible refine Touch.change fun _ => ?_); rfl
    | split

theorem markAck_only (node tag : Nat) : Touches [.engines] (markAck node tag) := by
  unfold markAck
  repeat' first
    | (with_reducible first
         | refine Touch.andThen ?_ fun _ => ?_ | refine Touch.cond ?_ ?_)
    | (with_reducible refine Touch.change fun _ => ?_); rfl

theorem renameAck_only (node old new : Nat) : Touches [.engines] (renameAck node old new) := by
  unfold renameAck
  repeat' first
    | (with_reducible first
         | refine Touch.andThen ?_ fun _ => ?_ | refine Touch.cond ?_ ?_)
    | (with_reducible refine Touch.change fun _ => ?_); rfl

theorem openWaiting_only (node : Nat) : Touches [.engines, .slots, .insts, .links, .xfers, .xferWait, .oldTags, .spray,
    .out] (openWaiting node) := by
  unfold openWaiting
  repeat' first
    | (with_reducible first
         | exact Touch.skip | exact Touch.read | exact (openTransfer_only ..).wider (by decide) | exact (renameAck_only ..).wider (by decide)
         | refine Touch.readThen fun _ => ?_ | refine Touch.andThen ?_ fun _ => ?_
         | refine Touch.cond ?_ ?_)
    | (with_reducible refine Touch.change fun _ => ?_); rfl
    | split

theorem closeTransfer_only (x : Xfer) : Touches [.xfers, .oldTags] (closeTransfer x) := by
  unfold closeTransfer
  repeat' first
    | (with_reducible first
         | refine Touch.andThen ?_ fun _ => ?_)
    | (with_reducible refine Touch.change fun _ => ?_); rfl

theorem resendTransfer_only (x : Xfer) : Touches [.params, .engines, .slots, .insts, .links, .xfers, .xferWait, .oldTags,
    .spray, .out] (resendTransfer x) := by
  unfold resendTransfer
  repeat' first
    | (with_reducible first
         | exact (closeTransfer_only ..).wider (by decide) | exact (bump_only ..).wider (by decide) | exact (openTransfer_only ..).wider (by decide) | exact (renameAck_only ..).wider (by decide)
         | refine Touch.andThen ?_ fun _ => ?_)

theorem takeAckPacket_only (h : Nat) : Touches [.params, .engines, .slots, .insts, .links, .xfers, .xferWait, .oldTags,
    .spray, .out] (takeAckPacket h) := by
  unfold takeAckPacket
  repeat' first
    | (with_reducible first
         | exact Touch.skip | exact Touch.read | exact (closeTransfer_only ..).wider (by decide) | exact (markAck_only ..).wider (by decide)
         | exact (setInst_only ..).wider (by decide) | exact (openWaiting_only ..).wider (by decide) | exact (resendTransfer_only ..).wider (by decide)
         | refine Touch.readThen fun _ => ?_ | refine Touch.andThen ?_ fun _ => ?_
         | refine Touch.onlyIf _ ?_ | refine Touch.cond ?_ ?_)
    | split

theorem transferAckTimeout_only (node tag : Nat) : Touches [.slots, .links, .xfers, .spray, .out] (transferAckTimeout node
    tag) := by
  unfold transferAckTimeout
  repeat' first
    | (with_reducible first
         | exact Touch.skip | exact Touch.read | exact (sendAbort_only ..).wider (by decide) | refine Touch.readThen fun _ => ?_
         | refine Touch.andThen ?_ fun _ => ?_ | refine Touch.cond ?_ ?_)
    | (with_reducible refine Touch.change fun _ => ?_); rfl
    | split

theorem sendAck_only (node tag : Nat) (complete : Bool) : Touches [.slots, .links, .spray, .out] (sendAck node tag
    complete) := by
  unfold sendAck
  repeat' first
    | (with_reducible first
         | exact Touch.read | exact (sendPacket_only ..).wider (by decide) | refine Touch.readThen fun _ => ?_)

theorem countPacket_only (h : Nat) : Touches [.mem, .poison, .ueFull, .ecc, .params, .rel, .win, .dieCopies, .slots,
    .faultLog, .flashDue, .fltPending, .dead, .links, .rxXfers, .rxDone, .arrivals, .spray, .power, .out] (countPacket h) := by
  unfold countPacket
  repeat' first
    | (with_reducible first
         | exact Touch.skip | exact Touch.read | exact (signalCue_only ..).wider (by decide) | exact (bump_only ..).wider (by decide)
         | exact (sendAck_only ..).wider (by decide) | refine Touch.readThen fun _ => ?_ | refine Touch.andThen ?_ fun _ => ?_
         | refine Touch.onlyIf _ ?_ | refine Touch.cond ?_ ?_)
    | (with_reducible refine Touch.change fun _ => ?_); rfl
    | split

theorem takeData_only (h : Nat) (data : List Nat) : Touches [.mem, .poison, .ueFull, .ecc, .params, .rel, .win, .dieCopies,
    .slots, .faultLog, .flashDue, .fltPending, .dead, .links, .rxXfers, .rxDone, .arrivals, .spray, .power, .out] (takeData h data) := by
  unfold takeData
  repeat' first
    | (with_reducible first
         | exact Touch.skip | exact Touch.read | exact (bump_only ..).wider (by decide) | exact (store_only ..).wider (by decide)
         | exact (countPacket_only ..).wider (by decide) | refine Touch.readThen fun _ => ?_ | refine Touch.andThen ?_ fun _ => ?_
         | refine Touch.onlyIf _ ?_ | refine Touch.cond ?_ ?_)

theorem takeAbort_only (h : Nat) : Touches [.slots, .links, .rxXfers, .spray, .out] (takeAbort h) := by
  unfold takeAbort
  repeat' first
    | (with_reducible first
         | exact Touch.read | exact (sendAck_only ..).wider (by decide) | refine Touch.readThen fun _ => ?_
         | refine Touch.andThen ?_ fun _ => ?_ | refine Touch.onlyIf _ ?_)
    | (with_reducible refine Touch.change fun _ => ?_); rfl

theorem transferLost_only (e p ctx rank : Nat) : Touches [.params, .faultLog, .flashDue, .fltPending] (transferLost e p ctx
    rank) := by
  unfold transferLost
  repeat' first
    | (with_reducible first
         | exact Touch.read | exact (recordFault_only ..).wider (by decide) | exact (bump_only ..).wider (by decide) | refine Touch.readThen fun _ => ?_
         | refine Touch.andThen ?_ fun _ => ?_)

theorem sendShape_only (p : Nat) (assign : Option (Nat × Nat)) : Touches [.params, .subs, .hostPorts, .fltPending, .out]
    (sendShape p assign) := by
  unfold sendShape
  repeat' first
    | (with_reducible first
         | exact Touch.read | exact (emit_only ..).wider (by decide) | exact (raiseEvent_only ..).wider (by decide) | refine Touch.readThen fun _ => ?_
         | refine Touch.andThen ?_ fun _ => ?_ | refine Touch.each _ fun _ => ?_)

theorem endCollective_only (e : Nat) (q : Part) : Touches [.mem, .poison, .ueFull, .ecc, .params, .engines, .rel, .win,
    .dieCopies, .faultLog, .flashDue, .fltPending, .dead] (endCollective e q) := by
  unfold endCollective
  repeat' first
    | (with_reducible first
         | exact (setEngine_only ..).wider (by decide) | exact (storeVal_only ..).wider (by decide) | exact (bump_only ..).wider (by decide) | exact (signalCue_only ..).wider (by decide)
         | refine Touch.andThen ?_ fun _ => ?_ | refine Touch.onlyIf _ ?_)

theorem endAbsent_only (p mask : Nat) : Touches [.mem, .poison, .ueFull, .ecc, .params, .engines, .rel, .win, .dieCopies,
    .faultLog, .flashDue, .fltPending, .dead, .xfers, .xferWait, .oldTags] (endAbsent p mask) := by
  unfold endAbsent
  repeat' first
    | (with_reducible first
         | exact Touch.skip | exact Touch.read | exact (closeTransfer_only ..).wider (by decide) | exact (endCollective_only ..).wider (by decide)
         | exact (setEngine_only ..).wider (by decide) | exact (transferLost_only ..).wider (by decide) | refine Touch.readThen fun _ => ?_
         | refine Touch.andThen ?_ fun _ => ?_ | refine Touch.onlyIf _ ?_ | refine Touch.cond ?_ ?_
         | refine Touch.each _ fun _ => ?_)
    | (with_reducible refine Touch.change fun _ => ?_); rfl
    | split

theorem assignStandby_only (p r : Nat) : Touches [.params, .subs, .hostPorts, .fltPending, .out] (assignStandby p r) := by
  unfold assignStandby
  repeat' first
    | (with_reducible first
         | exact Touch.skip | exact Touch.read | exact (setPar_only ..).wider (by decide) | exact (sendShape_only ..).wider (by decide)
         | exact (emit_only ..).wider (by decide) | refine Touch.readThen fun _ => ?_ | refine Touch.andThen ?_ fun _ => ?_)
    | split

theorem rankLost_only (p r : Nat) : Touches [.mem, .poison, .ueFull, .ecc, .params, .eff, .places, .placesNext, .engines,
    .rel, .win, .dieCopies, .faultLog, .flashDue, .subs, .hostPorts, .frames, .reels, .doors, .insts, .nodes, .fltPending, .dead, .xfers, .xferWait, .oldTags, .life, .elo, .out] (rankLost p r) := by
  unfold rankLost
  repeat' first
    | (with_reducible first
         | exact Touch.skip | exact Touch.read | exact (loseRank_only ..).wider (by decide) | exact (sendShape_only ..).wider (by decide)
         | exact (endAbsent_only ..).wider (by decide) | exact (assignStandby_only ..).wider (by decide) | refine Touch.readThen fun _ => ?_
         | refine Touch.andThen ?_ fun _ => ?_ | refine Touch.cond ?_ ?_)

theorem instancesLose_only (node : Nat) (leadToo : Bool) : Touches [.mem, .poison, .ueFull, .ecc, .params, .eff, .places,
    .placesNext, .engines, .rel, .win, .dieCopies, .faultLog, .flashDue, .subs, .hostPorts, .frames, .reels, .doors, .insts, .nodes, .fltPending, .dead, .xfers, .xferWait, .oldTags, .life, .elo, .out] (instancesLose node leadToo) := by
  unfold instancesLose
  repeat' first
    | (with_reducible first
         | exact Touch.skip | exact Touch.read | exact (rankLost_only ..).wider (by decide) | exact (leadLost_only ..).wider (by decide)
         | refine Touch.readThen fun _ => ?_ | refine Touch.andThen ?_ fun _ => ?_
         | refine Touch.onlyIf _ ?_ | refine Touch.cond ?_ ?_ | refine Touch.each _ fun _ => ?_)
    | split

theorem nodeGone_only (node : Nat) : Touches [.params, .engines, .faultLog, .flashDue, .fltPending, .xfers, .xferWait,
    .oldTags, .gone] (nodeGone node) := by
  unfold nodeGone
  repeat' first
    | (with_reducible first
         | exact Touch.skip | exact Touch.read | exact (closeTransfer_only ..).wider (by decide) | exact (transferLost_only ..).wider (by decide)
         | exact (setEngine_only ..).wider (by decide) | refine Touch.readThen fun _ => ?_ | refine Touch.andThen ?_ fun _ => ?_
         | refine Touch.onlyIf _ ?_ | refine Touch.cond ?_ ?_ | refine Touch.each _ fun _ => ?_)
    | (with_reducible refine Touch.change fun _ => ?_); rfl
    | split

theorem noticeEvent_only (code node mask : Nat) : Touches [.params, .subs, .hostPorts, .fltPending, .out] (noticeEvent code
    node mask) := by
  unfold noticeEvent
  repeat' first
    | (with_reducible first
         | exact Touch.read | exact (raiseEvent_only ..).wider (by decide) | refine Touch.readThen fun _ => ?_)

theorem peerDown_only (code node : Nat) : Touches [.mem, .poison, .ueFull, .ecc, .params, .eff, .places, .placesNext,
    .engines, .rel, .win, .dieCopies, .slots, .faultLog, .flashDue, .subs, .hostPorts, .frames, .reels, .doors, .insts, .nodes, .fltPending, .dead, .links, .xfers, .xferWait, .oldTags, .gone, .spray, .life, .elo, .out] (peerDown code node) := by
  unfold peerDown
  repeat' first
    | (with_reducible first
         | exact (noticeEvent_only ..).wider (by decide) | exact (nodeGone_only ..).wider (by decide) | exact (sendNotice_only ..).wider (by decide) | exact (instancesLose_only ..).wider (by decide)
         | refine Touch.andThen ?_ fun _ => ?_)

theorem peerLost_only (node : Nat) : Touches [.mem, .poison, .ueFull, .ecc, .params, .eff, .places, .placesNext, .engines,
    .rel, .win, .dieCopies, .faultLog, .flashDue, .subs, .hostPorts, .frames, .reels, .doors, .insts, .nodes, .fltPending, .dead, .xfers, .xferWait, .oldTags, .life, .elo, .out] (peerLost node) := by
  unfold peerLost
  repeat' first
    | (with_reducible first
         | exact (noticeEvent_only ..).wider (by decide) | exact (instancesLose_only ..).wider (by decide) | refine Touch.andThen ?_ fun _ => ?_)

theorem planesNotice_only (node mask : Nat) : Touches [.params, .subs, .hostPorts, .fltPending, .planes, .out]
    (planesNotice node mask) := by
  unfold planesNotice
  repeat' first
    | (with_reducible first
         | exact (noticeEvent_only ..).wider (by decide) | refine Touch.andThen ?_ fun _ => ?_)
    | (with_reducible refine Touch.change fun _ => ?_); rfl

theorem pathLoss_only (node : Nat) : Touches [.mem, .poison, .ueFull, .ecc, .params, .eff, .places, .placesNext, .engines,
    .rel, .win, .dieCopies, .slots, .faultLog, .flashDue, .subs, .hostPorts, .frames, .reels, .doors, .insts, .nodes, .fltPending, .dead, .links, .xfers, .xferWait, .oldTags, .spray, .life, .elo, .out] (pathLoss node) := by
  unfold pathLoss
  repeat' first
    | (with_reducible first
         | exact Touch.skip | exact Touch.read | exact (sendNotice_only ..).wider (by decide) | exact (instancesLose_only ..).wider (by decide)
         | refine Touch.readThen fun _ => ?_ | refine Touch.andThen ?_ fun _ => ?_
         | refine Touch.cond ?_ ?_)

theorem applyShape_only (p mask epoch : Nat) (assign : Option (Nat × Nat)) : Touches [.mem, .poison, .ueFull, .ecc,
    .params, .eff, .engines, .rel, .win, .dieCopies, .faultLog, .flashDue, .subs, .hostPorts, .fltPending, .dead, .xfers, .xferWait, .oldTags, .out] (applyShape p mask epoch assign) := by
  unfold applyShape
  repeat' first
    | (with_reducible first
         | exact Touch.skip | exact Touch.read | exact (raiseEvent_only ..).wider (by decide) | exact (setPar_only ..).wider (by decide)
         | exact (endAbsent_only ..).wider (by decide) | exact (setEff_only ..).wider (by decide) | refine Touch.readThen fun _ => ?_
         | refine Touch.andThen ?_ fun _ => ?_ | refine Touch.cond ?_ ?_)
    | split

theorem rankReady_only (p r : Nat) : Touches [.params, .subs, .hostPorts, .insts, .fltPending, .out] (rankReady p r) := by
  unfold rankReady
  repeat' first
    | (with_reducible first
         | exact Touch.skip | exact Touch.read | exact (emit_only ..).wider (by decide) | exact (setPar_only ..).wider (by decide) | exact (bump_only ..).wider (by decide)
         | exact (setInst_only ..).wider (by decide) | exact (sendShape_only ..).wider (by decide) | refine Touch.readThen fun _ => ?_
         | refine Touch.andThen ?_ fun _ => ?_ | refine Touch.cond ?_ ?_)
    | split

theorem takeNotice_only (data : List Nat) : Touches [.mem, .poison, .ueFull, .ecc, .params, .eff, .places, .placesNext,
    .engines, .rel, .win, .dieCopies, .slots, .faultLog, .flashDue, .subs, .hostPorts, .frames, .reels, .doors, .insts, .nodes, .fltPending, .dead, .links, .xfers, .xferWait, .oldTags, .planes, .gone, .spray, .life, .elo, .out] (takeNotice data) := by
  unfold takeNotice
  repeat' first
    | (with_reducible first
         | exact Touch.skip | exact (planesNotice_only ..).wider (by decide) | exact (noticeEvent_only ..).wider (by decide) | exact (peerDown_only ..).wider (by decide)
         | exact (peerLost_only ..).wider (by decide) | refine Touch.andThen ?_ fun _ => ?_)
    | split
    | dsimp only

theorem forwardPacket_only (ch h : Nat) (data : List Nat) : Touches [.params, .slots, .links, .spray, .out] (forwardPacket
    ch h data) := by
  unfold forwardPacket
  repeat' first
    | (with_reducible first
         | exact Touch.read | exact (bump_only ..).wider (by decide) | exact (sendPacket_only ..).wider (by decide) | refine Touch.readThen fun _ => ?_
         | refine Touch.andThen ?_ fun _ => ?_ | refine Touch.cond ?_ ?_)

theorem takePacket_only (ch h : Nat) (data : List Nat) : Touches (Piece.allBut [.pending, .now, .mode, .ctxs, .streams,
    .heldCtl, .phys, .retired, .restores, .vaultLoad, .codecRefs, .codecUnit, .stories, .flashLog, .kvScales, .kvBad, .reelImage, .drain, .tests, .overdue, .meshHits, .engineDumps, .dumps, .dumpRun, .dumpSummary, .peers, .clock, .eth, .hostReads, .bridges, .freeIx]) (takePacket ch h data) := by
  unfold takePacket
  repeat' first
    | (with_reducible first
         | exact Touch.skip | exact Touch.read | exact (forwardPacket_only ..).wider (by decide) | exact (takeData_only ..).wider (by decide)
         | exact (takeNotice_only ..).wider (by decide) | exact (takeAckPacket_only ..).wider (by decide) | exact (takeAbort_only ..).wider (by decide) | exact (bump_only ..).wider (by decide)
         | refine Touch.readThen fun _ => ?_ | refine Touch.andThen ?_ fun _ => ?_
         | refine Touch.cond ?_ ?_)
    | (with_reducible refine Touch.change fun _ => ?_); rfl
    | split

theorem takePacketBytes_only (g ch : Nat) (bs : List Nat) : Touches (Piece.allBut [.pending, .now, .mode, .ctxs, .streams,
    .heldCtl, .phys, .retired, .restores, .vaultLoad, .codecRefs, .codecUnit, .stories, .flashLog, .kvScales, .kvBad, .reelImage, .drain, .tests, .overdue, .meshHits, .engineDumps, .dumps, .dumpRun, .dumpSummary, .clock, .eth, .hostReads, .bridges, .freeIx]) (takePacketBytes g ch bs) := by
  unfold takePacketBytes
  repeat' first
    | (with_reducible first
         | exact (identityRecord_only ..).wider (by decide) | exact (takePacket_only ..).wider (by decide) | refine Touch.andThen ?_ fun _ => ?_
         | refine Touch.cond ?_ ?_)

theorem copySend_only (c : Cmd) (x0 : Nat) (x1 : Nat) : Touches [.poison, .ueFull, .ecc, .params, .rel, .win, .dieCopies,
    .slots, .faultLog, .flashDue, .subs, .hostPorts, .insts, .fltPending, .links, .xfers, .xferWait, .oldTags, .spray, .out] (copySend c x0 x1) := by
  induction x0 generalizing x1 with
  | zero =>
    unfold copySend
    repeat' first
      | (with_reducible first
           | exact Touch.read | exact Touch.ret _)
  | succ n ih =>
    unfold copySend
    repeat' first
      | (with_reducible first
           | exact ih .. | exact Touch.read | exact Touch.ret _ | exact (transferLost_only ..).wider (by decide) | exact (load_only ..).wider (by decide)
           | exact (forwarded_only ..).wider (by decide) | exact (openTransfer_only ..).wider (by decide) | refine Touch.readThen fun _ => ?_
           | refine Touch.andThen ?_ fun _ => ?_ | refine Touch.cond ?_ ?_)

theorem requestHost_only (h a n : Nat) : Touches [.hostReads, .out] (requestHost h a n) := by
  unfold requestHost
  repeat' first
    | (with_reducible first
         | exact Touch.read | exact (emit_only ..).wider (by decide) | refine Touch.readThen fun _ => ?_
         | refine Touch.andThen ?_ fun _ => ?_ | refine Touch.each _ fun _ => ?_)
    | (with_reducible refine Touch.change fun _ => ?_); rfl

theorem copyRun_only (c : Cmd) : Touches [.mem, .poison, .ueFull, .ecc, .params, .engines, .rel, .win, .dieCopies, .slots,
    .faultLog, .flashDue, .subs, .hostPorts, .insts, .fltPending, .dead, .links, .xfers, .xferWait, .oldTags, .spray, .out] (copyRun c) := by
  unfold copyRun
  repeat' first
    | (with_reducible first
         | exact Touch.read | exact Touch.ret _ | exact (copySend_only ..).wider (by decide) | exact (copyExtent_only ..).wider (by decide)
         | exact (unitsDone_only ..).wider (by decide) | refine Touch.readThen fun _ => ?_ | refine Touch.andThen ?_ fun _ => ?_
         | refine Touch.cond ?_ ?_)

theorem bodyCopy_only (c : Cmd) : Touches [.mem, .poison, .ueFull, .ecc, .params, .engines, .rel, .win, .dieCopies, .slots,
    .faultLog, .flashDue, .subs, .hostPorts, .insts, .fltPending, .dead, .links, .xfers, .xferWait, .oldTags, .spray, .hostReads, .out] (bodyCopy c) := by
  unfold bodyCopy
  repeat' first
    | (with_reducible first
         | exact Touch.read | exact Touch.ret _ | exact (clampDesc_only ..).wider (by decide) | exact (copySend_only ..).wider (by decide)
         | exact (requestHost_only ..).wider (by decide) | exact (copyRun_only ..).wider (by decide) | refine Touch.readThen fun _ => ?_
         | refine Touch.andThen ?_ fun _ => ?_ | refine Touch.cond ?_ ?_)
    | split

theorem collRead_only (c : Cmd) (dest a n : Nat) : Touches [.poison, .ueFull, .ecc, .params, .rel, .win, .dieCopies,
    .faultLog, .flashDue, .subs, .hostPorts, .fltPending, .out] (collRead c dest a n) := by
  unfold collRead
  repeat' first
    | (with_reducible first
         | exact (load_only ..).wider (by decide) | exact (forwarded_only ..).wider (by decide) | refine Touch.andThen ?_ fun _ => ?_)

theorem contribute_only (c : Cmd) (v : CollEnv) (j addr : Nat) (bs : List Nat) : Touches [.slots, .insts, .links, .xfers,
    .xferWait, .oldTags, .spray, .out] (contribute c v j addr bs) := by
  unfold contribute
  repeat' first
    | (with_reducible first
         | exact Touch.skip | exact Touch.read | exact (openTransfer_only ..).wider (by decide)
         | refine Touch.readThen fun _ => ?_ | refine Touch.andThen ?_ fun _ => ?_
         | refine Touch.cond ?_ ?_)

theorem collOwn_only (c : Cmd) (v : CollEnv) (j k : Nat) : Touches [.poison, .ueFull, .ecc, .params, .rel, .win,
    .dieCopies, .faultLog, .flashDue, .subs, .hostPorts, .fltPending, .out] (collOwn c v j k) := by
  unfold collOwn
  repeat' first
    | (with_reducible first
         | exact Touch.ret _ | exact (collRead_only ..).wider (by decide) | refine Touch.andThen ?_ fun _ => ?_)

theorem collConvert_only (v : CollEnv) (xs : List Nat) : Touches [.params] (collConvert v xs) := by
  unfold collConvert
  repeat' first
    | (with_reducible first
         | exact Touch.ret _ | exact (countConv_only ..).wider (by decide) | refine Touch.andThen ?_ fun _ => ?_
         | refine Touch.cond ?_ ?_)

theorem takeArrivals_only (p ctx : Nat) (v : CollEnv) (k : Nat) : Touches [.arrivals] (takeArrivals p ctx v k) := by
  unfold takeArrivals
  repeat' first
    | (with_reducible first
         | refine Touch.andThen ?_ fun _ => ?_ | refine Touch.cond ?_ ?_ | refine Touch.each _ fun _ => ?_)
    | (with_reducible refine Touch.change fun _ => ?_); first | rfl | ((repeat' split) <;> rfl)

theorem collStart_only (c : Cmd) (v : CollEnv) : Touches [.mem, .poison, .ueFull, .ecc, .params, .rel, .win, .dieCopies,
    .slots, .faultLog, .flashDue, .subs, .hostPorts, .insts, .fltPending, .dead, .links, .xfers, .xferWait, .oldTags, .spray, .out] (collStart c v) := by
  unfold collStart
  repeat' first
    | (with_reducible first
         | exact Touch.skip | exact (collOwn_only ..).wider (by decide) | exact (collConvert_only ..).wider (by decide) | exact (store_only ..).wider (by decide)
         | exact (contribute_only ..).wider (by decide) | exact (copyExtent_only ..).wider (by decide) | exact (collRead_only ..).wider (by decide)
         | refine Touch.andThen ?_ fun _ => ?_ | refine Touch.cond ?_ ?_ | refine Touch.each _ fun _ => ?_)

theorem directSum_only (c : Cmd) (v : CollEnv) : Touches [.poison, .ueFull, .ecc, .params, .rel, .win, .dieCopies,
    .faultLog, .flashDue, .subs, .hostPorts, .fltPending, .out] (directSum c v) := by
  unfold directSum
  repeat' first
    | (with_reducible first
         | exact Touch.ret _ | exact (collRead_only ..).wider (by decide) | refine Touch.andThen ?_ fun _ => ?_
         | refine Touch.cond ?_ ?_ | refine Touch.collect _ fun _ => ?_)
    | split

theorem collResult_only (c : Cmd) (v : CollEnv) (xs : List Nat) (dst' : List Nat) : Touches [.mem, .poison, .ecc, .params,
    .slots, .insts, .dead, .links, .xfers, .xferWait, .oldTags, .spray, .out] (collResult c v xs dst') := by
  unfold collResult
  repeat' first
    | (with_reducible first
         | exact (collConvert_only ..).wider (by decide) | exact (store_only ..).wider (by decide) | exact (contribute_only ..).wider (by decide)
         | refine Touch.andThen ?_ fun _ => ?_ | refine Touch.onlyIf _ ?_ | refine Touch.cond ?_ ?_
         | refine Touch.each _ fun _ => ?_)

theorem collStep_only (c : Cmd) (v : CollEnv) (k : Nat) : Touches [.mem, .poison, .ueFull, .ecc, .params, .rel, .win,
    .dieCopies, .slots, .faultLog, .flashDue, .subs, .hostPorts, .insts, .fltPending, .dead, .links, .xfers, .xferWait, .oldTags, .spray, .out] (collStep c v k) := by
  unfold collStep
  repeat' first
    | (with_reducible first
         | exact Touch.skip | exact (collRead_only ..).wider (by decide) | exact (collOwn_only ..).wider (by decide) | exact (contribute_only ..).wider (by decide)
         | exact (collResult_only ..).wider (by decide) | exact (directSum_only ..).wider (by decide) | refine Touch.andThen ?_ fun _ => ?_
         | refine Touch.cond ?_ ?_)

theorem collGo_only (c : Cmd) (mask : Nat) (v : CollEnv) (x0 : Nat) (x1 : Nat) : Touches [.mem, .poison, .ueFull, .ecc,
    .params, .rel, .win, .dieCopies, .slots, .faultLog, .flashDue, .subs, .hostPorts, .insts, .fltPending, .dead, .links, .xfers, .xferWait, .oldTags, .arrivals, .spray, .out] (collGo c mask v x0 x1) := by
  induction x0 generalizing x1 with
  | zero =>
    unfold collGo
    repeat' first
      | (with_reducible first
           | exact Touch.read | exact Touch.ret _)
  | succ n ih =>
    unfold collGo
    repeat' first
      | (with_reducible first
           | exact ih .. | exact Touch.read | exact Touch.ret _ | exact (storeVal_only ..).wider (by decide)
           | exact (takeArrivals_only ..).wider (by decide) | exact (collStep_only ..).wider (by decide) | refine Touch.readThen fun _ => ?_
           | refine Touch.andThen ?_ fun _ => ?_ | refine Touch.onlyIf _ ?_ | refine Touch.cond ?_ ?_)

theorem collEnd_only (c : Cmd) (status : Nat) : Touches [.mem, .poison, .ecc, .params, .dead] (collEnd c status) := by
  unfold collEnd
  repeat' first
    | (with_reducible first
         | exact Touch.ret _ | exact (storeVal_only ..).wider (by decide) | exact (bump_only ..).wider (by decide) | refine Touch.andThen ?_ fun _ => ?_
         | refine Touch.onlyIf _ ?_)

theorem bodyCollective_only (c : Cmd) : Touches [.mem, .poison, .ueFull, .ecc, .params, .rel, .win, .dieCopies, .slots,
    .faultLog, .flashDue, .subs, .hostPorts, .insts, .fltPending, .dead, .links, .xfers, .xferWait, .oldTags, .arrivals, .spray, .out] (bodyCollective c) := by
  unfold bodyCollective
  repeat' first
    | (with_reducible first
         | exact Touch.read | exact (clampDesc_only ..).wider (by decide) | exact (load_only ..).wider (by decide) | exact (collEnd_only ..).wider (by decide)
         | exact (collStart_only ..).wider (by decide) | exact (collGo_only ..).wider (by decide) | refine Touch.readThen fun _ => ?_
         | refine Touch.andThen ?_ fun _ => ?_ | refine Touch.cond ?_ ?_)

theorem markCollectives_only : Touches [.engines] markCollectives := by
  unfold markCollectives
  repeat' first
    | (with_reducible first
         | refine Touch.andThen ?_ fun _ => ?_ | refine Touch.cond ?_ ?_)
    | (with_reducible refine Touch.change fun _ => ?_); rfl

theorem remoteWaitRecord_only (e p ctx : Nat) : Touches [.params, .faultLog, .flashDue, .subs, .hostPorts, .insts,
    .fltPending, .out] (remoteWaitRecord e p ctx) := by
  unfold remoteWaitRecord
  repeat' first
    | (with_reducible first
         | exact Touch.read | exact (recordFault_only ..).wider (by decide) | exact (raiseEvent_only ..).wider (by decide) | exact (bump_only ..).wider (by decide)
         | exact (setInst_only ..).wider (by decide) | refine Touch.readThen fun _ => ?_ | refine Touch.andThen ?_ fun _ => ?_
         | refine Touch.onlyIf _ ?_)

theorem remoteWaitExpiry_only (e p ctx : Nat) : Touches [.mem, .poison, .ueFull, .ecc, .params, .streams, .engines, .rel,
    .win, .dieCopies, .faultLog, .flashDue, .subs, .hostPorts, .insts, .fltPending, .dead, .out] (remoteWaitExpiry e p ctx) := by
  unfold remoteWaitExpiry
  repeat' first
    | (with_reducible first
         | exact Touch.skip | exact Touch.read | exact (remoteWaitRecord_only ..).wider (by decide) | exact (endCollective_only ..).wider (by decide)
         | exact (setEngine_only ..).wider (by decide) | exact (transferLost_only ..).wider (by decide) | refine Touch.readThen fun _ => ?_
         | refine Touch.andThen ?_ fun _ => ?_ | refine Touch.onlyIf _ ?_ | refine Touch.cond ?_ ?_
         | refine Touch.each _ fun _ => ?_)
    | (with_reducible refine Touch.change fun _ => ?_); rfl
    | split

/-! ## Contexts -/

theorem ctlCue_only (p a : Nat) : Touches [.mem, .poison, .ueFull, .ecc, .params, .rel, .win, .dieCopies, .faultLog,
    .flashDue, .fltPending, .dead] (ctlCue p a) := by
  unfold ctlCue
  repeat' first
    | (with_reducible first
         | exact (signalCue_only ..).wider (by decide))

theorem ctlIgnored_only (p v : Nat) : Touches [.mem, .poison, .ueFull, .ecc, .params, .rel, .win, .dieCopies, .faultLog,
    .flashDue, .fltPending, .dead] (ctlIgnored p v) := by
  unfold ctlIgnored
  repeat' first
    | (with_reducible first
         | exact (bump_only ..).wider (by decide) | exact (ctlCue_only ..).wider (by decide) | refine Touch.andThen ?_ fun _ => ?_)

theorem ctlClamped_only (p v : Nat) : Touches [.mem, .poison, .ueFull, .ecc, .params, .rel, .win, .dieCopies, .faultLog,
    .flashDue, .fltPending, .dead] (ctlClamped p v) := by
  unfold ctlClamped
  repeat' first
    | (with_reducible first
         | exact (clampDesc_only ..).wider (by decide) | exact (ctlCue_only ..).wider (by decide) | refine Touch.andThen ?_ fun _ => ?_)

theorem holdCtl_only (p addr v : Nat) : Touches [.heldCtl] (holdCtl p addr v) := by
  unfold holdCtl
  repeat' first
    | (with_reducible first
         | refine Touch.andThen ?_ fun _ => ?_)
    | (with_reducible refine Touch.change fun _ => ?_); rfl

theorem ctlBack_only (addr v : Nat) : Touches [.mem, .poison, .ecc, .params, .dead] (ctlBack addr v) := by
  unfold ctlBack
  repeat' first
    | (with_reducible first
         | exact (storeVal_only ..).wider (by decide))

theorem ctxOpen_only (p addr v : Nat) : Touches [.mem, .poison, .ueFull, .ecc, .params, .ctxs, .heldCtl, .rel, .win,
    .dieCopies, .faultLog, .flashDue, .fltPending, .dead] (ctxOpen p addr v) := by
  unfold ctxOpen
  repeat' first
    | (with_reducible first
         | exact Touch.read | exact (ctlBack_only ..).wider (by decide) | exact (ctlCue_only ..).wider (by decide) | exact (holdCtl_only ..).wider (by decide)
         | refine Touch.readThen fun _ => ?_ | refine Touch.andThen ?_ fun _ => ?_
         | refine Touch.cond ?_ ?_)
    | (with_reducible refine Touch.change fun _ => ?_); rfl
    | split
    | dsimp only

theorem fenceCtx_only (p c cue : Nat) : Touches [.poison, .ueFull, .ecc, .params, .eff, .ctxs, .streams, .heldCtl,
    .engines, .rel, .win, .dieCopies, .slots, .codecRefs, .faultLog, .flashDue, .fltPending, .xferWait] (fenceCtx p c cue) := by
  unfold fenceCtx
  repeat' first
    | (with_reducible first
         | exact Touch.read | exact (putRefs_only ..).wider (by decide) | exact (emptySlot_only ..).wider (by decide)
         | refine Touch.readThen fun _ => ?_ | refine Touch.andThen ?_ fun _ => ?_
         | refine Touch.onlyIf _ ?_ | refine Touch.cond ?_ ?_ | refine Touch.each _ fun _ => ?_)
    | (with_reducible refine Touch.change fun _ => ?_); rfl

theorem ctxTeardown_only (p addr v : Nat) : Touches [.mem, .poison, .ueFull, .ecc, .params, .eff, .ctxs, .streams,
    .heldCtl, .engines, .rel, .win, .dieCopies, .slots, .codecRefs, .faultLog, .flashDue, .fltPending, .dead, .xferWait] (ctxTeardown p addr v) := by
  unfold ctxTeardown
  repeat' first
    | (with_reducible first
         | exact Touch.read | exact (ctlIgnored_only ..).wider (by decide) | exact (holdCtl_only ..).wider (by decide) | exact (fenceCtx_only ..).wider (by decide)
         | refine Touch.readThen fun _ => ?_ | refine Touch.andThen ?_ fun _ => ?_
         | refine Touch.cond ?_ ?_)

theorem streamBind_only (p addr v : Nat) (again : Bool) : Touches [.mem, .poison, .ueFull, .ecc, .params, .streams,
    .heldCtl, .rel, .win, .dieCopies, .faultLog, .flashDue, .fltPending, .dead] (streamBind p addr v again) := by
  unfold streamBind
  repeat' first
    | (with_reducible first
         | exact Touch.read | exact (ctlIgnored_only ..).wider (by decide) | exact (ctlClamped_only ..).wider (by decide) | exact (clampDesc_only ..).wider (by decide)
         | exact (ctlBack_only ..).wider (by decide) | exact (ctlCue_only ..).wider (by decide) | exact (holdCtl_only ..).wider (by decide) | exact (bump_only ..).wider (by decide)
         | refine Touch.readThen fun _ => ?_ | refine Touch.andThen ?_ fun _ => ?_
         | refine Touch.onlyIf _ ?_ | refine Touch.cond ?_ ?_)
    | (with_reducible refine Touch.change fun _ => ?_); rfl
    | split

theorem streamUnbind_only (p v : Nat) : Touches [.mem, .poison, .ueFull, .ecc, .params, .streams, .rel, .win, .dieCopies,
    .faultLog, .flashDue, .fltPending, .dead] (streamUnbind p v) := by
  unfold streamUnbind
  repeat' first
    | (with_reducible first
         | exact Touch.read | exact (ctlIgnored_only ..).wider (by decide) | exact (ctlClamped_only ..).wider (by decide) | exact (ctlCue_only ..).wider (by decide)
         | refine Touch.readThen fun _ => ?_ | refine Touch.andThen ?_ fun _ => ?_
         | refine Touch.cond ?_ ?_)
    | (with_reducible refine Touch.change fun _ => ?_); rfl
    | split

theorem ctxPreempt_only (p addr v : Nat) (again : Bool) : Touches [.mem, .poison, .ueFull, .ecc, .params, .ctxs, .heldCtl,
    .engines, .rel, .win, .dieCopies, .faultLog, .flashDue, .fltPending, .dead] (ctxPreempt p addr v again) := by
  unfold ctxPreempt
  repeat' first
    | (with_reducible first
         | exact Touch.read | exact (holdCtl_only ..).wider (by decide) | exact (ctlCue_only ..).wider (by decide) | exact (ctlIgnored_only ..).wider (by decide)
         | exact (ctlClamped_only ..).wider (by decide) | exact (saveParts_only ..).wider (by decide) | refine Touch.readThen fun _ => ?_
         | refine Touch.andThen ?_ fun _ => ?_ | refine Touch.cond ?_ ?_ | refine Touch.each _ fun _ => ?_)
    | (with_reducible refine Touch.change fun _ => ?_); rfl

theorem ctxResume_only (p v : Nat) : Touches [.mem, .poison, .ueFull, .ecc, .params, .ctxs, .rel, .win, .dieCopies,
    .faultLog, .flashDue, .fltPending, .dead] (ctxResume p v) := by
  unfold ctxResume
  repeat' first
    | (with_reducible first
         | exact Touch.read | exact (ctlIgnored_only ..).wider (by decide) | exact (ctlClamped_only ..).wider (by decide) | exact (ctlCue_only ..).wider (by decide)
         | refine Touch.readThen fun _ => ?_ | refine Touch.andThen ?_ fun _ => ?_
         | refine Touch.cond ?_ ?_)
    | (with_reducible refine Touch.change fun _ => ?_); rfl

theorem performCtl_only (p addr v : Nat) (again : Bool) : Touches [.mem, .poison, .ueFull, .ecc, .params, .eff, .ctxs,
    .streams, .heldCtl, .engines, .rel, .win, .dieCopies, .slots, .codecRefs, .faultLog, .flashDue, .fltPending, .dead, .xferWait] (performCtl p addr v again) := by
  unfold performCtl
  repeat' first
    | (with_reducible first
         | exact Touch.read | exact (ctxOpen_only ..).wider (by decide) | exact (ctxTeardown_only ..).wider (by decide) | exact (streamBind_only ..).wider (by decide)
         | exact (streamUnbind_only ..).wider (by decide) | exact (ctxPreempt_only ..).wider (by decide) | exact (ctxResume_only ..).wider (by decide) | exact (clampDesc_only ..).wider (by decide)
         | exact (ctlCue_only ..).wider (by decide) | exact (ctlIgnored_only ..).wider (by decide) | refine Touch.readThen fun _ => ?_
         | refine Touch.andThen ?_ fun _ => ?_ | refine Touch.onlyIf _ ?_ | refine Touch.cond ?_ ?_)
    | split

theorem retryHeld_only : Touches [.mem, .poison, .ueFull, .ecc, .params, .eff, .ctxs, .streams, .heldCtl, .engines, .rel, .win, .dieCopies, .slots, .codecRefs, .faultLog, .flashDue, .fltPending, .dead, .xferWait] retryHeld := by
  intro s
  have rest : Touches [.mem, .poison, .ueFull, .ecc, .params, .eff, .ctxs, .streams, .heldCtl, .engines, .rel, .win, .dieCopies, .slots, .codecRefs, .faultLog, .flashDue, .fltPending, .dead, .xferWait]
      (each s.heldCtl fun h => performCtl h.p h.addr h.entry true) := Touch.each _ fun _ => (performCtl_only _ _ _ _).wider (by decide)
  exact SameBut.trans (t := { s with heldCtl := [] }) (by rfl) (rest _)

theorem takeCtl_only (p : Nat) (ops : List Nat) : Touches [.mem, .poison, .ueFull, .ecc, .params, .eff, .ctxs, .streams,
    .heldCtl, .engines, .rel, .win, .dieCopies, .slots, .codecRefs, .faultLog, .flashDue, .doors, .fltPending, .dead, .xferWait] (takeCtl p ops) := by
  unfold takeCtl
  repeat' first
    | (with_reducible first
         | exact Touch.read | exact Touch.ret _ | exact (load_only ..).wider (by decide) | exact (setDoor_only ..).wider (by decide)
         | exact (recordUe_only ..).wider (by decide) | exact (performCtl_only ..).wider (by decide) | refine Touch.readThen fun _ => ?_
         | refine Touch.andThen ?_ fun _ => ?_ | refine Touch.cond ?_ ?_)
    | split

theorem passNops_only (p : Nat) (x0 : Nat) : Touches [.mem, .poison, .ueFull, .ecc, .params, .eff, .ctxs, .streams,
    .heldCtl, .engines, .rel, .win, .dieCopies, .slots, .codecRefs, .faultLog, .flashDue, .doors, .fltPending, .dead, .xferWait] (passNops p x0) := by
  induction x0 with
  | zero =>
    unfold passNops
    repeat' first
      | (with_reducible first
           | exact Touch.skip)
  | succ n ih =>
    unfold passNops
    repeat' first
      | (with_reducible first
           | exact ih .. | exact Touch.skip | exact (takeCtl_only ..).wider (by decide) | refine Touch.andThen ?_ fun _ => ?_
           | refine Touch.cond ?_ ?_)

theorem ctlRow_only (p op : Nat) : Touches [.mem, .poison, .ueFull, .ecc, .params, .eff, .ctxs, .streams, .heldCtl,
    .engines, .rel, .win, .dieCopies, .slots, .codecRefs, .faultLog, .flashDue, .doors, .fltPending, .dead, .xferWait] (ctlRow p op) := by
  unfold ctlRow
  repeat' first
    | (with_reducible first
         | exact (passNops_only ..).wider (by decide) | exact (takeCtl_only ..).wider (by decide) | exact (retryHeld_only ..).wider (by decide)
         | refine Touch.andThen ?_ fun _ => ?_ | refine Touch.onlyIf _ ?_)

theorem startQueues_only (p : Nat) : Touches [.eff] (startQueues p) := by
  unfold startQueues
  repeat' first
    | (with_reducible first
         | exact (par_only ..).wider (by decide) | exact (setEff_only ..).wider (by decide) | refine Touch.andThen ?_ fun _ => ?_
         | refine Touch.each _ fun _ => ?_)

theorem followPartitions_only : Touches [.mode, .params, .subs, .hostPorts, .fltPending, .life, .elo, .out]
    followPartitions := by
  unfold followPartitions
  repeat' first
    | (with_reducible first
         | exact Touch.skip | exact Touch.read | exact (setMode_only ..).wider (by decide) | refine Touch.readThen fun _ => ?_
         | refine Touch.andThen ?_ fun _ => ?_ | refine Touch.onlyIf _ ?_)
    | split

theorem partitionStart_only (p : Nat) : Touches [.mode, .mem, .poison, .ueFull, .ecc, .params, .eff, .places, .placesNext,
    .rel, .win, .dieCopies, .faultLog, .flashDue, .subs, .hostPorts, .kvScales, .kvBad, .frames, .reels, .reelImage, .insts, .fltPending, .dead, .life, .elo, .out] (partitionStart p) := by
  unfold partitionStart
  repeat' first
    | (with_reducible first
         | exact Touch.skip | exact Touch.read | exact (setPar_only ..).wider (by decide) | exact (readPlacements_only ..).wider (by decide)
         | exact (startQueues_only ..).wider (by decide) | exact (startKv_only ..).wider (by decide) | exact (startExperts_only ..).wider (by decide) | exact (followPartitions_only ..).wider (by decide)
         | refine Touch.readThen fun _ => ?_ | refine Touch.andThen ?_ fun _ => ?_
         | refine Touch.cond ?_ ?_)

theorem partitionGoOn_only (p : Nat) : Touches [.mode, .poison, .ueFull, .ecc, .params, .eff, .ctxs, .streams, .heldCtl,
    .engines, .rel, .win, .dieCopies, .slots, .codecRefs, .faultLog, .flashDue, .subs, .hostPorts, .fltPending, .xferWait, .life, .elo, .out] (partitionGoOn p) := by
  unfold partitionGoOn
  repeat' first
    | (with_reducible first
         | exact Touch.skip | exact Touch.read | exact (setPar_only ..).wider (by decide) | exact (fenceCtx_only ..).wider (by decide)
         | exact (followPartitions_only ..).wider (by decide) | refine Touch.readThen fun _ => ?_
         | refine Touch.andThen ?_ fun _ => ?_ | refine Touch.cond ?_ ?_ | refine Touch.each _ fun _ => ?_)
    | (with_reducible refine Touch.change fun _ => ?_); rfl

theorem partitionStop_only (p : Nat) : Touches [.mode, .poison, .ueFull, .ecc, .params, .eff, .ctxs, .streams, .heldCtl,
    .engines, .rel, .win, .dieCopies, .slots, .codecRefs, .faultLog, .flashDue, .subs, .hostPorts, .insts, .fltPending, .xferWait, .life, .elo, .out] (partitionStop p) := by
  unfold partitionStop
  repeat' first
    | (with_reducible first
         | exact Touch.skip | exact Touch.read | exact (setPar_only ..).wider (by decide) | exact (setInst_only ..).wider (by decide)
         | exact (dropIssued_only ..).wider (by decide) | exact (instanceStop_only ..).wider (by decide) | exact (partitionGoOn_only ..).wider (by decide)
         | refine Touch.readThen fun _ => ?_ | refine Touch.andThen ?_ fun _ => ?_
         | refine Touch.cond ?_ ?_)

theorem partitionRunning_only (p : Nat) : Touches [.mode, .poison, .ueFull, .ecc, .params, .eff, .ctxs, .streams, .heldCtl,
    .engines, .rel, .win, .dieCopies, .slots, .codecRefs, .faultLog, .flashDue, .subs, .hostPorts, .frames, .doors, .insts, .nodes, .fltPending, .xferWait, .life, .elo, .out] (partitionRunning p) := by
  unfold partitionRunning
  repeat' first
    | (with_reducible first
         | exact Touch.skip | exact Touch.read | exact (setPar_only ..).wider (by decide) | exact (instanceStart_only ..).wider (by decide)
         | exact (partitionGoOn_only ..).wider (by decide) | refine Touch.readThen fun _ => ?_
         | refine Touch.andThen ?_ fun _ => ?_ | refine Touch.cond ?_ ?_)
    | (with_reducible refine Touch.change fun _ => ?_); rfl

theorem afterServing_only : Touches [.mode, .mem, .poison, .ueFull, .ecc, .params, .eff, .ctxs, .streams, .heldCtl,
    .engines, .rel, .win, .dieCopies, .slots, .codecRefs, .faultLog, .flashDue, .subs, .hostPorts, .fltPending, .dead, .xferWait, .life, .elo, .out] afterServing := by
  unfold afterServing
  repeat' first
    | (with_reducible first
         | exact (retryHeld_only ..).wider (by decide) | exact (partitionGoOn_only ..).wider (by decide) | refine Touch.andThen ?_ fun _ => ?_
         | refine Touch.each _ fun _ => ?_)

theorem releaseCtxFrames_only (p c : Nat) : Touches [.mem, .poison, .ecc, .params, .frames, .reels, .reelImage, .insts,
    .dead] (releaseCtxFrames p c) := by
  unfold releaseCtxFrames
  repeat' first
    | (with_reducible first
         | exact Touch.skip | exact Touch.read | exact (releaseSeq_only ..).wider (by decide) | exact (releaseLate_only ..).wider (by decide)
         | exact (syncReels_only ..).wider (by decide) | exact (refreshAvail_only ..).wider (by decide) | refine Touch.readThen fun _ => ?_
         | refine Touch.andThen ?_ fun _ => ?_ | refine Touch.cond ?_ ?_ | refine Touch.each _ fun _ => ?_)

theorem contextDrained_only (p c : Nat) : Touches [.mode, .mem, .poison, .ueFull, .ecc, .params, .eff, .ctxs, .streams,
    .heldCtl, .engines, .rel, .win, .dieCopies, .slots, .codecRefs, .faultLog, .flashDue, .subs, .hostPorts, .frames, .reels, .reelImage, .insts, .fltPending, .dead, .xferWait, .life, .elo, .out] (contextDrained p c) := by
  unfold contextDrained
  repeat' first
    | (with_reducible first
         | exact Touch.skip | exact Touch.read | exact (raiseEvent_only ..).wider (by decide) | exact (ctlCue_only ..).wider (by decide)
         | exact (bump_only ..).wider (by decide) | exact (releaseCtxFrames_only ..).wider (by decide) | exact (retryHeld_only ..).wider (by decide) | exact (partitionGoOn_only ..).wider (by decide)
         | refine Touch.readThen fun _ => ?_ | refine Touch.andThen ?_ fun _ => ?_
         | refine Touch.cond ?_ ?_ | refine Touch.each _ fun _ => ?_)
    | (with_reducible refine Touch.change fun _ => ?_); rfl

theorem contextFree_only (p c : Nat) : Touches [.mem, .poison, .ueFull, .ecc, .params, .eff, .ctxs, .streams, .heldCtl,
    .engines, .rel, .win, .dieCopies, .slots, .codecRefs, .faultLog, .flashDue, .fltPending, .dead, .xferWait] (contextFree p c) := by
  unfold contextFree
  repeat' first
    | (with_reducible first
         | exact Touch.skip | exact Touch.read | exact (retryHeld_only ..).wider (by decide) | refine Touch.readThen fun _ => ?_
         | refine Touch.andThen ?_ fun _ => ?_ | refine Touch.cond ?_ ?_)
    | (with_reducible refine Touch.change fun _ => ?_); rfl

theorem decodeRef_only (e p c d : Nat) : Touches [.poison, .ueFull, .ecc, .params, .rel, .win, .dieCopies, .codecRefs,
    .faultLog, .flashDue, .fltPending] (decodeRef e p c d) := by
  unfold decodeRef
  repeat' first
    | (with_reducible first
         | exact Touch.skip | exact Touch.read | exact (load_only ..).wider (by decide) | exact (takeRef_only ..).wider (by decide)
         | refine Touch.readThen fun _ => ?_ | refine Touch.andThen ?_ fun _ => ?_
         | refine Touch.onlyIf _ ?_ | refine Touch.cond ?_ ?_)

theorem descriptorFetch_only (p c e : Nat) : Touches [.poison, .ueFull, .ecc, .params, .streams, .engines, .rel, .win,
    .dieCopies, .codecRefs, .faultLog, .flashDue, .fltPending, .power] (descriptorFetch p c e) := by
  unfold descriptorFetch
  repeat' first
    | (with_reducible first
         | exact Touch.skip | exact Touch.read | exact (load_only ..).wider (by decide) | exact (setEngine_only ..).wider (by decide) | exact (bump_only ..).wider (by decide)
         | exact (recordUe_only ..).wider (by decide) | exact (clampDesc_only ..).wider (by decide) | exact (noteBadWait_only ..).wider (by decide) | exact (decodeRef_only ..).wider (by decide)
         | exact (evalHead_only ..).wider (by decide) | refine Touch.readThen fun _ => ?_ | refine Touch.andThen ?_ fun _ => ?_
         | refine Touch.onlyIf _ ?_ | refine Touch.cond ?_ ?_)
    | (with_reducible refine Touch.change fun _ => ?_); rfl
    | split

theorem cueWriteSeen_only (e a : Nat) : Touches [.params, .streams, .engines, .power] (cueWriteSeen e a) := by
  unfold cueWriteSeen
  repeat' first
    | (with_reducible first
         | exact Touch.skip | exact Touch.read | exact (evalHead_only ..).wider (by decide) | exact (markIssued_only ..).wider (by decide)
         | refine Touch.readThen fun _ => ?_ | refine Touch.andThen ?_ fun _ => ?_
         | refine Touch.cond ?_ ?_ | refine Touch.each _ fun _ => ?_)
    | split

theorem cmdDoorbell_only (p v : Nat) : Touches [.params, .streams] (cmdDoorbell p v) := by
  unfold cmdDoorbell
  repeat' first
    | (with_reducible first
         | exact Touch.read | exact Touch.ret _ | exact (bump_only ..).wider (by decide) | refine Touch.readThen fun _ => ?_
         | refine Touch.andThen ?_ fun _ => ?_ | refine Touch.cond ?_ ?_)
    | (with_reducible refine Touch.change fun _ => ?_); rfl
    | split
    | dsimp only

theorem markParts_only (arm : Nat) : Touches [.poison, .ueFull, .ecc, .params, .engines, .rel, .win, .dieCopies, .faultLog,
    .flashDue, .fltPending, .power] (markParts arm) := by
  unfold markParts
  repeat' first
    | (with_reducible first
         | exact (markCollectives_only ..).wider (by decide) | exact (markIssued_only ..).wider (by decide) | refine Touch.andThen ?_ fun _ => ?_)
    | (with_reducible refine Touch.change fun _ => ?_); rfl

theorem issuedBody_only (c : Cmd) : Touches [.mem, .poison, .ueFull, .ecc, .params, .engines, .rel, .win, .dieCopies,
    .slots, .stories, .faultLog, .flashDue, .subs, .hostPorts, .insts, .drain, .fltPending, .dead, .links, .xfers, .xferWait, .oldTags, .arrivals, .spray, .hostReads, .out] (issuedBody c) := by
  unfold issuedBody
  repeat' first
    | (with_reducible first
         | exact Touch.ret _ | refine watched_only (by decide) (hbody := fun _ => ?_) .. | exact (matmulBody_only ..).wider (by decide)
         | exact (listBody_only ..).wider (by decide) | exact (padBody_only ..).wider (by decide) | exact (gluBody_only ..).wider (by decide) | exact (bodySample_only ..).wider (by decide)
         | exact (bodyVec_only ..).wider (by decide) | exact (bodyAttend_only ..).wider (by decide) | exact (bodyAttnFeed_only ..).wider (by decide) | exact (bodyAttnReturn_only ..).wider (by decide)
         | exact (bodyAttnMerge_only ..).wider (by decide) | exact (bodyDispatch_only ..).wider (by decide) | exact (bodyGatherSkip_only ..).wider (by decide)
         | exact (bodyReturn_only ..).wider (by decide) | exact (bodyCombine_only ..).wider (by decide) | exact (bodyCopy_only ..).wider (by decide) | exact (bodyCollective_only ..).wider (by decide)
         | exact (bodyRoute_only ..).wider (by decide) | exact (bodyBuildLists_only ..).wider (by decide) | refine Touch.andThen ?_ fun _ => ?_
         | refine Touch.cond ?_ ?_)
    | split

theorem resumePart_only (c : Cmd) (x0 : Wait) : Touches [.mem, .poison, .ueFull, .ecc, .params, .engines, .rel, .win,
    .dieCopies, .slots, .codecRefs, .stories, .faultLog, .flashDue, .subs, .hostPorts, .insts, .drain, .fltPending, .dead, .links, .xfers, .xferWait, .oldTags, .arrivals, .spray, .life, .elo, .hostReads, .out] (resumePart c x0) := by
  unfold resumePart
  repeat' first
    | (with_reducible first
         | exact Touch.read | exact Touch.ret _ | refine watched_only (by decide) (hbody := fun _ => ?_) ..
         | exact (runCombines_only ..).wider (by decide) | exact (encodePass2_only ..).wider (by decide) | exact (copySend_only ..).wider (by decide) | exact (collGo_only ..).wider (by decide)
         | exact (copyRun_only ..).wider (by decide) | exact (padBody_only ..).wider (by decide) | exact (issuedBody_only ..).wider (by decide)
         | refine Touch.readThen fun _ => ?_ | refine Touch.andThen ?_ fun _ => ?_
         | refine Touch.cond ?_ ?_)
    | split

theorem nextUnits_only (arm : Nat) (x0 : Nat) : Touches [.mem, .poison, .ueFull, .ecc, .params, .engines, .rel, .win,
    .dieCopies, .slots, .codecRefs, .stories, .faultLog, .flashDue, .subs, .hostPorts, .insts, .drain, .fltPending, .dead, .links, .xfers, .xferWait, .oldTags, .arrivals, .spray, .power, .life, .elo, .hostReads, .out] (nextUnits arm x0) := by
  induction x0 with
  | zero =>
    unfold nextUnits
    repeat' first
      | (with_reducible first
           | exact Touch.skip)
  | succ n ih =>
    unfold nextUnits
    repeat' first
      | (with_reducible first
           | exact ih .. | exact Touch.skip | exact Touch.read | exact (markParts_only ..).wider (by decide) | exact (setEngine_only ..).wider (by decide)
           | exact (noteBlame_only ..).wider (by decide) | exact (saveWaits_only ..).wider (by decide) | exact (noteGrant_only ..).wider (by decide) | exact (clampDesc_only ..).wider (by decide)
           | exact (resumePart_only ..).wider (by decide) | exact (endFirst_only ..).wider (by decide) | refine Touch.readThen fun _ => ?_
           | refine Touch.andThen ?_ fun _ => ?_ | refine Touch.onlyIf _ ?_ | refine Touch.cond ?_ ?_)
      | split

theorem tileFailure_only (e cell kind tile : Nat) (rides : Bool) : Touches [.params, .engines, .rel, .win, .retired,
    .faultLog, .flashDue, .fltPending] (tileFailure e cell kind tile rides) := by
  unfold tileFailure
  repeat' first
    | (with_reducible first
         | exact Touch.skip | exact Touch.read | exact (windowAdd_only ..).wider (by decide) | exact (recordFault_only ..).wider (by decide)
         | exact (cellFails_only ..).wider (by decide) | exact (bump_only ..).wider (by decide) | exact (setEngine_only ..).wider (by decide) | exact (reportBlock_only ..).wider (by decide)
         | refine Touch.readThen fun _ => ?_ | refine Touch.andThen ?_ fun _ => ?_
         | refine Touch.onlyIf _ ?_ | refine Touch.cond ?_ ?_)
    | (with_reducible refine Touch.change fun _ => ?_); rfl

theorem settleUnbinds_only (arm : Nat) : Touches [.mem, .poison, .ueFull, .ecc, .params, .streams, .rel, .win, .dieCopies,
    .faultLog, .flashDue, .fltPending, .dead] (settleUnbinds arm) := by
  unfold settleUnbinds
  repeat' first
    | (with_reducible first
         | exact Touch.read | exact (ctlCue_only ..).wider (by decide) | refine Touch.readThen fun _ => ?_
         | refine Touch.andThen ?_ fun _ => ?_ | refine Touch.each _ fun _ => ?_)
    | (with_reducible refine Touch.change fun _ => ?_); rfl

theorem endGoing_only (arm more : Nat) : Touches [.mem, .poison, .ueFull, .ecc, .params, .engines, .rel, .win, .dieCopies,
    .codecRefs, .faultLog, .flashDue, .insts, .fltPending, .dead] (endGoing arm more) := by
  unfold endGoing
  repeat' first
    | (with_reducible first
         | exact Touch.skip | exact Touch.read | exact (setEngine_only ..).wider (by decide) | exact (completeCmd_only ..).wider (by decide)
         | exact (releaseRefs_only ..).wider (by decide) | refine Touch.readThen fun _ => ?_ | refine Touch.andThen ?_ fun _ => ?_
         | refine Touch.cond ?_ ?_)
    | split

theorem unitComplete_only (arm : Nat) (fails : List (Nat × Nat × Nat)) : Touches (Piece.allBut [.pending, .now, .mode,
    .places, .placesNext, .phys, .restores, .vaultLoad, .codecUnit, .flashLog, .kvScales, .kvBad, .frames, .reels, .reelImage, .doors, .nodes, .tests, .overdue, .meshHits, .engineDumps, .dumps, .dumpRun, .dumpSummary, .rxXfers, .rxDone, .planes, .gone, .heard, .peers, .clock, .eth, .bridges, .freeIx]) (unitComplete arm fails) := by
  unfold unitComplete
  repeat' first
    | (with_reducible first
         | exact Touch.skip | exact Touch.read | exact (setEngine_only ..).wider (by decide) | exact (tileFailure_only ..).wider (by decide)
         | exact (endGoing_only ..).wider (by decide) | exact (settleUnbinds_only ..).wider (by decide) | exact (retryHeld_only ..).wider (by decide) | exact (nextUnits_only ..).wider (by decide)
         | refine Touch.readThen fun _ => ?_ | refine Touch.andThen ?_ fun _ => ?_
         | refine Touch.onlyIf _ ?_ | refine Touch.cond ?_ ?_ | refine Touch.each _ fun _ => ?_)

/-! ## Power -/

theorem putLimit_only : Touches [.params, .power, .life, .elo] putLimit := by
  unfold putLimit
  repeat' first
    | (with_reducible first
         | exact Touch.read | exact (setPar_only ..).wider (by decide) | exact (setPower_only ..).wider (by decide) | refine Touch.readThen fun _ => ?_
         | refine Touch.andThen ?_ fun _ => ?_)

theorem gateClose_only : Touches [.params, .power] gateClose := by
  unfold gateClose
  repeat' first
    | (with_reducible first
         | exact Touch.skip | exact Touch.read | exact (setPar_only ..).wider (by decide) | exact (setPower_only ..).wider (by decide)
         | refine Touch.readThen fun _ => ?_ | refine Touch.andThen ?_ fun _ => ?_
         | refine Touch.cond ?_ ?_)

theorem putPennant_only (n : Nat) (on : Bool) : Touches [.params, .subs, .hostPorts, .fltPending, .power, .life, .elo,
    .out] (putPennant n on) := by
  unfold putPennant
  repeat' first
    | (with_reducible first
         | exact Touch.read | exact (setPennant_only ..).wider (by decide) | exact (setPar_only ..).wider (by decide) | exact (raiseEvent_only ..).wider (by decide)
         | exact (gateClose_only ..).wider (by decide) | exact (accruePennant_only ..).wider (by decide) | refine Touch.readThen fun _ => ?_
         | refine Touch.andThen ?_ fun _ => ?_ | refine Touch.onlyIf _ ?_ | refine Touch.cond ?_ ?_)

theorem putPennants_only : Touches [.params, .subs, .hostPorts, .fltPending, .power, .life, .elo, .out] putPennants := by
  unfold putPennants
  repeat' first
    | (with_reducible first
         | exact Touch.read | exact (putPennant_only ..).wider (by decide) | refine Touch.readThen fun _ => ?_
         | refine Touch.andThen ?_ fun _ => ?_ | refine Touch.each _ fun _ => ?_)

theorem putStretch_only : Touches [.params] putStretch := by
  unfold putStretch
  repeat' first
    | (with_reducible first
         | exact Touch.read | exact (setPar_only ..).wider (by decide) | refine Touch.readThen fun _ => ?_)

theorem accrueDroop_only : Touches [.power] accrueDroop := by
  unfold accrueDroop
  repeat' first
    | (with_reducible first
         | exact Touch.read | exact (setPower_only ..).wider (by decide) | refine Touch.readThen fun _ => ?_
         | refine Touch.andThen ?_ fun _ => ?_ | refine Touch.cond ?_ ?_)

theorem droopRow_only (region : Nat) : Touches [.params, .subs, .hostPorts, .fltPending, .power, .life, .elo, .out]
    (droopRow region) := by
  unfold droopRow
  repeat' first
    | (with_reducible first
         | exact Touch.skip | exact Touch.read | exact (accrueDroop_only ..).wider (by decide) | exact (setPower_only ..).wider (by decide)
         | exact (bump_only ..).wider (by decide) | exact (putStretch_only ..).wider (by decide) | exact (putPennants_only ..).wider (by decide)
         | refine Touch.readThen fun _ => ?_ | refine Touch.andThen ?_ fun _ => ?_
         | refine Touch.cond ?_ ?_)
    | split

theorem droopRelease_only (region : Nat) : Touches [.params, .subs, .hostPorts, .fltPending, .power, .life, .elo, .out]
    (droopRelease region) := by
  unfold droopRelease
  repeat' first
    | (with_reducible first
         | exact Touch.skip | exact Touch.read | exact (accrueDroop_only ..).wider (by decide) | exact (setPower_only ..).wider (by decide)
         | exact (putStretch_only ..).wider (by decide) | exact (putPennants_only ..).wider (by decide) | refine Touch.readThen fun _ => ?_
         | refine Touch.andThen ?_ fun _ => ?_ | refine Touch.cond ?_ ?_)
    | split

theorem rampSlot_only (region : Nat) (classes : List (Nat × Nat)) : Touches [.params, .subs, .hostPorts, .fltPending,
    .power, .life, .elo, .out] (rampSlot region classes) := by
  unfold rampSlot
  repeat' first
    | (with_reducible first
         | exact Touch.skip | exact Touch.read | exact (setPower_only ..).wider (by decide) | exact (bump_only ..).wider (by decide)
         | exact (putStretch_only ..).wider (by decide) | exact (putPennants_only ..).wider (by decide) | refine Touch.readThen fun _ => ?_
         | refine Touch.andThen ?_ fun _ => ?_ | refine Touch.onlyIf _ ?_ | refine Touch.cond ?_ ?_)

theorem supplyOnset_only (f : PowerSt → PowerSt) : Touches [.params, .power, .life, .elo] (supplyOnset f) := by
  unfold supplyOnset
  repeat' first
    | (with_reducible first
         | exact Touch.read | exact (bump_only ..).wider (by decide) | exact (setPower_only ..).wider (by decide) | exact (putLimit_only ..).wider (by decide)
         | refine Touch.readThen fun _ => ?_ | refine Touch.andThen ?_ fun _ => ?_
         | refine Touch.onlyIf _ ?_)

theorem supplyCleared_only (f : PowerSt → PowerSt) : Touches [.power] (supplyCleared f) := by
  unfold supplyCleared
  repeat' first
    | (with_reducible first
         | exact Touch.read | exact (setPower_only ..).wider (by decide) | refine Touch.readThen fun _ => ?_)

theorem putVolts_only (mv : Nat) : Touches [.params, .power] (putVolts mv) := by
  unfold putVolts
  repeat' first
    | (with_reducible first
         | exact (setPar_only ..).wider (by decide) | exact (setPower_only ..).wider (by decide) | refine Touch.andThen ?_ fun _ => ?_)

theorem sagOver_only (mv : Nat) : Touches [.power] (sagOver mv) := by
  unfold sagOver
  repeat' first
    | (with_reducible first
         | exact Touch.read | exact (supplyCleared_only ..).wider (by decide) | refine Touch.readThen fun _ => ?_
         | refine Touch.andThen ?_ fun _ => ?_ | refine Touch.onlyIf _ ?_)

theorem governorPeriod_only (avg mv : Nat) (draw : List Nat) : Touches [.params, .subs, .hostPorts, .fltPending, .power,
    .life, .elo, .out] (governorPeriod avg mv draw) := by
  unfold governorPeriod
  repeat' first
    | (with_reducible first
         | exact Touch.skip | exact Touch.read | exact (setPar_only ..).wider (by decide) | exact (setPower_only ..).wider (by decide)
         | exact (sagOver_only ..).wider (by decide) | exact (putLimit_only ..).wider (by decide) | exact (accrueDroop_only ..).wider (by decide) | exact (gateClose_only ..).wider (by decide)
         | exact (putStretch_only ..).wider (by decide) | exact (putPennants_only ..).wider (by decide) | refine Touch.readThen fun _ => ?_
         | refine Touch.andThen ?_ fun _ => ?_ | refine Touch.onlyIf _ ?_ | refine Touch.cond ?_ ?_)

theorem fastPath_only : Touches [.params, .subs, .hostPorts, .fltPending, .power, .life, .elo, .out] fastPath := by
  unfold fastPath
  repeat' first
    | (with_reducible first
         | exact Touch.skip | exact Touch.read | exact (putLimit_only ..).wider (by decide) | exact (gateClose_only ..).wider (by decide)
         | exact (setPower_only ..).wider (by decide) | exact (bump_only ..).wider (by decide) | exact (putPennants_only ..).wider (by decide)
         | refine Touch.readThen fun _ => ?_ | refine Touch.andThen ?_ fun _ => ?_
         | refine Touch.cond ?_ ?_)

theorem fastPathStep_only (avg stretch duty : Nat) : Touches [.params, .subs, .hostPorts, .fltPending, .power, .life, .elo,
    .out] (fastPathStep avg stretch duty) := by
  unfold fastPathStep
  repeat' first
    | (with_reducible first
         | exact Touch.skip | exact Touch.read | exact (setPower_only ..).wider (by decide) | exact (setPar_only ..).wider (by decide)
         | exact (putStretch_only ..).wider (by decide) | exact (putPennants_only ..).wider (by decide) | refine Touch.readThen fun _ => ?_
         | refine Touch.andThen ?_ fun _ => ?_ | refine Touch.cond ?_ ?_)

theorem opStep_only : Touches [.params, .subs, .hostPorts, .fltPending, .power, .life, .elo, .out] opStep := by
  unfold opStep
  repeat' first
    | (with_reducible first
         | exact Touch.skip | exact Touch.read | exact (setPar_only ..).wider (by decide) | exact (bump_only ..).wider (by decide) | exact (setPower_only ..).wider (by decide)
         | exact (putStretch_only ..).wider (by decide) | exact (putPennants_only ..).wider (by decide) | refine Touch.readThen fun _ => ?_
         | refine Touch.andThen ?_ fun _ => ?_ | refine Touch.onlyIf _ ?_ | refine Touch.cond ?_ ?_)

theorem putOffset_only (z : Int) : Touches [.params] (putOffset z) := by
  unfold putOffset
  repeat' first
    | (with_reducible first
         | exact (setPar_only ..).wider (by decide))

theorem returnAll_only : Touches [.params, .power, .life, .elo, .out] returnAll := by
  unfold returnAll
  repeat' first
    | (with_reducible first
         | exact Touch.read | exact (putOffset_only ..).wider (by decide) | exact (emit_only ..).wider (by decide) | exact (tradeToken_only ..).wider (by decide)
         | exact (setPower_only ..).wider (by decide) | refine Touch.readThen fun _ => ?_ | refine Touch.andThen ?_ fun _ => ?_
         | refine Touch.each _ fun _ => ?_)

theorem leaseCommit_only (v : Nat) : Touches [.params, .power, .life, .elo, .out] (leaseCommit v) := by
  unfold leaseCommit
  repeat' first
    | (with_reducible first
         | exact Touch.skip | exact Touch.read | exact (returnAll_only ..).wider (by decide) | exact (setPower_only ..).wider (by decide)
         | exact (setPar_only ..).wider (by decide) | exact (putLimit_only ..).wider (by decide) | exact (bump_only ..).wider (by decide) | refine Touch.readThen fun _ => ?_
         | refine Touch.andThen ?_ fun _ => ?_ | refine Touch.onlyIf _ ?_ | refine Touch.cond ?_ ?_)

theorem leaseExpiry_only : Touches [.params, .subs, .hostPorts, .fltPending, .power, .life, .elo, .out] leaseExpiry := by
  unfold leaseExpiry
  repeat' first
    | (with_reducible first
         | exact Touch.skip | exact Touch.read | exact (setPar_only ..).wider (by decide) | exact (putOffset_only ..).wider (by decide)
         | exact (setPower_only ..).wider (by decide) | exact (putLimit_only ..).wider (by decide) | exact (putPennants_only ..).wider (by decide)
         | refine Touch.readThen fun _ => ?_ | refine Touch.andThen ?_ fun _ => ?_
         | refine Touch.cond ?_ ?_)

theorem supplySag_only (mv : Nat) : Touches [.params, .power, .life, .elo] (supplySag mv) := by
  unfold supplySag
  repeat' first
    | (with_reducible first
         | exact Touch.skip | exact Touch.read | exact (putVolts_only ..).wider (by decide) | exact (supplyOnset_only ..).wider (by decide)
         | refine Touch.readThen fun _ => ?_ | refine Touch.andThen ?_ fun _ => ?_
         | refine Touch.onlyIf _ ?_ | refine Touch.cond ?_ ?_)

theorem derateAssert_only : Touches [.params, .power, .life, .elo] derateAssert := by
  unfold derateAssert
  repeat' first
    | (with_reducible first
         | exact Touch.read | exact (supplyOnset_only ..).wider (by decide) | exact (setPower_only ..).wider (by decide)
         | refine Touch.readThen fun _ => ?_ | refine Touch.andThen ?_ fun _ => ?_
         | refine Touch.cond ?_ ?_)

theorem derateRelease_only : Touches [.power] derateRelease := by
  unfold derateRelease
  repeat' first
    | (with_reducible first
         | exact Touch.skip | exact Touch.read | exact (supplyCleared_only ..).wider (by decide)
         | refine Touch.readThen fun _ => ?_ | refine Touch.andThen ?_ fun _ => ?_
         | refine Touch.cond ?_ ?_)

theorem supplyLimitClear_only : Touches [.params, .power, .life, .elo] supplyLimitClear := by
  unfold supplyLimitClear
  repeat' first
    | (with_reducible first
         | exact Touch.skip | exact Touch.read | exact (setPower_only ..).wider (by decide) | exact (putLimit_only ..).wider (by decide)
         | refine Touch.readThen fun _ => ?_ | refine Touch.andThen ?_ fun _ => ?_
         | refine Touch.cond ?_ ?_)
    | split

theorem converterStop_only (mv : Nat) (high' : Bool) : Touches [.params, .power, .life, .elo] (converterStop mv high') := by
  unfold converterStop
  repeat' first
    | (with_reducible first
         | exact Touch.skip | exact Touch.read | exact (putVolts_only ..).wider (by decide) | exact (setPower_only ..).wider (by decide)
         | exact (putLimit_only ..).wider (by decide) | refine Touch.readThen fun _ => ?_ | refine Touch.andThen ?_ fun _ => ?_
         | refine Touch.cond ?_ ?_)

theorem inputRestart_only (mv : Nat) : Touches [.params, .power, .life, .elo] (inputRestart mv) := by
  unfold inputRestart
  repeat' first
    | (with_reducible first
         | exact Touch.skip | exact Touch.read | exact (putVolts_only ..).wider (by decide) | exact (sagOver_only ..).wider (by decide)
         | exact (supplyOnset_only ..).wider (by decide) | exact (supplyCleared_only ..).wider (by decide) | exact (setPower_only ..).wider (by decide) | exact (putLimit_only ..).wider (by decide)
         | refine Touch.readThen fun _ => ?_ | refine Touch.andThen ?_ fun _ => ?_
         | refine Touch.onlyIf _ ?_ | refine Touch.cond ?_ ?_)

theorem powerUnitFails_only (stage : Bool) (region unit occ : Nat) : Touches [.params, .retired, .faultLog, .flashDue,
    .fltPending, .power, .life, .elo] (powerUnitFails stage region unit occ) := by
  unfold powerUnitFails
  repeat' first
    | (with_reducible first
         | exact Touch.skip | exact Touch.read | exact (noteFailed_only ..).wider (by decide) | exact (recordFault_only ..).wider (by decide)
         | exact (bump_only ..).wider (by decide) | exact (setPar_only ..).wider (by decide) | exact (putLimit_only ..).wider (by decide) | refine Touch.readThen fun _ => ?_
         | refine Touch.andThen ?_ fun _ => ?_ | refine Touch.onlyIf _ ?_ | refine Touch.cond ?_ ?_)

theorem powerUnitFailure_only (sign : PowerSign) (region unit : Nat) : Touches [.params, .retired, .faultLog, .flashDue,
    .fltPending, .power, .life, .elo] (powerUnitFailure sign region unit) := by
  unfold powerUnitFailure
  repeat' first
    | (with_reducible first
         | exact Touch.skip | exact Touch.read | exact (setPower_only ..).wider (by decide) | exact (powerUnitFails_only ..).wider (by decide)
         | refine Touch.readThen fun _ => ?_ | refine Touch.andThen ?_ fun _ => ?_
         | refine Touch.onlyIf _ ?_ | refine Touch.cond ?_ ?_)
    | split

theorem becomeSpare_only (v key : Nat) : Touches [.phys, .tests] (becomeSpare v key) := by
  unfold becomeSpare
  repeat' first
    | (with_reducible first
         | exact Touch.read | refine Touch.readThen fun _ => ?_ | refine Touch.andThen ?_ fun _ => ?_
         | refine Touch.onlyIf _ ?_ | refine Touch.cond ?_ ?_)
    | (with_reducible refine Touch.change fun _ => ?_); rfl

theorem unitRestore_only (v : Nat) (pass : Bool) : Touches [.params, .phys, .retired, .faultLog, .flashDue, .fltPending,
    .tests, .power, .life, .elo] (unitRestore v pass) := by
  unfold unitRestore
  repeat' first
    | (with_reducible first
         | exact Touch.skip | exact Touch.read | exact (setPar_only ..).wider (by decide) | exact (becomeSpare_only ..).wider (by decide)
         | exact (recordFault_only ..).wider (by decide) | exact (putLimit_only ..).wider (by decide) | refine Touch.readThen fun _ => ?_
         | refine Touch.andThen ?_ fun _ => ?_ | refine Touch.cond ?_ ?_)
    | (with_reducible refine Touch.change fun _ => ?_); rfl
    | split

theorem thermalCompare_only (hottest : Int) (avg sensor : Nat) : Touches [.params, .subs, .hostPorts, .fltPending, .power,
    .life, .elo, .out] (thermalCompare hottest avg sensor) := by
  unfold thermalCompare
  repeat' first
    | (with_reducible first
         | exact Touch.skip | exact Touch.read | exact (setPower_only ..).wider (by decide) | exact (setPar_only ..).wider (by decide)
         | exact (putPennants_only ..).wider (by decide) | refine Touch.readThen fun _ => ?_ | refine Touch.andThen ?_ fun _ => ?_
         | refine Touch.cond ?_ ?_)
    | (with_reducible refine Touch.change fun _ => ?_); rfl

theorem coolantSample_only (flow : Nat) (inlet outlet : Int) : Touches [.params, .slots, .subs, .hostPorts, .fltPending,
    .links, .power, .life, .elo, .out] (coolantSample flow inlet outlet) := by
  unfold coolantSample
  repeat' first
    | (with_reducible first
         | exact Touch.skip | exact Touch.read | exact (pump_only ..).wider (by decide) | exact (setPar_only ..).wider (by decide) | exact (bump_only ..).wider (by decide)
         | exact (raiseEvent_only ..).wider (by decide) | exact (setPower_only ..).wider (by decide) | exact (putLimit_only ..).wider (by decide) | exact (putPennants_only ..).wider (by decide)
         | refine Touch.readThen fun _ => ?_ | refine Touch.andThen ?_ fun _ => ?_
         | refine Touch.onlyIf _ ?_ | refine Touch.cond ?_ ?_)

theorem windowLost_only (h : Nat) : Touches [.engines, .hostReads] (windowLost h) := by
  unfold windowLost
  repeat' first
    | (with_reducible first
         | refine Touch.andThen ?_ fun _ => ?_)
    | (with_reducible refine Touch.change fun _ => ?_); rfl

theorem portDown_only (h : Nat) : Touches [.engines, .hostPorts, .hostReads] (portDown h) := by
  unfold portDown
  repeat' first
    | (with_reducible first
         | exact (setHostPort_only ..).wider (by decide) | exact (windowLost_only ..).wider (by decide) | refine Touch.andThen ?_ fun _ => ?_)

theorem railsOff_only (links ports : Bool) : Touches [.params, .engines, .slots, .subs, .hostPorts, .fltPending, .links,
    .spray, .life, .hostReads, .out] (railsOff links ports) := by
  unfold railsOff
  repeat' first
    | (with_reducible first
         | exact (quietLinks_only ..).wider (by decide) | exact (portDown_only ..).wider (by decide) | refine Touch.andThen ?_ fun _ => ?_
         | refine Touch.onlyIf _ ?_ | refine Touch.each _ fun _ => ?_)
    | (with_reducible refine Touch.change fun _ => ?_); rfl

theorem thermalTrip_only (sensor : Nat) (raw : Int) : Touches [.mode, .params, .engines, .dieCopies, .vaultLoad, .slots,
    .subs, .hostPorts, .fltPending, .dumpRun, .links, .spray, .power, .life, .elo, .hostReads, .out] (thermalTrip sensor raw) := by
  unfold thermalTrip
  repeat' first
    | (with_reducible first
         | exact Touch.skip | exact Touch.read | exact (bump_only ..).wider (by decide) | exact (sendNotice_only ..).wider (by decide)
         | exact (railsOff_only ..).wider (by decide) | exact (vaultInterrupt_only ..).wider (by decide) | exact (pauseCopies_only ..).wider (by decide) | exact (setPar_only ..).wider (by decide)
         | exact (quietPower_only ..).wider (by decide) | exact (startDump_only ..).wider (by decide) | exact (setMode_only ..).wider (by decide)
         | refine Touch.readThen fun _ => ?_ | refine Touch.andThen ?_ fun _ => ?_
         | refine Touch.onlyIf _ ?_ | refine Touch.cond ?_ ?_)

theorem energyWindow_only (avg : Nat) : Touches [.params, .power, .life, .elo] (energyWindow avg) := by
  unfold energyWindow
  repeat' first
    | (with_reducible first
         | exact Touch.skip | exact Touch.read | exact (setPar_only ..).wider (by decide) | exact (bump_only ..).wider (by decide) | exact (setPower_only ..).wider (by decide)
         | exact (gateClose_only ..).wider (by decide) | refine Touch.readThen fun _ => ?_ | refine Touch.andThen ?_ fun _ => ?_
         | refine Touch.onlyIf _ ?_ | refine Touch.cond ?_ ?_)
    | (with_reducible refine Touch.change fun _ => ?_); rfl

theorem tradeSilent_only (j : Nat) : Touches [.params, .power] (tradeSilent j) := by
  unfold tradeSilent
  repeat' first
    | (with_reducible first
         | exact Touch.skip | exact Touch.read | exact (putOffset_only ..).wider (by decide) | exact (setPower_only ..).wider (by decide)
         | refine Touch.readThen fun _ => ?_ | refine Touch.andThen ?_ fun _ => ?_
         | refine Touch.onlyIf _ ?_)
    | split

theorem tradePlan_only (rs : List TradeReport) : Touches [.params, .power, .life, .elo, .out] (tradePlan rs) := by
  unfold tradePlan
  repeat' first
    | (with_reducible first
         | exact Touch.skip | exact Touch.read | exact (putOffset_only ..).wider (by decide) | exact (setPower_only ..).wider (by decide)
         | exact (emit_only ..).wider (by decide) | exact (tradeToken_only ..).wider (by decide) | refine Touch.readThen fun _ => ?_
         | refine Touch.andThen ?_ fun _ => ?_ | refine Touch.cond ?_ ?_ | refine Touch.each _ fun _ => ?_)

theorem tradeClose_only : Touches [.params, .power, .life, .elo, .out] tradeClose := by
  unfold tradeClose
  repeat' first
    | (with_reducible first
         | exact Touch.skip | exact Touch.read | exact (setPower_only ..).wider (by decide) | exact (tradeSilent_only ..).wider (by decide)
         | exact (tradePlan_only ..).wider (by decide) | exact (putLimit_only ..).wider (by decide) | refine Touch.readThen fun _ => ?_
         | refine Touch.andThen ?_ fun _ => ?_ | refine Touch.cond ?_ ?_ | refine Touch.each _ fun _ => ?_)
    | split

theorem takeBack_only : Touches [.params, .power, .life, .elo] takeBack := by
  unfold takeBack
  repeat' first
    | (with_reducible first
         | exact Touch.read | exact (putOffset_only ..).wider (by decide) | exact (setPower_only ..).wider (by decide) | exact (putLimit_only ..).wider (by decide)
         | refine Touch.readThen fun _ => ?_ | refine Touch.andThen ?_ fun _ => ?_
         | refine Touch.onlyIf _ ?_ | refine Touch.each _ fun _ => ?_)

theorem tradeWindowEnd_only (window : Nat) : Touches [.params, .power, .life, .elo, .out] (tradeWindowEnd window) := by
  unfold tradeWindowEnd
  repeat' first
    | (with_reducible first
         | exact Touch.skip | exact Touch.read | exact (tradeClose_only ..).wider (by decide) | exact (setPower_only ..).wider (by decide)
         | exact (takeBack_only ..).wider (by decide) | exact (emit_only ..).wider (by decide) | exact (tradeReport_only ..).wider (by decide)
         | refine Touch.readThen fun _ => ?_ | refine Touch.andThen ?_ fun _ => ?_
         | refine Touch.cond ?_ ?_ | refine Touch.each _ fun _ => ?_)

theorem tradeReport_only (r : TradeReport) : Touches [.params, .power, .life, .elo, .out] (tradeReport r) := by
  unfold tradeReport
  repeat' first
    | (with_reducible first
         | exact Touch.read | exact (tradeClose_only ..).wider (by decide) | exact (setPower_only ..).wider (by decide)
         | refine Touch.readThen fun _ => ?_ | refine Touch.andThen ?_ fun _ => ?_
         | refine Touch.onlyIf _ ?_)

theorem tradeToken_only (node : Nat) (give : Bool) (watts : Nat) : Touches [.params, .power, .life, .elo, .out] (tradeToken
    node give watts) := by
  unfold tradeToken
  repeat' first
    | (with_reducible first
         | exact Touch.read | exact (tradeClose_only ..).wider (by decide) | exact (putOffset_only ..).wider (by decide) | exact (setPower_only ..).wider (by decide)
         | exact (emit_only ..).wider (by decide) | exact (putLimit_only ..).wider (by decide) | refine Touch.readThen fun _ => ?_
         | refine Touch.andThen ?_ fun _ => ?_ | refine Touch.onlyIf _ ?_ | refine Touch.cond ?_ ?_)

/-! ## Limits -/

theorem commitFlash_only : Touches [.params, .elo] commitFlash := by
  unfold commitFlash
  repeat' first
    | (with_reducible first
         | refine Touch.andThen ?_ fun _ => ?_)
    | (with_reducible refine Touch.change fun _ => ?_); rfl

theorem noteWrite_only (key path : Nat) : Touches [.params, .elo] (noteWrite key path) := by
  intro s
  unfold noteWrite
  simp only [run_get_bind]
  split <;> rfl

theorem bootCheck_only (key : Nat) : Touches [.params] (bootCheck key) := by
  unfold bootCheck
  repeat' first
    | (with_reducible first
         | exact Touch.skip | exact Touch.read | exact (setPar_only ..).wider (by decide) | exact (bump_only ..).wider (by decide)
         | refine Touch.readThen fun _ => ?_ | refine Touch.andThen ?_ fun _ => ?_
         | refine Touch.cond ?_ ?_)
    | split

/-! ## Life -/

theorem setLife_only (f : LifeSt → LifeSt) : Touches [.life] (setLife f) := by
  unfold setLife
  repeat' first
    | (with_reducible first
         | refine Touch.andThen ?_ fun _ => ?_)
    | (with_reducible refine Touch.change fun _ => ?_); rfl

theorem clearVaultAreas_only : Touches [.params, .eff] clearVaultAreas := by
  unfold clearVaultAreas
  repeat' first
    | (with_reducible first
         | exact Touch.skip | exact Touch.read | exact (setPar_only ..).wider (by decide) | exact (setEff_only ..).wider (by decide)
         | refine Touch.readThen fun _ => ?_ | refine Touch.andThen ?_ fun _ => ?_
         | refine Touch.cond ?_ ?_ | refine Touch.each _ fun _ => ?_)

theorem enterBoot_only (last pre : Nat) (keep : Bool) : Touches (Piece.allBut [.pending]) (enterBoot last pre keep) := by
  unfold enterBoot
  repeat' first
    | (with_reducible first
         | exact Touch.read | exact (setMode_only ..).wider (by decide) | exact (setPar_only ..).wider (by decide) | exact (bootCheck_only ..).wider (by decide)
         | exact (setEff_only ..).wider (by decide) | exact (clearVaultAreas_only ..).wider (by decide) | exact (putLimit_only ..).wider (by decide)
         | refine Touch.readThen fun _ => ?_ | refine Touch.andThen ?_ fun _ => ?_
         | refine Touch.each _ fun _ => ?_)
    | (with_reducible refine Touch.change fun _ => ?_); first | rfl 

theorem goOff_only : Touches (Piece.allBut [.pending]) goOff :=
  Touch.andThen (vaultInterrupt_only.wider (by decide)) fun _ => Touch.andThen ((setMode_only _).wider (by decide)) fun _ =>
    Touch.change fun s => SameBut.trans ((State.afresh_only s false).wider (by decide)) (by rfl)


theorem prechargeEntry_only (straps : Nat) : Touches [.mode, .params, .subs, .hostPorts, .fltPending, .power, .life, .elo,
    .out] (prechargeEntry straps) := by
  unfold prechargeEntry
  repeat' first
    | (with_reducible first
         | exact Touch.skip | exact Touch.read | exact (setLife_only ..).wider (by decide) | exact (setPower_only ..).wider (by decide)
         | exact (setMode_only ..).wider (by decide) | refine Touch.readThen fun _ => ?_ | refine Touch.andThen ?_ fun _ => ?_
         | refine Touch.cond ?_ ?_)

theorem prechargeComplete_only (bulk input : Nat) : Touches (Piece.allBut [.pending]) (prechargeComplete bulk input) := by
  unfold prechargeComplete
  repeat' first
    | (with_reducible first
         | exact Touch.skip | exact Touch.read | exact (enterBoot_only ..).wider (by decide) | exact (putVolts_only ..).wider (by decide)
         | exact (putLimit_only ..).wider (by decide) | refine Touch.readThen fun _ => ?_ | refine Touch.andThen ?_ fun _ => ?_
         | refine Touch.cond ?_ ?_)

theorem prechargeFail_only (bulk input : Nat) : Touches [.params, .subs, .hostPorts, .fltPending, .power, .out]
    (prechargeFail bulk input) := by
  unfold prechargeFail
  repeat' first
    | (with_reducible first
         | exact Touch.skip | exact Touch.read | exact (setPower_only ..).wider (by decide) | exact (raiseEvent_only ..).wider (by decide)
         | refine Touch.readThen fun _ => ?_ | refine Touch.andThen ?_ fun _ => ?_
         | refine Touch.cond ?_ ?_)

theorem prechargeRetry_only : Touches [.power] prechargeRetry := by
  unfold prechargeRetry
  repeat' first
    | (with_reducible first
         | exact Touch.skip | exact Touch.read | exact (setPower_only ..).wider (by decide) | refine Touch.readThen fun _ => ?_
         | refine Touch.andThen ?_ fun _ => ?_ | refine Touch.cond ?_ ?_)
    | split

theorem presRelease_only (gap : Nat) : Touches (Piece.allBut [.pending]) (presRelease gap) := by
  unfold presRelease
  repeat' first
    | (with_reducible first
         | exact Touch.skip | exact Touch.read | exact (setLife_only ..).wider (by decide) | exact (setPower_only ..).wider (by decide)
         | exact (goOff_only ..).wider (by decide) | refine Touch.readThen fun _ => ?_ | refine Touch.andThen ?_ fun _ => ?_
         | refine Touch.onlyIf _ ?_ | refine Touch.cond ?_ ?_)

theorem holdUpExhausted_only : Touches (Piece.allBut [.pending]) holdUpExhausted := by
  unfold holdUpExhausted
  repeat' first
    | (with_reducible first
         | exact Touch.skip | exact Touch.read | exact (setPower_only ..).wider (by decide) | exact (goOff_only ..).wider (by decide)
         | refine Touch.readThen fun _ => ?_ | refine Touch.andThen ?_ fun _ => ?_
         | refine Touch.cond ?_ ?_)

theorem bootDone_only (sealA sealB : Bool) : Touches [.mode, .params, .faultLog, .flashDue, .subs, .hostPorts, .fltPending,
    .power, .life, .elo, .out] (bootDone sealA sealB) := by
  unfold bootDone
  repeat' first
    | (with_reducible first
         | exact Touch.skip | exact Touch.read | exact (recordFault_only ..).wider (by decide) | exact (setPower_only ..).wider (by decide)
         | exact (setPar_only ..).wider (by decide) | exact (setMode_only ..).wider (by decide) | refine Touch.readThen fun _ => ?_
         | refine Touch.andThen ?_ fun _ => ?_ | refine Touch.onlyIf _ ?_ | refine Touch.cond ?_ ?_)
    | split

theorem selftestDone_only (failed : List (Nat × Nat × Nat)) : Touches [.mode, .params, .engines, .phys, .retired, .slots,
    .faultLog, .flashDue, .subs, .hostPorts, .fltPending, .links, .spray, .life, .elo, .out] (selftestDone failed) := by
  unfold selftestDone
  repeat' first
    | (with_reducible first
         | exact Touch.skip | exact Touch.read | exact (istFail_only ..).wider (by decide) | exact (setLife_only ..).wider (by decide)
         | exact (setPar_only ..).wider (by decide) | exact (setMode_only ..).wider (by decide) | exact (trainGroup_only ..).wider (by decide)
         | refine Touch.readThen fun _ => ?_ | refine Touch.andThen ?_ fun _ => ?_
         | refine Touch.onlyIf _ ?_ | refine Touch.cond ?_ ?_ | refine Touch.each _ fun _ => ?_)

theorem releaseStarts_only : Touches [.mode, .mem, .poison, .ueFull, .ecc, .params, .eff, .places, .placesNext, .rel, .win,
    .dieCopies, .faultLog, .flashDue, .subs, .hostPorts, .kvScales, .kvBad, .frames, .reels, .reelImage, .insts, .fltPending, .dead, .life, .elo, .out] releaseStarts := by
  unfold releaseStarts
  repeat' first
    | (with_reducible first
         | exact Touch.read | exact (setLife_only ..).wider (by decide) | exact (partitionStart_only ..).wider (by decide)
         | refine Touch.readThen fun _ => ?_ | refine Touch.andThen ?_ fun _ => ?_
         | refine Touch.each _ fun _ => ?_)

theorem trainingEnd_only : Touches [.mode, .mem, .poison, .ueFull, .ecc, .params, .eff, .places, .placesNext, .rel, .win,
    .dieCopies, .faultLog, .flashDue, .subs, .hostPorts, .kvScales, .kvBad, .frames, .reels, .reelImage, .insts, .fltPending, .dead, .power, .life, .elo, .out] trainingEnd := by
  unfold trainingEnd
  repeat' first
    | (with_reducible first
         | exact Touch.skip | exact Touch.read | exact (setPar_only ..).wider (by decide) | exact (setMode_only ..).wider (by decide)
         | exact (setPower_only ..).wider (by decide) | exact (releaseStarts_only ..).wider (by decide) | refine Touch.readThen fun _ => ?_
         | refine Touch.andThen ?_ fun _ => ?_ | refine Touch.cond ?_ ?_)

theorem restartNow_only (keep : Bool) : Touches (Piece.allBut [.pending]) (restartNow keep) := by
  unfold restartNow
  repeat' first
    | (with_reducible first
         | exact Touch.read | exact (sendNotice_only ..).wider (by decide) | exact (commitFlash_only ..).wider (by decide) | exact (enterBoot_only ..).wider (by decide)
         | refine Touch.readThen fun _ => ?_ | refine Touch.andThen ?_ fun _ => ?_)

theorem moduleRestart_only (keep : Bool) : Touches (Piece.allBut [.pending]) (moduleRestart keep) := by
  unfold moduleRestart
  repeat' first
    | (with_reducible first
         | exact Touch.skip | exact Touch.read | exact (setLife_only ..).wider (by decide) | exact (restartNow_only ..).wider (by decide)
         | refine Touch.readThen fun _ => ?_ | refine Touch.andThen ?_ fun _ => ?_
         | refine Touch.cond ?_ ?_)
    | split

theorem dumpDone_only (late : List Nat) : Touches (Piece.allBut [.pending]) (dumpDone late) := by
  unfold dumpDone
  repeat' first
    | (with_reducible first
         | exact Touch.skip | exact Touch.read | exact (completeDump_only ..).wider (by decide) | exact (restartNow_only ..).wider (by decide)
         | refine Touch.readThen fun _ => ?_ | refine Touch.andThen ?_ fun _ => ?_
         | refine Touch.cond ?_ ?_)
    | split

theorem safeRelease_only (hottest : Int) : Touches (Piece.allBut [.pending]) (safeRelease hottest) := by
  unfold safeRelease
  repeat' first
    | (with_reducible first
         | exact Touch.skip | exact Touch.read | exact (restartNow_only ..).wider (by decide)
         | refine Touch.readThen fun _ => ?_ | refine Touch.andThen ?_ fun _ => ?_
         | refine Touch.cond ?_ ?_)
    | split

theorem moduleStandby_only : Touches [.params, .dieCopies, .vaultLoad, .power] moduleStandby := by
  unfold moduleStandby
  repeat' first
    | (with_reducible first
         | exact Touch.skip | exact Touch.read | exact (setPar_only ..).wider (by decide) | exact (vaultInterrupt_only ..).wider (by decide)
         | exact (pauseCopies_only ..).wider (by decide) | exact (quietPower_only ..).wider (by decide) | refine Touch.readThen fun _ => ?_
         | refine Touch.andThen ?_ fun _ => ?_ | refine Touch.cond ?_ ?_)

theorem moduleWake_only : Touches [.mode, .mem, .poison, .ueFull, .ecc, .params, .eff, .places, .placesNext, .rel, .win,
    .dieCopies, .faultLog, .flashDue, .subs, .hostPorts, .kvScales, .kvBad, .frames, .reels, .reelImage, .insts, .fltPending, .dead, .life, .elo, .out] moduleWake := by
  unfold moduleWake
  repeat' first
    | (with_reducible first
         | exact Touch.skip | exact Touch.read | exact (setPar_only ..).wider (by decide) | exact (pauseCopies_only ..).wider (by decide)
         | exact (releaseStarts_only ..).wider (by decide) | refine Touch.readThen fun _ => ?_
         | refine Touch.andThen ?_ fun _ => ?_ | refine Touch.cond ?_ ?_)

theorem partitionControl_only (p v : Nat) : Touches [.mode, .mem, .poison, .ueFull, .ecc, .params, .eff, .ctxs, .streams,
    .heldCtl, .places, .placesNext, .engines, .rel, .win, .dieCopies, .slots, .codecRefs, .faultLog, .flashDue, .subs, .hostPorts, .kvScales, .kvBad, .frames, .reels, .reelImage, .insts, .fltPending, .dead, .xferWait, .life, .elo, .out] (partitionControl p v) := by
  unfold partitionControl
  repeat' first
    | (with_reducible first
         | exact Touch.skip | exact Touch.read | exact (setLife_only ..).wider (by decide) | exact (moduleWake_only ..).wider (by decide)
         | exact (partitionStart_only ..).wider (by decide) | exact (partitionStop_only ..).wider (by decide) | refine Touch.readThen fun _ => ?_
         | refine Touch.andThen ?_ fun _ => ?_ | refine Touch.cond ?_ ?_)
    | split

theorem instanceControl_only (p v : Nat) : Touches [.poison, .ueFull, .ecc, .params, .eff, .rel, .win, .dieCopies,
    .faultLog, .flashDue, .frames, .doors, .insts, .nodes, .fltPending, .life, .out] (instanceControl p v) := by
  unfold instanceControl
  repeat' first
    | (with_reducible first
         | exact Touch.skip | exact Touch.read | exact (setLife_only ..).wider (by decide) | exact (instanceStart_only ..).wider (by decide)
         | exact (instanceDrain_only ..).wider (by decide) | exact (instanceStop_only ..).wider (by decide) | refine Touch.readThen fun _ => ?_
         | refine Touch.andThen ?_ fun _ => ?_ | refine Touch.cond ?_ ?_)
    | split

theorem releaseInstStarts_only : Touches [.poison, .ueFull, .ecc, .params, .eff, .rel, .win, .dieCopies, .faultLog,
    .flashDue, .frames, .doors, .insts, .nodes, .fltPending, .life, .out] releaseInstStarts := by
  unfold releaseInstStarts
  repeat' first
    | (with_reducible first
         | exact Touch.skip | exact Touch.read | exact (setLife_only ..).wider (by decide) | exact (instanceStart_only ..).wider (by decide)
         | refine Touch.readThen fun _ => ?_ | refine Touch.andThen ?_ fun _ => ?_
         | refine Touch.onlyIf _ ?_ | refine Touch.cond ?_ ?_ | refine Touch.each _ fun _ => ?_)

theorem drainPartition_only (p : Nat) : Touches [.mode, .poison, .ueFull, .ecc, .params, .eff, .ctxs, .streams, .heldCtl,
    .engines, .rel, .win, .dieCopies, .slots, .codecRefs, .faultLog, .flashDue, .subs, .hostPorts, .insts, .fltPending, .xferWait, .life, .elo, .out] (drainPartition p) := by
  unfold drainPartition
  repeat' first
    | (with_reducible first
         | exact Touch.skip | exact Touch.read | exact (partitionStop_only ..).wider (by decide) | exact (instanceDrain_only ..).wider (by decide)
         | refine Touch.readThen fun _ => ?_ | refine Touch.andThen ?_ fun _ => ?_
         | refine Touch.cond ?_ ?_)

theorem moduleDrain_only : Touches [.mode, .mem, .poison, .ueFull, .ecc, .params, .eff, .ctxs, .streams, .heldCtl,
    .engines, .rel, .win, .dieCopies, .vaultLoad, .slots, .codecRefs, .faultLog, .flashDue, .subs, .hostPorts, .insts, .fltPending, .dead, .xferWait, .life, .elo, .out] moduleDrain := by
  unfold moduleDrain
  repeat' first
    | (with_reducible first
         | exact Touch.skip | exact Touch.read | exact (setPar_only ..).wider (by decide) | exact (pauseCopies_only ..).wider (by decide)
         | exact (setMode_only ..).wider (by decide) | exact (setLife_only ..).wider (by decide) | exact (vaultInterrupt_only ..).wider (by decide) | exact (drainPartition_only ..).wider (by decide)
         | exact (afterServing_only ..).wider (by decide) | refine Touch.readThen fun _ => ?_ | refine Touch.andThen ?_ fun _ => ?_
         | refine Touch.onlyIf _ ?_ | refine Touch.cond ?_ ?_ | refine Touch.each _ fun _ => ?_)

theorem drainTimeout_only : Touches [.mode, .mem, .poison, .ueFull, .ecc, .params, .eff, .ctxs, .streams, .heldCtl,
    .engines, .rel, .win, .dieCopies, .vaultLoad, .slots, .codecRefs, .faultLog, .flashDue, .subs, .hostPorts, .insts, .fltPending, .dead, .xferWait, .life, .elo, .out] drainTimeout := by
  unfold drainTimeout
  repeat' first
    | (with_reducible first
         | exact Touch.skip | exact Touch.read | exact (vaultInterrupt_only ..).wider (by decide) | exact (partitionStop_only ..).wider (by decide)
         | exact (afterServing_only ..).wider (by decide) | refine Touch.readThen fun _ => ?_ | refine Touch.andThen ?_ fun _ => ?_
         | refine Touch.cond ?_ ?_ | refine Touch.each _ fun _ => ?_)
    | split

theorem drainComplete_only : Touches [.mode, .params, .engines, .vaultLoad, .slots, .flashLog, .flashDue, .subs,
    .hostPorts, .fltPending, .links, .spray, .power, .life, .elo, .hostReads, .out] drainComplete := by
  unfold drainComplete
  repeat' first
    | (with_reducible first
         | exact Touch.skip | exact Touch.read | exact (sendNotice_only ..).wider (by decide) | exact (commitFlash_only ..).wider (by decide)
         | exact (faultLogCommit_only ..).wider (by decide) | exact (vaultInterrupt_only ..).wider (by decide) | exact (railsOff_only ..).wider (by decide) | exact (quietLinks_only ..).wider (by decide)
         | exact (quietPower_only ..).wider (by decide) | exact (setPar_only ..).wider (by decide) | exact (setMode_only ..).wider (by decide)
         | refine Touch.readThen fun _ => ?_ | refine Touch.andThen ?_ fun _ => ?_
         | refine Touch.cond ?_ ?_)

theorem setFw_only (key : Nat) (v : FwInst) : Touches [.life] (setFw key v) := by
  unfold setFw
  repeat' first
    | (with_reducible first
         | exact (setLife_only ..).wider (by decide))

theorem stageStatus_only (st reason : Nat) : Touches [.params] (stageStatus st reason) := by
  unfold stageStatus
  repeat' first
    | (with_reducible first
         | exact (setPar_only ..).wider (by decide) | refine Touch.andThen ?_ fun _ => ?_)

theorem putOthers_only (kind : Nat) (v : FwSlot) : Touches [.life] (putOthers kind v) := by
  unfold putOthers
  repeat' first
    | (with_reducible first
         | exact Touch.read | exact (setFw_only ..).wider (by decide) | refine Touch.readThen fun _ => ?_
         | refine Touch.andThen ?_ fun _ => ?_ | refine Touch.each _ fun _ => ?_)

theorem stageFails_only (kind reason : Nat) : Touches [.params, .life] (stageFails kind reason) := by
  unfold stageFails
  repeat' first
    | (with_reducible first
         | exact (stageStatus_only ..).wider (by decide) | exact (putOthers_only ..).wider (by decide) | refine Touch.andThen ?_ fun _ => ?_)

theorem fwStage_only (addr : Nat) (sigOk : Bool) : Touches [.poison, .ueFull, .ecc, .params, .rel, .win, .dieCopies,
    .faultLog, .flashDue, .fltPending, .life] (fwStage addr sigOk) := by
  unfold fwStage
  repeat' first
    | (with_reducible first
         | exact Touch.skip | exact Touch.read | exact (stageStatus_only ..).wider (by decide) | exact (load_only ..).wider (by decide)
         | exact (setPar_only ..).wider (by decide) | exact (stageFails_only ..).wider (by decide) | exact (putOthers_only ..).wider (by decide) | exact (setLife_only ..).wider (by decide)
         | refine Touch.readThen fun _ => ?_ | refine Touch.andThen ?_ fun _ => ?_
         | refine Touch.cond ?_ ?_)

theorem fwStageDone_only (ok : Bool) : Touches [.params, .life] (fwStageDone ok) := by
  unfold fwStageDone
  repeat' first
    | (with_reducible first
         | exact Touch.skip | exact Touch.read | exact (setLife_only ..).wider (by decide) | exact (putOthers_only ..).wider (by decide)
         | exact (stageStatus_only ..).wider (by decide) | refine Touch.readThen fun _ => ?_ | refine Touch.andThen ?_ fun _ => ?_
         | refine Touch.cond ?_ ?_)
    | split

theorem fwUnit_only (key : Nat) : Touches [.params, .engines, .slots, .subs, .hostPorts, .fltPending, .links, .spray,
    .life, .hostReads, .out] (fwUnit key) := by
  unfold fwUnit
  repeat' first
    | (with_reducible first
         | exact Touch.skip | exact Touch.read | exact (trainGroup_only ..).wider (by decide) | exact (portDown_only ..).wider (by decide)
         | exact (setPar_only ..).wider (by decide) | refine Touch.readThen fun _ => ?_ | refine Touch.andThen ?_ fun _ => ?_
         | refine Touch.onlyIf _ ?_)
    | split

theorem fwSwitch_only (key : Nat) : Touches [.params, .engines, .slots, .subs, .hostPorts, .fltPending, .links, .spray,
    .life, .hostReads, .out] (fwSwitch key) := by
  unfold fwSwitch
  repeat' first
    | (with_reducible first
         | exact Touch.read | exact (setFw_only ..).wider (by decide) | exact (setLife_only ..).wider (by decide) | exact (bump_only ..).wider (by decide) | exact (fwUnit_only ..).wider (by decide)
         | refine Touch.readThen fun _ => ?_ | refine Touch.andThen ?_ fun _ => ?_)

theorem fwGo_only : Touches [.params, .engines, .slots, .subs, .hostPorts, .fltPending, .links, .spray, .life, .hostReads,
    .out] fwGo := by
  unfold fwGo
  repeat' first
    | (with_reducible first
         | exact Touch.skip | exact Touch.read | exact (setLife_only ..).wider (by decide) | exact (fwSwitch_only ..).wider (by decide)
         | refine Touch.readThen fun _ => ?_ | refine Touch.andThen ?_ fun _ => ?_
         | refine Touch.cond ?_ ?_)
    | split

theorem fwActivate_only (v : Nat) : Touches [.params, .engines, .slots, .subs, .hostPorts, .fltPending, .links, .spray,
    .life, .hostReads, .out] (fwActivate v) := by
  unfold fwActivate
  repeat' first
    | (with_reducible first
         | exact Touch.skip | exact Touch.read | exact (setLife_only ..).wider (by decide) | exact (fwGo_only ..).wider (by decide)
         | refine Touch.readThen fun _ => ?_ | refine Touch.andThen ?_ fun _ => ?_
         | refine Touch.cond ?_ ?_)

theorem fwRevert_only (v : Nat) : Touches [.params, .engines, .slots, .subs, .hostPorts, .fltPending, .links, .spray,
    .life, .hostReads, .out] (fwRevert v) := by
  unfold fwRevert
  repeat' first
    | (with_reducible first
         | exact Touch.skip | exact Touch.read | exact (setLife_only ..).wider (by decide) | exact (fwGo_only ..).wider (by decide)
         | refine Touch.readThen fun _ => ?_ | refine Touch.andThen ?_ fun _ => ?_
         | refine Touch.cond ?_ ?_)

theorem fwFail_only (key : Nat) : Touches [.params, .engines, .slots, .faultLog, .flashDue, .subs, .hostPorts, .fltPending,
    .links, .spray, .life, .hostReads, .out] (fwFail key) := by
  unfold fwFail
  repeat' first
    | (with_reducible first
         | exact Touch.skip | exact Touch.read | exact (setFw_only ..).wider (by decide) | exact (setLife_only ..).wider (by decide)
         | exact (recordFault_only ..).wider (by decide) | exact (bump_only ..).wider (by decide) | exact (fwUnit_only ..).wider (by decide) | exact (fwGo_only ..).wider (by decide)
         | refine Touch.readThen fun _ => ?_ | refine Touch.andThen ?_ fun _ => ?_
         | refine Touch.cond ?_ ?_)

theorem fwHealthCheck_only (key : Nat) (healthy : Bool) : Touches [.params, .engines, .slots, .faultLog, .flashDue, .subs,
    .hostPorts, .fltPending, .links, .spray, .life, .hostReads, .out] (fwHealthCheck key healthy) := by
  unfold fwHealthCheck
  repeat' first
    | (with_reducible first
         | exact Touch.skip | exact Touch.read | exact (setFw_only ..).wider (by decide) | exact (setLife_only ..).wider (by decide) | exact (fwGo_only ..).wider (by decide)
         | exact (fwFail_only ..).wider (by decide) | refine Touch.readThen fun _ => ?_ | refine Touch.andThen ?_ fun _ => ?_
         | refine Touch.cond ?_ ?_)

theorem fwConfirmOne_only (key : Nat) : Touches [.life] (fwConfirmOne key) := by
  unfold fwConfirmOne
  repeat' first
    | (with_reducible first
         | exact Touch.read | exact (setFw_only ..).wider (by decide) | refine Touch.readThen fun _ => ?_
         | refine Touch.andThen ?_ fun _ => ?_ | refine Touch.onlyIf _ ?_)

theorem fwTrialEnd_only (key : Nat) : Touches [.life] (fwTrialEnd key) := by
  unfold fwTrialEnd
  repeat' first
    | (with_reducible first
         | exact Touch.read | exact (fwConfirmOne_only ..).wider (by decide) | refine Touch.readThen fun _ => ?_
         | refine Touch.andThen ?_ fun _ => ?_ | refine Touch.onlyIf _ ?_)

theorem fwConfirm_only (kind : Nat) : Touches [.life] (fwConfirm kind) := by
  unfold fwConfirm
  repeat' first
    | (with_reducible first
         | exact (fwConfirmOne_only ..).wider (by decide) | refine Touch.andThen ?_ fun _ => ?_ | refine Touch.each _ fun _ => ?_)

theorem fwEngineFails_only (e : Nat) : Touches [.params, .engines, .slots, .faultLog, .flashDue, .subs, .hostPorts,
    .fltPending, .links, .spray, .life, .hostReads, .out] (fwEngineFails e) := by
  unfold fwEngineFails
  repeat' first
    | (with_reducible first
         | exact Touch.read | exact (fwFail_only ..).wider (by decide) | refine Touch.readThen fun _ => ?_
         | refine Touch.andThen ?_ fun _ => ?_ | refine Touch.onlyIf _ ?_)

theorem accruePennants_only : Touches [.params, .power] accruePennants := by
  unfold accruePennants
  repeat' first
    | (with_reducible first
         | exact (accruePennant_only ..).wider (by decide) | refine Touch.andThen ?_ fun _ => ?_ | refine Touch.each _ fun _ => ?_)

theorem clapperArm_only (v : Nat) : Touches [.params] (clapperArm v) := by
  unfold clapperArm
  repeat' first
    | (with_reducible first
         | exact Touch.read | exact (setPar_only ..).wider (by decide) | refine Touch.readThen fun _ => ?_
         | refine Touch.andThen ?_ fun _ => ?_ | refine Touch.onlyIf _ ?_)

theorem clapperFire_only : Touches [.params, .power, .life] clapperFire := by
  unfold clapperFire
  repeat' first
    | (with_reducible first
         | exact Touch.skip | exact Touch.read | exact (accruePennants_only ..).wider (by decide) | exact (setPar_only ..).wider (by decide)
         | exact (setLife_only ..).wider (by decide) | refine Touch.readThen fun _ => ?_ | refine Touch.andThen ?_ fun _ => ?_
         | refine Touch.cond ?_ ?_)

theorem exportDaily_only (d : Daily) : Touches [.mem, .poison, .ecc, .params, .dead, .life, .elo] (exportDaily d) := by
  unfold exportDaily
  repeat' first
    | (with_reducible first
         | exact Touch.skip | exact Touch.read | exact (store_only ..).wider (by decide) | exact (bump_only ..).wider (by decide)
         | refine Touch.readThen fun _ => ?_ | refine Touch.andThen ?_ fun _ => ?_
         | refine Touch.cond ?_ ?_)
    | split
    | dsimp only

theorem dailyRecord_only : Touches [.mem, .poison, .ecc, .params, .dead, .power, .life, .elo] dailyRecord := by
  unfold dailyRecord
  repeat' first
    | (with_reducible first
         | exact Touch.skip | exact Touch.read | exact (accruePennants_only ..).wider (by decide) | exact (setPar_only ..).wider (by decide)
         | exact (setLife_only ..).wider (by decide) | exact (exportDaily_only ..).wider (by decide) | refine Touch.readThen fun _ => ?_
         | refine Touch.andThen ?_ fun _ => ?_ | refine Touch.cond ?_ ?_)

theorem regulatorCalibration_only (region phase : Nat) : Touches [.life] (regulatorCalibration region phase) := by
  unfold regulatorCalibration
  repeat' first
    | (with_reducible first
         | exact Touch.skip | exact Touch.read | exact (setLife_only ..).wider (by decide) | refine Touch.readThen fun _ => ?_
         | refine Touch.andThen ?_ fun _ => ?_ | refine Touch.cond ?_ ?_)

theorem eyeScan_only (g : Nat) (tx : Bool) (height width : Nat) : Touches [.rel] (eyeScan g tx height width) := by
  intro s
  unfold eyeScan
  simp only [run_get_bind]
  cases tx <;> simp only [run_ite, run_set, Bool.false_eq_true, if_false, if_true] <;> split <;> rfl

theorem refclkLoss_only : Touches [.mode, .params, .engines, .slots, .faultLog, .flashDue, .subs, .hostPorts, .fltPending,
    .dumpRun, .links, .spray, .clock, .power, .life, .elo, .out] refclkLoss := by
  unfold refclkLoss
  repeat' first
    | (with_reducible first
         | exact Touch.skip | exact Touch.read | exact (setPower_only ..).wider (by decide) | exact (timeHoldover_only ..).wider (by decide)
         | exact (moduleFatal_only ..).wider (by decide) | refine Touch.readThen fun _ => ?_ | refine Touch.andThen ?_ fun _ => ?_
         | refine Touch.cond ?_ ?_)
    | split

theorem refclkReturn_only : Touches [.params, .faultLog, .flashDue, .fltPending, .power] refclkReturn := by
  unfold refclkReturn
  repeat' first
    | (with_reducible first
         | exact Touch.skip | exact Touch.read | exact (setPower_only ..).wider (by decide) | exact (recordFault_only ..).wider (by decide)
         | refine Touch.readThen fun _ => ?_ | refine Touch.andThen ?_ fun _ => ?_
         | refine Touch.cond ?_ ?_)
    | split

theorem bridgeFlitError_only (bridge flit : Nat) : Touches [.mode, .params, .engines, .slots, .faultLog, .flashDue, .subs,
    .hostPorts, .fltPending, .dumpRun, .links, .spray, .power, .life, .elo, .bridges, .out] (bridgeFlitError bridge flit) := by
  unfold bridgeFlitError
  repeat' first
    | (with_reducible first
         | exact Touch.skip | exact Touch.read | exact (recordFault_only ..).wider (by decide) | exact (moduleFatal_only ..).wider (by decide)
         | refine Touch.readThen fun _ => ?_ | refine Touch.andThen ?_ fun _ => ?_
         | refine Touch.onlyIf _ ?_ | refine Touch.cond ?_ ?_)
    | (with_reducible refine Touch.change fun _ => ?_); rfl

theorem afterStep_only : Touches [.mode, .mem, .poison, .ueFull, .ecc, .params, .eff, .ctxs, .streams, .heldCtl, .engines,
    .rel, .win, .dieCopies, .slots, .codecRefs, .faultLog, .flashDue, .subs, .hostPorts, .fltPending, .dead, .links, .xferWait, .spray, .life, .elo, .hostReads, .out] afterStep := by
  unfold afterStep
  repeat' first
    | (with_reducible first
         | exact (afterServing_only ..).wider (by decide) | exact (fwGo_only ..).wider (by decide) | refine Touch.andThen ?_ fun _ => ?_)

/-! ## Eth -/

theorem setEth_only (f : EthSt → EthSt) : Touches [.eth] (setEth f) := by
  unfold setEth
  repeat' first
    | (with_reducible first
         | refine Touch.andThen ?_ fun _ => ?_)
    | (with_reducible refine Touch.change fun _ => ?_); rfl

theorem setQp_only (k : Nat) (q : Qp) : Touches [.eth] (setQp k q) := by
  unfold setQp
  repeat' first
    | (with_reducible first
         | exact (setEth_only ..).wider (by decide))

theorem qpLose_only (k : Nat) : Touches [.params, .engines, .faultLog, .flashDue, .fltPending] (qpLose k) := by
  unfold qpLose
  repeat' first
    | (with_reducible first
         | exact Touch.read | exact (transferLost_only ..).wider (by decide) | refine Touch.readThen fun _ => ?_
         | refine Touch.andThen ?_ fun _ => ?_ | refine Touch.each _ fun _ => ?_)
    | (with_reducible refine Touch.change fun _ => ?_); rfl

theorem settleRdma_only (k : Nat) : Touches [.engines] (settleRdma k) := by
  unfold settleRdma
  repeat' first
    | (with_reducible first
         | refine Touch.andThen ?_ fun _ => ?_)
    | (with_reducible refine Touch.change fun _ => ?_); first | rfl | ((repeat' split) <;> rfl)

theorem qpReload_only (v : Nat) : Touches [.poison, .ueFull, .ecc, .params, .engines, .rel, .win, .dieCopies, .faultLog,
    .flashDue, .fltPending, .eth] (qpReload v) := by
  unfold qpReload
  repeat' first
    | (with_reducible first
         | exact Touch.skip | exact Touch.read | exact (load_only ..).wider (by decide) | exact (qpLose_only ..).wider (by decide) | exact (recordUe_only ..).wider (by decide)
         | exact (setQp_only ..).wider (by decide) | refine Touch.readThen fun _ => ?_ | refine Touch.andThen ?_ fun _ => ?_
         | refine Touch.cond ?_ ?_)

theorem keyReload_only (i : Nat) : Touches [.poison, .ueFull, .ecc, .params, .rel, .win, .dieCopies, .faultLog, .flashDue,
    .fltPending, .eth] (keyReload i) := by
  unfold keyReload
  repeat' first
    | (with_reducible first
         | exact Touch.skip | exact Touch.read | exact (load_only ..).wider (by decide) | exact (recordUe_only ..).wider (by decide) | exact (setEth_only ..).wider (by decide)
         | refine Touch.readThen fun _ => ?_ | refine Touch.andThen ?_ fun _ => ?_
         | refine Touch.cond ?_ ?_)

theorem loadEthTables_only : Touches [.poison, .ueFull, .ecc, .params, .engines, .rel, .win, .dieCopies, .faultLog,
    .flashDue, .fltPending, .eth] loadEthTables := by
  unfold loadEthTables
  repeat' first
    | (with_reducible first
         | exact Touch.read | exact (qpReload_only ..).wider (by decide) | exact (keyReload_only ..).wider (by decide)
         | refine Touch.readThen fun _ => ?_ | refine Touch.andThen ?_ fun _ => ?_
         | refine Touch.each _ fun _ => ?_)

theorem sendFrame_only (port : Nat) (o : Out) : Touches [.params, .out] (sendFrame port o) := by
  unfold sendFrame
  repeat' first
    | (with_reducible first
         | exact Touch.skip | exact Touch.read | exact (emit_only ..).wider (by decide) | exact (bump_only ..).wider (by decide)
         | refine Touch.readThen fun _ => ?_ | refine Touch.andThen ?_ fun _ => ?_
         | refine Touch.cond ?_ ?_)

theorem networkFrame_only (port : Nat) (f : EthFrame) : Touches [.params, .out] (networkFrame port f) := by
  unfold networkFrame
  repeat' first
    | (with_reducible first
         | exact Touch.skip | exact Touch.read | exact (bump_only ..).wider (by decide) | exact (sendFrame_only ..).wider (by decide)
         | refine Touch.readThen fun _ => ?_ | refine Touch.andThen ?_ fun _ => ?_
         | refine Touch.cond ?_ ?_)
    | split

theorem ethLinkChange_only (port : Nat) (up : Bool) : Touches [.params] (ethLinkChange port up) := by
  unfold ethLinkChange
  repeat' first
    | (with_reducible first
         | exact Touch.skip | exact Touch.read | exact (setPar_only ..).wider (by decide) | refine Touch.readThen fun _ => ?_
         | refine Touch.andThen ?_ fun _ => ?_ | refine Touch.cond ?_ ?_)

theorem pfcFrame_only (port priority quanta : Nat) : Touches [.params, .eth] (pfcFrame port priority quanta) := by
  unfold pfcFrame
  repeat' first
    | (with_reducible first
         | exact Touch.skip | exact Touch.read | exact (bump_only ..).wider (by decide) | exact (setEth_only ..).wider (by decide)
         | refine Touch.readThen fun _ => ?_ | refine Touch.andThen ?_ fun _ => ?_
         | refine Touch.cond ?_ ?_)

theorem sendPackets_only (k : Nat) (q : Qp) (l : List RocePkt) : Touches [.params, .eth, .out] (sendPackets k q l) := by
  unfold sendPackets
  repeat' first
    | (with_reducible first
         | exact Touch.read | exact (setQp_only ..).wider (by decide) | exact (sendFrame_only ..).wider (by decide) | refine Touch.readThen fun _ => ?_
         | refine Touch.andThen ?_ fun _ => ?_ | refine Touch.cond ?_ ?_ | refine Touch.each _ fun _ => ?_)

theorem bodyRdma_only (write : Bool) (c : Cmd) : Touches [.poison, .ueFull, .ecc, .params, .rel, .win, .dieCopies,
    .faultLog, .flashDue, .subs, .hostPorts, .fltPending, .eth, .out] (bodyRdma write c) := by
  unfold bodyRdma
  repeat' first
    | (with_reducible first
         | exact Touch.read | exact Touch.ret _ | exact (clampDesc_only ..).wider (by decide) | exact (transferLost_only ..).wider (by decide)
         | exact (load_only ..).wider (by decide) | exact (forwarded_only ..).wider (by decide) | exact (sendPackets_only ..).wider (by decide)
         | refine Touch.readThen fun _ => ?_ | refine Touch.andThen ?_ fun _ => ?_
         | refine Touch.cond ?_ ?_)
    | split

theorem qpFail_only (k : Nat) (q : Qp) : Touches [.params, .engines, .faultLog, .flashDue, .fltPending, .eth] (qpFail k q) := by
  unfold qpFail
  repeat' first
    | (with_reducible first
         | exact (setQp_only ..).wider (by decide) | exact (qpLose_only ..).wider (by decide) | refine Touch.andThen ?_ fun _ => ?_)

theorem roceRetry_only (k : Nat) (q : Qp) (l : List RocePkt) : Touches [.params, .engines, .faultLog, .flashDue,
    .fltPending, .eth, .out] (roceRetry k q l) := by
  unfold roceRetry
  repeat' first
    | (with_reducible first
         | exact Touch.read | exact (setQp_only ..).wider (by decide) | exact (qpFail_only ..).wider (by decide) | exact (sendFrame_only ..).wider (by decide) | exact (bump_only ..).wider (by decide)
         | refine Touch.readThen fun _ => ?_ | refine Touch.andThen ?_ fun _ => ?_
         | refine Touch.cond ?_ ?_ | refine Touch.each _ fun _ => ?_)

theorem roceAck_only (port qpn psn : Nat) (nak : Option Nat) : Touches [.params, .engines, .faultLog, .flashDue,
    .fltPending, .eth, .out] (roceAck port qpn psn nak) := by
  unfold roceAck
  repeat' first
    | (with_reducible first
         | exact Touch.skip | exact Touch.read | exact (bump_only ..).wider (by decide) | exact (setQp_only ..).wider (by decide)
         | exact (settleRdma_only ..).wider (by decide) | exact (roceRetry_only ..).wider (by decide) | refine Touch.readThen fun _ => ?_
         | refine Touch.andThen ?_ fun _ => ?_ | refine Touch.cond ?_ ?_)
    | split

theorem roceTimeout_only (port i : Nat) : Touches [.params, .engines, .faultLog, .flashDue, .fltPending, .eth, .out]
    (roceTimeout port i) := by
  unfold roceTimeout
  repeat' first
    | (with_reducible first
         | exact Touch.skip | exact Touch.read | exact (roceRetry_only ..).wider (by decide) | refine Touch.readThen fun _ => ?_
         | refine Touch.andThen ?_ fun _ => ?_ | refine Touch.cond ?_ ?_)
    | split

theorem cnp_only (port qpn : Nat) : Touches [.params, .eth] (cnp port qpn) := by
  unfold cnp
  repeat' first
    | (with_reducible first
         | exact Touch.skip | exact Touch.read | exact (bump_only ..).wider (by decide) | exact (setQp_only ..).wider (by decide)
         | refine Touch.readThen fun _ => ?_ | refine Touch.andThen ?_ fun _ => ?_
         | refine Touch.cond ?_ ?_)
    | split

theorem roceRateRaise_only (port i : Nat) : Touches [.eth] (roceRateRaise port i) := by
  unfold roceRateRaise
  repeat' first
    | (with_reducible first
         | exact Touch.skip | exact Touch.read | exact (setQp_only ..).wider (by decide) | refine Touch.readThen fun _ => ?_
         | refine Touch.andThen ?_ fun _ => ?_ | refine Touch.cond ?_ ?_)
    | split

theorem roceReadResponse_only (port qpn psn : Nat) (data : List Nat) : Touches [.mem, .poison, .ecc, .params, .engines,
    .dead, .eth] (roceReadResponse port qpn psn data) := by
  unfold roceReadResponse
  repeat' first
    | (with_reducible first
         | exact Touch.skip | exact Touch.read | exact (bump_only ..).wider (by decide) | exact (store_only ..).wider (by decide) | exact (setQp_only ..).wider (by decide)
         | exact (settleRdma_only ..).wider (by decide) | refine Touch.readThen fun _ => ?_ | refine Touch.andThen ?_ fun _ => ?_
         | refine Touch.cond ?_ ?_)
    | split

theorem answerMark_only (k : Nat) (r : RoceReq) : Touches [.params, .eth, .out] (answerMark k r) := by
  unfold answerMark
  repeat' first
    | (with_reducible first
         | exact Touch.skip | exact Touch.read | exact (setQp_only ..).wider (by decide) | exact (sendFrame_only ..).wider (by decide) | exact (cnp_only ..).wider (by decide)
         | refine Touch.readThen fun _ => ?_ | refine Touch.andThen ?_ fun _ => ?_
         | refine Touch.cond ?_ ?_)
    | split

theorem roceRefuse_only (r : RoceReq) : Touches [.params, .engines, .faultLog, .flashDue, .fltPending, .eth, .out]
    (roceRefuse r) := by
  unfold roceRefuse
  repeat' first
    | (with_reducible first
         | exact (bump_only ..).wider (by decide) | exact (sendFrame_only ..).wider (by decide) | exact (roceAck_only ..).wider (by decide) | refine Touch.andThen ?_ fun _ => ?_)

theorem incomingWrite_only (r : RoceReq) : Touches [.mem, .poison, .ueFull, .ecc, .params, .engines, .rel, .win,
    .dieCopies, .faultLog, .flashDue, .fltPending, .dead, .eth, .out] (incomingWrite r) := by
  unfold incomingWrite
  repeat' first
    | (with_reducible first
         | exact Touch.skip | exact Touch.read | exact (bump_only ..).wider (by decide) | exact (roceRefuse_only ..).wider (by decide)
         | exact (store_only ..).wider (by decide) | exact (storeVal_only ..).wider (by decide) | exact (signalCue_only ..).wider (by decide) | exact (setQp_only ..).wider (by decide)
         | exact (answerMark_only ..).wider (by decide) | exact (sendFrame_only ..).wider (by decide) | exact (roceAck_only ..).wider (by decide)
         | refine Touch.readThen fun _ => ?_ | refine Touch.andThen ?_ fun _ => ?_
         | refine Touch.cond ?_ ?_)
    | split

theorem incomingRead_only (r : RoceReq) : Touches [.poison, .ueFull, .ecc, .params, .engines, .rel, .win, .dieCopies,
    .faultLog, .flashDue, .subs, .hostPorts, .fltPending, .eth, .out] (incomingRead r) := by
  unfold incomingRead
  repeat' first
    | (with_reducible first
         | exact Touch.skip | exact Touch.read | exact (bump_only ..).wider (by decide) | exact (roceRefuse_only ..).wider (by decide) | exact (load_only ..).wider (by decide)
         | exact (forwarded_only ..).wider (by decide) | exact (setQp_only ..).wider (by decide) | exact (answerMark_only ..).wider (by decide) | exact (sendFrame_only ..).wider (by decide)
         | refine Touch.readThen fun _ => ?_ | refine Touch.andThen ?_ fun _ => ?_
         | refine Touch.cond ?_ ?_ | refine Touch.each _ fun _ => ?_)
    | split

/-! ## Eloaphor -/

theorem setElo_only (f : EloSt → EloSt) : Touches [.elo] (setElo f) := by
  unfold setElo
  repeat' first
    | (with_reducible first
         | refine Touch.andThen ?_ fun _ => ?_)
    | (with_reducible refine Touch.change fun _ => ?_); rfl

theorem deliver_only (path src : Nat) (q : Pdu) : Touches [.hostPorts, .life, .elo, .out] (deliver path src q) := by
  unfold deliver
  repeat' first
    | (with_reducible first
         | exact Touch.skip | exact Touch.read | exact (setHostPort_only ..).wider (by decide) | exact (sendMsix_only ..).wider (by decide)
         | exact (emit_only ..).wider (by decide) | refine Touch.readThen fun _ => ?_ | refine Touch.andThen ?_ fun _ => ?_
         | refine Touch.cond ?_ ?_)

theorem opRead_only (island : Bool) (body : List Nat) : Touches [.params, .power, .life, .elo] (opRead island body) := by
  unfold opRead
  repeat' first
    | (with_reducible first
         | exact Touch.read | exact Touch.ret _ | exact (accruePennants_only ..).wider (by decide)
         | refine Touch.readThen fun _ => ?_ | refine Touch.andThen ?_ fun _ => ?_)
    | split

theorem opBlobRead_only (island : Bool) (body : List Nat) : Touches [.params, .power, .life, .elo] (opBlobRead island body) := by
  unfold opBlobRead
  repeat' first
    | (with_reducible first
         | exact Touch.read | exact Touch.ret _ | exact (accruePennants_only ..).wider (by decide)
         | refine Touch.readThen fun _ => ?_ | refine Touch.andThen ?_ fun _ => ?_
         | refine Touch.cond ?_ ?_)
    | split

theorem putSession_only (x : Session) : Touches [.elo] (putSession x) := by
  unfold putSession
  repeat' first
    | (with_reducible first
         | exact (setElo_only ..).wider (by decide))

theorem sessionClose_only (id : Nat) : Touches [.elo] (sessionClose id) := by
  unfold sessionClose
  repeat' first
    | (with_reducible first
         | refine Touch.andThen ?_ fun _ => ?_)
    | (with_reducible refine Touch.change fun _ => ?_); rfl

theorem loginTimeout_only (id : Nat) : Touches [.elo] (loginTimeout id) := by
  unfold loginTimeout
  repeat' first
    | (with_reducible first
         | exact Touch.skip | exact Touch.read | exact (sessionClose_only ..).wider (by decide)
         | refine Touch.readThen fun _ => ?_ | refine Touch.andThen ?_ fun _ => ?_
         | refine Touch.cond ?_ ?_)
    | split

theorem sessionIdle_only (id : Nat) : Touches [.elo] (sessionIdle id) := by
  unfold sessionIdle
  repeat' first
    | (with_reducible first
         | exact Touch.skip | exact Touch.read | exact (sessionClose_only ..).wider (by decide)
         | refine Touch.readThen fun _ => ?_ | refine Touch.andThen ?_ fun _ => ?_
         | refine Touch.cond ?_ ?_)
    | split

theorem blobTimeout_only (id : Nat) : Touches [.elo] (blobTimeout id) := by
  unfold blobTimeout
  repeat' first
    | (with_reducible first
         | exact Touch.skip | exact Touch.read | exact (putSession_only ..).wider (by decide)
         | refine Touch.readThen fun _ => ?_ | refine Touch.andThen ?_ fun _ => ?_
         | refine Touch.cond ?_ ?_)
    | split

theorem moduleControl_only (v : Nat) : Touches (Piece.allBut [.pending]) (moduleControl v) := by
  unfold moduleControl
  repeat' first
    | (with_reducible first
         | exact Touch.skip | exact (moduleDrain_only ..).wider (by decide) | exact (moduleRestart_only ..).wider (by decide) | exact (moduleStandby_only ..).wider (by decide)
         | exact (moduleWake_only ..).wider (by decide) | refine Touch.andThen ?_ fun _ => ?_)
    | split

theorem userCalReset_only : Touches [.params, .elo] userCalReset := by
  unfold userCalReset
  repeat' first
    | (with_reducible first
         | exact Touch.read | exact (setPar_only ..).wider (by decide) | exact (noteWrite_only ..).wider (by decide) | refine Touch.readThen fun _ => ?_
         | refine Touch.andThen ?_ fun _ => ?_ | refine Touch.each _ fun _ => ?_)
    | (with_reducible refine Touch.change fun _ => ?_); rfl

theorem restoreDefaults_only : Touches [.elo] restoreDefaults := by
  unfold restoreDefaults
  repeat' first
    | (with_reducible first
         | exact (setElo_only ..).wider (by decide))

theorem resetCommand_only (e : Nat) (lost : Option (Nat × Nat)) : Touches [.params, .engines, .win, .slots, .faultLog,
    .flashDue, .subs, .hostPorts, .fltPending, .engineDumps, .links, .xfers, .xferWait, .spray, .life, .hostReads, .out] (resetCommand e lost) := by
  unfold resetCommand
  repeat' first
    | (with_reducible first
         | exact (engineReset_only ..).wider (by decide) | exact (fwEngineFails_only ..).wider (by decide) | refine Touch.andThen ?_ fun _ => ?_)

theorem command_only (key v : Nat) : Touches (Piece.allBut [.pending]) (command key v) := by
  unfold command
  repeat' first
    | (with_reducible first
         | exact Touch.skip | exact (sessionClose_only ..).wider (by decide) | exact (restoreDefaults_only ..).wider (by decide) | exact (userCalReset_only ..).wider (by decide)
         | exact (leaseCommit_only ..).wider (by decide) | exact (linkPlanApply_only ..).wider (by decide) | exact (linkRestore_only ..).wider (by decide)
         | exact (laneSpareStart_only ..).wider (by decide) | exact (rankReady_only ..).wider (by decide) | exact (qpReload_only ..).wider (by decide) | exact (keyReload_only ..).wider (by decide)
         | exact (partitionControl_only ..).wider (by decide) | exact (instanceControl_only ..).wider (by decide) | exact (placementReload_only ..).wider (by decide)
         | exact (normProfileSave_only ..).wider (by decide) | exact (resetCommand_only ..).wider (by decide) | exact (enterFenced_only ..).wider (by decide)
         | exact (dieSpareStart_only ..).wider (by decide) | exact (dumpStart_only ..).wider (by decide) | exact (moduleControl_only ..).wider (by decide)
         | exact (vaultLoadStart_only ..).wider (by decide) | exact (fwActivate_only ..).wider (by decide) | exact (fwConfirm_only ..).wider (by decide) | exact (fwRevert_only ..).wider (by decide)
         | refine Touch.andThen ?_ fun _ => ?_ | refine Touch.onlyIf _ ?_ | refine Touch.cond ?_ ?_)

theorem putSub_only (slot sub v : Nat) : Touches [.subs] (putSub slot sub v) := by
  unfold putSub
  repeat' first
    | (with_reducible first
         | refine Touch.andThen ?_ fun _ => ?_ | refine Touch.cond ?_ ?_)
    | (with_reducible refine Touch.change fun _ => ?_); rfl

theorem putValue_only (key v : Nat) : Touches [.params, .subs] (putValue key v) := by
  unfold putValue
  repeat' first
    | (with_reducible first
         | exact (putSub_only ..).wider (by decide) | exact (setPar_only ..).wider (by decide) | refine Touch.andThen ?_ fun _ => ?_
         | refine Touch.cond ?_ ?_)

theorem storeValue_only (path key : Nat) (r : PRow) (n v : Nat) : Touches [.params, .subs, .elo] (storeValue path key r n
    v) := by
  unfold storeValue
  repeat' first
    | (with_reducible first
         | exact Touch.ret _ | exact (putValue_only ..).wider (by decide) | exact (noteWrite_only ..).wider (by decide)
         | refine Touch.andThen ?_ fun _ => ?_)

theorem settleLimits_only (path : Nat) (keys : List Nat) : Touches [.params, .elo] (settleLimits path keys) := by
  unfold settleLimits
  repeat' first
    | (with_reducible first
         | exact Touch.read | exact Touch.ret _ | exact (setPar_only ..).wider (by decide) | exact (noteWrite_only ..).wider (by decide)
         | refine Touch.readThen fun _ => ?_ | refine Touch.andThen ?_ fun _ => ?_
         | refine Touch.cond ?_ ?_ | refine Touch.each _ fun _ => ?_ | refine Touch.collect _ fun _ => ?_)
    | (with_reducible refine Touch.change fun _ => ?_); rfl

theorem followWrite_only (key old : Nat) : Touches [.params, .eff, .clock, .power, .life, .elo] (followWrite key old) := by
  unfold followWrite
  repeat' first
    | (with_reducible first
         | exact Touch.read | exact (putLimit_only ..).wider (by decide) | exact (freeRun_only ..).wider (by decide) | exact (setEff_only ..).wider (by decide)
         | refine Touch.readThen fun _ => ?_ | refine Touch.andThen ?_ fun _ => ?_
         | refine Touch.onlyIf _ ?_)
    | (with_reducible refine Touch.change fun _ => ?_); rfl

theorem writeAll_only (path : Nat) (items : List (Nat × List Nat)) : Touches (Piece.allBut [.pending]) (writeAll path
    items) := by
  unfold writeAll
  repeat' first
    | (with_reducible first
         | exact Touch.skip | exact Touch.read | exact Touch.ret _ | exact (storeValue_only ..).wider (by decide)
         | exact (settleLimits_only ..).wider (by decide) | exact (bump_only ..).wider (by decide) | exact (followWrite_only ..).wider (by decide) | exact (command_only ..).wider (by decide)
         | refine Touch.readThen fun _ => ?_ | refine Touch.andThen ?_ fun _ => ?_
         | refine Touch.onlyIf _ ?_ | refine Touch.cond ?_ ?_ | refine Touch.each _ fun _ => ?_
         | refine Touch.collect _ fun _ => ?_)
    | split

theorem opWrite_only (role path : Nat) (island : Bool) (body : List Nat) : Touches (Piece.allBut [.pending]) (opWrite role
    path island body) := by
  unfold opWrite
  repeat' first
    | (with_reducible first
         | exact Touch.ret _ | exact (writeAll_only ..).wider (by decide) | refine Touch.andThen ?_ fun _ => ?_
         | refine Touch.cond ?_ ?_)
    | split

theorem opBlobWrite_only (path : Nat) (x : Option Session) (more : Bool) (body : List Nat) : Touches (Piece.allBut
    [.pending]) (opBlobWrite path x more body) := by
  unfold opBlobWrite
  repeat' first
    | (with_reducible first
         | exact Touch.read | exact Touch.ret _ | exact (putSession_only ..).wider (by decide) | exact (writeAll_only ..).wider (by decide)
         | refine Touch.readThen fun _ => ?_ | refine Touch.andThen ?_ fun _ => ?_
         | refine Touch.cond ?_ ?_)
    | split

theorem randomNumber_only : Touches [.freeIx] randomNumber := fun _ => rfl

theorem opChallenge_only (path src : Nat) (body : List Nat) : Touches [.elo, .freeIx] (opChallenge path src body) := by
  unfold opChallenge
  repeat' first
    | (with_reducible first
         | exact Touch.read | exact Touch.ret _ | exact (randomNumber_only ..).wider (by decide) | exact (setElo_only ..).wider (by decide)
         | refine Touch.readThen fun _ => ?_ | refine Touch.andThen ?_ fun _ => ?_
         | refine Touch.cond ?_ ?_ | refine Touch.collect _ fun _ => ?_)

theorem loginFails_only (path src : Nat) : Touches [.params, .elo] (loginFails path src) := by
  unfold loginFails
  repeat' first
    | (with_reducible first
         | exact Touch.read | exact (bump_only ..).wider (by decide) | exact (setElo_only ..).wider (by decide) | refine Touch.readThen fun _ => ?_
         | refine Touch.andThen ?_ fun _ => ?_)

theorem opLogin_only (path src : Nat) (x : Session) (p : Pdu) : Touches [.params, .elo] (opLogin path src x p) := by
  unfold opLogin
  repeat' first
    | (with_reducible first
         | exact Touch.read | exact Touch.ret _ | exact (putSession_only ..).wider (by decide) | exact (sessionClose_only ..).wider (by decide)
         | exact (loginFails_only ..).wider (by decide) | refine Touch.readThen fun _ => ?_ | refine Touch.andThen ?_ fun _ => ?_
         | refine Touch.cond ?_ ?_)

theorem opSubscribe_only (path src : Nat) (x : Option Session) (body : List Nat) : Touches [.subs] (opSubscribe path src x
    body) := by
  unfold opSubscribe
  repeat' first
    | (with_reducible first
         | exact Touch.read | exact Touch.ret _ | refine Touch.readThen fun _ => ?_
         | refine Touch.andThen ?_ fun _ => ?_ | refine Touch.cond ?_ ?_)
    | (with_reducible refine Touch.change fun _ => ?_); rfl
    | split

theorem opUnsubscribe_only (path src role : Nat) (body : List Nat) : Touches [.subs] (opUnsubscribe path src role body) := by
  unfold opUnsubscribe
  repeat' first
    | (with_reducible first
         | exact Touch.read | exact Touch.ret _ | refine Touch.readThen fun _ => ?_
         | refine Touch.andThen ?_ fun _ => ?_ | refine Touch.cond ?_ ?_)
    | (with_reducible refine Touch.change fun _ => ?_); rfl

theorem ackFrom_only (path src n : Nat) : Touches [.params, .subs, .hostPorts, .out] (ackFrom path src n) := by
  unfold ackFrom
  repeat' first
    | (with_reducible first
         | exact Touch.read | exact (deliverSlot_only ..).wider (by decide) | refine Touch.readThen fun _ => ?_
         | refine Touch.andThen ?_ fun _ => ?_ | refine Touch.cond ?_ ?_ | refine Touch.each _ fun _ => ?_)
    | (with_reducible refine Touch.change fun _ => ?_); rfl

theorem resumeSlots_only (path src : Nat) : Touches [.params, .subs, .hostPorts, .out] (resumeSlots path src) := by
  unfold resumeSlots
  repeat' first
    | (with_reducible first
         | exact Touch.read | exact (sendRecords_only ..).wider (by decide) | exact (deliverSlot_only ..).wider (by decide)
         | refine Touch.readThen fun _ => ?_ | refine Touch.andThen ?_ fun _ => ?_
         | refine Touch.each _ fun _ => ?_)
    | (with_reducible refine Touch.change fun _ => ?_); rfl

theorem opEventAck_only (path src : Nat) (body : List Nat) : Touches [.params, .subs, .hostPorts, .out] (opEventAck path
    src body) := by
  unfold opEventAck
  repeat' first
    | (with_reducible first
         | exact Touch.ret _ | exact (ackFrom_only ..).wider (by decide) | refine Touch.andThen ?_ fun _ => ?_
         | refine Touch.cond ?_ ?_)

theorem eventResend_only (slot : Nat) : Touches [.subs, .out] (eventResend slot) := by
  unfold eventResend
  repeat' first
    | (with_reducible first
         | exact Touch.skip | exact Touch.read | exact (sendRecords_only ..).wider (by decide)
         | refine Touch.readThen fun _ => ?_ | refine Touch.andThen ?_ fun _ => ?_
         | refine Touch.cond ?_ ?_)
    | (with_reducible refine Touch.change fun _ => ?_); rfl
    | split

theorem opDiscover_only (path : Nat) : Touches [] (opDiscover path) := by
  unfold opDiscover
  repeat' first
    | (with_reducible first
         | exact Touch.read | exact Touch.ret _ | refine Touch.readThen fun _ => ?_
         | refine Touch.andThen ?_ fun _ => ?_ | refine Touch.cond ?_ ?_)

theorem performOp_only (path src : Nat) (x : Option Session) (island : Bool) (p : Pdu) : Touches (Piece.allBut [.pending])
    (performOp path src x island p) := by
  unfold performOp
  repeat' first
    | (with_reducible first
         | exact Touch.read | exact Touch.ret _ | exact (opRead_only ..).wider (by decide) | exact (opWrite_only ..).wider (by decide)
         | exact (opBlobRead_only ..).wider (by decide) | exact (opBlobWrite_only ..).wider (by decide) | exact (opChallenge_only ..).wider (by decide) | exact (sessionClose_only ..).wider (by decide)
         | exact (opSubscribe_only ..).wider (by decide) | exact (opUnsubscribe_only ..).wider (by decide) | exact (opEventAck_only ..).wider (by decide) | exact (opDiscover_only ..).wider (by decide)
         | refine Touch.readThen fun _ => ?_ | refine Touch.andThen ?_ fun _ => ?_
         | refine Touch.cond ?_ ?_)
    | split

theorem answer_only (path src : Nat) (q : Pdu) : Touches [.params, .hostPorts, .life, .elo, .out] (answer path src q) := by
  unfold answer
  repeat' first
    | (with_reducible first
         | exact (bump_only ..).wider (by decide) | exact (deliver_only ..).wider (by decide) | refine Touch.andThen ?_ fun _ => ?_)

theorem sessionRequest_only (path src : Nat) (x : Session) (island : Bool) (p : Pdu) : Touches (Piece.allBut [.pending])
    (sessionRequest path src x island p) := by
  unfold sessionRequest
  repeat' first
    | (with_reducible first
         | exact Touch.skip | exact Touch.read | exact (putSession_only ..).wider (by decide) | exact (deliver_only ..).wider (by decide)
         | exact (bump_only ..).wider (by decide) | exact (answer_only ..).wider (by decide) | exact (performOp_only ..).wider (by decide) | refine Touch.readThen fun _ => ?_
         | refine Touch.andThen ?_ fun _ => ?_ | refine Touch.cond ?_ ?_)
    | split

theorem receivePdu_only (path src : Nat) (p : Pdu) : Touches (Piece.allBut [.pending]) (receivePdu path src p) := by
  unfold receivePdu
  repeat' first
    | (with_reducible first
         | exact Touch.skip | exact Touch.read | exact (bump_only ..).wider (by decide) | exact (resumeSlots_only ..).wider (by decide)
         | exact (answer_only ..).wider (by decide) | exact (performOp_only ..).wider (by decide) | exact (opLogin_only ..).wider (by decide) | exact (sessionRequest_only ..).wider (by decide)
         | refine Touch.readThen fun _ => ?_ | refine Touch.andThen ?_ fun _ => ?_
         | refine Touch.onlyIf _ ?_ | refine Touch.cond ?_ ?_)
    | split

theorem pduRow_only (op path src : Nat) (p : Pdu) : Touches (Piece.allBut [.pending]) (pduRow op path src p) := by
  unfold pduRow
  repeat' first
    | (with_reducible first
         | exact Touch.skip | exact (receivePdu_only ..).wider (by decide) | refine Touch.andThen ?_ fun _ => ?_
         | refine Touch.cond ?_ ?_)

theorem persistCommit_only : Touches [.params, .elo] persistCommit := by
  unfold persistCommit
  repeat' first
    | (with_reducible first
         | exact Touch.skip | exact Touch.read | exact (commitFlash_only ..).wider (by decide)
         | refine Touch.readThen fun _ => ?_ | refine Touch.andThen ?_ fun _ => ?_
         | refine Touch.cond ?_ ?_)

/-! ## Host -/

theorem windowBack_only (h : Nat) : Touches [.mem, .poison, .ecc, .params, .hostPorts, .insts, .dead, .out] (windowBack h) := by
  unfold windowBack
  repeat' first
    | (with_reducible first
         | exact Touch.skip | exact Touch.read | exact (moveSpill_only ..).wider (by decide) | exact (cplVector_only ..).wider (by decide)
         | refine Touch.readThen fun _ => ?_ | refine Touch.andThen ?_ fun _ => ?_
         | refine Touch.cond ?_ ?_ | refine Touch.each _ fun _ => ?_)

theorem changePort_only (h : Nat) (f : HostPort → HostPort) : Touches [.mem, .poison, .ecc, .params, .engines, .hostPorts,
    .insts, .dead, .hostReads, .out] (changePort h f) := by
  unfold changePort
  repeat' first
    | (with_reducible first
         | exact Touch.read | exact (setHostPort_only ..).wider (by decide) | exact (windowLost_only ..).wider (by decide) | exact (windowBack_only ..).wider (by decide)
         | refine Touch.readThen fun _ => ?_ | refine Touch.andThen ?_ fun _ => ?_
         | refine Touch.onlyIf _ ?_)

theorem portReset_only (h : Nat) : Touches [.mem, .poison, .ecc, .params, .engines, .hostPorts, .insts, .dead, .hostReads,
    .out] (portReset h) := by
  unfold portReset
  repeat' first
    | (with_reducible first
         | exact (bump_only ..).wider (by decide) | exact (changePort_only ..).wider (by decide) | refine Touch.andThen ?_ fun _ => ?_)

theorem functionLevelReset_only (h : Nat) : Touches [.mem, .poison, .ecc, .params, .engines, .hostPorts, .insts, .dead,
    .hostReads, .out] (functionLevelReset h) := by
  unfold functionLevelReset
  repeat' first
    | (with_reducible first
         | exact Touch.read | exact (portReset_only ..).wider (by decide) | refine Touch.readThen fun _ => ?_
         | refine Touch.andThen ?_ fun _ => ?_ | refine Touch.onlyIf _ ?_)

theorem surpriseDown_only (h : Nat) : Touches [.params, .engines, .hostPorts, .hostReads] (surpriseDown h) := by
  unfold surpriseDown
  repeat' first
    | (with_reducible first
         | exact Touch.skip | exact Touch.read | exact (bump_only ..).wider (by decide) | exact (portDown_only ..).wider (by decide)
         | refine Touch.readThen fun _ => ?_ | refine Touch.andThen ?_ fun _ => ?_
         | refine Touch.cond ?_ ?_)

theorem perstN_only (h : Nat) (low : Bool) : Touches [.mem, .poison, .ecc, .params, .engines, .hostPorts, .insts, .dead,
    .hostReads, .out] (perstN h low) := by
  unfold perstN
  repeat' first
    | (with_reducible first
         | exact Touch.skip | exact Touch.read | exact (portReset_only ..).wider (by decide) | exact (setHostPort_only ..).wider (by decide)
         | exact (portDown_only ..).wider (by decide) | refine Touch.readThen fun _ => ?_ | refine Touch.andThen ?_ fun _ => ?_
         | refine Touch.cond ?_ ?_)

theorem hostLinkUp_only (h width rate : Nat) (flit cxl again : Bool) : Touches [.mem, .poison, .ecc, .params, .engines,
    .hostPorts, .insts, .dead, .hostReads, .out] (hostLinkUp h width rate flit cxl again) := by
  unfold hostLinkUp
  repeat' first
    | (with_reducible first
         | exact Touch.skip | exact Touch.read | exact (portReset_only ..).wider (by decide) | exact (changePort_only ..).wider (by decide)
         | refine Touch.readThen fun _ => ?_ | refine Touch.andThen ?_ fun _ => ?_
         | refine Touch.onlyIf _ ?_ | refine Touch.cond ?_ ?_)

theorem sendPending_only (h : Nat) : Touches [.hostPorts, .out] (sendPending h) := by
  unfold sendPending
  repeat' first
    | (with_reducible first
         | exact Touch.skip | exact Touch.read | exact (setHostPort_only ..).wider (by decide) | exact (emit_only ..).wider (by decide)
         | refine Touch.readThen fun _ => ?_ | refine Touch.andThen ?_ fun _ => ?_
         | refine Touch.cond ?_ ?_ | refine Touch.each _ fun _ => ?_)

theorem configurationWrite_only (h : Nat) (w : ConfigWrite) : Touches [.mem, .poison, .ecc, .params, .engines, .hostPorts,
    .insts, .dead, .hostReads, .out] (configurationWrite h w) := by
  unfold configurationWrite
  repeat' first
    | (with_reducible first
         | exact Touch.skip | exact Touch.read | exact (changePort_only ..).wider (by decide) | exact (setHostPort_only ..).wider (by decide)
         | exact (sendPending_only ..).wider (by decide) | refine Touch.readThen fun _ => ?_ | refine Touch.andThen ?_ fun _ => ?_
         | refine Touch.cond ?_ ?_)
    | split

theorem portAccess_only {l : List Piece} (hl : [.hostPorts].all l.contains = true) (h : Nat) (m : M Unit) (hm : Touches l
    m) : Touches l (portAccess h m) := by
  unfold portAccess
  repeat' first
    | (with_reducible first
         | exact Touch.skip | exact Touch.read | exact hm | exact (setHostPort_only ..).wider (wide_trans (by decide) hl)
         | refine Touch.readThen fun _ => ?_ | refine Touch.andThen ?_ fun _ => ?_
         | refine Touch.cond ?_ ?_)

theorem highHalfRead_only (h off : Nat) : Touches [.hostPorts, .out] (highHalfRead h off) := by
  unfold highHalfRead
  repeat' first
    | (with_reducible first
         | exact Touch.read | refine portAccess_only (by decide) (hm := ?_) .. | exact (emit_only ..).wider (by decide)
         | refine Touch.readThen fun _ => ?_)

theorem lowHalfRead_only (h off n : Nat) : Touches [.hostPorts, .out] (lowHalfRead h off n) := by
  unfold lowHalfRead
  repeat' first
    | (with_reducible first
         | exact Touch.read | exact (highHalfRead_only ..).wider (by decide) | refine portAccess_only (by decide) (hm := ?_) ..
         | exact (setHostPort_only ..).wider (by decide) | exact (emit_only ..).wider (by decide) | refine Touch.readThen fun _ => ?_
         | refine Touch.andThen ?_ fun _ => ?_ | refine Touch.onlyIf _ ?_ | refine Touch.cond ?_ ?_)

theorem writeImage_only (key n v : Nat) : Touches (Piece.allBut [.pending]) (writeImage key n v) := by
  unfold writeImage
  repeat' first
    | (with_reducible first
         | exact Touch.skip | exact Touch.read | exact (writeAll_only ..).wider (by decide) | refine Touch.readThen fun _ => ?_
         | refine Touch.andThen ?_ fun _ => ?_ | refine Touch.cond ?_ ?_)

theorem writeRegister_only (h off : Nat) (part : RegPart) (v : Nat) : Touches (Piece.allBut [.pending]) (writeRegister h
    off part v) := by
  unfold writeRegister
  repeat' first
    | (with_reducible first
         | exact Touch.skip | exact Touch.read | exact (bump_only ..).wider (by decide) | exact (setHostPort_only ..).wider (by decide)
         | exact (changePort_only ..).wider (by decide) | exact (writeImage_only ..).wider (by decide) | refine Touch.readThen fun _ => ?_
         | refine Touch.andThen ?_ fun _ => ?_ | refine Touch.onlyIf _ ?_ | refine Touch.cond ?_ ?_)

theorem writeMsix_only (h off : Nat) (data : List Nat) : Touches [.hostPorts, .out] (writeMsix h off data) := by
  unfold writeMsix
  repeat' first
    | (with_reducible first
         | exact (setHostPort_only ..).wider (by decide) | exact (sendPending_only ..).wider (by decide))
    | (with_reducible first
         | refine Touch.andThen ?_ fun _ => ?_)

theorem registerWrite_only (h off : Nat) (data : List Nat) : Touches (Piece.allBut [.pending]) (registerWrite h off data) := by
  unfold registerWrite
  repeat' first
    | (with_reducible first
         | exact Touch.skip | refine portAccess_only (by decide) (hm := ?_) .. | exact (setHostPort_only ..).wider (by decide)
         | exact (writeMsix_only ..).wider (by decide) | exact (writeRegister_only ..).wider (by decide) | refine Touch.andThen ?_ fun _ => ?_
         | refine Touch.cond ?_ ?_)

theorem powerCapWrite_only (h : Nat) (part : RegPart) (v : Nat) : Touches (Piece.allBut [.pending]) (powerCapWrite h part
    v) := by
  unfold powerCapWrite
  repeat' first
    | (with_reducible first
         | exact Touch.read | refine portAccess_only (by decide) (hm := ?_) .. | exact (bump_only ..).wider (by decide) | exact (writeImage_only ..).wider (by decide)
         | refine Touch.readThen fun _ => ?_ | refine Touch.andThen ?_ fun _ => ?_
         | refine Touch.onlyIf _ ?_ | refine Touch.cond ?_ ?_)

theorem fltPendingWrite_only (h : Nat) (part : RegPart) (v : Nat) : Touches [.hostPorts, .fltPending] (fltPendingWrite h part v) := by
  unfold fltPendingWrite
  exact portAccess_only (by decide) h _ (Touch.onlyIf _ (Touch.change fun _ => rfl))

theorem mailboxDoorbell_only (h : Nat) (part : RegPart) (v : Nat) : Touches (Piece.allBut [.pending]) (mailboxDoorbell h
    part v) := by
  unfold mailboxDoorbell
  repeat' first
    | (with_reducible first
         | exact Touch.skip | exact Touch.read | refine portAccess_only (by decide) (hm := ?_) .. | exact (bump_only ..).wider (by decide)
         | exact (setHostPort_only ..).wider (by decide) | exact (receivePdu_only ..).wider (by decide) | exact (answer_only ..).wider (by decide)
         | refine Touch.readThen fun _ => ?_ | refine Touch.andThen ?_ fun _ => ?_
         | refine Touch.cond ?_ ?_)
    | split

theorem mailboxEventAck_only (h : Nat) (part : RegPart) (v : Nat) : Touches [.params, .subs, .hostPorts, .out]
    (mailboxEventAck h part v) := by
  unfold mailboxEventAck
  repeat' first
    | (with_reducible first
         | exact Touch.skip | refine portAccess_only (by decide) (hm := ?_) .. | exact (setHostPort_only ..).wider (by decide) | exact (ackFrom_only ..).wider (by decide)
         | refine Touch.andThen ?_ fun _ => ?_ | refine Touch.cond ?_ ?_)

theorem doorbell_only {l : List Piece} (hl : [.params, .hostPorts].all l.contains = true) (h p : Nat) (m : M Unit) (hm :
    Touches l m) : Touches l (doorbell h p m) := by
  unfold doorbell
  repeat' first
    | (with_reducible first
         | exact Touch.read | exact hm | refine portAccess_only (wide_trans (by decide) hl) (hm := ?_) .. | exact (bump_only ..).wider (wide_trans (by decide) hl)
         | refine Touch.readThen fun _ => ?_ | refine Touch.andThen ?_ fun _ => ?_
         | refine Touch.cond ?_ ?_)

theorem countDoorbell_only (p door done size v : Nat) : Touches [.params, .doors] (countDoorbell p door done size v) := by
  unfold countDoorbell
  repeat' first
    | (with_reducible first
         | exact Touch.read | exact (bump_only ..).wider (by decide) | exact (setDoor_only ..).wider (by decide) | refine Touch.readThen fun _ => ?_
         | refine Touch.andThen ?_ fun _ => ?_)

theorem requestDoorbell_only (h p : Nat) (part : RegPart) (v : Nat) : Touches [.params, .hostPorts, .doors]
    (requestDoorbell h p part v) := by
  unfold requestDoorbell
  repeat' first
    | (with_reducible first
         | exact Touch.read | refine doorbell_only (by decide) (hm := ?_) .. | exact (countDoorbell_only ..).wider (by decide)
         | refine Touch.readThen fun _ => ?_ | refine Touch.andThen ?_ fun _ => ?_
         | refine Touch.onlyIf _ ?_)

theorem cancelDoorbell_only (h p : Nat) (part : RegPart) (v : Nat) : Touches [.params, .hostPorts, .doors] (cancelDoorbell
    h p part v) := by
  unfold cancelDoorbell
  repeat' first
    | (with_reducible first
         | exact Touch.read | refine doorbell_only (by decide) (hm := ?_) .. | exact (countDoorbell_only ..).wider (by decide)
         | refine Touch.readThen fun _ => ?_ | refine Touch.andThen ?_ fun _ => ?_
         | refine Touch.onlyIf _ ?_)

theorem completionDoorbell_only (h p : Nat) (part : RegPart) (v : Nat) : Touches [.mem, .poison, .ecc, .params, .hostPorts,
    .doors, .insts, .dead] (completionDoorbell h p part v) := by
  unfold completionDoorbell
  repeat' first
    | (with_reducible first
         | exact Touch.skip | refine doorbell_only (by decide) (hm := ?_) .. | exact (setDoor_only ..).wider (by decide) | exact (moveSpill_only ..).wider (by decide)
         | refine Touch.andThen ?_ fun _ => ?_ | refine Touch.cond ?_ ?_)

theorem controlDoorbell_only (h p : Nat) (part : RegPart) (v : Nat) : Touches [.mem, .poison, .ueFull, .ecc, .params, .eff,
    .ctxs, .streams, .heldCtl, .engines, .rel, .win, .dieCopies, .slots, .codecRefs, .faultLog, .flashDue, .hostPorts, .doors, .fltPending, .dead, .xferWait] (controlDoorbell h p part v) := by
  unfold controlDoorbell
  repeat' first
    | (with_reducible first
         | exact Touch.skip | exact Touch.read | refine doorbell_only (by decide) (hm := ?_) .. | exact (countDoorbell_only ..).wider (by decide)
         | exact (passNops_only ..).wider (by decide) | refine Touch.readThen fun _ => ?_ | refine Touch.andThen ?_ fun _ => ?_
         | refine Touch.cond ?_ ?_)

theorem commandDoorbell_only (h p : Nat) (part : RegPart) (v : Nat) : Touches [.params, .streams, .hostPorts, .doors]
    (commandDoorbell h p part v) := by
  unfold commandDoorbell
  repeat' first
    | (with_reducible first
         | exact Touch.skip | exact Touch.read | refine doorbell_only (by decide) (hm := ?_) .. | exact (bump_only ..).wider (by decide)
         | exact (cmdDoorbell_only ..).wider (by decide) | exact (setDoor_only ..).wider (by decide) | refine Touch.readThen fun _ => ?_
         | refine Touch.andThen ?_ fun _ => ?_ | refine Touch.cond ?_ ?_)
    | split

theorem bar2Read_only (h off n : Nat) : Touches [.poison, .ueFull, .ecc, .params, .rel, .win, .dieCopies, .faultLog,
    .flashDue, .hostPorts, .fltPending, .out] (bar2Read h off n) := by
  unfold bar2Read
  repeat' first
    | (with_reducible first
         | exact Touch.read | exact Touch.ret _ | refine portAccess_only (by decide) (hm := ?_) .. | exact (bump_only ..).wider (by decide)
         | exact (emit_only ..).wider (by decide) | exact (load_only ..).wider (by decide) | refine Touch.readThen fun _ => ?_
         | refine Touch.andThen ?_ fun _ => ?_ | refine Touch.cond ?_ ?_ | refine Touch.collect _ fun _ => ?_)
    | split

theorem bar2Write_only (h off : Nat) (data : List Nat) (poisoned : Bool) : Touches [.mem, .poison, .ecc, .params,
    .hostPorts, .dead] (bar2Write h off data poisoned) := by
  unfold bar2Write
  repeat' first
    | (with_reducible first
         | exact Touch.skip | exact Touch.read | refine portAccess_only (by decide) (hm := ?_) .. | exact (bump_only ..).wider (by decide)
         | exact (storePoison_only ..).wider (by decide) | exact (store_only ..).wider (by decide) | refine Touch.readThen fun _ => ?_
         | refine Touch.andThen ?_ fun _ => ?_ | refine Touch.cond ?_ ?_ | refine Touch.each _ fun _ => ?_)
    | split

theorem bar2Atomic_only (h off size : Nat) (op : HostAtomic) (a b : Nat) : Touches [.mem, .poison, .ueFull, .ecc, .params,
    .rel, .win, .dieCopies, .faultLog, .flashDue, .hostPorts, .fltPending, .dead, .out] (bar2Atomic h off size op a b) := by
  unfold bar2Atomic
  repeat' first
    | (with_reducible first
         | exact Touch.read | refine portAccess_only (by decide) (hm := ?_) .. | exact (bump_only ..).wider (by decide) | exact (emit_only ..).wider (by decide)
         | exact (load_only ..).wider (by decide) | exact (atomic_only ..).wider (by decide) | refine Touch.readThen fun _ => ?_
         | refine Touch.andThen ?_ fun _ => ?_ | refine Touch.cond ?_ ?_)
    | split

theorem windowData_only (a : Nat) (data : List Nat) (poisoned : Bool) : Touches [.mem, .poison] (windowData a data poisoned) := by
  have bad : ∀ (s t : State) (c : Nat), SameBut [.mem, .poison] s t → SameBut [.mem, .poison] s (t.setWindowBad poisoned c) :=
    fun s t c ht => ht.trans (by unfold State.setWindowBad; split <;> rfl)
  unfold windowData
  exact Touch.change fun s =>
    foldl_keeps (I := SameBut [.mem, .poison] s) _ _ _ (foldl_keeps (I := SameBut [.mem, .poison] s) _ _ _ (by rfl) fun _ _ ht => ht)
      fun _ _ ht => bad _ _ _ ht

theorem readsArrived_only (h : Nat) : Touches [.engines] (readsArrived h) := by
  unfold readsArrived
  repeat' first
    | (with_reducible first
         | refine Touch.andThen ?_ fun _ => ?_)
    | (with_reducible refine Touch.change fun _ => ?_); rfl

theorem hostReadCompletion_only (h a : Nat) (data : List Nat) (poisoned : Bool) : Touches [.mem, .poison, .params,
    .engines, .hostReads] (hostReadCompletion h a data poisoned) := by
  unfold hostReadCompletion
  repeat' first
    | (with_reducible first
         | exact Touch.skip | exact Touch.read | exact (bump_only ..).wider (by decide) | exact (windowData_only ..).wider (by decide)
         | exact (readsArrived_only ..).wider (by decide) | refine Touch.readThen fun _ => ?_ | refine Touch.andThen ?_ fun _ => ?_
         | refine Touch.cond ?_ ?_)
    | (with_reducible refine Touch.change fun _ => ?_); rfl
    | split

theorem completionTimeout_only (h a : Nat) : Touches [.mem, .poison, .params, .engines, .hostReads] (completionTimeout h a) := by
  unfold completionTimeout
  repeat' first
    | (with_reducible first
         | exact Touch.skip | exact Touch.read | exact (bump_only ..).wider (by decide) | exact (windowData_only ..).wider (by decide)
         | exact (readsArrived_only ..).wider (by decide) | refine Touch.readThen fun _ => ?_ | refine Touch.andThen ?_ fun _ => ?_)
    | (with_reducible refine Touch.change fun _ => ?_); rfl
    | split

/-! ## Rows -/

theorem unlessFw_only {l : List Piece} (hl : [].all l.contains = true) (m : M Unit) (hm : Touches l m) : Touches l
    (unlessFw m) := by
  unfold unlessFw
  repeat' first
    | (with_reducible first
         | exact Touch.read | exact hm | refine Touch.readThen fun _ => ?_
         | refine Touch.andThen ?_ fun _ => ?_ | refine Touch.onlyIf _ ?_)

theorem runReport_only (p : Nat) (r : Report) : Touches [.poison, .ueFull, .ecc, .params, .rel, .win, .dieCopies,
    .faultLog, .flashDue, .insts, .fltPending, .out] (runReport p r) := by
  unfold runReport
  repeat' first
    | (with_reducible first
         | exact (ownReport_only ..).wider (by decide) | exact (takeReport_only ..).wider (by decide) | refine Touch.andThen ?_ fun _ => ?_)
    | split

theorem cancelEntry_only (p : Nat) : Touches [.mem, .poison, .ueFull, .ecc, .params, .rel, .win, .dieCopies, .faultLog,
    .flashDue, .doors, .insts, .fltPending, .dead] (cancelEntry p) := by
  unfold cancelEntry
  repeat' first
    | (with_reducible first
         | exact Touch.read | exact (takeCancel_only ..).wider (by decide) | exact (setInst_only ..).wider (by decide)
         | refine Touch.readThen fun _ => ?_ | refine Touch.andThen ?_ fun _ => ?_
         | refine Touch.onlyIf _ ?_)

theorem slotDrained_only (i : Nat) : Touches [.poison, .ueFull, .ecc, .params, .eff, .rel, .win, .dieCopies, .slots,
    .faultLog, .flashDue, .fltPending] (slotDrained i) := by
  unfold slotDrained
  repeat' first
    | (with_reducible first
         | exact Touch.read | exact (emptySlot_only ..).wider (by decide) | refine Touch.readThen fun _ => ?_
         | refine Touch.andThen ?_ fun _ => ?_ | refine Touch.onlyIf _ ?_)

theorem packetOf_only (kinds : List Nat) (chan header : Nat) (data : List Nat) : Touches (Piece.allBut [.pending, .now,
    .mode, .ctxs, .streams, .heldCtl, .phys, .retired, .restores, .vaultLoad, .codecRefs, .codecUnit, .stories, .flashLog, .kvScales, .kvBad, .reelImage, .drain, .tests, .overdue, .meshHits, .engineDumps, .dumps, .dumpRun, .dumpSummary, .peers, .clock, .eth, .hostReads, .bridges, .freeIx]) (packetOf kinds chan header data) := by
  unfold packetOf
  repeat' first
    | (with_reducible first
         | exact (takePacket_only ..).wider (by decide) | refine Touch.andThen ?_ fun _ => ?_ | refine Touch.onlyIf _ ?_)

theorem settleErrors_only : Touches [.ecc, .params, .rel, .win, .dieCopies, .faultLog, .flashDue, .subs, .hostPorts,
    .fltPending, .out] settleErrors := by
  unfold settleErrors
  repeat' first
    | (with_reducible first
         | exact Touch.read | exact (countCorrected_only ..).wider (by decide) | exact (raiseEvent_only ..).wider (by decide)
         | refine Touch.readThen fun _ => ?_ | refine Touch.andThen ?_ fun _ => ?_
         | refine Touch.onlyIf _ ?_ | refine Touch.each _ fun _ => ?_)
    | (with_reducible refine Touch.change fun _ => ?_); rfl

/-! ## Commands -/

/-! ## Commands -/

theorem perform_only {l : List Piece} {m : M Unit} (h : Touches l m) {s t : State} (ht : perform m s = .next t) : SameBut l s t := by
  cases ht; exact h s

theorem performOn_only {l : List Piece} {ok : Bool} {m : M Unit} (h : Touches l m) {s t : State} (ht : performOn ok m s = .next t) :
    SameBut l s t := by
  unfold performOn at ht
  split at ht
  · exact perform_only h ht
  · cases ht; exact SameBut.refl _ _

theorem issuedCommand_only {l : List Piece} (hl : ([.mem, .poison, .ueFull, .ecc, .params, .streams, .engines, .rel, .win, .dieCopies, .codecRefs, .faultLog, .flashDue, .insts, .fltPending, .dead, .power] : List Piece).all l.contains = true) {e op p d : Nat} {watch : Option Watch}
    {mark : Option (Nat × Nat)} {body : Cmd → M End} {args : List Nat} (hb : ∀ c, Touches l (body c)) {s t : State}
    (ht : s.issuedCommand e op p d watch mark body args = .next t) : SameBut l s t := by
  unfold State.issuedCommand at ht
  split at ht <;> cases ht
  · exact runCmd_only hl _ _ hb s
  · exact (holdIssue_only ..).wider (wide_trans (by decide) hl)

theorem engineCommand_only {l : List Piece} (hl : ([.mem, .poison, .ueFull, .ecc, .params, .streams, .engines, .rel, .win, .dieCopies, .codecRefs, .faultLog, .flashDue, .insts, .fltPending, .dead, .power] : List Piece).all l.contains = true) {e op : Nat} {src : CmdSource}
    {body : Cmd → M End} {args : List Nat} (hb : ∀ c, Touches l (body c)) {s t : State}
    (ht : s.engineCommand e op src body args = .next t) : SameBut l s t := by
  unfold State.engineCommand at ht
  split at ht
  · split at ht <;> cases ht
    · exact runCmd_only hl _ _ hb s
    · exact SameBut.refl _ _
  · exact issuedCommand_only hl hb ht
  · cases ht; exact SameBut.refl _ _

theorem layerCommand_only {l : List Piece} (hl : ([.mem, .poison, .ueFull, .ecc, .params, .streams, .engines, .rel, .win, .dieCopies, .codecRefs, .faultLog, .flashDue, .insts, .fltPending, .dead, .power] : List Piece).all l.contains = true) {e op : Nat} {src : CmdSource}
    {body : Cmd → M End} {args : List Nat} (hb : ∀ c, Touches l (body c)) {s t : State}
    (ht : s.layerCommand e op src body args = .next t) : SameBut l s t := by
  unfold State.layerCommand at ht
  split at ht
  · exact engineCommand_only hl hb ht
  · exact engineCommand_only hl hb ht
  · split at ht
    · cases ht; exact SameBut.refl _ _
    · exact issuedCommand_only hl hb ht

theorem kindCommand_only {l : List Piece} (hl : ([.mem, .poison, .ueFull, .ecc, .params, .streams, .engines, .rel, .win, .dieCopies, .codecRefs, .faultLog, .flashDue, .insts, .fltPending, .dead, .power] : List Piece).all l.contains = true) {ok : Kind → Bool} {e op : Nat}
    {src : CmdSource} {body : Cmd → M End} {args : List Nat} (hb : ∀ c, Touches l (body c)) {s t : State}
    (ht : s.kindCommand ok e op src body args = .next t) : SameBut l s t := by
  unfold State.kindCommand at ht
  split at ht
  · split at ht
    · exact layerCommand_only hl hb ht
    · cases ht; exact SameBut.refl _ _
  · cases ht; exact SameBut.refl _ _

end Sys2Proof.Machine
end

