-- ==== Sys2Proof/Laws/Quiet.lean ====
section
/-! SUPPORT. What the ways into the module change where they set no other command off: the Eloaphor requests, operation by operation,
the host's register writes, and the ends of a boot, a dump and the power. -/
namespace Sys2Proof.Machine

/-! ## Rules for one state, one branch and one list -/

theorem Touch.when {α : Type} {l : List Piece} {c : Prop} [Decidable c] {m k : M α} (hm : c → Touches l m) (hk : ¬c → Touches l k) :
    Touches l (if c then m else k) := by
  split
  · exact hm ‹_›
  · exact hk ‹_›

theorem Touch.eachMem {α : Type} {l : List Piece} (xs : List α) {k : α → M Unit} (hk : ∀ a ∈ xs, Touches l (k a)) :
    Touches l (Machine.each xs k) := by
  induction xs with
  | nil => exact Touch.skip
  | cons x t ih => exact Touch.andThen (hk x (by simp)) fun _ => ih fun a ha => hk a (by simp [ha])

theorem Touch.readAt {α : Type} {l : List Piece} {k : State → M α} {s : State} (hk : Touches l (k s)) :
    SameBut l s ((get >>= k) s).2 := hk s

/-- An access of a port that is up keeps the request buffer. -/
theorem portAccess_at {l : List Piece} (hl : [.hostPorts].all l.contains = true) (h : Nat) (m : M Unit) (s : State)
    (hm : ∀ t, (t.hostPort h).req = (s.hostPort h).req → SameBut l t (m t).2) : SameBut l s (portAccess h m s).2 := by
  have e : portAccess h m s = (if (s.hostPort h).up then (do setHostPort h fun q => { q with latch := none }; m) else skip : M Unit) s :=
    rfl
  rw [e]
  split
  · exact SameBut.trans (Touches.wider (setHostPort_only h fun q => { q with latch := none }) hl s)
      (hm _ (by
        change ((s.setHostPort h { s.hostPort h with latch := none }).hostPort h).req = _
        rw [State.hostPort_setHostPort_same]))
  · rfl

/-! ## Writes of parameters that are no commands -/

abbrev writePieces : List Piece := [.params, .eff, .subs, .clock, .power, .life, .elo]

/-- A write of several parameters, by what each write brings with it. -/
theorem writeAll_with {m : List Piece} (hm : [.params, .subs, .elo].all m.contains = true) (path : Nat) (items : List (Nat × List Nat))
    (hp : ∀ x ∈ items, QuietKey x.1 ∧ ∀ old, Touches m (followWrite x.1 old)) : Touches m (writeAll path items) := by
  unfold writeAll
  refine Touch.readThen fun s => ?_
  extract_lets l old
  have hl : ∀ x ∈ l, QuietKey x.1 ∧ ∀ old, Touches m (followWrite x.1 old) := by
    intro x hx
    cases hv : s.vaultLoad with
    | none => simp only [l, hv] at hx; exact hp x hx
    | some v =>
      simp only [l, hv, List.mem_map] at hx
      obtain ⟨y, hy, rfl⟩ := hx
      have := hp y hy
      split <;> exact this
  clear_value l
  have w : ∀ {n : List Piece}, n.all [.params, .subs, .elo].contains = true → n.all m.contains = true := fun h =>
    List.all_eq_true.mpr fun x hx => List.all_eq_true.mp hm x (by simpa using List.all_eq_true.mp h x hx)
  repeat' first
    | (with_reducible first
         | exact Touch.skip | exact Touch.read | exact Touch.ret _ | exact (storeValue_only ..).wider (w (by decide))
         | exact (settleLimits_only ..).wider (w (by decide)) | exact (bump_only ..).wider (w (by decide))
         | refine Touch.readThen fun _ => ?_
         | refine Touch.collect _ fun _ => ?_)
    | (with_reducible refine Touch.eachMem _ fun y hy => ?_)
    | (with_reducible refine Touch.andThen ((hl _ (List.of_mem_zip (List.of_mem_zip hy).1).1).2 _) fun _ => ?_)
    | (with_reducible refine Touch.andThen ?_ fun _ => ?_)
    | split
    | dsimp only
  all_goals
    rename_i hr _
    refine Touch.when (fun h => absurd (of_decide_eq_true h) ((hl _ ?_).1 _ hr)) fun _ => Touch.skip
    exact (List.of_mem_zip (List.of_mem_zip hy).1).1

theorem writeAll_quiet (path : Nat) (items : List (Nat × List Nat)) (hp : ∀ x ∈ items, QuietKey x.1) :
    Touches writePieces (writeAll path items) :=
  writeAll_with (by decide) _ _ fun x hx => ⟨hp x hx, fun _ => (followWrite_only _ _).wider (by decide)⟩

theorem writeImage_with {m : List Piece} (hm : [.params, .subs, .elo].all m.contains = true) (k n v : Nat) (h : QuietKey k)
    (hf : ∀ old, Touches m (followWrite k old)) : Touches m (writeImage k n v) := by
  unfold writeImage
  refine Touch.readThen fun _ => Touch.when (fun _ => Touch.andThen (writeAll_with hm _ _ ?_) fun _ => Touch.skip) fun _ => Touch.skip
  simpa using ⟨h, hf⟩

theorem quiet_cap : QuietKey (pk 0x3010 0) := by intro r hr; revert hr; revert r; decide
theorem quiet_faultIndex : QuietKey (pk 0x7100 2) := by intro r hr; revert hr; revert r; decide
theorem quiet_clapperArm : QuietKey (pk 0x8001 0) := by intro r hr; revert hr; revert r; decide

theorem follow_cap (old : Nat) : Touches [.params, .subs, .power, .life, .elo] (followWrite (pk 0x3010 0) old) := by
  unfold followWrite
  exact Touch.readThen fun _ => Touch.andThen Touch.skip fun _ => Touch.andThen (Touch.onlyIf _ (putLimit_only.wider (by decide))) fun _ =>
    Touch.andThen Touch.skip fun _ => Touch.skip
theorem follow_faultIndex (old : Nat) : Touches [.params, .subs, .elo] (followWrite (pk 0x7100 2) old) := by
  unfold followWrite
  exact Touch.readThen fun _ => Touch.andThen Touch.skip fun _ => Touch.andThen Touch.skip fun _ => Touch.andThen Touch.skip fun _ => Touch.skip
theorem follow_clapperArm (old : Nat) : Touches [.params, .subs, .elo] (followWrite (pk 0x8001 0) old) := by
  unfold followWrite
  exact Touch.readThen fun _ => Touch.andThen Touch.skip fun _ => Touch.andThen Touch.skip fun _ => Touch.andThen Touch.skip fun _ => Touch.skip

theorem powerCapWrite_quiet (h : Nat) (part : RegPart) (v : Nat) : Touches [.params, .subs, .hostPorts, .power, .life, .elo]
    (powerCapWrite h part v) := by
  unfold powerCapWrite
  exact portAccess_only (by decide) _ _ (Touch.readThen fun _ => Touch.cond ((bump_only _ _).wider (by decide))
    (Touch.onlyIf _ ((writeImage_with (by decide) _ _ _ quiet_cap follow_cap).wider (by decide))))

theorem opWrite_quiet (role path : Nat) (island : Bool) (body : List Nat) (h : QuietBody body) :
    Touches writePieces (opWrite role path island body) := by
  unfold opWrite
  cases hb : parseItems 64 body with
  | none => exact Touch.ret _
  | some l =>
    dsimp only
    refine Touch.cond (Touch.andThen (writeAll_quiet _ _ ?_) fun _ => Touch.ret _) (Touch.ret _)
    simp only [List.mem_map]
    rintro x ⟨i, hi, rfl⟩
    exact h l hb i hi

theorem opBlobWrite_quiet (path : Nat) (x : Option Session) (more : Bool) (body : List Nat) (h : QuietBody body) :
    Touches writePieces (opBlobWrite path x more body) := by
  unfold opBlobWrite
  cases hb : parseItems 64 body with
  | none => exact Touch.ret _
  | some l =>
    have hl := h l hb
    rcases l with _ | ⟨i, _ | ⟨j, l⟩⟩
    · exact Touch.ret _
    · have hi := hl i (by simp)
      repeat' first
        | (with_reducible first
             | exact Touch.skip | exact Touch.read | exact Touch.ret _ | exact (putSession_only ..).wider (by decide)
             | (refine writeAll_quiet _ _ ?_; simpa using hi)
             | refine Touch.readThen fun _ => ?_ | refine Touch.andThen ?_ fun _ => ?_ | refine Touch.cond ?_ ?_)
        | split
        | dsimp only
    · exact Touch.ret _

/-! ## Requests -/

/-- What taking a request and answering it changes, whatever its operation does. -/
abbrev askPieces : List Piece := [.params, .subs, .hostPorts, .life, .elo, .out]

theorem sessionRequest_of {l : List Piece} (hl : askPieces.all l.contains = true) (path src : Nat) (x : Session) (island : Bool) (p : Pdu)
    (hop : ∀ y, Touches l (performOp path src y island p)) : Touches l (sessionRequest path src x island p) := by
  unfold sessionRequest
  repeat' first
    | (with_reducible first
         | exact Touch.skip | exact Touch.read | exact (putSession_only ..).wider (wide_trans (by decide) hl)
         | exact (deliver_only ..).wider (wide_trans (by decide) hl) | exact (bump_only ..).wider (wide_trans (by decide) hl)
         | exact (answer_only ..).wider (wide_trans (by decide) hl) | exact hop _
         | refine Touch.readThen fun _ => ?_ | refine Touch.andThen ?_ fun _ => ?_ | refine Touch.cond ?_ ?_)
    | split
    | dsimp only

theorem receivePdu_of {l : List Piece} (hl : askPieces.all l.contains = true) (path src : Nat) (p : Pdu)
    (hop : ∀ y island, Touches l (performOp path src y island p)) : Touches l (receivePdu path src p) := by
  unfold receivePdu
  repeat' first
    | (with_reducible first
         | exact Touch.skip | exact Touch.read | exact (bump_only ..).wider (wide_trans (by decide) hl)
         | exact (resumeSlots_only ..).wider (wide_trans (by decide) hl) | exact (answer_only ..).wider (wide_trans (by decide) hl)
         | exact hop _ _ | exact (opLogin_only ..).wider (wide_trans (by decide) hl) | exact sessionRequest_of hl _ _ _ _ _ fun _ => hop _ _
         | refine Touch.readThen fun _ => ?_ | refine Touch.andThen ?_ fun _ => ?_ | refine Touch.onlyIf _ ?_ | refine Touch.cond ?_ ?_)
    | split
    | dsimp only

theorem pduRow_of {l : List Piece} (hl : askPieces.all l.contains = true) (op path src : Nat) (p : Pdu)
    (hop : p.op = op ∨ op = 1 ∧ opDefined p.op = false → ∀ y island, Touches l (performOp path src y island p)) :
    Touches l (pduRow op path src p) := by
  unfold pduRow
  refine Touch.when (fun h => receivePdu_of hl _ _ _ (hop ?_)) fun _ => Touch.skip
  simpa [Bool.or_eq_true, Bool.and_eq_true] using h

/-- An operation the dictionary does not have changes nothing. -/
theorem performOp_undefined (path src : Nat) (y : Option Session) (island : Bool) (p : Pdu) (h : opDefined p.op = false) :
    Touches [] (performOp path src y island p) := by
  unfold performOp
  refine Touch.cond (Touch.ret _) ?_
  split
  all_goals first
    | exact opDiscover_only _
    | (rename_i e; rw [e] at h; exact absurd h (by decide))


/-- The command of one operation changes what taking a request does, and what the operation does. -/
theorem pduRow_op {l : List Piece} {op path src : Nat} {p : Pdu} (hl : askPieces.all l.contains = true)
    (hop : p.op = op → ∀ y island, Touches l (performOp path src y island p)) : Touches l (pduRow op path src p) :=
  pduRow_of hl _ _ _ _ fun h => by
    rcases h with h | ⟨_, h⟩
    · exact hop h
    · exact fun y i => (performOp_undefined _ _ _ _ _ h).wider rfl

/-- A request whose operation is neither WRITE nor BLOB_WRITE. -/
theorem performOp_asks (path src : Nat) (y : Option Session) (island : Bool) (p : Pdu) (h2 : p.op ≠ 2) (h6 : p.op ≠ 6) :
    Touches (.power :: .freeIx :: askPieces) (performOp path src y island p) := by
  unfold performOp
  refine Touch.cond (Touch.ret _) ?_
  split
  all_goals try (first | exact absurd ‹_› h2 | exact absurd ‹_› h6)
  all_goals repeat' first
    | (with_reducible first
         | exact Touch.ret _ | exact Touch.read | exact (opRead_only ..).wider (by decide) | exact (opBlobRead_only ..).wider (by decide)
         | exact (opChallenge_only ..).wider (by decide) | exact (sessionClose_only ..).wider (by decide)
         | exact (opSubscribe_only ..).wider (by decide) | exact (opUnsubscribe_only ..).wider (by decide)
         | exact (opEventAck_only ..).wider (by decide) | exact (opDiscover_only ..).wider (by decide)
         | refine Touch.andThen ?_ fun _ => ?_)
    | split

theorem performOp_quiet (path src : Nat) (y : Option Session) (island : Bool) (p : Pdu) (h : QuietBody p.body) :
    Touches (.eff :: .clock :: .power :: .freeIx :: askPieces) (performOp path src y island p) := by
  by_cases h2 : p.op = 2
  · unfold performOp
    rw [h2]
    exact Touch.cond (Touch.ret _) ((opWrite_quiet _ _ _ _ h).wider (by decide))
  · by_cases h6 : p.op = 6
    · unfold performOp
      rw [h6]
      exact Touch.cond (Touch.ret _) ((opBlobWrite_quiet _ _ _ _ h).wider (by decide))
    · exact (performOp_asks _ _ _ _ _ h2 h6).wider (by decide)

theorem receivePdu_quiet (path src : Nat) (p : Pdu) (h : QuietBody p.body) :
    Touches (.eff :: .clock :: .power :: .freeIx :: askPieces) (receivePdu path src p) :=
  receivePdu_of (by decide) _ _ _ fun _ _ => performOp_quiet _ _ _ _ _ h

/-! ## Register writes of a host port -/

/-- What a register write changes: with the window's address, what the window shows. -/
abbrev registerPieces : List Piece :=
  [.mem, .poison, .ecc, .params, .engines, .subs, .hostPorts, .insts, .dead, .elo, .hostReads, .out]

theorem mailboxDoorbell_quiet (h : Nat) (part : RegPart) (v : Nat) (s : State)
    (hp : ∀ p, pduOf (getBytes (s.hostPort h).req 0 (clampTo 16 4096 (v % 2 ^ 13))) = some p → QuietBody p.body) :
    SameBut (.eff :: .clock :: .power :: .freeIx :: askPieces) s (mailboxDoorbell h part v s).2 := by
  unfold mailboxDoorbell
  refine portAccess_at (by decide) _ _ _ fun t ht => Touch.readAt ?_
  rw [← ht] at hp
  refine Touch.cond Touch.skip (Touch.cond (Touches.wider (bump_only _ _) (by decide))
    (Touch.andThen (Touches.wider (bump_only _ _) (by decide)) fun _ => Touch.andThen (Touches.wider (setHostPort_only _ _) (by decide)) fun _ => ?_))
  split
  · rename_i p hq
    exact Touch.andThen (receivePdu_quiet _ _ _ (hp p hq)) fun _ => Touches.wider (setHostPort_only _ _) (by decide)
  · exact Touch.andThen (Touches.wider (answer_only _ _ _) (by decide)) fun _ => Touches.wider (setHostPort_only _ _) (by decide)

theorem writeRegister_quiet (h off : Nat) (part : RegPart) (v : Nat) : Touches registerPieces (writeRegister h off part v) := by
  unfold writeRegister
  repeat' first
    | (with_reducible first
         | exact Touch.skip | exact (bump_only ..).wider (by decide) | exact (setHostPort_only ..).wider (by decide) | exact (changePort_only ..).wider (by decide)
         | exact (writeImage_with (by decide) _ _ _ quiet_faultIndex follow_faultIndex).wider (by decide)
         | exact (writeImage_with (by decide) _ _ _ quiet_clapperArm follow_clapperArm).wider (by decide)
         | refine Touch.readThen fun _ => ?_ | refine Touch.andThen ?_ fun _ => ?_ | refine Touch.onlyIf _ ?_ | refine Touch.cond ?_ ?_)
    | dsimp only

theorem registerWrite_quiet (h off : Nat) (data : List Nat) : Touches registerPieces (registerWrite h off data) := by
  unfold registerWrite
  repeat' first
    | (with_reducible first
         | exact Touch.skip | refine portAccess_only (by decide) (hm := ?_) .. | exact (setHostPort_only ..).wider (by decide)
         | exact (writeMsix_only ..).wider (by decide) | exact writeRegister_quiet _ _ _ _ | refine Touch.andThen ?_ fun _ => ?_ | refine Touch.cond ?_ ?_)
    | dsimp only

/-! ## Boot, off and the end of a dump -/

/-- What outlives BOOT, and what outlives OFF: there the Reliability counts are lost (R378). -/
abbrev bootPieces : List Piece := Piece.allBut [.pending, .freeIx, .phys, .rel, .retired, .flashLog, .dumpSummary]
abbrev offPieces : List Piece := Piece.allBut [.pending, .freeIx, .phys, .retired, .flashLog, .dumpSummary]
theorem enterBoot_keeps (last pre : Nat) (keep : Bool) : Touches bootPieces (enterBoot last pre keep) := by
  unfold enterBoot
  repeat' first
    | (with_reducible first
         | exact Touch.read | exact (setMode_only ..).wider (by decide) | exact (setPar_only ..).wider (by decide) | exact (bootCheck_only ..).wider (by decide)
         | exact (setEff_only ..).wider (by decide) | exact (clearVaultAreas_only ..).wider (by decide) | exact (putLimit_only ..).wider (by decide)
         | refine Touch.readThen fun _ => ?_ | refine Touch.andThen ?_ fun _ => ?_
         | refine Touch.each _ fun _ => ?_)
    | (with_reducible refine Touch.change fun _ => ?_); first | rfl | exact SameBut.trans ((State.afresh_only ..).wider (by decide)) rfl | ((repeat' split) <;> rfl)
    | dsimp only
    | (intro _ h; rfl)

theorem goOff_keeps : Touches offPieces goOff := by
  unfold goOff
  repeat' first
    | (with_reducible first
         | exact (setMode_only ..).wider (by decide) | exact vaultInterrupt_only.wider (by decide) | refine Touch.andThen ?_ fun _ => ?_)
    | (with_reducible refine Touch.change fun _ => ?_); exact SameBut.trans ((State.afresh_only ..).wider (by decide)) rfl

theorem restartNow_keeps (keep : Bool) : Touches bootPieces (restartNow keep) := by
  unfold restartNow
  repeat' first
    | (with_reducible first
         | exact Touch.read | exact (sendNotice_only ..).wider (by decide) | exact (commitFlash_only ..).wider (by decide) | exact enterBoot_keeps _ _ _
         | refine Touch.readThen fun _ => ?_ | refine Touch.andThen ?_ fun _ => ?_)
    | dsimp only
theorem moduleRestart_keeps (keep : Bool) : Touches bootPieces (moduleRestart keep) := by
  unfold moduleRestart
  repeat' first
    | (with_reducible first
         | exact Touch.read | exact Touch.skip | exact restartNow_keeps _ | exact (setLife_only ..).wider (by decide)
         | refine Touch.readThen fun _ => ?_ | refine Touch.andThen ?_ fun _ => ?_ | refine Touch.cond ?_ ?_)
    | split
    | dsimp only
theorem safeRelease_keeps (hottest : Int) : Touches bootPieces (safeRelease hottest) := by
  unfold safeRelease
  repeat' first
    | (with_reducible first
         | exact Touch.read | exact Touch.skip | exact restartNow_keeps _
         | refine Touch.readThen fun _ => ?_ | refine Touch.andThen ?_ fun _ => ?_ | refine Touch.cond ?_ ?_)
    | split
    | dsimp only
theorem presRelease_keeps (gap : Nat) : Touches offPieces (presRelease gap) := by
  unfold presRelease
  repeat' first
    | (with_reducible first
         | exact Touch.read | exact Touch.skip | exact goOff_keeps | exact (setLife_only ..).wider (by decide) | exact (setPower_only ..).wider (by decide)
         | refine Touch.readThen fun _ => ?_ | refine Touch.andThen ?_ fun _ => ?_ | refine Touch.cond ?_ ?_ | refine Touch.onlyIf _ ?_)
    | split
    | dsimp only
theorem holdUpExhausted_keeps : Touches offPieces holdUpExhausted := by
  unfold holdUpExhausted
  repeat' first
    | (with_reducible first
         | exact Touch.read | exact Touch.skip | exact goOff_keeps | exact (setPower_only ..).wider (by decide)
         | refine Touch.readThen fun _ => ?_ | refine Touch.andThen ?_ fun _ => ?_ | refine Touch.cond ?_ ?_)
    | split
    | dsimp only
theorem prechargeComplete_keeps (bulk input : Nat) : Touches bootPieces (prechargeComplete bulk input) := by
  unfold prechargeComplete
  repeat' first
    | (with_reducible first
         | exact Touch.read | exact Touch.skip | exact enterBoot_keeps _ _ _ | exact (putVolts_only ..).wider (by decide) | exact (putLimit_only ..).wider (by decide)
         | refine Touch.readThen fun _ => ?_ | refine Touch.andThen ?_ fun _ => ?_ | refine Touch.cond ?_ ?_)
    | split
    | dsimp only
/-- What outlives the end of a dump. -/
abbrev dumpPieces : List Piece := Piece.allBut [.pending, .freeIx, .phys, .rel, .retired, .flashLog]
theorem dumpDone_keeps (late : List Nat) : Touches dumpPieces (dumpDone late) := by
  unfold dumpDone
  refine Touch.andThen (Touches.wider (completeDump_only _) (by decide)) fun _ => Touch.readThen fun s => ?_
  cases s.life.restart with
  | none => exact Touch.skip
  | some v => exact Touch.cond (Touches.wider (restartNow_keeps _) (by decide)) Touch.skip


end Sys2Proof.Machine
end

