-- ==== Sys2Proof/Laws/Shared.lean ====
section
/-! SUPPORT. Laws of the shared operations that the statements rest on: what is left of a state after each, said once. -/
namespace Sys2Proof.Machine
open Sys2Proof

/-! ## The state after a parameter, an engine, a record or a unit has changed -/

theorem State.setPar_params (s : State) (k v : Nat) : (s.setPar k v).params = setC paramDefault s.params k v := rfl

theorem recordFault_params (s : State) (r : FaultRec) (k : Nat) (h1 : k ≠ pk 0x7100 1) (h2 : k ≠ pk 0x8052 13) :
  getC paramDefault (s.recordFault r).params k = getC paramDefault s.params k := State.recordFault_par s r h1 h2

theorem performOn_true {ok : Bool} (m : M Unit) (s : State) (h : ok = true) : performOn ok m s = .next (m s).2 := by
    simp [performOn, h, perform]

@[simp] theorem State.recordFault_log (s : State) (r : FaultRec) : (s.recordFault r).faultLog.getLast? = some (r.word s.now) := by
  unfold State.recordFault
  rw [State.pend_faultLog]
  split <;> simp [State.bump, State.setPar]

theorem pk_ne {a b c d : Nat} (h : a * 256 + b ≠ c * 256 + d) : pk a b ≠ pk c d := h

theorem recordFault_badAt (s : State) (r : FaultRec) (c : Nat) : (s.recordFault r).badAt c = s.badAt c := by
  unfold State.badAt State.dieDead
  rw [State.recordFault_poison, State.recordFault_dead, State.recordFault_dieCopies]

theorem isT0T1_word (x y : Nat) (h : x / 32 = y / 32) : (tierOf x).isT0T1 = (tierOf y).isT0T1 := by
  unfold tierOf
  repeat' split
  all_goals first | (exfalso; omega) | simp only [Tier.isT0T1]

@[simp] theorem recordFault_engine (s : State) (r : FaultRec) (e : Nat) : (s.recordFault r).engine e = s.engine e := by
  unfold State.engine; rw [State.recordFault_engines]

theorem recordFault_inst (s : State) (r : FaultRec) (e : Nat) : (s.recordFault r).inst e = s.inst e := by
  unfold State.inst; rw [State.recordFault_insts]

theorem engine_setEngine (s : State) (e f : Nat) (v : EngineSt) : (s.setEngine e v).engine f = if f = e then v else s.engine f :=
  getC_setC (fun _ => EngineSt.idle) ..

@[simp] theorem setPar_mem (s : State) (k v : Nat) : (s.setPar k v).mem = s.mem := rfl

@[simp] theorem setPar_engine (s : State) (k v e : Nat) : (s.setPar k v).engine e = s.engine e := rfl

@[simp] theorem bump_engine (s : State) (k v e : Nat) : (s.bump k v).engine e = s.engine e := rfl

@[simp] theorem setPhys_engine (s : State) (k v u e n : Nat) : (s.setPhys k v u n).engine e = s.engine e := rfl

@[simp] theorem setEngine_par (s : State) (k : Nat) (e v) : (s.setEngine e v).par k = s.par k := rfl

@[simp] theorem subPhys_setPhys (s : State) (k l u v : Nat) : (s.setPhys k l u v).subPhys k l u = v := by
  simp [State.subPhys, State.setPhys]

@[simp] theorem subPhys_setPar (s : State) (k l u a b : Nat) : (s.setPar a b).subPhys k l u = s.subPhys k l u := rfl

@[simp] theorem subPhys_bump (s : State) (k l u a b : Nat) : (s.bump a b).subPhys k l u = s.subPhys k l u := rfl

@[simp] theorem subPhys_setEngine (s : State) (k l u a b) : (s.setEngine a b).subPhys k l u = s.subPhys k l u := rfl

@[simp] theorem subPhys_recordFault (s : State) (k l u : Nat) (r) : (s.recordFault r).subPhys k l u = s.subPhys k l u := by
  unfold State.subPhys; rw [State.recordFault_phys]
/-! ## What keeps a parameter: events, pennants and the gate -/

theorem nopar {α : Type} {l : List Piece} {m : M α} (h : Touches l m) (hl : l.contains .params = false) (k : Nat) : Keeps (fun s : State
    => s.par k) m := by
  intro s; show getC _ _ _ = getC _ _ _; rw [SameBut.params (h s) hl]

theorem setPar_par' {k j : Nat} (n) (h : k ≠ j) : Keeps (fun s : State => s.par k) (setPar j n) := fun s => State.par_setPar_ne s n h

theorem bump_par' {k j : Nat} (n) (h : k ≠ j) : Keeps (fun s : State => s.par k) (bump j n) := by
  intro s; simp only [run_bump]; split
  · rfl
  · exact State.par_bump_ne s n h

theorem deliverSlot_par (k slot) (h : k ≠ pk 0x8053 5) : Keeps (fun s : State => s.par k) (deliverSlot slot) := by
  unfold deliverSlot
  refine Keep.andThen Keep.read fun s => ?_
  split
  · exact Keep.skip
  · refine Keep.cond Keep.skip (Keep.andThen (Keep.change fun _ => rfl) fun _ => Keep.andThen (bump_par' _ h) fun _ => Keep.cond ?_
      (nopar (sendRecords_only _ _ _) rfl k))
    exact Keep.andThen (Keep.each _ fun _ => nopar (setHostPort_only _ _) rfl k) fun _ => nopar (sendMsix_only _ _) rfl k

theorem raiseEvent_par (k c p f d) (h : k ≠ pk 0x8053 5) (h' : k ≠ pk 0x8053 6) : Keeps (fun s : State => s.par k) (raiseEvent c p f d)
    := by
  have e : ∀ s : State, Keeps (fun s : State => s.par k) (each (s.subs.filter fun u => u.2.path != 0 && bit u.2.mask c && s.delivers c
      u.2.path) fun u => (do
    let v := u.2.push c p f s.now d
    modify fun s => { s with subs := insertAt s.subs u.1 v }
    bump (pk 0x8053 6) (v.dropped - u.2.dropped)
    deliverSlot u.1)) := fun s => Keep.each _ fun _ => Keep.andThen (Keep.change fun _ => rfl) fun _ => Keep.andThen (bump_par' _ h') fun
        _ => deliverSlot_par _ _ h
  unfold raiseEvent
  dsimp only
  split
  · exact Keep.andThen (fun s => by show (s.pend _).par k = s.par k; unfold State.par; rw [State.pend_params]) fun _ => Keep.andThen
      Keep.read fun s => e s
  · exact Keep.andThen Keep.skip fun _ => Keep.andThen Keep.read fun s => e s

theorem setPower_par (k f) : Keeps (fun s : State => s.par k) (setPower f) := fun _ => rfl

theorem gateClose_par (k) (h : k ≠ pk 0x3203 0) : Keeps (fun s : State => s.par k) gateClose := by
  unfold gateClose
  refine Keep.andThen Keep.read fun s => Keep.cond (Keep.andThen (setPar_par' _ h) fun _ => setPower_par _ _) Keep.skip

theorem setPennant_par (k n q) : Keeps (fun s : State => s.par k) (setPennant n q) := fun _ => rfl

theorem accruePennant_par (k n) (h : k ≠ pk (0x3400+n) 1) : Keeps (fun s : State => s.par k) (accruePennant n) := by
  unfold accruePennant
  refine Keep.andThen Keep.read fun s => ?_
  dsimp only
  split
  · exact Keep.skip
  · exact Keep.cond Keep.skip (Keep.andThen (bump_par' _ h) fun _ => setPennant_par _ _ _)

theorem putPennant_par (k n b) (h : k ≠ pk (0x3400+n) 1) (h2 : k ≠ pk (0x3400+n) 2) (h3 : k ≠ pk 0x3203 0) (h4 : k ≠ pk 0x8053 5) (h' : k
    ≠ pk 0x8053 6) : Keeps (fun s : State => s.par k) (putPennant n b) := by
  unfold putPennant
  refine Keep.andThen Keep.read fun s => Keep.cond ?_ (Keep.cond ?_ (accruePennant_par _ _ h))
  · refine Keep.andThen (setPennant_par _ _ _) fun _ => Keep.andThen (setPar_par' _ h2) fun _ => Keep.andThen (raiseEvent_par _ _ _ _ _
      h4 h') fun _ => Keep.onlyIf _ (gateClose_par _ h3)
  · exact Keep.andThen (accruePennant_par _ _ h) fun _ => Keep.andThen Keep.read fun _ => setPennant_par _ _ _

theorem each_keeps_mem {α γ : Type} {f : State → γ} (l : List α) {k : α → M Unit} (hk : ∀ a ∈ l, Keeps f (k a)) : Keeps f (each l k) := by
  induction l with
  | nil => exact Keep.skip
  | cons x t ih => exact Keep.andThen (hk x (by simp)) fun _ => ih fun a ha => hk a (by simp [ha])

/-- keys that the pennants do not touch -/
def noPen (k : Nat) : Bool := ((List.range 9).all fun n => k != pk (0x3400+n) 1 && k != pk (0x3400+n) 2) && k != pk 0x3203 0 && k != pk
    0x8053 5 && k != pk 0x8053 6

theorem putPennants_par (k) (h : noPen k = true) : Keeps (fun s : State => s.par k) putPennants := by
  unfold putPennants
  simp only [noPen, Bool.and_eq_true, List.all_eq_true, bne_iff_ne, ne_eq] at h
  refine Keep.andThen Keep.read fun s => each_keeps_mem _ fun n hn => ?_
  exact putPennant_par k n _ (h.1.1.1 n hn).1 (h.1.1.1 n hn).2 h.1.1.2 h.1.2 h.2

/-- power but pennants and gateSince -/
def PowerSt.core (q : PowerSt) : PowerSt := { q with pennants := [], gateSince := 0 }

theorem raiseEvent_power (c p f d) : Keeps State.power (raiseEvent c p f d) := fun s => (SameBut.power (raiseEvent_only c p f d s) rfl)

theorem putPennants_core : Keeps (fun s : State => s.power.core) putPennants := by
  have hg : Keeps (fun s : State => s.power.core) gateClose := by
    unfold gateClose
    exact Keep.andThen Keep.read fun s => Keep.cond (Keep.andThen (fun s => rfl) fun _ => fun _ => rfl) Keep.skip
  have ha : ∀ n, Keeps (fun s : State => s.power.core) (accruePennant n) := fun n => by
    unfold accruePennant
    refine Keep.andThen Keep.read fun s => ?_
    dsimp only
    split
    · exact Keep.skip
    · refine Keep.cond Keep.skip (Keep.andThen (fun s => ?_) fun _ _ => rfl)
      simp only [run_bump]; split <;> rfl
  have hp : ∀ n b, Keeps (fun s : State => s.power.core) (putPennant n b) := fun n b => by
    unfold putPennant
    refine Keep.andThen Keep.read fun s => Keep.cond ?_ (Keep.cond ?_ (ha _))
    · refine Keep.andThen (fun _ => rfl) fun _ => Keep.andThen (fun s => rfl) fun _ => Keep.andThen (Keep.weaken PowerSt.core
        (raiseEvent_power _ _ _ _)) fun _ => Keep.onlyIf _ hg
    · exact Keep.andThen (ha _) fun _ => Keep.andThen Keep.read fun _ => fun _ => rfl
  unfold putPennants
  exact Keep.andThen Keep.read fun s => Keep.each _ fun n => hp _ _

/-- the limit's inputs -/
theorem putPennants_limit : Keeps State.limit putPennants := by
  intro s
  have hp := fun k h => putPennants_par k h s
  have hc : (putPennants s).2.power.core = s.power.core := putPennants_core s
  have hr : (putPennants s).2.retired = s.retired := SameBut.retired (putPennants_only s) rfl
  generalize (putPennants s).2 = t at *
  have e1 : t.power.coolant = s.power.coolant := (show (t.power.core).coolant = (s.power.core).coolant by rw [hc])
  have e2 : t.power.grant = s.power.grant := (show (t.power.core).grant = (s.power.core).grant by rw [hc])
  have e3 : t.power.supply = s.power.supply := (show (t.power.core).supply = (s.power.core).supply by rw [hc])
  have e4 : t.power.derate = s.power.derate := (show (t.power.core).derate = (s.power.core).derate by rw [hc])
  have e5 : t.power.holdUp = s.power.holdUp := (show (t.power.core).holdUp = (s.power.core).holdUp by rw [hc])
  have p1 : t.par _ = s.par _ := hp (pk 0x1002 0) (by decide)
  have p2 : t.par _ = s.par _ := hp (pk 0x3010 0) (by decide)
  have p3 : t.par _ = s.par _ := hp (pk 0x3102 0) (by decide)
  have p4 : t.par _ = s.par _ := hp (pk 0x3114 0) (by decide)
  have p5 : t.par _ = s.par _ := hp (pk 0x3011 0) (by decide)
  have p6 : t.par _ = s.par _ := hp (pk 0x3002 0) (by decide)
  have p7 : t.par _ = s.par _ := hp (pk 0x3012 0) (by decide)
  simp only [State.limit, State.limitTerms, State.gradeCeiling, State.budgetPennant, State.budgetTerm, State.supplyTerm,
      State.tradeOffset, State.missingPhases, State.failedOf, e1, e2, e3, e4, e5, p1, p2, p3, p4, p5, p6, p7, hr]; rfl
/-! ## Taking a command, and rights of two states that agree -/

theorem setEngine_keeps_par (k e f) : Keeps (fun s : State => s.par k) (setEngine e f) := fun _ => rfl

/-- The parameters that the arbiter's books write. -/
def bookKeys : List Nat :=
  [pk 0x1F00 5, pk 0x8049 7, pk 0x8049 8, pk 0x8049 10, pk 0x8049 9, pk 0x8042 4, pk 0x8042 5]

theorem saveWaits_par {k : Nat} (h : bookKeys.contains k = false) (arm) : Keeps (fun s : State => s.par k) (saveWaits arm) := by
  simp [bookKeys] at h
  unfold saveWaits saveParts
  refine Keep.andThen Keep.read fun s => ?_
  dsimp only
  exact Keep.cond Keep.skip (Keep.andThen (setEngine_keeps_par _ _ _) fun _ => bump_par' _ h.2.1)

theorem noteGrant_par {k : Nat} (h : bookKeys.contains k = false) (arm c) : Keeps (fun s : State => s.par k) (noteGrant arm c) := by
  simp [bookKeys] at h
  unfold noteGrant
  refine Keep.andThen Keep.read fun s => ?_
  dsimp only
  refine Keep.cond (Keep.andThen (Keep.onlyIf _ (bump_par' _ h.2.2.1)) fun _ => setEngine_keeps_par _ _ _)
    (Keep.andThen (Keep.onlyIf _ (setPar_par' _ h.2.2.2.1)) fun _ => setEngine_keeps_par _ _ _)

theorem noteEligible_par {k : Nat} (h : bookKeys.contains k = false) (e p d o n) :
    Keeps (fun s : State => s.par k) (noteEligible e p d o n) := by
  simp [bookKeys] at h
  unfold noteEligible
  refine Keep.andThen Keep.read fun s => Keep.andThen (setEngine_keeps_par _ _ _) fun _ => Keep.andThen (Keep.onlyIf _ (bump_par' _ h.2.2.2.2.1)) fun _ =>
    Keep.andThen (Keep.onlyIf _ (bump_par' _ h.2.2.2.2.2.2)) fun _ => ?_
  split
  · exact Keep.onlyIf _ (Keep.change fun s => by dsimp only; split <;> rfl)
  · exact Keep.skip

theorem startIssued_par {k : Nat} (h : bookKeys.contains k = false) (c : Cmd) : Keeps (fun s : State => s.par k) (startIssued c) := by
  have h' := h
  simp [bookKeys] at h'
  unfold startIssued
  refine Keep.andThen Keep.read fun s => ?_
  dsimp only
  split
  · exact Keep.andThen (Keep.andThen Keep.read fun _ => Keep.onlyIf _ (bump_par' _ h'.2.2.2.2.2.1)) fun _ =>
      Keep.andThen (Keep.onlyIf _ (bump_par' _ h'.2.2.2.2.1)) fun _ => bump_par' _ h'.1
  · exact Keep.andThen (setEngine_keeps_par _ _ _) fun _ => Keep.andThen (Keep.onlyIf _ (noteEligible_par h _ _ _ _ _)) fun _ =>
      bump_par' _ h'.1

theorem startCmd_par {k : Nat} (h : bookKeys.contains k = false) (c : Cmd) : Keeps (fun s : State => s.par k) (startCmd c) := by
  unfold startCmd
  refine Keep.andThen (Keep.onlyIf _ (saveWaits_par h _)) fun _ => Keep.andThen (Keep.onlyIf _ (startIssued_par h c)) fun _ =>
    Keep.andThen (Keep.onlyIf _ (noteGrant_par h _ _)) fun _ => Keep.onlyIf _ (Keep.change fun s => ?_)
  split <;> rfl

theorem SameBut.rights {l : List Piece} {s t : State} (h : SameBut l s t) (h1 : l.contains .eff = false) (h2 : l.contains .places =
    false) (h3 : l.contains .hostPorts = false) : SameRights s t :=
  ⟨h.eff h1, h.places h2, h.hostPorts h3⟩

/-- what a read sees -/
theorem readByte_congr {s t : State} (r : SameRights s t) (hm : t.mem = s.mem) (w : Who) (a : Nat) : t.readByte w a = s.readByte w a := by
  unfold State.readByte
  rw [r.mayAccess, State.byte_congr hm r.ports]
  simp only [r.windowDown]

theorem readVal_congr {s t : State} (r : SameRights s t) (hm : t.mem = s.mem) (w : Who) (a n : Nat) : t.readVal w a n = s.readVal w a n
    := by
  unfold State.readVal; simp only [readByte_congr r hm]

theorem badAt_congr {s t : State} (hp : t.poison = s.poison) (hd : t.dead = s.dead) (hc : t.dieCopies = s.dieCopies) (c : Nat) : t.badAt
    c = s.badAt c := by
  unfold State.badAt State.dieDead; rw [hp, hd, hc]

theorem badCodewords_congr {s t : State} (r : SameRights s t) (hp : t.poison = s.poison) (hd : t.dead = s.dead) (hc : t.dieCopies =
    s.dieCopies)
   (w : Who) (a n : Nat) : t.badCodewords w a n = s.badCodewords w a n := by
  unfold State.badCodewords State.dieDead; simp only [hp, hd, hc, r.mayAccess]

theorem flawed_congr {s t : State} (r : SameRights s t) (he : t.ecc = s.ecc) (hp : t.poison = s.poison) (hd : t.dead = s.dead)
    (hc : t.dieCopies = s.dieCopies) (w : Who) (a n : Nat) : t.flawed w a n = s.flawed w a n := by
  unfold State.flawed; simp only [he, badAt_congr hp hd hc, r.mayAccess]

theorem changes_congr {s t : State} (r : SameRights s t) (hp : t.poison = s.poison) (hd : t.dead = s.dead) (hc : t.dieCopies = s.dieCopies)
   (w : Who) (a n x : Nat) : t.changes w a n x = s.changes w a n x := by
  unfold State.changes State.coversWord; rw [r.writable, r.mayAll, badAt_congr hp hd hc]

/-- A command of a stream that is taken runs. -/
theorem engineCommand_taken {s : State} {e op p x : Nat} {c : Cmd} {body : Cmd → M End} {args : List Nat}
    (h : s.taken e op (.stream p x) = some c) :
    s.engineCommand e op (.stream p x) body args = .next (runCmd { c with args := args } body s).2 := by
  unfold State.engineCommand; rw [h]

/-- A command that the Director issues, and that its engine takes, runs. -/
theorem issuedCommand_taken {s : State} {e op p d : Nat} {w : Option Watch} {m : Option (Nat × Nat)} {c : Cmd} {body : Cmd → M End}
    {args : List Nat} (h : s.takenIssued e op p d w m = some c) :
    s.issuedCommand e op p d w m body args = .next (runCmd { c with args := args } body s).2 := by
  unfold State.issuedCommand; rw [h]

/-- The cue of a command that completes: the word it adds to, and no other byte. -/
theorem signalCue_none (w : Who) (add : Nat) (s : State) : (signalCue w 0 add s).2 = s := rfl

theorem signalCue_out (w : Who) {a : Nat} (add : Nat) (s : State) (h0 : a ≠ 0) (h : s.atomicOk w.cueOf a = false) :
   (signalCue w a add s).2 = s.bump (pk 0x8042 4) 1 := by
  unfold signalCue
  simp [h0, h]

theorem signalCue_adds (w : Who) {a : Nat} (add : Nat) (s : State) (h0 : a ≠ 0) (h : s.atomicOk w.cueOf a = true)
   (hf : s.flawed w.cueOf a 8 = []) (hm : s.mayAll w.cueOf true a 8 = true) (hg : s.badAt (a / 32) = false) (hb : s.badCodewords w.cueOf a 8 = []) (hw : ∀ x, x < 8 →
       s.writable w.cueOf (a + x) = true) :
   ∀ x, x < 0x800000000000 → (signalCue w a add s).2.byte x =
     if a ≤ x ∧ x < a + 8 then BitVec.ofNat 8 ((s.readVal w.cueOf a 8 + add) % 2 ^ 64 / 256 ^ (x - a)) else s.byte x := by
  intro x hx
  have e : (signalCue w a add s).2 = State.storeBytes w.cueOf 9 (load w.cueOf a 8 s).2 a (toBytes ((s.readVal w.cueOf a 8 + add) % 2 ^
      64) 8) := by
    unfold signalCue atomic
    have : (a == 0) = false := by simpa using h0
    simp only [↓run_get_bind, this, h, if_true, run_bind, run_ite, load_answers w.cueOf a 8 s hf hb, List.isEmpty_nil, Bool.and_self]
    rfl
  obtain ⟨l1, l2⟩ := load_spec w.cueOf a 8 s hf hb
  rw [e]
  have hl : (toBytes ((s.readVal w.cueOf a 8 + add) % 2 ^ 64) 8).length = 8 := rfl
  obtain ⟨m, b, _⟩ := State.storeBytes_spec w.cueOf 9 (load w.cueOf a 8 s).2 a _ (by omega : (toBytes ((s.readVal w.cueOf a 8 + add) % 2
      ^ 64) 8).length ≤ 9)
  rw [b x hx, hl]
  have hr : SameRights s (load w.cueOf a 8 s).2 := by constructor <;> rw [l1]
  rw [changes_congr hr (by rw [l1]) (by rw [l1]) (by rw [l1]), State.byte_congr (s := s) (t := (load w.cueOf a 8 s).2) (by rw [l1]) (by
      rw [l1])]
  have hal : a % 8 = 0 := by simp [State.atomicOk] at h; exact h.1.1.1
  by_cases hx2 : a ≤ x ∧ x < a + 8
  · have : s.changes w.cueOf a 8 x = true := by
      simp only [State.changes, Bool.and_eq_true, decide_eq_true_eq]
      refine ⟨⟨hx2, ?_⟩, ?_⟩
      · have := hw (x - a) (by omega); rwa [show a + (x - a) = x by omega] at this
      · rw [show x / 32 = a / 32 by omega, hg]; simp
    rw [if_pos this, if_pos hx2]
    have hlt : x - a < 8 := by omega
    generalize (s.readVal w.cueOf a 8 + add) % 2 ^ 64 = v
    generalize x - a = i at *
    have : i = 0 ∨ i = 1 ∨ i = 2 ∨ i = 3 ∨ i = 4 ∨ i = 5 ∨ i = 6 ∨ i = 7 := by omega
    rcases this with h | h | h | h | h | h | h | h <;> subst h <;>
      simp [toBytes, ← BitVec.toNat_inj, Nat.shiftRight_eq_div_pow, Nat.div_div_eq_div_mul]
  · have hc : ¬ s.changes w.cueOf a 8 x = true := fun hc => by
      simp only [State.changes, Bool.and_eq_true, decide_eq_true_eq] at hc
      exact hx2 hc.1.1
    rw [if_neg hx2, if_neg hc]
/-! ## Reading, copying and the parameters that they count in -/

theorem runCmd_eq (c : Cmd) (body : Cmd → M End) (s : State) :
    (runCmd c body s).2 = (endFirst c ((startCmd c s).2.engine c.arm).units (body c (startCmd c s).2).1 (body c (startCmd c s).2).2).2 := rfl

theorem changes_all {s : State} {w : Who} {a n : Nat} (h32 : a % 32 = 0) (hn : n % 32 = 0) (hm : s.mayAll w true a n = true)
    (hw : ∀ h, ∀ x, a ≤ x → x < a + n → tierOf x = .host h → s.windowDown h = false) (x : Nat) :
    s.changes w a n x = true ↔ (a ≤ x ∧ x < a + n) := by
  have acc : ∀ y, a ≤ y → y < a + n → s.mayAccess w true y = true := fun y h1 h2 => by
    have := List.all_eq_true.mp hm (y - a) (List.mem_range.mpr (by omega))
    rwa [show a + (y - a) = y by omega] at this
  simp only [State.changes, Bool.and_eq_true, decide_eq_true_eq]
  constructor
  · rintro ⟨⟨h, _⟩, _⟩; exact h
  · rintro ⟨h3, h4⟩
    refine ⟨⟨⟨h3, h4⟩, ?_⟩, ?_⟩
    · simp only [State.writable, acc x h3 h4, Bool.true_and]
      split
      · rename_i h hh; simp [hw h x h3 h4 hh]
      · rfl
    · simp only [State.coversWord, State.mayAll, Bool.or_eq_true, Bool.and_eq_true, decide_eq_true_eq, List.all_eq_true, List.mem_range]
      left
      exact ⟨⟨by omega, by omega⟩, fun i hi => acc _ (by omega) (by omega)⟩

theorem ofBytes_lt (l : List Nat) : ofBytes l < 256 ^ l.length := by
  induction l with
  | nil => simp [ofBytes]
  | cons b bs ih => simp only [ofBytes, List.length_cons, Nat.pow_succ]; have := Nat.mod_lt b (show 256 > 0 by decide); omega

theorem toBytes_ofBytes (l : List Nat) : toBytes (ofBytes l) l.length = l.map (· % 256) := by
  induction l with
  | nil => rfl
  | cons b bs ih =>
    simp only [ofBytes, List.length_cons, toBytes, List.map_cons]
    rw [show (b % 256 + 256 * ofBytes bs) % 256 = b % 256 by omega, show (b % 256 + 256 * ofBytes bs) / 256 = ofBytes bs by omega, ih]

theorem readByte_lt (s : State) (w a) : s.readByte w a < 256 := by
  unfold State.readByte
  have := (s.byte a).isLt
  repeat' split
  all_goals omega

theorem toBytes_readVal (s : State) (w a n) : toBytes (s.readVal w a n) n = (List.range n).map fun i => s.readByte w (a + i) := by
  unfold State.readVal
  have := toBytes_ofBytes ((List.range n).map fun i => s.readByte w (a + i))
  simp only [List.length_map, List.length_range] at this
  rw [this]
  simp only [List.map_map]
  refine List.map_congr_left fun i _ => ?_
  simp only [Function.comp]
  exact Nat.mod_eq_of_lt (readByte_lt ..)

theorem copyExtent_bytes {w : Who} {src dst n : Nat} (s : State) (h1 : dst % 32 = 0) (h2 : n % 32 = 0) (hf : s.flawed w src n = []) (h3 : s.badCodewords w src n = [])
   (h4 : s.mayAll w true dst n = true) (h5 : ∀ h, ∀ x, dst ≤ x → x < dst + n → tierOf x = .host h → s.windowDown h = false) :
   (copyExtent w src dst n s).2 = { s with mem := (copyExtent w src dst n s).2.mem, poison := (copyExtent w src dst n s).2.poison, ecc := (copyExtent w src dst n s).2.ecc, dead
       := (copyExtent w src dst n s).2.dead, params := (copyExtent w src dst n s).2.params } ∧
   ∀ x, x < 0x800000000000 → (copyExtent w src dst n s).2.byte x = if dst ≤ x ∧ x < dst + n then BitVec.ofNat 8 (s.readByte w (src + (x -
       dst))) else s.byte x := by
  obtain ⟨l1, _⟩ := load_spec w src n s hf h3
  have hce : (copyExtent w src dst n s).2 = (store w dst (toBytes (s.readVal w src n) n) (load w src n s).2).2 := by
    unfold copyExtent
    simp only [run_bind, load_answers w src n s hf h3]
    rfl
  rw [hce]
  obtain ⟨a, b⟩ := store_spec w dst (toBytes (s.readVal w src n) n) (load w src n s).2
  have r2 : SameRights s (load w src n s).2 := by constructor <;> rw [l1]
  constructor
  · rw [a, l1]
  intro x hx
  rw [b x hx, toBytes_length]
  rw [State.byte_congr (s := s) (by rw [l1]) r2.ports, changes_congr r2 (by rw [l1]) (by rw [l1]) (by rw [l1])]
  have hch := changes_all (s := s) (w := w) (a := dst) (n := n) h1 h2 h4 h5 x
  by_cases hx2 : dst ≤ x ∧ x < dst + n
  · rw [if_pos (hch.mpr hx2), if_pos hx2, toBytes_readVal]
    have : x - dst < n := by omega
    simp [List.getD_eq_getElem?_getD, this]
  · rw [if_neg (fun h => hx2 (hch.mp h)), if_neg hx2]

/-- The parameters that reading memory can write: corrections, access counts, fault counts and a die's spare state. -/
def readKeys (k : Nat) : Bool := k == pk 0x8042 1 || k == pk 0x8042 2 || k == pk 0x8042 3 || k == pk 0x8042 4 || k == pk 0x8042 7 ||
  k == pk 0x7100 1 || k == pk 0x8052 13 || k / 256 == 0x7010

theorem recordFault_par' {k : Nat} (h : readKeys k = false) (r : FaultRec) : Keeps (fun s : State => s.par k) (recordFault r) := fun s => by
  simp [readKeys] at h
  exact State.recordFault_par s r h.1.1.2 h.1.2

theorem dieSpareStart_par {k : Nat} (h : readKeys k = false) (st d : Nat) : Keeps (fun s : State => s.par k) (dieSpareStart st d) := by
  unfold dieSpareStart
  refine Keep.andThen Keep.read fun s => ?_
  by_cases hs : st < 12
  · refine Keep.cond (Keep.andThen (setPar_par' _ ?_) fun _ => Keep.change fun _ => rfl) Keep.skip
    simp [readKeys] at h
    intro e; apply h.2; rw [e]; simp [dieStateKey, pk]; omega
  · have : decide (st < 12) = false := by simpa using hs
    simp only [this, Bool.false_and, Bool.and_false, Bool.false_eq_true, if_false]
    exact Keep.skip

theorem dieThreshold_par {k : Nat} (h : readKeys k = false) (st d b) : Keeps (fun s : State => s.par k) (dieThreshold st d b) :=
  Keep.andThen Keep.read fun _ => Keep.cond (dieSpareStart_par h _ _) (Keep.cond Keep.skip (Keep.onlyIf _ (recordFault_par' h _)))

theorem noteReached_par (k key : Nat) (on : Bool) : Keeps (fun s : State => s.par k) (noteReached key on) := fun s => by
  unfold noteReached; dsimp only; split <;> rfl

theorem windowAdd_par (k key n m : Nat) : Keeps (fun s : State => s.par k) (windowAdd key n m) := fun _ => rfl

theorem tallyUe_par (k a : Nat) : Keeps (fun s : State => s.par k) (tallyUe a) := by
  unfold tallyUe
  refine Keep.andThen Keep.read fun s => ?_
  cases tierOf a <;> first | exact Keep.change fun _ => rfl | exact Keep.skip

theorem recordUe_par {k : Nat} (h : readKeys k = false) (a x p c : Nat) : Keeps (fun s : State => s.par k) (recordUe a x p c) :=
  Keep.change fun s => recordFault_par' h _ s

theorem listUe_par {k : Nat} (h : readKeys k = false) (a : Nat) : Keeps (fun s : State => s.par k) (listUe a) := by
  unfold listUe
  refine Keep.andThen Keep.read fun s => ?_
  cases tierOf a with
  | stack st =>
    refine Keep.andThen (windowAdd_par _ _ _ _) fun n => Keep.andThen (Keep.change fun s => recordFault_par' h _ s) fun _ => ?_
    dsimp only
    exact Keep.andThen (noteReached_par _ _ _) fun _ => Keep.onlyIf _ (dieThreshold_par h _ _ _)
  | loft r => exact recordUe_par h _ _ _ _
  | vault => exact recordUe_par h _ _ _ _
  | host h => exact Keep.skip
  | reserved => exact Keep.skip

theorem countCorrected_par {k : Nat} (h : readKeys k = false) (a : Nat) (errs) : Keeps (fun s : State => s.par k) (countCorrected a errs) := by
  have h' := h
  simp [readKeys] at h'
  unfold countCorrected
  refine Keep.andThen Keep.read fun s => ?_
  cases tierOf a with
  | stack st =>
    refine Keep.andThen (bump_par' _ h'.1.1.1.1.1.1.2) fun _ => Keep.andThen (Keep.change fun _ => rfl) fun _ =>
      Keep.andThen (windowAdd_par _ _ _ _) fun _ => ?_
    have last : ∀ dq n : Nat, Keeps (fun s : State => s.par k) (do
        modify fun t => { t with rel := setC (fun _ => 0) t.rel (relKey ukDie (s.diePhysical st (dieOf a % 16)) 2) (max dq (getC (fun _ => 0) t.rel (relKey ukDie (s.diePhysical st (dieOf a % 16)) 2))) }
        recordFault ⟨0x0A, 3, ukDie, 64 + st, s.diePhysical st (dieOf a % 16), actCorrected, 0, 0, a, n, dieOf a % 16, symbolDetail errs⟩
        let ce := decide (s.par (pk 0x7023 0) ≤ n)
        let new1 ← noteReached (relKey ukDie (s.diePhysical st (dieOf a % 16)) 0) ce
        let new2 ← noteReached (relKey ukDie (s.diePhysical st (dieOf a % 16)) 2) (decide (s.par (pk 0x7025 0) ≤ dq))
        onlyIf (ce || decide (s.par (pk 0x7025 0) ≤ dq)) (dieThreshold st (dieOf a % 16) (new1 || new2))) := fun dq n => by
      refine Keep.andThen (Keep.change fun _ => rfl) fun _ => Keep.andThen (recordFault_par' h _) fun _ => ?_
      dsimp only
      exact Keep.andThen (noteReached_par _ _ _) fun _ => Keep.andThen (noteReached_par _ _ _) fun _ => Keep.onlyIf _ (dieThreshold_par h _ _ _)
    dsimp only
    split
    · exact Keep.andThen (windowAdd_par _ _ _ _) fun dq => last dq _
    · exact Keep.andThen (Keep.ret 0) fun dq => last dq _
  | loft r =>
    exact Keep.andThen (bump_par' _ h'.1.1.1.1.1.1.1) fun _ => Keep.andThen (Keep.change fun _ => rfl) fun _ => Keep.andThen (windowAdd_par _ _ _ _) fun _ =>
      Keep.andThen (recordFault_par' h _) fun _ => Keep.andThen (noteReached_par _ _ _) fun _ => Keep.onlyIf _ (Keep.andThen (recordFault_par' h _) fun _ =>
        Keep.change fun _ => rfl)
  | vault => exact Keep.skip
  | host h => exact Keep.skip
  | reserved => exact Keep.skip

theorem correct_par {k : Nat} (h : readKeys k = false) (x) : Keeps (fun s : State => s.par k) (correct x) :=
  Keep.andThen (Keep.change fun _ => rfl) fun _ => countCorrected_par h _ _

theorem findCodeword_par {k : Nat} (h : readKeys k = false) (c : Nat) : Keeps (fun s : State => s.par k) (findCodeword c) := by
  unfold findCodeword
  refine Keep.andThen Keep.read fun s => ?_
  dsimp only
  split
  · refine Keep.cond (Keep.change fun _ => rfl) (Keep.cond ?_ ?_)
    · exact Keep.andThen (Keep.change fun _ => rfl) fun _ => Keep.andThen (Keep.onlyIf _ (tallyUe_par _ _)) fun _ => listUe_par h _
    · exact Keep.andThen (Keep.onlyIf _ (Keep.andThen (Keep.change fun _ => rfl) fun _ => tallyUe_par _ _)) fun _ =>
        Keep.cond Keep.skip (Keep.andThen (Keep.change fun _ => rfl) fun _ => recordUe_par h _ _ _ _)
  · exact Keep.skip

theorem load_par {k : Nat} (h : readKeys k = false) (w : Who) (a n : Nat) : Keeps (fun s : State => s.par k) (load w a n) := by
  have h' := h
  simp [readKeys] at h'
  unfold load readAccess
  exact Keep.andThen Keep.read fun s => Keep.andThen (Keep.each _ fun _ => correct_par h _) fun _ => Keep.andThen Keep.read fun s =>
    Keep.andThen (Keep.onlyIf _ (bump_par' _ h'.1.1.1.1.2)) fun _ => Keep.andThen (Keep.onlyIf _ (Keep.change fun _ => rfl)) fun _ =>
    Keep.andThen (Keep.onlyIf _ (Keep.andThen (bump_par' _ h'.1.1.1.1.1.2) fun _ => Keep.each _ fun _ => findCodeword_par h _)) fun _ =>
    Keep.andThen (Keep.onlyIf _ (bump_par' _ h'.1.1.1.2)) fun _ => Keep.ret _

theorem storeBytes_par (w : Who) (fuel : Nat) (s : State) (a : Nat) (bs : List Nat) (hl : bs.length ≤ fuel) (k : Nat) : (State.storeBytes
    w fuel s a bs).par k = s.par k := by
  show getC _ _ _ = getC _ _ _
  rw [SameBut.params (State.storeBytes_only w a hl) rfl]

theorem store_par {k : Nat} (h : readKeys k = false) (w : Who) (a : Nat) (bs : List Nat) : Keeps (fun s : State => s.par k) (store w a
    bs) := by
  simp [readKeys] at h
  unfold store
  exact Keep.andThen Keep.read fun s => Keep.andThen (Keep.onlyIf _ (bump_par' _ h.1.1.1.1.2)) fun _ =>
    Keep.change fun s => storeBytes_par w _ s a bs (by omega) k

theorem signalCue_par {k : Nat} (h : readKeys k = false) (w : Who) (a add : Nat) : Keeps (fun s : State => s.par k) (signalCue w a add)
    := by
  have h' := h
  simp [readKeys] at h'
  unfold signalCue atomic
  refine Keep.andThen Keep.read fun s => Keep.cond Keep.skip (Keep.cond (Keep.andThen ?_ fun _ => Keep.skip) (bump_par' _ h'.1.1.1.1.2))
  exact Keep.andThen Keep.read fun _ => Keep.andThen (load_par h _ _ _) fun _ => Keep.cond (Keep.andThen (Keep.change fun s =>
    storeBytes_par _ _ s _ _ (by rw [toBytes_length]; omega) k) fun _ => Keep.ret _) (Keep.ret _)

theorem copyExtent_par {k : Nat} (h : readKeys k = false) (h2 : k ≠ pk 0x48E0 4) (w : Who) (a b n : Nat) : Keeps (fun s : State => s.par
    k) (copyExtent w a b n) := by
  have h' := h
  simp [readKeys] at h'
  unfold copyExtent storePoison
  exact Keep.andThen (load_par h _ _ _) fun _ => Keep.andThen (store_par h _ _ _) fun _ => Keep.each _ fun _ =>
   Keep.andThen Keep.read fun _ => Keep.andThen (Keep.onlyIf _ (bump_par' _ h2)) fun _ =>
    Keep.andThen (Keep.onlyIf _ (bump_par' _ h'.1.1.1.1.2)) fun _ => Keep.change fun s => by
      show getC _ _ _ = getC _ _ _
      rw [foldl_keeps (I := fun t : State => t.params = s.params) _ _ _ rfl fun _ c ht => ((State.poisonCodeword_only _ w c).params
          rfl).trans ht]

/-- A command that its engine takes runs. -/
theorem kindCommand_accepted {s : State} {ok : Kind → Bool} {e op : Nat} {src : CmdSource} {c : Cmd} {body : Cmd → M End} {args : List Nat}
    {k : Kind} (hk : engineKind e = some k) (ho : ok k = true) (h : s.accepted e op src args = some c) :
    s.kindCommand ok e op src body args = .next (runCmd c body s).2 := by
  unfold State.kindCommand
  rw [hk]; simp only [ho, if_true]
  unfold State.layerCommand
  cases src with
  | stream p x =>
    obtain ⟨d, hd, rfl⟩ := Option.map_eq_some_iff.mp h
    exact engineCommand_taken hd
  | director p d w =>
    obtain ⟨d, hd, rfl⟩ := Option.map_eq_some_iff.mp h
    exact issuedCommand_taken hd
  | layer p a y r =>
    simp only [State.accepted] at h
    cases hf : s.formed e op p a y r with
    | none => rw [hf] at h; cases h
    | some f =>
      rw [hf] at h
      obtain ⟨d, hd, rfl⟩ := Option.map_eq_some_iff.mp h
      simp only [hf]
      exact issuedCommand_taken hd

end Sys2Proof.Machine
end

