-- ==== Sys2Proof/Tests/Slice0.lean ====
section
/-! SUPPORT. Tests of the model: commands that are well formed and commands that are not, for every check of WellFormed; and for the
premises of each statement a small state and operands that meet them. -/
namespace Sys2Proof.Tests
open Sys2Proof Sys2Proof.Machine
-- One test at a time: all of them at once want more threads than the memory limit lets Lean start.
set_option Elab.async false

/-! ## Well-formed and ill-formed commands -/

def okSrc : CmdSource := .stream 0 0
def badSrc : CmdSource := .stream 0 256
def okPdu : Pdu := ⟨1, 1, 1, 0, 0, 0, 0, [], []⟩
def badPdu : Pdu := ⟨1, 1, 1, 0, 0, 0, 0, [256], []⟩
def okRoce : RoceReq := ⟨0, 0, 0, 0, 0, 0, 0, 0, [], none, false⟩
def badRoce : RoceReq := ⟨0, 0, 0, 0, 0, 0, 0, 0, [256], none, false⟩
def okSheet : CallSheet := ⟨0, [], [], [], [], [], [], [], []⟩
def okStart : StartAck := ⟨0, 0, 0, 0, 0, 0, 0, false, [], 0, 0, [], 0, false⟩

theorem test_wf_takes_1 : (([
    .nop 128 okSrc, .descriptorFetch 0 0 128, .cueWriteSeen 128 0, .unitComplete 128 false [], .matmul 63 okSrc, .matmulList 63 okSrc,
    .matmulPadded 63 okSrc, .vecRmsnorm 63 okSrc, .vecSilu 63 okSrc, .vecGelu 63 okSrc, .vecGluSilu 63 okSrc, .vecAdd 63 okSrc,
    .vecScale 63 okSrc, .sample 63 okSrc, .loftFetchTimeout 63, .spareCellJoin 63, .blockFailure 63 [], .cellLoan 63 0 ⟨0, 0, 0⟩,
    .istSliceComplete 0 0 0 0 0 false, .istRotation 0 0 0, .loftRefetch 0 0, .scrubRead 0 [], .dieSpareStart 0 0, .dieSpareSwitch 0] : List Instr).all fun i => i.wf) = true := by decide +kernel

theorem test_wf_takes_2 : (([
    .dieFailure 0 0, .weightRestore 0 0, .vaultLoad 0, .vaultLoadRun, .vaultLoadEntry false, .placementReload 0,
    .storyboardEntryStart 0 0, .storyboardEntryEnd 0 0, .decode 128 okSrc, .encode 128 okSrc, .tableLoad 128 okSrc, .tableLoadComplete 0,
    .tableRetire 128 okSrc, .tableSlotEmpty 0, .tableSave 128 okSrc, .attend 64 okSrc, .attnFeed 80 okSrc, .attnReturn 80 okSrc,
    .attnMerge 80 okSrc, .attnBatchReceived ⟨0, 0, 0, false, []⟩, .plan 0 0, .callSheetReceived 0 okSheet, .runStart 0,
    .runReport 0 (.own [])] : List Instr).all fun i => i.wf) = true := by decide +kernel

theorem test_wf_takes_3 : (([
    .normWord 0 (.own 0), .commit 0, .stepAbandon 0, .commitApply 0 .own, .submit 0, .cancel 0, .park 0, .unpark 0, .take 0 0 0,
    .attach 0, .copyOnWrite 0, .insert 0, .evict 0, .parkEntry 0, .unparkEntry 0, .route 96 okSrc, .buildLists 96 okSrc [],
    .expDispatch 80 okSrc [], .expertBatchReceived ⟨0, 0, []⟩, .expGather 80 okSrc, .expReturn 80 okSrc, .expCombine 80 okSrc,
    .normDecision 0, .fallbackVerdict 0] : List Instr).all fun i => i.wf) = true := by decide +kernel

theorem test_wf_takes_4 : (([
    .normProfileSave 0, .partitionStart 0, .partitionRunning 0, .partitionStop 0, .ctxOpen 0, .ctxTeardown 0, .contextDrained 0 0,
    .contextFree 0 0, .streamBind 0, .streamUnbind 0, .ctxPreempt 0, .ctxResume 0, .instanceStart 0, .instanceStartAck 0 okStart,
    .instanceDrain 0, .instanceStop 0, .dataFlit 0 [] [], .controlFlit 0 [] [], .ackProgressTimeout 0, .retrainDone 0 false,
    .groupTrained 0 false, .laneErrorDetect 0 0 0 false, .laneSpareStart 0, .linkRestore 0] : List Instr).all fun i => i.wf) = true := by decide +kernel

theorem test_wf_takes_5 : (([
    .linkPlanApply, .identitySend 0, .identityRecord 0 ⟨false, 0, 0, 0, 0, 0, 0, 0⟩, .writePacket 0 0 [], .collectivePacket 0 0 [],
    .ackPacket 0 0, .abortPacket 0 0, .transferAckTimeout 0 0, .planes 0 0, .link 0 0, .fenced 0, .reset 0, .removed 0, .peerLost 0,
    .shape 0 0 0 none, .capacity 0 0, .pathLoss 0, .substituteTimeout 0, .rankReady 0 0, .timeHoldover,
    .ptpMessage 0 0 ⟨0, .followUp, 0, 0⟩, .copy 80 okSrc, .allReduce 80 okSrc, .reduceScatter 80 okSrc] : List Instr).all fun i => i.wf) = true := by decide +kernel

theorem test_wf_takes_6 : (([
    .allGather 80 okSrc, .broadcast 80 okSrc, .allToAll 80 okSrc, .rdmaWrite 80 okSrc, .rdmaRead 80 okSrc, .incomingRdmaWrite okRoce,
    .incomingRdmaRead okRoce, .roceAck 0 0 0 none, .roceTimeout 0 0, .cnp 0 0, .roceRateRaise 0 0, .roceQpReload 0, .roceKeyReload 0,
    .networkFrame 0 .other, .ethLinkChange 0 false, .prechargeEntry 0, .prechargeComplete 0 0, .prechargeFail 0 0, .prechargeRetry,
    .presNRelease 0, .inputUndervoltage 0, .inputOvervoltage 0, .inputRestart 0, .supplySag 0] : List Instr).all fun i => i.wf) = true := by decide +kernel

theorem test_wf_takes_7 : (([
    .derateN, .supplyLimitClear, .holdUpExhausted, .powerUnitFailure .trip 0 0, .governorPeriod 0 0 [], .fastPath, .fastPathStep 0 0 0,
    .opStep, .leaseCommit 0, .leaseExpiry, .thermalCompare 0 0 0, .thermalTrip 0 0, .coolantSample 0 0 0, .droop 0, .droopRelease 0,
    .rampSlot 0 [], .energyWindow 0, .tradeWindowEnd 0, .tradeReport ⟨0, 0, [], 0, 0⟩, .tradeToken 0 false 0,
    .watchdogExpiry 128 none none, .heartbeatMiss 0 ⟨0, 0⟩, .remoteWaitExpiry 128 0 0, .meshTimeout 128 0 none] : List Instr).all fun i => i.wf) = true := by decide +kernel

theorem test_wf_takes_8 : (([
    .engineReset 128 none, .engineResetEnd 128, .resetOverrun ⟨128, false⟩, .enterFenced, .dumpStart, .dumpComplete [], .faultLogCommit,
    .unitRestore 0 false, .refclkLoss, .read 1 0 okPdu, .write 1 0 okPdu, .describe 1 0 okPdu, .list 1 0 okPdu, .blobRead 1 0 okPdu,
    .blobWrite 1 0 okPdu, .blobTransferTimeout 0, .challenge 1 0 okPdu, .login 1 0 okPdu, .loginTimeout 0, .logout 1 0 okPdu,
    .sessionIdleTimeout 0, .sessionClose 0, .subscribe 1 0 okPdu, .unsubscribe 1 0 okPdu] : List Instr).all fun i => i.wf) = true := by decide +kernel

theorem test_wf_takes_9 : (([
    .eventAck 1 0 okPdu, .eventResend 0, .discover 1 0 okPdu, .persistCommit, .restoreDefaults, .userCalReset, .hpMbxDoorbell 0 .whole 0,
    .hpMbxEvtAck 0 .whole 0, .registerWrite 0 0 [], .lowHalfRead 0 ⟨0, 4⟩, .highHalfRead 0 0, .dirReqDoorbell 0 0 .whole 0,
    .dirCancelDoorbell 0 0 .whole 0, .dirCplDoorbell 0 0 .whole 0, .dirCmdDoorbell 0 0 .whole 0, .dirCtlDoorbell 0 0 .whole 0,
    .pwrCapReq 0 .whole 0, .fltPending 0 .whole 0, .bar2Read 0 0 0, .bar2Write 0 0 [] false, .atomicOp 0 0 0 .swap 0 0,
    .hostReadCompletion 0 0 [] false, .completionTimeout 0 0, .surpriseDown 0] : List Instr).all fun i => i.wf) = true := by decide +kernel

theorem test_wf_takes_10 : (([
    .hostLinkUp 0 0 0 false false false, .functionLevelReset 0, .perstN 0 false, .bootDone false false, .selftestDone [], .trainingEnd,
    .moduleDrain, .drainTimeout, .drainComplete, .restart, .restartKeep, .safeRelease 0, .standby, .wake, .fwStage 0 false,
    .fwStageDone false, .fwActivate 0, .fwHealthCheck 0 false, .fwTrialEnd 0, .fwConfirm 0, .fwRevert 0, .clapperArm 0, .clapperFire,
    .dailyRecord] : List Instr).all fun i => i.wf) = true := by decide +kernel

theorem test_wf_takes_11 : (([
    .regulatorCalibration 0 0, .eyeScan 0 false 0 0, .refclkReturn, .derateNDeassert, .groupLossOfLock 0, .roceReadResponse 0 0 0 [],
    .configurationWrite 0 (.busMaster true), .bridgeFlitError 0 0, .pfcFrame 0 0 0] : List Instr).all fun i => i.wf) = true := by decide +kernel

theorem test_wf_refuses_1 : (([
    .nop 77 okSrc, .nop 128 badSrc, .descriptorFetch 8 0 128, .descriptorFetch 0 256 128, .descriptorFetch 0 0 77, .cueWriteSeen 77 0,
    .cueWriteSeen 128 (2 ^ 64), .unitComplete 77 false [], .unitComplete 0 true [], .matmul 64 okSrc, .matmul 63 badSrc,
    .matmulList 64 okSrc, .matmulList 63 badSrc, .matmulPadded 64 okSrc, .matmulPadded 63 badSrc, .vecRmsnorm 64 okSrc,
    .vecRmsnorm 63 badSrc, .vecSilu 64 okSrc, .vecSilu 63 badSrc, .vecGelu 64 okSrc, .vecGelu 63 badSrc, .vecGluSilu 64 okSrc,
    .vecGluSilu 63 badSrc, .vecAdd 64 okSrc] : List Instr).all fun i => !i.wf) = true := by decide +kernel

theorem test_wf_refuses_2 : (([
    .vecAdd 63 badSrc, .vecScale 64 okSrc, .vecScale 63 badSrc, .sample 64 okSrc, .sample 63 badSrc, .loftFetchTimeout 64,
    .spareCellJoin 64, .blockFailure 64 [], .cellLoan 64 0 ⟨0, 0, 0⟩, .cellLoan 63 16 ⟨0, 0, 0⟩, .istSliceComplete 0 64 0 0 0 false,
    .istSliceComplete 0 0 16 0 0 false, .istSliceComplete 0 200 0 0 0 false, .istSliceComplete 0 192 17 0 0 false,
    .istSliceComplete 2 76 0 0 0 false, .istSliceComplete 2 64 8 0 0 false, .istSliceComplete 1 0 0 0 0 false, .istRotation 0 64 0,
    .istRotation 0 0 16, .istRotation 0 200 0, .istRotation 0 192 17, .istRotation 2 76 0, .istRotation 2 64 8, .istRotation 1 0 0] : List Instr).all fun i => !i.wf) = true := by decide +kernel

theorem test_wf_refuses_3 : (([
    .loftRefetch 8 0, .loftRefetch 0 (2 ^ 64), .scrubRead (2 ^ 64) [], .dieSpareStart 12 0, .dieSpareStart 0 16, .dieSpareSwitch 12,
    .dieFailure 12 0, .dieFailure 0 16, .weightRestore (2 ^ 64) 0, .placementReload 8, .storyboardEntryStart 8 0,
    .storyboardEntryEnd 8 0, .decode 127 okSrc, .decode 128 badSrc, .encode 127 okSrc, .encode 128 badSrc, .tableLoad 127 okSrc,
    .tableLoad 128 badSrc, .tableLoadComplete 16, .tableRetire 127 okSrc, .tableRetire 128 badSrc, .tableSlotEmpty 16,
    .tableSave 127 okSrc, .tableSave 128 badSrc] : List Instr).all fun i => !i.wf) = true := by decide +kernel

theorem test_wf_refuses_4 : (([
    .attend 76 okSrc, .attend 64 badSrc, .attnFeed 79 okSrc, .attnFeed 80 badSrc, .attnReturn 79 okSrc, .attnReturn 80 badSrc,
    .attnMerge 79 okSrc, .attnMerge 80 badSrc, .attnBatchReceived ⟨8, 0, 0, false, []⟩, .plan 8 0, .callSheetReceived 8 okSheet,
    .runStart 8, .runReport 8 (.own []), .normWord 8 (.own 0), .commit 8, .stepAbandon 8, .commitApply 8 .own, .submit 8, .cancel 8,
    .park 8, .unpark 8, .take 8 0 0, .attach 8, .copyOnWrite 8] : List Instr).all fun i => !i.wf) = true := by decide +kernel

theorem test_wf_refuses_5 : (([
    .insert 8, .evict 8, .parkEntry 8, .unparkEntry 8, .route 95 okSrc, .route 96 badSrc, .buildLists 95 okSrc [],
    .buildLists 96 badSrc [], .expDispatch 79 okSrc [], .expDispatch 80 badSrc [], .expertBatchReceived ⟨8, 0, []⟩, .expGather 79 okSrc,
    .expGather 80 badSrc, .expReturn 79 okSrc, .expReturn 80 badSrc, .expCombine 79 okSrc, .expCombine 80 badSrc, .normDecision 8,
    .fallbackVerdict 8, .normProfileSave 8, .partitionStart 8, .partitionRunning 8, .partitionStop 8, .ctxOpen 8] : List Instr).all fun i => !i.wf) = true := by decide +kernel

theorem test_wf_refuses_6 : (([
    .ctxTeardown 8, .contextDrained 8 0, .contextDrained 0 256, .contextFree 8 0, .contextFree 0 256, .streamBind 8, .streamUnbind 8,
    .ctxPreempt 8, .ctxResume 8, .instanceStart 8, .instanceStartAck 8 okStart, .instanceDrain 8, .instanceStop 8, .dataFlit 24 [] [],
    .dataFlit 0 [] [256], .controlFlit 24 [] [], .controlFlit 0 [] [256], .ackProgressTimeout 24, .retrainDone 24 false,
    .groupTrained 24 false, .laneErrorDetect 24 0 0 false, .linkRestore 24, .identitySend 24,
    .identityRecord 24 ⟨false, 0, 0, 0, 0, 0, 0, 0⟩] : List Instr).all fun i => !i.wf) = true := by decide +kernel

theorem test_wf_refuses_7 : (([
    .writePacket 3 0 [], .writePacket 0 (2 ^ 256) [], .writePacket 0 0 [256], .collectivePacket 3 0 [], .collectivePacket 0 (2 ^ 256) [],
    .collectivePacket 0 0 [256], .ackPacket 3 0, .ackPacket 0 (2 ^ 256), .abortPacket 3 0, .abortPacket 0 (2 ^ 256),
    .transferAckTimeout 65536 0, .planes 65536 0, .link 65536 0, .fenced 65536, .reset 65536, .removed 65536, .peerLost 65536,
    .shape 8 0 0 none, .capacity 65536 0, .pathLoss 65536, .substituteTimeout 8, .rankReady 8 0, .rankReady 0 64,
    .ptpMessage 2 0 ⟨0, .followUp, 0, 0⟩] : List Instr).all fun i => !i.wf) = true := by decide +kernel

theorem test_wf_refuses_8 : (([
    .ptpMessage 0 0 ⟨3, .followUp, 0, 0⟩, .copy 79 okSrc, .copy 80 badSrc, .allReduce 79 okSrc, .allReduce 80 badSrc,
    .reduceScatter 79 okSrc, .reduceScatter 80 badSrc, .allGather 79 okSrc, .allGather 80 badSrc, .broadcast 79 okSrc,
    .broadcast 80 badSrc, .allToAll 79 okSrc, .allToAll 80 badSrc, .rdmaWrite 79 okSrc, .rdmaWrite 80 badSrc, .rdmaRead 79 okSrc,
    .rdmaRead 80 badSrc, .incomingRdmaWrite { okRoce with port := 2 }, .incomingRdmaWrite badRoce,
    .incomingRdmaRead { okRoce with port := 2 }, .incomingRdmaRead badRoce, .roceAck 2 0 0 none, .roceTimeout 2 0, .roceTimeout 0 1024] : List Instr).all fun i => !i.wf) = true := by decide +kernel

theorem test_wf_refuses_9 : (([
    .cnp 2 0, .roceRateRaise 2 0, .roceRateRaise 0 1024, .roceQpReload 2048, .roceKeyReload 4096, .networkFrame 2 .other,
    .ethLinkChange 2 false, .powerUnitFailure .trip 4 0, .thermalTrip 92 0, .droop 4, .droopRelease 4, .rampSlot 4 [],
    .tradeToken 65536 false 0, .watchdogExpiry 77 none none, .heartbeatMiss 8 ⟨0, 0⟩, .remoteWaitExpiry 77 0 0,
    .remoteWaitExpiry 128 8 0, .remoteWaitExpiry 128 0 256, .meshTimeout 77 0 none, .engineReset 77 none, .engineResetEnd 77,
    .resetOverrun ⟨77, false⟩, .read 4 0 okPdu, .read 2 4 okPdu] : List Instr).all fun i => !i.wf) = true := by decide +kernel

theorem test_wf_refuses_10 : (([
    .read 1 0 badPdu, .write 4 0 okPdu, .write 2 4 okPdu, .write 1 0 badPdu, .describe 4 0 okPdu, .describe 2 4 okPdu,
    .describe 1 0 badPdu, .list 4 0 okPdu, .list 2 4 okPdu, .list 1 0 badPdu, .blobRead 4 0 okPdu, .blobRead 2 4 okPdu,
    .blobRead 1 0 badPdu, .blobWrite 4 0 okPdu, .blobWrite 2 4 okPdu, .blobWrite 1 0 badPdu, .challenge 4 0 okPdu, .challenge 2 4 okPdu,
    .challenge 1 0 badPdu, .login 4 0 okPdu, .login 2 4 okPdu, .login 1 0 badPdu, .logout 4 0 okPdu, .logout 2 4 okPdu] : List Instr).all fun i => !i.wf) = true := by decide +kernel

theorem test_wf_refuses_11 : (([
    .logout 1 0 badPdu, .subscribe 4 0 okPdu, .subscribe 2 4 okPdu, .subscribe 1 0 badPdu, .unsubscribe 4 0 okPdu,
    .unsubscribe 2 4 okPdu, .unsubscribe 1 0 badPdu, .eventAck 4 0 okPdu, .eventAck 2 4 okPdu, .eventAck 1 0 badPdu, .eventResend 16,
    .discover 4 0 okPdu, .discover 2 4 okPdu, .discover 1 0 badPdu, .hpMbxDoorbell 4 .whole 0, .hpMbxDoorbell 0 .whole (2 ^ 64),
    .hpMbxEvtAck 4 .whole 0, .hpMbxEvtAck 0 .whole (2 ^ 64), .registerWrite 4 0 [], .registerWrite 0 (2 ^ 26) [],
    .registerWrite 0 0 [256], .lowHalfRead 4 ⟨0, 4⟩, .lowHalfRead 0 ⟨0x4000000, 4⟩, .highHalfRead 4 0] : List Instr).all fun i => !i.wf) = true := by decide +kernel

theorem test_wf_refuses_12 : (([
    .highHalfRead 0 (2 ^ 26), .dirReqDoorbell 4 0 .whole 0, .dirReqDoorbell 0 8 .whole 0, .dirReqDoorbell 0 0 .whole (2 ^ 64),
    .dirCancelDoorbell 4 0 .whole 0, .dirCancelDoorbell 0 8 .whole 0, .dirCancelDoorbell 0 0 .whole (2 ^ 64),
    .dirCplDoorbell 4 0 .whole 0, .dirCplDoorbell 0 8 .whole 0, .dirCplDoorbell 0 0 .whole (2 ^ 64), .dirCmdDoorbell 4 0 .whole 0,
    .dirCmdDoorbell 0 8 .whole 0, .dirCmdDoorbell 0 0 .whole (2 ^ 64), .dirCtlDoorbell 4 0 .whole 0, .dirCtlDoorbell 0 8 .whole 0,
    .dirCtlDoorbell 0 0 .whole (2 ^ 64), .pwrCapReq 4 .whole 0, .pwrCapReq 0 .whole (2 ^ 64), .fltPending 4 .whole 0,
    .fltPending 0 .whole (2 ^ 64), .bar2Read 4 0 0, .bar2Read 0 (2 ^ 36) 0, .bar2Write 4 0 [] false, .bar2Write 0 (2 ^ 36) [] false] : List Instr).all fun i => !i.wf) = true := by decide +kernel

theorem test_wf_refuses_13 : (([
    .bar2Write 0 0 [256] false, .atomicOp 4 0 0 .swap 0 0, .atomicOp 0 (2 ^ 36) 0 .swap 0 0, .hostReadCompletion 4 0 [] false,
    .hostReadCompletion 0 (2 ^ 64) [] false, .hostReadCompletion 0 0 [256] false, .completionTimeout 4 0, .completionTimeout 0 (2 ^ 64),
    .surpriseDown 4, .hostLinkUp 4 0 0 false false false, .functionLevelReset 4, .perstN 4 false, .fwStage (2 ^ 64) false,
    .regulatorCalibration 4 0, .eyeScan 24 false 0 0, .groupLossOfLock 24, .roceReadResponse 2 0 0 [], .roceReadResponse 0 0 0 [256],
    .configurationWrite 4 (.busMaster true), .bridgeFlitError 6 0, .pfcFrame 2 0 0, .pfcFrame 0 8 0] : List Instr).all fun i => !i.wf) = true := by decide +kernel

/-- Sources of an engine command: each operand out of its field. -/
theorem test_wf_sources : (([.stream 8 0, .stream 0 256, .director 8 0 none, .director 0 (2 ^ 512) none, .layer 8 0 0 0,
    .layer 0 (2 ^ 16) 0 0, .layer 0 0 (2 ^ 12) 0, .layer 0 0 0 (2 ^ 256)] : List CmdSource).all fun c => !c.wf) = true ∧
    (([.stream 7 255, .director 7 (2 ^ 512 - 1) none, .layer 7 65535 4095 (2 ^ 256 - 1)] : List CmdSource).all CmdSource.wf) = true := by
  decide +kernel

/-- A PDU with one field that does not fit (R443). -/
theorem test_wf_pdus : (([{ okPdu with version := 256 }, { okPdu with op := 256 }, { okPdu with flags := 256 }, { okPdu with result := 256 },
    { okPdu with session := 65536 }, { okPdu with txid := 2 ^ 32 }, { okPdu with seq := 2 ^ 32 },
    { okPdu with body := List.replicate 65536 0 }, badPdu, { okPdu with tag := [256] }] : List Pdu).all fun p => !p.wf) = true := by
  decide +kernel

/-- A RoCE request with one field that does not fit (R485). -/
theorem test_wf_roce : (([{ okRoce with psn := 2 ^ 24 }, { okRoce with rkey := 2 ^ 32 }, { okRoce with addr := 2 ^ 64 }, badRoce] :
    List RoceReq).all fun r => !r.wf) = true := by decide +kernel

/-- The engine numbers at the edges of R310. -/
theorem test_wf_engine_edges : ([0, 75, 80, 99, 128, 191].all wfEngine && [76, 79, 100, 127, 192, 255].all fun e => !wfEngine e) = true := by
  decide

/-! ## States that meet the premises of the statements

Each theorem names its statement and shows, for each clause with premises, a state and operands that meet them all; operands stand at
the edges of their ranges. -/

/-- The reset state in another module state. -/
def inMode (m : ModuleState) : State := { State.reset with mode := m }
/-- Dictionary values, and values in force, written in turn. -/
def withPars (s : State) (l : List (Nat × Nat)) : State := l.foldl (fun s x => s.setPar x.1 x.2) s
def withEff (s : State) (l : List (Nat × Nat)) : State := { s with eff := l.foldl (fun m x => setC paramDefault m x.1 x.2) s.eff }
/-- Bytes written from an address on. -/
def withBytes (s : State) (a : Nat) (l : List Nat) : State :=
  (List.range l.length).foldl (fun s i => s.setByte (a + i) (BitVec.ofNat 8 (l.getD i 0))) s
/-- Scratch placements of partition p, as address and size. -/
def withPlaces (s : State) (p : Nat) (l : List (Nat × Nat)) : State :=
  { s with places := [(p, l.map fun x => ⟨x.1, x.2, kindScratch, 0, 0, 0⟩)] }
/-- The instance of partition p. -/
def withInst (s : State) (p : Nat) (i : Inst) : State := { s with insts := [(p, i)] }

/-- A range of addresses, byte by byte. -/
theorem span {P : Nat → Prop} (a n : Nat) (h : ∀ i, i < n → P (a + i)) : ∀ x, a ≤ x → x < a + n → P x := by
  intro x h1 h2
  have h3 := h (x - a) (by omega)
  rwa [show a + (x - a) = x by omega] at h3

theorem test_empty_queue_ticks : (State.reset.pending = [] ∧ State.reset.clock.trim = 0 ∧ State.reset.clock.frac = 0 ∧
  State.reset.governed = false) ∧
    ((inMode .ready).pending = [] ∧ (inMode .ready).governed = true ∧ (inMode .ready).beGateOpen = false) ∧
    ∀ s ∈ [State.reset, inMode .ready], s.ecc.due = [] ∧ s.ecc.weak = [] ∧ ∀ g, g < 24 → (s.link g).upSince = none := by decide +kernel

/-- R96: the edges of the ranges of the address map. -/
theorem test_address_map : tierOf 0xBFFFFFFFFF = .stack 11 ∧ tierOf 0xC000000000 = .reserved ∧ tierOf 0x10000000000 = .loft 0 ∧
    tierOf 0x1002FFFFFFF = .loft 0 ∧ tierOf 0x10030000000 = .reserved ∧ tierOf 0x100EFFFFFFF = .loft 3 ∧ tierOf 0x10100000000 = .reserved ∧
    tierOf 0x100000000000 = .vault ∧ tierOf 0x1FFFFFFFFFFF = .vault ∧ tierOf 0x200000000000 = .reserved ∧ tierOf 0x400000000000 = .host 0 ∧
    tierOf 0x7FFFFFFFFFFF = .host 3 ∧ tierOf 0x800000000000 = .reserved ∧
      State.reset.cellKey 0x7FFFFFFFFFFF = State.reset.cellKey 0x7FFFFFFFFFFF := by
  decide +kernel

theorem test_engine_numbers : engineKind 47 = some .press ∧ engineKind 48 = some .draw ∧ engineKind 63 = some .draw ∧
  engineKind 75 = some .stack ∧
    engineKind 76 = none ∧ engineKind 79 = none ∧ engineKind 95 = some .relay ∧ engineKind 99 = some .router ∧ engineKind 100 = none ∧
    engineKind 127 = none ∧ engineKind 191 = some .codec ∧ engineKind 192 = none := by decide

/-- A full fault log and one that is not, for RecordLayouts. -/
theorem test_record_layouts : State.reset.faultLog.length < 4096 ∧ ¬ (List.replicate 4096 0).length < 4096 :=
  ⟨by decide, by rw [List.length_replicate]; decide⟩

theorem test_block_scales : Fmt.kt2.isK = true ∧ 0x80 % 128 = 0 ∧ 0x7E % 128 ≠ 127 ∧ (Fmt.kf4.scaleVal 0xFF).isNan = true ∧
    Fmt.mxE4m3.isK = false ∧ Fmt.mxE4m3.block ≠ 0 := by decide +kernel

theorem test_output_blocks : (Fmt.kf4.block ≠ 0 ∧ ∃ y ∈ [0x7FC00000], f32IsFinite y = false) ∧
    ((List.replicate 32 0).length = 2 * Fmt.kf4.block ∧ 0 < (List.replicate 15 0).length ∧
      (List.replicate 15 0).length < Fmt.kf4.block) := by
  decide +kernel

theorem test_pdu_round_trip : okPdu.wf = true ∧ okPdu.tag.length = (if okPdu.tagged then 32 else 0) ∧
    ({ okPdu with flags := 2, tag := List.replicate 32 255 } : Pdu).wf = true ∧
    ({ okPdu with flags := 2, tag := List.replicate 32 255 } : Pdu).tag.length =
      (if ({ okPdu with flags := 2, tag := List.replicate 32 255 } : Pdu).tagged then 32 else 0) := by decide +kernel

theorem test_step_keeps_order : State.reset.Inv ∧ ∃ t, step State.reset = .next t := ⟨⟨by decide, by decide, by decide⟩, _, rfl⟩

theorem test_module_state_transitions : ∃ t, step State.reset = .next t := ⟨_, rfl⟩

theorem test_engine_commands_stay_in_placements : Instr.nop 191 (.stream 7 255) ∈ engineCommandsOf 191 (.stream 7 255) [] [] ∧
    (∃ t, exec (.nop 191 (.stream 7 255)) State.reset = .next t) ∧ State.reset.placed 7 0x7FFFFFFFFFFF = false :=
  ⟨by decide +kernel, ⟨_, rfl⟩, by decide +kernel⟩

/-- A die copy of stack 11, and a weight of 32 B at the start of stack 0 whose vault copy stands at the start of the vault. -/
def copying : State := { inMode .ready with dieCopies := [(11, ⟨15, false⟩)] }
def restoring : State :=
  { withEff (inMode .ready) [(pk 0x7812 1, 0), (pk 0x7813 1, 1)] with
    restores := [(0, 32)], places := [(0, [⟨0, 0x1000, 1, 0x100000000000, 0, 0⟩])] }

theorem test_die_sparing : (lookup copying.dieCopies 11 = some ⟨15, false⟩ ∧ State.reset.par (pk 0x7010 12) = 0) ∧
    ((0, 32) ∈ restoring.restores ∧ restoring.enginesRun = true ∧ restoring.vaultCopy 0 = some (0, 0x100000000000) ∧
      restoring.vaultBusy 0 = false ∧
      restoring.mayAll (whoOf (80 + 4 * (0 / 0x1000000000 / 3)) 0) true 0 32 = true ∧
      restoring.mayAll (whoOf (80 + 4 * (0 / 0x1000000000 / 3)) 0) false 0x100000000000 32 = true ∧
      restoring.clean (whoOf (80 + 4 * (0 / 0x1000000000 / 3)) 0) 0x100000000000 32) := by decide +kernel
theorem test_die_sparing_range : ∀ x, 0 ≤ x → x < 0 + 32 → tierOf x = .stack 0 := span 0 32 (by decide)

/-- A number written as n bytes from an address on. -/
def withWord (s : State) (a n v : Nat) : State := withBytes s a (toBytes v n)

theorem test_vault_load : ((withPars { inMode .ready with vaultLoad := some ⟨32, 7, 1, 0, false⟩ } []).vaultLoad = some ⟨32, 7, 1, 0,
  false⟩) ∧
    (State.reset.vaultLoad = none ∧ State.reset.enginesRun = false) ∧
    (let s := withInst (inMode .serving) 0 { Inst.reset with phase := .running }
     s.vaultLoad = none ∧ s.enginesRun = true ∧ s.clean .director (0x1000 / 32 * 32) 32 ∧
       s.serving (bits (s.readVal .director (0x1000 / 32 * 32) 32) 231 229) = true) ∧
    (let s := withWord (inMode .ready) 0x1000 32 (2 ^ 232 + 7 * 2 ^ 229)
     s.vaultLoad = none ∧ s.enginesRun = true ∧ s.clean .director (0x1000 / 32 * 32) 32 ∧
       bits (s.readVal .director (0x1000 / 32 * 32) 32) 231 229 = 7 ∧ s.serving 7 = false ∧ s.par (pk 0x7811 1) ≠ 2 ∧
       bits (s.readVal .director (0x1000 / 32 * 32) 32) 255 232 ≠ 0) := by decide +kernel

theorem test_vault_load_run : ∀ n ∈ [0, 1], (({ inMode .ready with vaultLoad := some ⟨32, 7, n, 0, false⟩ } : State).vaultLoad = some ⟨32,
  7, n, 0, false⟩ ∧
    (inMode .ready).par (pk 0x7811 1) ≠ 2 ∧ (inMode .ready).serving 7 = false) := by decide +kernel

/-- A load of one entry of 4,096 B of zeros, from stack 0 to the start of the area of partition 0; its CRC-32C is that of 4,096 zeros. -/
def loading (crc : Nat) (retried : Bool) : State :=
  withWord (withPars (withEff { inMode .ready with vaultLoad := some ⟨0x1000, 0, 1, 0, retried⟩ } [(pk 0x7812 1, 0), (pk 0x7813 1,
    1)]) [(pk 0x7811 1, 2)])
    0x1020 32 (2 ^ 32 * 2 ^ 140 + 2 ^ 96 + crc * 2 ^ 64 + 2 ^ 8 * 2 ^ 198)

theorem test_vault_load_entry : ∀ crc ∈ [0, 0x98F94189], ∀ r ∈ [false, true], (let s := loading crc r
    s.vaultLoad = some ⟨0x1000, 0, 1, 0, r⟩ ∧ s.par (pk 0x7811 1) = 2 ∧ s.life.instStarts = [] ∧ s.life.fwQueue = [] ∧
      (let e := s.readVal .director 0x1020 32
       let n := bits e 127 96 * 4096
       let dst := bits e 191 140 * 4096
       let src := bits e 255 198 * 64
       s.clean .director 0x1020 32 ∧ s.clean .director src n ∧ 0 < n ∧ n ≤ (s.vaultArea 0).2 ∧
       (s.vaultArea 0).1 ≤ dst ∧ dst + n ≤ (s.vaultArea 0).1 + (s.vaultArea 0).2 ∧ dst + n ≤ 0x200000000000)) := by decide +kernel

theorem test_scrub : State.reset.scrubs (0 / 32 * 32) = false ∧ (inMode .ready).scrubs (31 / 32 * 32) = true ∧
  tierOf (31 / 32 * 32) = .stack 0 ∧
    (inMode .ready).scrubs (0x1002FFFFFFF / 32 * 32) = true ∧ tierOf (0x1002FFFFFFF / 32 * 32) = .loft 0 ∧
      (inMode .ready).badAt (31 / 32) = false ∧
    (inMode .ready).badAt (0x1002FFFFFFF / 32) = false ∧ (inMode .ready).flawsOf (31 / 32) = [] ∧
    (inMode .ready).flawsOf (0x1002FFFFFFF / 32) = [] ∧ decodeErrors [(0, 1), (2, 1)] = .uncorrectable ∧
    decodeErrors [(63, 15)] = .corrected 67 15 := by decide +kernel

/-- Partition 0 with a storyboard at 0x1000 of one entry of 64 B, from stack 0 to the start of region 0's loft. -/
def playing : State :=
  { withWord (withWord (withPlaces (inMode .serving) 0 [(0, 0x2000), (0x10000000000,
    0x1000)]) 0x1000 64 (2 ^ 366)) 0x1040 32 (2 ^ 34 * 2 ^ 140) with
    stories := [(0, ⟨0x1000, 0, [], [], []⟩)] }
def played (started wrote : List Nat) : State := { playing with stories := [(0, ⟨0x1000, 0, started, wrote, []⟩)] }

theorem test_loft_refetch : (let s := { played [0] [0] with poison := [(0x10000000000 / 32, false)] }
    ((s.refetch (0x10000000000 / 32)).any fun x => x.1 == 0 && !enCodec x.2.1 &&
      decide (s.clean (storyWho 0 (enRegion x.2.1)) (enSrc x.2.1 + (0x10000000000 - enDst x.2.1)) 32) &&
      s.mayAll (storyWho 0 (enRegion x.2.1)) true 0x10000000000 32) = true ∧ tierOf 0x10000000000 = .loft 0 ∧
      s.badAt (0x10000000000 / 32) = true ∧ s.enginesRun = true) ∧ (inMode .ready).refetch (0x1000 / 32) = none := by decide +kernel

theorem test_storyboard_entries : (let s := playing
    let r : StoryRun := ⟨0x1000, 0, [], [], []⟩
    let e := s.storyEntry 0 r 0
    let w := storyWho 0 (enRegion e)
    lookup s.stories 0 = some r ∧ s.clean (storyWho 0 0) r.addr 64 ∧
      (∀ j ∈ ((List.range (hdrCount (s.storyHeader 0 r))).filter fun j => !r.started.contains j).take 65,
        s.badCodewords (storyWho 0 0) (r.addr + 64 + 32 * j) 32 = []) ∧ s.enginesRun = true ∧ (s.inst 0).broken = false ∧
      s.storyReady 0 r (s.storyHeader 0 r) 0 = true ∧ s.clean w (r.addr + 64 + 32 * 0) 32 ∧
      s.readVal w (r.addr + 64 + 32 * 0) 32 = e ∧ tierOf (enDst e) = .loft (enRegion e) ∧ enGated e = false ∧ enCodec e = false ∧
      s.mayAll w true (enDst e) (enLength e) = true ∧ s.mayAccess w false (enSrc e) = true ∧ s.clean w (enSrc e) (enLength e)) ∧
    (let s := { playing with poison := [(0x1000 / 32, false)] }
     lookup s.stories 0 = some ⟨0x1000, 0, [], [], []⟩ ∧ s.badCodewords (storyWho 0 0) 0x1000 64 ≠ []) ∧
    (lookup (played [0] [0]).stories 0 = some ⟨0x1000, 0, [0], [0], []⟩ ∧ 0 ∉ (StoryRun.mk 0x1000 0 [0] [0] []).ended ∧
      (played [0] [0]).enginesRun = true) := by decide +kernel

theorem test_placement_reload : State.reset.par (pk 0x5001 8) ≠ 2 ∧
    (let s := withPars (withInst (inMode .serving) 7 { Inst.reset with phase := .running }) [(pk 0x5001 8, 2)]
     s.par (pk 0x5001 8) = 2 ∧ s.serving 7 = true) ∧
    (let s := withPars (inMode .serving) [(pk 0x5001 8, 2)]
     s.par (pk 0x5001 8) = 2 ∧ s.serving 7 = false) := by decide +kernel

theorem test_block_units : (let s := State.reset.setEngine 63 { EngineSt.idle with fetchRun := 1 }
     (s.engine 63).fetchRun < 2) ∧
    (let s := State.reset.setEngine 63 { EngineSt.idle with cellsDown := [(15, 0x01)] }
     (s.engine 63).cellsDown = [(15, 0x01)] ∧ s.spareReady (spareCellKey 63) ukCell (s.engPhysical 63 (s.subPhys ukCell 63 31)) = true) ∧
    (let s := State.reset.setEngine 63 { EngineSt.idle with reported := some (0x01, 2) }
     (s.engine 63).reported = some (0x01, 2) ∧ s.spareBlockReady 63 = true) ∧
    (let u := (noteLending 63 0 1000 (inMode .ready)).2
     40000 ≤ 40000 ∧ u.blockIdle 63 = true ∧ (u.engine 63).loan = none ∧ u.engineLive 63 = true ∧ (u.engine 63).lent.2.2 = false ∧
       lookup (u.engine 63).cellsDown 15 = none) ∧
    (testable ukCell 63 31 = true ∧ (inMode .ready).istIdle ukCell 63 31 = true ∧ 47 < istSlices ukCell ∧ istSlices ukCell ≤ 48) ∧
    (let s := { inMode .ready with
      now := 100 * hourNs
      tests := [(testKey ukCell (State.reset.engPhysical 63 (State.reset.subPhys ukCell 63 31)), (0, 100 * hourNs))] }
     s.spareReady (spareCellKey 63) ukCell (s.engPhysical 63 (s.subPhys ukCell 63 31)) = true ∧
       lookup (s.engine 63).cellsDown 15 = none ∧ failedKey ukCell (s.cellPhysical ukCell 63 15) ∉ s.retired ∧
       (s.test (testKey ukCell (s.cellPhysical ukCell 63 15))).2 + s.istPeriod ≤ s.now + hourNs ∧
         (s.engine 63).running = none) := by decide +kernel

/-- A load into slot 15, held by nobody. -/
def aLoad : PendLoad := ⟨0, none, 0, 0, 128, 7, 0, 0, false⟩
theorem test_table_slots : (let s := { State.reset with slots := [(15, { CodecSlot.empty with loading := some aLoad })] }
     (s.slot 15).loading = some aLoad) ∧
    (let s := withPars State.reset [(pk 0x6002 16, 2)]
     s.slotState 15 = 2 ∧ s.slotRefs 15 = 0 ∧ (s.slot 15).pending = none) ∧ State.reset.slotState 15 ≠ 2 ∧
    (let s := withPars { State.reset with codecRefs := [⟨15, 191, 7, 255, 0⟩] } [(pk 0x6002 16, 2)]
     s.slotRefs 15 ≠ 0) := by decide +kernel

/-- Context 0 of partition 0 OPEN, with a stream on engine e whose head has this opcode, operand area and signal address. -/
def oneHead (e op area signal : Nat) : State :=
  { withPlaces (inMode .ready) 0 [(0, 0x2000)] with
    ctxs := [(ctxKey 0 0, { Ctx.reset with st := .opened })],
    streams := [(streamKey 0 0 e, ⟨0, 4, 1, 1, some ⟨op * 2 ^ 248 + signal * 2 ^ 40 + area * 2 ^ 256, 0, false, some 0, 0⟩, []⟩)] }

/-- Every engine command is taken from such a head, by each kind of engine that has it. -/
theorem test_engine_commands_complete :
    ([0, 47, 48, 63].all fun e => [0x00, 0x01, 0x02, 0x03, 0x10, 0x11, 0x12, 0x13, 0x14, 0x15, 0x20].all fun op =>
      ((oneHead e op 0 0).accepted e op (.stream 0 0)).isSome) = true ∧
    ([64, 75].all fun e => [0x00, 0x01].all fun op => ((oneHead e op 0 0).accepted e op (.stream 0 0)).isSome) = true ∧
    ([80, 95].all fun e => [0x00, 0x01, 0x40, 0x41, 0x42, 0x50, 0x51, 0x52, 0x53, 0x60, 0x61, 0x62, 0x63, 0x64, 0x70, 0x71].all fun op =>
      ((oneHead e op 0 0).accepted e op (.stream 0 0)).isSome) = true ∧
    ([96, 99].all fun e => [0x00, 0x01, 0x02].all fun op => ((oneHead e op 0 0).accepted e op (.stream 0 0)).isSome) = true ∧
    ([128, 191].all fun e => [0x00, 0x01, 0x02, 0x03, 0x04,
      0x05].all fun op => ((oneHead e op 0 0).accepted e op (.stream 0 0)).isSome) = true := by
  decide +kernel

/-- A command that the Director sends whole, and one that it forms for layer 0, are taken as well. -/
def stepping : State :=
  { withInst (oneHead 80 0 0 0) 0 { Inst.reset with phase := .running, run := some 1 } with streams := [] }
theorem test_director_commands_are_taken : (stepping.accepted 80 0x00 (.director 0 0 none)).isSome = true := by decide +kernel

theorem test_table_commands : ∀ x ∈ [(0x03, 15, 0), (0x03, 1, 0), (0x03, 1, 1), (0x04, 1, 0), (0x04, 1, 1), (0x05, 1, 2)],
    (let s := withPars (oneHead 191 x.1 (x.2.1 * 2 ^ 194) 0) [(pk 0x6002 (x.2.1 + 1), x.2.2)]
     ((s.accepted 191 x.1 (.stream 0 0)).any fun c => hSignalAddr c.desc == 0 && bits c.area 197 194 == x.2.1 &&
       (s.slotOwner x.2.1 == c.p) == (x.2.1 != 15) && s.slotState x.2.1 == x.2.2 && (s.slot x.2.1).pending.isNone &&
         s.slotRefs x.2.1 == 0 &&
       decide (s.clean (whoOf c.e c.p) (bits c.area 255 198 * 64) 256) &&
         s.mayAll c.who true (bits c.area 255 198 * 64) 256) = true) := by decide +kernel
theorem test_table_retire_referenced : (let s := { withPars (oneHead 191 0x04 (2 ^ 194) 0) [(pk 0x6002 2, 1)] with codecRefs := [⟨1, 191,
  7, 255, 0⟩] }
    (s.accepted 191 0x04 (.stream 0 0)).isSome = true ∧ s.slotState 1 = 1 ∧ s.slotRefs 1 ≠ 0) := by decide +kernel
theorem test_table_save_local : ∀ h, ∀ x, 0 ≤ x → x < 0 + 256 → tierOf x = .host h → State.reset.windowDown h = false :=
  fun _ x h1 h2 h3 => by rw [span (P := fun x => tierOf x = .stack 0) 0 256 (by decide +kernel) x h1 h2] at h3; cases h3

theorem test_cues : (let s := oneHead 191 0x00 0 0
     (s.accepted 191 0x00 (.stream 0 0)).any fun c => hSignalAddr c.desc == 0) = true ∧
    (let s := oneHead 191 0x00 0 0x3000
     (s.accepted 191 0x00 (.stream 0 0)).any fun c => hSignalAddr c.desc == 0x3000 && !s.atomicOk (Who.cue c.p) 0x3000) = true ∧
    (let s := oneHead 191 0x00 0 0x1FF8
     (s.accepted 191 0x00 (.stream 0 0)).any fun c => let w := Who.cue c.p
       hSignalAddr c.desc == 0x1FF8 && s.atomicOk w 0x1FF8 && s.mayAll w true 0x1FF8 8 && decide (s.clean w 0x1FF8 8) &&
         !s.badAt (0x1FF8 / 32)) = true := by decide +kernel

/-- COPY of 64 B within stack 0: with no rank, and with this module's own rank. -/
theorem test_copies : ∀ r ∈ [0, 2 ^ 101], (let s := oneHead 80 0x01 (2 ^ 140 + r) 0
    ((s.accepted 80 0x01 (.stream 0 0)).any fun c => decide (c.p < 8) && (!bit c.area 101 || bits c.area 107 102 == s.selfRank c.p) &&
      decide (tierOf (bits c.area 255 198 * 64) ≠ .vault) && (s.hostSource (bits c.area 255 198 * 64)).isNone &&
      decide (s.clean c.who (bits c.area 255 198 * 64) (max 1 (bits c.area 139 108) * 64)) &&
      s.mayAll c.who true (bits c.area 197 140 * 64) (max 1 (bits c.area 139 108) * 64) && hSignalAddr c.desc == 0) = true) ∧
    State.reset.accepted 80 0x01 (.stream 0 0) = none ∧ State.reset.issues 80 0x01 0 0 = false ∧
      engineKind 79 ≠ some .relay := by decide +kernel

/-- A function applied k times, its value found before each application. -/
def times (f : Nat → Nat) : Nat → Nat → Nat
  | 0, r => r
  | k + 1, r =>
    match f r with
    | 0 => times f k 0
    | x + 1 => times f k (x + 1)

theorem times_eq (f : Nat → Nat → Nat) (k r : Nat) : times (f · 0) k r = (List.replicate k 0).foldl f r := by
  induction k generalizing r with
  | zero => rfl
  | succ k ih =>
    simp only [List.replicate_succ, List.foldl_cons, times]
    split <;> rename_i h <;> rw [h] <;> exact ih _

theorem toBytes_zero (n : Nat) : toBytes 0 n = List.replicate n 0 := by
  induction n with
  | zero => rfl
  | succ n ih => simp only [toBytes, Nat.zero_div, Nat.zero_mod, ih, List.replicate_succ]

/-- The CRC-32C of 4,096 zero bytes, which the entry of a load in order states. -/
theorem test_vault_crc : crc32c (toBytes 0 4096) = 0x98F94189 := by
  rw [toBytes_zero, crc32c, ← times_eq]
  decide +kernel

theorem ofBytes_zero (n : Nat) : ofBytes (List.replicate n 0) = 0 := by
  induction n with
  | zero => rfl
  | succ n ih => simp only [List.replicate_succ, ofBytes, ih]

theorem test_vault_source : ∀ r ∈ [false, true], (loading 0x98F94189 r).readVal .director 0x4000 4096 = 0 := by
  intro r hr
  have h : ((List.range 4096).all fun i => (loading 0x98F94189 r).readByte .director (0x4000 + i) == 0) = true := by
    revert r; decide +kernel
  generalize loading 0x98F94189 r = s at h ⊢
  have g : ∀ i ∈ List.range 4096, s.readByte .director (0x4000 + i) = 0 := fun i hi => eq_of_beq (List.all_eq_true.mp h i hi)
  rw [State.readVal, List.map_congr_left (g := fun _ => 0) g, List.map_const', List.length_range]
  exact ofBytes_zero 4096

/-- The lead of an instance of one rank in partition 7, between steps: it may plan. -/
def leading : Inst := { Inst.reset with phase := .running, members := [⟨0, [], 0, 0⟩], acks := [⟨0, [], 0, true, []⟩] }
def withLead (i : Inst) : State := withEff (withInst (inMode .serving) 7 i) [(pk 0x5831 8, 1), (pk 0x5832 8, 0), (pk 0x5833 8, 0)]
/-- Rank 1 of an instance of two ranks in partition 7, whose lead is rank 0. -/
def withFollower (i : Inst) : State := withEff (withInst (inMode .serving) 7 i) [(pk 0x5831 8, 2), (pk 0x5832 8, 1), (pk 0x5833 8, 0)]
def following : Inst := { Inst.reset with phase := .running }
def aPlan : PlanNote := ⟨okSheet, 0, [], [], [], [], [], [], [], []⟩

theorem test_step_is_planned : State.reset.mayPlan 7 = false ∧ ((withLead leading).fwHolds = false ∧ (withLead leading).mayPlan 7 = true) ∧
    (let s := withLead { leading with plan := some aPlan, nextApply := anyStep }
     s.serving 7 = true ∧ s.isLead 7 = true ∧ (s.inst 7).plan = some aPlan ∧ aPlan.sheet = okSheet ∧ (s.inst 7).nextApply = anyStep ∧
       csInst okSheet = s.eff' (pk 0x5830 8) ∧ lookup (s.inst 7).sheets (csStep okSheet) = none ∧ (s.inst 7).run = none ∧
       s.entriesFor 7 okSheet [2, 3] = [] ∧ s.entriesFor 7 okSheet [7] = []) ∧
    (let s := withFollower following
     let c := { okSheet with take := [2 * 2 ^ 252 + 2 ^ 177] }
     s.serving 7 = true ∧ s.isLead 7 = false ∧ (s.inst 7).nextApply = csStep c ∧ csInst c = s.eff' (pk 0x5830 8) ∧
       lookup (s.inst 7).sheets (csStep c) = none ∧ (s.inst 7).run = none ∧
       s.entriesFor 7 c [2, 3] ++ s.entriesFor 7 c [7] = [2 * 2 ^ 252 + 2 ^ 177] ∧ tkOp (2 * 2 ^ 252 + 2 ^ 177) = 2) := by decide +kernel

/-- The attention commands of layer 0, issued. -/
def attended : List (Nat × Nat × Nat × Nat) :=
  [(80, 0x40, 0, 0), (80, 0x41, 0, 0)] ++ (List.range 12).map (fun st => (64 + st, 0x01, 0, 0)) ++ (List.range 16).map fun r => (80 + r,
    0x42, 0, 0)
theorem test_step_is_run : (let s := withFollower { following with allocated := [0], sheets := [(0, okSheet)] }
     s.fwHolds = false ∧ s.serving 7 = true ∧ s.enginesRun = true ∧ (s.inst 7).run = none ∧ (s.inst 7).applying = none ∧
       (s.inst 7).nextApply ∈ (s.inst 7).allocated ∧ (lookup (s.inst 7).sheets (s.inst 7).nextApply).isSome = true) ∧
    (let s := withLead { leading with plan := some aPlan }
     s.isLead 7 = true ∧ (s.inst 7).plan.isSome = true ∧ (s.inst 7).notice = none ∧ 0 < s.instSize 7 ∧ lookup (s.inst 7).reports 0 = none) ∧
    (let s := withFollower { following with run := some 0, sheets := [(0, okSheet)], issued := attended }
     s.isLead 7 = false ∧ (s.inst 7).run = some 0 ∧ (s.inst 7).broken = false ∧ (s.inst 7).reported = false ∧ (s.inst 7).todo = [] ∧
       (s.inst 7).words = [] ∧ (s.inst 7).wordsDue = [] ∧ (∀ r ∈ (s.inst 7).watches, r.stage = .closed) ∧
         s.stepDone 7 = true) := by decide +kernel
theorem test_step_copies : (withFollower { following with allocated := [0], sheets := [(0, okSheet)] }).copiesGood 7 0 := by
  unfold State.copiesGood; decide +kernel

/-- A notice of step 0 that abandons it, or not. -/
def aNotice (abandoned : Bool) : Notice := ⟨0, 0, 0, abandoned, 0, [], [], false⟩
theorem test_step_is_committed : (let s := withLead { leading with plan := some aPlan, reports := [(0, [])] }
     s.isLead 7 = true ∧ (s.inst 7).plan = some aPlan ∧ (s.inst 7).notice = none ∧ (s.inst 7).reports.length = s.instSize 7) ∧
    (let s := { withLead { leading with plan := some aPlan } with now := 500000000 }
     aPlan.time + 500000000 ≤ s.now ∧ (s.inst 7).reports.length < s.instSize 7) ∧
    (let s := withPars (withLead { leading with plan := some aPlan }) [(pk 0x4011 8, 1)]
     (s.inst 7).plan = some aPlan ∧ (s.inst 7).notice = none ∧ s.absentRanks 7 ≠ []) ∧
    (∀ b ∈ [true, false], (let s := withFollower { following with run := some 0, reported := true, sheets := [(0, okSheet)] }
     s.isLead 7 = false ∧ s.serving 7 = true ∧ (aNotice b).inst = s.eff' (pk 0x5830 8) ∧ (aNotice b).step = (s.inst 7).nextApply ∧
       (s.inst 7).applying = none ∧ ((aNotice b).abandoned = true ∧ s.servingHeld 7 true = false ∨
         ((s.inst 7).run = some (aNotice b).step ∧ (s.inst 7).reported = true)) ∧
       s.entriesFor 7 ((s.inst 7).sheet (aNotice b).step) [4, 5] = [])) ∧
    (let s := withLead { leading with acks := [] }
     s.isLead 7 = true ∧ s.serving 7 = true ∧ 0 < s.instSize 7 ∧ (s.inst 7).acks = []) ∧
    (let s := withFollower { following with run := some 0, wordsDue := [0xFFFFFF], words := [0xFFFFFF], issued := attended }
     (s.inst 7).run = some 0 ∧ s.stepDone 7 = true ∧ (∀ r ∈ (s.inst 7).watches, r.stage = .closed) ∧ 0xFFFFFF ∈ (s.inst 7).wordsDue ∧
       bits (2 ^ 64 - 1) 63 40 ∈ (s.inst 7).words) := by decide +kernel

/-- The lead with one request of this kind waiting in its ring at 0x1000. -/
def requested (kind : Nat) : State :=
  { withWord (withEff (withPlaces (withLead leading) 7 [(0, 0x2000)]) [(pk 0x583B 8, 0x1000), (pk 0x583C 8,
    16)]) 0x1000 128 (kind * 2 ^ 1020) with
    doors := [(16 * 7, 1)] }
theorem test_ring_entries : (∀ k ∈ [1, 2, 3], (let s := requested k
     s.mayPlan 7 = true ∧ (s.inst 7).readAhead < planRequests ∧ 0 < s.requestsWaiting 7 ∧
       reqKind (s.readVal .rings (s.eff' (pk 0x583B 8) + s.door 7 1 % s.eff' (pk 0x583C 8) * 128) 128) = k)) ∧
    (State.reset.mayPlan 7 = false ∧ (State.reset.inst 7).phase ≠ .stopped) ∧
    (let s := { withEff (withPlaces (withLead { leading with plan := some aPlan, reports := [(0, [])] }) 7 [(0, 0x2000)])
       [(pk 0x583D 8, 0x1000), (pk 0x583E 8, 16)] with doors := [(16 * 7 + 2, 1)] }
     s.isLead 7 = true ∧ (s.inst 7).plan.isSome = true ∧ (s.inst 7).notice = none ∧ (s.inst 7).reports.length = s.instSize 7 ∧
       0 < s.cancelsWaiting 7 ∧ (s.inst 7).cancelAhead < commitCancels ∧ s.clean .rings 0x1000 16 ∧
         (s.inst 7).seq (bits (s.readVal .rings 0x1000 16) 127 104) = none) := by
  decide +kernel

theorem test_take_list_entries : (let e := 1 * 2 ^ 252 + 0xFFFFFF * 2 ^ 228
     let s := withFollower { following with run := some 0, todo := [e], homes := [(0xFFFFFF, ⟨0, 0, false, false⟩)] }
     (s.inst 7).run = some 0 ∧ (s.inst 7).todo.find? (fun e => tkOp e == 1 && bits e 251 228 == 0xFFFFFF) = some e ∧
       (lookup (s.inst 7).homes 0xFFFFFF).isSome = true ∧ s.clean .director 0x1000 (4 * (draftCount e + 1))) ∧
    (∀ l ∈ [[2 * 2 ^ 252], [2 * 2 ^ 252, 2 * 2 ^ 252], [1 * 2 ^ 252]], (let s := withFollower { following with todo := l }
     (s.inst 7).run = none ∧ (s.inst 7).applying = none ∧ (s.inst 7).todo = l)) ∧
    (∀ op ∈ [4, 5], (let s := withFollower { following with applying := some (aNotice false), todo := [op * 2 ^ 252, 4 * 2 ^ 252] }
     (s.inst 7).applying = some (aNotice false) ∧ (s.inst 7).todo = [op * 2 ^ 252, 4 * 2 ^ 252] ∧ tkOp (op * 2 ^ 252) = op)) ∧
    (∀ op ∈ [3, 6, 7], (let s := withFollower { following with run := some 0, todo := [op * 2 ^ 252] }
     (s.inst 7).run = some 0 ∧ (s.inst 7).todo.find? (fun e => tkOp e == op) = some (op * 2 ^ 252))) ∧
    (State.reset.inst 7).run = none := by decide +kernel

/-- Context 255 of partition 7 OPEN with generation 255, its serving context. -/
def opened (i : Inst) : State :=
  { withEff (withPlaces (withFollower i) 7 [(0, 0x2000)]) [(pk 0x5834 8, 255)] with ctxs := [(ctxKey 7 255,
    { Ctx.reset with st := .opened, gen := 255 })] }
def batchHeader : Nat := 255 * 2 ^ 412 + 255 * 2 ^ 404 + 2 ^ 448

theorem test_received_batches : State.reset.remoteOk 7 255 255 = false ∧
    (∀ feed ∈ [true, false], (let s := opened following
     let b : AttnBatch := ⟨7, 255, 255, feed, [⟨0, 8, [255]⟩]⟩
     s.remoteOk b.p b.ctx b.gen = true ∧ s.eff' (pk 0x580E (if b.feed then b.p + 1 else b.p + 9)) = 0 ∧
       (if b.feed then (s.pool b.p 0).feed else s.eff' (pk 0x580D (b.p + 1))) + 8 = 8)) ∧
    State.reset.remoteOk 7 (bits batchHeader 419 412) (bits batchHeader 411 404) = false ∧
    (let s := opened { following with run := some 0 }
     s.remoteOk 7 (bits batchHeader 419 412) (bits batchHeader 411 404) = true ∧ s.serving 7 = true ∧
       bInst batchHeader = s.eff' (pk 0x5830 8) ∧
       (s.inst 7).above (bStep batchHeader) = true) := by decide +kernel
theorem test_received_rows : ∀ x, 8 ≤ x → x < 8 + 1 →
    tierOf x = .stack 0 ∧ (opened following).placed 7 x = true ∧ (opened following).badAt (x / 32) = false := span 8 1 (by decide +kernel)

/-- A watched command of layer 0 at a stage, and the re-run of its fallback. -/
def watchRun (st : WatchStage) (rerun : Option Nat) : WatchRun := ⟨0, 0, 0x14, ⟨0, [], none, 1, rerun, false⟩, 1, [], [], st, [], 0, 0⟩
theorem test_norm_watch : (let s := withFollower { following with run := some 0, watches := [watchRun .held none] }
     (s.inst 7).firstWatch .held = some (0, watchRun .held none) ∧ (s.inst 7).run = some 0) ∧
    (let s := withFollower { following with run := some 0, watches := [watchRun .admitted none, watchRun .closed (some 0)] }
     (s.inst 7).firstWatch .admitted = some (0, watchRun .admitted none) ∧
       (s.inst 7).rerunOf (watchRun .admitted none) = some (watchRun .closed (some 0))) ∧
         (State.reset.inst 7).firstWatch .held = none := by decide +kernel

/-- A control entry of partition 7 waiting in its ring at 0x1000, with one context, stream and engine as given. -/
def control (v : Nat) (c : Ctx) (streams : List (Nat × Stream)) : State :=
  { withWord (withPars (withEff (withPlaces (inMode .serving) 7 [(0, 0x800000)]) [(pk 0x5004 8, 0x1000), (pk 0x5005 8,
    16)]) [(pk 0x5001 8, 2)]) 0x1000 64 v with
    doors := [(16 * 7 + 5, 1)], ctxs := [(ctxKey 7 255, c)], streams := streams }
def ctlWord (op gen engine : Nat) : Nat := op * 2 ^ 508 + 255 * 2 ^ 500 + gen * 2 ^ 492 + engine * 2 ^ 483 + 2 * 2 ^ 425 + 16 * 2 ^ 420
def openCtx : Ctx := { Ctx.reset with st := .opened, gen := 255 }

theorem test_control_entries : (∀ x ∈ [(ctlWord 1 0 0, Ctx.reset), (ctlWord 1 255 0, Ctx.reset), (ctlWord 2 255 0, openCtx),
  (ctlWord 3 255 191, openCtx),
      (ctlWord 4 255 191, openCtx), (ctlWord 5 255 255, openCtx), (ctlWord 6 255 191, openCtx)],
    (let s := control x.1 x.2 (if cOp x.1 = 4 then [(streamKey 7 255 191, ⟨128, 4, 0, 0, none, []⟩)] else [])
     s.ctlNext 7 = some 0x1000 ∧ s.clean .rings 0x1000 64 ∧ ahead (s.door 7 5) (s.door 7 6) = 1 ∧
       s.readVal .rings 0x1000 64 = x.1 ∧ cCtx x.1 = 255 ∧ s.heldCtl = [] ∧
       (cOp x.1 = 1 → (s.ctx 7 255).st = .free) ∧ (cOp x.1 ≠ 1 → s.ctlValid 7 x.1 = true ∧ ¬ (s.serving 7 = true ∧ 255 = s.servCtx 7)) ∧
       (cOp x.1 = 3 → (engineKind (cEngine x.1)).isSome = true ∧
         s.ringPlaced 7 (cRing x.1) (64 * 2 ^ clampTo 4 16 (bits x.1 424 420)) = true ∧
         s.stream 7 255 191 = none ∧ s.slotRoom 191 = true) ∧
       (cOp x.1 = 4 → (s.stream 7 255 191).isSome = true ∧ s.streamBusy 7 255 191 = false))) := by decide +kernel

/-- Partition 7's context 255 with one stream on codec unit 191, whose ring at 0x1000 holds a descriptor of this generation. -/
def ringed (gen : Nat) (st : Stream) : State :=
  { withWord (withPlaces (inMode .ready) 7 [(0, 0x2000)]) 0x1000 64 (255 * 2 ^ 240 + gen * 2 ^ 232) with
    ctxs := [(ctxKey 7 255, openCtx)], streams := [(streamKey 7 255 191, st)] }
def emptyHead : Stream := ⟨0x1000, 16, 1, 0, none, []⟩

theorem test_descriptor_fetch : (∀ g ∈ [0, 255], (let s := ringed g emptyHead
     s.stream 7 255 191 = some emptyHead ∧ (s.ctx 7 255).st = .opened ∧ s.engineLive 191 = true ∧
       ahead emptyHead.written emptyHead.fetched ≠ 0 ∧
       s.clean (whoOf 80 7) 0x1000 64 ∧ s.genOk 7 255 (s.readVal (whoOf 80 7) 0x1000 64) = decide (g = 255))) ∧
    (let st := { emptyHead with fetched := 1 }
     (ringed 255 st).stream 7 255 191 = some st ∧ ahead st.written st.fetched = 0) := by decide +kernel

theorem test_cue_write_seen : (let h : Head := ⟨0x1000 * 2 ^ 165, 0, false, none, 0⟩
     let st := { emptyHead with head := some h, fetched := 1 }
     let s := ringed 255 st
     (engineKind (keyEngine (streamKey 7 255 191))).isSome = true ∧ s.enginesRun = true ∧ s.streams = [(streamKey 7 255 191, st)] ∧
       s.host (keyEngine (streamKey 7 255 191)) = keyEngine (streamKey 7 255 191) ∧ hWaitAddr h.desc = 0x1000 ∧
       s.headRuns (streamKey 7 255 191) h = false) := by decide +kernel

/-- A command of codec unit 191 with n units still to run, between two of them. -/
def unitsLeft (n : Nat) : Part := ⟨191, 7, 255, 0, false, 0, 0, false, true, .units n, none, none, false, []⟩
theorem test_unit_complete : (∀ n ∈ [0, 1], (let s := (inMode .ready).setEngine 191 { EngineSt.idle with
       running := some ⟨191, 7, 255, 0, false, 0⟩, going := some (unitsLeft n) }
     s.engineLive 191 = true ∧ (s.engine 191).retired = false ∧ (s.engine 191).going = some (unitsLeft n) ∧ (unitsLeft n).wait = .units n ∧
       (s.ctx 7 255).st ≠ .opened ∧ (s.engine 191).parts = [] ∧ s.streams = [] ∧ s.heldCtl = [] ∧ hSignalAddr (unitsLeft n).desc = 0)) ∧
    (let s := oneHead 191 1 0 0
     s.engineLive 191 = true ∧ (s.engine 191).retired = false ∧ (s.engine 191).running = none ∧ (s.engine 191).going = none ∧
       (s.engine 191).resetting = none ∧ s.isGated 191 = false ∧ s.engines = [] ∧ (∀ x ∈ s.streams, x.2.unbind = []) ∧
         canonC (fun _ => EngineSt.idle) s.engines = true ∧ s.heldCtl = [] ∧ (s.engine 191).waiting = [] ∧
       (s.choose 191).isSome = true ∧ (s.choose 191).all (fun k => k.part.isNone &&
         ((s.stream k.p k.ctx k.e).any fun st => st.head.isSome)) = true) := by
  decide +kernel

theorem test_partitions : (inMode .selftest).mode = .selftest ∧ (inMode .training).mode = .training ∧ (inMode .ready).mode = .ready ∧
    (inMode .ready).par (pk 0x5001 8) = 0 ∧
    (let s := withPars (inMode .serving) [(pk 0x5001 8, 1)]
     s.enginesRun = true ∧ s.mode ≠ .draining ∧ s.par (pk 0x5001 8) = 1 ∧ 7 ∉ s.life.instStarts) ∧
    (let s := withPars (withLead { leading with plan := some aPlan }) [(pk 0x5001 8, 2)]
     s.par (pk 0x5001 8) = 2 ∧ s.serving 7 = true ∧ s.isLead 7 = true ∧ (s.inst 7).plan.isSome = true) ∧
    (let s := withPars (withFollower following) [(pk 0x5001 8, 2)]
     s.par (pk 0x5001 8) = 2 ∧ s.serving 7 = true ∧ s.isLead 7 = false) := by decide +kernel

theorem test_contexts : (let s := { withFollower following with ctxs := [(ctxKey 7 255, { openCtx with st := .fencing })] }
     (s.ctx 7 255).st = .fencing ∧ s.draining 7 255 = false ∧ s.serving 7 = true ∧ s.heldCtl = []) ∧
    (∀ n ∈ [0, 1], (let s := { inMode .serving with ctxs := [(ctxKey 7 255, { openCtx with st := .quarantine, quarEnd := n })] }
     (s.ctx 7 255).st = .quarantine ∧ s.heldCtl = [] ∧ ((s.ctx 7 255).quarEnd ≤ s.now ↔ n = 0))) := by decide +kernel

theorem test_instances : (let s := { withPars (inMode .serving) [(pk 0x5001 8, 2), (pk 0x5834 8, 255)] with ctxs := [(ctxKey 7 255,
  openCtx)] }
     s.mode = .serving ∧ s.mayStart 7 = true) ∧
    (∀ standby ∈ [true, false], (let s := withLead { Inst.reset with phase := .starting }
     let a := { okStart with size := 1, node := 0xFFFF, standby := standby }
     s.isLead 7 = true ∧ s.serving 7 = true ∧ a.inst = s.eff' (pk 0x5830 8) ∧ a.size = s.instSize 7 ∧ a.lead = s.leadRank 7 ∧
       a.gen = (s.ctx 7 (s.servCtx 7)).gen ∧ a.rank < s.instSize 7 ∧ s.rankNode 7 a.rank = a.node ∧
       (s.inst 7).members = [] ∧ (s.inst 7).phase = .starting ∧ (s.inst 7).members.length + 1 = s.instSize 7)) ∧
    (let s := withLead { leading with plan := some aPlan }
     s.isLead 7 = true ∧ (s.inst 7).plan.isSome = true ∧ (s.inst 7).phase = .running ∧ s.serving 7 = true) := by decide +kernel
theorem test_instance_map : ({ okStart with mapCrc := (withLead leading).rankMapCrc 7 } : StartAck).mapCrc = (withLead leading).rankMapCrc 7 := rfl

/-- A powered state with other power data. -/
def powered (q : PowerSt) : State := { inMode .ready with power := q }

theorem test_precharge : (inMode .off).mode = .off ∧
    (let s := { inMode .precharge with now := 200000000 }
     s.mode = .precharge ∧ s.power.preFail = none ∧ bulkReady 390000 400000 = true ∧ s.now ≤ s.power.preSince + 200000000 ∧
       bulkReady 389999 400000 = false ∧ s.power.preSince + 200000000 ≤ s.now) ∧
    (let s := { inMode .precharge with now := 10000000000, power := { PowerSt.reset with preFail := some 0 } }
     s.mode = .precharge ∧ s.power.preFail = some 0 ∧ 0 + 10000000000 ≤ s.now) := by decide +kernel

theorem test_supply : ((inMode .ready).powered = true ∧ (inMode .ready).mode ≠ .removable ∧ (inMode .ready).power.holdUp = false ∧
      329999 < 330000 ∧ 430000 < 430001 ∧ (inMode .ready).power.sag = false ∧ 349999 < 350000 ∧ (inMode .ready).power.derateN = false ∧
      (inMode .ready).power.supply = false) ∧
    (let s := powered { PowerSt.reset with holdUp := true, volts := [300000] }
     s.powered = true ∧ s.power.holdUp = true ∧ s.power.overVolt = false ∧ 350000 < 350001 ∧ 430000 ≤ 430000) ∧
    (let s := powered { PowerSt.reset with holdUp := true, overVolt := true }
     s.powered = true ∧ s.power.holdUp = true ∧ s.power.overVolt = true ∧ 330000 ≤ 330000 ∧ 424999 < 425000) ∧
    (let s := powered { PowerSt.reset with signs := [(failedKey ukPhase (physical 3 0 0), 0), (failedKey ukPhase (physical 3 0 0), 0)] }
     ((s.signs (failedKey ukPhase (physical 3 0 0)) 1000000000).filter fun x => x.1 == failedKey ukPhase (physical 3 0 0)).length = 2) ∧
    (((inMode .ready).signs (failedKey ukStage (physical 0 0 0)) hourNs).filter fun x => x.1 == failedKey ukStage (physical 0 0 0)).length < 2 ∧
    (let s := { powered { PowerSt.reset with derateN := true, clearAt := some 0 } with now := 1000000000 }
     s.power.derateN = true ∧ s.power.clearAt = some 0 ∧ 0 + 1000000000 ≤ s.now) ∧
    failedKey ukPhase (physical 3 0 0) ∉ (inMode .ready).retired ∧
      failedKey ukStage (physical 0 0 0) ∉ (inMode .ready).retired := by decide +kernel

theorem test_governor : ((inMode .ready).governed = true ∧ (inMode .ready).op = (inMode .ready).power.target ∧
  (inMode .ready).power.fast = false ∧
      (inMode .ready).par (pk 0x3200 0) * (inMode .ready).limit ≤ 5000 * 100) ∧
    (let s := powered { PowerSt.reset with enforced := 5000, fast := true }
     s.governed = true ∧ s.limit < s.power.enforced ∧ s.power.fast = true ∧ 0 ≤ s.limit ∧ s.limit < 5000) ∧
    (let s := powered { PowerSt.reset with target := 15 }
     s.governed = true ∧ s.op ≠ s.power.target) ∧
    (let s := { powered { PowerSt.reset with droop := [(3, ⟨8, 0, 0, true⟩)] } with now := 256 }
     lookup s.power.droop 3 = some ⟨8, 0, 0, true⟩ ∧ 0 + 256 ≤ s.now ∧ lookup s.power.droop 2 = none) ∧
    (let s := { inMode .ready with now := 1000000 }
     1 * 100 < s.par (pk 0x3200 0) * s.limit ∧ 1 * 100 ≤ s.par (pk 0x3201 0) * s.limit ∧ (∀ n ∈ [1, 4, 6, 7], (s.pennant n).since = none) ∧
       s.power.gateSince + 1000000 ≤ s.now ∧ 0 ≤ s.account) := by decide +kernel

theorem test_heat : (inMode .ready).governed = true ∧ ((inMode .ready).powered = true ∧ (inMode .ready).mode ≠ .safe ∧
  (inMode .ready).tripped 91 110 = true) ∧
    (inMode .ready).tripped 91 109 = false ∧
    (let s := powered { PowerSt.reset with flowLow := 2 }
     s.powered = true ∧ s.power.flowLow = 2 ∧ 799 < 800) ∧
    ((inMode .ready).power.pumpLoss = false ∧ (inMode .ready).power.outlets[249]? = none) := by decide +kernel

/-- A module with a lease in force, in a trading group of nodes 0 and 1. -/
def trading : State :=
  { withPars (powered { PowerSt.reset with group := 1, leaseSeq := some 0, owed := [(1, 5)] }) [(pk 0x3102 0, 1),
      (pk 0x3110 0, 2 ^ 1024 - 2 ^ 32 + 1 * 2 ^ 16)] with now := 1 }
theorem test_leases : State.reset.power.leaseSeq = none ∧ State.reset.par (pk 0x3100 1) ≠ 0 ∧
    (trading.power.leaseSeq = some 0 ∧ ¬ 0 < trading.par (pk 0x3100 3) ∧ trading.par (pk 0x3102 0) ≠ 2) ∧
    (trading.par (pk 0x3102 0) = 1 ∧ trading.par (pk 0x3103 0) < trading.now) ∧
    (let s := withPars trading [(pk 0x3103 0, 1)]
     s.par (pk 0x3102 0) = 1 ∧ s.now ≤ s.par (pk 0x3103 0)) ∧
    (trading.trades = true ∧ 1 ∈ trading.tradeMembers ∧ trading.power.grant < 2 ^ 32) ∧ State.reset.trades = false ∧
    (trading.power.planAt = none ∧ trading.power.ending = [] ∧ trading.power.lastWindow ≠ some (trading.now / 1000000) ∧
      trading.now % 1000000 ≤ 300000) ∧
    (let s := { trading with now := 300001, power := { trading.power with planAt := some (⟨0, 0, [], 0, 0⟩, 1), lastWindow := some 0 } }
     s.power.planAt = some (⟨0, 0, [], 0, 0⟩, 1) ∧ 1 + 300000 ≤ s.now ∧ s.trades = true ∧ 1 ≠ s.now / 1000000 ∧ 300000 < s.now % 1000000) ∧
    trading.tradeOffset + (min 7 ((lookup trading.power.owed 1).getD 0) : Nat) < 2 ^ 31 := by decide +kernel

/-- An engine that has run a unit of context 255 of partition 7 since time 0. -/
def busy (e : Nat) : State :=
  { (inMode .ready).setEngine e { EngineSt.idle with running := some ⟨e, 7, 255, 0, false, 0⟩ } with now := 3600 * 10 ^ 9 }
theorem test_watchdogs : ∀ e ∈ [0, 63, 64, 75, 80, 95, 96, 99, 128, 191], ((engineKind e).isSome = true ∧ (busy e).engineLive e = true ∧
    (busy e).enginesRun = true ∧ ((busy e).engine e).retired = false ∧ ((busy e).engine e).resetting = none ∧
    ((busy e).engine e).running.isSome = true ∧ ((busy e).engine e).since + watchdogMs e * 1000000 ≤ (busy e).now ∧
    (64 ≤ e → e < 76 → ((busy e).fwInst (512 + (e - 64))).slot.st ≠ 2)) := by decide +kernel

/-- A reset of an engine begun at time 0 that is the n-th of its window, and which lost a command of the Director. -/
def resetting (e n now : Nat) : State :=
  { (inMode .ready).setEngine e { EngineSt.idle with resetting := some ⟨0, ekMesh, some (7, 0), n⟩ } with now := now }
theorem test_engine_resets : (let s := resetting 191 1 200000
     (s.engine 191).resetting = some ⟨0, ekMesh, some (7, 0), 1⟩ ∧ s.now ≤ 0 + 200000 ∧ 1 < s.par (pk 0x7022 0) ∧
       (s.engine 191).running = none ∧
       (s.engine (191 + 256)).running = none) ∧
    (let s := resetting 63 255 200000
     (s.engine 63).resetting = some ⟨0, ekMesh, some (7, 0), 255⟩ ∧ s.now ≤ 0 + 200000 ∧ s.par (pk 0x7022 0) ≤ 255) ∧
    (let s := resetting 191 1 200001
     (s.engine 191).resetting.isSome = true ∧ 0 + 200000 < s.now ∧ s.live = true) ∧
    (let st := { emptyHead with head := some ⟨2 ^ 230, 0, false, none, 0⟩ }
     let s := { ringed 255 st with now := 500000000 }
     s.stream 7 255 191 = some st ∧ hRemote (2 ^ 230) = true ∧ 0 + 500000000 ≤ s.now ∧ (s.engine (s.host 191)).parts = [] ∧
       s.headRuns (streamKey 7 255 191) ⟨2 ^ 230, 0, false, none, 0⟩ = false) ∧
    (let q : Part := ⟨95, 7, 255, 2 ^ 230, false, 0, 0, false, false, .issue, none, none, true, []⟩
     let s := { (opened following).setEngine 95 { EngineSt.idle with parts := [q] } with now := 500000000 }
     (s.engine (s.host 95)).parts = [q] ∧ hRemote q.desc = true ∧ q.since + 500000000 ≤ s.now ∧ s.stream 7 255 95 = none ∧
       s.serving 7 = true ∧
       s.servCtx 7 = 255) ∧
    (∀ l ∈ [[], [(5, 1, 0), (5, 2, 0)]], ∀ k ∈ [0, 2],
      (let s := { (inMode .ready).setEngine 191 { EngineSt.idle with meshRun := k } with meshHits := l }
     (s.engine 191).resetting = none ∧ s.enginesRun = true ∧ (s.engine 191).retired = false ∧ s.live = true ∧ (s.engine 191).meshRun = k ∧
       (s.meshHits.filter fun h => s.now ≤ h.2.2 + 1000000 && h.1 == 5 && h.2.1 != 191).length = l.length)) := by decide +kernel

def dumping : State := { inMode .fenced with dumpRun := some ⟨3, 8, 0, 0, 0⟩ }
theorem test_fatal : (inMode .ready).live = true ∧ State.reset.live = false ∧
    ((inMode .ready).directorRuns = true ∧ ((inMode .ready).fwInst 256).slot.st ≠ 2 ∧ (inMode .ready).par spareDirectorKey = 0) ∧
    (withPars (inMode .ready) [(spareDirectorKey, 1)]).par spareDirectorKey ≠ 0 ∧ (inMode .ready).dumpRun = none ∧
    (dumping.dumpRun = some ⟨3, 8, 0, 0, 0⟩ ∧ dumping.life.restart = none) ∧
    (let s := withPars { inMode .ready with retired := [ukCell * 2 ^ 16] } [(spareCellKey 0, 2)]
     s.restoreKey (ukCell * 2 ^ 16) = some (spareCellKey 0) ∧ ukCell * 2 ^ 16 ∈ s.retired ∧ s.par (spareCellKey 0) ≠ 0) ∧
    ((inMode .ready).power.refLost = none ∧ (inMode .ready).powered = true) ∧
    (∀ n ∈ [1000000, 1000001], (let s := { powered { PowerSt.reset with refLost := some 0 } with now := n }
     s.power.refLost = some 0 ∧ s.live = true ∧ (0 + 1000000 < s.now ↔ n = 1000001))) ∧
    (∀ n ∈ [14, 15], (let s := { inMode .ready with bridges := [(5, (9, n))] }
     s.powered = true ∧ s.live = true ∧ lookup s.bridges 5 = some (9, n))) := by decide +kernel

/-- A request without a session, of an operation and body. -/
def request (op : Nat) (body : List Nat) : Pdu := { okPdu with op := op, body := body }
/-- The bytes of one item. -/
def itemOf (index sub ty : Nat) (value : List Nat) : List Nat := toBytes index 2 ++ [sub, ty] ++ toBytes value.length 2 ++ [0, 0] ++ value
def subscribed : State := { inMode .ready with subs := [(15, ⟨1, 0, 1, 0, 1, 0, 0, 0, [(1, 1)], 0, 0⟩)] }

theorem test_requests_observed : ∀ p ∈ [request 0x01 [0], request 0x01 [], request 0x03 [], request 0x04 [],
  request 0x05 (itemOf 0x1030 0 11 [0, 0, 0, 0]),
    request 0x30 [], request 0x20 (List.replicate 32 255), request 0x21 [15], request 0x23 [1, 0, 0, 0]], subscribed.observed 1 0 p := by
  unfold State.observed State.takes; decide +kernel
theorem test_requests_bodies : parseItems 64 [0] = none ∧ parseItems 64 [] = some [] ∧
    parseItems 64 (itemOf 0x1030 0 11 [0, 0, 0, 0]) = some [⟨0x1030, 0, 11, [0, 0, 0, 0], 0⟩] ∧
    (let q := (accruePennants subscribed).2.readItem false ⟨0x1030, 0, 11, [0, 0, 0, 0], 0⟩
     q.2.isSome = true ∧ q.1.ty = 11) ∧ 1 ≠ 2 ∧
    ((request 0x20 (List.replicate 32 255)).body.length = 32 ∧
      (subscribed.subs.find? fun u => u.2.path == 1 && u.2.dest == 0 && u.2.mask == ofBytes (List.replicate 32 255)) = none ∧
        subscribed.freeSub = some 0) ∧
    ((subscribed.subAt 15).path = 1 ∧ (subscribed.subAt 15).dest = 0) ∧ (lookup subscribed.subs 15).isSome = true := by decide +kernel

/-- A session on the maintenance path, challenged or open. -/
def aSession (isOpen : Bool) (blob : Option BlobXfer) : Session := ⟨1, 3, 1, 0, isOpen, [], [], [], 0, 0, none, 0, 0, blob⟩
def withSession (x : Session) : State := { inMode .ready with elo := { EloSt.reset with sessions := [x] } }

/-- The published digest of SHA-256 for the message abc. -/
theorem test_sha256 : sha256 [0x61, 0x62,
  0x63] = beBytes 0xBA7816BF8F01CFEA414140DE5DAE2223B00361A396177A9CB410FF61F20015AD 32 := by decide +kernel

theorem test_challenge : (∀ role ∈ [1, 3], (let p := request 0x10 (role :: List.replicate 16 0)
    (inMode .ready).observed 1 0 p ∧ p.op = 0x10 ∧ p.body.length = 17 ∧ p.body.head? = some role ∧ (inMode .ready).lockedOut 1 0 = false ∧
      ((inMode .ready).elo.sessions.filter fun x => x.isOpen).length < 16)) := by
  unfold State.observed State.takes; decide +kernel

/-- The key of the factory role once it is not zero. -/
def keyed : State := withPars (withSession (aSession false none)) [(roleKey 3, 1)]
theorem test_login : (∀ body ∈ [List.replicate 32 0, keyed.proof (aSession false none) (toBytes (keyed.par (roleKey 3)) 32)],
    (let p := { request 0x11 body with session := 1, seq := 1 }
     keyed.takes 1 0 p ∧ p.tagged = false ∧ keyed.session p.session = some (aSession false none) ∧
       keyed.now < (aSession false none).born + 5000000000 ∧
       p.body.length = 32)) ∧ (∃ b ∈ toBytes (keyed.par (roleKey 3)) 32, b ≠ 0) ∧
    List.replicate 32 0 ≠ keyed.proof (aSession false none) (toBytes (keyed.par (roleKey 3)) 32) := by
  unfold State.takes; decide +kernel

/-- A tagged request of the open session. -/
def tagged (flags op : Nat) (body : List Nat) : Pdu :=
  let p : Pdu := ⟨1, op, flags, 0, 1, 0, 1, body, []⟩
  { p with tag := hmac [] (p.header ++ p.body) }
theorem test_in_session : ∀ p ∈ [tagged 2 0x12 [], tagged 6 0x06 (itemOf 0x3110 0 11 [0, 0, 0, 0]), tagged 2 0x02 (itemOf 0x1008 0 3 [0]),
    tagged 2 0x02 (itemOf 0x7802 0 3 [1, 0, 0, 0])], (withSession (aSession true none)).inSession 1 0 p (aSession true none) := by
  unfold State.inSession State.takes; decide +kernel
theorem test_in_session_bodies :
    (parseItems 64 (itemOf 0x3110 0 11 [0, 0, 0, 0]) = some [⟨0x3110, 0, 11, [0, 0, 0, 0], 0⟩] ∧
      (dictFind 0x3110 0).all (fun r => r.ty == .blob) = true ∧
      (dictFind 0x3110 0).isSome = true ∧ writeCheck 3 false ⟨0x3110, 0, 11, [0, 0, 0, 0], 0⟩ = 0 ∧ ofBytes [0, 0, 0, 0] = 0 ∧
        bit 6 2 = true) ∧
    (let x := aSession true (some ⟨pk 0x3110 0, [], 0⟩)
     x.blob = some ⟨pk 0x3110 0, [], 0⟩ ∧ ofBytes [0, 0, 0, 0] = ([] : List Nat).length) ∧
    writeCheck 3 false ⟨0x1008, 0, 3, [0], 0⟩ ≠ 0 ∧ parseItems 64 (itemOf 0x1008 0 3 [0]) ≠ none ∧
    (parseItems 64 (itemOf 0x7802 0 3 [1, 0, 0, 0]) = some [⟨0x7802, 0, 3, [1, 0, 0, 0], 0⟩] ∧
      writeCheck 3 false ⟨0x7802, 0, 3, [1, 0, 0, 0], 0⟩ = 0 ∧
      (dictFind 0x7802 0).isSome = true ∧ (dictFind 0x7802 0).all (fun r => r.acc == .rwp) = true ∧ 0x7802 < 0x9001 ∧
      dependents (pk 0x7802 0) = [pk 0x7802 0] ∧ isUserCal 0x7802 = false) := by decide +kernel
theorem test_plain_parameter : ∀ (u : State) v, u.dependValue (pk 0x7802 0) v = v := fun _ _ => rfl

theorem test_timeouts : (let s := { withSession (aSession false none) with now := 5000000000 }
     s.session 1 = some (aSession false none) ∧ (aSession false none).born + 5000000000 ≤ s.now) ∧
    (let x := aSession true (some ⟨0, [], 0⟩)
     let s := { withSession x with now := 60000000000 }
     s.session 1 = some x ∧ x.isOpen = true ∧ x.last + 60000000000 ≤ s.now ∧ 0 + 5000000000 ≤ s.now) ∧
    (let s := { subscribed with now := 100000000 }
     (lookup s.subs 15).any (fun u => u.queue.any (fun x => x.1 != 0) && u.path != 2 && decide (u.lastSend + 100000000 ≤ s.now) &&
       decide (u.resends < 10)) = true) ∧
    (let s := { inMode .ready with elo := { EloSt.reset with due := some 0 } }
     s.elo.due.isSome = true ∧ s.powered = true) ∧
    0x2810 ∈ (withPars State.reset [(pk 0x2810 1, 1)]).calRecords := by decide +kernel

/-- A host port whose link is up. -/
def aPort : HostPort := { HostPort.reset with up := true, window := 1, bme := true }
/-- Port 3 up, in a module state, with partition 7's placement and its reach given. -/
def ported (m : ModuleState) (q : HostPort) (reach : Nat) : State :=
  { withPars (withPlaces (inMode m) 7 [(0, 0x2000)]) [(pk 0x5002 8, reach)] with hostPorts := [(3, q)] }

theorem test_port_registers : ((ported .serving aPort 8).hostPort 3).up = true ∧ bufferOffset 0x3FFFFFC = false ∧ 0x3FFFFFC % 8 = 4 ∧
  0x3FFFFF8 % 8 = 0 ∧ bufferOffset 0x3FFFFF8 = false ∧
    (let s := ported .serving { aPort with latch := some (0x3FFFFFC / 8 * 8, 5) } 8
     (s.hostPort 3).latch = some (0x3FFFFFC / 8 * 8, 5) ∧ (s.hostPort 3).up = true) ∧
    ([0, 0, 0, 0, 0xFF, 0, 0, 0x80] : List Nat).length = 8 ∧ hasLow .low = true ∧ hasLow .whole = true ∧
    (let s := withPars (ported .serving aPort 8) [(pk 0x4801 0, 7)]
     bit (s.par (pk 0x4801 0)) 3 = false) ∧
    (let s := withPars (ported .serving aPort 8) [(pk 0x4801 0, 15)]
     bit (s.par (pk 0x4801 0)) 3 = true ∧ s.directorRuns = true ∧ 700 ≤ 700 % 2 ^ 13 ∧ s.gradeCeiling % 2 ^ 13 ≤ s.gradeCeiling) ∧
    (let s := { ported .serving aPort 8 with subs := [(0, ⟨2, 3, 1, 0, 1, 0, 0, 0, [], 0, 0⟩)] }
     (lookup s.subs 0).any (fun u => u.path == 2 && u.dest == 3) = true) := by decide +kernel

theorem test_mailbox : ((ported .serving { aPort with mbxState := 1 } 8).hostPort 3).mbxState = 1 ∧
  (ported .fenced aPort 8).mode = .fenced ∧
    (let s := ported .serving { aPort with req := putBytes [] 0 [1, 4, 1, 0, 1] } 8
     (s.hostPort 3).mbxState ≠ 1 ∧ s.mode = .serving ∧ pduOf (getBytes (s.hostPort 3).req 0 (clampTo 16 4096 (15 % 2 ^ 13))) = none) ∧
    (let s := ported .serving { aPort with req := putBytes [] 0 (request 0x04 []).bytes } 8
     let p := request 0x04 []
     (s.hostPort 3).mbxState ≠ 1 ∧ pduOf (getBytes (s.hostPort 3).req 0 (clampTo 16 4096 (16 % 2 ^ 13))) = some p ∧ p.framed 2 = true ∧
       p.session = 0 ∧ p.tagged = false ∧ p.op = 0x04 ∧ s.slotsOf 2 3 = []) := by decide +kernel

theorem test_doorbells : (ported .serving aPort 7).portReaches 3 7 = false ∧ (ported .fenced aPort 8).mode = .fenced ∧
    ((ported .serving aPort 8).portReaches 3 7 = true ∧ (ported .serving aPort 8).mode ≠ .fenced ∧
      (ported .serving aPort 8).par (pk 0x7803 0) ≠ 1) ∧
    (let s := { ported .serving aPort 8 with streams := [(streamKey 7 255 191, emptyHead)], ctxs := [(ctxKey 7 255, openCtx)] }
     let v := 255 * 2 ^ 48 + 191 * 2 ^ 40 + 7
     s.stream 7 (bits v 55 48) (bits v 47 40) = some emptyHead ∧ (s.ctx 7 (bits v 55 48)).st = .opened ∧
       emptyHead.unbind = []) := by decide +kernel

/-- BAR2 offset 0x1FC0 of segment 15, which maps module address 0x1FC0. -/
def segmented (reach : Nat) : State := ported .serving { aPort with segs := [(15, 2 ^ 63)] } reach
theorem test_bar2 : ((segmented 8).hostPort 3).up = true ∧ (segmented 8).bar2Off = false ∧ (15 * 2 ^ 32 + 0x1FC0) % 64 + 64 ≤ 64 ∧
    (segmented 8).bar2Address 3 (15 * 2 ^ 32 + 0x1FC0) = some 0x1FC0 ∧ (segmented 8).bar2Line 3 0x1FC0 = true ∧
    (segmented 8).clean .director 0x1FC0 64 ∧ (segmented 7).bar2Line 3 0x1FC0 = false ∧ (segmented 8).mode ≠ .fenced ∧
    (15 * 2 ^ 32 + 0x1FF8) % 8 = 0 ∧ (segmented 8).bar2Address 3 (15 * 2 ^ 32 + 0x1FF8) = some 0x1FF8 ∧
      (segmented 8).bar2Line 3 0x1FF8 = true ∧
    (segmented 8).atomicOk .director 0x1FF8 = true ∧ (segmented 8).clean .director 0x1FF8 8 := by decide +kernel
theorem test_bar2_write : ∀ x, 0x1FC0 ≤ x → x < 0x1FC0 + 64 → (tierOf x).isT0T1 = true ∧ (segmented 8).badAt (x / 32) = false :=
  span 0x1FC0 64 (by decide +kernel)

theorem test_host_reads : (let s := { ported .serving aPort 8 with hostReads := [(3, 0x7FFFFFFFFFC0, 64, 0)], now := 10000000 }
    0x400000000000 ≤ 0x7FFFFFFFFFC0 ∧ 0x7FFFFFFFFFC0 + 64 ≤ 0x800000000000 ∧ (List.replicate 64 1).length = 64 ∧
      (s.hostReads.find? fun r => r.1 == 3 && r.2.1 == 0x7FFFFFFFFFC0 && decide (64 ≤ r.2.2.1) &&
        !(List.replicate 64 1).isEmpty) = some (3, 0x7FFFFFFFFFC0, 64, 0) ∧
      (s.hostReads.find? fun r => r.1 == 3 && r.2.1 == 0x7FFFFFFFFFC0 &&
        decide (r.2.2.2 + 10000000 ≤ s.now)) = some (3, 0x7FFFFFFFFFC0, 64, 0)) := by
  decide +kernel

theorem test_host_links : ((ported .serving aPort 8).hostPort 3).up = true ∧ ((inMode .ready).portsTrain = true ∧
  ((inMode .ready).hostPort 3).perst = false ∧
    ((inMode .ready).hostPort 3).up = false) := by decide +kernel

theorem test_startup : (inMode .boot).par (pk 0x3305 0) ≠ 2 ∧ (inMode .selftest).par (pk 0x2000 4) ≠ 2 ∧
    (withPars (inMode .selftest) [(pk 0x2000 4, 2)]).par (pk 0x2000 4) = 2 ∧ (inMode .selftest).groupStarts 23 = true ∧
    bit ((withPars (inMode .selftest) [(pk 0x4008 0, 2 ^ 23)]).par (pk 0x4008 0)) 23 = true ∧
      bit ((inMode .selftest).par (pk 0x4008 0)) 23 = false ∧
    (let s := { inMode .training with now := 30000000000 }
     s.trainingOver = true ∧ s.life.starts = []) := by decide +kernel

theorem test_drain : (let s := { inMode .draining with now := 600 * 10 ^ 9, life := { LifeSt.reset with drainAt := some 0 } }
     s.mode = .draining ∧ s.life.drainAt = some 0 ∧ 0 + s.par (pk 0x7802 0) * 1000000000 ≤ s.now) ∧
    ((∀ p, p < 8 → (inMode .draining).par (pk 0x5001 (p + 1)) = 0) ∧ (inMode .draining).life.fwCheck = none ∧
      (inMode .draining).life.fwQueue = []) ∧
    ((inMode .fenced).mode = .fenced ∧ (inMode .fenced).dumpRun = none) ∧ dumping.dumpRun.isSome = true ∧
    (let s := { inMode .safe with life := { LifeSt.reset with restart := some 2 } }
     s.life.restart = some 2 ∧ 85 ≤ 85 ∧ s.par (pk 0x3305 0) = 0) ∧
    (inMode .ready).par (pk 0x7803 0) = 0 ∧ (withPars (inMode .ready) [(pk 0x7803 0, 1)]).par (pk 0x7803 0) = 1 := by decide +kernel

/-- A staged image header of kind 7 at 0x1000, with an empty image of CRC-32C 0. -/
def staged (magic : Nat) : State := withWord (inMode .ready) 0x1000 64 (magic * 2 ^ 480 + 7 * 2 ^ 472)
theorem test_fw_stage : ∀ magic ∈ [0, 0x4E465749], (let s := staged magic
    let v := s.readVal .director (alignDown 0x1000 64) 64
    let kind := bits v 479 472
    let n := bits v 399 368 + bits v 335 320
    s.directorRuns = true ∧ s.life.staging = none ∧ s.stageSource (alignDown 0x1000 64) = true ∧
      s.clean .director (alignDown 0x1000 64) 64 ∧
      bits v 511 480 = magic ∧ kind = 7 ∧ s.fwTrial kind = false ∧ s.life.fwQueue = [] ∧ n ≤ fwSlotMib kind * 2 ^ 20 ∧
      s.clean .director (alignDown 0x1000 64 + 64) n ∧
      crc32c (toBytes (s.readVal .director (alignDown 0x1000 64 + 64) n) (bits v 399 368)) = bits v 367 336 ∧
      levelOk s.wireLevel (bits v 407 400) = true) := by decide +kernel

/-- The one instance of kind 7 with a valid image in its other slot, and on trial. -/
def fwHeld (st other : Nat) (passed : Bool) : State :=
  { inMode .ready with now := 3600 * 10 ^ 9, life := { LifeSt.reset with fw := [(0x700, ⟨0, ⟨st, 0, 0, 0⟩, ⟨other, 0, 0, 0⟩, 0,
    passed⟩)] } }
theorem test_fw_switch : (let s := { inMode .ready with life := { LifeSt.reset with staging := some (7, ⟨1, 0, 0, 0⟩) } }
     s.life.staging = some (7, ⟨1, 0, 0, 0⟩)) ∧
    (let s := fwHeld 3 1 true
     fwNamed 0x7FF = [0x700] ∧ s.fwRefuses [0x700] = false ∧ s.life.fwQueue = [] ∧ s.life.fwCheck = none ∧ s.fwReady 0x700 = true ∧
       ((fwNamed 0x7FF).filter fun k => (s.fwInst k).slot.st == 3 && (s.fwInst k).other.st == 1) = [0x700]) ∧
    (inMode .ready).fwRefuses (fwNamed 0x7FF) = true ∧
    (let s := { fwHeld 2 3 false with life := { (fwHeld 2 3 false).life with fwCheck := some 0x700 } }
     s.life.fwCheck = some 0x700 ∧ (s.fwInst 0x700).slot.st = 2 ∧ (s.fwInst 0x700).since + 1000000000 ≤ s.now ∧ s.life.fwQueue = [] ∧
       0x700 / 256 ≠ 3) ∧
    (let s := withPars (fwHeld 2 3 true) [(pk 0x7826 0, 1)]
     (s.fwInst 0x700).slot.st = 2 ∧ (s.fwInst 0x700).passed = true ∧ s.par (pk 0x7826 0) = 1 ∧
       (s.fwInst 0x700).since + s.par (pk 0x7825 0) * 1000000000 ≤ s.now ∧ 0x700 ∈ fwKeys 7) := by decide +kernel

theorem test_upkeep : (let s := { withPars (inMode .ready) [(pk 0x8001 0, 1)] with now := 3600 * 10 ^ 9 }
     s.directorRuns = true ∧ s.par (pk 0x8001 0) ≠ 0 ∧ s.par (pk 0x8001 0) ≤ s.now ∧
       s.life.dailyDone < s.now / (s.par (pk 0x8010 0) * 1000000) ∧
       s.governed = true ∧ s.par (sparePhaseKey 3) = 0 ∧ lookup s.life.cals (16 * 3 + 13) = none) ∧
    (let s := withPars (inMode .ready) [(pk 0x4006 24, 3)]
     s.linkState 23 ≠ 0 ∧ s.linkState 23 ≠ 5 ∧ (s.link 23).txSpare = none ∧ (s.link 23).rxSpare = none) := by decide +kernel

/-- Group 23 in a link state. -/
def linked (st : Nat) (q : LinkGroup) : State := { withPars (inMode .ready) [(pk 0x4006 24, st)] with
  links := [(23, q)], now := 60000000000 }
theorem test_link_groups : ((linked 1 LinkGroup.reset).linkState 23 = 1 ∧ bit ((linked 1 LinkGroup.reset).par (pk 0x4008 0)) 23 = false) ∧
    ((linked 4 LinkGroup.reset).linkState 23 = 4 ∧ lookup (linked 4 LinkGroup.reset).peers 23 = none) ∧
    (∀ l ∈ [[], [1, 2]], (let s := linked 2 { LinkGroup.reset with replay := [(0, [])], retrains := l }
     s.linkRuns 23 = true ∧ (s.link 23).replay ≠ [] ∧ (s.link 23).ackTime + 100000 ≤ s.now ∧
       ((s.link 23).retrains.filter fun x => decide (s.now ≤ x + 60000000000)).length = l.length)) ∧
    (let s := linked 3 LinkGroup.reset
     s.linkRuns 23 = true ∧ s.par (pk 0x400D 0) < 2 ^ 32 ∧ (s.link 23).rxSpare = none ∧ (s.link 23).rxSwap.phase = 0) ∧
    ((linked 3 { LinkGroup.reset with rxSpare := some 0 }).link 23).rxSpare.isSome = true ∧
    (let s := withPars (linked 5 LinkGroup.reset) [(pk 0x4008 0, 2 ^ 23)]
     s.linkState 23 = 5 ∧ bit (s.par (pk 0x4008 0)) 23 = true) := by decide +kernel

/-- A plan entry that expects group 23 of module 9, and that module's identity record. -/
def planned : Nat := 2 * 2 ^ 62 + 9 * 2 ^ 46 + 23 * 2 ^ 40
def identityOf (node : Nat) : IdRec := ⟨false, 0, node, 23, 0, 0, 0, 0⟩
theorem test_identity : (let s := withPars (linked 0 LinkGroup.reset) [(pk 0x4003 24, planned), (pk 0x4004 0, 1)]
     s.linkState 23 = 0 ∧ s.linksOn = true ∧ planKind (s.par (pk 0x4003 24)) ≠ 0 ∧ s.par (pk 0x4004 0) = 1) ∧
    (State.reset.linkState 23 = 0 ∧ State.reset.linksOn = false ∧ State.reset.linkRuns 23 = false ∧ State.reset.linkState 23 ≠ 4) ∧
    ((linked 3 LinkGroup.reset).linkRuns 23 = true ∧ 0 < nth ((linked 3 LinkGroup.reset).link 23).credits 2 ∧
      ((linked 3 LinkGroup.reset).link 23).replay.length < 1024) ∧ (linked 4 LinkGroup.reset).linkState 23 = 4 ∧
    ((linked 2 LinkGroup.reset).linkState 23 ≠ 0 ∧ (linked 2 LinkGroup.reset).linkState 23 ≠ 5 ∧
      (linked 2 LinkGroup.reset).linkState 23 ≠ 1) ∧
    ((linked 1 LinkGroup.reset).linkState 23 = 1 ∧ (linked 1 LinkGroup.reset).par (pk 0x4004 0) = 0) ∧
    (∀ v ∈ [0, planned], (let s := withEff (withPars (linked 1 LinkGroup.reset) [(pk 0x4004 0, 1)]) [(pk 0x4001 0, 5), (pk 0x4003 24, v)]
     s.linkState 23 = 1 ∧ s.par (pk 0x4004 0) ≠ 0 ∧ s.nodeId ≠ 0xFFFF ∧ (planKind (s.planEntry 23) = 0 ↔ v = 0) ∧
       bit (s.par (pk 0x4008 0)) 23 = false)) ∧
    planMatches planned (identityOf 9) = true ∧ planMatches planned (identityOf 8) = false := by decide +kernel

/-- A flit of a kind (1 DATA, 2 CONTROL) with sequence number and payload 0 and its CRC-32C. -/
def flitOf (kind crc : Nat) : List Nat := [0, 0, 0, 16 * kind] ++ List.replicate 248 0 ++ toBytes crc 4
theorem test_flits : ∀ x ∈ [(1, 0xDBEC2FB), (2, 0xB3577095)], (let s := linked 2 LinkGroup.reset
    let h := ofBytes ((flitOf x.1 x.2).take 4)
    let v := ofBytes (((flitOf x.1 x.2).drop 4).take 48)
    s.linkRuns 23 = true ∧ bits h 31 28 = x.1 ∧ bits h 15 14 ≠ 3 ∧ bits h 27 16 = (s.link 23).rxSeq ∧ bit v 31 = false ∧ bits v 95 93 = 0 ∧
      (s.link 23).queue = []) := by decide +kernel
theorem test_flit_crc : flitOk (flitOf 1 0xDBEC2FB) = true ∧ flitOk (flitOf 2 0xB3577095) = true ∧ flitOk [] = false := by
  have h : ∀ k c : Nat, crc32c ((flitOf k c).take 252) = times (crcBits 0x82F63B78 8 ·) 248 (([0, 0, 0, 16 * k] : List Nat).foldl
      (fun r b => crcBits 0x82F63B78 8 (r ^^^ (b % 256))) 0xFFFFFFFF) ^^^ 0xFFFFFFFF := by
    intro k c
    have e : (([0, 0, 0, 16 * k] : List Nat) ++ List.replicate 248 0).length = 252 := by
      rw [List.length_append, List.length_replicate]; rfl
    rw [flitOf, List.take_append_of_le_length (Nat.le_of_eq e.symm), List.take_of_length_le (Nat.le_of_eq e), crc32c, List.foldl_append,
      ← times_eq]
    simp only [Nat.zero_mod, Nat.xor_zero]
  simp only [flitOk, h]
  decide +kernel

/-- Context 255 of partition 7 as a receiver, and a packet header of node 9 of a kind, with its length, epoch, Final and count. -/
def receiving : State := withEff (opened following) [(pk 0x4001 0, 5), (pk 0x5834 8, 255)]
def packetOf (kind len epoch final : Nat) : Nat :=
  5 * 2 ^ 240 + 9 * 2 ^ 224 + kind * 2 ^ 220 + 7 * 2 ^ 217 + 255 * 2 ^ 209 + 255 * 2 ^ 201 + len * 2 ^ 188 + 4095 * 2 ^ 174 + epoch * 2 ^ 170
    + final * 2 ^ 169 + final * 2 ^ 145 + 0x1F00 * 2 ^ 81
theorem test_packets : (∀ h ∈ [packetOf 1 64 0 0, packetOf 1 0 0 1, packetOf 2 0 0 1, packetOf 2 0 15 1], (let s := receiving
     kDst h = s.nodeId ∧ s.remoteOk (kPart h) (kCtx h) (kGen h) = true ∧ s.tagDone (kSrc h) (kTag h) = false ∧ s.rxXfers.length < 16384 ∧
       (s.rxXfers.find? fun x => x.node == kSrc h && x.tag == kTag h) = none)) ∧
    (kKind (packetOf 1 64 0 0) = 1 ∧ kFinal (packetOf 1 64 0 0) = false ∧ kLength (packetOf 1 64 0 0) = 64 ∧
      kAddr (packetOf 1 64 0 0) = 0x1F00) ∧
    (kFinal (packetOf 1 0 0 1) = true ∧ kCount (packetOf 1 0 0 1) = 1) ∧
    (kKind (packetOf 2 0 0 1) = 2 ∧ kEpoch (packetOf 2 0 0 1) = receiving.par (pk 0x4012 8) % 16 ∧ kFinal (packetOf 2 0 0 1) = true ∧
      kCount (packetOf 2 0 0 1) = 1) ∧
    kEpoch (packetOf 2 0 15 1) ≠ receiving.par (pk 0x4012 8) % 16 := by decide +kernel
theorem test_packet_range : ∀ x, 0x1F00 ≤ x → x < 0x1F00 + 64 →
    (tierOf x).isT0T1 = true ∧ receiving.placed 7 x = true ∧ receiving.badAt (x / 32) = false := span 0x1F00 64 (by decide +kernel)

/-- A transfer to node 9 under tag 4095. -/
def anXfer : Xfer := ⟨9, 4095, 2, 95, 7, 255, 0, [], 0, false, none, false⟩
theorem test_transfers : (let s := { receiving with xfers := [anXfer], now := 1000000 }
    (s.xfers.find? fun y => y.node == 9 && y.tag == 4095) = some anXfer ∧ anXfer.aborted = false ∧
      (s.xferWait.find? fun y => y.node == 9) = none ∧
      anXfer.sentAt + 1000000 ≤ s.now ∧ kKind (packetOf 5 0 0 0) = 5 ∧ kKind (packetOf 6 0 0 0) = 6 ∧ kDst (packetOf 6 0 0 0) = s.nodeId ∧
      kSrc (packetOf 5 0 0 0) = 9 ∧ kTag (packetOf 5 0 0 0) = 4095) := by decide +kernel

theorem test_lost_peers : (let s := withEff (withPars (withLead leading) [(pk 0x4010 8, 65534 * 2 ^ 16)]) [(pk 0x5831 8, 2)]
     s.rankOf 7 65534 = some 1 ∧ s.serving 7 = true ∧ s.isLead 7 = true ∧ 1 < s.instSize 7 ∧ 1 ≠ s.rank 7 ∧
       bit (s.par (pk 0x4011 8)) 1 = false) ∧
    (let s := { withEff (withPars (withLead leading) [(pk 0x4010 8, 65534 * 2 ^ 16), (pk 0x4006 24, 3), (pk 0x4005 24,
      65534 * 2 ^ 16)]) [(pk 0x5831 8, 2)] with
       xfers := [{ anXfer with node := 65534 }], now := 10 ^ 12 }
     s.rankOf 7 65534 = some 1 ∧ s.serving 7 = true ∧ s.isLead 7 = true ∧ 1 < s.instSize 7 ∧ 1 ≠ s.rank 7 ∧
       bit (s.par (pk 0x4011 8)) 1 = false ∧
       max ((lookup s.heard 65534).getD 0) ([0].foldl min s.now) + s.par (pk 0x400E 0) * 1000 ≤ s.now) ∧
    ((inMode .ready).xfers = [] ∧ lookup (inMode .ready).planes 65534 = none) ∧
    (let s := withLead { leading with waitSince := some 0 }
     (s.inst 7).waitSince = some 0 ∧ s.isLead 7 = true ∧ s.serving 7 = true ∧ (s.inst 7).plan = none ∧ (s.inst 7).notice = none ∧
       (s.inst 7).standbys = []) ∧
    (withFollower following).isLead 7 = false ∧
    (let s := withPars (withLead leading) [(pk 0x4011 8, 2 ^ 63)]
     s.isLead 7 = true ∧ s.serving 7 = true ∧ bit (s.par (pk 0x4011 8)) 63 = true ∧ s.par (pk 0x4011 8) = 2 ^ 63) := by decide +kernel

theorem test_fabric_time : (let s := { inMode .ready with clock := { TimeSt.reset with stepped := true } }
     s.par (pk 0x4020 0) = 0 ∧ s.par (pk 0x4021 0) = 0 ∧ s.timeParent = none ∧ s.clock.stepped = true ∧ s.par (pk 0x4022 0) ≠ 3) ∧
    (let s := withPars (inMode .ready) [(pk 0x4020 0, 1), (pk 0x4025 0, 1), (pk 0x4024 0, 127)]
     s.par (pk 0x4020 0) = 1 ∧ s.par (pk 0x4025 0) = 1 ∧ s.par (pk 0x4024 0) = 127 ∧ s.clock.stepped = false ∧ s.clock.offsets = [] ∧
       s.clock.ptp.sync = 0 ∧ s.clock.ptp.t1 = none) ∧
    (let s := { withPars (inMode .ready) [(pk 0x4020 0, 1), (pk 0x4025 0, 1), (pk 0x4024 0, 127)] with
       clock := { TimeSt.reset with ptp := { PtpRun.reset with t1 := some 16, t3 := some 32 } } }
     s.clock.ptp.t1 = some 16 ∧ s.clock.ptp.t3 = some 32 ∧ 65535 = (s.clock.ptp.seq + 65535) % 65536 ∧ s.clock.stepped = false ∧
       s.clock.offsets = [] ∧
       s.par (pk 0x4020 0) = 1 ∧ s.par (pk 0x4025 0) = 1 ∧ s.par (pk 0x4024 0) = 127) ∧
         (inMode .ready).par (pk 0x4020 0) ≠ 1 := by decide +kernel

/-- Ethernet port 1 up with an IPv4 and an IPv6 address, priority 7 paused by PFC, one queue pair and one key. -/
def aQp : Qp :=
  ⟨2 ^ 511 + 7 * 2 ^ 508 + 3 * 2 ^ 494 + (2 ^ 24 - 1) * 2 ^ 465 + 5 * 2 ^ 441 + 6 * 2 ^ 256, 0, 8, false, [⟨4, 1, 0, 0, 64, [], none⟩], 0,
    0, 1000, 0, none⟩
def wired (q : Qp) : State :=
  { withPars (withPlaces (inMode .ready) 7 [(0, 0x2000)]) [(pk 0x4810 2, 1), (pk 0x4811 2, 9), (pk 0x4813 2, 10), (pk 0x4818 2, 128),
    (pk 0x4821 2, 1024),
      (pk 0x4823 0, 4096)] with
    now := 2 ^ 50,
    eth := { EthSt.reset with qps := [(2047, q)], keys := [(4095,
      2 ^ 154 + 2 ^ 153 + 2 ^ 152 + 7 * 2 ^ 155 + 128 * 2 ^ 158 + 0xFFFFF * 2 ^ 132)] } }
theorem test_ethernet : (wired aQp).ethUp 1 = true ∧ (wired aQp).ownIp4 1 9 = true ∧ (wired aQp).ownIp6 1 10 = true ∧
  (wired aQp).directorRuns = true ∧
    (wired aQp).mode ≠ .selftest ∧ bit ((wired aQp).par (pk 0x4818 2)) 7 = true ∧ bit ((wired aQp).par (pk 0x4818 2)) 6 = false ∧
    ((wired aQp).powered = true ∧ 2047 % 1024 < (wired aQp).par (pk 0x4821 (2047 / 1024 + 1)) ∧
      (wired aQp).clean .director ((wired aQp).par (pk 0x4820 (2047 / 1024 + 1)) + 64 * (2047 % 1024)) 64) ∧
    (4095 < (wired aQp).par (pk 0x4823 0) ∧ (wired aQp).clean .director ((wired aQp).par (pk 0x4822 0) + 32 * 4095) 32) := by decide +kernel

theorem test_queue_pairs : (∀ n ∈ [0, 3], (let q := { aQp with retries := n, rate := 999 }
     (wired q).qp (qpKey 1 1023) = some q ∧ q.unacked ≠ [] ∧ q.sentAt + qTimeout q.entry ≤ (wired q).now ∧ qRetry q.entry = 3 ∧
       q.cnpAt + 55000 ≤ (wired q).now ∧ q.rate < 1000)) ∧
    ((wired aQp).qpOf 1 (2 ^ 24 - 1) = some (2047, aQp) ∧ (aQp.unacked.any fun x => x.psn == 4 && x.op == 1) = true) := by decide +kernel

/-- A request of the queue pair's peer for 64 B at 0x1F80, under its key. -/
def aRoce (psn : Nat) : RoceReq := ⟨1, 6, 5, 2 ^ 24 - 1, psn, 4095 * 2 ^ 20 + 0xFFFFF, 0x1F80, 64, List.replicate 64 1, none, false⟩
theorem test_roce : (let r := aRoce 8
     (wired aQp).ethUp r.port = true ∧ (wired aQp).qpOf r.port r.dstQpn = some (2047, aQp) ∧
       (wired aQp).roceOk aQp { r with len := r.data.length } 153 = true ∧
       r.imm = none ∧ (wired aQp).roceOk aQp r 152 = true ∧ 0 < r.len ∧ r.len ≤ qMtu aQp.entry ∧
       (wired aQp).clean (whoOf (portRelay r.port) (qPart aQp.entry)) r.addr r.len) ∧
    (let r := aRoce 7
     (wired aQp).roceOk aQp { r with len := r.data.length } 153 = false ∧ (wired aQp).roceOk aQp r 152 = false) ∧
    (wired aQp).qpOf 1 0 = none := by decide +kernel
theorem test_roce_range : ∀ x, 0x1F80 ≤ x → x < 0x1F80 + 64 → (tierOf x).isT0T1 = true ∧ (wired aQp).badAt (x / 32) = false :=
  span 0x1F80 64 (by decide +kernel)

/-! ## The frames: one command of each group answers a next state -/

theorem test_frames : (∃ t, exec (.nop 0 okSrc) State.reset = .next t) ∧ (∃ t, exec (.cueWriteSeen 0 0) State.reset = .next t) ∧
    (∃ t, exec (.spareCellJoin 0) State.reset = .next t) ∧ (∃ t, exec (.runStart 0) State.reset = .next t) ∧
    (∃ t, exec (.ackProgressTimeout 0) State.reset = .next t) ∧ (∃ t, exec .derateN State.reset = .next t) ∧
    (∃ t, exec (.engineResetEnd 0) State.reset = .next t) ∧ (∃ t, exec .restoreDefaults State.reset = .next t) ∧
    (∃ t, exec (.highHalfRead 0 0) State.reset = .next t) ∧ (∃ t, exec .trainingEnd State.reset = .next t) :=
  ⟨⟨_, rfl⟩, ⟨_, rfl⟩, ⟨_, rfl⟩, ⟨_, rfl⟩, ⟨_, rfl⟩, ⟨_, rfl⟩, ⟨_, rfl⟩, ⟨_, rfl⟩, ⟨_, rfl⟩, ⟨_, rfl⟩⟩

/-- A WRITE of PowerCap, whose access is RW. -/
def quietWrite : Pdu := request 0x02 (itemOf 0x3010 0 3 [1, 0, 0, 0])
theorem test_quiet : QuietBody quietWrite.body ∧ (parseItems 64 quietWrite.body).isSome = true ∧
    (let s : State := { State.reset with hostPorts := [(0, { HostPort.reset with req := quietWrite.bytes.zipIdx.map fun x => (x.2, BitVec.ofNat 8 x.1) })] }
     pduOf (getBytes (s.hostPort 0).req 0 (clampTo 16 4096 (quietWrite.bytes.length % 2 ^ 13))) = some quietWrite) := by
  refine ⟨?_, by decide +kernel, by decide +kernel⟩
  unfold QuietBody QuietKey
  decide +kernel

end Sys2Proof.Tests
end

/-! SUPPORT. Block formats: what scale bytes and element codes denote (R45, R46), and how output conversion cuts a row into blocks
(R61, R62). -/
namespace Sys2Proof.Machine

/-! ## Scale bytes (R46) -/

theorem Val.isNan_iff (v : Val) : v.isNan = true ↔ v = .nan := by
  cases v <;> simp [Val.isNan]

theorem bit_eq_false_of_lt {n i : Nat} (h : n < 2 ^ i) : bit n i = false := by
  simp [bit, Nat.shiftRight_eq_div_pow, Nat.div_eq_of_lt h]

/-- A code up to that of the largest finite magnitude has its sign bit clear. -/
theorem Flt.dec_nonneg {f : Flt} (hs : f.maxMag < f.sign) {code : Nat} (h : code ≤ f.maxMag) :
    ∃ n x, f.dec code = .fin false n x := by
  have hlt : code < f.sign := Nat.lt_of_le_of_lt h hs
  have hneg : bit code (f.eb + f.mb) = false := bit_eq_false_of_lt hlt
  simp only [Flt.dec, hneg, Nat.mod_eq_of_lt hlt, if_pos h]
  split
  · exact ⟨_, _, rfl⟩
  · exact ⟨_, _, rfl⟩

theorem Fmt.scaleVal_of_isK {f : Fmt} (h : f.isK = true) (byte : Nat) : f.scaleVal byte = fE4m3.dec (byte % 128) := by
  simp [Fmt.scaleVal, h]

theorem Fmt.scaleVal_of_mx {f : Fmt} (hk : f.isK = false) (hb : f.block ≠ 0) {byte : Nat} (h : byte < 256) :
    f.scaleVal byte = if byte = 255 then .nan else .fin false 1 ((byte : Int) - 127) := by
  simp [Fmt.scaleVal, hk, hb, Nat.mod_eq_of_lt h]

@[simp] theorem blockValue_nan (e : Val) : blockValue .nan e = .nan := rfl

theorem blockValue_isZero {neg : Bool} {x : Int} (e : Val) : (blockValue (.fin neg 0 x) e).isZero = true := by
  simp [blockValue, underScale, Val.isNan, Val.isZero, Val.zero, Val.mul]

/-! ## Element codes of KT2 and KI2 (R45) -/

theorem Fmt.dec_kt2 (code : Nat) : Fmt.kt2.dec code = Val.ofInt (([0, 1, 0, -1] : List Int).getD (code % 4) 0) := by
  have h : ∀ c < 4, (nth [0, 1, 0, 0] c : Int) - (if c == 3 then 1 else 0) = ([0, 1, 0, -1] : List Int).getD c 0 := by decide
  exact congrArg Val.ofInt (h (code % 4) (Nat.mod_lt _ (by decide)))

theorem Fmt.dec_ki2 (code : Nat) : Fmt.ki2.dec code = Val.ofInt (([0, 1, -2, -1] : List Int).getD (code % 4) 0) := by
  have h : ∀ c < 4, toSigned 2 c = ([0, 1, -2, -1] : List Int).getD c 0 := by decide
  have hmod : toSigned 2 code = toSigned 2 (code % 4) := by simp [toSigned]
  exact congrArg Val.ofInt (hmod.trans (h (code % 4) (Nat.mod_lt _ (by decide))))

/-! ## One output block -/

@[simp] theorem convAll_codes_length {α : Type} (conv : α → Nat × Conv) (ys : List α) :
    (convAll conv ys).1.length = ys.length := by
  simp [convAll]

theorem mxBlock_codes_length (f : Fmt) (ys : List Val) : (mxBlock f ys).codes.length = ys.length := by
  unfold mxBlock
  split
  · split
    · exact List.length_map _
    · exact convAll_codes_length _ ys
  · exact List.length_map _

theorem kBlock_codes_length (f : Fmt) (t : Nat) (ys : List Nat) : (kBlock f t ys).codes.length = ys.length := by
  unfold kBlock
  split
  · split
    · exact List.length_map _
    · exact (convAll_codes_length _ _).trans (List.length_map _)
  · exact List.length_map _

theorem convBlock_codes_length (f : Fmt) (t : Nat) (ys : List Nat) : (convBlock f t ys).codes.length = ys.length := by
  unfold convBlock
  split
  · split
    · exact kBlock_codes_length f t ys
    · exact (mxBlock_codes_length f _).trans (List.length_map _)
  · exact List.length_map _

/-- One element that is not finite makes the whole block NaN (R61). -/
theorem convBlock_of_not_finite (f : Fmt) (t : Nat) {ys : List Nat} (h : ∃ y ∈ ys, f32IsFinite y = false) :
    convBlock f t ys = ⟨ys.map fun _ => 0, if f.isK then 0x7F else 0xFF, ⟨0, 1, 0, 0⟩⟩ := by
  obtain ⟨y, hy, hfin⟩ := h
  have hall : ¬ ys.all f32IsFinite = true := fun hall => by simp [List.all_eq_true.mp hall y hy] at hfin
  exact if_neg hall

/-- What `convBlock` writes as the scale of a NaN block reads as NaN. -/
theorem Fmt.scaleVal_nanScale {f : Fmt} (hb : f.block ≠ 0) : f.scaleVal (if f.isK then 0x7F else 0xFF) = .nan := by
  cases hk : f.isK with
  | true => exact Fmt.scaleVal_of_isK hk 0x7F
  | false => exact Fmt.scaleVal_of_mx hk hb (byte := 0xFF) (by decide)

/-! ## A row cut into blocks -/

@[simp] theorem chunksOf_nil {α : Type} (k fuel : Nat) : chunksOf k fuel ([] : List α) = [] := by
  cases fuel <;> simp [chunksOf]

theorem chunksOf_succ {α : Type} (k fuel : Nat) {l : List α} (h : 0 < l.length) :
    chunksOf k (fuel + 1) l = l.take k :: chunksOf k fuel (l.drop k) := by
  simp [chunksOf, List.ne_nil_of_length_pos h]

/-- A partial piece after m whole ones is a piece of its own, and the whole ones are cut as they are without it. -/
theorem chunksOf_append_partial {α : Type} {k : Nat} {zs : List α} (h0 : 0 < zs.length) (hk : zs.length < k)
    {m fuel fuel' : Nat} {ys : List α} (hys : ys.length = m * k) (hfuel : m < fuel) (hfuel' : m ≤ fuel') :
    chunksOf k fuel (ys ++ zs) = chunksOf k fuel' ys ++ [zs] := by
  induction m generalizing ys fuel fuel' with
  | zero =>
    obtain ⟨n, rfl⟩ := Nat.exists_eq_add_one_of_ne_zero (Nat.ne_of_gt hfuel)
    obtain rfl : ys = [] := List.eq_nil_of_length_eq_zero (by simpa using hys)
    simp [chunksOf_succ k n h0, List.take_of_length_le hk.le, List.drop_of_length_le hk.le]
  | succ m ih =>
    obtain ⟨n, rfl⟩ := Nat.exists_eq_add_one_of_ne_zero (Nat.ne_zero_of_lt hfuel)
    obtain ⟨n', rfl⟩ := Nat.exists_eq_add_one_of_ne_zero (Nat.ne_zero_of_lt hfuel')
    have hlen : ys.length = m * k + k := by rw [hys, Nat.succ_mul]
    have hle : k ≤ ys.length := by omega
    have hrest : (ys.drop k).length = m * k := by simp [hlen]
    rw [chunksOf_succ k n (by simp; omega), chunksOf_succ k n' (by omega), List.take_append_of_le_length hle,
      List.drop_append_of_le_length hle, ih hrest (Nat.lt_of_succ_lt_succ hfuel) (Nat.le_of_succ_le_succ hfuel'),
      List.cons_append]

theorem convRow_scales {f : Fmt} (hb : f.block ≠ 0) (t : Nat) (ys : List Nat) :
    (convRow f t ys).scales = (chunksOf f.block (ys.length + 1) ys).map fun b => (convBlock f t b).scale := by
  simp [convRow, hb]

/-- Every block of a row is filled up with zeros to its whole size (R62). -/
theorem convRow_codes {f : Fmt} (hb : f.block ≠ 0) (t : Nat) (ys : List Nat) :
    (convRow f t ys).codes = (chunksOf f.block (ys.length + 1) ys).flatMap fun b =>
      (convBlock f t b).codes ++ List.replicate (f.block - b.length) 0 := by
  simp [convRow, hb, List.flatMap_map, convBlock_codes_length]

/-- `convRow` cuts m whole blocks and a partial one as it cuts the whole ones, with one piece more. -/
theorem rowBlocks_append_partial {f : Fmt} {m : Nat} {ys zs : List Nat} (hb : f.block ≠ 0) (hys : ys.length = m * f.block)
    (h0 : 0 < zs.length) (hk : zs.length < f.block) :
    chunksOf f.block ((ys ++ zs).length + 1) (ys ++ zs) = chunksOf f.block (ys.length + 1) ys ++ [zs] := by
  have hm : m ≤ ys.length := hys ▸ Nat.le_mul_of_pos_right m (Nat.pos_of_ne_zero hb)
  exact chunksOf_append_partial h0 hk hys (by simp; omega) (by omega)

/-! ## The statements -/

/-- Settles O8: a block that is not all finite takes the NaN branch of `convBlock`, and a partial last block is cut off as the last piece
of its row. -/
theorem outputBlocks : Obligations.OutputBlocks := by
  unfold Obligations.OutputBlocks
  refine ⟨fun f t ys hb hnf => ?_, fun f t m ys zs hb hys h0 hk => ?_⟩
  · rw [convBlock_of_not_finite f t hnf]
    refine ⟨rfl, by simp, fun e => ?_⟩
    rw [Fmt.scaleVal_nanScale hb, blockValue_nan]
  · have hcut := rowBlocks_append_partial hb hys h0 hk
    refine ⟨?_, convBlock_codes_length f t zs, ?_⟩
    · rw [convRow_scales hb, convRow_scales hb, hcut]
      simp
    · rw [convRow_codes hb, convRow_codes hb, hcut]
      simp

/-- Settles O7: a K-format scale is an E4M3 code below 128, which is 0, finite and not negative, or the NaN code 127; an MX scale is its
own case. -/
theorem blockScales : Obligations.BlockScales := by
  unfold Obligations.BlockScales
  refine ⟨fun code => ⟨Fmt.dec_kt2 code, Fmt.dec_ki2 code⟩, fun f byte e hk => ?_, fun f byte e hnan => ?_,
    fun f byte hk hb hlt => Fmt.scaleVal_of_mx hk hb hlt⟩
  · simp only [Fmt.scaleVal_of_isK hk, Nat.mod_mod]
    refine ⟨trivial, rfl, fun hne => ?_, fun hzero => ?_⟩
    · have hle : byte % 128 ≤ fE4m3.maxMag := by
        have hlt : byte % 128 < 128 := Nat.mod_lt _ (by decide)
        simp only [fE4m3]
        omega
      exact Flt.dec_nonneg (by decide) hle
    · rw [hzero]
      exact blockValue_isZero (neg := false) (x := fE4m3.emin) e
  · rw [(Val.isNan_iff _).mp hnan, blockValue_nan]

end Sys2Proof.Machine

/-! SUPPORT. The address map of R96, one lemma per row of its table. A stack, loft aperture or host window is addressed as its base plus an
offset within it. In each proof `omega` decides the comparisons of `tierOf` up to the address's row, and `hdiv` says which stack,
region or port the address names. -/
namespace Sys2Proof.Machine

theorem tierOf_stackBase_add {st x : Nat} (hst : st < 12) (hx : x < 0x1000000000) :
    tierOf (0x1000000000 * st + x) = .stack st := by
  have hdiv : (0x1000000000 * st + x) / 0x1000000000 = st := by omega
  simp (disch := omega) only [tierOf, if_pos, hdiv]

theorem tierOf_aboveStacks {a : Nat} (hlo : 0xC000000000 ≤ a) (hhi : a < 0x10000000000) : tierOf a = .reserved := by
  simp (disch := omega) only [tierOf, if_neg, if_pos]

/-- Only the first 768 MiB of the 1 GiB aperture of a region are mapped. -/
theorem tierOf_loftBase_add {r x : Nat} (hr : r < 4) (hx : x < 0x40000000) :
    tierOf (0x10000000000 + 0x40000000 * r + x) = if x < 768 * 2 ^ 20 then .loft r else .reserved := by
  have hdiv : (0x10000000000 + 0x40000000 * r + x - 0x10000000000) / 0x40000000 = r := by omega
  have hmod : (0x10000000000 + 0x40000000 * r + x - 0x10000000000) % 0x40000000 = x := by omega
  simp (disch := omega) only [tierOf, if_neg, if_pos, hdiv, hmod, Nat.reducePow, Nat.reduceMul]

theorem tierOf_aboveLoft {a : Nat} (hlo : 0x10100000000 ≤ a) (hhi : a < 0x100000000000) : tierOf a = .reserved := by
  simp (disch := omega) only [tierOf, if_neg, if_pos]

theorem tierOf_vaultRange {a : Nat} (hlo : 0x100000000000 ≤ a) (hhi : a < 0x200000000000) : tierOf a = .vault := by
  simp (disch := omega) only [tierOf, if_neg, if_pos]

theorem tierOf_aboveVault {a : Nat} (hlo : 0x200000000000 ≤ a) (hhi : a < 0x400000000000) : tierOf a = .reserved := by
  simp (disch := omega) only [tierOf, if_neg, if_pos]

theorem tierOf_windowBase_add {h x : Nat} (hh : h < 4) (hx : x < 2 ^ 44) :
    tierOf (0x400000000000 + 0x100000000000 * h + x) = .host h := by
  have hdiv : (0x400000000000 + 0x100000000000 * h + x - 0x400000000000) / 0x100000000000 = h := by omega
  simp (disch := omega) only [tierOf, if_neg, if_pos, hdiv]

theorem tierOf_aboveWindows {a : Nat} (hlo : 0x800000000000 ≤ a) : tierOf a = .reserved := by
  simp (disch := omega) only [tierOf, if_neg]

/-- Settles O4: the table of R96 row by row, and no two addresses below its end share a cell (`State.cellKey_inj`; that a host window
keeps its bytes by host bus address is log entry 28). -/
theorem addressMap : Obligations.AddressMap := by
  unfold Obligations.AddressMap
  exact ⟨fun _ _ => tierOf_stackBase_add, fun _ => tierOf_aboveStacks, fun _ _ => tierOf_loftBase_add, fun _ => tierOf_aboveLoft,
    fun _ => tierOf_vaultRange, fun _ => tierOf_aboveVault, fun _ _ => tierOf_windowBase_add, fun _ => tierOf_aboveWindows,
    fun s _ _ => s.cellKey_inj⟩

end Sys2Proof.Machine
